-- ==== Sys2Proof/Word.lean ====
section
/-! DEFINITION. The word types of the part and their plainest arithmetic (R6/00, R93/04). -/

namespace Sys2Proof

/-- A byte of memory. -/
abbrev Byte := BitVec 8

/-- An instruction word, and a lane's vector register (R93/04). -/
abbrev Word := BitVec 32

/-- A scalar register (R93/04). -/
abbrev Dword := BitVec 64

/-- A device virtual address, and a lane program counter (R93, R97/04). -/
abbrev Vaddr := BitVec 56

/-- A mask with one bit a lane (R93/04). -/
abbrev Mask := BitVec 64

end Sys2Proof
end

