-- ==== Sys2Proof/Syntax.lean ====
section
/-! DEFINITION. The instructions of the Skelvogor S8 as data: the shared codes of R256/12 and one constructor for each row of the opcode table. -/

namespace Sys2Proof

/-- Access widths (R256/12). -/
inductive Width where
  | b8 | b16 | b32 | b64 | b128
deriving DecidableEq, Repr

/-- Scopes (R207/10, codes of R256/12). -/
inductive Scope where
  | sheaf | team | core | clus | fld | dev | sys
deriving DecidableEq, Repr

/-- Orderings (R208/10, codes of R256/12). -/
inductive Ordering where
  | rlx | acq | rel | ar | sc
deriving DecidableEq, Repr

/-- Address spaces (R27/01, codes of R256/12). -/
inductive Space where
  | ln | sp | cl | bn | gl | ac
deriving DecidableEq, Repr

/-- Rounding codes of `cvt` (R256/12). -/
inductive Rounding where
  | ctrl | rne | rtz | rdn | rup
deriving DecidableEq, Repr

/-- Element types with an assigned `cvt` code (R256, R265/12). -/
inductive ElemType where
  | i8 | i16 | i32 | i64 | n8 | n16 | n32 | n64 | f16 | bf16 | f32 | f64 | e4m3 | e5m2
deriving DecidableEq, Repr

/-- Operations of the atomics (R264/12). -/
inductive AtomOp where
  | addI32 | addI64 | faddF16 | faddBf16 | faddF32 | faddF64
  | minI32 | minN32 | minI64 | minN64 | maxI32 | maxN32 | maxI64 | maxN64
  | andB32 | andB64 | orB32 | orB64 | xorB32 | xorB64 | exchB32 | exchB64 | casB32 | casB64
deriving DecidableEq, Repr

/-- The idx-or-imm7 field of format RM (R263/12): a per-lane index vector v0 to v63, or a uniform multiple of the size. -/
inductive Idx where
  | vec (n : Nat)
  | imm (k : Nat)
deriving DecidableEq, Repr

/-- Trap causes (R107/04). -/
inductive Cause where
  | illop | priv | regback | align | space | perm | xlate1 | xlate2 | uncorr | copyiss | lookahead | saturate
  | collstall | notice | expand | region | brk | trap | watch | fpx
deriving DecidableEq, Repr

/-- A pooled memory decoder (R385/19). -/
structure Decoder where
  base : Nat
  size : Nat
  granularity : Nat
  ports : List Nat
deriving DecidableEq, Repr

/-- What bring-up step 2 writes (R391/19, R128/05): decoders, barn page table entries (field, page, entry), granary MiB. -/
structure MemoryPolicy where
  decoders : List (Nat × Decoder)
  barn : List (Nat × Nat × BitVec 32)
  granary : List (Nat × Nat)
deriving DecidableEq, Repr

/-- What bring-up step 3 writes (R391/19): ramp tables (cluster, RAMPLO, RAMPHI), the cap, the clock. -/
structure PowerPolicy where
  ramps : List (Nat × BitVec 64 × BitVec 64)
  capW : Nat
  clockMHz : Nat
deriving DecidableEq, Repr

/-- Registers without behaviour of their own that firmware and system software write (R382/19, R388/19). -/
inductive RegTarget where
  | hostErrBase | hostErrHead
  | contextEntry (ctx off : Nat)
  | barnPage (field page : Nat)
  | granary (field : Nat)
  | exportBase (ctx : Nat) | exportSize (ctx : Nat)
  | contextVector (ctx : Nat) | wordVector (ctx addr : Nat)
  | energyCalibration (counter : Nat) | hostCounter (counter : Nat)
  | powerCap | coreClock | linkKey (link word : Nat) | coreLoan (core : Nat)
  | exchangeDeadline | saveDeadline
  | reserved (off : Nat)
deriving DecidableEq, Repr

/-- A reclaim request (R240/11). -/
structure Reclaim where
  ctx : Nat
  cores : List Nat
  slots : Nat
  regs : Nat
  pages : Nat
deriving DecidableEq, Repr

/-- Who asks: a ring entry of type 0x05 (R169/07), or the scheduling core (R388/19). -/
inductive ReclaimSource where
  | ring (q : Nat)
  | firmware (r : Reclaim)
deriving DecidableEq, Repr

/-- A function that can fail (R248/11). -/
inductive FuncId where
  | core (n : Nat) | engine (field code : Nat) | port (n : Nat) | link (n : Nat) | fleskapa (n : Nat)
deriving DecidableEq, Repr

/-- An uncorrectable error as its monitor reports it (R248/11, R149/06, R171/07). -/
structure ErrorReport where
  ctx : Nat
  addr : BitVec 64
  port : Nat
  pc : BitVec 64
  failed : Option FuncId
deriving DecidableEq, Repr

/-- What reaches a module of an exchange stream (R370, R371/18): its header, or, once that is matched, its rows; `id` is the sender's number for
the stream, this module's being the number of the job that sends it. -/
structure Stream where
  src : Nat
  tag : BitVec 32
  rows : Nat
  data : Option (List (BitVec 8))
  id : Nat := 0
deriving DecidableEq, Repr

/-- An access from a peer module (R386/19): a read of `len` bytes, or a write of `data`. -/
structure PeerAccess where
  module : Nat
  ctx : Nat
  offset : Nat
  write : Bool
  len : Nat
  data : List (BitVec 8)
deriving DecidableEq, Repr


/-- The signature of a firmware bundle (R389/19): does it hold under the public key that comes with it, and that key's hash. -/
structure BundleSignature where
  ok : Bool
  key : List (BitVec 8)
deriving DecidableEq, Repr

/-- The instructions and events of the part: one constructor a row of the opcode table (R251 to R265/12).
The events of the device and of the outside have no bits; their constructors carry what the event brings. -/
inductive Instr where
  | moduleReset
  | firmwareBundleVerification (sig : BundleSignature) (version : Nat) (sysCtx : Option Nat)
  | bringUpMemory (ok : Bool) (p : MemoryPolicy)
  | bringUpPower (ok : Bool) (p : PowerPolicy)
  | bringUpFabric (ok : Bool) (device : BitVec 13)
  | bringUpQueues (ok : Bool) (queues : List Nat)
  | spdmMeasurementRequest (nonce : List (BitVec 8))
  | physicalSubmissionRegisterWrite (v : BitVec 64)
  | allowListEntryWrite (q off : Nat) (bytes : List (BitVec 8))
  | rampTableWrite (cluster : Nat) (high : Bool) (v : BitVec 64)
  | pooledMemoryDecoderWrite (n : Nat) (d : Option Decoder)
  | registerWrite (r : RegTarget) (v : BitVec 64)
  | noOperation (q : Nat)
  | launch (q : Nat)
  | engineJobCard (q : Nat)
  | signalEventWord (q : Nat)
  | waitEventWord (q : Nat)
  | eventWordWaitSatisfied (q : Nat)
  | reclaimRequest (src : ReclaimSource)
  | parkContext (q : Nat)
  | resumeContext (q : Nat)
  | translationInvalidation (q : Nat)
  | launchDispatch
  | launchRetirement (l : Nat)
  | sheafMadeResident (l n core slot : Nat)
  | carveOutChange (core idx : Nat)
  | fairnessPeriodExpiry (sheaf : Nat)
  | starvingSheaf (sheaf : Nat)
  | foldQuantumExpiry (core ctx group : Nat)
  | taskTake (core slot : Nat)
  | taskSteal (core slot : Nat)
  | phaseResume (core slot : Nat)
  | loadDataArrival (sheaf pend : Nat)
  | loadFaultMappingMade (sheaf pend : Nat)
  | loadFaultWaitTimeout (sheaf pend : Nat)
  | collstallTimeout (sheaf : Nat)
  | noticeTrap (sheaf : Nat)
  | forcedSqueeze (core ctx : Nat)
  | squeezeCompletion (core ctx : Nat)
  | expansionStep (core ctx : Nat)
  | scratchPageMove (core ctx : Nat)
  | matrixCommandStart (core cmd : Nat)
  | rampGovernorStep (cluster : Nat)
  | ringSlotWaitEnd (core cmd : Nat)
  | matrixQuiescentStop (core cmd : Nat)
  | matrixCommandResume (core cmd : Nat)
  | matrixCommandCompletion (core cmd : Nat)
  | matrixFifoPostResume (sheaf : Nat)
  | engineQueuePostResume (sheaf : Nat)
  | jobStart (job : Nat)
  | copyChunkLanding (job chunk : Nat)
  | jobCompletion (job : Nat)
  | engineXlate2Timeout (job : Nat)
  | exchangeStreamArrival (st : Stream)
  | exchangeHeaderAdmission
  | exchangeDeadlineExpiry (job : Nat)
  | mergeLineAction (job : Nat)
  | joinCompletion (job : Nat)
  | sequencerTicket
  | remoteStoreAcknowledgement (k : Nat) (fail : Option Cause)
  | l2LineEviction (line : Nat)
  | twaitCompletion (sheaf : Nat)
  | cwaitCompletion (sheaf : Nat)
  | saveResume (ctx : Nat)
  | saveDeadlineExpiry (ctx : Nat)
  | uncorrectableError (e : ErrorReport)
  | jobReplay (job : Nat)
  | launchRestart (l : Nat)
  | brynozLinkFailure (link : Nat)
  | peerModuleFailure (m : Nat)
  | powerCapInterval
  | thermalTrip
  | mailboxMessage (core sender : Nat) (msg : List (BitVec 8))
  | illegalInstruction (w : BitVec 32)
  | fetchFault
  | reservedCommandType (q : Nat)
  | peerAccessArrival (a : PeerAccess)
  | streamFailedByPeer (job idx : Nat)
  | engineAccessMappingMade (job : Nat)
  | fillerFinished (core quad : Nat)
  | sadd (d : Nat) (a : Nat) (b : Nat)
  | ssub (d : Nat) (a : Nat) (b : Nat)
  | smul (d : Nat) (a : Nat) (b : Nat)
  | smulhI64 (d : Nat) (a : Nat) (b : Nat)
  | smulhN64 (d : Nat) (a : Nat) (b : Nat)
  | sand (d : Nat) (a : Nat) (b : Nat)
  | sor (d : Nat) (a : Nat) (b : Nat)
  | sxor (d : Nat) (a : Nat) (b : Nat)
  | sshl (d : Nat) (a : Nat) (b : Nat)
  | sshrN64 (d : Nat) (a : Nat) (b : Nat)
  | sshrI64 (d : Nat) (a : Nat) (b : Nat)
  | sminI64 (d : Nat) (a : Nat) (b : Nat)
  | sminN64 (d : Nat) (a : Nat) (b : Nat)
  | smaxI64 (d : Nat) (a : Nat) (b : Nat)
  | smaxN64 (d : Nat) (a : Nat) (b : Nat)
  | sdivI64 (d : Nat) (a : Nat) (b : Nat)
  | sdivN64 (d : Nat) (a : Nat) (b : Nat)
  | sremI64 (d : Nat) (a : Nat) (b : Nat)
  | sremN64 (d : Nat) (a : Nat) (b : Nat)
  | sseq (d : Nat) (a : Nat) (b : Nat)
  | ssne (d : Nat) (a : Nat) (b : Nat)
  | ssltI64 (d : Nat) (a : Nat) (b : Nat)
  | ssltN64 (d : Nat) (a : Nat) (b : Nat)
  | ssleI64 (d : Nat) (a : Nat) (b : Nat)
  | ssleN64 (d : Nat) (a : Nat) (b : Nat)
  | spopc (d : Nat) (a : Nat)
  | sclz (d : Nat) (a : Nat)
  | sctz (d : Nat) (a : Nat)
  | sbrev (d : Nat) (a : Nat)
  | smov (d : Nat) (a : Nat)
  | saddi (d : Nat) (a : Nat) (i : BitVec 11)
  | sandi (d : Nat) (a : Nat) (i : BitVec 11)
  | sori (d : Nat) (a : Nat) (i : BitVec 11)
  | sxori (d : Nat) (a : Nat) (i : BitVec 11)
  | sshli (d : Nat) (a : Nat) (i : BitVec 6)
  | sshriN64 (d : Nat) (a : Nat) (i : BitVec 6)
  | sshriI64 (d : Nat) (a : Nat) (i : BitVec 6)
  | ssltiI64 (d : Nat) (a : Nat) (i : BitVec 11)
  | ssltiN64 (d : Nat) (a : Nat) (i : BitVec 11)
  | smuli (d : Nat) (a : Nat) (i : BitVec 11)
  | nop
  | exit
  | yield
  | ret (a : Nat)
  | brk
  | bra (o : BitVec 18)
  | bnz (c : Nat) (o : BitVec 18)
  | bz (c : Nat) (o : BitVec 18)
  | bnzv (c : Nat) (o : BitVec 18)
  | bzv (c : Nat) (o : BitVec 18)
  | call (c : Nat) (o : BitVec 18)
  | loop (d : Nat) (v : Bool) (k : Nat) (n : Nat)
  | li (d : Nat) (i : BitVec 18)
  | sli (d : Nat) (i : BitVec 18)
  | vli (d : Nat) (i : BitVec 18)
  | addaX1 (d : Nat) (a : Nat) (b : Nat)
  | addaX2 (d : Nat) (a : Nat) (b : Nat)
  | addaX4 (d : Nat) (a : Nat) (b : Nat)
  | addaX8 (d : Nat) (a : Nat) (b : Nat)
  | addaX16 (d : Nat) (a : Nat) (b : Nat)
  | addaV (d : Nat) (a : Nat) (b : Nat)
  | wbase (i : BitVec 18)
  | wshift (i : BitVec 11)
  | vmov (d : Nat) (a : Nat)
  | vbcast (d : Nat) (a : Nat)
  | vbcast64 (d : Nat) (a : Nat)
  | vget (d : Nat) (a : Nat) (b : Nat)
  | vput (d : Nat) (a : Nat) (b : Nat)
  | addI32Vv (d : Nat) (a : Nat) (b : Nat)
  | subI32Vv (d : Nat) (a : Nat) (b : Nat)
  | mulI32Vv (d : Nat) (a : Nat) (b : Nat)
  | mulhI32Vv (d : Nat) (a : Nat) (b : Nat)
  | mulhN32Vv (d : Nat) (a : Nat) (b : Nat)
  | minI32Vv (d : Nat) (a : Nat) (b : Nat)
  | minN32Vv (d : Nat) (a : Nat) (b : Nat)
  | maxI32Vv (d : Nat) (a : Nat) (b : Nat)
  | maxN32Vv (d : Nat) (a : Nat) (b : Nat)
  | andB32Vv (d : Nat) (a : Nat) (b : Nat)
  | orB32Vv (d : Nat) (a : Nat) (b : Nat)
  | xorB32Vv (d : Nat) (a : Nat) (b : Nat)
  | shlB32Vv (d : Nat) (a : Nat) (b : Nat)
  | shrN32Vv (d : Nat) (a : Nat) (b : Nat)
  | shrI32Vv (d : Nat) (a : Nat) (b : Nat)
  | addsI32Vv (d : Nat) (a : Nat) (b : Nat)
  | addI32Vs (d : Nat) (a : Nat) (b : Nat)
  | subI32Vs (d : Nat) (a : Nat) (b : Nat)
  | mulI32Vs (d : Nat) (a : Nat) (b : Nat)
  | mulhI32Vs (d : Nat) (a : Nat) (b : Nat)
  | mulhN32Vs (d : Nat) (a : Nat) (b : Nat)
  | minI32Vs (d : Nat) (a : Nat) (b : Nat)
  | minN32Vs (d : Nat) (a : Nat) (b : Nat)
  | maxI32Vs (d : Nat) (a : Nat) (b : Nat)
  | maxN32Vs (d : Nat) (a : Nat) (b : Nat)
  | andB32Vs (d : Nat) (a : Nat) (b : Nat)
  | orB32Vs (d : Nat) (a : Nat) (b : Nat)
  | xorB32Vs (d : Nat) (a : Nat) (b : Nat)
  | shlB32Vs (d : Nat) (a : Nat) (b : Nat)
  | shrN32Vs (d : Nat) (a : Nat) (b : Nat)
  | shrI32Vs (d : Nat) (a : Nat) (b : Nat)
  | addsI32Vs (d : Nat) (a : Nat) (b : Nat)
  | addI64Vv (d : Nat) (a : Nat) (b : Nat)
  | subI64Vv (d : Nat) (a : Nat) (b : Nat)
  | mulI64Vv (d : Nat) (a : Nat) (b : Nat)
  | mulhI64Vv (d : Nat) (a : Nat) (b : Nat)
  | mulhN64Vv (d : Nat) (a : Nat) (b : Nat)
  | minI64Vv (d : Nat) (a : Nat) (b : Nat)
  | minN64Vv (d : Nat) (a : Nat) (b : Nat)
  | maxI64Vv (d : Nat) (a : Nat) (b : Nat)
  | maxN64Vv (d : Nat) (a : Nat) (b : Nat)
  | andB64Vv (d : Nat) (a : Nat) (b : Nat)
  | orB64Vv (d : Nat) (a : Nat) (b : Nat)
  | xorB64Vv (d : Nat) (a : Nat) (b : Nat)
  | shlB64Vv (d : Nat) (a : Nat) (b : Nat)
  | shrN64Vv (d : Nat) (a : Nat) (b : Nat)
  | shrI64Vv (d : Nat) (a : Nat) (b : Nat)
  | addsI64Vv (d : Nat) (a : Nat) (b : Nat)
  | addI64Vs (d : Nat) (a : Nat) (b : Nat)
  | subI64Vs (d : Nat) (a : Nat) (b : Nat)
  | mulI64Vs (d : Nat) (a : Nat) (b : Nat)
  | mulhI64Vs (d : Nat) (a : Nat) (b : Nat)
  | mulhN64Vs (d : Nat) (a : Nat) (b : Nat)
  | minI64Vs (d : Nat) (a : Nat) (b : Nat)
  | minN64Vs (d : Nat) (a : Nat) (b : Nat)
  | maxI64Vs (d : Nat) (a : Nat) (b : Nat)
  | maxN64Vs (d : Nat) (a : Nat) (b : Nat)
  | andB64Vs (d : Nat) (a : Nat) (b : Nat)
  | orB64Vs (d : Nat) (a : Nat) (b : Nat)
  | xorB64Vs (d : Nat) (a : Nat) (b : Nat)
  | shlB64Vs (d : Nat) (a : Nat) (b : Nat)
  | shrN64Vs (d : Nat) (a : Nat) (b : Nat)
  | shrI64Vs (d : Nat) (a : Nat) (b : Nat)
  | addsI64Vs (d : Nat) (a : Nat) (b : Nat)
  | addF16Vv (d : Nat) (a : Nat) (b : Nat)
  | subF16Vv (d : Nat) (a : Nat) (b : Nat)
  | mulF16Vv (d : Nat) (a : Nat) (b : Nat)
  | divF16Vv (d : Nat) (a : Nat) (b : Nat)
  | minF16Vv (d : Nat) (a : Nat) (b : Nat)
  | maxF16Vv (d : Nat) (a : Nat) (b : Nat)
  | fmaF16Vv (d : Nat) (a : Nat) (b : Nat)
  | fmsF16Vv (d : Nat) (a : Nat) (b : Nat)
  | fnmaF16Vv (d : Nat) (a : Nat) (b : Nat)
  | copysignF16Vv (d : Nat) (a : Nat) (b : Nat)
  | addF16Vs (d : Nat) (a : Nat) (b : Nat)
  | subF16Vs (d : Nat) (a : Nat) (b : Nat)
  | mulF16Vs (d : Nat) (a : Nat) (b : Nat)
  | divF16Vs (d : Nat) (a : Nat) (b : Nat)
  | minF16Vs (d : Nat) (a : Nat) (b : Nat)
  | maxF16Vs (d : Nat) (a : Nat) (b : Nat)
  | fmaF16Vs (d : Nat) (a : Nat) (b : Nat)
  | fmsF16Vs (d : Nat) (a : Nat) (b : Nat)
  | fnmaF16Vs (d : Nat) (a : Nat) (b : Nat)
  | copysignF16Vs (d : Nat) (a : Nat) (b : Nat)
  | addF32Vv (d : Nat) (a : Nat) (b : Nat)
  | subF32Vv (d : Nat) (a : Nat) (b : Nat)
  | mulF32Vv (d : Nat) (a : Nat) (b : Nat)
  | divF32Vv (d : Nat) (a : Nat) (b : Nat)
  | minF32Vv (d : Nat) (a : Nat) (b : Nat)
  | maxF32Vv (d : Nat) (a : Nat) (b : Nat)
  | fmaF32Vv (d : Nat) (a : Nat) (b : Nat)
  | fmsF32Vv (d : Nat) (a : Nat) (b : Nat)
  | fnmaF32Vv (d : Nat) (a : Nat) (b : Nat)
  | copysignF32Vv (d : Nat) (a : Nat) (b : Nat)
  | addF32Vs (d : Nat) (a : Nat) (b : Nat)
  | subF32Vs (d : Nat) (a : Nat) (b : Nat)
  | mulF32Vs (d : Nat) (a : Nat) (b : Nat)
  | divF32Vs (d : Nat) (a : Nat) (b : Nat)
  | minF32Vs (d : Nat) (a : Nat) (b : Nat)
  | maxF32Vs (d : Nat) (a : Nat) (b : Nat)
  | fmaF32Vs (d : Nat) (a : Nat) (b : Nat)
  | fmsF32Vs (d : Nat) (a : Nat) (b : Nat)
  | fnmaF32Vs (d : Nat) (a : Nat) (b : Nat)
  | copysignF32Vs (d : Nat) (a : Nat) (b : Nat)
  | addBf16Vv (d : Nat) (a : Nat) (b : Nat)
  | subBf16Vv (d : Nat) (a : Nat) (b : Nat)
  | mulBf16Vv (d : Nat) (a : Nat) (b : Nat)
  | divBf16Vv (d : Nat) (a : Nat) (b : Nat)
  | minBf16Vv (d : Nat) (a : Nat) (b : Nat)
  | maxBf16Vv (d : Nat) (a : Nat) (b : Nat)
  | fmaBf16Vv (d : Nat) (a : Nat) (b : Nat)
  | fmsBf16Vv (d : Nat) (a : Nat) (b : Nat)
  | fnmaBf16Vv (d : Nat) (a : Nat) (b : Nat)
  | copysignBf16Vv (d : Nat) (a : Nat) (b : Nat)
  | addBf16Vs (d : Nat) (a : Nat) (b : Nat)
  | subBf16Vs (d : Nat) (a : Nat) (b : Nat)
  | mulBf16Vs (d : Nat) (a : Nat) (b : Nat)
  | divBf16Vs (d : Nat) (a : Nat) (b : Nat)
  | minBf16Vs (d : Nat) (a : Nat) (b : Nat)
  | maxBf16Vs (d : Nat) (a : Nat) (b : Nat)
  | fmaBf16Vs (d : Nat) (a : Nat) (b : Nat)
  | fmsBf16Vs (d : Nat) (a : Nat) (b : Nat)
  | fnmaBf16Vs (d : Nat) (a : Nat) (b : Nat)
  | copysignBf16Vs (d : Nat) (a : Nat) (b : Nat)
  | addF64Vv (d : Nat) (a : Nat) (b : Nat)
  | subF64Vv (d : Nat) (a : Nat) (b : Nat)
  | mulF64Vv (d : Nat) (a : Nat) (b : Nat)
  | divF64Vv (d : Nat) (a : Nat) (b : Nat)
  | minF64Vv (d : Nat) (a : Nat) (b : Nat)
  | maxF64Vv (d : Nat) (a : Nat) (b : Nat)
  | fmaF64Vv (d : Nat) (a : Nat) (b : Nat)
  | fmsF64Vv (d : Nat) (a : Nat) (b : Nat)
  | fnmaF64Vv (d : Nat) (a : Nat) (b : Nat)
  | copysignF64Vv (d : Nat) (a : Nat) (b : Nat)
  | addF64Vs (d : Nat) (a : Nat) (b : Nat)
  | subF64Vs (d : Nat) (a : Nat) (b : Nat)
  | mulF64Vs (d : Nat) (a : Nat) (b : Nat)
  | divF64Vs (d : Nat) (a : Nat) (b : Nat)
  | minF64Vs (d : Nat) (a : Nat) (b : Nat)
  | maxF64Vs (d : Nat) (a : Nat) (b : Nat)
  | fmaF64Vs (d : Nat) (a : Nat) (b : Nat)
  | fmsF64Vs (d : Nat) (a : Nat) (b : Nat)
  | fnmaF64Vs (d : Nat) (a : Nat) (b : Nat)
  | copysignF64Vs (d : Nat) (a : Nat) (b : Nat)
  | divI32Vv (d : Nat) (a : Nat) (b : Nat)
  | divN32Vv (d : Nat) (a : Nat) (b : Nat)
  | remI32Vv (d : Nat) (a : Nat) (b : Nat)
  | remN32Vv (d : Nat) (a : Nat) (b : Nat)
  | divI64Vv (d : Nat) (a : Nat) (b : Nat)
  | divN64Vv (d : Nat) (a : Nat) (b : Nat)
  | remI64Vv (d : Nat) (a : Nat) (b : Nat)
  | remN64Vv (d : Nat) (a : Nat) (b : Nat)
  | divI32Vs (d : Nat) (a : Nat) (b : Nat)
  | divN32Vs (d : Nat) (a : Nat) (b : Nat)
  | remI32Vs (d : Nat) (a : Nat) (b : Nat)
  | remN32Vs (d : Nat) (a : Nat) (b : Nat)
  | divI64Vs (d : Nat) (a : Nat) (b : Nat)
  | divN64Vs (d : Nat) (a : Nat) (b : Nat)
  | remI64Vs (d : Nat) (a : Nat) (b : Nat)
  | remN64Vs (d : Nat) (a : Nat) (b : Nat)
  | ceqF32Vv (d : Nat) (a : Nat) (b : Nat)
  | cltF32Vv (d : Nat) (a : Nat) (b : Nat)
  | cleF32Vv (d : Nat) (a : Nat) (b : Nat)
  | cunF32Vv (d : Nat) (a : Nat) (b : Nat)
  | ceqB32Vv (d : Nat) (a : Nat) (b : Nat)
  | cltI32Vv (d : Nat) (a : Nat) (b : Nat)
  | cleI32Vv (d : Nat) (a : Nat) (b : Nat)
  | cltN32Vv (d : Nat) (a : Nat) (b : Nat)
  | cleN32Vv (d : Nat) (a : Nat) (b : Nat)
  | ceqF16Vv (d : Nat) (a : Nat) (b : Nat)
  | cltF16Vv (d : Nat) (a : Nat) (b : Nat)
  | cleF16Vv (d : Nat) (a : Nat) (b : Nat)
  | cunF16Vv (d : Nat) (a : Nat) (b : Nat)
  | ceqBf16Vv (d : Nat) (a : Nat) (b : Nat)
  | cltBf16Vv (d : Nat) (a : Nat) (b : Nat)
  | cleBf16Vv (d : Nat) (a : Nat) (b : Nat)
  | ceqF32Vs (d : Nat) (a : Nat) (b : Nat)
  | cltF32Vs (d : Nat) (a : Nat) (b : Nat)
  | cleF32Vs (d : Nat) (a : Nat) (b : Nat)
  | cunF32Vs (d : Nat) (a : Nat) (b : Nat)
  | ceqB32Vs (d : Nat) (a : Nat) (b : Nat)
  | cltI32Vs (d : Nat) (a : Nat) (b : Nat)
  | cleI32Vs (d : Nat) (a : Nat) (b : Nat)
  | cltN32Vs (d : Nat) (a : Nat) (b : Nat)
  | cleN32Vs (d : Nat) (a : Nat) (b : Nat)
  | ceqF16Vs (d : Nat) (a : Nat) (b : Nat)
  | cltF16Vs (d : Nat) (a : Nat) (b : Nat)
  | cleF16Vs (d : Nat) (a : Nat) (b : Nat)
  | cunF16Vs (d : Nat) (a : Nat) (b : Nat)
  | ceqBf16Vs (d : Nat) (a : Nat) (b : Nat)
  | cltBf16Vs (d : Nat) (a : Nat) (b : Nat)
  | cleBf16Vs (d : Nat) (a : Nat) (b : Nat)
  | ceqF64Vv (d : Nat) (a : Nat) (b : Nat)
  | cltF64Vv (d : Nat) (a : Nat) (b : Nat)
  | cleF64Vv (d : Nat) (a : Nat) (b : Nat)
  | cunF64Vv (d : Nat) (a : Nat) (b : Nat)
  | ceqB64Vv (d : Nat) (a : Nat) (b : Nat)
  | cltI64Vv (d : Nat) (a : Nat) (b : Nat)
  | cleI64Vv (d : Nat) (a : Nat) (b : Nat)
  | cltN64Vv (d : Nat) (a : Nat) (b : Nat)
  | cleN64Vv (d : Nat) (a : Nat) (b : Nat)
  | ceqF64Vs (d : Nat) (a : Nat) (b : Nat)
  | cltF64Vs (d : Nat) (a : Nat) (b : Nat)
  | cleF64Vs (d : Nat) (a : Nat) (b : Nat)
  | cunF64Vs (d : Nat) (a : Nat) (b : Nat)
  | ceqB64Vs (d : Nat) (a : Nat) (b : Nat)
  | cltI64Vs (d : Nat) (a : Nat) (b : Nat)
  | cleI64Vs (d : Nat) (a : Nat) (b : Nat)
  | cltN64Vs (d : Nat) (a : Nat) (b : Nat)
  | cleN64Vs (d : Nat) (a : Nat) (b : Nat)
  | selB32Vv (d : Nat) (a : Nat) (b : Nat) (p : Nat)
  | selB64Vv (d : Nat) (a : Nat) (b : Nat) (p : Nat)
  | selB32Vs (d : Nat) (a : Nat) (b : Nat) (p : Nat)
  | selB64Vs (d : Nat) (a : Nat) (b : Nat) (p : Nat)
  | rcpF32V (d : Nat) (a : Nat) (l : Nat)
  | rsqrtF32V (d : Nat) (a : Nat) (l : Nat)
  | sqrtF32V (d : Nat) (a : Nat) (l : Nat)
  | exp2F32V (d : Nat) (a : Nat) (l : Nat)
  | log2F32V (d : Nat) (a : Nat) (l : Nat)
  | sinF32V (d : Nat) (a : Nat) (l : Nat)
  | cosF32V (d : Nat) (a : Nat) (l : Nat)
  | tanhF32V (d : Nat) (a : Nat) (l : Nat)
  | rcpF32S (d : Nat) (a : Nat) (l : Nat)
  | rsqrtF32S (d : Nat) (a : Nat) (l : Nat)
  | sqrtF32S (d : Nat) (a : Nat) (l : Nat)
  | exp2F32S (d : Nat) (a : Nat) (l : Nat)
  | log2F32S (d : Nat) (a : Nat) (l : Nat)
  | sinF32S (d : Nat) (a : Nat) (l : Nat)
  | cosF32S (d : Nat) (a : Nat) (l : Nat)
  | tanhF32S (d : Nat) (a : Nat) (l : Nat)
  | popcB32 (d : Nat) (a : Nat)
  | clzB32 (d : Nat) (a : Nat)
  | ctzB32 (d : Nat) (a : Nat)
  | brevB32 (d : Nat) (a : Nat)
  | notB32 (d : Nat) (a : Nat)
  | negI32 (d : Nat) (a : Nat)
  | absI32 (d : Nat) (a : Nat)
  | popcB64 (d : Nat) (a : Nat)
  | clzB64 (d : Nat) (a : Nat)
  | ctzB64 (d : Nat) (a : Nat)
  | brevB64 (d : Nat) (a : Nat)
  | notB64 (d : Nat) (a : Nat)
  | negI64 (d : Nat) (a : Nat)
  | absI64 (d : Nat) (a : Nat)
  | absF32 (d : Nat) (a : Nat)
  | negF32 (d : Nat) (a : Nat)
  | rintF32 (d : Nat) (a : Nat)
  | floorF32 (d : Nat) (a : Nat)
  | ceilF32 (d : Nat) (a : Nat)
  | truncF32 (d : Nat) (a : Nat)
  | absF16 (d : Nat) (a : Nat)
  | negF16 (d : Nat) (a : Nat)
  | absBf16 (d : Nat) (a : Nat)
  | negBf16 (d : Nat) (a : Nat)
  | absF64 (d : Nat) (a : Nat)
  | negF64 (d : Nat) (a : Nat)
  | cvt (d : Nat) (a : Nat) (s : ElemType) (r : Rounding) (t : ElemType)
  | pkE2m1 (d : Nat) (a : Nat) (b : Nat)
  | upkE2m1 (d : Nat) (a : Nat) (b : Nat)
  | scaccF32 (d : Nat) (a : Nat) (b : Nat)
  | shflIdx (d : Nat) (a : Nat) (b : Nat) (m : Nat)
  | shflUp (d : Nat) (a : Nat) (b : Nat) (m : Nat)
  | shflDown (d : Nat) (a : Nat) (b : Nat) (m : Nat)
  | shflXor (d : Nat) (a : Nat) (b : Nat) (m : Nat)
  | voteAny (d : Nat) (a : Nat) (m : Nat)
  | voteAll (d : Nat) (a : Nat) (m : Nat)
  | voteEq (d : Nat) (a : Nat) (m : Nat)
  | voteBallot (d : Nat) (a : Nat) (m : Nat)
  | lredAddF32 (d : Nat) (a : Nat)
  | lredMaxF32 (d : Nat) (a : Nat)
  | lredMinF32 (d : Nat) (a : Nat)
  | lredAddI32 (d : Nat) (a : Nat)
  | lredMaxI32 (d : Nat) (a : Nat)
  | lredMinI32 (d : Nat) (a : Nat)
  | lredMaxN32 (d : Nat) (a : Nat)
  | lredMinN32 (d : Nat) (a : Nat)
  | lredAddF16 (d : Nat) (a : Nat)
  | lredMaxF16 (d : Nat) (a : Nat)
  | lredMinF16 (d : Nat) (a : Nat)
  | lredAddBf16 (d : Nat) (a : Nat)
  | lredAndB32 (d : Nat) (a : Nat)
  | lredOrB32 (d : Nat) (a : Nat)
  | lredXorB32 (d : Nat) (a : Nat)
  | tredAddF32 (d : Nat) (a : Nat) (l : Nat)
  | tredMaxF32 (d : Nat) (a : Nat) (l : Nat)
  | tredMinF32 (d : Nat) (a : Nat) (l : Nat)
  | tredAddI32 (d : Nat) (a : Nat) (l : Nat)
  | tredMaxI32 (d : Nat) (a : Nat) (l : Nat)
  | tredMinI32 (d : Nat) (a : Nat) (l : Nat)
  | tredMaxN32 (d : Nat) (a : Nat) (l : Nat)
  | tredMinN32 (d : Nat) (a : Nat) (l : Nat)
  | tredAddF16 (d : Nat) (a : Nat) (l : Nat)
  | tredMaxF16 (d : Nat) (a : Nat) (l : Nat)
  | tredMinF16 (d : Nat) (a : Nat) (l : Nat)
  | tredAddBf16 (d : Nat) (a : Nat) (l : Nat)
  | tredAndB32 (d : Nat) (a : Nat) (l : Nat)
  | tredOrB32 (d : Nat) (a : Nat) (l : Nat)
  | tredXorB32 (d : Nat) (a : Nat) (l : Nat)
  | scanAddF32 (d : Nat) (a : Nat)
  | scanMaxF32 (d : Nat) (a : Nat)
  | scanMinF32 (d : Nat) (a : Nat)
  | scanAddI32 (d : Nat) (a : Nat)
  | scanMaxI32 (d : Nat) (a : Nat)
  | scanMinI32 (d : Nat) (a : Nat)
  | scanMaxN32 (d : Nat) (a : Nat)
  | scanMinN32 (d : Nat) (a : Nat)
  | scanxAddF32 (d : Nat) (a : Nat)
  | scanxMaxF32 (d : Nat) (a : Nat)
  | scanxMinF32 (d : Nat) (a : Nat)
  | scanxAddI32 (d : Nat) (a : Nat)
  | scanxMaxI32 (d : Nat) (a : Nat)
  | scanxMinI32 (d : Nat) (a : Nat)
  | scanxMaxN32 (d : Nat) (a : Nat)
  | scanxMinN32 (d : Nat) (a : Nat)
  | pand (d : Nat) (a : Nat) (b : Nat)
  | por (d : Nat) (a : Nat) (b : Nat)
  | pxor (d : Nat) (a : Nat) (b : Nat)
  | pnot (d : Nat) (a : Nat)
  | pfroms (d : Nat) (a : Nat)
  | stop (d : Nat) (a : Nat)
  | pall (d : Nat)
  | pnone (d : Nat)
  | ldLn (d : Nat) (w : Width) (b : Nat) (x : Idx) (l : Nat)
  | ldSp (d : Nat) (w : Width) (b : Nat) (x : Idx) (l : Nat)
  | ldCl (d : Nat) (w : Width) (b : Nat) (x : Idx) (l : Nat)
  | ldBn (d : Nat) (w : Width) (b : Nat) (x : Idx) (l : Nat)
  | ldGl (d : Nat) (w : Width) (b : Nat) (x : Idx) (l : Nat)
  | ldAc (d : Nat) (w : Width) (b : Nat) (x : Idx) (l : Nat)
  | ldGlOrdered (d : Nat) (a : Nat) (s : Scope) (o : Ordering) (w : Width) (l : Nat)
  | pfGl (w : Width) (b : Nat) (x : Idx) (l : Nat)
  | stLn (d : Nat) (w : Width) (b : Nat) (x : Idx) (l : Nat)
  | stSp (d : Nat) (w : Width) (b : Nat) (x : Idx) (l : Nat)
  | stCl (d : Nat) (w : Width) (b : Nat) (x : Idx) (l : Nat)
  | stBn (d : Nat) (w : Width) (b : Nat) (x : Idx) (l : Nat)
  | stGl (d : Nat) (w : Width) (b : Nat) (x : Idx) (l : Nat)
  | stAc (d : Nat) (w : Width) (b : Nat) (x : Idx) (l : Nat)
  | stGlOrdered (d : Nat) (a : Nat) (s : Scope) (o : Ordering) (w : Width) (l : Nat)
  | cctlGlWb (b : Nat) (x : Idx) (l : Nat)
  | cctlGlInv (b : Nat) (x : Idx) (l : Nat)
  | cctlGlWbinv (b : Nat) (x : Idx) (l : Nat)
  | atomSp (d : Nat) (t : Nat) (o : AtomOp) (s : Scope) (r : Ordering) (l : Nat)
  | atomCl (d : Nat) (t : Nat) (o : AtomOp) (s : Scope) (r : Ordering) (l : Nat)
  | atomBn (d : Nat) (t : Nat) (o : AtomOp) (s : Scope) (r : Ordering) (l : Nat)
  | atomGl (d : Nat) (t : Nat) (o : AtomOp) (s : Scope) (r : Ordering) (l : Nat)
  | fence (s : Scope) (o : Ordering)
  | icinv (s : Scope)
  | cpy (d : Nat) (a : Nat) (l : Nat)
  | wnw (d : Nat) (a : Nat) (l : Nat)
  | xchg (d : Nat) (a : Nat) (l : Nat)
  | rst (d : Nat) (a : Nat) (w : Width) (l : Nat)
  | bar (d : Nat)
  | barWait (d : Nat) (a : Nat)
  | arrive (d : Nat) (a : Nat)
  | bexp (d : Nat) (a : Nat)
  | gate
  | release
  | twait (d : Nat) (a : Nat)
  | cwait (d : Nat) (a : Nat) (q : Nat) (s : Nat)
  | cwaitClr (d : Nat) (a : Nat) (q : Nat) (s : Nat)
  | nret
  | shrink (a : Nat)
  | spfree (d : Nat) (a : Nat) (b : Nat)
  | phase (d : Nat) (c : Nat)
  | twaitImm (d : Nat) (i : BitVec 16)
  | fork (d : Nat) (a : Nat) (c : Nat)
  | join (d : Nat) (a : Nat)
  | rgnw (a : Nat) (b : Nat)
  | rgnr (d : Nat) (a : Nat) (b : Nat)
  | mmulBf16 (q : Nat) (t : Nat) (a : Nat) (l : Nat)
  | mmulF16 (q : Nat) (t : Nat) (a : Nat) (l : Nat)
  | mmulE4m3 (q : Nat) (t : Nat) (a : Nat) (l : Nat)
  | mmulE5m2 (q : Nat) (t : Nat) (a : Nat) (l : Nat)
  | mmbE2m1 (q : Nat) (t : Nat) (a : Nat) (l : Nat)
  | msca (q : Nat) (t : Nat) (a : Nat) (l : Nat)
  | mldwBf16 (q : Nat) (t : Nat) (a : Nat) (l : Nat)
  | mldwF16 (q : Nat) (t : Nat) (a : Nat) (l : Nat)
  | mldwE4m3 (q : Nat) (t : Nat) (a : Nat) (l : Nat)
  | mldwE5m2 (q : Nat) (t : Nat) (a : Nat) (l : Nat)
  | mldwE2m1 (q : Nat) (t : Nat) (a : Nat) (l : Nat)
  | mswap (q : Nat) (t : Nat) (l : Nat)
  | mpush (a : Nat) (l : Nat)
  | mdrainF32 (q : Nat) (t : Nat) (a : Nat) (l : Nat)
  | mdrainBf16 (q : Nat) (t : Nat) (a : Nat) (l : Nat)
  | mdrainF16 (q : Nat) (t : Nat) (a : Nat) (l : Nat)
  | mdrainE4m3 (q : Nat) (t : Nat) (a : Nat) (l : Nat)
  | mdrainE5m2 (q : Nat) (t : Nat) (a : Nat) (l : Nat)
  | mclr (q : Nat) (t : Nat) (a : Nat) (l : Nat)
  | mstat (a : Nat) (l : Nat)
  | trap (i : BitVec 8)
  | tret
  | lpcRd (d : Nat) (a : Nat)
  | lpcWr (a : Nat) (b : Nat)
  | spcw (a : Nat) (b : Nat)
  | xlinv (k : Nat) (a : Nat)
  | wpset (d : Nat) (a : Nat) (b : Nat)
deriving DecidableEq, Repr

end Sys2Proof
end

