-- ==== Sys2Proof/Config.lean ====
section
/-! DEFINITION. What the spec leaves open: the free values, constants without a body, and the sizes the part fixes (R1/00, R20/01). -/

namespace Sys2Proof

/-- A free choice of the device (log 4): applied to the counter State.choices and to how many ways there are;
nothing constrains which way it names. -/
opaque Config.choice : Nat → Nat

/-- Energy of an interval or launch in nJ, which the activity counters give by their calibration (R158/07): no value is stated. -/
opaque Config.energy : List (Nat × BitVec 64) → Nat → BitVec 64

/-- The launch index in the image (R146/06, R160/07) of the launch whose descriptor a context has at an address: no descriptor and no
command gives it to the device. -/
opaque Config.launchIndex : Nat → Nat → BitVec 32

/-- The SHA-512 measurements of an image of a firmware bundle, by the bundle's version, and of the ROM (R389/19): no value is stated. -/
opaque Config.imageDigest : Option Nat → Nat → BitVec 512
opaque Config.romDigest : BitVec 512

/-- The digest and signature bytes of an SPDM answer, by the fused secret of the identity key and what is signed (R389/19): cryptography
that the spec names and does not define. -/
opaque Config.spdmAnswer : List (BitVec 8) → List (BitVec 8) → List (BitVec 8)

/-- A correctly rounded transcendental result where the model's own evaluation reaches no decision (log 13). -/
opaque Config.transcendental : Nat → BitVec 32 → BitVec 32

/-- The value an unwritten byte of any memory reads as (log 5). -/
def Config.unwritten : BitVec 8 := 0

/-- Cores of the module (R19, R20/01). -/
def Config.cores : Nat := 1024

/-- Cores of a field and of a cluster (R19/01). -/
def Config.coresPerField : Nat := 128
def Config.coresPerCluster : Nat := 8

/-- The slices of a field's L2, and the lines of one: 4 MiB (R18/01, R131/05). -/
def Config.l2Slices : Nat := 64
def Config.l2SliceLines : Nat := 32768

/-- Fields, contexts, queues, modules (R18/01, R139/06, R167/07). -/
def Config.fields : Nat := 8
def Config.contexts : Nat := 64
def Config.queues : Nat := 4096
def Config.modules : Nat := 8192

end Sys2Proof
end

