-- ==== Sys2Proof/Machine/State.lean ====
section
/-! DEFINITION. Every piece of state the spec gives the machine, as plain data, and the state right after module reset. -/

namespace Sys2Proof.Machine

/-- A sparse map: keys strictly rising, no entry equal to what an unlisted key reads as (`cwf` of Cells.lean). -/
abbrev Cells (α : Type) := List (Nat × α)

/-- Bytes of a memory by address, in that form; an unlisted address reads as Config.unwritten (log 5). -/
abbrev Memory := List Host.Cell

/-- Elapsed time in microseconds, a fraction in lowest terms (R5/00): each cycle adds what it lasts at the clock of that cycle. -/
structure Time where
  num : Nat := 0
  den : Nat := 1
deriving DecidableEq, Repr

/-- Amounts of a reclaim request (R240/11): issue slots, sheaf-registers, scratch pages. -/
structure Amounts where
  slots : Nat
  regs : Nat
  pages : Nat
deriving DecidableEq, Repr

/-- What a requester receives from a core on which the context holds a level (R240/11). -/
structure ReclaimAnswer where
  ctx : Nat
  core : Nat
  taken : Amounts
  refused : Amounts
deriving DecidableEq, Repr

/-- A phase or task record in a field's record area (R154, R160/07): whose it is, its place in 4 KiB units, its bytes. -/
structure Record where
  sheaf : Nat
  page : Nat
  bytes : Memory
deriving DecidableEq, Repr

/-- A hardware loop level of a lane (R108/04): counter and bounds. -/
structure LoopReg where
  count : Word := 0
  start : Vaddr := 0
  stop : Vaddr := 0
deriving DecidableEq, Repr

/-- A lane (R35/02): its PC, its held PCs (R229, R230/11), its loop levels (R108/04), its broadcast-wait counter
(R39/02), its divergence window: first word (none when empty) and the captured words by address, the valid ones (R43/02); and the
held PC it returned to from a WATCH trap (R377/18), where `watchSkip` has its bit. -/
structure Lane where
  pc : Vaddr := 0
  held : Vaddr := 0
  outer : Vaddr := 0
  skipPc : Vaddr := 0
  loops : List LoopReg := [{}, {}, {}]
  bwait : Nat := 0
  winBase : Option Vaddr := none
  winWords : List (Nat × Word) := []
deriving DecidableEq, Repr

/-- The four trap registers (R107/04). -/
structure TrapRegs where
  tcause : Dword := 0
  taddr : Dword := 0
  tlanes : Dword := 0
  tpc : Dword := 0
deriving DecidableEq, Repr

/-- The sticky floating-point flags (R106/04). -/
structure FpFlags where
  iv : Bool := false
  dz : Bool := false
  of : Bool := false
  uf : Bool := false
  nx : Bool := false
deriving DecidableEq, Repr

/-- A memory access as a lane made it, kept so that it can be made again (R235/11). -/
structure LaneAccess where
  lane : Nat
  addr : Dword
deriving DecidableEq, Repr

/-- A lane's fault attached to a pending destination (R235/11). -/
structure LaneFault where
  lane : Nat
  cause : Cause
  addr : Dword
deriving DecidableEq, Repr

/-- A load to make again: its space, width, data register (virtual) and the lanes' addresses (R235/11). -/
structure Replay where
  cause : Cause
  space : Space
  width : Width
  ordered : Option (Scope × Ordering)
  dreg : Nat
  lanes : List LaneAccess
  pc : Vaddr
deriving DecidableEq, Repr

/-- A pending destination (R257/12): the values that will land (lane, virtual register, value), a scalar result,
the lanes' faults, the load to make again, the lookahead windows still open (lane, instructions left), the cycle of
issue, the cycle a dependent instruction began to wait (R235/11), whether sequencer requests are outstanding (R217/10), the votes and
shuffles that wait for its fault, by PC (R300/14), and the values that have come and wait for the backing slot of a spilled register to be
mapped (R112/04). -/
structure Pending where
  id : Nat
  pc : Vaddr
  vals : List (Nat × Nat × Word) := []
  regs : List Nat := []
  lanes : Mask := 0
  scalar : Option (Nat × Dword) := none
  faults : List LaneFault := []
  again : Option Replay := none
  windows : List (Nat × Nat) := []
  since : Nat := 0
  waitSince : Option Nat := none
  tickets : Nat := 0
  nearby : Bool := false
  awaited : List Vaddr := []
  stored : List (Nat × Nat × Word) := []
deriving DecidableEq, Repr

/-- A matrix command's kind and operands, as copied at the post (R345/17). -/
inductive MatOp where
  | mmul (fmt : ElemType)
  | mmb
  | msca
  | mldw (fmt : Option ElemType)
  | mswap
  | mdrain (fmt : ElemType)
  | mclr
deriving DecidableEq, Repr

/-- Where scratch of a team lies: a team's memory and an offset in it (R346/17). -/
structure ScratchRef where
  team : Nat
  off : Nat
deriving DecidableEq, Repr

/-- A command of the matrix FIFO (R344 to R363/17) with its progress index (R244/11). -/
structure MatCmd where
  id : Nat
  ctx : Nat
  launch : Nat
  op : MatOp
  set : Nat
  token : Nat
  s0 : Dword := 0
  s1 : Dword := 0
  s2 : Dword := 0
  s3 : Dword := 0
  src : Option ScratchRef := none
  dst : Option ScratchRef := none
  satTeams : List Nat := []
  /-- the cycle of the post, and the running set (R244/11) -/
  posted : Nat := 0
  run : Nat := 0
  started : Bool := false
  /-- stopped at a quiescent point -/
  stopped : Bool := false
  /-- waiting for a ring slot -/
  starved : Bool := false
  /-- the cycle in which it became pending for a grant (R361) -/
  askedAt : Option Nat := none
  /-- row block, K-step (or row) within it, and K-steps completed (R360) -/
  block : Nat := 0
  kpos : Nat := 0
  ksteps : Nat := 0
  /-- all work done; the last write has landed -/
  done : Bool := false
deriving DecidableEq, Repr

/-- An engine job (R147/06, R163/07, R218 to R220/10): copy 1, winnow 2, exchange 3, merge 4, context 5. -/
structure Job where
  id : Nat
  engine : Nat
  field : Nat
  core : Nat
  ctx : Nat
  launch : Option Nat := none
  linked : Option Nat := none
  poster : Option Nat := none
  rev : Nat := 0
  card : List Byte := []
  cardAddr : Dword := 0
  slots : List (Option Nat) := []
  /-- the issuing team: of the slot a post names, or of byte 5 of a linked card -/
  team : Option Nat := none
  scope : Nat := 0
  started : Bool := false
  startCycle : Nat := 0
  startTime : Time := {}
  /-- chunks or rows landed, and bytes credited -/
  landed : List Nat := []
  waitAddr : Option Dword := none
  waitSince : Nat := 0
  replays : Nat := 0
  /-- it ended on a fenced port (R248, R249/11) -/
  cut : Bool := false
  /-- exchange: peers, counts, streams sent (index, cycle), matched, acknowledged, received, bytes credited by index -/
  peers : List Nat := []
  counts : List Nat := []
  sent : List (Nat × Time) := []
  matched : List Nat := []
  acked : List Nat := []
  received : List Nat := []
  credited : List (Nat × Nat) := []
  /-- streams whose rows have been sent: those that were matched (R371/18) -/
  rowsSent : List Nat := []
  /-- merge: the child revision, lines left, the region entries read at the start (R161/07), status bits, the handle's destination -/
  child : Nat := 0
  lines : List Nat := []
  regions : Cells (BitVec 256) := []
  status : BitVec 5 := 0
  dest : Option Nat := none
  /-- context engine: true for a resume -/
  resume : Bool := false
deriving DecidableEq, Repr

/-- What lanes of a sheaf wait for (R35/02, R300/14, R324/16). -/
inductive WaitKind where
  /-- gathered at `bar`, `arrive` or `phase` on the team in a slot -/
  | gather (kind : Nat) (slot dest carry : Nat)
  /-- at `bar`: arrived, waiting for the generation to complete -/
  | barrier (team : Nat) (gen : BitVec 32)
  /-- an arrival that waits for the current generation to complete first (R179) -/
  | later (kind : Nat) (slot dest carry : Nat) (gen : BitVec 32)
  /-- at `bar.wait` -/
  | generation (team : Nat) (gen : BitVec 32)
  | token (tk : Nat) (value : BitVec 16) (since : Nat)
  | chunk (team map quarter : Nat) (mask : Dword) (clear : Bool)
  | gate
  /-- at a vote or shuffle: the member mask read by the first arrival -/
  | collective (members : Mask)
  | fifo (cmd : MatCmd)
  | equeue (job : Job)
  | ring (ring n : Nat)
  /-- at `join`: the child, or its merge job once entered -/
  | join (rev : Nat) (job : Option Nat) (dest : Nat)
  /-- a wait that completed during a handler: held until the trap level is 0 again (R377/18) -/
  | held
  /-- a parent whose child runs inline (R56/02) -/
  | inline (child dest : Nat) (handle : Dword)
deriving DecidableEq, Repr

/-- A wait: the lanes, where they wait, since when; whether they issued solo (R43/02), `$wb` at their arrival, which
the specifiers of their instruction go through (R275/13), and the trap level at which they began to wait (R229, R232/11). -/
structure Wait where
  lanes : Mask
  pc : Vaddr
  kind : WaitKind
  since : Nat
  solo : Bool := false
  wb : Nat := 0
  tl : Nat := 0
deriving DecidableEq, Repr

/-- An unjoined child (R59/02, R331/16). -/
structure Child where
  seq : BitVec 16
  rev : Nat
  sheaf : Nat
  inline : Bool
deriving DecidableEq, Repr

/-- Where a sheaf is (R52, R55/02, R246/11). -/
inductive Place where
  | resident
  /-- a phase record in a field, its phase task queued or not (R53/02) -/
  | phase (field : Nat) (queued : Bool) (team carry : Nat)
  /-- a task record in a core's deque (R146/06) -/
  | deque (core : Nat)
  /-- a task record while its inline child runs (R56/02) -/
  | suspended
  | parked
  | ended
deriving DecidableEq, Repr

/-- A sheaf or task with everything it holds (R93/04, R115/04, R160/07). -/
structure Sheaf where
  id : Nat
  launch : Nat
  number : Nat := 0
  ctx : Nat := 0
  task : Bool := false
  /-- creation order of a task: cycle, core, pipe, solo (R231/11) -/
  born : List Nat := []
  parent : Option Nat := none
  inlineChild : Bool := false
  place : Place := .resident
  core : Nat := 0
  slot : Nat := 0
  since : Nat := 0
  lanes : List Lane := []
  exited : Mask := 0
  yielded : Mask := 0
  favoured : Mask := 0
  /-- the set that an issue of this cycle under case 1 replaced (R39/02) -/
  favouredOld : Option Mask := none
  stalled : Mask := 0
  /-- lanes whose next instruction touches a pending destination, found at the start of the cycle (R35/02, R259/12) -/
  blocked : Mask := 0
  s : Cells Dword := []
  v : Cells Word := []
  p : Cells Mask := []
  wb : Nat := 0
  budget : Nat := 512
  rev : Nat := 0
  ctrl : BitVec 24 := 0x800100
  flags : FpFlags := {}
  /-- flags raised in this cycle: a clear in the same cycle leaves them at 1 (R106/04) -/
  raised : FpFlags := {}
  tl : Nat := 0
  trap : TrapRegs := {}
  outer : TrapRegs := {}
  nleft : BitVec 32 := 0
  noticeOut : Bool := false
  noticePending : Bool := false
  expandPending : Bool := false
  slots : List (Option Nat) := [none, none, none, none]
  forkSeq : BitVec 16 := 0
  children : List Child := []
  /-- a task's carry set index (R146/06) -/
  carrySet : Nat := 0
  waits : List Wait := []
  pend : List Pending := []
  replay : Option Replay := none
  outerReplay : Option Replay := none
  watchSkip : Mask := 0
  /-- the WATCH skips of the levels that a trap has interrupted, the latest first: the lanes, and each lane's PC (R377/18) -/
  skips : List (Mask × List Vaddr) := []
  starve : Nat := 0
  /-- the lanes that issued under broadcast in this cycle (R39, R46/02) -/
  issued : Mask := 0
  slice : Memory := []
  sliceReloc : List Nat := []
  loopBuf : List (Nat × Word) := []
  ending : Bool := false
  peerDirty : List Nat := []
deriving DecidableEq, Repr

/-- A team of a launch (R47/02, R176, R183/08). -/
structure Team where
  id : Nat
  launch : Nat
  ctx : Nat := 0
  number : Nat
  scope : Nat
  members : List Nat
  scratch : Nat := 0
  floor : Nat := 0
  producer : Nat := 0
  core : Nat := 0
  placed : Bool := false
  gen : BitVec 32 := 0
  need : Nat := 0
  arr : Nat := 0
  pend : Int := 0
  /-- the byte expectations of this cycle, which follow its credits (R179) -/
  expected : Nat := 0
  /-- how wide the jobs reach that credited the present generation (R212, R219/10) -/
  creditReach : Nat := 0
  /-- how wide the jobs reach that credited the completed ones -/
  doneReach : Nat := 0
  arrived : List Nat := []
  evt : Bool := false
  lowered : Nat := 0
  maps : Cells (BitVec 256) := []
  mapScopes : Cells Nat := []
  /-- chunk bits that `cwait.clr` clears at the end of this cycle (R183/08, R323/15) -/
  clears : Cells (BitVec 256) := []
  /-- the SAT flag, since when it is 1, and the cycle of its last setting (R106/04, R195/09) -/
  sat : Bool := false
  satFrom : Nat := 0
  satAt : Option Nat := none
  mem : Memory := []
  reloc : List Nat := []
  ended : Bool := false
  live : List Nat := []
deriving DecidableEq, Repr

/-- A launch (R60 to R66/02, R156, R157/07). -/
structure Launch where
  id : Nat
  ctx : Nat
  tag : BitVec 32
  descAddr : Dword := 0
  recordAddr : Dword := 0
  predTag : BitVec 32 := 0
  pred : Option Nat := none
  desc : List Byte := []
  submitted : Nat := 0
  state : Nat := 0
  sheafCount : Nat := 0
  residentOnce : List Nat := []
  liveParts : Nat := 0
  started : Nat := 0
  dispatched : Nat := 0
  dispatchSeq : Nat := 0
  releases : Nat := 0
  gateOpen : Bool := false
  ended : Option (Nat × Nat × List Nat) := none
  jobError : Option (Nat × Nat) := none
  containment : Bool := false
  grantWait : Nat := 0
  rstsOut : Nat := 0
  restarts : Nat := 0
  coresUsed : List Nat := []
  carry : List (List Byte) := []
  slicesSize : Nat := 0
  budget : Nat := 512
  carve : Nat := 0
  entry : Vaddr := 0
  lastLanes : Nat := 64
  dependent : Bool := false
  idempotent : Bool := false
  cost : Nat := 0
  /-- its linked cards as read, with the numbers of their jobs and the slots of its sheaf 0; has a later job written one of their footprints (R249/11)? -/
  cards : List (Nat × List Byte × List (Option Nat)) := []
  spoiled : Bool := false
  /-- what follows the end by a trap has happened (R231/11) -/
  closed : Bool := false
  /-- the revisions of its unjoined children, once it was ended: their ids are free from its retirement on (R231/11) -/
  dropped : List Nat := []
deriving DecidableEq, Repr

/-- A cached translation (R134/05): context, virtual base, guest base, size, host base, permissions, and the size of the translation that
it is, or is a checked piece of (R133/05). -/
structure Tlb where
  ctx : Nat
  va : Nat
  gpa : Nat
  hpa : Nat
  size : Nat
  r : Bool
  w : Bool
  x : Bool
  span : Nat
deriving DecidableEq, Repr

/-- A quadrant of a matrix engine (R126/05, R344, R350, R362/17). -/
structure Quad where
  acc : Cells Word := []
  active : Cells (BitVec 16) := []
  shadow : Cells (BitVec 16) := []
  sideA : Cells (BitVec 16) := []
  sideS : Cells (BitVec 16) := []
  owner : Option Nat := none
  filler : Nat := 0
deriving DecidableEq, Repr

/-- A scratch ring (R145/06, R353/17): head and tail count slots and wrap at 2^32. -/
structure Ring where
  head : BitVec 32 := 0
  tail : BitVec 32 := 0
  base : Option ScratchRef := none
  logsz : Nat := 0
  slotSize : Nat := 0
deriving DecidableEq, Repr

/-- A line of an L1 (R130/05): revision and host line, its 128 bytes as held, and whether it is a register backing line. -/
structure L1Line where
  rev : Nat
  line : Nat
  data : List Byte
  backing : Bool := false
deriving DecidableEq, Repr

/-- A scratch page: of a sheaf's slices, or of a team (R135/05). -/
inductive PageRef where
  | slice (sheaf page : Nat)
  | team (team page : Nat)
deriving DecidableEq, Repr

/-- The residency of a context on a core (R102, R103/04, R237 to R243/11). -/
structure Res where
  ctx : Nat
  goal : Nat := 7
  level : Nat := 7
  reclaim : Dword := 0
  /-- the cycle in which a NOTICE is delivered -/
  noticeAt : Option Nat := none
  /-- affected sheaves that have not returned -/
  affected : List Nat := []
  noticed : Bool := false
  /-- a squeeze runs, towards `target`; its matrix commands have stopped (R243/11) -/
  squeezing : Bool := false
  target : Nat := 7
  stopped : Bool := false
  forced : Bool := false
  /-- the pages a squeeze still moves to barn, and those that still come back (R135/05) -/
  moves : List PageRef := []
  returns : List PageRef := []
  expandAt : Option Nat := none
  hot : List (Nat × Nat) := []
  cold : List (Nat × Nat) := []
  /-- per fold group: the sheaf slot whose turn it is, and since when (R239/11) -/
  turns : Cells (Nat × Nat) := []
  bank : List (BitVec 16) := [0, 0, 0, 0, 0, 0, 0, 0]
  /-- per counter: an increment from a job of cluster scope or wider since the last L1 invalidation (R330/16) -/
  wide : List Bool := [false, false, false, false, false, false, false, false]
  parking : Bool := false
deriving DecidableEq, Repr

/-- A pipe (R20/01, R44, R45/02): the sheaf that issued last, whether its greedy run goes on, the lane served last solo. -/
structure Pipe where
  last : Option Nat := none
  solo : Option (Nat × Nat) := none
deriving DecidableEq, Repr

/-- What `mstat` reads of a core at the start of a cycle (R363/17): its FIFO, which quadrants run filler, each context's level. -/
structure MatrixSeen where
  fifo : List MatCmd := []
  fills : List Bool := []
  levels : List (Nat × Nat) := []
deriving DecidableEq, Repr

/-- A core (R20/01). -/
structure Core where
  carve : Nat := 0
  l1 : List L1Line := []
  icache : List (Nat × Word) := []
  tlb : List Tlb := []
  slewcy : BitVec 32 := 0
  rings : List Ring := [{}, {}, {}, {}]
  seen : MatrixSeen := {}
  fifo : List MatCmd := []
  quads : List Quad := [{}, {}, {}, {}]
  saved : List (Nat × Nat × Quad) := []
  deque : List Nat := []
  /-- the deque's entries at the start of the cycle, and the forks of the cycle so far (R55/02) -/
  dequeStart : Nat := 0
  forks : Nat := 0
  res : List Res := []
  pipes : List Pipe := [{}, {}, {}, {}]
  /-- the cycle in which its present run of steal attempts began (R57/02) -/
  thief : Nat := 0
  fenced : Bool := false
deriving DecidableEq, Repr

/-- The ramp governor of a cluster (R165/07, R361/17). -/
structure Ramp where
  lo : Dword := 0x0808080808080404
  hi : Dword := 0x0808080808080808
  newLo : Option Dword := none
  newHi : Option Dword := none
  /-- the cycle in which step 0 opened -/
  opened : Option Nat := none
deriving DecidableEq, Repr

/-- A field (R18/01, R134/05, R148/06, R173/07, R247/11). -/
structure FieldState where
  barn : Cells (BitVec 32) := []
  tlb : List Tlb := []
  phases : List Nat := []
  /-- phase tasks past the 4,096 on die, linked in the record area in order of arrival (R148/06) -/
  overflow : List Nat := []
  records : List Record := []
  granary : Nat := 256
  /-- what its save buffer holds: contexts and bytes (R247/11) -/
  buffer : List (Nat × Nat) := []
deriving DecidableEq, Repr

/-- An ancestor line kept for a revision (R128/05, R333/16): its virtual line and bytes, the field whose granary holds it, and
its place in the context's overflow area where that granary was full. -/
structure Ancestor where
  line : Nat
  data : List Byte
  home : Nat
  extra : Option Nat
deriving DecidableEq, Repr

/-- A revision (R222/10, R333/16): its view's own lines and the ancestors kept for it, by virtual line. -/
structure Rev where
  id : Nat
  parent : Nat
  depth : Nat
  lines : List (Nat × List Byte) := []
  ancestors : List Ancestor := []
deriving DecidableEq, Repr

/-- What a peer's module answers for a page of a context's exported window (R386/19): its translation's permissions; none where a stage
finds no mapping. -/
abbrev PeerPage := Option (Bool × Bool × Bool)

/-- A watchpoint (R381/18). -/
structure Watch where
  addr : Dword := 0
  log : Nat := 0
  ld : Bool := false
  st : Bool := false
  atom : Bool := false
deriving DecidableEq, Repr

/-- A context: its table entry (R172/07), its revisions, region table (R161/07), watchpoints and export window (R386/19). -/
structure Context where
  root1 : Dword := 0
  root2 : Dword := 0
  cid : BitVec 12 := 0
  eqWrite : BitVec 32 := 0
  regionTable : Dword := 0
  vectors : Dword := 0
  peerTable : Dword := 0
  eqBase : Dword := 0
  eqHead : BitVec 32 := 0
  eqLost : BitVec 32 := 0
  granBase : Dword := 0
  granQuota : BitVec 32 := 0
  saveBase : Dword := 0
  backing : List Dword := [0, 0, 0, 0, 0, 0, 0, 0]
  nbudget : BitVec 32 := 16384
  regions : Cells (BitVec 256) := []
  revs : List Rev := []
  watch : List Watch := [{}, {}, {}, {}]
  exportBase : Dword := 0
  exportSize : Nat := 0
  /-- a save stalled on an unmapped page: since when (R247/11) -/
  saveWait : Option Time := none
  /-- the guest physical page it waits for -/
  saveAddr : Nat := 0
  /-- planes whose write to the save area waits for a page: core, quadrant, whether the save buffer holds them; since when, and the page
  (R127/05, R247/11) -/
  planeWait : List (Nat × Nat × Bool) := []
  planeSince : Option Time := none
  planeAddr : Nat := 0
  /-- what parking took, per core (R246/11) -/
  savedCores : List (Nat × Core) := []
  /-- where the task records begin in its save area, in pages -/
  savedAt : Nat := 0
  savedJobs : List Job := []
  /-- parked by a park command, until its resume (R246/11) -/
  parked : Bool := false
  frozen : Bool := false
deriving DecidableEq, Repr

/-- A work queue: its allow-list entry (R168/07) and the tail the host scheduler wrote (R141/06). -/
structure Queue where
  base : Dword := 0
  log : Nat := 0
  enable : Bool := false
  ctx : Nat := 0
  bitmap : BitVec 32 := 0
  head : BitVec 32 := 0
  tail : BitVec 32 := 0
  /-- an event word it waits for, and the value (R169/07) -/
  hold : Option (Dword × Dword) := none
deriving DecidableEq, Repr

/-- Where an access lands once its checks have passed (R116/05): a lane slice, a team's scratch, host physical memory
(with the virtual address of a `.gl` access), accumulator memory. -/
inductive Target where
  | slice (lane off : Nat)
  | team (id off : Nat)
  | host (va : Option Nat) (hpa : Nat)
  | acc (addr : Nat)
deriving DecidableEq, Repr

/-- A request of the sequencer (R184/08): of a sheaf's lane; an atomic (its pending destination, its checked place)
or a fence; `wide` says whether its completion invalidates the core's L1 (R315, R316/15), `sys` whether it writes peer lines back (R406/10). -/
structure SeqReq where
  core : Nat
  sheaf : Nat
  lane : Nat
  pend : Option Nat := none
  op : Option AtomOp := none
  target : Option Target := none
  operand : Dword := 0
  compare : Dword := 0
  dreg : Nat := 0
  rev : Nat := 0
  wide : Bool := false
  sys : Bool := false
deriving DecidableEq, Repr

/-- A remote store in flight (R224/10, R373/18), and the lane that made it; whether it names the posting module itself, and a number. -/
structure RemoteStore where
  sheaf : Nat
  lane : Nat
  launch : Nat
  ctx : Nat
  core : Nat
  rev : Nat
  va : Nat
  hpa : Nat
  data : List Byte
  pc : Vaddr
  own : Bool := false
  id : Nat := 0
deriving DecidableEq, Repr

/-- An issue (R37, R44/02): the sheaf, its active lanes, its PC, the pipe, and whether it is the solo slot's; and, for a load whose
registers find no mapping, the backing address (R112/04, R235/11); were its destination registers brought in as it issued (R394/21)? -/
structure Issue where
  sheaf : Nat
  lanes : Mask
  pc : Vaddr
  core : Nat
  pipe : Nat
  solo : Bool
  regback : Option Dword := none
  filled : Bool := false
deriving DecidableEq, Repr

/-- One move of the machine (log 1): an issue, an event of the table, a self-timed quantum of a matrix command
(R23/01), bytes written to memory by the host or a peer, the match or the acknowledgement of a stream sent, the delivery of NOTICE (R242/11), a Fleskapa core reading its mailbox (R152/06), a remote store's acknowledgement by its
number (R374/18), a peer that refuses or accepts a page of its window (R386/19), a line of pooled memory that is poisoned (R132/05,
R384/19), an exchange job's streams of this module (R370/18), the loss of its stream to a peer that fails (R387/19); and four that are replaced
by the moves the state then gives: the starts of a launch's sheaves (R63/02), the plan of the cycle, its matrix starts (R361/17), the exchange
engine's turn (R179/08). -/
inductive Move where
  | issue (i : Issue)
  | event (e : Instr)
  | kstep (core cmd : Nat)
  | hostWrite (hpa : Nat) (bytes : List Byte)
  | streamMatched (job idx : Nat)
  | streamAck (job idx : Nat)
  | deliverNotice (core ctx : Nat)
  | mailboxRead (core : Nat)
  | ack (id : Nat)
  | peerFault (ctx page : Nat) (grant : Option PeerPage)
  | poison (line : Nat)
  | starts (launch : Nat)
  | planCycle (late : List (Nat × Nat))
  | matrixPhase
  /-- the exchange engine's turn: the next `n` moves are what reaches it from outside -/
  | exchangePhase (n : Nat)
  | exchangeHeld (job : Nat)
  | peerLost (job module : Nat)
deriving DecidableEq, Repr

/-- A mailbox of Fleskapa (R152/06): messages, oldest first (sender, bytes); waiting senders; reporters' buffer. -/
structure Mailbox where
  messages : List (Nat × List Byte) := []
  waiting : List (Nat × List Byte) := []
  reporters : List (Nat × List Byte) := []
deriving DecidableEq, Repr

/-- A record that an error queue took in the present cycle (R149, R151/06): of a context's queue, or the host's. -/
structure ErrorRecord where
  queue : Option Nat
  cause : Nat
  bytes : List Byte
deriving DecidableEq, Repr

/-- The machine. -/
structure State where
  cycle : Dword := 0
  /-- the time since module reset, and how many of its milliseconds the power cap has seen (R5/00, R390/19) -/
  time : Time := {}
  msSeen : Nat := 0
  /-- the error records of this cycle (R151/06), and the figures that reclaim requesters received (R240/11) -/
  errsNow : List ErrorRecord := []
  answers : List ReclaimAnswer := []
  /-- the launches that retired in this cycle, with their contexts; those a request of it was acknowledged for as "nothing resident" (R250/11) -/
  retired : List (Nat × Nat) := []
  acks : List (Nat × Nat) := []
  ticket : Dword := 0
  seqQ : List SeqReq := []
  device : Dword := 0
  fwstep : BitVec 8 := 0
  trip : Bool := false
  cap : Bool := false
  fwerr : Bool := false
  ready : Bool := false
  subReg : Dword := 0
  hostErrBase : Dword := 0
  hostErrHead : BitVec 32 := 0
  hostErrWrite : BitVec 32 := 0
  hostErrLost : BitVec 32 := 0
  msix : List Nat := []
  ctxVector : Cells Nat := []
  /-- vectors of event words: the context, the address, the vector (R169/07, R383/19) -/
  wordVector : List (Nat × Nat × Nat) := []
  sysCtx : Option Nat := none
  queues : Cells Queue := []
  decoders : Cells (Option Decoder) := []
  poison : List Nat := []
  fenced : List FuncId := []
  linksUp : BitVec 32 := 0xFFFFFFFF
  peersDown : List Nat := []
  /-- pages of peers' exported windows that their modules do not grant whole, by context and host page (R386/19) -/
  peerFaults : List (Nat × PeerPage) := []
  /-- translations removed in this cycle: the context, and the stage and range; none for all (R380/18) -/
  removed : List (Nat × Option (Bool × Nat × Nat)) := []
  /-- the core clock now, and as bring-up set it (R390, R391/19) -/
  clockMHz : Nat := 2000
  clockSet : Nat := 2000
  capW : Nat := 3600
  /-- the fuses: the rollback counter, the hash of the public key, the secret of the identity key; the identity key's certificate; the
  version of the bundle that was verified (R389/19) -/
  rollback : Nat := 0
  keyHash : List Byte := []
  idSecret : List Byte := []
  certificate : List Byte := []
  bundle : Option Nat := none
  /-- the Fleskapa cores that run their image (R388, R389, R391/19), link keys by link and word (R384/19), loans of cores to contexts (R388/19) -/
  started : List Nat := []
  linkKeys : List (Nat × Nat × Dword) := []
  loans : Cells (Option Nat) := []
  /-- what the telemetry core writes: the energy calibration by activity counter (R158/07), the host's counters (R388/19) -/
  calibration : Cells Dword := []
  hostCounters : Cells Dword := []
  /-- the answers to SPDM requests (R389/19) -/
  spdm : List (List Byte) := []
  mailboxes : List Mailbox := [{}, {}, {}, {}, {}, {}, {}, {}]
  /-- the exchange and the save-area deadline, in ns (R371/18, R247/11) -/
  exDeadline : Nat := 1000000000
  saveDeadline : Nat := 1000000000
  exHeaders : List Stream := []
  exRefused : List Stream := []
  exSent : List (Nat × Stream) := []
  mem : Memory := []
  l2peer : List (Nat × List Byte × BitVec 128) := []
  rsts : List RemoteStore := []
  ramps : Cells Ramp := []
  fields : Cells FieldState := []
  cores : Cells Core := []
  ctxs : Cells Context := []
  launches : List Launch := []
  teams : List Team := []
  sheaves : List Sheaf := []
  jobs : List Job := []
  inputs : List (Nat × Move) := []
  agenda : List Move := []
  choices : Nat := 0
  cur : Option Issue := none
  nextId : Nat := 0
deriving DecidableEq, Repr

/-- How the machine stops. -/
inductive Fault where
  /-- Raised by step once the thermal monitor has stopped every clock (R390/19): nothing moves until module reset,
  which only an input brings. Safe: the spec says every clock is stopped. -/
  | clocksStopped
deriving DecidableEq, Repr

/-- What the model declines to run. -/
inductive Refusal where
  /-- Raised by an arm of exec whose instruction has no meaning yet. Safe: the machine stops where the hardware goes on. -/
  | notModelled (mnemonic : String)
deriving DecidableEq, Repr

/-- The machine right after module reset (R10/00): every field at the value the spec states, the rest as log 6 names it. -/
def State.reset : State := {}

end Sys2Proof.Machine
end

