-- ==== Sys2Proof/Machine/Cells.lean ====
section
/-! DEFINITION. Reading and writing sparse maps and memories in their one canonical form. -/

namespace Sys2Proof.Machine

/-- The value at a key; an unlisted key reads as the default. -/
def cget {α : Type} (dflt : α) : Cells α → Nat → α
  | [], _ => dflt
  | (k, x) :: m, n => if n = k then x else cget dflt m n

/-- Put an entry before the first one with a larger key. -/
def cput {α : Type} (m : Cells α) (n : Nat) (y : α) : Cells α :=
  match m with
  | [] => [(n, y)]
  | (k, x) :: m => if n < k then (n, y) :: (k, x) :: m else (k, x) :: cput m n y

/-- Take a key's entry out. -/
def cdrop {α : Type} (m : Cells α) (n : Nat) : Cells α := m.filter fun c => !(c.1 == n)

/-- Write a value at a key, keeping the canonical form: writing the default removes the entry. -/
def cset {α : Type} [DecidableEq α] (dflt : α) (m : Cells α) (n : Nat) (y : α) : Cells α :=
  if y = dflt then cdrop m n else cput (cdrop m n) n y

/-- All keys of a map lie above a bound. -/
def caboveAll {α : Type} (n : Nat) (m : Cells α) : Bool := m.all fun c => decide (n < c.1)

/-- The canonical form: keys strictly rising, no entry equal to the default. -/
def cwf {α : Type} [DecidableEq α] (dflt : α) : Cells α → Bool
  | [] => true
  | (k, x) :: m => decide (x ≠ dflt) && caboveAll k m && cwf dflt m

/-- The byte a memory holds at an address (log 5: an unlisted address reads as Config.unwritten). -/
def Memory.get (m : Memory) (a : Nat) : Byte := cget Config.unwritten m a

/-- Write one byte. -/
def Memory.set (m : Memory) (a : Nat) (b : Byte) : Memory := cset Config.unwritten m a b

/-- The canonical form of a memory. -/
def Memory.wf (m : Memory) : Bool := cwf Config.unwritten m

/-- The bytes from an address up. -/
def Memory.read (m : Memory) (a : Nat) : Nat → List Byte
  | 0 => []
  | n + 1 => m.get a :: Memory.read m (a + 1) n

/-- Write bytes from an address up. -/
def Memory.write (m : Memory) (a : Nat) : List Byte → Memory
  | [] => m
  | b :: bs => Memory.write (m.set a b) (a + 1) bs

/-- A number from its bytes, the lowest first (R6/00). -/
def natOfBytes : List Byte → Nat
  | [] => 0
  | b :: bs => b.toNat + 256 * natOfBytes bs

/-- The `n` bytes of a number, the lowest first (R6/00). -/
def bytesOfNat : Nat → Nat → List Byte
  | 0, _ => []
  | n + 1, x => BitVec.ofNat 8 x :: bytesOfNat n (x / 256)

/-- Bytes of a record from an offset, as a number. -/
def fieldOf (bs : List Byte) (off len : Nat) : Nat := natOfBytes ((bs.drop off).take len)

/-- Replace bytes of a record from an offset. -/
def putBytes (bs : List Byte) (off : Nat) (new : List Byte) : List Byte :=
  bs.take off ++ new ++ bs.drop (off + new.length)

/-- Put an item before the first one that it is not after. -/
def insertBy {α : Type} (x : α) (le : α → α → Bool) : List α → List α
  | [] => [x]
  | y :: ys => if le x y then x :: y :: ys else y :: insertBy x le ys

/-- A list in order; items that are equal keep theirs. -/
def sortBy {α : Type} (xs : List α) (le : α → α → Bool) : List α := xs.foldr (fun x ys => insertBy x le ys) []

/-- Change the item of a list at a place. -/
def modAt {α : Type} (f : α → α) : List α → Nat → List α
  | [], _ => []
  | x :: xs, 0 => f x :: xs
  | x :: xs, n + 1 => x :: modAt f xs n

end Sys2Proof.Machine
end

