-- ==== Sys2Proof/Machine/Flags.lean ====
section
/-! DEFINITION. The number formats, the one rounding function, the flags it raises, and exact arithmetic on decoded values (R185 to R199/09). -/

namespace Sys2Proof.Machine

/-- Rounding modes (R101/04, R256/12). -/
inductive RMode where
  | rne | rtz | rdn | rup
deriving DecidableEq, Repr

/-- A binary format (R185/09). -/
structure Fmt where
  ebits : Nat
  mbits : Nat
  bias : Nat
  narrow : Bool
  hasInf : Bool
deriving DecidableEq, Repr

def Fmt.f64 : Fmt := ⟨11, 52, 1023, false, true⟩
def Fmt.f32 : Fmt := ⟨8, 23, 127, false, true⟩
def Fmt.f16 : Fmt := ⟨5, 10, 15, false, true⟩
def Fmt.bf16 : Fmt := ⟨8, 7, 127, false, true⟩
def Fmt.e4m3 : Fmt := ⟨4, 3, 7, true, false⟩
def Fmt.e5m2 : Fmt := ⟨5, 2, 15, true, true⟩

/-- A decoded value: NaN, an infinity, or a signed exact rational n / d (a zero keeps its sign). -/
inductive Val where
  | nan
  | inf (neg : Bool)
  | fin (neg : Bool) (n d : Nat)
deriving DecidableEq, Repr

/-- Flags raised, with the saturation of a narrow target (R195/09). -/
structure Raised where
  fl : FpFlags := {}
  sat : Bool := false
deriving DecidableEq, Repr

/-- A value with what computing it raised. -/
structure FVal where
  v : Val
  r : Raised := {}
deriving DecidableEq, Repr

/-- A code with what rounding to it raised. -/
structure FRes where
  bits : Nat
  r : Raised := {}
deriving DecidableEq, Repr

/-- The union of two sets of flags. -/
def FpFlags.or (a b : FpFlags) : FpFlags :=
  ⟨a.iv || b.iv, a.dz || b.dz, a.of || b.of, a.uf || b.uf, a.nx || b.nx⟩

/-- Both sets of what was raised. -/
def Raised.or (a b : Raised) : Raised := ⟨a.fl.or b.fl, a.sat || b.sat⟩

/-- IV to NX as the bits [4:0] of `$status` and of INFO (R106, R107/04). -/
def FpFlags.bits (f : FpFlags) : BitVec 5 :=
  BitVec.ofBool f.iv ++ BitVec.ofBool f.dz ++ BitVec.ofBool f.of ++ BitVec.ofBool f.uf ++ BitVec.ofBool f.nx

/-- The flags of bits [4:0]. -/
def FpFlags.ofBits (b : BitVec 5) : FpFlags :=
  ⟨b.getLsbD 4, b.getLsbD 3, b.getLsbD 2, b.getLsbD 1, b.getLsbD 0⟩

def raiseIV : Raised := { fl := { iv := true } }
def raiseDZ : Raised := { fl := { dz := true } }
def raiseNX : Raised := { fl := { nx := true } }

/-- Width of a code in bits (R185/09). -/
def Fmt.width (f : Fmt) : Nat := 1 + f.ebits + f.mbits

/-- The exponent field of all ones. -/
def Fmt.emax (f : Fmt) : Nat := 2 ^ f.ebits - 1

/-- The sign bit of a code. -/
def Fmt.signBit (f : Fmt) (neg : Bool) : Nat := if neg then 2 ^ (f.ebits + f.mbits) else 0

/-- The canonical NaN (R185/09): quiet bit set, and 0x7F in e4m3. -/
def Fmt.canon (f : Fmt) : Nat :=
  if f.hasInf then f.emax * 2 ^ f.mbits + 2 ^ (f.mbits - 1) else 2 ^ (f.ebits + f.mbits) - 1

/-- The code of an infinity. -/
def Fmt.infCode (f : Fmt) (neg : Bool) : Nat := f.signBit neg + f.emax * 2 ^ f.mbits

/-- The code of the largest finite magnitude (R185/09). -/
def Fmt.maxfin (f : Fmt) (neg : Bool) : Nat :=
  f.signBit neg + if f.hasInf then f.emax * 2 ^ f.mbits - 1 else f.emax * 2 ^ f.mbits + 2 ^ f.mbits - 2

/-- A rational scaled by a power of two. -/
def scaleQ (n d : Nat) (e : Int) : Nat × Nat :=
  if 0 ≤ e then (n * 2 ^ e.toNat, d) else (n, d * 2 ^ (-e).toNat)

/-- The finite value ± n / d × 2^e. -/
def Val.scaled (neg : Bool) (n d : Nat) (e : Int) : Val := .fin neg (scaleQ n d e).1 (scaleQ n d e).2

/-- The value of a code (R186/09). -/
def decodeF (f : Fmt) (c : Nat) : Val :=
  let m := c % 2 ^ f.mbits
  let e := c / 2 ^ f.mbits % 2 ^ f.ebits
  let neg := c / 2 ^ (f.ebits + f.mbits) % 2 == 1
  if e = 0 then .scaled neg m 1 (1 - (f.bias : Int) - f.mbits)
  else if e = f.emax ∧ f.hasInf then (if m = 0 then .inf neg else .nan)
  else if e = f.emax ∧ m = 2 ^ f.mbits - 1 then .nan
  else .scaled neg (2 ^ f.mbits + m) 1 ((e : Int) - f.bias - f.mbits)

/-- Is a code subnormal? -/
def Fmt.subnormal (f : Fmt) (c : Nat) : Bool :=
  c / 2 ^ f.mbits % 2 ^ f.ebits == 0 && !(c % 2 ^ f.mbits == 0)

/-- A magnitude n / d rounded to an integer, and whether it changed. -/
def roundMag (mode : RMode) (neg : Bool) (n d : Nat) : Nat × Bool :=
  let q := n / d
  let r := n % d
  if r = 0 then (q, false)
  else
    let up := match mode with
      | .rne => decide (d < 2 * r) || (2 * r == d && q % 2 == 1)
      | .rtz => false
      | .rdn => neg
      | .rup => !neg
    (if up then q + 1 else q, true)

/-- The exponent e with 2^e ≤ n / d < 2^(e+1), for n ≠ 0. -/
def floorLog2 (n d : Nat) : Int :=
  let e : Int := (Nat.log2 n : Int) - Nat.log2 d
  if (scaleQ n d (-e)).1 < (scaleQ n d (-e)).2 then e - 1 else e

/-- Rounding to a format (R194/09). -/
def roundF (x : Val) (f : Fmt) (mode : RMode) : FRes :=
  match x with
  | .nan => ⟨f.canon, {}⟩
  | .inf neg => if f.hasInf then ⟨f.infCode neg, {}⟩ else ⟨f.maxfin neg, ⟨{ nx := true }, true⟩⟩
  | .fin neg n d =>
    if n = 0 then ⟨f.signBit neg, {}⟩
    else
      let qe : Int := max (floorLog2 n d) (1 - (f.bias : Int)) - f.mbits
      let s := scaleQ n d (-qe)
      let (y, inexact) := roundMag mode neg s.1 s.2
      -- a carry out of the mantissa moves to the next exponent
      let (y, qe) := if y = 2 ^ (f.mbits + 1) then (y / 2, qe + 1) else (y, qe)
      let nx : FpFlags := { nx := inexact }
      if y = 0 then ⟨f.signBit neg, ⟨nx, false⟩⟩
      else if y < 2 ^ f.mbits then ⟨f.signBit neg + y, ⟨{ nx with uf := inexact }, false⟩⟩
      else
        let e := qe + f.mbits + f.bias
        let big := if f.hasInf then decide ((f.emax : Int) ≤ e)
          else decide ((f.emax : Int) < e) || (decide (e = f.emax) && decide (y = 2 ^ (f.mbits + 1) - 1))
        if big then
          if f.narrow then ⟨f.maxfin neg, ⟨{ nx := true }, true⟩⟩
          else
            let toInf := match mode with
              | .rne => true
              | .rtz => false
              | .rdn => neg
              | .rup => !neg
            ⟨if toInf then f.infCode neg else f.maxfin neg, ⟨{ of := true, nx := true }, false⟩⟩
        else ⟨f.signBit neg + (e.toNat * 2 ^ f.mbits + (y - 2 ^ f.mbits)), ⟨nx, false⟩⟩

/-- An input flushed under FTZ: a subnormal code becomes a zero of its sign (R196/09). -/
def flushIn (ftz : Bool) (f : Fmt) (c : Nat) : Nat :=
  if ftz && f.subnormal c then f.signBit (c / 2 ^ (f.ebits + f.mbits) % 2 == 1) else c

/-- A result flushed under FTZ, raising UF and NX (R196/09). -/
def flushOut (ftz : Bool) (f : Fmt) (x : FRes) : FRes :=
  if ftz && f.subnormal x.bits then
    ⟨f.signBit (x.bits / 2 ^ (f.ebits + f.mbits) % 2 == 1), x.r.or ⟨{ uf := true, nx := true }, false⟩⟩
  else x

/-- The sign of a value. -/
def Val.neg? : Val → Bool
  | .nan => false
  | .inf s => s
  | .fin s _ _ => s

/-- The negated value. -/
def Val.negate : Val → Val
  | .nan => .nan
  | .inf s => .inf (!s)
  | .fin s n d => .fin (!s) n d

/-- Is it NaN? -/
def Val.isNan : Val → Bool
  | .nan => true
  | .inf _ => false
  | .fin _ _ _ => false

/-- Is it a zero? -/
def Val.isZero : Val → Bool
  | .fin _ n _ => n == 0
  | .nan => false
  | .inf _ => false

/-- A signed integer over a common denominator. -/
def signedN (neg : Bool) (n : Nat) : Int := if neg then -(n : Int) else n

/-- The exact sum (R289/14): an exact zero sum is +0, except under RDN; equal-signed zeros keep their sign; ∞ − ∞ is IV. -/
def addV (mode : RMode) : Val → Val → FVal
  | .nan, _ => ⟨.nan, {}⟩
  | _, .nan => ⟨.nan, {}⟩
  | .inf a, .inf b => if a = b then ⟨.inf a, {}⟩ else ⟨.nan, raiseIV⟩
  | .inf a, .fin _ _ _ => ⟨.inf a, {}⟩
  | .fin _ _ _, .inf b => ⟨.inf b, {}⟩
  | .fin a n d, .fin b m e =>
    if n = 0 ∧ m = 0 ∧ a = b then ⟨.fin a 0 1, {}⟩
    else
      let s := signedN a (n * e) + signedN b (m * d)
      if s = 0 then ⟨.fin (decide (mode = .rdn)) 0 1, {}⟩
      else ⟨.fin (decide (s < 0)) s.natAbs (d * e), {}⟩

/-- The exact product (R288/14): 0 × ∞ is IV. -/
def mulV : Val → Val → FVal
  | .nan, _ => ⟨.nan, {}⟩
  | _, .nan => ⟨.nan, {}⟩
  | .inf a, .inf b => ⟨.inf (a != b), {}⟩
  | .inf a, .fin b m _ => if m = 0 then ⟨.nan, raiseIV⟩ else ⟨.inf (a != b), {}⟩
  | .fin a n _, .inf b => if n = 0 then ⟨.nan, raiseIV⟩ else ⟨.inf (a != b), {}⟩
  | .fin a n d, .fin b m e => ⟨.fin (a != b) (n * m) (d * e), {}⟩

/-- The exact quotient (R288/14): 0 ÷ 0 and ∞ ÷ ∞ are IV, a finite nonzero x ÷ 0 is an infinity with DZ. -/
def divV : Val → Val → FVal
  | .nan, _ => ⟨.nan, {}⟩
  | _, .nan => ⟨.nan, {}⟩
  | .inf _, .inf _ => ⟨.nan, raiseIV⟩
  | .inf a, .fin b _ _ => ⟨.inf (a != b), {}⟩
  | .fin a _ _, .inf b => ⟨.fin (a != b) 0 1, {}⟩
  | .fin a n d, .fin b m e =>
    if m = 0 then (if n = 0 then ⟨.nan, raiseIV⟩ else ⟨.inf (a != b), raiseDZ⟩)
    else ⟨.fin (a != b) (n * e) (d * m), {}⟩

/-- x < y on values that are not NaN, −0 below +0 when `zeros` says so (R289/14). -/
def ltV (zeros : Bool) : Val → Val → Bool
  | .nan, _ => false
  | _, .nan => false
  | .inf a, .inf b => a && !b
  | .inf a, .fin _ _ _ => a
  | .fin _ _ _, .inf b => !b
  | .fin a n d, .fin b m e =>
    if n = 0 ∧ m = 0 then zeros && a && !b
    else decide (signedN a (n * e) < signedN b (m * d))

/-- Equality of values; −0 = +0 (R292/14). -/
def eqV : Val → Val → Bool
  | .nan, _ => false
  | _, .nan => false
  | .inf a, .inf b => a == b
  | .inf _, .fin _ _ _ => false
  | .fin _ _ _, .inf _ => false
  | .fin a n d, .fin b m e => decide (signedN a (n * e) = signedN b (m * d))

/-- The lesser; the other operand when exactly one is NaN (R289/14). -/
def minV (x y : Val) : Val :=
  if x.isNan then y else if y.isNan then x else if ltV true y x then y else x

/-- The greater, likewise. -/
def maxV (x y : Val) : Val :=
  if x.isNan then y else if y.isNan then x else if ltV true x y then y else x

/-- ± (x × y) ± z before rounding; 0 × ∞ is IV even when z is NaN (R288/14). -/
def fmaV (mode : RMode) (negP negZ : Bool) (x y z : Val) : FVal :=
  let p := mulV x y
  let pv := if negP then p.v.negate else p.v
  let zv := if negZ then z.negate else z
  if p.r.fl.iv then p else addV mode pv zv

/-- The binary and fused forms of majors 0x24 to 0x2B (R288/14). -/
inductive FOp where
  | add | sub | mul | div | min | max | fma | fms | fnma | copysign
deriving DecidableEq, Repr

/-- The exact result of a form, and its IV or DZ (R288, R289/14). -/
def fopV (op : FOp) (mode : RMode) (x y z : Val) : FVal :=
  match op with
  | .add => addV mode x y
  | .sub => addV mode x y.negate
  | .mul => mulV x y
  | .div => divV x y
  | .min => ⟨minV x y, {}⟩
  | .max => ⟨maxV x y, {}⟩
  | .fma => fmaV mode false false x y z
  | .fms => fmaV mode false true x y z
  | .fnma => fmaV mode true false x y z
  | .copysign =>
    match x, y with
    | .nan, _ => ⟨.nan, {}⟩
    | _, .nan => ⟨.nan, {}⟩
    | .inf _, _ => ⟨.inf y.neg?, {}⟩
    | .fin _ n d, _ => ⟨.fin y.neg? n d, {}⟩

/-- A form of R288 on codes, inputs and result flushed under FTZ. -/
def fop (f : Fmt) (op : FOp) (mode : RMode) (ftz : Bool) (a b c : Nat) : FRes :=
  let x := decodeF f (flushIn ftz f a)
  let y := decodeF f (flushIn ftz f b)
  let z := decodeF f (flushIn ftz f c)
  let e := fopV op mode x y z
  let r := roundF e.v f mode
  flushOut ftz f ⟨r.bits, r.r.or e.r⟩

/-- The unary forms of major 0x38 (R290/14). -/
inductive FUn where
  | abs | neg | rint | floor | ceil | trunc
deriving DecidableEq, Repr

/-- x rounded to an integer in a mode, keeping its sign, and whether it changed. -/
def rintV (mode : RMode) : Val → Val × Bool
  | .nan => (.nan, false)
  | .inf s => (.inf s, false)
  | .fin s n d => let (q, nx) := roundMag mode s n d; (.fin s q 1, nx)

/-- A unary form on a code (R290/14): no NX but for `rint`. -/
def fun1 (f : Fmt) (op : FUn) (mode : RMode) (ftz : Bool) (a : Nat) : FRes :=
  let x := decodeF f (flushIn ftz f a)
  let out (v : Val) (nx : Bool) : FRes :=
    flushOut ftz f ⟨(roundF v f .rne).bits, ⟨{ nx := nx }, false⟩⟩
  match op with
  | .abs => out (match x with | .nan => .nan | .inf _ => .inf false | .fin _ n d => .fin false n d) false
  | .neg => out x.negate false
  | .rint => out (rintV mode x).1 (rintV mode x).2
  | .floor => out (rintV .rdn x).1 false
  | .ceil => out (rintV .rup x).1 false
  | .trunc => out (rintV .rtz x).1 false

/-- The relations of the float comparisons (R292/14). -/
inductive FRel where
  | eq | lt | le | un
deriving DecidableEq, Repr

/-- A float comparison on codes, inputs flushed under FTZ: `clt` and `cle` of a NaN raise IV (R292/14). -/
def fcmp (f : Fmt) (rel : FRel) (ftz : Bool) (a b : Nat) : Bool × Raised :=
  let x := decodeF f (flushIn ftz f a)
  let y := decodeF f (flushIn ftz f b)
  let un := x.isNan || y.isNan
  match rel with
  | .eq => (eqV x y, {})
  | .un => (un, {})
  | .lt => (!un && ltV false x y, if un then raiseIV else {})
  | .le => (!un && (ltV false x y || eqV x y), if un then raiseIV else {})

/-- The range of an integer type (R192/09). -/
def intRange (signed : Bool) (bits : Nat) : Int × Int :=
  if signed then (-(2 ^ (bits - 1) : Nat), (2 ^ (bits - 1) : Nat) - 1) else (0, (2 ^ bits : Nat) - 1)

/-- Conversion to an integer type (R199/09): NaN gives 0 with IV, out of range clamps with IV, inexact raises NX. -/
def cvtInt (x : Val) (signed : Bool) (bits : Nat) (mode : RMode) : Int × Raised :=
  let (lo, hi) := intRange signed bits
  match x with
  | .nan => (0, raiseIV)
  | .inf s => (if s then lo else hi, raiseIV)
  | .fin s n d =>
    let (q, nx) := roundMag mode s n d
    let y := signedN s q
    if y < lo then (lo, raiseIV) else if hi < y then (hi, raiseIV)
    else (y, if nx then raiseNX else {})

/-- The magnitude of an e2m1 code's low three bits, in halves (R188/09). -/
def e2m1Halves : Nat → Nat
  | 0 => 0 | 1 => 1 | 2 => 2 | 3 => 3 | 4 => 4 | 5 => 6 | 6 => 8 | _ => 12

/-- The unscaled value of an e2m1 code with a spare code (R188, R190/09). -/
def e2m1Val (spare c : Nat) : Val :=
  if c % 16 = 8 then decodeF .e4m3 spare else .fin (decide (8 ≤ c % 16)) (e2m1Halves (c % 8)) 2

/-- A value scaled by 2^e; a NaN block (scale 0xFF) is NaN (R190/09). -/
def Val.scale (e : Int) : Val → Val
  | .nan => .nan
  | .inf s => .inf s
  | .fin s n d => .scaled s n d e

/-- The value of an e2m1 element in a block with a side pair (R190/09). -/
def e2m1Decode (scale spare c : Nat) : Val :=
  if scale = 255 then .nan else (e2m1Val spare c).scale ((scale : Int) - 127)

/-- The point k of the e2m1 grid continued without bound, in halves: 0, 1, 2, 3, 4, 6, 8, 12, 16, 24, … (R191/09). -/
def e2m1Point (k : Nat) : Nat :=
  if k < 2 then k else (if k % 2 = 0 then 2 else 3) * 2 ^ (k / 2 - 1)

/-- The lowest grid point index above |x| (in halves n / d), within fuel. -/
def e2m1Above (n d : Nat) : Nat → Nat → Nat
  | 0, k => k
  | fuel + 1, k => if n < e2m1Point k * d then k else e2m1Above n d fuel (k + 1)

/-- A candidate of R191: a regular grid point by index and sign, or the spare value. -/
structure E2Cand where
  num : Int
  den : Nat
  regular : Bool
  idx : Nat
  neg : Bool
deriving DecidableEq, Repr

/-- Encode x against a spare value v, or against none (R191/09, R297/14). DESIGN CHOICE: between v and a point of the continued grid that no
code holds, equally near, the continued point wins, so that SAT is set (R191 lets the regular code win, and there is none; log 96). -/
def roundE2m1 (x : Val) (v : Option Val) (mode : RMode) : FRes :=
  let spare : Option (Int × Nat) := match v with
    | some (.fin s n d) => some (signedN s n, d)
    | _ => none
  -- the code of the largest representable magnitude of the sign among ±6 and v
  let largest (neg : Bool) : Nat :=
    match spare with
    | some (sn, sd) => if decide (sn < 0) == neg && decide (6 * sd < sn.natAbs) then 8 else (if neg then 15 else 7)
    | none => if neg then 15 else 7
  let saturate (neg : Bool) : FRes := ⟨largest neg, ⟨{ nx := true }, true⟩⟩
  match x with
  | .nan => ⟨0, raiseIV⟩
  | .inf neg => saturate neg
  | .fin neg n d =>
    if n = 0 then ⟨0, {}⟩
    else
      let xn := signedN neg n
      let k := e2m1Above (2 * n) d (2 * (Nat.log2 (2 * n) + 4)) 0
      let reg (i : Nat) : E2Cand := ⟨signedN neg (e2m1Point i), 2, true, i, neg⟩
      let cands : List E2Cand := match spare with
        | some (sn, sd) =>
          -- a continued point that the spare value meets is that value, which is representable
          ((if k = 0 then [reg 0] else [reg (k - 1), reg k]).filter fun c : E2Cand => !(decide (7 < c.idx) && c.num * sd == sn * c.den)) ++
            [⟨sn, sd, false, 8, decide (sn < 0)⟩]
        | none => if k = 0 then [reg 0] else [reg (k - 1), reg k]
      -- the distance |c − x| as a fraction over den × d
      let dist (c : E2Cand) : Nat × Nat := ((c.num * d - xn * c.den).natAbs, c.den * d)
      let below (c : E2Cand) : Bool := decide (c.num * d ≤ xn * c.den)
      let above (c : E2Cand) : Bool := decide (xn * c.den ≤ c.num * d)
      let allowed (c : E2Cand) : Bool := match mode with
        | .rne => true
        | .rtz => if neg then above c else below c
        | .rdn => below c
        | .rup => above c
      -- strictly nearer, or a tie won: the regular code over the spare, then the code whose bit 0 is 0
      let better (a b : E2Cand) : Bool :=
        let (an, ad) := dist a
        let (bn, bd) := dist b
        if an * bd < bn * ad then true
        else if bn * ad < an * bd then false
        else if a.regular && !b.regular then true
        else if b.regular && !a.regular then false
        else a.idx % 2 == 0 && !(b.idx % 2 == 0)
      match cands.filter allowed with
      | [] => saturate neg
      | c :: cs =>
        let best := cs.foldl (fun b a => if better a b then a else b) c
        if best.regular then
          if 7 < best.idx then saturate neg
          else
            let code := if best.idx = 0 then 0 else best.idx + (if neg then 8 else 0)
            ⟨code, if best.num * d = xn * best.den then {} else raiseNX⟩
        else ⟨8, if best.num * d = xn * best.den then {} else raiseNX⟩

/-- A value of a 32-bit integer square root with a sticky half: exact, or strictly between two neighbours. -/
def sticky (s t : Nat) (exact : Bool) : Val := if exact then .scaled false s 1 (-(t : Int)) else .scaled false (2 * s + 1) 1 (-(t : Int) - 1)

/-- The square root of n / d as a value that rounds as the exact root does: 2^t-scaled floor and a sticky half. -/
def sqrtV (n d : Nat) : Val :=
  let t := 200
  let q := n * 2 ^ (2 * t) / d
  let s := Nat.sqrt q
  sticky s t (decide (s * s * d = n * 2 ^ (2 * t)))

end Sys2Proof.Machine
end

