-- ==== Sys2Proof/Machine/Access.lean ====
section
/-! DEFINITION. The accessors of the state: cores, fields, contexts, sheaves, teams, launches, jobs, and free choices. -/

namespace Sys2Proof.Machine

/-- The core of a number. -/
def State.core (s : State) (c : Nat) : Core := cget {} s.cores c
def State.modCore (s : State) (c : Nat) (f : Core → Core) : State :=
  { s with cores := cset {} s.cores c (f (s.core c)) }

/-- The field of a number. -/
def State.field (s : State) (n : Nat) : FieldState := cget {} s.fields n
def State.modField (s : State) (n : Nat) (f : FieldState → FieldState) : State :=
  { s with fields := cset {} s.fields n (f (s.field n)) }

/-- The context of a number. -/
def State.ctx (s : State) (n : Nat) : Context := cget {} s.ctxs n
def State.modCtx (s : State) (n : Nat) (f : Context → Context) : State :=
  { s with ctxs := cset {} s.ctxs n (f (s.ctx n)) }

/-- The work queue of a number. -/
def State.queue (s : State) (n : Nat) : Queue := cget {} s.queues n
def State.modQueue (s : State) (n : Nat) (f : Queue → Queue) : State :=
  { s with queues := cset {} s.queues n (f (s.queue n)) }

/-- The ramp governor of a cluster. -/
def State.ramp (s : State) (n : Nat) : Ramp := cget {} s.ramps n
def State.modRamp (s : State) (n : Nat) (f : Ramp → Ramp) : State :=
  { s with ramps := cset {} s.ramps n (f (s.ramp n)) }

/-- Change every value of a sparse map that is listed, keeping the canonical form. -/
def cmap {α : Type} [DecidableEq α] (dflt : α) (f : α → α) (m : Cells α) : Cells α :=
  (m.map fun c => (c.1, f c.2)).filter fun c => !(decide (c.2 = dflt))

/-- Change every core, or every field. -/
def State.mapCores (s : State) (f : Core → Core) : State := { s with cores := cmap {} f s.cores }
def State.mapFields (s : State) (f : FieldState → FieldState) : State := { s with fields := cmap {} f s.fields }

/-- Change every sheaf. -/
def State.mapSheaves (s : State) (f : Sheaf → Sheaf) : State := { s with sheaves := s.sheaves.map f }

/-- A sheaf by its model number. -/
def State.sheaf? (s : State) (id : Nat) : Option Sheaf := s.sheaves.find? fun h => h.id == id
def State.modSheaf (s : State) (id : Nat) (f : Sheaf → Sheaf) : State :=
  { s with sheaves := s.sheaves.map fun h => if h.id = id then f h else h }

/-- A team by its model number. -/
def State.team? (s : State) (id : Nat) : Option Team := s.teams.find? fun t => t.id == id
def State.modTeam (s : State) (id : Nat) (f : Team → Team) : State :=
  { s with teams := s.teams.map fun t => if t.id = id then f t else t }

/-- A launch by its model number. -/
def State.launch? (s : State) (id : Nat) : Option Launch := s.launches.find? fun l => l.id == id
def State.modLaunch (s : State) (id : Nat) (f : Launch → Launch) : State :=
  { s with launches := s.launches.map fun l => if l.id = id then f l else l }

/-- A job by its model number. -/
def State.job? (s : State) (id : Nat) : Option Job := s.jobs.find? fun j => j.id == id
def State.modJob (s : State) (id : Nat) (f : Job → Job) : State :=
  { s with jobs := s.jobs.map fun j => if j.id = id then f j else j }

/-- The residency of a context on a core, if it holds one. -/
def Core.res? (c : Core) (ctx : Nat) : Option Res := c.res.find? fun r => r.ctx == ctx
def State.modRes (s : State) (core ctx : Nat) (f : Res → Res) : State :=
  s.modCore core fun c => { c with res := c.res.map fun r => if r.ctx = ctx then f r else r }

/-- One free choice among `ways` ways: the counter moves on (log 4). -/
def State.pick (s : State) (ways : Nat) : Nat × State :=
  (Config.choice s.choices % (max ways 1), { s with choices := s.choices + 1 })

/-- A free yes or no. -/
def State.flip (s : State) : Bool × State :=
  (Config.choice s.choices % 2 == 1, { s with choices := s.choices + 1 })

/-- A fresh model number. -/
def State.fresh (s : State) : Nat × State := (s.nextId, { s with nextId := s.nextId + 1 })

/-- Elapsed time grows by one cycle of a clock of `mhz` MHz. -/
def Time.tick (t : Time) (mhz : Nat) : Time :=
  let num := t.num * mhz + t.den
  let den := t.den * mhz
  { num := num / Nat.gcd num den, den := den / Nat.gcd num den }

/-- Have `ns` nanoseconds passed between two times? -/
def Time.passed (now before : Time) (ns : Nat) : Bool :=
  decide (ns * (now.den * before.den) ≤ (now.num * before.den - before.num * now.den) * 1000)

/-- Whole milliseconds of a time. -/
def Time.ms (t : Time) : Nat := t.num / (t.den * 1000)

/-- Have `ns` nanoseconds passed since a time (R5/00)? -/
def State.elapsed (s : State) (since : Time) (ns : Nat) : Bool := s.time.passed since ns

/-- The current cycle as a number. -/
def State.now (s : State) : Nat := s.cycle.toNat

/-- Field and cluster of a core (R19/01). -/
def fieldOfCore (c : Nat) : Nat := c / Config.coresPerField
def clusterOfCore (c : Nat) : Nat := c / Config.coresPerCluster

/-- The numbers of the lanes in a mask, ascending. -/
def lanesOf (m : Mask) : List Nat := (List.range 64).filter fun l => m.getLsbD l

/-- A mask of one lane. -/
def laneBit (l : Nat) : Mask := (1 : Mask) <<< l

/-- The mask of a list of lanes. -/
def maskOf (ls : List Nat) : Mask := ls.foldl (fun m l => m ||| laneBit l) 0

/-- The lowest lane of a mask; 0 when it is empty. -/
def lowestLane (m : Mask) : Nat := (lanesOf m).headD 0

/-- A lane of a sheaf. -/
def Sheaf.lane (h : Sheaf) (l : Nat) : Lane := h.lanes.getD l {}
def Sheaf.modLane (h : Sheaf) (l : Nat) (f : Lane → Lane) : Sheaf := { h with lanes := modAt f h.lanes l }

/-- The lanes a list of waits holds. -/
def waitMask (ws : List Wait) : Mask := ws.foldl (fun m w => m ||| w.lanes) 0

/-- The ready lanes of a sheaf (R35/02): not exited, not waiting, not stalled by the scoreboard, as the start of the cycle
found it (`blocked`) or an issue since. -/
def Sheaf.ready (h : Sheaf) : Mask := ~~~(h.exited ||| waitMask h.waits ||| h.stalled ||| h.blocked)

/-- The lanes that have not exited. -/
def Sheaf.live (h : Sheaf) : Mask := ~~~h.exited

/-- The sheaf whose instruction is issuing; a sheaf of no launch when none is. -/
def State.me (s : State) : Sheaf :=
  match s.cur with
  | some i => (s.sheaf? i.sheaf).getD { id := 0, launch := 0 }
  | none => { id := 0, launch := 0 }

/-- The lanes active for the issue (R37/02). -/
def State.active (s : State) : Mask := match s.cur with | some i => i.lanes | none => 0

/-- The PC of the issue. -/
def State.issuePc (s : State) : Vaddr := match s.cur with | some i => i.pc | none => 0

/-- Is the issue the solo slot's? -/
def State.solo (s : State) : Bool := match s.cur with | some i => i.solo | none => false

/-- Change the issuing sheaf. -/
def State.modMe (s : State) (f : Sheaf → Sheaf) : State :=
  match s.cur with
  | some i => s.modSheaf i.sheaf f
  | none => s

/-- The launch of a sheaf; a launch without limits when it has none. -/
def State.launchOf (s : State) (h : Sheaf) : Launch := (s.launch? h.launch).getD { id := 0, ctx := 0, tag := 0 }

/-- The team in a slot of a sheaf (R109/04). -/
def State.teamIn (s : State) (h : Sheaf) (slot : Nat) : Option Team :=
  match h.slots.getD slot none with
  | some t => s.team? t
  | none => none

/-- The teams in a sheaf's valid slots. -/
def State.teamsOf (s : State) (h : Sheaf) : List Team := (h.slots.filterMap id).filterMap s.team?

/-- Does a context run as supervisor (R364/18)? -/
def State.supervisor (s : State) (ctx : Nat) : Bool := s.sysCtx == some ctx

end Sys2Proof.Machine
end

