-- ==== Sys2Proof/Machine/Mem.lean ====
section
/-! DEFINITION. Memory behind every space: host physical ranges, the two-stage walk, translation caches, peers, revisions, L1, and the checks of R116/05. -/

namespace Sys2Proof.Machine

/-- What an access does, for the permission checks (R116, R133/05). -/
inductive AccKind where
  | load | store | atomic | fetch
deriving DecidableEq, Repr

/-- The base of the barn alias and of the peer range (R129/05). -/
def barnAlias : Nat := 0x400000000000
def reservedBase : Nat := 0x400400000000
def peerBase : Nat := 0x8000000000000

/-- The bytes of a barn (R123/05). -/
def barnBytes : Nat := 0x70000000

/-- Home field of a host physical address (R131/05). -/
def homeField (a : Nat) : Nat :=
  if barnAlias ≤ a ∧ a < reservedBase then a / 2 ^ 31 % 8 else (a / 2 ^ 7 % 8) ^^^ (a / 2 ^ 16 % 8)

/-- Home slice within the field (R131/05). -/
def homeSlice (a : Nat) : Nat :=
  if barnAlias ≤ a ∧ a < reservedBase then (a / 2 ^ 7 % 64) ^^^ (a / 2 ^ 13 % 64)
  else (a / 2 ^ 10 % 64) ^^^ (a / 2 ^ 22 % 64)

/-- The 128-byte line of an address. -/
def lineOf (a : Nat) : Nat := a / 128 * 128

/-- The decoder that covers a pooled address: the lowest-numbered one (R385/19). -/
def State.decoderOf (s : State) (a : Nat) : Option Decoder :=
  (List.range 32).findSome? fun k =>
    match cget none s.decoders k with
    | some d => if d.base ≤ a ∧ a < d.base + d.size then some d else none
    | none => none

/-- The CXL port of a pooled address (R385/19). -/
def decoderPort (d : Decoder) (a : Nat) : Nat :=
  d.ports.getD ((a - d.base) / d.granularity % d.ports.length) 255

/-- Does an access to a host address meet an uncorrectable error (R132, R138/05, R387/19)? -/
def State.uncorrAt (s : State) (a : Nat) : Bool :=
  if a < barnAlias then
    match s.decoderOf a with
    | none => true
    | some d => s.poison.contains (lineOf a) || s.fenced.contains (.port (decoderPort d a))
  else if a < reservedBase then s.poison.contains (lineOf a)
  else decide (peerBase ≤ a) && s.peersDown.contains (a / 2 ^ 38 % 8192)

/-- A page table entry read for a level (R174/07). -/
inductive Pte where
  | invalid
  | table (addr : Nat)
  | leaf (base size : Nat) (r w x : Bool)
deriving DecidableEq, Repr

/-- The entry's meaning at a level, with every case that makes it invalid (R174/07). -/
def pteOf (level : Nat) (e : BitVec 64) : Pte :=
  let addr := e.toNat / 4096 % 2 ^ 40 * 4096
  let x := e.getLsbD 5
  let w := e.getLsbD 4
  let r := e.getLsbD 3
  let sz64 := e.getLsbD 7
  let reserved := e.extractLsb' 52 12 ≠ 0 ∨ e.extractLsb' 8 4 ≠ 0 ∨ e.getLsbD 6 ∨ e.getLsbD 1
  if ¬ e.getLsbD 0 ∨ reserved then .invalid
  else if e.getLsbD 2 then
    if 2 < level then .invalid
    else if sz64 ∧ level ≠ 0 then .invalid
    else
      let size := if sz64 then 65536 else 4096 * 512 ^ level
      let base := if sz64 then addr / 65536 * 65536 else addr
      if base % size = 0 then .leaf base size r w x else .invalid
  else if level = 0 ∨ x ∨ w ∨ r ∨ sz64 then .invalid
  else .table addr

/-- A translation of one stage. -/
structure Leaf where
  base : Nat
  size : Nat
  r : Bool
  w : Bool
  x : Bool
deriving DecidableEq, Repr

/-- Walk a stage's tables from a level down (R174/07); `read` reads an entry and may itself fault. -/
def walkFrom (read : Nat → Except Cause (BitVec 64)) (bad : Cause) (va : Nat) : Nat → Nat → Except Cause Leaf
  | 0, table =>
    match read (table + va / 4096 % 512 * 8) with
    | .error c => .error c
    | .ok e =>
      match pteOf 0 e with
      | .leaf b n r w x => .ok ⟨b, n, r, w, x⟩
      | .table _ => .error bad
      | .invalid => .error bad
  | l + 1, table =>
    match read (table + va / (4096 * 512 ^ (l + 1)) % 512 * 8) with
    | .error c => .error c
    | .ok e =>
      match pteOf (l + 1) e with
      | .leaf b n r w x => .ok ⟨b, n, r, w, x⟩
      | .table t => walkFrom read bad va l t
      | .invalid => .error bad

/-- Peer lines homed here (R308/15, R406/10): the copy, and which bytes differ from the peer. -/
def State.peerCopy (s : State) (hline : Nat) : Option (List Byte × BitVec 128) :=
  (s.l2peer.find? fun x => x.1 == hline).map fun x => x.2

/-- Where a byte of a context's window on a peer module lies among the places of memory: the window is the context's own (R386/19), so its
number stands above the 52 bits of the host address. -/
def placeOf (ctx hpa : Nat) : Nat := if peerBase ≤ hpa then hpa % 2 ^ 52 + ctx * 2 ^ 52 else hpa

/-- An 8-byte table entry, as the walkers read it through L2 (R134/05): of the local copy of a peer line, else of host memory. DESIGN
CHOICE: one that lies in poisoned, uncovered or fenced memory is read as that memory holds it (log 103). -/
def State.readDword (s : State) (hpa : Nat) : BitVec 64 :=
  BitVec.ofNat 64 (natOfBytes (match s.peerCopy (lineOf hpa) with
    | some (d, _) => (d.drop (hpa % 128)).take 8
    | none => s.mem.read hpa 8))

/-- Is a host address one a second-stage entry may map to (R124, R129/05)? -/
def State.hostValid (s : State) (hpa : Nat) : Bool :=
  if hpa < barnAlias then true
  else if hpa < reservedBase then
    let off := hpa % 2 ^ 31
    decide (off < barnBytes) &&
      (cget 0 (s.field ((hpa - barnAlias) / 2 ^ 31)).barn (off / 2 ^ 21)).extractLsb' 30 2 == 1
  else decide (peerBase ≤ hpa) && decide (hpa < 2 ^ 52)

/-- Second stage: guest physical to host physical (R133/05), a peer's as a place of the context's window. DESIGN CHOICE: a table of it
that lies where R124 and R129/05 let no entry map, in the reserved range or on a barn page that is free or the device's, gives XLATE2
(log 104). -/
def State.stage2 (s : State) (ctx gpa : Nat) : Except Cause (Nat × Leaf) :=
  if 2 ^ 52 ≤ gpa then .error .xlate2
  else
    match walkFrom (fun a => if s.hostValid a then .ok (s.readDword (placeOf ctx a)) else .error .xlate2) .xlate2 gpa 4
        (s.ctx ctx).root2.toNat with
    | .error c => .error c
    | .ok l =>
      let hpa := l.base + gpa % l.size
      if s.hostValid hpa then .ok (placeOf ctx hpa, l) else .error .xlate2

/-- How much of a translation one walk has checked: in the barn alias one barn page, the unit of R123 and R124/05; else all of it. -/
def hostSpan (hpa : Nat) : Nat := if barnAlias ≤ hpa ∧ hpa < reservedBase then 2 ^ 21 else 2 ^ 52

/-- Both stages for a virtual address (R133/05): the translation covers the smaller of the two pages, its `span`; the entry holds the piece
of it that this walk has checked. -/
def State.walkBoth (s : State) (ctx va : Nat) : Except Cause Tlb :=
  let read (gpa : Nat) : Except Cause (BitVec 64) :=
    match s.stage2 ctx gpa with
    | .error c => .error c
    | .ok (hpa, l) => if l.r then .ok (s.readDword hpa) else .error .perm
  match walkFrom read .xlate1 va 4 (s.ctx ctx).root1.toNat with
  | .error c => .error c
  | .ok l1 =>
    let gpa := l1.base + va % l1.size
    match s.stage2 ctx gpa with
    | .error c => .error c
    | .ok (hpa, l2) =>
      let span := min l1.size l2.size
      let size := min span (hostSpan hpa)
      .ok ⟨ctx, va / size * size, gpa / size * size, hpa / size * size, size,
        l1.r && l2.r, l1.w && l2.w, l1.x && l2.x, span⟩

/-- A cached translation of a context that covers an address. -/
def tlbFind (tlb : List Tlb) (ctx va : Nat) : Option Tlb :=
  tlb.find? fun t => t.ctx == ctx && decide (t.va ≤ va) && decide (va < t.va + t.size)

/-- Does the translation, whole, overlap a range of its first or second stage (R380/18)? -/
def Tlb.meets (t : Tlb) (gpa : Bool) (lo len : Nat) : Bool :=
  let b := (if gpa then t.gpa else t.va) / t.span * t.span
  decide (b < lo + len) && decide (lo < b + t.span)

/-- Does a removal take a translation (R380/18)? -/
def Tlb.removedBy (t : Tlb) (r : Nat × Option (Bool × Nat × Nat)) : Bool :=
  t.ctx == r.1 && (match r.2 with | some (g, lo, len) => t.meets g lo len | none => true)

/-- The translation in use for an address: the core's, the field's, or a walk, which is then cached (R134/05), but for one that a
removal of the same cycle takes (R380/18). -/
def State.translate (s : State) (core ctx va : Nat) : Except Cause Tlb × State :=
  match tlbFind (s.core core).tlb ctx va with
  | some t => (.ok t, s)
  | none =>
    let add (t : Tlb) (s : State) : State :=
      s.modCore core fun c => { c with tlb := (t :: c.tlb).take 128 }
    match tlbFind (s.field (fieldOfCore core)).tlb ctx va with
    | some t => (.ok t, add t s)
    | none =>
      match s.walkBoth ctx va with
      | .error c => (.error c, s)
      | .ok t =>
        if s.removed.any t.removedBy then (.ok t, s)
        else (.ok t, add t (s.modField (fieldOfCore core) fun f => { f with tlb := (t :: f.tlb).take 8192 }))

/-- Do a translation's permissions allow an access (R133/05)? Every access needs read permission. -/
def Tlb.allows (t : Tlb) (k : AccKind) : Bool :=
  match k with
  | .load => t.r
  | .store | .atomic => t.r && t.w
  | .fetch => t.r && t.x

/-- The peer table entry of a module for a context (R167/07). DEDUCED: address 0 means no table, whose entries are not valid (log 114). -/
def State.peerEntry (s : State) (ctx m : Nat) : List Byte :=
  if (s.ctx ctx).peerTable = 0 then List.replicate 16 0 else s.mem.read ((s.ctx ctx).peerTable.toNat + 16 * m) 16

/-- May a peer entry be used for an offset (R167/07, R386/19)? DESIGN CHOICE: its link mask is not asked, so a valid entry that names no
link is used like any other (log 90). -/
def peerOpen (e : List Byte) (off : Nat) : Bool := (e.getD 0 0).getLsbD 0 && decide (off < 2 ^ (e.getD 1 0).toNat)

/-- Does a peer entry permit an access (R167/07)? -/
def peerAllows (e : List Byte) (k : AccKind) : Bool :=
  match k with
  | .load | .fetch => (e.getD 0 0).getLsbD 1
  | .store | .atomic => (e.getD 0 0).getLsbD 2

/-- The module's own exported window, entered through the same context's stages (R386/19). -/
def State.ownWindow (s : State) (core ctx : Nat) (k : AccKind) (off : Nat) : Except Cause Nat × State :=
  if (s.ctx ctx).exportSize ≤ off then (.error .xlate2, s)
  else
    let va := ((s.ctx ctx).exportBase.toNat + off) % 2 ^ 56
    match s.translate core ctx va with
    | (.error .perm, s) => (.error .perm, s)
    | (.error _, s) => (.error .xlate2, s)
    | (.ok t, s) =>
      if peerBase ≤ t.hpa + (va - t.va) then (.error .xlate2, s)
      else if t.allows k then (.ok (t.hpa + (va - t.va)), s)
      else (.error .perm, s)

/-- A virtual address translated, with every check this module makes (R116, R124, R129, R133/05, R167/07, R386/19; log 37), and the
caches as the walk fills them. DESIGN CHOICE: a valid peer entry whose link mask names no link is used like any other (log 90). -/
def State.xlateHere (s : State) (core ctx : Nat) (k : AccKind) (va : Nat) : Except Cause Nat × State :=
  match s.translate core ctx va with
  | (.error c, s) => (.error c, s)
  | (.ok t, s) =>
    let hpa := t.hpa + (va - t.va)
    if ¬ t.allows k then (.error .perm, s)
    else if hpa < peerBase then (.ok hpa, s)
    else
      let e := s.peerEntry ctx (hpa / 2 ^ 38 % 8192)
      if ¬ peerOpen e (hpa % 2 ^ 38) then (.error .xlate2, s)
      else if ¬ peerAllows e k then (.error .perm, s)
      else if hpa / 2 ^ 38 % 8192 = s.device.toNat then s.ownWindow core ctx k (hpa % 2 ^ 38)
      else (.ok hpa, s)

/-- What the exporting module answers an access to a place of a peer with (R386/19): XLATE2 where a stage of it finds no mapping, PERM
where its permissions deny the access. -/
def State.peerAnswer (s : State) (k : AccKind) (hpa : Nat) : Option Cause :=
  if hpa < peerBase then none
  else
    match s.peerFaults.lookup (hpa / 4096) with
    | none => none
    | some none => some .xlate2
    | some (some (r, w, x)) => if (⟨0, 0, 0, 0, 0, r, w, x, 0⟩ : Tlb).allows k then none else some .perm

/-- A virtual address translated with every check up to permission, the exporting module's among them (R116, R133/05, R386/19): the
place of the byte. A fault leaves the translation caches as they were (R138/05). -/
def State.xlate (s : State) (core ctx : Nat) (k : AccKind) (va : Nat) : Except Cause Nat × State :=
  match s.xlateHere core ctx k va with
  | (.error c, _) => (.error c, s)
  | (.ok hpa, t) =>
    match s.peerAnswer k hpa with
    | some c => (.error c, s)
    | none => (.ok hpa, t)

/-- The used regions of a context, as 256-bit entries (R161/07). -/
def Context.regionEntries (c : Context) : List (BitVec 256) :=
  (List.range 64).map (fun k => cget 0 c.regions k)

def regionBase (e : BitVec 256) : Nat := (e.extractLsb' 0 64).toNat
def regionPages (e : BitVec 256) : Nat := (e.extractLsb' 64 32).toNat
def regionMerge (e : BitVec 256) : Nat := (e.extractLsb' 96 4).toNat
def regionElem (e : BitVec 256) : Nat := (e.extractLsb' 100 4).toNat
def regionRing (e : BitVec 256) : Nat := (e.extractLsb' 128 64).toNat
def regionUsed (e : BitVec 256) : Bool := !(regionPages e == 0)
def regionHas (e : BitVec 256) (va : Nat) : Bool :=
  decide (regionBase e ≤ va) && decide (va < regionBase e + 4096 * regionPages e)

/-- The revisioned region of an address: used, and not SHARED (R222/10). -/
def Context.regionOf (c : Context) (va : Nat) : Option (BitVec 256) :=
  c.regionEntries.find? fun e => regionUsed e && !(regionMerge e == 0) && regionHas e va

/-- A revision of a context. -/
def Context.rev? (c : Context) (r : Nat) : Option Rev := c.revs.find? fun v => v.id == r

/-- A line as a revision sees it (R222/10, R333/16): its own, else the ancestor kept at its fork, else its parent's. -/
def Context.viewLine (c : Context) (base : List Byte) (vline : Nat) : Nat → Nat → List Byte
  | 0, _ => base
  | fuel + 1, r =>
    match c.rev? r with
    | none => base
    | some v =>
      match v.lines.lookup vline with
      | some d => d
      | none =>
        match (v.ancestors.find? fun a => a.line == vline) with
        | some a => a.data
        | none => c.viewLine base vline fuel v.parent

/-- Has a field's granary no room for one entry more (R128/05): 144 bytes each? -/
def State.granaryFull (s : State) (field : Nat) : Bool :=
  let used := (s.ctxs.map fun c => (c.2.revs.map fun v =>
    (v.ancestors.filter fun a => a.extra.isNone && a.home == field).length).sum).sum
  decide ((s.field field).granary * 2 ^ 20 ≤ (used + 1) * 144 - 1)

/-- The places of a context's granary overflow area that hold an entry. -/
def Context.extras (c : Context) : List Nat := c.revs.flatMap fun v => v.ancestors.filterMap fun a => a.extra

/-- The lowest free place of the overflow area, and the next ones. -/
def Context.freeExtras (c : Context) : List Nat := (List.range (c.extras.length + 64)).filter fun k => !(c.extras.contains k)

/-- Needs a revision an ancestor of a line that it does not hold yet (R333/16)? -/
def Rev.needs (v : Rev) (vline : Nat) : Bool :=
  !((v.ancestors.any fun a => a.line == vline) || (v.lines.any fun a => a.1 == vline))

/-- The revisions for which a write of `rev` to a line retains an ancestor: its own, and its live children's (R333/16). -/
def Context.retainers (c : Context) (rev vline : Nat) : List Nat :=
  (c.revs.filter fun v => (v.id == rev || v.parent == rev) && v.needs vline).map fun v => v.id

/-- Guest physical pages of an overflow entry (R128/05): its first and last byte. -/
def Context.extraEnds (c : Context) (k : Nat) : List Nat := [c.granBase.toNat + 144 * k, c.granBase.toNat + 144 * k + 143]

/-- Does the overflow area's next free place lie in a page that the second stage does not map (R128/05)? -/
def State.extraUnmapped (s : State) (ctx : Nat) : Bool :=
  let c := s.ctx ctx
  (c.freeExtras.head?.map c.extraEnds).any fun gpas => gpas.any fun gpa =>
    match s.stage2 ctx gpa with
    | .error _ => true
    | .ok _ => false

/-- Write bytes at guest physical addresses that the second stage maps. -/
def State.putGuest (s : State) (ctx gpa : Nat) : List Byte → State
  | [] => s
  | b :: bs =>
    State.putGuest (match s.stage2 ctx gpa with
      | .ok (hpa, _) => { s with mem := s.mem.set hpa b }
      | .error _ => s) ctx (gpa + 1) bs

/-- A line of host memory. -/
def State.hostLine (s : State) (hline : Nat) : List Byte := s.mem.read hline 128

/-- One ancestor is kept for a revision (R128/05, R333/16): in the granary of the line's home field, or, where that is full, in the
overflow area, as 128 data bytes and a tag of the revision, then the line's virtual address (DESIGN CHOICE, log 71). -/
def State.retain (s : State) (ctx id vline hline : Nat) (data : List Byte) : State :=
  let c := s.ctx ctx
  let extra := if s.granaryFull (homeField hline) then c.freeExtras.head? else none
  let s := match extra with
    | some k => s.putGuest ctx (c.granBase.toNat + 144 * k) (data ++ bytesOfNat 8 id ++ bytesOfNat 8 vline)
    | none => s
  s.modCtx ctx fun c => { c with revs := c.revs.map fun v =>
    if v.id = id then { v with ancestors := v.ancestors ++ [⟨vline, data, homeField hline, extra⟩] } else v }

/-- Must one of the ancestors of a line that are retained for some revisions wait: it goes to an overflow page that is not mapped (R333/16)? -/
def State.someWait (s : State) (ctx vline hline : Nat) : List Nat → Bool
  | [] => false
  | id :: ids =>
    (s.granaryFull (homeField hline) && s.extraUnmapped ctx) || State.someWait (s.retain ctx id vline hline []) ctx vline hline ids

/-- Must a write wait for an ancestor that it retains (R333/16)? -/
def State.retainWaits (s : State) (ctx rev va hpa : Nat) : Bool :=
  let c := s.ctx ctx
  (c.regionOf va).isSome && s.someWait ctx (lineOf va) (lineOf hpa) (c.retainers rev (lineOf va))

/-- Has the home slice of a peer line a place for it: 4 MiB (R18/01, R131/05)? A line that finds none is evicted as it comes, as R406/10 lets
a slice do at any time. -/
def State.l2Room (s : State) (line : Nat) : Bool :=
  decide ((s.l2peer.filter fun x => homeField x.1 == homeField line && homeSlice x.1 == homeSlice line).length < Config.l2SliceLines)

/-- Read bytes of one line at its home slice (R131/05); `sys` bypasses the local copy of a peer line (R310/15). -/
def State.homeRead (s : State) (hpa n : Nat) (sys : Bool) : List Byte × State :=
  if hpa < peerBase ∨ sys then (s.mem.read hpa n, s)
  else
    match s.peerCopy (lineOf hpa) with
    | some (d, _) => ((d.drop (hpa % 128)).take n, s)
    | none =>
      (s.mem.read hpa n, if s.l2Room (lineOf hpa) then { s with l2peer := s.l2peer ++ [(lineOf hpa, s.hostLine (lineOf hpa), 0)] } else s)

/-- Write bytes of one line at its home slice; a plain store to peer memory stays in the local L2 (R406/10). -/
def State.homeWrite (s : State) (hpa : Nat) (bs : List Byte) (sys : Bool) : State :=
  let line := lineOf hpa
  if hpa < peerBase ∨ sys ∨ ((s.peerCopy line).isNone ∧ ¬ s.l2Room line) then { s with mem := s.mem.write hpa bs }
  else
    let s := if (s.peerCopy line).isSome then s else { s with l2peer := s.l2peer ++ [(line, s.hostLine line, 0)] }
    let bits : BitVec 128 := BitVec.ofNat 128 ((2 ^ bs.length - 1) * 2 ^ (hpa % 128))
    { s with l2peer := s.l2peer.map fun x => if x.1 = line then (line, putBytes x.2.1 (hpa % 128) bs, x.2.2 ||| bits) else x }

/-- Write a peer line back to the peer: the bytes that differ (R312/15, R406/10). -/
def State.peerWriteBack (s : State) (line : Nat) : State :=
  match s.peerCopy line with
  | none => s
  | some (d, m) =>
    let mem := (List.range 128).foldl (fun mem k => if m.getLsbD k then mem.set (line + k) (d.getD k 0) else mem) s.mem
    { s with mem := mem, l2peer := s.l2peer.map fun x => if x.1 = line then (line, d, 0) else x }

/-- Drop the local copy of a peer line. -/
def State.peerDrop (s : State) (line : Nat) : State :=
  { s with l2peer := s.l2peer.filter fun x => !(x.1 == line) }

/-- A line as revision 0 has it at its home slice: the local copy of a peer line, else memory (R222, R406/10). -/
def State.baseLine (s : State) (hline : Nat) : List Byte := ((s.peerCopy hline).map fun x => x.1).getD (s.hostLine hline)

/-- Before a revision writes a line, the ancestors of its live children, and its own, are retained (R333/16). -/
def State.retainFor (s : State) (ctx rev vline hline : Nat) : State :=
  let c := s.ctx ctx
  (c.retainers rev vline).foldl (fun (s : State) id =>
    let seen := if id = rev then ((c.rev? id).map fun v => v.parent).getD 0 else rev
    s.retain ctx id vline hline (c.viewLine (s.baseLine hline) vline 16 seen)) s

/-- What a write of `.gl` retains first, where the address lies in a revisioned region (R222/10, R333/16). -/
def State.retained (s : State) (ctx rev va hpa : Nat) : State :=
  match (s.ctx ctx).regionOf va with
  | none => s
  | some _ => s.retainFor ctx rev (lineOf va) (lineOf hpa)

/-- Bytes of `.gl` as a revision sees them at the point of coherence; revision 0 of a peer line in a region is its local copy. -/
def State.glRead (s : State) (ctx rev va hpa n : Nat) (sys : Bool) : List Byte × State :=
  match (s.ctx ctx).regionOf va with
  | none => s.homeRead hpa n sys
  | some _ =>
    let (base, s) := s.homeRead (lineOf hpa) 128 sys
    ((((s.ctx ctx).viewLine base (lineOf va) 16 rev).drop (va % 128)).take n, s)

/-- Write bytes of `.gl` for a revision at the point of coherence, retaining ancestors first (R222/10, R333/16). -/
def State.glWrite (s : State) (ctx rev va hpa : Nat) (bs : List Byte) (sys : Bool) : State :=
  match (s.ctx ctx).regionOf va with
  | none => s.homeWrite hpa bs sys
  | some _ =>
    let vl := lineOf va
    let hl := lineOf hpa
    let s := s.retainFor ctx rev vl hl
    if rev = 0 then s.homeWrite hpa bs sys
    else
      -- a revision that is no more takes no write
      let d := putBytes ((s.ctx ctx).viewLine (s.baseLine hl) vl 16 rev) (va % 128) bs
      s.modCtx ctx fun c => { c with revs := c.revs.map fun v =>
        if v.id = rev then { v with lines := (vl, d) :: v.lines.filter fun x => !(x.1 == vl) } else v }

/-- The revision an L1 line is kept under: 0 outside the regions. -/
def State.l1Rev (s : State) (ctx rev va : Nat) : Nat :=
  match (s.ctx ctx).regionOf va with
  | none => 0
  | some _ => rev

/-- The bytes of a core's L1 (R117/05). -/
def Core.l1Bytes (c : Core) : Nat := (c.carve + 1) * 128 * 1024

/-- Discard a core's L1 copy of a line (R130/05, R310, R312/15). -/
def State.l1Drop (s : State) (core line : Nat) : State :=
  s.modCore core fun c => { c with l1 := c.l1.filter fun x => x.backing || !(x.line == line) }

/-- An acquire at cluster scope or wider invalidates every `.gl` line of the core's L1; backing lines stay (R130/05). -/
def State.l1Clear (s : State) (core : Nat) : State :=
  s.modCore core fun c =>
    { c with l1 := c.l1.filter fun x => x.backing, res := c.res.map fun r => { r with wide := [false, false, false, false, false, false, false, false] } }

/-- The whole of a core's L1 is written back and invalidated, backing lines too (R65/02): its lines are written through. -/
def State.l1Empty (s : State) (core : Nat) : State := (s.l1Clear core).modCore core fun c => { c with l1 := [] }

/-- A plain `.gl` load through L1 (R130, R216): a copy still held serves it, a free choice saying whether it is;
a miss reads the home slice and allocates the line. -/
def State.l1Read (s : State) (core ctx rev va hpa n : Nat) : List Byte × State :=
  let line := lineOf hpa
  let r := s.l1Rev ctx rev va
  let miss (s : State) : List Byte × State :=
    let (d, s) := s.glRead ctx rev (lineOf va) line 128 false
    ((d.drop (hpa % 128)).take n,
      s.modCore core fun c => { c with l1 := (⟨r, line, d, false⟩ :: c.l1).take (c.l1Bytes / 128) })
  match (s.core core).l1.find? fun x => x.line == line && x.rev == r && !x.backing with
  | none => miss s
  | some x =>
    let (held, s) := s.flip
    if held then ((x.data.drop (hpa % 128)).take n, s) else miss (s.l1Drop core line)

/-- A `.gl` store: written through to the home slice, the core's L1 copy updated (R130/05, R307/15). -/
def State.storeThrough (s : State) (core ctx rev va hpa : Nat) (bs : List Byte) (sys : Bool) : State :=
  let r := s.l1Rev ctx rev va
  let s := s.glWrite ctx rev va hpa bs sys
  s.modCore core fun c => { c with l1 := c.l1.map fun x =>
    if (x.line == lineOf hpa && x.rev == r && !x.backing) then { x with data := putBytes x.data (hpa % 128) bs } else x }

/-- A line of a register backing region through a core's L1 (R111/04, R130/05): a copy still held serves it, a miss allocates it. -/
def State.backLine (s : State) (core line : Nat) : List Byte × State :=
  let miss (s : State) : List Byte × State :=
    let (d, s) := s.homeRead line 128 false
    (d, s.modCore core fun c => { c with l1 := (⟨0, line, d, true⟩ :: c.l1).take (c.l1Bytes / 128) })
  match (s.core core).l1.find? fun x => x.line == line && x.backing with
  | none => miss s
  | some x =>
    let (held, s) := s.flip
    if held then (x.data, s)
    else miss (s.modCore core fun c => { c with l1 := c.l1.filter fun y => !(y.line == line && y.backing) })

/-- The lines of `n` bytes from an address up. -/
def linesOf (a n : Nat) : List Nat := (List.range ((a % 128 + n + 127) / 128)).map fun k => lineOf a + 128 * k

/-- Bytes of a backing region, read through L1. -/
def State.backRead (s : State) (core a n : Nat) : List Byte × State :=
  let (bs, s) := (linesOf a n).foldl (fun (q : List Byte × State) l =>
    let (d, s) := q.2.backLine core l
    (q.1 ++ d, s)) ([], s)
  ((bs.drop (a % 128)).take n, s)

/-- Bytes of a backing region, written through L1, which holds their lines afterwards. -/
def State.backWrite (s : State) (core a : Nat) (bs : List Byte) : State :=
  let lines := linesOf a bs.length
  let s := lines.foldl (fun (s : State) l => s.homeWrite (max a l) ((bs.drop (l - a)).take (l + 128 - max a l)) false) s
  s.modCore core fun c =>
    { c with l1 := (lines.map (fun l => (⟨0, l, s.baseLine l, true⟩ : L1Line)) ++
        c.l1.filter fun x => !(x.backing && lines.contains x.line)).take (c.l1Bytes / 128) }

/-- The barn page entry of a `.bn` address (R123/05, R173/07). -/
def State.barnEntry (s : State) (field off : Nat) : BitVec 32 := cget 0 (s.field field).barn (off / 2 ^ 21)

/-- The permission check of a `.bn` access (R124/05). -/
def barnAllows (e : BitVec 32) (ctx : Nat) (k : AccKind) : Bool :=
  e.extractLsb' 30 2 == 1 && (e.extractLsb' 24 6).toNat == ctx &&
    (match k with
      | .load | .fetch => e.getLsbD 23
      | .store | .atomic => e.getLsbD 22)

/-- The checks of R116/05 for one lane's access, in its order; the caches the walk fills are in the state. -/
def State.resolve (s : State) (h : Sheaf) (k : AccKind) (space : Space) (a : Dword) (size lane : Nat) :
    Except Cause Target × State :=
  let n := a.toNat
  if n % size ≠ 0 then (.error .align, s)
  else
    match space with
    | .ln =>
      if n + size ≤ (s.launchOf h).slicesSize then (.ok (.slice lane n), s) else (.error .space, s)
    | .sp =>
      if 2 ^ 22 ≤ n then (.error .space, s)
      else
        match s.teamIn h (n / 2 ^ 20) with
        | none => (.error .space, s)
        | some t => if t.scope = 0 ∧ n % 2 ^ 20 + size ≤ t.scratch then (.ok (.team t.id (n % 2 ^ 20)), s) else (.error .space, s)
    | .cl =>
      if 2 ^ 23 ≤ n then (.error .space, s)
      else
        match s.teamIn h (n / 2 ^ 21) with
        | none => (.error .space, s)
        | some t => if t.scope = 1 ∧ n % 2 ^ 21 + size ≤ t.scratch then (.ok (.team t.id (n % 2 ^ 21)), s) else (.error .space, s)
    | .bn =>
      if 2 ^ 34 ≤ n ∨ barnBytes ≤ n % 2 ^ 31 then (.error .space, s)
      else if ¬ barnAllows (s.barnEntry (n / 2 ^ 31) (n % 2 ^ 31)) h.ctx k then (.error .perm, s)
      else if s.uncorrAt (barnAlias + n) then (.error .uncorr, s)
      else (.ok (.host none (barnAlias + n)), s)
    | .gl =>
      if 2 ^ 56 ≤ n then (.error .space, s)
      else
        match s.xlate h.core h.ctx k n with
        | (.error c, s) => (.error c, s)
        | (.ok hpa, s) => if s.uncorrAt hpa then (.error .uncorr, s) else (.ok (.host (some n) hpa), s)
    | .ac =>
      if 2 ^ 18 ≤ n then (.error .space, s)
      else
        match k with
        | .load | .fetch => (.ok (.acc n), s)
        | .store | .atomic => (.error .perm, s)

/-- The accumulator element of a quadrant a context sees: its saved copy, the quadrant's own planes, or +0 (R127/05). -/
def Core.accWord (c : Core) (ctx addr : Nat) : Word :=
  let q := addr / 2 ^ 16 % 4
  match (c.saved.find? fun x => x.1 == ctx && x.2.1 == q) with
  | some x => cget 0 x.2.2.acc (addr / 4 % 2 ^ 14)
  | none =>
    let qd := c.quads.getD q {}
    if qd.owner = some ctx then cget 0 qd.acc (addr / 4 % 2 ^ 14) else 0

/-- Bytes of accumulator memory (R126/05). -/
def Core.accRead (c : Core) (ctx addr n : Nat) : List Byte :=
  (((List.range ((addr % 4 + n + 3) / 4)).flatMap fun k => bytesOfNat 4 (c.accWord ctx (addr / 4 * 4 + 4 * k)).toNat).drop (addr % 4)).take n

/-- How a load reads `.gl`: through L1, or at the home slice (R308, R310/15). -/
structure LoadMode where
  home : Bool := false
  sys : Bool := false
deriving DecidableEq, Repr

/-- Read what an access reads (R306/15). -/
def State.readTarget (s : State) (h : Sheaf) (t : Target) (n : Nat) (m : LoadMode) : List Byte × State :=
  match t with
  | .slice l off => (h.slice.read (l * 1024 + off) n, s)
  | .team id off => (((s.team? id).map fun t => t.mem.read off n).getD [], s)
  | .acc a => ((s.core h.core).accRead h.ctx a n, s)
  | .host none hpa => s.homeRead hpa n false
  | .host (some va) hpa =>
    if m.home then
      let (d, s) := s.glRead h.ctx h.rev va hpa n m.sys
      (d, s.l1Drop h.core (lineOf hpa))
    else s.l1Read h.core h.ctx h.rev va hpa n

/-- Write what an access writes (R307/15). -/
def State.writeTarget (s : State) (h : Sheaf) (t : Target) (bs : List Byte) (sys : Bool) : State :=
  match t with
  | .slice l off => s.modSheaf h.id fun h => { h with slice := h.slice.write (l * 1024 + off) bs }
  | .team id off => s.modTeam id fun t => { t with mem := t.mem.write off bs }
  | .acc _ => s
  | .host none hpa => s.homeWrite hpa bs false
  | .host (some va) hpa =>
    let s := s.storeThrough h.core h.ctx h.rev va hpa bs sys
    if peerBase ≤ hpa ∧ ¬ sys then s.modSheaf h.id fun h => { h with peerDirty := lineOf hpa :: h.peerDirty } else s

/-- Bytes of a context's virtual memory as the device reads its tables: none where a check fails. -/
def State.readVirtual (s : State) (core ctx rev va n : Nat) (k : AccKind) : Except Cause (List Byte) × State :=
  match s.xlate core ctx k (va % 2 ^ 56) with
  | (.error c, s) => (.error c, s)
  | (.ok hpa, s) =>
    if s.uncorrAt hpa then (.error .uncorr, s)
    else
      let (d, s) := s.glRead ctx rev va hpa n false
      (.ok d, s)

/-- The device writes bytes in a context's virtual memory; nothing is written where a check fails. -/
def State.writeVirtual (s : State) (core ctx rev va : Nat) (bs : List Byte) : Except Cause Unit × State :=
  match s.xlate core ctx .store (va % 2 ^ 56) with
  | (.error c, s) => (.error c, s)
  | (.ok hpa, s) => if s.uncorrAt hpa then (.error .uncorr, s) else (.ok (), s.glWrite ctx rev va hpa bs false)

end Sys2Proof.Machine
end

