-- ==== Sys2Proof/Machine/Ops.lean ====
section
/-! DEFINITION. The named operations over registers, lane program counters and waits; a sheaf's end; taking a trap and returning from one. -/

namespace Sys2Proof.Machine

/-! ### Registers -/

/-- A lane's 32-bit register by specifier, through the window (R98/04). -/
def Sheaf.vget (h : Sheaf) (l n : Nat) : Word := cget 0 h.v ((h.wb + n) * 64 + l)
def Sheaf.vset (h : Sheaf) (l n : Nat) (x : Word) : Sheaf := { h with v := cset 0 h.v ((h.wb + n) * 64 + l) x }

/-- A 64-bit value in the pair n, n + 1, its low half in n (R98/04). -/
def Sheaf.vget64 (h : Sheaf) (l n : Nat) : Dword := h.vget l (n + 1) ++ h.vget l n
def Sheaf.vset64 (h : Sheaf) (l n : Nat) (x : Dword) : Sheaf :=
  (h.vset l n (x.extractLsb' 0 32)).vset l (n + 1) (x.extractLsb' 32 32)

/-- A virtual register by its own number (R98/04). -/
def Sheaf.virt (h : Sheaf) (l r : Nat) : Word := cget 0 h.v (r * 64 + l)
def Sheaf.setVirt (h : Sheaf) (l r : Nat) (x : Word) : Sheaf := { h with v := cset 0 h.v (r * 64 + l) x }

/-- A scalar register s0 to s95 (R93/04). -/
def Sheaf.sget (h : Sheaf) (n : Nat) : Dword := cget 0 h.s n
def Sheaf.sset (h : Sheaf) (n : Nat) (x : Dword) : Sheaf := { h with s := cset 0 h.s n x }

/-- A predicate mask (R93/04). -/
def Sheaf.pget (h : Sheaf) (n : Nat) : Mask := cget 0 h.p n
def Sheaf.pset (h : Sheaf) (n : Nat) (x : Mask) : Sheaf := { h with p := cset 0 h.p n x }

/-- Write one bit of a predicate (R94/04). -/
def Sheaf.psetBit (h : Sheaf) (n l : Nat) (b : Bool) : Sheaf :=
  h.pset n (if b then h.pget n ||| laneBit l else h.pget n &&& ~~~laneBit l)

/-- Fields of `$ctrl` (R101/04). -/
def Sheaf.divtmr (h : Sheaf) : Nat := (h.ctrl.extractLsb' 20 4).toNat
def Sheaf.fpxen (h : Sheaf) : BitVec 5 := h.ctrl.extractLsb' 15 5
def Sheaf.exparm (h : Sheaf) : Bool := h.ctrl.getLsbD 14
def Sheaf.satarm (h : Sheaf) : Bool := h.ctrl.getLsbD 13
def Sheaf.lkchk (h : Sheaf) : Bool := h.ctrl.getLsbD 12
def Sheaf.ftz (h : Sheaf) : Bool := h.ctrl.getLsbD 11
def Sheaf.prog (h : Sheaf) : Bool := h.ctrl.getLsbD 8
def Sheaf.mode (h : Sheaf) : RMode :=
  if h.ctrl.getLsbD 10 then (if h.ctrl.getLsbD 9 then .rup else .rdn) else (if h.ctrl.getLsbD 9 then .rtz else .rne)

/-- The fairness period (R39/02). -/
def Sheaf.fairness (h : Sheaf) : Nat := 2 ^ h.divtmr

/-- The SAT bit of a team slot as `$status` reads it (R106/04). -/
def State.satBit (s : State) (h : Sheaf) (k : Nat) : Bool :=
  match s.teamIn h k with
  | some t => t.sat
  | none => false

/-- `$status` (R106/04). -/
def State.status (s : State) (h : Sheaf) : Dword :=
  ((BitVec.ofBool (s.satBit h 3) ++ BitVec.ofBool (s.satBit h 2) ++ BitVec.ofBool (s.satBit h 1) ++
    BitVec.ofBool (s.satBit h 0)) ++ h.flags.bits).setWidth 64

/-- The residency of a sheaf's context on its core; the reset values before it holds one (R102/04). -/
def State.resOf (s : State) (h : Sheaf) : Res := ((s.core h.core).res? h.ctx).getD { ctx := h.ctx }

/-- A special register, 96 to 117, as a lane reads it (R100/04). -/
def State.special (s : State) (h : Sheaf) (lane n : Nat) : Dword :=
  match n with
  | 96 => 64
  | 97 => BitVec.ofNat 64 lane
  | 98 => BitVec.ofNat 64 h.number
  | 99 => BitVec.ofNat 64 h.core
  | 100 => BitVec.ofNat 64 (clusterOfCore h.core)
  | 101 => BitVec.ofNat 64 (fieldOfCore h.core)
  | 102 => s.device
  | 103 => BitVec.ofNat 64 h.wb
  | 104 => BitVec.ofNat 64 h.rev
  | 105 => BitVec.ofNat 64 ((s.resOf h).goal * 16 + (s.resOf h).level)
  | 106 => (s.resOf h).reclaim
  | 107 => (s.ctx h.ctx).nbudget.setWidth 64
  | 108 => h.nleft.setWidth 64
  | 109 => s.cycle
  | 110 => (s.core h.core).slewcy.setWidth 64
  | 111 => h.ctrl.setWidth 64
  | 112 => BitVec.ofNat 64 h.fairness
  | 113 => s.status h
  | 114 => h.trap.tcause
  | 115 => h.trap.taddr
  | 116 => h.trap.tlanes
  | 117 => h.trap.tpc
  | _ => 0

/-- A scalar source as a lane reads it: s0 to s95, a special register, or a loop counter (R100, R108/04, R254/12). -/
def State.readS (s : State) (h : Sheaf) (lane n : Nat) : Dword :=
  if n < 96 then h.sget n
  else if n < 118 then s.special h lane n
  else (((h.lane lane).loops.getD (n - 118) {}).count).setWidth 64

/-- A scalar source as a scalar instruction reads it: a per-lane one gives the lowest active lane's (R100/04). -/
def State.src (s : State) (n : Nat) : Dword := s.readS s.me (lowestLane s.active) n

/-! ### Lane program counters -/

/-- A taken backward branch under broadcast sets the window at its target, unless it is already there (R43/02). -/
def Lane.setWindow (ln : Lane) (t : Vaddr) : Lane :=
  if ln.winBase = some t then ln else { ln with winBase := some t, winWords := [] }

/-- Does a lane's window cover an address (R43/02)? -/
def Lane.inWindow (ln : Lane) (a : Vaddr) : Bool :=
  match ln.winBase with
  | some b => decide ((a - b).toNat < 192)
  | none => false

/-- Level k's part of R280/13 at a word: nothing, or the counter lowered, and the start bound to return to. -/
def Lane.loopLevel (ln : Lane) (w : Vaddr) (k : Nat) : Lane × Option Vaddr :=
  let r := ln.loops.getD k {}
  if r.count ≠ 0 ∧ r.stop = w then
    let r' := { r with count := r.count - 1 }
    ({ ln with loops := modAt (fun _ => r') ln.loops k }, if r'.count ≠ 0 then some r.start else none)
  else (ln, none)

/-- After the word at w left the PC at w + 4: the loop ends, levels 2 down to 0 (R280/13). -/
def Lane.loopEnds (ln : Lane) (w : Vaddr) : Lane × Option Vaddr :=
  match ln.loopLevel w 2 with
  | (ln, some t) => (ln, some t)
  | (ln, none) =>
    match ln.loopLevel w 1 with
    | (ln, some t) => (ln, some t)
    | (ln, none) => ln.loopLevel w 0

/-- A lane moves past the word at w, through the loop ends; a return under broadcast is a backward branch (R43, R97, R280). -/
def Lane.pass (ln : Lane) (w : Vaddr) (solo : Bool) : Lane :=
  match ln.loopEnds w with
  | (ln, some t) => let ln := { ln with pc := t }; if solo then ln else ln.setWindow t
  | (ln, none) => { ln with pc := w + 4 }

/-- A lane takes a branch from w to t (R276/13); a backward one under broadcast sets its window (R43/02). -/
def Lane.jump (ln : Lane) (w t : Vaddr) (solo : Bool) : Lane :=
  let ln := { ln with pc := t }
  if decide (t ≤ w) && !solo then ln.setWindow t else ln

/-- Lanes of a sheaf move past the word at w. -/
def Sheaf.pass (h : Sheaf) (ls : List Nat) (w : Vaddr) (solo : Bool) : Sheaf :=
  ls.foldl (fun h l => h.modLane l fun ln => ln.pass w solo) h

/-- The WATCH skips left once some lanes have issued an instruction: those of the lanes held there end (R377/18). -/
def Sheaf.skipsLeft (h : Sheaf) (ls : Mask) (pc : Vaddr) : Mask :=
  h.watchSkip &&& ~~~maskOf ((lanesOf ls).filter fun l => (h.lane l).skipPc == pc)

/-- The issue completes: its active lanes move past it, and WATCH skips of its instruction end (R97/04, R377/18). -/
def State.retire (s : State) : State :=
  s.modMe fun h =>
    { h.pass (lanesOf s.active) s.issuePc s.solo with watchSkip := h.skipsLeft s.active s.issuePc }

/-- The issuing lanes begin to wait. -/
def State.waitMe (s : State) (k : WaitKind) : State :=
  s.modMe fun h => { h with waits := h.waits ++ [⟨s.active, s.issuePc, k, s.now, s.solo, h.wb, h.tl⟩] }

/-- The issuing lanes are stalled by the scoreboard (R259/12): they issue again once a destination lands. -/
def State.stallMe (s : State) : State := s.modMe fun h => { h with stalled := h.stalled ||| s.active }

/-- Lanes that waited move past their instruction, but for those whose PC a handler has changed (R232/11, R378/18); a lane that
issued it solo takes no window from a loop's end (R43/02). -/
def Sheaf.passWaited (h : Sheaf) (w : Wait) : Sheaf :=
  h.pass ((lanesOf w.lanes).filter fun l => (h.lane l).pc == w.pc) w.pc w.solo

/-- A wait of some lanes ends: they move past its instruction. In a handler that was entered since, they stay held: the held PC of
the frame in which they wait moves past it, unless a handler has changed that PC (R232/11, R280/13, R377, R378/18). -/
def Sheaf.finishLanes (h : Sheaf) (w : Wait) : Sheaf :=
  if h.tl ≤ w.tl then h.passWaited w
  else
    let h := (lanesOf w.lanes).foldl (fun h l => h.modLane l fun ln =>
      let past : Lane := ({ ln with pc := w.pc }).pass w.pc w.solo
      if h.tl = w.tl + 1 then (if ln.held = w.pc then { past with pc := ln.pc, held := past.pc } else ln)
      else (if ln.outer = w.pc then { past with pc := ln.pc, outer := past.pc } else ln)) h
    { h with waits := h.waits ++ [{ w with kind := .held }] }

/-- Remove a wait and let its lanes go on. -/
def State.finishWait (s : State) (id : Nat) (w : Wait) : State :=
  s.modSheaf id fun h =>
    ({ h with waits := h.waits.filter fun x => !(x == w) }).finishLanes w

/-- Lanes that waited move past the issue's instruction with those that issue; in a handler entered since, or with a PC that a
handler has changed, they go on as `finishLanes` says. -/
def State.retireWaited (s : State) (ws : List Wait) : State :=
  let h := s.me
  let ws := ws.filter fun w => !(w.lanes == 0)
  if ws.all fun w => decide (h.tl ≤ w.tl) && (lanesOf w.lanes).all fun l => (h.lane l).pc == w.pc then s.retire
  else
    match s.cur with
    | none => s
    | some i =>
      ({ s with cur := some { i with lanes := i.lanes &&& ~~~waitMask ws } }).retire.modSheaf i.sheaf fun h =>
        ws.foldl (fun h w => h.finishLanes w) h

/-! ### Causes -/

/-- Cause codes (R107/04). -/
def causeCode : Cause → Nat
  | .illop => 0x01 | .priv => 0x02 | .regback => 0x03 | .align => 0x04 | .space => 0x05 | .perm => 0x06
  | .xlate1 => 0x07 | .xlate2 => 0x08 | .uncorr => 0x09 | .copyiss => 0x0A | .lookahead => 0x0B
  | .saturate => 0x0C | .collstall => 0x0D | .notice => 0x0E | .expand => 0x0F | .region => 0x10
  | .brk => 0x11 | .trap => 0x12 | .watch => 0x13 | .fpx => 0x14

/-- The order of R227/11: a smaller rank wins. NOTICE and EXPAND do not compete. -/
def causeRank : Cause → Nat
  | .illop => 0 | .priv => 1 | .regback => 2 | .align => 3 | .space => 4 | .perm => 5 | .xlate1 => 6 | .xlate2 => 7
  | .uncorr => 8 | .lookahead => 9 | .copyiss => 10 | .region => 11 | .saturate => 12 | .collstall => 13
  | .brk => 14 | .trap => 15 | .watch => 16 | .fpx => 17 | .notice => 18 | .expand => 19

/-- The winning cause among lanes' causes, with its lanes and the lowest one's address (R227/11, R107/04). -/
def winning (fs : List LaneFault) : Option (Cause × Mask × Dword) :=
  match fs with
  | [] => none
  | f :: fs' =>
    let best := (fs'.foldl (fun b g => if causeRank g.cause < causeRank b.cause then g else b) f).cause
    let mine := fs.filter fun g => g.cause == best
    let low := mine.foldl (fun b g => if g.lane < b.lane then g else b) (mine.headD f)
    some (best, maskOf (mine.map (·.lane)), low.addr)

/-- Do waiting lanes of a kind stay out of the handler (R229/11)? Lanes held at a post are handler lanes. -/
def WaitKind.holds : WaitKind → Bool
  | .gather _ _ _ _ | .barrier _ _ | .later _ _ _ _ _ | .generation _ _ | .token _ _ _ | .chunk _ _ _ _ _ | .gate
  | .collective _ | .join _ _ _ | .inline _ _ _ | .held => true
  | .fifo _ | .equeue _ | .ring _ _ => false

/-- The handler lanes (R229/11). -/
def Sheaf.handlerLanes (h : Sheaf) : Mask :=
  ~~~(h.exited ||| waitMask (h.waits.filter fun w => w.kind.holds))

/-! ### The end of a sheaf and of a launch -/

/-- A sheaf that ends settles one team (R51/02): NEED falls now, or from the next generation when it has arrived. -/
def Team.settle (t : Team) (number : Nat) : Team :=
  let t := { t with live := t.live.filter fun m => !(m == number) }
  let t := { t with ended := t.live.isEmpty }
  if t.arrived.contains number then { t with lowered := t.lowered + 1 }
  else { t with need := t.need - 1, evt := true }

/-- Forget a sheaf's physical registers on its core (R38/02). -/
def Res.forget (r : Res) (sheaf : Nat) : Res :=
  { r with
    hot := r.hot.filter fun x => !(x.1 == sheaf)
    cold := r.cold.filter fun x => !(x.1 == sheaf)
    affected := r.affected.filter fun x => !(x == sheaf) }

/-- A sheaf ends (R38, R51/02): its slot, registers and slices are released, its teams settled, its launch counts it. -/
def State.endSheaf (s : State) (id : Nat) : State :=
  match s.sheaf? id with
  | none => s
  | some h =>
    if h.place = .ended then s
    else
      let s := s.modSheaf id fun h => { h with place := .ended, slice := [], waits := [], pend := [], exited := BitVec.allOnes 64 }
      let s := s.modRes h.core h.ctx fun r => r.forget id
      let s := (h.slots.filterMap fun x => x).foldl (fun s t => s.modTeam t fun t => t.settle h.number) s
      s.modLaunch h.launch fun l => { l with liveParts := l.liveParts - 1 }

/-- A sheaf restored from a task record or a save area (R43/02, R115/04, R175/08, R341/16): newly resident, its counters 0, its windows
empty, with the launch's budget; a virtual register at or above the budget it had shrunk to reads 0. -/
def Sheaf.resumed (h : Sheaf) (budget now : Nat) : Sheaf :=
  { h with
    place := .resident, since := now, starve := 0, favoured := 0, favouredOld := none, stalled := 0, blocked := 0, loopBuf := []
    lanes := h.lanes.map fun ln : Lane => { ln with bwait := 0, winBase := none, winWords := [] }
    v := h.v.filter fun c => decide (c.1 < h.budget * 64)
    budget := budget }

/-- Order of parties for R231/11: sheaf number, then own sheaf before tasks, then creation order. -/
def endKey (h : Sheaf) (now : Nat) : List Nat := [now, h.number, if h.task then 1 else 0] ++ h.born

/-- Lexicographic order of keys. -/
def keyLt : List Nat → List Nat → Bool
  | [], [] => false
  | [], _ :: _ => true
  | _ :: _, [] => false
  | a :: as, b :: bs => if a < b then true else if b < a then false else keyLt as bs

/-- The unjoined children of a launch's sheaves, with their descendants, are merged no more, but those whose merge has started,
which runs to completion; their revisions go when the launch retires (R231/11). -/
def State.dropChildren (s : State) (launch : Nat) : State :=
  let mine := s.sheaves.filter fun h => h.launch == launch
  let merging := (s.jobs.filter fun j => j.engine == 4 && j.started).map (·.child)
  let gone := (mine.flatMap fun h => h.children.map (·.rev)).filter fun r => !merging.contains r
  let s := s.modLaunch launch fun l => { l with dropped := l.dropped ++ gone }
  s.mapSheaves fun h => if h.launch = launch then { h with children := [] } else h

/-- A trap ends a launch (R231/11): the cause is recorded, of the first party in the rule's order among those of one cycle. -/
def State.endLaunch (s : State) (h : Sheaf) (cause : Cause) : State :=
  let key := endKey h s.now
  s.modLaunch h.launch fun l =>
    match l.ended with
    | none => { l with ended := some (causeCode cause, h.number, key) }
    | some (_, _, k) =>
      if k.headD 0 = s.now ∧ keyLt key k then { l with ended := some (causeCode cause, h.number, key) } else l

/-- A task leaves a field's phase queue; the oldest overflowed one takes the place (R148/06). -/
def FieldState.without (f : FieldState) (gone : List Nat) : FieldState :=
  let all := (f.phases ++ f.overflow).filter fun t => !(gone.contains t)
  { f with phases := all.take 4096, overflow := all.drop 4096 }

/-- From the cycle after the trap that ended a launch (R231/11): waiting lanes stop waiting, queued tasks, commands and jobs
that have not started, and commands that have stopped, are removed, and unjoined children are dropped. -/
def State.closeLaunch (s : State) (l : Launch) : State :=
  -- sheaves that no core has held end without running
  let s := s.modLaunch l.id fun l => { l with closed := true, liveParts := l.liveParts - (l.sheafCount - l.residentOnce.length) }
  -- tasks and sheaves that hold no slot end without running
  let idle := (s.sheaves.filter fun x => x.launch == l.id &&
    (match x.place with | .phase _ _ _ _ | .deque _ | .suspended => true | .resident | .parked | .ended => false)).map (·.id)
  let s := idle.foldl (fun s i => s.endSheaf i) s
  let s := s.mapSheaves fun x =>
    if x.launch = l.id ∧ x.place ≠ .ended then
      { x with waits := [], stalled := 0, noticePending := false, expandPending := false } else x
  let s := s.mapCores fun c =>
    { c with
      deque := c.deque.filter fun t => !idle.contains t
      fifo := c.fifo.filter fun m => !(m.launch == l.id && (!m.started || m.stopped)) }
  let s := s.mapFields fun f => { f.without idle with records := f.records.filter fun r => !idle.contains r.sheaf }
  let s := { s with jobs := s.jobs.filter fun j => !(j.launch == some l.id && !j.started) }
  s.dropChildren l.id

/-- Every launch that a trap of the cycle has ended. -/
def State.closeLaunches (s : State) : State :=
  (s.launches.filter fun l => l.ended.isSome && !l.closed).foldl (fun (s : State) l => s.closeLaunch l) s

/-! ### Taking a trap and returning from one -/

/-- The trap vector table's entry for a cause (R166/07), read through the context's tables; 0 where the read fails (log 9). -/
def State.vectorEntry (s : State) (core ctx : Nat) (cause : Cause) : Nat × State :=
  match s.readVirtual core ctx 0 ((s.ctx ctx).vectors.toNat + 8 * causeCode cause) 8 .load with
  | (.error _, s) => (0, s)
  | (.ok bs, s) => (natOfBytes bs % 2 ^ 56 / 4 * 4, s)

/-- `$tcause` (R107/04). -/
def tcauseOf (cause : Cause) (info : Nat) : Dword := BitVec.ofNat 64 (info % 256 * 256 + causeCode cause)

/-- A handler entry of R229 and R230/11: the outer frame is saved at TL = 1, every lane's PC becomes its held PC (an exited
lane's is its last, R97/04), the four trap registers are written, TL rises, the handler lanes go to the vector, lookahead windows end (R257/12);
the WATCH skips of the level are set by until the return (R377/18). -/
def Sheaf.enterTrap (h : Sheaf) (vector : Vaddr) (regs : TrapRegs) (again : Option Replay) : Sheaf :=
  let hl := h.handlerLanes
  let h := if h.tl = 1 then
      { h with
        outer := h.trap
        outerReplay := h.replay
        lanes := h.lanes.map fun ln : Lane => { ln with outer := ln.held } }
    else h
  let lanes := h.lanes.mapIdx fun l (ln : Lane) =>
    { ln with held := ln.pc, pc := if hl.getLsbD l then vector else ln.pc }
  { h with
    lanes := lanes
    trap := regs
    replay := again
    tl := h.tl + 1
    watchSkip := 0
    skips := (h.watchSkip, h.lanes.map fun ln : Lane => ln.skipPc) :: h.skips
    stalled := 0
    blocked := 0
    waits := h.waits.filter fun w => w.kind.holds
    pend := h.pend.map fun p : Pending => { p with windows := [] } }

/-- Taking a trap (R229 to R231/11, R166/07): `lanes` are those of the winning cause, `tpc` the trapping instruction's
PC, `again` the load to make again before the return (R235/11). A NOTICE whose entry is zero is outstanding no more (log 36). -/
def State.takeTrap (s : State) (id : Nat) (cause : Cause) (info : Nat) (addr : Dword) (lanes : Mask) (tpc : Vaddr)
    (again : Option Replay) : State :=
  match s.sheaf? id with
  | none => s
  | some h =>
    if (s.launchOf h).closed then s
    else if 2 ≤ h.tl then
      match cause with
      | .notice | .expand => s
      | _ => s.endLaunch h cause
    else
      let (vec, s) := s.vectorEntry h.core h.ctx cause
      if vec = 0 then
        match cause with
        | .notice =>
          (s.modSheaf id fun h => { h with noticeOut := false, nleft := 0 }).modRes h.core h.ctx fun r => { r with forced := r.noticed }
        | .expand => s
        | _ => s.endLaunch h cause
      else
        s.modSheaf id fun h => h.enterTrap (BitVec.ofNat 56 vec)
          ⟨tcauseOf cause info, (addr.setWidth 56).setWidth 64, lanes, tpc.setWidth 64⟩ again

/-- The lanes that began to wait at a trap level or above it. -/
def Sheaf.waitedAt (h : Sheaf) (tl : Nat) : Mask := waitMask (h.waits.filter fun w => decide (tl ≤ w.tl))

/-- The return of R232/11: handler lanes go to their held PCs, TL falls, the outer frame is restored at TL = 2. A lane that began to
wait at the level returned to has its held PC again, which a handler may have changed (R378/18), and one whose wait has ended goes on
there. The WATCH skips of the level returned to stand again (R377/18). -/
def Sheaf.leaveTrap (h : Sheaf) : Sheaf :=
  let tl := h.tl - 1
  let back := h.handlerLanes ||| h.exited ||| h.waitedAt tl
  let h := { h with lanes := h.lanes.mapIdx fun l (ln : Lane) => if back.getLsbD l then { ln with pc := ln.held } else ln }
  let h := if h.tl = 2 then
      { h with
        trap := h.outer
        replay := h.outerReplay
        outerReplay := none
        lanes := h.lanes.map fun ln : Lane => { ln with held := ln.outer } }
    else { h with replay := none }
  let skip := h.skips.headD (0, [])
  { h with
    tl := tl
    watchSkip := skip.1
    skips := h.skips.tail
    lanes := h.lanes.mapIdx fun l (ln : Lane) => { ln with skipPc := skip.2.getD l 0 }
    stalled := 0
    blocked := 0
    waits := h.waits.filter fun w => !(w.kind == .held && decide (tl ≤ w.tl)) }

/-- A sheaf-wide trap of the issue (R226/11): every active lane, at the issue's PC. -/
def State.trapAll (s : State) (cause : Cause) (info : Nat) (addr : Dword) : State :=
  match s.cur with
  | some i => s.takeTrap i.sheaf cause info addr i.lanes i.pc none
  | none => s

/-- A lane trap of the issue: the winning cause of its lanes' causes (R227/11); none without a cause. -/
def State.trapLanes (s : State) (fs : List LaneFault) : Option State :=
  match s.cur, winning fs with
  | some i, some (cause, lanes, addr) => some (s.takeTrap i.sheaf cause 0 addr lanes i.pc none)
  | _, _ => none

/-- A team's SAT flag is set in a cycle (R195/09). -/
def Team.setSat (t : Team) (now : Nat) : Team :=
  { t with sat := true, satFrom := if t.sat then t.satFrom else now, satAt := some now }

/-- A write of 1 clears a team's SAT flag, unless it is set in the same cycle (R106/04). -/
def Team.clearSat (t : Team) (now : Nat) : Team := if t.satAt = some now then t else { t with sat := false }

/-- SAT as it read at the start of a cycle (R195/09). -/
def Team.satBefore (t : Team) (now : Nat) : Bool := t.sat && decide (t.satFrom < now)

/-- `set_sat()`: the SAT flag of every team in the issuing sheaf's slots (R195/09). -/
def State.setSat (s : State) (h : Sheaf) : State :=
  (h.slots.filterMap fun x => x).foldl (fun (s : State) t => s.modTeam t fun t => t.setSat s.now) s

/-- Flags are raised (R198/09). -/
def Sheaf.raise (h : Sheaf) (fl : FpFlags) : Sheaf := { h with flags := h.flags.or fl, raised := h.raised.or fl }

end Sys2Proof.Machine
end

