-- ==== Sys2Proof/WellFormed.lean ====
section
/-! DEFINITION. Which instructions have a legal encoding: the specifier ranges of R254/12 and the limits on the other fields. -/

namespace Sys2Proof

/-- The kinds of operand of R254/12, and the packed ones of R263 to R265/12. -/
inductive OpKind where
  /-- a 32-bit vector register -/
  | v32
  /-- an even pair -/
  | v64
  /-- four registers from a multiple of four -/
  | v128
  /-- the operand block of an atomic other than `cas` (R264) -/
  | block4
  /-- the operand block of `cas` (R264) -/
  | block8
  /-- an index vector v0 to v63 (R263) -/
  | vIdx
  /-- a uniform offset 64 to 127 (R263) -/
  | immIdx
  | sSrc
  | sDst
  /-- a base s0 to s15 (R263) -/
  | sBase
  /-- the first of four scalars (R265, R345) -/
  | sQuad
  /-- the first of three scalars (R380) -/
  | sTriple
  /-- the first of two scalars (R381) -/
  | sPair
  | pred | team | token | chunk
deriving DecidableEq, Repr

/-- An operand: its kind, its specifier, and whether the instruction reads and writes it. -/
structure Operand where
  kind : OpKind
  n : Nat
  reads : Bool
  writes : Bool
deriving DecidableEq, Repr

/-- The legal specifiers of each kind (R254/12). -/
def OpKind.ok (k : OpKind) (n : Nat) : Bool :=
  match k with
  | .v32 => decide (n < 128)
  | .v64 => decide (n < 128) && n % 2 == 0
  | .v128 | .block4 => decide (n < 128) && n % 4 == 0
  | .block8 => decide (n < 128) && n % 8 == 0
  | .vIdx => decide (n < 64)
  | .immIdx => decide (64 ≤ n) && decide (n < 128)
  | .sSrc => decide (n ≤ 120)
  | .sDst => decide (n ≤ 95)
  | .sBase => decide (n < 16)
  | .sQuad => decide (n ≤ 92)
  | .sTriple => decide (n ≤ 93)
  | .sPair => decide (n ≤ 94)
  | .pred | .token | .chunk => decide (n < 8)
  | .team => decide (n < 4)

/-- An operand is legal when its specifier is. -/
def Operand.ok (o : Operand) : Bool := o.kind.ok o.n

/-- How many consecutive vector registers a kind names; 0 for a kind that names none. -/
def OpKind.vectors : OpKind → Nat
  | .v32 | .vIdx => 1
  | .v64 => 2
  | .v128 | .block4 => 4
  | .block8 => 6
  | .immIdx | .sSrc | .sDst | .sBase | .sQuad | .sTriple | .sPair | .pred | .team | .token | .chunk => 0

/-- How many consecutive scalars a kind names. -/
def OpKind.scalars : OpKind → Nat
  | .sSrc | .sDst | .sBase => 1
  | .sQuad => 4
  | .sTriple => 3
  | .sPair => 2
  | .v32 | .v64 | .v128 | .block4 | .block8 | .vIdx | .immIdx | .pred | .team | .token | .chunk => 0

/-- Width codes (R256/12). -/
def Width.code : Width → Nat
  | .b8 => 0 | .b16 => 1 | .b32 => 2 | .b64 => 3 | .b128 => 4

/-- Scope codes (R256/12). -/
def Scope.code : Scope → Nat
  | .sheaf => 0 | .team => 1 | .core => 2 | .clus => 3 | .fld => 4 | .dev => 5 | .sys => 6

/-- Ordering codes (R256/12). -/
def Ordering.code : Ordering → Nat
  | .rlx => 0 | .acq => 1 | .rel => 2 | .ar => 3 | .sc => 4

/-- Rounding codes (R256/12). -/
def Rounding.code : Rounding → Nat
  | .ctrl => 0 | .rne => 1 | .rtz => 2 | .rdn => 3 | .rup => 4

/-- Element type codes (R256/12). -/
def ElemType.code : ElemType → Nat
  | .i8 => 0 | .i16 => 1 | .i32 => 2 | .i64 => 3 | .n8 => 4 | .n16 => 5 | .n32 => 6 | .n64 => 7
  | .f16 => 8 | .bf16 => 9 | .f32 => 10 | .f64 => 11 | .e4m3 => 12 | .e5m2 => 13

/-- Operation codes of the atomics (R264/12). -/
def AtomOp.code : AtomOp → Nat
  | .addI32 => 0 | .addI64 => 1 | .faddF16 => 2 | .faddBf16 => 3 | .faddF32 => 4 | .faddF64 => 5
  | .minI32 => 6 | .minN32 => 7 | .minI64 => 8 | .minN64 => 9 | .maxI32 => 10 | .maxN32 => 11
  | .maxI64 => 12 | .maxN64 => 13 | .andB32 => 14 | .andB64 => 15 | .orB32 => 16 | .orB64 => 17
  | .xorB32 => 18 | .xorB64 => 19 | .exchB32 => 20 | .exchB64 => 21 | .casB32 => 22 | .casB64 => 23

/-- The field X: 0 to 63 names v_X, 64 to 127 the offset (X − 64) × size (R263/12). -/
def Idx.code : Idx → Nat
  | .vec n => n
  | .imm k => 64 + k

/-- The limits of the field X (R263/12). -/
def Idx.ok : Idx → Bool
  | .vec n => decide (n < 64)
  | .imm k => decide (k < 64)

/-- The operand kind of the field X. -/
def Idx.operandKind : Idx → OpKind
  | .vec _ => .vIdx
  | .imm _ => .immIdx

/-- Bytes of a width. -/
def Width.bytes (w : Width) : Nat := 2 ^ w.code

/-- The data registers a width names (R254, R305). -/
def Width.operandKind : Width → OpKind
  | .b8 | .b16 | .b32 => .v32
  | .b64 => .v64
  | .b128 => .v128

/-- The register a conversion type names: a 64-bit type takes a pair (R295/14). -/
def ElemType.operandKind : ElemType → OpKind
  | .i64 | .n64 | .f64 => .v64
  | .i8 | .i16 | .i32 | .n8 | .n16 | .n32 | .f16 | .bf16 | .f32 | .e4m3 | .e5m2 => .v32

/-- The operand block of an atomic (R264/12). -/
def AtomOp.operandKind : AtomOp → OpKind
  | .casB32 | .casB64 => .block8
  | .addI32 | .addI64 | .faddF16 | .faddBf16 | .faddF32 | .faddF64 | .minI32 | .minN32 | .minI64 | .minN64
  | .maxI32 | .maxN32 | .maxI64 | .maxN64 | .andB32 | .andB64 | .orB32 | .orB64 | .xorB32 | .xorB64
  | .exchB32 | .exchB64 => .block4

/-- The legal quadrant sets (R265/12). -/
def quadSetOk (q : Nat) : Bool :=
  q == 1 || q == 2 || q == 4 || q == 8 || q == 3 || q == 12 || q == 5 || q == 10 || q == 15


/-- The operands an instruction names and how it uses them (R254/12 and the entries of chapters 13 to 18). -/
def Instr.operands : Instr → List Operand
  | .sadd d a b => [⟨.sDst, d, false, true⟩, ⟨.sSrc, a, true, false⟩, ⟨.sSrc, b, true, false⟩]
  | .ssub d a b => [⟨.sDst, d, false, true⟩, ⟨.sSrc, a, true, false⟩, ⟨.sSrc, b, true, false⟩]
  | .smul d a b => [⟨.sDst, d, false, true⟩, ⟨.sSrc, a, true, false⟩, ⟨.sSrc, b, true, false⟩]
  | .smulhI64 d a b => [⟨.sDst, d, false, true⟩, ⟨.sSrc, a, true, false⟩, ⟨.sSrc, b, true, false⟩]
  | .smulhN64 d a b => [⟨.sDst, d, false, true⟩, ⟨.sSrc, a, true, false⟩, ⟨.sSrc, b, true, false⟩]
  | .sand d a b => [⟨.sDst, d, false, true⟩, ⟨.sSrc, a, true, false⟩, ⟨.sSrc, b, true, false⟩]
  | .sor d a b => [⟨.sDst, d, false, true⟩, ⟨.sSrc, a, true, false⟩, ⟨.sSrc, b, true, false⟩]
  | .sxor d a b => [⟨.sDst, d, false, true⟩, ⟨.sSrc, a, true, false⟩, ⟨.sSrc, b, true, false⟩]
  | .sshl d a b => [⟨.sDst, d, false, true⟩, ⟨.sSrc, a, true, false⟩, ⟨.sSrc, b, true, false⟩]
  | .sshrN64 d a b => [⟨.sDst, d, false, true⟩, ⟨.sSrc, a, true, false⟩, ⟨.sSrc, b, true, false⟩]
  | .sshrI64 d a b => [⟨.sDst, d, false, true⟩, ⟨.sSrc, a, true, false⟩, ⟨.sSrc, b, true, false⟩]
  | .sminI64 d a b => [⟨.sDst, d, false, true⟩, ⟨.sSrc, a, true, false⟩, ⟨.sSrc, b, true, false⟩]
  | .sminN64 d a b => [⟨.sDst, d, false, true⟩, ⟨.sSrc, a, true, false⟩, ⟨.sSrc, b, true, false⟩]
  | .smaxI64 d a b => [⟨.sDst, d, false, true⟩, ⟨.sSrc, a, true, false⟩, ⟨.sSrc, b, true, false⟩]
  | .smaxN64 d a b => [⟨.sDst, d, false, true⟩, ⟨.sSrc, a, true, false⟩, ⟨.sSrc, b, true, false⟩]
  | .sdivI64 d a b => [⟨.sDst, d, false, true⟩, ⟨.sSrc, a, true, false⟩, ⟨.sSrc, b, true, false⟩]
  | .sdivN64 d a b => [⟨.sDst, d, false, true⟩, ⟨.sSrc, a, true, false⟩, ⟨.sSrc, b, true, false⟩]
  | .sremI64 d a b => [⟨.sDst, d, false, true⟩, ⟨.sSrc, a, true, false⟩, ⟨.sSrc, b, true, false⟩]
  | .sremN64 d a b => [⟨.sDst, d, false, true⟩, ⟨.sSrc, a, true, false⟩, ⟨.sSrc, b, true, false⟩]
  | .sseq d a b => [⟨.sDst, d, false, true⟩, ⟨.sSrc, a, true, false⟩, ⟨.sSrc, b, true, false⟩]
  | .ssne d a b => [⟨.sDst, d, false, true⟩, ⟨.sSrc, a, true, false⟩, ⟨.sSrc, b, true, false⟩]
  | .ssltI64 d a b => [⟨.sDst, d, false, true⟩, ⟨.sSrc, a, true, false⟩, ⟨.sSrc, b, true, false⟩]
  | .ssltN64 d a b => [⟨.sDst, d, false, true⟩, ⟨.sSrc, a, true, false⟩, ⟨.sSrc, b, true, false⟩]
  | .ssleI64 d a b => [⟨.sDst, d, false, true⟩, ⟨.sSrc, a, true, false⟩, ⟨.sSrc, b, true, false⟩]
  | .ssleN64 d a b => [⟨.sDst, d, false, true⟩, ⟨.sSrc, a, true, false⟩, ⟨.sSrc, b, true, false⟩]
  | .spopc d a => [⟨.sDst, d, false, true⟩, ⟨.sSrc, a, true, false⟩]
  | .sclz d a => [⟨.sDst, d, false, true⟩, ⟨.sSrc, a, true, false⟩]
  | .sctz d a => [⟨.sDst, d, false, true⟩, ⟨.sSrc, a, true, false⟩]
  | .sbrev d a => [⟨.sDst, d, false, true⟩, ⟨.sSrc, a, true, false⟩]
  | .smov d a => [⟨.sDst, d, false, true⟩, ⟨.sSrc, a, true, false⟩]
  | .saddi d a _ => [⟨.sDst, d, false, true⟩, ⟨.sSrc, a, true, false⟩]
  | .sandi d a _ => [⟨.sDst, d, false, true⟩, ⟨.sSrc, a, true, false⟩]
  | .sori d a _ => [⟨.sDst, d, false, true⟩, ⟨.sSrc, a, true, false⟩]
  | .sxori d a _ => [⟨.sDst, d, false, true⟩, ⟨.sSrc, a, true, false⟩]
  | .sshli d a _ => [⟨.sDst, d, false, true⟩, ⟨.sSrc, a, true, false⟩]
  | .sshriN64 d a _ => [⟨.sDst, d, false, true⟩, ⟨.sSrc, a, true, false⟩]
  | .sshriI64 d a _ => [⟨.sDst, d, false, true⟩, ⟨.sSrc, a, true, false⟩]
  | .ssltiI64 d a _ => [⟨.sDst, d, false, true⟩, ⟨.sSrc, a, true, false⟩]
  | .ssltiN64 d a _ => [⟨.sDst, d, false, true⟩, ⟨.sSrc, a, true, false⟩]
  | .smuli d a _ => [⟨.sDst, d, false, true⟩, ⟨.sSrc, a, true, false⟩]
  | .nop => []
  | .exit => []
  | .yield => []
  | .ret a => [⟨.v64, a, true, false⟩]
  | .brk => []
  | .bra _ => []
  | .bnz c _ => [⟨.sSrc, c, true, false⟩]
  | .bz c _ => [⟨.sSrc, c, true, false⟩]
  | .bnzv c _ => [⟨.v32, c, true, false⟩]
  | .bzv c _ => [⟨.v32, c, true, false⟩]
  | .call c _ => [⟨.v64, c, false, true⟩]
  | .loop d v _ _ => [(if v then ⟨.v32, d, true, false⟩ else ⟨.sSrc, d, true, false⟩ : Operand)]
  | .li d _ => [⟨.sDst, d, false, true⟩]
  | .sli d _ => [⟨.sDst, d, true, true⟩]
  | .vli d _ => [⟨.v32, d, false, true⟩]
  | .addaX1 d a b => [⟨.sDst, d, false, true⟩, ⟨.sSrc, a, true, false⟩, ⟨.sSrc, b, true, false⟩]
  | .addaX2 d a b => [⟨.sDst, d, false, true⟩, ⟨.sSrc, a, true, false⟩, ⟨.sSrc, b, true, false⟩]
  | .addaX4 d a b => [⟨.sDst, d, false, true⟩, ⟨.sSrc, a, true, false⟩, ⟨.sSrc, b, true, false⟩]
  | .addaX8 d a b => [⟨.sDst, d, false, true⟩, ⟨.sSrc, a, true, false⟩, ⟨.sSrc, b, true, false⟩]
  | .addaX16 d a b => [⟨.sDst, d, false, true⟩, ⟨.sSrc, a, true, false⟩, ⟨.sSrc, b, true, false⟩]
  | .addaV d a b => [⟨.v64, d, false, true⟩, ⟨.sSrc, a, true, false⟩, ⟨.v32, b, true, false⟩]
  | .wbase _ => []
  | .wshift _ => []
  | .vmov d a => [⟨.v32, d, false, true⟩, ⟨.v32, a, true, false⟩]
  | .vbcast d a => [⟨.v32, d, false, true⟩, ⟨.sSrc, a, true, false⟩]
  | .vbcast64 d a => [⟨.v64, d, false, true⟩, ⟨.sSrc, a, true, false⟩]
  | .vget d a b => [⟨.sDst, d, false, true⟩, ⟨.v32, a, true, false⟩, ⟨.sSrc, b, true, false⟩]
  | .vput d a b => [⟨.v32, d, false, true⟩, ⟨.sSrc, a, true, false⟩, ⟨.sSrc, b, true, false⟩]
  | .addI32Vv d a b => [⟨.v32, d, false, true⟩, ⟨.v32, a, true, false⟩, ⟨.v32, b, true, false⟩]
  | .subI32Vv d a b => [⟨.v32, d, false, true⟩, ⟨.v32, a, true, false⟩, ⟨.v32, b, true, false⟩]
  | .mulI32Vv d a b => [⟨.v32, d, false, true⟩, ⟨.v32, a, true, false⟩, ⟨.v32, b, true, false⟩]
  | .mulhI32Vv d a b => [⟨.v32, d, false, true⟩, ⟨.v32, a, true, false⟩, ⟨.v32, b, true, false⟩]
  | .mulhN32Vv d a b => [⟨.v32, d, false, true⟩, ⟨.v32, a, true, false⟩, ⟨.v32, b, true, false⟩]
  | .minI32Vv d a b => [⟨.v32, d, false, true⟩, ⟨.v32, a, true, false⟩, ⟨.v32, b, true, false⟩]
  | .minN32Vv d a b => [⟨.v32, d, false, true⟩, ⟨.v32, a, true, false⟩, ⟨.v32, b, true, false⟩]
  | .maxI32Vv d a b => [⟨.v32, d, false, true⟩, ⟨.v32, a, true, false⟩, ⟨.v32, b, true, false⟩]
  | .maxN32Vv d a b => [⟨.v32, d, false, true⟩, ⟨.v32, a, true, false⟩, ⟨.v32, b, true, false⟩]
  | .andB32Vv d a b => [⟨.v32, d, false, true⟩, ⟨.v32, a, true, false⟩, ⟨.v32, b, true, false⟩]
  | .orB32Vv d a b => [⟨.v32, d, false, true⟩, ⟨.v32, a, true, false⟩, ⟨.v32, b, true, false⟩]
  | .xorB32Vv d a b => [⟨.v32, d, false, true⟩, ⟨.v32, a, true, false⟩, ⟨.v32, b, true, false⟩]
  | .shlB32Vv d a b => [⟨.v32, d, false, true⟩, ⟨.v32, a, true, false⟩, ⟨.v32, b, true, false⟩]
  | .shrN32Vv d a b => [⟨.v32, d, false, true⟩, ⟨.v32, a, true, false⟩, ⟨.v32, b, true, false⟩]
  | .shrI32Vv d a b => [⟨.v32, d, false, true⟩, ⟨.v32, a, true, false⟩, ⟨.v32, b, true, false⟩]
  | .addsI32Vv d a b => [⟨.v32, d, false, true⟩, ⟨.v32, a, true, false⟩, ⟨.v32, b, true, false⟩]
  | .addI32Vs d a b => [⟨.v32, d, false, true⟩, ⟨.v32, a, true, false⟩, ⟨.sSrc, b, true, false⟩]
  | .subI32Vs d a b => [⟨.v32, d, false, true⟩, ⟨.v32, a, true, false⟩, ⟨.sSrc, b, true, false⟩]
  | .mulI32Vs d a b => [⟨.v32, d, false, true⟩, ⟨.v32, a, true, false⟩, ⟨.sSrc, b, true, false⟩]
  | .mulhI32Vs d a b => [⟨.v32, d, false, true⟩, ⟨.v32, a, true, false⟩, ⟨.sSrc, b, true, false⟩]
  | .mulhN32Vs d a b => [⟨.v32, d, false, true⟩, ⟨.v32, a, true, false⟩, ⟨.sSrc, b, true, false⟩]
  | .minI32Vs d a b => [⟨.v32, d, false, true⟩, ⟨.v32, a, true, false⟩, ⟨.sSrc, b, true, false⟩]
  | .minN32Vs d a b => [⟨.v32, d, false, true⟩, ⟨.v32, a, true, false⟩, ⟨.sSrc, b, true, false⟩]
  | .maxI32Vs d a b => [⟨.v32, d, false, true⟩, ⟨.v32, a, true, false⟩, ⟨.sSrc, b, true, false⟩]
  | .maxN32Vs d a b => [⟨.v32, d, false, true⟩, ⟨.v32, a, true, false⟩, ⟨.sSrc, b, true, false⟩]
  | .andB32Vs d a b => [⟨.v32, d, false, true⟩, ⟨.v32, a, true, false⟩, ⟨.sSrc, b, true, false⟩]
  | .orB32Vs d a b => [⟨.v32, d, false, true⟩, ⟨.v32, a, true, false⟩, ⟨.sSrc, b, true, false⟩]
  | .xorB32Vs d a b => [⟨.v32, d, false, true⟩, ⟨.v32, a, true, false⟩, ⟨.sSrc, b, true, false⟩]
  | .shlB32Vs d a b => [⟨.v32, d, false, true⟩, ⟨.v32, a, true, false⟩, ⟨.sSrc, b, true, false⟩]
  | .shrN32Vs d a b => [⟨.v32, d, false, true⟩, ⟨.v32, a, true, false⟩, ⟨.sSrc, b, true, false⟩]
  | .shrI32Vs d a b => [⟨.v32, d, false, true⟩, ⟨.v32, a, true, false⟩, ⟨.sSrc, b, true, false⟩]
  | .addsI32Vs d a b => [⟨.v32, d, false, true⟩, ⟨.v32, a, true, false⟩, ⟨.sSrc, b, true, false⟩]
  | .addI64Vv d a b => [⟨.v64, d, false, true⟩, ⟨.v64, a, true, false⟩, ⟨.v64, b, true, false⟩]
  | .subI64Vv d a b => [⟨.v64, d, false, true⟩, ⟨.v64, a, true, false⟩, ⟨.v64, b, true, false⟩]
  | .mulI64Vv d a b => [⟨.v64, d, false, true⟩, ⟨.v64, a, true, false⟩, ⟨.v64, b, true, false⟩]
  | .mulhI64Vv d a b => [⟨.v64, d, false, true⟩, ⟨.v64, a, true, false⟩, ⟨.v64, b, true, false⟩]
  | .mulhN64Vv d a b => [⟨.v64, d, false, true⟩, ⟨.v64, a, true, false⟩, ⟨.v64, b, true, false⟩]
  | .minI64Vv d a b => [⟨.v64, d, false, true⟩, ⟨.v64, a, true, false⟩, ⟨.v64, b, true, false⟩]
  | .minN64Vv d a b => [⟨.v64, d, false, true⟩, ⟨.v64, a, true, false⟩, ⟨.v64, b, true, false⟩]
  | .maxI64Vv d a b => [⟨.v64, d, false, true⟩, ⟨.v64, a, true, false⟩, ⟨.v64, b, true, false⟩]
  | .maxN64Vv d a b => [⟨.v64, d, false, true⟩, ⟨.v64, a, true, false⟩, ⟨.v64, b, true, false⟩]
  | .andB64Vv d a b => [⟨.v64, d, false, true⟩, ⟨.v64, a, true, false⟩, ⟨.v64, b, true, false⟩]
  | .orB64Vv d a b => [⟨.v64, d, false, true⟩, ⟨.v64, a, true, false⟩, ⟨.v64, b, true, false⟩]
  | .xorB64Vv d a b => [⟨.v64, d, false, true⟩, ⟨.v64, a, true, false⟩, ⟨.v64, b, true, false⟩]
  | .shlB64Vv d a b => [⟨.v64, d, false, true⟩, ⟨.v64, a, true, false⟩, ⟨.v64, b, true, false⟩]
  | .shrN64Vv d a b => [⟨.v64, d, false, true⟩, ⟨.v64, a, true, false⟩, ⟨.v64, b, true, false⟩]
  | .shrI64Vv d a b => [⟨.v64, d, false, true⟩, ⟨.v64, a, true, false⟩, ⟨.v64, b, true, false⟩]
  | .addsI64Vv d a b => [⟨.v64, d, false, true⟩, ⟨.v64, a, true, false⟩, ⟨.v64, b, true, false⟩]
  | .addI64Vs d a b => [⟨.v64, d, false, true⟩, ⟨.v64, a, true, false⟩, ⟨.sSrc, b, true, false⟩]
  | .subI64Vs d a b => [⟨.v64, d, false, true⟩, ⟨.v64, a, true, false⟩, ⟨.sSrc, b, true, false⟩]
  | .mulI64Vs d a b => [⟨.v64, d, false, true⟩, ⟨.v64, a, true, false⟩, ⟨.sSrc, b, true, false⟩]
  | .mulhI64Vs d a b => [⟨.v64, d, false, true⟩, ⟨.v64, a, true, false⟩, ⟨.sSrc, b, true, false⟩]
  | .mulhN64Vs d a b => [⟨.v64, d, false, true⟩, ⟨.v64, a, true, false⟩, ⟨.sSrc, b, true, false⟩]
  | .minI64Vs d a b => [⟨.v64, d, false, true⟩, ⟨.v64, a, true, false⟩, ⟨.sSrc, b, true, false⟩]
  | .minN64Vs d a b => [⟨.v64, d, false, true⟩, ⟨.v64, a, true, false⟩, ⟨.sSrc, b, true, false⟩]
  | .maxI64Vs d a b => [⟨.v64, d, false, true⟩, ⟨.v64, a, true, false⟩, ⟨.sSrc, b, true, false⟩]
  | .maxN64Vs d a b => [⟨.v64, d, false, true⟩, ⟨.v64, a, true, false⟩, ⟨.sSrc, b, true, false⟩]
  | .andB64Vs d a b => [⟨.v64, d, false, true⟩, ⟨.v64, a, true, false⟩, ⟨.sSrc, b, true, false⟩]
  | .orB64Vs d a b => [⟨.v64, d, false, true⟩, ⟨.v64, a, true, false⟩, ⟨.sSrc, b, true, false⟩]
  | .xorB64Vs d a b => [⟨.v64, d, false, true⟩, ⟨.v64, a, true, false⟩, ⟨.sSrc, b, true, false⟩]
  | .shlB64Vs d a b => [⟨.v64, d, false, true⟩, ⟨.v64, a, true, false⟩, ⟨.sSrc, b, true, false⟩]
  | .shrN64Vs d a b => [⟨.v64, d, false, true⟩, ⟨.v64, a, true, false⟩, ⟨.sSrc, b, true, false⟩]
  | .shrI64Vs d a b => [⟨.v64, d, false, true⟩, ⟨.v64, a, true, false⟩, ⟨.sSrc, b, true, false⟩]
  | .addsI64Vs d a b => [⟨.v64, d, false, true⟩, ⟨.v64, a, true, false⟩, ⟨.sSrc, b, true, false⟩]
  | .addF16Vv d a b => [⟨.v32, d, false, true⟩, ⟨.v32, a, true, false⟩, ⟨.v32, b, true, false⟩]
  | .subF16Vv d a b => [⟨.v32, d, false, true⟩, ⟨.v32, a, true, false⟩, ⟨.v32, b, true, false⟩]
  | .mulF16Vv d a b => [⟨.v32, d, false, true⟩, ⟨.v32, a, true, false⟩, ⟨.v32, b, true, false⟩]
  | .divF16Vv d a b => [⟨.v32, d, false, true⟩, ⟨.v32, a, true, false⟩, ⟨.v32, b, true, false⟩]
  | .minF16Vv d a b => [⟨.v32, d, false, true⟩, ⟨.v32, a, true, false⟩, ⟨.v32, b, true, false⟩]
  | .maxF16Vv d a b => [⟨.v32, d, false, true⟩, ⟨.v32, a, true, false⟩, ⟨.v32, b, true, false⟩]
  | .fmaF16Vv d a b => [⟨.v32, d, true, true⟩, ⟨.v32, a, true, false⟩, ⟨.v32, b, true, false⟩]
  | .fmsF16Vv d a b => [⟨.v32, d, true, true⟩, ⟨.v32, a, true, false⟩, ⟨.v32, b, true, false⟩]
  | .fnmaF16Vv d a b => [⟨.v32, d, true, true⟩, ⟨.v32, a, true, false⟩, ⟨.v32, b, true, false⟩]
  | .copysignF16Vv d a b => [⟨.v32, d, false, true⟩, ⟨.v32, a, true, false⟩, ⟨.v32, b, true, false⟩]
  | .addF16Vs d a b => [⟨.v32, d, false, true⟩, ⟨.v32, a, true, false⟩, ⟨.sSrc, b, true, false⟩]
  | .subF16Vs d a b => [⟨.v32, d, false, true⟩, ⟨.v32, a, true, false⟩, ⟨.sSrc, b, true, false⟩]
  | .mulF16Vs d a b => [⟨.v32, d, false, true⟩, ⟨.v32, a, true, false⟩, ⟨.sSrc, b, true, false⟩]
  | .divF16Vs d a b => [⟨.v32, d, false, true⟩, ⟨.v32, a, true, false⟩, ⟨.sSrc, b, true, false⟩]
  | .minF16Vs d a b => [⟨.v32, d, false, true⟩, ⟨.v32, a, true, false⟩, ⟨.sSrc, b, true, false⟩]
  | .maxF16Vs d a b => [⟨.v32, d, false, true⟩, ⟨.v32, a, true, false⟩, ⟨.sSrc, b, true, false⟩]
  | .fmaF16Vs d a b => [⟨.v32, d, true, true⟩, ⟨.v32, a, true, false⟩, ⟨.sSrc, b, true, false⟩]
  | .fmsF16Vs d a b => [⟨.v32, d, true, true⟩, ⟨.v32, a, true, false⟩, ⟨.sSrc, b, true, false⟩]
  | .fnmaF16Vs d a b => [⟨.v32, d, true, true⟩, ⟨.v32, a, true, false⟩, ⟨.sSrc, b, true, false⟩]
  | .copysignF16Vs d a b => [⟨.v32, d, false, true⟩, ⟨.v32, a, true, false⟩, ⟨.sSrc, b, true, false⟩]
  | .addF32Vv d a b => [⟨.v32, d, false, true⟩, ⟨.v32, a, true, false⟩, ⟨.v32, b, true, false⟩]
  | .subF32Vv d a b => [⟨.v32, d, false, true⟩, ⟨.v32, a, true, false⟩, ⟨.v32, b, true, false⟩]
  | .mulF32Vv d a b => [⟨.v32, d, false, true⟩, ⟨.v32, a, true, false⟩, ⟨.v32, b, true, false⟩]
  | .divF32Vv d a b => [⟨.v32, d, false, true⟩, ⟨.v32, a, true, false⟩, ⟨.v32, b, true, false⟩]
  | .minF32Vv d a b => [⟨.v32, d, false, true⟩, ⟨.v32, a, true, false⟩, ⟨.v32, b, true, false⟩]
  | .maxF32Vv d a b => [⟨.v32, d, false, true⟩, ⟨.v32, a, true, false⟩, ⟨.v32, b, true, false⟩]
  | .fmaF32Vv d a b => [⟨.v32, d, true, true⟩, ⟨.v32, a, true, false⟩, ⟨.v32, b, true, false⟩]
  | .fmsF32Vv d a b => [⟨.v32, d, true, true⟩, ⟨.v32, a, true, false⟩, ⟨.v32, b, true, false⟩]
  | .fnmaF32Vv d a b => [⟨.v32, d, true, true⟩, ⟨.v32, a, true, false⟩, ⟨.v32, b, true, false⟩]
  | .copysignF32Vv d a b => [⟨.v32, d, false, true⟩, ⟨.v32, a, true, false⟩, ⟨.v32, b, true, false⟩]
  | .addF32Vs d a b => [⟨.v32, d, false, true⟩, ⟨.v32, a, true, false⟩, ⟨.sSrc, b, true, false⟩]
  | .subF32Vs d a b => [⟨.v32, d, false, true⟩, ⟨.v32, a, true, false⟩, ⟨.sSrc, b, true, false⟩]
  | .mulF32Vs d a b => [⟨.v32, d, false, true⟩, ⟨.v32, a, true, false⟩, ⟨.sSrc, b, true, false⟩]
  | .divF32Vs d a b => [⟨.v32, d, false, true⟩, ⟨.v32, a, true, false⟩, ⟨.sSrc, b, true, false⟩]
  | .minF32Vs d a b => [⟨.v32, d, false, true⟩, ⟨.v32, a, true, false⟩, ⟨.sSrc, b, true, false⟩]
  | .maxF32Vs d a b => [⟨.v32, d, false, true⟩, ⟨.v32, a, true, false⟩, ⟨.sSrc, b, true, false⟩]
  | .fmaF32Vs d a b => [⟨.v32, d, true, true⟩, ⟨.v32, a, true, false⟩, ⟨.sSrc, b, true, false⟩]
  | .fmsF32Vs d a b => [⟨.v32, d, true, true⟩, ⟨.v32, a, true, false⟩, ⟨.sSrc, b, true, false⟩]
  | .fnmaF32Vs d a b => [⟨.v32, d, true, true⟩, ⟨.v32, a, true, false⟩, ⟨.sSrc, b, true, false⟩]
  | .copysignF32Vs d a b => [⟨.v32, d, false, true⟩, ⟨.v32, a, true, false⟩, ⟨.sSrc, b, true, false⟩]
  | .addBf16Vv d a b => [⟨.v32, d, false, true⟩, ⟨.v32, a, true, false⟩, ⟨.v32, b, true, false⟩]
  | .subBf16Vv d a b => [⟨.v32, d, false, true⟩, ⟨.v32, a, true, false⟩, ⟨.v32, b, true, false⟩]
  | .mulBf16Vv d a b => [⟨.v32, d, false, true⟩, ⟨.v32, a, true, false⟩, ⟨.v32, b, true, false⟩]
  | .divBf16Vv d a b => [⟨.v32, d, false, true⟩, ⟨.v32, a, true, false⟩, ⟨.v32, b, true, false⟩]
  | .minBf16Vv d a b => [⟨.v32, d, false, true⟩, ⟨.v32, a, true, false⟩, ⟨.v32, b, true, false⟩]
  | .maxBf16Vv d a b => [⟨.v32, d, false, true⟩, ⟨.v32, a, true, false⟩, ⟨.v32, b, true, false⟩]
  | .fmaBf16Vv d a b => [⟨.v32, d, true, true⟩, ⟨.v32, a, true, false⟩, ⟨.v32, b, true, false⟩]
  | .fmsBf16Vv d a b => [⟨.v32, d, true, true⟩, ⟨.v32, a, true, false⟩, ⟨.v32, b, true, false⟩]
  | .fnmaBf16Vv d a b => [⟨.v32, d, true, true⟩, ⟨.v32, a, true, false⟩, ⟨.v32, b, true, false⟩]
  | .copysignBf16Vv d a b => [⟨.v32, d, false, true⟩, ⟨.v32, a, true, false⟩, ⟨.v32, b, true, false⟩]
  | .addBf16Vs d a b => [⟨.v32, d, false, true⟩, ⟨.v32, a, true, false⟩, ⟨.sSrc, b, true, false⟩]
  | .subBf16Vs d a b => [⟨.v32, d, false, true⟩, ⟨.v32, a, true, false⟩, ⟨.sSrc, b, true, false⟩]
  | .mulBf16Vs d a b => [⟨.v32, d, false, true⟩, ⟨.v32, a, true, false⟩, ⟨.sSrc, b, true, false⟩]
  | .divBf16Vs d a b => [⟨.v32, d, false, true⟩, ⟨.v32, a, true, false⟩, ⟨.sSrc, b, true, false⟩]
  | .minBf16Vs d a b => [⟨.v32, d, false, true⟩, ⟨.v32, a, true, false⟩, ⟨.sSrc, b, true, false⟩]
  | .maxBf16Vs d a b => [⟨.v32, d, false, true⟩, ⟨.v32, a, true, false⟩, ⟨.sSrc, b, true, false⟩]
  | .fmaBf16Vs d a b => [⟨.v32, d, true, true⟩, ⟨.v32, a, true, false⟩, ⟨.sSrc, b, true, false⟩]
  | .fmsBf16Vs d a b => [⟨.v32, d, true, true⟩, ⟨.v32, a, true, false⟩, ⟨.sSrc, b, true, false⟩]
  | .fnmaBf16Vs d a b => [⟨.v32, d, true, true⟩, ⟨.v32, a, true, false⟩, ⟨.sSrc, b, true, false⟩]
  | .copysignBf16Vs d a b => [⟨.v32, d, false, true⟩, ⟨.v32, a, true, false⟩, ⟨.sSrc, b, true, false⟩]
  | .addF64Vv d a b => [⟨.v64, d, false, true⟩, ⟨.v64, a, true, false⟩, ⟨.v64, b, true, false⟩]
  | .subF64Vv d a b => [⟨.v64, d, false, true⟩, ⟨.v64, a, true, false⟩, ⟨.v64, b, true, false⟩]
  | .mulF64Vv d a b => [⟨.v64, d, false, true⟩, ⟨.v64, a, true, false⟩, ⟨.v64, b, true, false⟩]
  | .divF64Vv d a b => [⟨.v64, d, false, true⟩, ⟨.v64, a, true, false⟩, ⟨.v64, b, true, false⟩]
  | .minF64Vv d a b => [⟨.v64, d, false, true⟩, ⟨.v64, a, true, false⟩, ⟨.v64, b, true, false⟩]
  | .maxF64Vv d a b => [⟨.v64, d, false, true⟩, ⟨.v64, a, true, false⟩, ⟨.v64, b, true, false⟩]
  | .fmaF64Vv d a b => [⟨.v64, d, true, true⟩, ⟨.v64, a, true, false⟩, ⟨.v64, b, true, false⟩]
  | .fmsF64Vv d a b => [⟨.v64, d, true, true⟩, ⟨.v64, a, true, false⟩, ⟨.v64, b, true, false⟩]
  | .fnmaF64Vv d a b => [⟨.v64, d, true, true⟩, ⟨.v64, a, true, false⟩, ⟨.v64, b, true, false⟩]
  | .copysignF64Vv d a b => [⟨.v64, d, false, true⟩, ⟨.v64, a, true, false⟩, ⟨.v64, b, true, false⟩]
  | .addF64Vs d a b => [⟨.v64, d, false, true⟩, ⟨.v64, a, true, false⟩, ⟨.sSrc, b, true, false⟩]
  | .subF64Vs d a b => [⟨.v64, d, false, true⟩, ⟨.v64, a, true, false⟩, ⟨.sSrc, b, true, false⟩]
  | .mulF64Vs d a b => [⟨.v64, d, false, true⟩, ⟨.v64, a, true, false⟩, ⟨.sSrc, b, true, false⟩]
  | .divF64Vs d a b => [⟨.v64, d, false, true⟩, ⟨.v64, a, true, false⟩, ⟨.sSrc, b, true, false⟩]
  | .minF64Vs d a b => [⟨.v64, d, false, true⟩, ⟨.v64, a, true, false⟩, ⟨.sSrc, b, true, false⟩]
  | .maxF64Vs d a b => [⟨.v64, d, false, true⟩, ⟨.v64, a, true, false⟩, ⟨.sSrc, b, true, false⟩]
  | .fmaF64Vs d a b => [⟨.v64, d, true, true⟩, ⟨.v64, a, true, false⟩, ⟨.sSrc, b, true, false⟩]
  | .fmsF64Vs d a b => [⟨.v64, d, true, true⟩, ⟨.v64, a, true, false⟩, ⟨.sSrc, b, true, false⟩]
  | .fnmaF64Vs d a b => [⟨.v64, d, true, true⟩, ⟨.v64, a, true, false⟩, ⟨.sSrc, b, true, false⟩]
  | .copysignF64Vs d a b => [⟨.v64, d, false, true⟩, ⟨.v64, a, true, false⟩, ⟨.sSrc, b, true, false⟩]
  | .divI32Vv d a b => [⟨.v32, d, false, true⟩, ⟨.v32, a, true, false⟩, ⟨.v32, b, true, false⟩]
  | .divN32Vv d a b => [⟨.v32, d, false, true⟩, ⟨.v32, a, true, false⟩, ⟨.v32, b, true, false⟩]
  | .remI32Vv d a b => [⟨.v32, d, false, true⟩, ⟨.v32, a, true, false⟩, ⟨.v32, b, true, false⟩]
  | .remN32Vv d a b => [⟨.v32, d, false, true⟩, ⟨.v32, a, true, false⟩, ⟨.v32, b, true, false⟩]
  | .divI64Vv d a b => [⟨.v64, d, false, true⟩, ⟨.v64, a, true, false⟩, ⟨.v64, b, true, false⟩]
  | .divN64Vv d a b => [⟨.v64, d, false, true⟩, ⟨.v64, a, true, false⟩, ⟨.v64, b, true, false⟩]
  | .remI64Vv d a b => [⟨.v64, d, false, true⟩, ⟨.v64, a, true, false⟩, ⟨.v64, b, true, false⟩]
  | .remN64Vv d a b => [⟨.v64, d, false, true⟩, ⟨.v64, a, true, false⟩, ⟨.v64, b, true, false⟩]
  | .divI32Vs d a b => [⟨.v32, d, false, true⟩, ⟨.v32, a, true, false⟩, ⟨.sSrc, b, true, false⟩]
  | .divN32Vs d a b => [⟨.v32, d, false, true⟩, ⟨.v32, a, true, false⟩, ⟨.sSrc, b, true, false⟩]
  | .remI32Vs d a b => [⟨.v32, d, false, true⟩, ⟨.v32, a, true, false⟩, ⟨.sSrc, b, true, false⟩]
  | .remN32Vs d a b => [⟨.v32, d, false, true⟩, ⟨.v32, a, true, false⟩, ⟨.sSrc, b, true, false⟩]
  | .divI64Vs d a b => [⟨.v64, d, false, true⟩, ⟨.v64, a, true, false⟩, ⟨.sSrc, b, true, false⟩]
  | .divN64Vs d a b => [⟨.v64, d, false, true⟩, ⟨.v64, a, true, false⟩, ⟨.sSrc, b, true, false⟩]
  | .remI64Vs d a b => [⟨.v64, d, false, true⟩, ⟨.v64, a, true, false⟩, ⟨.sSrc, b, true, false⟩]
  | .remN64Vs d a b => [⟨.v64, d, false, true⟩, ⟨.v64, a, true, false⟩, ⟨.sSrc, b, true, false⟩]
  | .ceqF32Vv d a b => [⟨.pred, d, false, true⟩, ⟨.v32, a, true, false⟩, ⟨.v32, b, true, false⟩]
  | .cltF32Vv d a b => [⟨.pred, d, false, true⟩, ⟨.v32, a, true, false⟩, ⟨.v32, b, true, false⟩]
  | .cleF32Vv d a b => [⟨.pred, d, false, true⟩, ⟨.v32, a, true, false⟩, ⟨.v32, b, true, false⟩]
  | .cunF32Vv d a b => [⟨.pred, d, false, true⟩, ⟨.v32, a, true, false⟩, ⟨.v32, b, true, false⟩]
  | .ceqB32Vv d a b => [⟨.pred, d, false, true⟩, ⟨.v32, a, true, false⟩, ⟨.v32, b, true, false⟩]
  | .cltI32Vv d a b => [⟨.pred, d, false, true⟩, ⟨.v32, a, true, false⟩, ⟨.v32, b, true, false⟩]
  | .cleI32Vv d a b => [⟨.pred, d, false, true⟩, ⟨.v32, a, true, false⟩, ⟨.v32, b, true, false⟩]
  | .cltN32Vv d a b => [⟨.pred, d, false, true⟩, ⟨.v32, a, true, false⟩, ⟨.v32, b, true, false⟩]
  | .cleN32Vv d a b => [⟨.pred, d, false, true⟩, ⟨.v32, a, true, false⟩, ⟨.v32, b, true, false⟩]
  | .ceqF16Vv d a b => [⟨.pred, d, false, true⟩, ⟨.v32, a, true, false⟩, ⟨.v32, b, true, false⟩]
  | .cltF16Vv d a b => [⟨.pred, d, false, true⟩, ⟨.v32, a, true, false⟩, ⟨.v32, b, true, false⟩]
  | .cleF16Vv d a b => [⟨.pred, d, false, true⟩, ⟨.v32, a, true, false⟩, ⟨.v32, b, true, false⟩]
  | .cunF16Vv d a b => [⟨.pred, d, false, true⟩, ⟨.v32, a, true, false⟩, ⟨.v32, b, true, false⟩]
  | .ceqBf16Vv d a b => [⟨.pred, d, false, true⟩, ⟨.v32, a, true, false⟩, ⟨.v32, b, true, false⟩]
  | .cltBf16Vv d a b => [⟨.pred, d, false, true⟩, ⟨.v32, a, true, false⟩, ⟨.v32, b, true, false⟩]
  | .cleBf16Vv d a b => [⟨.pred, d, false, true⟩, ⟨.v32, a, true, false⟩, ⟨.v32, b, true, false⟩]
  | .ceqF32Vs d a b => [⟨.pred, d, false, true⟩, ⟨.v32, a, true, false⟩, ⟨.sSrc, b, true, false⟩]
  | .cltF32Vs d a b => [⟨.pred, d, false, true⟩, ⟨.v32, a, true, false⟩, ⟨.sSrc, b, true, false⟩]
  | .cleF32Vs d a b => [⟨.pred, d, false, true⟩, ⟨.v32, a, true, false⟩, ⟨.sSrc, b, true, false⟩]
  | .cunF32Vs d a b => [⟨.pred, d, false, true⟩, ⟨.v32, a, true, false⟩, ⟨.sSrc, b, true, false⟩]
  | .ceqB32Vs d a b => [⟨.pred, d, false, true⟩, ⟨.v32, a, true, false⟩, ⟨.sSrc, b, true, false⟩]
  | .cltI32Vs d a b => [⟨.pred, d, false, true⟩, ⟨.v32, a, true, false⟩, ⟨.sSrc, b, true, false⟩]
  | .cleI32Vs d a b => [⟨.pred, d, false, true⟩, ⟨.v32, a, true, false⟩, ⟨.sSrc, b, true, false⟩]
  | .cltN32Vs d a b => [⟨.pred, d, false, true⟩, ⟨.v32, a, true, false⟩, ⟨.sSrc, b, true, false⟩]
  | .cleN32Vs d a b => [⟨.pred, d, false, true⟩, ⟨.v32, a, true, false⟩, ⟨.sSrc, b, true, false⟩]
  | .ceqF16Vs d a b => [⟨.pred, d, false, true⟩, ⟨.v32, a, true, false⟩, ⟨.sSrc, b, true, false⟩]
  | .cltF16Vs d a b => [⟨.pred, d, false, true⟩, ⟨.v32, a, true, false⟩, ⟨.sSrc, b, true, false⟩]
  | .cleF16Vs d a b => [⟨.pred, d, false, true⟩, ⟨.v32, a, true, false⟩, ⟨.sSrc, b, true, false⟩]
  | .cunF16Vs d a b => [⟨.pred, d, false, true⟩, ⟨.v32, a, true, false⟩, ⟨.sSrc, b, true, false⟩]
  | .ceqBf16Vs d a b => [⟨.pred, d, false, true⟩, ⟨.v32, a, true, false⟩, ⟨.sSrc, b, true, false⟩]
  | .cltBf16Vs d a b => [⟨.pred, d, false, true⟩, ⟨.v32, a, true, false⟩, ⟨.sSrc, b, true, false⟩]
  | .cleBf16Vs d a b => [⟨.pred, d, false, true⟩, ⟨.v32, a, true, false⟩, ⟨.sSrc, b, true, false⟩]
  | .ceqF64Vv d a b => [⟨.pred, d, false, true⟩, ⟨.v64, a, true, false⟩, ⟨.v64, b, true, false⟩]
  | .cltF64Vv d a b => [⟨.pred, d, false, true⟩, ⟨.v64, a, true, false⟩, ⟨.v64, b, true, false⟩]
  | .cleF64Vv d a b => [⟨.pred, d, false, true⟩, ⟨.v64, a, true, false⟩, ⟨.v64, b, true, false⟩]
  | .cunF64Vv d a b => [⟨.pred, d, false, true⟩, ⟨.v64, a, true, false⟩, ⟨.v64, b, true, false⟩]
  | .ceqB64Vv d a b => [⟨.pred, d, false, true⟩, ⟨.v64, a, true, false⟩, ⟨.v64, b, true, false⟩]
  | .cltI64Vv d a b => [⟨.pred, d, false, true⟩, ⟨.v64, a, true, false⟩, ⟨.v64, b, true, false⟩]
  | .cleI64Vv d a b => [⟨.pred, d, false, true⟩, ⟨.v64, a, true, false⟩, ⟨.v64, b, true, false⟩]
  | .cltN64Vv d a b => [⟨.pred, d, false, true⟩, ⟨.v64, a, true, false⟩, ⟨.v64, b, true, false⟩]
  | .cleN64Vv d a b => [⟨.pred, d, false, true⟩, ⟨.v64, a, true, false⟩, ⟨.v64, b, true, false⟩]
  | .ceqF64Vs d a b => [⟨.pred, d, false, true⟩, ⟨.v64, a, true, false⟩, ⟨.sSrc, b, true, false⟩]
  | .cltF64Vs d a b => [⟨.pred, d, false, true⟩, ⟨.v64, a, true, false⟩, ⟨.sSrc, b, true, false⟩]
  | .cleF64Vs d a b => [⟨.pred, d, false, true⟩, ⟨.v64, a, true, false⟩, ⟨.sSrc, b, true, false⟩]
  | .cunF64Vs d a b => [⟨.pred, d, false, true⟩, ⟨.v64, a, true, false⟩, ⟨.sSrc, b, true, false⟩]
  | .ceqB64Vs d a b => [⟨.pred, d, false, true⟩, ⟨.v64, a, true, false⟩, ⟨.sSrc, b, true, false⟩]
  | .cltI64Vs d a b => [⟨.pred, d, false, true⟩, ⟨.v64, a, true, false⟩, ⟨.sSrc, b, true, false⟩]
  | .cleI64Vs d a b => [⟨.pred, d, false, true⟩, ⟨.v64, a, true, false⟩, ⟨.sSrc, b, true, false⟩]
  | .cltN64Vs d a b => [⟨.pred, d, false, true⟩, ⟨.v64, a, true, false⟩, ⟨.sSrc, b, true, false⟩]
  | .cleN64Vs d a b => [⟨.pred, d, false, true⟩, ⟨.v64, a, true, false⟩, ⟨.sSrc, b, true, false⟩]
  | .selB32Vv d a b p => [⟨.v32, d, false, true⟩, ⟨.v32, a, true, false⟩, ⟨.v32, b, true, false⟩, ⟨.pred, p, true, false⟩]
  | .selB64Vv d a b p => [⟨.v64, d, false, true⟩, ⟨.v64, a, true, false⟩, ⟨.v64, b, true, false⟩, ⟨.pred, p, true, false⟩]
  | .selB32Vs d a b p => [⟨.v32, d, false, true⟩, ⟨.v32, a, true, false⟩, ⟨.sSrc, b, true, false⟩, ⟨.pred, p, true, false⟩]
  | .selB64Vs d a b p => [⟨.v64, d, false, true⟩, ⟨.v64, a, true, false⟩, ⟨.sSrc, b, true, false⟩, ⟨.pred, p, true, false⟩]
  | .rcpF32V d a _ => [⟨.v32, d, false, true⟩, ⟨.v32, a, true, false⟩]
  | .rsqrtF32V d a _ => [⟨.v32, d, false, true⟩, ⟨.v32, a, true, false⟩]
  | .sqrtF32V d a _ => [⟨.v32, d, false, true⟩, ⟨.v32, a, true, false⟩]
  | .exp2F32V d a _ => [⟨.v32, d, false, true⟩, ⟨.v32, a, true, false⟩]
  | .log2F32V d a _ => [⟨.v32, d, false, true⟩, ⟨.v32, a, true, false⟩]
  | .sinF32V d a _ => [⟨.v32, d, false, true⟩, ⟨.v32, a, true, false⟩]
  | .cosF32V d a _ => [⟨.v32, d, false, true⟩, ⟨.v32, a, true, false⟩]
  | .tanhF32V d a _ => [⟨.v32, d, false, true⟩, ⟨.v32, a, true, false⟩]
  | .rcpF32S d a _ => [⟨.v32, d, false, true⟩, ⟨.sSrc, a, true, false⟩]
  | .rsqrtF32S d a _ => [⟨.v32, d, false, true⟩, ⟨.sSrc, a, true, false⟩]
  | .sqrtF32S d a _ => [⟨.v32, d, false, true⟩, ⟨.sSrc, a, true, false⟩]
  | .exp2F32S d a _ => [⟨.v32, d, false, true⟩, ⟨.sSrc, a, true, false⟩]
  | .log2F32S d a _ => [⟨.v32, d, false, true⟩, ⟨.sSrc, a, true, false⟩]
  | .sinF32S d a _ => [⟨.v32, d, false, true⟩, ⟨.sSrc, a, true, false⟩]
  | .cosF32S d a _ => [⟨.v32, d, false, true⟩, ⟨.sSrc, a, true, false⟩]
  | .tanhF32S d a _ => [⟨.v32, d, false, true⟩, ⟨.sSrc, a, true, false⟩]
  | .popcB32 d a => [⟨.v32, d, false, true⟩, ⟨.v32, a, true, false⟩]
  | .clzB32 d a => [⟨.v32, d, false, true⟩, ⟨.v32, a, true, false⟩]
  | .ctzB32 d a => [⟨.v32, d, false, true⟩, ⟨.v32, a, true, false⟩]
  | .brevB32 d a => [⟨.v32, d, false, true⟩, ⟨.v32, a, true, false⟩]
  | .notB32 d a => [⟨.v32, d, false, true⟩, ⟨.v32, a, true, false⟩]
  | .negI32 d a => [⟨.v32, d, false, true⟩, ⟨.v32, a, true, false⟩]
  | .absI32 d a => [⟨.v32, d, false, true⟩, ⟨.v32, a, true, false⟩]
  | .popcB64 d a => [⟨.v64, d, false, true⟩, ⟨.v64, a, true, false⟩]
  | .clzB64 d a => [⟨.v64, d, false, true⟩, ⟨.v64, a, true, false⟩]
  | .ctzB64 d a => [⟨.v64, d, false, true⟩, ⟨.v64, a, true, false⟩]
  | .brevB64 d a => [⟨.v64, d, false, true⟩, ⟨.v64, a, true, false⟩]
  | .notB64 d a => [⟨.v64, d, false, true⟩, ⟨.v64, a, true, false⟩]
  | .negI64 d a => [⟨.v64, d, false, true⟩, ⟨.v64, a, true, false⟩]
  | .absI64 d a => [⟨.v64, d, false, true⟩, ⟨.v64, a, true, false⟩]
  | .absF32 d a => [⟨.v32, d, false, true⟩, ⟨.v32, a, true, false⟩]
  | .negF32 d a => [⟨.v32, d, false, true⟩, ⟨.v32, a, true, false⟩]
  | .rintF32 d a => [⟨.v32, d, false, true⟩, ⟨.v32, a, true, false⟩]
  | .floorF32 d a => [⟨.v32, d, false, true⟩, ⟨.v32, a, true, false⟩]
  | .ceilF32 d a => [⟨.v32, d, false, true⟩, ⟨.v32, a, true, false⟩]
  | .truncF32 d a => [⟨.v32, d, false, true⟩, ⟨.v32, a, true, false⟩]
  | .absF16 d a => [⟨.v32, d, false, true⟩, ⟨.v32, a, true, false⟩]
  | .negF16 d a => [⟨.v32, d, false, true⟩, ⟨.v32, a, true, false⟩]
  | .absBf16 d a => [⟨.v32, d, false, true⟩, ⟨.v32, a, true, false⟩]
  | .negBf16 d a => [⟨.v32, d, false, true⟩, ⟨.v32, a, true, false⟩]
  | .absF64 d a => [⟨.v64, d, false, true⟩, ⟨.v64, a, true, false⟩]
  | .negF64 d a => [⟨.v64, d, false, true⟩, ⟨.v64, a, true, false⟩]
  | .cvt d a s _ t => [⟨t.operandKind, d, false, true⟩, ⟨s.operandKind, a, true, false⟩]
  | .pkE2m1 d a b => [⟨.v32, d, false, true⟩, ⟨.v32, a, true, false⟩, ⟨.v32, b, true, false⟩]
  | .upkE2m1 d a b => [⟨.v32, d, false, true⟩, ⟨.v32, a, true, false⟩, ⟨.v32, b, true, false⟩]
  | .scaccF32 d a b => [⟨.v32, d, true, true⟩, ⟨.v32, a, true, false⟩, ⟨.v32, b, true, false⟩]
  | .shflIdx d a b _ => [⟨.v32, d, true, true⟩, ⟨.v32, a, true, false⟩, ⟨.v32, b, true, false⟩]
  | .shflUp d a b _ => [⟨.v32, d, true, true⟩, ⟨.v32, a, true, false⟩, ⟨.sSrc, b, true, false⟩]
  | .shflDown d a b _ => [⟨.v32, d, true, true⟩, ⟨.v32, a, true, false⟩, ⟨.sSrc, b, true, false⟩]
  | .shflXor d a b _ => [⟨.v32, d, true, true⟩, ⟨.v32, a, true, false⟩, ⟨.sSrc, b, true, false⟩]
  | .voteAny d a _ => [⟨.pred, d, false, true⟩, ⟨.v32, a, true, false⟩]
  | .voteAll d a _ => [⟨.pred, d, false, true⟩, ⟨.v32, a, true, false⟩]
  | .voteEq d a _ => [⟨.pred, d, false, true⟩, ⟨.v32, a, true, false⟩]
  | .voteBallot d a _ => [⟨.sDst, d, false, true⟩, ⟨.v32, a, true, false⟩]
  | .lredAddF32 d a => [⟨.v32, d, false, true⟩, ⟨.v32, a, true, false⟩]
  | .lredMaxF32 d a => [⟨.v32, d, false, true⟩, ⟨.v32, a, true, false⟩]
  | .lredMinF32 d a => [⟨.v32, d, false, true⟩, ⟨.v32, a, true, false⟩]
  | .lredAddI32 d a => [⟨.v32, d, false, true⟩, ⟨.v32, a, true, false⟩]
  | .lredMaxI32 d a => [⟨.v32, d, false, true⟩, ⟨.v32, a, true, false⟩]
  | .lredMinI32 d a => [⟨.v32, d, false, true⟩, ⟨.v32, a, true, false⟩]
  | .lredMaxN32 d a => [⟨.v32, d, false, true⟩, ⟨.v32, a, true, false⟩]
  | .lredMinN32 d a => [⟨.v32, d, false, true⟩, ⟨.v32, a, true, false⟩]
  | .lredAddF16 d a => [⟨.v32, d, false, true⟩, ⟨.v32, a, true, false⟩]
  | .lredMaxF16 d a => [⟨.v32, d, false, true⟩, ⟨.v32, a, true, false⟩]
  | .lredMinF16 d a => [⟨.v32, d, false, true⟩, ⟨.v32, a, true, false⟩]
  | .lredAddBf16 d a => [⟨.v32, d, false, true⟩, ⟨.v32, a, true, false⟩]
  | .lredAndB32 d a => [⟨.v32, d, false, true⟩, ⟨.v32, a, true, false⟩]
  | .lredOrB32 d a => [⟨.v32, d, false, true⟩, ⟨.v32, a, true, false⟩]
  | .lredXorB32 d a => [⟨.v32, d, false, true⟩, ⟨.v32, a, true, false⟩]
  | .tredAddF32 d a _ => [⟨.sDst, d, false, true⟩, ⟨.v32, a, true, false⟩]
  | .tredMaxF32 d a _ => [⟨.sDst, d, false, true⟩, ⟨.v32, a, true, false⟩]
  | .tredMinF32 d a _ => [⟨.sDst, d, false, true⟩, ⟨.v32, a, true, false⟩]
  | .tredAddI32 d a _ => [⟨.sDst, d, false, true⟩, ⟨.v32, a, true, false⟩]
  | .tredMaxI32 d a _ => [⟨.sDst, d, false, true⟩, ⟨.v32, a, true, false⟩]
  | .tredMinI32 d a _ => [⟨.sDst, d, false, true⟩, ⟨.v32, a, true, false⟩]
  | .tredMaxN32 d a _ => [⟨.sDst, d, false, true⟩, ⟨.v32, a, true, false⟩]
  | .tredMinN32 d a _ => [⟨.sDst, d, false, true⟩, ⟨.v32, a, true, false⟩]
  | .tredAddF16 d a _ => [⟨.sDst, d, false, true⟩, ⟨.v32, a, true, false⟩]
  | .tredMaxF16 d a _ => [⟨.sDst, d, false, true⟩, ⟨.v32, a, true, false⟩]
  | .tredMinF16 d a _ => [⟨.sDst, d, false, true⟩, ⟨.v32, a, true, false⟩]
  | .tredAddBf16 d a _ => [⟨.sDst, d, false, true⟩, ⟨.v32, a, true, false⟩]
  | .tredAndB32 d a _ => [⟨.sDst, d, false, true⟩, ⟨.v32, a, true, false⟩]
  | .tredOrB32 d a _ => [⟨.sDst, d, false, true⟩, ⟨.v32, a, true, false⟩]
  | .tredXorB32 d a _ => [⟨.sDst, d, false, true⟩, ⟨.v32, a, true, false⟩]
  | .scanAddF32 d a => [⟨.v32, d, false, true⟩, ⟨.v32, a, true, false⟩]
  | .scanMaxF32 d a => [⟨.v32, d, false, true⟩, ⟨.v32, a, true, false⟩]
  | .scanMinF32 d a => [⟨.v32, d, false, true⟩, ⟨.v32, a, true, false⟩]
  | .scanAddI32 d a => [⟨.v32, d, false, true⟩, ⟨.v32, a, true, false⟩]
  | .scanMaxI32 d a => [⟨.v32, d, false, true⟩, ⟨.v32, a, true, false⟩]
  | .scanMinI32 d a => [⟨.v32, d, false, true⟩, ⟨.v32, a, true, false⟩]
  | .scanMaxN32 d a => [⟨.v32, d, false, true⟩, ⟨.v32, a, true, false⟩]
  | .scanMinN32 d a => [⟨.v32, d, false, true⟩, ⟨.v32, a, true, false⟩]
  | .scanxAddF32 d a => [⟨.v32, d, false, true⟩, ⟨.v32, a, true, false⟩]
  | .scanxMaxF32 d a => [⟨.v32, d, false, true⟩, ⟨.v32, a, true, false⟩]
  | .scanxMinF32 d a => [⟨.v32, d, false, true⟩, ⟨.v32, a, true, false⟩]
  | .scanxAddI32 d a => [⟨.v32, d, false, true⟩, ⟨.v32, a, true, false⟩]
  | .scanxMaxI32 d a => [⟨.v32, d, false, true⟩, ⟨.v32, a, true, false⟩]
  | .scanxMinI32 d a => [⟨.v32, d, false, true⟩, ⟨.v32, a, true, false⟩]
  | .scanxMaxN32 d a => [⟨.v32, d, false, true⟩, ⟨.v32, a, true, false⟩]
  | .scanxMinN32 d a => [⟨.v32, d, false, true⟩, ⟨.v32, a, true, false⟩]
  | .pand d a b => [⟨.pred, d, false, true⟩, ⟨.pred, a, true, false⟩, ⟨.pred, b, true, false⟩]
  | .por d a b => [⟨.pred, d, false, true⟩, ⟨.pred, a, true, false⟩, ⟨.pred, b, true, false⟩]
  | .pxor d a b => [⟨.pred, d, false, true⟩, ⟨.pred, a, true, false⟩, ⟨.pred, b, true, false⟩]
  | .pnot d a => [⟨.pred, d, false, true⟩, ⟨.pred, a, true, false⟩]
  | .pfroms d a => [⟨.pred, d, false, true⟩, ⟨.sSrc, a, true, false⟩]
  | .stop d a => [⟨.sDst, d, false, true⟩, ⟨.pred, a, true, false⟩]
  | .pall d => [⟨.pred, d, false, true⟩]
  | .pnone d => [⟨.pred, d, false, true⟩]
  | .ldLn d w b x _ => [⟨w.operandKind, d, false, true⟩, ⟨.sBase, b, true, false⟩, ⟨x.operandKind, x.code, true, false⟩]
  | .ldSp d w b x _ => [⟨w.operandKind, d, false, true⟩, ⟨.sBase, b, true, false⟩, ⟨x.operandKind, x.code, true, false⟩]
  | .ldCl d w b x _ => [⟨w.operandKind, d, false, true⟩, ⟨.sBase, b, true, false⟩, ⟨x.operandKind, x.code, true, false⟩]
  | .ldBn d w b x _ => [⟨w.operandKind, d, false, true⟩, ⟨.sBase, b, true, false⟩, ⟨x.operandKind, x.code, true, false⟩]
  | .ldGl d w b x _ => [⟨w.operandKind, d, false, true⟩, ⟨.sBase, b, true, false⟩, ⟨x.operandKind, x.code, true, false⟩]
  | .ldAc d w b x _ => [⟨w.operandKind, d, false, true⟩, ⟨.sBase, b, true, false⟩, ⟨x.operandKind, x.code, true, false⟩]
  | .ldGlOrdered d a _ _ w _ => [⟨w.operandKind, d, false, true⟩, ⟨.v64, a, true, false⟩]
  | .pfGl _ b x _ => [⟨.sBase, b, true, false⟩, ⟨x.operandKind, x.code, true, false⟩]
  | .stLn d w b x _ => [⟨w.operandKind, d, true, false⟩, ⟨.sBase, b, true, false⟩, ⟨x.operandKind, x.code, true, false⟩]
  | .stSp d w b x _ => [⟨w.operandKind, d, true, false⟩, ⟨.sBase, b, true, false⟩, ⟨x.operandKind, x.code, true, false⟩]
  | .stCl d w b x _ => [⟨w.operandKind, d, true, false⟩, ⟨.sBase, b, true, false⟩, ⟨x.operandKind, x.code, true, false⟩]
  | .stBn d w b x _ => [⟨w.operandKind, d, true, false⟩, ⟨.sBase, b, true, false⟩, ⟨x.operandKind, x.code, true, false⟩]
  | .stGl d w b x _ => [⟨w.operandKind, d, true, false⟩, ⟨.sBase, b, true, false⟩, ⟨x.operandKind, x.code, true, false⟩]
  | .stAc d w b x _ => [⟨w.operandKind, d, true, false⟩, ⟨.sBase, b, true, false⟩, ⟨x.operandKind, x.code, true, false⟩]
  | .stGlOrdered d a _ _ w _ => [⟨w.operandKind, d, true, false⟩, ⟨.v64, a, true, false⟩]
  | .cctlGlWb b x _ => [⟨.sBase, b, true, false⟩, ⟨x.operandKind, x.code, true, false⟩]
  | .cctlGlInv b x _ => [⟨.sBase, b, true, false⟩, ⟨x.operandKind, x.code, true, false⟩]
  | .cctlGlWbinv b x _ => [⟨.sBase, b, true, false⟩, ⟨x.operandKind, x.code, true, false⟩]
  | .atomSp d _ o _ _ _ => [⟨o.operandKind, d, true, true⟩]
  | .atomCl d _ o _ _ _ => [⟨o.operandKind, d, true, true⟩]
  | .atomBn d _ o _ _ _ => [⟨o.operandKind, d, true, true⟩]
  | .atomGl d _ o _ _ _ => [⟨o.operandKind, d, true, true⟩]
  | .fence _ _ => []
  | .icinv _ => []
  | .cpy d a _ => [⟨.team, d, true, false⟩, ⟨.sSrc, a, true, false⟩]
  | .wnw d a _ => [⟨.team, d, true, false⟩, ⟨.sSrc, a, true, false⟩]
  | .xchg d a _ => [⟨.team, d, true, false⟩, ⟨.sSrc, a, true, false⟩]
  | .rst d a w _ => [⟨w.operandKind, d, true, false⟩, ⟨.v64, a, true, false⟩]
  | .bar d => [⟨.team, d, true, false⟩]
  | .barWait d a => [⟨.team, d, true, false⟩, ⟨.sSrc, a, true, false⟩]
  | .arrive d a => [⟨.sDst, d, false, true⟩, ⟨.team, a, true, false⟩]
  | .bexp d a => [⟨.team, d, true, false⟩, ⟨.sSrc, a, true, false⟩]
  | .gate => []
  | .release => []
  | .twait d a => [⟨.token, d, true, false⟩, ⟨.sSrc, a, true, false⟩]
  | .cwait d a _ _ => [⟨.chunk, d, true, false⟩, ⟨.sSrc, a, true, false⟩]
  | .cwaitClr d a _ _ => [⟨.chunk, d, true, false⟩, ⟨.sSrc, a, true, false⟩]
  | .nret => []
  | .shrink a => [⟨.sSrc, a, true, false⟩]
  | .spfree d a b => [⟨.team, d, true, false⟩, ⟨.sSrc, a, true, false⟩, ⟨.sSrc, b, true, false⟩]
  | .phase d _ => [⟨.team, d, true, false⟩]
  | .twaitImm d _ => [⟨.token, d, true, false⟩]
  | .fork d a _ => [⟨.sDst, d, false, true⟩, ⟨.sSrc, a, true, false⟩]
  | .join d a => [⟨.sDst, d, false, true⟩, ⟨.sSrc, a, true, false⟩]
  | .rgnw a b => [⟨.sSrc, a, true, false⟩, ⟨.sSrc, b, true, false⟩]
  | .rgnr d a b => [⟨.sDst, d, false, true⟩, ⟨.sSrc, a, true, false⟩, ⟨.sSrc, b, true, false⟩]
  | .mmulBf16 _ _ a _ => [⟨.sQuad, a, true, false⟩]
  | .mmulF16 _ _ a _ => [⟨.sQuad, a, true, false⟩]
  | .mmulE4m3 _ _ a _ => [⟨.sQuad, a, true, false⟩]
  | .mmulE5m2 _ _ a _ => [⟨.sQuad, a, true, false⟩]
  | .mmbE2m1 _ _ a _ => [⟨.sQuad, a, true, false⟩]
  | .msca _ _ a _ => [⟨.sQuad, a, true, false⟩]
  | .mldwBf16 _ _ a _ => [⟨.sQuad, a, true, false⟩]
  | .mldwF16 _ _ a _ => [⟨.sQuad, a, true, false⟩]
  | .mldwE4m3 _ _ a _ => [⟨.sQuad, a, true, false⟩]
  | .mldwE5m2 _ _ a _ => [⟨.sQuad, a, true, false⟩]
  | .mldwE2m1 _ _ a _ => [⟨.sQuad, a, true, false⟩]
  | .mswap _ _ _ => []
  | .mpush a _ => [⟨.sDst, a, true, false⟩]
  | .mdrainF32 _ _ a _ => [⟨.sQuad, a, true, false⟩]
  | .mdrainBf16 _ _ a _ => [⟨.sQuad, a, true, false⟩]
  | .mdrainF16 _ _ a _ => [⟨.sQuad, a, true, false⟩]
  | .mdrainE4m3 _ _ a _ => [⟨.sQuad, a, true, false⟩]
  | .mdrainE5m2 _ _ a _ => [⟨.sQuad, a, true, false⟩]
  | .mclr _ _ a _ => [⟨.sQuad, a, true, false⟩]
  | .mstat a _ => [⟨.sQuad, a, false, true⟩]
  | .trap _ => []
  | .tret => []
  | .lpcRd d a => [⟨.sDst, d, false, true⟩, ⟨.sSrc, a, true, false⟩]
  | .lpcWr a b => [⟨.sSrc, a, true, false⟩, ⟨.sSrc, b, true, false⟩]
  | .spcw a _ => [⟨.sSrc, a, true, false⟩]
  | .xlinv _ a => [⟨.sTriple, a, true, false⟩]
  | .wpset _ a b => [⟨.sPair, a, true, false⟩, ⟨.sSrc, b, true, false⟩]
  | .moduleReset => []
  | .firmwareBundleVerification _ _ _ => []
  | .bringUpMemory _ _ => []
  | .bringUpPower _ _ => []
  | .bringUpFabric _ _ => []
  | .bringUpQueues _ _ => []
  | .spdmMeasurementRequest _ => []
  | .physicalSubmissionRegisterWrite _ => []
  | .allowListEntryWrite _ _ _ => []
  | .rampTableWrite _ _ _ => []
  | .pooledMemoryDecoderWrite _ _ => []
  | .registerWrite _ _ => []
  | .noOperation _ => []
  | .launch _ => []
  | .engineJobCard _ => []
  | .signalEventWord _ => []
  | .waitEventWord _ => []
  | .eventWordWaitSatisfied _ => []
  | .reclaimRequest _ => []
  | .parkContext _ => []
  | .resumeContext _ => []
  | .translationInvalidation _ => []
  | .launchDispatch => []
  | .launchRetirement _ => []
  | .sheafMadeResident _ _ _ _ => []
  | .carveOutChange _ _ => []
  | .fairnessPeriodExpiry _ => []
  | .starvingSheaf _ => []
  | .foldQuantumExpiry _ _ _ => []
  | .taskTake _ _ => []
  | .taskSteal _ _ => []
  | .phaseResume _ _ => []
  | .loadDataArrival _ _ => []
  | .loadFaultMappingMade _ _ => []
  | .loadFaultWaitTimeout _ _ => []
  | .collstallTimeout _ => []
  | .noticeTrap _ => []
  | .forcedSqueeze _ _ => []
  | .squeezeCompletion _ _ => []
  | .expansionStep _ _ => []
  | .scratchPageMove _ _ => []
  | .matrixCommandStart _ _ => []
  | .rampGovernorStep _ => []
  | .ringSlotWaitEnd _ _ => []
  | .matrixQuiescentStop _ _ => []
  | .matrixCommandResume _ _ => []
  | .matrixCommandCompletion _ _ => []
  | .matrixFifoPostResume _ => []
  | .engineQueuePostResume _ => []
  | .jobStart _ => []
  | .copyChunkLanding _ _ => []
  | .jobCompletion _ => []
  | .engineXlate2Timeout _ => []
  | .exchangeStreamArrival _ => []
  | .exchangeHeaderAdmission => []
  | .exchangeDeadlineExpiry _ => []
  | .mergeLineAction _ => []
  | .joinCompletion _ => []
  | .sequencerTicket => []
  | .remoteStoreAcknowledgement _ _ => []
  | .l2LineEviction _ => []
  | .twaitCompletion _ => []
  | .cwaitCompletion _ => []
  | .saveResume _ => []
  | .saveDeadlineExpiry _ => []
  | .uncorrectableError _ => []
  | .jobReplay _ => []
  | .launchRestart _ => []
  | .brynozLinkFailure _ => []
  | .peerModuleFailure _ => []
  | .powerCapInterval => []
  | .thermalTrip => []
  | .mailboxMessage _ _ _ => []
  | .illegalInstruction _ => []
  | .fetchFault => []
  | .reservedCommandType _ => []
  | .peerAccessArrival _ => []
  | .streamFailedByPeer _ _ => []
  | .engineAccessMappingMade _ => []
  | .fillerFinished _ _ => []

/-- The limits on fields that name no register (R253, R256, R263 to R265/12 and the entries). The word of `sadd s0, s0, s0` is
0x0000_0000, which R253 makes illegal: no word names that instruction. -/
def Instr.fieldsOk : Instr → Bool
  | .sadd d a b => !(d == 0 && a == 0 && b == 0)
  | .ssub _ _ _ => true
  | .smul _ _ _ => true
  | .smulhI64 _ _ _ => true
  | .smulhN64 _ _ _ => true
  | .sand _ _ _ => true
  | .sor _ _ _ => true
  | .sxor _ _ _ => true
  | .sshl _ _ _ => true
  | .sshrN64 _ _ _ => true
  | .sshrI64 _ _ _ => true
  | .sminI64 _ _ _ => true
  | .sminN64 _ _ _ => true
  | .smaxI64 _ _ _ => true
  | .smaxN64 _ _ _ => true
  | .sdivI64 _ _ _ => true
  | .sdivN64 _ _ _ => true
  | .sremI64 _ _ _ => true
  | .sremN64 _ _ _ => true
  | .sseq _ _ _ => true
  | .ssne _ _ _ => true
  | .ssltI64 _ _ _ => true
  | .ssltN64 _ _ _ => true
  | .ssleI64 _ _ _ => true
  | .ssleN64 _ _ _ => true
  | .spopc _ _ => true
  | .sclz _ _ => true
  | .sctz _ _ => true
  | .sbrev _ _ => true
  | .smov _ _ => true
  | .saddi _ _ _ => true
  | .sandi _ _ _ => true
  | .sori _ _ _ => true
  | .sxori _ _ _ => true
  | .sshli _ _ _ => true
  | .sshriN64 _ _ _ => true
  | .sshriI64 _ _ _ => true
  | .ssltiI64 _ _ _ => true
  | .ssltiN64 _ _ _ => true
  | .smuli _ _ _ => true
  | .nop => true
  | .exit => true
  | .yield => true
  | .ret _ => true
  | .brk => true
  | .bra _ => true
  | .bnz _ _ => true
  | .bz _ _ => true
  | .bnzv _ _ => true
  | .bzv _ _ => true
  | .call _ _ => true
  | .loop _ _ k n => decide (k < 3) && decide (n < 256)
  | .li _ _ => true
  | .sli _ _ => true
  | .vli _ _ => true
  | .addaX1 _ _ _ => true
  | .addaX2 _ _ _ => true
  | .addaX4 _ _ _ => true
  | .addaX8 _ _ _ => true
  | .addaX16 _ _ _ => true
  | .addaV _ _ _ => true
  | .wbase i => decide (i.toNat % 16 = 0) && decide (i.toNat ≤ 384)
  | .wshift i => decide (i.toInt % 16 = 0) && decide (-384 ≤ i.toInt) && decide (i.toInt ≤ 384)
  | .vmov _ _ => true
  | .vbcast _ _ => true
  | .vbcast64 _ _ => true
  | .vget _ _ _ => true
  | .vput _ _ _ => true
  | .addI32Vv _ _ _ => true
  | .subI32Vv _ _ _ => true
  | .mulI32Vv _ _ _ => true
  | .mulhI32Vv _ _ _ => true
  | .mulhN32Vv _ _ _ => true
  | .minI32Vv _ _ _ => true
  | .minN32Vv _ _ _ => true
  | .maxI32Vv _ _ _ => true
  | .maxN32Vv _ _ _ => true
  | .andB32Vv _ _ _ => true
  | .orB32Vv _ _ _ => true
  | .xorB32Vv _ _ _ => true
  | .shlB32Vv _ _ _ => true
  | .shrN32Vv _ _ _ => true
  | .shrI32Vv _ _ _ => true
  | .addsI32Vv _ _ _ => true
  | .addI32Vs _ _ _ => true
  | .subI32Vs _ _ _ => true
  | .mulI32Vs _ _ _ => true
  | .mulhI32Vs _ _ _ => true
  | .mulhN32Vs _ _ _ => true
  | .minI32Vs _ _ _ => true
  | .minN32Vs _ _ _ => true
  | .maxI32Vs _ _ _ => true
  | .maxN32Vs _ _ _ => true
  | .andB32Vs _ _ _ => true
  | .orB32Vs _ _ _ => true
  | .xorB32Vs _ _ _ => true
  | .shlB32Vs _ _ _ => true
  | .shrN32Vs _ _ _ => true
  | .shrI32Vs _ _ _ => true
  | .addsI32Vs _ _ _ => true
  | .addI64Vv _ _ _ => true
  | .subI64Vv _ _ _ => true
  | .mulI64Vv _ _ _ => true
  | .mulhI64Vv _ _ _ => true
  | .mulhN64Vv _ _ _ => true
  | .minI64Vv _ _ _ => true
  | .minN64Vv _ _ _ => true
  | .maxI64Vv _ _ _ => true
  | .maxN64Vv _ _ _ => true
  | .andB64Vv _ _ _ => true
  | .orB64Vv _ _ _ => true
  | .xorB64Vv _ _ _ => true
  | .shlB64Vv _ _ _ => true
  | .shrN64Vv _ _ _ => true
  | .shrI64Vv _ _ _ => true
  | .addsI64Vv _ _ _ => true
  | .addI64Vs _ _ _ => true
  | .subI64Vs _ _ _ => true
  | .mulI64Vs _ _ _ => true
  | .mulhI64Vs _ _ _ => true
  | .mulhN64Vs _ _ _ => true
  | .minI64Vs _ _ _ => true
  | .minN64Vs _ _ _ => true
  | .maxI64Vs _ _ _ => true
  | .maxN64Vs _ _ _ => true
  | .andB64Vs _ _ _ => true
  | .orB64Vs _ _ _ => true
  | .xorB64Vs _ _ _ => true
  | .shlB64Vs _ _ _ => true
  | .shrN64Vs _ _ _ => true
  | .shrI64Vs _ _ _ => true
  | .addsI64Vs _ _ _ => true
  | .addF16Vv _ _ _ => true
  | .subF16Vv _ _ _ => true
  | .mulF16Vv _ _ _ => true
  | .divF16Vv _ _ _ => true
  | .minF16Vv _ _ _ => true
  | .maxF16Vv _ _ _ => true
  | .fmaF16Vv _ _ _ => true
  | .fmsF16Vv _ _ _ => true
  | .fnmaF16Vv _ _ _ => true
  | .copysignF16Vv _ _ _ => true
  | .addF16Vs _ _ _ => true
  | .subF16Vs _ _ _ => true
  | .mulF16Vs _ _ _ => true
  | .divF16Vs _ _ _ => true
  | .minF16Vs _ _ _ => true
  | .maxF16Vs _ _ _ => true
  | .fmaF16Vs _ _ _ => true
  | .fmsF16Vs _ _ _ => true
  | .fnmaF16Vs _ _ _ => true
  | .copysignF16Vs _ _ _ => true
  | .addF32Vv _ _ _ => true
  | .subF32Vv _ _ _ => true
  | .mulF32Vv _ _ _ => true
  | .divF32Vv _ _ _ => true
  | .minF32Vv _ _ _ => true
  | .maxF32Vv _ _ _ => true
  | .fmaF32Vv _ _ _ => true
  | .fmsF32Vv _ _ _ => true
  | .fnmaF32Vv _ _ _ => true
  | .copysignF32Vv _ _ _ => true
  | .addF32Vs _ _ _ => true
  | .subF32Vs _ _ _ => true
  | .mulF32Vs _ _ _ => true
  | .divF32Vs _ _ _ => true
  | .minF32Vs _ _ _ => true
  | .maxF32Vs _ _ _ => true
  | .fmaF32Vs _ _ _ => true
  | .fmsF32Vs _ _ _ => true
  | .fnmaF32Vs _ _ _ => true
  | .copysignF32Vs _ _ _ => true
  | .addBf16Vv _ _ _ => true
  | .subBf16Vv _ _ _ => true
  | .mulBf16Vv _ _ _ => true
  | .divBf16Vv _ _ _ => true
  | .minBf16Vv _ _ _ => true
  | .maxBf16Vv _ _ _ => true
  | .fmaBf16Vv _ _ _ => true
  | .fmsBf16Vv _ _ _ => true
  | .fnmaBf16Vv _ _ _ => true
  | .copysignBf16Vv _ _ _ => true
  | .addBf16Vs _ _ _ => true
  | .subBf16Vs _ _ _ => true
  | .mulBf16Vs _ _ _ => true
  | .divBf16Vs _ _ _ => true
  | .minBf16Vs _ _ _ => true
  | .maxBf16Vs _ _ _ => true
  | .fmaBf16Vs _ _ _ => true
  | .fmsBf16Vs _ _ _ => true
  | .fnmaBf16Vs _ _ _ => true
  | .copysignBf16Vs _ _ _ => true
  | .addF64Vv _ _ _ => true
  | .subF64Vv _ _ _ => true
  | .mulF64Vv _ _ _ => true
  | .divF64Vv _ _ _ => true
  | .minF64Vv _ _ _ => true
  | .maxF64Vv _ _ _ => true
  | .fmaF64Vv _ _ _ => true
  | .fmsF64Vv _ _ _ => true
  | .fnmaF64Vv _ _ _ => true
  | .copysignF64Vv _ _ _ => true
  | .addF64Vs _ _ _ => true
  | .subF64Vs _ _ _ => true
  | .mulF64Vs _ _ _ => true
  | .divF64Vs _ _ _ => true
  | .minF64Vs _ _ _ => true
  | .maxF64Vs _ _ _ => true
  | .fmaF64Vs _ _ _ => true
  | .fmsF64Vs _ _ _ => true
  | .fnmaF64Vs _ _ _ => true
  | .copysignF64Vs _ _ _ => true
  | .divI32Vv _ _ _ => true
  | .divN32Vv _ _ _ => true
  | .remI32Vv _ _ _ => true
  | .remN32Vv _ _ _ => true
  | .divI64Vv _ _ _ => true
  | .divN64Vv _ _ _ => true
  | .remI64Vv _ _ _ => true
  | .remN64Vv _ _ _ => true
  | .divI32Vs _ _ _ => true
  | .divN32Vs _ _ _ => true
  | .remI32Vs _ _ _ => true
  | .remN32Vs _ _ _ => true
  | .divI64Vs _ _ _ => true
  | .divN64Vs _ _ _ => true
  | .remI64Vs _ _ _ => true
  | .remN64Vs _ _ _ => true
  | .ceqF32Vv _ _ _ => true
  | .cltF32Vv _ _ _ => true
  | .cleF32Vv _ _ _ => true
  | .cunF32Vv _ _ _ => true
  | .ceqB32Vv _ _ _ => true
  | .cltI32Vv _ _ _ => true
  | .cleI32Vv _ _ _ => true
  | .cltN32Vv _ _ _ => true
  | .cleN32Vv _ _ _ => true
  | .ceqF16Vv _ _ _ => true
  | .cltF16Vv _ _ _ => true
  | .cleF16Vv _ _ _ => true
  | .cunF16Vv _ _ _ => true
  | .ceqBf16Vv _ _ _ => true
  | .cltBf16Vv _ _ _ => true
  | .cleBf16Vv _ _ _ => true
  | .ceqF32Vs _ _ _ => true
  | .cltF32Vs _ _ _ => true
  | .cleF32Vs _ _ _ => true
  | .cunF32Vs _ _ _ => true
  | .ceqB32Vs _ _ _ => true
  | .cltI32Vs _ _ _ => true
  | .cleI32Vs _ _ _ => true
  | .cltN32Vs _ _ _ => true
  | .cleN32Vs _ _ _ => true
  | .ceqF16Vs _ _ _ => true
  | .cltF16Vs _ _ _ => true
  | .cleF16Vs _ _ _ => true
  | .cunF16Vs _ _ _ => true
  | .ceqBf16Vs _ _ _ => true
  | .cltBf16Vs _ _ _ => true
  | .cleBf16Vs _ _ _ => true
  | .ceqF64Vv _ _ _ => true
  | .cltF64Vv _ _ _ => true
  | .cleF64Vv _ _ _ => true
  | .cunF64Vv _ _ _ => true
  | .ceqB64Vv _ _ _ => true
  | .cltI64Vv _ _ _ => true
  | .cleI64Vv _ _ _ => true
  | .cltN64Vv _ _ _ => true
  | .cleN64Vv _ _ _ => true
  | .ceqF64Vs _ _ _ => true
  | .cltF64Vs _ _ _ => true
  | .cleF64Vs _ _ _ => true
  | .cunF64Vs _ _ _ => true
  | .ceqB64Vs _ _ _ => true
  | .cltI64Vs _ _ _ => true
  | .cleI64Vs _ _ _ => true
  | .cltN64Vs _ _ _ => true
  | .cleN64Vs _ _ _ => true
  | .selB32Vv _ _ _ p => decide (p < 8)
  | .selB64Vv _ _ _ p => decide (p < 8)
  | .selB32Vs _ _ _ p => decide (p < 8)
  | .selB64Vs _ _ _ p => decide (p < 8)
  | .rcpF32V _ _ l => decide (l < 16)
  | .rsqrtF32V _ _ l => decide (l < 16)
  | .sqrtF32V _ _ l => decide (l < 16)
  | .exp2F32V _ _ l => decide (l < 16)
  | .log2F32V _ _ l => decide (l < 16)
  | .sinF32V _ _ l => decide (l < 16)
  | .cosF32V _ _ l => decide (l < 16)
  | .tanhF32V _ _ l => decide (l < 16)
  | .rcpF32S _ _ l => decide (l < 16)
  | .rsqrtF32S _ _ l => decide (l < 16)
  | .sqrtF32S _ _ l => decide (l < 16)
  | .exp2F32S _ _ l => decide (l < 16)
  | .log2F32S _ _ l => decide (l < 16)
  | .sinF32S _ _ l => decide (l < 16)
  | .cosF32S _ _ l => decide (l < 16)
  | .tanhF32S _ _ l => decide (l < 16)
  | .popcB32 _ _ => true
  | .clzB32 _ _ => true
  | .ctzB32 _ _ => true
  | .brevB32 _ _ => true
  | .notB32 _ _ => true
  | .negI32 _ _ => true
  | .absI32 _ _ => true
  | .popcB64 _ _ => true
  | .clzB64 _ _ => true
  | .ctzB64 _ _ => true
  | .brevB64 _ _ => true
  | .notB64 _ _ => true
  | .negI64 _ _ => true
  | .absI64 _ _ => true
  | .absF32 _ _ => true
  | .negF32 _ _ => true
  | .rintF32 _ _ => true
  | .floorF32 _ _ => true
  | .ceilF32 _ _ => true
  | .truncF32 _ _ => true
  | .absF16 _ _ => true
  | .negF16 _ _ => true
  | .absBf16 _ _ => true
  | .negBf16 _ _ => true
  | .absF64 _ _ => true
  | .negF64 _ _ => true
  | .cvt _ _ _ _ _ => true
  | .pkE2m1 _ _ _ => true
  | .upkE2m1 _ _ _ => true
  | .scaccF32 _ _ _ => true
  | .shflIdx _ _ _ m => decide (m < 4)
  | .shflUp _ _ _ m => decide (m < 4)
  | .shflDown _ _ _ m => decide (m < 4)
  | .shflXor _ _ _ m => decide (m < 4)
  | .voteAny _ _ m => decide (m < 4)
  | .voteAll _ _ m => decide (m < 4)
  | .voteEq _ _ m => decide (m < 4)
  | .voteBallot _ _ m => decide (m < 4)
  | .lredAddF32 _ _ => true
  | .lredMaxF32 _ _ => true
  | .lredMinF32 _ _ => true
  | .lredAddI32 _ _ => true
  | .lredMaxI32 _ _ => true
  | .lredMinI32 _ _ => true
  | .lredMaxN32 _ _ => true
  | .lredMinN32 _ _ => true
  | .lredAddF16 _ _ => true
  | .lredMaxF16 _ _ => true
  | .lredMinF16 _ _ => true
  | .lredAddBf16 _ _ => true
  | .lredAndB32 _ _ => true
  | .lredOrB32 _ _ => true
  | .lredXorB32 _ _ => true
  | .tredAddF32 _ _ l => decide (l < 16)
  | .tredMaxF32 _ _ l => decide (l < 16)
  | .tredMinF32 _ _ l => decide (l < 16)
  | .tredAddI32 _ _ l => decide (l < 16)
  | .tredMaxI32 _ _ l => decide (l < 16)
  | .tredMinI32 _ _ l => decide (l < 16)
  | .tredMaxN32 _ _ l => decide (l < 16)
  | .tredMinN32 _ _ l => decide (l < 16)
  | .tredAddF16 _ _ l => decide (l < 16)
  | .tredMaxF16 _ _ l => decide (l < 16)
  | .tredMinF16 _ _ l => decide (l < 16)
  | .tredAddBf16 _ _ l => decide (l < 16)
  | .tredAndB32 _ _ l => decide (l < 16)
  | .tredOrB32 _ _ l => decide (l < 16)
  | .tredXorB32 _ _ l => decide (l < 16)
  | .scanAddF32 _ _ => true
  | .scanMaxF32 _ _ => true
  | .scanMinF32 _ _ => true
  | .scanAddI32 _ _ => true
  | .scanMaxI32 _ _ => true
  | .scanMinI32 _ _ => true
  | .scanMaxN32 _ _ => true
  | .scanMinN32 _ _ => true
  | .scanxAddF32 _ _ => true
  | .scanxMaxF32 _ _ => true
  | .scanxMinF32 _ _ => true
  | .scanxAddI32 _ _ => true
  | .scanxMaxI32 _ _ => true
  | .scanxMinI32 _ _ => true
  | .scanxMaxN32 _ _ => true
  | .scanxMinN32 _ _ => true
  | .pand _ _ _ => true
  | .por _ _ _ => true
  | .pxor _ _ _ => true
  | .pnot _ _ => true
  | .pfroms _ _ => true
  | .stop _ _ => true
  | .pall _ => true
  | .pnone _ => true
  | .ldLn _ _ b x l => decide (b < 16) && x.ok && decide (l < 16)
  | .ldSp _ _ b x l => decide (b < 16) && x.ok && decide (l < 16)
  | .ldCl _ _ b x l => decide (b < 16) && x.ok && decide (l < 16)
  | .ldBn _ _ b x l => decide (b < 16) && x.ok && decide (l < 16)
  | .ldGl _ _ b x l => decide (b < 16) && x.ok && decide (l < 16)
  | .ldAc _ w b x l => decide (b < 16) && x.ok && decide (l < 16) && !(w == .b8 || w == .b16)
  | .ldGlOrdered _ _ _ o w l => (w == .b32 || w == .b64) && (o == .rlx || o == .acq) && decide (l < 16)
  | .pfGl _ b x l => decide (b < 16) && x.ok && decide (l < 16)
  | .stLn _ _ b x l => decide (b < 16) && x.ok && decide (l < 16)
  | .stSp _ _ b x l => decide (b < 16) && x.ok && decide (l < 16)
  | .stCl _ _ b x l => decide (b < 16) && x.ok && decide (l < 16)
  | .stBn _ _ b x l => decide (b < 16) && x.ok && decide (l < 16)
  | .stGl _ _ b x l => decide (b < 16) && x.ok && decide (l < 16)
  | .stAc _ _ b x l => decide (b < 16) && x.ok && decide (l < 16)
  | .stGlOrdered _ _ _ o w l => (w == .b32 || w == .b64) && (o == .rlx || o == .rel) && decide (l < 16)
  | .cctlGlWb b x l => decide (b < 16) && x.ok && decide (l < 16)
  | .cctlGlInv b x l => decide (b < 16) && x.ok && decide (l < 16)
  | .cctlGlWbinv b x l => decide (b < 16) && x.ok && decide (l < 16)
  | .atomSp _ t _ s r l => decide (t < 4) && (t == 0 || s == .team) && !(r == .sc && s == .sys) && decide (l < 16)
  | .atomCl _ t _ s r l => decide (t < 4) && (t == 0 || s == .team) && !(r == .sc && s == .sys) && decide (l < 16)
  | .atomBn _ t _ s r l => decide (t < 4) && (t == 0 || s == .team) && !(r == .sc && s == .sys) && decide (l < 16)
  | .atomGl _ t _ s r l => decide (t < 4) && (t == 0 || s == .team) && !(r == .sc && s == .sys) && decide (l < 16)
  | .fence _ o => !(o == .rlx)
  | .icinv s => !(s == .sys)
  | .cpy _ _ l => decide (l < 16)
  | .wnw _ _ l => decide (l < 16)
  | .xchg _ _ l => decide (l < 16)
  | .rst _ _ w l => (w == .b32 || w == .b64) && decide (l < 16)
  | .bar _ => true
  | .barWait _ _ => true
  | .arrive _ _ => true
  | .bexp _ _ => true
  | .gate => true
  | .release => true
  | .twait _ _ => true
  | .cwait _ _ q s => decide (q < 4) && decide (s < 4)
  | .cwaitClr _ _ q s => decide (q < 4) && decide (s < 4)
  | .nret => true
  | .shrink _ => true
  | .spfree _ _ _ => true
  | .phase _ c => decide (c < 256)
  | .twaitImm _ _ => true
  | .fork _ _ c => decide (c < 256)
  | .join _ _ => true
  | .rgnw _ _ => true
  | .rgnr _ _ _ => true
  | .mmulBf16 q t _ l => quadSetOk q && decide (t < 8) && decide (l < 16)
  | .mmulF16 q t _ l => quadSetOk q && decide (t < 8) && decide (l < 16)
  | .mmulE4m3 q t _ l => quadSetOk q && decide (t < 8) && decide (l < 16)
  | .mmulE5m2 q t _ l => quadSetOk q && decide (t < 8) && decide (l < 16)
  | .mmbE2m1 q t _ l => quadSetOk q && decide (t < 8) && decide (l < 16)
  | .msca q t _ l => quadSetOk q && decide (t < 8) && decide (l < 16)
  | .mldwBf16 q t _ l => quadSetOk q && decide (t < 8) && decide (l < 16)
  | .mldwF16 q t _ l => quadSetOk q && decide (t < 8) && decide (l < 16)
  | .mldwE4m3 q t _ l => quadSetOk q && decide (t < 8) && decide (l < 16)
  | .mldwE5m2 q t _ l => quadSetOk q && decide (t < 8) && decide (l < 16)
  | .mldwE2m1 q t _ l => quadSetOk q && decide (t < 8) && decide (l < 16)
  | .mswap q t l => quadSetOk q && decide (t < 8) && decide (l < 16)
  | .mpush _ l => decide (l < 16)
  | .mdrainF32 q t _ l => quadSetOk q && decide (t < 8) && decide (l < 16)
  | .mdrainBf16 q t _ l => quadSetOk q && decide (t < 8) && decide (l < 16)
  | .mdrainF16 q t _ l => quadSetOk q && decide (t < 8) && decide (l < 16)
  | .mdrainE4m3 q t _ l => quadSetOk q && decide (t < 8) && decide (l < 16)
  | .mdrainE5m2 q t _ l => quadSetOk q && decide (t < 8) && decide (l < 16)
  | .mclr q t _ l => quadSetOk q && decide (t < 8) && decide (l < 16)
  | .mstat _ l => decide (l < 16)
  | .trap _ => true
  | .tret => true
  | .lpcRd _ _ => true
  | .lpcWr _ _ => true
  | .spcw _ b => decide (96 ≤ b) && decide (b ≤ 117)
  | .xlinv k _ => decide (k < 3)
  | .wpset d _ _ => decide (d < 4)
  | .moduleReset => true
  | .firmwareBundleVerification _ _ _ => true
  | .bringUpMemory _ _ => true
  | .bringUpPower _ _ => true
  | .bringUpFabric _ _ => true
  | .bringUpQueues _ _ => true
  | .spdmMeasurementRequest _ => true
  | .physicalSubmissionRegisterWrite _ => true
  | .allowListEntryWrite _ _ _ => true
  | .rampTableWrite _ _ _ => true
  | .pooledMemoryDecoderWrite _ _ => true
  | .registerWrite _ _ => true
  | .noOperation _ => true
  | .launch _ => true
  | .engineJobCard _ => true
  | .signalEventWord _ => true
  | .waitEventWord _ => true
  | .eventWordWaitSatisfied _ => true
  | .reclaimRequest _ => true
  | .parkContext _ => true
  | .resumeContext _ => true
  | .translationInvalidation _ => true
  | .launchDispatch => true
  | .launchRetirement _ => true
  | .sheafMadeResident _ _ _ _ => true
  | .carveOutChange _ _ => true
  | .fairnessPeriodExpiry _ => true
  | .starvingSheaf _ => true
  | .foldQuantumExpiry _ _ _ => true
  | .taskTake _ _ => true
  | .taskSteal _ _ => true
  | .phaseResume _ _ => true
  | .loadDataArrival _ _ => true
  | .loadFaultMappingMade _ _ => true
  | .loadFaultWaitTimeout _ _ => true
  | .collstallTimeout _ => true
  | .noticeTrap _ => true
  | .forcedSqueeze _ _ => true
  | .squeezeCompletion _ _ => true
  | .expansionStep _ _ => true
  | .scratchPageMove _ _ => true
  | .matrixCommandStart _ _ => true
  | .rampGovernorStep _ => true
  | .ringSlotWaitEnd _ _ => true
  | .matrixQuiescentStop _ _ => true
  | .matrixCommandResume _ _ => true
  | .matrixCommandCompletion _ _ => true
  | .matrixFifoPostResume _ => true
  | .engineQueuePostResume _ => true
  | .jobStart _ => true
  | .copyChunkLanding _ _ => true
  | .jobCompletion _ => true
  | .engineXlate2Timeout _ => true
  | .exchangeStreamArrival _ => true
  | .exchangeHeaderAdmission => true
  | .exchangeDeadlineExpiry _ => true
  | .mergeLineAction _ => true
  | .joinCompletion _ => true
  | .sequencerTicket => true
  | .remoteStoreAcknowledgement _ _ => true
  | .l2LineEviction _ => true
  | .twaitCompletion _ => true
  | .cwaitCompletion _ => true
  | .saveResume _ => true
  | .saveDeadlineExpiry _ => true
  | .uncorrectableError _ => true
  | .jobReplay _ => true
  | .launchRestart _ => true
  | .brynozLinkFailure _ => true
  | .peerModuleFailure _ => true
  | .powerCapInterval => true
  | .thermalTrip => true
  | .mailboxMessage _ _ _ => true
  | .illegalInstruction _ => true
  | .fetchFault => true
  | .reservedCommandType _ => true
  | .peerAccessArrival _ => true
  | .streamFailedByPeer _ _ => true
  | .engineAccessMappingMade _ => true
  | .fillerFinished _ _ => true

/-- An instruction is well-formed when each operand lies in its range (R254/12) and each field has an assigned code. -/
def Instr.wellFormed (i : Instr) : Bool := i.operands.all Operand.ok && i.fieldsOk

end Sys2Proof
end

