-- ==== Sys2Proof/Machine/Operands.lean ====
section
/-! DEFINITION. Operand forms: vector and scalar sources, writes of active lanes, pending destinations, the scoreboard and lookahead windows (R257 to R259/12), and physical registers (R111 to R113/04, R239/11). -/

namespace Sys2Proof.Machine

/-! ### Reading and writing lanes -/

/-- The 32-bit value of operand b: a vector in a .vv form, a scalar's low bits in a .vs form (R283/14). -/
def State.opB (s : State) (h : Sheaf) (vs : Bool) (l n : Nat) : Word :=
  if vs then (s.readS h l n).setWidth 32 else h.vget l n

/-- The 64-bit value of operand b. -/
def State.opB64 (s : State) (h : Sheaf) (vs : Bool) (l n : Nat) : Dword :=
  if vs then s.readS h l n else h.vget64 l n

/-- Write a 32-bit register of every active lane; the values were read before. -/
def State.vwrite (s : State) (d : Nat) (f : Nat → Word) : State :=
  s.modMe fun h => (lanesOf s.active).foldl (fun h l => h.vset l d (f l)) h

/-- Write a pair of every active lane. -/
def State.vwrite64 (s : State) (d : Nat) (f : Nat → Dword) : State :=
  s.modMe fun h => (lanesOf s.active).foldl (fun h l => h.vset64 l d (f l)) h

/-- Write a predicate's bits of the active lanes (R94/04). -/
def State.pwrite (s : State) (d : Nat) (f : Nat → Bool) : State :=
  s.modMe fun h => (lanesOf s.active).foldl (fun h l => h.psetBit d l (f l)) h

/-- Write a scalar register once (R94/04). -/
def State.swrite (s : State) (d : Nat) (x : Dword) : State := s.modMe fun h => h.sset d x

/-- Completion of a floating-point instruction (R198/09): it has written; its flags join `$status`, a saturation sets
SAT, its lanes move on; then FPX is taken for the enabled flags that were raised. -/
def State.fpFinish (s : State) (raised : List (Nat × Raised)) : State :=
  let all := raised.foldl (fun (a : Raised) x => a.or x.2) {}
  let h := s.me
  let s := if all.sat then s.setSat h else s
  let s := (s.modMe fun h => h.raise all.fl).retire
  let on := all.fl.bits &&& h.fpxen
  if on = 0 then s
  else
    let lanes := maskOf ((raised.filter fun x => !(x.2.fl.bits &&& h.fpxen == 0)).map (·.1))
    match s.cur with
    | some i => s.takeTrap i.sheaf .fpx on.toNat 0 lanes i.pc none
    | none => s

/-! ### Pending destinations -/

/-- The lookahead windows an instruction with L = l opens in its lanes (R257/12). -/
def windowsOf (lanes : List Nat) (l : Nat) : List (Nat × Nat) := if l = 0 then [] else lanes.map fun x => (x, l)

/-- Values land in virtual registers. -/
def Sheaf.landVals (h : Sheaf) (vals : List (Nat × Nat × Word)) : Sheaf :=
  vals.foldl (fun h x => h.setVirt x.1 x.2.1 x.2.2) h

/-- A pending destination's scalar lands. -/
def Sheaf.landScalar (h : Sheaf) (x : Option (Nat × Dword)) : Sheaf :=
  match x with
  | some (n, v) => h.sset n v
  | none => h

/-- Add a pending destination to the issuing sheaf. -/
def State.addPending (s : State) (p : Nat → Pending) : State :=
  let (id, s) := s.fresh
  s.modMe fun h => { h with pend := h.pend ++ [p id] }

/-- A pending destination of a sheaf lands: its values are written; faults stay attached; stalled lanes look again (R259/12). -/
def Sheaf.landed (h : Sheaf) (pid : Nat) : Sheaf :=
  match h.pend.find? fun p => p.id == pid with
  | none => h
  | some p =>
    if p.tickets ≠ 0 then h
    else
      let h := (h.landVals p.vals).landScalar p.scalar
      { h with
        stalled := 0
        pend := h.pend.filterMap fun (q : Pending) =>
          if q.id = pid then
            (if q.faults.isEmpty then none
             else some { q with vals := [], scalar := none, lanes := maskOf (q.faults.map (·.lane)) })
          else some q }

/-- One lane's part of a pending destination lands (R258/12: each lane separately). -/
def Sheaf.landLane (h : Sheaf) (pid lane : Nat) : Sheaf :=
  match h.pend.find? fun p => p.id == pid with
  | none => h
  | some p =>
    if p.tickets ≠ 0 ∨ (p.faults.any fun f => f.lane == lane) then h
    else
      let h := h.landVals (p.vals.filter fun x => x.1 == lane)
      { h with pend := h.pend.map fun (q : Pending) =>
          if q.id = pid then
            { q with vals := q.vals.filter (fun x => !(x.1 == lane)), lanes := q.lanes &&& ~~~laneBit lane } else q }

/-- The registers, virtual and scalar, that operands touch (R254/12, R259/12). -/
def vregsOf (wb : Nat) (os : List Operand) : List Nat :=
  os.flatMap fun o => (List.range o.kind.vectors).map fun k => wb + o.n + k
def sregsOf (os : List Operand) : List Nat :=
  os.flatMap fun o => (List.range o.kind.scalars).map fun k => o.n + k

/-- Has a lane an open window over a pending destination? -/
def Pending.open? (p : Pending) (lane : Nat) : Bool := p.windows.any fun w => w.1 == lane && decide (0 < w.2)

/-- The lanes for which an instruction touches a pending destination: `vec` are those whose vector registers it touches, `active` is the
issue's, all of which read or write a scalar. -/
def Pending.touched (p : Pending) (vec active : Mask) (vr sr : List Nat) : Mask :=
  let byVec := if p.regs.any fun r => vr.contains r then p.lanes &&& vec else 0
  let bySca := match p.scalar with | some (n, _) => if sr.contains n then active else 0 | none => 0
  byVec ||| bySca

/-- The lanes of a pending destination an instruction depends on outside every window (R259/12). -/
def Pending.blocked (p : Pending) (vec active : Mask) (vr sr : List Nat) : Mask :=
  maskOf ((lanesOf (p.touched vec active vr sr)).filter fun l => !p.open? l)

/-- The lanes inside a window whose destination is still pending (R258/12). -/
def Pending.early (p : Pending) (vec active : Mask) (vr sr : List Nat) : Mask :=
  maskOf ((lanesOf (p.touched vec active vr sr)).filter fun l => p.open? l)

/-- Is data of a pending destination still to arrive? -/
def Pending.arriving (p : Pending) : Bool := !p.vals.isEmpty || p.scalar.isSome || !(p.tickets == 0)

/-- Has a pending destination nothing to wait for but its faults? -/
def Pending.faultOnly (p : Pending) : Bool := !p.arriving && !p.faults.isEmpty

/-- A faulted load traps (R235/11): the winning cause of its lanes, the load's PC, and the load to make again. DESIGN CHOICE: values that
have come and wait for a backing slot land before the return, and their lanes' load is not made again (log 22). -/
def State.takeLoadFault (s : State) (sheaf : Nat) (p : Pending) : State :=
  match winning p.faults with
  | none => s
  | some (cause, lanes, addr) =>
    let s := s.modSheaf sheaf fun h =>
      { h with pend := h.pend.filterMap fun (q : Pending) =>
          if q.id = p.id then
            let rest := q.faults.filter fun f => !(f.cause == cause)
            let kept := q.stored.filter fun x => cause == .regback && lanes.getLsbD x.1
            if rest.isEmpty && q.vals.isEmpty && kept.isEmpty then none
            else some { q with
              faults := rest, waitSince := none, lanes := q.lanes &&& ~~~(lanes &&& ~~~maskOf (kept.map fun x => x.1))
              vals := q.vals ++ kept, stored := q.stored.filter fun x => !(kept.contains x) }
          else some q }
    let again := p.again.map fun r => { r with cause := cause, lanes := r.lanes.filter fun x => lanes.getLsbD x.lane }
    s.takeTrap sheaf cause 0 addr lanes p.pc again

/-- Is a fault one Fleskapa may map (R235/11)? -/
def LaneFault.mappable (f : LaneFault) : Bool := f.cause == .xlate2 || f.cause == .regback

/-- An instruction depends on a faulted load (R235/11): a fault no mapping can mend traps at once; otherwise it waits. -/
def State.dependOnFault (s : State) (p : Pending) : State :=
  match s.cur with
  | none => s
  | some i =>
    if p.faults.any fun f => !f.mappable then s.takeLoadFault i.sheaf p
    else
      (s.modMe fun h => { h with pend := h.pend.map fun (q : Pending) =>
        if q.id = p.id ∧ q.waitSince = none then { q with waitSince := some s.now } else q }).stallMe

/-- The drain of R257/12: none when nothing is pending; else the state in which the issue waits for data, or takes a pending
fault, or waits with it (R235, R236/11). -/
def State.drain? (s : State) : Option State :=
  match s.me.pend.find? Pending.arriving with
  | some _ => some s.stallMe
  | none =>
    match s.me.pend.find? fun p => !p.faults.isEmpty with
    | some p => some (s.dependOnFault p)
    | none => none

/-- An instruction's issue moves every window of its lanes that was open before it, those of pending destinations
numbered below `before`, one instruction on (R257/12). -/
def Sheaf.stepWindows (h : Sheaf) (active : Mask) (before : Nat) : Sheaf :=
  { h with pend := h.pend.map fun (p : Pending) =>
      if p.id < before then
        { p with windows := p.windows.filterMap fun w =>
            if active.getLsbD w.1 then (if w.2 ≤ 1 then none else some (w.1, w.2 - 1)) else some w }
      else p }

/-! ### Residency levels and physical registers -/

/-- Floor units of a context on a core: its resident teams, and its resident sheaves that belong to no team (R237/11). -/
def State.floorUnits (s : State) (core ctx : Nat) : Nat :=
  let here := s.sheaves.filter fun h => h.core == core && h.ctx == ctx && h.place == .resident
  ((here.flatMap fun h => h.slots.filterMap fun x => x).eraseDups).length +
    (here.filter fun h => h.slots.all fun x => x.isNone).length

/-- Grants of a level (R237/11): issue slots, sheaf-registers, per cent of unpinned scratch, quadrant mask. -/
def levelSlots (level f : Nat) : Nat :=
  match level with
  | 7 => 32 | 6 => max 24 f | 5 => max 16 f | 4 => max 8 f | 3 => max 4 f | 2 => max 2 f | 1 => f | _ => 0
def levelRegs (level f : Nat) : Nat :=
  match level with
  | 7 => 2048 | 6 => max 1536 (32 * f) | 5 => max 1024 (32 * f) | 4 => max 512 (32 * f) | 3 => max 256 (32 * f)
  | 2 => max 128 (32 * f) | 1 => 32 * f | _ => 0
def levelPct (level : Nat) : Nat :=
  match level with
  | 7 => 100 | 6 => 100 | 5 => 75 | 4 => 50 | 3 => 25 | _ => 0
def levelQuads (level : Nat) : Nat :=
  match level with
  | 7 => 15 | 6 => 15 | 5 => 3 | 4 => 3 | 3 => 1 | 2 => 1 | 1 => 1 | _ => 0

/-- The level that governs folding and registers: a squeeze's target once its matrix commands have stopped (R243/11). -/
def Res.granted (r : Res) : Nat := if r.squeezing && r.stopped then min r.level r.target else r.level

/-- The floor units of a sheaf (R237/11): its resident teams, by ascending number, or the sheaf itself. -/
def State.unitsOf (s : State) (h : Sheaf) : List Nat :=
  match sortBy (s.teamsOf h) fun a b => decide (a.number ≤ b.number) with
  | [] => [2 * h.slot + 1]
  | ts => ts.map fun t => 2 * t.id

/-- The floor unit whose issue slot serves a sheaf (R239/11): its lowest-numbered resident team, or the sheaf itself. -/
def State.unitOf (s : State) (h : Sheaf) : Nat := (s.unitsOf h).headD 0

/-- The guest physical backing address of a virtual register (R111/04). -/
def State.backingAddr (s : State) (h : Sheaf) (r : Nat) : Nat :=
  ((s.ctx h.ctx).backing.getD (fieldOfCore h.core) 0).toNat +
    (h.core % Config.coresPerField * 32 + h.slot) * 131072 + r * 256

/-- A virtual register's 256 bytes, lane l at byte 4l, and a register from them (R111/04). -/
def Sheaf.regBytes (h : Sheaf) (r : Nat) : List Byte := (List.range 64).flatMap fun l => bytesOfNat 4 (h.virt l r).toNat
def Sheaf.setRegBytes (h : Sheaf) (r : Nat) (bs : List Byte) : Sheaf :=
  (List.range 64).foldl (fun h l => h.setVirt l r (BitVec.ofNat 32 (fieldOf bs (4 * l) 4))) h

/-- A register goes to its backing slot through L1 and L2 (R111, R112/04); the backing address where the second stage maps none. -/
def State.spillReg (s : State) (v : Nat × Nat) : Except Dword State :=
  match s.sheaf? v.1 with
  | none => .ok s
  | some h =>
    let a := s.backingAddr h v.2
    match s.stage2 h.ctx a with
    | .error _ => .error (BitVec.ofNat 64 a)
    | .ok (hpa, _) => .ok ((s.backWrite h.core hpa (h.regBytes v.2)).modRes h.core h.ctx fun q =>
        { q with hot := q.hot.filter fun x => !(x == v), cold := v :: q.cold })

/-- A spilled register is read back (R111, R112/04); the backing address where the second stage maps none. -/
def State.fillReg (s : State) (v : Nat × Nat) : Except Dword State :=
  match s.sheaf? v.1 with
  | none => .ok s
  | some h =>
    let a := s.backingAddr h v.2
    match s.stage2 h.ctx a with
    | .error _ => .error (BitVec.ofNat 64 a)
    | .ok (hpa, _) =>
      let (bs, s) := s.backRead h.core hpa 256
      .ok ((s.modSheaf v.1 fun h => h.setRegBytes v.2 bs).modRes h.core h.ctx fun q =>
        { q with hot := v :: q.hot, cold := q.cold.filter fun x => !(x == v) })

/-- Spill some registers, least recently accessed first (R111, R112/04). DESIGN CHOICE: where no instruction needs the room, one whose
backing address is not mapped stays held (log 102). -/
def State.spill (s : State) (vs : List (Nat × Nat)) : State :=
  vs.foldl (fun (s : State) v => match s.spillReg v with | .ok t => t | .error _ => s) s

/-- Spill some registers to make room for one that an instruction needs (R112/04): the backing address of the first that the second stage
does not map. -/
def State.makeRoom (s : State) : List (Nat × Nat) → Except Dword State
  | [] => .ok s
  | v :: vs =>
    match s.spillReg v with
    | .error a => .error a
    | .ok t => State.makeRoom t vs

/-- Of some registers, the most recently accessed first, those that no floor unit keeps among its 32 (R69/02, R113/04). DESIGN CHOICE: a
register of a sheaf in several teams counts for the lowest-numbered of them that has fewer than 32 more recent ones (log 22). -/
def State.unkept (s : State) : List (Nat × Nat) → Cells Nat → List (Nat × Nat)
  | [], _ => []
  | x :: xs, n =>
    match (((s.sheaf? x.1).map s.unitsOf).getD []).find? fun u => decide (cget 0 n u < 32) with
    | some u => State.unkept s xs (cset 0 n u (cget 0 n u + 1))
    | none => x :: State.unkept s xs n

/-- Of some registers, the most recently accessed first, those beyond a level's grant, the least recently accessed first (R237, R239/11):
each floor unit keeps its 32 most recent ones at every level from 1 up, and the rest of the grant goes to the most recent others; at level
0 none spill, since the save area takes them. -/
def State.crowded (s : State) (core ctx level : Nat) (hot : List (Nat × Nat)) : List (Nat × Nat) :=
  if level = 0 then []
  else
    let rest := s.unkept hot []
    (rest.drop (if level = 1 then 0 else levelRegs level (s.floorUnits core ctx) - (hot.length - rest.length))).reverse

/-- The hot set of a sheaf's context once it has accessed a register, the most recent first (R239/11). -/
def Res.touched (r : Res) (v : Nat × Nat) : List (Nat × Nat) := v :: r.hot.filter fun x => !(x == v)

/-- A register becomes the most recently accessed one, held physically. -/
def State.warm (s : State) (h : Sheaf) (r : Nat) : State :=
  s.modRes h.core h.ctx fun q => { q with hot := q.touched (h.id, r), cold := q.cold.filter fun x => !(x == (h.id, r)) }

/-- Bring one virtual register into the physical store (R111, R112/04, R239/11): what it leaves beyond the grant is spilled, and the
register filled when it had been spilled; the backing address where that finds no mapping. -/
def State.touchReg (s : State) (h : Sheaf) (r : Nat) : Option Dword × State :=
  let q := s.resOf h
  let out := s.crowded h.core h.ctx q.granted (q.touched (h.id, r))
  if q.hot.contains (h.id, r) then (none, (s.spill out).warm h r)
  else
    match s.makeRoom out with
    | .error a => (some a, s)
    | .ok t =>
      if q.cold.contains (h.id, r) then
        match t.fillReg (h.id, r) with
        | .error a => (some a, t)
        | .ok t => (none, t)
      else (none, t.warm h r)

/-- Bring several registers in; the first that faults is the address of REGBACK (R112/04). -/
def State.touchRegs (s : State) (h : Sheaf) : List Nat → Option Dword × State
  | [] => (none, s)
  | r :: rs =>
    match s.touchReg h r with
    | (some a, s) => (some a, s)
    | (none, s) => State.touchRegs s h rs

/-- Of some registers of a sheaf, those that are spilled. -/
def State.coldRegs (s : State) (h : Sheaf) (regs : List Nat) : List Nat :=
  regs.filter fun r => (s.resOf h).cold.contains (h.id, r)

/-- Where the second stage maps a register's backing slot (R112/04). -/
def State.slotOf (s : State) (h : Sheaf) (r : Nat) : Option Nat :=
  match s.stage2 h.ctx (s.backingAddr h r) with
  | .error _ => none
  | .ok (hpa, _) => some hpa

/-- A spilled register is read from its backing slot, and stays spilled. -/
def State.openCold (s : State) (sheaf r : Nat) : State :=
  match s.sheaf? sheaf with
  | none => s
  | some h =>
    match s.slotOf h r with
    | none => s
    | some hpa =>
      let (bs, s) := s.backRead h.core hpa 256
      s.modSheaf sheaf fun h => h.setRegBytes r bs

/-- A spilled register is written to its backing slot, where it stays (R113/04). -/
def State.shutCold (s : State) (sheaf r : Nat) : State :=
  match s.sheaf? sheaf with
  | none => s
  | some h =>
    match s.slotOf h r with
    | none => s
    | some hpa => if (s.resOf h).cold.contains (h.id, r) then s.backWrite h.core hpa (h.regBytes r) else s

/-- Data lands in some spilled registers: in their backing slots (R111, R113/04). -/
def State.landCold (s : State) (sheaf : Nat) (cold : List Nat) (land : Sheaf → Sheaf) : State :=
  let s := cold.foldl (fun (s : State) r => s.openCold sheaf r) s
  cold.foldl (fun (s : State) r => s.shutCold sheaf r) (s.modSheaf sheaf land)

/-- The values of a pending destination that come for registers without a backing slot wait for it, their lanes with REGBACK as a fault
(R112/04, R235/11). -/
def State.setAside (s : State) (h : Sheaf) (lost : List Nat) (p : Pending) : Pending :=
  let mine := p.vals.filter fun x => lost.contains x.2.1
  { p with
    vals := p.vals.filter fun x => !(lost.contains x.2.1)
    stored := p.stored ++ mine
    faults := p.faults ++ mine.map fun x => ⟨x.1, .regback, BitVec.ofNat 64 (s.backingAddr h x.2.1)⟩ }

/-- A pending destination lands (R259/12): its values are written, those of spilled registers in their backing slots (R111, R113/04), or
wait for such a slot to be mapped. -/
def State.landPending (s : State) (sheaf pid : Nat) : State :=
  match s.sheaf? sheaf with
  | none => s
  | some h =>
    let cold := (((h.pend.find? fun p : Pending => p.id == pid).filter fun p : Pending => p.tickets == 0).map fun p : Pending => s.coldRegs h p.regs).getD []
    let lost := cold.filter fun r => (s.slotOf h r).isNone
    s.landCold sheaf (cold.filter fun r => !(lost.contains r)) fun k =>
      ({ k with pend := k.pend.map fun p => if p.id = pid then s.setAside h lost p else p } : Sheaf).landed pid

/-- One lane's part of a pending destination lands (R258/12), that of a spilled register in its backing slot; not while such a slot is not
mapped. -/
def State.landOne (s : State) (sheaf pid lane : Nat) : State :=
  match s.sheaf? sheaf with
  | none => s
  | some h =>
    let cold := ((h.pend.find? fun p : Pending => p.id == pid).map fun p : Pending => s.coldRegs h p.regs).getD []
    if cold.any fun r => (s.slotOf h r).isNone then s else s.landCold sheaf cold fun k => k.landLane pid lane

/-- The spilled registers among some of a sheaf are read from their backing slots for a record of it (R52, R56/02, R111, R112/04), which
takes no physical register; the backing address of one that finds no mapping. -/
def State.drawCold (s : State) (sheaf : Nat) (regs : List Nat) : Option Dword × State :=
  match s.sheaf? sheaf with
  | none => (none, s)
  | some h =>
    let cold := s.coldRegs h regs
    match cold.find? fun r => (s.slotOf h r).isNone with
    | some r => (some (BitVec.ofNat 64 (s.backingAddr h r)), s)
    | none => (none, cold.foldl (fun (s : State) r => s.openCold sheaf r) s)

/-- The spilled registers of a sheaf. -/
def State.coldOf (s : State) (h : Sheaf) : List Nat := ((s.resOf h).cold.filter fun x => x.1 == h.id).map fun x => x.2

end Sys2Proof.Machine
end

