-- ==== Sys2Proof/Machine/Reports.lean ====
section
/-! DEFINITION. Reports out: error queue records and their interrupts (R149 to R151/06, R171/07, R383/19). -/

namespace Sys2Proof.Machine

/-- Causes of error records (R149/06). -/
def errDropped : Nat := 1
def errUncorr : Nat := 2
def errFenced : Nat := 3
def errReset : Nat := 4
def errReplay : Nat := 5
def errJob : Nat := 6
def errSubmission : Nat := 7

/-- A record's 32 bytes (R149/06); `detail` is its bytes 20 to 31. -/
def errorBytes (cid cause byte3 : Nat) (addr : Nat) (cycle : Dword) (detail : List Byte) : List Byte :=
  bytesOfNat 2 cid ++ bytesOfNat 1 cause ++ bytesOfNat 1 byte3 ++ bytesOfNat 8 addr ++ bytesOfNat 8 cycle.toNat ++
    (detail ++ List.replicate 12 0).take 12

/-- Raise an MSI-X vector (R383/19). -/
def State.interrupt (s : State) (v : Nat) : State := { s with msix := s.msix ++ [v] }

/-- A saturating 32-bit count rises by 1. -/
def satInc (x : BitVec 32) : BitVec 32 := if x = BitVec.allOnes 32 then x else x + 1

/-- Put a record among those its queue took in this cycle, which lie in ascending cause code (R151/06). -/
def orderErrors (rs : List ErrorRecord) (r : ErrorRecord) : List ErrorRecord :=
  (rs.filter fun x => decide (x.cause ≤ r.cause)) ++ [r] ++ rs.filter fun x => decide (r.cause < x.cause)

/-- A record enters a queue of 256 (R150, R151/06): the records of this cycle in ascending cause code, from the entry they began
at; with the queue full the last of them is lost. The records the queue holds from this cycle, where they begin, and whether one is lost. -/
def State.errorSlots (s : State) (r : ErrorRecord) (write head : BitVec 32) : List ErrorRecord × BitVec 32 × Bool :=
  let mine := s.errsNow.filter fun x => x.queue == r.queue
  let full := decide ((write - head).toNat = 256)
  let all := orderErrors mine r
  (if full then all.take mine.length else all, write - BitVec.ofNat 32 mine.length, full)

/-- Write the records of this cycle at their entries. -/
def Memory.putErrors (m : Memory) (base : Nat) (start : BitVec 32) (rs : List ErrorRecord) : Memory :=
  (rs.foldl (fun (q : Memory × BitVec 32) r => (q.1.write (base + 32 * (q.2.toNat % 256)) r.bytes, q.2 + 1)) (m, start)).1

/-- The records of this cycle, a queue's replaced. -/
def State.keepErrors (s : State) (queue : Option Nat) (rs : List ErrorRecord) : State :=
  { s with errsNow := (s.errsNow.filter fun x => !(x.queue == queue)) ++ rs }

/-- A record for the host error queue (R150, R151/06). -/
def State.reportHost (s : State) (cause byte3 addr : Nat) (detail : List Byte) : State :=
  let (rs, start, lost) := s.errorSlots ⟨none, cause, errorBytes 0xFFF cause byte3 addr s.cycle detail⟩ s.hostErrWrite s.hostErrHead
  let t := ({ s with mem := s.mem.putErrors s.hostErrBase.toNat start rs } : State).keepErrors none rs
  if lost then
    let t := { t with hostErrLost := satInc s.hostErrLost }
    if s.hostErrLost = 0 then t.interrupt 0 else t
  else ({ t with hostErrWrite := s.hostErrWrite + 1 } : State).interrupt 0

/-- A record for a context's error queue (R150, R151/06, R172/07; its base is host physical, log 16). -/
def State.report (s : State) (ctx cause byte3 addr : Nat) (detail : List Byte) : State :=
  let c := s.ctx ctx
  let (rs, start, lost) := s.errorSlots ⟨some ctx, cause, errorBytes c.cid.toNat cause byte3 addr s.cycle detail⟩ c.eqWrite c.eqHead
  let t := ({ s with mem := s.mem.putErrors c.eqBase.toNat start rs } : State).keepErrors (some ctx) rs
  if lost then
    let t := t.modCtx ctx fun c => { c with eqLost := satInc c.eqLost }
    if c.eqLost = 0 then t.interrupt (cget 0 s.ctxVector ctx) else t
  else t.modCtx ctx fun c => { c with eqWrite := c.eqWrite + 1 }

/-- The CXL port that serves a host address, or 0xFF (R171/07). -/
def State.portOf (s : State) (hpa : Nat) : Nat :=
  if hpa < barnAlias then
    match s.decoderOf hpa with
    | some d => decoderPort d hpa
    | none => 255
  else 255

/-- The UNCORR record of an access (R132/05, R171/07): the port and the instruction's PC, 0 for an engine. -/
def State.reportUncorr (s : State) (ctx addr port : Nat) (pc : Nat) : State :=
  s.report ctx errUncorr 0 addr (bytesOfNat 1 port ++ [0, 0, 0] ++ bytesOfNat 8 pc)

/-- A job that failed, or a card that was rejected (R149/06, R171/07). -/
def State.reportJob (s : State) (ctx engine causeC cardAddr : Nat) : State :=
  s.report ctx errJob engine cardAddr (bytesOfNat 1 engine ++ bytesOfNat 1 causeC ++ [0, 0] ++ bytesOfNat 8 cardAddr)

/-- The module of a peer's host address (R129/05). -/
def moduleOf (hpa : Nat) : Nat := hpa / 2 ^ 38 % 8192

/-- A peer line is written back to its peer (R406/10), or, where that module has failed, the write fails as UNCORR (R387/19) in each
context whose sheaves wrote the line, and its bytes are lost. -/
def State.writeBackPeer (s : State) (line : Nat) : State :=
  if s.peersDown.contains (moduleOf line) then
    let lost := match s.peerCopy line with | some (_, m) => !(m == 0) | none => false
    let ctxs := ((s.sheaves.filter fun h => h.peerDirty.contains line).map fun h => h.ctx).eraseDups
    let s := if lost then ctxs.foldl (fun (s : State) c => s.reportUncorr c line 255 0) s else s
    { s with l2peer := s.l2peer.map fun x => if x.1 = line then (line, x.2.1, 0) else x }
  else s.peerWriteBack line

/-! ### Fleskapa's cores (R388, R391/19) and their mailboxes (R152/06) -/

/-- Does a Fleskapa core run: bring-up has started it, and it is not fenced (R248/11, R388, R391/19)? -/
def State.coreRuns (s : State) (n : Nat) : Bool := s.started.contains n && !(s.fenced.contains (.fleskapa n))

/-- A mailbox entry holds 64 bytes (R139/06). DESIGN CHOICE: a shorter message is followed by zeros, a longer one cut (log 100). -/
def mailEntry (msg : List Byte) : List Byte := (msg ++ List.replicate 64 0).take 64

/-- A message reaches a mailbox: senders 0 to 7, the Fleskapa cores, wait while 16 messages are held; a hardware reporter uses its
buffer of four, and past that the event that made the message stalls: none. -/
def Mailbox.send (m : Mailbox) (sender : Nat) (msg : List Byte) : Option Mailbox :=
  if m.messages.length < 16 ∧ m.waiting = [] ∧ m.reporters = [] then some { m with messages := m.messages ++ [(sender, msg)] }
  else if sender < 8 then some { m with waiting := m.waiting ++ [(sender, msg)] }
  else if m.reporters.length < 4 then some { m with reporters := m.reporters ++ [(sender, msg)] }
  else none

/-- A message to a Fleskapa core; none where it stalls its event. Its mailbox takes it though the core be fenced (log 101). -/
def State.tell (s : State) (core sender : Nat) (msg : List Byte) : Option State :=
  match s.mailboxes[core]? with
  | none => some s
  | some m => (m.send sender (mailEntry msg)).map fun m => { s with mailboxes := modAt (fun _ => m) s.mailboxes core }

/-- The error monitor as a sender (log 62). -/
def errorMonitor : Nat := 10

end Sys2Proof.Machine
end

