-- ==== Sys2Proof/Machine/Guest.lean ====
section
/-! DEFINITION. Memory as the device's own units reach it through a context's two stages: the parser, the graph engine, the context engine (R133/05, R168, R170/07). -/

namespace Sys2Proof.Machine

/-- Where a virtual byte of a context lies, with the checks of an access; these units keep no translation of their own,
so each access walks the tables (log 25). -/
def State.guestAt (s : State) (ctx va : Nat) (k : AccKind) : Except Cause Nat :=
  if 2 ^ 56 ≤ va then .error .space
  else
    match (s.xlate Config.cores ctx k va).1 with
    | .error c => .error c
    | .ok hpa => if s.uncorrAt hpa then .error .uncorr else .ok hpa

/-- The CXL port of the first line of a range whose access meets an uncorrectable error, or 0xFF (R171/07); `fuel` bounds the lines. -/
def State.guestPort (s : State) (ctx va : Nat) : Nat → Nat
  | 0 => 255
  | fuel + 1 =>
    match (s.xlate Config.cores ctx .load va).1 with
    | .error _ => State.guestPort s ctx (va - va % 128 + 128) fuel
    | .ok hpa => if s.uncorrAt hpa then s.portOf hpa else State.guestPort s ctx (va - va % 128 + 128) fuel

/-- The UNCORR record of an access of a device unit (R132/05, R171/07). -/
def State.guestUncorr (s : State) (ctx va n : Nat) : State := s.reportUncorr ctx va (s.guestPort ctx va (n / 128 + 2)) 0

/-- How many bytes of a piece lie in the line of its first byte. -/
def pieceLen (va n : Nat) : Nat := min n (128 - va % 128)

/-- Bytes of a context's virtual memory at revision 0, line by line; `fuel` bounds the lines. -/
def State.guestRead (s : State) (ctx va : Nat) : Nat → Nat → Except Cause (List Byte)
  | 0, _ => .ok []
  | fuel + 1, n =>
    if n = 0 then .ok []
    else
      match s.guestAt ctx va .load with
      | .error c => .error c
      | .ok hpa =>
        match State.guestRead s ctx (va + pieceLen va n) fuel (n - pieceLen va n) with
        | .error c => .error c
        | .ok rest => .ok ((s.glRead ctx 0 va hpa (pieceLen va n) false).1 ++ rest)

/-- Read `n` bytes. -/
def State.guestBytes (s : State) (ctx va n : Nat) : Except Cause (List Byte) := s.guestRead ctx va (n / 128 + 2) n

/-- Write bytes of a context's virtual memory at revision 0, line by line; a line whose checks fail is not written. -/
def State.guestWrite (s : State) (ctx va : Nat) : Nat → List Byte → State
  | 0, _ => s
  | fuel + 1, bs =>
    if bs = [] then s
    else
      let n := pieceLen va bs.length
      let s' := match s.guestAt ctx va .store with
        | .error _ => s
        | .ok hpa => s.glWrite ctx 0 va hpa (bs.take n) false
      State.guestWrite s' ctx (va + n) fuel (bs.drop n)

/-- Write some bytes. -/
def State.guestPut (s : State) (ctx va : Nat) (bs : List Byte) : State := s.guestWrite ctx va (bs.length / 128 + 2) bs

/-! ### Guest physical pages (R112/04, R246/11) -/

/-- Fill a page of guest physical memory with a page of a record. -/
def State.putPage (s : State) (ctx gpa : Nat) (m : Memory) (page : Nat) : State :=
  match s.stage2 ctx gpa with
  | .error _ => s
  | .ok (hpa, _) =>
    let bare := s.mem.filter fun c => !(decide (hpa ≤ c.1) && decide (c.1 < hpa + 4096))
    let mine := m.filter fun c => decide (4096 * page ≤ c.1) && decide (c.1 < 4096 * page + 4096)
    { s with mem := mine.foldl (fun q c => Memory.set q (hpa + (c.1 - 4096 * page)) c.2) bare }

/-- Fill pages of guest physical memory from an address up. -/
def State.putPages (s : State) (ctx gpa : Nat) (m : Memory) (pages : Nat) : State :=
  (List.range pages).foldl (fun (s : State) p => s.putPage ctx (gpa + 4096 * p) m p) s

/-- Where a context's save area keeps the planes of a quadrant: 64 KiB each, by core and quadrant, after the header (log 27). -/
def State.planeBase (s : State) (ctx core q : Nat) : Nat := (s.ctx ctx).saveBase.toNat + 4096 + 262144 * core + 65536 * q

/-- The 16 planes of a quadrant as bytes. -/
def Quad.planeBytes (q : Quad) : Memory := q.acc.foldl (fun (m : Memory) e => m.write (4 * e.1) (bytesOfNat 4 e.2.toNat)) []

/-- The planes of a quadrant are written to the save area (R127/05). -/
def State.writePlanes (s : State) (core : Nat) (x : Nat × Nat × Quad) : State :=
  s.putPages x.1 (s.planeBase x.1 core x.2.1) x.2.2.planeBytes 16

/-- Is a page of guest physical memory mapped by the second stage? -/
def State.pageMapped (s : State) (ctx gpa : Nat) : Bool :=
  match s.stage2 ctx gpa with
  | .ok _ => true
  | .error _ => false

/-- The first page of a quadrant's planes in the save area that the second stage does not map (R247/11). -/
def State.planeFault (s : State) (ctx core q : Nat) : Option Nat :=
  ((List.range 16).map fun p => s.planeBase ctx core q + 4096 * p).find? fun a => !s.pageMapped ctx a

/-- The bytes that a field's save buffer holds (R247/11). -/
def FieldState.buffered (f : FieldState) : Nat := (f.buffer.map fun x => x.2).sum

/-- The fault of a plane's write travels through the error-handling core to the host (R247/11, log 62), one page at a time, and the deadline
runs from there; a report that stalls is made later. -/
def State.reportPlane (s : State) (ctx : Nat) : State :=
  match (s.ctx ctx).planeWait.findSome? fun x => s.planeFault ctx x.1 x.2.1 with
  | none => s
  | some a =>
    match s.tell 3 errorMonitor (bytesOfNat 8 ctx ++ bytesOfNat 8 a) with
    | none => s
    | some s => s.modCtx ctx fun k => { k with planeSince := some s.time, planeAddr := a }

/-- Planes whose write to the save area takes XLATE2 lose nothing (R247/11): they stay in the field's 16 MiB save buffer, or, where that is
full, the field's cores of the context stay frozen. -/
def State.stallPlanes (s : State) (core ctx q : Nat) : State :=
  let f := fieldOfCore core
  let fits := decide ((s.field f).buffered + 65536 ≤ 2 ^ 24)
  let s := if fits then s.modField f fun k => { k with buffer := k.buffer ++ [(ctx, 65536)] } else s
  let s := s.modCtx ctx fun k => { k with planeWait := k.planeWait ++ [(core, q, fits)] }
  if (s.ctx ctx).planeSince.isSome then s else s.reportPlane ctx

/-- The planes of a quadrant leave it: they are written to the save area, or wait for a page of it (R127/05, R247/11). -/
def State.savePlanes (s : State) (core : Nat) (x : Nat × Nat × Quad) : State :=
  if (s.planeFault x.1 core x.2.1).isSome then s.stallPlanes core x.1 x.2.1 else s.writePlanes core x

/-- A quadrant's planes wait for no page any more. -/
def State.endPlaneWait (s : State) (ctx core q : Nat) : State :=
  match (s.ctx ctx).planeWait.find? fun x => x.1 == core && x.2.1 == q with
  | none => s
  | some x =>
    let s := if x.2.2 then s.modField (fieldOfCore core) fun k => { k with buffer := k.buffer.erase (ctx, 65536) } else s
    s.modCtx ctx fun k =>
      let left := k.planeWait.erase x
      { k with planeWait := left, planeSince := if left.isEmpty then none else k.planeSince }

/-- A core changes: the planes that leave their quadrants with that are written to their contexts' save areas (R127/05), and those that
come back wait no more. -/
def State.modQuads (s : State) (core : Nat) (f : Core → Core) : State :=
  let same (x y : Nat × Nat × Quad) : Bool := y.1 == x.1 && y.2.1 == x.2.1
  let old := (s.core core).saved
  let s := s.modCore core f
  let new := (s.core core).saved
  let s := (old.filter fun x => !(new.any (same x))).foldl (fun (s : State) x => s.endPlaneWait x.1 core x.2.1) s
  (new.filter fun x => !(old.any (same x))).foldl (fun (s : State) x => s.savePlanes core x) s

/-- Waiting planes whose pages are all mapped now are written; the next page that is not is reported in its turn (R247/11). -/
def State.planesGoOn (s : State) (ctx : Nat) : State :=
  let s := (s.ctx ctx).planeWait.foldl (fun (s : State) x =>
    if (s.planeFault ctx x.1 x.2.1).isSome then s
    else
      match (s.core x.1).saved.find? fun y => y.1 == ctx && y.2.1 == x.2.1 with
      | none => s.endPlaneWait ctx x.1 x.2.1
      | some y => (s.writePlanes x.1 y).endPlaneWait ctx x.1 x.2.1) s
  if (s.ctx ctx).planeWait.isEmpty then s else s.reportPlane ctx

/-- Do planes of a context wait for a page whose mapping is made, or whose report has stalled (R247/11)? -/
def State.planesReady (s : State) (ctx : Nat) : Bool :=
  !(s.ctx ctx).planeWait.isEmpty && ((s.ctx ctx).planeSince.isNone || s.pageMapped ctx (s.ctx ctx).planeAddr)

/-! ### Tables that are read in memory (R154/07) -/

/-- Cut a table into entries. -/
def entriesOf (size : Nat) : Nat → List Byte → List (List Byte)
  | 0, _ => []
  | n + 1, bs => bs.take size :: entriesOf size n (bs.drop size)

/-- The region table of a context as memory holds it (R161/07): unused where it cannot be read. -/
def State.regionsInMemory (s : State) (ctx : Nat) : List (BitVec 256) :=
  if (s.ctx ctx).regionTable = 0 then List.replicate 64 0
  else
    match s.guestBytes ctx (s.ctx ctx).regionTable.toNat 2048 with
    | .error _ => List.replicate 64 0
    | .ok bs => (entriesOf 32 64 bs).map fun e => BitVec.ofNat 256 (natOfBytes e)

/-- The region table as a fork or a merge reads it (R154, R161/07): memory's; the entries held, where no table is set (log 78). -/
def State.regionsNow (s : State) (ctx : Nat) : Cells (BitVec 256) :=
  if (s.ctx ctx).regionTable = 0 then (s.ctx ctx).regions
  else (List.range 64).foldl (fun r k => cset 0 r k ((s.regionsInMemory ctx).getD k 0)) []

/-- The entries held become those of the table. -/
def State.readRegions (s : State) (ctx : Nat) : State := s.modCtx ctx fun c => { c with regions := s.regionsNow ctx }

/-- A carry table entry as `phase` and `fork` read it (R154, R159/07); the one read at the dispatch, where memory cannot be read (log 78). -/
def State.carryEntry (s : State) (l : Launch) (carry : Nat) : List Byte :=
  match s.guestBytes l.ctx (fieldOf l.desc 40 8 + 32 * carry) 32 with
  | .ok bs => bs
  | .error _ => l.carry.getD carry []

end Sys2Proof.Machine
end

