-- ==== Sys2Proof/Machine/Alu.lean ====
section
/-! DEFINITION. Integer arithmetic on bit vectors of any width, shared by the scalar and the vector instructions (R268, R269/13, R285 to R287/14). -/

namespace Sys2Proof.Machine

/-- What a meaning answers. -/
abbrev Out := Host.Outcome State Fault Refusal

/-- Bits [2w−1:w] of the signed product. -/
def mulhS {w : Nat} (a b : BitVec w) : BitVec w := BitVec.ofInt w (a.toInt * b.toInt / (2 ^ w : Nat))

/-- Bits [2w−1:w] of the unsigned product. -/
def mulhU {w : Nat} (a b : BitVec w) : BitVec w := BitVec.ofNat w (a.toNat * b.toNat / 2 ^ w)

def minS {w : Nat} (a b : BitVec w) : BitVec w := if a.slt b then a else b
def maxS {w : Nat} (a b : BitVec w) : BitVec w := if a.slt b then b else a
def minU {w : Nat} (a b : BitVec w) : BitVec w := if a.ult b then a else b
def maxU {w : Nat} (a b : BitVec w) : BitVec w := if a.ult b then b else a

/-- Shift counts are b AND (w − 1). -/
def shlV {w : Nat} (a b : BitVec w) : BitVec w := a <<< (b.toNat % w)
def shrU {w : Nat} (a b : BitVec w) : BitVec w := a >>> (b.toNat % w)
def shrS {w : Nat} (a b : BitVec w) : BitVec w := a.sshiftRight (b.toNat % w)

/-- The signed sum clamped to the type's range (R285/14). -/
def addSat {w : Nat} (a b : BitVec w) : BitVec w :=
  let x := a.toInt + b.toInt
  BitVec.ofInt w (max (-(2 ^ (w - 1) : Nat)) (min ((2 ^ (w - 1) : Nat) - 1) x))

/-- Quotient and remainder truncated toward zero; a zero divisor gives all ones and the dividend (R269/13, R286/14). -/
def divS {w : Nat} (a b : BitVec w) : BitVec w := if b = 0 then BitVec.allOnes w else BitVec.ofInt w (a.toInt.tdiv b.toInt)
def remS {w : Nat} (a b : BitVec w) : BitVec w := if b = 0 then a else BitVec.ofInt w (a.toInt.tmod b.toInt)
def divU {w : Nat} (a b : BitVec w) : BitVec w := if b = 0 then BitVec.allOnes w else BitVec.ofNat w (a.toNat / b.toNat)
def remU {w : Nat} (a b : BitVec w) : BitVec w := if b = 0 then a else BitVec.ofNat w (a.toNat % b.toNat)

/-- The number of 1 bits. -/
def popc {w : Nat} (a : BitVec w) : BitVec w := BitVec.ofNat w ((List.range w).countP fun i => a.getLsbD i)

/-- Leading zero bits; w when a is 0. -/
def clzV {w : Nat} (a : BitVec w) : BitVec w :=
  BitVec.ofNat w (if a = 0 then w else w - 1 - Nat.log2 a.toNat)

/-- Trailing zero bits; w when a is 0. -/
def ctzV {w : Nat} (a : BitVec w) : BitVec w :=
  BitVec.ofNat w (((List.range w).find? fun i => a.getLsbD i).getD w)

/-- Bit i moved to bit w − 1 − i. -/
def brevV {w : Nat} (a : BitVec w) : BitVec w :=
  BitVec.ofNat w ((List.range w).foldl (fun n i => 2 * n + (if a.getLsbD i then 1 else 0)) 0)

/-- The absolute value mod 2^w. -/
def absV {w : Nat} (a : BitVec w) : BitVec w := if a.msb then -a else a

/-- 1 when a comparison holds, 0 otherwise. -/
def flag64 (b : Bool) : Dword := if b then 1 else 0

end Sys2Proof.Machine
end

