-- ==== Sys2Proof/Machine/Records.lean ====
section
/-! DEFINITION. Phase and task records, and the record area of a field (R52, R55, R56/02, R123/05, R146/06, R154, R160/07). -/

namespace Sys2Proof.Machine

/-- Lanes of a sheaf waiting at an instruction of R229. -/
def Sheaf.waitingAt (h : Sheaf) : Mask := waitMask (h.waits.filter fun w => w.kind.holds)

/-- A trap frame's four registers. -/
def TrapRegs.bytes (r : TrapRegs) : List Byte :=
  bytesOfNat 8 r.tcause.toNat ++ bytesOfNat 8 r.taddr.toNat ++ bytesOfNat 8 r.tlanes.toNat ++ bytesOfNat 8 r.tpc.toNat

/-- One 8-byte value a lane. -/
def Sheaf.perLane (h : Sheaf) (f : Lane → Nat) : List Byte := (List.range 64).flatMap fun l => bytesOfNat 8 (f (h.lane l))

/-- A value of each loop level of each lane. -/
def Sheaf.perLevel (h : Sheaf) (f : LoopReg → List Byte) : List Byte := (List.range 64).flatMap fun l => (h.lane l).loops.flatMap f

/-- A team slot's two bytes. -/
def State.slotBytes (s : State) (t : Option Nat) : List Byte :=
  match t.bind s.team? with
  | some t => bytesOfNat 2 (2 ^ 15 + t.number % 256)
  | none => [0, 0]

/-- A launch's index in its image (R146/06, R160/07), which nothing gives the device: a free value for each descriptor (log 27). -/
def Launch.imageIndex (l : Launch) : Nat := (Config.launchIndex l.ctx l.descAddr.toNat).toNat

/-- What both forms share, up to the loop bounds (R160/07). -/
def State.recordHead (s : State) (h : Sheaf) (form carry : Nat) : Memory :=
  let m := Memory.write [] 0 (bytesOfNat 2 form)
  let m := m.write 4 (bytesOfNat 4 (s.launchOf h).imageIndex ++ bytesOfNat 4 h.number)
  let m := m.write 0xC (h.slots.flatMap s.slotBytes)
  let m := m.write 0x14 (bytesOfNat 2 h.wb ++ bytesOfNat 2 h.rev ++ bytesOfNat 8 h.ctrl.toNat)
  let m := m.write 0x20 (bytesOfNat 1 h.flags.bits.toNat ++ bytesOfNat 1 carry)
  let m := m.write 0x26 (bytesOfNat 2 h.forkSeq.toNat ++ bytesOfNat 8 h.exited.toNat)
  let m := h.p.foldl (fun m c => m.write (0x40 + 8 * c.1) (bytesOfNat 8 c.2.toNat)) m
  let m := m.write 0x80 (h.perLane fun ln => ln.pc.toNat)
  let m := m.write 0x280 (h.perLevel fun r => bytesOfNat 4 r.count.toNat)
  m.write 0x580 (h.perLevel fun r => bytesOfNat 8 r.start.toNat ++ bytesOfNat 8 r.stop.toNat)

/-- A task record (R160/07): the 256 KiB as a memory, offset 0 up. -/
def State.taskRecord (s : State) (h : Sheaf) : Memory :=
  let m := s.recordHead h 2 0
  let m := m.write 0x22 (bytesOfNat 1 h.tl)
  let m := m.write 0x30 (bytesOfNat 8 h.yielded.toNat ++ bytesOfNat 8 h.waitingAt.toNat)
  let m := h.s.foldl (fun m c => m.write (0x1180 + 8 * c.1) (bytesOfNat 8 c.2.toNat)) m
  let m := if 1 ≤ h.tl then (m.write 0x1480 h.trap.bytes).write 0x1500 (h.perLane fun ln => ln.held.toNat) else m
  let m := if 2 ≤ h.tl then (m.write 0x14A0 h.outer.bytes).write 0x1700 (h.perLane fun ln => ln.outer.toNat) else m
  let m := if h.noticeOut then m.write 0x1900 (bytesOfNat 8 h.nleft.toNat) else m
  let m := h.v.foldl (fun m c => m.write (0x2000 + 4 * c.1) (bytesOfNat 4 c.2.toNat)) m
  h.slice.foldl (fun m c => m.set (0x22000 + c.1) c.2) m

/-- The specifiers that a mask of a carry set names, ascending. -/
def maskBits (m n : Nat) : List Nat := (List.range n).filter fun k => m.testBit k

/-- A phase record (R52/02, R160/07), 16 KiB: the carried scalars in ascending order, the carried vector registers in ascending
specifier order; `vec` and `sca` are the masks of the carry set. -/
def State.phaseRecord (s : State) (h : Sheaf) (carry vec sca : Nat) : Memory :=
  let m := s.recordHead h 1 carry
  let m := m.write 0x1180 ((maskBits sca 96).flatMap fun k => bytesOfNat 8 (h.sget k).toNat)
  m.write 0x2000 ((maskBits vec 128).flatMap fun k => h.regBytes (h.wb + k))

/-- The 4 KiB units of a record (R160/07): 16 KiB for a phase, 256 KiB for a task. -/
def Record.pages (r : Record) : Nat := if r.bytes.get 0 = 1 then 4 else 64

/-- Is a place of a record area free for some units? -/
def recordFree (rs : List Record) (page n : Nat) : Bool :=
  rs.all fun r => decide (page + n ≤ r.page) || decide (r.page + r.pages ≤ page)

/-- The lowest free place for some units (log 72). -/
def recordPlace (rs : List Record) (n : Nat) : Nat :=
  ((0 :: rs.map fun r => r.page + r.pages).filter fun p => recordFree rs p n).foldl min
    (rs.foldl (fun m r => max m (r.page + r.pages)) 0)

/-- A record is written in a field's record area (R52, R55, R56/02). -/
def State.putRecord (s : State) (field sheaf pages : Nat) (bytes : Memory) : State :=
  s.modField field fun f => { f with records := f.records ++ [⟨sheaf, recordPlace f.records pages, bytes⟩] }

/-- A record is used up: its sheaf is restored, or ends. -/
def State.dropRecord (s : State) (sheaf : Nat) : State :=
  s.mapFields fun f => { f with records := f.records.filter fun r => !(r.sheaf == sheaf) }

/-- Where a sheaf's record lies in a field's record area, in 4 KiB units. -/
def State.recordPage (s : State) (field sheaf : Nat) : Nat :=
  (((s.field field).records.find? fun r => r.sheaf == sheaf).map fun r => r.page).getD 0

/-- The 16 bytes of a fork deque entry (R146/06): entry PC, carry set index, revision, launch index and parent's number, record. -/
def State.dequeEntry (s : State) (core : Nat) (h : Sheaf) : List Byte :=
  bytesOfNat 7 (h.lane (lowestLane h.live)).pc.toNat ++ bytesOfNat 1 h.carrySet ++ bytesOfNat 2 h.rev ++
    bytesOfNat 2 (s.launchOf h).imageIndex ++ bytesOfNat 1 h.number ++ bytesOfNat 3 (s.recordPage (fieldOfCore core) h.id)

end Sys2Proof.Machine
end

