-- ==== Sys2Proof/Machine/Squeeze.lean ====
section
/-! DEFINITION. Scratch pages and the squeeze of a context on a core (R118, R122, R135, R136/05, R237 to R243/11). -/

namespace Sys2Proof.Machine

/-- The sheaves of a context resident on a core. -/
def State.residents (s : State) (core ctx : Nat) : List Sheaf :=
  s.sheaves.filter fun h => h.core == core && h.ctx == ctx && h.place == .resident

/-- Whole pages of some bytes. -/
def pagesOf (bytes : Nat) : Nat := (bytes + 4095) / 4096

/-- The scratch pages of a team that lie on a core (R118, R122/05): all of a core-scope team's, the core's share of a
cluster-scope team's, by their number within the team's scratch. -/
def Team.pagesOn (t : Team) (core : Nat) : List Nat :=
  match t.scope with
  | 0 => if t.placed && t.core == core then List.range (pagesOf t.scratch) else []
  | 1 =>
    if t.placed && clusterOfCore t.core == clusterOfCore core then
      (List.range ((t.scratch + 32767) / 32768 * 8)).filter fun p => p % 8 == core % 8
    else []
  | _ => []

/-- Is a copy or matrix command still writing to, or reading, the scratch of a team (R51/02, R245/11, R346/17)? -/
def State.teamBusy (s : State) (id : Nat) : Bool :=
  (s.jobs.any fun j => decide (j.engine ≤ 3) && (j.slots.any fun x => x == some id)) ||
  (s.cores.any fun c => c.2.fifo.any fun m =>
    (match m.src with | some r => r.team == id | none => false) || (match m.dst with | some r => r.team == id | none => false))

/-- A team's scratch stays allocated until it has ended and nothing uses it (R51/02, R245/11), or its context is parked (R246/11). -/
def State.teamHolds (s : State) (t : Team) : Bool := !(s.ctx t.ctx).parked && (!t.ended || s.teamBusy t.id)

/-- The unpinned pages of a context on a core in the order they leave (R135/05). -/
def State.unpinned (s : State) (core ctx : Nat) : List PageRef :=
  let hs := sortBy (s.residents core ctx) fun a b => decide (b.slot ≤ a.slot)
  let slices := hs.flatMap fun h =>
    ((List.range (pagesOf (64 * (s.launchOf h).slicesSize))).reverse).map fun p => PageRef.slice h.id p
  let ts := sortBy (s.teams.filter fun t => t.ctx == ctx && !t.ended) fun a b => decide (b.number ≤ a.number)
  let teams := ts.flatMap fun t =>
    (((t.pagesOn core).filter fun p => decide (t.floor ≤ p * 4096)).reverse).map fun p => PageRef.team t.id p
  slices ++ teams

/-- Is a page relocated to barn? -/
def State.relocated (s : State) (p : PageRef) : Bool :=
  match p with
  | .slice h n => ((s.sheaf? h).map fun h => h.sliceReloc.contains n).getD false
  | .team t n => ((s.team? t).map fun t => t.reloc.contains n).getD false

/-- Mark a page relocated or returned; its contents never change (R136/05). -/
def State.markPage (s : State) (p : PageRef) (away : Bool) : State :=
  match p with
  | .slice h n => s.modSheaf h fun h =>
      { h with sliceReloc := if away then n :: h.sliceReloc else h.sliceReloc.filter fun x => !(x == n) }
  | .team t n => s.modTeam t fun t =>
      { t with reloc := if away then n :: t.reloc else t.reloc.filter fun x => !(x == n) }

/-- The pages to relocate at a level (R135/05). -/
def State.pagesOut (s : State) (core ctx level : Nat) : List PageRef :=
  let u := s.unpinned core ctx
  let k := u.length - u.length * levelPct level / 100
  let away := (u.filter s.relocated).length
  (u.filter fun p => !s.relocated p).take (k - away)

/-- The pages to bring back at a level, in the reverse order (R135/05). -/
def State.pagesBack (s : State) (core ctx level : Nat) : List PageRef :=
  let u := s.unpinned core ctx
  let k := u.length - u.length * levelPct level / 100
  let away := u.filter s.relocated
  away.reverse.take (away.length - k)

/-- The registers of a context on a core beyond a level's grant, the least recently accessed first (R243/11). -/
def State.beyond (s : State) (core ctx level : Nat) : List (Nat × Nat) :=
  s.crowded core ctx level ((((s.core core).res? ctx).map fun r => r.hot).getD [])

/-- The level a squeeze aims at: 0 for a park (R246/11). -/
def Res.aim (r : Res) : Nat := if r.parking then 0 else r.goal

/-- A squeeze begins (R243/11): it stops the matrix commands on the quadrants that its level does not grant. A squeeze that still runs
goes on to the lower level. The sheaves whose handlers run on past a forced squeeze stay affected (R242/11). -/
def State.beginSqueeze (s : State) (core ctx : Nat) : State :=
  s.modRes core ctx fun r =>
    if r.aim < r.level then
      { r with squeezing := true, target := r.aim, stopped := false, noticed := false, forced := false, moves := [] }
    else { r with noticed := false, forced := false }

/-- The pages that still come back while a squeeze has its own to move: those that its level leaves room for (R135/05). -/
def State.stillBack (s : State) (core : Nat) (r : Res) : List PageRef :=
  (r.returns.filter s.relocated).take (s.pagesBack core r.ctx r.target).length

/-- The commands of a squeeze have stopped (R243/11): its sheaves fold, its registers spill, then its pages move. -/
def State.squeezeStopped (s : State) (core ctx : Nat) : State :=
  match (s.core core).res? ctx with
  | none => s
  | some r =>
    let s := s.modRes core ctx fun r => { r with stopped := true }
    let s := s.spill (s.beyond core ctx r.target)
    s.modRes core ctx fun r => { r with moves := s.pagesOut core ctx r.target, returns := s.stillBack core r }

/-- The squeeze begins once every affected sheaf has returned (R242/11). -/
def State.squeezeIfReturned (s : State) (core ctx : Nat) : State :=
  match (s.core core).res? ctx with
  | none => s
  | some r => if r.noticed && r.affected.isEmpty then s.beginSqueeze core ctx else s

/-- A sheaf has returned from its NOTICE, or counts as having done so (R233, R242/11). -/
def State.noticeReturned (s : State) (id : Nat) : State :=
  match s.sheaf? id with
  | none => s
  | some h =>
    let s := s.modSheaf id fun h => { h with noticeOut := false, noticePending := false, nleft := 0 }
    let s := s.modRes h.core h.ctx fun r => { r with affected := r.affected.filter fun x => !(x == id) }
    s.squeezeIfReturned h.core h.ctx

/-- Pages that a context has come to hold at a lowered level are relocated as at that level (R135/05): no squeeze is running. -/
def State.settleLevel (s : State) (core ctx : Nat) : State :=
  match (s.core core).res? ctx with
  | none => s
  | some r =>
    if r.squeezing then s else (s.pagesOut core ctx r.level).foldl (fun (s : State) p => s.markPage p true) s

/-- Every context's pages on every core are. -/
def State.settleAll (s : State) : State :=
  s.cores.foldl (fun (s : State) c => c.2.res.foldl (fun (s : State) r => s.settleLevel c.1 r.ctx) s) s

/-- The pages that squeezes of a context still have to move are listed anew: pages have come, or have been given up (R135/05, R342/16). -/
def State.relist (s : State) (ctx : Nat) : State :=
  s.cores.foldl (fun (s : State) c => s.modRes c.1 ctx fun r =>
    if r.squeezing && r.stopped then { r with moves := s.pagesOut c.1 ctx r.target, returns := s.stillBack c.1 r } else r) s

/-- Squeezes whose affected sheaves have all returned or ended begin (R68/02, R242/11). -/
def State.squeezeReturned (s : State) : State :=
  s.cores.foldl (fun (s : State) c => c.2.res.foldl (fun (s : State) r =>
    if r.noticeAt.isNone && !r.forced then s.squeezeIfReturned c.1 r.ctx else s) s) s

/-! ### Folding (R69/02, R238, R239/11) -/

/-- The group that shares an issue slot with a sheaf; none where it has a slot of its own (R239/11): at level 1 its floor
unit, at levels 2 to 6 its sheaf slot mod G. -/
def State.foldGroup (s : State) (h : Sheaf) : Option Nat :=
  let lvl := (s.resOf h).granted
  let g := levelSlots lvl (s.floorUnits h.core h.ctx)
  if lvl = 7 ∨ (s.residents h.core h.ctx).length ≤ g then none
  else if lvl ≤ 1 then some (s.unitOf h)
  else some (h.slot % g)

/-- The sheaf slots of a group, ascending. -/
def State.groupSlots (s : State) (core ctx group : Nat) : List Nat :=
  sortBy (((s.residents core ctx).filter fun h => s.foldGroup h == some group).map fun h => h.slot) fun a b => decide (a ≤ b)

/-- The turn of a group passes to its next sheaf, round-robin in ascending sheaf slot (R239/11), which can issue from a cycle on. -/
def State.nextTurn (s : State) (core ctx group since : Nat) : State :=
  let slots := s.groupSlots core ctx group
  s.modRes core ctx fun r =>
    let cur := (cget (0, 0) r.turns group).1
    let next := ((slots.filter fun k => decide (cur < k)).head?).getD (slots.headD 0)
    { r with turns := cset (0, 0) r.turns group (next, since) }

/-- Does a sheaf hold its issue slot (R239/11)? -/
def State.hasTurn (s : State) (h : Sheaf) : Bool :=
  match s.foldGroup h with
  | none => true
  | some g => (cget (0, 0) (s.resOf h).turns g).1 == h.slot

/-- The turns of a context on a core at the end of a cycle (R239/11): a group that begins to fold starts with its lowest sheaf slot; one
whose holder has gone passes to the next; one that folds no more has none. -/
def State.turnsNow (s : State) (core : Nat) (r : Res) : Cells (Nat × Nat) :=
  (((s.residents core r.ctx).filterMap s.foldGroup).eraseDups).foldl (fun t g =>
    let slots := s.groupSlots core r.ctx g
    let cur := (r.turns.find? fun x => x.1 == g).map fun x => x.2
    let first (ok : Nat → Bool) : Nat × Nat := (((slots.filter ok).head?).getD (slots.headD 0), s.now + 1)
    cset (0, 0) t g (match cur with
      | none => first fun _ => true
      | some x => if slots.contains x.1 then x else first fun k => decide (x.1 < k))) []

/-- Every context's turns. -/
def State.settleTurns (s : State) : State :=
  s.cores.foldl (fun (s : State) c => c.2.res.foldl (fun (s : State) r =>
    s.modRes c.1 r.ctx fun q => { q with turns := s.turnsNow c.1 q }) s) s

/-- A sheaf that executes `yield` passes its turn (R239/11): the next one issues in the cycle after. -/
def State.yieldTurn (s : State) (h : Sheaf) : State :=
  match s.foldGroup h with
  | none => s
  | some g => if s.hasTurn h then s.nextTurn h.core h.ctx g (s.now + 1) else s

/-- The pipes of a context's issue slots, from how many of them each pipe holds (R238/11): one of each pipe in turn. -/
def slotPipes (per : List Nat) : List Nat :=
  (List.range 8).flatMap fun k => (List.range 4).filter fun p => decide (k < per.getD p 0)

/-- A core spreads `g` issue slots over its pipes, floor(g ÷ 4) or ceil(g ÷ 4) on each (R238/11): the larger shares go to the pipes
that hold the fewest slots, the lowest of equals (log 73). `held` says how many each pipe holds; the answer, how many it gets. -/
def shareSlots (held : List Nat) (g : Nat) : List Nat :=
  let order := sortBy (List.range 4) fun a b =>
    decide (held.getD a 0 < held.getD b 0) || (held.getD a 0 == held.getD b 0 && decide (a ≤ b))
  (List.range 4).map fun p => g / 4 + if decide (order.idxOf p < g % 4) then 1 else 0

/-- The issue slots that each context of a core holds on each pipe, in the order the contexts entered. -/
def State.pipeShares (s : State) (core : Nat) : List Res → List Nat → List (Nat × List Nat)
  | [], _ => []
  | r :: rs, held =>
    let mine := shareSlots held (levelSlots r.granted (s.floorUnits core r.ctx))
    (r.ctx, mine) :: State.pipeShares s core rs ((List.range 4).map fun p => held.getD p 0 + mine.getD p 0)

/-- Which of its context's issue slots serves a sheaf (R238, R239/11): its group's; else its place among the residents. -/
def State.slotIndex (s : State) (h : Sheaf) : Nat :=
  let hs := s.residents h.core h.ctx
  match s.foldGroup h with
  | some g =>
    if (s.resOf h).granted ≤ 1 then
      (sortBy (hs.map s.unitOf).eraseDups fun a b => decide (a ≤ b)).idxOf g
    else g
  | none => (sortBy (hs.map fun k => k.slot) fun a b => decide (a ≤ b)).idxOf h.slot

/-- The pipe a sheaf issues on (R238/11): at level 7 issue slot k serves sheaf slot k, on pipe k mod 4; else the pipe of its issue slot. -/
def State.pipeOf (s : State) (h : Sheaf) : Nat :=
  if (s.resOf h).granted = 7 then h.slot % 4
  else
    let per := ((s.pipeShares h.core (s.core h.core).res [0, 0, 0, 0]).lookup h.ctx).getD []
    (slotPipes per).getD (s.slotIndex h) (h.slot % 4)

/-- Are a context's cores of a field frozen, since planes of theirs found its save buffer full (R247/11)? -/
def State.planesFreeze (s : State) (ctx field : Nat) : Bool :=
  (s.ctx ctx).planeWait.any fun x => !x.2.2 && fieldOfCore x.1 == field

/-- May a sheaf issue (R238, R239, R247, R248/11)? -/
def State.mayIssue (s : State) (h : Sheaf) : Bool :=
  h.place == .resident && !((s.resOf h).granted == 0) && !(s.core h.core).fenced && !(s.ctx h.ctx).frozen && !s.planesFreeze h.ctx (fieldOfCore h.core) && s.hasTurn h

end Sys2Proof.Machine
end

