-- ==== Sys2Proof/Machine/Control.lean ====
section
/-! DEFINITION. Branches, calls, loops, nop, yield, exit and breakpoint (R276 to R282/13); the end of a sheaf. -/

namespace Sys2Proof.Machine

/-- A branch target PC + 4 × off18, exact (R255/12). -/
def branchTarget (pc : Vaddr) (o : BitVec 18) : Int := (pc.toNat : Int) + 4 * o.toInt

/-- Does a target lie in the 56-bit address space (R255/12)? -/
def inSpace (t : Int) : Bool := decide (0 ≤ t) && decide (t < (2 ^ 56 : Nat))

/-- A branch of the active lanes (R276/13): SPACE in every active lane when the target lies outside, taken or not. -/
def State.branch (s : State) (o : BitVec 18) (taken : Nat → Bool) : State :=
  let t := branchTarget s.issuePc o
  if inSpace t then
    s.modMe fun h =>
      { (lanesOf s.active).foldl (fun h l => h.modLane l fun ln =>
          if taken l then ln.jump s.issuePc (BitVec.ofInt 56 t) s.solo else ln.pass s.issuePc s.solo) h with
        watchSkip := h.skipsLeft s.active s.issuePc }
  else s.trapAll .space 0 0

/-- A sheaf's jobs that have not completed (R218/10): a completed one has left its queue. -/
def State.jobsOf (s : State) (id : Nat) : List Job := s.jobs.filter fun j => j.poster == some id

/-- A sheaf ends once it has no child left to join and no job of its own open (R38/02, R59/02, R218/10, R282/13);
an inline child's parent is restored and its handle written (R56/02, R332/16). -/
def State.endIfDone (s : State) (id : Nat) : State :=
  match s.sheaf? id with
  | none => s
  | some h =>
    if h.live = 0 ∧ h.children.isEmpty ∧ (s.jobsOf id).isEmpty then
      let s := s.endSheaf id
      match h.inlineChild, h.parent with
      | true, some p =>
        (s.dropRecord p).modSheaf p fun q =>
          if q.place = .suspended then
            let ws := q.waits.filter fun w => match w.kind with | .inline c _ _ => c == id | _ => false
            let q := { q.resumed (s.launchOf q).budget s.now with
              core := h.core, slot := h.slot, waits := q.waits.filter fun w => !(ws.contains w) }
            ws.foldl (fun q w =>
              match w.kind with
              | .inline _ dest handle => (q.sset dest handle).pass (lanesOf w.lanes) w.pc false
              | _ => q) q
          else q
      | _, _ => s
    else s.modSheaf id fun h => { h with ending := decide (h.live = 0) }

/-- The active lanes exit (R282/13): they keep their PCs, which a handler reads too (R97/04); a sheaf left without a lane begins to end. -/
def State.exitLanes (s : State) : State :=
  let s := s.modMe fun h =>
    { h with
      exited := h.exited ||| s.active
      favoured := h.favoured &&& ~~~s.active
      yielded := h.yielded &&& ~~~s.active
      lanes := h.lanes.mapIdx fun l (ln : Lane) => if s.active.getLsbD l then { ln with held := ln.pc, outer := ln.pc } else ln
      pend := h.pend.map fun p : Pending => { p with windows := [] } }
  match s.cur with
  | some i => if s.me.live = 0 then s.endIfDone i.sheaf else s
  | none => s

/-- `nop` (R281/13). No operation beyond advancing the PC. -/
def execNop (s : State) : Out :=
  .next s.retire

/-- `exit` (R282/13). ILLOP at trap level 1 or 2; drains; the active lanes exit. -/
def execExit (s : State) : Out :=
  if s.me.tl ≠ 0 then .next (s.trapAll .illop 0 0)
  else
    match s.drain? with
    | some t => .next t
    | none => .next s.exitLanes

/-- `yield` (R281/13). With PROG = 1 the lanes are yielded and leave the favoured set (R40/02); under broadcast the greedy run ends (R45/02); a folded sheaf passes its turn (R239/11). -/
def execYield (s : State) : Out :=
  let s := s.retire.yieldTurn s.me
  let s := if s.me.prog then s.modMe fun h =>
      { h with
        yielded := h.yielded ||| s.active
        favoured := h.favoured &&& ~~~s.active
        favouredOld := h.favouredOld.map fun m => m &&& ~~~s.active } else s
  .next (match s.cur with
    | some i =>
      if i.solo then s
      else s.modCore i.core fun c => { c with pipes := modAt (fun p : Pipe => { p with last := none }) c.pipes i.pipe }
    | none => s)

/-- `ret` (R278/13). No lane moves when one traps SPACE; never a backward branch. -/
def execRet (a : Nat) (s : State) : Out :=
  let t (l : Nat) : Dword := s.me.vget64 l a
  let bad := (lanesOf s.active).filter fun l => !((t l).extractLsb' 56 8 == 0)
  match s.trapLanes (bad.map fun l => ⟨l, .space, 0⟩) with
  | some s => .next s
  | none => .next (s.modMe fun h =>
      { (lanesOf s.active).foldl (fun h l => h.modLane l fun ln => { ln with pc := (t l).setWidth 56 &&& ~~~3 }) h with
        watchSkip := h.skipsLeft s.active s.issuePc })

/-- `brk` (R281/13). Traps BREAK sheaf-wide. -/
def execBrk (s : State) : Out :=
  .next (s.trapAll .brk 0 0)

/-- `bra` (R276/13). Unconditional PC-relative branch. -/
def execBra (o : BitVec 18) (s : State) : Out :=
  .next (s.branch o fun _ => true)

/-- `bnz` (R276/13). Branch when a scalar is nonzero. -/
def execBnz (c : Nat) (o : BitVec 18) (s : State) : Out :=
  let x := s.src c
  .next (s.branch o fun _ => !(x == 0))

/-- `bz` (R276/13). Branch when a scalar is zero. -/
def execBz (c : Nat) (o : BitVec 18) (s : State) : Out :=
  let x := s.src c
  .next (s.branch o fun _ => x == 0)

/-- `bnzv` (R276/13). Per-lane branch when a vector register is nonzero. -/
def execBnzv (c : Nat) (o : BitVec 18) (s : State) : Out :=
  .next (s.branch o fun l => !(s.me.vget l c == 0))

/-- `bzv` (R276/13). Per-lane branch when a vector register is zero. -/
def execBzv (c : Nat) (o : BitVec 18) (s : State) : Out :=
  .next (s.branch o fun l => s.me.vget l c == 0)

/-- `call` (R277/13). Writes PC+4 to a 64-bit vector pair and branches. -/
def execCall (c : Nat) (o : BitVec 18) (s : State) : Out :=
  if inSpace (branchTarget s.issuePc o) then
    .next ((s.vwrite64 c fun _ => s.issuePc.setWidth 64 + 4).branch o fun _ => true)
  else .next (s.trapAll .space 0 0)

/-- `loop` (R279/13). The scalar count of a per-lane register is each lane its own; `n` is the body length minus 1. -/
def execLoop (d : Nat) (v : Bool) (k : Nat) (n : Nat) (s : State) : Out :=
  let count (l : Nat) : Word := if v then s.me.vget l d else (s.readS s.me l d).setWidth 32
  let pc := s.issuePc
  let len := BitVec.ofNat 56 (4 * (n + 1))
  .next (s.modMe fun h =>
    { (lanesOf s.active).foldl (fun h l => h.modLane l fun ln =>
        if count l = 0 then
          { ln with loops := modAt (fun r : LoopReg => { r with count := 0 }) ln.loops k, pc := pc + 4 + len }
        else
          ({ ln with loops := modAt (fun _ => ⟨count l, pc + 4, pc + len⟩) ln.loops k } : Lane).pass pc s.solo) h with
      watchSkip := h.skipsLeft s.active s.issuePc })

end Sys2Proof.Machine
end

