-- ==== Sys2Proof/Machine/Cards.lean ====
section
/-! DEFINITION. Job cards: their layout and checks (R163, R164/07, R320/15, R366, R369/18), engine queues (R147/06), engine accesses, completion signals and failure (R177, R178, R180, R183/08, R219, R220/10, R322/15). -/

namespace Sys2Proof.Machine

/-! ### Layout and checks -/

/-- A footprint: space code, address, length, whether it is written, and, in `.sp` and `.cl`, the team whose scratch its slot
names, the address being an offset in it (R163, R164/07). -/
structure Footprint where
  space : Nat
  addr : Nat
  len : Nat
  write : Bool
  team : Option Nat
deriving DecidableEq, Repr

/-- The size of a team slot's window in a space: 1 MiB of `.sp`, 2 MiB of `.cl` (R116/05). -/
def slotWindow (space : Nat) : Nat := if space = 1 then 2 ^ 20 else 2 ^ 21

/-- A range of a slotted space, cut at the windows of its slots: what runs past one lies in the next slot's team (R116/05, R220/10). -/
def slotPieces (space : Nat) (write : Bool) (slots : List (Option Nat)) : Nat → Nat → Nat → List Footprint
  | 0, _, _ => []
  | fuel + 1, x, n =>
    if n = 0 then []
    else
      let w := slotWindow space
      let k := min n (w - x % w)
      ⟨space, x % w, k, write, slots.getD (x / w) none⟩ :: slotPieces space write slots fuel (x + k) (n - k)

/-- The used footprints of a card, reads first, their slots resolved (R163/07). -/
def cardFootprints (c : List Byte) (slots : List (Option Nat)) : List Footprint :=
  (List.range 8).flatMap fun k =>
    let a := fieldOf c (32 + 16 * k) 8
    let n := fieldOf c (40 + 16 * k) 8
    let x := a % 2 ^ 56
    if a / 2 ^ 60 = 0 then []
    else if a / 2 ^ 60 ≤ 2 then slotPieces (a / 2 ^ 60) (decide (4 ≤ k)) slots 5 x n
    else [⟨a / 2 ^ 60, x, n, decide (4 ≤ k), none⟩]

/-- Is footprint k of a card legal (R163, R164/07)? -/
def footprintOk (c : List Byte) (k : Nat) : Bool :=
  let a := fieldOf c (32 + 16 * k) 8
  let n := fieldOf c (40 + 16 * k) 8
  if a / 2 ^ 60 = 0 then a == 0 && n == 0
  else decide (a / 2 ^ 60 ≤ 4) && a / 2 ^ 56 % 16 == 0 && !(n == 0)

/-- Are the bytes of a range all 0? -/
def zeroBytes (c : List Byte) (off len : Nat) : Bool := fieldOf c off len == 0

/-- The fields of a card. -/
def cardEngine (c : List Byte) : Nat := fieldOf c 0 1
def cardKind (c : List Byte) : Nat := fieldOf c 2 1
def cardScope (c : List Byte) : Nat := fieldOf c 3 1
def cardTarget (c : List Byte) : Nat := fieldOf c 4 1
def cardIdempotent (c : List Byte) : Bool := fieldOf c 6 1 == 1

/-- The completion kinds an engine takes (R163/07, R365/18). -/
def kindOk (engine kind : Nat) : Bool :=
  match engine with
  | 1 => decide (kind ≤ 3)
  | 2 => kind == 0 || kind == 3
  | _ => kind == 0 || kind == 2 || kind == 3

/-- The checks of R164/07 on a card. -/
def cardCommonOk (c : List Byte) : Bool :=
  let e := cardEngine c
  let k := cardKind c
  decide (1 ≤ e) && decide (e ≤ 3) && zeroBytes c 1 1 && kindOk e k && decide (cardScope c ≤ 6) &&
    decide (cardTarget c ≤ (match k with | 0 => 7 | 1 => 7 | 2 => 3 | _ => 0)) && decide (fieldOf c 6 1 ≤ 1) && zeroBytes c 7 25 &&
    (List.range 8).all (footprintOk c)

/-- The tile of a copy card (R320/15). -/
structure Tile where
  src : Nat
  dst : Nat
  rank : Nat
  log : Nat
  base : Nat
  ext : List Nat
  sstr : List Int
  dstr : List Int
deriving DecidableEq, Repr

/-- A 4-byte signed field. -/
def signed4 (c : List Byte) (off : Nat) : Int := (BitVec.ofNat 32 (fieldOf c off 4)).toInt

/-- Read a copy card's operands (R320/15). -/
def tileOf (c : List Byte) : Tile :=
  { src := fieldOf c 160 8, dst := fieldOf c 168 8, rank := fieldOf c 176 1, log := fieldOf c 177 1, base := fieldOf c 178 1
    ext := (List.range 7).map fun k => fieldOf c (180 + 4 * k) 4
    sstr := (List.range 6).map fun k => signed4 c (208 + 4 * k)
    dstr := (List.range 6).map fun k => signed4 c (232 + 4 * k) }

/-- The elements, bytes and chunks of a tile. -/
def Tile.elems (t : Tile) : Nat := (t.ext.take t.rank).foldl (fun n e => n * e) 1
def Tile.bytes (t : Tile) : Nat := t.elems * 2 ^ t.log
def Tile.chunks (t : Tile) : Nat := (t.bytes + 511) / 512

/-- The limits of R320/15 on a copy card, and R183/08 on its chunk bits. DESIGN CHOICE: bits [59:56] of its addresses, which R320 does not
name, must be 0 (log 99). -/
def tileOk (c : List Byte) (t : Tile) : Bool :=
  decide (1 ≤ t.rank) && decide (t.rank ≤ 7) && decide (t.log ≤ 4) && zeroBytes c 179 1 &&
    (cardKind c == 1 || t.base == 0) &&
    (List.range 7).all (fun k => if k < t.rank then decide (1 ≤ t.ext.getD k 0) else t.ext.getD k 0 == 0) &&
    (List.range 6).all (fun k =>
      let a := t.sstr.getD k 0
      let b := t.dstr.getD k 0
      if k + 1 < t.rank then a % (2 ^ t.log : Nat) == 0 && b % (2 ^ t.log : Nat) == 0 else a == 0 && b == 0) &&
    t.src % 2 ^ t.log == 0 && t.dst % 2 ^ t.log == 0 && decide (t.bytes ≤ 2 ^ 31) &&
    (let code (x : Nat) := x / 2 ^ 60
     decide (1 ≤ code t.src) && decide (code t.src ≤ 6) && decide (1 ≤ code t.dst) && decide (code t.dst ≤ 6) &&
     t.src / 2 ^ 56 % 16 == 0 && t.dst / 2 ^ 56 % 16 == 0) &&
    (!(cardKind c == 1) || decide (t.base + t.chunks ≤ 256))

/-- An operand address of a winnow or exchange card: a space code 1 to 4, aligned (R365/18). -/
def wordOk (x align : Nat) : Bool :=
  decide (1 ≤ x / 2 ^ 60) && decide (x / 2 ^ 60 ≤ 4) && x / 2 ^ 56 % 16 == 0 && x % 2 ^ 56 % align == 0

/-- The limits of R366/18 on a winnow card. -/
def winnowOk (c : List Byte) : Bool :=
  let a := fieldOf c 200 4
  let e := fieldOf c 204 4
  let k := fieldOf c 208 4
  let r := fieldOf c 212 4
  wordOk (fieldOf c 160 8) 4 && wordOk (fieldOf c 168 8) 4 && (fieldOf c 176 8 == 0 || wordOk (fieldOf c 176 8) 4) &&
    wordOk (fieldOf c 184 8) 4 && wordOk (fieldOf c 192 8) 4 && decide (a ≤ 2 ^ 24) && decide (1 ≤ e) && decide (e ≤ 65536) &&
    decide (k ≤ 2 ^ 24) && decide (r ≤ 65536) && r % 16 == 0 &&
    (r == 0 || (wordOk (fieldOf c 216 8) 16 && wordOk (fieldOf c 224 8) 16)) && zeroBytes c 232 24

/-- The limits of R369/18 on an exchange card. -/
def exchangeOk (c : List Byte) : Bool :=
  let g := fieldOf c 168 4
  let r := fieldOf c 172 4
  wordOk (fieldOf c 160 8) 4 && decide (1 ≤ g) && decide (g ≤ 8192) && r % 16 == 0 && decide (16 ≤ r) && decide (r ≤ 65536) &&
    wordOk (fieldOf c 176 8) 16 && wordOk (fieldOf c 184 8) 4 && wordOk (fieldOf c 192 8) 16 && decide (fieldOf c 200 4 ≤ 2 ^ 24) &&
    wordOk (fieldOf c 208 8) 4 && zeroBytes c 216 40

/-- The operand addresses of a card. -/
def cardWords (c : List Byte) : List Nat :=
  match cardEngine c with
  | 1 => [fieldOf c 160 8, fieldOf c 168 8]
  | 2 => [fieldOf c 160 8, fieldOf c 168 8, fieldOf c 176 8, fieldOf c 184 8, fieldOf c 192 8] ++
      (if fieldOf c 212 4 = 0 then [] else [fieldOf c 216 8, fieldOf c 224 8])
  | _ => [fieldOf c 160 8, fieldOf c 176 8, fieldOf c 184 8, fieldOf c 192 8, fieldOf c 208 8]

/-- The team slot a `.sp` or `.cl` operand names. -/
def wordSlot (x : Nat) : Option Nat :=
  match x / 2 ^ 60 with
  | 1 => some (x % 2 ^ 56 / 2 ^ 20)
  | 2 => some (x % 2 ^ 56 / 2 ^ 21)
  | _ => none

/-- Does every slot that a card's `.sp` and `.cl` operands name hold a team (R319/15 step 6)? -/
def slotsOk (c : List Byte) (slots : List (Option Nat)) : Bool :=
  (cardWords c).all fun x => match wordSlot x with | some k => (slots.getD k none).isSome | none => true

/-- The checks of a card's own bytes (R164/07, R320/15, R366, R369/18): those of a linked card and of a card of a type 0x02 command. An operand
of theirs whose slot holds no team makes the job's access fail (log 35). -/
def cardFormOk (c : List Byte) : Bool :=
  cardCommonOk c &&
    (match cardEngine c with
      | 1 => tileOk c (tileOf c)
      | 2 => winnowOk c
      | _ => exchangeOk c)

/-- Every check of a posted card but those on the poster (R319/15). -/
def cardOk (c : List Byte) (slots : List (Option Nat)) : Bool := cardFormOk c && slotsOk c slots

/-! ### Queues and order -/

/-- The entries of an engine's queue in a field, and a context's among them (R147/06). -/
def State.queueRoom (s : State) (field engine ctx : Nat) : Bool :=
  let q := s.jobs.filter fun j => j.field == field && j.engine == engine
  decide (q.length < 256) && decide ((q.filter fun j => j.ctx == ctx).length < 64)

/-- A job enters its queue (R147/06, R220/10). -/
def State.enqueue (s : State) (j : Job) : State :=
  let (id, s) := s.fresh
  { s with jobs := s.jobs ++ [{ j with id := id }] }

/-- The footprints of a job: its card's, or, for a merge, the whole of every used region (R221/10). -/
def State.footprints (s : State) (j : Job) : List Footprint :=
  if j.engine = 4 then
    ((s.ctx j.ctx).regionEntries.filter regionUsed).flatMap fun e =>
      [⟨4, regionBase e, 4096 * regionPages e, false, none⟩, ⟨4, regionBase e, 4096 * regionPages e, true, none⟩]
  else cardFootprints j.card j.slots

/-- Do two footprints overlap, one of them written (R164/07, R220/10)? Those of scratch do in one team's scratch. -/
def overlaps (a b : Footprint) : Bool :=
  a.space == b.space && decide (a.addr < b.addr + b.len) && decide (b.addr < a.addr + a.len) && (a.write || b.write) &&
    (decide (2 < a.space) || (a.team.isSome && a.team == b.team))

/-- Must job b wait for job a (R220/10)? -/
def State.jobsConflict (s : State) (a b : Job) : Bool :=
  a.ctx == b.ctx && a.field == b.field &&
    (s.footprints a).any fun x => (s.footprints b).any fun y => overlaps x y

/-- The jobs that stand before a job in footprint order. -/
def State.jobsBefore (s : State) (id : Nat) : List Job := s.jobs.takeWhile fun j => !(j.id == id)

/-! ### Engine accesses -/

/-- The party whose slots, revision and core a job's accesses use (R218/10, R320/15). -/
def State.jobParty (s : State) (j : Job) : Sheaf :=
  match j.poster.bind s.sheaf? with
  | some h => { h with rev := j.rev, core := j.core, slots := j.slots, ctx := j.ctx }
  | none => { id := s.nextId, launch := j.launch.getD s.nextId, rev := j.rev, core := j.core, slots := j.slots, ctx := j.ctx }

/-- The space of a code of R320/15. -/
def spaceOf : Nat → Option Space
  | 1 => some .sp
  | 2 => some .cl
  | 3 => some .bn
  | 4 => some .gl
  | 5 => some .ln
  | 6 => some .ac
  | _ => none

/-- Resolve an engine access of `n` bytes at offset `off` from an operand address. -/
def State.engineAt (s : State) (j : Job) (k : AccKind) (word : Nat) (off : Int) (n : Nat) : Except Cause Target × State :=
  let a : Int := (word % 2 ^ 56 : Nat) + off
  match spaceOf (word / 2 ^ 60) with
  | none => (.error .space, s)
  | some space =>
    if a < 0 ∨ (2 ^ 56 : Nat) ≤ a then (.error .space, s)
    else
      let lane := if space = .ln then a.toNat / 1024 else 0
      let addr := if space = .ln then a.toNat % 1024 else a.toNat
      if 64 ≤ lane ∨ (space = .ln ∧ j.poster = none) then (.error .space, s)
      else
        match s.resolve (s.jobParty j) k space (BitVec.ofNat 64 addr) n lane with
        | (.error c, s) => (.error c, s)
        | (.ok t, s) => (.ok t, s)

/-- An engine reads at the point of coherence. -/
def State.engineRead (s : State) (j : Job) (t : Target) (n : Nat) : List Byte × State :=
  match t with
  | .host (some va) hpa => s.glRead j.ctx j.rev va hpa n false
  | _ => s.readTarget (s.jobParty j) t n {}

/-- An engine writes at the point of coherence. -/
def State.engineWrite (s : State) (j : Job) (t : Target) (bs : List Byte) : State :=
  match t with
  | .host (some va) hpa => s.glWrite j.ctx j.rev va hpa bs false
  | _ => s.writeTarget (s.jobParty j) t bs false

/-- The `.gl` address a fault of an engine access is met at, and its cause. -/
abbrev EngineStop := Cause × Nat

/-- Read bytes from an operand address in pieces of `g` bytes (a divisor of the alignment). -/
def State.engineBytes (s : State) (j : Job) (word g : Nat) : Nat → Nat → Except EngineStop (List Byte) × State
  | 0, _ => (.ok [], s)
  | n + 1, off =>
    match s.engineAt j .load word off g with
    | (.error c, s) => (.error (c, word % 2 ^ 56 + off), s)
    | (.ok t, s) =>
      let (bs, s) := s.engineRead j t g
      match State.engineBytes s j word g n (off + g) with
      | (.error c, s) => (.error c, s)
      | (.ok rest, s) => (.ok (bs ++ rest), s)

/-- Check that pieces of `g` bytes at an operand address may be written; one that retains an ancestor in an overflow page that is not
mapped waits as an XLATE2 access does (R333/16). -/
def State.engineMayPut (s : State) (j : Job) (word g : Nat) : Nat → Nat → Option EngineStop
  | 0, _ => none
  | n + 1, off =>
    match (s.engineAt j .store word off g).1 with
    | .error c => some (c, word % 2 ^ 56 + off)
    | .ok (.host (some va) hpa) =>
      if s.retainWaits j.ctx j.rev va hpa then some (.xlate2, va) else State.engineMayPut (s.retained j.ctx j.rev va hpa) j word g n (off + g)
    | .ok _ => State.engineMayPut s j word g n (off + g)

/-- Write bytes at an operand address in pieces of `g` bytes; a piece whose checks fail is not written. -/
def State.enginePut (s : State) (j : Job) (word g : Nat) : List (List Byte) → Nat → State
  | [], _ => s
  | bs :: rest, off =>
    match s.engineAt j .store word off g with
    | (.error _, s) => State.enginePut s j word g rest (off + g)
    | (.ok t, s) => State.enginePut (s.engineWrite j t bs) j word g rest (off + g)

/-- Cut bytes into pieces. -/
def pieces (g : Nat) : Nat → List Byte → List (List Byte)
  | 0, _ => []
  | n + 1, bs => bs.take g :: pieces g n (bs.drop g)

/-- The n32 entries of bytes. -/
def words32 : Nat → List Byte → List Nat
  | 0, _ => []
  | n + 1, bs => natOfBytes (bs.take 4) :: words32 n (bs.drop 4)

/-! ### Completion signals and failure -/

/-- A token counter rises by 1, and remembers a job of cluster scope or wider (R180/08, R330/16). -/
def State.tokenInc (s : State) (core ctx tk : Nat) (wide : Bool) : State :=
  s.modRes core ctx fun r =>
    { r with
      bank := modAt (fun x => x + 1) r.bank tk
      wide := if wide then modAt (fun _ => true) r.wide tk else r.wide }

/-- How wide a job's completion scope reaches: a team's scope as far as the issuing team's own (R207/10, R163/07). -/
def State.jobReach (s : State) (j : Job) : Nat :=
  if j.scope = 1 then ((j.team.bind s.team?).map fun t => t.scope + 2).getD 0 else j.scope

/-- A byte credit (R177 to R179/08): it goes before the expectations of its cycle; the job fails when PEND saturates. Its job's
scope is remembered for the generation's completion (R212, R219/10). -/
def State.credit (s : State) (team n reach : Nat) : State × Bool :=
  match s.team? team with
  | none => (s, false)
  | some t =>
    let low : Int := -(2 ^ 31 : Nat)
    let p := t.pend - t.expected - n
    (s.modTeam team fun t =>
      { t with pend := max low p + t.expected, evt := true, creditReach := max t.creditReach reach }, decide (p < low))

/-- The team a job's kind 2 credits go to: that of the slot in byte 4 (R177/08). -/
def Job.creditTeam (j : Job) : Option Nat := j.slots.getD (cardTarget j.card) none

/-- Chunk bit i of a job is set, with the job's scope, or the wider one of a job that set it before and no clear has followed; a clear of the
same cycle does not clear it (R183/08, R323/15). -/
def State.setChunk (s : State) (j : Job) (i : Nat) : State :=
  match j.team with
  | none => s
  | some id =>
    let map := cardTarget j.card
    let bit := (tileOf j.card).base + i
    let one : BitVec 256 := 1
    s.modTeam id fun t =>
      let seen := ((cget 0 t.maps map).getLsbD bit) && !((cget 0 t.clears map).getLsbD bit)
      { t with
        maps := cset 0 t.maps map (cget 0 t.maps map ||| (one <<< bit))
        clears := cset 0 t.clears map (cget 0 t.clears map &&& ~~~(one <<< bit))
        mapScopes := cset 0 t.mapScopes (map * 256 + bit) (max (if seen then cget 0 t.mapScopes (map * 256 + bit) else 0) (s.jobReach j)) }

/-- The launch a job belongs to records its error, the first that arises (R157/07). -/
def State.jobErrorAt (s : State) (j : Job) : State :=
  match j.launch with
  | none => s
  | some l => s.modLaunch l fun k =>
      { k with jobError := match k.jobError with
        | none => some (j.engine, j.linked.getD 255)
        | some x => some x }

/-- Of the streams to this module itself, those stay whose job still is, and has started (R370/18). -/
def State.keepHeaders (s : State) : State :=
  { s with exHeaders := s.exHeaders.filter fun x => !(x.src == s.device.toNat) || (s.job? x.id).any fun j => j.started }

/-- A job leaves its queue. -/
def State.dropJob (s : State) (id : Nat) : State := { s with jobs := s.jobs.filter fun j => !(j.id == id) }

/-- The bytes of chunk i of a tile: 512, or what is left. -/
def Tile.chunkBytes (t : Tile) (i : Nat) : Nat := min 512 (t.bytes - 512 * i)

/-- The bytes a failed job still credits (R322/15, R371/18). -/
def Job.bytesLeft (j : Job) : Nat :=
  if j.engine = 1 then
    let t := tileOf j.card
    ((List.range t.chunks).map fun i => if j.landed.contains i then 0 else t.chunkBytes i).sum
  else
    let full := fieldOf j.card 200 4 * fieldOf j.card 172 4
    ((List.range (fieldOf j.card 168 4)).map fun i =>
      if j.received.contains i then 0 else full - (j.credited.lookup i).getD 0).sum

/-- The end of a job that has completed: its token rises (R180/08), and its entry is freed (R147/06). -/
def State.completeJob (s : State) (j : Job) : State :=
  let s := if j.engine ≤ 3 ∧ cardKind j.card = 0 then s.tokenInc j.core j.ctx (cardTarget j.card) (decide (3 ≤ s.jobReach j)) else s
  s.dropJob j.id

/-- A failed job releases its completion as though all had landed (R322/15). -/
def State.releaseFailed (s : State) (j : Job) : State :=
  let s := match cardKind j.card with
    | 1 => (List.range (tileOf j.card).chunks).foldl (fun (s : State) i => if j.landed.contains i then s else s.setChunk j i) s
    | 2 => match j.creditTeam with
      | some t => (s.credit t j.bytesLeft (s.jobReach j)).1
      | none => s
    | _ => s
  s.completeJob j

/-- The "replay failed" record of a job (R249/11, R171/07). -/
def State.reportReplay (s : State) (j : Job) : State :=
  s.report j.ctx errReplay j.engine j.cardAddr.toNat (bytesOfNat 1 j.engine ++ [0, 0, 0] ++ bytesOfNat 8 j.cardAddr.toNat)

/-- A job fails (R322/15) with a cause code, or 0 where no access caused it: an error record, with a "replay failed" record when it
had been replayed (R249/11), the launch's status, and the release of its completion. -/
def State.failCode (s : State) (j : Job) (code : Nat) : State :=
  let s := if 0 < j.replays then s.reportReplay j else s
  ((s.reportJob j.ctx j.engine code j.cardAddr.toNat).jobErrorAt j).releaseFailed j

/-- A job fails by an access (R322/15). -/
def State.failJob (s : State) (j : Job) (cause : Cause) : State := s.failCode j (causeCode cause)

/-- An engine's access that meets an uncorrectable error is reported, with PC 0 (R132/05, R171/07). -/
def State.engineUncorr (s : State) (j : Job) (cause : Cause) (addr : Nat) : State := if cause = .uncorr then s.guestUncorr j.ctx addr 1 else s

/-- What an engine access's fault does to its job (R322/15): XLATE2 waits, anything else fails it. -/
def State.engineFault (s : State) (j : Job) (cause : Cause) (addr : Nat) : State :=
  match cause with
  | .xlate2 => s.modJob j.id fun j => { j with waitAddr := some (BitVec.ofNat 64 addr), waitSince := s.now }
  | _ => (s.engineUncorr j cause addr).failJob j cause

end Sys2Proof.Machine
end

