-- ==== Sys2Proof/Machine/MemOps.lean ====
section
/-! DEFINITION. Loads, stores, ordered accesses, prefetch, cache control, atomics, fences, icinv and remote stores (R304 to R318/15, R373/18). -/

namespace Sys2Proof.Machine

/-! ### Addresses, scopes and waits -/

/-- A lane's effective address (R263/12). -/
def State.ea (s : State) (b : Nat) (x : Idx) (size l : Nat) : Dword :=
  match x with
  | .vec n => s.me.sget b + (s.me.vget l n).setWidth 64
  | .imm k => s.me.sget b + BitVec.ofNat 64 (k * size)

/-- How wide a scope reaches (R207/10): 0 sheaf, 2 core, 3 cluster, 4 field, 5 device, 6 system. A `.team` scope reaches
as far as the given team, or the widest of the teams in the sheaf's slots; with none it acts as `.sheaf` (R309/15). -/
def State.reach (s : State) (h : Sheaf) (sc : Scope) (slot : Option Nat) : Nat :=
  match sc with
  | .sheaf => 0
  | .team =>
    match slot with
    | some k => ((s.teamIn h k).map fun t => t.scope + 2).getD 0
    | none => (s.teamsOf h).foldl (fun w t => max w (t.scope + 2)) 0
  | .core => 2
  | .clus => 3
  | .fld => 4
  | .dev => 5
  | .sys => 6

/-- Has an active lane a request of the sequencer outstanding (R217/10)? -/
def State.ticketOpen (s : State) : Bool :=
  match s.cur with
  | some i => s.seqQ.any fun r => r.sheaf == i.sheaf && i.lanes.getLsbD r.lane
  | none => false

/-- Has an active lane a remote store in flight (R224/10)? -/
def State.rstOpen (s : State) : Bool :=
  match s.cur with
  | some i => s.rsts.any fun r => r.sheaf == i.sheaf && i.lanes.getLsbD r.lane
  | none => false

/-- Is a replay's load an acquire (R310/15)? -/
def Replay.acquires (r : Replay) : Bool :=
  match r.ordered with
  | some (_, .acq) => true
  | _ => false

/-- Holds a load of these lanes that has not been performed, for its fault, a later access back: any load a release or a fence,
an acquire every access (R210/10, R310, R317/15)? -/
def Pending.holdsBack (p : Pending) (active : Mask) (rel : Bool) : Bool :=
  (match p.again with | some r => rel || r.acquires | none => false) && p.faults.any fun f => active.getLsbD f.lane

/-- What an access of the active lanes waits for first (R210, R217, R224/10, R310, R315, R316/15): their requests of the sequencer; as
a release, or a fence, their remote stores in flight; and loads that have run past a fault, which they depend on (log 74). None when
nothing holds it back. -/
def State.orderWait? (s : State) (tickets rel : Bool) : Option State :=
  if (tickets && s.ticketOpen) || (rel && s.rstOpen) then some s.stallMe
  else
    match s.me.pend.find? fun p => p.holdsBack s.active rel with
    | some p => some (s.dependOnFault p)
    | none => none

/-- The peer lines that a sheaf's stores left differing are written back (R406/10). -/
def State.releasePeers (s : State) (sheaf : Nat) : State :=
  match s.sheaf? sheaf with
  | none => s
  | some h => (h.peerDirty.foldl (fun s l => s.writeBackPeer l) s).modSheaf sheaf fun h => { h with peerDirty := [] }

/-- A release at system scope writes back the peer lines the sheaf's stores left differing (R406/10). -/
def State.releaseAt (s : State) (reach : Nat) : State :=
  if reach = 6 then
    (s.me.peerDirty.foldl (fun s l => s.writeBackPeer l) s).modMe fun h => { h with peerDirty := [] }
  else s

/-- An acquire at cluster scope or wider invalidates the core's L1 (R130/05). -/
def State.acquireAt (s : State) (reach : Nat) : State := if 3 ≤ reach then s.l1Clear s.me.core else s

/-! ### Watchpoints (R381/18) -/

/-- The space code a watchpoint is written with. -/
def spaceCode : Space → Nat
  | .sp => 1
  | .cl => 2
  | .bn => 3
  | .gl => 4
  | .ln | .ac => 0

/-- Does a watchpoint watch an access? -/
def Watch.hits (w : Watch) (k : AccKind) (space : Space) (a size : Nat) : Bool :=
  (match k with
    | .load => w.ld
    | .store => w.st
    | .atomic => w.atom
    | .fetch => false) &&
  (w.addr.extractLsb' 60 4).toNat == spaceCode space && !(spaceCode space == 0) &&
  decide (a < (w.addr.extractLsb' 0 56).toNat + 2 ^ w.log) && decide ((w.addr.extractLsb' 0 56).toNat < a + size)

/-- Does an access of a lane raise WATCH? -/
def State.watched (s : State) (h : Sheaf) (k : AccKind) (space : Space) (a : Dword) (size l : Nat) : Bool :=
  !(h.watchSkip.getLsbD l && (h.lane l).skipPc == s.issuePc) && (s.ctx h.ctx).watch.any fun w => w.hits k space a.toNat size

/-! ### Checks of all lanes -/

/-- What the checks of the lanes give: places, and faults. -/
structure Checked where
  ok : List (Nat × Target) := []
  bad : List LaneFault := []
deriving DecidableEq, Repr

/-- An uncorrectable error of a lane's access is reported (R132/05, R248/11). -/
def State.laneUncorr (s : State) (h : Sheaf) (space : Space) (a : Dword) : State :=
  match space with
  | .gl =>
    match s.xlate h.core h.ctx .load a.toNat with
    | (.ok hpa, s) => s.reportUncorr h.ctx a.toNat (s.portOf hpa) s.issuePc.toNat
    | (.error _, s) => s.reportUncorr h.ctx a.toNat 255 s.issuePc.toNat
  | .ln | .sp | .cl | .bn | .ac => s.reportUncorr h.ctx a.toNat 255 s.issuePc.toNat

/-- Check every lane's access in ascending order (R116/05, R227/11). -/
def State.checkLanes (s : State) (k : AccKind) (space : Space) (size : Nat) (addr : Nat → Dword) : List Nat → Checked × State
  | [] => ({}, s)
  | l :: ls =>
    let h := s.me
    match s.resolve h k space (addr l) size l with
    | (.error c, s) =>
      let s := if c = .uncorr then s.laneUncorr h space (addr l) else s
      let (r, s) := State.checkLanes s k space size addr ls
      ({ r with bad := ⟨l, c, addr l⟩ :: r.bad }, s)
    | (.ok t, s) =>
      let (r, s) := State.checkLanes s k space size addr ls
      ({ r with ok := (l, t) :: r.ok }, s)

/-- The lanes that raise WATCH. -/
def State.watchLanes (s : State) (k : AccKind) (space : Space) (size : Nat) (addr : Nat → Dword) : List LaneFault :=
  ((lanesOf s.active).filter fun l => s.watched s.me k space (addr l) size l).map fun l => ⟨l, .watch, addr l⟩

/-- Do two byte ranges meet? -/
def rangesMeet (a n b m : Nat) : Bool := decide (a < b + m) && decide (b < a + n)

/-- Does an access of a lane meet a remote store in flight of that lane (R210/10: overlapping ranges are locally ordered)? -/
def State.meetsRemote (s : State) (sheaf : Nat) (ts : List (Nat × Target)) (size : Nat) : Bool :=
  ts.any fun x =>
    match x.2 with
    | .host _ hpa => s.rsts.any fun r => r.sheaf == sheaf && r.lane == x.1 && rangesMeet hpa size r.hpa r.data.length
    | _ => false

/-- The access of a lane that a load has left to be made, for its fault, meets bytes of the same space that a later access of that
lane names (R210/10: overlapping ranges are locally ordered): the pending load. -/
def Pending.overlaps (p : Pending) (space : Space) (size : Nat) (addr : Nat → Dword) (ls : List Nat) : Bool :=
  match p.again with
  | none => false
  | some r => r.space == space && r.lanes.any fun x => ls.contains x.lane && (p.faults.any fun f => f.lane == x.lane) &&
      rangesMeet x.addr.toNat r.width.bytes (addr x.lane).toNat size

/-- The first load that an access of some lanes must follow (R210/10). -/
def State.behindLoad (s : State) (space : Space) (size : Nat) (addr : Nat → Dword) (ls : List Nat) : Option Pending :=
  s.me.pend.find? fun p => p.overlaps space size addr ls

/-- What an access whose lanes have passed their checks waits for: remote stores of its lanes that it meets, an overflow page that it
retains into (R333/16), and loads not yet performed that it meets, whose fault it depends on (R210/10, R235/11, log 74). -/
def State.localWait? (s : State) (space : Space) (size : Nat) (addr : Nat → Dword) (ts : List (Nat × Target)) (retains : Bool) :
    Option State :=
  if s.meetsRemote s.me.id ts size || retains then some s.stallMe
  else (s.behindLoad space size addr (ts.map fun x => x.1)).map s.dependOnFault

/-- Must a write of these places, made in order, wait for an overflow page of the granary (R333/16)? Each finds what those before it retain. -/
def State.storeWaits (s : State) (h : Sheaf) : List (Nat × Target) → Bool
  | [] => false
  | (_, .host (some va) hpa) :: ts =>
    s.retainWaits h.ctx h.rev va hpa || State.storeWaits (s.retained h.ctx h.rev va hpa) h ts
  | _ :: ts => State.storeWaits s h ts

/-! ### Loads -/

/-- The registers and values a load of `n` bytes gives (R306/15). -/
def loadVals (lane reg : Nat) (bs : List Byte) : List (Nat × Nat × Word) :=
  if bs.length ≤ 4 then [(lane, reg, BitVec.ofNat 32 (natOfBytes bs))]
  else (List.range (bs.length / 4)).map fun k => (lane, reg + k, BitVec.ofNat 32 (natOfBytes ((bs.drop (4 * k)).take 4)))

/-- Read the places of the lanes that passed, ascending. -/
def State.readLanes (s : State) (size reg : Nat) (m : LoadMode) : List (Nat × Target) → List (Nat × Nat × Word) × State
  | [] => ([], s)
  | (l, t) :: ts =>
    let (bs, s) := s.readTarget s.me t size m
    let (vs, s) := State.readLanes s size reg m ts
    (loadVals l reg bs ++ vs, s)

/-- The registers a width's data occupies. -/
def widthRegs (w : Width) : Nat :=
  match w with
  | .b8 | .b16 | .b32 => 1
  | .b64 => 2
  | .b128 => 4

/-- What a load's lanes give (R235/11): their checks; or, where its registers find no mapping, REGBACK in every lane. -/
def State.loadChecks (s : State) (space : Space) (size : Nat) (addr : Nat → Dword) : Checked × State :=
  match s.cur.bind fun i => i.regback with
  | some a => ({ bad := (lanesOf s.active).map fun l => ⟨l, .regback, a⟩ }, s)
  | none => s.checkLanes .load space size addr (lanesOf s.active)

/-- How far the scope of an ordered access reaches; a plain one's is 0. -/
def State.reachOf (s : State) (h : Sheaf) (ordered : Option (Scope × Ordering)) : Nat :=
  match ordered with
  | some (sc, _) => s.reach h sc none
  | none => 0

/-- The scratch words that an access of a lane needs: whose memory, and the physical word in it, by which its bank goes (R119, R121/05). -/
def Target.words (t : Target) (size : Nat) : List (Nat × Nat) :=
  match t with
  | .slice lane off => (List.range ((off % 4 + size + 3) / 4)).map fun k =>
      let w := off / 4 + k
      (0, 64 * w + (w + lane) % 64)
  | .team id off => (List.range ((off % 4 + size + 3) / 4)).map fun k => (id + 1, off / 4 + k)
  | .host _ _ | .acc _ => []

/-- Does a scratch word lie in a page that is resident (R135/05)? -/
def State.wordResident (s : State) (h : Sheaf) (x : Nat × Nat) : Bool :=
  match x.1 with
  | 0 => !(h.sliceReloc.contains (x.2 / 1024))
  | id + 1 => !(((s.team? id).map fun t => t.reloc.contains (x.2 / 1024)).getD false)

/-- Does a load of `.ln` or `.sp` land within 8 cycles (R394/21): no lane faults, its lanes need at most one word of any bank, its pages are
resident, and so were its destination registers? -/
def State.landsSoon (s : State) (h : Sheaf) (space : Space) (size : Nat) (c : Checked) : Bool :=
  let ws := (c.ok.flatMap fun x => x.2.words size).eraseDups
  (space == .ln || space == .sp) && c.bad.isEmpty && !((s.cur.map fun i => i.filled).getD false) && ws.all (s.wordResident h) &&
    ((ws.map fun x => x.2 % 64).eraseDups).length == ws.length

/-- A load (R306/15, R235/11): lanes whose checks pass receive their data, pending until it arrives (log 3);
a faulting lane's destination is pending with the fault attached; the sheaf runs on. WATCH traps at the load (R381/18). -/
def State.loadOp (s : State) (space : Space) (w : Width) (d l : Nat) (addr : Nat → Dword)
    (ordered : Option (Scope × Ordering)) : State :=
  match s.orderWait? true false with
  | some t => t
  | none =>
    match s.trapLanes (s.watchLanes .load space w.bytes addr) with
    | some t => t
    | none =>
      let h := s.me
      let reach := s.reachOf h ordered
      let (c, s) := s.loadChecks space w.bytes addr
      match s.localWait? space w.bytes addr c.ok false with
      | some t => t
      | none =>
        let reg := h.wb + d
        let (vals, s) := s.readLanes w.bytes reg ⟨decide (3 ≤ reach), reach == 6⟩ c.ok
        let s := match ordered with
          | some (_, .acq) => s.acquireAt reach
          | _ => s
        (s.addPending fun id =>
          { id := id
            pc := s.issuePc
            vals := vals
            regs := (List.range (widthRegs w)).map fun k => reg + k
            lanes := s.active
            faults := c.bad
            again := some ⟨.illop, space, w, ordered, reg, c.bad.map fun f => ⟨f.lane, addr f.lane⟩, s.issuePc⟩
            windows := windowsOf (lanesOf s.active) l
            since := s.now
            nearby := s.landsSoon h space w.bytes c }).retire

/-! ### Stores -/

/-- The low bytes of a store's data registers (R307/15). -/
def Sheaf.storeBytes (h : Sheaf) (w : Width) (l d : Nat) : List Byte :=
  match w with
  | .b8 => bytesOfNat 1 (h.vget l d).toNat
  | .b16 => bytesOfNat 2 (h.vget l d).toNat
  | .b32 => bytesOfNat 4 (h.vget l d).toNat
  | .b64 => bytesOfNat 8 (h.vget64 l d).toNat
  | .b128 => bytesOfNat 8 (h.vget64 l d).toNat ++ bytesOfNat 8 (h.vget64 l (d + 2)).toNat

/-- Write the lanes' bytes in ascending lane order (R214/10: the higher lane is later). -/
def State.writeLanes (s : State) (data : Nat → List Byte) (sys : Bool) : List (Nat × Target) → State
  | [] => s
  | (l, t) :: ts => State.writeLanes (s.writeTarget s.me t (data l) sys) data sys ts

/-- A store (R307/15): it traps at its own PC when any lane fails, and then no lane writes. -/
def State.storeOp (s : State) (space : Space) (w : Width) (d : Nat) (addr : Nat → Dword)
    (ordered : Option (Scope × Ordering)) : State :=
  let h := s.me
  let reach := s.reachOf h ordered
  let rel := match ordered with
    | some (_, .rel) => true
    | _ => false
  match s.orderWait? true rel with
  | some t => t
  | none =>
    let (c, s) := s.checkLanes .store space w.bytes addr (lanesOf s.active)
    match s.trapLanes (c.bad ++ s.watchLanes .store space w.bytes addr) with
    | some t => t
    | none =>
      match s.localWait? space w.bytes addr c.ok (s.storeWaits h c.ok) with
      | some t => t
      | none =>
        let s := if rel then s.releaseAt reach else s
        (s.writeLanes (fun l => h.storeBytes w l d) (reach == 6) c.ok).retire

/-! ### Prefetch and cache control -/

/-- A prefetch's lanes (R311/15): a lane that fails a check is dropped silently. -/
def State.prefetchLanes (s : State) (size : Nat) (addr : Nat → Dword) : List Nat → State
  | [] => s
  | l :: ls =>
    match s.resolve s.me .load .gl (addr l) size l with
    | (.ok (.host (some va) hpa), s) =>
      let h := s.me
      let (_, s) := s.l1Read h.core h.ctx h.rev va hpa 1
      State.prefetchLanes s size addr ls
    | (_, s) => State.prefetchLanes s size addr ls

/-- The three cache operations (R312/15). -/
inductive Cctl where
  | wb | inv | wbinv
deriving DecidableEq, Repr

/-- One line of `cctl` (R312/15): the home slice writes the line back, or discards it; the core's L1 copy is discarded. -/
def State.cctlLine (s : State) (op : Cctl) (core hline : Nat) : State :=
  match op with
  | .wb => s.peerWriteBack hline
  | .inv => s.l1Drop core hline
  | .wbinv => ((s.peerWriteBack hline).peerDrop hline).l1Drop core hline

/-- A place as the line it lies in. -/
def Target.line (t : Target) : Target :=
  match t with
  | .host va hpa => .host va (lineOf hpa)
  | t => t

/-- `cctl` (R312/15): the checks of a load, WATCH among them (R381/18), a failing lane trapping at the instruction. -/
def State.cctlOp (s : State) (op : Cctl) (addr : Nat → Dword) : State :=
  match s.orderWait? true false with
  | some t => t
  | none =>
    let (c, s) := s.checkLanes .load .gl 1 addr (lanesOf s.active)
    match s.trapLanes (c.bad ++ s.watchLanes .load .gl 1 addr) with
    | some t => t
    | none =>
      match s.localWait? .gl 128 (fun l => addr l &&& ~~~127) (c.ok.map fun x => (x.1, x.2.line)) false with
      | some t => t
      | none =>
        (c.ok.foldl (fun (s : State) x =>
          match x.2 with
          | .host (some _) hpa => s.cctlLine op s.me.core (lineOf hpa)
          | _ => s) s).retire

/-! ### Atomics -/

/-- The bytes an atomic accesses (R313/15). -/
def atomSize : AtomOp → Nat
  | .faddF16 | .faddBf16 => 2
  | .addI64 | .faddF64 | .minI64 | .minN64 | .maxI64 | .maxN64 | .andB64 | .orB64 | .xorB64 | .exchB64 | .casB64 => 8
  | .addI32 | .faddF32 | .minI32 | .minN32 | .maxI32 | .maxN32 | .andB32 | .orB32 | .xorB32 | .exchB32 | .casB32 => 4

/-- A floating-point atomic add: RNE, no FTZ, no flag (R204/09). -/
def atomFadd (f : Fmt) (old x : Dword) : Dword :=
  BitVec.ofNat 64 (fop f .add .rne false (old.toNat % 2 ^ f.width) (x.toNat % 2 ^ f.width) 0).bits

/-- On the low 32 bits. -/
def low32 (g : Word → Word → Word) (old x : Dword) : Dword := (g (old.setWidth 32) (x.setWidth 32)).setWidth 64

/-- op(old, x) of R314/15; for `cas` the value written when old equals the compared value. -/
def atomNew (o : AtomOp) (old x : Dword) : Dword :=
  match o with
  | .addI32 => low32 (fun a b => a + b) old x
  | .addI64 => old + x
  | .faddF16 => atomFadd .f16 old x
  | .faddBf16 => atomFadd .bf16 old x
  | .faddF32 => atomFadd .f32 old x
  | .faddF64 => atomFadd .f64 old x
  | .minI32 => low32 minS old x
  | .minN32 => low32 minU old x
  | .minI64 => minS old x
  | .minN64 => minU old x
  | .maxI32 => low32 maxS old x
  | .maxN32 => low32 maxU old x
  | .maxI64 => maxS old x
  | .maxN64 => maxU old x
  | .andB32 => low32 (fun a b => a &&& b) old x
  | .andB64 => old &&& x
  | .orB32 => low32 (fun a b => a ||| b) old x
  | .orB64 => old ||| x
  | .xorB32 => low32 (fun a b => a ^^^ b) old x
  | .xorB64 => old ^^^ x
  | .exchB32 | .exchB64 | .casB32 | .casB64 => x

/-- Is the operation a compare and swap? -/
def atomCas (o : AtomOp) : Bool := o == .casB32 || o == .casB64

/-- A lane's operand and compared value (R313/15). -/
def Sheaf.atomArgs (h : Sheaf) (o : AtomOp) (d l : Nat) : Dword × Dword :=
  if atomSize o = 8 then (h.vget64 l d, h.vget64 l (d + 4))
  else ((h.vget l d).setWidth 64, (h.vget l (d + 4)).setWidth 64)

/-- One indivisible read-modify-write at a place (R314/15); it discards the core's L1 copy of a `.gl` line (R130/05).
The old value is answered. -/
def State.atomAt (s : State) (h : Sheaf) (o : AtomOp) (t : Target) (x cmp : Dword) : Dword × State :=
  let (bs, s) := s.readTarget h t (atomSize o) ⟨true, false⟩
  let old : Dword := BitVec.ofNat 64 (natOfBytes bs)
  if atomCas o && !(old == cmp) then (old, s)
  else (old, s.writeTarget h t (bytesOfNat (atomSize o) (atomNew o old x).toNat) false)

/-- The registers the returned value takes (R313/15): d + 1, or the pair d. -/
def atomRet (o : AtomOp) (lane reg : Nat) (old : Dword) : List (Nat × Nat × Word) :=
  if atomSize o = 8 then [(lane, reg, old.setWidth 32), (lane, reg + 1, old.extractLsb' 32 32)]
  else [(lane, reg + 1, old.setWidth 32)]

/-- The virtual registers of the return. -/
def atomRegs (o : AtomOp) (reg : Nat) : List Nat := if atomSize o = 8 then [reg, reg + 1] else [reg + 1]

/-- Perform the lanes' operations in ascending order (R33/01). -/
def State.atomLanes (s : State) (o : AtomOp) (d : Nat) : List (Nat × Target) → List (Nat × Nat × Word) × State
  | [] => ([], s)
  | (l, t) :: ts =>
    let h := s.me
    let (x, cmp) := h.atomArgs o d l
    let (old, s) := s.atomAt h o t x cmp
    let (vs, s) := State.atomLanes s o d ts
    (atomRet o l (h.wb + d) old ++ vs, s)

/-- An atomic (R314, R315/15): any lane's failing check traps at the instruction, and an empty slot of a `.team` scope SPACE in
every active lane, unless a lane's cause ranks above it (R227/11); otherwise each lane's operation is
performed, or, for `.sc`, enters the sequencer's queue in ascending lane order (R184/08, R217/10). -/
def State.atomOp (s : State) (space : Space) (d slot : Nat) (o : AtomOp) (sc : Scope) (r : Ordering) (l : Nat) : State :=
  let h := s.me
  let addr (ln : Nat) : Dword := h.vget64 ln (d + 2)
  let reach := s.reach h sc (some slot)
  let rel := r == .rel || r == .ar || r == .sc
  match s.orderWait? (!(r == .sc)) rel with
  | some t => t
  | none =>
    let (c, s) := s.checkLanes .atomic space (atomSize o) addr (lanesOf s.active)
    let above := c.bad.filter fun f => decide (causeRank f.cause < causeRank .space)
    if sc = .team ∧ (s.teamIn h slot).isNone ∧ above.isEmpty then s.trapAll .space 0 0
    else
    match s.trapLanes (c.bad ++ s.watchLanes .atomic space (atomSize o) addr) with
    | some t => t
    | none =>
      match s.localWait? space (atomSize o) addr c.ok (s.storeWaits h c.ok) with
      | some t => t
      | none =>
        let reg := h.wb + d
        let s := if rel then s.releaseAt reach else s
        let pend (vals : List (Nat × Nat × Word)) (tickets : Nat) (s : State) : State :=
          s.addPending fun id =>
            { id := id
              pc := s.issuePc
              vals := vals
              regs := atomRegs o reg
              lanes := s.active
              windows := windowsOf (lanesOf s.active) l
              since := s.now
              tickets := tickets }
        if r = .sc then
          let id := s.nextId
          let s := pend [] c.ok.length s
          let reqs : List SeqReq := c.ok.map fun x =>
            { core := h.core, sheaf := h.id, lane := x.1, pend := some id, op := some o, target := some x.2
              operand := (h.atomArgs o d x.1).1, compare := (h.atomArgs o d x.1).2, dreg := reg, rev := h.rev
              wide := decide (3 ≤ reach) }
          ({ s with seqQ := s.seqQ ++ reqs } : State).retire
        else
          let (vals, s) := s.atomLanes o d c.ok
          let s := if r = .acq ∨ r = .ar then s.acquireAt reach else s
          (pend vals 0 s).retire

/-! ### Fences and instruction cache invalidation -/

/-- The cores an `icinv` covers (R318/15). -/
def State.icinvCores (s : State) (h : Sheaf) (sc : Scope) : List Nat :=
  let span (base n : Nat) : List Nat := (List.range n).map fun k => base + k
  let ofTeam (t : Team) : List Nat :=
    match t.scope with
    | 0 => [h.core]
    | 1 => span (clusterOfCore h.core * Config.coresPerCluster) Config.coresPerCluster
    | 2 => span (fieldOfCore h.core * Config.coresPerField) Config.coresPerField
    | _ => List.range Config.cores
  match sc with
  | .sheaf | .core => [h.core]
  | .team => h.core :: (s.teamsOf h).flatMap ofTeam
  | .clus => span (clusterOfCore h.core * Config.coresPerCluster) Config.coresPerCluster
  | .fld => span (fieldOfCore h.core * Config.coresPerField) Config.coresPerField
  | .dev | .sys => List.range Config.cores

/-- Invalidate the instruction cache, loop buffers and divergence windows' words of some cores (R137/05, R318/15). -/
def State.icinvOn (s : State) (cores : List Nat) : State :=
  let s := cores.foldl (fun (s : State) c => s.modCore c fun k => { k with icache := [] }) s
  s.mapSheaves fun h =>
    if cores.contains h.core then
      { h with loopBuf := [], lanes := h.lanes.map fun ln : Lane => { ln with winWords := [] } } else h

/-- `ld.ln` (R306/15). Loads from each lane's own slice. -/
def execLdLn (d : Nat) (w : Width) (b : Nat) (x : Idx) (l : Nat) (s : State) : Out :=
  .next (s.loadOp .ln w d l (s.ea b x w.bytes) none)

/-- `ld.sp` (R306/15). Loads from core scratchpad. -/
def execLdSp (d : Nat) (w : Width) (b : Nat) (x : Idx) (l : Nat) (s : State) : Out :=
  .next (s.loadOp .sp w d l (s.ea b x w.bytes) none)

/-- `ld.cl` (R306/15). Loads from cluster memory. -/
def execLdCl (d : Nat) (w : Width) (b : Nat) (x : Idx) (l : Nat) (s : State) : Out :=
  .next (s.loadOp .cl w d l (s.ea b x w.bytes) none)

/-- `ld.bn` (R306/15). Loads from barn at the home L2 slice. -/
def execLdBn (d : Nat) (w : Width) (b : Nat) (x : Idx) (l : Nat) (s : State) : Out :=
  .next (s.loadOp .bn w d l (s.ea b x w.bytes) none)

/-- `ld.gl` (R306/15). Loads from global memory through L1. -/
def execLdGl (d : Nat) (w : Width) (b : Nat) (x : Idx) (l : Nat) (s : State) : Out :=
  .next (s.loadOp .gl w d l (s.ea b x w.bytes) none)

/-- `ld.ac` (R306/15). Loads accumulator memory bits as stored. -/
def execLdAc (d : Nat) (w : Width) (b : Nat) (x : Idx) (l : Nat) (s : State) : Out :=
  .next (s.loadOp .ac w d l (s.ea b x w.bytes) none)

/-- `ld.gl` (R309/15). Global load with scope and rlx or acq ordering from a per-lane address. -/
def execLdGlOrdered (d : Nat) (a : Nat) (s : Scope) (o : Ordering) (w : Width) (l : Nat) (s' : State) : Out :=
  let h := s'.me
  .next (s'.loadOp .gl w d l (fun ln => h.vget64 ln a) (some (s, o)))

/-- `pf.gl` (R311/15). Prefetches global lines into L1 and home slices without effect on values. -/
def execPfGl (w : Width) (b : Nat) (x : Idx) (_l : Nat) (s : State) : Out :=
  .next (s.prefetchLanes w.bytes (s.ea b x w.bytes) (lanesOf s.active)).retire

/-- `st.ln` (R307/15). Stores to each lane's own slice. -/
def execStLn (d : Nat) (w : Width) (b : Nat) (x : Idx) (_l : Nat) (s : State) : Out :=
  .next (s.storeOp .ln w d (s.ea b x w.bytes) none)

/-- `st.sp` (R307/15). Stores to core scratchpad. -/
def execStSp (d : Nat) (w : Width) (b : Nat) (x : Idx) (_l : Nat) (s : State) : Out :=
  .next (s.storeOp .sp w d (s.ea b x w.bytes) none)

/-- `st.cl` (R307/15). Stores to cluster memory. -/
def execStCl (d : Nat) (w : Width) (b : Nat) (x : Idx) (_l : Nat) (s : State) : Out :=
  .next (s.storeOp .cl w d (s.ea b x w.bytes) none)

/-- `st.bn` (R307/15). Stores to barn. -/
def execStBn (d : Nat) (w : Width) (b : Nat) (x : Idx) (_l : Nat) (s : State) : Out :=
  .next (s.storeOp .bn w d (s.ea b x w.bytes) none)

/-- `st.gl` (R307/15). Stores to global memory, writing through to the home slice. -/
def execStGl (d : Nat) (w : Width) (b : Nat) (x : Idx) (_l : Nat) (s : State) : Out :=
  .next (s.storeOp .gl w d (s.ea b x w.bytes) none)

/-- `st.ac` (R307/15). Store to accumulator memory, which traps PERM in every active lane. -/
def execStAc (d : Nat) (w : Width) (b : Nat) (x : Idx) (_l : Nat) (s : State) : Out :=
  .next (s.storeOp .ac w d (s.ea b x w.bytes) none)

/-- `st.gl` (R309/15). Global store with scope and rlx or rel ordering to a per-lane address. -/
def execStGlOrdered (d : Nat) (a : Nat) (s : Scope) (o : Ordering) (w : Width) (_l : Nat) (s' : State) : Out :=
  let h := s'.me
  .next (s'.storeOp .gl w d (fun ln => h.vget64 ln a) (some (s, o)))

/-- `cctl.gl.wb` (R312/15). Writes each lane's line back to its backing memory. -/
def execCctlGlWb (b : Nat) (x : Idx) (_l : Nat) (s : State) : Out :=
  .next (s.cctlOp .wb (s.ea b x 1))

/-- `cctl.gl.inv` (R312/15). Discards the issuing core's L1 copy of each lane's line. -/
def execCctlGlInv (b : Nat) (x : Idx) (_l : Nat) (s : State) : Out :=
  .next (s.cctlOp .inv (s.ea b x 1))

/-- `cctl.gl.wbinv` (R312/15). Writes back and then discards each lane's line at the home slice and L1. -/
def execCctlGlWbinv (b : Nat) (x : Idx) (_l : Nat) (s : State) : Out :=
  .next (s.cctlOp .wbinv (s.ea b x 1))

/-- `atom.sp` (R314/15). Per-lane read-modify-write atomic at a scratchpad bank. -/
def execAtomSp (d : Nat) (t : Nat) (o : AtomOp) (s : Scope) (r : Ordering) (l : Nat) (s' : State) : Out :=
  let op := o
  .next (s'.atomOp .sp d t op s r l)

/-- `atom.cl` (R314/15). Per-lane read-modify-write atomic in cluster memory. -/
def execAtomCl (d : Nat) (t : Nat) (o : AtomOp) (s : Scope) (r : Ordering) (l : Nat) (s' : State) : Out :=
  let op := o
  .next (s'.atomOp .cl d t op s r l)

/-- `atom.bn` (R314/15). Per-lane read-modify-write atomic in barn at the home slice. -/
def execAtomBn (d : Nat) (t : Nat) (o : AtomOp) (s : Scope) (r : Ordering) (l : Nat) (s' : State) : Out :=
  let op := o
  .next (s'.atomOp .bn d t op s r l)

/-- `atom.gl` (R314/15). Per-lane read-modify-write atomic in global memory at the home slice. -/
def execAtomGl (d : Nat) (t : Nat) (o : AtomOp) (s : Scope) (r : Ordering) (l : Nat) (s' : State) : Out :=
  let op := o
  .next (s'.atomOp .gl d t op s r l)

/-- `fence` (R316/15). Orders the lane's accesses by ordering and scope; it waits for no other lane. A `.sc` fence is performed at its
tickets, behind the lane's earlier `.sc` atomics (R217, R406/10). -/
def execFence (s : Scope) (o : Ordering) (s' : State) : Out :=
  let h := s'.me
  let reach := s'.reach h s none
  match s'.orderWait? (!(o == .sc)) true with
  | some t => .next t
  | none =>
    if o = .sc then
      let reqs : List SeqReq := (lanesOf s'.active).map fun ln =>
        { core := h.core, sheaf := h.id, lane := ln, rev := h.rev, wide := decide (3 ≤ reach), sys := reach == 6 }
      .next ({ s' with seqQ := s'.seqQ ++ reqs } : State).retire
    else
      let t := if o = .acq then s' else s'.releaseAt reach
      .next (if o = .rel then t else t.acquireAt reach).retire

/-- `icinv` (R318/15). Invalidates instruction caches, loop buffers and divergence valid bits on covered cores. -/
def execIcinv (s : Scope) (s' : State) : Out :=
  match s'.orderWait? true true with
  | some t => .next t
  | none => .next (s'.icinvOn (s'.icinvCores s'.me s)).retire

/-! ### Remote stores (R373/18) -/

/-- The checks of a remote store, in the order of R373/18, and whether it names the posting module itself. What the exporting module
answers comes with the acknowledgement (R374/18). A fault leaves the translation caches as they were (R138/05). -/
def State.rstCheck (s : State) (h : Sheaf) (a : Dword) (size : Nat) : Except Cause (Nat × Bool) × State :=
  let n := a.toNat
  if n % size ≠ 0 then (.error .align, s)
  else if 2 ^ 56 ≤ n then (.error .space, s)
  else
    match (s.translate h.core h.ctx n).1 with
    | .error c => (.error c, s)
    | .ok t =>
      let peer := t.hpa + (n - t.va)
      if ¬ t.allows .store then (.error .perm, s)
      else if peer < peerBase then (.error .space, s)
      else
        match s.xlateHere h.core h.ctx .store n with
        | (.error c, _) => (.error c, s)
        | (.ok hpa, s) => (.ok (hpa, peer / 2 ^ 38 % 8192 == s.device.toNat), s)

/-- The lanes of a remote store. -/
def State.rstLanes (s : State) (size : Nat) (addr : Nat → Dword) : List Nat → (List (Nat × Nat × Bool) × List LaneFault) × State
  | [] => (([], []), s)
  | l :: ls =>
    match s.rstCheck s.me (addr l) size with
    | (.error c, s) =>
      let (r, s) := State.rstLanes s size addr ls
      ((r.1, ⟨l, c, addr l⟩ :: r.2), s)
    | (.ok hpa, s) =>
      let (r, s) := State.rstLanes s size addr ls
      (((l, hpa) :: r.1, r.2), s)

/-- `rst` (R373/18). Each passing lane's store is in flight until the peer acknowledges it; a lane that fails traps and no lane stores. -/
def execRst (d : Nat) (a : Nat) (w : Width) (_l : Nat) (s : State) : Out :=
  let h := s.me
  let addr (ln : Nat) : Dword := h.vget64 ln a
  match s.orderWait? true false with
  | some t => .next t
  | none =>
    let (r, s) := s.rstLanes w.bytes addr (lanesOf s.active)
    match s.trapLanes (r.2 ++ s.watchLanes .store .gl w.bytes addr) with
    | some t => .next t
    | none =>
      match s.behindLoad .gl w.bytes addr (r.1.map fun x => x.1) with
      | some p => .next (s.dependOnFault p)
      | none =>
      let new : List RemoteStore := r.1.map fun x =>
        ⟨h.id, x.1, h.launch, h.ctx, h.core, h.rev, (addr x.1).toNat, x.2.1, h.storeBytes w x.1 d, s.issuePc, x.2.2, s.nextId + x.1⟩
      let s := s.modLaunch h.launch fun k => { k with rstsOut := k.rstsOut + new.length }
      .next ({ s with rsts := s.rsts ++ new, nextId := s.nextId + 64 } : State).retire

end Sys2Proof.Machine
end

