-- ==== Sys2Proof/Machine/Matrix.lean ====
section
/-! DEFINITION. The matrix engine (R344 to R363/17, R200, R201/09, R244/11): posts, resources, starts, grants, the work of a quantum, completion, stops. -/

namespace Sys2Proof.Machine

/-! ### Shapes (R344/17) -/

/-- Quadrants of a set. -/
def setQuads (q : Nat) : List Nat := (List.range 4).filter fun k => q.testBit k

/-- The columns limit nf and the rows factor kf of a set. -/
def setNf (q : Nat) : Nat := if q = 3 ∨ q = 12 ∨ q = 15 then 2 else 1
def setKf (q : Nat) : Nat := if q = 5 ∨ q = 10 ∨ q = 15 then 2 else 1

/-- The accumulating quadrants, left then right. -/
def setAcc (q : Nat) : List Nat :=
  match q with
  | 3 => [0, 1] | 12 => [2, 3] | 5 => [0] | 10 => [1] | 15 => [0, 1] | _ => setQuads q

/-- The nine legal sets (R265/12), lowest mask first. -/
def legalSets : List Nat := [1, 2, 3, 4, 5, 8, 10, 12, 15]

/-- Weights a position holds, w. -/
def subSlots (t : ElemType) : Nat := match t with | .e4m3 | .e5m2 => 2 | _ => 1

/-- Bytes of an element, and its format. -/
def elemBytes (t : ElemType) : Nat := match t with | .f32 => 4 | .bf16 | .f16 => 2 | _ => 1
def elemFmt (t : ElemType) : Fmt :=
  match t with | .f32 => .f32 | .f16 => .f16 | .e4m3 => .e4m3 | .e5m2 => .e5m2 | _ => .bf16

/-- The quadrant and key of weight (k, n) of a set. -/
def weightAt (set k n : Nat) : Nat × Nat :=
  let kf := setKf set
  let r := k % (32 * kf)
  ((setAcc set).getD (n / 32) 0 + (if r < 32 then 0 else 2), (r % 32 * 32 + n % 32) * 4 + k / (32 * kf))

/-- The quadrant and key of accumulator element (m, n) of plane p. -/
def accAt (set p m n : Nat) : Nat × Nat := ((setAcc set).getD (n / 32) 0, p * 1024 + m * 32 + n % 32)

/-- The side pair of R351, R352: scale 1, spare +0. -/
def sideDefault : BitVec 16 := 0x007F

/-! ### Planes of a context (R127/05, R349, R352/17) -/

/-- The planes a context has for a quadrant: its saved copy, the quadrant's own, or the reset values. -/
def Core.planes (c : Core) (ctx q : Nat) : Quad :=
  match c.saved.find? fun x => x.1 == ctx && x.2.1 == q with
  | some x => x.2.2
  | none =>
    let k := c.quads.getD q {}
    if k.owner = some ctx then k else {}

/-- Change the planes of a context, where they are; a context without any has a saved copy from then on. -/
def Core.modPlanes (c : Core) (ctx q : Nat) (f : Quad → Quad) : Core :=
  if c.saved.any fun x => x.1 == ctx && x.2.1 == q then
    { c with saved := c.saved.map fun x => if x.1 = ctx ∧ x.2.1 = q then (x.1, x.2.1, f x.2.2) else x }
  else if (c.quads.getD q {}).owner = some ctx then { c with quads := modAt f c.quads q }
  else { c with saved := c.saved ++ [(ctx, q, f {})] }

/-- The planes of a quadrant its context leaves are saved. -/
def Core.leaveQuad (c : Core) (q : Nat) : Core :=
  let k := c.quads.getD q {}
  match k.owner with
  | none => c
  | some o =>
    { c with
      saved := c.saved ++ [(o, q, { k with filler := 0 })]
      quads := modAt (fun k : Quad => { filler := k.filler }) c.quads q }

/-- A context gains a quadrant: its saved planes are restored, or the reset values written (R352/17). -/
def Core.gainQuad (c : Core) (ctx q : Nat) : Core :=
  if (c.quads.getD q {}).owner = some ctx then c
  else
    let c := c.leaveQuad q
    let p := (c.saved.find? fun x => x.1 == ctx && x.2.1 == q).map fun x => x.2.2
    { c with
      saved := c.saved.filter fun x => !(x.1 == ctx && x.2.1 == q)
      quads := modAt (fun k : Quad => { (p.getD {}) with owner := some ctx, filler := k.filler }) c.quads q }

/-- Planes of quadrants that a squeeze or a park takes from a context are saved (R127/05). -/
def Core.takeQuads (c : Core) (ctx granted : Nat) : Core :=
  (List.range 4).foldl (fun c q =>
    if !granted.testBit q && decide ((c.quads.getD q {}).owner = some ctx) then c.leaveQuad q else c) c

/-! ### Posting (R345, R346/17) -/

/-- The result of checking operands: a cause, ALIGN before SPACE, or the command. -/
structure MatChecks where
  align : Bool := false
  space : Bool := false
deriving DecidableEq, Repr

/-- Scratch named by a scalar, `len` bytes from it (R346/17): only bytes that will be touched are checked. -/
def State.scratchAt (s : State) (h : Sheaf) (x : Dword) (len : Nat) : Option ScratchRef :=
  let code := (x.extractLsb' 60 4).toNat
  let a := (x.extractLsb' 0 56).toNat
  if (x.extractLsb' 56 4).toNat ≠ 0 then none
  else
    let per := if code = 1 then 2 ^ 20 else 2 ^ 21
    if (code ≠ 1 ∧ code ≠ 2) ∨ 4 * per ≤ a then none
    else
      match s.teamIn h (a / per) with
      | none => none
      | some t => if t.scope + 1 = code ∧ (len = 0 ∨ a % per + len ≤ t.scratch) then some ⟨t.id, a % per⟩ else none

/-- A field of a scalar operand. -/
def opField (x : Dword) (lo n : Nat) : Nat := (x.extractLsb' lo n).toNat

/-- Rows of a command, in blocks of 32. -/
def rowBlocks (m : Nat) : Nat := (m + 31) / 32

/-- The drain formats of R355/17. -/
def drainFmt (n : Nat) : ElemType :=
  match n with | 0 => .f32 | 1 => .bf16 | 2 => .f16 | 3 => .e4m3 | _ => .e5m2

/-- Operands of `mmul` and `mmb` (R355, R357/17). -/
def MatCmd.rows (c : MatCmd) : Nat := opField c.s0 0 32
def MatCmd.ncols (c : MatCmd) : Nat := 32 * opField c.s0 32 2
def MatCmd.kcols (c : MatCmd) : Nat := 32 * opField c.s0 40 4
def MatCmd.ring (c : MatCmd) : Nat := opField c.s1 0 2
def MatCmd.logsz (c : MatCmd) : Nat := opField c.s1 8 5
def MatCmd.p0 (c : MatCmd) : Nat := opField c.s2 0 4
def MatCmd.np (c : MatCmd) : Nat := opField c.s2 4 4 + 1
def MatCmd.clears (c : MatCmd) : Bool := c.s2.getLsbD 8
def MatCmd.drainSpace (c : MatCmd) : Nat := opField c.s3 60 4
def MatCmd.drainElem (c : MatCmd) : ElemType := drainFmt (opField c.s3 57 3)

/-- Bytes of a ring slot (R355, R357/17). -/
def MatCmd.slotBytes (c : MatCmd) : Nat :=
  match c.op with
  | .mmul f => 32 * c.kcols * elemBytes f
  | _ => 16 * c.kcols + 64 * (c.kcols / 32)

/-- The ring base as a `.sp` scalar. -/
def MatCmd.ringBase (c : MatCmd) : Dword := BitVec.ofNat 64 (2 ^ 60 + opField c.s1 32 22)

/-- The checks of a post by command, with the scratch it reads and writes (R350 to R360/17). -/
def State.matCheck (s : State) (h : Sheaf) (c : MatCmd) : MatChecks × MatCmd :=
  let nf := setNf c.set
  let kf := setKf c.set
  match c.op with
  | .mmul f =>
    let drn := c.drainSpace
    let dsz := elemBytes c.drainElem
    let fields := c.s0.extractLsb' 34 6 ≠ 0 ∨ c.s0.extractLsb' 44 20 ≠ 0 ∨ c.ncols = 0 ∨ 32 * nf < c.ncols ∨ c.kcols = 0 ∨
      32 * (subSlots f * kf) < c.kcols ∨ c.s1.extractLsb' 2 6 ≠ 0 ∨ c.s1.extractLsb' 13 19 ≠ 0 ∨ c.s1.extractLsb' 54 10 ≠ 0 ∨
      16 < c.logsz ∨ c.s2.extractLsb' 9 55 ≠ 0 ∨ 16 < c.p0 + c.np ∨ 2 < drn ∨ c.s3.getLsbD 56 ∨
      (drn ≠ 0 ∧ 4 < opField c.s3 57 3) ∨ (drn = 0 ∧ c.np < rowBlocks c.rows)
    let align := opField c.s1 32 22 % 128 ≠ 0 ∨ (drn ≠ 0 ∧ opField c.s3 0 56 % dsz ≠ 0)
    let src := s.scratchAt h c.ringBase (2 ^ c.logsz * c.slotBytes)
    let dst := if drn = 0 then none
      else s.scratchAt h (BitVec.ofNat 64 (drn * 2 ^ 60 + opField c.s3 0 56)) (c.rows * c.ncols * dsz)
    (⟨decide align, decide fields || src.isNone || (!(drn == 0) && dst.isNone)⟩, { c with src := src, dst := dst })
  | .mmb =>
    let fields := c.s0.extractLsb' 34 6 ≠ 0 ∨ c.s0.extractLsb' 44 20 ≠ 0 ∨ c.ncols = 0 ∨ 32 * nf < c.ncols ∨ c.kcols = 0 ∨
      128 < c.kcols ∨ c.s1.extractLsb' 2 6 ≠ 0 ∨ c.s1.extractLsb' 13 19 ≠ 0 ∨ c.s1.extractLsb' 54 10 ≠ 0 ∨ 16 < c.logsz ∨
      c.s2.extractLsb' 4 60 ≠ 0 ∨ c.s3 ≠ 0 ∨ kf ≠ 1 ∨ 16 < c.p0 + rowBlocks c.rows * (c.kcols / 32)
    let src := s.scratchAt h c.ringBase (2 ^ c.logsz * c.slotBytes)
    (⟨decide (opField c.s1 32 22 % 128 ≠ 0), decide fields || src.isNone⟩, { c with src := src })
  | .msca =>
    let nb := opField c.s0 40 4
    let np := rowBlocks c.rows
    let pp := opField c.s2 0 4
    let ap := opField c.s2 4 4
    let fields := c.s0.extractLsb' 34 6 ≠ 0 ∨ c.s0.extractLsb' 44 20 ≠ 0 ∨ c.ncols = 0 ∨ 32 * nf < c.ncols ∨ nb = 0 ∨ 4 < nb ∨
      c.s2.extractLsb' 9 55 ≠ 0 ∨ c.s3 ≠ 0 ∨ 16 < pp + np * nb ∨ 16 < ap + np ∨ (0 < np ∧ pp < ap + np ∧ ap < pp + np * nb)
    let src := s.scratchAt h c.s1 (c.rows * nb)
    (⟨false, decide fields || src.isNone⟩, { c with src := src })
  | .mldw f =>
    let step := match f with | some t => elemBytes t | none => 16
    let w := match f with | some t => subSlots t | none => 4
    let stride := opField c.s1 0 32
    let k := opField c.s2 0 16
    let n := opField c.s2 16 16
    let row := match f with | some t => k * elemBytes t | none => (k + 1) / 2
    let fields := c.s1.extractLsb' 32 32 ≠ 0 ∨ c.s2.extractLsb' 32 32 ≠ 0 ∨ k = 0 ∨ 32 * w * kf < k ∨ n = 0 ∨ 32 * nf < n ∨
      (f.isSome ∧ c.s3 ≠ 0) ∨ (f.isNone ∧ kf ≠ 1)
    let align := opField c.s0 0 56 % step ≠ 0 ∨ stride % step ≠ 0 ∨ (f.isNone ∧ opField c.s3 0 56 % 2 ≠ 0)
    let src := s.scratchAt h c.s0 ((n - 1) * stride + row)
    let side := if f.isSome then none else s.scratchAt h c.s3 (2 * (n * ((k + 31) / 32)))
    (⟨decide align, decide fields || src.isNone || (f.isNone && side.isNone)⟩, { c with src := src, dst := side })
  | .mswap => ({}, c)
  | .mdrain f =>
    let sz := elemBytes f
    let rows := opField c.s0 16 6
    let tq := c.s0.getLsbD 8
    let stride := opField c.s2 0 32
    let tstride := opField c.s2 32 32
    let nt := 32 * nf
    let fields := c.s0.extractLsb' 5 3 ≠ 0 ∨ c.s0.extractLsb' 10 6 ≠ 0 ∨ c.s0.extractLsb' 22 42 ≠ 0 ∨ rows = 0 ∨ 32 < rows ∨
      (tq = true ∧ tstride < rows) ∨ (tq = false ∧ c.s3 ≠ 0)
    let align := opField c.s1 0 56 % sz ≠ 0 ∨ stride % sz ≠ 0
    let dst := s.scratchAt h c.s1 ((rows - 1) * stride + nt * sz)
    let t := if tq then s.scratchAt h c.s3 (nt * tstride + 1) else none
    (⟨decide align, decide fields || dst.isNone || (tq && t.isNone)⟩, { c with src := dst, dst := t })
  | .mclr =>
    (⟨false, decide (c.s1 ≠ 0 ∨ c.s2 ≠ 0 ∨ c.s3 ≠ 0 ∨ c.s0.extractLsb' 8 56 ≠ 0 ∨ 16 < opField c.s0 0 4 + (opField c.s0 4 4 + 1))⟩, c)

/-- The address of a post's ALIGN: its first operand that names memory. -/
def MatCmd.addrOf (c : MatCmd) : Dword :=
  match c.op with
  | .mmul _ | .mmb => BitVec.ofNat 64 (opField c.s1 32 22)
  | .mdrain _ | .msca => c.s1
  | .mldw _ | .mswap | .mclr => c.s0

/-- A post (R345/17): the checks, then, after the lanes' earlier accesses (R348/17), one FIFO entry, or a wait while the FIFO is full
(R144/06). -/
def State.matPost (s : State) (op : MatOp) (q t a : Nat) : State :=
  let h := s.me
  let c : MatCmd :=
    { id := s.nextId, ctx := h.ctx, launch := h.launch, op := op, set := q, token := t
      s0 := h.sget a, s1 := h.sget (a + 1), s2 := h.sget (a + 2), s3 := h.sget (a + 3)
      satTeams := h.slots.filterMap fun x => x, posted := s.now }
  let (k, c) := s.matCheck h c
  if k.align then s.trapAll .align 0 c.addrOf
  else if k.space then s.trapAll .space 0 0
  else
    match s.orderWait? true true with
    | some t => t
    | none =>
      let s := { s with nextId := s.nextId + 1 }
      if (s.core h.core).fifo.length < 64 then (s.modCore h.core fun x => { x with fifo := x.fifo ++ [c] }).retire
      else s.waitMe (.fifo c)

/-- `mmul.bf16` (R355, R356/17). Posts a matrix product. -/
def execMmulBf16 (q : Nat) (t : Nat) (a : Nat) (_l : Nat) (s : State) : Out := .next (s.matPost (.mmul .bf16) q t a)
/-- `mmul.f16` (R355, R356/17). -/
def execMmulF16 (q : Nat) (t : Nat) (a : Nat) (_l : Nat) (s : State) : Out := .next (s.matPost (.mmul .f16) q t a)
/-- `mmul.e4m3` (R355, R356/17). -/
def execMmulE4m3 (q : Nat) (t : Nat) (a : Nat) (_l : Nat) (s : State) : Out := .next (s.matPost (.mmul .e4m3) q t a)
/-- `mmul.e5m2` (R355, R356/17). -/
def execMmulE5m2 (q : Nat) (t : Nat) (a : Nat) (_l : Nat) (s : State) : Out := .next (s.matPost (.mmul .e5m2) q t a)
/-- `mmb.e2m1` (R357/17). Posts block products. -/
def execMmbE2m1 (q : Nat) (t : Nat) (a : Nat) (_l : Nat) (s : State) : Out := .next (s.matPost .mmb q t a)
/-- `msca` (R358/17). Posts a scaling of partial planes. -/
def execMsca (q : Nat) (t : Nat) (a : Nat) (_l : Nat) (s : State) : Out := .next (s.matPost .msca q t a)
/-- `mldw.bf16` (R350/17). Posts a load of the shadow planes. -/
def execMldwBf16 (q : Nat) (t : Nat) (a : Nat) (_l : Nat) (s : State) : Out := .next (s.matPost (.mldw (some .bf16)) q t a)
/-- `mldw.f16` (R350/17). -/
def execMldwF16 (q : Nat) (t : Nat) (a : Nat) (_l : Nat) (s : State) : Out := .next (s.matPost (.mldw (some .f16)) q t a)
/-- `mldw.e4m3` (R350/17). -/
def execMldwE4m3 (q : Nat) (t : Nat) (a : Nat) (_l : Nat) (s : State) : Out := .next (s.matPost (.mldw (some .e4m3)) q t a)
/-- `mldw.e5m2` (R350/17). -/
def execMldwE5m2 (q : Nat) (t : Nat) (a : Nat) (_l : Nat) (s : State) : Out := .next (s.matPost (.mldw (some .e5m2)) q t a)
/-- `mldw.e2m1` (R350/17). -/
def execMldwE2m1 (q : Nat) (t : Nat) (a : Nat) (_l : Nat) (s : State) : Out := .next (s.matPost (.mldw none) q t a)
/-- `mswap` (R351/17). Posts an exchange of active and shadow planes. -/
def execMswap (q : Nat) (t : Nat) (_l : Nat) (s : State) : Out := .next (s.matPost .mswap q t 0)
/-- `mdrain.f32` (R359/17). Posts a drain of a plane. -/
def execMdrainF32 (q : Nat) (t : Nat) (a : Nat) (_l : Nat) (s : State) : Out := .next (s.matPost (.mdrain .f32) q t a)
/-- `mdrain.bf16` (R359/17). -/
def execMdrainBf16 (q : Nat) (t : Nat) (a : Nat) (_l : Nat) (s : State) : Out := .next (s.matPost (.mdrain .bf16) q t a)
/-- `mdrain.f16` (R359/17). -/
def execMdrainF16 (q : Nat) (t : Nat) (a : Nat) (_l : Nat) (s : State) : Out := .next (s.matPost (.mdrain .f16) q t a)
/-- `mdrain.e4m3` (R359/17). -/
def execMdrainE4m3 (q : Nat) (t : Nat) (a : Nat) (_l : Nat) (s : State) : Out := .next (s.matPost (.mdrain .e4m3) q t a)
/-- `mdrain.e5m2` (R359/17). -/
def execMdrainE5m2 (q : Nat) (t : Nat) (a : Nat) (_l : Nat) (s : State) : Out := .next (s.matPost (.mdrain .e5m2) q t a)
/-- `mclr` (R360/17). Posts a clear of planes. -/
def execMclr (q : Nat) (t : Nat) (a : Nat) (_l : Nat) (s : State) : Out := .next (s.matPost .mclr q t a)

/-- Filled slots of a ring (R145/06). -/
def Ring.filled (r : Ring) : Nat := (r.head - r.tail).toNat

/-- `mpush` (R145/06, R354/17): SPACE when n exceeds the ring; waits for earlier accesses and for room; then the head moves. -/
def execMpush (a : Nat) (_l : Nat) (s : State) : Out :=
  let h := s.me
  let x := h.sget a
  let q := opField x 0 2
  let n := opField x 32 16 + 1
  let r := (s.core h.core).rings.getD q {}
  if 2 ^ r.logsz < n then .next (s.trapAll .space 0 0)
  else
    match s.orderWait? true true with
    | some t => .next t
    | none =>
      if r.filled + n ≤ 2 ^ r.logsz then
        .next (s.modCore h.core fun c =>
          { c with rings := modAt (fun r : Ring => { r with head := r.head + BitVec.ofNat 32 n }) c.rings q }).retire
      else .next (s.waitMe (.ring q n))

/-! ### Resources and starts (R347/17, R238/11) -/

/-- A resource of R347: an array, a shadow plane, a ring, or an accumulator plane, and whether it is written. -/
inductive MatRes where
  | array (q : Nat)
  | shadow (q : Nat)
  | ring (r : Nat)
  | plane (q p : Nat) (write : Bool)
deriving DecidableEq, Repr

/-- Do two resources conflict? -/
def MatRes.clash (a b : MatRes) : Bool :=
  match a, b with
  | .plane q p w, .plane q' p' w' => q == q' && p == p' && (w || w')
  | _, _ => a == b

/-- A range of planes in some quadrants. -/
def planesOf (qs : List Nat) (p n : Nat) (w : Bool) : List MatRes :=
  qs.flatMap fun q => (List.range n).map fun k => .plane q (p + k) w

/-- The resources a command uses (R347/17), on its named and its running set. -/
def MatCmd.resources (c : MatCmd) : List MatRes :=
  let qs := setQuads (c.set ||| c.run)
  let acc := setAcc c.set
  match c.op with
  | .mmul _ => qs.map .array ++ planesOf acc c.p0 c.np true ++ [.ring c.ring]
  | .mmb => qs.map .array ++ planesOf acc c.p0 (rowBlocks c.rows * (c.kcols / 32)) true ++ [.ring c.ring]
  | .msca => planesOf acc (opField c.s2 0 4) (rowBlocks c.rows * opField c.s0 40 4) false ++
      planesOf acc (opField c.s2 4 4) (rowBlocks c.rows) true
  | .mldw _ => qs.map .shadow
  | .mswap => qs.map .array ++ qs.map .shadow
  | .mdrain _ => planesOf acc (opField c.s0 0 4) 1 (c.s0.getLsbD 4)
  | .mclr => planesOf (setQuads c.set) (opField c.s0 0 4) (opField c.s0 4 4 + 1) true

/-- Do two commands conflict? -/
def MatCmd.conflicts (a b : MatCmd) : Bool := a.resources.any fun x => b.resources.any fun y => x.clash y

/-- Does a command run on an array, under a grant? -/
def MatCmd.onArray (c : MatCmd) : Bool := match c.op with | .mmul _ | .mmb => true | _ => false

/-- Does a command take its set's arrays, from its start to its completion or stop (R347, R362/17)? -/
def MatCmd.takesArray (c : MatCmd) : Bool := c.onArray || c.op == .mswap

/-- Is a command at work? -/
def MatCmd.working (c : MatCmd) : Bool := c.started && !c.stopped && !c.done

/-- The level that governs a context's matrix commands (R243/11): from its start on, a squeeze stops those that its target does not
grant. -/
def Res.quadLevel (r : Res) : Nat := if r.squeezing then min r.level r.target else r.level

/-- The quadrants granted to a context on a core (R237/11). -/
def State.quadsGranted (s : State) (core ctx : Nat) : Nat := levelQuads ((((s.core core).res? ctx).map Res.quadLevel).getD 0)

/-- The running set of a command (R244/11): its own, or the largest legal set granted that fits, the lowest mask first. -/
def runningSet (set granted : Nat) : Option Nat :=
  if set &&& granted = set then some set
  else
    let ok := legalSets.filter fun m => m &&& granted == m && decide (setNf m ≤ setNf set) && decide (setKf m ≤ setKf set)
    match ok with
    | [] => none
    | m :: ms => some (ms.foldl (fun b x => if (setQuads b).length < (setQuads x).length then x else b) m)

/-- The set a command would run on now; none where it may not (R349/17). -/
def State.runSet (s : State) (core : Nat) (c : MatCmd) : Option Nat :=
  let g := s.quadsGranted core c.ctx
  if c.onArray then runningSet c.set g else if c.set &&& g = c.set then some c.set else none

/-- The entries before a command in the FIFO. -/
def fifoBefore (fifo : List MatCmd) (id : Nat) : List MatCmd := fifo.takeWhile fun c => !(c.id == id)

/-- Is a running set free for a command (R347/17): no command at work shares an array, a shadow plane, a ring or a written plane with
it there, and no other context's runs on its quadrants (R238/11)? -/
def State.setFree (s : State) (core : Nat) (c : MatCmd) (r : Nat) : Bool :=
  !((s.core core).fifo.any fun e => !(e.id == c.id) && e.working &&
    (e.conflicts { c with run := r } || (!(e.ctx == c.ctx) && !(e.run &&& r == 0))))

/-- May a command start, or become pending (R347/17)? No earlier entry may conflict with it on the set it would run on. -/
def State.mayStart (s : State) (core : Nat) (c : MatCmd) : Option Nat :=
  if c.started || (s.core core).fenced then none
  else
    match s.runSet core c with
    | none => none
    | some r =>
      if ((fifoBefore (s.core core).fifo c.id).any fun e => e.conflicts { c with run := r }) || !s.setFree core c r then none else some r

/-- Change a command. -/
def State.modCmd (s : State) (core id : Nat) (f : MatCmd → MatCmd) : State :=
  s.modCore core fun k => { k with fifo := k.fifo.map fun c => if c.id = id then f c else c }

/-- Has a command no work (R348/17)? -/
def MatCmd.empty (c : MatCmd) : Bool :=
  match c.op with
  | .mmul _ | .mmb | .msca => c.rows == 0
  | .mldw _ | .mswap | .mdrain _ | .mclr => false

/-- A command starts on a set (R347, R352, R353/17): the context gains its quadrants, the ring is bound, a grant ends filler (R362/17). -/
def State.startCmd (s : State) (core : Nat) (c : MatCmd) (r : Nat) : State :=
  let s := s.modQuads core fun k =>
    let k := (setQuads r).foldl (fun k q => k.gainQuad c.ctx q) k
    let k := if c.onArray && !c.empty then (setQuads r).foldl (fun (k : Core) q => { k with quads := modAt (fun x : Quad => { x with filler := 0 }) k.quads q }) k else k
    if c.onArray then
      { k with rings := modAt (fun x : Ring => { x with base := c.src, logsz := c.logsz, slotSize := c.slotBytes }) k.rings c.ring }
    else k
  s.modCmd core c.id fun c => { c with started := true, stopped := false, run := r, done := c.empty }

/-- Does a command need a grant (R361/17)? -/
def MatCmd.needsGrant (c : MatCmd) : Bool := c.onArray && !c.empty

/-- A command of a core. -/
def State.cmd? (s : State) (core id : Nat) : Option MatCmd := (s.core core).fifo.find? fun c => c.id == id

/-- `MATRIX_COMMAND_START` (R347, R361/17). A command that may start does; one that needs a grant, its first slot filled,
becomes pending in this cycle. -/
def execMatrixCommandStart (core cmd : Nat) (s : State) : Out :=
  match s.cmd? core cmd with
  | none => .next s
  | some c =>
    match s.mayStart core c with
    | none => .next s
    | some r =>
      if c.needsGrant then
        if c.askedAt = none ∧ 0 < ((s.core core).rings.getD c.ring {}).filled then
          .next (s.modCmd core cmd fun c => { c with askedAt := some s.now })
        else .next s
      else .next (s.startCmd core c r)

/-! ### The ramp governor (R165/07, R361/17) -/

/-- Entry k of a ramp table. -/
def Ramp.entry (r : Ramp) (k : Nat) : Nat :=
  if k < 8 then (r.lo.extractLsb' (8 * k) 8).toNat else (r.hi.extractLsb' (8 * (min k 15 - 8)) 8).toNat

/-- The pending commands of a cluster: by core, then by the lowest quadrant of the set. -/
def State.pendingCmds (s : State) (cluster : Nat) : List (Nat × MatCmd) :=
  ((List.range Config.coresPerCluster).map fun k => cluster * Config.coresPerCluster + k).flatMap fun core =>
    (sortBy ((s.core core).fifo.filter fun c => c.askedAt.isSome && !c.started) fun a b =>
      decide (((setQuads a.set).headD 0) ≤ ((setQuads b.set).headD 0))).map fun c => (core, c)

/-- The waited cycles go to `$slewcy` (saturating) and the launch record (R105/04, R361/17). -/
def State.chargeWait (s : State) (core : Nat) (c : MatCmd) : State :=
  let n := s.now - c.askedAt.getD s.now
  let s := s.modCore core fun k => { k with slewcy := BitVec.ofNat 32 (min (2 ^ 32 - 1) (k.slewcy.toNat + n)) }
  s.modLaunch c.launch fun l => { l with grantWait := l.grantWait + n }

/-- Grant in order while the step's total does not exceed the entry; a first one that alone exceeds it is granted alone. -/
def State.grantFrom (s : State) (entry : Nat) : Nat → List (Nat × MatCmd) → State
  | _, [] => s
  | used, (core, c) :: rest =>
    match s.mayStart core c with
    | none => State.grantFrom s entry used rest
    | some r =>
      let n := (setQuads r).length
      if used + n ≤ entry ∨ used = 0 then
        let s := (s.chargeWait core c).startCmd core c r
        if entry < used + n then s else State.grantFrom s entry (used + n) rest
      else s

/-- `RAMP_GOVERNOR_STEP` (R165/07, R361/17). The first pending command opens step 0; each step begins four cycles after
the one before; written tables take effect at the boundary. -/
def execRampGovernorStep (cluster : Nat) (s : State) : Out :=
  let r := s.ramp cluster
  let pending := s.pendingCmds cluster
  let r := { r with lo := r.newLo.getD r.lo, hi := r.newHi.getD r.hi, newLo := none, newHi := none }
  match r.opened with
  | none =>
    if pending.isEmpty then .next (s.modRamp cluster fun _ => r)
    else .next ((s.modRamp cluster fun _ => { r with opened := some s.now }).grantFrom (r.entry 0) 0 pending)
  | some t =>
    if (s.now - t) % 4 = 0 then .next ((s.modRamp cluster fun _ => r).grantFrom (r.entry (min 15 ((s.now - t) / 4))) 0 pending)
    else .next s

/-! ### The work of a quantum (R356 to R360/17) -/

/-- Bytes of a team's scratch. -/
def State.scratchRead (s : State) (r : ScratchRef) (off n : Nat) : List Byte :=
  ((s.team? r.team).map fun t => t.mem.read (r.off + off) n).getD []
def State.scratchWrite (s : State) (r : ScratchRef) (off : Nat) (bs : List Byte) : State :=
  s.modTeam r.team fun t => { t with mem := t.mem.write (r.off + off) bs }

/-- An accumulator element of a command's set. -/
def State.accGet (s : State) (core : Nat) (c : MatCmd) (p m n : Nat) : Word :=
  let k := accAt c.set p m n
  cget 0 ((s.core core).planes c.ctx k.1).acc k.2
def State.accPut (s : State) (core : Nat) (c : MatCmd) (p m n : Nat) (x : Word) : State :=
  let k := accAt c.set p m n
  s.modCore core fun z => z.modPlanes c.ctx k.1 fun q => { q with acc := cset 0 q.acc k.2 x }

/-- A weight of the active planes. -/
def State.weight (s : State) (core : Nat) (c : MatCmd) (k n : Nat) : Nat :=
  let w := weightAt c.set k n
  (cget 0 ((s.core core).planes c.ctx w.1).active w.2).toNat

/-- The side pair of a column's block in the active plane. -/
def State.sidePair (s : State) (core : Nat) (c : MatCmd) (n b : Nat) : Nat :=
  (cget sideDefault ((s.core core).planes c.ctx ((setAcc c.set).getD (n / 32) 0)).sideA (n % 32 * 4 + b)).toNat

/-- Every (row, column) of a tile. -/
def tileCells (rows cols : Nat) : List (Nat × Nat) := (List.range rows).flatMap fun m => (List.range cols).map fun n => (m, n)

/-- A command's saturation sets the recorded flags (R195/09, R345/17). -/
def State.satCmd (s : State) (c : MatCmd) (sat : Bool) : State :=
  if sat then c.satTeams.foldl (fun (s : State) t => s.modTeam t fun t => t.setSat s.now) s else s

/-- The exact sum of products of a K-step; an exact sum of 0 is +0 (R200/09). -/
def dotV (xs : List (Val × Val)) : Val := xs.foldl (fun a x => (addV .rne a (mulV x.1 x.2).v).v) (.fin false 0 1)

/-- acc ← round(acc + S, f32, RNE) (R200/09). -/
def accAdd (acc : Word) (x : Val) : Word := BitVec.ofNat 32 (roundF (addV .rne (decodeF .f32 acc.toNat) x).v .f32 .rne).bits

/-- Rows of a command's block. -/
def MatCmd.blockRows (c : MatCmd) : Nat := min 32 (c.rows - 32 * c.block)

/-- The bytes of the slot at a ring's tail (R353/17). -/
def State.slotData (s : State) (core : Nat) (c : MatCmd) : List Byte :=
  let r := (s.core core).rings.getD c.ring {}
  match c.src with
  | some b => s.scratchRead b (r.tail.toNat % 2 ^ c.logsz * c.slotBytes) c.slotBytes
  | none => []

/-- The tail moves to the next slot (R145/06). -/
def State.popSlot (s : State) (core ring : Nat) : State :=
  s.modCore core fun k => { k with rings := modAt (fun r : Ring => { r with tail := r.tail + 1 }) k.rings ring }

/-- One element drained into a format. -/
def drainElemOf (f : ElemType) (x : Word) : FRes := roundF (decodeF .f32 x.toNat) (elemFmt f) .rne

/-- The drain of a row block (R356/17). -/
def State.drainBlock (s : State) (core : Nat) (c : MatCmd) (p : Nat) : State :=
  match c.dst with
  | none => s
  | some d =>
    let sz := elemBytes c.drainElem
    (tileCells c.blockRows c.ncols).foldl (fun (s : State) mn =>
      let r := drainElemOf c.drainElem (s.accGet core c p mn.1 mn.2)
      (s.scratchWrite d (((32 * c.block + mn.1) * c.ncols + mn.2) * sz) (bytesOfNat sz r.bits)).satCmd c r.r.sat) s

/-- One K-step of `mmul` (R356/17), its rows of K the running set's own (R244/11). -/
def State.mmulStep (s : State) (core : Nat) (c : MatCmd) (f : ElemType) : State :=
  let p := c.p0 + c.block % c.np
  let rows := c.blockRows
  let data := s.slotData core c
  let sz := elemBytes f
  let width := 32 * setKf c.run
  let ks := (List.range width).map (fun k => c.kpos + k) |>.filter fun k => decide (k < c.kcols)
  let fresh := c.kpos == 0 && (c.clears || !(c.drainSpace == 0))
  let s := (tileCells rows c.ncols).foldl (fun (s : State) mn =>
    let acc := if fresh then 0 else s.accGet core c p mn.1 mn.2
    let dot := dotV (ks.map fun k =>
      (decodeF (elemFmt f) (fieldOf data ((mn.1 * c.kcols + k) * sz) sz), decodeF (elemFmt f) (s.weight core c k mn.2)))
    s.accPut core c p mn.1 mn.2 (accAdd acc dot)) s
  if c.kpos + width < c.kcols then s.modCmd core c.id fun c => { c with kpos := c.kpos + width, ksteps := c.ksteps + 1 }
  else
    ((s.popSlot core c.ring).drainBlock core c p).modCmd core c.id fun c =>
      { c with kpos := 0, ksteps := c.ksteps + 1, block := c.block + 1, done := decide (rowBlocks c.rows ≤ c.block + 1) }

/-- One block product of `mmb` (R201/09, R357/17). -/
def State.mmbStep (s : State) (core : Nat) (c : MatCmd) : State :=
  let nb := c.kcols / 32
  let j := c.kpos / 32
  let p := c.p0 + c.block * nb + j
  let data := s.slotData core c
  let elem (pair code : Nat) : Val := if pair % 256 = 255 then .nan else e2m1Val (pair / 256) code
  let s := (tileCells c.blockRows c.ncols).foldl (fun (s : State) mn =>
    let pa := fieldOf data (16 * c.kcols + 2 * (mn.1 * nb + j)) 2
    let pb := s.sidePair core c mn.2 j
    let dot := dotV ((List.range 32).map fun i =>
      let k := 32 * j + i
      let byte := fieldOf data (mn.1 * (c.kcols / 2) + k / 2) 1
      (elem pa (byte / 16 ^ (k % 2) % 16), elem pb (s.weight core c k mn.2 % 16)))
    s.accPut core c p mn.1 mn.2 (BitVec.ofNat 32 (roundF dot .f32 .rne).bits)) s
  if j + 1 < nb then s.modCmd core c.id fun c => { c with kpos := c.kpos + 32, ksteps := c.ksteps + 1 }
  else (s.popSlot core c.ring).modCmd core c.id fun c =>
    { c with kpos := 0, ksteps := c.ksteps + 1, block := c.block + 1, done := decide (rowBlocks c.rows ≤ c.block + 1) }

/-- One accumulator row of `msca` (R201/09, R358/17). -/
def State.mscaStep (s : State) (core : Nat) (c : MatCmd) : State :=
  let nb := opField c.s0 40 4
  let pp := opField c.s2 0 4
  let ap := opField c.s2 4 4
  let row := 32 * c.block + c.kpos
  let s := (List.range c.ncols).foldl (fun (s : State) n =>
    let start := if c.clears then 0 else s.accGet core c (ap + c.block) c.kpos n
    let x := (List.range nb).foldl (fun (acc : Word) j =>
      let sr := match c.src with | some r => natOfBytes (s.scratchRead r (row * nb + j) 1) | none => 0
      let sc := s.sidePair core c n j % 256
      if sr = 255 ∨ sc = 255 then BitVec.ofNat 32 Fmt.f32.canon
      else accAdd acc ((decodeF .f32 (s.accGet core c (pp + c.block * nb + j) c.kpos n).toNat).scale
        (((sr : Int) - 127) + ((sc : Int) - 127)))) start
    s.accPut core c (ap + c.block) c.kpos n x) s
  s.modCmd core c.id fun c =>
    if c.kpos + 1 < c.blockRows then { c with kpos := c.kpos + 1 }
    else { c with kpos := 0, block := c.block + 1, done := decide (rowBlocks c.rows ≤ c.block + 1) }

/-- Change the shadow planes of a set's quadrants. -/
def State.modSet (s : State) (core : Nat) (c : MatCmd) (f : Quad → Quad) : State :=
  s.modCore core fun k => (setQuads c.set).foldl (fun k q => k.modPlanes c.ctx q f) k

/-- One weight row of `mldw` (R350/17); the first clears the shadow planes to the zero code and scale 1. -/
def State.mldwStep (s : State) (core : Nat) (c : MatCmd) (f : Option ElemType) : State :=
  let stride := opField c.s1 0 32
  let kn := opField c.s2 0 16
  let nn := opField c.s2 16 16
  let n := c.kpos
  let s := if n = 0 then s.modSet core c fun q => { q with shadow := [], sideS := [] } else s
  let put (s : State) (k : Nat) (x : Nat) : State :=
    let w := weightAt c.set k n
    s.modCore core fun z => z.modPlanes c.ctx w.1 fun q => { q with shadow := cset 0 q.shadow w.2 (BitVec.ofNat 16 x) }
  let s := match c.src with
    | none => s
    | some r =>
      match f with
      | some t =>
        let sz := elemBytes t
        let row := s.scratchRead r (n * stride) (kn * sz)
        (List.range kn).foldl (fun s k => put s k (fieldOf row (k * sz) sz)) s
      | none =>
        let row := s.scratchRead r (n * stride) ((kn + 1) / 2)
        let s := (List.range kn).foldl (fun s k => put s k (fieldOf row (k / 2) 1 / 16 ^ (k % 2) % 16)) s
        let nb := (kn + 31) / 32
        match c.dst with
        | none => s
        | some e =>
          let pairs := s.scratchRead e (2 * (n * nb)) (2 * nb)
          let q := (setAcc c.set).getD (n / 32) 0
          (List.range nb).foldl (fun (s : State) b => s.modCore core fun z => z.modPlanes c.ctx q fun x =>
            { x with sideS := cset sideDefault x.sideS (n % 32 * 4 + b) (BitVec.ofNat 16 (fieldOf pairs (2 * b) 2)) }) s
  s.modCmd core c.id fun c => { c with kpos := n + 1, done := decide (nn ≤ n + 1) }

/-- The exchange of `mswap` (R351/17). -/
def State.mswapStep (s : State) (core : Nat) (c : MatCmd) : State :=
  (s.modSet core c fun q => { q with active := q.shadow, shadow := q.active, sideA := q.sideS, sideS := q.sideA }).modCmd core c.id
    fun c => { c with done := true }

/-- The larger of two magnitudes; only finite values count. -/
def amaxStep (a : Nat × Nat) (x : Word) : Nat × Nat :=
  match decodeF .f32 x.toNat with
  | .fin _ n d => if a.1 * d < n * a.2 then (n, d) else a
  | .nan | .inf _ => a

/-- The scale code of a transposed copy (R359/17): 127 + e, e least with amax ≤ maxfin × 2^e. -/
def scaleCode (amax : Nat × Nat) (f : Fmt) : Nat :=
  if amax.1 = 0 then 127
  else
    match decodeF f (f.maxfin false) with
    | .fin _ n d =>
      let e := floorLog2 amax.1 amax.2 - floorLog2 n d
      let m := scaleQ n d e
      let e := if amax.1 * m.2 ≤ m.1 * amax.2 then e else e + 1
      (min (max (127 + e) 0) 254).toNat
    | .nan | .inf _ => 127

/-- The transposed copy of `mdrain` (R359/17). -/
def State.transposed (s : State) (core : Nat) (c : MatCmd) (r : ScratchRef) (p h nt : Nat) : State :=
  let ty : ElemType := if c.s0.getLsbD 9 then .e5m2 else .e4m3
  let f := elemFmt ty
  let stride := opField c.s2 32 32
  let cells := tileCells h nt
  let amax := cells.foldl (fun a mn => amaxStep a (s.accGet core c p mn.1 mn.2)) (0, 1)
  let code := scaleCode amax f
  let s := cells.foldl (fun (s : State) mn =>
    let x := roundF ((decodeF .f32 (s.accGet core c p mn.1 mn.2).toNat).scale (127 - (code : Int))) f .rne
    (s.scratchWrite r (mn.2 * stride + mn.1) (bytesOfNat 1 x.bits)).satCmd c x.r.sat) s
  s.scratchWrite r (nt * stride) (bytesOfNat 1 code)

/-- One accumulator row of `mdrain` (R359/17); after the last, the transposed copy and the clear. -/
def State.mdrainStep (s : State) (core : Nat) (c : MatCmd) (f : ElemType) : State :=
  let p := opField c.s0 0 4
  let h := opField c.s0 16 6
  let stride := opField c.s2 0 32
  let nt := 32 * setNf c.set
  let sz := elemBytes f
  let m := c.kpos
  let s := match c.src with
    | none => s
    | some d => (List.range nt).foldl (fun (s : State) n =>
        let r := drainElemOf f (s.accGet core c p m n)
        (s.scratchWrite d (m * stride + n * sz) (bytesOfNat sz r.bits)).satCmd c r.r.sat) s
  if m + 1 < h then s.modCmd core c.id fun c => { c with kpos := m + 1 }
  else
    let s := match c.dst with
      | some r => s.transposed core c r p h nt
      | none => s
    let s := if c.s0.getLsbD 4 then (tileCells h nt).foldl (fun s mn => s.accPut core c p mn.1 mn.2 0) s else s
    s.modCmd core c.id fun c => { c with kpos := m + 1, done := true }

/-- One accumulator row of `mclr` (R360/17). -/
def State.mclrStep (s : State) (core : Nat) (c : MatCmd) : State :=
  let p := opField c.s0 0 4
  let n := opField c.s0 4 4 + 1
  let lo (x : Nat) : Bool := decide (p * 1024 ≤ x) && decide (x < (p + n) * 1024) && x / 32 % 32 == c.kpos
  (s.modSet core c fun q => { q with acc := q.acc.filter fun x => !lo x.1 }).modCmd core c.id fun c =>
    { c with kpos := c.kpos + 1, done := decide (32 ≤ c.kpos + 1) }

/-- One self-timed quantum of a command at work (R23/01): a K-step, a row, or an exchange; at a row block's start the
command waits for its slot (R145/06). -/
def State.kstep (s : State) (core cmd : Nat) : State :=
  match s.cmd? core cmd with
  | none => s
  | some c =>
    if !c.working || c.starved then s
    else if c.onArray && c.kpos == 0 && ((s.core core).rings.getD c.ring {}).filled == 0 then
      s.modCmd core cmd fun c => { c with starved := true }
    else
      match c.op with
      | .mmul f => s.mmulStep core c f
      | .mmb => s.mmbStep core c
      | .msca => s.mscaStep core c
      | .mldw f => s.mldwStep core c f
      | .mswap => s.mswapStep core c
      | .mdrain f => s.mdrainStep core c f
      | .mclr => s.mclrStep core c

/-- `RING_SLOT_WAIT_END` (R145/06, R356/17). A slot has been filled. -/
def execRingSlotWaitEnd (core cmd : Nat) (s : State) : Out :=
  match s.cmd? core cmd with
  | none => .next s
  | some c =>
    if 0 < ((s.core core).rings.getD c.ring {}).filled then .next (s.modCmd core cmd fun c => { c with starved := false }) else .next s

/-! ### Completion, filler and stops -/

/-- The array of a set's quadrants is left: filler runs for the 12 cycles after this one (R362/17); the counter falls by 1 at
each cycle's end and has finished at 1. -/
def State.leaveArray (s : State) (core : Nat) (c : MatCmd) : State :=
  if c.takesArray then
    s.modCore core fun k => { k with quads := k.quads.mapIdx fun q (x : Quad) => if c.run.testBit q then { x with filler := 14 } else x }
  else s

/-- A command leaves the FIFO. -/
def State.freeCmd (s : State) (core cmd : Nat) : State :=
  s.modCore core fun k => { k with fifo := k.fifo.filter fun c => !(c.id == cmd) }

/-- Have the commands of a launch stopped counting: a trap has ended it (R231/11)? -/
def State.launchClosed (s : State) (launch : Nat) : Bool := ((s.launch? launch).map fun l => l.closed).getD false

/-- `MATRIX_COMMAND_COMPLETION` (R144/06, R180/08, R348/17). The token rises, but for a command of an ended launch (R231/11), and the
entry is freed. -/
def execMatrixCommandCompletion (core cmd : Nat) (s : State) : Out :=
  match s.cmd? core cmd with
  | none => .next s
  | some c =>
    if ¬ c.done then .next s
    else
      let s := s.leaveArray core c
      let s := if s.launchClosed c.launch then s else s.tokenInc core c.ctx c.token false
      .next (s.freeCmd core cmd)

/-- `FILLER_FINISHED` (R362/17). A quadrant is idle. -/
def execFillerFinished (core quad : Nat) (s : State) : Out :=
  .next (s.modCore core fun k => { k with quads := modAt (fun x : Quad => { x with filler := 0 }) k.quads quad })

/-- Must a command stop: a quadrant it runs on is not granted, or its launch is ended (R231, R243, R244/11)? An exchange does not stop
(R349/17). -/
def State.mustStop (s : State) (core : Nat) (c : MatCmd) : Bool :=
  c.working && (s.launchClosed c.launch ||
    (!(c.op == .mswap) && !(c.run &&& s.quadsGranted core c.ctx == c.run)))

/-- `MATRIX_QUIESCENT_STOP` (R231, R244/11, R349/17). The command stops with its progress; planes the level does not grant
are saved; a command of an ended launch is removed and counts no token. -/
def execMatrixQuiescentStop (core cmd : Nat) (s : State) : Out :=
  match s.cmd? core cmd with
  | none => .next s
  | some c =>
    if ¬ s.mustStop core c then .next s
    else
      let s := s.leaveArray core c
      if s.launchClosed c.launch then .next (s.freeCmd core cmd)
      else
        let g := s.quadsGranted core c.ctx
        .next ((s.modQuads core fun k => k.takeQuads c.ctx g).modCmd core cmd fun c =>
          { c with stopped := true, starved := false, askedAt := none })

/-- `MATRIX_COMMAND_RESUME` (R244/11, R349/17). A stopped command resumes on the quadrants granted: one on arrays asks for
a new grant; any other goes on once its whole set is granted. -/
def execMatrixCommandResume (core cmd : Nat) (s : State) : Out :=
  match s.cmd? core cmd with
  | none => .next s
  | some c =>
    if ¬ (c.started && c.stopped) then .next s
    else
      match s.runSet core c with
      | none => .next s
      | some r =>
        if ¬ s.setFree core c r then .next s
        else if c.onArray then .next (s.modCmd core cmd fun c => { c with started := false, run := 0 })
        else .next (s.startCmd core c r)

/-- The first post of a sheaf that waits for the FIFO. -/
def Sheaf.fifoWait (h : Sheaf) : Option (Wait × MatCmd) :=
  h.waits.findSome? fun w => match w.kind with | .fifo c => some (w, c) | _ => none

/-- `MATRIX_FIFO_POST_RESUME` (R144/06). The waiting post takes an entry that was freed. -/
def execMatrixFifoPostResume (sheaf : Nat) (s : State) : Out :=
  match s.sheaf? sheaf with
  | none => .next s
  | some h =>
    match h.fifoWait with
    | none => .next s
    | some (w, c) =>
      if (s.core h.core).fifo.length < 64 then
        .next ((s.modCore h.core fun k => { k with fifo := k.fifo ++ [{ c with posted := s.now }] }).finishWait sheaf w)
      else .next s

/-! ### Status (R360/17) -/

/-- What `mstat` reads of a core is kept as it stands at the start of a cycle (R363/17); a quadrant whose filler has finished is idle. -/
def Core.seeMatrix (c : Core) : Core :=
  { c with seen := ⟨c.fifo, c.quads.map fun q => decide (1 < q.filler), c.res.map fun r => (r.ctx, r.level)⟩ }

/-- The status of a quadrant as `mstat` reads it, at the start of the cycle (R360, R363/17). -/
def State.quadStatus (s : State) (core ctx q : Nat) : Dword :=
  let k := (s.core core).seen
  let fifo := k.fifo
  let on := fifo.find? fun c => c.takesArray && c.started && !c.stopped && c.run.testBit q
  let pidx : BitVec 16 := BitVec.ofNat 16 ((on.map fun c => c.ksteps).getD 0)
  let tk : BitVec 3 := BitVec.ofNat 3 ((on.map fun c => c.token).getD 0)
  let nogr := !(levelQuads ((k.levels.lookup ctx).getD 0)).testBit q
  let fill := k.fills.getD q false
  let waitg := fifo.any fun c => c.askedAt.isSome && !c.started && c.set.testBit q
  let stop := fifo.any fun c => c.stopped && c.set.testBit q
  let shld := fifo.any fun c => (match c.op with | .mldw _ => true | _ => false) && c.started && !c.stopped && c.set.testBit q
  (0 : BitVec 16) ++ pidx ++ ((0 : BitVec 1) ++ BitVec.ofNat 7 (min 64 fifo.length) ++ tk ++ (0 : BitVec 13) ++
    BitVec.ofBool nogr ++ BitVec.ofBool fill ++ BitVec.ofBool waitg ++ BitVec.ofBool stop ++ BitVec.ofBool shld ++
    BitVec.ofBool on.isSome ++ (0 : BitVec 2))

/-- `mstat` (R360/17). Writes the quadrants' status to four scalars. -/
def execMstat (a : Nat) (_l : Nat) (s : State) : Out :=
  let h := s.me
  .next ((List.range 4).foldl (fun (t : State) q => t.swrite (a + q) (s.quadStatus h.core h.ctx q)) s).retire

end Sys2Proof.Machine
end

