-- ==== Sys2Proof/Machine/Traps.lean ====
section
/-! DEFINITION. The trap and its return: trap, tret, nret, lane PCs and special registers (R232, R235/11, R340/16, R375 to R379/18). -/

namespace Sys2Proof.Machine

/-- The lanes of a load made again that fault (R235/11), and the values of the others. -/
def State.replayLanes (s : State) (h : Sheaf) (r : Replay) : List LaneAccess → (List LaneFault × List (Nat × Nat × Word)) × State
  | [] => (([], []), s)
  | x :: xs =>
    match s.resolve h .load r.space x.addr r.width.bytes x.lane with
    | (.error c, s) =>
      let (q, s) := State.replayLanes s h r xs
      ((⟨x.lane, c, x.addr⟩ :: q.1, q.2), s)
    | (.ok t, s) =>
      let reach := s.reachOf h r.ordered
      let (bs, s) := s.readTarget h t r.width.bytes ⟨decide (3 ≤ reach), reach == 6⟩
      let (q, s) := State.replayLanes s h r xs
      ((q.1, loadVals x.lane r.dreg bs ++ q.2), s)

/-- Does a load made again meet, in a lane, a remote store of that lane in flight, which comes before it (R210/10)? -/
def State.replayMeets (s : State) (h : Sheaf) (r : Replay) (x : LaneAccess) : Bool :=
  match (s.resolve h .load r.space x.addr r.width.bytes x.lane).1 with
  | .ok t => s.meetsRemote h.id [(x.lane, t)] r.width.bytes
  | .error _ => false

/-- A load is made again for some lanes (R112/04, R235, R310/15): its data registers are brought in, its accesses performed; an
acquire at cluster scope or wider that has been performed in a lane invalidates the core's L1 (R210, R211/10). -/
def State.replayLoad (s : State) (h : Sheaf) (r : Replay) (xs : List LaneAccess) : (List LaneFault × List (Nat × Nat × Word)) × State :=
  match s.touchRegs h ((List.range (widthRegs r.width)).map fun k => r.dreg + k) with
  | (some a, s) => ((xs.map fun x => ⟨x.lane, .regback, a⟩, []), s)
  | (none, s) =>
    let (q, s) := s.replayLanes h r xs
    (q, if decide (q.1.length < xs.length) && r.acquires && decide (3 ≤ s.reachOf h r.ordered) then s.l1Clear h.core else s)

/-- The load replay of R235/11: none when it does not fault, with its data written; else the state in which the handler
lanes are again at the vector entry of the cause, the trap registers and held PCs as they were. -/
def State.loadReplay (s : State) (id : Nat) : Option State × State :=
  match s.sheaf? id with
  | none => (none, s)
  | some h =>
    match h.replay with
    | none => (none, s)
    | some r =>
      let (q, s) := s.replayLoad h r r.lanes
      if q.1.isEmpty then (none, s.modSheaf id fun h => { h.landVals q.2 with replay := none })
      else
        let (vec, s) := s.vectorEntry h.core h.ctx r.cause
        if vec = 0 then (some (s.endLaunch h r.cause), s)
        else
          let hl := h.handlerLanes
          (some (s.modSheaf id fun h =>
            { h with lanes := h.lanes.mapIdx fun l (ln : Lane) => if hl.getLsbD l then { ln with pc := BitVec.ofNat 56 vec } else ln }), s)

/-- Lanes that return from WATCH issue the instruction at their held PCs once without WATCH (R377/18). -/
def Sheaf.skipWatch (h : Sheaf) (ls : Mask) : Sheaf :=
  { h with
    watchSkip := h.watchSkip ||| ls
    lanes := h.lanes.mapIdx fun l (ln : Lane) => if ls.getLsbD l then { ln with skipPc := ln.pc } else ln }

/-- The return from a trap (R232/11, R340/16, R377/18): drain, replay, which waits for remote stores that it meets (R210/10), then the lanes go to their held PCs; a return from
NOTICE counts for R242, a return from WATCH lets the held instructions issue once without WATCH. -/
def State.trapReturn (s : State) : State :=
  match s.drain? with
  | some t => t
  | none =>
    match s.cur with
    | none => s
    | some i =>
      if (s.me.replay.map fun r => r.lanes.any (s.replayMeets s.me r)).getD false then s.stallMe
      else
      match s.loadReplay i.sheaf with
      | (some t, _) => t
      | (none, s) =>
        let cause := (s.me.trap.tcause.extractLsb' 0 6).toNat
        let hl := s.me.handlerLanes
        let s := s.modMe fun h =>
          let q := h.leaveTrap
          if cause = causeCode .watch then q.skipWatch hl else q
        if cause = causeCode .notice then s.noticeReturned i.sheaf else s

/-- `trap` (R375/18). Traps TRAP, sheaf-wide, with INFO = i. -/
def execTrap (i : BitVec 8) (s : State) : Out := .next (s.trapAll .trap i.toNat 0)

/-- `tret` (R377/18). ILLOP at trap level 0; else the return. -/
def execTret (s : State) : Out :=
  if s.me.tl = 0 then .next (s.trapAll .illop 0 0) else .next s.trapReturn

/-- `nret` (R340/16). Legal only in a handler whose `$tcause` reads NOTICE; the steps of `tret`, with `$nleft` zeroed. -/
def execNret (s : State) : Out :=
  if s.me.tl = 0 ∨ (s.me.trap.tcause.extractLsb' 0 6).toNat ≠ causeCode .notice then .next (s.trapAll .illop 0 0)
  else .next s.trapReturn

/-- `lpc.rd` (R378/18). The PC of lane A mod 64, held at trap level 1 or more; bit 63 exited, bit 62 waiting, be it for the
scoreboard (R35/02). -/
def execLpcRd (d : Nat) (a : Nat) (s : State) : Out :=
  let k := (s.src a).toNat % 64
  let h := s.me
  let pc := if h.tl = 0 then (h.lane k).pc else (h.lane k).held
  let x : Dword := pc.setWidth 64 ||| (if h.exited.getLsbD k then (1 : Dword) <<< 63 else 0) |||
    (if (waitMask h.waits ||| h.stalled ||| h.blocked).getLsbD k then (1 : Dword) <<< 62 else 0)
  .next (s.swrite d x).retire

/-- `lpc.wr` (R378/18). Sets the held PC of lane A mod 64; ILLOP at level 0, SPACE when B[63:56] ≠ 0. -/
def execLpcWr (a : Nat) (b : Nat) (s : State) : Out :=
  let k := (s.src a).toNat % 64
  let x := s.src b
  if s.me.tl = 0 then .next (s.trapAll .illop 0 0)
  else if x.extractLsb' 56 8 ≠ 0 then .next (s.trapAll .space 0 0)
  else .next (s.modMe fun h => h.modLane k fun ln => { ln with held := x.setWidth 56 &&& ~~~3 }).retire

/-- `$ctrl` as written (R101/04): DIVTMR clamped to 4 to 12, unused bits ignored. -/
def ctrlWrite (x : Dword) : BitVec 24 :=
  let t := (x.extractLsb' 20 4).toNat
  let t := if t < 4 then 4 else if 12 < t then 12 else t
  BitVec.ofNat 4 t ++ x.extractLsb' 8 12 ++ (0 : BitVec 8)

/-- A write of `$ctrl`; one that clears PROG empties the favoured set and clears every yielded mark (R42/02). -/
def Sheaf.writeCtrl (h : Sheaf) (x : Dword) : Sheaf :=
  let h := { h with ctrl := ctrlWrite x }
  if h.prog then h else { h with favoured := 0, favouredOld := none, yielded := 0 }

/-- A write of `$status` (R106/04): bits written as 1 are cleared, but those raised in this cycle; SAT bits are their teams'. -/
def State.writeStatus (s : State) (x : Dword) : State :=
  let h := s.me
  let s := s.modMe fun h =>
    { h with flags := FpFlags.ofBits (h.flags.bits &&& (~~~(x.extractLsb' 0 5) ||| h.raised.bits)) }
  (List.range 4).foldl (fun (s : State) k =>
    match x.getLsbD (5 + k), h.slots.getD k none with
    | true, some t => s.modTeam t fun t => t.clearSat s.now
    | _, _ => s) s

/-- A write of `$nbudget` is clamped to its bounds (R104/04); DESIGN CHOICE: bits 63..32 of
the value are dropped first (log 86). -/
def clampBudget (x : Dword) : BitVec 32 :=
  let n := (x.setWidth 32).toNat
  BitVec.ofNat 32 (max 1024 (min 65536 n))

/-- `spcw` (R379/18). Writes a special register under its access code (R100/04): `$ctrl` RW, `$status` W1C, `$nbudget` and
`$slewcy` SRW (PRIV in a lane program); every other is RO or HW and traps ILLOP. -/
def execSpcw (a : Nat) (b : Nat) (s : State) : Out :=
  let x := s.src a
  let h := s.me
  match b with
  | 111 => .next (s.modMe fun h => h.writeCtrl x).retire
  | 113 => .next (s.writeStatus x).retire
  | 107 =>
    if s.supervisor h.ctx then .next (s.modCtx h.ctx fun c => { c with nbudget := clampBudget x }).retire
    else .next (s.trapAll .priv 0 0)
  | 110 =>
    if s.supervisor h.ctx then .next (s.modCore h.core fun c => { c with slewcy := x.setWidth 32 }).retire
    else .next (s.trapAll .priv 0 0)
  | _ => .next (s.trapAll .illop 0 0)

end Sys2Proof.Machine
end

