-- ==== Sys2Proof/Machine/Residency.lean ====
section
/-! DEFINITION. Issue choice (R39 to R46/02) and the residency of a context on a core: NOTICE, squeeze, expansion, page moves, the reclaim arithmetic (R237 to R243/11). -/

namespace Sys2Proof.Machine

/-! ### The broadcast PC (R37 to R42/02) -/

/-- The least of a list of PCs. -/
def leastPc (xs : List Vaddr) : Option Vaddr :=
  match xs with
  | [] => none
  | x :: xs => some (xs.foldl (fun b y => if y < b then y else b) x)

/-- The age of a PC: the largest broadcast-wait counter among the ready lanes there. -/
def Sheaf.pcAge (h : Sheaf) (pc : Vaddr) : Nat :=
  (lanesOf h.ready).foldl (fun a l => if (h.lane l).pc = pc then max a (h.lane l).bwait else a) 0

/-- The starved PC of case 1 (R39/02): the greatest age at or above the fairness period, the lowest PC among equals. -/
def Sheaf.starvedPc (h : Sheaf) : Option Vaddr :=
  let pcs := (lanesOf h.ready).map fun l => (h.lane l).pc
  let top := pcs.foldl (fun a p => max a (h.pcAge p)) 0
  if h.fairness ≤ top then leastPc (pcs.filter fun p => h.pcAge p == top) else none

/-- The broadcast PC (R39, R41/02); none without a ready lane. -/
def Sheaf.broadcastPc (h : Sheaf) : Option Vaddr :=
  let pcs (m : Mask) : Option Vaddr := leastPc ((lanesOf m).map fun l => (h.lane l).pc)
  if !h.prog then pcs h.ready
  else
    match h.starvedPc with
    | some p => some p
    | none =>
      match pcs (h.favoured &&& h.ready &&& ~~~h.yielded) with
      | some p => some p
      | none =>
        match pcs (h.ready &&& ~~~h.yielded) with
        | some p => some p
        | none => pcs h.ready

/-- The lanes active at a PC (R37/02). -/
def Sheaf.lanesAt (h : Sheaf) (pc : Vaddr) : Mask := maskOf ((lanesOf h.ready).filter fun l => (h.lane l).pc == pc)

/-- `FAIRNESS_PERIOD_EXPIRY` (R39/02 case 1). The lanes at the starved PC become the favoured set; a cycle in which the sheaf does not
issue after all gives the replaced one back. -/
def execFairnessPeriodExpiry (sheaf : Nat) (s : State) : Out :=
  .next (s.modSheaf sheaf fun h =>
    if !h.prog then h
    else
      match h.starvedPc with
      | some p => { h with favoured := h.lanesAt p, favouredOld := some h.favoured }
      | none => h)

/-- `STARVING_SHEAF` (R46/02). Its pipe issues it before the greedy choice: it becomes the sheaf of the greedy run. -/
def execStarvingSheaf (sheaf : Nat) (s : State) : Out :=
  match s.sheaf? sheaf with
  | none => .next s
  | some h =>
    if 4088 ≤ h.starve ∧ s.mayIssue h then
      let p := s.pipeOf h
      .next (s.modCore h.core fun c => { c with pipes := modAt (fun x : Pipe => { x with last := some sheaf }) c.pipes p })
    else .next s

/-- `FOLD_QUANTUM_EXPIRY` (R239/11). A group's sheaf has held the slot for 512 cycles, or has no ready lane: the next takes it. -/
def execFoldQuantumExpiry (core ctx group : Nat) (s : State) : Out :=
  match (s.core core).res? ctx with
  | none => .next s
  | some r =>
    let t := cget (0, 0) r.turns group
    let idle : Bool := match (s.residents core ctx).find? fun h => h.slot == t.1 && s.foldGroup h == some group with
      | some h => h.ready == 0
      | none => true
    if idle || decide (t.2 + 512 ≤ s.now) then .next (s.nextTurn core ctx group s.now) else .next s

/-! ### NOTICE and EXPAND (R233, R242, R243/11) -/

/-- The number of the lowest valid team slot, or 0 (R243/11). -/
def Sheaf.lowSlot (h : Sheaf) : Nat := (((List.range 4).find? fun k => (h.slots.getD k none).isSome)).getD 0

/-- A pending NOTICE of a sheaf, or else a pending EXPAND, is taken between two instructions (R233, R234/11). No instruction traps
there: `$tpc` and `$tlanes` hold the lowest handler lane's PC and the handler lanes (log 75). DESIGN CHOICE: an EXPAND that finds no
handler lane is dropped (log 105). -/
def State.takePending (s : State) (sheaf : Nat) : State :=
  match s.sheaf? sheaf with
  | none => s
  | some h =>
    if 2 ≤ h.tl ∨ h.place ≠ .resident then s
    else
      let hl := h.handlerLanes
      let tpc := (h.lane (lowestLane hl)).pc
      if h.noticePending then
        if hl = 0 then s.noticeReturned sheaf
        else (s.modSheaf sheaf fun h => { h with noticePending := false }).takeTrap sheaf .notice h.lowSlot 0 hl tpc none
      else if h.expandPending then
        let s := s.modSheaf sheaf fun h => { h with expandPending := false }
        if hl = 0 then s else s.takeTrap sheaf .expand h.lowSlot 0 hl tpc none
      else s

/-- `NOTICE_TRAP` (R233, R234/11). -/
def execNoticeTrap (sheaf : Nat) (s : State) : Out := .next (s.takePending sheaf)

/-- A NOTICE reaches every sheaf of a context on a core (R104/04, R242/11): `$nleft` is loaded, and the trap is taken
where the trap level allows; a sheaf without a handler lane counts as having returned. -/
def State.deliverNotice (s : State) (core ctx : Nat) : State :=
  if (((s.core core).res? ctx).bind fun r => r.noticeAt).isNone then s
  else
  let ids := (s.residents core ctx).map fun h => h.id
  let s := s.modRes core ctx fun r => { r with noticeAt := none, noticed := true, affected := ids }
  let s := ids.foldl (fun (s : State) id => s.modSheaf id fun h =>
    { h with noticeOut := true, noticePending := true, nleft := (s.ctx ctx).nbudget }) s
  let s := ids.foldl (fun (s : State) id =>
    match s.sheaf? id with
    | some h => if h.handlerLanes = 0 then s.noticeReturned id else s.takePending id
    | none => s) s
  s.squeezeIfReturned core ctx

/-- `FORCED_SQUEEZE` (R166/07, R242/11). An affected sheaf has used up its budget, or has no handler: the squeeze begins. -/
def execForcedSqueeze (core ctx : Nat) (s : State) : Out :=
  match (s.core core).res? ctx with
  | none => .next s
  | some r =>
    let late := r.affected.any fun id => match s.sheaf? id with | some h => h.noticeOut && h.nleft == 0 | none => false
    if r.noticed && (r.forced || late) then .next (s.beginSqueeze core ctx) else .next s

/-- Is a page gone, or does it drain, so that it is not moved (R136/05)? -/
def State.pageStays (s : State) (p : PageRef) : Bool :=
  match p with
  | .team t _ => (match s.team? t with | some t => t.ended | none => true)
  | .slice h _ => (s.sheaf? h).isNone

/-- A page moves to barn or back, if it is not there. -/
def State.movePage (s : State) (p : PageRef) (away : Bool) : State :=
  if s.pageStays p || s.relocated p == away then s else s.markPage p away

/-- `SCRATCH_PAGE_MOVE` (R135, R136/05). The next page of the order moves to barn, or, with none left to go, the next one comes back. -/
def execScratchPageMove (core ctx : Nat) (s : State) : Out :=
  match (s.core core).res? ctx with
  | none => .next s
  | some r =>
    match r.moves, r.returns with
    | p :: rest, _ => .next ((s.modRes core ctx fun r => { r with moves := rest }).movePage p true)
    | [], p :: rest => .next ((s.modRes core ctx fun r => { r with returns := rest }).movePage p false)
    | [], [] => .next s

/-- Commands of a context that still have to stop on a core. -/
def State.stopsLeft (s : State) (core ctx : Nat) : Bool := (s.core core).fifo.any fun c => c.ctx == ctx && s.mustStop core c

/-- `ACT` of `$reclaim` clears (R103/04). -/
def clearAct (x : Dword) : Dword := x &&& ~~~1

/-- The stages of a squeeze (R243/11) whose matrix commands have stopped: it folds, spills and lists the pages to move. -/
def State.squeezeStages (s : State) : State :=
  s.cores.foldl (fun (s : State) c => c.2.res.foldl (fun (s : State) r =>
    if r.squeezing && !r.stopped && !s.stopsLeft c.1 r.ctx then s.squeezeStopped c.1 r.ctx else s) s) s

/-- `SQUEEZE_COMPLETION` (R243/11). The last spill and page move have landed: LEVEL becomes the level of the squeeze. ACT clears unless
a lower GOAL has been set meanwhile (R103/04). Pages that the context has got since the list was made move first (R135/05). -/
def execSqueezeCompletion (core ctx : Nat) (s : State) : Out :=
  match (s.core core).res? ctx with
  | none => .next s
  | some r =>
    let s := if r.squeezing && r.stopped then s.spill (s.beyond core ctx r.target) else s
    let left := s.pagesOut core ctx r.target
    if r.squeezing ∧ r.stopped ∧ r.moves = [] ∧ r.returns = [] ∧ left ≠ [] then .next (s.modRes core ctx fun r => { r with moves := left })
    else if r.squeezing ∧ r.stopped ∧ r.moves = [] ∧ r.returns = [] ∧ s.beyond core ctx r.target = [] then
      let s := s.modQuads core fun k => k.takeQuads ctx (levelQuads r.target)
      .next (s.modRes core ctx fun r =>
        { r with
          level := r.target
          squeezing := false
          stopped := false
          reclaim := if r.aim < r.target then r.reclaim else clearAct r.reclaim })
    else .next s

/-! ### Grants and expansion (R238, R243/11) -/

/-- Scratch pages of a core by its carve-out (R117/05). -/
def carvePages (c : Nat) : Nat := [160, 128, 96, 64, 32].getD c 160

/-- Pages a context holds pinned on a core: floors, and pages that drain (R51/02, R135/05, R245/11). -/
def State.pinnedPages (s : State) (core ctx : Nat) : Nat :=
  ((s.teams.filter fun t => t.ctx == ctx && s.teamHolds t).map fun t =>
    if t.ended then (t.pagesOn core).length else ((t.pagesOn core).filter fun p => decide (p * 4096 < t.floor)).length).sum

/-- The scratch pages a context holds on a core at a level. -/
def State.pagesAt (s : State) (core ctx level : Nat) : Nat :=
  s.pinnedPages core ctx + (s.unpinned core ctx).length * levelPct level / 100

/-- Would a context at a level fit beside the grants in force (R238/11)? -/
def State.grantsFit (s : State) (core ctx level : Nat) : Bool :=
  let others := (s.core core).res.filter fun r => !(r.ctx == ctx)
  let f (c : Nat) := s.floorUnits core c
  let slots := (others.map fun r => levelSlots r.level (f r.ctx)).sum + levelSlots level (f ctx)
  let regs := (others.map fun r => levelRegs r.level (f r.ctx)).sum + levelRegs level (f ctx)
  let pages := (others.map fun r => s.pagesAt core r.ctx r.level).sum + s.pagesAt core ctx level
  decide (slots ≤ 32) && decide (regs ≤ 2048) && decide (pages ≤ carvePages (s.core core).carve)

/-- EXPAND becomes pending for every sheaf of the context that armed it (R243/11). -/
def State.expandAll (s : State) (core ctx : Nat) : State :=
  (s.residents core ctx).foldl (fun (s : State) h =>
    if h.exparm then s.modSheaf h.id fun h => { h with expandPending := true } else s) s

/-- At an expansion the sheaves that have spilled registers return from their spill: they count as newly resident (R45/02, log 76). -/
def State.newlyResident (s : State) (core ctx : Nat) : State :=
  (s.residents core ctx).foldl (fun (s : State) h =>
    if (s.resOf h).cold.any fun x => x.1 == h.id then s.modSheaf h.id fun h => { h with since := s.now } else s) s

/-- `EXPANSION_STEP` (R243/11). LEVEL rises one step where the grants fit; pages return in the reverse of their order;
at GOAL the armed sheaves take EXPAND. -/
def execExpansionStep (core ctx : Nat) (s : State) : Out :=
  match (s.core core).res? ctx with
  | none => .next s
  | some r =>
    if r.squeezing ∨ r.parking ∨ r.goal ≤ r.level ∨ ¬ s.grantsFit core ctx (r.level + 1) then .next s
    else
      match r.expandAt with
      | none => .next s
      | some t =>
        if s.now < t then .next s
        else
          let back := s.pagesBack core ctx (r.level + 1)
          let s := s.modRes core ctx fun r =>
            { r with
              level := r.level + 1
              returns := back
              expandAt := if r.level + 1 < r.goal then some (s.now + 1024) else none }
          let s := s.newlyResident core ctx
          .next (if r.level + 1 = r.goal then s.expandAll core ctx else s)

/-! ### Reclaim (R103/04, R240, R241/11) -/

/-- g(L) of R240/11. -/
def State.grantOf (s : State) (core ctx level : Nat) : Amounts :=
  let f := s.floorUnits core ctx
  ⟨levelSlots level f, levelRegs level f, (s.unpinned core ctx).length * levelPct level / 100⟩

/-- The freed amounts of a level. -/
def State.freedAt (s : State) (core ctx l0 level : Nat) : Amounts :=
  let a := s.grantOf core ctx l0
  let b := s.grantOf core ctx level
  ⟨a.slots - b.slots, a.regs - b.regs, a.pages - b.pages⟩

/-- Does a freed amount satisfy a request? -/
def Amounts.covers (a r : Amounts) : Bool := decide (r.slots ≤ a.slots) && decide (r.regs ≤ a.regs) && decide (r.pages ≤ a.pages)

/-- The highest satisfying level below `n + 1`, or 1 (R240/11). -/
def State.goalBelow (s : State) (core ctx l0 : Nat) (req : Amounts) : Nat → Nat
  | 0 => 1
  | n + 1 => if (s.freedAt core ctx l0 (n + 1)).covers req then n + 1 else State.goalBelow s core ctx l0 req n

/-- `$reclaim` (R103/04), each amount within its field's range. -/
def reclaimWord (refused taken : Amounts) (act : Bool) : Dword :=
  BitVec.ofNat 6 (min refused.slots 32) ++ BitVec.ofNat 12 (min refused.regs 2048) ++ BitVec.ofNat 8 (min refused.pages 160) ++
    (0 : BitVec 6) ++ BitVec.ofNat 6 taken.slots ++ BitVec.ofNat 12 taken.regs ++ BitVec.ofNat 8 taken.pages ++
    (0 : BitVec 5) ++ BitVec.ofBool act

/-- The requester receives the figures of a core (R240/11). -/
def State.answer (s : State) (core ctx : Nat) (taken refused : Amounts) : State :=
  { s with answers := s.answers ++ [⟨ctx, core, taken, refused⟩] }

/-- A request whose amounts are all 0 (R240, R243/11): GOAL is 7, a squeeze that runs is given up, and expansion starts. Handlers of a
NOTICE run on. -/
def State.releaseCore (s : State) (core ctx : Nat) : State :=
  (s.modRes core ctx fun r =>
    if r.parking then { r with goal := 7, reclaim := 0 }
    else
      { r with
        goal := 7
        reclaim := 0
        squeezing := false
        stopped := false
        noticeAt := none
        moves := []
        expandAt := if r.level < 7 then some (s.now + 1024) else none }).answer core ctx ⟨0, 0, 0⟩ ⟨0, 0, 0⟩

/-- A running squeeze whose GOAL has been raised goes no further than that: the pages beyond it come back. -/
def State.retarget (s : State) (core ctx goal : Nat) : State :=
  match (s.core core).res? ctx with
  | none => s
  | some r =>
    if r.squeezing ∧ ¬ r.parking ∧ r.target < goal then
      s.modRes core ctx fun r =>
        { r with
          target := goal
          moves := if r.stopped then s.pagesOut core ctx goal else []
          returns := if r.stopped then s.pagesBack core ctx goal else [] }
    else s

/-- A lower GOAL reaches a context on a core (R242/11): NOTICE is due in the next cycle; during the handlers of an earlier one none is raised,
and a squeeze that has begun meanwhile goes on to the lower level in the next cycle. -/
def Res.lowered (r : Res) (now : Nat) : Res :=
  if r.noticed || r.noticeAt.isSome then r
  else if r.affected.isEmpty then { r with noticeAt := some (now + 1) }
  else { r with noticed := true, forced := true }

/-- A reclaim request on one core (R240, R242/11). It does nothing on a core on which the context holds no level. -/
def State.reclaimCore (s : State) (core ctx : Nat) (req : Amounts) : State :=
  match (s.core core).res? ctx with
  | none => s
  | some r =>
    if req = ⟨0, 0, 0⟩ then s.releaseCore core ctx
    else
      let goal := if r.level ≤ 1 then 1 else s.goalBelow core ctx r.level req (r.level - 1)
      let taken := s.freedAt core ctx r.level goal
      let refused : Amounts := ⟨req.slots - taken.slots, req.regs - taken.regs, req.pages - taken.pages⟩
      let act := decide (goal < r.level)
      ((s.modRes core ctx fun r =>
        let q := if act && decide (goal < r.goal) then r.lowered s.now else r
        { q with goal := goal, reclaim := reclaimWord refused taken act, expandAt := none }).retarget core ctx goal).answer core ctx
        taken refused

/-- The forgotten squeeze of a core whose level is above the percentage: pages return. -/
def State.settlePages (s : State) (core ctx : Nat) : State :=
  match (s.core core).res? ctx with
  | none => s
  | some r => if r.squeezing ∨ r.parking then s else s.modRes core ctx fun r => { r with returns := s.pagesBack core ctx r.level }

/-- A park or reclaim of a context is acknowledged as "nothing resident" for its launches that retired in this cycle (R250/11). -/
def State.ackRetired (s : State) (ctx : Nat) : State := { s with acks := s.acks ++ s.retired.filter fun x => x.1 == ctx }

/-- A reclaim request on its cores. -/
def State.reclaim (s : State) (ctx : Nat) (cores : List Nat) (req : Amounts) : State :=
  cores.foldl (fun (s : State) c => (s.reclaimCore c ctx req).settlePages c ctx) (s.ackRetired ctx)

end Sys2Proof.Machine
end

