-- ==== Sys2Proof/Machine/Posts.lean ====
section
/-! DEFINITION. Engine posts: cpy, wnw, xchg (R319/15, R365/18), and the posts that waited for a queue (R147/06). -/

namespace Sys2Proof.Machine

/-- Read a card of 256 bytes at a `.gl` address, line by line, with the checks of a load (R319/15 step 4). -/
def State.readCard (s : State) (core ctx rev va : Nat) : Except Cause (List Byte) × State :=
  match s.readVirtual core ctx rev va 128 .load with
  | (.error c, s) => (.error c, s)
  | (.ok a, s) =>
    match s.readVirtual core ctx rev (va + 128) 128 .load with
    | (.error c, s) => (.error c, s)
    | (.ok b, s) => (.ok (a ++ b), s)

/-- The copy destination lies in accumulator memory (R319/15 step 7). -/
def cardIntoAcc (c : List Byte) : Bool := cardEngine c == 1 && fieldOf c 168 8 / 2 ^ 60 == 6

/-- The job of a post (R319/15): its team is that of slot d, its revision and slots the poster's. -/
def postJob (h : Sheaf) (engine team : Nat) (addr : Dword) (c : List Byte) : Job :=
  { id := 0, engine := engine, field := fieldOfCore h.core, core := h.core, ctx := h.ctx, launch := some h.launch
    poster := some h.id, rev := h.rev, card := c, cardAddr := addr, slots := h.slots, team := some team
    scope := cardScope c }

/-- A post of the `cpy` mould (R319/15, R365/18): the checks in order, then the queue, or a wait for it (R147/06). -/
def State.post (s : State) (engine d a : Nat) : State :=
  let h := s.me
  let addr := s.src a
  match s.orderWait? true true with
  | some t => t
  | none =>
    match s.teamIn h d with
    | none => s.trapAll .space 0 0
    | some t =>
      if addr.toNat % 128 ≠ 0 then s.trapAll .align 0 addr
      else if 2 ^ 56 ≤ addr.toNat then s.trapAll .space 0 addr
      else
        match s.readCard h.core h.ctx h.rev addr.toNat with
        | (.error c, s) =>
          (if c = .uncorr then s.laneUncorr h .gl addr else s).trapAll c 0 addr
        | (.ok card, s) =>
          if t.producer ≠ h.number ∨ h.task then s.trapAll .copyiss 0 0
          else if ¬ (cardEngine card == engine && cardOk card h.slots) then s.trapAll .space 0 0
          else if cardIntoAcc card then s.trapAll .perm 0 0
          else
            let j := postJob h engine t.id addr card
            if s.queueRoom j.field engine h.ctx then (s.enqueue j).retire else s.waitMe (.equeue j)

/-- `cpy` (R319/15). Posts a copy job; its L opens an empty window. -/
def execCpy (d : Nat) (a : Nat) (_l : Nat) (s : State) : Out := .next (s.post 1 d a)

/-- `wnw` (R365/18). Posts a winnow job. -/
def execWnw (d : Nat) (a : Nat) (_l : Nat) (s : State) : Out := .next (s.post 2 d a)

/-- `xchg` (R365/18). Posts an exchange job. -/
def execXchg (d : Nat) (a : Nat) (_l : Nat) (s : State) : Out := .next (s.post 3 d a)

/-- The first wait of a sheaf for an engine queue. -/
def Sheaf.queueWait (h : Sheaf) : Option (Wait × Job) :=
  h.waits.findSome? fun w => match w.kind with | .equeue j => some (w, j) | _ => none

/-- `ENGINE_QUEUE_POST_RESUME` (R147/06). The poster enqueues its job once there is room. -/
def execEngineQueuePostResume (sheaf : Nat) (s : State) : Out :=
  match (s.sheaf? sheaf).bind Sheaf.queueWait with
  | none => .next s
  | some (w, j) =>
    if s.queueRoom j.field j.engine j.ctx then .next ((s.enqueue j).finishWait sheaf w) else .next s

end Sys2Proof.Machine
end

