-- ==== Sys2Proof/Machine/Sync.lean ====
section
/-! DEFINITION. Barriers, phases, gates, token and chunk waits, tasks, joins, the revision region table, and giving resources back (R323/15, R324 to R342/16). -/

namespace Sys2Proof.Machine

/-! ### Barrier state (R176 to R179/08) -/

/-- One arrival of a sheaf in the current generation (R177, R179/08). -/
def Team.arriveOne (t : Team) (number : Nat) : Team :=
  { t with arr := t.arr + 1, arrived := t.arrived ++ [number], evt := true }

/-- Has generation g completed (R325/16)? -/
def Team.completed (t : Team) (g : BitVec 32) : Bool :=
  let n := (t.gen - g).toNat
  decide (1 ≤ n) && decide (n < 2 ^ 31)

/-- An acquire at a team's scope, or at the wider one of a job that credited a completed generation (R212, R219/10, R327/16): cluster or wider
invalidates the core's L1 (R130/05). -/
def State.acquireTeam (s : State) (core : Nat) (t : Team) : State :=
  if 1 ≤ t.scope ∨ 3 ≤ t.doneReach then s.l1Clear core else s

/-! ### Carry sets (R159/07) -/

/-- The masks of a carry table entry. -/
def carryVec (e : List Byte) : Nat := fieldOf e 0 16
def carryScalar (e : List Byte) : Nat := fieldOf e 16 12

/-- The vector registers a carry set keeps, resolved against `$wb` (R328/16). -/
def Sheaf.carriedV (h : Sheaf) (e : List Byte) : Cells Word :=
  h.v.filter fun c => decide (h.wb ≤ c.1 / 64) && decide (c.1 / 64 < h.wb + 128) && (carryVec e).testBit (c.1 / 64 - h.wb)

/-- The scalar registers a carry set keeps. -/
def Sheaf.carriedS (h : Sheaf) (e : List Byte) : Cells Dword := h.s.filter fun c => (carryScalar e).testBit c.1

/-! ### Arrivals -/

/-- A lane as a phase record keeps it (R52, R43/02): its PC and its loop levels. -/
def Lane.recorded (ln : Lane) : Lane := { pc := ln.pc, loops := ln.loops }

/-- A sheaf leaves its pipe at `phase` (R52/02, R115/04, R328/16): what a phase record holds is kept, everything else is lost; `e` is the
carry table entry. -/
def Sheaf.toPhase (h : Sheaf) (l : Launch) (e : List Byte) (team carry : Nat) : Sheaf :=
  { h with
    place := .phase (fieldOfCore h.core) false team carry
    lanes := h.lanes.map Lane.recorded
    v := h.carriedV e
    s := h.carriedS e
    budget := l.budget
    yielded := 0
    favoured := 0
    favouredOld := none
    stalled := 0
    blocked := 0
    waits := []
    pend := []
    starve := 0
    slice := []
    sliceReloc := []
    loopBuf := []
    watchSkip := 0
    skips := []
    trap := {}
    outer := {}
    replay := none
    outerReplay := none }

/-- The registers of a carry set (R87/03). -/
def State.carryRegs (s : State) (h : Sheaf) (carry : Nat) : List Nat :=
  ((List.range 128).filter fun n => (carryVec (s.carryEntry (s.launchOf h) carry)).testBit n).map fun n => h.wb + n

/-- The registers that a phase record takes are read from their backing slots where they are spilled (R112/04): the backing address of one
without a mapping. -/
def State.drawCarry (s : State) (id carry : Nat) : Option Dword × State :=
  match s.sheaf? id with
  | none => (none, s)
  | some h => s.drawCold id (s.carryRegs h carry)

/-- A sheaf arrives and its phase ends (R52/02, R328/16): its phase record is written in its field's record area. -/
def State.leavePhase (s : State) (id : Nat) (w : Wait) (t : Team) (carry : Nat) : State :=
  let s := (s.noticeReturned id).drawCarry id carry |>.2
  match s.sheaf? id with
  | none => s
  | some h =>
    let s := s.modRes h.core h.ctx fun r => r.forget id
    let h := h.passWaited w
    let e := s.carryEntry (s.launchOf h) carry
    let s := s.putRecord (fieldOfCore h.core) id 4 (s.phaseRecord h carry (carryVec e) (carryScalar e))
    s.modSheaf id fun k => (k.passWaited w).toPhase (s.launchOf k) e t.id carry

/-- The arrival itself (R326/16 step 4): a release at the team's scope; then `bar` waits (kind 0), `arrive` goes on with
the generation it arrived in (kind 1), `phase` leaves its pipe (kind 2). The wait is the gathered one. -/
def State.makeArrival (s : State) (id : Nat) (w : Wait) (t : Team) (kind dest carry : Nat) : State :=
  match s.sheaf? id with
  | none => s
  | some h =>
    let s := s.modTeam t.id fun t => t.arriveOne h.number
    let s := s.modSheaf id fun h => { h with waits := h.waits.filter fun x => !(x == w) }
    match kind with
    | 0 => s.modSheaf id fun h => { h with waits := h.waits ++ [{ w with kind := .barrier t.id t.gen, since := s.now }] }
    | 1 => s.modSheaf id fun h => (h.sset dest (t.gen.setWidth 64)).finishLanes w
    | _ => s.leavePhase id w t carry

/-- Remove a wait of the issuing sheaf: its lanes are handler lanes again. -/
def State.dropWait (s : State) (w : Wait) : State := s.modMe fun h => { h with waits := h.waits.filter fun x => !(x == w) }

/-- The gather wait of the issue, if lanes have gathered at its PC. -/
def Sheaf.gatherAt (h : Sheaf) (pc : Vaddr) : Option Wait :=
  h.waits.find? fun w => w.pc == pc && (match w.kind with | .gather _ _ _ _ => true | _ => false)

/-- Every non-exited lane has reached the instruction, and the cycle after has come (R326/16 step 2): the drain, the release, which
waits for the sequencer and for remote stores, the SATURATE check of R195/09, then the arrival, or a wait until the current generation completes (R179/08). -/
def State.gathered (s : State) (w : Wait) (kind slot dest carry : Nat) : State :=
  let h := s.me
  if h.pend.any Pending.arriving ||
      (s.seqQ.any fun r => r.sheaf == h.id) || (s.rsts.any fun r => r.sheaf == h.id) then s
  else
    match h.pend.find? fun p => !p.faults.isEmpty with
    | some p =>
      if p.faults.any fun f => !f.mappable then (s.dropWait w).takeLoadFault h.id p
      else s.modMe fun h => { h with pend := h.pend.map fun (q : Pending) =>
        if q.id = p.id ∧ q.waitSince = none then { q with waitSince := some s.now } else q }
    | none =>
      match s.teamIn h slot with
      | none => (s.dropWait w).trapAll .space 0 0
      | some t =>
        if h.satarm && t.satBefore s.now then (s.dropWait w).trapAll .saturate slot 0
        else if t.arrived.contains h.number then
          (s.dropWait w).modMe fun h => { h with waits := h.waits ++ [{ w with kind := .later kind slot dest carry t.gen }] }
        else s.makeArrival h.id w t kind dest carry

/-- `bar`, `arrive` and `phase` (R326/16): the traps, the gathering of the non-exited lanes, then R326's steps. -/
def State.gather (s : State) (kind slot dest carry : Nat) : State :=
  match s.cur with
  | none => s
  | some i =>
    let h := s.me
    let w? := h.gatherAt i.pc
    let there : Mask := (w?.map fun w => w.lanes).getD 0
    if i.lanes &&& ~~~there ≠ 0 then
      if h.tl ≠ 0 then s.trapAll .illop 0 0
      else if (s.teamIn h slot).isNone ∨ (kind = 2 ∧ (s.launchOf h).carry.length ≤ carry) then s.trapAll .space 0 0
      else
        match w? with
        | none => s.waitMe (.gather kind slot dest carry)
        | some w => s.modMe fun h => { h with waits := h.waits.map fun x =>
            if x == w then { w with lanes := w.lanes ||| i.lanes, since := s.now } else x }
    else
      match w? with
      | none => s
      | some w => if h.live &&& ~~~w.lanes ≠ 0 ∨ s.now ≤ w.since then s else s.gathered w kind slot dest carry

/-- `bar` (R325 to R327/16). The sheaf arrives at its team's barrier and waits for the generation. -/
def execBar (d : Nat) (s : State) : Out := .next (s.gather 0 d 0 0)

/-- `arrive` (R325 to R327/16). The sheaf arrives and continues with the generation it arrived in. -/
def execArrive (d : Nat) (a : Nat) (s : State) : Out := .next (s.gather 1 a d 0)

/-- `phase` (R328/16). The sheaf arrives, leaves a phase record and its pipe. -/
def execPhase (d : Nat) (c : Nat) (s : State) : Out := .next (s.gather 2 d 0 c)

/-- `bar.wait` (R325 to R327/16). Waits until a generation has completed, without arriving. -/
def execBarWait (d : Nat) (a : Nat) (s : State) : Out :=
  let h := s.me
  let g : BitVec 32 := (s.src a).setWidth 32
  if h.tl ≠ 0 then .next (s.trapAll .illop 0 0)
  else
    match s.teamIn h d with
    | none => .next (s.trapAll .space 0 0)
    | some t =>
      if t.ended then .next (s.trapAll .space 0 0)
      else if t.completed g then .next (s.acquireTeam h.core t).retire
      else .next (s.waitMe (.generation t.id g))

/-! ### Gate and release -/

/-- `release` (R329/16). A release at device scope; then one more for the launch's count (R63/02). -/
def execRelease (s : State) : Out :=
  match s.orderWait? true true with
  | some t => .next t
  | none => .next (s.modLaunch s.me.launch fun l => { l with releases := l.releases + 1 }).retire

/-- `gate` (R329/16). `nop` in a launch that is not dependent-early; else waits for the gate, an acquire at device scope. -/
def execGate (s : State) : Out :=
  let l := s.launchOf s.me
  if ¬ l.dependent then .next s.retire
  else if l.gateOpen then .next (s.l1Clear s.me.core).retire
  else .next (s.waitMe .gate)

/-! ### Token and chunk waits -/

/-- `twait` (R181/08, R330/16). Waits for a token counter; a wait already satisfied completes in the next cycle. -/
def execTwait (d : Nat) (a : Nat) (s : State) : Out := .next (s.waitMe (.token d ((s.src a).setWidth 16) s.now))

/-- `twait` with an immediate (R330/16). -/
def execTwaitImm (d : Nat) (i : BitVec 16) (s : State) : Out := .next (s.waitMe (.token d i s.now))

/-- Has a counter reached a value (R181/08)? -/
def tokenReached (count v : BitVec 16) : Bool := decide ((count - v).toNat < 2 ^ 15)

/-- Is a wait of a sheaf a token wait that is satisfied at the start of this cycle (R330/16)? -/
def State.tokenDone (s : State) (h : Sheaf) (w : Wait) : Option Nat :=
  match w.kind with
  | .token tk v since =>
    if since < s.now ∧ tokenReached ((s.resOf h).bank.getD tk 0) v then some tk else none
  | _ => none

/-- `TWAIT_COMPLETION` (R330/16). All token waits of a sheaf satisfied in this cycle complete together; an increment of a
job of cluster scope or wider since the last invalidation invalidates the L1. -/
def execTwaitCompletion (sheaf : Nat) (s : State) : Out :=
  match s.sheaf? sheaf with
  | none => .next s
  | some h =>
    let ready := h.waits.filterMap fun w => (s.tokenDone h w).map fun tk => (w, tk)
    let wide := ready.any fun x => (s.resOf h).wide.getD x.2 false
    let s := if wide then s.l1Clear h.core else s
    .next (ready.foldl (fun (s : State) x => s.finishWait sheaf x.1) s)

/-- A quarter of a chunk map (R183/08, R323/15). -/
def Team.quarter (t : Team) (map q : Nat) : Dword := (cget 0 t.maps map).extractLsb' (64 * q) 64

/-- `cwait` and `cwait.clr` (R323/15): M = 0 completes at once. -/
def State.chunkWait (s : State) (map slot a q : Nat) (clear : Bool) : State :=
  match s.teamIn s.me slot with
  | none => s.trapAll .space 0 0
  | some t =>
    let m := s.src a
    if m = 0 then s.retire else s.waitMe (.chunk t.id map q m clear)

/-- `cwait` (R323/15). Waits for chunk bits. -/
def execCwait (d : Nat) (a : Nat) (q : Nat) (s : Nat) (s' : State) : Out := .next (s'.chunkWait d s a q false)

/-- `cwait.clr` (R323/15). Waits for chunk bits and clears them at completion. -/
def execCwaitClr (d : Nat) (a : Nat) (q : Nat) (s : Nat) (s' : State) : Out := .next (s'.chunkWait d s a q true)

/-- Is a wait a chunk wait that is satisfied at the start of this cycle? -/
def State.chunkDone (s : State) (w : Wait) : Bool :=
  match w.kind with
  | .chunk team map q m _ =>
    decide (w.since < s.now) && (match s.team? team with | some t => t.quarter map q &&& m == m | none => true)
  | _ => false

/-- The widest scope of the jobs whose bits a wait observed (R323/15). -/
def Team.chunkReach (t : Team) (map q : Nat) (m : Dword) : Nat :=
  (lanesOf m).foldl (fun w b => max w (cget 0 t.mapScopes (map * 256 + 64 * q + b))) 0

/-- One chunk wait completes: the acquire, the clears (which a set of the same cycle overrides), the lanes go on. -/
def State.finishChunk (s : State) (h : Sheaf) (w : Wait) : State :=
  match w.kind with
  | .chunk team map q m clear =>
    let wide := match s.team? team with | some t => decide (3 ≤ t.chunkReach map q m) | none => false
    let s := if wide then s.l1Clear h.core else s
    let s := if clear then s.modTeam team fun t =>
        { t with clears := cset 0 t.clears map (cget 0 t.clears map ||| (m.setWidth 256 <<< (64 * q))) } else s
    s.finishWait h.id w
  | _ => s

/-- `CWAIT_COMPLETION` (R323/15). The satisfied chunk waits of a sheaf complete. -/
def execCwaitCompletion (sheaf : Nat) (s : State) : Out :=
  match s.sheaf? sheaf with
  | none => .next s
  | some h => .next ((h.waits.filter s.chunkDone).foldl (fun (s : State) w => s.finishChunk h w) s)

/-! ### Fork (R55, R56/02, R331, R332/16) -/

/-- The depth of a revision (R332/16). -/
def Context.depth (c : Context) (r : Nat) : Nat := ((c.rev? r).map fun v => v.depth).getD 0

/-- The revision ids in use in the module (R332/16). -/
def State.revsUsed (s : State) : List Nat := s.ctxs.flatMap fun c => c.2.revs.map fun v => v.id

/-- A free revision id at or after a start, wrapping within 1 to 65,535. -/
def freeRev (used : List Nat) : Nat → Nat → Option Nat
  | 0, _ => none
  | n + 1, k => if used.contains (k % 65535 + 1) then freeRev used n (k + 1) else some (k % 65535 + 1)

/-- Are the context's overflow entries at or above its quota (R332/16)? -/
def Context.overQuota (c : Context) : Bool :=
  let n := (c.revs.map fun v => (v.ancestors.filter fun a => a.extra.isSome).length).sum
  decide (1 ≤ n) && decide (c.granQuota.toNat * 2 ^ 20 ≤ 144 * n)

/-- The handle (R331/16). -/
def forkHandle (seq : BitVec 16) (stat rev : Nat) : Dword := BitVec.ofNat 64 (seq.toNat * 2 ^ 32 + stat * 2 ^ 16 + rev)

/-- The child of a fork (R55/02); `e` is the carry table entry. -/
def childOf (h : Sheaf) (l : Launch) (e : List Byte) (i : Issue) (id rev now carry : Nat) (entry : Dword) (inl : Bool) : Sheaf :=
  { id := id, launch := h.launch, number := h.number, ctx := h.ctx, task := true
    born := [now, i.core, i.pipe, if i.solo then 1 else 0]
    parent := some h.id, inlineChild := inl
    place := if inl then .resident else .deque i.core
    core := h.core, slot := h.slot, since := now
    lanes := List.replicate 64 { pc := entry.setWidth 56 }
    exited := ~~~i.lanes
    s := h.carriedS e, v := h.carriedV e, wb := h.wb, budget := l.budget, rev := rev, carrySet := carry }

/-- The occupancy that decides a push (R55/02): that at the start of the cycle, and one for each fork before in it. -/
def Core.dequeFull (c : Core) : Bool := decide (64 ≤ c.dequeStart + c.forks) || decide (64 ≤ c.deque.length)

/-- A passing fork counts for the later ones of its core and cycle (R55/02). -/
def State.countFork (s : State) (core : Nat) : State := s.modCore core fun c => { c with forks := c.forks + 1 }

/-- The creation of a child, queued or inline (R55, R56/02, R331, R332/16): the task record of the queued child, or of the parent
whose child runs inline, is written in the field's record area. The carry table is read in memory, and so is the region table while no
revision lives (R154/07, log 78). -/
def State.forkChild (s : State) (h : Sheaf) (i : Issue) (d carry rev : Nat) (entry : Dword) : State :=
  let l := s.launchOf h
  let (id, s) := s.fresh
  let inl := (s.core h.core).dequeFull
  let handle := forkHandle h.forkSeq (if inl then 1 else 0) rev
  let child := childOf h l (s.carryEntry l carry) i id rev s.now carry entry inl
  let s := if (s.ctx h.ctx).revs.isEmpty then s.readRegions h.ctx else s
  let s := { s with sheaves := s.sheaves ++ [child] }
  let s := s.modCtx h.ctx fun c =>
    { c with revs := c.revs ++ [{ id := rev, parent := h.rev, depth := (s.ctx h.ctx).depth h.rev + 1 }] }
  let s := s.modLaunch h.launch fun l => { l with liveParts := l.liveParts + 1, started := if inl then l.started + 1 else l.started }
  let s := s.modSheaf h.id fun p =>
    { p with forkSeq := p.forkSeq + 1, children := p.children ++ [⟨h.forkSeq, rev, id, inl⟩] }
  if inl then
    let s := s.waitMe (.inline id d handle)
    let s := s.modRes h.core h.ctx fun r => { r with
      hot := r.hot.filter fun x => !(x.1 == h.id)
      cold := r.cold.filter fun x => !(x.1 == h.id) }
    let s := s.putRecord (fieldOfCore h.core) h.id 64 (s.taskRecord s.me)
    ((s.modSheaf h.id fun p => { p with place := .suspended }).l1Clear h.core).countFork h.core
  else
    let s := s.putRecord (fieldOfCore h.core) id 64 (s.taskRecord child)
    (((s.modCore h.core fun c => { c with deque := id :: c.deque }).swrite d handle).countFork h.core).retire

/-- `fork` (R331, R332/16): drains, checks, and creates a child, or is REFUSED; REGBACK where a record needs a spilled register that finds no
mapping (R112/04). -/
def execFork (d : Nat) (a : Nat) (c : Nat) (s : State) : Out :=
  match s.drain? with
  | some t => .next t
  | none =>
    match s.orderWait? true true with
    | some t => .next t
    | none =>
      match s.cur with
      | none => .next s
      | some i =>
        let h := s.me
        let x := s.src a
        if h.tl ≠ 0 then .next (s.trapAll .illop 0 0)
        else if x.toNat % 4 ≠ 0 then .next (s.trapAll .align 0 x)
        else if 2 ^ 56 ≤ x.toNat then .next (s.trapAll .space 0 x)
        else if (s.launchOf h).carry.length ≤ c then .next (s.trapAll .space 0 0)
        else
          let k := s.ctx h.ctx
          let (pick, s) := s.pick 65535
          match (if k.depth h.rev = 15 ∨ k.overQuota then none else freeRev s.revsUsed 65535 pick) with
          | none =>
            .next (((s.swrite d (forkHandle h.forkSeq 2 0)).modMe fun p => { p with forkSeq := p.forkSeq + 1 }).countFork h.core).retire
          | some rev =>
            -- a parent whose child runs inline goes into a task record with all its registers
            match (if (s.core h.core).dequeFull then s.drawCold h.id (s.coldOf h) else (none, s)) with
            | (some b, s) => .next (s.trapAll .regback 0 b)
            | (none, s) => .next (s.forkChild h i d c rev x)

/-! ### Join (R334/16) -/

/-- The unjoined child a handle names. -/
def Sheaf.childOfHandle (h : Sheaf) (x : Dword) : Option Child :=
  h.children.find? fun c => c.rev == x.toNat % 65536 && c.seq == x.extractLsb' 32 16

/-- `join` (R334/16): drains; ILLOP in a handler; a REFUSED handle completes at once, an acquire at field scope as any join; else the lanes wait for the child. -/
def execJoin (d : Nat) (a : Nat) (s : State) : Out :=
  match s.drain? with
  | some t => .next t
  | none =>
    let h := s.me
    let x := s.src a
    if h.tl ≠ 0 then .next (s.trapAll .illop 0 0)
    else if x.extractLsb' 16 2 = 2 then .next ((s.swrite d 1).l1Clear h.core).retire
    else
      match h.childOfHandle x with
      | none => .next (s.trapAll .space 0 0)
      | some c => .next (s.waitMe (.join c.rev none d))

/-! ### The revision region table (R161/07, R339/16) -/

/-- The element codes a merge code accepts (R161/07). -/
def mergeAccepts (merge elem : Nat) : Bool :=
  decide (elem ≤ 0xB) &&
    (match merge with
      | 3 => decide (elem ≤ 7)
      | 4 => decide (8 ≤ elem)
      | 10 => decide (elem ≤ 7)
      | m => decide (m ≤ 9))

/-- An entry on its own satisfies R161/07. -/
def regionSelfOk (e : BitVec 256) : Bool :=
  regionBase e % 4096 == 0 && mergeAccepts (regionMerge e) (regionElem e) &&
    e.extractLsb' 104 24 == 0 && e.extractLsb' 192 64 == 0 &&
    (if regionMerge e = 9 then regionRing e % 64 == 0 else regionRing e == 0)

/-- Do two used entries overlap? -/
def regionsMeet (a b : BitVec 256) : Bool :=
  decide (regionBase a < regionBase b + 4096 * regionPages b) && decide (regionBase b < regionBase a + 4096 * regionPages a)

/-- Entry `k` may hold `e` beside the others (R161/07). -/
def Context.regionOk (c : Context) (k : Nat) (e : BitVec 256) : Bool :=
  regionSelfOk e && (!regionUsed e ||
    (List.range 64).all fun j => j == k || !(regionUsed (cget 0 c.regions j)) || !(regionsMeet e (cget 0 c.regions j)))

/-- `rgnw` (R339/16): waits for earlier accesses; ALIGN, SPACE, the checks of a `.gl` load at B, then REGION. -/
def execRgnw (a : Nat) (b : Nat) (s : State) : Out :=
  match s.orderWait? true true with
  | some t => .next t
  | none =>
    let h := s.me
    let n := s.src a
    let x := s.src b
    if x.toNat % 32 ≠ 0 then .next (s.trapAll .align 0 x)
    else if 63 < n.toNat then .next (s.trapAll .space 0 0)
    else if 2 ^ 56 ≤ x.toNat then .next (s.trapAll .space 0 x)
    else
      match s.readVirtual h.core h.ctx h.rev x.toNat 32 .load with
      | (.error c, s) => .next ((if c = .uncorr then s.laneUncorr h .gl x else s).trapAll c 0 x)
      | (.ok bs, s) =>
        let e : BitVec 256 := BitVec.ofNat 256 (natOfBytes bs)
        let s := if (s.ctx h.ctx).revs.isEmpty then s.readRegions h.ctx else s
        let k := s.ctx h.ctx
        if ¬ k.regionOk n.toNat e ∨ ¬ k.revs.isEmpty then .next (s.trapAll .region 0 0)
        else
          let s := s.modCtx h.ctx fun c => { c with regions := cset 0 c.regions n.toNat e }
          .next (if k.regionTable = 0 then s else (s.writeVirtual h.core h.ctx 0 (k.regionTable.toNat + 32 * n.toNat) bs).2).retire

/-- `rgnr` (R339/16). -/
def execRgnr (d : Nat) (a : Nat) (b : Nat) (s : State) : Out :=
  let n := (s.src a).toNat
  let w := (s.src b).toNat
  if 63 < n ∨ 3 < w then .next (s.trapAll .space 0 0)
  else .next (s.swrite d ((cget 0 (s.ctx s.me.ctx).regions n).extractLsb' (64 * w) 64)).retire

/-! ### Giving resources back (R341, R342/16) -/

/-- A register budget is legal for a sheaf (R341/16). -/
def budgetOk (h : Sheaf) (l : Launch) (n : Nat) : Bool :=
  n % 16 == 0 && decide (128 ≤ n) && decide (n ≤ l.budget) && decide (h.wb + 128 ≤ n)

/-- `shrink` (R99/04, R341/16): after the drain, the virtual registers at or above the budget are lost and their physical ones freed. -/
def execShrink (a : Nat) (s : State) : Out :=
  let n := (s.src a).toNat
  if ¬ budgetOk s.me (s.launchOf s.me) n then .next (s.trapAll .space 0 0)
  else
    match s.drain? with
    | some t => .next t
    | none =>
      let h := s.me
      let drop (xs : List (Nat × Nat)) := xs.filter fun x => !(x.1 == h.id && decide (n ≤ x.2))
      let s := s.modMe fun h => { h with budget := n, v := h.v.filter fun c => decide (c.1 / 64 < n) }
      .next (s.modRes h.core h.ctx fun r => { r with hot := drop r.hot, cold := drop r.cold }).retire

/-- The bytes a team's scratch is allocated (R118, R122/05, R342/16). -/
def Team.allocated (t : Team) : Nat := if t.scope = 0 then pagesOf t.scratch * 4096 else (t.scratch + 32767) / 32768 * 32768

/-- `spfree` (R342/16): the pages become relocated pages that read 0, which squeezes under way then count as taken. -/
def execSpfree (d : Nat) (a : Nat) (b : Nat) (s : State) : Out :=
  let x := s.src a
  let n := (s.src b).toNat
  if x.toNat % 4096 ≠ 0 then .next (s.trapAll .align 0 x)
  else
    match s.teamIn s.me d with
    | none => .next (s.trapAll .space 0 0)
    | some t =>
      if 2 ≤ t.scope ∨ n = 0 ∨ t.allocated < x.toNat + 4096 * n ∨ x.toNat < t.floor then .next (s.trapAll .space 0 0)
      else
        let lo := x.toNat / 4096
        let pages := (List.range n).map fun k => lo + k
        .next ((s.modTeam t.id fun t =>
          { t with
            reloc := pages ++ t.reloc.filter fun p => !(decide (lo ≤ p) && decide (p < lo + n))
            mem := t.mem.filter fun c => !(decide (x.toNat ≤ c.1) && decide (c.1 < x.toNat + 4096 * n)) }).relist t.ctx).retire

end Sys2Proof.Machine
end

