-- ==== Sys2Proof/Machine/Launches.lean ====
section
/-! DEFINITION. Launches: the graph engine, the dispatch checks, placement, carve-out, tasks and phases taken by cores, retirement and restart (R47 to R66/02, R117, R118/05, R156 to R161/07, R231, R249/11). -/

namespace Sys2Proof.Machine

/-! ### The dependence graph (R63, R64/02) -/

/-- Has every sheaf of a launch been resident at least once (R63/02)? -/
def Launch.allResident (l : Launch) : Bool := l.state == 1 && decide (l.sheafCount ≤ l.residentOnce.length)

/-- Is a submitted launch ready (R63, R64/02)? -/
def State.launchReady (s : State) (l : Launch) : Bool :=
  l.state == 0 &&
    (match l.pred.bind s.launch? with
      | none => true
      | some p => p.state == 2 || (l.dependent && p.allResident))

/-- The launches that follow one and have not retired. -/
def State.successors (s : State) (id : Nat) : List Launch := s.launches.filter fun m => m.pred == some id && !(m.state == 2)

/-- Remaining path length (R64/02); no path is longer than the launches are many. -/
def State.pathLen (s : State) : Nat → Launch → Nat
  | 0, l => l.cost
  | fuel + 1, l => l.cost + (s.successors l.id).foldl (fun a m => max a (State.pathLen s fuel m)) 0

/-- The ready launch that is dispatched next: the greatest remaining path length, then the earlier submission. -/
def State.nextLaunch (s : State) : Option Launch :=
  let n := s.launches.length
  match s.launches.filter s.launchReady with
  | [] => none
  | l :: ls => some (ls.foldl (fun b m =>
      if s.pathLen n b < s.pathLen n m ∨ (s.pathLen n b = s.pathLen n m ∧ m.submitted < b.submitted) then m else b) l)

/-! ### The launch record (R157, R158/07) -/

/-- The record's bytes. -/
def recordBytes (l : Launch) (status reason b2 b3 : Nat) (now : Nat) (e1 e2 : BitVec 64) : List Byte :=
  bytesOfNat 1 status ++ bytesOfNat 1 reason ++ bytesOfNat 1 b2 ++ bytesOfNat 1 b3 ++ bytesOfNat 4 l.tag.toNat ++
    bytesOfNat 8 l.dispatched ++ bytesOfNat 8 now ++ bytesOfNat 8 e1.toNat ++ bytesOfNat 8 e2.toNat ++
    bytesOfNat 8 l.grantWait ++ bytesOfNat 8 l.started ++ bytesOfNat 8 0

/-- Status and bytes 2, 3 of a launch that retires (R157): the first of 0x04, 0x03 and 0x02 that applies. -/
def Launch.status (l : Launch) : Nat × Nat × Nat :=
  if l.containment then (4, 0, 0)
  else
    match l.ended, l.jobError with
    | some (cause, _, _), _ => (3, cause, 0)
    | none, some (engine, card) => (2, engine, card)
    | none, none => (0, 0, 0)

/-- Has a launch linked jobs, by the card addresses of its descriptor (R156/07)? -/
def Launch.links (l : Launch) : Bool := !(zeroBytes l.desc 48 24)

/-- Write a launch's record, once. A rejected launch, and the engine part of one without linked jobs, consumed nothing (R158). -/
def State.writeRecord (s : State) (l : Launch) (status reason b2 b3 : Nat) : State :=
  let e (k : Nat) : BitVec 64 := if status = 1 ∨ (k = 1 ∧ ¬ l.links) then 0 else Config.energy s.calibration (2 * l.id + k)
  s.guestPut l.ctx l.recordAddr.toNat (recordBytes l status reason b2 b3 s.now (e 0) (e 1))

/-! ### The dispatch checks (R48, R49, R60/02, R156, R157, R159/07) -/

/-- A team table entry as read. -/
structure TeamEntry where
  scope : Nat
  members : List Nat
  scratch : Nat
  floor : Nat
  need : Nat
  producer : Nat
  bad : List Nat
deriving DecidableEq, Repr

/-- Are numbers strictly ascending? -/
def ascending : List Nat → Bool
  | a :: b :: rest => decide (a < b) && ascending (b :: rest)
  | _ => true

/-- The members of a team entry (R159/07): a range, or a list in memory; none where the list cannot be read. -/
def State.entryMembers (s : State) (ctx : Nat) (e : List Byte) : Option (List Nat) :=
  let count := fieldOf e 4 4
  if fieldOf e 1 1 = 1 then
    match s.guestBytes ctx (fieldOf e 8 8) (4 * count) with
    | .error _ => none
    | .ok bs => some (words32 count bs)
  else some ((List.range count).map fun i => fieldOf e 8 4 + i * fieldOf e 12 4)

/-- One entry of the team table with the reasons it gives to reject (R157). A value outside the ranges of R47/02 and R159 that R157
names no reason for, and a member list that cannot be read, give 0x01 (log 77). -/
def State.readTeam (s : State) (ctx sheafCount : Nat) (e : List Byte) : TeamEntry :=
  let scope := fieldOf e 0 1 % 4
  let count := fieldOf e 4 4
  let isList := fieldOf e 1 1 == 1
  let range := decide (count = 0 ∨ 2 ^ 24 < count) || (!isList && fieldOf e 12 4 == 0) || (isList && !(fieldOf e 8 8 % 4 == 0))
  let ms := if range then none else s.entryMembers ctx e
  let members := ms.getD []
  let scratch := fieldOf e 16 4
  let floor := fieldOf e 20 4
  let need := if fieldOf e 24 4 = 0 then count else fieldOf e 24 4
  let producer := fieldOf e 28 4
  let code (b : Bool) (c : Nat) : List Nat := if b then [c] else []
  { scope := scope, members := members, scratch := scratch, floor := floor, need := need, producer := producer
    bad :=
      code (range || ms.isNone || decide (count < need) || !(floor % 4096 == 0)) 1 ++
      code (members.any fun m => decide (sheafCount ≤ m)) 3 ++
      code (!(members.contains producer)) 4 ++
      code (decide (scratch < floor)) 5 ++
      code (decide (2 ≤ scope) && !(scratch == 0)) 6 ++
      code (isList && !(ascending members)) 7 ++
      code (decide (1 < fieldOf e 1 1) || decide (4 ≤ fieldOf e 0 1) || !(fieldOf e 2 2 == 0)) 10 }

/-- Join a set of members to the groups it meets. -/
def joinGroup (ms : List Nat) (gs : List (List Nat)) : List (List Nat) :=
  let (meet, apart) := gs.partition fun g => g.any fun x => ms.contains x
  (ms ++ meet.flatten).eraseDups :: apart

/-- The groups of sheaves that teams tie together. -/
def groupsOf (ts : List (List Nat)) : List (List Nat) := ts.foldl (fun gs ms => joinGroup ms gs) []

/-- The group of a sheaf; the sheaf alone where no team ties it. -/
def groupOf (ts : List (List Nat)) (n : Nat) : List Nat := ((groupsOf ts).find? fun g => g.contains n).getD [n]

/-- What a core group needs: pages, and sheaves. -/
abbrev Need := Nat × Nat

/-- Can groups be placed on cores with room left (pages, sheaves)? Every way is tried. -/
def packs : List Need → List Need → Bool
  | _, [] => true
  | rooms, g :: gs => (List.range rooms.length).any fun k =>
      let r := rooms.getD k (0, 0)
      decide (g.1 ≤ r.1) && decide (g.2 ≤ r.2) && packs (modAt (fun x => (x.1 - g.1, x.2 - g.2)) rooms k) gs

/-- Pages of a core-scope team, and of a core's share of a cluster-scope team (R118, R122/05). -/
def corePages (scratch : Nat) : Nat := pagesOf scratch
def sharePages (scratch : Nat) : Nat := (scratch + 32767) / 32768

/-- The core groups of some sheaves, a sheaf that no core-scope team ties a group of its own. -/
def coreNeeds (core : List (List Nat × Nat)) (sheaves : List Nat) : List Need :=
  (groupsOf (core.map (·.1) ++ sheaves.map fun x => [x])).map fun g =>
    (((core.filter fun t => t.1.any fun x => g.contains x).map (·.2)).sum, g.length)

/-- Do the sheaves of a list fit on one cluster with their core- and cluster-scope teams (R49/02)? -/
def clusterHolds (pages : Nat) (ts : List TeamEntry) (g : List Nat) : Bool :=
  let meets (t : TeamEntry) : Bool := t.members.any fun x => g.contains x
  let share := ((ts.filter fun t => t.scope == 1 && meets t).map fun t => sharePages t.scratch).sum
  let cores := (ts.filter fun t => t.scope == 0 && meets t).map fun t => (t.members, corePages t.scratch)
  decide (share ≤ pages) && packs (List.replicate 8 (pages - share, 32)) (coreNeeds cores g)

/-- Can groups be shared out over clusters that each hold what they get? Every way is tried. -/
def sharesOut (holds : List Nat → Bool) : List (List Nat) → List (List Nat) → Bool
  | clusters, [] => clusters.all holds
  | clusters, g :: gs => (List.range clusters.length).any fun k => sharesOut holds (modAt (fun c => g ++ c) clusters k) gs

/-- Is a placement of the teams possible within their scopes (R49/02)? The sheaves that core- and cluster-scope teams tie are shared out over
the clusters of their field; those that none of them ties take what is left of its 4,096 slots. -/
def placeable (pages : Nat) (ts : List TeamEntry) : Bool :=
  let upTo (k : Nat) := (ts.filter fun t => decide (t.scope ≤ k)).map (·.members)
  let near := groupsOf (upTo 1)
  (ts.all fun t => !(t.scope == 0) || decide (t.scratch ≤ pages * 4096)) && (ts.all fun t => !(t.scope == 1) || decide (t.scratch ≤ 2 ^ 21)) &&
  near.all (clusterHolds pages ts) &&
  (groupsOf (upTo 2)).all fun g =>
    !(ts.any fun t => t.scope == 2 && t.members.any fun x => g.contains x) ||
      (decide (g.length ≤ 4096) &&
        sharesOut (clusterHolds pages ts) (List.replicate 16 []) (near.filter fun n => n.any fun x => g.contains x))

/-- Scratch pages by carve-out index (R117/05). -/
def launchPages (carve : Nat) : Nat := carvePages carve

/-- The descriptor's own ranges (R60/02, R156, R169/07). -/
def descriptorOk (d : List Byte) (record : Nat) : Bool :=
  fieldOf d 0 8 % 4 == 0 && decide (fieldOf d 0 8 < 2 ^ 56) && decide (1 ≤ fieldOf d 8 4) && decide (fieldOf d 8 4 ≤ 2 ^ 24) &&
    decide (1 ≤ fieldOf d 12 1) && decide (fieldOf d 12 1 ≤ 64) && decide (fieldOf d 13 1 ≤ 4) && decide (fieldOf d 14 1 ≤ 16) &&
    decide (8 ≤ fieldOf d 15 1) && decide (fieldOf d 15 1 ≤ 32) && fieldOf d 16 8 % 32 == 0 && decide (fieldOf d 24 2 ≤ 256) &&
    decide (fieldOf d 30 2 ≤ 256) && fieldOf d 40 8 % 32 == 0 && fieldOf d 48 8 % 128 == 0 && fieldOf d 56 8 % 128 == 0 &&
    fieldOf d 64 8 % 128 == 0 && record % 64 == 0

/-- The descriptor's reserved fields (R155, R156/07). -/
def descriptorReserved (d : List Byte) : Bool := decide (fieldOf d 28 1 < 4) && fieldOf d 29 1 == 0 && zeroBytes d 80 48

/-- A table of the descriptor; none where it cannot be read. -/
def State.readTable (s : State) (ctx addr n : Nat) : Option (List (List Byte)) :=
  match s.guestBytes ctx addr (32 * n) with
  | .error _ => none
  | .ok bs => some (entriesOf 32 n bs)

/-- How many bits of a mask are set. -/
def bitsOf (w x : Nat) : Nat := ((List.range w).filter fun k => x.testBit k).length

/-- A carry entry's reasons (R157, R159/07). -/
def carryBad (e : List Byte) : List Nat :=
  (if 32 < bitsOf 128 (carryVec e) ∨ 16 < bitsOf 96 (carryScalar e) then [9] else []) ++ (if zeroBytes e 28 4 then [] else [10])

/-- Is a sheaf named in a fifth team (R48/02)? -/
def fifthTeam (ts : List TeamEntry) : Bool :=
  ts.any fun t => t.members.any fun n => decide (4 < (ts.filter fun u => u.members.contains n).length)

/-- Does every used entry keep R161? -/
def regionsOk (es : List (BitVec 256)) : Bool :=
  let used := es.filter regionUsed
  used.all regionSelfOk &&
    (List.range used.length).all fun i => (List.range i).all fun j => !(regionsMeet (used.getD i 0) (used.getD j 0))

/-- What the dispatch finds: the reasons to reject, the teams, the carry table. -/
structure Dispatched where
  bad : List Nat := []
  teams : List TeamEntry := []
  carry : List (List Byte) := []
deriving DecidableEq, Repr

/-- Every check of R157 on a launch. A team or carry table that cannot be read gives 0x01 (log 77). -/
def State.dispatchChecks (s : State) (l : Launch) (d : List Byte) : Dispatched :=
  if !(descriptorOk d l.recordAddr.toNat) then { bad := [1] }
  else
    match s.readTable l.ctx (fieldOf d 16 8) (fieldOf d 24 2), s.readTable l.ctx (fieldOf d 40 8) (fieldOf d 30 2) with
    | some es, some carry =>
      let ts := es.map (s.readTeam l.ctx (fieldOf d 8 4))
      let own := ts.flatMap (·.bad)
      let code (b : Bool) (c : Nat) : List Nat := if b then [c] else []
      { teams := ts, carry := carry
        bad := own ++ code (fifthTeam ts) 2 ++ code (!(placeable (launchPages (fieldOf d 13 1)) ts)) 8 ++
          carry.flatMap carryBad ++ code (!(descriptorReserved d)) 10 ++
          code ((BitVec.ofNat 8 (fieldOf d 28 1)).getLsbD 1 && (l.predTag == 0 || l.pred.isNone)) 11 ++
          code (!(regionsOk (s.regionsInMemory l.ctx))) 12 }
    | _, _ => { bad := [1] }

/-- The least of some reasons. -/
def leastReason : List Nat → Nat
  | [] => 0
  | x :: xs => xs.foldl min x

/-- The fields of a launch that its descriptor gives (R156/07). -/
def Launch.withDesc (l : Launch) (d : List Byte) : Launch :=
  { l with
    desc := d
    entry := BitVec.ofNat 56 (fieldOf d 0 8)
    sheafCount := fieldOf d 8 4
    lastLanes := fieldOf d 12 1
    carve := fieldOf d 13 1
    slicesSize := 64 * fieldOf d 14 1
    budget := 16 * fieldOf d 15 1
    cost := fieldOf d 26 2
    idempotent := (BitVec.ofNat 8 (fieldOf d 28 1)).getLsbD 0
    dependent := (BitVec.ofNat 8 (fieldOf d 28 1)).getLsbD 1 }

/-- A launch is rejected (R48/02, R157): it runs nothing, and its record carries the lowest reason. -/
def State.rejectLaunch (s : State) (l : Launch) (reason : Nat) : State :=
  let l := { l with dispatched := s.now }
  (s.modLaunch l.id fun _ => { l with state := 2 }).writeRecord l 1 reason 0 0

/-- A team of a launch at its dispatch (R176/08). -/
def teamOf (l : Launch) (id number : Nat) (e : TeamEntry) : Team :=
  { id := id, launch := l.id, ctx := l.ctx, number := number, scope := e.scope, members := e.members, scratch := e.scratch
    floor := e.floor, producer := e.producer, need := e.need, live := e.members }

/-- The teams of a launch come to be. -/
def State.addTeams (s : State) (l : Launch) (es : List TeamEntry) : State :=
  (List.range es.length).foldl (fun (s : State) k =>
    match es[k]? with
    | none => s
    | some e =>
      let (id, s) := s.fresh
      { s with teams := s.teams ++ [teamOf l id k e] }) s

/-- Has the gate of a dependent launch opened (R63/02)? -/
def State.gateNow (s : State) (l : Launch) : Bool :=
  match l.pred.bind s.launch? with
  | none => true
  | some p => p.state == 2 || (p.state == 1 && decide (p.sheafCount ≤ p.releases))

/-- `LAUNCH_DISPATCH` (R48, R63, R64/02, R157, R161/07). The ready launch with the greatest remaining path length is checked
as memory holds it now, then dispatched, after every one dispatched before (R66/02), or rejected; a descriptor that cannot be read gives 0x01 (log 77). The carry table as it is read
here serves where memory cannot be read later (log 78). -/
def execLaunchDispatch (s : State) : Out :=
  match s.nextLaunch with
  | none => .next s
  | some l =>
    match s.guestBytes l.ctx l.descAddr.toNat 256 with
    | .error _ => .next (s.rejectLaunch l 1)
    | .ok d =>
      let c := s.dispatchChecks l d
      let l := l.withDesc d
      if c.bad ≠ [] then .next (s.rejectLaunch l (leastReason c.bad))
      else
        let seq := s.launches.foldl (fun n m => max n m.dispatchSeq) 0 + 1
        let s := s.readRegions l.ctx
        let l := { l with
          state := 1, dispatched := s.now, dispatchSeq := seq, liveParts := l.sheafCount, carry := c.carry, gateOpen := s.gateNow l }
        .next ((s.modLaunch l.id fun _ => l).addTeams l c.teams)

/-! ### Placement (R49/02, R118, R122/05, R238/11) -/

/-- The sheaf slots of a core that are free (R238/11). -/
def State.slotFree (s : State) (core slot : Nat) : Bool :=
  decide (slot < 32) && !(s.sheaves.any fun h => h.core == core && h.place == .resident && h.slot == slot)

/-- Contexts with scratch or a level on a core. -/
def State.contextsOn (s : State) (core : Nat) : List Nat :=
  (((s.core core).res.map fun r => r.ctx) ++
    (s.teams.filter fun t => !((t.pagesOn core).isEmpty) && s.teamHolds t).map fun t => t.ctx).eraseDups

/-- The scratch pages in use on a core, at the levels in force. -/
def State.pagesUsed (s : State) (core : Nat) : Nat :=
  ((s.contextsOn core).map fun c => s.pagesAt core c ((((s.core core).res? c).map fun r => r.level).getD 7)).sum

/-- Does a core hold nothing of any launch (R65/02)? -/
def State.coreEmpty (s : State) (core : Nat) : Bool :=
  !(s.sheaves.any fun h => h.core == core && h.place == .resident) && (s.core core).deque.isEmpty &&
    !(s.teams.any fun t => !((t.pagesOn core).isEmpty) && s.teamHolds t)

/-- The teams of a launch up to a scope. -/
def State.teamsTo (s : State) (launch scope : Nat) : List Team :=
  s.teams.filter fun t => t.launch == launch && decide (t.scope ≤ scope)

/-- Does the placement of the teams that tie a sheaf allow a core (R49/02, R53/02)? -/
def State.placeOk (s : State) (launch n core : Nat) : Bool :=
  let near (scope : Nat) (ok : Nat → Bool) : Bool :=
    let ts := s.teamsTo launch scope
    let g := groupOf (ts.map (·.members)) n
    ts.all fun t => !(t.placed && t.members.any fun x => g.contains x) || ok t.core
  near 0 (fun c => c == core) && near 1 (fun c => clusterOfCore c == clusterOfCore core) &&
    near 2 (fun c => fieldOfCore c == fieldOfCore core)

/-- Place the teams that a sheaf's start places (R49/02). -/
def State.placeTeams (s : State) (launch n core : Nat) : State :=
  let g (scope : Nat) := groupOf ((s.teamsTo launch scope).map (·.members)) n
  let g0 := g 0
  let g1 := g 1
  let g2 := g 2
  { s with teams := s.teams.map fun t =>
      if t.launch = launch ∧ t.scope ≤ 2 ∧ ¬ t.placed ∧
          (t.members.any fun x => (match t.scope with | 0 => g0 | 1 => g1 | _ => g2).contains x) then
        { t with placed := true, core := core }
      else t }

/-- Can the core groups of a sheaf's cluster group that have no core yet still be placed (R49/02)? -/
def State.restPacks (s : State) (l : Launch) (n core : Nat) : Bool :=
  let ts := s.teamsTo l.id 1
  let g := groupOf (ts.map (·.members)) n
  let mine := ts.filter fun t => t.members.any fun x => g.contains x
  let clus := mine.filter fun t => t.scope == 1
  if clus.isEmpty then true
  else
    let share := (clus.map fun t => sharePages t.scratch).sum
    let cores := mine.filter fun t => t.scope == 0
    let base := clusterOfCore core * 8
    let room (k : Nat) : Need :=
      let here := cores.filter fun t => t.placed && t.core == base + k
      (launchPages l.carve - share - (here.map fun t => corePages t.scratch).sum, 32 - ((here.flatMap (·.members)).eraseDups).length)
    packs ((List.range 8).map room) (coreNeeds ((cores.filter fun t => !t.placed).map fun t => (t.members, corePages t.scratch)) [])

/-- The teams of a sheaf, in ascending team number, at most four (R48/02). -/
def State.slotsOf (s : State) (launch n : Nat) : List (Option Nat) :=
  let ts := (s.teams.filter fun t => t.launch == launch && t.members.contains n).map fun t => some t.id
  (ts ++ [none, none, none, none]).take 4

/-- The highest level whose grant fits (R238/11). -/
def State.bestLevel (s : State) (core ctx : Nat) : Nat → Option Nat
  | 0 => none
  | n + 1 => if s.grantsFit core ctx (n + 1) then some (n + 1) else State.bestLevel s core ctx n

/-- A context enters a core, with a bank at 0, at the highest level that fits; at most four do (R182/08, R238/11). GOAL is that level
too (log 79). -/
def State.enterCore (s : State) (core ctx : Nat) : Option State :=
  match (s.core core).res? ctx with
  | some r => if r.level = 0 ∨ ¬ s.grantsFit core ctx r.level then none else some s
  | none =>
    if 4 ≤ (s.core core).res.length then none
    else
      match s.bestLevel core ctx 7 with
      | none => none
      | some n => some (s.modCore core fun c => { c with res := c.res ++ [{ ctx := ctx, goal := n, level := n }] })

/-- Do the pages in use fit on every core of a cluster, or on the core alone? -/
def State.clusterFits (s : State) (core : Nat) : Bool :=
  (List.range 8).all fun k =>
    let c := clusterOfCore core * 8 + k
    decide (s.pagesUsed c ≤ carvePages (s.core c).carve)

/-- Do the cores of a cluster that a cluster-scope team takes pages on hold the launch's carve-out setting (R65/02)? -/
def State.clusterCarved (s : State) (l : Launch) (core : Nat) : Bool :=
  (List.range 8).all fun k =>
    let c := clusterOfCore core * 8 + k
    (s.core c).carve == l.carve ||
      !(s.teams.any fun t => t.launch == l.id && t.scope == 1 && t.placed && clusterOfCore t.core == clusterOfCore core && !(t.scratch == 0))

/-- Is a park of a context under way (R246/11)? -/
def State.parkingNow (s : State) (ctx : Nat) : Bool := s.cores.any fun c => ((c.2.res? ctx).map fun r => r.parking).getD false

/-- May a core take work of a context (R247, R248, R246/11)? During a park the context enters no new core. DESIGN CHOICE: nor, at any time,
one that is loaned to another (R388/19, log 106). -/
def State.coreOpen (s : State) (core ctx : Nat) : Bool :=
  decide (core < Config.cores) && !(s.core core).fenced && !(s.ctx ctx).parked && !(s.ctx ctx).frozen &&
    (((s.core core).res? ctx).isSome || !(s.parkingNow ctx)) && (cget none s.loans core).all fun c => c == ctx

/-- A sheaf of a launch put on a core: its teams placed, itself resident, its context entered; none where that does not fit. -/
def State.settleOn (s : State) (l : Launch) (h : Sheaf) (teams : Bool) : Option State :=
  let s := if teams then s.placeTeams l.id h.number h.core else s
  let s := { s with sheaves := (s.sheaves.filter fun x : Sheaf => !(x.id == h.id)) ++ [h] }
  match s.enterCore h.core h.ctx with
  | none => none
  | some s =>
    if s.clusterFits h.core && s.clusterCarved l h.core && (!teams || s.restPacks l h.number h.core) then
      -- pages that the context now holds on a core at a lowered level lie in barn at once (R135/05)
      some (s.settleLevel h.core h.ctx)
    else none

/-! ### The start of a sheaf (R61, R62/02) -/

/-- The argument block's registers (R61/02). -/
def argRegs (d : List Byte) : Cells Dword :=
  (List.range 16).foldl (fun r k => cset 0 r k (BitVec.ofNat 64 (fieldOf d (128 + 8 * k) 8))) []

/-- A sheaf as it starts (R61/02, R101/04). -/
def Launch.newSheaf (l : Launch) (id n core slot now : Nat) (slots : List (Option Nat)) : Sheaf :=
  { id := id, launch := l.id, number := n, ctx := l.ctx, core := core, slot := slot, since := now
    lanes := List.replicate 64 { pc := l.entry }
    exited := if n + 1 = l.sheafCount then maskOf ((List.range 64).filter fun k => decide (l.lastLanes ≤ k)) else 0
    s := argRegs l.desc, budget := l.budget, slots := slots }

/-- The linked cards of a launch: index and address (R62/02). -/
def Launch.linkedCards (l : Launch) : List (Nat × Nat) :=
  ((List.range 3).map fun k => (k, fieldOf l.desc (48 + 8 * k) 8)).filter fun x => !(x.2 == 0)

/-- A linked card that passes its checks, as a job of the field of sheaf 0's core (R62/02, R163/07, R218/10). -/
def linkedJob (l : Launch) (core idx addr : Nat) (slots : List (Option Nat)) (c : List Byte) : Job :=
  { id := 0, engine := cardEngine c, field := fieldOfCore core, core := core, ctx := l.ctx, launch := some l.id
    linked := some idx, card := c, cardAddr := BitVec.ofNat 64 addr, slots := slots
    team := slots.getD (fieldOf c 5 1) none, scope := cardScope c }

/-- A linked card is rejected (R164/07): a record of cause 0x06, and the launch retires with status 0x02. -/
def State.rejectLinked (s : State) (l : Launch) (idx addr engine cause : Nat) : State :=
  (s.reportJob l.ctx engine cause addr).modLaunch l.id fun k =>
    { k with jobError := match k.jobError with | none => some (engine, idx) | some x => some x }

/-- The linked cards enter their queues, or are rejected (R62/02, R164/07). -/
def State.enqueueLinked (s : State) (l : Launch) (core : Nat) (slots : List (Option Nat)) : State :=
  l.linkedCards.foldl (fun (s : State) x =>
    match s.guestBytes l.ctx x.2 256 with
    | .error c => s.rejectLinked l x.1 x.2 0 (causeCode c)
    | .ok c =>
      if cardFormOk c then
        (s.enqueue (linkedJob l core x.1 x.2 slots c)).modLaunch l.id fun k => { k with cards := k.cards ++ [(s.nextId, c, slots)] }
      else s.rejectLinked l x.1 x.2 (cardEngine c) 0) s

/-- Is there room in the queues for the linked cards (R147/06, log 26)? -/
def State.linkedRoom (s : State) (l : Launch) (core : Nat) : Bool :=
  let f := fieldOfCore core
  [1, 2, 3].all fun e =>
    let q := s.jobs.filter fun j => j.field == f && j.engine == e
    decide (q.length + 3 ≤ 256) && decide ((q.filter fun j => j.ctx == l.ctx).length + 3 ≤ 64)

/-- The state in which sheaf `n` of a launch has been made resident; none where it may not be yet. -/
def State.makeResident (s : State) (l : Launch) (n core slot : Nat) : Option State :=
  if l.state = 1 ∧ ¬ l.closed ∧ n < l.sheafCount ∧ ¬ l.residentOnce.contains n ∧ s.coreOpen core l.ctx ∧
      s.slotFree core slot ∧ (s.core core).carve = l.carve ∧ s.placeOk l.id n core ∧ (n ≠ 0 ∨ s.linkedRoom l core) then
    let (id, s) := s.fresh
    let slots := s.slotsOf l.id n
    match s.settleOn l (l.newSheaf id n core slot s.now slots) true with
    | none => none
    | some s =>
      let s := s.modLaunch l.id fun k =>
        { k with residentOnce := k.residentOnce ++ [n], started := k.started + 1
                 coresUsed := if k.coresUsed.contains core then k.coresUsed else k.coresUsed ++ [core] }
      -- what came before the submission or the dispatch happens before its loads (R212/10)
      let s := s.l1Clear core
      some (if n = 0 then s.enqueueLinked l core slots else s)
  else none

/-- `SHEAF_MADE_RESIDENT` (R49, R61, R62/02, R118/05, R182/08, R238/11). A sheaf starts where its slot, its pages and its
context's grant fit; with sheaf 0 the linked cards enter their queues. -/
def execSheafMadeResident (l n core slot : Nat) (s : State) : Out :=
  match s.launch? l with
  | none => .next s
  | some k => .next ((s.makeResident k n core slot).getD s)

/-! ### Carve-out (R65, R66/02) -/

/-- A launch's queued phase and fork tasks that a core of their fields may take (R53, R57/02). -/
def State.queuedFor (s : State) (l : Launch) (core : Nat) : Bool :=
  s.sheaves.any fun h => h.launch == l.id &&
    (match h.place with
      | .phase f queued team _ =>
        queued && s.placeOk l.id h.number core && (f == fieldOfCore core || ((s.team? team).map fun t => t.scope == 3).getD false)
      | .deque c => fieldOfCore c == fieldOfCore core
      | .resident | .suspended | .parked | .ended => false)

/-- Could a launch use a core but for its setting: a sheaf that waits to start, or a queued task, may lie there (R65/02)? -/
def State.wantsCore (s : State) (l : Launch) (core : Nat) : Bool :=
  l.state == 1 && !l.closed && s.coreOpen core l.ctx &&
    (((List.range l.sheafCount).any fun n => !(l.residentOnce.contains n) && s.placeOk l.id n core) || s.queuedFor l core)

/-- `CARVE_OUT_CHANGE` (R65, R66/02). A core that holds nothing takes a setting: of the launches that could take it, that of
the one dispatched first. Its whole L1 is written back and invalidated (R65/02). -/
def execCarveOutChange (core idx : Nat) (s : State) : Out :=
  let first := (s.launches.filter fun l => s.wantsCore l core).foldl (fun (b : Option Launch) l =>
    match b with
    | none => some l
    | some x => if l.dispatchSeq < x.dispatchSeq then some l else some x) none
  match first with
  | none => .next s
  | some l =>
    if s.coreEmpty core ∧ l.carve = idx ∧ (s.core core).carve ≠ idx then
      .next ((s.modCore core fun c => { c with carve := idx }).l1Empty core)
    else .next s

/-! ### Tasks and phases taken by cores (R53, R57, R58/02) -/

/-- A suspended party made resident on a core: its launch's setting, its teams' places, its pages (R53, R57, R65/02). -/
def State.takeIn (s : State) (h : Sheaf) (core slot : Nat) : Option State :=
  let l := s.launchOf h
  if s.coreOpen core h.ctx ∧ s.slotFree core slot ∧ (s.core core).carve = l.carve ∧ (h.task ∨ s.placeOk h.launch h.number core) then
    s.settleOn l { (h.resumed l.budget s.now) with core := core, slot := slot } (!h.task)
  else none

/-- A task starts (R57/02, R332/16): its record is used up, and its fork is an acquire for it. -/
def State.startTask (s : State) (id core slot : Nat) : Option State :=
  match s.sheaf? id with
  | none => none
  | some h =>
    match s.takeIn h core slot with
    | none => none
    | some s => some (((s.dropRecord id).modLaunch h.launch fun l =>
        { l with started := l.started + 1
                 coresUsed := if l.coresUsed.contains core then l.coresUsed else l.coresUsed ++ [core] }).l1Clear core)

/-- `TASK_TAKE` (R57/02). A core takes the task at its own deque's head. -/
def execTaskTake (core slot : Nat) (s : State) : Out :=
  match (s.core core).deque with
  | [] => .next s
  | t :: rest =>
    match s.startTask t core slot with
    | none => .next s
    | some s => .next (s.modCore core fun c => { c with deque := rest })

/-- The victims of a core in order (R57/02): its cluster's other cores, then its field's other clusters, ascending. -/
def victims (core : Nat) : List Nat :=
  let inCluster (k : Nat) := (List.range 8).map fun j => k * 8 + j
  ((inCluster (clusterOfCore core)).filter fun c => !(c == core)) ++
    (((List.range 16).map fun j => fieldOfCore core * 16 + j).filter fun k => !(k == clusterOfCore core)).flatMap inCluster

/-- The victim a thief's attempt of this cycle names: one victim a cycle, the order starting again after the last. -/
def State.victimOf (s : State) (core : Nat) : Nat := (victims core).getD ((s.now - (s.core core).thief) % 127) core

/-- `TASK_STEAL` (R57, R58/02). A core with an empty deque takes the task at the tail of its victim's. -/
def execTaskSteal (core slot : Nat) (s : State) : Out :=
  if (s.core core).deque ≠ [] then .next s
  else
    let v := s.victimOf core
    match (s.core v).deque.getLast? with
    | none => .next s
    | some t =>
      match s.startTask t core slot with
      | none => .next s
      | some s => .next (s.modCore v fun c => { c with deque := c.deque.dropLast })

/-- The phase tasks a core may take, oldest first: its own field's queue, then, for device-scope teams, the others'. DESIGN CHOICE: the
queues of several fields follow in ascending field number, whatever the age of their tasks (R148/06 orders one queue only, log 93). -/
def State.phasesFor (s : State) (core : Nat) : List (Nat × Nat) :=
  let f := fieldOfCore core
  let own := (s.field f).phases.map fun t => (f, t)
  let far := ((List.range Config.fields).filter fun g => !(g == f)).flatMap fun g =>
    ((s.field g).phases.filter fun t =>
      match (s.sheaf? t).bind fun h => (match h.place with | .phase _ _ tm _ => s.team? tm | _ => none) with
      | some t => t.scope == 3
      | none => false).map fun t => (g, t)
  own ++ far

/-- The first phase task of a list that a core can resume. DESIGN CHOICE: one that scope and carve-out allow, but that finds no room there, is
passed over for a younger one (log 107). -/
def State.firstPhase (s : State) (core slot : Nat) : List (Nat × Nat) → Option (Nat × Sheaf × State)
  | [] => none
  | (f, t) :: rest =>
    match s.sheaf? t with
    | none => State.firstPhase s core slot rest
    | some h =>
      match s.takeIn h core slot with
      | some s' => some (f, h, s')
      | none => State.firstPhase s core slot rest

/-- `PHASE_RESUME` (R53/02, R148/06, R328/16). A core takes the oldest phase task it may: the record is restored, and the
resumption is an acquire at the team's scope. -/
def execPhaseResume (core slot : Nat) (s : State) : Out :=
  match s.firstPhase core slot (s.phasesFor core) with
  | none => .next s
  | some (f, h, s) =>
    let s := (s.modField f fun x => x.without [h.id]).dropRecord h.id
    match h.place with
    | .phase _ _ tm _ =>
      match s.team? tm with
      | some t => .next (s.acquireTeam core t)
      | none => .next s
    | _ => .next s

/-! ### Retirement and restart -/

/-- Did a launch run on a core that is fenced (R249/11)? -/
def State.ranFenced (s : State) (l : Launch) : Bool := l.coresUsed.any fun c => (s.core c).fenced

/-- Is a launch's restart, or the record that it fails, still to come (R249/11)? -/
def State.owesRestart (s : State) (l : Launch) : Bool :=
  l.state == 1 && l.idempotent && decide (l.restarts < 2) && s.ranFenced l

/-- Has everything of a launch ended (R62/02, R231/11)? One that is to be restarted has not. -/
def State.launchOver (s : State) (l : Launch) : Bool :=
  l.state == 1 && !(s.owesRestart l) && l.liveParts == 0 && l.rstsOut == 0 && !(s.jobs.any fun j => j.launch == some l.id) &&
    !(s.seqQ.any fun r => ((s.sheaf? r.sheaf).map fun h => h.launch == l.id).getD false)

/-- Teams of retired launches go, once nothing uses their scratch (R51/02, R245/11). -/
def State.dropTeams (s : State) : State :=
  { s with teams := s.teams.filter fun t =>
      !(((s.launch? t.launch).map fun l => l.state == 2).getD true) || s.teamBusy t.id }

/-- The revisions of a launch's dropped children are free (R231/11). -/
def State.freeDropped (s : State) (l : Launch) : State :=
  let gone := ((s.launch? l.id).map fun k => k.dropped).getD []
  (s.modCtx l.ctx fun c => { c with revs := c.revs.filter fun v => !gone.contains v.id }).modLaunch l.id fun k => { k with dropped := [] }

/-- A launch retires (R62, R63/02): its record is written, its sheaves, their records and its teams go, gates that waited for it open. -/
def State.retireLaunch (s : State) (l : Launch) : State :=
  let (st, b2, b3) := l.status
  let s := (s.writeRecord l st 0 b2 b3).freeDropped l
  let ids := (s.sheaves.filter fun h => h.launch == l.id).map (·.id)
  let s := s.mapFields fun f => { f with records := f.records.filter fun r => !ids.contains r.sheaf }
  let s := { s with
    launches := s.launches.map fun k : Launch =>
      if k.id = l.id then { k with state := 2 }
      else if k.pred = some l.id then { k with gateOpen := true } else k
    sheaves := s.sheaves.filter fun h => !(h.launch == l.id)
    teams := s.teams.map fun t : Team => if t.launch = l.id then { t with ended := true } else t
    retired := s.retired ++ [(l.ctx, l.id)] }
  s.dropTeams

/-- `LAUNCH_RETIREMENT` (R62/02, R157/07). A launch of which everything has ended retires. -/
def execLaunchRetirement (l : Nat) (s : State) : Out :=
  match s.launch? l with
  | none => .next s
  | some k => if s.launchOver k then .next (s.retireLaunch k) else .next s

/-- Everything a launch holds goes: its sheaves, teams, jobs, commands and queued parts. -/
def State.clearLaunch (s : State) (l : Launch) : State :=
  let ids := (s.sheaves.filter fun h => h.launch == l.id).map (·.id)
  let s := (s.dropChildren l.id).freeDropped l
  let s := ids.foldl (fun (s : State) i => s.endSheaf i) s
  let s := s.mapCores fun c =>
    { c with deque := c.deque.filter fun t => !ids.contains t
             fifo := c.fifo.filter fun m => !(m.launch == l.id) }
  let s := s.mapFields fun f => { f.without ids with records := f.records.filter fun r => !ids.contains r.sheaf }
  ({ s with
    sheaves := s.sheaves.filter fun h => !(h.launch == l.id)
    teams := s.teams.filter fun t => !(t.launch == l.id)
    jobs := s.jobs.filter fun j => !(j.launch == some l.id)
    seqQ := s.seqQ.filter fun r => !ids.contains r.sheaf } : State).keepHeaders

/-- `LAUNCH_RESTART` (R249/11). An idempotent launch that ran on a fenced core is dispatched again, once, on other cores;
where that is not allowed, or a second time, a "replay failed" record is written (log 31). -/
def execLaunchRestart (l : Nat) (s : State) : Out :=
  match s.launch? l with
  | none => .next s
  | some k =>
    if s.owesRestart k then
      if k.restarts = 0 ∧ ¬ k.spoiled ∧ ¬ k.closed then
        .next ((s.clearLaunch k).modLaunch l fun k =>
          { k with state := 0, restarts := 1, residentOnce := [], started := 0, releases := 0, coresUsed := [], cards := []
                   jobError := none, grantWait := 0, liveParts := 0, ended := none })
      else .next ((s.report k.ctx errReplay 0 k.descAddr.toNat []).modLaunch l fun k => { k with restarts := 2 })
    else .next s

end Sys2Proof.Machine
end

