-- ==== Sys2Proof/Machine/Park.lean ====
section
/-! DEFINITION. The context engine: parking, the save area, resuming, the save deadline, containment reset (R160/07, R182/08, R246, R247, R250/11). -/

namespace Sys2Proof.Machine

/-! ### The save area -/

/-- The cores a context holds a level on. -/
def State.coresOfCtx (s : State) (ctx : Nat) : List Nat :=
  (s.cores.filter fun c => (c.2.res? ctx).isSome).map fun c => c.1

/-- The sheaves whose state a save takes, or has taken. -/
def State.savedSheaves (s : State) (ctx : Nat) : List Sheaf :=
  s.sheaves.filter fun h => h.ctx == ctx && (h.place == .resident || h.place == .parked)

/-- Read pages of guest physical memory from an address up, as a memory from 0; none where one is not mapped. -/
def State.getPages (s : State) (ctx gpa : Nat) : Nat → Option Memory
  | 0 => some []
  | n + 1 =>
    match State.getPages s ctx gpa n, s.stage2 ctx (gpa + 4096 * n) with
    | some m, .ok (hpa, _) =>
      some (m ++ (s.mem.filter fun c => decide (hpa ≤ c.1) && decide (c.1 < hpa + 4096)).map fun c => (c.1 - hpa + 4096 * n, c.2))
    | _, _ => none

/-- Is a ring another context's: did a command of that one bind it, on scratch of a team that still is (R353/17)? -/
def State.ringTaken (s : State) (ctx : Nat) (r : Ring) : Bool :=
  ((r.base.bind fun b => s.team? b.team).map fun t => !(t.ctx == ctx)).getD false

/-- Does a queued task belong to a context? -/
def State.taskOf (s : State) (ctx t : Nat) : Bool := ((s.sheaf? t).map fun h => h.ctx == ctx).getD false

/-- What a save takes from a core (R246/11): the bank, the counters of its rings, FIFO and deque entries, accumulator planes. -/
def State.corePart (s : State) (ctx core : Nat) : Core :=
  let c := s.core core
  { carve := c.carve
    res := c.res.filter fun r => r.ctx == ctx
    rings := c.rings
    fifo := c.fifo.filter fun m => m.ctx == ctx
    deque := c.deque.filter (s.taskOf ctx)
    saved := c.saved.filter fun x => x.1 == ctx }

/-- What is left on the core: its rings too, which no park changes (R153/06). -/
def State.coreWithout (s : State) (ctx : Nat) (c : Core) : Core :=
  { c with
    res := c.res.filter fun r => !(r.ctx == ctx)
    fifo := c.fifo.filter fun m => !(m.ctx == ctx)
    deque := c.deque.filter fun t => !(s.taskOf ctx t)
    saved := c.saved.filter fun x => !(x.1 == ctx) }

/-- The cores of a context, those whose part has been taken among them, ascending. -/
def State.partCores (s : State) (ctx : Nat) : List Nat :=
  sortBy (((s.ctx ctx).savedCores.map fun x => x.1) ++ s.coresOfCtx ctx).eraseDups fun a b => decide (a ≤ b)

/-- A core's part of a context, or what was taken of it. -/
def State.partOf (s : State) (ctx core : Nat) : Core := ((s.ctx ctx).savedCores.lookup core).getD (s.corePart ctx core)

/-- The teams whose scratch, chunk maps and barrier state go with a core's part: those placed there; a team that no core holds goes
with the context's first. -/
def State.partTeams (s : State) (ctx core : Nat) : List Team :=
  s.teams.filter fun t => t.ctx == ctx && !t.ended &&
    (if t.placed then t.core == core else (s.partCores ctx).head? == some core)

/-! The layout of a save area (log 27): the header, with the watchpoints; the accumulator planes, by core and quadrant (`planeBase`); each
core's part, by core; each sheaf's task record; the engine job entries. -/

/-- A command's number in a save area. -/
def MatOp.saveCode : MatOp → Nat
  | .mmul f => 16 + elemBytes f | .mmb => 1 | .msca => 2 | .mldw f => 32 + (f.map elemBytes).getD 0 | .mswap => 3 | .mdrain f => 48 + elemBytes f
  | .mclr => 4

/-- A FIFO entry, 64 bytes: the command, its set, token and running set, its state, its progress, its scalars (R144/06, R244/11). -/
def MatCmd.saveEntry (c : MatCmd) : List Byte :=
  bytesOfNat 1 c.op.saveCode ++ bytesOfNat 1 c.set ++ bytesOfNat 1 c.token ++ bytesOfNat 1 c.run ++
    bytesOfNat 1 (if c.started then 1 else 0) ++ bytesOfNat 1 (if c.stopped then 1 else 0) ++ bytesOfNat 1 (if c.done then 1 else 0) ++ [0] ++
    bytesOfNat 4 c.kpos ++ bytesOfNat 4 c.ksteps ++ bytesOfNat 8 c.block ++ bytesOfNat 8 c.launch ++
    bytesOfNat 8 c.s0.toNat ++ bytesOfNat 8 c.s1.toNat ++ bytesOfNat 8 c.s2.toNat ++ bytesOfNat 8 c.s3.toNat

/-- A barrier state's 128 bits (R176/08). -/
def Team.barrierBytes (t : Team) : List Byte :=
  bytesOfNat 4 (BitVec.ofInt 32 t.pend).toNat ++ bytesOfNat 4 t.arr ++ bytesOfNat 4 t.need ++ bytesOfNat 4 t.gen.toNat

/-- Put consecutive entries. -/
def putEntries (m : Memory) (off size : Nat) (es : List (List Byte)) : Memory :=
  es.zipIdx.foldl (fun (m : Memory) x => m.write (off + size * x.2) x.1) m

/-- The teams of a part from an offset: 4 KiB of state each, then its scratch in whole pages. -/
def putTeams : Memory → Nat → List Team → Memory
  | m, _, [] => m
  | m, off, t :: ts =>
    let m := (m.write off (bytesOfNat 1 t.number ++ bytesOfNat 1 t.scope)).write (off + 16) t.barrierBytes
    let m := t.maps.foldl (fun (m : Memory) c => m.write (off + 256 + 32 * c.1) (bytesOfNat 32 c.2.toNat)) m
    let m := t.mem.foldl (fun (m : Memory) c => m.set (off + 4096 + c.1) c.2) m
    putTeams m (off + 4096 * (1 + pagesOf t.scratch)) ts

/-- The pages of a core's part. -/
def State.partPages (s : State) (ctx core : Nat) : Nat :=
  2 + ((s.partTeams ctx core).map fun t => 1 + pagesOf t.scratch).sum

/-- A core's part as bytes (R246/11): token counters, ring counters, deque entries head first, FIFO entries in order, then
its teams; its accumulator planes have a place of their own. -/
def State.partBytes (s : State) (ctx core : Nat) : Memory :=
  let c := s.partOf ctx core
  let m := putEntries [] 0 2 ((c.res.flatMap fun r => r.bank).map fun t => bytesOfNat 2 t.toNat)
  let m := putEntries m 0x10 8 (c.rings.map fun r => bytesOfNat 4 r.head.toNat ++ bytesOfNat 4 r.tail.toNat)
  let m := m.write 0x30 (bytesOfNat 1 c.fifo.length ++ bytesOfNat 1 c.deque.length)
  let m := putEntries m 0x40 16 ((c.deque.filterMap s.sheaf?).map (s.dequeEntry core))
  let m := putEntries m 0x1000 64 (c.fifo.map MatCmd.saveEntry)
  putTeams m 0x2000 (s.partTeams ctx core)

/-- An engine job queue entry, 16 bytes: the card's address, context, engine, field, and the tag of the linked launch (R147/06). -/
def State.jobEntry (s : State) (j : Job) : List Byte :=
  bytesOfNat 8 j.cardAddr.toNat ++ bytesOfNat 1 j.ctx ++ bytesOfNat 1 j.engine ++ bytesOfNat 1 j.field ++ [0] ++
    bytesOfNat 4 (((j.launch.bind s.launch?).map fun l => l.tag.toNat).getD 0)

/-- The jobs of a context that its save takes. -/
def State.savedQueue (s : State) (ctx job : Nat) : List Job := s.jobs.filter fun j => j.ctx == ctx && !(j.id == job)

/-- A watchpoint's 16 bytes in the header (R381/18). -/
def Watch.bytes (w : Watch) : List Byte :=
  bytesOfNat 8 w.addr.toNat ++ bytesOfNat 1 w.log ++
    bytesOfNat 7 ((if w.ld then 1 else 0) + (if w.st then 2 else 0) + (if w.atom then 4 else 0))

/-- A watchpoint from its bytes. -/
def Watch.ofBytes (bs : List Byte) : Watch :=
  let e : BitVec 8 := BitVec.ofNat 8 (fieldOf bs 9 1)
  ⟨BitVec.ofNat 64 (fieldOf bs 0 8), fieldOf bs 8 1, e.getLsbD 0, e.getLsbD 1, e.getLsbD 2⟩

/-- The header (R246/11, R381/18). -/
def State.saveHeader (s : State) (ctx : Nat) : Memory := putEntries [] 0 16 ((s.ctx ctx).watch.map Watch.bytes)

/-- Where the parts of a save area begin, in pages: after the header and the planes. -/
def partsAt : Nat := 1 + 64 * Config.cores

/-- Where the records of a save area begin, in pages; where it ends. -/
def State.recordsAt (s : State) (ctx : Nat) : Nat := partsAt + ((s.partCores ctx).map (s.partPages ctx)).sum
def State.savePages (s : State) (ctx job : Nat) : Nat :=
  s.recordsAt ctx + 64 * (s.savedSheaves ctx).length + pagesOf (16 * (s.savedQueue ctx job).length)

/-- The planes that a save writes: those saved on the context's cores. -/
def State.savedPlanes (s : State) (ctx : Nat) : List (Nat × Nat × Nat × Quad) :=
  (s.partCores ctx).flatMap fun c => (s.partOf ctx c).saved.map fun x => (c, x)

/-- The pages that a save writes, in order. -/
def State.saveList (s : State) (ctx job : Nat) : List Nat :=
  [0] ++ ((s.savedPlanes ctx).flatMap fun x => (List.range 16).map fun p => 1 + 64 * x.1 + 16 * x.2.2.1 + p) ++
    (List.range (s.savePages ctx job - partsAt)).map fun p => partsAt + p

/-- The first page of the save area that the second stage does not map (R247/11). -/
def State.saveFault (s : State) (ctx job : Nat) : Option Nat :=
  ((s.saveList ctx job).map fun p => (s.ctx ctx).saveBase.toNat + 4096 * p).find? fun a =>
    !s.pageMapped ctx a

/-- The parts of some cores are written from an address up. -/
def State.writeParts (s : State) (ctx : Nat) : List Nat → Nat → State
  | [], _ => s
  | c :: cs, gpa =>
    State.writeParts (s.putPages ctx gpa (s.partBytes ctx c) (s.partPages ctx c)) ctx cs (gpa + 4096 * s.partPages ctx c)

/-- Write the save area (R246/11). -/
def State.writeSave (s : State) (ctx job : Nat) : State :=
  let base := (s.ctx ctx).saveBase.toNat
  let records := base + 4096 * s.recordsAt ctx
  let hs := s.savedSheaves ctx
  let s := (s.savedPlanes ctx).foldl (fun (s : State) x => s.writePlanes x.1 x.2) s
  let s := (s.putPage ctx base (s.saveHeader ctx) 0).writeParts ctx (s.partCores ctx) (base + 4096 * partsAt)
  let s := hs.zipIdx.foldl (fun (s : State) x => s.putPages ctx (records + 262144 * x.2) (s.taskRecord x.1) 64) s
  let queue := s.savedQueue ctx job
  s.putPages ctx (records + 262144 * hs.length) (putEntries [] 0 16 (queue.map s.jobEntry)) (pagesOf (16 * queue.length))

/-! ### Parking -/

/-- Requests of the sequencer outstanding for a context. -/
def State.inFlightSeq (s : State) (ctx : Nat) : Bool :=
  s.seqQ.any fun r => ((s.sheaf? r.sheaf).map fun h => h.ctx == ctx).getD false

/-- A context at level 0 on every core, with nothing of it in flight, can be saved. -/
def State.readyToSave (s : State) (ctx job : Nat) : Bool :=
  (s.coresOfCtx ctx).all (fun c => (((s.core c).res? ctx).map fun r => r.level == 0).getD true) &&
    !(s.inFlightSeq ctx) && !(s.jobs.any fun j => j.ctx == ctx && j.started && !(j.id == job)) &&
    !((s.savedSheaves ctx).any fun h => h.pend.any Pending.arriving)

/-- The whole register state of some cores' sheaves goes to the save area: what lies in backing slots is read from there (R113/04). A slot
that is not mapped gives nothing (log 102). -/
def State.drawSheaves (s : State) (ctx : Nat) (cores : List Nat) : State :=
  (s.sheaves.filter fun h => h.ctx == ctx && h.place == .resident && cores.contains h.core).foldl (fun (s : State) h =>
    (s.coldOf h).foldl (fun (s : State) r => s.openCold h.id r) s) s

/-- Some cores' parts of a context are taken, and nothing of it stays there. -/
def State.liftCores (s : State) (ctx : Nat) (cores : List Nat) : State :=
  let s := s.drawSheaves ctx cores
  let parts := cores.map fun c => (c, s.corePart ctx c)
  let s := s.modCtx ctx fun k => { k with savedCores := k.savedCores ++ parts }
  let s := cores.foldl (fun (s : State) c => s.modCore c (s.coreWithout ctx)) s
  s.mapSheaves fun h => if h.ctx = ctx ∧ h.place = .resident ∧ cores.contains h.core then { h with place := .parked } else h

/-- Nothing of a context waits in a save buffer any more (R247/11). -/
def State.clearBuffers (s : State) (ctx : Nat) : State :=
  (s.mapFields fun f => { f with buffer := f.buffer.filter fun x => !(x.1 == ctx) }).modCtx ctx fun k =>
    { k with planeWait := [], planeSince := none }

/-- The context is parked (R246/11): the save area is written, and nothing of it stays on a core. -/
def State.parkContext (s : State) (ctx job : Nat) : State :=
  let s := s.drawSheaves ctx (s.coresOfCtx ctx)
  let at_ := s.recordsAt ctx
  let s := s.writeSave ctx job
  let waiting := s.savedQueue ctx job
  let s := (s.liftCores ctx (s.coresOfCtx ctx)).clearBuffers ctx
  let s := s.modCtx ctx fun k => { k with parked := true, frozen := false, saveWait := none, savedJobs := waiting, savedAt := at_ }
  { s with jobs := s.jobs.filter fun j => !(j.ctx == ctx) }

/-- The bytes of a context's state on a field (R246, R247/11): its cores' parts, planes and sheaves. -/
def State.stateBytes (s : State) (ctx field : Nat) : Nat :=
  let cores := (s.partCores ctx).filter fun c => fieldOfCore c == field
  (cores.map fun c => 4096 * s.partPages ctx c + 65536 * (s.partOf ctx c).saved.length).sum +
    262144 * ((s.savedSheaves ctx).filter fun h => fieldOfCore h.core == field).length

/-- The state of a stalled save goes to the save buffers, 16 MiB a field; where it does not fit, the field's cores of the context stay
frozen (R247/11). -/
def State.bufferSave (s : State) (ctx : Nat) : State :=
  (List.range Config.fields).foldl (fun (s : State) f =>
    let others := (s.field f).buffer.filter fun x => !(x.1 == ctx)
    let mine := s.stateBytes ctx f
    if mine = 0 ∨ 2 ^ 24 < (others.map fun x => x.2).sum + mine then s
    else (s.modField f fun k => { k with buffer := others ++ [(ctx, mine)] }).liftCores ctx
      ((s.coresOfCtx ctx).filter fun c => fieldOfCore c == f)) s

/-- The save is made, or stalls on an unmapped page: a report of the fault to the error-handling core, its context and address, begins
the wait (R247/11, log 62). -/
def State.saveOrStall (s : State) (ctx job : Nat) : State :=
  if (s.ctx ctx).saveWait.isSome then s
  else
    match s.saveFault ctx job with
    | none => s.parkContext ctx job
    | some a =>
      match s.tell 3 errorMonitor (bytesOfNat 8 ctx ++ bytesOfNat 8 a) with
      | none => s
      | some s => (s.modCtx ctx fun k => { k with frozen := true, saveWait := some s.time, saveAddr := a }).bufferSave ctx

/-- A park begins (R246/11): a NOTICE for every core of the context, then level 0. -/
def State.beginPark (s : State) (ctx : Nat) : State :=
  (s.coresOfCtx ctx).foldl (fun (s : State) c => s.modRes c ctx fun r =>
    { r.lowered s.now with parking := true, expandAt := none }) s

/-! ### Resuming -/

/-- A number of a record. -/
def Memory.num (m : Memory) (off len : Nat) : Nat := natOfBytes (m.read off len)

/-- The trap frame at an offset of a record. -/
def Memory.frame (m : Memory) (off : Nat) : TrapRegs :=
  let w (k : Nat) : Dword := BitVec.ofNat 64 (m.num (off + 8 * k) 8)
  ⟨w 0, w 1, w 2, w 3⟩

/-- A lane's state as a task record holds it (R160/07). -/
def Lane.ofRecord (ln : Lane) (m : Memory) (l : Nat) : Lane :=
  let pc (off : Nat) : Vaddr := BitVec.ofNat 56 (m.num off 8)
  { ln with
    pc := pc (0x80 + 8 * l)
    held := pc (0x1500 + 8 * l)
    outer := pc (0x1700 + 8 * l)
    loops := (List.range 3).map fun k =>
      ⟨BitVec.ofNat 32 (m.num (0x280 + 12 * l + 4 * k) 4), pc (0x580 + 48 * l + 16 * k), pc (0x588 + 48 * l + 16 * k)⟩ }

/-- The cells of a record's range, by entries of `size` bytes, as a sparse map of values. -/
def Memory.cellsOf {w : Nat} (m : Memory) (off len size : Nat) : Cells (BitVec w) :=
  (((m.filter fun c => decide (off ≤ c.1) && decide (c.1 < off + len)).map fun c => (c.1 - off) / size).eraseDups).foldl
    (fun (r : Cells (BitVec w)) k => cset 0 r k (BitVec.ofNat w (m.num (off + size * k) size))) []

/-- A sheaf as its task record in the save area holds it (R115/04, R160/07); what no field of the record holds, its waits, its pending
loads, its children, stays with the model's sheaf (log 27). `$nleft` is not kept (R175/08; DEDUCED, log 88). -/
def Sheaf.ofRecord (h : Sheaf) (m : Memory) : Sheaf :=
  { h with
    wb := m.num 0x14 2
    rev := m.num 0x16 2
    ctrl := BitVec.ofNat 24 (m.num 0x18 8)
    flags := FpFlags.ofBits (BitVec.ofNat 5 (m.num 0x20 1))
    tl := m.num 0x22 1
    forkSeq := BitVec.ofNat 16 (m.num 0x26 2)
    exited := BitVec.ofNat 64 (m.num 0x28 8)
    yielded := BitVec.ofNat 64 (m.num 0x30 8)
    p := m.cellsOf 0x40 64 8
    lanes := h.lanes.mapIdx fun l ln => ln.ofRecord m l
    s := m.cellsOf 0x1180 768 8
    trap := m.frame 0x1480
    outer := m.frame 0x14A0
    nleft := 0
    v := m.cellsOf 0x2000 0x20000 4
    slice := (m.filter fun c => decide (0x22000 ≤ c.1)).map fun c => (c.1 - 0x22000, c.2) }

/-- The sheaves of a saved context read their records back; none where a page of one is not mapped. -/
def State.readRecords (s : State) (ctx gpa : Nat) : List Sheaf → Option State
  | [] => some s
  | h :: hs =>
    match s.getPages ctx gpa 64 with
    | none => none
    | some m => State.readRecords (s.modSheaf h.id fun h => h.ofRecord m) ctx (gpa + 262144) hs

/-- One core takes its part of a saved context back, at level 7 (R182/08, R246/11); none while its banks, its FIFO, its deque or its
grants have no room (R139/06). Its registers lie in the save area, not in backing slots (R113/04); where its carve-out changes, the core's
whole L1 is invalidated (R65/02). DESIGN CHOICE: its rings read as the save area kept them (R175/08), but those that another context has
bound since (log 94). -/
def State.resumeCore (s : State) (ctx core : Nat) (part : Core) : Option State :=
  let c := s.core core
  if 4 ≤ c.res.length ∨ 64 < c.fifo.length + part.fifo.length ∨ 64 < c.deque.length + part.deque.length ∨ c.fenced ∨ (c.carve ≠ part.carve ∧ ¬ s.coreEmpty core) then none
  else
    let back := part.res.map fun r : Res =>
      { r with goal := 7, level := 7, parking := false, squeezing := false, stopped := false, target := 7, noticed := false
               forced := false, noticeAt := none, expandAt := none, moves := [], returns := [], affected := [], hot := [], cold := [], turns := [] }
    let s := if c.carve = part.carve then s else s.l1Empty core
    let s := s.modCore core fun c =>
      { c with
        carve := part.carve
        res := c.res ++ back
        rings := c.rings.mapIdx fun k (r : Ring) => if s.ringTaken ctx r then r else part.rings.getD k r
        fifo := c.fifo ++ part.fifo
        deque := part.deque ++ c.deque
        saved := c.saved ++ part.saved }
    let s := s.mapSheaves fun h =>
      if h.ctx = ctx ∧ h.core = core ∧ h.place = .parked then { h.resumed (s.launchOf h).budget s.now with sliceReloc := [] } else h
    if s.grantsFit core ctx 7 then some s else none

/-- Every core takes its part back; none while one cannot. -/
def State.resumeCores (s : State) (ctx : Nat) : List (Nat × Core) → Option State
  | [] => some s
  | (c, part) :: rest =>
    match s.resumeCore ctx c part with
    | none => none
    | some s => State.resumeCores s ctx rest

/-- Have the engine queues room for a context's saved jobs (R139, R147/06)? -/
def State.jobsFit (s : State) (ctx : Nat) (js : List Job) : Bool :=
  js.all fun j =>
    let same (k : Job) : Bool := k.field == j.field && k.engine == j.engine
    let all := s.jobs.filter same ++ js.filter same
    decide (all.length ≤ 256) && decide ((all.filter fun k => k.ctx == ctx).length ≤ 64)

/-- Saved jobs take their places before those of the context that came since. -/
def putJobs (ctx : Nat) (saved js : List Job) : List Job :=
  (js.takeWhile fun j => !(j.ctx == ctx)) ++ saved ++ js.dropWhile fun j => !(j.ctx == ctx)

/-- The watchpoints that a save area's header holds (R381/18). -/
def State.readWatch (s : State) (ctx : Nat) : State :=
  match s.getPages ctx (s.ctx ctx).saveBase.toNat 1 with
  | none => s
  | some m => s.modCtx ctx fun k => { k with watch := (List.range 4).map fun n => Watch.ofBytes (m.read (16 * n) 16) }

/-- The context runs again (R246/11); none while a core or a queue cannot take its part (R147/06, R182/08). -/
def State.resumeContext (s : State) (ctx : Nat) : Option State :=
  let k := s.ctx ctx
  match s.readRecords ctx (k.saveBase.toNat + 4096 * k.savedAt) (s.savedSheaves ctx) with
  | none => none
  | some s =>
    let s := (s.readWatch ctx).modCtx ctx fun k => { k with parked := false, savedCores := [], savedJobs := [] }
    -- at level 7 every page is in its scratchpad (R135/05, R237/11)
    let s := { s with teams := s.teams.map fun t : Team => if t.ctx = ctx then { t with reloc := [] } else t }
    match s.resumeCores ctx k.savedCores with
    | none => none
    | some s => if s.jobsFit ctx k.savedJobs then some { s with jobs := putJobs ctx k.savedJobs s.jobs } else none

/-! ### The save deadline and containment (R247, R250/11, R387/19) -/

/-- A context is reset by containment (R247/11): a record for each of its launches, which retire with status 0x04. -/
def State.resetContext (s : State) (ctx : Nat) : State :=
  let ls := s.launches.filter fun l => l.ctx == ctx && !(l.state == 2)
  let s := ls.foldl (fun (s : State) l =>
    (((s.clearLaunch l).report ctx errReset 0 0 ([0, 0, 0, 0] ++ bytesOfNat 4 l.tag.toNat)).retireLaunch
      { l with containment := true })) s
  let s := (s.mapCores (s.coreWithout ctx)).clearBuffers ctx
  let s := ({ s with jobs := s.jobs.filter fun j => !(j.ctx == ctx) } : State).keepHeaders
  s.modCtx ctx fun k => { k with parked := false, frozen := false, saveWait := none, savedCores := [], savedJobs := [], revs := [] }

/-- The park job of a context. -/
def State.parkJob (s : State) (ctx : Nat) : Nat :=
  ((s.jobs.find? fun j => j.engine == 5 && j.ctx == ctx && j.started && !j.resume).map fun j => j.id).getD s.nextId

/-- Does a save still wait for the page it reported? -/
def State.saveStuck (s : State) (ctx : Nat) : Bool := !s.pageMapped ctx (s.ctx ctx).saveAddr

/-- A save that waited goes on: it is made, or meets the next page that is not mapped, which is reported in its turn (R247/11). -/
def State.saveGoesOn (s : State) (ctx : Nat) : State :=
  let job := s.parkJob ctx
  match s.saveFault ctx job with
  | none => s.parkContext ctx job
  | some a =>
    match s.tell 3 errorMonitor (bytesOfNat 8 ctx ++ bytesOfNat 8 a) with
    | none => s
    | some s => s.modCtx ctx fun k => { k with saveWait := some s.time, saveAddr := a }

/-- `SAVE_RESUME` (R247/11). The mapping was made in an earlier cycle: the save goes on, and so do planes that wait. -/
def execSaveResume (ctx : Nat) (s : State) : Out :=
  let s := if s.planesReady ctx then s.planesGoOn ctx else s
  if (s.ctx ctx).saveWait.isSome ∧ ¬ s.saveStuck ctx then .next (s.saveGoesOn ctx) else .next s

/-- Has a context waited for a page of its save area past the deadline (R247/11)? -/
def State.saveLate (s : State) (ctx : Nat) : Bool :=
  (match (s.ctx ctx).saveWait with
    | some t => s.elapsed t s.saveDeadline && s.saveStuck ctx
    | none => false) ||
  (match (s.ctx ctx).planeSince with
    | some t => s.elapsed t s.saveDeadline && !s.pageMapped ctx (s.ctx ctx).planeAddr
    | none => false)

/-- `SAVE_DEADLINE_EXPIRY` (R247, R250/11). The deadline passes before the mapping is made: the context is reset. -/
def execSaveDeadlineExpiry (ctx : Nat) (s : State) : Out := .next (if s.saveLate ctx then s.resetContext ctx else s)

end Sys2Proof.Machine
end

