-- ==== Sys2Proof/Machine/Engines.lean ====
section
/-! DEFINITION. Engine jobs: copy, winnow, exchange, merge, context (R218 to R223/10, R249/11, R320 to R322/15, R334 to R338/16, R366 to R372/18). -/

namespace Sys2Proof.Machine

/-! ### Starting (R220/10) -/

/-- May an engine job take new work: its engine is not fenced, its context not parked (R246, R248/11)? -/
def State.engineOpen (s : State) (j : Job) : Bool :=
  !(s.fenced.contains (.engine j.field j.engine)) && (j.engine == 5 || !(s.ctx j.ctx).parked)

/-- May a job start now: every earlier job it conflicts with has released its completion (R220/10); context engine jobs of a
context run one after another. -/
def State.jobMayStart (s : State) (j : Job) : Bool :=
  !j.started && !j.cut && j.waitAddr.isNone && s.engineOpen j &&
    !((s.jobsBefore j.id).any fun a => s.jobsConflict a j || (j.engine == 5 && a.engine == 5 && a.ctx == j.ctx))

/-- A job that writes a footprint of a linked card that entered its queue before it spoils the card's launch for a restart (R249/11). -/
def State.spoil (s : State) (j : Job) : State :=
  let ws := (s.footprints j).filter fun f => f.write
  { s with launches := s.launches.map fun l : Launch =>
      if l.ctx = j.ctx ∧
          (l.cards.any fun c => decide (c.1 < j.id) && (cardFootprints c.2.1 c.2.2).any fun x => ws.any fun y => overlaps x y) then
        { l with spoiled := true }
      else l }

/-- A job is marked started. -/
def State.markStarted (s : State) (j : Job) : State :=
  (s.spoil j).modJob j.id fun j => { j with started := true, startCycle := s.now, startTime := s.time }

/-- What a stop of a job's access does (R322/15). -/
def State.stopJob (s : State) (j : Job) (e : EngineStop) : State := s.engineFault j e.1 e.2

/-! ### Copy (R320, R321/15) -/

/-- The index of element `e` of a tile, dimension 0 first. -/
def tileIndex : List Nat → Nat → List Nat
  | [], _ => []
  | n :: ns, e => e % n :: tileIndex ns (e / n)

/-- The byte offset of an index by strides of dimensions 1 up; dimension 0 is contiguous. -/
def tileOffset (size : Nat) (ix : List Nat) (str : List Int) : Int :=
  ((ix.headD 0 * size : Nat) : Int) + (((ix.drop 1).zip str).map fun x => (x.1 : Int) * x.2).sum

/-- Source and destination offsets of element `e`. -/
def Tile.offsets (t : Tile) (e : Nat) : Int × Int :=
  let ix := tileIndex (t.ext.take t.rank) e
  (tileOffset (2 ^ t.log) ix t.sstr, tileOffset (2 ^ t.log) ix t.dstr)

/-- The elements of chunk `i`. -/
def Tile.chunkElems (t : Tile) (i : Nat) : List Nat :=
  (List.range (t.chunkBytes i / 2 ^ t.log)).map fun k => i * (512 / 2 ^ t.log) + k

/-- The first access of some elements that fails; a write that retains an ancestor in an overflow page that is not mapped waits as an XLATE2
access does (R333/16). -/
def State.copyStop (s : State) (j : Job) (t : Tile) : List Nat → Option EngineStop
  | [] => none
  | e :: es =>
    let o := t.offsets e
    match (s.engineAt j .load t.src o.1 (2 ^ t.log)).1, (s.engineAt j .store t.dst o.2 (2 ^ t.log)).1 with
    | .error c, _ => some (c, (((t.src % 2 ^ 56 : Nat) : Int) + o.1).toNat)
    | .ok _, .error c => some (c, (((t.dst % 2 ^ 56 : Nat) : Int) + o.2).toNat)
    | .ok _, .ok (.host (some va) hpa) =>
      if s.retainWaits j.ctx j.rev va hpa then some (.xlate2, va) else State.copyStop (s.retained j.ctx j.rev va hpa) j t es
    | .ok _, .ok _ => State.copyStop s j t es

/-- Copy some elements. DESIGN CHOICE: the elements of a chunk are copied in ascending order (R321/15 leaves it to the engine, log 98). -/
def State.copyElems (s : State) (j : Job) (t : Tile) : List Nat → State
  | [] => s
  | e :: es =>
    let o := t.offsets e
    match s.engineAt j .load t.src o.1 (2 ^ t.log) with
    | (.error _, s) => State.copyElems s j t es
    | (.ok a, s) =>
      let (bs, s) := s.engineRead j a (2 ^ t.log)
      match s.engineAt j .store t.dst o.2 (2 ^ t.log) with
      | (.error _, s) => State.copyElems s j t es
      | (.ok b, s) => State.copyElems (s.engineWrite j b bs) j t es

/-- The signal of a chunk that has landed (R321/15); a credit that saturates completes the job with an error (R178/08). -/
def State.chunkSignal (s : State) (j : Job) (i n : Nat) : State :=
  match cardKind j.card with
  | 1 => s.setChunk j i
  | 2 =>
    match j.creditTeam with
    | none => s
    | some t =>
      let (s, over_) := s.credit t n (s.jobReach j)
      if over_ then (s.reportJob j.ctx j.engine 0 j.cardAddr.toNat).jobErrorAt j else s
  | _ => s

/-- `COPY_CHUNK_LANDING` (R321, R322/15). A chunk is copied and signalled; an access that fails stops the job first. -/
def execCopyChunkLanding (job chunk : Nat) (s : State) : Out :=
  match s.job? job with
  | none => .next s
  | some j =>
    let t := tileOf j.card
    if j.engine = 1 ∧ j.started ∧ j.waitAddr.isNone ∧ chunk < t.chunks ∧ ¬ j.landed.contains chunk then
      match s.copyStop j t (t.chunkElems chunk) with
      | some e => .next (s.stopJob j e)
      | none =>
        let s := s.copyElems j t (t.chunkElems chunk)
        let s := s.modJob job fun j => { j with landed := j.landed ++ [chunk] }
        .next (s.chunkSignal j chunk (t.chunkBytes chunk))
    else .next s

/-! ### Winnow (R366, R367/18) -/

/-- A write of an engine job: operand address, piece size, pieces. -/
structure EnginePut where
  word : Nat
  size : Nat
  data : List (List Byte)
deriving DecidableEq, Repr

/-- The first of some writes whose checks fail, each looked at where those before it have been made. -/
def State.putsStop (s : State) (j : Job) : List EnginePut → Option EngineStop
  | [] => none
  | p :: ps =>
    match s.engineMayPut j p.word p.size p.data.length 0 with
    | some e => some e
    | none => State.putsStop (s.enginePut j p.word p.size p.data 0) j ps

/-- Make writes. -/
def State.putAll (s : State) (j : Job) : List EnginePut → State
  | [] => s
  | p :: ps => State.putAll (s.enginePut j p.word p.size p.data 0) j ps

/-- Entries of an n32 array. -/
def entries32 (xs : List Nat) : List (List Byte) := xs.map fun x => bytesOfNat 4 x

/-- The kept assignments of the sort (R367/18), as (expert, assignment) in assignment order. -/
def winnowKeep (experts cap : Nat) : List Nat → Nat → List (Nat × Nat) → List (Nat × Nat)
  | [], _, kept => kept
  | x :: xs, i, kept =>
    if experts ≤ x ∨ (cap ≠ 0 ∧ (kept.filter fun k => k.1 == x).length = cap) then winnowKeep experts cap xs (i + 1) kept
    else winnowKeep experts cap xs (i + 1) (kept ++ [(x, i)])

/-- What a winnow job computes (R367/18). -/
structure Winnowed where
  perm : List Nat
  pos : List Nat
  counts : List Nat
  offsets : List Nat
deriving DecidableEq, Repr

/-- The stable sort and its outputs. -/
def winnow (experts cap : Nat) (ids : List Nat) : Winnowed :=
  let kept := winnowKeep experts cap ids 0 []
  let perm := (List.range experts).flatMap fun x => (kept.filter fun k => k.1 == x).map fun k => k.2
  let counts := (List.range experts).map fun x => (kept.filter fun k => k.1 == x).length
  { perm := perm
    pos := (List.range ids.length).map fun i => if perm.contains i then perm.idxOf i else 0xFFFFFFFF
    counts := counts
    offsets := ((List.range (experts + 1)).map fun x => (counts.take x).sum) ++ [ids.length - kept.length] }

/-- The rows a winnow job copies: read from `source + i × R` for each kept assignment in sorted order. -/
def State.winnowRows (s : State) (j : Job) (src r : Nat) : List Nat → Except EngineStop (List Byte)
  | [] => .ok []
  | i :: is =>
    match (s.engineBytes j src 16 (r / 16) (i * r)).1 with
    | .error e => .error e
    | .ok bs =>
      match State.winnowRows s j src r is with
      | .error e => .error e
      | .ok rest => .ok (bs ++ rest)

/-- The writes of a winnow job. -/
def State.winnowPuts (s : State) (j : Job) : Except EngineStop (List EnginePut) :=
  let c := j.card
  let r := fieldOf c 212 4
  match (s.engineBytes j (fieldOf c 160 8) 4 (fieldOf c 200 4) 0).1 with
  | .error e => .error e
  | .ok bs =>
    let w := winnow (fieldOf c 204 4) (fieldOf c 208 4) (words32 (fieldOf c 200 4) bs)
    let out : List EnginePut :=
      [⟨fieldOf c 168 8, 4, entries32 w.perm⟩] ++
      (if fieldOf c 176 8 = 0 then [] else [⟨fieldOf c 176 8, 4, entries32 w.pos⟩]) ++
      [⟨fieldOf c 184 8, 4, entries32 w.counts⟩, ⟨fieldOf c 192 8, 4, entries32 w.offsets⟩]
    if r = 0 then .ok out
    else
      match s.winnowRows j (fieldOf c 216 8) r w.perm with
      | .error e => .error e
      | .ok rows => .ok (out ++ [⟨fieldOf c 224 8, 16, pieces 16 (w.perm.length * (r / 16)) rows⟩])

/-- A winnow job completes, its outputs written once every check has passed; or an access stops it. -/
def State.winnowDone (s : State) (j : Job) : State :=
  match s.winnowPuts j with
  | .error e => s.stopJob j e
  | .ok ps =>
    match s.putsStop j ps with
    | some e => s.stopJob j e
    | none => (s.putAll j ps).completeJob j

/-! ### Exchange (R368 to R372/18) -/

/-- The operands of an exchange card. -/
def Job.group (j : Job) : Nat := fieldOf j.card 168 4
def Job.rowBytes (j : Job) : Nat := fieldOf j.card 172 4
def Job.slotRows (j : Job) : Nat := fieldOf j.card 200 4
def Job.tag (j : Job) : BitVec 32 := BitVec.ofNat 32 (fieldOf j.card 204 4)

/-- The job a stream is matched with (R371/18): the oldest with its tag that has not received from its sender. `taken` names the
jobs, each with a sender, that a stream held earlier is matched with. DEDUCED: the job may be of any context (log 89). -/
def State.matchOf (s : State) (st : Stream) (taken : List (Nat × Nat) := []) : Option Job :=
  s.jobs.find? fun j => j.engine == 3 && j.tag == st.tag && !(taken.contains (j.id, st.src)) &&
    !(match j.peers.idxOf? st.src with | some i => j.received.contains i | none => false)

/-- The streams of a list, matched in order, each with its job (R371/18). -/
def State.matchings (s : State) (taken : List (Nat × Nat)) : List Stream → List (Stream × Job)
  | [] => []
  | st :: rest =>
    match s.matchOf st taken with
    | some j => (st, j) :: State.matchings s ((j.id, st.src) :: taken) rest
    | none => State.matchings s taken rest

/-- Are two the same stream: of one sender, under its own number for it? -/
def sameStream (a b : Stream) : Bool := a.src == b.src && a.id == b.id

/-- The held headers matched with a job, in the order in which they came. -/
def State.headersOf (s : State) (job : Nat) : List Stream := ((s.matchings [] s.exHeaders).filter fun x => x.2.id == job).map fun x => x.1

/-- The job that the rows of a stream are for: the one its header is matched with. -/
def State.rowsJob (s : State) (st : Stream) : Option Job := ((s.matchings [] s.exHeaders).find? fun x => sameStream x.1 st).map fun x => x.2

/-- The header of a stream is used up. -/
def State.dropHeader (s : State) (st : Stream) : State := { s with exHeaders := s.exHeaders.eraseP fun x => sameStream x st }

/-- The headers a failing job leaves: neither those matched with it nor its own to this module stay (R371/18). -/
def State.leaveHeaders (s : State) (job : Nat) : State :=
  let gone := s.headersOf job
  { s with exHeaders := s.exHeaders.filter fun x => !((gone.any fun y => sameStream y x) || (x.src == s.device.toNat && x.id == job)) }

/-- An exchange job fails: 0xFFFFFFFF for every index whose stream did not land, then R322 (R371/18). -/
def State.failExchange (s : State) (j : Job) (code : Nat) : State :=
  let s := (s.leaveHeaders j.id)
  let s := (List.range j.group).foldl (fun (s : State) i =>
    if j.received.contains i then s else s.enginePut j (fieldOf j.card 208 8) 4 [bytesOfNat 4 0xFFFFFFFF] (4 * i)) s
  s.failCode j code

/-- Does the job's own list make it fail at its start (R369/18)? -/
def State.peersBad (s : State) (j : Job) (peers counts : List Nat) : Bool :=
  (counts.any fun n => decide (2 ^ 24 < n)) || (peers.any fun m => decide (Config.modules ≤ m)) ||
    !(peers.eraseDups.length == peers.length) || !(peers.contains s.device.toNat) ||
    peers.any fun m => let b := (s.peerEntry j.ctx m).getD 0 0; !(b.getLsbD 0 && b.getLsbD 2)

/-- Rows of a job's send run for one index: `n` rows from row `first` (R370/18). -/
def State.sendRows (s : State) (j : Job) (first n : Nat) : Except EngineStop (List Byte) :=
  (s.engineBytes j (fieldOf j.card 176 8) 16 (n * (j.rowBytes / 16)) (first * j.rowBytes)).1

/-- The rows of a job's stream for an index (R370/18). -/
def State.rowsOf (s : State) (j : Job) (i : Nat) : Except EngineStop (List Byte) :=
  s.sendRows j ((j.counts.take i).sum) (j.counts.getD i 0)

/-- What stops an exchange job's access (R322/15, R371/18). -/
def State.stopExchange (s : State) (j : Job) (e : EngineStop) : State :=
  if e.1 = .xlate2 then s.stopJob j e else (s.engineUncorr j e.1 e.2).failExchange j (causeCode e.1)

/-- The rows of a stream go to the peer that has matched its header (R371/18); an access may stop the job. -/
def State.sendStream (s : State) (j : Job) (i : Nat) : State :=
  match s.rowsOf j i with
  | .error e => s.stopExchange j e
  | .ok bs =>
    let st : Stream := { src := s.device.toNat, tag := j.tag, rows := j.counts.getD i 0, data := some bs, id := j.id }
    ({ s with exSent := s.exSent ++ [(j.peers.getD i 0, st)] } : State).modJob j.id fun j => { j with rowsSent := j.rowsSent ++ [i] }

/-- The streams of a list, matched in order, that find no job (R371/18): each needs one of the module's 256 header places. -/
def State.unmatched (s : State) (taken : List (Nat × Nat)) : List Stream → List Stream
  | [] => []
  | st :: rest =>
    match s.matchOf st taken with
    | some j => State.unmatched s ((j.id, st.src) :: taken) rest
    | none => st :: State.unmatched s taken rest

/-- Does a stream that reaches the module find a match or a free header place (R371/18)? DEDUCED: a matched one needs none (log 89). -/
def State.fits (s : State) (st : Stream) : Bool := decide ((s.unmatched [] (s.exHeaders ++ [st])).length ≤ 256)

/-- The rows of a matched stream land (R370/18), then its count, then its credit; an access may stop the job. The answer says whether the
stream is used up. -/
def State.landStream (s : State) (j : Job) (st : Stream) (data : List Byte) : State × Bool :=
  match j.peers.idxOf? st.src with
  | none => (s.failExchange j 0, true)
  | some i =>
    let n := min st.rows j.slotRows
    let r := j.rowBytes
    let rows := pieces 16 (n * (r / 16)) data
    let count := if st.rows ≤ j.slotRows then st.rows else 2 ^ 31 + st.rows
    let base := i * j.slotRows * r
    match s.engineMayPut j (fieldOf j.card 192 8) 16 rows.length base with
    | some e => (s.stopExchange j e, !(e.1 == .xlate2))
    | none =>
      let t := s.enginePut j (fieldOf j.card 192 8) 16 rows base
      match t.engineMayPut j (fieldOf j.card 208 8) 4 1 (4 * i) with
      | some e => if e.1 = .xlate2 then (s.stopExchange j e, false) else (t.stopExchange j e, true)
      | none =>
        let t := (t.enginePut j (fieldOf j.card 208 8) 4 [bytesOfNat 4 count] (4 * i)).modJob j.id fun j =>
          { j with received := j.received ++ [i], credited := j.credited ++ [(i, n * r)] }
        (if cardKind j.card = 2 then t.chunkSignal j 0 (n * r) else t, true)

/-- A stream of the module to itself, matched with a job that has started (R370/18): the sending job's rows are read and land without a link.
That job alone has then sent it. -/
def State.landOwn (s : State) (j : Job) (st : Stream) : State :=
  match s.job? st.id with
  | none => s
  | some k =>
    let i := (k.peers.idxOf? s.device.toNat).getD 0
    if k.waitAddr.isSome ∨ ¬ k.started then s
    else
      match s.rowsOf k i with
      | .error e => s.stopExchange k e
      | .ok bs =>
        let (s, used) := s.landStream j st bs
        if used then
          (s.modJob k.id fun k => { k with matched := k.matched ++ [i], rowsSent := k.rowsSent ++ [i], acked := k.acked ++ [i] }).dropHeader st
        else s

/-- A held header matched with a job that has started (R370, R371/18): a sender that is not in the job's list fails it, and its own module's
stream lands; the rows of another's will come. -/
def State.landHeld (s : State) (job : Nat) (st : Stream) : State :=
  match s.job? job with
  | none => s
  | some j =>
    if ¬ (j.started ∧ j.waitAddr.isNone) then s
    else if ¬ j.peers.contains st.src then (s.failExchange j 0).dropHeader st
    else if st.src = s.device.toNat then s.landOwn j st
    else s

/-- The held headers that are matched with a job, in the order in which they came. -/
def State.exchangeHeld (s : State) (job : Nat) : State := (s.headersOf job).foldl (fun (s : State) st => s.landHeld job st) s

/-- The rows of a stream reach this module (R370, R371/18): they land for the job that its header is matched with; while that job waits for a
mapping, or has not started, they come again in the next cycle. -/
def State.landRows (s : State) (st : Stream) (data : List Byte) : State :=
  match s.rowsJob st with
  | none => s
  | some j =>
    let later := s.inputs ++ [(s.now + 1, .event (.exchangeStreamArrival st))]
    if j.started ∧ j.waitAddr.isNone then
      let (t, used) := s.landStream j st data
      if used then t.dropHeader st else { t with inputs := later }
    else { s with inputs := later }

/-- What reaches this module of a stream (R371/18): a header is matched or held, or refused while 256 are held; rows land. -/
def State.arriveStream (s : State) (st : Stream) : State :=
  match st.data with
  | some data => s.landRows st data
  | none =>
    if s.fits st then { s with exHeaders := s.exHeaders ++ [st] } else { s with exRefused := s.exRefused ++ [st] }

/-- An exchange job starts (R369 to R371/18): its lists are read and its streams' headers sent; one to a peer that has failed is lost, which
fails the job at once (R387/19). -/
def State.startExchange (s : State) (j : Job) : State :=
  match (s.engineBytes j (fieldOf j.card 160 8) 4 j.group 0).1, (s.engineBytes j (fieldOf j.card 184 8) 4 j.group 0).1 with
  | .error e, _ | .ok _, .error e => s.stopExchange j e
  | .ok a, .ok b =>
    let peers := words32 j.group a
    let counts := words32 j.group b
    if s.peersBad j peers counts then s.failExchange { j with peers := peers } 0
    else if peers.any s.peersDown.contains then s.failExchange { j with peers := peers } (causeCode .uncorr)
    else
      let s := s.markStarted j
      let s := s.modJob j.id fun j =>
        { j with peers := peers, counts := counts, sent := (List.range j.group).map fun i => (i, s.time) }
      let sts := (peers.zip counts).map fun x => (x.1, ({ src := s.device.toNat, tag := j.tag, rows := x.2, data := none, id := j.id } : Stream))
      let away := sts.filter fun x => !(x.1 == s.device.toNat)
      let mine := (sts.filter fun x => x.1 == s.device.toNat).map fun x => x.2
      { s with exSent := s.exSent ++ away, exHeaders := s.exHeaders ++ mine }

/-- `EXCHANGE_STREAM_ARRIVAL` (R371/18). -/
def execExchangeStreamArrival (st : Stream) (s : State) : Out := .next (s.arriveStream st)

/-- `EXCHANGE_HEADER_ADMISSION` (R371/18). The first refused header that finds a match or a free place is admitted. -/
def execExchangeHeaderAdmission (s : State) : Out :=
  match s.exRefused.find? s.fits with
  | none => .next s
  | some st => .next (({ s with exRefused := s.exRefused.erase st } : State).arriveStream st)

/-- Has the header come that a job awaits from a sender, be it refused (R371/18)? -/
def State.headerCame (s : State) (j : Job) (src : Nat) : Bool :=
  (s.matchings [] (s.exHeaders ++ s.exRefused)).any fun x => x.2.id == j.id && x.1.src == src

/-- Is a job's stream of an index matched: by a peer, or, to its own module, here (R371/18)? -/
def State.sentMatched (s : State) (j : Job) (i : Nat) : Bool :=
  j.matched.contains i || j.acked.contains i ||
    (j.peers.getD i 0 == s.device.toNat && (s.matchings [] s.exHeaders).any fun x => x.1.src == s.device.toNat && x.1.id == j.id)

/-- Has a wait of an exchange job exceeded the deadline (R371/18)? -/
def State.exchangeLate (s : State) (j : Job) : Bool :=
  j.started &&
    ((j.sent.any fun x => !(s.sentMatched j x.1) && s.elapsed x.2 (s.exDeadline + 1)) ||
     (s.elapsed j.startTime (s.exDeadline + 1) && (List.range j.peers.length).any fun i =>
        !(j.received.contains i) && !(s.headerCame j (j.peers.getD i 0))))

/-- `EXCHANGE_DEADLINE_EXPIRY` (R371/18). -/
def execExchangeDeadlineExpiry (job : Nat) (s : State) : Out :=
  match s.job? job with
  | none => .next s
  | some j => if j.engine = 3 ∧ s.exchangeLate j then .next (s.failExchange j 0) else .next s

/-- `STREAM_FAILED_BY_PEER` (R371/18). The sending job fails at once. -/
def execStreamFailedByPeer (job idx : Nat) (s : State) : Out :=
  match s.job? job with
  | none => .next s
  | some j =>
    if j.engine = 3 ∧ j.started ∧ (j.sent.any fun x => x.1 == idx) ∧ ¬ j.acked.contains idx then .next (s.failExchange j 0)
    else .next s

/-- Does a job await the acknowledgement of its stream to a module? -/
def Job.awaits (j : Job) (m : Nat) : Bool :=
  j.engine == 3 && j.started && (List.range j.peers.length).any fun i => j.peers[i]? == some m && !(j.acked.contains i)

/-- A job whose stream to a module that has failed is lost fails at once, by UNCORR (R371/18, R387/19). -/
def State.peerLost (s : State) (job m : Nat) : State :=
  match s.job? job with
  | none => s
  | some j => if j.awaits m then s.failExchange j (causeCode .uncorr) else s

/-- The peer matches a stream of a job, whose rows are sent then, or acknowledges it (R370, R371/18). -/
def State.streamMatched (s : State) (job idx : Nat) : State :=
  match s.job? job with
  | none => s
  | some j =>
    if j.matched.contains idx ∨ ¬ j.started ∨ j.group ≤ idx then s
    else
      let s := s.modJob job fun j => { j with matched := j.matched ++ [idx] }
      if j.waitAddr.isSome then s else s.sendStream j idx
def State.streamAcked (s : State) (job idx : Nat) : State :=
  s.modJob job fun j => if j.acked.contains idx then j else { j with acked := j.acked ++ [idx] }

/-- Has an exchange job sent and received everything (R370/18)? -/
def Job.exchanged (j : Job) : Bool :=
  j.started && (List.range j.group).all fun i => j.acked.contains i && j.received.contains i

/-! ### Merge (R205/09, R223/10, R333 to R338/16) -/

/-- Element sizes and formats by element code (R161/07). -/
def elemSize (code : Nat) : Nat :=
  match code with
  | 0 | 4 => 1
  | 1 | 5 | 8 | 9 => 2
  | 2 | 6 | 10 => 4
  | _ => 8
def elemFloat (code : Nat) : Option Fmt :=
  match code with
  | 8 => some .f16
  | 9 => some .bf16
  | 10 => some .f32
  | 11 => some .f64
  | _ => none

/-- A float result of the merge engine: RNE, subnormals kept, canonical NaNs, no flag (R205/09). -/
def mergeFloat (f : Fmt) (op : FOp) (a b : Nat) : Nat := (fop f op .rne false a b 0).bits

/-- The larger or smaller of p and c by element type (R335/16). -/
def mergeBound (code : Nat) (max_ : Bool) (p c : Nat) : Nat :=
  match elemFloat code with
  | some f => mergeFloat f (if max_ then .max else .min) p c
  | none =>
    let n := 8 * elemSize code
    let v (x : Nat) : Int := if code < 4 then (BitVec.ofNat n x).toInt else x
    if max_ then (if v p < v c then c else p) else (if v c < v p then c else p)

/-- merge(p, c, a) of R335 for the codes that give one value. -/
def mergeElem (merge code p c a : Nat) : Nat :=
  let m := 2 ^ (8 * elemSize code)
  match merge with
  | 2 => if p ≠ a then p else c
  | 3 => (p + c + (m - a)) % m
  | 4 =>
    match elemFloat code with
    | some f => mergeFloat f .add p (mergeFloat f .sub c a)
    | none => p
  | 5 => mergeBound code true p c
  | 6 => mergeBound code false p c
  | 7 => p ||| c
  | 8 => (p ^^^ c) ^^^ a
  | _ => if c ≠ a then c else p

/-- Merge the elements of a line: element k of each. -/
def mergeLine (merge code : Nat) (p c a : List Byte) : List Byte :=
  let n := elemSize code
  (List.range (128 / n)).flatMap fun k =>
    bytesOfNat n (mergeElem merge code (fieldOf p (k * n) n) (fieldOf c (k * n) n) (fieldOf a (k * n) n))

/-- The region table entries a merge visits, in ascending base order (R335/16). -/
def Context.mergeRegions (c : Context) : List (BitVec 256) :=
  sortBy (c.regionEntries.filter fun e => regionUsed e && !(regionMerge e == 0)) fun a b => decide (regionBase a ≤ regionBase b)

/-- The lines a merge visits: those the child dirtied, region by region, ascending (R335/16). -/
def Context.mergeLines (c : Context) (child : Nat) : List Nat :=
  let mine := match c.rev? child with
    | some v => v.lines.map fun x : Nat × List Byte => x.1
    | none => []
  c.mergeRegions.flatMap fun e => sortBy (mine.filter fun l => regionHas e l) fun a b => decide (a ≤ b)

/-- The three values of a line for a merge: the parent's now, the child's, the ancestor's (R335/16). -/
def State.mergeViews (s : State) (j : Job) (vl hl : Nat) : List Byte × List Byte × List Byte :=
  let c := s.ctx j.ctx
  let base := s.baseLine hl
  let p := c.viewLine base vl 16 j.rev
  let k := c.viewLine base vl 16 j.child
  let a := match (c.rev? j.child).bind fun v : Rev => v.ancestors.find? fun x : Ancestor => x.line == vl with
    | some x => x.data
    | none => p
  (p, k, a)

/-- Bytes of a virtual address as a revision sees them, line pieces; none where a check fails. -/
def State.revBytes (s : State) (j : Job) (rev va n : Nat) : Except EngineStop (List Byte) :=
  match (s.xlate j.core j.ctx .load va).1 with
  | .error c => .error (c, va)
  | .ok hpa => if s.uncorrAt hpa then .error (.uncorr, va) else .ok (s.glRead j.ctx rev va hpa n false).1

/-- Write bytes of a virtual address for a revision; a write that retains an ancestor in an unmapped overflow page waits (R333/16). -/
def State.revPut (s : State) (j : Job) (rev va : Nat) (bs : List Byte) : Except EngineStop State :=
  match (s.xlate j.core j.ctx .store va).1 with
  | .error c => .error (c, va)
  | .ok hpa =>
    if s.uncorrAt hpa then .error (.uncorr, va)
    else if s.retainWaits j.ctx rev va hpa then .error (.xlate2, va)
    else .ok (s.glWrite j.ctx rev va hpa bs false)

/-- A conflict of a LOG region is recorded, or lost (R162/07, R337/16). -/
def State.logConflict (s : State) (j : Job) (ring addr c : Nat) : Except EngineStop (State × BitVec 5) :=
  match s.revBytes j j.rev ring 16 with
  | .error e => .error e
  | .ok hd =>
    let w := fieldOf hd 0 4
    let cap := fieldOf hd 8 4
    let used := (BitVec.ofNat 32 w - BitVec.ofNat 32 (fieldOf hd 4 4)).toNat
    if cap = 0 ∨ cap ≤ used then
      match s.revPut j j.rev (ring + 12) (bytesOfNat 4 (min (fieldOf hd 12 4 + 1) (2 ^ 32 - 1))) with
      | .error e => .error e
      | .ok s => .ok (s, 12)
    else
      match s.revPut j j.rev (ring + 64 + 16 * (w % cap)) (bytesOfNat 8 addr ++ bytesOfNat 8 c) with
      | .error e => .error e
      | .ok s =>
        match s.revPut j j.rev ring (bytesOfNat 4 (w + 1)) with
        | .error e => .error e
        | .ok s => .ok (s, 4)

/-- The elements of a LOG line in order: conflicts are recorded and keep p, the others take CHILD's result (R337/16). -/
def State.logLine (s : State) (j : Job) (e : BitVec 256) (vl : Nat) (p c a : List Byte) : List Nat → Except EngineStop (State × BitVec 5 × List Byte)
  | [] => .ok (s, 0, [])
  | k :: ks =>
    let n := elemSize (regionElem e)
    let pe := fieldOf p (k * n) n
    let ce := fieldOf c (k * n) n
    let ae := fieldOf a (k * n) n
    if pe ≠ ae ∧ ce ≠ ae ∧ pe ≠ ce then
      match s.logConflict j (regionRing e) (vl + k * n) ce with
      | .error x => .error x
      | .ok (s, st) =>
        match State.logLine s j e vl p c a ks with
        | .error x => .error x
        | .ok (s, st', bs) => .ok (s, st ||| st', bytesOfNat n pe ++ bs)
    else
      match State.logLine s j e vl p c a ks with
      | .error x => .error x
      | .ok (s, st', bs) => .ok (s, st', bytesOfNat n (mergeElem 1 (regionElem e) pe ce ae) ++ bs)

/-- The records of an APPEND region, in ascending order (R336/16). -/
def State.appendRecords (s : State) (j : Job) (e : BitVec 256) (pc ac : Nat) : List Nat → Except EngineStop State
  | [] => .ok s
  | k :: ks =>
    let n := elemSize (regionElem e)
    match s.revBytes j j.child (regionBase e + 128 + (ac + k) * n) n with
    | .error x => .error x
    | .ok bs =>
      match s.revPut j j.rev (regionBase e + 128 + (pc + k) * n) bs with
      | .error x => .error x
      | .ok s => State.appendRecords s j e pc ac ks

/-- The first line of an APPEND region (R336/16): the records, the count, the other bytes as CHILD. -/
def State.appendLine (s : State) (j : Job) (e : BitVec 256) (p c a : List Byte) : Except EngineStop (State × BitVec 5 × List Byte) :=
  let n := elemSize (regionElem e)
  let pc := fieldOf p 0 n
  let cc := fieldOf c 0 n
  let ac := fieldOf a 0 n
  let new_ := cc - ac
  let room := (4096 * regionPages e - 128) / n - pc
  let m := min new_ room
  match s.appendRecords j e pc ac (List.range m) with
  | .error x => .error x
  | .ok s => .ok (s, if m < new_ then 2 else 0, bytesOfNat n (pc + m) ++ (mergeLine 1 (regionElem e) p c a).drop n)

/-- A merge's view of its context: with the region table as it was read at the start (R161/07, R335/16). -/
def State.mergeCtx (s : State) (j : Job) : Context := { s.ctx j.ctx with regions := j.regions }

/-- One line merged as one action (R223/10, R335 to R337/16); a stop of its accesses leaves it unmerged. -/
def State.mergeOne (s : State) (j : Job) (vl : Nat) : Except EngineStop (State × BitVec 5) :=
  match (s.mergeCtx j).regionOf vl with
  | none => .ok (s, 0)
  | some e =>
    match (s.xlate j.core j.ctx .store vl).1 with
    | .error c => .error (c, vl)
    | .ok hpa =>
      if s.uncorrAt hpa then .error (.uncorr, vl)
      else if s.retainWaits j.ctx j.rev vl hpa then .error (.xlate2, vl)
      else
        let (p, c, a) := s.mergeViews j vl (lineOf hpa)
        let r : Except EngineStop (State × BitVec 5 × List Byte) :=
          if regionMerge e = 9 then s.logLine j e vl p c a (List.range (128 / elemSize (regionElem e)))
          else if regionMerge e = 10 then (if vl = regionBase e then s.appendLine j e p c a else .ok (s, 0, p))
          else .ok (s, 0, mergeLine (regionMerge e) (regionElem e) p c a)
        match r with
        | .error x => .error x
        | .ok (s, st, d) =>
          if regionMerge e = 10 ∧ vl ≠ regionBase e then .ok (s, st)
          else if s.retainWaits j.ctx j.rev vl hpa then .error (.xlate2, vl)
          else .ok (s.glWrite j.ctx j.rev vl hpa d false, st)

/-- `MERGE_LINE_ACTION` (R223/10, R335/16). The next line of a merge; an access that finds no mapping waits for one, and a
line whose access fails otherwise is left unmerged, with an error record (log 29). -/
def execMergeLineAction (job : Nat) (s : State) : Out :=
  match s.job? job with
  | none => .next s
  | some j =>
    if j.engine = 4 ∧ j.started ∧ j.waitAddr.isNone then
      match j.lines with
      | [] => .next s
      | vl :: rest =>
        match s.mergeOne j vl with
        | .ok (s, st) => .next (s.modJob job fun j => { j with lines := rest, status := j.status ||| st })
        | .error e =>
          if e.1 = .xlate2 then .next (s.stopJob j e)
          else .next (((s.engineUncorr j e.1 e.2).reportJob j.ctx 4 (causeCode e.1) e.2).modJob job fun j => { j with lines := rest })
    else .next s

/-- The waits for a merge job in its sheaf. -/
def Sheaf.joinWaits (h : Sheaf) (job : Nat) : List Wait :=
  h.waits.filter fun w => match w.kind with | .join _ (some j) _ => j == job | _ => false

/-- `JOIN_COMPLETION` (R334/16). Every line is merged: the status is written, the revision and its ancestors are freed, and
the join is an acquire at field scope. -/
def execJoinCompletion (job : Nat) (s : State) : Out :=
  match s.job? job with
  | none => .next s
  | some j =>
    if j.engine = 4 ∧ j.started ∧ j.lines = [] then
      let s := s.dropJob job
      let s := s.modCtx j.ctx fun c => { c with revs := c.revs.filter fun v => !(v.id == j.child) }
      match j.poster.bind s.sheaf? with
      | none => .next s
      | some h =>
        let s := s.modSheaf h.id fun h => { h with children := h.children.filter fun c => !(c.rev == j.child) }
        let s := s.l1Clear h.core
        let s := match j.dest with
          | some d => s.modSheaf h.id fun h => h.sset d (j.status.setWidth 64)
          | none => s
        .next ((h.joinWaits job).foldl (fun (s : State) w => s.finishWait h.id w) s)
    else .next s

/-! ### Events of all engines -/

/-- `JOB_START` (R220/10). A job begins its accesses, in footprint order. -/
def execJobStart (job : Nat) (s : State) : Out :=
  match s.job? job with
  | none => .next s
  | some j =>
    if ¬ s.jobMayStart j then .next s
    else
      match j.engine with
      | 3 => .next (s.startExchange j)
      | 4 => .next ((s.markStarted j).modJob job fun j =>
          let c : Context := { s.ctx j.ctx with regions := s.regionsNow j.ctx }
          { j with lines := c.mergeLines j.child, regions := c.regions })
      | 5 => .next (if j.resume || (s.ctx j.ctx).parked then s.markStarted j else (s.markStarted j).beginPark j.ctx)
      | _ => .next (s.markStarted j)

/-- `JOB_COMPLETION` (R219/10, R246/11, R321/15, R370/18). A job whose work is done releases its completion signal. -/
def execJobCompletion (job : Nat) (s : State) : Out :=
  match s.job? job with
  | none => .next s
  | some j =>
    if ¬ (j.started ∧ j.waitAddr.isNone) then .next s
    else
      match j.engine with
      | 1 => if (tileOf j.card).chunks ≤ j.landed.length then .next (s.completeJob j) else .next s
      | 2 => .next (s.winnowDone j)
      | 3 => if j.exchanged then .next (s.completeJob j) else .next s
      | 5 =>
        if j.resume then
          match s.resumeContext j.ctx with
          | none => .next s
          | some s => .next (s.dropJob job)
        else if (s.ctx j.ctx).parked then .next (s.dropJob job)
        else if s.readyToSave j.ctx job then .next (s.saveOrStall j.ctx job)
        else .next s
      | _ => .next s

/-- Does an address a job waits for translate now? -/
def State.nowMapped (s : State) (ctx va : Nat) : Bool :=
  match s.guestAt ctx va .load with
  | .error .xlate2 => false
  | _ => true

/-- `ENGINE_XLATE2_TIMEOUT` (R322/15). An address unmapped for 65,536 cycles fails the job; a merge goes on without the
line (log 29). -/
def execEngineXlate2Timeout (job : Nat) (s : State) : Out :=
  match s.job? job with
  | none => .next s
  | some j =>
    match j.waitAddr with
    | none => .next s
    | some a =>
      if j.waitSince + 65536 ≤ s.now ∧ ¬ s.nowMapped j.ctx a.toNat then
        match j.engine with
        | 3 => .next (s.failExchange j (causeCode .xlate2))
        | 4 => .next ((s.reportJob j.ctx 4 (causeCode .xlate2) a.toNat).modJob job fun j =>
            { j with lines := j.lines.drop 1, waitAddr := none })
        | _ => .next (s.failJob j .xlate2)
      else .next s

/-- The rows of streams that were matched while their job waited are sent. -/
def State.sendMatched (s : State) (job : Nat) : List Nat → State
  | [] => s
  | i :: is =>
    match s.job? job with
    | some j => if j.waitAddr.isSome then s else State.sendMatched (s.sendStream j i) job is
    | none => s

/-- `ENGINE_ACCESS_MAPPING_MADE` (R322/15). The job goes on; the rows of its streams that were matched are sent. -/
def execEngineAccessMappingMade (job : Nat) (s : State) : Out :=
  match s.job? job with
  | none => .next s
  | some j =>
    match j.waitAddr with
    | none => .next s
    | some a =>
      if s.nowMapped j.ctx a.toNat then
        let s := s.modJob job fun j => { j with waitAddr := none }
        .next (if j.engine = 3 then s.sendMatched job (j.matched.filter fun i => !(j.rowsSent.contains i)) else s)
      else .next s

/-- May a job that ended on a fenced function be replayed (R249/11)? -/
def State.mayReplay (s : State) (j : Job) : Bool :=
  cardIdempotent j.card && j.replays == 0 &&
    !((s.jobs.filter fun b => b.ctx == j.ctx && b.field == j.field).any fun b =>
      !((s.jobsBefore j.id).any fun a => a.id == b.id) && !(b.id == j.id) &&
        (s.footprints b).any fun y => y.write && (s.footprints j).any fun x => !x.write && overlaps x y)

/-- The field whose engine replays a job (R249/11). DESIGN CHOICE: the lowest-numbered other one whose engine is not fenced; the rule says only
"another instance" (log 111). -/
def State.otherField (s : State) (j : Job) : Option Nat :=
  ((List.range Config.fields).filter fun f => !(f == j.field) && !(s.fenced.contains (.engine f j.engine))).head?

/-- Has a job ended on a fenced function: its engine, or a port (R248/11)? -/
def State.jobCut (s : State) (j : Job) : Bool := j.cut || s.fenced.contains (.engine j.field j.engine)

/-- A job as it enters another field's queue from its card. -/
def Job.again (j : Job) (field : Nat) : Job :=
  { j with field := field, replays := 1, cut := false, started := false, landed := [], waitAddr := none, sent := [], matched := []
           acked := [], received := [], credited := [], rowsSent := [] }

/-- A job fails that no access stopped (R322/15, R371/18). -/
def State.failPlain (s : State) (j : Job) : State := if j.engine = 3 then s.failExchange j 0 else s.failCode j 0

/-- A merge on a fenced engine has no card to be replayed from (R249/11): a "replay failed" record is written. DESIGN CHOICE: the lines it has not
merged stay unmerged, and its join completes (log 112). -/
def State.endMerge (s : State) (j : Job) : State :=
  if j.started ∧ j.lines = [] then s
  else (s.reportReplay j).modJob j.id fun j => { j with started := true, waitAddr := none, lines := [] }

/-- `JOB_REPLAY` (R249/11, R322/15). A job that ended on a fenced function is replayed once from its card on another instance, at the end
of that queue once it has room (R147/06); where that is not allowed, or a second time, a "replay failed" record is written and the job
fails. DESIGN CHOICE: a job that leaves its field for a replay holds back no job of that field's footprint order any more (R220/10, log 110). -/
def execJobReplay (job : Nat) (s : State) : Out :=
  match s.job? job with
  | none => .next s
  | some j =>
    if ¬ s.jobCut j then .next s
    else
      match s.mayReplay j, s.otherField j with
      | true, some f =>
        if s.queueRoom f j.engine j.ctx then
          .next { s with jobs := (s.jobs.filter fun k => !(k.id == job)) ++ [j.again f]
                         exHeaders := s.exHeaders.filter fun x => !(x.src == s.device.toNat && x.id == job) }
        else .next s
      | _, _ => .next (if j.engine = 4 then s.endMerge j else if 0 < j.replays then s.failPlain j else (s.reportReplay j).failPlain j)

end Sys2Proof.Machine
end

