-- ==== Sys2Proof/Machine/Firmware.lean ====
section
/-! DEFINITION. Host registers, firmware, bring-up, power, errors and peers (R10/00, R128/05, R141, R152/06, R165, R168/07, R248/11, R382 to R391/19). -/

namespace Sys2Proof.Machine

/-- MSI-X vector 1 signals a change of DEVSTAT (R383/19). -/
def State.statusChanged (s : State) : State := s.interrupt 1

/-- DEVSTAT as the host reads it (R383/19). -/
def State.devstat (s : State) : Dword :=
  (s.fwstep ++ (0 : BitVec 4) ++ BitVec.ofBool s.trip ++ BitVec.ofBool s.cap ++ BitVec.ofBool s.fwerr ++ BitVec.ofBool s.ready).setWidth 64

/-- The answer to the identification query of the host endpoint (R34/01): part number ONF-SKV8-A, as ASCII. -/
def identification : List Byte := [0x4F, 0x4E, 0x46, 0x2D, 0x53, 0x4B, 0x56, 0x38, 0x2D, 0x41]

/-! ### Reset and bring-up -/

/-- `MODULE_RESET` (R10/00). Every field takes its reset value; what lies outside the module keeps its contents: pooled and
peer memory, the fuses, the certificate, and what the outside is about to do (log 32). -/
def execModuleReset (s : State) : Out :=
  .next { State.reset with
    mem := s.mem.filter fun c => decide (c.1 < barnAlias) || decide (peerBase ≤ c.1)
    rollback := s.rollback
    keyHash := s.keyHash
    idSecret := s.idSecret
    certificate := s.certificate
    poison := s.poison
    peerFaults := s.peerFaults
    peersDown := s.peersDown
    inputs := s.inputs
    choices := s.choices }

/-- A bring-up step that fails sets FWERR, and the module stays at the last completed step (R391/19). -/
def State.bringUpFails (s : State) : State := ({ s with fwerr := true } : State).statusChanged

/-- A bring-up step completes (R391/19). -/
def State.stepDone (s : State) (n : BitVec 8) : State := ({ s with fwstep := n } : State).statusChanged

/-- Is a bring-up step the next one, and does the core run that takes it (R388, R391/19)? -/
def State.nextStep (s : State) (n : BitVec 8) (core : Nat) : Bool := s.fwstep + 1 == n && !s.fwerr && s.coreRuns core

/-- Does the security core run its ROM, which it does from reset until it fails (R389/19)? -/
def State.romRuns (s : State) : Bool := !(s.fenced.contains (.fleskapa 5))

/-- `FIRMWARE_BUNDLE_VERIFICATION` (R389, R391/19). The signature, under a key whose hash is the fused one, and the version against the
fused rollback counter; a bundle that passes is run: the security core's own image, and cores 0 to 4, 6 and 7. The signed policy may name
the system context (R364/18). -/
def execFirmwareBundleVerification (sig : BundleSignature) (version : Nat) (sysCtx : Option Nat) (s : State) : Out :=
  if ¬ (s.fwstep = 0 ∧ ¬ s.fwerr ∧ s.romRuns) then .next s
  else if sig.ok ∧ sig.key = s.keyHash ∧ s.rollback ≤ version then
    .next (({ s with
      sysCtx := sysCtx.filter fun c => decide (c < Config.contexts)
      bundle := some version
      started := [5, 0, 1, 2, 3, 4, 6, 7] } : State).stepDone 1)
  else .next s.bringUpFails

/-- A pooled memory decoder keeps R385. -/
def decoderOk (d : Decoder) : Bool :=
  d.base % 2 ^ 28 == 0 && d.size % 2 ^ 28 == 0 && [1, 2, 4, 8, 16].contains d.ports.length &&
    [256, 512, 1024, 2048, 4096, 8192, 16384].contains d.granularity && d.ports.all fun p => decide (p < 16)

/-- Write a decoder, or remove it; one that breaks R385 is not written (log 33). -/
def State.setDecoder (s : State) (n : Nat) (d : Option Decoder) : State :=
  if decide (n < 32) && (d.map decoderOk).getD true then { s with decoders := cset none s.decoders n d } else s

/-- Write a barn page table entry (R173/07); its reserved bits ignore the write (R9/00). -/
def State.setBarn (s : State) (field page : Nat) (e : BitVec 32) : State :=
  if field < Config.fields ∧ page < 896 then
    s.modField field fun f => { f with barn := cset 0 f.barn page (e &&& 0xFFC00000) }
  else s

/-- Set a field's granary (R128/05): 64 to 1,024 MiB in steps of 64. DESIGN CHOICE: another size is not written (log 109). -/
def State.setGranary (s : State) (field mib : Nat) : State :=
  if field < Config.fields ∧ 64 ≤ mib ∧ mib ≤ 1024 ∧ mib % 64 = 0 then s.modField field fun f => { f with granary := mib } else s

/-- `BRING_UP_MEMORY` (R391/19): step 2. -/
def execBringUpMemory (ok : Bool) (p : MemoryPolicy) (s : State) : Out :=
  if ¬ s.nextStep 2 2 then .next s
  else if ¬ ok then .next s.bringUpFails
  else
    let s := p.decoders.foldl (fun (s : State) x => s.setDecoder x.1 (some x.2)) s
    let s := p.barn.foldl (fun (s : State) x => s.setBarn x.1 x.2.1 x.2.2) s
    let s := p.granary.foldl (fun (s : State) x => s.setGranary x.1 x.2) s
    .next (s.stepDone 2)

/-- A written ramp table register, each entry clamped to at least 1 and at most its reset value (R165/07). -/
def clampRamp (v limit : Dword) : Dword :=
  (List.range 8).foldl (fun (x : Dword) k =>
    x ||| ((BitVec.ofNat 64 (max 1 (min (v.extractLsb' (8 * k) 8).toNat (limit.extractLsb' (8 * k) 8).toNat))) <<< (8 * k))) 0

/-- The reset values of RAMPLO and RAMPHI (R165/07). -/
def rampLoReset : Dword := 0x0808080808080404
def rampHiReset : Dword := 0x0808080808080808

/-- A ramp table is written: it takes effect at the next step boundary (R165/07). -/
def State.writeRamp (s : State) (cluster : Nat) (high : Bool) (v : Dword) : State :=
  if Config.cores / Config.coresPerCluster ≤ cluster then s
  else if high then s.modRamp cluster fun r => { r with newHi := some (clampRamp v rampHiReset) }
  else s.modRamp cluster fun r => { r with newLo := some (clampRamp v rampLoReset) }

/-- A power cap in W, from 1,200 to 3,600 (R390/19). DESIGN CHOICE: a value outside is clamped (log 109). -/
def clampCap (w : Nat) : Nat := max 1200 (min 3600 w)

/-- `BRING_UP_POWER` (R390, R391/19): step 3. -/
def execBringUpPower (ok : Bool) (p : PowerPolicy) (s : State) : Out :=
  if ¬ s.nextStep 3 4 then .next s
  else if ¬ ok then .next s.bringUpFails
  else
    let s := p.ramps.foldl (fun (s : State) x => (s.writeRamp x.1 false x.2.1).writeRamp x.1 true x.2.2) s
    .next (({ s with
      capW := clampCap p.capW
      clockMHz := p.clockMHz
      clockSet := p.clockMHz } : State).stepDone 3)

/-- Every context's budget (R104/04, R391/19). -/
def State.defaultBudgets (s : State) : State :=
  { s with ctxs := cmap {} (fun c : Context => { c with nbudget := 16384 }) s.ctxs }

/-- `BRING_UP_FABRIC` (R391/19): step 4. -/
def execBringUpFabric (ok : Bool) (device : BitVec 13) (s : State) : Out :=
  if ¬ s.nextStep 4 6 then .next s
  else if ¬ ok then .next s.bringUpFails
  else .next ((({ s with device := device.setWidth 64 } : State).defaultBudgets).stepDone 4)

/-- `BRING_UP_QUEUES` (R391/19): step 5; READY becomes 1. -/
def execBringUpQueues (ok : Bool) (queues : List Nat) (s : State) : Out :=
  if ¬ s.nextStep 5 1 then .next s
  else if ¬ ok then .next s.bringUpFails
  else
    let s := (queues.filter fun q => decide (q < Config.queues)).foldl
      (fun (s : State) q => s.modQueue q fun k => { k with enable := true }) s
    .next (({ s with ready := true } : State).stepDone 5)

/-- What an SPDM answer says (R389/19): the measurements of the eight images and of the ROM, the fuses, the requester's nonce. -/
def State.measurements (s : State) (nonce : List Byte) : List Byte :=
  ((List.range 8).flatMap fun k => bytesOfNat 64 (Config.imageDigest s.bundle k).toNat) ++ bytesOfNat 64 Config.romDigest.toNat ++
    bytesOfNat 8 s.rollback ++ s.keyHash ++ nonce

/-- `SPDM_MEASUREMENT_REQUEST` (R389/19). The answer is signed with the identity key; the digests and the signature are free values (their
cryptography is named, not defined, log 65). -/
def execSpdmMeasurementRequest (nonce : List (BitVec 8)) (s : State) : Out :=
  if ¬ s.romRuns then .next s
  else .next { s with spdm := s.spdm ++ [s.measurements nonce ++ Config.spdmAnswer s.idSecret (s.measurements nonce)] }

/-! ### Host registers -/

/-- The writable bits of the submission register (R141/06). -/
def submissionMask : Dword := 0x0000FFF0FFFFFFFF

/-- `PHYSICAL_SUBMISSION_REGISTER_WRITE` (R141/06, R383/19). A new tail, or a refusal recorded for the host; nothing before
READY. -/
def execPhysicalSubmissionRegisterWrite (v : BitVec 64) (s : State) : Out :=
  if ¬ s.ready then .next s
  else
    let q := (v.extractLsb' 36 12).toNat
    let tail : BitVec 32 := v.extractLsb' 0 32
    let k := s.queue q
    let s : State := { s with subReg := v &&& submissionMask }
    let n := (tail - k.head).toNat
    if k.enable ∧ 1 ≤ n ∧ n ≤ 2 ^ k.log then .next (s.modQueue q fun k => { k with tail := tail })
    else .next (s.reportHost errSubmission (q / 16) 0 ([0, 0, 0, 0] ++ bytesOfNat 8 v.toNat))

/-- One byte of an allow-list entry is written (R168/07). DESIGN CHOICE: a ring size outside 6 to 16, or an owning context above 63, which
R139/06 and R168 give no effect, is taken as it is written (log 95). -/
def Queue.putByte (k : Queue) (off : Nat) (b : Byte) : Queue :=
  if 12 ≤ off ∧ off < 16 then
    { k with bitmap := (k.bitmap &&& ~~~((0xFF : BitVec 32) <<< (8 * (off - 12)))) ||| (b.setWidth 32 <<< (8 * (off - 12))) }
  else if k.enable then k
  else if off < 8 then
    { k with base := (k.base &&& ~~~((0xFF : Dword) <<< (8 * off))) ||| (b.setWidth 64 <<< (8 * off)) }
  else if off = 8 then { k with log := b.toNat }
  else if off = 9 then { k with enable := b.getLsbD 0 }
  else if off = 10 then { k with ctx := b.toNat }
  else k

/-- The bytes of an entry from an offset; the enable bit is judged as it was before the write, and set last. -/
def Queue.putEntry (k : Queue) (off : Nat) (bs : List Byte) : Queue :=
  let at_ := bs.zipIdx.map fun x => (off + x.2, x.1)
  let k' := (at_.filter fun x => !(x.1 == 9)).foldl (fun (k : Queue) x => k.putByte x.1 x.2) k
  (at_.filter fun x => x.1 == 9).foldl (fun (k : Queue) x => k.putByte x.1 x.2) k'

/-- `ALLOW_LIST_ENTRY_WRITE` (R168/07). -/
def execAllowListEntryWrite (q off : Nat) (bytes : List (BitVec 8)) (s : State) : Out :=
  if q < Config.queues then .next (s.modQueue q fun k => k.putEntry off bytes) else .next s

/-- `RAMP_TABLE_WRITE` (R165/07, R388/19). The power core writes it. -/
def execRampTableWrite (cluster : Nat) (high : Bool) (v : BitVec 64) (s : State) : Out :=
  .next (if s.coreRuns 4 then s.writeRamp cluster high v else s)

/-- `POOLED_MEMORY_DECODER_WRITE` (R385, R388/19). The memory-management core writes it. -/
def execPooledMemoryDecoderWrite (n : Nat) (d : Option Decoder) (s : State) : Out :=
  .next (if s.coreRuns 2 then s.setDecoder n d else s)

/-- Eight bytes of a context table entry, as the memory-management core writes them (R172/07); the write index and the
lost-record count are the device's. -/
def Context.putEntry (c : Context) (off : Nat) (v : Dword) : Context :=
  match off with
  | 0 => { c with root1 := v }
  | 8 => { c with root2 := v }
  | 16 => { c with cid := v.setWidth 12 }
  | 24 => { c with regionTable := v }
  | 32 => { c with vectors := v }
  | 40 => { c with peerTable := v }
  | 48 => { c with eqBase := v }
  | 56 => { c with eqHead := v.setWidth 32 }
  | 64 => { c with granBase := v }
  | 72 => { c with granQuota := v.setWidth 32 }
  | 80 => { c with saveBase := v }
  | _ =>
    if 128 ≤ off ∧ off < 192 ∧ off % 8 = 0 then { c with backing := modAt (fun _ => v) c.backing ((off - 128) / 8) } else c

/-- The Fleskapa core whose register path a write takes (R388/19); none for the host's own. DESIGN CHOICE: the head of a context's error queue
(R150/06, R172/07) goes by core 2's path, as the rest of its entry does, since the host can only read the table (R382/19, log 108). -/
def regWriter : RegTarget → Option Nat
  | .contextVector _ | .wordVector _ _ | .coreLoan _ => some 1
  | .contextEntry _ _ | .barnPage _ _ | .granary _ => some 2
  | .saveDeadline => some 3
  | .powerCap | .coreClock => some 4
  | .linkKey _ _ => some 5
  | .exportBase _ | .exportSize _ | .exchangeDeadline => some 6
  | .energyCalibration _ | .hostCounter _ => some 7
  | .hostErrBase | .hostErrHead | .reserved _ => none

/-- Has a context work in flight, whose containment identifier no register path changes (R388/19)? -/
def State.ctxBusy (s : State) (ctx : Nat) : Bool :=
  (s.launches.any fun l => l.ctx == ctx && l.state == 1) || (s.jobs.any fun j => j.ctx == ctx) || s.rsts.any fun r => r.ctx == ctx

/-- The core clock is set (R388, R390/19); while the cap throttles it stays as low as it is. -/
def State.setClock (s : State) (mhz : Nat) : State := { s with clockSet := mhz, clockMHz := if s.cap then min s.clockMHz mhz else mhz }

/-- A register without behaviour of its own takes a value (R9/00, R150/06, R158, R172, R173/07, R247/11, R371/18, R382 to R384, R386, R388,
R390/19); a reserved one ignores it. -/
def State.putRegister (s : State) (r : RegTarget) (v : BitVec 64) : State :=
  match r with
  | .hostErrBase => { s with hostErrBase := v &&& ~~~0x1FFF }
  | .hostErrHead => { s with hostErrHead := v.setWidth 32 }
  | .contextEntry ctx off =>
    if ctx < Config.contexts ∧ ¬ (off = 16 ∧ s.ctxBusy ctx) then s.modCtx ctx fun c => c.putEntry off v else s
  | .barnPage field page => s.setBarn field page (v.setWidth 32)
  | .granary field => s.setGranary field v.toNat
  | .exportBase ctx => if ctx < Config.contexts then s.modCtx ctx fun c => { c with exportBase := v } else s
  | .exportSize ctx => if ctx < Config.contexts then s.modCtx ctx fun c => { c with exportSize := v.toNat } else s
  | .contextVector ctx => if ctx < Config.contexts ∧ 2 ≤ v.toNat ∧ v.toNat < 256 then { s with ctxVector := cset 0 s.ctxVector ctx v.toNat } else s
  | .wordVector ctx addr =>
    if 2 ≤ v.toNat ∧ v.toNat < 256 then
      { s with wordVector := (ctx, addr, v.toNat) :: s.wordVector.filter fun x => !(x.1 == ctx && x.2.1 == addr) }
    else s
  | .exchangeDeadline => { s with exDeadline := v.toNat }
  | .saveDeadline => { s with saveDeadline := v.toNat }
  | .powerCap => { s with capW := clampCap v.toNat }
  | .coreClock => s.setClock v.toNat
  | .linkKey link word => { s with linkKeys := (link, word, v) :: s.linkKeys.filter fun x => !(x.1 == link && x.2.1 == word) }
  | .coreLoan core => { s with loans := cset none s.loans core (if v.toNat < Config.contexts then some v.toNat else none) }
  | .energyCalibration k => { s with calibration := cset 0 s.calibration k v }
  | .hostCounter k => { s with hostCounters := cset 0 s.hostCounters k v }
  | .reserved _ => s

/-- `REGISTER_WRITE` (R9/00, R382, R388/19). Firmware writes through its cores' register paths, which do nothing before the core runs. -/
def execRegisterWrite (r : RegTarget) (v : BitVec 64) (s : State) : Out :=
  .next (if (regWriter r).all s.coreRuns then s.putRegister r v else s)

/-! ### What the host reads (R382/19) -/

/-- An allow-list entry's 32 bytes (R168/07). -/
def Queue.entryBytes (k : Queue) : List Byte :=
  bytesOfNat 8 k.base.toNat ++ bytesOfNat 1 k.log ++ bytesOfNat 1 (if k.enable then 1 else 0) ++ bytesOfNat 1 k.ctx ++ [0] ++
    bytesOfNat 4 k.bitmap.toNat ++ bytesOfNat 4 k.head.toNat ++ List.replicate 12 0

/-- A context table entry's 256 bytes (R172/07). -/
def Context.entryBytes (c : Context) : List Byte :=
  bytesOfNat 8 c.root1.toNat ++ bytesOfNat 8 c.root2.toNat ++ bytesOfNat 4 c.cid.toNat ++ bytesOfNat 4 c.eqWrite.toNat ++
    bytesOfNat 8 c.regionTable.toNat ++ bytesOfNat 8 c.vectors.toNat ++ bytesOfNat 8 c.peerTable.toNat ++
    bytesOfNat 8 c.eqBase.toNat ++ bytesOfNat 4 c.eqHead.toNat ++ bytesOfNat 4 c.eqLost.toNat ++ bytesOfNat 8 c.granBase.toNat ++
    bytesOfNat 8 c.granQuota.toNat ++ bytesOfNat 8 c.saveBase.toNat ++ List.replicate 40 0 ++
    (c.backing.flatMap fun b => bytesOfNat 8 b.toNat) ++ List.replicate 64 0

/-- The 8 bytes at an 8-byte aligned offset of BAR0 (R382/19); what the host may not read, and the reserved rest, reads 0. -/
def State.bar0 (s : State) (off : Nat) : List Byte :=
  if off = 0 then bytesOfNat 8 s.devstat.toNat
  else if off = 8 then bytesOfNat 8 s.subReg.toNat
  else if off = 0x20 then bytesOfNat 4 s.hostErrWrite.toNat ++ bytesOfNat 4 s.hostErrLost.toNat
  else if 0x10000 ≤ off ∧ off < 0x30000 then
    ((s.queue ((off - 0x10000) / 32)).entryBytes.drop (off % 32)).take 8
  else if 0x40000 ≤ off ∧ off < 0x44000 then
    ((s.ctx ((off - 0x40000) / 256)).entryBytes.drop (off % 256)).take 8
  else List.replicate 8 0

/-! ### Power and heat (R390/19) -/

/-- `POWER_CAP_INTERVAL` (R388, R390/19). The power core, if it runs, compares the energy of the last millisecond, in nJ, which is free (log
12), with the cap; above it the clock falls 100 MHz, down to 1,000; 5 % below it the clock rises again. CAP tells whether the cap is
throttling. -/
def execPowerCapInterval (s : State) : Out :=
  if ¬ s.coreRuns 4 then .next s else
  let e := (Config.energy s.calibration s.choices).toNat
  let s : State := { s with choices := s.choices + 1, msSeen := s.time.ms }
  let limit := s.capW * 1000000
  let clock :=
    if limit < e then min s.clockMHz (max 1000 (s.clockMHz - 100))
    else if e * 100 ≤ limit * 95 then min s.clockSet (s.clockMHz + 100)
    else s.clockMHz
  let cap := decide (limit < e ∨ clock < s.clockSet)
  let s' : State := { s with clockMHz := clock, cap := cap }
  .next (if cap = s.cap then s' else s'.statusChanged)

/-- Every function of the module (R248/11). -/
def allFunctions : List FuncId :=
  ((List.range Config.cores).map FuncId.core) ++
    ((List.range Config.fields).flatMap fun f => [1, 2, 3, 4, 5].map fun e => FuncId.engine f e) ++
    ((List.range 16).map FuncId.port) ++ ((List.range 32).map FuncId.link) ++ (List.range 8).map FuncId.fleskapa

/-- `THERMAL_TRIP` (R390/19). Every clock stops, every function is fenced, TRIP is set and vector 1 signalled; a park or save
of the cycle is not made. -/
def execThermalTrip (s : State) : Out :=
  .next ({ s with trip := true, fenced := allFunctions, agenda := [] } : State).statusChanged

/-! ### Mailboxes (R152/06) -/

/-- The receiving core reads its oldest message, and the next sender's enters. DESIGN CHOICE: of senders that came in different cycles the
Fleskapa core that has waited longest enters first, and any of them before a reporter's buffered message (R152/06 orders those of one cycle
only, log 92). -/
def Mailbox.read (m : Mailbox) : Mailbox :=
  let m := { m with messages := m.messages.drop 1 }
  if 16 ≤ m.messages.length then m
  else
    match m.waiting, m.reporters with
    | x :: xs, _ => { m with messages := m.messages ++ [x], waiting := xs }
    | [], x :: xs => { m with messages := m.messages ++ [x], reporters := xs }
    | [], [] => m

/-- `MAILBOX_MESSAGE` (R152/06). A reporter's message that finds no place stalls: it comes again in the next cycle. A Fleskapa core that
does not run sends none (R391/19). -/
def execMailboxMessage (core sender : Nat) (msg : List (BitVec 8)) (s : State) : Out :=
  if sender < 8 ∧ ¬ s.coreRuns sender then .next s else
  match s.tell core sender msg with
  | some t => .next t
  | none => .next { s with inputs := (s.now + 1, .event (.mailboxMessage core sender msg)) :: s.inputs }

/-- A Fleskapa core that runs reads its mailbox. -/
def State.mailboxRead (s : State) (core : Nat) : State :=
  if ¬ s.coreRuns core then s else { s with mailboxes := modAt Mailbox.read s.mailboxes core }

/-! ### Errors (R132/05, R248/11) -/

/-- The record of a fenced function (R171/07). -/
def State.reportFenced (s : State) (ctx engine core : Nat) : State :=
  s.report ctx errFenced engine 0 (bytesOfNat 1 engine ++ [0] ++ bytesOfNat 2 core)

/-- The contexts with work in flight on a core. -/
def State.workOn (s : State) (core : Nat) : List Nat :=
  (((s.sheaves.filter fun h => h.core == core && (h.place == .resident || h.place == .suspended)).map fun h => h.ctx) ++
    (((s.core core).deque.filterMap s.sheaf?).map fun h => h.ctx) ++ (s.core core).fifo.map fun m => m.ctx).eraseDups

/-- A core is fenced (R248/11): its sheaves and commands end, those that inline children suspend there and its tasks with them, and a record
says so to each context. -/
def State.fenceCore (s : State) (core : Nat) : State :=
  let ctxs := s.workOn core
  let gone := ((s.sheaves.filter fun h => h.core == core && (h.place == .resident || h.place == .suspended)).map (·.id)) ++ (s.core core).deque
  let s := s.mapFields fun f => { f with records := f.records.filter fun r => !gone.contains r.sheaf }
  let s := gone.foldl (fun (s : State) i => s.endSheaf i) s
  let s := s.modCore core fun c => { c with fenced := true, fifo := [], deque := [] }
  ctxs.foldl (fun (s : State) c => s.reportFenced c 0 core) s

/-- An engine is fenced: a record for each context with a started job on it; JOB_REPLAY settles the jobs. -/
def State.fenceEngine (s : State) (field code : Nat) : State :=
  let ctxs := ((s.jobs.filter fun j => j.field == field && j.engine == code && j.started).map fun j => j.ctx).eraseDups
  ctxs.foldl (fun (s : State) c => s.reportFenced c code 0) s

/-- Clear a link in every link mask of every context's peer table (R167/07, R387/19). -/
def State.dropLink (s : State) (link : Nat) : State :=
  let tables := (s.ctxs.map fun c => c.2.peerTable.toNat).filter fun t => !(t == 0)
  let hit (a : Nat) : Bool := tables.any fun t => decide (t ≤ a) && decide (a < t + 131072) && (a - t) % 16 == 8 + link / 8
  let bit : Byte := ~~~((1 : Byte) <<< (link % 8))
  { s with
    linksUp := s.linksUp &&& ~~~((1 : BitVec 32) <<< link)
    mem := (s.mem.map fun c => if hit c.1 then (c.1, c.2 &&& bit) else c).filter fun c => !(c.2 == Config.unwritten) }

/-- Does a job in progress use a port: some line of its `.gl` footprints lies there (R163/07)? -/
def State.usesPort (s : State) (port : Nat) (j : Job) : Bool :=
  (s.footprints j).any fun f => f.space == 4 &&
    (List.range ((f.addr % 128 + f.len + 127) / 128)).any fun k =>
      match (s.xlate Config.cores j.ctx .load (f.addr + 128 * k)).1 with
      | .ok hpa => s.portOf hpa == port
      | .error _ => false

/-- A port is fenced (R248/11): the jobs at work on it end there, with a record for each context; JOB_REPLAY settles them. -/
def State.fencePort (s : State) (port : Nat) : State :=
  let hit := s.jobs.filter fun j => j.started && decide (j.engine ≤ 3) && s.usesPort port j
  let ids := hit.map fun j => j.id
  let t : State := { s with jobs := s.jobs.map fun j : Job => if ids.contains j.id then { j with cut := true, started := false } else j }
  (hit.map fun j => j.ctx).eraseDups.foldl (fun (s : State) c => s.reportFenced c 0 0) t

/-- Is traffic of a context to a module on a link? It is where the link mask names no other; where it names several the device has chosen
(R167/07, R386/19). -/
def State.onLink (s : State) (ctx m link : Nat) : Bool × State :=
  let mask : BitVec 32 := BitVec.ofNat 32 (fieldOf (s.peerEntry ctx m) 8 4)
  if !(mask.getLsbD link) then (false, s)
  else if mask = (1 : BitVec 32) <<< link then (true, s)
  else s.flip

/-- The remote stores in flight on a link. -/
def State.storesOn (s : State) (link : Nat) : List RemoteStore → List RemoteStore × State
  | [] => ([], s)
  | r :: rs =>
    let (b, s) := if r.own then (false, s) else s.onLink r.ctx (moduleOf r.hpa) link
    let (xs, s) := State.storesOn s link rs
    (if b then r :: xs else xs, s)

/-- Is a stream of a job that is not acknowledged on a link? -/
def State.streamOn (s : State) (j : Job) (link : Nat) : List Nat → Bool × State
  | [] => (false, s)
  | i :: is =>
    let m := j.peers.getD i 0
    let (b, s) := if m = s.device.toNat ∨ j.acked.contains i then (false, s) else s.onLink j.ctx m link
    let (c, s) := State.streamOn s j link is
    (b || c, s)

/-- The exchange jobs with streams on a link. -/
def State.jobsOn (s : State) (link : Nat) : List Job → List Job × State
  | [] => ([], s)
  | j :: js =>
    let (b, s) := if j.engine = 3 ∧ j.started then s.streamOn j link (List.range j.peers.length) else (false, s)
    let (xs, s) := State.jobsOn s link js
    (if b then j :: xs else xs, s)

/-- A remote store fails (R374/18): its launch retires with status 0x02. -/
def State.storeFails (s : State) (r : RemoteStore) : State :=
  ({ s with rsts := s.rsts.filter fun x => !(x == r) } : State).modLaunch r.launch fun l =>
    { l with rstsOut := l.rstsOut - 1, jobError := match l.jobError with | none => some (4, 255) | some x => some x }

/-- A link that itself failed is fenced (R248/11): each context's stores and streams in flight on it end, with a record; later traffic
takes the links left (R387/19). DEDUCED: a link whose failure the fabric core reports loses nothing instead (log 87). -/
def State.fenceLink (s : State) (link : Nat) : State :=
  let (rs, s) := s.storesOn link s.rsts
  let (js, s) := s.jobsOn link s.jobs
  let ids := js.map fun j => j.id
  let t : State := { s with jobs := s.jobs.map fun j : Job => if ids.contains j.id then { j with cut := true, started := false } else j }
  let t := rs.foldl (fun (s : State) r => s.storeFails r) t
  (((rs.map fun r => r.ctx) ++ js.map fun j => j.ctx).eraseDups.foldl (fun (s : State) c => s.reportFenced c 0 0) t).dropLink link

/-- A function is fenced (R248/11). A Fleskapa core has no work of a context in flight; what its mailbox holds stays there (R153/06, log
101). -/
def State.fence (s : State) (f : FuncId) : State :=
  if s.fenced.contains f then s
  else
    let t : State := { s with fenced := s.fenced ++ [f] }
    match f with
    | .core n => if n < Config.cores then t.fenceCore n else t
    | .engine field code => t.fenceEngine field code
    | .port n =>
      let u := s.fencePort n
      { u with fenced := t.fenced }
    | .link n => t.fenceLink n
    | .fleskapa _ => t

/-- `UNCORRECTABLE_ERROR` (R149/06, R171/07, R248/11). It is reported to the owning context only; a function that itself
failed is fenced. -/
def execUncorrectableError (e : ErrorReport) (s : State) : Out :=
  let s := s.reportUncorr e.ctx e.addr.toNat e.port e.pc.toNat
  .next (match e.failed with | some f => s.fence f | none => s)

/-! ### Links and peers (R386, R387/19, R406/10) -/

/-- `BRYNOZ_LINK_FAILURE` (R387/19). The link leaves every link mask; no traffic is lost. -/
def execBrynozLinkFailure (link : Nat) (s : State) : Out := .next (if link < 32 then s.dropLink link else s)

/-- `PEER_MODULE_FAILURE` (R371/18, R387/19). Accesses to the module fail as UNCORR from now; a job whose stream to it has not
been acknowledged fails at once. -/
def execPeerModuleFailure (m : Nat) (s : State) : Out :=
  let s : State := { s with peersDown := if s.peersDown.contains m then s.peersDown else s.peersDown ++ [m] }
  .next ((s.jobs.filter fun j => j.awaits m).foldl (fun (s : State) j => s.failExchange j (causeCode .uncorr)) s)

/-- `L2_LINE_EVICTION` (R406/10). A peer line is written back and leaves the local L2. -/
def execL2LineEviction (line : Nat) (s : State) : Out := .next ((s.writeBackPeer line).peerDrop line)

/-- Where a peer's access lands, line piece by line piece: the exporting module's checks (R386/19). -/
def State.exportAt (s : State) (a : PeerAccess) (off : Nat) : Except Cause (Nat × Nat) :=
  let c := s.ctx a.ctx
  let va := (c.exportBase.toNat + a.offset + off) % 2 ^ 56
  if c.exportSize ≤ a.offset + off then .error .xlate2
  else
    match (s.translate Config.cores a.ctx va).1 with
    | .error .perm => .error .perm
    | .error _ => .error .xlate2
    | .ok t =>
      if ¬ t.allows (if a.write then .store else .load) then .error .perm
      else
        let hpa := t.hpa + (va - t.va)
        if peerBase ≤ hpa ∨ s.uncorrAt hpa then .error .xlate2 else .ok (va, hpa)

/-- Write a peer's bytes one by one. -/
def State.exportPut (s : State) (a : PeerAccess) : List Byte → Nat → State
  | [], _ => s
  | b :: bs, off =>
    match s.exportAt a off with
    | .error _ => s
    | .ok (va, hpa) => State.exportPut (s.glWrite a.ctx 0 va hpa [b] true) a bs (off + 1)

/-- `PEER_ACCESS_ARRIVAL` (R386/19). A write is performed when every byte passes the exporting module's checks; a read, or an
access that fails, changes nothing here: its answer goes to the peer. -/
def execPeerAccessArrival (a : PeerAccess) (s : State) : Out :=
  if a.write ∧ (List.range a.data.length).all (fun k => match s.exportAt a k with | .ok _ => true | .error _ => false) then
    .next (s.exportPut a a.data 0)
  else .next s

end Sys2Proof.Machine
end

