-- ==== Sys2Proof/Decode.lean ====
section
/-! DEFINITION. The decoder of instruction words, total and rejecting by name, and the encoder written from the same tables (R251 to R265/12). -/

namespace Sys2Proof

/-- Why a word is illegal (R253/12). -/
inductive DecodeError where
  /-- the words 0x0000_0000 and 0xFFFF_FFFF -/
  | reservedWord
  /-- a major marked reserved in R261 -/
  | reservedMajor
  /-- a function code R262 leaves unassigned, or an unlisted code of a packed b or d -/
  | reservedFunction
  /-- a packed code without an assignment -/
  | unassignedCode
  /-- a reserved field or subfield that is nonzero -/
  | reservedField
  /-- a specifier or field outside its range -/
  | outOfRange
deriving DecidableEq, Repr

/-- Width of a code (R256/12). -/
def Width.ofCode? : Nat → Option Width
  | 0 => some .b8 | 1 => some .b16 | 2 => some .b32 | 3 => some .b64 | 4 => some .b128 | _ => none

/-- Scope of a code (R256/12). -/
def Scope.ofCode? : Nat → Option Scope
  | 0 => some .sheaf | 1 => some .team | 2 => some .core | 3 => some .clus | 4 => some .fld | 5 => some .dev
  | 6 => some .sys | _ => none

/-- Ordering of a code (R256/12). -/
def Ordering.ofCode? : Nat → Option Ordering
  | 0 => some .rlx | 1 => some .acq | 2 => some .rel | 3 => some .ar | 4 => some .sc | _ => none

/-- Rounding of a code (R256/12). -/
def Rounding.ofCode? : Nat → Option Rounding
  | 0 => some .ctrl | 1 => some .rne | 2 => some .rtz | 3 => some .rdn | 4 => some .rup | _ => none

/-- Element type of a code; 14 (e2m1) and 15 have none here (R265/12). -/
def ElemType.ofCode? : Nat → Option ElemType
  | 0 => some .i8 | 1 => some .i16 | 2 => some .i32 | 3 => some .i64 | 4 => some .n8 | 5 => some .n16
  | 6 => some .n32 | 7 => some .n64 | 8 => some .f16 | 9 => some .bf16 | 10 => some .f32 | 11 => some .f64
  | 12 => some .e4m3 | 13 => some .e5m2 | _ => none

/-- Atomic operation of a code; 0x18 to 0x1F have none (R264/12). -/
def AtomOp.ofCode? : Nat → Option AtomOp
  | 0 => some .addI32 | 1 => some .addI64 | 2 => some .faddF16 | 3 => some .faddBf16 | 4 => some .faddF32
  | 5 => some .faddF64 | 6 => some .minI32 | 7 => some .minN32 | 8 => some .minI64 | 9 => some .minN64
  | 10 => some .maxI32 | 11 => some .maxN32 | 12 => some .maxI64 | 13 => some .maxN64 | 14 => some .andB32
  | 15 => some .andB64 | 16 => some .orB32 | 17 => some .orB64 | 18 => some .xorB32 | 19 => some .xorB64
  | 20 => some .exchB32 | 21 => some .exchB64 | 22 => some .casB32 | 23 => some .casB64 | _ => none

/-- The field X (R263/12). -/
def Idx.ofCode (x : Nat) : Idx := if x < 64 then .vec x else .imm (x - 64)

/-- Accept an instruction when its reserved fields are 0. -/
def need (c : Bool) (i : Instr) : Except DecodeError Instr := if c then .ok i else .error .reservedField

/-- Go on with an assigned code. -/
def code {α : Type} (o : Option α) (k : α → Except DecodeError Instr) : Except DecodeError Instr :=
  match o with
  | some x => k x
  | none => .error .unassignedCode


/-- Major 0x00. -/
noncomputable def decodeMajor00 (d a b f : Nat) : Except DecodeError Instr :=
  match f with
  | 0 => .ok (.sadd d a b)
  | 1 => .ok (.ssub d a b)
  | 2 => .ok (.smul d a b)
  | 3 => .ok (.smulhI64 d a b)
  | 4 => .ok (.smulhN64 d a b)
  | 5 => .ok (.sand d a b)
  | 6 => .ok (.sor d a b)
  | 7 => .ok (.sxor d a b)
  | 8 => .ok (.sshl d a b)
  | 9 => .ok (.sshrN64 d a b)
  | 10 => .ok (.sshrI64 d a b)
  | 11 => .ok (.sminI64 d a b)
  | 12 => .ok (.sminN64 d a b)
  | 13 => .ok (.smaxI64 d a b)
  | 14 => .ok (.smaxN64 d a b)
  | _ => .error .reservedFunction

/-- Major 0x01. -/
noncomputable def decodeMajor01 (d a b f : Nat) : Except DecodeError Instr :=
  match f with
  | 0 => .ok (.sdivI64 d a b)
  | 1 => .ok (.sdivN64 d a b)
  | 2 => .ok (.sremI64 d a b)
  | 3 => .ok (.sremN64 d a b)
  | 4 => .ok (.sseq d a b)
  | 5 => .ok (.ssne d a b)
  | 6 => .ok (.ssltI64 d a b)
  | 7 => .ok (.ssltN64 d a b)
  | 8 => .ok (.ssleI64 d a b)
  | 9 => .ok (.ssleN64 d a b)
  | 10 => need (b == 0) (.spopc d a)
  | 11 => need (b == 0) (.sclz d a)
  | 12 => need (b == 0) (.sctz d a)
  | 13 => need (b == 0) (.sbrev d a)
  | 14 => need (b == 0) (.smov d a)
  | _ => .error .reservedFunction

/-- Major 0x02. -/
noncomputable def decodeMajor02 (d a b f : Nat) : Except DecodeError Instr :=
  .ok (.saddi d a (BitVec.ofNat 11 (b * 16 + f)))

/-- Major 0x03. -/
noncomputable def decodeMajor03 (d a b f : Nat) : Except DecodeError Instr :=
  .ok (.sandi d a (BitVec.ofNat 11 (b * 16 + f)))

/-- Major 0x04. -/
noncomputable def decodeMajor04 (d a b f : Nat) : Except DecodeError Instr :=
  .ok (.sori d a (BitVec.ofNat 11 (b * 16 + f)))

/-- Major 0x05. -/
noncomputable def decodeMajor05 (d a b f : Nat) : Except DecodeError Instr :=
  .ok (.sxori d a (BitVec.ofNat 11 (b * 16 + f)))

/-- Major 0x06. -/
noncomputable def decodeMajor06 (d a b f : Nat) : Except DecodeError Instr :=
  need (b < 4) (.sshli d a (BitVec.ofNat 6 (b * 16 + f)))

/-- Major 0x07. -/
noncomputable def decodeMajor07 (d a b f : Nat) : Except DecodeError Instr :=
  need (b < 4) (.sshriN64 d a (BitVec.ofNat 6 (b * 16 + f)))

/-- Major 0x08. -/
noncomputable def decodeMajor08 (d a b f : Nat) : Except DecodeError Instr :=
  need (b < 4) (.sshriI64 d a (BitVec.ofNat 6 (b * 16 + f)))

/-- Major 0x09. -/
noncomputable def decodeMajor09 (d a b f : Nat) : Except DecodeError Instr :=
  .ok (.ssltiI64 d a (BitVec.ofNat 11 (b * 16 + f)))

/-- Major 0x0A. -/
noncomputable def decodeMajor0A (d a b f : Nat) : Except DecodeError Instr :=
  .ok (.ssltiN64 d a (BitVec.ofNat 11 (b * 16 + f)))

/-- Major 0x0B. -/
noncomputable def decodeMajor0B (d a b f : Nat) : Except DecodeError Instr :=
  .ok (.smuli d a (BitVec.ofNat 11 (b * 16 + f)))

/-- Major 0x10. -/
noncomputable def decodeMajor10 (d a b f : Nat) : Except DecodeError Instr :=
  match f with
  | 0 => need (d == 0 && a == 0 && b == 0) .nop
  | 1 => need (d == 0 && a == 0 && b == 0) .exit
  | 2 => need (d == 0 && a == 0 && b == 0) .yield
  | 3 => need (d == 0 && b == 0) (.ret a)
  | 4 => need (d == 0 && a == 0 && b == 0) .brk
  | _ => .error .reservedFunction

/-- Major 0x11. -/
noncomputable def decodeMajor11 (d a b f : Nat) : Except DecodeError Instr :=
  need (d == 0) (.bra (BitVec.ofNat 18 (a * 2048 + b * 16 + f)))

/-- Major 0x12. -/
noncomputable def decodeMajor12 (d a b f : Nat) : Except DecodeError Instr :=
  .ok (.bnz d (BitVec.ofNat 18 (a * 2048 + b * 16 + f)))

/-- Major 0x13. -/
noncomputable def decodeMajor13 (d a b f : Nat) : Except DecodeError Instr :=
  .ok (.bz d (BitVec.ofNat 18 (a * 2048 + b * 16 + f)))

/-- Major 0x14. -/
noncomputable def decodeMajor14 (d a b f : Nat) : Except DecodeError Instr :=
  .ok (.bnzv d (BitVec.ofNat 18 (a * 2048 + b * 16 + f)))

/-- Major 0x15. -/
noncomputable def decodeMajor15 (d a b f : Nat) : Except DecodeError Instr :=
  .ok (.bzv d (BitVec.ofNat 18 (a * 2048 + b * 16 + f)))

/-- Major 0x16. -/
noncomputable def decodeMajor16 (d a b f : Nat) : Except DecodeError Instr :=
  .ok (.call d (BitVec.ofNat 18 (a * 2048 + b * 16 + f)))

/-- Major 0x17. -/
noncomputable def decodeMajor17 (d a b f : Nat) : Except DecodeError Instr :=
  need (a % 16 == 0 && b < 16) (.loop d (decide (64 ≤ a)) (a / 16 % 4) (b * 16 + f))

/-- Major 0x18. -/
noncomputable def decodeMajor18 (d a b f : Nat) : Except DecodeError Instr :=
  .ok (.li d (BitVec.ofNat 18 (a * 2048 + b * 16 + f)))

/-- Major 0x19. -/
noncomputable def decodeMajor19 (d a b f : Nat) : Except DecodeError Instr :=
  .ok (.sli d (BitVec.ofNat 18 (a * 2048 + b * 16 + f)))

/-- Major 0x1A. -/
noncomputable def decodeMajor1A (d a b f : Nat) : Except DecodeError Instr :=
  .ok (.vli d (BitVec.ofNat 18 (a * 2048 + b * 16 + f)))

/-- Major 0x1B. -/
noncomputable def decodeMajor1B (d a b f : Nat) : Except DecodeError Instr :=
  match f with
  | 0 => .ok (.addaX1 d a b)
  | 1 => .ok (.addaX2 d a b)
  | 2 => .ok (.addaX4 d a b)
  | 3 => .ok (.addaX8 d a b)
  | 4 => .ok (.addaX16 d a b)
  | 5 => .ok (.addaV d a b)
  | _ => .error .reservedFunction

/-- Major 0x1C. -/
noncomputable def decodeMajor1C (d a b f : Nat) : Except DecodeError Instr :=
  need (d == 0) (.wbase (BitVec.ofNat 18 (a * 2048 + b * 16 + f)))

/-- Major 0x1D. -/
noncomputable def decodeMajor1D (d a b f : Nat) : Except DecodeError Instr :=
  need (d == 0 && a == 0) (.wshift (BitVec.ofNat 11 (b * 16 + f)))

/-- Major 0x1E. -/
noncomputable def decodeMajor1E (d a b f : Nat) : Except DecodeError Instr :=
  match f with
  | 0 => need (b == 0) (.vmov d a)
  | 1 => need (b == 0) (.vbcast d a)
  | 2 => need (b == 0) (.vbcast64 d a)
  | 3 => .ok (.vget d a b)
  | 4 => .ok (.vput d a b)
  | _ => .error .reservedFunction

/-- Major 0x20. -/
noncomputable def decodeMajor20 (d a b f : Nat) : Except DecodeError Instr :=
  match f with
  | 0 => .ok (.addI32Vv d a b)
  | 1 => .ok (.subI32Vv d a b)
  | 2 => .ok (.mulI32Vv d a b)
  | 3 => .ok (.mulhI32Vv d a b)
  | 4 => .ok (.mulhN32Vv d a b)
  | 5 => .ok (.minI32Vv d a b)
  | 6 => .ok (.minN32Vv d a b)
  | 7 => .ok (.maxI32Vv d a b)
  | 8 => .ok (.maxN32Vv d a b)
  | 9 => .ok (.andB32Vv d a b)
  | 10 => .ok (.orB32Vv d a b)
  | 11 => .ok (.xorB32Vv d a b)
  | 12 => .ok (.shlB32Vv d a b)
  | 13 => .ok (.shrN32Vv d a b)
  | 14 => .ok (.shrI32Vv d a b)
  | 15 => .ok (.addsI32Vv d a b)
  | _ => .error .reservedFunction

/-- Major 0x21. -/
noncomputable def decodeMajor21 (d a b f : Nat) : Except DecodeError Instr :=
  match f with
  | 0 => .ok (.addI32Vs d a b)
  | 1 => .ok (.subI32Vs d a b)
  | 2 => .ok (.mulI32Vs d a b)
  | 3 => .ok (.mulhI32Vs d a b)
  | 4 => .ok (.mulhN32Vs d a b)
  | 5 => .ok (.minI32Vs d a b)
  | 6 => .ok (.minN32Vs d a b)
  | 7 => .ok (.maxI32Vs d a b)
  | 8 => .ok (.maxN32Vs d a b)
  | 9 => .ok (.andB32Vs d a b)
  | 10 => .ok (.orB32Vs d a b)
  | 11 => .ok (.xorB32Vs d a b)
  | 12 => .ok (.shlB32Vs d a b)
  | 13 => .ok (.shrN32Vs d a b)
  | 14 => .ok (.shrI32Vs d a b)
  | 15 => .ok (.addsI32Vs d a b)
  | _ => .error .reservedFunction

/-- Major 0x22. -/
noncomputable def decodeMajor22 (d a b f : Nat) : Except DecodeError Instr :=
  match f with
  | 0 => .ok (.addI64Vv d a b)
  | 1 => .ok (.subI64Vv d a b)
  | 2 => .ok (.mulI64Vv d a b)
  | 3 => .ok (.mulhI64Vv d a b)
  | 4 => .ok (.mulhN64Vv d a b)
  | 5 => .ok (.minI64Vv d a b)
  | 6 => .ok (.minN64Vv d a b)
  | 7 => .ok (.maxI64Vv d a b)
  | 8 => .ok (.maxN64Vv d a b)
  | 9 => .ok (.andB64Vv d a b)
  | 10 => .ok (.orB64Vv d a b)
  | 11 => .ok (.xorB64Vv d a b)
  | 12 => .ok (.shlB64Vv d a b)
  | 13 => .ok (.shrN64Vv d a b)
  | 14 => .ok (.shrI64Vv d a b)
  | 15 => .ok (.addsI64Vv d a b)
  | _ => .error .reservedFunction

/-- Major 0x23. -/
noncomputable def decodeMajor23 (d a b f : Nat) : Except DecodeError Instr :=
  match f with
  | 0 => .ok (.addI64Vs d a b)
  | 1 => .ok (.subI64Vs d a b)
  | 2 => .ok (.mulI64Vs d a b)
  | 3 => .ok (.mulhI64Vs d a b)
  | 4 => .ok (.mulhN64Vs d a b)
  | 5 => .ok (.minI64Vs d a b)
  | 6 => .ok (.minN64Vs d a b)
  | 7 => .ok (.maxI64Vs d a b)
  | 8 => .ok (.maxN64Vs d a b)
  | 9 => .ok (.andB64Vs d a b)
  | 10 => .ok (.orB64Vs d a b)
  | 11 => .ok (.xorB64Vs d a b)
  | 12 => .ok (.shlB64Vs d a b)
  | 13 => .ok (.shrN64Vs d a b)
  | 14 => .ok (.shrI64Vs d a b)
  | 15 => .ok (.addsI64Vs d a b)
  | _ => .error .reservedFunction

/-- Major 0x24. -/
noncomputable def decodeMajor24 (d a b f : Nat) : Except DecodeError Instr :=
  match f with
  | 0 => .ok (.addF16Vv d a b)
  | 1 => .ok (.subF16Vv d a b)
  | 2 => .ok (.mulF16Vv d a b)
  | 3 => .ok (.divF16Vv d a b)
  | 4 => .ok (.minF16Vv d a b)
  | 5 => .ok (.maxF16Vv d a b)
  | 6 => .ok (.fmaF16Vv d a b)
  | 7 => .ok (.fmsF16Vv d a b)
  | 8 => .ok (.fnmaF16Vv d a b)
  | 9 => .ok (.copysignF16Vv d a b)
  | _ => .error .reservedFunction

/-- Major 0x25. -/
noncomputable def decodeMajor25 (d a b f : Nat) : Except DecodeError Instr :=
  match f with
  | 0 => .ok (.addF16Vs d a b)
  | 1 => .ok (.subF16Vs d a b)
  | 2 => .ok (.mulF16Vs d a b)
  | 3 => .ok (.divF16Vs d a b)
  | 4 => .ok (.minF16Vs d a b)
  | 5 => .ok (.maxF16Vs d a b)
  | 6 => .ok (.fmaF16Vs d a b)
  | 7 => .ok (.fmsF16Vs d a b)
  | 8 => .ok (.fnmaF16Vs d a b)
  | 9 => .ok (.copysignF16Vs d a b)
  | _ => .error .reservedFunction

/-- Major 0x26. -/
noncomputable def decodeMajor26 (d a b f : Nat) : Except DecodeError Instr :=
  match f with
  | 0 => .ok (.addF32Vv d a b)
  | 1 => .ok (.subF32Vv d a b)
  | 2 => .ok (.mulF32Vv d a b)
  | 3 => .ok (.divF32Vv d a b)
  | 4 => .ok (.minF32Vv d a b)
  | 5 => .ok (.maxF32Vv d a b)
  | 6 => .ok (.fmaF32Vv d a b)
  | 7 => .ok (.fmsF32Vv d a b)
  | 8 => .ok (.fnmaF32Vv d a b)
  | 9 => .ok (.copysignF32Vv d a b)
  | _ => .error .reservedFunction

/-- Major 0x27. -/
noncomputable def decodeMajor27 (d a b f : Nat) : Except DecodeError Instr :=
  match f with
  | 0 => .ok (.addF32Vs d a b)
  | 1 => .ok (.subF32Vs d a b)
  | 2 => .ok (.mulF32Vs d a b)
  | 3 => .ok (.divF32Vs d a b)
  | 4 => .ok (.minF32Vs d a b)
  | 5 => .ok (.maxF32Vs d a b)
  | 6 => .ok (.fmaF32Vs d a b)
  | 7 => .ok (.fmsF32Vs d a b)
  | 8 => .ok (.fnmaF32Vs d a b)
  | 9 => .ok (.copysignF32Vs d a b)
  | _ => .error .reservedFunction

/-- Major 0x28. -/
noncomputable def decodeMajor28 (d a b f : Nat) : Except DecodeError Instr :=
  match f with
  | 0 => .ok (.addBf16Vv d a b)
  | 1 => .ok (.subBf16Vv d a b)
  | 2 => .ok (.mulBf16Vv d a b)
  | 3 => .ok (.divBf16Vv d a b)
  | 4 => .ok (.minBf16Vv d a b)
  | 5 => .ok (.maxBf16Vv d a b)
  | 6 => .ok (.fmaBf16Vv d a b)
  | 7 => .ok (.fmsBf16Vv d a b)
  | 8 => .ok (.fnmaBf16Vv d a b)
  | 9 => .ok (.copysignBf16Vv d a b)
  | _ => .error .reservedFunction

/-- Major 0x29. -/
noncomputable def decodeMajor29 (d a b f : Nat) : Except DecodeError Instr :=
  match f with
  | 0 => .ok (.addBf16Vs d a b)
  | 1 => .ok (.subBf16Vs d a b)
  | 2 => .ok (.mulBf16Vs d a b)
  | 3 => .ok (.divBf16Vs d a b)
  | 4 => .ok (.minBf16Vs d a b)
  | 5 => .ok (.maxBf16Vs d a b)
  | 6 => .ok (.fmaBf16Vs d a b)
  | 7 => .ok (.fmsBf16Vs d a b)
  | 8 => .ok (.fnmaBf16Vs d a b)
  | 9 => .ok (.copysignBf16Vs d a b)
  | _ => .error .reservedFunction

/-- Major 0x2A. -/
noncomputable def decodeMajor2A (d a b f : Nat) : Except DecodeError Instr :=
  match f with
  | 0 => .ok (.addF64Vv d a b)
  | 1 => .ok (.subF64Vv d a b)
  | 2 => .ok (.mulF64Vv d a b)
  | 3 => .ok (.divF64Vv d a b)
  | 4 => .ok (.minF64Vv d a b)
  | 5 => .ok (.maxF64Vv d a b)
  | 6 => .ok (.fmaF64Vv d a b)
  | 7 => .ok (.fmsF64Vv d a b)
  | 8 => .ok (.fnmaF64Vv d a b)
  | 9 => .ok (.copysignF64Vv d a b)
  | _ => .error .reservedFunction

/-- Major 0x2B. -/
noncomputable def decodeMajor2B (d a b f : Nat) : Except DecodeError Instr :=
  match f with
  | 0 => .ok (.addF64Vs d a b)
  | 1 => .ok (.subF64Vs d a b)
  | 2 => .ok (.mulF64Vs d a b)
  | 3 => .ok (.divF64Vs d a b)
  | 4 => .ok (.minF64Vs d a b)
  | 5 => .ok (.maxF64Vs d a b)
  | 6 => .ok (.fmaF64Vs d a b)
  | 7 => .ok (.fmsF64Vs d a b)
  | 8 => .ok (.fnmaF64Vs d a b)
  | 9 => .ok (.copysignF64Vs d a b)
  | _ => .error .reservedFunction

/-- Major 0x2C. -/
noncomputable def decodeMajor2C (d a b f : Nat) : Except DecodeError Instr :=
  match f with
  | 0 => .ok (.divI32Vv d a b)
  | 1 => .ok (.divN32Vv d a b)
  | 2 => .ok (.remI32Vv d a b)
  | 3 => .ok (.remN32Vv d a b)
  | 4 => .ok (.divI64Vv d a b)
  | 5 => .ok (.divN64Vv d a b)
  | 6 => .ok (.remI64Vv d a b)
  | 7 => .ok (.remN64Vv d a b)
  | _ => .error .reservedFunction

/-- Major 0x2D. -/
noncomputable def decodeMajor2D (d a b f : Nat) : Except DecodeError Instr :=
  match f with
  | 0 => .ok (.divI32Vs d a b)
  | 1 => .ok (.divN32Vs d a b)
  | 2 => .ok (.remI32Vs d a b)
  | 3 => .ok (.remN32Vs d a b)
  | 4 => .ok (.divI64Vs d a b)
  | 5 => .ok (.divN64Vs d a b)
  | 6 => .ok (.remI64Vs d a b)
  | 7 => .ok (.remN64Vs d a b)
  | _ => .error .reservedFunction

/-- Major 0x2E. -/
noncomputable def decodeMajor2E (d a b f : Nat) : Except DecodeError Instr :=
  match f with
  | 0 => .ok (.ceqF32Vv d a b)
  | 1 => .ok (.cltF32Vv d a b)
  | 2 => .ok (.cleF32Vv d a b)
  | 3 => .ok (.cunF32Vv d a b)
  | 4 => .ok (.ceqB32Vv d a b)
  | 5 => .ok (.cltI32Vv d a b)
  | 6 => .ok (.cleI32Vv d a b)
  | 7 => .ok (.cltN32Vv d a b)
  | 8 => .ok (.cleN32Vv d a b)
  | 9 => .ok (.ceqF16Vv d a b)
  | 10 => .ok (.cltF16Vv d a b)
  | 11 => .ok (.cleF16Vv d a b)
  | 12 => .ok (.cunF16Vv d a b)
  | 13 => .ok (.ceqBf16Vv d a b)
  | 14 => .ok (.cltBf16Vv d a b)
  | 15 => .ok (.cleBf16Vv d a b)
  | _ => .error .reservedFunction

/-- Major 0x2F. -/
noncomputable def decodeMajor2F (d a b f : Nat) : Except DecodeError Instr :=
  match f with
  | 0 => .ok (.ceqF32Vs d a b)
  | 1 => .ok (.cltF32Vs d a b)
  | 2 => .ok (.cleF32Vs d a b)
  | 3 => .ok (.cunF32Vs d a b)
  | 4 => .ok (.ceqB32Vs d a b)
  | 5 => .ok (.cltI32Vs d a b)
  | 6 => .ok (.cleI32Vs d a b)
  | 7 => .ok (.cltN32Vs d a b)
  | 8 => .ok (.cleN32Vs d a b)
  | 9 => .ok (.ceqF16Vs d a b)
  | 10 => .ok (.cltF16Vs d a b)
  | 11 => .ok (.cleF16Vs d a b)
  | 12 => .ok (.cunF16Vs d a b)
  | 13 => .ok (.ceqBf16Vs d a b)
  | 14 => .ok (.cltBf16Vs d a b)
  | 15 => .ok (.cleBf16Vs d a b)
  | _ => .error .reservedFunction

/-- Major 0x30. -/
noncomputable def decodeMajor30 (d a b f : Nat) : Except DecodeError Instr :=
  match f with
  | 0 => .ok (.ceqF64Vv d a b)
  | 1 => .ok (.cltF64Vv d a b)
  | 2 => .ok (.cleF64Vv d a b)
  | 3 => .ok (.cunF64Vv d a b)
  | 4 => .ok (.ceqB64Vv d a b)
  | 5 => .ok (.cltI64Vv d a b)
  | 6 => .ok (.cleI64Vv d a b)
  | 7 => .ok (.cltN64Vv d a b)
  | 8 => .ok (.cleN64Vv d a b)
  | _ => .error .reservedFunction

/-- Major 0x31. -/
noncomputable def decodeMajor31 (d a b f : Nat) : Except DecodeError Instr :=
  match f with
  | 0 => .ok (.ceqF64Vs d a b)
  | 1 => .ok (.cltF64Vs d a b)
  | 2 => .ok (.cleF64Vs d a b)
  | 3 => .ok (.cunF64Vs d a b)
  | 4 => .ok (.ceqB64Vs d a b)
  | 5 => .ok (.cltI64Vs d a b)
  | 6 => .ok (.cleI64Vs d a b)
  | 7 => .ok (.cltN64Vs d a b)
  | 8 => .ok (.cleN64Vs d a b)
  | _ => .error .reservedFunction

/-- Major 0x32. -/
noncomputable def decodeMajor32 (d a b f : Nat) : Except DecodeError Instr :=
  if f < 8 then .ok (.selB32Vv d a b f) else .ok (.selB64Vv d a b (f - 8))

/-- Major 0x33. -/
noncomputable def decodeMajor33 (d a b f : Nat) : Except DecodeError Instr :=
  if f < 8 then .ok (.selB32Vs d a b f) else .ok (.selB64Vs d a b (f - 8))

/-- Major 0x34. -/
noncomputable def decodeMajor34 (d a b f : Nat) : Except DecodeError Instr :=
  match b with
  | 0 => .ok (.rcpF32V d a f)
  | 1 => .ok (.rsqrtF32V d a f)
  | 2 => .ok (.sqrtF32V d a f)
  | 3 => .ok (.exp2F32V d a f)
  | 4 => .ok (.log2F32V d a f)
  | 5 => .ok (.sinF32V d a f)
  | 6 => .ok (.cosF32V d a f)
  | 7 => .ok (.tanhF32V d a f)
  | _ => .error .reservedFunction

/-- Major 0x35. -/
noncomputable def decodeMajor35 (d a b f : Nat) : Except DecodeError Instr :=
  match b with
  | 0 => .ok (.rcpF32S d a f)
  | 1 => .ok (.rsqrtF32S d a f)
  | 2 => .ok (.sqrtF32S d a f)
  | 3 => .ok (.exp2F32S d a f)
  | 4 => .ok (.log2F32S d a f)
  | 5 => .ok (.sinF32S d a f)
  | 6 => .ok (.cosF32S d a f)
  | 7 => .ok (.tanhF32S d a f)
  | _ => .error .reservedFunction

/-- Major 0x36. -/
noncomputable def decodeMajor36 (d a b f : Nat) : Except DecodeError Instr :=
  match f with
  | 0 => need (b == 0) (.popcB32 d a)
  | 1 => need (b == 0) (.clzB32 d a)
  | 2 => need (b == 0) (.ctzB32 d a)
  | 3 => need (b == 0) (.brevB32 d a)
  | 4 => need (b == 0) (.notB32 d a)
  | 5 => need (b == 0) (.negI32 d a)
  | 6 => need (b == 0) (.absI32 d a)
  | 8 => need (b == 0) (.popcB64 d a)
  | 9 => need (b == 0) (.clzB64 d a)
  | 10 => need (b == 0) (.ctzB64 d a)
  | 11 => need (b == 0) (.brevB64 d a)
  | 12 => need (b == 0) (.notB64 d a)
  | 13 => need (b == 0) (.negI64 d a)
  | 14 => need (b == 0) (.absI64 d a)
  | _ => .error .reservedFunction

/-- Major 0x38. -/
noncomputable def decodeMajor38 (d a b f : Nat) : Except DecodeError Instr :=
  match f with
  | 0 => need (b == 0) (.absF32 d a)
  | 1 => need (b == 0) (.negF32 d a)
  | 2 => need (b == 0) (.rintF32 d a)
  | 3 => need (b == 0) (.floorF32 d a)
  | 4 => need (b == 0) (.ceilF32 d a)
  | 5 => need (b == 0) (.truncF32 d a)
  | 6 => need (b == 0) (.absF16 d a)
  | 7 => need (b == 0) (.negF16 d a)
  | 8 => need (b == 0) (.absBf16 d a)
  | 9 => need (b == 0) (.negBf16 d a)
  | 10 => need (b == 0) (.absF64 d a)
  | 11 => need (b == 0) (.negF64 d a)
  | _ => .error .reservedFunction

/-- Major 0x40. -/
noncomputable def decodeMajor40 (d a b f : Nat) : Except DecodeError Instr :=
  code (ElemType.ofCode? (b / 8)) fun s => code (Rounding.ofCode? (b % 8)) fun r => code (ElemType.ofCode? f) fun t => .ok (.cvt d a s r t)

/-- Major 0x41. -/
noncomputable def decodeMajor41 (d a b f : Nat) : Except DecodeError Instr :=
  match f with
  | 0 => .ok (.pkE2m1 d a b)
  | 1 => .ok (.upkE2m1 d a b)
  | 2 => .ok (.scaccF32 d a b)
  | _ => .error .reservedFunction

/-- Major 0x42. -/
noncomputable def decodeMajor42 (d a b f : Nat) : Except DecodeError Instr :=
  match f % 4 with
  | 0 => .ok (.shflIdx d a b (f / 4))
  | 1 => .ok (.shflUp d a b (f / 4))
  | 2 => .ok (.shflDown d a b (f / 4))
  | 3 => .ok (.shflXor d a b (f / 4))
  | _ => .error .reservedFunction

/-- Major 0x43. -/
noncomputable def decodeMajor43 (d a b f : Nat) : Except DecodeError Instr :=
  match f % 4 with
  | 0 => need (b == 0) (.voteAny d a (f / 4))
  | 1 => need (b == 0) (.voteAll d a (f / 4))
  | 2 => need (b == 0) (.voteEq d a (f / 4))
  | 3 => need (b == 0) (.voteBallot d a (f / 4))
  | _ => .error .reservedFunction

/-- Major 0x44. -/
noncomputable def decodeMajor44 (d a b f : Nat) : Except DecodeError Instr :=
  match f with
  | 0 => need (b == 0) (.lredAddF32 d a)
  | 1 => need (b == 0) (.lredMaxF32 d a)
  | 2 => need (b == 0) (.lredMinF32 d a)
  | 3 => need (b == 0) (.lredAddI32 d a)
  | 4 => need (b == 0) (.lredMaxI32 d a)
  | 5 => need (b == 0) (.lredMinI32 d a)
  | 6 => need (b == 0) (.lredMaxN32 d a)
  | 7 => need (b == 0) (.lredMinN32 d a)
  | 8 => need (b == 0) (.lredAddF16 d a)
  | 9 => need (b == 0) (.lredMaxF16 d a)
  | 10 => need (b == 0) (.lredMinF16 d a)
  | 11 => need (b == 0) (.lredAddBf16 d a)
  | 12 => need (b == 0) (.lredAndB32 d a)
  | 13 => need (b == 0) (.lredOrB32 d a)
  | 14 => need (b == 0) (.lredXorB32 d a)
  | _ => .error .reservedFunction

/-- Major 0x45. -/
noncomputable def decodeMajor45 (d a b f : Nat) : Except DecodeError Instr :=
  match b with
  | 0 => .ok (.tredAddF32 d a f)
  | 1 => .ok (.tredMaxF32 d a f)
  | 2 => .ok (.tredMinF32 d a f)
  | 3 => .ok (.tredAddI32 d a f)
  | 4 => .ok (.tredMaxI32 d a f)
  | 5 => .ok (.tredMinI32 d a f)
  | 6 => .ok (.tredMaxN32 d a f)
  | 7 => .ok (.tredMinN32 d a f)
  | 8 => .ok (.tredAddF16 d a f)
  | 9 => .ok (.tredMaxF16 d a f)
  | 10 => .ok (.tredMinF16 d a f)
  | 11 => .ok (.tredAddBf16 d a f)
  | 12 => .ok (.tredAndB32 d a f)
  | 13 => .ok (.tredOrB32 d a f)
  | 14 => .ok (.tredXorB32 d a f)
  | _ => .error .reservedFunction

/-- Major 0x46. -/
noncomputable def decodeMajor46 (d a b f : Nat) : Except DecodeError Instr :=
  match f with
  | 0 => need (b == 0) (.scanAddF32 d a)
  | 1 => need (b == 0) (.scanMaxF32 d a)
  | 2 => need (b == 0) (.scanMinF32 d a)
  | 3 => need (b == 0) (.scanAddI32 d a)
  | 4 => need (b == 0) (.scanMaxI32 d a)
  | 5 => need (b == 0) (.scanMinI32 d a)
  | 6 => need (b == 0) (.scanMaxN32 d a)
  | 7 => need (b == 0) (.scanMinN32 d a)
  | 8 => need (b == 0) (.scanxAddF32 d a)
  | 9 => need (b == 0) (.scanxMaxF32 d a)
  | 10 => need (b == 0) (.scanxMinF32 d a)
  | 11 => need (b == 0) (.scanxAddI32 d a)
  | 12 => need (b == 0) (.scanxMaxI32 d a)
  | 13 => need (b == 0) (.scanxMinI32 d a)
  | 14 => need (b == 0) (.scanxMaxN32 d a)
  | 15 => need (b == 0) (.scanxMinN32 d a)
  | _ => .error .reservedFunction

/-- Major 0x47. -/
noncomputable def decodeMajor47 (d a b f : Nat) : Except DecodeError Instr :=
  match f with
  | 0 => .ok (.pand d a b)
  | 1 => .ok (.por d a b)
  | 2 => .ok (.pxor d a b)
  | 3 => need (b == 0) (.pnot d a)
  | 4 => need (b == 0) (.pfroms d a)
  | 5 => need (b == 0) (.stop d a)
  | 6 => need (a == 0 && b == 0) (.pall d)
  | 7 => need (a == 0 && b == 0) (.pnone d)
  | _ => .error .reservedFunction

/-- Major 0x50. -/
noncomputable def decodeMajor50 (d a b f : Nat) : Except DecodeError Instr :=
  code (Width.ofCode? (a / 16)) fun w => .ok (.ldLn d w (a % 16) (Idx.ofCode b) f)

/-- Major 0x51. -/
noncomputable def decodeMajor51 (d a b f : Nat) : Except DecodeError Instr :=
  code (Width.ofCode? (a / 16)) fun w => .ok (.ldSp d w (a % 16) (Idx.ofCode b) f)

/-- Major 0x52. -/
noncomputable def decodeMajor52 (d a b f : Nat) : Except DecodeError Instr :=
  code (Width.ofCode? (a / 16)) fun w => .ok (.ldCl d w (a % 16) (Idx.ofCode b) f)

/-- Major 0x53. -/
noncomputable def decodeMajor53 (d a b f : Nat) : Except DecodeError Instr :=
  code (Width.ofCode? (a / 16)) fun w => .ok (.ldBn d w (a % 16) (Idx.ofCode b) f)

/-- Major 0x54. -/
noncomputable def decodeMajor54 (d a b f : Nat) : Except DecodeError Instr :=
  code (Width.ofCode? (a / 16)) fun w => .ok (.ldGl d w (a % 16) (Idx.ofCode b) f)

/-- Major 0x55. -/
noncomputable def decodeMajor55 (d a b f : Nat) : Except DecodeError Instr :=
  code (Width.ofCode? (a / 16)) fun w => .ok (.ldAc d w (a % 16) (Idx.ofCode b) f)

/-- Major 0x56. -/
noncomputable def decodeMajor56 (d a b f : Nat) : Except DecodeError Instr :=
  code (Scope.ofCode? (b / 16)) fun s => code (Ordering.ofCode? (b / 4 % 4)) fun o => code (Width.ofCode? (b % 4 + 2)) fun w => .ok (.ldGlOrdered d a s o w f)

/-- Major 0x57. -/
noncomputable def decodeMajor57 (d a b f : Nat) : Except DecodeError Instr :=
  code (Width.ofCode? (a / 16)) fun w => need (d == 0) (.pfGl w (a % 16) (Idx.ofCode b) f)

/-- Major 0x58. -/
noncomputable def decodeMajor58 (d a b f : Nat) : Except DecodeError Instr :=
  code (Width.ofCode? (a / 16)) fun w => .ok (.stLn d w (a % 16) (Idx.ofCode b) f)

/-- Major 0x59. -/
noncomputable def decodeMajor59 (d a b f : Nat) : Except DecodeError Instr :=
  code (Width.ofCode? (a / 16)) fun w => .ok (.stSp d w (a % 16) (Idx.ofCode b) f)

/-- Major 0x5A. -/
noncomputable def decodeMajor5A (d a b f : Nat) : Except DecodeError Instr :=
  code (Width.ofCode? (a / 16)) fun w => .ok (.stCl d w (a % 16) (Idx.ofCode b) f)

/-- Major 0x5B. -/
noncomputable def decodeMajor5B (d a b f : Nat) : Except DecodeError Instr :=
  code (Width.ofCode? (a / 16)) fun w => .ok (.stBn d w (a % 16) (Idx.ofCode b) f)

/-- Major 0x5C. -/
noncomputable def decodeMajor5C (d a b f : Nat) : Except DecodeError Instr :=
  code (Width.ofCode? (a / 16)) fun w => .ok (.stGl d w (a % 16) (Idx.ofCode b) f)

/-- Major 0x5D. -/
noncomputable def decodeMajor5D (d a b f : Nat) : Except DecodeError Instr :=
  code (Width.ofCode? (a / 16)) fun w => .ok (.stAc d w (a % 16) (Idx.ofCode b) f)

/-- Major 0x5E. -/
noncomputable def decodeMajor5E (d a b f : Nat) : Except DecodeError Instr :=
  code (Scope.ofCode? (b / 16)) fun s => code (Ordering.ofCode? (b / 4 % 4)) fun o => code (Width.ofCode? (b % 4 + 2)) fun w => .ok (.stGlOrdered d a s o w f)

/-- Major 0x5F. -/
noncomputable def decodeMajor5F (d a b f : Nat) : Except DecodeError Instr :=
  match d with
  | 0 => need (a < 16) (.cctlGlWb (a % 16) (Idx.ofCode b) f)
  | 1 => need (a < 16) (.cctlGlInv (a % 16) (Idx.ofCode b) f)
  | 2 => need (a < 16) (.cctlGlWbinv (a % 16) (Idx.ofCode b) f)
  | _ => .error .reservedFunction

/-- Major 0x60. -/
noncomputable def decodeMajor60 (d a b f : Nat) : Except DecodeError Instr :=
  code (AtomOp.ofCode? (a % 32)) fun o => code (Scope.ofCode? (b / 16)) fun s => code (Ordering.ofCode? (b / 2 % 8)) fun r => need (b % 2 == 0) (.atomSp d (a / 32) o s r f)

/-- Major 0x61. -/
noncomputable def decodeMajor61 (d a b f : Nat) : Except DecodeError Instr :=
  code (AtomOp.ofCode? (a % 32)) fun o => code (Scope.ofCode? (b / 16)) fun s => code (Ordering.ofCode? (b / 2 % 8)) fun r => need (b % 2 == 0) (.atomCl d (a / 32) o s r f)

/-- Major 0x62. -/
noncomputable def decodeMajor62 (d a b f : Nat) : Except DecodeError Instr :=
  code (AtomOp.ofCode? (a % 32)) fun o => code (Scope.ofCode? (b / 16)) fun s => code (Ordering.ofCode? (b / 2 % 8)) fun r => need (b % 2 == 0) (.atomBn d (a / 32) o s r f)

/-- Major 0x63. -/
noncomputable def decodeMajor63 (d a b f : Nat) : Except DecodeError Instr :=
  code (AtomOp.ofCode? (a % 32)) fun o => code (Scope.ofCode? (b / 16)) fun s => code (Ordering.ofCode? (b / 2 % 8)) fun r => need (b % 2 == 0) (.atomGl d (a / 32) o s r f)

/-- Major 0x64. -/
noncomputable def decodeMajor64 (d a b f : Nat) : Except DecodeError Instr :=
  code (Scope.ofCode? a) fun s => code (Ordering.ofCode? f) fun o => need (d == 0 && b == 0) (.fence s o)

/-- Major 0x65. -/
noncomputable def decodeMajor65 (d a b f : Nat) : Except DecodeError Instr :=
  code (Scope.ofCode? a) fun s => need (d == 0 && b == 0 && f == 0) (.icinv s)

/-- Major 0x68. -/
noncomputable def decodeMajor68 (d a b f : Nat) : Except DecodeError Instr :=
  match b with
  | 0 => .ok (.cpy d a f)
  | _ => .error .reservedFunction

/-- Major 0x69. -/
noncomputable def decodeMajor69 (d a b f : Nat) : Except DecodeError Instr :=
  match b with
  | 0 => .ok (.wnw d a f)
  | _ => .error .reservedFunction

/-- Major 0x6A. -/
noncomputable def decodeMajor6A (d a b f : Nat) : Except DecodeError Instr :=
  match b with
  | 0 => .ok (.xchg d a f)
  | _ => .error .reservedFunction

/-- Major 0x6B. -/
noncomputable def decodeMajor6B (d a b f : Nat) : Except DecodeError Instr :=
  code (Width.ofCode? (b + 2)) fun w => .ok (.rst d a w f)

/-- Major 0x70. -/
noncomputable def decodeMajor70 (d a b f : Nat) : Except DecodeError Instr :=
  match f with
  | 0 => if b == 0 then need (a == 0 && b == 0) (.bar d) else need (b == 1) (.barWait d a)
  | 1 => need (b == 0) (.arrive d a)
  | 2 => need (b == 0) (.bexp d a)
  | 3 => need (d == 0 && a == 0 && b == 0) .gate
  | 4 => need (d == 0 && a == 0 && b == 0) .release
  | 5 => need (b == 0) (.twait d a)
  | 6 => need (b % 8 == 0) (.cwait d a (b / 32) (b / 8 % 4))
  | 7 => need (b % 8 == 0) (.cwaitClr d a (b / 32) (b / 8 % 4))
  | 8 => need (d == 0 && a == 0 && b == 0) .nret
  | 9 => need (d == 0 && b == 0) (.shrink a)
  | 10 => .ok (.spfree d a b)
  | _ => .error .reservedFunction

/-- Major 0x71. -/
noncomputable def decodeMajor71 (d a b f : Nat) : Except DecodeError Instr :=
  need (a == 0 && b < 16) (.phase d (b * 16 + f))

/-- Major 0x72. -/
noncomputable def decodeMajor72 (d a b f : Nat) : Except DecodeError Instr :=
  need (a < 32) (.twaitImm d (BitVec.ofNat 16 (a * 2048 + b * 16 + f)))

/-- Major 0x73. -/
noncomputable def decodeMajor73 (d a b f : Nat) : Except DecodeError Instr :=
  need (b < 16) (.fork d a (b * 16 + f))

/-- Major 0x74. -/
noncomputable def decodeMajor74 (d a b f : Nat) : Except DecodeError Instr :=
  match f with
  | 0 => need (b == 0) (.join d a)
  | 1 => need (d == 0) (.rgnw a b)
  | 2 => .ok (.rgnr d a b)
  | _ => .error .reservedFunction

/-- Major 0x78. -/
noncomputable def decodeMajor78 (d a b f : Nat) : Except DecodeError Instr :=
  match b with
  | 0 => .ok (.mmulBf16 (d / 8) (d % 8) a f)
  | 1 => .ok (.mmulF16 (d / 8) (d % 8) a f)
  | 2 => .ok (.mmulE4m3 (d / 8) (d % 8) a f)
  | 3 => .ok (.mmulE5m2 (d / 8) (d % 8) a f)
  | 4 => .ok (.mmbE2m1 (d / 8) (d % 8) a f)
  | 5 => .ok (.msca (d / 8) (d % 8) a f)
  | _ => .error .reservedFunction

/-- Major 0x79. -/
noncomputable def decodeMajor79 (d a b f : Nat) : Except DecodeError Instr :=
  match b with
  | 0 => .ok (.mldwBf16 (d / 8) (d % 8) a f)
  | 1 => .ok (.mldwF16 (d / 8) (d % 8) a f)
  | 2 => .ok (.mldwE4m3 (d / 8) (d % 8) a f)
  | 3 => .ok (.mldwE5m2 (d / 8) (d % 8) a f)
  | 4 => .ok (.mldwE2m1 (d / 8) (d % 8) a f)
  | 8 => need (a == 0) (.mswap (d / 8) (d % 8) f)
  | 16 => need (d == 8) (.mpush a f)
  | _ => .error .reservedFunction

/-- Major 0x7A. -/
noncomputable def decodeMajor7A (d a b f : Nat) : Except DecodeError Instr :=
  match b with
  | 0 => .ok (.mdrainF32 (d / 8) (d % 8) a f)
  | 1 => .ok (.mdrainBf16 (d / 8) (d % 8) a f)
  | 2 => .ok (.mdrainF16 (d / 8) (d % 8) a f)
  | 3 => .ok (.mdrainE4m3 (d / 8) (d % 8) a f)
  | 4 => .ok (.mdrainE5m2 (d / 8) (d % 8) a f)
  | 8 => .ok (.mclr (d / 8) (d % 8) a f)
  | 9 => need (d == 120) (.mstat a f)
  | _ => .error .reservedFunction

/-- Major 0x7C. -/
noncomputable def decodeMajor7C (d a b f : Nat) : Except DecodeError Instr :=
  need (d == 0 && a == 0 && b < 16) (.trap (BitVec.ofNat 8 (b * 16 + f)))

/-- Major 0x7D. -/
noncomputable def decodeMajor7D (d a b f : Nat) : Except DecodeError Instr :=
  match f with
  | 0 => need (d == 0 && a == 0 && b == 0) .tret
  | 1 => need (b == 0) (.lpcRd d a)
  | 2 => need (d == 0) (.lpcWr a b)
  | 3 => need (d == 0) (.spcw a b)
  | _ => .error .reservedFunction

/-- Major 0x7E. -/
noncomputable def decodeMajor7E (d a b f : Nat) : Except DecodeError Instr :=
  match f with
  | 0 => need (d % 32 == 0 && b == 0) (.xlinv (d / 32) a)
  | 1 => .ok (.wpset d a b)
  | _ => .error .reservedFunction

/-- The decoder over the fields of a word: the major alone fixes the meaning of every other field (R251, R261/12). -/
noncomputable def decodeFields (mj d a b f : Nat) : Except DecodeError Instr :=
  match mj with
  | 0 => decodeMajor00 d a b f
  | 1 => decodeMajor01 d a b f
  | 2 => decodeMajor02 d a b f
  | 3 => decodeMajor03 d a b f
  | 4 => decodeMajor04 d a b f
  | 5 => decodeMajor05 d a b f
  | 6 => decodeMajor06 d a b f
  | 7 => decodeMajor07 d a b f
  | 8 => decodeMajor08 d a b f
  | 9 => decodeMajor09 d a b f
  | 10 => decodeMajor0A d a b f
  | 11 => decodeMajor0B d a b f
  | 16 => decodeMajor10 d a b f
  | 17 => decodeMajor11 d a b f
  | 18 => decodeMajor12 d a b f
  | 19 => decodeMajor13 d a b f
  | 20 => decodeMajor14 d a b f
  | 21 => decodeMajor15 d a b f
  | 22 => decodeMajor16 d a b f
  | 23 => decodeMajor17 d a b f
  | 24 => decodeMajor18 d a b f
  | 25 => decodeMajor19 d a b f
  | 26 => decodeMajor1A d a b f
  | 27 => decodeMajor1B d a b f
  | 28 => decodeMajor1C d a b f
  | 29 => decodeMajor1D d a b f
  | 30 => decodeMajor1E d a b f
  | 32 => decodeMajor20 d a b f
  | 33 => decodeMajor21 d a b f
  | 34 => decodeMajor22 d a b f
  | 35 => decodeMajor23 d a b f
  | 36 => decodeMajor24 d a b f
  | 37 => decodeMajor25 d a b f
  | 38 => decodeMajor26 d a b f
  | 39 => decodeMajor27 d a b f
  | 40 => decodeMajor28 d a b f
  | 41 => decodeMajor29 d a b f
  | 42 => decodeMajor2A d a b f
  | 43 => decodeMajor2B d a b f
  | 44 => decodeMajor2C d a b f
  | 45 => decodeMajor2D d a b f
  | 46 => decodeMajor2E d a b f
  | 47 => decodeMajor2F d a b f
  | 48 => decodeMajor30 d a b f
  | 49 => decodeMajor31 d a b f
  | 50 => decodeMajor32 d a b f
  | 51 => decodeMajor33 d a b f
  | 52 => decodeMajor34 d a b f
  | 53 => decodeMajor35 d a b f
  | 54 => decodeMajor36 d a b f
  | 56 => decodeMajor38 d a b f
  | 64 => decodeMajor40 d a b f
  | 65 => decodeMajor41 d a b f
  | 66 => decodeMajor42 d a b f
  | 67 => decodeMajor43 d a b f
  | 68 => decodeMajor44 d a b f
  | 69 => decodeMajor45 d a b f
  | 70 => decodeMajor46 d a b f
  | 71 => decodeMajor47 d a b f
  | 80 => decodeMajor50 d a b f
  | 81 => decodeMajor51 d a b f
  | 82 => decodeMajor52 d a b f
  | 83 => decodeMajor53 d a b f
  | 84 => decodeMajor54 d a b f
  | 85 => decodeMajor55 d a b f
  | 86 => decodeMajor56 d a b f
  | 87 => decodeMajor57 d a b f
  | 88 => decodeMajor58 d a b f
  | 89 => decodeMajor59 d a b f
  | 90 => decodeMajor5A d a b f
  | 91 => decodeMajor5B d a b f
  | 92 => decodeMajor5C d a b f
  | 93 => decodeMajor5D d a b f
  | 94 => decodeMajor5E d a b f
  | 95 => decodeMajor5F d a b f
  | 96 => decodeMajor60 d a b f
  | 97 => decodeMajor61 d a b f
  | 98 => decodeMajor62 d a b f
  | 99 => decodeMajor63 d a b f
  | 100 => decodeMajor64 d a b f
  | 101 => decodeMajor65 d a b f
  | 104 => decodeMajor68 d a b f
  | 105 => decodeMajor69 d a b f
  | 106 => decodeMajor6A d a b f
  | 107 => decodeMajor6B d a b f
  | 112 => decodeMajor70 d a b f
  | 113 => decodeMajor71 d a b f
  | 114 => decodeMajor72 d a b f
  | 115 => decodeMajor73 d a b f
  | 116 => decodeMajor74 d a b f
  | 120 => decodeMajor78 d a b f
  | 121 => decodeMajor79 d a b f
  | 122 => decodeMajor7A d a b f
  | 124 => decodeMajor7C d a b f
  | 125 => decodeMajor7D d a b f
  | 126 => decodeMajor7E d a b f
  | _ => .error .reservedMajor

/-- The decoder over the fields, with the specifier and field ranges of R253 and R254 checked. -/
noncomputable def decodeChecked (mj d a b f : Nat) : Except DecodeError Instr :=
  match decodeFields mj d a b f with
  | .ok i => if i.wellFormed then .ok i else .error .outOfRange
  | .error e => .error e

/-- The decoder over a word read as a number: fields [31:25], [24:18], [17:11], [10:4] and [3:0] (R251/12). -/
noncomputable def decodeNat (w : Nat) : Except DecodeError Instr :=
  if w = 0 ∨ w = 4294967295 then .error .reservedWord
  else decodeChecked (w / 33554432 % 128) (w / 262144 % 128) (w / 2048 % 128) (w / 16 % 128) (w % 16)

/-- The decoder: total on every word, an illegal one rejected by name (R253/12). -/
noncomputable def decode (w : Word) : Except DecodeError Instr := decodeNat w.toNat

/-- A word from its four bytes, little-endian (R6/00). -/
def wordOfBytes : List Byte → Option Word
  | b0 :: b1 :: b2 :: b3 :: _ => some (b3 ++ b2 ++ b1 ++ b0)
  | _ => none

/-- The four bytes of a word, the lowest address first (R6/00). -/
def bytesOfWord (w : Word) : List Byte :=
  [w.extractLsb' 0 8, w.extractLsb' 8 8, w.extractLsb' 16 8, w.extractLsb' 24 8]

/-- The decoder on the bytes at an instruction's address. -/
noncomputable def decodeBytes (bs : List Byte) : Except DecodeError Instr :=
  match wordOfBytes bs with
  | some w => decode w
  | none => .error .outOfRange


/-- The fields of an instruction's word: major, d, a, b, f (R251 to R265/12). Events have no word. -/
def Instr.fields : Instr → Option (Nat × Nat × Nat × Nat × Nat)
  | .sadd d a b => some (0, d, a, b, 0)
  | .ssub d a b => some (0, d, a, b, 1)
  | .smul d a b => some (0, d, a, b, 2)
  | .smulhI64 d a b => some (0, d, a, b, 3)
  | .smulhN64 d a b => some (0, d, a, b, 4)
  | .sand d a b => some (0, d, a, b, 5)
  | .sor d a b => some (0, d, a, b, 6)
  | .sxor d a b => some (0, d, a, b, 7)
  | .sshl d a b => some (0, d, a, b, 8)
  | .sshrN64 d a b => some (0, d, a, b, 9)
  | .sshrI64 d a b => some (0, d, a, b, 10)
  | .sminI64 d a b => some (0, d, a, b, 11)
  | .sminN64 d a b => some (0, d, a, b, 12)
  | .smaxI64 d a b => some (0, d, a, b, 13)
  | .smaxN64 d a b => some (0, d, a, b, 14)
  | .sdivI64 d a b => some (1, d, a, b, 0)
  | .sdivN64 d a b => some (1, d, a, b, 1)
  | .sremI64 d a b => some (1, d, a, b, 2)
  | .sremN64 d a b => some (1, d, a, b, 3)
  | .sseq d a b => some (1, d, a, b, 4)
  | .ssne d a b => some (1, d, a, b, 5)
  | .ssltI64 d a b => some (1, d, a, b, 6)
  | .ssltN64 d a b => some (1, d, a, b, 7)
  | .ssleI64 d a b => some (1, d, a, b, 8)
  | .ssleN64 d a b => some (1, d, a, b, 9)
  | .spopc d a => some (1, d, a, 0, 10)
  | .sclz d a => some (1, d, a, 0, 11)
  | .sctz d a => some (1, d, a, 0, 12)
  | .sbrev d a => some (1, d, a, 0, 13)
  | .smov d a => some (1, d, a, 0, 14)
  | .saddi d a i => some (2, d, a, i.toNat / 16, i.toNat % 16)
  | .sandi d a i => some (3, d, a, i.toNat / 16, i.toNat % 16)
  | .sori d a i => some (4, d, a, i.toNat / 16, i.toNat % 16)
  | .sxori d a i => some (5, d, a, i.toNat / 16, i.toNat % 16)
  | .sshli d a i => some (6, d, a, i.toNat / 16, i.toNat % 16)
  | .sshriN64 d a i => some (7, d, a, i.toNat / 16, i.toNat % 16)
  | .sshriI64 d a i => some (8, d, a, i.toNat / 16, i.toNat % 16)
  | .ssltiI64 d a i => some (9, d, a, i.toNat / 16, i.toNat % 16)
  | .ssltiN64 d a i => some (10, d, a, i.toNat / 16, i.toNat % 16)
  | .smuli d a i => some (11, d, a, i.toNat / 16, i.toNat % 16)
  | .nop => some (16, 0, 0, 0, 0)
  | .exit => some (16, 0, 0, 0, 1)
  | .yield => some (16, 0, 0, 0, 2)
  | .ret a => some (16, 0, a, 0, 3)
  | .brk => some (16, 0, 0, 0, 4)
  | .bra o => some (17, 0, o.toNat / 2048, o.toNat / 16 % 128, o.toNat % 16)
  | .bnz c o => some (18, c, o.toNat / 2048, o.toNat / 16 % 128, o.toNat % 16)
  | .bz c o => some (19, c, o.toNat / 2048, o.toNat / 16 % 128, o.toNat % 16)
  | .bnzv c o => some (20, c, o.toNat / 2048, o.toNat / 16 % 128, o.toNat % 16)
  | .bzv c o => some (21, c, o.toNat / 2048, o.toNat / 16 % 128, o.toNat % 16)
  | .call c o => some (22, c, o.toNat / 2048, o.toNat / 16 % 128, o.toNat % 16)
  | .loop d v k n => some (23, d, (cond v 64 0) + k * 16, n / 16, n % 16)
  | .li d i => some (24, d, i.toNat / 2048, i.toNat / 16 % 128, i.toNat % 16)
  | .sli d i => some (25, d, i.toNat / 2048, i.toNat / 16 % 128, i.toNat % 16)
  | .vli d i => some (26, d, i.toNat / 2048, i.toNat / 16 % 128, i.toNat % 16)
  | .addaX1 d a b => some (27, d, a, b, 0)
  | .addaX2 d a b => some (27, d, a, b, 1)
  | .addaX4 d a b => some (27, d, a, b, 2)
  | .addaX8 d a b => some (27, d, a, b, 3)
  | .addaX16 d a b => some (27, d, a, b, 4)
  | .addaV d a b => some (27, d, a, b, 5)
  | .wbase i => some (28, 0, i.toNat / 2048, i.toNat / 16 % 128, i.toNat % 16)
  | .wshift i => some (29, 0, 0, i.toNat / 16, i.toNat % 16)
  | .vmov d a => some (30, d, a, 0, 0)
  | .vbcast d a => some (30, d, a, 0, 1)
  | .vbcast64 d a => some (30, d, a, 0, 2)
  | .vget d a b => some (30, d, a, b, 3)
  | .vput d a b => some (30, d, a, b, 4)
  | .addI32Vv d a b => some (32, d, a, b, 0)
  | .subI32Vv d a b => some (32, d, a, b, 1)
  | .mulI32Vv d a b => some (32, d, a, b, 2)
  | .mulhI32Vv d a b => some (32, d, a, b, 3)
  | .mulhN32Vv d a b => some (32, d, a, b, 4)
  | .minI32Vv d a b => some (32, d, a, b, 5)
  | .minN32Vv d a b => some (32, d, a, b, 6)
  | .maxI32Vv d a b => some (32, d, a, b, 7)
  | .maxN32Vv d a b => some (32, d, a, b, 8)
  | .andB32Vv d a b => some (32, d, a, b, 9)
  | .orB32Vv d a b => some (32, d, a, b, 10)
  | .xorB32Vv d a b => some (32, d, a, b, 11)
  | .shlB32Vv d a b => some (32, d, a, b, 12)
  | .shrN32Vv d a b => some (32, d, a, b, 13)
  | .shrI32Vv d a b => some (32, d, a, b, 14)
  | .addsI32Vv d a b => some (32, d, a, b, 15)
  | .addI32Vs d a b => some (33, d, a, b, 0)
  | .subI32Vs d a b => some (33, d, a, b, 1)
  | .mulI32Vs d a b => some (33, d, a, b, 2)
  | .mulhI32Vs d a b => some (33, d, a, b, 3)
  | .mulhN32Vs d a b => some (33, d, a, b, 4)
  | .minI32Vs d a b => some (33, d, a, b, 5)
  | .minN32Vs d a b => some (33, d, a, b, 6)
  | .maxI32Vs d a b => some (33, d, a, b, 7)
  | .maxN32Vs d a b => some (33, d, a, b, 8)
  | .andB32Vs d a b => some (33, d, a, b, 9)
  | .orB32Vs d a b => some (33, d, a, b, 10)
  | .xorB32Vs d a b => some (33, d, a, b, 11)
  | .shlB32Vs d a b => some (33, d, a, b, 12)
  | .shrN32Vs d a b => some (33, d, a, b, 13)
  | .shrI32Vs d a b => some (33, d, a, b, 14)
  | .addsI32Vs d a b => some (33, d, a, b, 15)
  | .addI64Vv d a b => some (34, d, a, b, 0)
  | .subI64Vv d a b => some (34, d, a, b, 1)
  | .mulI64Vv d a b => some (34, d, a, b, 2)
  | .mulhI64Vv d a b => some (34, d, a, b, 3)
  | .mulhN64Vv d a b => some (34, d, a, b, 4)
  | .minI64Vv d a b => some (34, d, a, b, 5)
  | .minN64Vv d a b => some (34, d, a, b, 6)
  | .maxI64Vv d a b => some (34, d, a, b, 7)
  | .maxN64Vv d a b => some (34, d, a, b, 8)
  | .andB64Vv d a b => some (34, d, a, b, 9)
  | .orB64Vv d a b => some (34, d, a, b, 10)
  | .xorB64Vv d a b => some (34, d, a, b, 11)
  | .shlB64Vv d a b => some (34, d, a, b, 12)
  | .shrN64Vv d a b => some (34, d, a, b, 13)
  | .shrI64Vv d a b => some (34, d, a, b, 14)
  | .addsI64Vv d a b => some (34, d, a, b, 15)
  | .addI64Vs d a b => some (35, d, a, b, 0)
  | .subI64Vs d a b => some (35, d, a, b, 1)
  | .mulI64Vs d a b => some (35, d, a, b, 2)
  | .mulhI64Vs d a b => some (35, d, a, b, 3)
  | .mulhN64Vs d a b => some (35, d, a, b, 4)
  | .minI64Vs d a b => some (35, d, a, b, 5)
  | .minN64Vs d a b => some (35, d, a, b, 6)
  | .maxI64Vs d a b => some (35, d, a, b, 7)
  | .maxN64Vs d a b => some (35, d, a, b, 8)
  | .andB64Vs d a b => some (35, d, a, b, 9)
  | .orB64Vs d a b => some (35, d, a, b, 10)
  | .xorB64Vs d a b => some (35, d, a, b, 11)
  | .shlB64Vs d a b => some (35, d, a, b, 12)
  | .shrN64Vs d a b => some (35, d, a, b, 13)
  | .shrI64Vs d a b => some (35, d, a, b, 14)
  | .addsI64Vs d a b => some (35, d, a, b, 15)
  | .addF16Vv d a b => some (36, d, a, b, 0)
  | .subF16Vv d a b => some (36, d, a, b, 1)
  | .mulF16Vv d a b => some (36, d, a, b, 2)
  | .divF16Vv d a b => some (36, d, a, b, 3)
  | .minF16Vv d a b => some (36, d, a, b, 4)
  | .maxF16Vv d a b => some (36, d, a, b, 5)
  | .fmaF16Vv d a b => some (36, d, a, b, 6)
  | .fmsF16Vv d a b => some (36, d, a, b, 7)
  | .fnmaF16Vv d a b => some (36, d, a, b, 8)
  | .copysignF16Vv d a b => some (36, d, a, b, 9)
  | .addF16Vs d a b => some (37, d, a, b, 0)
  | .subF16Vs d a b => some (37, d, a, b, 1)
  | .mulF16Vs d a b => some (37, d, a, b, 2)
  | .divF16Vs d a b => some (37, d, a, b, 3)
  | .minF16Vs d a b => some (37, d, a, b, 4)
  | .maxF16Vs d a b => some (37, d, a, b, 5)
  | .fmaF16Vs d a b => some (37, d, a, b, 6)
  | .fmsF16Vs d a b => some (37, d, a, b, 7)
  | .fnmaF16Vs d a b => some (37, d, a, b, 8)
  | .copysignF16Vs d a b => some (37, d, a, b, 9)
  | .addF32Vv d a b => some (38, d, a, b, 0)
  | .subF32Vv d a b => some (38, d, a, b, 1)
  | .mulF32Vv d a b => some (38, d, a, b, 2)
  | .divF32Vv d a b => some (38, d, a, b, 3)
  | .minF32Vv d a b => some (38, d, a, b, 4)
  | .maxF32Vv d a b => some (38, d, a, b, 5)
  | .fmaF32Vv d a b => some (38, d, a, b, 6)
  | .fmsF32Vv d a b => some (38, d, a, b, 7)
  | .fnmaF32Vv d a b => some (38, d, a, b, 8)
  | .copysignF32Vv d a b => some (38, d, a, b, 9)
  | .addF32Vs d a b => some (39, d, a, b, 0)
  | .subF32Vs d a b => some (39, d, a, b, 1)
  | .mulF32Vs d a b => some (39, d, a, b, 2)
  | .divF32Vs d a b => some (39, d, a, b, 3)
  | .minF32Vs d a b => some (39, d, a, b, 4)
  | .maxF32Vs d a b => some (39, d, a, b, 5)
  | .fmaF32Vs d a b => some (39, d, a, b, 6)
  | .fmsF32Vs d a b => some (39, d, a, b, 7)
  | .fnmaF32Vs d a b => some (39, d, a, b, 8)
  | .copysignF32Vs d a b => some (39, d, a, b, 9)
  | .addBf16Vv d a b => some (40, d, a, b, 0)
  | .subBf16Vv d a b => some (40, d, a, b, 1)
  | .mulBf16Vv d a b => some (40, d, a, b, 2)
  | .divBf16Vv d a b => some (40, d, a, b, 3)
  | .minBf16Vv d a b => some (40, d, a, b, 4)
  | .maxBf16Vv d a b => some (40, d, a, b, 5)
  | .fmaBf16Vv d a b => some (40, d, a, b, 6)
  | .fmsBf16Vv d a b => some (40, d, a, b, 7)
  | .fnmaBf16Vv d a b => some (40, d, a, b, 8)
  | .copysignBf16Vv d a b => some (40, d, a, b, 9)
  | .addBf16Vs d a b => some (41, d, a, b, 0)
  | .subBf16Vs d a b => some (41, d, a, b, 1)
  | .mulBf16Vs d a b => some (41, d, a, b, 2)
  | .divBf16Vs d a b => some (41, d, a, b, 3)
  | .minBf16Vs d a b => some (41, d, a, b, 4)
  | .maxBf16Vs d a b => some (41, d, a, b, 5)
  | .fmaBf16Vs d a b => some (41, d, a, b, 6)
  | .fmsBf16Vs d a b => some (41, d, a, b, 7)
  | .fnmaBf16Vs d a b => some (41, d, a, b, 8)
  | .copysignBf16Vs d a b => some (41, d, a, b, 9)
  | .addF64Vv d a b => some (42, d, a, b, 0)
  | .subF64Vv d a b => some (42, d, a, b, 1)
  | .mulF64Vv d a b => some (42, d, a, b, 2)
  | .divF64Vv d a b => some (42, d, a, b, 3)
  | .minF64Vv d a b => some (42, d, a, b, 4)
  | .maxF64Vv d a b => some (42, d, a, b, 5)
  | .fmaF64Vv d a b => some (42, d, a, b, 6)
  | .fmsF64Vv d a b => some (42, d, a, b, 7)
  | .fnmaF64Vv d a b => some (42, d, a, b, 8)
  | .copysignF64Vv d a b => some (42, d, a, b, 9)
  | .addF64Vs d a b => some (43, d, a, b, 0)
  | .subF64Vs d a b => some (43, d, a, b, 1)
  | .mulF64Vs d a b => some (43, d, a, b, 2)
  | .divF64Vs d a b => some (43, d, a, b, 3)
  | .minF64Vs d a b => some (43, d, a, b, 4)
  | .maxF64Vs d a b => some (43, d, a, b, 5)
  | .fmaF64Vs d a b => some (43, d, a, b, 6)
  | .fmsF64Vs d a b => some (43, d, a, b, 7)
  | .fnmaF64Vs d a b => some (43, d, a, b, 8)
  | .copysignF64Vs d a b => some (43, d, a, b, 9)
  | .divI32Vv d a b => some (44, d, a, b, 0)
  | .divN32Vv d a b => some (44, d, a, b, 1)
  | .remI32Vv d a b => some (44, d, a, b, 2)
  | .remN32Vv d a b => some (44, d, a, b, 3)
  | .divI64Vv d a b => some (44, d, a, b, 4)
  | .divN64Vv d a b => some (44, d, a, b, 5)
  | .remI64Vv d a b => some (44, d, a, b, 6)
  | .remN64Vv d a b => some (44, d, a, b, 7)
  | .divI32Vs d a b => some (45, d, a, b, 0)
  | .divN32Vs d a b => some (45, d, a, b, 1)
  | .remI32Vs d a b => some (45, d, a, b, 2)
  | .remN32Vs d a b => some (45, d, a, b, 3)
  | .divI64Vs d a b => some (45, d, a, b, 4)
  | .divN64Vs d a b => some (45, d, a, b, 5)
  | .remI64Vs d a b => some (45, d, a, b, 6)
  | .remN64Vs d a b => some (45, d, a, b, 7)
  | .ceqF32Vv d a b => some (46, d, a, b, 0)
  | .cltF32Vv d a b => some (46, d, a, b, 1)
  | .cleF32Vv d a b => some (46, d, a, b, 2)
  | .cunF32Vv d a b => some (46, d, a, b, 3)
  | .ceqB32Vv d a b => some (46, d, a, b, 4)
  | .cltI32Vv d a b => some (46, d, a, b, 5)
  | .cleI32Vv d a b => some (46, d, a, b, 6)
  | .cltN32Vv d a b => some (46, d, a, b, 7)
  | .cleN32Vv d a b => some (46, d, a, b, 8)
  | .ceqF16Vv d a b => some (46, d, a, b, 9)
  | .cltF16Vv d a b => some (46, d, a, b, 10)
  | .cleF16Vv d a b => some (46, d, a, b, 11)
  | .cunF16Vv d a b => some (46, d, a, b, 12)
  | .ceqBf16Vv d a b => some (46, d, a, b, 13)
  | .cltBf16Vv d a b => some (46, d, a, b, 14)
  | .cleBf16Vv d a b => some (46, d, a, b, 15)
  | .ceqF32Vs d a b => some (47, d, a, b, 0)
  | .cltF32Vs d a b => some (47, d, a, b, 1)
  | .cleF32Vs d a b => some (47, d, a, b, 2)
  | .cunF32Vs d a b => some (47, d, a, b, 3)
  | .ceqB32Vs d a b => some (47, d, a, b, 4)
  | .cltI32Vs d a b => some (47, d, a, b, 5)
  | .cleI32Vs d a b => some (47, d, a, b, 6)
  | .cltN32Vs d a b => some (47, d, a, b, 7)
  | .cleN32Vs d a b => some (47, d, a, b, 8)
  | .ceqF16Vs d a b => some (47, d, a, b, 9)
  | .cltF16Vs d a b => some (47, d, a, b, 10)
  | .cleF16Vs d a b => some (47, d, a, b, 11)
  | .cunF16Vs d a b => some (47, d, a, b, 12)
  | .ceqBf16Vs d a b => some (47, d, a, b, 13)
  | .cltBf16Vs d a b => some (47, d, a, b, 14)
  | .cleBf16Vs d a b => some (47, d, a, b, 15)
  | .ceqF64Vv d a b => some (48, d, a, b, 0)
  | .cltF64Vv d a b => some (48, d, a, b, 1)
  | .cleF64Vv d a b => some (48, d, a, b, 2)
  | .cunF64Vv d a b => some (48, d, a, b, 3)
  | .ceqB64Vv d a b => some (48, d, a, b, 4)
  | .cltI64Vv d a b => some (48, d, a, b, 5)
  | .cleI64Vv d a b => some (48, d, a, b, 6)
  | .cltN64Vv d a b => some (48, d, a, b, 7)
  | .cleN64Vv d a b => some (48, d, a, b, 8)
  | .ceqF64Vs d a b => some (49, d, a, b, 0)
  | .cltF64Vs d a b => some (49, d, a, b, 1)
  | .cleF64Vs d a b => some (49, d, a, b, 2)
  | .cunF64Vs d a b => some (49, d, a, b, 3)
  | .ceqB64Vs d a b => some (49, d, a, b, 4)
  | .cltI64Vs d a b => some (49, d, a, b, 5)
  | .cleI64Vs d a b => some (49, d, a, b, 6)
  | .cltN64Vs d a b => some (49, d, a, b, 7)
  | .cleN64Vs d a b => some (49, d, a, b, 8)
  | .selB32Vv d a b p => some (50, d, a, b, p)
  | .selB64Vv d a b p => some (50, d, a, b, p + 8)
  | .selB32Vs d a b p => some (51, d, a, b, p)
  | .selB64Vs d a b p => some (51, d, a, b, p + 8)
  | .rcpF32V d a l => some (52, d, a, 0, l)
  | .rsqrtF32V d a l => some (52, d, a, 1, l)
  | .sqrtF32V d a l => some (52, d, a, 2, l)
  | .exp2F32V d a l => some (52, d, a, 3, l)
  | .log2F32V d a l => some (52, d, a, 4, l)
  | .sinF32V d a l => some (52, d, a, 5, l)
  | .cosF32V d a l => some (52, d, a, 6, l)
  | .tanhF32V d a l => some (52, d, a, 7, l)
  | .rcpF32S d a l => some (53, d, a, 0, l)
  | .rsqrtF32S d a l => some (53, d, a, 1, l)
  | .sqrtF32S d a l => some (53, d, a, 2, l)
  | .exp2F32S d a l => some (53, d, a, 3, l)
  | .log2F32S d a l => some (53, d, a, 4, l)
  | .sinF32S d a l => some (53, d, a, 5, l)
  | .cosF32S d a l => some (53, d, a, 6, l)
  | .tanhF32S d a l => some (53, d, a, 7, l)
  | .popcB32 d a => some (54, d, a, 0, 0)
  | .clzB32 d a => some (54, d, a, 0, 1)
  | .ctzB32 d a => some (54, d, a, 0, 2)
  | .brevB32 d a => some (54, d, a, 0, 3)
  | .notB32 d a => some (54, d, a, 0, 4)
  | .negI32 d a => some (54, d, a, 0, 5)
  | .absI32 d a => some (54, d, a, 0, 6)
  | .popcB64 d a => some (54, d, a, 0, 8)
  | .clzB64 d a => some (54, d, a, 0, 9)
  | .ctzB64 d a => some (54, d, a, 0, 10)
  | .brevB64 d a => some (54, d, a, 0, 11)
  | .notB64 d a => some (54, d, a, 0, 12)
  | .negI64 d a => some (54, d, a, 0, 13)
  | .absI64 d a => some (54, d, a, 0, 14)
  | .absF32 d a => some (56, d, a, 0, 0)
  | .negF32 d a => some (56, d, a, 0, 1)
  | .rintF32 d a => some (56, d, a, 0, 2)
  | .floorF32 d a => some (56, d, a, 0, 3)
  | .ceilF32 d a => some (56, d, a, 0, 4)
  | .truncF32 d a => some (56, d, a, 0, 5)
  | .absF16 d a => some (56, d, a, 0, 6)
  | .negF16 d a => some (56, d, a, 0, 7)
  | .absBf16 d a => some (56, d, a, 0, 8)
  | .negBf16 d a => some (56, d, a, 0, 9)
  | .absF64 d a => some (56, d, a, 0, 10)
  | .negF64 d a => some (56, d, a, 0, 11)
  | .cvt d a s r t => some (64, d, a, s.code * 8 + r.code, t.code)
  | .pkE2m1 d a b => some (65, d, a, b, 0)
  | .upkE2m1 d a b => some (65, d, a, b, 1)
  | .scaccF32 d a b => some (65, d, a, b, 2)
  | .shflIdx d a b m => some (66, d, a, b, m * 4 + 0)
  | .shflUp d a b m => some (66, d, a, b, m * 4 + 1)
  | .shflDown d a b m => some (66, d, a, b, m * 4 + 2)
  | .shflXor d a b m => some (66, d, a, b, m * 4 + 3)
  | .voteAny d a m => some (67, d, a, 0, m * 4 + 0)
  | .voteAll d a m => some (67, d, a, 0, m * 4 + 1)
  | .voteEq d a m => some (67, d, a, 0, m * 4 + 2)
  | .voteBallot d a m => some (67, d, a, 0, m * 4 + 3)
  | .lredAddF32 d a => some (68, d, a, 0, 0)
  | .lredMaxF32 d a => some (68, d, a, 0, 1)
  | .lredMinF32 d a => some (68, d, a, 0, 2)
  | .lredAddI32 d a => some (68, d, a, 0, 3)
  | .lredMaxI32 d a => some (68, d, a, 0, 4)
  | .lredMinI32 d a => some (68, d, a, 0, 5)
  | .lredMaxN32 d a => some (68, d, a, 0, 6)
  | .lredMinN32 d a => some (68, d, a, 0, 7)
  | .lredAddF16 d a => some (68, d, a, 0, 8)
  | .lredMaxF16 d a => some (68, d, a, 0, 9)
  | .lredMinF16 d a => some (68, d, a, 0, 10)
  | .lredAddBf16 d a => some (68, d, a, 0, 11)
  | .lredAndB32 d a => some (68, d, a, 0, 12)
  | .lredOrB32 d a => some (68, d, a, 0, 13)
  | .lredXorB32 d a => some (68, d, a, 0, 14)
  | .tredAddF32 d a l => some (69, d, a, 0, l)
  | .tredMaxF32 d a l => some (69, d, a, 1, l)
  | .tredMinF32 d a l => some (69, d, a, 2, l)
  | .tredAddI32 d a l => some (69, d, a, 3, l)
  | .tredMaxI32 d a l => some (69, d, a, 4, l)
  | .tredMinI32 d a l => some (69, d, a, 5, l)
  | .tredMaxN32 d a l => some (69, d, a, 6, l)
  | .tredMinN32 d a l => some (69, d, a, 7, l)
  | .tredAddF16 d a l => some (69, d, a, 8, l)
  | .tredMaxF16 d a l => some (69, d, a, 9, l)
  | .tredMinF16 d a l => some (69, d, a, 10, l)
  | .tredAddBf16 d a l => some (69, d, a, 11, l)
  | .tredAndB32 d a l => some (69, d, a, 12, l)
  | .tredOrB32 d a l => some (69, d, a, 13, l)
  | .tredXorB32 d a l => some (69, d, a, 14, l)
  | .scanAddF32 d a => some (70, d, a, 0, 0)
  | .scanMaxF32 d a => some (70, d, a, 0, 1)
  | .scanMinF32 d a => some (70, d, a, 0, 2)
  | .scanAddI32 d a => some (70, d, a, 0, 3)
  | .scanMaxI32 d a => some (70, d, a, 0, 4)
  | .scanMinI32 d a => some (70, d, a, 0, 5)
  | .scanMaxN32 d a => some (70, d, a, 0, 6)
  | .scanMinN32 d a => some (70, d, a, 0, 7)
  | .scanxAddF32 d a => some (70, d, a, 0, 8)
  | .scanxMaxF32 d a => some (70, d, a, 0, 9)
  | .scanxMinF32 d a => some (70, d, a, 0, 10)
  | .scanxAddI32 d a => some (70, d, a, 0, 11)
  | .scanxMaxI32 d a => some (70, d, a, 0, 12)
  | .scanxMinI32 d a => some (70, d, a, 0, 13)
  | .scanxMaxN32 d a => some (70, d, a, 0, 14)
  | .scanxMinN32 d a => some (70, d, a, 0, 15)
  | .pand d a b => some (71, d, a, b, 0)
  | .por d a b => some (71, d, a, b, 1)
  | .pxor d a b => some (71, d, a, b, 2)
  | .pnot d a => some (71, d, a, 0, 3)
  | .pfroms d a => some (71, d, a, 0, 4)
  | .stop d a => some (71, d, a, 0, 5)
  | .pall d => some (71, d, 0, 0, 6)
  | .pnone d => some (71, d, 0, 0, 7)
  | .ldLn d w b x l => some (80, d, w.code * 16 + b, x.code, l)
  | .ldSp d w b x l => some (81, d, w.code * 16 + b, x.code, l)
  | .ldCl d w b x l => some (82, d, w.code * 16 + b, x.code, l)
  | .ldBn d w b x l => some (83, d, w.code * 16 + b, x.code, l)
  | .ldGl d w b x l => some (84, d, w.code * 16 + b, x.code, l)
  | .ldAc d w b x l => some (85, d, w.code * 16 + b, x.code, l)
  | .ldGlOrdered d a s o w l => some (86, d, a, s.code * 16 + o.code * 4 + (w.code - 2), l)
  | .pfGl w b x l => some (87, 0, w.code * 16 + b, x.code, l)
  | .stLn d w b x l => some (88, d, w.code * 16 + b, x.code, l)
  | .stSp d w b x l => some (89, d, w.code * 16 + b, x.code, l)
  | .stCl d w b x l => some (90, d, w.code * 16 + b, x.code, l)
  | .stBn d w b x l => some (91, d, w.code * 16 + b, x.code, l)
  | .stGl d w b x l => some (92, d, w.code * 16 + b, x.code, l)
  | .stAc d w b x l => some (93, d, w.code * 16 + b, x.code, l)
  | .stGlOrdered d a s o w l => some (94, d, a, s.code * 16 + o.code * 4 + (w.code - 2), l)
  | .cctlGlWb b x l => some (95, 0, b, x.code, l)
  | .cctlGlInv b x l => some (95, 1, b, x.code, l)
  | .cctlGlWbinv b x l => some (95, 2, b, x.code, l)
  | .atomSp d t o s r l => some (96, d, t * 32 + o.code, s.code * 16 + r.code * 2, l)
  | .atomCl d t o s r l => some (97, d, t * 32 + o.code, s.code * 16 + r.code * 2, l)
  | .atomBn d t o s r l => some (98, d, t * 32 + o.code, s.code * 16 + r.code * 2, l)
  | .atomGl d t o s r l => some (99, d, t * 32 + o.code, s.code * 16 + r.code * 2, l)
  | .fence s o => some (100, 0, s.code, 0, o.code)
  | .icinv s => some (101, 0, s.code, 0, 0)
  | .cpy d a l => some (104, d, a, 0, l)
  | .wnw d a l => some (105, d, a, 0, l)
  | .xchg d a l => some (106, d, a, 0, l)
  | .rst d a w l => some (107, d, a, w.code - 2, l)
  | .bar d => some (112, d, 0, 0, 0)
  | .barWait d a => some (112, d, a, 1, 0)
  | .arrive d a => some (112, d, a, 0, 1)
  | .bexp d a => some (112, d, a, 0, 2)
  | .gate => some (112, 0, 0, 0, 3)
  | .release => some (112, 0, 0, 0, 4)
  | .twait d a => some (112, d, a, 0, 5)
  | .cwait d a q s => some (112, d, a, q * 32 + s * 8, 6)
  | .cwaitClr d a q s => some (112, d, a, q * 32 + s * 8, 7)
  | .nret => some (112, 0, 0, 0, 8)
  | .shrink a => some (112, 0, a, 0, 9)
  | .spfree d a b => some (112, d, a, b, 10)
  | .phase d c => some (113, d, 0, c / 16, c % 16)
  | .twaitImm d i => some (114, d, i.toNat / 2048, i.toNat / 16 % 128, i.toNat % 16)
  | .fork d a c => some (115, d, a, c / 16, c % 16)
  | .join d a => some (116, d, a, 0, 0)
  | .rgnw a b => some (116, 0, a, b, 1)
  | .rgnr d a b => some (116, d, a, b, 2)
  | .mmulBf16 q t a l => some (120, q * 8 + t, a, 0, l)
  | .mmulF16 q t a l => some (120, q * 8 + t, a, 1, l)
  | .mmulE4m3 q t a l => some (120, q * 8 + t, a, 2, l)
  | .mmulE5m2 q t a l => some (120, q * 8 + t, a, 3, l)
  | .mmbE2m1 q t a l => some (120, q * 8 + t, a, 4, l)
  | .msca q t a l => some (120, q * 8 + t, a, 5, l)
  | .mldwBf16 q t a l => some (121, q * 8 + t, a, 0, l)
  | .mldwF16 q t a l => some (121, q * 8 + t, a, 1, l)
  | .mldwE4m3 q t a l => some (121, q * 8 + t, a, 2, l)
  | .mldwE5m2 q t a l => some (121, q * 8 + t, a, 3, l)
  | .mldwE2m1 q t a l => some (121, q * 8 + t, a, 4, l)
  | .mswap q t l => some (121, q * 8 + t, 0, 8, l)
  | .mpush a l => some (121, 8, a, 16, l)
  | .mdrainF32 q t a l => some (122, q * 8 + t, a, 0, l)
  | .mdrainBf16 q t a l => some (122, q * 8 + t, a, 1, l)
  | .mdrainF16 q t a l => some (122, q * 8 + t, a, 2, l)
  | .mdrainE4m3 q t a l => some (122, q * 8 + t, a, 3, l)
  | .mdrainE5m2 q t a l => some (122, q * 8 + t, a, 4, l)
  | .mclr q t a l => some (122, q * 8 + t, a, 8, l)
  | .mstat a l => some (122, 120, a, 9, l)
  | .trap i => some (124, 0, 0, i.toNat / 16, i.toNat % 16)
  | .tret => some (125, 0, 0, 0, 0)
  | .lpcRd d a => some (125, d, a, 0, 1)
  | .lpcWr a b => some (125, 0, a, b, 2)
  | .spcw a b => some (125, 0, a, b, 3)
  | .xlinv k a => some (126, k * 32, a, 0, 0)
  | .wpset d a b => some (126, d, a, b, 1)
  | .moduleReset => none
  | .firmwareBundleVerification _ _ _ => none
  | .bringUpMemory _ _ => none
  | .bringUpPower _ _ => none
  | .bringUpFabric _ _ => none
  | .bringUpQueues _ _ => none
  | .spdmMeasurementRequest _ => none
  | .physicalSubmissionRegisterWrite _ => none
  | .allowListEntryWrite _ _ _ => none
  | .rampTableWrite _ _ _ => none
  | .pooledMemoryDecoderWrite _ _ => none
  | .registerWrite _ _ => none
  | .noOperation _ => none
  | .launch _ => none
  | .engineJobCard _ => none
  | .signalEventWord _ => none
  | .waitEventWord _ => none
  | .eventWordWaitSatisfied _ => none
  | .reclaimRequest _ => none
  | .parkContext _ => none
  | .resumeContext _ => none
  | .translationInvalidation _ => none
  | .launchDispatch => none
  | .launchRetirement _ => none
  | .sheafMadeResident _ _ _ _ => none
  | .carveOutChange _ _ => none
  | .fairnessPeriodExpiry _ => none
  | .starvingSheaf _ => none
  | .foldQuantumExpiry _ _ _ => none
  | .taskTake _ _ => none
  | .taskSteal _ _ => none
  | .phaseResume _ _ => none
  | .loadDataArrival _ _ => none
  | .loadFaultMappingMade _ _ => none
  | .loadFaultWaitTimeout _ _ => none
  | .collstallTimeout _ => none
  | .noticeTrap _ => none
  | .forcedSqueeze _ _ => none
  | .squeezeCompletion _ _ => none
  | .expansionStep _ _ => none
  | .scratchPageMove _ _ => none
  | .matrixCommandStart _ _ => none
  | .rampGovernorStep _ => none
  | .ringSlotWaitEnd _ _ => none
  | .matrixQuiescentStop _ _ => none
  | .matrixCommandResume _ _ => none
  | .matrixCommandCompletion _ _ => none
  | .matrixFifoPostResume _ => none
  | .engineQueuePostResume _ => none
  | .jobStart _ => none
  | .copyChunkLanding _ _ => none
  | .jobCompletion _ => none
  | .engineXlate2Timeout _ => none
  | .exchangeStreamArrival _ => none
  | .exchangeHeaderAdmission => none
  | .exchangeDeadlineExpiry _ => none
  | .mergeLineAction _ => none
  | .joinCompletion _ => none
  | .sequencerTicket => none
  | .remoteStoreAcknowledgement _ _ => none
  | .l2LineEviction _ => none
  | .twaitCompletion _ => none
  | .cwaitCompletion _ => none
  | .saveResume _ => none
  | .saveDeadlineExpiry _ => none
  | .uncorrectableError _ => none
  | .jobReplay _ => none
  | .launchRestart _ => none
  | .brynozLinkFailure _ => none
  | .peerModuleFailure _ => none
  | .powerCapInterval => none
  | .thermalTrip => none
  | .mailboxMessage _ _ _ => none
  | .illegalInstruction _ => none
  | .fetchFault => none
  | .reservedCommandType _ => none
  | .peerAccessArrival _ => none
  | .streamFailedByPeer _ _ => none
  | .engineAccessMappingMade _ => none
  | .fillerFinished _ _ => none

/-- A word from its fields (R251/12). -/
def packFields (x : Nat × Nat × Nat × Nat × Nat) : Word :=
  BitVec.ofNat 32 (x.1 * 33554432 + x.2.1 * 262144 + x.2.2.1 * 2048 + x.2.2.2.1 * 16 + x.2.2.2.2)

/-- Is a row of the opcode table an event, which no word encodes (R251/12)? -/
def Instr.isEvent : Instr → Bool
  | .sadd _ _ _ => false
  | .ssub _ _ _ => false
  | .smul _ _ _ => false
  | .smulhI64 _ _ _ => false
  | .smulhN64 _ _ _ => false
  | .sand _ _ _ => false
  | .sor _ _ _ => false
  | .sxor _ _ _ => false
  | .sshl _ _ _ => false
  | .sshrN64 _ _ _ => false
  | .sshrI64 _ _ _ => false
  | .sminI64 _ _ _ => false
  | .sminN64 _ _ _ => false
  | .smaxI64 _ _ _ => false
  | .smaxN64 _ _ _ => false
  | .sdivI64 _ _ _ => false
  | .sdivN64 _ _ _ => false
  | .sremI64 _ _ _ => false
  | .sremN64 _ _ _ => false
  | .sseq _ _ _ => false
  | .ssne _ _ _ => false
  | .ssltI64 _ _ _ => false
  | .ssltN64 _ _ _ => false
  | .ssleI64 _ _ _ => false
  | .ssleN64 _ _ _ => false
  | .spopc _ _ => false
  | .sclz _ _ => false
  | .sctz _ _ => false
  | .sbrev _ _ => false
  | .smov _ _ => false
  | .saddi _ _ _ => false
  | .sandi _ _ _ => false
  | .sori _ _ _ => false
  | .sxori _ _ _ => false
  | .sshli _ _ _ => false
  | .sshriN64 _ _ _ => false
  | .sshriI64 _ _ _ => false
  | .ssltiI64 _ _ _ => false
  | .ssltiN64 _ _ _ => false
  | .smuli _ _ _ => false
  | .nop => false
  | .exit => false
  | .yield => false
  | .ret _ => false
  | .brk => false
  | .bra _ => false
  | .bnz _ _ => false
  | .bz _ _ => false
  | .bnzv _ _ => false
  | .bzv _ _ => false
  | .call _ _ => false
  | .loop _ _ _ _ => false
  | .li _ _ => false
  | .sli _ _ => false
  | .vli _ _ => false
  | .addaX1 _ _ _ => false
  | .addaX2 _ _ _ => false
  | .addaX4 _ _ _ => false
  | .addaX8 _ _ _ => false
  | .addaX16 _ _ _ => false
  | .addaV _ _ _ => false
  | .wbase _ => false
  | .wshift _ => false
  | .vmov _ _ => false
  | .vbcast _ _ => false
  | .vbcast64 _ _ => false
  | .vget _ _ _ => false
  | .vput _ _ _ => false
  | .addI32Vv _ _ _ => false
  | .subI32Vv _ _ _ => false
  | .mulI32Vv _ _ _ => false
  | .mulhI32Vv _ _ _ => false
  | .mulhN32Vv _ _ _ => false
  | .minI32Vv _ _ _ => false
  | .minN32Vv _ _ _ => false
  | .maxI32Vv _ _ _ => false
  | .maxN32Vv _ _ _ => false
  | .andB32Vv _ _ _ => false
  | .orB32Vv _ _ _ => false
  | .xorB32Vv _ _ _ => false
  | .shlB32Vv _ _ _ => false
  | .shrN32Vv _ _ _ => false
  | .shrI32Vv _ _ _ => false
  | .addsI32Vv _ _ _ => false
  | .addI32Vs _ _ _ => false
  | .subI32Vs _ _ _ => false
  | .mulI32Vs _ _ _ => false
  | .mulhI32Vs _ _ _ => false
  | .mulhN32Vs _ _ _ => false
  | .minI32Vs _ _ _ => false
  | .minN32Vs _ _ _ => false
  | .maxI32Vs _ _ _ => false
  | .maxN32Vs _ _ _ => false
  | .andB32Vs _ _ _ => false
  | .orB32Vs _ _ _ => false
  | .xorB32Vs _ _ _ => false
  | .shlB32Vs _ _ _ => false
  | .shrN32Vs _ _ _ => false
  | .shrI32Vs _ _ _ => false
  | .addsI32Vs _ _ _ => false
  | .addI64Vv _ _ _ => false
  | .subI64Vv _ _ _ => false
  | .mulI64Vv _ _ _ => false
  | .mulhI64Vv _ _ _ => false
  | .mulhN64Vv _ _ _ => false
  | .minI64Vv _ _ _ => false
  | .minN64Vv _ _ _ => false
  | .maxI64Vv _ _ _ => false
  | .maxN64Vv _ _ _ => false
  | .andB64Vv _ _ _ => false
  | .orB64Vv _ _ _ => false
  | .xorB64Vv _ _ _ => false
  | .shlB64Vv _ _ _ => false
  | .shrN64Vv _ _ _ => false
  | .shrI64Vv _ _ _ => false
  | .addsI64Vv _ _ _ => false
  | .addI64Vs _ _ _ => false
  | .subI64Vs _ _ _ => false
  | .mulI64Vs _ _ _ => false
  | .mulhI64Vs _ _ _ => false
  | .mulhN64Vs _ _ _ => false
  | .minI64Vs _ _ _ => false
  | .minN64Vs _ _ _ => false
  | .maxI64Vs _ _ _ => false
  | .maxN64Vs _ _ _ => false
  | .andB64Vs _ _ _ => false
  | .orB64Vs _ _ _ => false
  | .xorB64Vs _ _ _ => false
  | .shlB64Vs _ _ _ => false
  | .shrN64Vs _ _ _ => false
  | .shrI64Vs _ _ _ => false
  | .addsI64Vs _ _ _ => false
  | .addF16Vv _ _ _ => false
  | .subF16Vv _ _ _ => false
  | .mulF16Vv _ _ _ => false
  | .divF16Vv _ _ _ => false
  | .minF16Vv _ _ _ => false
  | .maxF16Vv _ _ _ => false
  | .fmaF16Vv _ _ _ => false
  | .fmsF16Vv _ _ _ => false
  | .fnmaF16Vv _ _ _ => false
  | .copysignF16Vv _ _ _ => false
  | .addF16Vs _ _ _ => false
  | .subF16Vs _ _ _ => false
  | .mulF16Vs _ _ _ => false
  | .divF16Vs _ _ _ => false
  | .minF16Vs _ _ _ => false
  | .maxF16Vs _ _ _ => false
  | .fmaF16Vs _ _ _ => false
  | .fmsF16Vs _ _ _ => false
  | .fnmaF16Vs _ _ _ => false
  | .copysignF16Vs _ _ _ => false
  | .addF32Vv _ _ _ => false
  | .subF32Vv _ _ _ => false
  | .mulF32Vv _ _ _ => false
  | .divF32Vv _ _ _ => false
  | .minF32Vv _ _ _ => false
  | .maxF32Vv _ _ _ => false
  | .fmaF32Vv _ _ _ => false
  | .fmsF32Vv _ _ _ => false
  | .fnmaF32Vv _ _ _ => false
  | .copysignF32Vv _ _ _ => false
  | .addF32Vs _ _ _ => false
  | .subF32Vs _ _ _ => false
  | .mulF32Vs _ _ _ => false
  | .divF32Vs _ _ _ => false
  | .minF32Vs _ _ _ => false
  | .maxF32Vs _ _ _ => false
  | .fmaF32Vs _ _ _ => false
  | .fmsF32Vs _ _ _ => false
  | .fnmaF32Vs _ _ _ => false
  | .copysignF32Vs _ _ _ => false
  | .addBf16Vv _ _ _ => false
  | .subBf16Vv _ _ _ => false
  | .mulBf16Vv _ _ _ => false
  | .divBf16Vv _ _ _ => false
  | .minBf16Vv _ _ _ => false
  | .maxBf16Vv _ _ _ => false
  | .fmaBf16Vv _ _ _ => false
  | .fmsBf16Vv _ _ _ => false
  | .fnmaBf16Vv _ _ _ => false
  | .copysignBf16Vv _ _ _ => false
  | .addBf16Vs _ _ _ => false
  | .subBf16Vs _ _ _ => false
  | .mulBf16Vs _ _ _ => false
  | .divBf16Vs _ _ _ => false
  | .minBf16Vs _ _ _ => false
  | .maxBf16Vs _ _ _ => false
  | .fmaBf16Vs _ _ _ => false
  | .fmsBf16Vs _ _ _ => false
  | .fnmaBf16Vs _ _ _ => false
  | .copysignBf16Vs _ _ _ => false
  | .addF64Vv _ _ _ => false
  | .subF64Vv _ _ _ => false
  | .mulF64Vv _ _ _ => false
  | .divF64Vv _ _ _ => false
  | .minF64Vv _ _ _ => false
  | .maxF64Vv _ _ _ => false
  | .fmaF64Vv _ _ _ => false
  | .fmsF64Vv _ _ _ => false
  | .fnmaF64Vv _ _ _ => false
  | .copysignF64Vv _ _ _ => false
  | .addF64Vs _ _ _ => false
  | .subF64Vs _ _ _ => false
  | .mulF64Vs _ _ _ => false
  | .divF64Vs _ _ _ => false
  | .minF64Vs _ _ _ => false
  | .maxF64Vs _ _ _ => false
  | .fmaF64Vs _ _ _ => false
  | .fmsF64Vs _ _ _ => false
  | .fnmaF64Vs _ _ _ => false
  | .copysignF64Vs _ _ _ => false
  | .divI32Vv _ _ _ => false
  | .divN32Vv _ _ _ => false
  | .remI32Vv _ _ _ => false
  | .remN32Vv _ _ _ => false
  | .divI64Vv _ _ _ => false
  | .divN64Vv _ _ _ => false
  | .remI64Vv _ _ _ => false
  | .remN64Vv _ _ _ => false
  | .divI32Vs _ _ _ => false
  | .divN32Vs _ _ _ => false
  | .remI32Vs _ _ _ => false
  | .remN32Vs _ _ _ => false
  | .divI64Vs _ _ _ => false
  | .divN64Vs _ _ _ => false
  | .remI64Vs _ _ _ => false
  | .remN64Vs _ _ _ => false
  | .ceqF32Vv _ _ _ => false
  | .cltF32Vv _ _ _ => false
  | .cleF32Vv _ _ _ => false
  | .cunF32Vv _ _ _ => false
  | .ceqB32Vv _ _ _ => false
  | .cltI32Vv _ _ _ => false
  | .cleI32Vv _ _ _ => false
  | .cltN32Vv _ _ _ => false
  | .cleN32Vv _ _ _ => false
  | .ceqF16Vv _ _ _ => false
  | .cltF16Vv _ _ _ => false
  | .cleF16Vv _ _ _ => false
  | .cunF16Vv _ _ _ => false
  | .ceqBf16Vv _ _ _ => false
  | .cltBf16Vv _ _ _ => false
  | .cleBf16Vv _ _ _ => false
  | .ceqF32Vs _ _ _ => false
  | .cltF32Vs _ _ _ => false
  | .cleF32Vs _ _ _ => false
  | .cunF32Vs _ _ _ => false
  | .ceqB32Vs _ _ _ => false
  | .cltI32Vs _ _ _ => false
  | .cleI32Vs _ _ _ => false
  | .cltN32Vs _ _ _ => false
  | .cleN32Vs _ _ _ => false
  | .ceqF16Vs _ _ _ => false
  | .cltF16Vs _ _ _ => false
  | .cleF16Vs _ _ _ => false
  | .cunF16Vs _ _ _ => false
  | .ceqBf16Vs _ _ _ => false
  | .cltBf16Vs _ _ _ => false
  | .cleBf16Vs _ _ _ => false
  | .ceqF64Vv _ _ _ => false
  | .cltF64Vv _ _ _ => false
  | .cleF64Vv _ _ _ => false
  | .cunF64Vv _ _ _ => false
  | .ceqB64Vv _ _ _ => false
  | .cltI64Vv _ _ _ => false
  | .cleI64Vv _ _ _ => false
  | .cltN64Vv _ _ _ => false
  | .cleN64Vv _ _ _ => false
  | .ceqF64Vs _ _ _ => false
  | .cltF64Vs _ _ _ => false
  | .cleF64Vs _ _ _ => false
  | .cunF64Vs _ _ _ => false
  | .ceqB64Vs _ _ _ => false
  | .cltI64Vs _ _ _ => false
  | .cleI64Vs _ _ _ => false
  | .cltN64Vs _ _ _ => false
  | .cleN64Vs _ _ _ => false
  | .selB32Vv _ _ _ _ => false
  | .selB64Vv _ _ _ _ => false
  | .selB32Vs _ _ _ _ => false
  | .selB64Vs _ _ _ _ => false
  | .rcpF32V _ _ _ => false
  | .rsqrtF32V _ _ _ => false
  | .sqrtF32V _ _ _ => false
  | .exp2F32V _ _ _ => false
  | .log2F32V _ _ _ => false
  | .sinF32V _ _ _ => false
  | .cosF32V _ _ _ => false
  | .tanhF32V _ _ _ => false
  | .rcpF32S _ _ _ => false
  | .rsqrtF32S _ _ _ => false
  | .sqrtF32S _ _ _ => false
  | .exp2F32S _ _ _ => false
  | .log2F32S _ _ _ => false
  | .sinF32S _ _ _ => false
  | .cosF32S _ _ _ => false
  | .tanhF32S _ _ _ => false
  | .popcB32 _ _ => false
  | .clzB32 _ _ => false
  | .ctzB32 _ _ => false
  | .brevB32 _ _ => false
  | .notB32 _ _ => false
  | .negI32 _ _ => false
  | .absI32 _ _ => false
  | .popcB64 _ _ => false
  | .clzB64 _ _ => false
  | .ctzB64 _ _ => false
  | .brevB64 _ _ => false
  | .notB64 _ _ => false
  | .negI64 _ _ => false
  | .absI64 _ _ => false
  | .absF32 _ _ => false
  | .negF32 _ _ => false
  | .rintF32 _ _ => false
  | .floorF32 _ _ => false
  | .ceilF32 _ _ => false
  | .truncF32 _ _ => false
  | .absF16 _ _ => false
  | .negF16 _ _ => false
  | .absBf16 _ _ => false
  | .negBf16 _ _ => false
  | .absF64 _ _ => false
  | .negF64 _ _ => false
  | .cvt _ _ _ _ _ => false
  | .pkE2m1 _ _ _ => false
  | .upkE2m1 _ _ _ => false
  | .scaccF32 _ _ _ => false
  | .shflIdx _ _ _ _ => false
  | .shflUp _ _ _ _ => false
  | .shflDown _ _ _ _ => false
  | .shflXor _ _ _ _ => false
  | .voteAny _ _ _ => false
  | .voteAll _ _ _ => false
  | .voteEq _ _ _ => false
  | .voteBallot _ _ _ => false
  | .lredAddF32 _ _ => false
  | .lredMaxF32 _ _ => false
  | .lredMinF32 _ _ => false
  | .lredAddI32 _ _ => false
  | .lredMaxI32 _ _ => false
  | .lredMinI32 _ _ => false
  | .lredMaxN32 _ _ => false
  | .lredMinN32 _ _ => false
  | .lredAddF16 _ _ => false
  | .lredMaxF16 _ _ => false
  | .lredMinF16 _ _ => false
  | .lredAddBf16 _ _ => false
  | .lredAndB32 _ _ => false
  | .lredOrB32 _ _ => false
  | .lredXorB32 _ _ => false
  | .tredAddF32 _ _ _ => false
  | .tredMaxF32 _ _ _ => false
  | .tredMinF32 _ _ _ => false
  | .tredAddI32 _ _ _ => false
  | .tredMaxI32 _ _ _ => false
  | .tredMinI32 _ _ _ => false
  | .tredMaxN32 _ _ _ => false
  | .tredMinN32 _ _ _ => false
  | .tredAddF16 _ _ _ => false
  | .tredMaxF16 _ _ _ => false
  | .tredMinF16 _ _ _ => false
  | .tredAddBf16 _ _ _ => false
  | .tredAndB32 _ _ _ => false
  | .tredOrB32 _ _ _ => false
  | .tredXorB32 _ _ _ => false
  | .scanAddF32 _ _ => false
  | .scanMaxF32 _ _ => false
  | .scanMinF32 _ _ => false
  | .scanAddI32 _ _ => false
  | .scanMaxI32 _ _ => false
  | .scanMinI32 _ _ => false
  | .scanMaxN32 _ _ => false
  | .scanMinN32 _ _ => false
  | .scanxAddF32 _ _ => false
  | .scanxMaxF32 _ _ => false
  | .scanxMinF32 _ _ => false
  | .scanxAddI32 _ _ => false
  | .scanxMaxI32 _ _ => false
  | .scanxMinI32 _ _ => false
  | .scanxMaxN32 _ _ => false
  | .scanxMinN32 _ _ => false
  | .pand _ _ _ => false
  | .por _ _ _ => false
  | .pxor _ _ _ => false
  | .pnot _ _ => false
  | .pfroms _ _ => false
  | .stop _ _ => false
  | .pall _ => false
  | .pnone _ => false
  | .ldLn _ _ _ _ _ => false
  | .ldSp _ _ _ _ _ => false
  | .ldCl _ _ _ _ _ => false
  | .ldBn _ _ _ _ _ => false
  | .ldGl _ _ _ _ _ => false
  | .ldAc _ _ _ _ _ => false
  | .ldGlOrdered _ _ _ _ _ _ => false
  | .pfGl _ _ _ _ => false
  | .stLn _ _ _ _ _ => false
  | .stSp _ _ _ _ _ => false
  | .stCl _ _ _ _ _ => false
  | .stBn _ _ _ _ _ => false
  | .stGl _ _ _ _ _ => false
  | .stAc _ _ _ _ _ => false
  | .stGlOrdered _ _ _ _ _ _ => false
  | .cctlGlWb _ _ _ => false
  | .cctlGlInv _ _ _ => false
  | .cctlGlWbinv _ _ _ => false
  | .atomSp _ _ _ _ _ _ => false
  | .atomCl _ _ _ _ _ _ => false
  | .atomBn _ _ _ _ _ _ => false
  | .atomGl _ _ _ _ _ _ => false
  | .fence _ _ => false
  | .icinv _ => false
  | .cpy _ _ _ => false
  | .wnw _ _ _ => false
  | .xchg _ _ _ => false
  | .rst _ _ _ _ => false
  | .bar _ => false
  | .barWait _ _ => false
  | .arrive _ _ => false
  | .bexp _ _ => false
  | .gate => false
  | .release => false
  | .twait _ _ => false
  | .cwait _ _ _ _ => false
  | .cwaitClr _ _ _ _ => false
  | .nret => false
  | .shrink _ => false
  | .spfree _ _ _ => false
  | .phase _ _ => false
  | .twaitImm _ _ => false
  | .fork _ _ _ => false
  | .join _ _ => false
  | .rgnw _ _ => false
  | .rgnr _ _ _ => false
  | .mmulBf16 _ _ _ _ => false
  | .mmulF16 _ _ _ _ => false
  | .mmulE4m3 _ _ _ _ => false
  | .mmulE5m2 _ _ _ _ => false
  | .mmbE2m1 _ _ _ _ => false
  | .msca _ _ _ _ => false
  | .mldwBf16 _ _ _ _ => false
  | .mldwF16 _ _ _ _ => false
  | .mldwE4m3 _ _ _ _ => false
  | .mldwE5m2 _ _ _ _ => false
  | .mldwE2m1 _ _ _ _ => false
  | .mswap _ _ _ => false
  | .mpush _ _ => false
  | .mdrainF32 _ _ _ _ => false
  | .mdrainBf16 _ _ _ _ => false
  | .mdrainF16 _ _ _ _ => false
  | .mdrainE4m3 _ _ _ _ => false
  | .mdrainE5m2 _ _ _ _ => false
  | .mclr _ _ _ _ => false
  | .mstat _ _ => false
  | .trap _ => false
  | .tret => false
  | .lpcRd _ _ => false
  | .lpcWr _ _ => false
  | .spcw _ _ => false
  | .xlinv _ _ => false
  | .wpset _ _ _ => false
  | .moduleReset => true
  | .firmwareBundleVerification _ _ _ => true
  | .bringUpMemory _ _ => true
  | .bringUpPower _ _ => true
  | .bringUpFabric _ _ => true
  | .bringUpQueues _ _ => true
  | .spdmMeasurementRequest _ => true
  | .physicalSubmissionRegisterWrite _ => true
  | .allowListEntryWrite _ _ _ => true
  | .rampTableWrite _ _ _ => true
  | .pooledMemoryDecoderWrite _ _ => true
  | .registerWrite _ _ => true
  | .noOperation _ => true
  | .launch _ => true
  | .engineJobCard _ => true
  | .signalEventWord _ => true
  | .waitEventWord _ => true
  | .eventWordWaitSatisfied _ => true
  | .reclaimRequest _ => true
  | .parkContext _ => true
  | .resumeContext _ => true
  | .translationInvalidation _ => true
  | .launchDispatch => true
  | .launchRetirement _ => true
  | .sheafMadeResident _ _ _ _ => true
  | .carveOutChange _ _ => true
  | .fairnessPeriodExpiry _ => true
  | .starvingSheaf _ => true
  | .foldQuantumExpiry _ _ _ => true
  | .taskTake _ _ => true
  | .taskSteal _ _ => true
  | .phaseResume _ _ => true
  | .loadDataArrival _ _ => true
  | .loadFaultMappingMade _ _ => true
  | .loadFaultWaitTimeout _ _ => true
  | .collstallTimeout _ => true
  | .noticeTrap _ => true
  | .forcedSqueeze _ _ => true
  | .squeezeCompletion _ _ => true
  | .expansionStep _ _ => true
  | .scratchPageMove _ _ => true
  | .matrixCommandStart _ _ => true
  | .rampGovernorStep _ => true
  | .ringSlotWaitEnd _ _ => true
  | .matrixQuiescentStop _ _ => true
  | .matrixCommandResume _ _ => true
  | .matrixCommandCompletion _ _ => true
  | .matrixFifoPostResume _ => true
  | .engineQueuePostResume _ => true
  | .jobStart _ => true
  | .copyChunkLanding _ _ => true
  | .jobCompletion _ => true
  | .engineXlate2Timeout _ => true
  | .exchangeStreamArrival _ => true
  | .exchangeHeaderAdmission => true
  | .exchangeDeadlineExpiry _ => true
  | .mergeLineAction _ => true
  | .joinCompletion _ => true
  | .sequencerTicket => true
  | .remoteStoreAcknowledgement _ _ => true
  | .l2LineEviction _ => true
  | .twaitCompletion _ => true
  | .cwaitCompletion _ => true
  | .saveResume _ => true
  | .saveDeadlineExpiry _ => true
  | .uncorrectableError _ => true
  | .jobReplay _ => true
  | .launchRestart _ => true
  | .brynozLinkFailure _ => true
  | .peerModuleFailure _ => true
  | .powerCapInterval => true
  | .thermalTrip => true
  | .mailboxMessage _ _ _ => true
  | .illegalInstruction _ => true
  | .fetchFault => true
  | .reservedCommandType _ => true
  | .peerAccessArrival _ => true
  | .streamFailedByPeer _ _ => true
  | .engineAccessMappingMade _ => true
  | .fillerFinished _ _ => true

/-- The word of an instruction; an event has none. -/
def encode (i : Instr) : Option Word := i.fields.map packFields

/-- The instruction the decoder reads from a word numbered as the opcode table numbers it: 32-bit words only. -/
noncomputable def decodeTableWord (nbits w : Nat) : Option Instr :=
  if nbits = 32 then
    match decodeBytes (bytesOfWord (BitVec.ofNat 32 w)) with
    | .ok i => some i
    | .error _ => none
  else none

end Sys2Proof
end

