-- ==== Sys2Proof/Machine/Transc.lean ====
section
/-! DEFINITION. The transcendentals of R291/14: correctly rounded, from integer fixed-point series whose floor is decided with growing precision. -/

namespace Sys2Proof.Machine

/-- Σ x^k / k! in fixed point of 2^p, `fuel` terms from a term already formed. -/
def expSeries (p : Nat) (x : Int) : Nat → Nat → Int → Int → Int
  | 0, _, _, acc => acc
  | fuel + 1, k, term, acc =>
    let t := term * x / 2 ^ p / (k : Int)
    expSeries p x fuel (k + 1) t (acc + t)

/-- e^x in fixed point of 2^p, for |x| ≤ 1. -/
def expFix (p : Nat) (x : Int) : Int := expSeries p x (p / 2 + 20) 1 (2 ^ p) (2 ^ p)

/-- Σ z^(2k+1) / (2k+1) in fixed point: the series of artanh, or of arctan when `alt`. -/
def atanSeries (p : Nat) (z2 : Int) (alt : Bool) : Nat → Nat → Int → Int → Int
  | 0, _, _, acc => acc
  | fuel + 1, k, term, acc =>
    let t := term * z2 / 2 ^ p
    let c := t / ((2 * k + 1 : Nat) : Int)
    atanSeries p z2 alt fuel (k + 1) t (if alt && k % 2 == 1 then acc - c else acc + c)

/-- artanh z, or arctan z, in fixed point, for |z| ≤ 1 / 3. -/
def atanFix (p : Nat) (z : Int) (alt : Bool) : Int := atanSeries p (z * z / 2 ^ p) alt (p / 3 + 20) 1 z z

/-- ln 2 in fixed point: 2 artanh (1 / 3). -/
def ln2Fix (p : Nat) : Int := 2 * atanFix p (2 ^ p / 3) false

/-- π in fixed point: 16 arctan (1 / 5) − 4 arctan (1 / 239). -/
def piFix (p : Nat) : Int := 16 * atanFix p (2 ^ p / 5) true - 4 * atanFix p (2 ^ p / 239) true

/-- Σ of the sine or cosine series. -/
def sinSeries (p : Nat) (x2 : Int) : Nat → Nat → Int → Int → Int
  | 0, _, _, acc => acc
  | fuel + 1, k, term, acc =>
    let t := -(term * x2 / 2 ^ p) / ((k * (k + 1) : Nat) : Int)
    sinSeries p x2 fuel (k + 2) t (acc + t)

def sinFix (p : Nat) (x : Int) : Int := sinSeries p (x * x / 2 ^ p) (p / 4 + 20) 2 x x
def cosFix (p : Nat) (x : Int) : Int := sinSeries p (x * x / 2 ^ p) (p / 4 + 20) 1 (2 ^ p) (2 ^ p)

/-- The functions whose results are correctly rounded whatever the mode (R291/14). -/
inductive TFun where
  | exp2 | log2 | sin | cos | tanh
deriving DecidableEq, Repr

/-- A function's value in fixed point of 2^p for x = ± n / d, within 2^16 units: exp2 of the fraction of x,
log2 of x / 2^e in [1, 2), sine, cosine, tanh. -/
def tApprox (fn : TFun) (p : Nat) (neg : Bool) (n d : Nat) : Int :=
  let sx : Int := signedN neg n * 2 ^ p / (d : Int)
  match fn with
  | .exp2 => expFix p (ln2Fix p * (sx % 2 ^ p) / 2 ^ p)
  | .log2 =>
    let e := floorLog2 n d
    let m := scaleQ n d (-e)
    let num : Int := (m.1 : Int) - m.2
    let z := num * 2 ^ p / ((m.1 : Int) + m.2)
    e * 2 ^ p + 2 * atanFix p z false * 2 ^ p / ln2Fix p
  | .sin | .cos =>
    let q := p + 160
    let sx : Int := signedN neg n * 2 ^ q / (d : Int)
    let half := piFix q / 2
    let k := (sx + half / 2) / half
    let r := (sx - k * half) / 2 ^ 160
    let k := if fn = .cos then (k + 1) % 4 else k % 4
    if k = 0 then sinFix p r else if k = 1 then cosFix p r
    else if k = 2 then -(sinFix p r) else -(cosFix p r)
  | .tanh =>
    -- e^(2|x|) with |x| below 32, by five squarings
    let y := expFix p (2 * (sx.natAbs : Int) / 64)
    let sq (a : Int) : Int := a * a / 2 ^ p
    let w := sq (sq (sq (sq (sq (sq y)))))
    let r := (w - 2 ^ p) * 2 ^ p / (w + 2 ^ p)
    if neg then -r else r

/-- The floor of the function's value × 2^100, when two bounds agree on it, at growing precision. -/
def tFloor (fn : TFun) (neg : Bool) (n d : Nat) : Nat → Nat → Option Int
  | 0, _ => none
  | fuel + 1, p =>
    let a := tApprox fn p neg n d
    let e : Int := 2 ^ 100
    let lo := (a - e) / 2 ^ (p - 100)
    let hi := (a + e) / 2 ^ (p - 100)
    if lo = hi then some lo else tFloor fn neg n d fuel (2 * p)

/-- A value strictly between S / 2^100 and (S + 1) / 2^100, scaled by 2^e: it rounds as any irrational there does. -/
def between (s : Int) (e : Int) : Val :=
  let m := 2 * s + 1
  .scaled (decide (m < 0)) m.natAbs 1 (e - 101)

/-- n / d with its last part taken off: below it and above half a unit of any f32 below it. -/
def justBelow (neg : Bool) (n d : Nat) : Val := .fin neg (n * (2 ^ 60 - 1)) (d * 2 ^ 60)

/-- The mathematical value of a function at a finite nonzero x, as a value that rounds as it does (R291/14);
none where no precision tried decides it (log 13). -/
def tValue (fn : TFun) (neg : Bool) (n d : Nat) : Option Val :=
  let small := decide (n * 2 ^ 20 < d)
  let fl := tFloor fn neg n d 4 400
  match fn with
  | .exp2 =>
    if n % d = 0 then
      let k : Int := signedN neg (n / d)
      some (.scaled false 1 1 (max (-1000) (min 1000 k)))
    else if 1000 * d < n then some (between (if neg then 2 ^ 100 else 2 ^ 101) (if neg then -1000 else 1000))
    else fl.map fun s => between s (signedN neg n / (d : Int))
  | .log2 =>
    let e := floorLog2 n d
    let m := scaleQ n d (-e)
    if m.1 = m.2 then some (.fin (decide (e < 0)) e.natAbs 1) else fl.map fun s => between s 0
  | .sin => if small then some (justBelow neg n d) else fl.map fun s => between s 0
  | .cos => if small then some (justBelow false 1 1) else fl.map fun s => between s 0
  | .tanh =>
    if small then some (justBelow neg n d)
    else if 30 * d < n then some (justBelow neg 1 1)
    else fl.map fun s => between s 0

/-- The eight functions of majors 0x34 and 0x35 (R265/12). -/
inductive Trans where
  | rcp | rsqrt | sqrt | exp2 | log2 | sin | cos | tanh
deriving DecidableEq, Repr

/-- A transcendental on an f32 code, its specials, and its flags (R291/14). -/
def trans (fn : Trans) (mode : RMode) (ftz : Bool) (a : Nat) : FRes :=
  let a := flushIn ftz .f32 a
  let x := decodeF .f32 a
  let out (v : Val) (m : RMode) (r : Raised) : FRes :=
    let y := roundF v .f32 m
    flushOut ftz .f32 ⟨y.bits, y.r.or r⟩
  let viaT (g : TFun) (code : Nat) (neg : Bool) (n d : Nat) : FRes :=
    match tValue g neg n d with
    | some v => out v .rne {}
    | none => flushOut ftz .f32 ⟨(Config.transcendental code (BitVec.ofNat 32 a)).toNat, raiseNX⟩
  match x with
  | .nan => ⟨Fmt.f32.canon, {}⟩
  | .inf s =>
    match fn with
    | .rcp => out (.fin s 0 1) .rne {}
    | .rsqrt | .sqrt | .log2 =>
      if s then out .nan .rne raiseIV else out (if fn = .rsqrt then .fin false 0 1 else .inf false) .rne {}
    | .exp2 => out (if s then .fin false 0 1 else .inf false) .rne {}
    | .sin | .cos => out .nan .rne raiseIV
    | .tanh => out (.fin s 1 1) .rne {}
  | .fin s n d =>
    if n = 0 then
      match fn with
      | .rcp | .rsqrt => out (.inf s) .rne raiseDZ
      | .sqrt | .sin | .tanh => out (.fin s 0 1) .rne {}
      | .exp2 | .cos => out (.fin false 1 1) .rne {}
      | .log2 => out (.inf true) .rne raiseDZ
    else
      match fn with
      | .rcp => out (.fin s d n) mode {}
      | .sqrt => if s then out .nan .rne raiseIV else out (sqrtV n d) mode {}
      | .rsqrt => if s then out .nan .rne raiseIV else out (sqrtV d n) .rne {}
      | .exp2 => viaT .exp2 3 s n d
      | .log2 => if s then out .nan .rne raiseIV else if n = d then out (.fin false 0 1) .rne {} else viaT .log2 4 s n d
      | .sin => viaT .sin 5 s n d
      | .cos => viaT .cos 6 s n d
      | .tanh => viaT .tanh 7 s n d

end Sys2Proof.Machine
end

