-- ==== Sys2Proof/Machine/Vector.lean ====
section
/-! DEFINITION. Vector arithmetic, transcendentals, comparisons, selects, predicates and conversion (R283 to R299/14). -/

namespace Sys2Proof.Machine

/-- A 32-bit operation of a vector and operand b (R283, R285/14). -/
def State.vec32 (s : State) (vs : Bool) (d a b : Nat) (f : Word → Word → Word) : State :=
  (s.vwrite d fun l => f (s.me.vget l a) (s.opB s.me vs l b)).retire

/-- A 64-bit operation on pairs. -/
def State.vec64 (s : State) (vs : Bool) (d a b : Nat) (f : Dword → Dword → Dword) : State :=
  (s.vwrite64 d fun l => f (s.me.vget64 l a) (s.opB64 s.me vs l b)).retire

/-- DZ of `$status` is set when a condition holds; no FPX follows (R269/13, R286/14). -/
def State.raiseDz (s : State) (c : Bool) : State :=
  if c then s.modMe fun h => h.raise { dz := true } else s

/-- A division (R286/14): DZ is set when an active lane's divisor is 0. -/
def State.vdiv32 (s : State) (vs : Bool) (d a b : Nat) (f : Word → Word → Word) : State :=
  (s.vec32 vs d a b f).raiseDz ((lanesOf s.active).any fun l => s.opB s.me vs l b == 0)
def State.vdiv64 (s : State) (vs : Bool) (d a b : Nat) (f : Dword → Dword → Dword) : State :=
  (s.vec64 vs d a b f).raiseDz ((lanesOf s.active).any fun l => s.opB64 s.me vs l b == 0)

/-- A unary operation (R287/14). -/
def State.vun32 (s : State) (d a : Nat) (f : Word → Word) : State := (s.vwrite d fun l => f (s.me.vget l a)).retire
def State.vun64 (s : State) (d a : Nat) (f : Dword → Dword) : State := (s.vwrite64 d fun l => f (s.me.vget64 l a)).retire

/-- Each active lane's result of a floating-point instruction, computed once. -/
def State.lanesFp (s : State) (f : Nat → FRes) : List (Nat × FRes) := (lanesOf s.active).map fun l => (l, f l)

/-- The flags of lanes' results. -/
def raisedOf (rs : List (Nat × FRes)) : List (Nat × Raised) := rs.map fun x => (x.1, x.2.r)

/-- A floating-point result of 32 bits or fewer: written in every active lane, then its flags (R198/09, R283/14). -/
def State.fp32 (s : State) (d : Nat) (f : Nat → FRes) : State :=
  let rs := s.lanesFp f
  (s.modMe fun h => rs.foldl (fun h x => h.vset x.1 d (BitVec.ofNat 32 x.2.bits)) h).fpFinish (raisedOf rs)

/-- A floating-point result on pairs. -/
def State.fp64 (s : State) (d : Nat) (f : Nat → FRes) : State :=
  let rs := s.lanesFp f
  (s.modMe fun h => rs.foldl (fun h x => h.vset64 x.1 d (BitVec.ofNat 64 x.2.bits)) h).fpFinish (raisedOf rs)

/-- A value read as a code of a format: the bits above it are ignored (R283/14). -/
def Fmt.code (f : Fmt) (x : Nat) : Nat := x % 2 ^ f.width

/-- A form of R288/14 on registers of 32 bits. -/
def State.fbin (s : State) (f : Fmt) (op : FOp) (vs : Bool) (d a b : Nat) : State :=
  s.fp32 d fun l => fop f op s.me.mode s.me.ftz (f.code (s.me.vget l a).toNat) (f.code (s.opB s.me vs l b).toNat)
    (f.code (s.me.vget l d).toNat)

/-- A form of R288/14 on pairs. -/
def State.fbin64 (s : State) (op : FOp) (vs : Bool) (d a b : Nat) : State :=
  s.fp64 d fun l => fop .f64 op s.me.mode s.me.ftz (s.me.vget64 l a).toNat (s.opB64 s.me vs l b).toNat (s.me.vget64 l d).toNat

/-- A unary form of R290/14. -/
def State.fun32 (s : State) (f : Fmt) (op : FUn) (d a : Nat) : State :=
  s.fp32 d fun l => fun1 f op s.me.mode s.me.ftz (f.code (s.me.vget l a).toNat)
def State.fun64 (s : State) (op : FUn) (d a : Nat) : State :=
  s.fp64 d fun l => fun1 .f64 op s.me.mode s.me.ftz (s.me.vget64 l a).toNat

/-- A lookahead-eligible result that raised `raised`: its flags join `$status`; its destination is pending (R257/12);
with an enabled flag raised it lands at once and FPX is taken (R198/09; log 14). -/
def State.pendFp (s : State) (raised : List (Nat × Raised)) (l : Nat) (p : Pending) : State :=
  let all := raised.foldl (fun (a : Raised) x => a.or x.2) {}
  if all.fl.bits &&& s.me.fpxen = 0 then
    (s.addPending fun id =>
      { p with id := id, pc := s.issuePc, windows := windowsOf (lanesOf s.active) l, since := s.now }).fpFinish raised
  else (s.modMe fun h => (h.landVals p.vals).landScalar p.scalar).fpFinish raised

/-- A transcendental (R291/14) of each lane's value of a. -/
def State.transOp (s : State) (fn : Trans) (d l : Nat) (x : Nat → Word) : State :=
  let rs := s.lanesFp fun ln => trans fn s.me.mode s.me.ftz (x ln).toNat
  let r := s.me.wb + d
  s.pendFp (raisedOf rs) l
    { id := 0, pc := 0, lanes := s.active, regs := [r], vals := rs.map fun y => (y.1, r, BitVec.ofNat 32 y.2.bits) }

/-- A comparison on 32-bit lanes without flags (R292/14). -/
def State.vcmp32 (s : State) (vs : Bool) (d a b : Nat) (f : Word → Word → Bool) : State :=
  (s.pwrite d fun l => f (s.me.vget l a) (s.opB s.me vs l b)).retire
def State.vcmp64 (s : State) (vs : Bool) (d a b : Nat) (f : Dword → Dword → Bool) : State :=
  (s.pwrite d fun l => f (s.me.vget64 l a) (s.opB64 s.me vs l b)).retire

/-- A float comparison into a predicate, with its IV (R292/14). -/
def State.fcmpP (s : State) (d : Nat) (f : Nat → Bool × Raised) : State :=
  let rs := (lanesOf s.active).map fun l => (l, f l)
  (s.modMe fun h => rs.foldl (fun h x => h.psetBit d x.1 x.2.1) h).fpFinish (rs.map fun x => (x.1, x.2.2))
def State.fcmp32 (s : State) (f : Fmt) (rel : FRel) (vs : Bool) (d a b : Nat) : State :=
  s.fcmpP d fun l => fcmp f rel s.me.ftz (f.code (s.me.vget l a).toNat) (f.code (s.opB s.me vs l b).toNat)
def State.fcmp64 (s : State) (rel : FRel) (vs : Bool) (d a b : Nat) : State :=
  s.fcmpP d fun l => fcmp .f64 rel s.me.ftz (s.me.vget64 l a).toNat (s.opB64 s.me vs l b).toNat

/-! ### Conversion -/

/-- The float format of an element type; none for the integers. -/
def fmtOf : ElemType → Option Fmt
  | .f16 => some .f16
  | .bf16 => some .bf16
  | .f32 => some .f32
  | .f64 => some .f64
  | .e4m3 => some .e4m3
  | .e5m2 => some .e5m2
  | .i8 | .i16 | .i32 | .i64 | .n8 | .n16 | .n32 | .n64 => none

/-- Is an integer type signed, and its width. -/
def intOf : ElemType → Bool × Nat
  | .i8 => (true, 8)
  | .i16 => (true, 16)
  | .i32 => (true, 32)
  | .i64 => (true, 64)
  | .n8 => (false, 8)
  | .n16 => (false, 16)
  | .n32 => (false, 32)
  | .n64 => (false, 64)
  | .f16 | .bf16 | .f32 | .f64 | .e4m3 | .e5m2 => (false, 64)

/-- An integer type's value of a register (R266/12). -/
def intVal (t : ElemType) (x : Dword) : Int :=
  let (sg, n) := intOf t
  let u := x.toNat % 2 ^ n
  if sg && decide (2 ^ (n - 1) ≤ u) then (u : Int) - (2 ^ n : Nat) else u

/-- An integer placed in a register of the type: its low n bits, sign copies above for .i types, zeros otherwise (R283/14). -/
def intPlace (t : ElemType) (y : Int) : Dword :=
  let (sg, n) := intOf t
  let low := (BitVec.ofInt 64 y).toNat % 2 ^ n
  if sg && decide (2 ^ (n - 1) ≤ low) then BitVec.ofInt 64 ((low : Int) - (2 ^ n : Nat)) else BitVec.ofNat 64 low

/-- The mode of a rounding code, or that of `$ctrl` (R295/14). -/
def roundMode (r : Rounding) (m : RMode) : RMode :=
  match r with
  | .ctrl => m
  | .rne => .rne
  | .rtz => .rtz
  | .rdn => .rdn
  | .rup => .rup

/-- `cvt` of one value (R295/14): the destination's register bits and what was raised. -/
def cvtVal (src dst : ElemType) (m : RMode) (ftz : Bool) (x : Dword) : Dword × Raised :=
  match fmtOf src, fmtOf dst with
  | some f, some g =>
    let fl := ftz && !f.narrow && !g.narrow
    let c := flushIn fl f (f.code x.toNat)
    let y := flushOut fl g (roundF (decodeF f c) g m)
    (BitVec.ofNat 64 y.bits, y.r)
  | some f, none =>
    let (y, r) := cvtInt (decodeF f (f.code x.toNat)) (intOf dst).1 (intOf dst).2 m
    (intPlace dst y, r)
  | none, some g =>
    let v := intVal src x
    let y := roundF (.fin (decide (v < 0)) v.natAbs 1) g m
    (BitVec.ofNat 64 y.bits, y.r)
  | none, none => (intPlace dst (intVal src x), {})

/-- Does a type take a pair? -/
def wideElem (t : ElemType) : Bool := t == .i64 || t == .n64 || t == .f64

/-! ### The block format (R296 to R299/14) -/

/-- The code of one lane of `pk.e2m1`: its value and its side pair. -/
def pkLane (mode : RMode) (a side : Word) : FRes :=
  let sc := side.toNat % 256
  if sc = 255 then ⟨0, raiseIV⟩
  else roundE2m1 ((decodeF .f32 a.toNat).scale (127 - (sc : Int))) (some (decodeF .e4m3 (side.toNat / 256 % 256))) mode

/-- The word of a lane group from its lanes' codes; inactive lanes contribute 0b0000 (R297/14). -/
def pkWord (codes : List (Nat × FRes)) (group : Nat) : Word :=
  (List.range 8).foldl (fun (w : Word) k =>
    match codes.lookup (8 * group + k) with
    | some c => w ||| (BitVec.ofNat 32 (c.bits % 16) <<< (4 * k))
    | none => w) 0

/-- The element of one lane of `upk.e2m1`. -/
def upkLane (mode : RMode) (l : Nat) (a side : Word) : FRes :=
  roundF (e2m1Decode (side.toNat % 256) (side.toNat / 256 % 256) (a.toNat / 2 ^ (4 * (l % 8)) % 16)) .f32 mode

/-- One lane of `scacc.f32` (R299/14). -/
def scaccLane (mode : RMode) (ftz : Bool) (acc a side : Word) : FRes :=
  let sr := side.toNat % 256
  let sc := side.toNat / 256 % 256
  if sr = 255 ∨ sc = 255 then ⟨Fmt.f32.canon, {}⟩
  else
    let x := (decodeF .f32 (flushIn ftz .f32 a.toNat)).scale ((sr : Int) + sc - 254)
    let e := addV mode (decodeF .f32 (flushIn ftz .f32 acc.toNat)) x
    let y := roundF e.v .f32 mode
    flushOut ftz .f32 ⟨y.bits, y.r.or e.r⟩

/-- `add.i32` (R285/14). Lane-wise 32-bit add. -/
def execAddI32Vv (d : Nat) (a : Nat) (b : Nat) (s : State) : Out :=
  .next (s.vec32 false d a b (fun x y => x + y))

/-- `sub.i32` (R285/14). Lane-wise 32-bit subtract. -/
def execSubI32Vv (d : Nat) (a : Nat) (b : Nat) (s : State) : Out :=
  .next (s.vec32 false d a b (fun x y => x - y))

/-- `mul.i32` (R285/14). Lane-wise 32-bit multiply. -/
def execMulI32Vv (d : Nat) (a : Nat) (b : Nat) (s : State) : Out :=
  .next (s.vec32 false d a b (fun x y => x * y))

/-- `mulh.i32` (R285/14). Lane-wise signed high multiply. -/
def execMulhI32Vv (d : Nat) (a : Nat) (b : Nat) (s : State) : Out :=
  .next (s.vec32 false d a b mulhS)

/-- `mulh.n32` (R285/14). Lane-wise unsigned high multiply. -/
def execMulhN32Vv (d : Nat) (a : Nat) (b : Nat) (s : State) : Out :=
  .next (s.vec32 false d a b mulhU)

/-- `min.i32` (R285/14). Lane-wise signed minimum. -/
def execMinI32Vv (d : Nat) (a : Nat) (b : Nat) (s : State) : Out :=
  .next (s.vec32 false d a b minS)

/-- `min.n32` (R285/14). Lane-wise unsigned minimum. -/
def execMinN32Vv (d : Nat) (a : Nat) (b : Nat) (s : State) : Out :=
  .next (s.vec32 false d a b minU)

/-- `max.i32` (R285/14). Lane-wise signed maximum. -/
def execMaxI32Vv (d : Nat) (a : Nat) (b : Nat) (s : State) : Out :=
  .next (s.vec32 false d a b maxS)

/-- `max.n32` (R285/14). Lane-wise unsigned maximum. -/
def execMaxN32Vv (d : Nat) (a : Nat) (b : Nat) (s : State) : Out :=
  .next (s.vec32 false d a b maxU)

/-- `and.b32` (R285/14). Lane-wise AND. -/
def execAndB32Vv (d : Nat) (a : Nat) (b : Nat) (s : State) : Out :=
  .next (s.vec32 false d a b (fun x y => x &&& y))

/-- `or.b32` (R285/14). Lane-wise OR. -/
def execOrB32Vv (d : Nat) (a : Nat) (b : Nat) (s : State) : Out :=
  .next (s.vec32 false d a b (fun x y => x ||| y))

/-- `xor.b32` (R285/14). Lane-wise XOR. -/
def execXorB32Vv (d : Nat) (a : Nat) (b : Nat) (s : State) : Out :=
  .next (s.vec32 false d a b (fun x y => x ^^^ y))

/-- `shl.b32` (R285/14). Lane-wise shift left. -/
def execShlB32Vv (d : Nat) (a : Nat) (b : Nat) (s : State) : Out :=
  .next (s.vec32 false d a b shlV)

/-- `shr.n32` (R285/14). Lane-wise logical shift right. -/
def execShrN32Vv (d : Nat) (a : Nat) (b : Nat) (s : State) : Out :=
  .next (s.vec32 false d a b shrU)

/-- `shr.i32` (R285/14). Lane-wise arithmetic shift right. -/
def execShrI32Vv (d : Nat) (a : Nat) (b : Nat) (s : State) : Out :=
  .next (s.vec32 false d a b shrS)

/-- `adds.i32` (R285/14). Lane-wise saturating signed add. -/
def execAddsI32Vv (d : Nat) (a : Nat) (b : Nat) (s : State) : Out :=
  .next (s.vec32 false d a b addSat)

/-- `add.i32` (R285/14). Lane-wise 32-bit add with scalar b. -/
def execAddI32Vs (d : Nat) (a : Nat) (b : Nat) (s : State) : Out :=
  .next (s.vec32 true d a b (fun x y => x + y))

/-- `sub.i32` (R285/14). Lane-wise 32-bit subtract with scalar b. -/
def execSubI32Vs (d : Nat) (a : Nat) (b : Nat) (s : State) : Out :=
  .next (s.vec32 true d a b (fun x y => x - y))

/-- `mul.i32` (R285/14). Lane-wise 32-bit multiply with scalar b. -/
def execMulI32Vs (d : Nat) (a : Nat) (b : Nat) (s : State) : Out :=
  .next (s.vec32 true d a b (fun x y => x * y))

/-- `mulh.i32` (R285/14). Signed high multiply with scalar b. -/
def execMulhI32Vs (d : Nat) (a : Nat) (b : Nat) (s : State) : Out :=
  .next (s.vec32 true d a b mulhS)

/-- `mulh.n32` (R285/14). Unsigned high multiply with scalar b. -/
def execMulhN32Vs (d : Nat) (a : Nat) (b : Nat) (s : State) : Out :=
  .next (s.vec32 true d a b mulhU)

/-- `min.i32` (R285/14). Signed minimum with scalar b. -/
def execMinI32Vs (d : Nat) (a : Nat) (b : Nat) (s : State) : Out :=
  .next (s.vec32 true d a b minS)

/-- `min.n32` (R285/14). Unsigned minimum with scalar b. -/
def execMinN32Vs (d : Nat) (a : Nat) (b : Nat) (s : State) : Out :=
  .next (s.vec32 true d a b minU)

/-- `max.i32` (R285/14). Signed maximum with scalar b. -/
def execMaxI32Vs (d : Nat) (a : Nat) (b : Nat) (s : State) : Out :=
  .next (s.vec32 true d a b maxS)

/-- `max.n32` (R285/14). Unsigned maximum with scalar b. -/
def execMaxN32Vs (d : Nat) (a : Nat) (b : Nat) (s : State) : Out :=
  .next (s.vec32 true d a b maxU)

/-- `and.b32` (R285/14). AND with scalar b. -/
def execAndB32Vs (d : Nat) (a : Nat) (b : Nat) (s : State) : Out :=
  .next (s.vec32 true d a b (fun x y => x &&& y))

/-- `or.b32` (R285/14). OR with scalar b. -/
def execOrB32Vs (d : Nat) (a : Nat) (b : Nat) (s : State) : Out :=
  .next (s.vec32 true d a b (fun x y => x ||| y))

/-- `xor.b32` (R285/14). XOR with scalar b. -/
def execXorB32Vs (d : Nat) (a : Nat) (b : Nat) (s : State) : Out :=
  .next (s.vec32 true d a b (fun x y => x ^^^ y))

/-- `shl.b32` (R285/14). Shift left by scalar b. -/
def execShlB32Vs (d : Nat) (a : Nat) (b : Nat) (s : State) : Out :=
  .next (s.vec32 true d a b shlV)

/-- `shr.n32` (R285/14). Logical shift right by scalar b. -/
def execShrN32Vs (d : Nat) (a : Nat) (b : Nat) (s : State) : Out :=
  .next (s.vec32 true d a b shrU)

/-- `shr.i32` (R285/14). Arithmetic shift right by scalar b. -/
def execShrI32Vs (d : Nat) (a : Nat) (b : Nat) (s : State) : Out :=
  .next (s.vec32 true d a b shrS)

/-- `adds.i32` (R285/14). Saturating signed add with scalar b. -/
def execAddsI32Vs (d : Nat) (a : Nat) (b : Nat) (s : State) : Out :=
  .next (s.vec32 true d a b addSat)

/-- `add.i64` (R285/14). Lane-wise 64-bit add. -/
def execAddI64Vv (d : Nat) (a : Nat) (b : Nat) (s : State) : Out :=
  .next (s.vec64 false d a b (fun x y => x + y))

/-- `sub.i64` (R285/14). Lane-wise 64-bit subtract. -/
def execSubI64Vv (d : Nat) (a : Nat) (b : Nat) (s : State) : Out :=
  .next (s.vec64 false d a b (fun x y => x - y))

/-- `mul.i64` (R285/14). Lane-wise 64-bit multiply. -/
def execMulI64Vv (d : Nat) (a : Nat) (b : Nat) (s : State) : Out :=
  .next (s.vec64 false d a b (fun x y => x * y))

/-- `mulh.i64` (R285/14). Lane-wise 64-bit signed high multiply. -/
def execMulhI64Vv (d : Nat) (a : Nat) (b : Nat) (s : State) : Out :=
  .next (s.vec64 false d a b mulhS)

/-- `mulh.n64` (R285/14). Lane-wise 64-bit unsigned high multiply. -/
def execMulhN64Vv (d : Nat) (a : Nat) (b : Nat) (s : State) : Out :=
  .next (s.vec64 false d a b mulhU)

/-- `min.i64` (R285/14). Lane-wise 64-bit signed minimum. -/
def execMinI64Vv (d : Nat) (a : Nat) (b : Nat) (s : State) : Out :=
  .next (s.vec64 false d a b minS)

/-- `min.n64` (R285/14). Lane-wise 64-bit unsigned minimum. -/
def execMinN64Vv (d : Nat) (a : Nat) (b : Nat) (s : State) : Out :=
  .next (s.vec64 false d a b minU)

/-- `max.i64` (R285/14). Lane-wise 64-bit signed maximum. -/
def execMaxI64Vv (d : Nat) (a : Nat) (b : Nat) (s : State) : Out :=
  .next (s.vec64 false d a b maxS)

/-- `max.n64` (R285/14). Lane-wise 64-bit unsigned maximum. -/
def execMaxN64Vv (d : Nat) (a : Nat) (b : Nat) (s : State) : Out :=
  .next (s.vec64 false d a b maxU)

/-- `and.b64` (R285/14). Lane-wise 64-bit AND. -/
def execAndB64Vv (d : Nat) (a : Nat) (b : Nat) (s : State) : Out :=
  .next (s.vec64 false d a b (fun x y => x &&& y))

/-- `or.b64` (R285/14). Lane-wise 64-bit OR. -/
def execOrB64Vv (d : Nat) (a : Nat) (b : Nat) (s : State) : Out :=
  .next (s.vec64 false d a b (fun x y => x ||| y))

/-- `xor.b64` (R285/14). Lane-wise 64-bit XOR. -/
def execXorB64Vv (d : Nat) (a : Nat) (b : Nat) (s : State) : Out :=
  .next (s.vec64 false d a b (fun x y => x ^^^ y))

/-- `shl.b64` (R285/14). Lane-wise 64-bit shift left. -/
def execShlB64Vv (d : Nat) (a : Nat) (b : Nat) (s : State) : Out :=
  .next (s.vec64 false d a b shlV)

/-- `shr.n64` (R285/14). Lane-wise 64-bit logical shift right. -/
def execShrN64Vv (d : Nat) (a : Nat) (b : Nat) (s : State) : Out :=
  .next (s.vec64 false d a b shrU)

/-- `shr.i64` (R285/14). Lane-wise 64-bit arithmetic shift right. -/
def execShrI64Vv (d : Nat) (a : Nat) (b : Nat) (s : State) : Out :=
  .next (s.vec64 false d a b shrS)

/-- `adds.i64` (R285/14). Lane-wise 64-bit saturating add. -/
def execAddsI64Vv (d : Nat) (a : Nat) (b : Nat) (s : State) : Out :=
  .next (s.vec64 false d a b addSat)

/-- `add.i64` (R285/14). 64-bit add with scalar b. -/
def execAddI64Vs (d : Nat) (a : Nat) (b : Nat) (s : State) : Out :=
  .next (s.vec64 true d a b (fun x y => x + y))

/-- `sub.i64` (R285/14). 64-bit subtract with scalar b. -/
def execSubI64Vs (d : Nat) (a : Nat) (b : Nat) (s : State) : Out :=
  .next (s.vec64 true d a b (fun x y => x - y))

/-- `mul.i64` (R285/14). 64-bit multiply with scalar b. -/
def execMulI64Vs (d : Nat) (a : Nat) (b : Nat) (s : State) : Out :=
  .next (s.vec64 true d a b (fun x y => x * y))

/-- `mulh.i64` (R285/14). 64-bit signed high multiply with scalar b. -/
def execMulhI64Vs (d : Nat) (a : Nat) (b : Nat) (s : State) : Out :=
  .next (s.vec64 true d a b mulhS)

/-- `mulh.n64` (R285/14). 64-bit unsigned high multiply with scalar b. -/
def execMulhN64Vs (d : Nat) (a : Nat) (b : Nat) (s : State) : Out :=
  .next (s.vec64 true d a b mulhU)

/-- `min.i64` (R285/14). 64-bit signed minimum with scalar b. -/
def execMinI64Vs (d : Nat) (a : Nat) (b : Nat) (s : State) : Out :=
  .next (s.vec64 true d a b minS)

/-- `min.n64` (R285/14). 64-bit unsigned minimum with scalar b. -/
def execMinN64Vs (d : Nat) (a : Nat) (b : Nat) (s : State) : Out :=
  .next (s.vec64 true d a b minU)

/-- `max.i64` (R285/14). 64-bit signed maximum with scalar b. -/
def execMaxI64Vs (d : Nat) (a : Nat) (b : Nat) (s : State) : Out :=
  .next (s.vec64 true d a b maxS)

/-- `max.n64` (R285/14). 64-bit unsigned maximum with scalar b. -/
def execMaxN64Vs (d : Nat) (a : Nat) (b : Nat) (s : State) : Out :=
  .next (s.vec64 true d a b maxU)

/-- `and.b64` (R285/14). 64-bit AND with scalar b. -/
def execAndB64Vs (d : Nat) (a : Nat) (b : Nat) (s : State) : Out :=
  .next (s.vec64 true d a b (fun x y => x &&& y))

/-- `or.b64` (R285/14). 64-bit OR with scalar b. -/
def execOrB64Vs (d : Nat) (a : Nat) (b : Nat) (s : State) : Out :=
  .next (s.vec64 true d a b (fun x y => x ||| y))

/-- `xor.b64` (R285/14). 64-bit XOR with scalar b. -/
def execXorB64Vs (d : Nat) (a : Nat) (b : Nat) (s : State) : Out :=
  .next (s.vec64 true d a b (fun x y => x ^^^ y))

/-- `shl.b64` (R285/14). 64-bit shift left by scalar b. -/
def execShlB64Vs (d : Nat) (a : Nat) (b : Nat) (s : State) : Out :=
  .next (s.vec64 true d a b shlV)

/-- `shr.n64` (R285/14). 64-bit logical shift right by scalar b. -/
def execShrN64Vs (d : Nat) (a : Nat) (b : Nat) (s : State) : Out :=
  .next (s.vec64 true d a b shrU)

/-- `shr.i64` (R285/14). 64-bit arithmetic shift right by scalar b. -/
def execShrI64Vs (d : Nat) (a : Nat) (b : Nat) (s : State) : Out :=
  .next (s.vec64 true d a b shrS)

/-- `adds.i64` (R285/14). 64-bit saturating add with scalar b. -/
def execAddsI64Vs (d : Nat) (a : Nat) (b : Nat) (s : State) : Out :=
  .next (s.vec64 true d a b addSat)

/-- `add.f16` (R288/14). Lane-wise f16 add. -/
def execAddF16Vv (d : Nat) (a : Nat) (b : Nat) (s : State) : Out :=
  .next (s.fbin .f16 .add false d a b)

/-- `sub.f16` (R288/14). Lane-wise f16 subtract. -/
def execSubF16Vv (d : Nat) (a : Nat) (b : Nat) (s : State) : Out :=
  .next (s.fbin .f16 .sub false d a b)

/-- `mul.f16` (R288/14). Lane-wise f16 multiply. -/
def execMulF16Vv (d : Nat) (a : Nat) (b : Nat) (s : State) : Out :=
  .next (s.fbin .f16 .mul false d a b)

/-- `div.f16` (R288/14). Lane-wise f16 divide. -/
def execDivF16Vv (d : Nat) (a : Nat) (b : Nat) (s : State) : Out :=
  .next (s.fbin .f16 .div false d a b)

/-- `min.f16` (R288/14). Lane-wise f16 minimum. -/
def execMinF16Vv (d : Nat) (a : Nat) (b : Nat) (s : State) : Out :=
  .next (s.fbin .f16 .min false d a b)

/-- `max.f16` (R288/14). Lane-wise f16 maximum. -/
def execMaxF16Vv (d : Nat) (a : Nat) (b : Nat) (s : State) : Out :=
  .next (s.fbin .f16 .max false d a b)

/-- `fma.f16` (R288/14). Lane-wise f16 fused multiply-add into d. -/
def execFmaF16Vv (d : Nat) (a : Nat) (b : Nat) (s : State) : Out :=
  .next (s.fbin .f16 .fma false d a b)

/-- `fms.f16` (R288/14). Lane-wise f16 fused multiply-subtract. -/
def execFmsF16Vv (d : Nat) (a : Nat) (b : Nat) (s : State) : Out :=
  .next (s.fbin .f16 .fms false d a b)

/-- `fnma.f16` (R288/14). Lane-wise f16 negated fused multiply-add. -/
def execFnmaF16Vv (d : Nat) (a : Nat) (b : Nat) (s : State) : Out :=
  .next (s.fbin .f16 .fnma false d a b)

/-- `copysign.f16` (R288/14). Lane-wise f16 copysign. -/
def execCopysignF16Vv (d : Nat) (a : Nat) (b : Nat) (s : State) : Out :=
  .next (s.fbin .f16 .copysign false d a b)

/-- `add.f16` (R288/14). f16 add with scalar b. -/
def execAddF16Vs (d : Nat) (a : Nat) (b : Nat) (s : State) : Out :=
  .next (s.fbin .f16 .add true d a b)

/-- `sub.f16` (R288/14). f16 subtract with scalar b. -/
def execSubF16Vs (d : Nat) (a : Nat) (b : Nat) (s : State) : Out :=
  .next (s.fbin .f16 .sub true d a b)

/-- `mul.f16` (R288/14). f16 multiply with scalar b. -/
def execMulF16Vs (d : Nat) (a : Nat) (b : Nat) (s : State) : Out :=
  .next (s.fbin .f16 .mul true d a b)

/-- `div.f16` (R288/14). f16 divide by scalar b. -/
def execDivF16Vs (d : Nat) (a : Nat) (b : Nat) (s : State) : Out :=
  .next (s.fbin .f16 .div true d a b)

/-- `min.f16` (R288/14). f16 minimum with scalar b. -/
def execMinF16Vs (d : Nat) (a : Nat) (b : Nat) (s : State) : Out :=
  .next (s.fbin .f16 .min true d a b)

/-- `max.f16` (R288/14). f16 maximum with scalar b. -/
def execMaxF16Vs (d : Nat) (a : Nat) (b : Nat) (s : State) : Out :=
  .next (s.fbin .f16 .max true d a b)

/-- `fma.f16` (R288/14). f16 fused multiply-add with scalar b. -/
def execFmaF16Vs (d : Nat) (a : Nat) (b : Nat) (s : State) : Out :=
  .next (s.fbin .f16 .fma true d a b)

/-- `fms.f16` (R288/14). f16 fused multiply-subtract with scalar b. -/
def execFmsF16Vs (d : Nat) (a : Nat) (b : Nat) (s : State) : Out :=
  .next (s.fbin .f16 .fms true d a b)

/-- `fnma.f16` (R288/14). f16 negated fused multiply-add with scalar b. -/
def execFnmaF16Vs (d : Nat) (a : Nat) (b : Nat) (s : State) : Out :=
  .next (s.fbin .f16 .fnma true d a b)

/-- `copysign.f16` (R288/14). f16 copysign with scalar b. -/
def execCopysignF16Vs (d : Nat) (a : Nat) (b : Nat) (s : State) : Out :=
  .next (s.fbin .f16 .copysign true d a b)

/-- `add.f32` (R288/14). Lane-wise f32 add. -/
def execAddF32Vv (d : Nat) (a : Nat) (b : Nat) (s : State) : Out :=
  .next (s.fbin .f32 .add false d a b)

/-- `sub.f32` (R288/14). Lane-wise f32 subtract. -/
def execSubF32Vv (d : Nat) (a : Nat) (b : Nat) (s : State) : Out :=
  .next (s.fbin .f32 .sub false d a b)

/-- `mul.f32` (R288/14). Lane-wise f32 multiply. -/
def execMulF32Vv (d : Nat) (a : Nat) (b : Nat) (s : State) : Out :=
  .next (s.fbin .f32 .mul false d a b)

/-- `div.f32` (R288/14). Lane-wise f32 divide. -/
def execDivF32Vv (d : Nat) (a : Nat) (b : Nat) (s : State) : Out :=
  .next (s.fbin .f32 .div false d a b)

/-- `min.f32` (R288/14). Lane-wise f32 minimum. -/
def execMinF32Vv (d : Nat) (a : Nat) (b : Nat) (s : State) : Out :=
  .next (s.fbin .f32 .min false d a b)

/-- `max.f32` (R288/14). Lane-wise f32 maximum. -/
def execMaxF32Vv (d : Nat) (a : Nat) (b : Nat) (s : State) : Out :=
  .next (s.fbin .f32 .max false d a b)

/-- `fma.f32` (R288/14). Lane-wise f32 fused multiply-add into d. -/
def execFmaF32Vv (d : Nat) (a : Nat) (b : Nat) (s : State) : Out :=
  .next (s.fbin .f32 .fma false d a b)

/-- `fms.f32` (R288/14). Lane-wise f32 fused multiply-subtract. -/
def execFmsF32Vv (d : Nat) (a : Nat) (b : Nat) (s : State) : Out :=
  .next (s.fbin .f32 .fms false d a b)

/-- `fnma.f32` (R288/14). Lane-wise f32 negated fused multiply-add. -/
def execFnmaF32Vv (d : Nat) (a : Nat) (b : Nat) (s : State) : Out :=
  .next (s.fbin .f32 .fnma false d a b)

/-- `copysign.f32` (R288/14). Lane-wise f32 copysign. -/
def execCopysignF32Vv (d : Nat) (a : Nat) (b : Nat) (s : State) : Out :=
  .next (s.fbin .f32 .copysign false d a b)

/-- `add.f32` (R288/14). f32 add with scalar b. -/
def execAddF32Vs (d : Nat) (a : Nat) (b : Nat) (s : State) : Out :=
  .next (s.fbin .f32 .add true d a b)

/-- `sub.f32` (R288/14). f32 subtract with scalar b. -/
def execSubF32Vs (d : Nat) (a : Nat) (b : Nat) (s : State) : Out :=
  .next (s.fbin .f32 .sub true d a b)

/-- `mul.f32` (R288/14). f32 multiply with scalar b. -/
def execMulF32Vs (d : Nat) (a : Nat) (b : Nat) (s : State) : Out :=
  .next (s.fbin .f32 .mul true d a b)

/-- `div.f32` (R288/14). f32 divide by scalar b. -/
def execDivF32Vs (d : Nat) (a : Nat) (b : Nat) (s : State) : Out :=
  .next (s.fbin .f32 .div true d a b)

/-- `min.f32` (R288/14). f32 minimum with scalar b. -/
def execMinF32Vs (d : Nat) (a : Nat) (b : Nat) (s : State) : Out :=
  .next (s.fbin .f32 .min true d a b)

/-- `max.f32` (R288/14). f32 maximum with scalar b. -/
def execMaxF32Vs (d : Nat) (a : Nat) (b : Nat) (s : State) : Out :=
  .next (s.fbin .f32 .max true d a b)

/-- `fma.f32` (R288/14). f32 fused multiply-add with scalar b. -/
def execFmaF32Vs (d : Nat) (a : Nat) (b : Nat) (s : State) : Out :=
  .next (s.fbin .f32 .fma true d a b)

/-- `fms.f32` (R288/14). f32 fused multiply-subtract with scalar b. -/
def execFmsF32Vs (d : Nat) (a : Nat) (b : Nat) (s : State) : Out :=
  .next (s.fbin .f32 .fms true d a b)

/-- `fnma.f32` (R288/14). f32 negated fused multiply-add with scalar b. -/
def execFnmaF32Vs (d : Nat) (a : Nat) (b : Nat) (s : State) : Out :=
  .next (s.fbin .f32 .fnma true d a b)

/-- `copysign.f32` (R288/14). f32 copysign with scalar b. -/
def execCopysignF32Vs (d : Nat) (a : Nat) (b : Nat) (s : State) : Out :=
  .next (s.fbin .f32 .copysign true d a b)

/-- `add.bf16` (R288/14). Lane-wise bf16 add. -/
def execAddBf16Vv (d : Nat) (a : Nat) (b : Nat) (s : State) : Out :=
  .next (s.fbin .bf16 .add false d a b)

/-- `sub.bf16` (R288/14). Lane-wise bf16 subtract. -/
def execSubBf16Vv (d : Nat) (a : Nat) (b : Nat) (s : State) : Out :=
  .next (s.fbin .bf16 .sub false d a b)

/-- `mul.bf16` (R288/14). Lane-wise bf16 multiply. -/
def execMulBf16Vv (d : Nat) (a : Nat) (b : Nat) (s : State) : Out :=
  .next (s.fbin .bf16 .mul false d a b)

/-- `div.bf16` (R288/14). Lane-wise bf16 divide. -/
def execDivBf16Vv (d : Nat) (a : Nat) (b : Nat) (s : State) : Out :=
  .next (s.fbin .bf16 .div false d a b)

/-- `min.bf16` (R288/14). Lane-wise bf16 minimum. -/
def execMinBf16Vv (d : Nat) (a : Nat) (b : Nat) (s : State) : Out :=
  .next (s.fbin .bf16 .min false d a b)

/-- `max.bf16` (R288/14). Lane-wise bf16 maximum. -/
def execMaxBf16Vv (d : Nat) (a : Nat) (b : Nat) (s : State) : Out :=
  .next (s.fbin .bf16 .max false d a b)

/-- `fma.bf16` (R288/14). Lane-wise bf16 fused multiply-add. -/
def execFmaBf16Vv (d : Nat) (a : Nat) (b : Nat) (s : State) : Out :=
  .next (s.fbin .bf16 .fma false d a b)

/-- `fms.bf16` (R288/14). Lane-wise bf16 fused multiply-subtract. -/
def execFmsBf16Vv (d : Nat) (a : Nat) (b : Nat) (s : State) : Out :=
  .next (s.fbin .bf16 .fms false d a b)

/-- `fnma.bf16` (R288/14). Lane-wise bf16 negated fused multiply-add. -/
def execFnmaBf16Vv (d : Nat) (a : Nat) (b : Nat) (s : State) : Out :=
  .next (s.fbin .bf16 .fnma false d a b)

/-- `copysign.bf16` (R288/14). Lane-wise bf16 copysign. -/
def execCopysignBf16Vv (d : Nat) (a : Nat) (b : Nat) (s : State) : Out :=
  .next (s.fbin .bf16 .copysign false d a b)

/-- `add.bf16` (R288/14). bf16 add with scalar b. -/
def execAddBf16Vs (d : Nat) (a : Nat) (b : Nat) (s : State) : Out :=
  .next (s.fbin .bf16 .add true d a b)

/-- `sub.bf16` (R288/14). bf16 subtract with scalar b. -/
def execSubBf16Vs (d : Nat) (a : Nat) (b : Nat) (s : State) : Out :=
  .next (s.fbin .bf16 .sub true d a b)

/-- `mul.bf16` (R288/14). bf16 multiply with scalar b. -/
def execMulBf16Vs (d : Nat) (a : Nat) (b : Nat) (s : State) : Out :=
  .next (s.fbin .bf16 .mul true d a b)

/-- `div.bf16` (R288/14). bf16 divide by scalar b. -/
def execDivBf16Vs (d : Nat) (a : Nat) (b : Nat) (s : State) : Out :=
  .next (s.fbin .bf16 .div true d a b)

/-- `min.bf16` (R288/14). bf16 minimum with scalar b. -/
def execMinBf16Vs (d : Nat) (a : Nat) (b : Nat) (s : State) : Out :=
  .next (s.fbin .bf16 .min true d a b)

/-- `max.bf16` (R288/14). bf16 maximum with scalar b. -/
def execMaxBf16Vs (d : Nat) (a : Nat) (b : Nat) (s : State) : Out :=
  .next (s.fbin .bf16 .max true d a b)

/-- `fma.bf16` (R288/14). bf16 fused multiply-add with scalar b. -/
def execFmaBf16Vs (d : Nat) (a : Nat) (b : Nat) (s : State) : Out :=
  .next (s.fbin .bf16 .fma true d a b)

/-- `fms.bf16` (R288/14). bf16 fused multiply-subtract with scalar b. -/
def execFmsBf16Vs (d : Nat) (a : Nat) (b : Nat) (s : State) : Out :=
  .next (s.fbin .bf16 .fms true d a b)

/-- `fnma.bf16` (R288/14). bf16 negated fused multiply-add with scalar b. -/
def execFnmaBf16Vs (d : Nat) (a : Nat) (b : Nat) (s : State) : Out :=
  .next (s.fbin .bf16 .fnma true d a b)

/-- `copysign.bf16` (R288/14). bf16 copysign with scalar b. -/
def execCopysignBf16Vs (d : Nat) (a : Nat) (b : Nat) (s : State) : Out :=
  .next (s.fbin .bf16 .copysign true d a b)

/-- `add.f64` (R288/14). Lane-wise f64 add on pairs. -/
def execAddF64Vv (d : Nat) (a : Nat) (b : Nat) (s : State) : Out :=
  .next (s.fbin64 .add false d a b)

/-- `sub.f64` (R288/14). Lane-wise f64 subtract. -/
def execSubF64Vv (d : Nat) (a : Nat) (b : Nat) (s : State) : Out :=
  .next (s.fbin64 .sub false d a b)

/-- `mul.f64` (R288/14). Lane-wise f64 multiply. -/
def execMulF64Vv (d : Nat) (a : Nat) (b : Nat) (s : State) : Out :=
  .next (s.fbin64 .mul false d a b)

/-- `div.f64` (R288/14). Lane-wise f64 divide. -/
def execDivF64Vv (d : Nat) (a : Nat) (b : Nat) (s : State) : Out :=
  .next (s.fbin64 .div false d a b)

/-- `min.f64` (R288/14). Lane-wise f64 minimum. -/
def execMinF64Vv (d : Nat) (a : Nat) (b : Nat) (s : State) : Out :=
  .next (s.fbin64 .min false d a b)

/-- `max.f64` (R288/14). Lane-wise f64 maximum. -/
def execMaxF64Vv (d : Nat) (a : Nat) (b : Nat) (s : State) : Out :=
  .next (s.fbin64 .max false d a b)

/-- `fma.f64` (R288/14). Lane-wise f64 fused multiply-add. -/
def execFmaF64Vv (d : Nat) (a : Nat) (b : Nat) (s : State) : Out :=
  .next (s.fbin64 .fma false d a b)

/-- `fms.f64` (R288/14). Lane-wise f64 fused multiply-subtract. -/
def execFmsF64Vv (d : Nat) (a : Nat) (b : Nat) (s : State) : Out :=
  .next (s.fbin64 .fms false d a b)

/-- `fnma.f64` (R288/14). Lane-wise f64 negated fused multiply-add. -/
def execFnmaF64Vv (d : Nat) (a : Nat) (b : Nat) (s : State) : Out :=
  .next (s.fbin64 .fnma false d a b)

/-- `copysign.f64` (R288/14). Lane-wise f64 copysign. -/
def execCopysignF64Vv (d : Nat) (a : Nat) (b : Nat) (s : State) : Out :=
  .next (s.fbin64 .copysign false d a b)

/-- `add.f64` (R288/14). f64 add with scalar b. -/
def execAddF64Vs (d : Nat) (a : Nat) (b : Nat) (s : State) : Out :=
  .next (s.fbin64 .add true d a b)

/-- `sub.f64` (R288/14). f64 subtract with scalar b. -/
def execSubF64Vs (d : Nat) (a : Nat) (b : Nat) (s : State) : Out :=
  .next (s.fbin64 .sub true d a b)

/-- `mul.f64` (R288/14). f64 multiply with scalar b. -/
def execMulF64Vs (d : Nat) (a : Nat) (b : Nat) (s : State) : Out :=
  .next (s.fbin64 .mul true d a b)

/-- `div.f64` (R288/14). f64 divide by scalar b. -/
def execDivF64Vs (d : Nat) (a : Nat) (b : Nat) (s : State) : Out :=
  .next (s.fbin64 .div true d a b)

/-- `min.f64` (R288/14). f64 minimum with scalar b. -/
def execMinF64Vs (d : Nat) (a : Nat) (b : Nat) (s : State) : Out :=
  .next (s.fbin64 .min true d a b)

/-- `max.f64` (R288/14). f64 maximum with scalar b. -/
def execMaxF64Vs (d : Nat) (a : Nat) (b : Nat) (s : State) : Out :=
  .next (s.fbin64 .max true d a b)

/-- `fma.f64` (R288/14). f64 fused multiply-add with scalar b. -/
def execFmaF64Vs (d : Nat) (a : Nat) (b : Nat) (s : State) : Out :=
  .next (s.fbin64 .fma true d a b)

/-- `fms.f64` (R288/14). f64 fused multiply-subtract with scalar b. -/
def execFmsF64Vs (d : Nat) (a : Nat) (b : Nat) (s : State) : Out :=
  .next (s.fbin64 .fms true d a b)

/-- `fnma.f64` (R288/14). f64 negated fused multiply-add with scalar b. -/
def execFnmaF64Vs (d : Nat) (a : Nat) (b : Nat) (s : State) : Out :=
  .next (s.fbin64 .fnma true d a b)

/-- `copysign.f64` (R288/14). f64 copysign with scalar b. -/
def execCopysignF64Vs (d : Nat) (a : Nat) (b : Nat) (s : State) : Out :=
  .next (s.fbin64 .copysign true d a b)

/-- `div.i32` (R286/14). Lane-wise signed 32-bit division. -/
def execDivI32Vv (d : Nat) (a : Nat) (b : Nat) (s : State) : Out :=
  .next (s.vdiv32 false d a b divS)

/-- `div.n32` (R286/14). Lane-wise unsigned 32-bit division. -/
def execDivN32Vv (d : Nat) (a : Nat) (b : Nat) (s : State) : Out :=
  .next (s.vdiv32 false d a b divU)

/-- `rem.i32` (R286/14). Lane-wise signed 32-bit remainder. -/
def execRemI32Vv (d : Nat) (a : Nat) (b : Nat) (s : State) : Out :=
  .next (s.vdiv32 false d a b remS)

/-- `rem.n32` (R286/14). Lane-wise unsigned 32-bit remainder. -/
def execRemN32Vv (d : Nat) (a : Nat) (b : Nat) (s : State) : Out :=
  .next (s.vdiv32 false d a b remU)

/-- `div.i64` (R286/14). Lane-wise signed 64-bit division. -/
def execDivI64Vv (d : Nat) (a : Nat) (b : Nat) (s : State) : Out :=
  .next (s.vdiv64 false d a b divS)

/-- `div.n64` (R286/14). Lane-wise unsigned 64-bit division. -/
def execDivN64Vv (d : Nat) (a : Nat) (b : Nat) (s : State) : Out :=
  .next (s.vdiv64 false d a b divU)

/-- `rem.i64` (R286/14). Lane-wise signed 64-bit remainder. -/
def execRemI64Vv (d : Nat) (a : Nat) (b : Nat) (s : State) : Out :=
  .next (s.vdiv64 false d a b remS)

/-- `rem.n64` (R286/14). Lane-wise unsigned 64-bit remainder. -/
def execRemN64Vv (d : Nat) (a : Nat) (b : Nat) (s : State) : Out :=
  .next (s.vdiv64 false d a b remU)

/-- `div.i32` (R286/14). Signed 32-bit division by scalar b. -/
def execDivI32Vs (d : Nat) (a : Nat) (b : Nat) (s : State) : Out :=
  .next (s.vdiv32 true d a b divS)

/-- `div.n32` (R286/14). Unsigned 32-bit division by scalar b. -/
def execDivN32Vs (d : Nat) (a : Nat) (b : Nat) (s : State) : Out :=
  .next (s.vdiv32 true d a b divU)

/-- `rem.i32` (R286/14). Signed 32-bit remainder by scalar b. -/
def execRemI32Vs (d : Nat) (a : Nat) (b : Nat) (s : State) : Out :=
  .next (s.vdiv32 true d a b remS)

/-- `rem.n32` (R286/14). Unsigned 32-bit remainder by scalar b. -/
def execRemN32Vs (d : Nat) (a : Nat) (b : Nat) (s : State) : Out :=
  .next (s.vdiv32 true d a b remU)

/-- `div.i64` (R286/14). Signed 64-bit division by scalar b. -/
def execDivI64Vs (d : Nat) (a : Nat) (b : Nat) (s : State) : Out :=
  .next (s.vdiv64 true d a b divS)

/-- `div.n64` (R286/14). Unsigned 64-bit division by scalar b. -/
def execDivN64Vs (d : Nat) (a : Nat) (b : Nat) (s : State) : Out :=
  .next (s.vdiv64 true d a b divU)

/-- `rem.i64` (R286/14). Signed 64-bit remainder by scalar b. -/
def execRemI64Vs (d : Nat) (a : Nat) (b : Nat) (s : State) : Out :=
  .next (s.vdiv64 true d a b remS)

/-- `rem.n64` (R286/14). Unsigned 64-bit remainder by scalar b. -/
def execRemN64Vs (d : Nat) (a : Nat) (b : Nat) (s : State) : Out :=
  .next (s.vdiv64 true d a b remU)

/-- `popc.b32` (R287/14). Lane-wise 32-bit population count. -/
def execPopcB32 (d : Nat) (a : Nat) (s : State) : Out :=
  .next (s.vun32 d a popc)

/-- `clz.b32` (R287/14). Lane-wise 32-bit leading zeros. -/
def execClzB32 (d : Nat) (a : Nat) (s : State) : Out :=
  .next (s.vun32 d a clzV)

/-- `ctz.b32` (R287/14). Lane-wise 32-bit trailing zeros. -/
def execCtzB32 (d : Nat) (a : Nat) (s : State) : Out :=
  .next (s.vun32 d a ctzV)

/-- `brev.b32` (R287/14). Lane-wise 32-bit bit reversal. -/
def execBrevB32 (d : Nat) (a : Nat) (s : State) : Out :=
  .next (s.vun32 d a brevV)

/-- `not.b32` (R287/14). Lane-wise 32-bit NOT. -/
def execNotB32 (d : Nat) (a : Nat) (s : State) : Out :=
  .next (s.vun32 d a (fun x => ~~~x))

/-- `neg.i32` (R287/14). Lane-wise 32-bit negation. -/
def execNegI32 (d : Nat) (a : Nat) (s : State) : Out :=
  .next (s.vun32 d a (fun x => -x))

/-- `abs.i32` (R287/14). Lane-wise 32-bit absolute value. -/
def execAbsI32 (d : Nat) (a : Nat) (s : State) : Out :=
  .next (s.vun32 d a absV)

/-- `popc.b64` (R287/14). Lane-wise 64-bit population count. -/
def execPopcB64 (d : Nat) (a : Nat) (s : State) : Out :=
  .next (s.vun64 d a popc)

/-- `clz.b64` (R287/14). Lane-wise 64-bit leading zeros. -/
def execClzB64 (d : Nat) (a : Nat) (s : State) : Out :=
  .next (s.vun64 d a clzV)

/-- `ctz.b64` (R287/14). Lane-wise 64-bit trailing zeros. -/
def execCtzB64 (d : Nat) (a : Nat) (s : State) : Out :=
  .next (s.vun64 d a ctzV)

/-- `brev.b64` (R287/14). Lane-wise 64-bit bit reversal. -/
def execBrevB64 (d : Nat) (a : Nat) (s : State) : Out :=
  .next (s.vun64 d a brevV)

/-- `not.b64` (R287/14). Lane-wise 64-bit NOT. -/
def execNotB64 (d : Nat) (a : Nat) (s : State) : Out :=
  .next (s.vun64 d a (fun x => ~~~x))

/-- `neg.i64` (R287/14). Lane-wise 64-bit negation. -/
def execNegI64 (d : Nat) (a : Nat) (s : State) : Out :=
  .next (s.vun64 d a (fun x => -x))

/-- `abs.i64` (R287/14). Lane-wise 64-bit absolute value. -/
def execAbsI64 (d : Nat) (a : Nat) (s : State) : Out :=
  .next (s.vun64 d a absV)

/-- `abs.f32` (R290/14). f32 absolute value. -/
def execAbsF32 (d : Nat) (a : Nat) (s : State) : Out :=
  .next (s.fun32 .f32 .abs d a)

/-- `neg.f32` (R290/14). f32 negation. -/
def execNegF32 (d : Nat) (a : Nat) (s : State) : Out :=
  .next (s.fun32 .f32 .neg d a)

/-- `rint.f32` (R290/14). f32 round to integer by the current mode. -/
def execRintF32 (d : Nat) (a : Nat) (s : State) : Out :=
  .next (s.fun32 .f32 .rint d a)

/-- `floor.f32` (R290/14). f32 floor. -/
def execFloorF32 (d : Nat) (a : Nat) (s : State) : Out :=
  .next (s.fun32 .f32 .floor d a)

/-- `ceil.f32` (R290/14). f32 ceiling. -/
def execCeilF32 (d : Nat) (a : Nat) (s : State) : Out :=
  .next (s.fun32 .f32 .ceil d a)

/-- `trunc.f32` (R290/14). f32 truncation. -/
def execTruncF32 (d : Nat) (a : Nat) (s : State) : Out :=
  .next (s.fun32 .f32 .trunc d a)

/-- `abs.f16` (R290/14). f16 absolute value. -/
def execAbsF16 (d : Nat) (a : Nat) (s : State) : Out :=
  .next (s.fun32 .f16 .abs d a)

/-- `neg.f16` (R290/14). f16 negation. -/
def execNegF16 (d : Nat) (a : Nat) (s : State) : Out :=
  .next (s.fun32 .f16 .neg d a)

/-- `abs.bf16` (R290/14). bf16 absolute value. -/
def execAbsBf16 (d : Nat) (a : Nat) (s : State) : Out :=
  .next (s.fun32 .bf16 .abs d a)

/-- `neg.bf16` (R290/14). bf16 negation. -/
def execNegBf16 (d : Nat) (a : Nat) (s : State) : Out :=
  .next (s.fun32 .bf16 .neg d a)

/-- `abs.f64` (R290/14). f64 absolute value. -/
def execAbsF64 (d : Nat) (a : Nat) (s : State) : Out :=
  .next (s.fun64 .abs d a)

/-- `neg.f64` (R290/14). f64 negation. -/
def execNegF64 (d : Nat) (a : Nat) (s : State) : Out :=
  .next (s.fun64 .neg d a)

/-- `rcp.f32` (R291/14). Per-lane f32 reciprocal. -/
def execRcpF32V (d : Nat) (a : Nat) (l : Nat) (s : State) : Out :=
  .next (s.transOp .rcp d l fun ln => s.me.vget ln a)

/-- `rcp.f32` (R291/14). The scalar is read once; every active lane gets the same result (R291/14). -/
def execRcpF32S (d : Nat) (a : Nat) (l : Nat) (s : State) : Out :=
  .next (s.transOp .rcp d l fun _ => (s.src a).setWidth 32)

/-- `rsqrt.f32` (R291/14). Per-lane correctly rounded reciprocal square root. -/
def execRsqrtF32V (d : Nat) (a : Nat) (l : Nat) (s : State) : Out :=
  .next (s.transOp .rsqrt d l fun ln => s.me.vget ln a)

/-- `rsqrt.f32` (R291/14). The scalar is read once; every active lane gets the same result (R291/14). -/
def execRsqrtF32S (d : Nat) (a : Nat) (l : Nat) (s : State) : Out :=
  .next (s.transOp .rsqrt d l fun _ => (s.src a).setWidth 32)

/-- `sqrt.f32` (R291/14). Per-lane f32 square root. -/
def execSqrtF32V (d : Nat) (a : Nat) (l : Nat) (s : State) : Out :=
  .next (s.transOp .sqrt d l fun ln => s.me.vget ln a)

/-- `sqrt.f32` (R291/14). The scalar is read once; every active lane gets the same result (R291/14). -/
def execSqrtF32S (d : Nat) (a : Nat) (l : Nat) (s : State) : Out :=
  .next (s.transOp .sqrt d l fun _ => (s.src a).setWidth 32)

/-- `exp2.f32` (R291/14). Per-lane correctly rounded base-2 exponential. -/
def execExp2F32V (d : Nat) (a : Nat) (l : Nat) (s : State) : Out :=
  .next (s.transOp .exp2 d l fun ln => s.me.vget ln a)

/-- `exp2.f32` (R291/14). The scalar is read once; every active lane gets the same result (R291/14). -/
def execExp2F32S (d : Nat) (a : Nat) (l : Nat) (s : State) : Out :=
  .next (s.transOp .exp2 d l fun _ => (s.src a).setWidth 32)

/-- `log2.f32` (R291/14). Per-lane correctly rounded base-2 logarithm. -/
def execLog2F32V (d : Nat) (a : Nat) (l : Nat) (s : State) : Out :=
  .next (s.transOp .log2 d l fun ln => s.me.vget ln a)

/-- `log2.f32` (R291/14). The scalar is read once; every active lane gets the same result (R291/14). -/
def execLog2F32S (d : Nat) (a : Nat) (l : Nat) (s : State) : Out :=
  .next (s.transOp .log2 d l fun _ => (s.src a).setWidth 32)

/-- `sin.f32` (R291/14). Per-lane correctly rounded sine. -/
def execSinF32V (d : Nat) (a : Nat) (l : Nat) (s : State) : Out :=
  .next (s.transOp .sin d l fun ln => s.me.vget ln a)

/-- `sin.f32` (R291/14). The scalar is read once; every active lane gets the same result (R291/14). -/
def execSinF32S (d : Nat) (a : Nat) (l : Nat) (s : State) : Out :=
  .next (s.transOp .sin d l fun _ => (s.src a).setWidth 32)

/-- `cos.f32` (R291/14). Per-lane correctly rounded cosine. -/
def execCosF32V (d : Nat) (a : Nat) (l : Nat) (s : State) : Out :=
  .next (s.transOp .cos d l fun ln => s.me.vget ln a)

/-- `cos.f32` (R291/14). The scalar is read once; every active lane gets the same result (R291/14). -/
def execCosF32S (d : Nat) (a : Nat) (l : Nat) (s : State) : Out :=
  .next (s.transOp .cos d l fun _ => (s.src a).setWidth 32)

/-- `tanh.f32` (R291/14). Per-lane correctly rounded hyperbolic tangent. -/
def execTanhF32V (d : Nat) (a : Nat) (l : Nat) (s : State) : Out :=
  .next (s.transOp .tanh d l fun ln => s.me.vget ln a)

/-- `tanh.f32` (R291/14). The scalar is read once; every active lane gets the same result (R291/14). -/
def execTanhF32S (d : Nat) (a : Nat) (l : Nat) (s : State) : Out :=
  .next (s.transOp .tanh d l fun _ => (s.src a).setWidth 32)

/-- `ceq.f32` (R292/14). f32 equality into a predicate. -/
def execCeqF32Vv (d : Nat) (a : Nat) (b : Nat) (s : State) : Out :=
  .next (s.fcmp32 .f32 .eq false d a b)

/-- `clt.f32` (R292/14). f32 less-than into a predicate. -/
def execCltF32Vv (d : Nat) (a : Nat) (b : Nat) (s : State) : Out :=
  .next (s.fcmp32 .f32 .lt false d a b)

/-- `cle.f32` (R292/14). f32 less-or-equal into a predicate. -/
def execCleF32Vv (d : Nat) (a : Nat) (b : Nat) (s : State) : Out :=
  .next (s.fcmp32 .f32 .le false d a b)

/-- `cun.f32` (R292/14). f32 unordered test into a predicate. -/
def execCunF32Vv (d : Nat) (a : Nat) (b : Nat) (s : State) : Out :=
  .next (s.fcmp32 .f32 .un false d a b)

/-- `ceq.f16` (R292/14). f16 equality. -/
def execCeqF16Vv (d : Nat) (a : Nat) (b : Nat) (s : State) : Out :=
  .next (s.fcmp32 .f16 .eq false d a b)

/-- `clt.f16` (R292/14). f16 less-than. -/
def execCltF16Vv (d : Nat) (a : Nat) (b : Nat) (s : State) : Out :=
  .next (s.fcmp32 .f16 .lt false d a b)

/-- `cle.f16` (R292/14). f16 less-or-equal. -/
def execCleF16Vv (d : Nat) (a : Nat) (b : Nat) (s : State) : Out :=
  .next (s.fcmp32 .f16 .le false d a b)

/-- `cun.f16` (R292/14). f16 unordered test. -/
def execCunF16Vv (d : Nat) (a : Nat) (b : Nat) (s : State) : Out :=
  .next (s.fcmp32 .f16 .un false d a b)

/-- `ceq.bf16` (R292/14). bf16 equality. -/
def execCeqBf16Vv (d : Nat) (a : Nat) (b : Nat) (s : State) : Out :=
  .next (s.fcmp32 .bf16 .eq false d a b)

/-- `clt.bf16` (R292/14). bf16 less-than. -/
def execCltBf16Vv (d : Nat) (a : Nat) (b : Nat) (s : State) : Out :=
  .next (s.fcmp32 .bf16 .lt false d a b)

/-- `cle.bf16` (R292/14). bf16 less-or-equal. -/
def execCleBf16Vv (d : Nat) (a : Nat) (b : Nat) (s : State) : Out :=
  .next (s.fcmp32 .bf16 .le false d a b)

/-- `ceq.f64` (R292/14). f64 equality. -/
def execCeqF64Vv (d : Nat) (a : Nat) (b : Nat) (s : State) : Out :=
  .next (s.fcmp64 .eq false d a b)

/-- `clt.f64` (R292/14). f64 less-than. -/
def execCltF64Vv (d : Nat) (a : Nat) (b : Nat) (s : State) : Out :=
  .next (s.fcmp64 .lt false d a b)

/-- `cle.f64` (R292/14). f64 less-or-equal. -/
def execCleF64Vv (d : Nat) (a : Nat) (b : Nat) (s : State) : Out :=
  .next (s.fcmp64 .le false d a b)

/-- `cun.f64` (R292/14). f64 unordered test. -/
def execCunF64Vv (d : Nat) (a : Nat) (b : Nat) (s : State) : Out :=
  .next (s.fcmp64 .un false d a b)

/-- `ceq.b32` (R292/14). 32-bit pattern equality into a predicate. -/
def execCeqB32Vv (d : Nat) (a : Nat) (b : Nat) (s : State) : Out :=
  .next (s.vcmp32 false d a b (fun x y => x == y))

/-- `clt.i32` (R292/14). Signed 32-bit less-than. -/
def execCltI32Vv (d : Nat) (a : Nat) (b : Nat) (s : State) : Out :=
  .next (s.vcmp32 false d a b (fun x y => x.slt y))

/-- `cle.i32` (R292/14). Signed 32-bit less-or-equal. -/
def execCleI32Vv (d : Nat) (a : Nat) (b : Nat) (s : State) : Out :=
  .next (s.vcmp32 false d a b (fun x y => x.sle y))

/-- `clt.n32` (R292/14). Unsigned 32-bit less-than. -/
def execCltN32Vv (d : Nat) (a : Nat) (b : Nat) (s : State) : Out :=
  .next (s.vcmp32 false d a b (fun x y => x.ult y))

/-- `cle.n32` (R292/14). Unsigned 32-bit less-or-equal. -/
def execCleN32Vv (d : Nat) (a : Nat) (b : Nat) (s : State) : Out :=
  .next (s.vcmp32 false d a b (fun x y => x.ule y))

/-- `ceq.b64` (R292/14). 64-bit pattern equality. -/
def execCeqB64Vv (d : Nat) (a : Nat) (b : Nat) (s : State) : Out :=
  .next (s.vcmp64 false d a b (fun x y => x == y))

/-- `clt.i64` (R292/14). Signed 64-bit less-than. -/
def execCltI64Vv (d : Nat) (a : Nat) (b : Nat) (s : State) : Out :=
  .next (s.vcmp64 false d a b (fun x y => x.slt y))

/-- `cle.i64` (R292/14). Signed 64-bit less-or-equal. -/
def execCleI64Vv (d : Nat) (a : Nat) (b : Nat) (s : State) : Out :=
  .next (s.vcmp64 false d a b (fun x y => x.sle y))

/-- `clt.n64` (R292/14). Unsigned 64-bit less-than. -/
def execCltN64Vv (d : Nat) (a : Nat) (b : Nat) (s : State) : Out :=
  .next (s.vcmp64 false d a b (fun x y => x.ult y))

/-- `cle.n64` (R292/14). Unsigned 64-bit less-or-equal. -/
def execCleN64Vv (d : Nat) (a : Nat) (b : Nat) (s : State) : Out :=
  .next (s.vcmp64 false d a b (fun x y => x.ule y))

/-- `sel.b32` (R293/14). Selects a or b per lane by a predicate. -/
def execSelB32Vv (d : Nat) (a : Nat) (b : Nat) (p : Nat) (s : State) : Out :=
  .next (s.vwrite d fun l => if (s.me.pget p).getLsbD l then s.me.vget l a else s.opB s.me false l b).retire

/-- `sel.b64` (R293/14). Selects 64-bit a or b per lane by a predicate. -/
def execSelB64Vv (d : Nat) (a : Nat) (b : Nat) (p : Nat) (s : State) : Out :=
  .next (s.vwrite64 d fun l => if (s.me.pget p).getLsbD l then s.me.vget64 l a else s.opB64 s.me false l b).retire

/-- `ceq.f32` (R292/14). f32 equality with scalar b. -/
def execCeqF32Vs (d : Nat) (a : Nat) (b : Nat) (s : State) : Out :=
  .next (s.fcmp32 .f32 .eq true d a b)

/-- `clt.f32` (R292/14). f32 less-than with scalar b. -/
def execCltF32Vs (d : Nat) (a : Nat) (b : Nat) (s : State) : Out :=
  .next (s.fcmp32 .f32 .lt true d a b)

/-- `cle.f32` (R292/14). f32 less-or-equal with scalar b. -/
def execCleF32Vs (d : Nat) (a : Nat) (b : Nat) (s : State) : Out :=
  .next (s.fcmp32 .f32 .le true d a b)

/-- `cun.f32` (R292/14). f32 unordered test with scalar b. -/
def execCunF32Vs (d : Nat) (a : Nat) (b : Nat) (s : State) : Out :=
  .next (s.fcmp32 .f32 .un true d a b)

/-- `ceq.f16` (R292/14). f16 equality with scalar b. -/
def execCeqF16Vs (d : Nat) (a : Nat) (b : Nat) (s : State) : Out :=
  .next (s.fcmp32 .f16 .eq true d a b)

/-- `clt.f16` (R292/14). f16 less-than with scalar b. -/
def execCltF16Vs (d : Nat) (a : Nat) (b : Nat) (s : State) : Out :=
  .next (s.fcmp32 .f16 .lt true d a b)

/-- `cle.f16` (R292/14). f16 less-or-equal with scalar b. -/
def execCleF16Vs (d : Nat) (a : Nat) (b : Nat) (s : State) : Out :=
  .next (s.fcmp32 .f16 .le true d a b)

/-- `cun.f16` (R292/14). f16 unordered test with scalar b. -/
def execCunF16Vs (d : Nat) (a : Nat) (b : Nat) (s : State) : Out :=
  .next (s.fcmp32 .f16 .un true d a b)

/-- `ceq.bf16` (R292/14). bf16 equality with scalar b. -/
def execCeqBf16Vs (d : Nat) (a : Nat) (b : Nat) (s : State) : Out :=
  .next (s.fcmp32 .bf16 .eq true d a b)

/-- `clt.bf16` (R292/14). bf16 less-than with scalar b. -/
def execCltBf16Vs (d : Nat) (a : Nat) (b : Nat) (s : State) : Out :=
  .next (s.fcmp32 .bf16 .lt true d a b)

/-- `cle.bf16` (R292/14). bf16 less-or-equal with scalar b. -/
def execCleBf16Vs (d : Nat) (a : Nat) (b : Nat) (s : State) : Out :=
  .next (s.fcmp32 .bf16 .le true d a b)

/-- `ceq.f64` (R292/14). f64 equality with scalar b. -/
def execCeqF64Vs (d : Nat) (a : Nat) (b : Nat) (s : State) : Out :=
  .next (s.fcmp64 .eq true d a b)

/-- `clt.f64` (R292/14). f64 less-than with scalar b. -/
def execCltF64Vs (d : Nat) (a : Nat) (b : Nat) (s : State) : Out :=
  .next (s.fcmp64 .lt true d a b)

/-- `cle.f64` (R292/14). f64 less-or-equal with scalar b. -/
def execCleF64Vs (d : Nat) (a : Nat) (b : Nat) (s : State) : Out :=
  .next (s.fcmp64 .le true d a b)

/-- `cun.f64` (R292/14). f64 unordered test with scalar b. -/
def execCunF64Vs (d : Nat) (a : Nat) (b : Nat) (s : State) : Out :=
  .next (s.fcmp64 .un true d a b)

/-- `ceq.b32` (R292/14). 32-bit pattern equality with scalar b. -/
def execCeqB32Vs (d : Nat) (a : Nat) (b : Nat) (s : State) : Out :=
  .next (s.vcmp32 true d a b (fun x y => x == y))

/-- `clt.i32` (R292/14). Signed 32-bit less-than with scalar b. -/
def execCltI32Vs (d : Nat) (a : Nat) (b : Nat) (s : State) : Out :=
  .next (s.vcmp32 true d a b (fun x y => x.slt y))

/-- `cle.i32` (R292/14). Signed 32-bit less-or-equal with scalar b. -/
def execCleI32Vs (d : Nat) (a : Nat) (b : Nat) (s : State) : Out :=
  .next (s.vcmp32 true d a b (fun x y => x.sle y))

/-- `clt.n32` (R292/14). Unsigned 32-bit less-than with scalar b. -/
def execCltN32Vs (d : Nat) (a : Nat) (b : Nat) (s : State) : Out :=
  .next (s.vcmp32 true d a b (fun x y => x.ult y))

/-- `cle.n32` (R292/14). Unsigned 32-bit less-or-equal with scalar b. -/
def execCleN32Vs (d : Nat) (a : Nat) (b : Nat) (s : State) : Out :=
  .next (s.vcmp32 true d a b (fun x y => x.ule y))

/-- `ceq.b64` (R292/14). 64-bit pattern equality with scalar b. -/
def execCeqB64Vs (d : Nat) (a : Nat) (b : Nat) (s : State) : Out :=
  .next (s.vcmp64 true d a b (fun x y => x == y))

/-- `clt.i64` (R292/14). Signed 64-bit less-than with scalar b. -/
def execCltI64Vs (d : Nat) (a : Nat) (b : Nat) (s : State) : Out :=
  .next (s.vcmp64 true d a b (fun x y => x.slt y))

/-- `cle.i64` (R292/14). Signed 64-bit less-or-equal with scalar b. -/
def execCleI64Vs (d : Nat) (a : Nat) (b : Nat) (s : State) : Out :=
  .next (s.vcmp64 true d a b (fun x y => x.sle y))

/-- `clt.n64` (R292/14). Unsigned 64-bit less-than with scalar b. -/
def execCltN64Vs (d : Nat) (a : Nat) (b : Nat) (s : State) : Out :=
  .next (s.vcmp64 true d a b (fun x y => x.ult y))

/-- `cle.n64` (R292/14). Unsigned 64-bit less-or-equal with scalar b. -/
def execCleN64Vs (d : Nat) (a : Nat) (b : Nat) (s : State) : Out :=
  .next (s.vcmp64 true d a b (fun x y => x.ule y))

/-- `sel.b32` (R293/14). Selects a or scalar b per lane by a predicate. -/
def execSelB32Vs (d : Nat) (a : Nat) (b : Nat) (p : Nat) (s : State) : Out :=
  .next (s.vwrite d fun l => if (s.me.pget p).getLsbD l then s.me.vget l a else s.opB s.me true l b).retire

/-- `sel.b64` (R293/14). Selects 64-bit a or scalar b per lane by a predicate. -/
def execSelB64Vs (d : Nat) (a : Nat) (b : Nat) (p : Nat) (s : State) : Out :=
  .next (s.vwrite64 d fun l => if (s.me.pget p).getLsbD l then s.me.vget64 l a else s.opB64 s.me true l b).retire

/-- `pand` (R294/14). Predicate AND for active lanes. -/
def execPand (d : Nat) (a : Nat) (b : Nat) (s : State) : Out :=
  .next (s.pwrite d fun l => (s.me.pget a).getLsbD l && (s.me.pget b).getLsbD l).retire

/-- `por` (R294/14). Predicate OR for active lanes. -/
def execPor (d : Nat) (a : Nat) (b : Nat) (s : State) : Out :=
  .next (s.pwrite d fun l => (s.me.pget a).getLsbD l || (s.me.pget b).getLsbD l).retire

/-- `pxor` (R294/14). Predicate XOR for active lanes. -/
def execPxor (d : Nat) (a : Nat) (b : Nat) (s : State) : Out :=
  .next (s.pwrite d fun l => (s.me.pget a).getLsbD l ^^ (s.me.pget b).getLsbD l).retire

/-- `pnot` (R294/14). Predicate NOT for active lanes. -/
def execPnot (d : Nat) (a : Nat) (s : State) : Out :=
  .next (s.pwrite d fun l => !(s.me.pget a).getLsbD l).retire

/-- `pfroms` (R294/14). Sets predicate bits of active lanes from a scalar. -/
def execPfroms (d : Nat) (a : Nat) (s : State) : Out :=
  .next (s.pwrite d fun l => (s.readS s.me l a).getLsbD l).retire

/-- `stop` (R294/14). Copies all 64 bits of a predicate into a scalar. -/
def execStop (d : Nat) (a : Nat) (s : State) : Out :=
  .next (s.swrite d (s.me.pget a)).retire

/-- `pall` (R294/14). Sets the predicate bits of active lanes. -/
def execPall (d : Nat) (s : State) : Out :=
  .next (s.pwrite d fun _ => true).retire

/-- `pnone` (R294/14). Clears the predicate bits of active lanes. -/
def execPnone (d : Nat) (s : State) : Out :=
  .next (s.pwrite d fun _ => false).retire

/-- `cvt` (R295/14). Converts each lane between two types with a rounding code. -/
def execCvt (d : Nat) (a : Nat) (s' : ElemType) (r : Rounding) (t : ElemType) (s : State) : Out :=
  let m := roundMode r s.me.mode
  let rs := (lanesOf s.active).map fun ln =>
    (ln, cvtVal s' t m s.me.ftz (if wideElem s' then s.me.vget64 ln a else (s.me.vget ln a).setWidth 64))
  .next ((s.modMe fun h => rs.foldl (fun h x =>
    if wideElem t then h.vset64 x.1 d x.2.1 else h.vset x.1 d (x.2.1.setWidth 32)) h).fpFinish (rs.map fun x => (x.1, x.2.2)))

/-- `pk.e2m1` (R297/14). Encodes f32 lanes into e2m1 codes and gathers each lane group into one word. -/
def execPkE2m1 (d : Nat) (a : Nat) (b : Nat) (s : State) : Out :=
  let rs := s.lanesFp fun ln => pkLane s.me.mode (s.me.vget ln a) (s.me.vget ln b)
  .next ((s.vwrite d fun ln => pkWord rs (ln / 8)).fpFinish (raisedOf rs))

/-- `upk.e2m1` (R298/14). Decodes each lane's own e2m1 element to f32. -/
def execUpkE2m1 (d : Nat) (a : Nat) (b : Nat) (s : State) : Out :=
  .next (s.fp32 d fun ln => upkLane s.me.mode ln (s.me.vget ln a) (s.me.vget ln b))

/-- `scacc.f32` (R299/14). Scales a lane value by row and column scales and accumulates into d. -/
def execScaccF32 (d : Nat) (a : Nat) (b : Nat) (s : State) : Out :=
  .next (s.fp32 d fun ln => scaccLane s.me.mode s.me.ftz (s.me.vget ln d) (s.me.vget ln a) (s.me.vget ln b))

end Sys2Proof.Machine
end

