-- ==== Sys2Proof/Machine/Cross.lean ====
section
/-! DEFINITION. Shuffles, votes, reductions and scans (R300 to R303/14). -/

namespace Sys2Proof.Machine

/-! ### Collectives: shuffles and votes -/

/-- The waits of the lanes that have arrived at a collective at a PC (R300/14). -/
def Sheaf.collectivesAt (h : Sheaf) (pc : Vaddr) : List Wait :=
  h.waits.filter fun x => x.pc == pc && (match x.kind with | .collective _ => true | _ => false)

/-- The member mask of a selector (R300/14). -/
def Sheaf.members (h : Sheaf) (m : Nat) : Mask := if m = 0 then BitVec.allOnes 64 else h.pget m

/-- The member mask a collective's wait holds. -/
def Wait.members (w : Wait) : Mask :=
  match w.kind with
  | .collective x => x
  | _ => 0

/-- The arrivals with those of the issue, each group with the `$wb` of its arrival, through which its specifiers go (R275/13): a lane
that waits already has arrived; the member mask and the count of R300/14 step 4 are the first arrival's. -/
def State.arrivals (s : State) (i : Issue) (m : Nat) : List Wait :=
  let h := s.me
  let ws := h.collectivesAt i.pc
  let new := i.lanes &&& ~~~waitMask ws
  if new = 0 then ws
  else
    let first := ws.headD ⟨0, i.pc, .collective (h.members m), s.now, false, h.wb, h.tl⟩
    ws ++ [{ first with lanes := new, wb := h.wb, tl := h.tl }]

/-- `$wb` at a lane's arrival. -/
def baseOf (ws : List Wait) (l : Nat) : Nat := ((ws.find? fun w => w.lanes.getLsbD l).map fun w => w.wb).getD 0

/-- The member mask of a collective, as its first arrival read it (R300/14). -/
def collectiveMembers (ws : List Wait) : Mask :=
  match ws with
  | [] => 0
  | w :: _ => w.members

/-- The participants that have not arrived (R300/14). -/
def Sheaf.collectiveLeft (h : Sheaf) (ws : List Wait) : Mask := collectiveMembers ws &&& h.live &&& ~~~waitMask ws

/-- A pending destination among the sources of the arrived lanes, windows or not (R300/14 step 3). -/
def Sheaf.sourcePending (h : Sheaf) (ws : List Wait) (srcs : List Nat) : Option Pending :=
  h.pend.find? fun p => ws.any fun w => !(p.lanes &&& w.lanes == 0) && (p.regs.any fun r => srcs.any fun x => r == w.wb + x)

/-- The arrived lanes' instruction depends on a pending source (R259/12, R300/14): it waits for data; a load's fault is taken,
or its wait begins, as R235/11 says, the lanes arriving afresh after the trap. -/
def State.sourceWait (s : State) (i : Issue) (ws : List Wait) (p : Pending) : State :=
  let held := s.modMe fun h => { h with waits := (h.waits.filter fun x => !(ws.contains x)) ++ ws }
  if p.faultOnly then
    if p.faults.any fun f => !f.mappable then
      (s.modMe fun h => { h with waits := h.waits.filter fun x => !(ws.contains x) }).takeLoadFault i.sheaf p
    else held.modMe fun h => { h with pend := h.pend.map fun (q : Pending) =>
      if q.id = p.id then
        { q with
          waitSince := some (q.waitSince.getD s.now)
          awaited := if q.awaited.contains i.pc then q.awaited else q.awaited ++ [i.pc] }
      else q }
  else held

/-- Arrival at a collective, and its completion once every participant has arrived and no source is pending (R300/14):
`act` writes the readers' results from the member mask and each lane's window base; every reader then moves on, those that waited as
`finishLanes` says. -/
def State.collect (s : State) (m : Nat) (srcs : List Nat) (act : Mask → (Nat → Nat) → State → State) : State :=
  match s.cur with
  | none => s
  | some i =>
    let h := s.me
    let ws := s.arrivals i m
    let here := waitMask ws
    let mem := collectiveMembers ws
    let rest := h.waits.filter fun x => !((h.collectivesAt i.pc).contains x)
    let new := i.lanes &&& ~~~waitMask (h.collectivesAt i.pc)
    if h.collectiveLeft ws = 0 then
      match h.sourcePending ws srcs with
      | some p => s.sourceWait i ws p
      | none =>
        let s := { (s.modMe fun h => { h with waits := rest }) with cur := some { i with lanes := here } }
        (act mem (baseOf ws) s).retireWaited (ws.map fun w => { w with lanes := w.lanes &&& ~~~new })
    else s.modMe fun h => { h with waits := rest ++ ws }

/-- Write a 32-bit register of every active lane through its own window base. -/
def State.vwriteAt (s : State) (base : Nat → Nat) (d : Nat) (f : Nat → Word) : State :=
  s.modMe fun h => (lanesOf s.active).foldl (fun h l => h.setVirt l (base l + d) (f l)) h

/-- What one reader of a shuffle writes (R301/14): from lane j when it takes part; its own a when out of range;
its own d when j has exited or is no member. -/
def Sheaf.shflRead (h : Sheaf) (mem : Mask) (base : Nat → Nat) (d a l : Nat) (j : Option Nat) : Word :=
  match j with
  | none => h.virt l (base l + a)
  | some j => if (mem &&& h.live).getLsbD j then h.virt j (base j + a) else h.virt l (base l + d)

/-- A shuffle with its source lane rule. -/
def State.shuffle (s : State) (m d a : Nat) (srcs : List Nat) (j : State → (Nat → Nat) → Nat → Option Nat) : State :=
  s.collect m srcs fun mem base t => t.vwriteAt base d fun l => t.me.shflRead mem base d a l (j t base l)

/-- The condition and value of member j: an exited one contributes 0 (R302/14). -/
def Sheaf.voteVal (h : Sheaf) (base : Nat → Nat) (a j : Nat) : Word := if h.exited.getLsbD j then 0 else h.virt j (base j + a)

/-- The members' values. -/
def Sheaf.voteVals (h : Sheaf) (mem : Mask) (base : Nat → Nat) (a : Nat) : List Word :=
  (lanesOf mem).map fun j => h.voteVal base a j

/-- A vote into a predicate. -/
def State.vote (s : State) (m d a : Nat) (f : List Word → Bool) : State :=
  s.collect m [a] fun mem base t => t.pwrite d fun _ => f (t.me.voteVals mem base a)

/-- Are all values of a list equal? -/
def allEq : List Word → Bool
  | [] => true
  | x :: xs => xs.all fun y => y == x

/-! ### Reductions and scans -/

/-- The operations of R262/12 for major 0x44. -/
inductive RedOp where
  | addF32 | maxF32 | minF32 | addI32 | maxI32 | minI32 | maxN32 | minN32 | addF16 | maxF16 | minF16 | addBf16
  | andB32 | orB32 | xorB32
deriving DecidableEq, Repr

/-- The identities of R202/09 and R303/14. -/
def RedOp.ident : RedOp → Word
  | .addF32 => 0x80000000
  | .maxF32 => 0xFF800000
  | .minF32 => 0x7F800000
  | .addI32 | .maxN32 | .orB32 | .xorB32 => 0
  | .maxI32 => 0x80000000
  | .minI32 => 0x7FFFFFFF
  | .minN32 | .andB32 => 0xFFFFFFFF
  | .addF16 | .addBf16 => 0x8000
  | .maxF16 => 0xFC00
  | .minF16 => 0x7C00

/-- A node on float codes: exact, then rounded RNE, never flushed (R202/09). -/
def redF (f : Fmt) (op : FOp) (x y : Word) : Word × Raised :=
  let r := fop f op .rne false (f.code x.toNat) (f.code y.toNat) 0
  (BitVec.ofNat 32 r.bits, r.r)

/-- A node: left ⊕ right (R202, R203/09). -/
def RedOp.node (o : RedOp) (x y : Word) : Word × Raised :=
  match o with
  | .addF32 => redF .f32 .add x y
  | .maxF32 => redF .f32 .max x y
  | .minF32 => redF .f32 .min x y
  | .addF16 => redF .f16 .add x y
  | .maxF16 => redF .f16 .max x y
  | .minF16 => redF .f16 .min x y
  | .addBf16 => redF .bf16 .add x y
  | .addI32 => (x + y, {})
  | .maxI32 => (maxS x y, {})
  | .minI32 => (minS x y, {})
  | .maxN32 => (maxU x y, {})
  | .minN32 => (minU x y, {})
  | .andB32 => (x &&& y, {})
  | .orB32 => (x ||| y, {})
  | .xorB32 => (x ^^^ y, {})

/-- The value of an operation's width in a register (R283/14). -/
def RedOp.trim (o : RedOp) (x : Word) : Word :=
  match o with
  | .addF16 | .maxF16 | .minF16 | .addBf16 => x &&& 0xFFFF
  | .addF32 | .maxF32 | .minF32 | .addI32 | .maxI32 | .minI32 | .maxN32 | .minN32 | .andB32 | .orB32 | .xorB32 => x

/-- Lane l's contribution: its value, or the identity when it is not active. -/
def State.redLane (s : State) (o : RedOp) (a l : Nat) : Word :=
  if s.active.getLsbD l then o.trim (s.me.vget l a) else o.ident

/-- One level of the balanced tree (R202/09), with what the nodes raised. -/
def treeLevel (o : RedOp) : List Word → List Word × Raised
  | x :: y :: rest =>
    let (z, r) := o.node x y
    let (zs, r') := treeLevel o rest
    (z :: zs, r.or r')
  | xs => (xs, {})

/-- The root of the tree over 64 lanes. -/
def treeRoot (o : RedOp) : Nat → List Word → Word × Raised
  | 0, xs => (xs.headD 0, {})
  | n + 1, xs =>
    let (ys, r) := treeLevel o xs
    let (z, r') := treeRoot o n ys
    (z, r.or r')

/-- One step of all lanes at once from the previous step's values. -/
def redStep (f : List Word → Nat → Word × Raised) (xs : List Word) : List Word × Raised :=
  let ys := (List.range 64).map (f xs)
  (ys.map (·.1), ys.foldl (fun (a : Raised) y => a.or y.2) {})

/-- Run steps over a list of distances. -/
def redSteps (f : Nat → List Word → Nat → Word × Raised) : List Nat → List Word → List Word × Raised
  | [], xs => (xs, {})
  | k :: ks, xs =>
    let (ys, r) := redStep (f k) xs
    let (zs, r') := redSteps f ks ys
    (zs, r.or r')

/-- A step of `lred` at distance k (R203/09). -/
def lredStep (o : RedOp) (k : Nat) (xs : List Word) (l : Nat) : Word × Raised :=
  o.node (xs.getD (min l (l ^^^ k)) 0) (xs.getD (max l (l ^^^ k)) 0)

/-- A step of the scan at distance k (R303/14). -/
def scanStep (o : RedOp) (k : Nat) (xs : List Word) (l : Nat) : Word × Raised :=
  if k ≤ l then o.node (xs.getD (l - k) 0) (xs.getD l 0) else (xs.getD l 0, {})

/-- The lanes' contributions in order. -/
def State.redLanes (s : State) (o : RedOp) (a : Nat) : List Word := (List.range 64).map fun l => s.redLane o a l

/-- Each raised flag is attributed to every active lane (R303/14). -/
def State.forAll (s : State) (r : Raised) : List (Nat × Raised) := (lanesOf s.active).map fun l => (l, r)

/-- `lred` (R203/09, R303/14). -/
def State.lred (s : State) (o : RedOp) (d a : Nat) : State :=
  let (xs, r) := redSteps (lredStep o) [32, 16, 8, 4, 2, 1] (s.redLanes o a)
  (s.vwrite d fun l => xs.getD l 0).fpFinish (s.forAll r)

/-- A result as the reduction unit writes it: a NaN is the canonical one, though no node made it (R197/09). -/
def RedOp.canon (o : RedOp) (x : Word) : Word :=
  let quiet (f : Fmt) : Word := if decodeF f (f.code x.toNat) = .nan then BitVec.ofNat 32 f.canon else x
  match o with
  | .addF32 | .maxF32 | .minF32 => quiet .f32
  | .addF16 | .maxF16 | .minF16 => quiet .f16
  | .addBf16 => quiet .bf16
  | .addI32 | .maxI32 | .minI32 | .maxN32 | .minN32 | .andB32 | .orB32 | .xorB32 => x

/-- `scan` and, exclusive, `scanx` (R303/14). -/
def State.scan (s : State) (o : RedOp) (excl : Bool) (d a : Nat) : State :=
  let (xs, r) := redSteps (scanStep o) [1, 2, 4, 8, 16, 32] (s.redLanes o a)
  let out (l : Nat) : Word := if excl then (if l = 0 then o.ident else o.canon (xs.getD (l - 1) 0)) else o.canon (xs.getD l 0)
  (s.vwrite d out).fpFinish (s.forAll r)

/-- The root as a scalar: zero-extended, but sign-extended for the i32 operations (R303/14). -/
def RedOp.widen (o : RedOp) (x : Word) : Dword :=
  match o with
  | .addI32 | .maxI32 | .minI32 => x.signExtend 64
  | .addF32 | .maxF32 | .minF32 | .maxN32 | .minN32 | .addF16 | .maxF16 | .minF16 | .addBf16 | .andB32 | .orB32 | .xorB32 =>
    x.setWidth 64

/-- `tred` (R202/09, R303/14): its scalar destination is pending. -/
def State.tred (s : State) (o : RedOp) (d a l : Nat) : State :=
  let (x, r) := treeRoot o 6 (s.redLanes o a)
  s.pendFp (s.forAll r) l { id := 0, pc := 0, lanes := s.active, scalar := some (d, o.widen x) }

/-- `shfl.idx` (R301/14). Collective shuffle reading from a per-lane source index. -/
def execShflIdx (d : Nat) (a : Nat) (b : Nat) (m : Nat) (s : State) : Out :=
  .next (s.shuffle m d a [a, b] fun t base l => some ((t.me.virt l (base l + b)).toNat % 64))

/-- `shfl.up` (R301/14). Collective shuffle from lane l minus delta. -/
def execShflUp (d : Nat) (a : Nat) (b : Nat) (m : Nat) (s : State) : Out :=
  .next (s.shuffle m d a [a] fun t _ l => let k := (t.readS t.me l b).toNat % 64; if k ≤ l then some (l - k) else none)

/-- `shfl.down` (R301/14). Collective shuffle from lane l plus delta. -/
def execShflDown (d : Nat) (a : Nat) (b : Nat) (m : Nat) (s : State) : Out :=
  .next (s.shuffle m d a [a] fun t _ l => let k := (t.readS t.me l b).toNat % 64; if l + k < 64 then some (l + k) else none)

/-- `shfl.xor` (R301/14). Collective shuffle from lane l XOR delta. -/
def execShflXor (d : Nat) (a : Nat) (b : Nat) (m : Nat) (s : State) : Out :=
  .next (s.shuffle m d a [a] fun t _ l => some (l ^^^ ((t.readS t.me l b).toNat % 64)))

/-- `vote.any` (R302/14). Collective OR of conditions into a predicate. -/
def execVoteAny (d : Nat) (a : Nat) (m : Nat) (s : State) : Out :=
  .next (s.vote m d a fun xs => xs.any fun x => !(x == 0))

/-- `vote.all` (R302/14). Collective AND of conditions into a predicate. -/
def execVoteAll (d : Nat) (a : Nat) (m : Nat) (s : State) : Out :=
  .next (s.vote m d a fun xs => xs.all fun x => !(x == 0))

/-- `vote.eq` (R302/14). Collective equality test of values into a predicate. -/
def execVoteEq (d : Nat) (a : Nat) (m : Nat) (s : State) : Out :=
  .next (s.vote m d a allEq)

/-- `vote.ballot` (R302/14). Collective mask of conditions into a scalar. -/
def execVoteBallot (d : Nat) (a : Nat) (m : Nat) (s : State) : Out :=
  .next (s.collect m [a] fun mem base t =>
    t.swrite d (maskOf ((lanesOf mem).filter fun j => !(t.me.voteVal base a j == 0))))

/-- `lred.add.f32` (R303/14). Log-step f32 sum into every active lane. -/
def execLredAddF32 (d : Nat) (a : Nat) (s : State) : Out :=
  .next (s.lred .addF32 d a)

/-- `lred.max.f32` (R303/14). Log-step f32 maximum. -/
def execLredMaxF32 (d : Nat) (a : Nat) (s : State) : Out :=
  .next (s.lred .maxF32 d a)

/-- `lred.min.f32` (R303/14). Log-step f32 minimum. -/
def execLredMinF32 (d : Nat) (a : Nat) (s : State) : Out :=
  .next (s.lred .minF32 d a)

/-- `lred.add.i32` (R303/14). Log-step i32 sum. -/
def execLredAddI32 (d : Nat) (a : Nat) (s : State) : Out :=
  .next (s.lred .addI32 d a)

/-- `lred.max.i32` (R303/14). Log-step i32 maximum. -/
def execLredMaxI32 (d : Nat) (a : Nat) (s : State) : Out :=
  .next (s.lred .maxI32 d a)

/-- `lred.min.i32` (R303/14). Log-step i32 minimum. -/
def execLredMinI32 (d : Nat) (a : Nat) (s : State) : Out :=
  .next (s.lred .minI32 d a)

/-- `lred.max.n32` (R303/14). Log-step n32 maximum. -/
def execLredMaxN32 (d : Nat) (a : Nat) (s : State) : Out :=
  .next (s.lred .maxN32 d a)

/-- `lred.min.n32` (R303/14). Log-step n32 minimum. -/
def execLredMinN32 (d : Nat) (a : Nat) (s : State) : Out :=
  .next (s.lred .minN32 d a)

/-- `lred.add.f16` (R303/14). Log-step f16 sum. -/
def execLredAddF16 (d : Nat) (a : Nat) (s : State) : Out :=
  .next (s.lred .addF16 d a)

/-- `lred.max.f16` (R303/14). Log-step f16 maximum. -/
def execLredMaxF16 (d : Nat) (a : Nat) (s : State) : Out :=
  .next (s.lred .maxF16 d a)

/-- `lred.min.f16` (R303/14). Log-step f16 minimum. -/
def execLredMinF16 (d : Nat) (a : Nat) (s : State) : Out :=
  .next (s.lred .minF16 d a)

/-- `lred.add.bf16` (R303/14). Log-step bf16 sum. -/
def execLredAddBf16 (d : Nat) (a : Nat) (s : State) : Out :=
  .next (s.lred .addBf16 d a)

/-- `lred.and.b32` (R303/14). Log-step bitwise AND. -/
def execLredAndB32 (d : Nat) (a : Nat) (s : State) : Out :=
  .next (s.lred .andB32 d a)

/-- `lred.or.b32` (R303/14). Log-step bitwise OR. -/
def execLredOrB32 (d : Nat) (a : Nat) (s : State) : Out :=
  .next (s.lred .orB32 d a)

/-- `lred.xor.b32` (R303/14). Log-step bitwise XOR. -/
def execLredXorB32 (d : Nat) (a : Nat) (s : State) : Out :=
  .next (s.lred .xorB32 d a)

/-- `tred.add.f32` (R303/14). Tree-unit f32 sum into a scalar. -/
def execTredAddF32 (d : Nat) (a : Nat) (l : Nat) (s : State) : Out :=
  .next (s.tred .addF32 d a l)

/-- `tred.max.f32` (R303/14). Tree-unit f32 maximum into a scalar. -/
def execTredMaxF32 (d : Nat) (a : Nat) (l : Nat) (s : State) : Out :=
  .next (s.tred .maxF32 d a l)

/-- `tred.min.f32` (R303/14). Tree-unit f32 minimum into a scalar. -/
def execTredMinF32 (d : Nat) (a : Nat) (l : Nat) (s : State) : Out :=
  .next (s.tred .minF32 d a l)

/-- `tred.add.i32` (R303/14). Tree-unit i32 sum into a scalar, sign-extended. -/
def execTredAddI32 (d : Nat) (a : Nat) (l : Nat) (s : State) : Out :=
  .next (s.tred .addI32 d a l)

/-- `tred.max.i32` (R303/14). Tree-unit i32 maximum. -/
def execTredMaxI32 (d : Nat) (a : Nat) (l : Nat) (s : State) : Out :=
  .next (s.tred .maxI32 d a l)

/-- `tred.min.i32` (R303/14). Tree-unit i32 minimum. -/
def execTredMinI32 (d : Nat) (a : Nat) (l : Nat) (s : State) : Out :=
  .next (s.tred .minI32 d a l)

/-- `tred.max.n32` (R303/14). Tree-unit n32 maximum. -/
def execTredMaxN32 (d : Nat) (a : Nat) (l : Nat) (s : State) : Out :=
  .next (s.tred .maxN32 d a l)

/-- `tred.min.n32` (R303/14). Tree-unit n32 minimum. -/
def execTredMinN32 (d : Nat) (a : Nat) (l : Nat) (s : State) : Out :=
  .next (s.tred .minN32 d a l)

/-- `tred.add.f16` (R303/14). Tree-unit f16 sum. -/
def execTredAddF16 (d : Nat) (a : Nat) (l : Nat) (s : State) : Out :=
  .next (s.tred .addF16 d a l)

/-- `tred.max.f16` (R303/14). Tree-unit f16 maximum. -/
def execTredMaxF16 (d : Nat) (a : Nat) (l : Nat) (s : State) : Out :=
  .next (s.tred .maxF16 d a l)

/-- `tred.min.f16` (R303/14). Tree-unit f16 minimum. -/
def execTredMinF16 (d : Nat) (a : Nat) (l : Nat) (s : State) : Out :=
  .next (s.tred .minF16 d a l)

/-- `tred.add.bf16` (R303/14). Tree-unit bf16 sum. -/
def execTredAddBf16 (d : Nat) (a : Nat) (l : Nat) (s : State) : Out :=
  .next (s.tred .addBf16 d a l)

/-- `tred.and.b32` (R303/14). Tree-unit bitwise AND. -/
def execTredAndB32 (d : Nat) (a : Nat) (l : Nat) (s : State) : Out :=
  .next (s.tred .andB32 d a l)

/-- `tred.or.b32` (R303/14). Tree-unit bitwise OR. -/
def execTredOrB32 (d : Nat) (a : Nat) (l : Nat) (s : State) : Out :=
  .next (s.tred .orB32 d a l)

/-- `tred.xor.b32` (R303/14). Tree-unit bitwise XOR. -/
def execTredXorB32 (d : Nat) (a : Nat) (l : Nat) (s : State) : Out :=
  .next (s.tred .xorB32 d a l)

/-- `scan.add.f32` (R303/14). Inclusive f32 sum scan. -/
def execScanAddF32 (d : Nat) (a : Nat) (s : State) : Out :=
  .next (s.scan .addF32 false d a)

/-- `scan.max.f32` (R303/14). Inclusive f32 maximum scan. -/
def execScanMaxF32 (d : Nat) (a : Nat) (s : State) : Out :=
  .next (s.scan .maxF32 false d a)

/-- `scan.min.f32` (R303/14). Inclusive f32 minimum scan. -/
def execScanMinF32 (d : Nat) (a : Nat) (s : State) : Out :=
  .next (s.scan .minF32 false d a)

/-- `scan.add.i32` (R303/14). Inclusive i32 sum scan. -/
def execScanAddI32 (d : Nat) (a : Nat) (s : State) : Out :=
  .next (s.scan .addI32 false d a)

/-- `scan.max.i32` (R303/14). Inclusive i32 maximum scan. -/
def execScanMaxI32 (d : Nat) (a : Nat) (s : State) : Out :=
  .next (s.scan .maxI32 false d a)

/-- `scan.min.i32` (R303/14). Inclusive i32 minimum scan. -/
def execScanMinI32 (d : Nat) (a : Nat) (s : State) : Out :=
  .next (s.scan .minI32 false d a)

/-- `scan.max.n32` (R303/14). Inclusive n32 maximum scan. -/
def execScanMaxN32 (d : Nat) (a : Nat) (s : State) : Out :=
  .next (s.scan .maxN32 false d a)

/-- `scan.min.n32` (R303/14). Inclusive n32 minimum scan. -/
def execScanMinN32 (d : Nat) (a : Nat) (s : State) : Out :=
  .next (s.scan .minN32 false d a)

/-- `scanx.add.f32` (R303/14). Exclusive f32 sum scan. -/
def execScanxAddF32 (d : Nat) (a : Nat) (s : State) : Out :=
  .next (s.scan .addF32 true d a)

/-- `scanx.max.f32` (R303/14). Exclusive f32 maximum scan. -/
def execScanxMaxF32 (d : Nat) (a : Nat) (s : State) : Out :=
  .next (s.scan .maxF32 true d a)

/-- `scanx.min.f32` (R303/14). Exclusive f32 minimum scan. -/
def execScanxMinF32 (d : Nat) (a : Nat) (s : State) : Out :=
  .next (s.scan .minF32 true d a)

/-- `scanx.add.i32` (R303/14). Exclusive i32 sum scan. -/
def execScanxAddI32 (d : Nat) (a : Nat) (s : State) : Out :=
  .next (s.scan .addI32 true d a)

/-- `scanx.max.i32` (R303/14). Exclusive i32 maximum scan. -/
def execScanxMaxI32 (d : Nat) (a : Nat) (s : State) : Out :=
  .next (s.scan .maxI32 true d a)

/-- `scanx.min.i32` (R303/14). Exclusive i32 minimum scan. -/
def execScanxMinI32 (d : Nat) (a : Nat) (s : State) : Out :=
  .next (s.scan .minI32 true d a)

/-- `scanx.max.n32` (R303/14). Exclusive n32 maximum scan. -/
def execScanxMaxN32 (d : Nat) (a : Nat) (s : State) : Out :=
  .next (s.scan .maxN32 true d a)

/-- `scanx.min.n32` (R303/14). Exclusive n32 minimum scan. -/
def execScanxMinN32 (d : Nat) (a : Nat) (s : State) : Out :=
  .next (s.scan .minN32 true d a)

end Sys2Proof.Machine
end

