-- ==== Sys2Proof/Machine/Expect.lean ====
section
/-! DEFINITION. Byte expectations (R177 to R179/08): `bexp`, which finds PEND after every credit of its cycle. -/

namespace Sys2Proof.Machine

/-- The state an outcome goes on with; a stop leaves the state as it was. -/
def onward (s : State) (o : Out) : State :=
  match o with
  | .next t => t
  | .fault _ | .refused _ => s

/-- What an engine does in the rest of a cycle: the moves that may credit a team's barrier, in the order they stand in the agenda. -/
def State.tryCredit (s : State) (m : Move) : State :=
  match m with
  | .event (.copyChunkLanding j k) => onward s (execCopyChunkLanding j k s)
  | .event (.jobStart j) => onward s (execJobStart j s)
  | .event (.jobCompletion j) => onward s (execJobCompletion j s)
  | .event (.jobReplay j) => onward s (execJobReplay j s)
  | .event (.engineAccessMappingMade j) => onward s (execEngineAccessMappingMade j s)
  | .event (.engineXlate2Timeout j) => onward s (execEngineXlate2Timeout j s)
  | .event (.exchangeStreamArrival st) => onward s (execExchangeStreamArrival st s)
  | .event .exchangeHeaderAdmission => onward s (execExchangeHeaderAdmission s)
  | .event (.exchangeDeadlineExpiry j) => onward s (execExchangeDeadlineExpiry j s)
  | .event (.streamFailedByPeer j i) => onward s (execStreamFailedByPeer j i s)
  | .event (.peerModuleFailure k) => onward s (execPeerModuleFailure k s)
  | .streamMatched j i => s.streamMatched j i
  | _ => s

/-- PEND as an expectation finds it: what it was at the start of the cycle, with every credit of the cycle, then the expectations
before it (R178, R179/08): engines write after the cores (R214/10), but their credits go first. -/
def State.pendNow (s : State) (t : Team) : Int :=
  (((s.agenda.foldl State.tryCredit s).team? t.id).map fun t => t.pend).getD t.pend

/-- `bexp` (R177/08, R325, R326/16). Adds an expectation of 1 to 2^31 − 1 bytes; SPACE beyond PEND's range. -/
def execBexp (d : Nat) (a : Nat) (s : State) : Out :=
  let n := (s.src a).toNat
  match s.teamIn s.me d with
  | none => .next (s.trapAll .space 0 0)
  | some t =>
    if t.ended ∨ n = 0 ∨ 2 ^ 31 ≤ n ∨ (2 ^ 31 : Nat) ≤ s.pendNow t + n then .next (s.trapAll .space 0 0)
    else .next (s.modTeam t.id fun t => { t with pend := t.pend + n, expected := t.expected + n, evt := true }).retire

end Sys2Proof.Machine
end

