-- ==== Sys2Proof/Machine/Lands.lean ====
section
/-! DEFINITION. What reaches a sheaf from outside its issues: load data, mappings, timeouts, tickets, acknowledgements (R235/11, R259/12, R300/14, R184/08, R374/18). -/

namespace Sys2Proof.Machine

/-- A pending destination of a sheaf. -/
def State.pending? (s : State) (sheaf pend : Nat) : Option Pending :=
  (s.sheaf? sheaf).bind fun h => h.pend.find? fun p => p.id == pend

/-- `LOAD_DATA_ARRIVAL` (R259/12, R394/20). A pending destination lands, once no ticket of it is outstanding. -/
def execLoadDataArrival (sheaf pend : Nat) (s : State) : Out := .next (s.landPending sheaf pend)

/-- Is an access of a load made again behind one of an earlier load of its lane that has not been performed, or behind a remote store of it
that it meets (R210/10)? -/
def State.behindEarlier (s : State) (h : Sheaf) (p : Pending) (r : Replay) (x : LaneAccess) : Bool :=
  (h.pend.takeWhile fun q => !(q.id == p.id)).any (fun q => q.overlaps r.space r.width.bytes (fun _ => x.addr) [x.lane]) ||
    s.replayMeets h r x

/-- The values that wait for backing slots of spilled registers: those whose slot is mapped now, or whose register is held physically, can
land, and the faults of their lanes go (R112/04, R235/11). -/
def State.unstored (s : State) (h : Sheaf) (p : Pending) : Pending :=
  let (left, back) := p.stored.partition fun x => (s.resOf h).cold.contains (h.id, x.2.1) && (s.slotOf h x.2.1).isNone
  let has (xs : List (Nat × Nat × Word)) (l : Nat) : Bool := xs.any fun x => x.1 == l
  { p with
    vals := p.vals ++ back
    stored := left
    faults := p.faults.filter fun f => !(f.cause == .regback && has p.stored f.lane && !has left f.lane) }

/-- A pending destination after a mapping, with the values that have come and the faults left. -/
def Pending.remade (p : Pending) (vals : List (Nat × Nat × Word)) (stored : List (Nat × Nat × Word)) (faults : List LaneFault) : Pending :=
  { p with
    vals := vals, stored := stored, faults := faults
    waitSince := if faults.all fun f => !f.mappable then none else p.waitSince }

/-- `LOAD_FAULT_MAPPING_MADE` (R112/04, R235/11). The accesses whose addresses are now mapped are performed and their data
will arrive without a trap, and so will data that waits for a backing slot; the others stay with their faults, and so do those behind an
earlier load of their bytes, or a remote store (R210/10). -/
def execLoadFaultMappingMade (sheaf pend : Nat) (s : State) : Out :=
  match s.sheaf? sheaf, s.pending? sheaf pend with
  | some h, some p =>
    let p' := s.unstored h p
    let put (s : State) (vals : List (Nat × Nat × Word)) (faults : List LaneFault) : State := s.modSheaf sheaf fun h =>
      { h with stalled := 0, pend := h.pend.map fun x => if x.id = pend then x.remade vals p'.stored faults else x }
    match p.again with
    | none => .next (put s p'.vals p'.faults)
    | some r =>
      let (asked, rest) := p'.faults.partition fun f =>
        f.mappable && !(p'.stored.any fun x => x.1 == f.lane) && !(r.lanes.any fun x => x.lane == f.lane && s.behindEarlier h p r x)
      let (q, s) := s.replayLoad h r (r.lanes.filter fun x => asked.any fun f => f.lane == x.lane)
      .next (put s (p'.vals ++ q.2) (rest ++ q.1))
  | _, _ => .next s

/-- Have all the lanes that a gathering, a vote or a shuffle waits for arrived there? -/
def Sheaf.assembled (h : Sheaf) (w : Wait) : Bool :=
  match w.kind with
  | .gather _ _ _ _ => h.live &&& ~~~w.lanes == 0
  | .collective m => m &&& h.live &&& ~~~waitMask (h.waits.filter fun x => x.pc == w.pc && x.kind == w.kind) == 0
  | _ => false

/-- Lanes that have all arrived at a barrier, a vote or a shuffle, which waits for the fault of a load, are released to be handler lanes
(log 21): a gathering drains every destination, a vote or shuffle waits for its sources. -/
def Sheaf.releaseGather (h : Sheaf) (p : Pending) : Sheaf :=
  { h with waits := h.waits.filter fun w => !(h.assembled w && (match w.kind with
      | .collective _ => p.awaited.contains w.pc
      | _ => true)) }

/-- `LOAD_FAULT_WAIT_TIMEOUT` (R235/11). A dependent instruction has waited 65,536 cycles: the load traps. -/
def execLoadFaultWaitTimeout (sheaf pend : Nat) (s : State) : Out :=
  match s.pending? sheaf pend with
  | none => .next s
  | some p =>
    match p.waitSince with
    | none => .next s
    | some t =>
      if t + 65536 ≤ s.now then .next ((s.modSheaf sheaf fun h => h.releaseGather p).takeLoadFault sheaf p) else .next s

/-- The waits of the lanes that arrived at a collective 2^20 cycles ago without its completion: all of them count from the first arrival. -/
def Sheaf.stuckCollective (h : Sheaf) (now : Nat) : List Wait :=
  match h.waits.find? fun w => (match w.kind with | .collective _ => true | _ => false) && decide (w.since + 2 ^ 20 ≤ now) with
  | some w => h.waits.filter fun x => x.pc == w.pc && x.kind == w.kind
  | none => []

/-- `COLLSTALL_TIMEOUT` (R300/14 step 4). The arrived lanes become handler lanes with their PCs at the instruction. -/
def execCollstallTimeout (sheaf : Nat) (s : State) : Out :=
  match s.sheaf? sheaf with
  | none => .next s
  | some h =>
    match h.stuckCollective s.now with
    | [] => .next s
    | w :: ws =>
      .next ((s.modSheaf sheaf fun h => { h with waits := h.waits.filter fun x => !((w :: ws).contains x) }).takeTrap sheaf .collstall 0 0
        (waitMask (w :: ws)) w.pc none)

/-- Scoreboard stalls end: the lanes look again (R259/12). -/
def State.wakeAll (s : State) : State := s.mapSheaves fun h => { h with stalled := 0 }

/-- One ticketed request is performed (R184/08, R217/10, R316/15): of a fence at system scope, the write-back of the sheaf's peer lines first
(R406/10). -/
def State.performTicket (s : State) (r : SeqReq) : State :=
  let s := if r.sys then s.releasePeers r.sheaf else s
  let s := if r.wide then s.l1Clear r.core else s
  match r.op, r.target with
  | some op, some t =>
    let h := { (s.sheaf? r.sheaf).getD { id := r.sheaf, launch := 0 } with rev := r.rev, core := r.core }
    let (old, s) := s.atomAt h op t r.operand r.compare
    let s := if r.wide then s.l1Clear r.core else s
    s.modSheaf r.sheaf fun h =>
      { h with pend := h.pend.map fun (p : Pending) =>
          if some p.id = r.pend then { p with vals := p.vals ++ atomRet op r.lane r.dreg old, tickets := p.tickets - 1 } else p }
  | _, _ => s

/-- Must the write of a ticketed request wait for an overflow page of the granary (R333/16)? -/
def State.ticketWaits (s : State) (r : SeqReq) : Bool :=
  match r.op, r.target with
  | some _, some t => s.storeWaits { (s.sheaf? r.sheaf).getD { id := r.sheaf, launch := 0 } with rev := r.rev } [(r.lane, t)]
  | _, _ => false

/-- `SEQUENCER_TICKET` (R26/01, R184/08). One ticket a cycle: the oldest request is performed in ticket order, once nothing it retains
waits for a page (R333/16). -/
def execSequencerTicket (s : State) : Out :=
  match s.seqQ with
  | [] => .next s
  | r :: rest => if s.ticketWaits r then .next s else .next ((({ s with seqQ := rest, ticket := s.ticket + 1 } : State).performTicket r).wakeAll)

/-- Does an earlier remote store of the same core meet it (R224/10)? -/
def RemoteStore.meets (a b : RemoteStore) : Bool := a.core == b.core && rangesMeet a.hpa a.data.length b.hpa b.data.length

/-- `REMOTE_STORE_ACKNOWLEDGEMENT` (R224/10, R374/18). A store in flight is performed at its home slice at the peer, or at the local
one where it names this module, in the view of its revision within the regions (R222/10), and the core's L1 copy of the line goes, so that
the lane's later loads see it (R210/10); or the peer fails it: an UNCORR record with the PC of its `rst`, and status 0x02 for its launch. -/
def execRemoteStoreAcknowledgement (k : Nat) (fail : Option Cause) (s : State) : Out :=
  match s.rsts[k]? with
  | none => .next s
  | some r =>
    if (s.rsts.take k).any (fun x => x.meets r) ∨ s.retainWaits r.ctx r.rev r.va r.hpa then .next s
    else
      let s := { s with rsts := s.rsts.eraseIdx k }
      let s := s.modLaunch r.launch fun l => { l with rstsOut := l.rstsOut - 1 }
      let s := match fail with
        | none => (s.glWrite r.ctx r.rev r.va r.hpa r.data true).l1Drop r.core (lineOf r.hpa)
        | some _ => (s.reportUncorr r.ctx r.va 255 r.pc.toNat).modLaunch r.launch fun l =>
            { l with jobError := match l.jobError with | none => some (4, 255) | some x => some x }
      .next s.wakeAll

end Sys2Proof.Machine
end

