-- ==== Sys2Proof/Machine/System.lean ====
section
/-! DEFINITION. Supervisor instructions, illegal words and fetch faults (R380, R381/18, R253/12, R137/05). -/

namespace Sys2Proof.Machine

/-- Remove cached translations of a context from every cache (R134/05, R380/18): all, or those that meet a range. A walk that fills
one of them in the same cycle has its entry discarded. -/
def State.dropTlb (s : State) (ctx : Nat) (range : Option (Bool × Nat × Nat)) : State :=
  let keep (t : Tlb) : Bool := !(t.removedBy (ctx, range))
  let s := (s.mapCores fun c => { c with tlb := c.tlb.filter keep }).mapFields fun f => { f with tlb := f.tlb.filter keep }
  { s with removed := s.removed ++ [(ctx, range)] }

/-- Are accesses of a context still in flight that used a translation (R380/18)? -/
def State.inFlight (s : State) (ctx : Nat) : Bool :=
  (s.rsts.any fun r => r.ctx == ctx) ||
    s.seqQ.any fun r => ((s.sheaf? r.sheaf).map fun h => h.ctx == ctx).getD false

/-- `xlinv` (R380/18). Supervisor code only; completes once the accesses in flight have been performed. -/
def execXlinv (k : Nat) (a : Nat) (s : State) : Out :=
  let h := s.me
  let x := h.sget a
  let lo := (h.sget (a + 1)).toNat
  let len := (h.sget (a + 2)).toNat
  let top := if k = 1 then 2 ^ 56 else 2 ^ 52
  if ¬ s.supervisor h.ctx then .next (s.trapAll .priv 0 0)
  else if 64 ≤ x.toNat ∨ (k ≠ 0 ∧ (len = 0 ∨ top < lo + len)) then .next (s.trapAll .space 0 0)
  else if s.inFlight x.toNat then .next s.stallMe
  else .next (s.dropTlb x.toNat (if k = 0 then none else some (k == 2, lo, len))).retire

/-- `wpset` (R381/18). Sets a watchpoint of a context, or disables it with B = 0. -/
def execWpset (d : Nat) (a : Nat) (b : Nat) (s : State) : Out :=
  let h := s.me
  let x := h.sget a
  let addr := h.sget (a + 1)
  let v := s.src b
  let log := (v.extractLsb' 0 6).toNat
  let code := (addr.extractLsb' 60 4).toNat
  if ¬ s.supervisor h.ctx then .next (s.trapAll .priv 0 0)
  else if v = 0 then
    if 64 ≤ x.toNat then .next (s.trapAll .space 0 0)
    else .next (s.modCtx x.toNat fun c => { c with watch := modAt (fun _ => {}) c.watch d }).retire
  else if 2 ≤ log ∧ log ≤ 30 ∧ (addr.extractLsb' 0 56).toNat % 2 ^ log ≠ 0 then .next (s.trapAll .align 0 addr)
  else if 64 ≤ x.toNat ∨ log < 2 ∨ 30 < log ∨ v.extractLsb' 6 2 ≠ 0 ∨ v.extractLsb' 11 53 ≠ 0 ∨ code = 0 ∨ 4 < code ∨
      addr.extractLsb' 56 4 ≠ 0 then .next (s.trapAll .space 0 0)
  else
    .next (s.modCtx x.toNat fun c =>
      { c with watch := modAt (fun _ => ⟨addr, log, v.getLsbD 8, v.getLsbD 9, v.getLsbD 10⟩) c.watch d }).retire

/-- `ILLEGAL_INSTRUCTION` (R253, R254/12). A word that is no instruction traps ILLOP sheaf-wide. -/
def execIllegalInstruction (_w : BitVec 32) (s : State) : Out := .next (s.trapAll .illop 0 0)

/-- The cause of a failing fetch at the issue's PC (R137/05): the checks of a fetch, and UNCORR, with the port that served it (R171/07). -/
def State.fetchCause (s : State) : Option (Cause × Nat) × State :=
  let h := s.me
  match s.xlate h.core h.ctx .fetch s.issuePc.toNat with
  | (.error c, s) => (some (c, 255), s)
  | (.ok hpa, s) => if s.uncorrAt hpa then (some (.uncorr, s.portOf hpa), s) else (none, s)

/-- `FETCH_FAULT` (R137/05). A fetch that faults traps at the lanes' PC, with `$taddr` that PC; UNCORR is reported too (R132/05). -/
def execFetchFault (s : State) : Out :=
  match s.fetchCause with
  | (none, s) => .next s
  | (some (c, port), s) =>
    let s := if c = .uncorr then s.reportUncorr s.me.ctx s.issuePc.toNat port s.issuePc.toNat else s
    .next ((s.trapLanes ((lanesOf s.active).map fun l => ⟨l, c, s.issuePc.setWidth 64⟩)).getD s)

end Sys2Proof.Machine
end

