-- ==== Sys2Proof/Machine/Parser.lean ====
section
/-! DEFINITION. The command parser: guest ring entries by type (R140 to R143/06, R168 to R171/07, R240/11). -/

namespace Sys2Proof.Machine

/-- The size of a queue's ring (R168/07). -/
def Queue.size (q : Queue) : Nat := 2 ^ q.log

/-- The entry at a queue's head, when the parser may read one (R142/06): the queue is enabled, holds entries, waits for no
event word, and its ring is mapped in the owning context's second stage (R168/07; log 28 where it is not). -/
def State.ringEntry (s : State) (q : Nat) : Option (List Byte) :=
  let k := s.queue q
  if s.ready && k.enable && !(k.head == k.tail) && k.hold.isNone then
    match s.stage2 k.ctx (k.base.toNat + 64 * (k.head.toNat % k.size)) with
    | .error _ => none
    | .ok (hpa, l) => if l.r then some (s.mem.read hpa 64) else none
  else none

/-- The parser moves past an entry (R142/06). -/
def State.nextEntry (s : State) (q : Nat) : State := s.modQueue q fun k => { k with head := k.head + 1 }

/-- The command type of an entry (R140/06). -/
def entryType (e : List Byte) : Nat := fieldOf e 0 1 % 32

/-- An entry is dropped (R142/06, R171/07): one record of cause 0x01 for the owning tenant. -/
def State.dropEntry (s : State) (q : Nat) (e : List Byte) (addr : Nat) : State :=
  let k := s.queue q
  (s.report k.ctx errDropped (q / 16 % 256) addr
    (bytesOfNat 1 (entryType e) ++ bytesOfNat 1 (q % 16) ++ [0, 0] ++ bytesOfNat 4 k.head.toNat)).nextEntry q

/-- Parse the entry at a queue's head as a command of a type: dropped where the allow-list or its reserved bits say so
(R142/06); nothing happens where the head holds no entry of that type. -/
def State.parse (s : State) (q type : Nat) (f : Nat → List Byte → State) : State :=
  match s.ringEntry q with
  | none => s
  | some e =>
    if entryType e ≠ type then s
    else if !((s.queue q).bitmap.getLsbD type) || decide (32 ≤ fieldOf e 0 1) then s.dropEntry q e 0
    else f (s.queue q).ctx e

/-- May a queue's owner name a context (R170/07)? -/
def State.mayName (s : State) (owner ctx : Nat) : Bool := decide (ctx < 64) && (ctx == owner || s.supervisor owner)

/-- `NO_OPERATION` (R140/06). -/
def execNoOperation (q : Nat) (s : State) : Out := .next (s.parse q 0 fun _ _ => s.nextEntry q)

/-- A submitted launch (R64/02, R169/07): its predecessor is the last launch of the context with the tag named. -/
def State.submit (s : State) (ctx : Nat) (e d : List Byte) : State :=
  let (id, s) := s.fresh
  let pt : BitVec 32 := BitVec.ofNat 32 (fieldOf e 20 4)
  let l : Launch :=
    { id := id, ctx := ctx, tag := BitVec.ofNat 32 (fieldOf e 16 4), descAddr := BitVec.ofNat 64 (fieldOf e 8 8)
      recordAddr := BitVec.ofNat 64 (fieldOf e 24 8), predTag := pt, submitted := id
      pred := if pt = 0 then none else ((s.launches.filter fun m => m.ctx == ctx && m.tag == pt).getLast?).map fun m => m.id }
  { s with launches := s.launches ++ [l.withDesc d] }

/-- `LAUNCH` (R142/06, R169, R170/07). The descriptor enters the graph engine, or the command is dropped; one whose read meets UNCORR is
submitted without its fields, and its dispatch reads it again (log 77). -/
def execLaunch (q : Nat) (s : State) : Out :=
  .next (s.parse q 1 fun ctx e =>
    match s.guestBytes ctx (fieldOf e 8 8) 256 with
    | .error .uncorr => (s.submit ctx e []).nextEntry q
    | .error _ => s.dropEntry q e (fieldOf e 8 8)
    | .ok d => (s.submit ctx e d).nextEntry q)

/-- A job of a command of type 0x02 (R164/07): field 0, no launch, ordered only by its footprints. -/
def commandJob (ctx addr : Nat) (c : List Byte) : Job :=
  { id := 0, engine := cardEngine c, field := 0, core := 0, ctx := ctx, card := c, cardAddr := BitVec.ofNat 64 addr
    slots := [none, none, none, none], scope := cardScope c }

/-- `ENGINE_JOB_CARD` (R147/06, R164, R170/07). A card that passes enters its queue on field 0, or holds its own queue while
that is full; one that does not is rejected by its record alone. -/
def execEngineJobCard (q : Nat) (s : State) : Out :=
  .next (s.parse q 2 fun ctx e =>
    match s.guestBytes ctx (fieldOf e 8 8) 256 with
    | .error .uncorr => (s.guestUncorr ctx (fieldOf e 8 8) 256).nextEntry q
    | .error _ => s.dropEntry q e (fieldOf e 8 8)
    | .ok c =>
      if ¬ (cardFormOk c && cardKind c == 3) then
        (s.reportJob ctx (cardEngine c) 0 (fieldOf e 8 8)).nextEntry q
      else if s.queueRoom 0 (cardEngine c) ctx then (s.enqueue (commandJob ctx (fieldOf e 8 8) c)).nextEntry q
      else s)

/-- Raise the vector assigned to an event word of a context, if one is (R169/07, R383/19). -/
def State.wordInterrupt (s : State) (ctx addr : Nat) : State :=
  match s.wordVector.find? fun x => x.1 == ctx && x.2.1 == addr with
  | none => s
  | some x => s.interrupt x.2.2

/-- `SIGNAL_EVENT_WORD` (R169, R170/07, R383/19). Stores the value. -/
def execSignalEventWord (q : Nat) (s : State) : Out :=
  .next (s.parse q 3 fun ctx e =>
    let a := fieldOf e 8 8
    if a % 8 ≠ 0 then s.dropEntry q e a
    else
      match s.guestAt ctx a .store with
      | .error .uncorr => (s.guestUncorr ctx a 8).nextEntry q
      | .error _ => s.dropEntry q e a
      | .ok hpa => ((s.glWrite ctx 0 a hpa (bytesOfNat 8 (fieldOf e 16 8)) false).wordInterrupt ctx a).nextEntry q)

/-- Is an event word, unsigned, at least a value (R169/07)? -/
def State.wordReached (s : State) (ctx a v : Nat) : Bool :=
  match s.guestBytes ctx a 8 with
  | .error _ => false
  | .ok bs => decide (v ≤ natOfBytes bs)

/-- `WAIT_EVENT_WORD` (R169, R170/07). Holds its queue until the word is at least the value. -/
def execWaitEventWord (q : Nat) (s : State) : Out :=
  .next (s.parse q 4 fun ctx e =>
    let a := fieldOf e 8 8
    if a % 8 ≠ 0 then s.dropEntry q e a
    else
      match s.guestAt ctx a .load with
      | .error .uncorr => (s.guestUncorr ctx a 8).nextEntry q
      | .error _ => s.dropEntry q e a
      | .ok _ =>
        if s.wordReached ctx a (fieldOf e 16 8) then s.nextEntry q
        else s.modQueue q fun k => { k with hold := some (BitVec.ofNat 64 a, BitVec.ofNat 64 (fieldOf e 16 8)) })

/-- `EVENT_WORD_WAIT_SATISFIED` (R169/07). The queue goes on. -/
def execEventWordWaitSatisfied (q : Nat) (s : State) : Out :=
  match (s.queue q).hold with
  | none => .next s
  | some (a, v) =>
    if s.wordReached (s.queue q).ctx a.toNat v.toNat then
      .next ((s.modQueue q fun k => { k with hold := none }).nextEntry q)
    else .next s

/-- The cores of a 1,024-bit mask. -/
def coresOf (bs : List Byte) : List Nat := (List.range Config.cores).filter fun k => (bs.getD (k / 8) 0).getLsbD (k % 8)

/-- `RECLAIM_REQUEST` (R169, R170/07, R240/11, R388/19). Of a ring, or of the scheduling core, which makes none before it runs. -/
def execReclaimRequest (src : ReclaimSource) (s : State) : Out :=
  match src with
  | .firmware r => .next (if ¬ s.coreRuns 1 then s else s.reclaim r.ctx (r.cores.filter fun c => decide (c < Config.cores)) ⟨r.slots, r.regs, r.pages⟩)
  | .ring q =>
    .next (s.parse q 5 fun ctx e =>
      let c := fieldOf e 8 1
      if ¬ s.mayName ctx c then s.dropEntry q e 0
      else
        match s.guestBytes ctx (fieldOf e 16 8) 128 with
        | .error .uncorr => (s.guestUncorr ctx (fieldOf e 16 8) 128).nextEntry q
        | .error _ => s.dropEntry q e (fieldOf e 16 8)
        | .ok m => (s.reclaim c (coresOf m) ⟨fieldOf e 24 1, fieldOf e 26 2, fieldOf e 28 2⟩).nextEntry q)

/-- A park or resume enters the context engine's queue on field 0, or holds its queue while that is full (R147/06, R246/11). -/
def State.contextCommand (s : State) (q type : Nat) (resume : Bool) : State :=
  s.parse q type fun ctx e =>
    let c := fieldOf e 8 1
    if ¬ s.mayName ctx c then s.dropEntry q e 0
    else if s.queueRoom 0 5 c then
      (s.enqueue { id := 0, engine := 5, field := 0, core := 0, ctx := c, resume := resume }).nextEntry q
    else s

/-- A park command is there (R250/11): launches that retired in this cycle are acknowledged, and an expansion step that is due waits. -/
def State.parkAsked (s : State) (ctx : Nat) : State :=
  (s.ackRetired ctx).mapCores fun c => { c with res := c.res.map fun r =>
    if r.ctx = ctx then { r with expandAt := r.expandAt.map fun t => max t (s.now + 1) } else r }

/-- `PARK_CONTEXT` (R140/06, R246, R250/11). -/
def execParkContext (q : Nat) (s : State) : Out :=
  .next (match s.ringEntry q with
    | none => s
    | some e =>
      let t := s.contextCommand q 6 false
      if t.jobs.length = s.jobs.length then t else t.parkAsked (fieldOf e 8 1))

/-- `RESUME_CONTEXT` (R140/06, R246/11). -/
def execResumeContext (q : Nat) (s : State) : Out := .next (s.contextCommand q 7 true)

/-- `TRANSLATION_INVALIDATION` (R170/07, R380/18). Invalidates a guest virtual range as `xlinv.va` does, once the accesses in
flight have been performed; a range `xlinv.va` would refuse drops the command (log 28). -/
def execTranslationInvalidation (q : Nat) (s : State) : Out :=
  .next (s.parse q 8 fun ctx e =>
    let c := fieldOf e 8 1
    let a := fieldOf e 16 8
    let n := fieldOf e 24 8
    if ¬ s.mayName ctx c then s.dropEntry q e 0
    else if n = 0 ∨ 2 ^ 56 < a + n then s.dropEntry q e a
    else if s.inFlight c then s
    else (s.dropTlb c (some (false, a, n))).nextEntry q)

/-- `RESERVED_COMMAND_TYPE` (R140, R142/06). An entry of a reserved type is dropped. -/
def execReservedCommandType (q : Nat) (s : State) : Out :=
  match s.ringEntry q with
  | none => .next s
  | some e => if 9 ≤ entryType e then .next (s.dropEntry q e 0) else .next s

end Sys2Proof.Machine
end

