-- ==== Sys2Proof/Machine/Scalar.lean ====
section
/-! DEFINITION. Scalar arithmetic, immediates, constants, addresses and moves (R268 to R275/13). -/

namespace Sys2Proof.Machine

/-- A scalar result is written once and the lanes move on (R267, R268/13). -/
def State.scalarOp (s : State) (d : Nat) (x : Dword) : State := (s.swrite d x).retire

/-- A scalar division (R269/13): DZ is set once when the divisor is 0. -/
def State.scalarDiv (s : State) (d a b : Nat) (f : Dword → Dword → Dword) : State :=
  let s' := if s.src b = 0 then s.modMe fun h => h.raise { dz := true } else s
  s'.scalarOp d (f (s.src a) (s.src b))

/-- A window move: `$wb` changes when the new window lies in 0 to 384 and within the budget, else SPACE (R98/04, R274/13). -/
def State.moveWindow (s : State) (new : Int) : State :=
  if 0 ≤ new ∧ new ≤ 384 ∧ new + 128 ≤ (s.me.budget : Int) then (s.modMe fun h => { h with wb := new.toNat }).retire
  else s.trapAll .space 0 0

/-- `sadd` (R268/13). Scalar add modulo 2^64. -/
def execSadd (d : Nat) (a : Nat) (b : Nat) (s : State) : Out :=
  .next (s.scalarOp d (s.src a + s.src b))

/-- `ssub` (R268/13). Scalar subtract modulo 2^64. -/
def execSsub (d : Nat) (a : Nat) (b : Nat) (s : State) : Out :=
  .next (s.scalarOp d (s.src a - s.src b))

/-- `smul` (R268/13). Scalar multiply modulo 2^64. -/
def execSmul (d : Nat) (a : Nat) (b : Nat) (s : State) : Out :=
  .next (s.scalarOp d (s.src a * s.src b))

/-- `smulh.i64` (R268/13). High 64 bits of the signed scalar product. -/
def execSmulhI64 (d : Nat) (a : Nat) (b : Nat) (s : State) : Out :=
  .next (s.scalarOp d (mulhS (s.src a) (s.src b)))

/-- `smulh.n64` (R268/13). High 64 bits of the unsigned scalar product. -/
def execSmulhN64 (d : Nat) (a : Nat) (b : Nat) (s : State) : Out :=
  .next (s.scalarOp d (mulhU (s.src a) (s.src b)))

/-- `sand` (R268/13). Scalar bitwise AND. -/
def execSand (d : Nat) (a : Nat) (b : Nat) (s : State) : Out :=
  .next (s.scalarOp d (s.src a &&& s.src b))

/-- `sor` (R268/13). Scalar bitwise OR. -/
def execSor (d : Nat) (a : Nat) (b : Nat) (s : State) : Out :=
  .next (s.scalarOp d (s.src a ||| s.src b))

/-- `sxor` (R268/13). Scalar bitwise XOR. -/
def execSxor (d : Nat) (a : Nat) (b : Nat) (s : State) : Out :=
  .next (s.scalarOp d (s.src a ^^^ s.src b))

/-- `sshl` (R268/13). Scalar shift left by B AND 63. -/
def execSshl (d : Nat) (a : Nat) (b : Nat) (s : State) : Out :=
  .next (s.scalarOp d (shlV (s.src a) (s.src b)))

/-- `sshr.n64` (R268/13). Scalar logical shift right. -/
def execSshrN64 (d : Nat) (a : Nat) (b : Nat) (s : State) : Out :=
  .next (s.scalarOp d (shrU (s.src a) (s.src b)))

/-- `sshr.i64` (R268/13). Scalar arithmetic shift right. -/
def execSshrI64 (d : Nat) (a : Nat) (b : Nat) (s : State) : Out :=
  .next (s.scalarOp d (shrS (s.src a) (s.src b)))

/-- `smin.i64` (R268/13). Signed scalar minimum. -/
def execSminI64 (d : Nat) (a : Nat) (b : Nat) (s : State) : Out :=
  .next (s.scalarOp d (minS (s.src a) (s.src b)))

/-- `smin.n64` (R268/13). Unsigned scalar minimum. -/
def execSminN64 (d : Nat) (a : Nat) (b : Nat) (s : State) : Out :=
  .next (s.scalarOp d (minU (s.src a) (s.src b)))

/-- `smax.i64` (R268/13). Signed scalar maximum. -/
def execSmaxI64 (d : Nat) (a : Nat) (b : Nat) (s : State) : Out :=
  .next (s.scalarOp d (maxS (s.src a) (s.src b)))

/-- `smax.n64` (R268/13). Unsigned scalar maximum. -/
def execSmaxN64 (d : Nat) (a : Nat) (b : Nat) (s : State) : Out :=
  .next (s.scalarOp d (maxU (s.src a) (s.src b)))

/-- `sseq` (R268/13). Scalar equality test yielding 1 or 0. -/
def execSseq (d : Nat) (a : Nat) (b : Nat) (s : State) : Out :=
  .next (s.scalarOp d (flag64 (s.src a == s.src b)))

/-- `ssne` (R268/13). Scalar inequality test. -/
def execSsne (d : Nat) (a : Nat) (b : Nat) (s : State) : Out :=
  .next (s.scalarOp d (flag64 (s.src a != s.src b)))

/-- `sslt.i64` (R268/13). Signed scalar less-than test. -/
def execSsltI64 (d : Nat) (a : Nat) (b : Nat) (s : State) : Out :=
  .next (s.scalarOp d (flag64 ((s.src a).slt (s.src b))))

/-- `sslt.n64` (R268/13). Unsigned scalar less-than test. -/
def execSsltN64 (d : Nat) (a : Nat) (b : Nat) (s : State) : Out :=
  .next (s.scalarOp d (flag64 ((s.src a).ult (s.src b))))

/-- `ssle.i64` (R268/13). Signed scalar less-or-equal test. -/
def execSsleI64 (d : Nat) (a : Nat) (b : Nat) (s : State) : Out :=
  .next (s.scalarOp d (flag64 ((s.src a).sle (s.src b))))

/-- `ssle.n64` (R268/13). Unsigned scalar less-or-equal test. -/
def execSsleN64 (d : Nat) (a : Nat) (b : Nat) (s : State) : Out :=
  .next (s.scalarOp d (flag64 ((s.src a).ule (s.src b))))

/-- `spopc` (R268/13). Scalar population count. -/
def execSpopc (d : Nat) (a : Nat) (s : State) : Out :=
  .next (s.scalarOp d (popc (s.src a)))

/-- `sclz` (R268/13). Scalar count of leading zeros. -/
def execSclz (d : Nat) (a : Nat) (s : State) : Out :=
  .next (s.scalarOp d (clzV (s.src a)))

/-- `sctz` (R268/13). Scalar count of trailing zeros. -/
def execSctz (d : Nat) (a : Nat) (s : State) : Out :=
  .next (s.scalarOp d (ctzV (s.src a)))

/-- `sbrev` (R268/13). Scalar bit reversal. -/
def execSbrev (d : Nat) (a : Nat) (s : State) : Out :=
  .next (s.scalarOp d (brevV (s.src a)))

/-- `smov` (R268/13). Scalar move. -/
def execSmov (d : Nat) (a : Nat) (s : State) : Out :=
  .next (s.scalarOp d (s.src a))

/-- `saddi` (R270/13). Scalar add of a sign-extended 11-bit immediate. -/
def execSaddi (d : Nat) (a : Nat) (i : BitVec 11) (s : State) : Out :=
  .next (s.scalarOp d (s.src a + i.signExtend 64))

/-- `sandi` (R270/13). Scalar AND with a sign-extended immediate. -/
def execSandi (d : Nat) (a : Nat) (i : BitVec 11) (s : State) : Out :=
  .next (s.scalarOp d (s.src a &&& i.signExtend 64))

/-- `sori` (R270/13). Scalar OR with a sign-extended immediate. -/
def execSori (d : Nat) (a : Nat) (i : BitVec 11) (s : State) : Out :=
  .next (s.scalarOp d (s.src a ||| i.signExtend 64))

/-- `sxori` (R270/13). Scalar XOR with a sign-extended immediate. -/
def execSxori (d : Nat) (a : Nat) (i : BitVec 11) (s : State) : Out :=
  .next (s.scalarOp d (s.src a ^^^ i.signExtend 64))

/-- `sshli` (R270/13). Scalar shift left by an immediate count. -/
def execSshli (d : Nat) (a : Nat) (i : BitVec 6) (s : State) : Out :=
  .next (s.scalarOp d (s.src a <<< i.toNat))

/-- `sshri.n64` (R270/13). Scalar logical shift right by an immediate count. -/
def execSshriN64 (d : Nat) (a : Nat) (i : BitVec 6) (s : State) : Out :=
  .next (s.scalarOp d (s.src a >>> i.toNat))

/-- `sshri.i64` (R270/13). Scalar arithmetic shift right by an immediate count. -/
def execSshriI64 (d : Nat) (a : Nat) (i : BitVec 6) (s : State) : Out :=
  .next (s.scalarOp d ((s.src a).sshiftRight i.toNat))

/-- `sslti.i64` (R270/13). Signed scalar less-than against an immediate. -/
def execSsltiI64 (d : Nat) (a : Nat) (i : BitVec 11) (s : State) : Out :=
  .next (s.scalarOp d (flag64 ((s.src a).slt (i.signExtend 64))))

/-- `sslti.n64` (R270/13). Unsigned scalar less-than against an immediate. -/
def execSsltiN64 (d : Nat) (a : Nat) (i : BitVec 11) (s : State) : Out :=
  .next (s.scalarOp d (flag64 ((s.src a).ult (i.signExtend 64))))

/-- `smuli` (R270/13). Scalar multiply by an immediate. -/
def execSmuli (d : Nat) (a : Nat) (i : BitVec 11) (s : State) : Out :=
  .next (s.scalarOp d (s.src a * i.signExtend 64))

/-- `li` (R271/13). Loads a sign-extended 18-bit immediate into a scalar. -/
def execLi (d : Nat) (i : BitVec 18) (s : State) : Out :=
  .next (s.scalarOp d (i.signExtend 64))

/-- `sli` (R271/13). Shifts a scalar left 18 and ORs an unsigned immediate. -/
def execSli (d : Nat) (i : BitVec 18) (s : State) : Out :=
  .next (s.scalarOp d ((s.me.sget d <<< 18) ||| i.setWidth 64))

/-- `adda.x1` (R272/13). Scalar address A + B. -/
def execAddaX1 (d : Nat) (a : Nat) (b : Nat) (s : State) : Out :=
  .next (s.scalarOp d (s.src a + s.src b))

/-- `adda.x2` (R272/13). Scalar address A + 2B. -/
def execAddaX2 (d : Nat) (a : Nat) (b : Nat) (s : State) : Out :=
  .next (s.scalarOp d (s.src a + s.src b <<< 1))

/-- `adda.x4` (R272/13). Scalar address A + 4B. -/
def execAddaX4 (d : Nat) (a : Nat) (b : Nat) (s : State) : Out :=
  .next (s.scalarOp d (s.src a + s.src b <<< 2))

/-- `adda.x8` (R272/13). Scalar address A + 8B. -/
def execAddaX8 (d : Nat) (a : Nat) (b : Nat) (s : State) : Out :=
  .next (s.scalarOp d (s.src a + s.src b <<< 3))

/-- `adda.x16` (R272/13). Scalar address A + 16B. -/
def execAddaX16 (d : Nat) (a : Nat) (b : Nat) (s : State) : Out :=
  .next (s.scalarOp d (s.src a + s.src b <<< 4))

/-- The value that a pending destination of an inactive lane brings to a register, where one is pending (R273/13). -/
def Sheaf.coming (h : Sheaf) (k r : Nat) : Option Word :=
  (h.pend.find? fun p => p.lanes.getLsbD k && p.regs.contains r).bind fun p =>
    (p.vals.find? fun x => x.1 == k && x.2.1 == r).map fun x => x.2.2

/-- `vget` (R273/13). Reads lane k's register whatever the lane's state; a pending one of an inactive lane gives the value before
the pending write or the value it brings, by a free choice. -/
def execVget (d : Nat) (a : Nat) (b : Nat) (s : State) : Out :=
  let k := (s.src b).toNat % 64
  match s.active.getLsbD k, s.me.coming k (s.me.wb + a) with
  | false, some x =>
    let (late, s) := s.flip
    .next (s.scalarOp d ((if late then x else s.me.vget k a).setWidth 64))
  | _, _ => .next (s.scalarOp d ((s.me.vget k a).setWidth 64))

/-- `sdiv.i64` (R269/13). Signed scalar division truncated toward zero; division by zero sets DZ. -/
def execSdivI64 (d : Nat) (a : Nat) (b : Nat) (s : State) : Out :=
  .next (s.scalarDiv d a b divS)

/-- `sdiv.n64` (R269/13). Unsigned scalar division; division by zero sets DZ. -/
def execSdivN64 (d : Nat) (a : Nat) (b : Nat) (s : State) : Out :=
  .next (s.scalarDiv d a b divU)

/-- `srem.i64` (R269/13). Signed scalar remainder. -/
def execSremI64 (d : Nat) (a : Nat) (b : Nat) (s : State) : Out :=
  .next (s.scalarDiv d a b remS)

/-- `srem.n64` (R269/13). Unsigned scalar remainder. -/
def execSremN64 (d : Nat) (a : Nat) (b : Nat) (s : State) : Out :=
  .next (s.scalarDiv d a b remU)

/-- `vli` (R271/13). Loads a sign-extended immediate into a vector register of each active lane. -/
def execVli (d : Nat) (i : BitVec 18) (s : State) : Out :=
  .next ((s.vwrite d fun _ => i.signExtend 32)).retire

/-- `adda.v` (R272/13). Per-lane 64-bit address from a scalar base and unsigned vector offset. -/
def execAddaV (d : Nat) (a : Nat) (b : Nat) (s : State) : Out :=
  .next ((s.vwrite64 d fun l => s.readS s.me l a + (s.me.vget l b).setWidth 64)).retire

/-- `vmov` (R273/13). Vector register move. -/
def execVmov (d : Nat) (a : Nat) (s : State) : Out :=
  .next ((s.vwrite d fun l => s.me.vget l a)).retire

/-- `vbcast` (R273/13). Broadcasts a scalar's low 32 bits to a vector. -/
def execVbcast (d : Nat) (a : Nat) (s : State) : Out :=
  .next ((s.vwrite d fun l => (s.readS s.me l a).setWidth 32)).retire

/-- `vbcast64` (R273/13). Broadcasts a 64-bit scalar to a vector pair. -/
def execVbcast64 (d : Nat) (a : Nat) (s : State) : Out :=
  .next ((s.vwrite64 d fun l => s.readS s.me l a)).retire

/-- `vput` (R273/13). Writes lane k only when it is active; a per-lane source named as sa is read for lane k (R273/13).
DESIGN CHOICE: one named as sb, the lane selector, is read for the lowest active lane (log 97). -/
def execVput (d : Nat) (a : Nat) (b : Nat) (s : State) : Out :=
  let k := (s.src b).toNat % 64
  .next (if s.active.getLsbD k then (s.modMe fun h => h.vset k d ((s.readS s.me k a).setWidth 32)).retire else s.retire)

/-- `wbase` (R274/13). Sets the window base, trapping SPACE beyond the register budget. -/
def execWbase (i : BitVec 18) (s : State) : Out :=
  .next (s.moveWindow i.toNat)

/-- `wshift` (R274/13). Moves the window base by a signed immediate. -/
def execWshift (i : BitVec 11) (s : State) : Out :=
  .next (s.moveWindow (s.me.wb + i.toInt))

end Sys2Proof.Machine
end

