-- ==== Sys2Proof/Machine/Dispatch.lean ====
section
/-! DEFINITION. One arm per constructor of Instr: each calls the meaning of its instruction. -/

namespace Sys2Proof.Machine

def exec (i : Instr) (s : State) : Host.Outcome State Fault Refusal :=
  match i with
  | .moduleReset => Sys2Proof.Machine.execModuleReset s
  | .firmwareBundleVerification sig version sysCtx => Sys2Proof.Machine.execFirmwareBundleVerification sig version sysCtx s
  | .bringUpMemory ok p => Sys2Proof.Machine.execBringUpMemory ok p s
  | .bringUpPower ok p => Sys2Proof.Machine.execBringUpPower ok p s
  | .bringUpFabric ok device => Sys2Proof.Machine.execBringUpFabric ok device s
  | .bringUpQueues ok queues => Sys2Proof.Machine.execBringUpQueues ok queues s
  | .spdmMeasurementRequest nonce => Sys2Proof.Machine.execSpdmMeasurementRequest nonce s
  | .physicalSubmissionRegisterWrite v => Sys2Proof.Machine.execPhysicalSubmissionRegisterWrite v s
  | .allowListEntryWrite q off bytes => Sys2Proof.Machine.execAllowListEntryWrite q off bytes s
  | .rampTableWrite cluster high v => Sys2Proof.Machine.execRampTableWrite cluster high v s
  | .pooledMemoryDecoderWrite n d => Sys2Proof.Machine.execPooledMemoryDecoderWrite n d s
  | .registerWrite r v => Sys2Proof.Machine.execRegisterWrite r v s
  | .noOperation q => Sys2Proof.Machine.execNoOperation q s
  | .launch q => Sys2Proof.Machine.execLaunch q s
  | .engineJobCard q => Sys2Proof.Machine.execEngineJobCard q s
  | .signalEventWord q => Sys2Proof.Machine.execSignalEventWord q s
  | .waitEventWord q => Sys2Proof.Machine.execWaitEventWord q s
  | .eventWordWaitSatisfied q => Sys2Proof.Machine.execEventWordWaitSatisfied q s
  | .reclaimRequest src => Sys2Proof.Machine.execReclaimRequest src s
  | .parkContext q => Sys2Proof.Machine.execParkContext q s
  | .resumeContext q => Sys2Proof.Machine.execResumeContext q s
  | .translationInvalidation q => Sys2Proof.Machine.execTranslationInvalidation q s
  | .launchDispatch => Sys2Proof.Machine.execLaunchDispatch s
  | .launchRetirement l => Sys2Proof.Machine.execLaunchRetirement l s
  | .sheafMadeResident l n core slot => Sys2Proof.Machine.execSheafMadeResident l n core slot s
  | .carveOutChange core idx => Sys2Proof.Machine.execCarveOutChange core idx s
  | .fairnessPeriodExpiry sheaf => Sys2Proof.Machine.execFairnessPeriodExpiry sheaf s
  | .starvingSheaf sheaf => Sys2Proof.Machine.execStarvingSheaf sheaf s
  | .foldQuantumExpiry core ctx group => Sys2Proof.Machine.execFoldQuantumExpiry core ctx group s
  | .taskTake core slot => Sys2Proof.Machine.execTaskTake core slot s
  | .taskSteal core slot => Sys2Proof.Machine.execTaskSteal core slot s
  | .phaseResume core slot => Sys2Proof.Machine.execPhaseResume core slot s
  | .loadDataArrival sheaf pend => Sys2Proof.Machine.execLoadDataArrival sheaf pend s
  | .loadFaultMappingMade sheaf pend => Sys2Proof.Machine.execLoadFaultMappingMade sheaf pend s
  | .loadFaultWaitTimeout sheaf pend => Sys2Proof.Machine.execLoadFaultWaitTimeout sheaf pend s
  | .collstallTimeout sheaf => Sys2Proof.Machine.execCollstallTimeout sheaf s
  | .noticeTrap sheaf => Sys2Proof.Machine.execNoticeTrap sheaf s
  | .forcedSqueeze core ctx => Sys2Proof.Machine.execForcedSqueeze core ctx s
  | .squeezeCompletion core ctx => Sys2Proof.Machine.execSqueezeCompletion core ctx s
  | .expansionStep core ctx => Sys2Proof.Machine.execExpansionStep core ctx s
  | .scratchPageMove core ctx => Sys2Proof.Machine.execScratchPageMove core ctx s
  | .matrixCommandStart core cmd => Sys2Proof.Machine.execMatrixCommandStart core cmd s
  | .rampGovernorStep cluster => Sys2Proof.Machine.execRampGovernorStep cluster s
  | .ringSlotWaitEnd core cmd => Sys2Proof.Machine.execRingSlotWaitEnd core cmd s
  | .matrixQuiescentStop core cmd => Sys2Proof.Machine.execMatrixQuiescentStop core cmd s
  | .matrixCommandResume core cmd => Sys2Proof.Machine.execMatrixCommandResume core cmd s
  | .matrixCommandCompletion core cmd => Sys2Proof.Machine.execMatrixCommandCompletion core cmd s
  | .matrixFifoPostResume sheaf => Sys2Proof.Machine.execMatrixFifoPostResume sheaf s
  | .engineQueuePostResume sheaf => Sys2Proof.Machine.execEngineQueuePostResume sheaf s
  | .jobStart job => Sys2Proof.Machine.execJobStart job s
  | .copyChunkLanding job chunk => Sys2Proof.Machine.execCopyChunkLanding job chunk s
  | .jobCompletion job => Sys2Proof.Machine.execJobCompletion job s
  | .engineXlate2Timeout job => Sys2Proof.Machine.execEngineXlate2Timeout job s
  | .exchangeStreamArrival st => Sys2Proof.Machine.execExchangeStreamArrival st s
  | .exchangeHeaderAdmission => Sys2Proof.Machine.execExchangeHeaderAdmission s
  | .exchangeDeadlineExpiry job => Sys2Proof.Machine.execExchangeDeadlineExpiry job s
  | .mergeLineAction job => Sys2Proof.Machine.execMergeLineAction job s
  | .joinCompletion job => Sys2Proof.Machine.execJoinCompletion job s
  | .sequencerTicket => Sys2Proof.Machine.execSequencerTicket s
  | .remoteStoreAcknowledgement k fail => Sys2Proof.Machine.execRemoteStoreAcknowledgement k fail s
  | .l2LineEviction line => Sys2Proof.Machine.execL2LineEviction line s
  | .twaitCompletion sheaf => Sys2Proof.Machine.execTwaitCompletion sheaf s
  | .cwaitCompletion sheaf => Sys2Proof.Machine.execCwaitCompletion sheaf s
  | .saveResume ctx => Sys2Proof.Machine.execSaveResume ctx s
  | .saveDeadlineExpiry ctx => Sys2Proof.Machine.execSaveDeadlineExpiry ctx s
  | .uncorrectableError e => Sys2Proof.Machine.execUncorrectableError e s
  | .jobReplay job => Sys2Proof.Machine.execJobReplay job s
  | .launchRestart l => Sys2Proof.Machine.execLaunchRestart l s
  | .brynozLinkFailure link => Sys2Proof.Machine.execBrynozLinkFailure link s
  | .peerModuleFailure m => Sys2Proof.Machine.execPeerModuleFailure m s
  | .powerCapInterval => Sys2Proof.Machine.execPowerCapInterval s
  | .thermalTrip => Sys2Proof.Machine.execThermalTrip s
  | .mailboxMessage core sender msg => Sys2Proof.Machine.execMailboxMessage core sender msg s
  | .illegalInstruction w => Sys2Proof.Machine.execIllegalInstruction w s
  | .sadd d a b => Sys2Proof.Machine.execSadd d a b s
  | .ssub d a b => Sys2Proof.Machine.execSsub d a b s
  | .smul d a b => Sys2Proof.Machine.execSmul d a b s
  | .smulhI64 d a b => Sys2Proof.Machine.execSmulhI64 d a b s
  | .smulhN64 d a b => Sys2Proof.Machine.execSmulhN64 d a b s
  | .sand d a b => Sys2Proof.Machine.execSand d a b s
  | .sor d a b => Sys2Proof.Machine.execSor d a b s
  | .sxor d a b => Sys2Proof.Machine.execSxor d a b s
  | .sshl d a b => Sys2Proof.Machine.execSshl d a b s
  | .sshrN64 d a b => Sys2Proof.Machine.execSshrN64 d a b s
  | .sshrI64 d a b => Sys2Proof.Machine.execSshrI64 d a b s
  | .sminI64 d a b => Sys2Proof.Machine.execSminI64 d a b s
  | .sminN64 d a b => Sys2Proof.Machine.execSminN64 d a b s
  | .smaxI64 d a b => Sys2Proof.Machine.execSmaxI64 d a b s
  | .smaxN64 d a b => Sys2Proof.Machine.execSmaxN64 d a b s
  | .sdivI64 d a b => Sys2Proof.Machine.execSdivI64 d a b s
  | .sdivN64 d a b => Sys2Proof.Machine.execSdivN64 d a b s
  | .sremI64 d a b => Sys2Proof.Machine.execSremI64 d a b s
  | .sremN64 d a b => Sys2Proof.Machine.execSremN64 d a b s
  | .sseq d a b => Sys2Proof.Machine.execSseq d a b s
  | .ssne d a b => Sys2Proof.Machine.execSsne d a b s
  | .ssltI64 d a b => Sys2Proof.Machine.execSsltI64 d a b s
  | .ssltN64 d a b => Sys2Proof.Machine.execSsltN64 d a b s
  | .ssleI64 d a b => Sys2Proof.Machine.execSsleI64 d a b s
  | .ssleN64 d a b => Sys2Proof.Machine.execSsleN64 d a b s
  | .spopc d a => Sys2Proof.Machine.execSpopc d a s
  | .sclz d a => Sys2Proof.Machine.execSclz d a s
  | .sctz d a => Sys2Proof.Machine.execSctz d a s
  | .sbrev d a => Sys2Proof.Machine.execSbrev d a s
  | .smov d a => Sys2Proof.Machine.execSmov d a s
  | .saddi d a im => Sys2Proof.Machine.execSaddi d a im s
  | .sandi d a im => Sys2Proof.Machine.execSandi d a im s
  | .sori d a im => Sys2Proof.Machine.execSori d a im s
  | .sxori d a im => Sys2Proof.Machine.execSxori d a im s
  | .sshli d a im => Sys2Proof.Machine.execSshli d a im s
  | .sshriN64 d a im => Sys2Proof.Machine.execSshriN64 d a im s
  | .sshriI64 d a im => Sys2Proof.Machine.execSshriI64 d a im s
  | .ssltiI64 d a im => Sys2Proof.Machine.execSsltiI64 d a im s
  | .ssltiN64 d a im => Sys2Proof.Machine.execSsltiN64 d a im s
  | .smuli d a im => Sys2Proof.Machine.execSmuli d a im s
  | .nop => Sys2Proof.Machine.execNop s
  | .exit => Sys2Proof.Machine.execExit s
  | .yield => Sys2Proof.Machine.execYield s
  | .ret a => Sys2Proof.Machine.execRet a s
  | .brk => Sys2Proof.Machine.execBrk s
  | .bra o => Sys2Proof.Machine.execBra o s
  | .bnz c o => Sys2Proof.Machine.execBnz c o s
  | .bz c o => Sys2Proof.Machine.execBz c o s
  | .bnzv c o => Sys2Proof.Machine.execBnzv c o s
  | .bzv c o => Sys2Proof.Machine.execBzv c o s
  | .call c o => Sys2Proof.Machine.execCall c o s
  | .loop d v k n => Sys2Proof.Machine.execLoop d v k n s
  | .li d im => Sys2Proof.Machine.execLi d im s
  | .sli d im => Sys2Proof.Machine.execSli d im s
  | .vli d im => Sys2Proof.Machine.execVli d im s
  | .addaX1 d a b => Sys2Proof.Machine.execAddaX1 d a b s
  | .addaX2 d a b => Sys2Proof.Machine.execAddaX2 d a b s
  | .addaX4 d a b => Sys2Proof.Machine.execAddaX4 d a b s
  | .addaX8 d a b => Sys2Proof.Machine.execAddaX8 d a b s
  | .addaX16 d a b => Sys2Proof.Machine.execAddaX16 d a b s
  | .addaV d a b => Sys2Proof.Machine.execAddaV d a b s
  | .wbase im => Sys2Proof.Machine.execWbase im s
  | .wshift im => Sys2Proof.Machine.execWshift im s
  | .vmov d a => Sys2Proof.Machine.execVmov d a s
  | .vbcast d a => Sys2Proof.Machine.execVbcast d a s
  | .vbcast64 d a => Sys2Proof.Machine.execVbcast64 d a s
  | .vget d a b => Sys2Proof.Machine.execVget d a b s
  | .vput d a b => Sys2Proof.Machine.execVput d a b s
  | .addI32Vv d a b => Sys2Proof.Machine.execAddI32Vv d a b s
  | .subI32Vv d a b => Sys2Proof.Machine.execSubI32Vv d a b s
  | .mulI32Vv d a b => Sys2Proof.Machine.execMulI32Vv d a b s
  | .mulhI32Vv d a b => Sys2Proof.Machine.execMulhI32Vv d a b s
  | .mulhN32Vv d a b => Sys2Proof.Machine.execMulhN32Vv d a b s
  | .minI32Vv d a b => Sys2Proof.Machine.execMinI32Vv d a b s
  | .minN32Vv d a b => Sys2Proof.Machine.execMinN32Vv d a b s
  | .maxI32Vv d a b => Sys2Proof.Machine.execMaxI32Vv d a b s
  | .maxN32Vv d a b => Sys2Proof.Machine.execMaxN32Vv d a b s
  | .andB32Vv d a b => Sys2Proof.Machine.execAndB32Vv d a b s
  | .orB32Vv d a b => Sys2Proof.Machine.execOrB32Vv d a b s
  | .xorB32Vv d a b => Sys2Proof.Machine.execXorB32Vv d a b s
  | .shlB32Vv d a b => Sys2Proof.Machine.execShlB32Vv d a b s
  | .shrN32Vv d a b => Sys2Proof.Machine.execShrN32Vv d a b s
  | .shrI32Vv d a b => Sys2Proof.Machine.execShrI32Vv d a b s
  | .addsI32Vv d a b => Sys2Proof.Machine.execAddsI32Vv d a b s
  | .addI32Vs d a b => Sys2Proof.Machine.execAddI32Vs d a b s
  | .subI32Vs d a b => Sys2Proof.Machine.execSubI32Vs d a b s
  | .mulI32Vs d a b => Sys2Proof.Machine.execMulI32Vs d a b s
  | .mulhI32Vs d a b => Sys2Proof.Machine.execMulhI32Vs d a b s
  | .mulhN32Vs d a b => Sys2Proof.Machine.execMulhN32Vs d a b s
  | .minI32Vs d a b => Sys2Proof.Machine.execMinI32Vs d a b s
  | .minN32Vs d a b => Sys2Proof.Machine.execMinN32Vs d a b s
  | .maxI32Vs d a b => Sys2Proof.Machine.execMaxI32Vs d a b s
  | .maxN32Vs d a b => Sys2Proof.Machine.execMaxN32Vs d a b s
  | .andB32Vs d a b => Sys2Proof.Machine.execAndB32Vs d a b s
  | .orB32Vs d a b => Sys2Proof.Machine.execOrB32Vs d a b s
  | .xorB32Vs d a b => Sys2Proof.Machine.execXorB32Vs d a b s
  | .shlB32Vs d a b => Sys2Proof.Machine.execShlB32Vs d a b s
  | .shrN32Vs d a b => Sys2Proof.Machine.execShrN32Vs d a b s
  | .shrI32Vs d a b => Sys2Proof.Machine.execShrI32Vs d a b s
  | .addsI32Vs d a b => Sys2Proof.Machine.execAddsI32Vs d a b s
  | .addI64Vv d a b => Sys2Proof.Machine.execAddI64Vv d a b s
  | .subI64Vv d a b => Sys2Proof.Machine.execSubI64Vv d a b s
  | .mulI64Vv d a b => Sys2Proof.Machine.execMulI64Vv d a b s
  | .mulhI64Vv d a b => Sys2Proof.Machine.execMulhI64Vv d a b s
  | .mulhN64Vv d a b => Sys2Proof.Machine.execMulhN64Vv d a b s
  | .minI64Vv d a b => Sys2Proof.Machine.execMinI64Vv d a b s
  | .minN64Vv d a b => Sys2Proof.Machine.execMinN64Vv d a b s
  | .maxI64Vv d a b => Sys2Proof.Machine.execMaxI64Vv d a b s
  | .maxN64Vv d a b => Sys2Proof.Machine.execMaxN64Vv d a b s
  | .andB64Vv d a b => Sys2Proof.Machine.execAndB64Vv d a b s
  | .orB64Vv d a b => Sys2Proof.Machine.execOrB64Vv d a b s
  | .xorB64Vv d a b => Sys2Proof.Machine.execXorB64Vv d a b s
  | .shlB64Vv d a b => Sys2Proof.Machine.execShlB64Vv d a b s
  | .shrN64Vv d a b => Sys2Proof.Machine.execShrN64Vv d a b s
  | .shrI64Vv d a b => Sys2Proof.Machine.execShrI64Vv d a b s
  | .addsI64Vv d a b => Sys2Proof.Machine.execAddsI64Vv d a b s
  | .addI64Vs d a b => Sys2Proof.Machine.execAddI64Vs d a b s
  | .subI64Vs d a b => Sys2Proof.Machine.execSubI64Vs d a b s
  | .mulI64Vs d a b => Sys2Proof.Machine.execMulI64Vs d a b s
  | .mulhI64Vs d a b => Sys2Proof.Machine.execMulhI64Vs d a b s
  | .mulhN64Vs d a b => Sys2Proof.Machine.execMulhN64Vs d a b s
  | .minI64Vs d a b => Sys2Proof.Machine.execMinI64Vs d a b s
  | .minN64Vs d a b => Sys2Proof.Machine.execMinN64Vs d a b s
  | .maxI64Vs d a b => Sys2Proof.Machine.execMaxI64Vs d a b s
  | .maxN64Vs d a b => Sys2Proof.Machine.execMaxN64Vs d a b s
  | .andB64Vs d a b => Sys2Proof.Machine.execAndB64Vs d a b s
  | .orB64Vs d a b => Sys2Proof.Machine.execOrB64Vs d a b s
  | .xorB64Vs d a b => Sys2Proof.Machine.execXorB64Vs d a b s
  | .shlB64Vs d a b => Sys2Proof.Machine.execShlB64Vs d a b s
  | .shrN64Vs d a b => Sys2Proof.Machine.execShrN64Vs d a b s
  | .shrI64Vs d a b => Sys2Proof.Machine.execShrI64Vs d a b s
  | .addsI64Vs d a b => Sys2Proof.Machine.execAddsI64Vs d a b s
  | .addF16Vv d a b => Sys2Proof.Machine.execAddF16Vv d a b s
  | .subF16Vv d a b => Sys2Proof.Machine.execSubF16Vv d a b s
  | .mulF16Vv d a b => Sys2Proof.Machine.execMulF16Vv d a b s
  | .divF16Vv d a b => Sys2Proof.Machine.execDivF16Vv d a b s
  | .minF16Vv d a b => Sys2Proof.Machine.execMinF16Vv d a b s
  | .maxF16Vv d a b => Sys2Proof.Machine.execMaxF16Vv d a b s
  | .fmaF16Vv d a b => Sys2Proof.Machine.execFmaF16Vv d a b s
  | .fmsF16Vv d a b => Sys2Proof.Machine.execFmsF16Vv d a b s
  | .fnmaF16Vv d a b => Sys2Proof.Machine.execFnmaF16Vv d a b s
  | .copysignF16Vv d a b => Sys2Proof.Machine.execCopysignF16Vv d a b s
  | .addF16Vs d a b => Sys2Proof.Machine.execAddF16Vs d a b s
  | .subF16Vs d a b => Sys2Proof.Machine.execSubF16Vs d a b s
  | .mulF16Vs d a b => Sys2Proof.Machine.execMulF16Vs d a b s
  | .divF16Vs d a b => Sys2Proof.Machine.execDivF16Vs d a b s
  | .minF16Vs d a b => Sys2Proof.Machine.execMinF16Vs d a b s
  | .maxF16Vs d a b => Sys2Proof.Machine.execMaxF16Vs d a b s
  | .fmaF16Vs d a b => Sys2Proof.Machine.execFmaF16Vs d a b s
  | .fmsF16Vs d a b => Sys2Proof.Machine.execFmsF16Vs d a b s
  | .fnmaF16Vs d a b => Sys2Proof.Machine.execFnmaF16Vs d a b s
  | .copysignF16Vs d a b => Sys2Proof.Machine.execCopysignF16Vs d a b s
  | .addF32Vv d a b => Sys2Proof.Machine.execAddF32Vv d a b s
  | .subF32Vv d a b => Sys2Proof.Machine.execSubF32Vv d a b s
  | .mulF32Vv d a b => Sys2Proof.Machine.execMulF32Vv d a b s
  | .divF32Vv d a b => Sys2Proof.Machine.execDivF32Vv d a b s
  | .minF32Vv d a b => Sys2Proof.Machine.execMinF32Vv d a b s
  | .maxF32Vv d a b => Sys2Proof.Machine.execMaxF32Vv d a b s
  | .fmaF32Vv d a b => Sys2Proof.Machine.execFmaF32Vv d a b s
  | .fmsF32Vv d a b => Sys2Proof.Machine.execFmsF32Vv d a b s
  | .fnmaF32Vv d a b => Sys2Proof.Machine.execFnmaF32Vv d a b s
  | .copysignF32Vv d a b => Sys2Proof.Machine.execCopysignF32Vv d a b s
  | .addF32Vs d a b => Sys2Proof.Machine.execAddF32Vs d a b s
  | .subF32Vs d a b => Sys2Proof.Machine.execSubF32Vs d a b s
  | .mulF32Vs d a b => Sys2Proof.Machine.execMulF32Vs d a b s
  | .divF32Vs d a b => Sys2Proof.Machine.execDivF32Vs d a b s
  | .minF32Vs d a b => Sys2Proof.Machine.execMinF32Vs d a b s
  | .maxF32Vs d a b => Sys2Proof.Machine.execMaxF32Vs d a b s
  | .fmaF32Vs d a b => Sys2Proof.Machine.execFmaF32Vs d a b s
  | .fmsF32Vs d a b => Sys2Proof.Machine.execFmsF32Vs d a b s
  | .fnmaF32Vs d a b => Sys2Proof.Machine.execFnmaF32Vs d a b s
  | .copysignF32Vs d a b => Sys2Proof.Machine.execCopysignF32Vs d a b s
  | .addBf16Vv d a b => Sys2Proof.Machine.execAddBf16Vv d a b s
  | .subBf16Vv d a b => Sys2Proof.Machine.execSubBf16Vv d a b s
  | .mulBf16Vv d a b => Sys2Proof.Machine.execMulBf16Vv d a b s
  | .divBf16Vv d a b => Sys2Proof.Machine.execDivBf16Vv d a b s
  | .minBf16Vv d a b => Sys2Proof.Machine.execMinBf16Vv d a b s
  | .maxBf16Vv d a b => Sys2Proof.Machine.execMaxBf16Vv d a b s
  | .fmaBf16Vv d a b => Sys2Proof.Machine.execFmaBf16Vv d a b s
  | .fmsBf16Vv d a b => Sys2Proof.Machine.execFmsBf16Vv d a b s
  | .fnmaBf16Vv d a b => Sys2Proof.Machine.execFnmaBf16Vv d a b s
  | .copysignBf16Vv d a b => Sys2Proof.Machine.execCopysignBf16Vv d a b s
  | .addBf16Vs d a b => Sys2Proof.Machine.execAddBf16Vs d a b s
  | .subBf16Vs d a b => Sys2Proof.Machine.execSubBf16Vs d a b s
  | .mulBf16Vs d a b => Sys2Proof.Machine.execMulBf16Vs d a b s
  | .divBf16Vs d a b => Sys2Proof.Machine.execDivBf16Vs d a b s
  | .minBf16Vs d a b => Sys2Proof.Machine.execMinBf16Vs d a b s
  | .maxBf16Vs d a b => Sys2Proof.Machine.execMaxBf16Vs d a b s
  | .fmaBf16Vs d a b => Sys2Proof.Machine.execFmaBf16Vs d a b s
  | .fmsBf16Vs d a b => Sys2Proof.Machine.execFmsBf16Vs d a b s
  | .fnmaBf16Vs d a b => Sys2Proof.Machine.execFnmaBf16Vs d a b s
  | .copysignBf16Vs d a b => Sys2Proof.Machine.execCopysignBf16Vs d a b s
  | .addF64Vv d a b => Sys2Proof.Machine.execAddF64Vv d a b s
  | .subF64Vv d a b => Sys2Proof.Machine.execSubF64Vv d a b s
  | .mulF64Vv d a b => Sys2Proof.Machine.execMulF64Vv d a b s
  | .divF64Vv d a b => Sys2Proof.Machine.execDivF64Vv d a b s
  | .minF64Vv d a b => Sys2Proof.Machine.execMinF64Vv d a b s
  | .maxF64Vv d a b => Sys2Proof.Machine.execMaxF64Vv d a b s
  | .fmaF64Vv d a b => Sys2Proof.Machine.execFmaF64Vv d a b s
  | .fmsF64Vv d a b => Sys2Proof.Machine.execFmsF64Vv d a b s
  | .fnmaF64Vv d a b => Sys2Proof.Machine.execFnmaF64Vv d a b s
  | .copysignF64Vv d a b => Sys2Proof.Machine.execCopysignF64Vv d a b s
  | .addF64Vs d a b => Sys2Proof.Machine.execAddF64Vs d a b s
  | .subF64Vs d a b => Sys2Proof.Machine.execSubF64Vs d a b s
  | .mulF64Vs d a b => Sys2Proof.Machine.execMulF64Vs d a b s
  | .divF64Vs d a b => Sys2Proof.Machine.execDivF64Vs d a b s
  | .minF64Vs d a b => Sys2Proof.Machine.execMinF64Vs d a b s
  | .maxF64Vs d a b => Sys2Proof.Machine.execMaxF64Vs d a b s
  | .fmaF64Vs d a b => Sys2Proof.Machine.execFmaF64Vs d a b s
  | .fmsF64Vs d a b => Sys2Proof.Machine.execFmsF64Vs d a b s
  | .fnmaF64Vs d a b => Sys2Proof.Machine.execFnmaF64Vs d a b s
  | .copysignF64Vs d a b => Sys2Proof.Machine.execCopysignF64Vs d a b s
  | .divI32Vv d a b => Sys2Proof.Machine.execDivI32Vv d a b s
  | .divN32Vv d a b => Sys2Proof.Machine.execDivN32Vv d a b s
  | .remI32Vv d a b => Sys2Proof.Machine.execRemI32Vv d a b s
  | .remN32Vv d a b => Sys2Proof.Machine.execRemN32Vv d a b s
  | .divI64Vv d a b => Sys2Proof.Machine.execDivI64Vv d a b s
  | .divN64Vv d a b => Sys2Proof.Machine.execDivN64Vv d a b s
  | .remI64Vv d a b => Sys2Proof.Machine.execRemI64Vv d a b s
  | .remN64Vv d a b => Sys2Proof.Machine.execRemN64Vv d a b s
  | .divI32Vs d a b => Sys2Proof.Machine.execDivI32Vs d a b s
  | .divN32Vs d a b => Sys2Proof.Machine.execDivN32Vs d a b s
  | .remI32Vs d a b => Sys2Proof.Machine.execRemI32Vs d a b s
  | .remN32Vs d a b => Sys2Proof.Machine.execRemN32Vs d a b s
  | .divI64Vs d a b => Sys2Proof.Machine.execDivI64Vs d a b s
  | .divN64Vs d a b => Sys2Proof.Machine.execDivN64Vs d a b s
  | .remI64Vs d a b => Sys2Proof.Machine.execRemI64Vs d a b s
  | .remN64Vs d a b => Sys2Proof.Machine.execRemN64Vs d a b s
  | .ceqF32Vv d a b => Sys2Proof.Machine.execCeqF32Vv d a b s
  | .cltF32Vv d a b => Sys2Proof.Machine.execCltF32Vv d a b s
  | .cleF32Vv d a b => Sys2Proof.Machine.execCleF32Vv d a b s
  | .cunF32Vv d a b => Sys2Proof.Machine.execCunF32Vv d a b s
  | .ceqB32Vv d a b => Sys2Proof.Machine.execCeqB32Vv d a b s
  | .cltI32Vv d a b => Sys2Proof.Machine.execCltI32Vv d a b s
  | .cleI32Vv d a b => Sys2Proof.Machine.execCleI32Vv d a b s
  | .cltN32Vv d a b => Sys2Proof.Machine.execCltN32Vv d a b s
  | .cleN32Vv d a b => Sys2Proof.Machine.execCleN32Vv d a b s
  | .ceqF16Vv d a b => Sys2Proof.Machine.execCeqF16Vv d a b s
  | .cltF16Vv d a b => Sys2Proof.Machine.execCltF16Vv d a b s
  | .cleF16Vv d a b => Sys2Proof.Machine.execCleF16Vv d a b s
  | .cunF16Vv d a b => Sys2Proof.Machine.execCunF16Vv d a b s
  | .ceqBf16Vv d a b => Sys2Proof.Machine.execCeqBf16Vv d a b s
  | .cltBf16Vv d a b => Sys2Proof.Machine.execCltBf16Vv d a b s
  | .cleBf16Vv d a b => Sys2Proof.Machine.execCleBf16Vv d a b s
  | .ceqF32Vs d a b => Sys2Proof.Machine.execCeqF32Vs d a b s
  | .cltF32Vs d a b => Sys2Proof.Machine.execCltF32Vs d a b s
  | .cleF32Vs d a b => Sys2Proof.Machine.execCleF32Vs d a b s
  | .cunF32Vs d a b => Sys2Proof.Machine.execCunF32Vs d a b s
  | .ceqB32Vs d a b => Sys2Proof.Machine.execCeqB32Vs d a b s
  | .cltI32Vs d a b => Sys2Proof.Machine.execCltI32Vs d a b s
  | .cleI32Vs d a b => Sys2Proof.Machine.execCleI32Vs d a b s
  | .cltN32Vs d a b => Sys2Proof.Machine.execCltN32Vs d a b s
  | .cleN32Vs d a b => Sys2Proof.Machine.execCleN32Vs d a b s
  | .ceqF16Vs d a b => Sys2Proof.Machine.execCeqF16Vs d a b s
  | .cltF16Vs d a b => Sys2Proof.Machine.execCltF16Vs d a b s
  | .cleF16Vs d a b => Sys2Proof.Machine.execCleF16Vs d a b s
  | .cunF16Vs d a b => Sys2Proof.Machine.execCunF16Vs d a b s
  | .ceqBf16Vs d a b => Sys2Proof.Machine.execCeqBf16Vs d a b s
  | .cltBf16Vs d a b => Sys2Proof.Machine.execCltBf16Vs d a b s
  | .cleBf16Vs d a b => Sys2Proof.Machine.execCleBf16Vs d a b s
  | .ceqF64Vv d a b => Sys2Proof.Machine.execCeqF64Vv d a b s
  | .cltF64Vv d a b => Sys2Proof.Machine.execCltF64Vv d a b s
  | .cleF64Vv d a b => Sys2Proof.Machine.execCleF64Vv d a b s
  | .cunF64Vv d a b => Sys2Proof.Machine.execCunF64Vv d a b s
  | .ceqB64Vv d a b => Sys2Proof.Machine.execCeqB64Vv d a b s
  | .cltI64Vv d a b => Sys2Proof.Machine.execCltI64Vv d a b s
  | .cleI64Vv d a b => Sys2Proof.Machine.execCleI64Vv d a b s
  | .cltN64Vv d a b => Sys2Proof.Machine.execCltN64Vv d a b s
  | .cleN64Vv d a b => Sys2Proof.Machine.execCleN64Vv d a b s
  | .ceqF64Vs d a b => Sys2Proof.Machine.execCeqF64Vs d a b s
  | .cltF64Vs d a b => Sys2Proof.Machine.execCltF64Vs d a b s
  | .cleF64Vs d a b => Sys2Proof.Machine.execCleF64Vs d a b s
  | .cunF64Vs d a b => Sys2Proof.Machine.execCunF64Vs d a b s
  | .ceqB64Vs d a b => Sys2Proof.Machine.execCeqB64Vs d a b s
  | .cltI64Vs d a b => Sys2Proof.Machine.execCltI64Vs d a b s
  | .cleI64Vs d a b => Sys2Proof.Machine.execCleI64Vs d a b s
  | .cltN64Vs d a b => Sys2Proof.Machine.execCltN64Vs d a b s
  | .cleN64Vs d a b => Sys2Proof.Machine.execCleN64Vs d a b s
  | .selB32Vv d a b p => Sys2Proof.Machine.execSelB32Vv d a b p s
  | .selB64Vv d a b p => Sys2Proof.Machine.execSelB64Vv d a b p s
  | .selB32Vs d a b p => Sys2Proof.Machine.execSelB32Vs d a b p s
  | .selB64Vs d a b p => Sys2Proof.Machine.execSelB64Vs d a b p s
  | .rcpF32V d a l => Sys2Proof.Machine.execRcpF32V d a l s
  | .rsqrtF32V d a l => Sys2Proof.Machine.execRsqrtF32V d a l s
  | .sqrtF32V d a l => Sys2Proof.Machine.execSqrtF32V d a l s
  | .exp2F32V d a l => Sys2Proof.Machine.execExp2F32V d a l s
  | .log2F32V d a l => Sys2Proof.Machine.execLog2F32V d a l s
  | .sinF32V d a l => Sys2Proof.Machine.execSinF32V d a l s
  | .cosF32V d a l => Sys2Proof.Machine.execCosF32V d a l s
  | .tanhF32V d a l => Sys2Proof.Machine.execTanhF32V d a l s
  | .rcpF32S d a l => Sys2Proof.Machine.execRcpF32S d a l s
  | .rsqrtF32S d a l => Sys2Proof.Machine.execRsqrtF32S d a l s
  | .sqrtF32S d a l => Sys2Proof.Machine.execSqrtF32S d a l s
  | .exp2F32S d a l => Sys2Proof.Machine.execExp2F32S d a l s
  | .log2F32S d a l => Sys2Proof.Machine.execLog2F32S d a l s
  | .sinF32S d a l => Sys2Proof.Machine.execSinF32S d a l s
  | .cosF32S d a l => Sys2Proof.Machine.execCosF32S d a l s
  | .tanhF32S d a l => Sys2Proof.Machine.execTanhF32S d a l s
  | .popcB32 d a => Sys2Proof.Machine.execPopcB32 d a s
  | .clzB32 d a => Sys2Proof.Machine.execClzB32 d a s
  | .ctzB32 d a => Sys2Proof.Machine.execCtzB32 d a s
  | .brevB32 d a => Sys2Proof.Machine.execBrevB32 d a s
  | .notB32 d a => Sys2Proof.Machine.execNotB32 d a s
  | .negI32 d a => Sys2Proof.Machine.execNegI32 d a s
  | .absI32 d a => Sys2Proof.Machine.execAbsI32 d a s
  | .popcB64 d a => Sys2Proof.Machine.execPopcB64 d a s
  | .clzB64 d a => Sys2Proof.Machine.execClzB64 d a s
  | .ctzB64 d a => Sys2Proof.Machine.execCtzB64 d a s
  | .brevB64 d a => Sys2Proof.Machine.execBrevB64 d a s
  | .notB64 d a => Sys2Proof.Machine.execNotB64 d a s
  | .negI64 d a => Sys2Proof.Machine.execNegI64 d a s
  | .absI64 d a => Sys2Proof.Machine.execAbsI64 d a s
  | .absF32 d a => Sys2Proof.Machine.execAbsF32 d a s
  | .negF32 d a => Sys2Proof.Machine.execNegF32 d a s
  | .rintF32 d a => Sys2Proof.Machine.execRintF32 d a s
  | .floorF32 d a => Sys2Proof.Machine.execFloorF32 d a s
  | .ceilF32 d a => Sys2Proof.Machine.execCeilF32 d a s
  | .truncF32 d a => Sys2Proof.Machine.execTruncF32 d a s
  | .absF16 d a => Sys2Proof.Machine.execAbsF16 d a s
  | .negF16 d a => Sys2Proof.Machine.execNegF16 d a s
  | .absBf16 d a => Sys2Proof.Machine.execAbsBf16 d a s
  | .negBf16 d a => Sys2Proof.Machine.execNegBf16 d a s
  | .absF64 d a => Sys2Proof.Machine.execAbsF64 d a s
  | .negF64 d a => Sys2Proof.Machine.execNegF64 d a s
  | .cvt d a sc r t => Sys2Proof.Machine.execCvt d a sc r t s
  | .pkE2m1 d a b => Sys2Proof.Machine.execPkE2m1 d a b s
  | .upkE2m1 d a b => Sys2Proof.Machine.execUpkE2m1 d a b s
  | .scaccF32 d a b => Sys2Proof.Machine.execScaccF32 d a b s
  | .shflIdx d a b m => Sys2Proof.Machine.execShflIdx d a b m s
  | .shflUp d a b m => Sys2Proof.Machine.execShflUp d a b m s
  | .shflDown d a b m => Sys2Proof.Machine.execShflDown d a b m s
  | .shflXor d a b m => Sys2Proof.Machine.execShflXor d a b m s
  | .voteAny d a m => Sys2Proof.Machine.execVoteAny d a m s
  | .voteAll d a m => Sys2Proof.Machine.execVoteAll d a m s
  | .voteEq d a m => Sys2Proof.Machine.execVoteEq d a m s
  | .voteBallot d a m => Sys2Proof.Machine.execVoteBallot d a m s
  | .lredAddF32 d a => Sys2Proof.Machine.execLredAddF32 d a s
  | .lredMaxF32 d a => Sys2Proof.Machine.execLredMaxF32 d a s
  | .lredMinF32 d a => Sys2Proof.Machine.execLredMinF32 d a s
  | .lredAddI32 d a => Sys2Proof.Machine.execLredAddI32 d a s
  | .lredMaxI32 d a => Sys2Proof.Machine.execLredMaxI32 d a s
  | .lredMinI32 d a => Sys2Proof.Machine.execLredMinI32 d a s
  | .lredMaxN32 d a => Sys2Proof.Machine.execLredMaxN32 d a s
  | .lredMinN32 d a => Sys2Proof.Machine.execLredMinN32 d a s
  | .lredAddF16 d a => Sys2Proof.Machine.execLredAddF16 d a s
  | .lredMaxF16 d a => Sys2Proof.Machine.execLredMaxF16 d a s
  | .lredMinF16 d a => Sys2Proof.Machine.execLredMinF16 d a s
  | .lredAddBf16 d a => Sys2Proof.Machine.execLredAddBf16 d a s
  | .lredAndB32 d a => Sys2Proof.Machine.execLredAndB32 d a s
  | .lredOrB32 d a => Sys2Proof.Machine.execLredOrB32 d a s
  | .lredXorB32 d a => Sys2Proof.Machine.execLredXorB32 d a s
  | .tredAddF32 d a l => Sys2Proof.Machine.execTredAddF32 d a l s
  | .tredMaxF32 d a l => Sys2Proof.Machine.execTredMaxF32 d a l s
  | .tredMinF32 d a l => Sys2Proof.Machine.execTredMinF32 d a l s
  | .tredAddI32 d a l => Sys2Proof.Machine.execTredAddI32 d a l s
  | .tredMaxI32 d a l => Sys2Proof.Machine.execTredMaxI32 d a l s
  | .tredMinI32 d a l => Sys2Proof.Machine.execTredMinI32 d a l s
  | .tredMaxN32 d a l => Sys2Proof.Machine.execTredMaxN32 d a l s
  | .tredMinN32 d a l => Sys2Proof.Machine.execTredMinN32 d a l s
  | .tredAddF16 d a l => Sys2Proof.Machine.execTredAddF16 d a l s
  | .tredMaxF16 d a l => Sys2Proof.Machine.execTredMaxF16 d a l s
  | .tredMinF16 d a l => Sys2Proof.Machine.execTredMinF16 d a l s
  | .tredAddBf16 d a l => Sys2Proof.Machine.execTredAddBf16 d a l s
  | .tredAndB32 d a l => Sys2Proof.Machine.execTredAndB32 d a l s
  | .tredOrB32 d a l => Sys2Proof.Machine.execTredOrB32 d a l s
  | .tredXorB32 d a l => Sys2Proof.Machine.execTredXorB32 d a l s
  | .scanAddF32 d a => Sys2Proof.Machine.execScanAddF32 d a s
  | .scanMaxF32 d a => Sys2Proof.Machine.execScanMaxF32 d a s
  | .scanMinF32 d a => Sys2Proof.Machine.execScanMinF32 d a s
  | .scanAddI32 d a => Sys2Proof.Machine.execScanAddI32 d a s
  | .scanMaxI32 d a => Sys2Proof.Machine.execScanMaxI32 d a s
  | .scanMinI32 d a => Sys2Proof.Machine.execScanMinI32 d a s
  | .scanMaxN32 d a => Sys2Proof.Machine.execScanMaxN32 d a s
  | .scanMinN32 d a => Sys2Proof.Machine.execScanMinN32 d a s
  | .scanxAddF32 d a => Sys2Proof.Machine.execScanxAddF32 d a s
  | .scanxMaxF32 d a => Sys2Proof.Machine.execScanxMaxF32 d a s
  | .scanxMinF32 d a => Sys2Proof.Machine.execScanxMinF32 d a s
  | .scanxAddI32 d a => Sys2Proof.Machine.execScanxAddI32 d a s
  | .scanxMaxI32 d a => Sys2Proof.Machine.execScanxMaxI32 d a s
  | .scanxMinI32 d a => Sys2Proof.Machine.execScanxMinI32 d a s
  | .scanxMaxN32 d a => Sys2Proof.Machine.execScanxMaxN32 d a s
  | .scanxMinN32 d a => Sys2Proof.Machine.execScanxMinN32 d a s
  | .pand d a b => Sys2Proof.Machine.execPand d a b s
  | .por d a b => Sys2Proof.Machine.execPor d a b s
  | .pxor d a b => Sys2Proof.Machine.execPxor d a b s
  | .pnot d a => Sys2Proof.Machine.execPnot d a s
  | .pfroms d a => Sys2Proof.Machine.execPfroms d a s
  | .stop d a => Sys2Proof.Machine.execStop d a s
  | .pall d => Sys2Proof.Machine.execPall d s
  | .pnone d => Sys2Proof.Machine.execPnone d s
  | .ldLn d w b x l => Sys2Proof.Machine.execLdLn d w b x l s
  | .ldSp d w b x l => Sys2Proof.Machine.execLdSp d w b x l s
  | .ldCl d w b x l => Sys2Proof.Machine.execLdCl d w b x l s
  | .ldBn d w b x l => Sys2Proof.Machine.execLdBn d w b x l s
  | .ldGl d w b x l => Sys2Proof.Machine.execLdGl d w b x l s
  | .ldAc d w b x l => Sys2Proof.Machine.execLdAc d w b x l s
  | .ldGlOrdered d a sc o w l => Sys2Proof.Machine.execLdGlOrdered d a sc o w l s
  | .pfGl w b x l => Sys2Proof.Machine.execPfGl w b x l s
  | .stLn d w b x l => Sys2Proof.Machine.execStLn d w b x l s
  | .stSp d w b x l => Sys2Proof.Machine.execStSp d w b x l s
  | .stCl d w b x l => Sys2Proof.Machine.execStCl d w b x l s
  | .stBn d w b x l => Sys2Proof.Machine.execStBn d w b x l s
  | .stGl d w b x l => Sys2Proof.Machine.execStGl d w b x l s
  | .stAc d w b x l => Sys2Proof.Machine.execStAc d w b x l s
  | .stGlOrdered d a sc o w l => Sys2Proof.Machine.execStGlOrdered d a sc o w l s
  | .cctlGlWb b x l => Sys2Proof.Machine.execCctlGlWb b x l s
  | .cctlGlInv b x l => Sys2Proof.Machine.execCctlGlInv b x l s
  | .cctlGlWbinv b x l => Sys2Proof.Machine.execCctlGlWbinv b x l s
  | .atomSp d t o sc r l => Sys2Proof.Machine.execAtomSp d t o sc r l s
  | .atomCl d t o sc r l => Sys2Proof.Machine.execAtomCl d t o sc r l s
  | .atomBn d t o sc r l => Sys2Proof.Machine.execAtomBn d t o sc r l s
  | .atomGl d t o sc r l => Sys2Proof.Machine.execAtomGl d t o sc r l s
  | .fence sc o => Sys2Proof.Machine.execFence sc o s
  | .icinv sc => Sys2Proof.Machine.execIcinv sc s
  | .cpy d a l => Sys2Proof.Machine.execCpy d a l s
  | .wnw d a l => Sys2Proof.Machine.execWnw d a l s
  | .xchg d a l => Sys2Proof.Machine.execXchg d a l s
  | .rst d a w l => Sys2Proof.Machine.execRst d a w l s
  | .bar d => Sys2Proof.Machine.execBar d s
  | .barWait d a => Sys2Proof.Machine.execBarWait d a s
  | .arrive d a => Sys2Proof.Machine.execArrive d a s
  | .bexp d a => Sys2Proof.Machine.execBexp d a s
  | .gate => Sys2Proof.Machine.execGate s
  | .release => Sys2Proof.Machine.execRelease s
  | .twait d a => Sys2Proof.Machine.execTwait d a s
  | .cwait d a q sc => Sys2Proof.Machine.execCwait d a q sc s
  | .cwaitClr d a q sc => Sys2Proof.Machine.execCwaitClr d a q sc s
  | .nret => Sys2Proof.Machine.execNret s
  | .shrink a => Sys2Proof.Machine.execShrink a s
  | .spfree d a b => Sys2Proof.Machine.execSpfree d a b s
  | .phase d c => Sys2Proof.Machine.execPhase d c s
  | .twaitImm d im => Sys2Proof.Machine.execTwaitImm d im s
  | .fork d a c => Sys2Proof.Machine.execFork d a c s
  | .join d a => Sys2Proof.Machine.execJoin d a s
  | .rgnw a b => Sys2Proof.Machine.execRgnw a b s
  | .rgnr d a b => Sys2Proof.Machine.execRgnr d a b s
  | .mmulBf16 q t a l => Sys2Proof.Machine.execMmulBf16 q t a l s
  | .mmulF16 q t a l => Sys2Proof.Machine.execMmulF16 q t a l s
  | .mmulE4m3 q t a l => Sys2Proof.Machine.execMmulE4m3 q t a l s
  | .mmulE5m2 q t a l => Sys2Proof.Machine.execMmulE5m2 q t a l s
  | .mmbE2m1 q t a l => Sys2Proof.Machine.execMmbE2m1 q t a l s
  | .msca q t a l => Sys2Proof.Machine.execMsca q t a l s
  | .mldwBf16 q t a l => Sys2Proof.Machine.execMldwBf16 q t a l s
  | .mldwF16 q t a l => Sys2Proof.Machine.execMldwF16 q t a l s
  | .mldwE4m3 q t a l => Sys2Proof.Machine.execMldwE4m3 q t a l s
  | .mldwE5m2 q t a l => Sys2Proof.Machine.execMldwE5m2 q t a l s
  | .mldwE2m1 q t a l => Sys2Proof.Machine.execMldwE2m1 q t a l s
  | .mswap q t l => Sys2Proof.Machine.execMswap q t l s
  | .mpush a l => Sys2Proof.Machine.execMpush a l s
  | .mdrainF32 q t a l => Sys2Proof.Machine.execMdrainF32 q t a l s
  | .mdrainBf16 q t a l => Sys2Proof.Machine.execMdrainBf16 q t a l s
  | .mdrainF16 q t a l => Sys2Proof.Machine.execMdrainF16 q t a l s
  | .mdrainE4m3 q t a l => Sys2Proof.Machine.execMdrainE4m3 q t a l s
  | .mdrainE5m2 q t a l => Sys2Proof.Machine.execMdrainE5m2 q t a l s
  | .mclr q t a l => Sys2Proof.Machine.execMclr q t a l s
  | .mstat a l => Sys2Proof.Machine.execMstat a l s
  | .trap im => Sys2Proof.Machine.execTrap im s
  | .tret => Sys2Proof.Machine.execTret s
  | .lpcRd d a => Sys2Proof.Machine.execLpcRd d a s
  | .lpcWr a b => Sys2Proof.Machine.execLpcWr a b s
  | .spcw a b => Sys2Proof.Machine.execSpcw a b s
  | .xlinv k a => Sys2Proof.Machine.execXlinv k a s
  | .wpset d a b => Sys2Proof.Machine.execWpset d a b s
  | .fetchFault => Sys2Proof.Machine.execFetchFault s
  | .reservedCommandType q => Sys2Proof.Machine.execReservedCommandType q s
  | .peerAccessArrival a => Sys2Proof.Machine.execPeerAccessArrival a s
  | .streamFailedByPeer job idx => Sys2Proof.Machine.execStreamFailedByPeer job idx s
  | .engineAccessMappingMade job => Sys2Proof.Machine.execEngineAccessMappingMade job s
  | .fillerFinished core quad => Sys2Proof.Machine.execFillerFinished core quad s

end Sys2Proof.Machine
end

