-- ==== Sys2Proof/Machine/Issue.lean ====
section
/-! DEFINITION. One issue: the fetch, the scoreboard and the windows before the meaning, the marks of an issue (R37 to R45/02, R112/04, R137/05, R231/11, R257 to R259/12). -/

namespace Sys2Proof.Machine

/-! ### The fetch (R43/02, R137/05) -/

/-- Does a hardware loop of some lanes, still counting, cover an address (R279/13)? -/
def Sheaf.inLoop (h : Sheaf) (lanes : Mask) (pc : Vaddr) : Bool :=
  (lanesOf lanes).any fun l => (h.lane l).loops.any fun r => !(r.count == 0) && decide (r.start ≤ pc) && decide (pc ≤ r.stop)

/-- The key of an instruction word in a core's instruction cache. -/
def icacheKey (ctx : Nat) (pc : Vaddr) : Nat := ctx * 2 ^ 56 + pc.toNat

/-- Put a word at a key, in place of the one that was there. -/
def putWord (k : Nat) (w : Word) (xs : List (Nat × Word)) : List (Nat × Word) := (k, w) :: xs.filter fun x => !(x.1 == k)

/-- A word read from memory as revision 0 sees it, through L2 and past L1; it enters the core's instruction cache (R137/05). -/
def State.fetchMemory (s : State) (h : Sheaf) (pc : Vaddr) : Except Cause Word × State :=
  match s.xlate h.core h.ctx .fetch pc.toNat with
  | (.error c, s) => (.error c, s)
  | (.ok hpa, s) =>
    if s.uncorrAt hpa then (.error .uncorr, s)
    else
      let (bs, s) := s.glRead h.ctx 0 pc.toNat hpa 4 false
      let w : Word := BitVec.ofNat 32 (natOfBytes bs)
      (.ok w, s.modCore h.core fun c =>
        { c with icache := putWord (icacheKey h.ctx pc) w (if 16384 ≤ c.icache.length then [] else c.icache) })

/-- The word a sheaf's broadcast fetch gives: of its loop buffer inside a live loop, of the instruction cache, or of memory. -/
def State.fetchBroadcast (s : State) (h : Sheaf) (lanes : Mask) (pc : Vaddr) : Except Cause Word × State :=
  match (if h.inLoop lanes pc then h.loopBuf.lookup pc.toNat else none) with
  | some w => (.ok w, s)
  | none =>
    match (s.core h.core).icache.lookup (icacheKey h.ctx pc) with
    | some w => (.ok w, s)
    | none => s.fetchMemory h pc

/-- A word executed under broadcast is captured in the windows it lies in (R43/02), and inside a loop in the sheaf's loop buffer,
whose 256 words are those captured last (R20/01, R137/05, log 80). -/
def Sheaf.capture (h : Sheaf) (lanes : Mask) (pc : Vaddr) (w : Word) : Sheaf :=
  { h with
    loopBuf := if h.inLoop lanes pc then (putWord pc.toNat w h.loopBuf).take 256 else h.loopBuf
    lanes := h.lanes.mapIdx fun l (ln : Lane) =>
      if lanes.getLsbD l && ln.inWindow pc then { ln with winWords := putWord pc.toNat w ln.winWords } else ln }

/-! ### Before the meaning (R112/04, R227, R235/11, R257 to R259/12, R273/13, R300/14) -/

/-- The operands that the scoreboard and the windows look at: a vote or a shuffle (majors 0x42, 0x43) waits for its vector sources
when it completes, and no window shortens that (R300/14 step 3); `arrive` gathers before it drains (R257/12). -/
def scoreOps (i : Instr) : List Operand :=
  match i with
  | .arrive _ _ => []
  | _ =>
    match i.fields with
    | some (m, _, _, _, _) =>
      if m = 0x42 ∨ m = 0x43 then i.operands.filter fun o => o.writes || decide (o.kind.vectors = 0) else i.operands
    | none => i.operands

/-- The instructions at which every window ends (R257/12). -/
def endsWindows (i : Instr) : Bool :=
  match i with
  | .bar _ | .arrive _ _ | .phase _ _ | .fork _ _ _ | .join _ _ | .exit | .tret | .nret => true
  | _ => false

/-- The lanes whose vector registers an instruction touches: `vget` and `vput` touch one lane's (R273/13). -/
def State.vecLanes (s : State) (h : Sheaf) (i : Instr) (active : Mask) : Mask :=
  match i with
  | .vget _ _ b | .vput _ _ b => active &&& laneBit ((s.readS h (lowestLane active) b).toNat % 64)
  | _ => active

/-- Does an instruction drain when it issues (R257/12): `fork`, `join`, `exit` and the returns, but where it traps before that? -/
def drainsAt (i : Instr) (tl : Nat) : Bool :=
  match i with
  | .fork _ _ _ | .join _ _ => true
  | .exit => tl == 0
  | .tret | .nret => !(tl == 0)
  | _ => false

/-- Is an instruction a load, whose data registers may fault without a trap (R235/11)? -/
def isLoad (i : Instr) : Bool :=
  match i.fields with
  | some (m, _, _, _, _) => decide (0x50 ≤ m) && decide (m ≤ 0x56)
  | none => false

/-- The lanes of some active ones that a pending destination holds back at an instruction, outside the windows (R259/12). DEDUCED: each its
own, but `vget` and `vput`, which touch one lane's register, wait for it as one (R273/13, log 38). -/
def State.heldBy (s : State) (h : Sheaf) (i : Instr) (active : Mask) (p : Pending) : Mask :=
  let held := p.blocked (s.vecLanes h i active) active (vregsOf h.wb (scoreOps i)) (sregsOf (scoreOps i))
  match i with
  | .vget _ _ _ | .vput _ _ _ => if held = 0 then 0 else active
  | _ => held

/-- The lanes whose pending destination an instruction accesses inside a window (R258/12). -/
def State.earlyBy (s : State) (h : Sheaf) (i : Instr) (active : Mask) (p : Pending) : Mask :=
  p.early (s.vecLanes h i active) active (vregsOf h.wb (scoreOps i)) (sregsOf (scoreOps i))

/-- The scoreboard (R259/12, R235/11): none when no pending destination outside the windows is touched; else the state in
which the lanes wait, or take the fault of the load they depend on. -/
def State.scoreboard (s : State) (i : Instr) : Option State :=
  let held := s.me.pend.filter fun p => !(s.heldBy s.me i s.active p == 0)
  match held.find? fun p => !p.faultOnly, held with
  | some _, _ => some s.stallMe
  | none, p :: _ => some (s.dependOnFault p)
  | none, [] => none

/-- The lanes of a group at one PC that their next instruction's pending destinations hold back, at the start of a cycle (R35/02,
R235, R236/11, R257, R259/12): data is still to arrive, or Fleskapa may still map what faulted. A fault that no mapping mends holds no
lane back: the instruction takes it. -/
def State.lateGroup (s : State) (h : Sheaf) (lanes : Mask) (i : Instr) : Mask :=
  let waits (p : Pending) : Bool := p.arriving || (!p.faults.isEmpty && p.faults.all LaneFault.mappable)
  if drainsAt i h.tl && h.pend.any waits then lanes
  else h.pend.foldl (fun m p => if waits p then m ||| s.heldBy h i lanes p else m) 0

/-- A second look at an instruction whose lanes have arrived and wait (R300/14 step 2, R326/16 step 2) uses no pipe. -/
def recheckPipe : Nat := 4

/-- The window bases through which an instruction's specifiers go (R275/13): `$wb`; a vote or shuffle reads and writes its registers
when it completes, each lane through the base of its arrival (R300/14). -/
def State.basesOf (s : State) (i : Instr) : List Nat :=
  match s.cur, i.fields with
  | some k, some (m, _, _, _, f) =>
    if m = 0x42 ∨ m = 0x43 then
      let ws := s.arrivals k (f / 4)
      if s.me.collectiveLeft ws = 0 then (ws.map fun w => w.wb).eraseDups else []
    else [s.me.wb]
  | _, _ => [s.me.wb]

/-- The virtual registers an instruction needs (R112/04): those its specifiers name, but for a `vput` that writes nothing (R273/13);
and the carry set of a `fork`, or of a `phase` whose lanes have gathered (R55/02, R328/16). -/
def State.regsNeeded (s : State) (i : Instr) : List Nat :=
  match i with
  | .vput _ _ _ => if s.vecLanes s.me i s.active = 0 then [] else vregsOf s.me.wb i.operands
  | .fork _ _ c => s.carryRegs s.me c
  | .phase _ c => if (s.cur.map fun k => k.pipe).getD 0 = recheckPipe then s.carryRegs s.me c else []
  | _ => (s.basesOf i).flatMap fun wb => vregsOf wb i.operands

/-- The physical registers an instruction needs are brought in (R111, R112/04): the state, and the backing address where that finds
no mapping. -/
def State.bringRegs (s : State) (i : Instr) : Option Dword × State := s.touchRegs s.me (s.regsNeeded i)

/-- Were the destination registers of an instruction brought in as it issued (R394/21): was one spilled, or one given room to by a spill? The
states before and after. -/
def State.fills (s t : State) (i : Instr) : Bool :=
  let q := s.resOf s.me
  let ds := vregsOf s.me.wb (i.operands.filter fun o => o.writes)
  (ds.any fun r => q.cold.contains (s.me.id, r)) ||
    ((ds.any fun r => !(q.hot.contains (s.me.id, r))) && !((t.resOf t.me).cold == q.cold))

/-- The lanes that an instruction's registers concern (R112/04, R226/11): the active ones; of `vget` and `vput` the one they name, where
it is active (R273/13). -/
def State.concerned (s : State) (i : Instr) : Mask :=
  let ls := s.vecLanes s.me i s.active
  if ls = 0 then s.active else ls

/-- The lanes whose early access LKCHK forbids (R258/12); no window is open at an instruction that ends them. -/
def State.lookLanes (s : State) (i : Instr) : Mask :=
  if s.me.lkchk && !endsWindows i then s.me.pend.foldl (fun m p => m ||| s.earlyBy s.me i s.active p) 0 else 0

/-- One lane's destination lands before an early access, or does not: a free choice for each lane (R258/12). -/
def State.earlyLane (s : State) (pid lane : Nat) : State :=
  let (b, s) := s.flip
  if b then s.landOne s.me.id pid lane else s

/-- The lanes of a pending destination that may land before an instruction: those it accesses inside a window, and the lane that is not
active whose register `vget` reads (R273/13). -/
def State.mayLand (s : State) (h : Sheaf) (i : Instr) (p : Pending) : Mask :=
  match i with
  | .vget _ a b =>
    let k := (s.readS h (lowestLane s.active) b).toNat % 64
    s.earlyBy h i s.active p ||| (if p.regs.contains (h.wb + a) then p.lanes &&& laneBit k &&& ~~~s.active else 0)
  | _ => s.earlyBy h i s.active p

/-- The free choices of every pending destination an instruction accesses early. -/
def State.earlyLands (s : State) (i : Instr) : State :=
  let h := s.me
  h.pend.foldl (fun (s : State) p => (lanesOf (s.mayLand h i p)).foldl (fun (s : State) l => s.earlyLane p.id l) s) s

/-! ### The marks of an issue (R39 to R46/02) -/

/-- Is a PC held by a yielded lane (R40/02)? -/
def Sheaf.yieldedAt (h : Sheaf) (pc : Vaddr) : Bool := (lanesOf h.yielded).any fun l => (h.lane l).pc == pc

/-- What a broadcast issue does to its sheaf's choice state (R39, R40, R46/02). -/
def Sheaf.marked (h : Sheaf) (lanes : Mask) (pc : Vaddr) : Sheaf :=
  { h with
    lanes := h.lanes.mapIdx fun l (ln : Lane) => if lanes.getLsbD l then { ln with bwait := 0 } else ln
    issued := h.issued ||| lanes
    starve := 0
    favoured := if h.prog && !(h.favoured &&& ~~~h.yielded &&& lanes == 0) then h.favoured ||| lanes else h.favoured
    yielded := if h.yieldedAt pc then h.yielded else 0 }

/-- The marks of an issue: of its sheaf, and of its pipe (R44, R45/02). -/
def State.markIssue (s : State) (i : Issue) (h : Sheaf) : State :=
  if i.solo then
    s.modCore i.core fun c => { c with pipes := modAt (fun p : Pipe => { p with solo := some (h.slot, lowestLane i.lanes) }) c.pipes i.pipe }
  else
    (s.modSheaf i.sheaf fun h => h.marked i.lanes i.pc).modCore i.core fun c =>
      { c with pipes := modAt (fun p : Pipe => { p with last := some i.sheaf }) c.pipes i.pipe }

/-- An issue that was held back was none: its marks are taken off again (R259/12), the word it would have captured with them (R43/02),
and the end of the cycle gives back a favoured set that it replaced (R39/02). -/
def State.unmark (s : State) (i : Issue) (old : State) (h : Sheaf) : State :=
  let s := s.modSheaf i.sheaf fun k =>
    { k with
      lanes := k.lanes.mapIdx fun l (ln : Lane) => { ln with bwait := (h.lane l).bwait, winWords := (h.lane l).winWords }
      loopBuf := h.loopBuf
      issued := h.issued, starve := h.starve, favoured := h.favoured, yielded := h.yielded }
  s.modCore i.core fun c => { c with pipes := modAt (fun _ => (old.core i.core).pipes.getD i.pipe {}) c.pipes i.pipe }

/-! ### The issue -/

/-- The end of an issue: no instruction is issuing. -/
def State.endIssue (s : State) : State := { s with cur := none }

/-- After the meaning: the windows that were open before move on by this instruction (R257/12), or, where its lanes were held
back, the marks come off. -/
def State.afterIssue (s : State) (i : Issue) (old : State) (h : Sheaf) : State :=
  let held := ((s.sheaf? i.sheaf).map fun k => !(k.stalled &&& i.lanes == 0)).getD false
  let s := if held then s.unmark i old h else
    s.modSheaf i.sheaf fun k => k.stepWindows i.lanes old.nextId
  s.endIssue

/-- Did running an instruction take one of some causes' traps: the sheaf's trap level rose with that cause, or its launch was ended? -/
def State.tookOne (t s : State) (causes : List Cause) : Bool :=
  let codes := causes.map causeCode
  (decide (s.me.tl < t.me.tl) && codes.contains (t.me.trap.tcause.extractLsb' 0 6).toNat) ||
    (match (t.launchOf t.me).ended with
     | some (code, _, _) => (s.launchOf s.me).ended.isNone && codes.contains code
     | none => false)

/-- A trap found before the meaning, unless the meaning takes one of a cause that ranks above it (R227/11). -/
noncomputable def State.unlessAbove (s : State) (ins : Instr) (above : List Cause) (trap : Option State) (go : State) : Out :=
  match trap with
  | none => exec ins go
  | some t =>
    match exec ins go with
    | .next u => if u.tookOne s above then .next u else .next t
    | .fault _ | .refused _ => .next t

/-- An instruction whose registers are held physically: LOOKAHEAD, the free choices of early accesses, then its meaning (R227/11, R258/12). -/
noncomputable def State.issueLooked (s : State) (i : Issue) (w : Word) (ins : Instr) : Out :=
  let late := s.lookLanes ins
  let go := s.earlyLands ins
  let go := if i.solo then go else go.modMe fun h => h.capture i.lanes i.pc w
  s.unlessAbove ins [.illop, .priv, .regback, .align, .space, .perm, .xlate1, .xlate2, .uncorr]
    (s.trapLanes ((lanesOf late).map fun l => ⟨l, .lookahead, 0⟩)) go

/-- An instruction issues: the scoreboard, its registers (a load goes on with REGBACK as its lanes' fault, R235/11), then the rest. -/
noncomputable def State.issueInstr (s : State) (i : Issue) (w : Word) (ins : Instr) : Out :=
  match s.scoreboard ins with
  | some t => .next t
  | none =>
    match s.bringRegs ins with
    | (some a, s) =>
      if isLoad ins then ({ s with cur := some { i with regback := some a } } : State).issueLooked i w ins
      else s.unlessAbove ins [.illop, .priv] (s.trapLanes ((lanesOf (s.concerned ins)).map fun l => ⟨l, .regback, a⟩)) s
    | (none, t) => if s.fills t ins then ({ t with cur := some { i with filled := true } } : State).issueLooked i w ins else t.issueLooked i w ins

/-- A fetched word issues: an instruction, or an illegal word (R253/12). -/
noncomputable def State.issueWord (s : State) (i : Issue) (w : Word) : Out :=
  match decode w with
  | .ok ins => s.issueInstr i w ins
  | .error _ => exec (.illegalInstruction w) s

/-- The lanes of a choice that can still issue: ready, and at its PC (R37/02). -/
def Sheaf.stillAt (h : Sheaf) (i : Issue) : Mask :=
  if h.place = .resident then maskOf ((lanesOf (i.lanes &&& h.ready)).filter fun l => (h.lane l).pc == i.pc) else 0

/-- Run an outcome's next state through a function. -/
def andThen (o : Out) (f : State → State) : Out :=
  match o with
  | .next s => .next (f s)
  | .fault e => .fault e
  | .refused e => .refused e

/-- Arrived lanes of a vote, a shuffle or a `phase` whose registers find no mapping become handler lanes (R112/04): they arrive afresh
after the trap. -/
def State.recheckFault (s : State) (i : Issue) (a : Dword) : State :=
  (s.modSheaf i.sheaf fun h => { h with waits := h.waits.filter fun w =>
    !(w.pc == i.pc && (match w.kind with | .collective _ | .gather _ _ _ _ => true | _ => false)) }).takeTrap i.sheaf .regback 0 a
    i.lanes i.pc none

/-- A second look at waiting lanes: the instruction runs again for them, without a fetch fault and without marks. -/
noncomputable def State.recheck (s : State) (i : Issue) : Out :=
  match s.sheaf? i.sheaf with
  | none => .next s
  | some h =>
    match s.fetchBroadcast h i.lanes i.pc with
    | (.error _, s) => .next s
    | (.ok w, s) =>
      match decode w with
      | .error _ => .next s
      | .ok ins =>
        match ({ s with cur := some i } : State).bringRegs ins with
        | (some a, s) => .next (s.recheckFault i a).endIssue
        | (none, s) => andThen (exec ins s) State.endIssue

/-- One issue (R37, R44/02): its sheaf's lanes that are still at the PC fetch, and the word issues. From the cycle after the trap that
ended its launch a sheaf exits instead (R231/11). -/
noncomputable def State.runIssue (s : State) (i : Issue) : Out :=
  if i.pipe = recheckPipe then s.recheck i
  else
    match s.sheaf? i.sheaf with
    | none => .next s
    | some h =>
      let lanes := h.stillAt i
      if lanes = 0 then .next s
      else
        let i := { i with lanes := lanes }
        if (s.launchOf h).closed then .next ({ s with cur := some i } : State).exitLanes.endIssue
        else
          let t : State := { s.markIssue i h with cur := some i }
          if i.solo then
            match (h.lane (lowestLane lanes)).winWords.lookup i.pc.toNat with
            | none => .next s
            | some w => andThen (t.issueWord i w) fun u => u.afterIssue i s h
          else
            match t.fetchBroadcast h lanes i.pc with
            | (.ok w, t) => andThen (t.issueWord i w) fun u => u.afterIssue i s h
            | (.error _, t) => andThen (exec .fetchFault t) fun u => u.afterIssue i s h

end Sys2Proof.Machine
end

