-- ==== Sys2Proof/Machine/Choose.lean ====
section
/-! DEFINITION. What issues in a cycle: each pipe's broadcast and solo choice (R37 to R46/02, R238, R239/11), and the second looks of waiting collectives. -/

namespace Sys2Proof.Machine

/-- The cores that hold resident sheaves, ascending. -/
def State.busyCores (s : State) : List Nat :=
  sortBy (((s.sheaves.filter fun h => h.place == .resident).map fun h => h.core).eraseDups) fun a b => decide (a ≤ b)

/-- The sheaves that may issue on a pipe of a core. -/
def State.pipeSheaves (s : State) (core pipe : Nat) : List Sheaf :=
  s.sheaves.filter fun h => h.place == .resident && h.core == core && s.mayIssue h && s.pipeOf h == pipe

/-- Is a the older of two sheaves (R45/02)? -/
def Sheaf.older (a b : Sheaf) : Bool := decide (a.since < b.since) || (a.since == b.since && decide (a.slot ≤ b.slot))

/-- The oldest of some sheaves. -/
def oldest : List Sheaf → Option Sheaf
  | [] => none
  | h :: hs => some (hs.foldl (fun b x => if b.older x then b else x) h)

/-- The starving sheaf a pipe issues first (R46/02): the highest counter, the oldest among equals. -/
def starvingOf (hs : List Sheaf) : Option Sheaf :=
  let xs := hs.filter fun h => decide (4088 ≤ h.starve)
  let top := xs.foldl (fun a h => max a h.starve) 0
  oldest (xs.filter fun h => h.starve == top)

/-- The sheaf a pipe issues from under broadcast (R45, R46/02), and whether it is starving. -/
def State.pipeChoice (s : State) (core pipe : Nat) : Option (Sheaf × Bool) :=
  let hs := (s.pipeSheaves core pipe).filter fun h => !(h.ready == 0)
  match starvingOf hs with
  | some h => some (h, true)
  | none =>
    let last := ((s.core core).pipes.getD pipe {}).last
    match hs.find? fun h => some h.id == last with
    | some h => some (h, false)
    | none => (oldest hs).map fun h => (h, false)

/-- A starving sheaf and a starved PC that a pipe's broadcast choice takes, as events of their own: they act on the state at the
start of the cycle, before everything else in it (R39, R46/02). -/
def State.choiceMoves (s : State) (core pipe : Nat) : List Move :=
  match s.pipeChoice core pipe with
  | none => []
  | some (h, starving) =>
    (if starving then [.event (.starvingSheaf h.id)] else []) ++
    (if h.prog && h.starvedPc.isSome then [.event (.fairnessPeriodExpiry h.id)] else [])

/-- The choices of a cycle. -/
def State.choiceEvents (s : State) : List Move := s.busyCores.flatMap fun c => (List.range 4).flatMap fun p => s.choiceMoves c p

/-- A pipe's broadcast issue. -/
def State.broadcastMoves (s : State) (core pipe : Nat) : List Move :=
  match s.pipeChoice core pipe with
  | none => []
  | some (h, _) =>
    match h.broadcastPc with
    | none => []
    | some pc => [.issue ⟨h.id, h.lanesAt pc, pc, core, pipe, false, none, false⟩]

/-- The collective instructions of R44/02, by major and f (R261, R262/12): votes, shuffles, reductions, scans, both forms of
`bar`, `arrive`, `phase`, `fork` and `join`. -/
def collective (i : Instr) : Bool :=
  match i.fields with
  | some (m, _, _, _, f) =>
    (decide (0x42 ≤ m) && decide (m ≤ 0x46)) || (m == 0x70 && decide (f ≤ 1)) || m == 0x71 || m == 0x73 || (m == 0x74 && f == 0)
  | none => false

/-- May a captured word issue solo (R44/02)? -/
noncomputable def soloWord (w : Word) : Bool :=
  match decode w with
  | .ok i => !(collective i)
  | .error _ => true

/-- The lanes of a sheaf that are eligible for solo issue (R44/02). -/
noncomputable def Sheaf.soloLanes (h : Sheaf) : List Nat :=
  (lanesOf h.ready).filter fun l =>
    !(h.broadcastPc == some (h.lane l).pc) &&
      (match (h.lane l).winWords.lookup (h.lane l).pc.toNat with
        | some w => soloWord w
        | none => false)

/-- Order of (sheaf slot, lane). -/
def pairLe (a b : Nat × Nat) : Bool := decide (a.1 < b.1) || (a.1 == b.1 && decide (a.2 ≤ b.2))

/-- The solo issue of a pipe (R44/02): round-robin by (sheaf slot, lane), starting after the lane served last. -/
noncomputable def State.soloMoves (s : State) (core pipe : Nat) : List Move :=
  let all := (s.pipeSheaves core pipe).flatMap fun h => h.soloLanes.map fun l => (h, l)
  let sorted := sortBy all fun a b => pairLe (a.1.slot, a.2) (b.1.slot, b.2)
  let next := match ((s.core core).pipes.getD pipe {}).solo with
    | some k => (sorted.find? fun x : Sheaf × Nat => !(pairLe (x.1.slot, x.2) k)).or sorted.head?
    | none => sorted.head?
  match next with
  | some (h, l) => [.issue ⟨h.id, laneBit l, (h.lane l).pc, core, pipe, true, none, false⟩]
  | none => []

/-- The instruction an issue will run, as the state at the start of the cycle gives it. -/
noncomputable def State.issueInstr? (s : State) (i : Issue) : Option Instr :=
  let word := (s.sheaf? i.sheaf).bind fun h =>
    if i.solo then (h.lane (lowestLane i.lanes)).winWords.lookup i.pc.toNat
    else match (s.fetchBroadcast h i.lanes i.pc).1 with
      | .ok w => some w
      | .error _ => none
  word.bind fun w => match decode w with
    | .ok ins => some ins
    | .error _ => none

/-- Does an issue act after every other issue of its cycle: a region table write after the forks, pages given back after the accesses
(R343/16)? -/
noncomputable def State.actsLast (s : State) (m : Move) : Bool :=
  match m with
  | .issue i =>
    match s.issueInstr? i with
    | some (.rgnw _ _) | some (.spfree _ _ _) => true
    | _ => false
  | _ => false

/-- The issues of a core in a cycle, in ascending pipe, broadcast before solo (R95/04, R144/06, R319/15, R405/26). DESIGN CHOICE: R33/01
leaves the order in which different instructions of a core reach a bank to the device; this order is taken there too (log 81). -/
noncomputable def State.coreIssues (s : State) (c : Nat) : List Move :=
  (List.range 4).flatMap fun p => s.broadcastMoves c p ++ s.soloMoves c p

/-- Is a wait one whose instruction looks again: a vote or shuffle whose participants have all arrived (R300/14), or a
gathered `bar`, `arrive` or `phase` (R326/16)? The lanes of one vote or shuffle look together. -/
def Sheaf.looksAgain (h : Sheaf) (w : Wait) (now : Nat) : Bool :=
  match w.kind with
  | .collective m => m &&& h.live &&& ~~~waitMask (h.collectivesAt w.pc) == 0 && (h.collectivesAt w.pc).head? == some w
  | .gather _ _ _ _ => h.live &&& ~~~w.lanes == 0 && decide (w.since < now)
  | _ => false

/-- The lanes that look with a wait. -/
def Sheaf.lookers (h : Sheaf) (w : Wait) : Mask :=
  match w.kind with
  | .collective _ => waitMask (h.collectivesAt w.pc)
  | _ => w.lanes

/-- The second looks of a cycle. -/
def State.rechecks (s : State) : List Move :=
  (s.sheaves.filter fun h => h.place == .resident && s.mayIssue h).flatMap fun h =>
    (h.waits.filter fun w => h.looksAgain w s.now).map fun w => .issue ⟨h.id, h.lookers w, w.pc, h.core, recheckPipe, false, none, false⟩

/-! ### The scoreboard at the start of a cycle (R35, R45/02, R259/12) -/

/-- The base lanes of a sheaf: neither exited nor waiting. -/
def Sheaf.baseLanes (h : Sheaf) : Mask := ~~~(h.exited ||| waitMask h.waits)

/-- The PC groups of some lanes. -/
def Sheaf.groups (h : Sheaf) (lanes : Mask) : List (Vaddr × Mask) :=
  let ls := lanesOf lanes
  ((ls.map fun l => (h.lane l).pc).eraseDups).map fun pc => (pc, maskOf (ls.filter fun l => (h.lane l).pc == pc))

/-- May something hold an instruction of a sheaf back: a pending destination, a remote store, a request of the sequencer, or a
retention that waits for its page? -/
def State.mayHold (s : State) (h : Sheaf) : Bool :=
  !h.pend.isEmpty || !s.rsts.isEmpty || !s.seqQ.isEmpty || !(s.ctx h.ctx).revs.isEmpty

/-- The sheaf after its instruction is tried at the start of a cycle, where it is only held back: the lanes that stall there cannot
issue in this cycle (R35/02), and a load whose fault they wait for counts from now (R235/11). -/
noncomputable def State.tried (s : State) (h : Sheaf) (lanes : Mask) (pc : Vaddr) (i : Instr) : Option Sheaf :=
  match exec i { s with cur := some ⟨h.id, lanes, pc, h.core, 0, false, none, false⟩ } with
  | .next t => (t.sheaf? h.id).bind fun k => if k.stalled &&& lanes = 0 then none else some k
  | .fault _ | .refused _ => none

/-- A sheaf with the lanes of one PC that cannot issue marked: those the scoreboard holds back, then, if any are left, those whose
instruction would be held back. -/
noncomputable def State.markLate (s : State) (h : Sheaf) (g : Vaddr × Mask) : Sheaf :=
  match s.issueInstr? ⟨h.id, g.2, g.1, h.core, 0, false, none, false⟩ with
  | none => h
  | some i =>
    let late := s.lateGroup h g.2 i
    let counted (p : Pending) : Bool := p.faultOnly && p.waitSince.isNone && p.faults.all LaneFault.mappable &&
      ((drainsAt i h.tl : Bool) || !(s.heldBy h i g.2 p == 0))
    let h := { h with
      blocked := h.blocked ||| late
      pend := h.pend.map fun p => if counted p then { p with waitSince := some s.now } else p }
    let rest := g.2 &&& ~~~late
    if rest = 0 then h
    else
      match s.tried h rest g.1 i with
      | none => h
      | some k =>
        { h with
          blocked := h.blocked ||| (k.stalled &&& rest)
          pend := h.pend.map fun p =>
            if p.waitSince.isNone && k.pend.any (fun q => q.id == p.id && q.waitSince.isSome) then { p with waitSince := some s.now } else p }

/-- A sheaf as the scoreboard finds it at the start of a cycle: every stall of the cycle before is looked at again. Nothing holds back a lane of
a launch that is ended: it exits at its next issue (R231/11). -/
noncomputable def State.scanned (s : State) (h : Sheaf) : Sheaf :=
  if h.place = .resident then
    let h := { h with stalled := 0, blocked := 0 }
    if s.mayHold h ∧ ¬ (s.launchOf h).closed then (h.groups h.baseLanes).foldl (fun h g => s.markLate h g) h else h
  else h

/-- A pipe's greedy run ends when its sheaf has no ready lane (R45/02). -/
def State.runOver (s : State) (p : Pipe) : Pipe :=
  match p.last.bind s.sheaf? with
  | some h => if h.place = .resident ∧ h.ready ≠ 0 then p else { p with last := none }
  | none => { p with last := none }

/-- The start of a cycle on the cores: the scoreboard's stalls, the greedy runs that are over, what `mstat` will read (R363/17), the
deques' occupancy (R55/02). -/
noncomputable def State.openCycle (s : State) : State :=
  let s := s.mapSheaves fun h => { h with stalled := 0 }
  let s := { s with sheaves := s.sheaves.map s.scanned }
  s.mapCores fun c => { (c.seeMatrix) with pipes := c.pipes.map s.runOver, dequeStart := c.deque.length, forks := 0 }

end Sys2Proof.Machine
end

