-- ==== Sys2Proof/Machine/Closing.lean ====
section
/-! DEFINITION. The end of a cycle: barrier checks, chunk clears, sticky flags, counters, ending sheaves, joins, gates, rings (R39 to R46/02, R59/02, R63/02, R104 to R106/04, R145/06, R165/07, R179 to R183/08, R334/16). -/

namespace Sys2Proof.Machine

/-! ### Barriers (R176 to R179/08, R325 to R328/16) -/

/-- A wait that a completed generation of a team ends. -/
def Team.frees (t : Team) (w : Wait) : Bool :=
  match w.kind with
  | .barrier team g | .generation team g => team == t.id && t.completed g
  | _ => false

/-- The waits at a team's barrier end, each an acquire at the team's scope (R327/16). -/
def State.freeWaiters (s : State) (t : Team) : State :=
  s.sheaves.foldl (fun (s : State) h =>
    (h.waits.filter t.frees).foldl (fun (s : State) w => (s.finishWait h.id w).acquireTeam h.core t) s) s

/-- A task enters a field's phase queue, or its overflow beyond 4,096 entries (R148/06). -/
def FieldState.queueTask (f : FieldState) (id : Nat) : FieldState :=
  if f.phases.length < 4096 ∧ f.overflow = [] then { f with phases := f.phases ++ [id] } else { f with overflow := f.overflow ++ [id] }

/-- The phase records of a team become phase tasks of their fields, in ascending sheaf number (R53/02, R148/06). -/
def State.queuePhases (s : State) (t : Team) : State :=
  let mine := s.sheaves.filter fun h => match h.place with | .phase _ queued team _ => !queued && team == t.id | _ => false
  (sortBy mine fun a b => decide (a.number ≤ b.number)).foldl (fun (s : State) h =>
    match h.place with
    | .phase f _ team carry =>
      (s.modSheaf h.id fun h => { h with place := .phase f true team carry }).modField f fun x => x.queueTask h.id
    | _ => s) s

/-- A generation of a team completes (R179/08). -/
def Team.complete (t : Team) : Team :=
  { t with
    gen := t.gen + 1, arr := 0, pend := 0, arrived := [], need := t.need - t.lowered, lowered := 0, evt := false
    creditReach := 0, doneReach := max t.doneReach t.creditReach }

/-- The check of R179/08 after a cycle's barrier events: with ARR ≥ NEED and PEND ≤ 0 the generation completes, an ended team's too (R51/02). -/
def State.checkBarrier (s : State) (t : Team) : State :=
  let s := s.modTeam t.id fun t => { t with evt := false, expected := 0 }
  if t.evt ∧ t.need ≤ t.arr ∧ t.pend ≤ 0 then
    let t' := { t.complete with expected := 0 }
    ((s.modTeam t.id fun _ => t').freeWaiters t').queuePhases t'
  else s

/-- Every team's check. DESIGN CHOICE: the phase tasks of two teams whose generations complete in one cycle enter a field's queue in the
order of the teams' creation (R148/06 gives none, log 84). -/
def State.checkBarriers (s : State) : State := s.teams.foldl (fun (s : State) t => s.checkBarrier t) s

/-- Arrivals that waited for the generation before theirs to complete (R179/08); a `phase` whose carry set finds no mapping traps (R112/04). -/
def State.lateArrivals (s : State) : State :=
  s.sheaves.foldl (fun (s : State) h =>
    h.waits.foldl (fun (s : State) w =>
      match w.kind with
      | .later kind slot dest carry g =>
        match s.teamIn h slot with
        | some t =>
          if t.gen = g then s
          else
            match (if kind = 2 then s.drawCarry h.id carry else (none, s)) with
            | (some a, s) => (s.modSheaf h.id fun h => { h with waits := h.waits.filter fun x => !(x == w) }).takeTrap h.id .regback 0 a w.lanes w.pc none
            | (none, s) => s.makeArrival h.id w t kind dest carry
        | none => s
      | _ => s) s) s

/-! ### Sticky bits and counters -/

/-- The clears of `cwait.clr` in this cycle take effect, the scopes of the cleared bits with them (R323/15); a set of the cycle has removed itself from them (R183/08, R405/26). -/
def Team.applyClears (t : Team) : Team :=
  { t with
    maps := t.clears.foldl (fun m c => cset 0 m c.1 (cget 0 m c.1 &&& ~~~c.2)) t.maps
    mapScopes := t.mapScopes.filter fun x => !((cget 0 t.clears (x.1 / 256)).getLsbD (x.1 % 256))
    clears := [] }

/-- A lane's broadcast-wait counter at the end of a cycle (R39/02). -/
def Lane.waited (ln : Lane) (ready issued : Bool) : Lane :=
  if ready && !issued then { ln with bwait := min 4095 (ln.bwait + 1) } else ln

/-- A sheaf's counters at the end of a cycle: broadcast-wait and starvation counters (R39, R46/02), the favoured set
(R39/02), which a replaced one is again when the sheaf did not issue, `$nleft` (R104/04), the flags raised in the cycle (R106/04).
DESIGN CHOICE: lanes that a barrier frees in the cycle count as ready at its end, lanes that a gate frees do not (log 82). -/
def Sheaf.closed (h : Sheaf) : Sheaf :=
  let r := h.ready
  let set := if h.issued = 0 then h.favouredOld.getD h.favoured else h.favoured
  { h with
    lanes := h.lanes.mapIdx fun l (ln : Lane) => ln.waited (r.getLsbD l) (h.issued.getLsbD l)
    starve := if h.issued ≠ 0 ∨ r = 0 then 0 else min 4095 (h.starve + 1)
    issued := 0
    favoured := if set &&& r = 0 then 0 else set
    favouredOld := none
    nleft := if h.noticeOut ∧ h.nleft ≠ 0 then h.nleft - 1 else h.nleft
    raised := {} }

/-- Every resident sheaf's counters. -/
def State.closeSheaves (s : State) : State := s.mapSheaves fun h => if h.place = .resident then h.closed else h

/-! ### The ramp governor and filler (R165/07, R362/17) -/

/-- Does a quadrant of a core run a command, which it does until the command completes or stops, or filler (R165/07, R362/17)? -/
def Core.quadBusy (c : Core) (q : Nat) : Bool :=
  decide (1 < (c.quads.getD q {}).filler) || c.fifo.any fun m => m.takesArray && m.started && !m.stopped && m.run.testBit q

/-- The step index falls back to 0 once every quadrant of the cluster is idle (R165/07). -/
def State.rampIdle (s : State) : State :=
  { s with ramps := s.ramps.filterMap fun r =>
      let busy := (List.range Config.coresPerCluster).any fun k =>
        (List.range 4).any fun q => (s.core (r.1 * Config.coresPerCluster + k)).quadBusy q
      let r' := if busy then r.2 else { r.2 with opened := none }
      if r' = {} then none else some (r.1, r') }

/-- Filler runs on by one cycle; its last is left for FILLER_FINISHED (R362/17). -/
def State.fillerRuns (s : State) : State :=
  s.mapCores fun c => { c with quads := c.quads.map fun q : Quad => { q with filler := if 1 < q.filler then q.filler - 1 else q.filler } }

/-! ### Gates, rings (R63/02, R145/06, R329/16) -/

/-- Gates open, and the lanes that waited at them go on, an acquire at device scope. -/
def State.openGates (s : State) : State :=
  let s := { s with launches := s.launches.map fun l : Launch =>
    if l.dependent ∧ l.state = 1 ∧ ¬ l.gateOpen then { l with gateOpen := s.gateNow l } else l }
  s.sheaves.foldl (fun (s : State) h =>
    if (s.launchOf h).gateOpen then
      (h.waits.filter fun w => w.kind == .gate).foldl (fun (s : State) w => (s.finishWait h.id w).l1Clear h.core) s
    else s) s

/-- Waiting `mpush` instructions whose slots have become free complete (R145/06). DESIGN CHOICE: the one that has waited longest goes
first, ties in the order of the sheaves, and a new `mpush` may pass a waiting one (R145 and R405/26 give no order, log 83). -/
def State.pushRings (s : State) : State :=
  let waits := (s.sheaves.filter fun h => h.place == .resident).flatMap fun h => (h.waits.filter fun w => match w.kind with | .ring _ _ => true | _ => false).map fun w => (h, w)
  (sortBy waits fun a b => decide (a.2.since ≤ b.2.since)).foldl (fun (s : State) x =>
    match x.2.kind with
    | .ring q n =>
      let r := (s.core x.1.core).rings.getD q {}
      if r.filled + n ≤ 2 ^ r.logsz then
        (s.modCore x.1.core fun c => { c with rings := modAt (fun r : Ring => { r with head := r.head + BitVec.ofNat 32 n }) c.rings q }).finishWait x.1.id x.2
      else s
    | _ => s) s

/-! ### Joins and ends (R59/02, R282/13, R334/16) -/

/-- Has a child ended, and every remote store of its lanes been performed (R212/10)? -/
def State.childEnded (s : State) (c : Child) : Bool :=
  ((s.sheaf? c.sheaf).map fun h => h.place == .ended).getD true && !(s.rsts.any fun r => r.sheaf == c.sheaf)

/-- The merge job of a join (R218/10, R334/16): status bit 4 for an inline child (R332/16). -/
def mergeJob (h : Sheaf) (c : Child) (dest : Option Nat) : Job :=
  { id := 0, engine := 4, field := fieldOfCore h.core, core := h.core, ctx := h.ctx, launch := some h.launch, poster := some h.id
    rev := h.rev, child := c.rev, status := if c.inline then 16 else 0, dest := dest, slots := h.slots }

/-- The waits of a sheaf's joins that have not entered the merge engine's queue, in the order the sheaf executed them (R338/16). -/
def Sheaf.openJoins (h : Sheaf) : List Wait := h.waits.filter fun w => match w.kind with | .join _ none _ => true | _ => false

/-- Of the explicit joins of a sheaf, the first: it enters the merge engine's queue once its child has ended (R334, R338/16). -/
def State.joinFirst (s : State) (h : Sheaf) : Option State :=
  match h.openJoins with
  | [] => none
  | w :: _ =>
    match w.kind with
    | .join rev _ dest =>
      match h.children.find? fun c => c.rev == rev with
      | some c =>
        if s.childEnded c && s.queueRoom (fieldOfCore h.core) 4 h.ctx then
          let id := s.nextId
          some ((s.enqueue (mergeJob h c (some dest))).modSheaf h.id fun k =>
            { k with waits := k.waits.map fun x => if x == w then { w with kind := .join rev (some id) dest } else x })
        else none
      | none => none
    | _ => none

/-- The explicit joins of a sheaf enter the merge engine's queue in order, at most `n` of them. -/
def State.explicitJoins (s : State) (id : Nat) : Nat → State
  | 0 => s
  | n + 1 =>
    match (s.sheaf? id).bind s.joinFirst with
    | some t => State.explicitJoins t id n
    | none => s

/-- A sheaf all of whose lanes have exited joins its children implicitly, in fork order, one after another (R59/02, R282/13). -/
def State.implicitJoins (s : State) (h : Sheaf) : State :=
  match h.children with
  | [] => s.endIfDone h.id
  | c :: _ =>
    if s.childEnded c && !(s.jobs.any fun j => j.engine == 4 && j.child == c.rev) && s.queueRoom (fieldOfCore h.core) 4 h.ctx then
      s.enqueue (mergeJob h c none)
    else s

/-- The joins of a cycle, by core and sheaf slot (R405/26). -/
def State.joins (s : State) : State :=
  let hs := sortBy (s.sheaves.filter fun h => h.place == .resident) fun a b =>
    decide (a.core < b.core) || (a.core == b.core && decide (a.slot ≤ b.slot))
  hs.foldl (fun (s : State) h => if h.ending then s.implicitJoins h else s.explicitJoins h.id h.openJoins.length) s

/-! ### Steals and translations -/

/-- Has a core a free sheaf slot? -/
def State.freeSlots (s : State) (core : Nat) : List Nat := (List.range 32).filter fun k => s.slotFree core k

/-- Does a core look for a task to steal (R57/02): its deque is empty, and it has a free sheaf slot? -/
def State.thieving (s : State) (core : Nat) : Bool := (s.core core).deque.isEmpty && !((s.freeSlots core).isEmpty)

/-- A core that does not steal in this cycle begins its next run of attempts at its first victim. -/
def State.restartThieves (s : State) : State :=
  s.cores.foldl (fun (s : State) c => if s.thieving c.1 then s else s.modCore c.1 fun k => { k with thief := s.now + 1 }) s

/-- An instruction cache keeps its words or loses them: a free choice for each core and cycle (R137/05). -/
def State.icacheLoss (s : State) : State :=
  s.cores.foldl (fun (s : State) c =>
    if c.2.icache.isEmpty then s
    else
      let (b, s) := s.flip
      if b then s.modCore c.1 fun k => { k with icache := [] } else s) s

/-- The residencies whose forced squeeze begins in the next cycle (R242/11): an affected sheaf's `$nleft` reads 0 at this
cycle's end, its `nret` not executed. -/
def State.lateSqueezes (s : State) : List (Nat × Nat) :=
  s.cores.flatMap fun c => (c.2.res.filter fun r => r.noticed && (r.forced || r.affected.any fun id =>
    match s.sheaf? id with
    | some h => h.noticeOut && h.nleft == 0
    | none => false)).map fun r => (c.1, r.ctx)

/-- The clock moves on (R5/00): the cycle adds what it lasts at the clock it ran with. -/
def State.nextCycle (s : State) : State :=
  { s with cycle := s.cycle + 1, time := s.time.tick s.clockMHz, errsNow := [], retired := [], removed := [] }

/-- The end of a cycle: joins, so that a sheaf that ends settles its teams in this cycle (R51/02), the barriers, the chunk clears,
the counters; then what takes effect with the next cycle. -/
def State.closeCycle (s : State) : State :=
  let s := s.joins.checkBarriers
  let s := { s with teams := s.teams.map Team.applyClears }
  let s := s.closeSheaves.fillerRuns.rampIdle.squeezeReturned.squeezeStages.settleAll.settleTurns
  let s := s.restartThieves.dropTeams.icacheLoss.nextCycle
  s.openGates.lateArrivals.pushRings.closeLaunches

end Sys2Proof.Machine
end

