-- ==== Sys2Proof/Machine/Sched.lean ====
section
/-! DEFINITION. The moves of a cycle (log 1): what must happen, what a free choice lets happen, what issues, in the orders of R250/11, R363/17 and R405/26; and the step from a cycle to the next. -/

namespace Sys2Proof.Machine

/-! ### What must happen in a cycle -/

/-- Decoder writes, which take effect last in a cycle (R385/19, R405/26). -/
def isDecoderWrite : Move → Bool
  | .event (.pooledMemoryDecoderWrite _ _) => true
  | _ => false

/-- What reaches the exchange engine from outside: its writes follow those of the engines before it (R214/10). -/
def isExchangeInput : Move → Bool
  | .event (.exchangeStreamArrival _) | .event (.streamFailedByPeer _ _) | .event (.peerModuleFailure _) => true
  | .streamMatched _ _ | .streamAck _ _ => true
  | _ => false

/-- A stream's header that reaches the module (R371/18). -/
def isHeader : Move → Bool
  | .event (.exchangeStreamArrival st) => st.data.isNone
  | _ => false

/-- The sender of a mailbox message or of a stream. -/
def senderOf : Move → Option Nat
  | .event (.mailboxMessage _ sender _) => some sender
  | .event (.exchangeStreamArrival st) => some st.src
  | _ => none

/-- Inputs in their order, those of senders last, in ascending sender number: mailbox messages, hardware reporters being numbered above the
Fleskapa cores (R152/06); streams, by the module that sends (R371/18). -/
def orderInputs (ms : List Move) : List Move :=
  (ms.filter fun m => (senderOf m).isNone) ++
    sortBy (ms.filter fun m => (senderOf m).isSome) fun a b => decide ((senderOf a).getD 0 ≤ (senderOf b).getD 0)

/-- The cores listed in the state. -/
def State.coreList (s : State) : List (Nat × Core) := s.cores

/-- Filler that has finished, and the milliseconds of the power cap (R362/17, R390/19). -/
def State.openingMoves (s : State) : List Move :=
  (s.coreList.flatMap fun c => ((List.range 4).filter fun q => (c.2.quads.getD q {}).filler == 1).map fun q =>
    Move.event (.fillerFinished c.1 q)) ++
  (if 3 ≤ s.fwstep.toNat ∧ s.msSeen < s.time.ms ∧ s.coreRuns 4 then [.event .powerCapInterval] else [])

/-- Token and chunk waits that are satisfied at the start of the cycle (R323/15, R330/16). -/
def State.waitMoves (s : State) : List Move :=
  let hs := s.sheaves.filter fun h => h.place == .resident
  (hs.filter fun h => h.waits.any fun w => (s.tokenDone h w).isSome).map (fun h => Move.event (.twaitCompletion h.id)) ++
  (hs.filter fun h => h.waits.any s.chunkDone).map fun h => Move.event (.cwaitCompletion h.id)

/-- A wait at a post, as a key: since when, on which core and pipe, and, last, of a solo issue. -/
def State.postKey (s : State) (h : Sheaf) (w : Wait) : List Nat := [w.since, h.core, s.pipeOf h, if w.solo then 1 else 0]

/-- The posts of a sheaf that wait. -/
def State.postsOf (s : State) (h : Sheaf) : List (List Nat × Move) :=
  h.waits.filterMap fun w =>
    match w.kind with
    | .fifo _ => some (s.postKey h w, Move.event (.matrixFifoPostResume h.id))
    | .equeue _ => some (s.postKey h w, Move.event (.engineQueuePostResume h.id))
    | _ => none

/-- Posts that waited for the FIFO or a queue go on in the order they were made (R144/06). DESIGN CHOICE: so do those that wait for an
engine's queue, for which R147/06 gives no order (log 85). -/
def State.postMoves (s : State) : List Move :=
  (sortBy ((s.sheaves.filter fun h => h.place == .resident).flatMap s.postsOf) fun a b => !(keyLt b.1 a.1)).map fun x => x.2

/-- Timeouts of sheaves that have passed (R235/11, R300/14). -/
def State.timeoutMoves (s : State) : List Move :=
  (s.sheaves.flatMap fun h => (h.pend.filter fun p => match p.waitSince with | some t => decide (t + 65536 ≤ s.now) | none => false).map
    fun p => Move.event (.loadFaultWaitTimeout h.id p.id)) ++
  (s.sheaves.filter fun h => !(h.stuckCollective s.now).isEmpty).map (fun h => Move.event (.collstallTimeout h.id))

/-- Contexts of which a save, or a plane, waits for a page (R247/11). -/
def State.savers (s : State) : List Nat := (s.ctxs.filter fun c => c.2.saveWait.isSome || !c.2.planeWait.isEmpty).map fun c => c.1

/-- Saves whose page was mapped in an earlier cycle go on, in the context engine's turn (R214/10); deadlines come at the cycle's end, after a
mapping of the same cycle (R247, R250/11). -/
def State.saveMoves (s : State) : List Move :=
  (s.savers.filter fun c => ((s.ctx c).saveWait.isSome && !s.saveStuck c) || s.planesReady c).map fun c => .event (.saveResume c)
def State.saveDeadlines (s : State) : List Move := s.savers.map fun c => .event (.saveDeadlineExpiry c)

/-- Data of `.ln` and `.sp` loads that has to arrive now (R394/21: within 8 cycles). -/
def State.nearMoves (s : State) : List Move :=
  s.sheaves.flatMap fun h => (h.pend.filter fun p => p.nearby && decide (p.since + 8 ≤ s.now) && !p.vals.isEmpty && (s.coldRegs h p.regs).isEmpty).map
    fun p => Move.event (.loadDataArrival h.id p.id)

/-- Squeezes that are forced, and expansion steps (R242, R243/11). -/
def State.residencyMoves (s : State) (late : List (Nat × Nat)) : List Move :=
  late.map (fun x => Move.event (.forcedSqueeze x.1 x.2)) ++
  (s.coreList.flatMap fun c => (c.2.res.filter fun r => match r.expandAt with | some t => decide (t ≤ s.now) | none => false).map
    fun r => Move.event (.expansionStep c.1 r.ctx))

/-- The turns of folded sheaves, which pass before the cycle's choices (R239/11, R392/20). -/
def State.foldMoves (s : State) : List Move :=
  s.coreList.flatMap fun c => c.2.res.flatMap fun r =>
    (((s.residents c.1 r.ctx).filterMap s.foldGroup).eraseDups).map fun g => Move.event (.foldQuantumExpiry c.1 r.ctx g)

/-- NOTICEs that are due, and pending NOTICE and EXPAND traps, after the synchronous causes of the cycle (R233, R234, R242/11). -/
def State.noticeMoves (s : State) : List Move :=
  (s.coreList.flatMap fun c => (c.2.res.filter fun r => match r.noticeAt with | some t => decide (t ≤ s.now) | none => false).map
    fun r => Move.deliverNotice c.1 r.ctx) ++
  (s.sheaves.filter fun h => h.place == .resident && (h.noticePending || h.expandPending)).map fun h => Move.event (.noticeTrap h.id)

/-- Matrix commands that may start, then each governor that has a step to take (R347, R361, R363/17), as the state stands when the cycle's
posts have been made. -/
def State.matrixMoves (s : State) : List Move :=
  (s.coreList.flatMap fun c => (c.2.fifo.filter fun m => !m.started && m.askedAt.isNone).map fun m => Move.event (.matrixCommandStart c.1 m.id)) ++
  ((s.coreList.map fun c => clusterOfCore c.1) ++ s.ramps.map fun r => r.1).eraseDups.map fun k => Move.event (.rampGovernorStep k)

/-- Refused headers that now find a match or a place, before headers that come anew (R371/18). -/
def State.headerMoves (s : State) : List Move :=
  if s.exRefused.any s.fits then s.exRefused.map fun _ => .event .exchangeHeaderAdmission else []

/-- Launches on fenced cores (R249/11). -/
def State.restartMoves (s : State) : List Move :=
  (s.launches.filter s.owesRestart).map (fun l => Move.event (.launchRestart l.id))

/-! ### What a free choice lets happen (log 4) -/

/-- The command at each queue's head, by type (R140/06); none while the core that serves the parser is fenced (R248/11, R388/19). -/
def State.parserMoves (s : State) : List Move :=
  if s.fenced.contains (.fleskapa 0) then [] else
  s.queues.filterMap fun x =>
    let q := x.1
    (s.ringEntry q).map fun e =>
      Move.event (match entryType e with
        | 0 => .noOperation q
        | 1 => .launch q
        | 2 => .engineJobCard q
        | 3 => .signalEventWord q
        | 4 => .waitEventWord q
        | 5 => .reclaimRequest (.ring q)
        | 6 => .parkContext q
        | 7 => .resumeContext q
        | 8 => .translationInvalidation q
        | _ => .reservedCommandType q)

/-- Loads whose data may arrive, faults that may have been mapped (R259/12, R112/04). -/
def State.landingMoves (s : State) : List Move :=
  (s.sheaves.filter fun h => !(h.place == .parked)).flatMap fun h => h.pend.flatMap fun p =>
    (if p.tickets == 0 && (!p.vals.isEmpty || p.scalar.isSome || p.faults.isEmpty) then [Move.event (.loadDataArrival h.id p.id)] else []) ++
    (if p.faults.any LaneFault.mappable then [Move.event (.loadFaultMappingMade h.id p.id)] else [])

/-- Matrix commands at work: slots filled, completions, stops, resumes (R244/11, R348, R356/17). One that reaches its end completes before
a stop (R250/11). -/
def State.workMoves (s : State) : List Move :=
  s.coreList.flatMap fun c => c.2.fifo.flatMap fun m =>
    (if m.starved then [Move.event (.ringSlotWaitEnd c.1 m.id)] else []) ++
    (if m.working || m.done then [Move.event (.matrixCommandCompletion c.1 m.id)] else []) ++
    (if s.mustStop c.1 m then [Move.event (.matrixQuiescentStop c.1 m.id)] else []) ++
    (if m.started && m.stopped then [Move.event (.matrixCommandResume c.1 m.id)] else [])

/-- Commands without work complete in the cycle after they start (R348/17). -/
def State.emptyMoves (s : State) : List Move :=
  s.coreList.flatMap fun c => (c.2.fifo.filter fun m => m.done && m.empty).map fun m => Move.event (.matrixCommandCompletion c.1 m.id)

/-- Quanta of a core's commands at work, as many in a cycle as the arrays take: no step has a least duration (R23/01). DESIGN CHOICE: a command
makes at most 4,096 of them in one cycle (log 1). -/
def State.quanta (s : State) (core : Nat) : List MatCmd → List Move × State
  | [] => ([], s)
  | m :: rest =>
    let (n, s) := s.pick 4097
    let (ms, s) := State.quanta s core rest
    (if m.working && !m.starved then List.replicate n (.kstep core m.id) ++ ms else ms, s)

/-- What an engine job has to do in a cycle: end on a fenced function, give up a wait (R249/11, R322/15, R371/18). -/
def State.jobMust (s : State) (j : Job) : List Move :=
  (if s.jobCut j then [Move.event (.jobReplay j.id)] else []) ++
  (if j.waitAddr.isSome && decide (j.waitSince + 65536 ≤ s.now) then [Move.event (.engineXlate2Timeout j.id)] else []) ++
  (if j.engine == 3 && s.exchangeLate j then [Move.event (.exchangeDeadlineExpiry j.id)] else [])

/-- What an engine job may do: start, complete, go on after a mapping (R220/10, R321, R322/15). -/
def State.jobMoves (s : State) (j : Job) : List Move :=
  (if s.jobMayStart j then [Move.event (.jobStart j.id)] else []) ++
  (if j.started && !(j.engine == 4) then [Move.event (.jobCompletion j.id)] else []) ++
  (if j.waitAddr.isSome then [Move.event (.engineAccessMappingMade j.id)] else [])

/-- The chunks of a copy that have not landed. -/
def Job.chunksLeft (j : Job) : List Move :=
  if j.engine == 1 && j.started then
    ((List.range (tileOf j.card).chunks).filter fun k => !(j.landed.contains k)).map fun k => Move.event (.copyChunkLanding j.id k)
  else []

/-- Residency on cores: squeezes that end; pages that move, after the accesses of the cycle (R136/05, R243/11, R405/26). -/
def State.squeezeMoves (s : State) : List Move :=
  s.coreList.flatMap fun c => (c.2.res.filter fun r => r.squeezing).map fun r => Move.event (.squeezeCompletion c.1 r.ctx)
def State.pageMoves (s : State) : List Move :=
  s.coreList.flatMap fun c => (c.2.res.filter fun r => !r.moves.isEmpty || !r.returns.isEmpty).map fun r => Move.event (.scratchPageMove c.1 r.ctx)

/-- Fabric and queues: event words, peer lines that leave (R169/07, R406/10). -/
def State.fabricMoves (s : State) : List Move :=
  (s.queues.filter fun q => q.2.hold.isSome).map (fun q => Move.event (.eventWordWaitSatisfied q.1)) ++
  s.l2peer.map fun x => Move.event (.l2LineEviction x.1)

/-- The merge engine's line actions and the joins they complete (R223/10, R334/16): after every store of the cycle (R405/26). -/
def State.mergeMoves (s : State) : List Move :=
  (s.jobs.filter fun j => j.engine == 4 && j.started && j.waitAddr.isNone).map fun j =>
    .event (if j.lines.isEmpty then .joinCompletion j.id else .mergeLineAction j.id)

/-- The cores and slots on which a sheaf of a launch can start now (R49, R61, R63/02). -/
def State.startPlaces (s : State) (l : Launch) (n : Nat) : List (Nat × Nat) :=
  (List.range Config.cores).flatMap fun c => ((s.freeSlots c).filter fun k => (s.makeResident l n c k).isSome).map fun k => (c, k)

/-- The sheaves of a launch that can start now. -/
def State.startable (s : State) (l : Launch) : List Nat :=
  (List.range l.sheafCount).filter fun n => !(l.residentOnce.contains n) && !(s.startPlaces l n).isEmpty

/-- A dispatched launch's sheaves start as soon as resources allow (R63/02): while one can, one does, which and where by free choice; then
the rest is looked at again. -/
def State.startNext (s : State) (launch : Nat) : State :=
  match s.launch? launch with
  | none => s
  | some l =>
    match s.startable l with
    | [] => s
    | ns =>
      let (k, s) := s.pick ns.length
      let n := ns.getD k 0
      let ps := s.startPlaces l n
      let (k, s) := s.pick ps.length
      let p := ps.getD k (0, 0)
      { s with agenda := .event (.sheafMadeResident launch n p.1 p.2) :: .starts launch :: s.agenda }

/-- Has a launch phase tasks or fork tasks that wait for a core? -/
def State.hasTasks (s : State) (l : Launch) : Bool :=
  s.sheaves.any fun h => h.launch == l.id && (match h.place with | .phase _ queued _ _ => queued | .deque _ => true | _ => false)

/-- The starts of every dispatched launch, and a carve-out change (R61, R63, R65/02). -/
def State.startMoves (s : State) : List Launch → List Move × State
  | [] => ([], s)
  | l :: ls =>
    if l.state = 1 ∧ (l.residentOnce.length < l.sheafCount ∨ s.hasTasks l) then
      let (c, s) := s.pick Config.cores
      let (rest, s) := State.startMoves s ls
      (.event (.carveOutChange c l.carve) :: .starts l.id :: rest, s)
    else State.startMoves s ls

/-- A free slot of a core, freely chosen. -/
def State.pickSlot (s : State) (core : Nat) : Nat × State :=
  let xs := s.freeSlots core
  let (k, s) := s.pick xs.length
  (xs.getD k 0, s)

/-- Cores with room take the task at their own deque's head (R57/02). -/
def State.takeMoves (s : State) : List (Nat × Core) → List Move × State
  | [] => ([], s)
  | (c, k) :: rest =>
    if k.deque.isEmpty || (s.freeSlots c).isEmpty then State.takeMoves s rest
    else
      let (n, s) := s.pickSlot c
      let (ms, s) := State.takeMoves s rest
      (.event (.taskTake c n) :: ms, s)

/-- Thieves, ascending: the lowest core that targets a deque steals from it in this cycle (R57, R58/02). DESIGN CHOICE: its attempt bars the
others from that deque even where it takes nothing (log 91). -/
def State.stealMoves (s : State) : List Nat → List Nat → List Move × State
  | [], _ => ([], s)
  | c :: cs, gone =>
    let v := s.victimOf c
    if gone.contains v || (s.core v).deque.isEmpty || !(s.thieving c) then State.stealMoves s cs gone
    else
      let (n, s) := s.pickSlot c
      let (ms, s) := State.stealMoves s cs (v :: gone)
      (.event (.taskSteal c n) :: ms, s)

/-- Cores that may resume a phase (R53/02): each with a free slot and a phase task, by a free choice. -/
def State.phaseMoves (s : State) : List Nat → List Move × State
  | [] => ([], s)
  | c :: cs =>
    if (s.phasesFor c).isEmpty || (s.freeSlots c).isEmpty then State.phaseMoves s cs
    else
      let (b, s) := s.flip
      let (n, s) := s.pickSlot c
      let (ms, s) := State.phaseMoves s cs
      (if b then .event (.phaseResume c n) :: ms else ms, s)

/-- The cores of fields that hold queued work for others: all of them, where any deque or phase queue holds something. -/
def State.seekers (s : State) : List Nat :=
  if (s.coreList.any fun c => !c.2.deque.isEmpty) || s.fields.any fun f => !f.2.phases.isEmpty then List.range Config.cores else []

/-- Of some moves, those a free choice lets happen in this cycle. -/
def State.sieve (s : State) : List Move → List Move × State
  | [] => ([], s)
  | m :: ms =>
    let (b, s) := s.flip
    let (xs, s) := State.sieve s ms
    (if b then m :: xs else xs, s)

/-- Put a move at a place of a list. -/
def insertAt (m : Move) : Nat → List Move → List Move
  | 0, xs => m :: xs
  | _ + 1, [] => [m]
  | n + 1, x :: xs => x :: insertAt m n xs

/-- Moves that no rule orders take the order the device chooses (R405/26). -/
def State.mix (s : State) : List Move → List Move × State
  | [] => ([], s)
  | m :: ms =>
    let (xs, s) := State.mix s ms
    let (k, s) := s.pick (xs.length + 1)
    (insertAt m k xs, s)

/-- Moves dealt to before and after the issues of the cycle, by free choice. -/
def State.deal (s : State) : List Move → (List Move × List Move) × State
  | [] => (([], []), s)
  | m :: ms =>
    let (b, s) := s.flip
    let (xs, s) := State.deal s ms
    (if b then (m :: xs.1, xs.2) else (xs.1, m :: xs.2), s)

/-- What the jobs of some engines do in a cycle (R179/08, R214/10), in their order; the chunks of one copy in any order. -/
def State.engineMoves (s : State) : List Job → List Move × State
  | [] => ([], s)
  | j :: js =>
    let (ms, s) := s.sieve (s.jobMoves j)
    let (cs, s) := s.sieve j.chunksLeft
    let (cs, s) := s.mix cs
    let (rest, s) := State.engineMoves s js
    (cs ++ s.jobMust j ++ ms ++ rest, s)

/-- The jobs of some engines: ascending engine number, then queue order (R179/08). DESIGN CHOICE: the queues of one engine number on several
fields go in ascending field, where R179 names one queue (log 113). -/
def State.jobOrder (s : State) (engines : List Nat) : List Job :=
  sortBy (s.jobs.filter fun j => engines.contains j.engine) fun a b =>
    decide (a.engine < b.engine) || (a.engine == b.engine && decide (a.field ≤ b.field))

/-- The job in whose turn an input of the exchange engine comes. -/
def State.exchangeJob (s : State) : Move → Option Nat
  | .event (.exchangeStreamArrival st) => (s.rowsJob st).map fun j => j.id
  | .event (.streamFailedByPeer job _) | .streamMatched job _ | .streamAck job _ => some job
  | _ => none

/-- The modules whose failure is among some moves. -/
def failedModules (ms : List Move) : List Nat :=
  ms.filterMap fun m => match m with | .event (.peerModuleFailure n) => some n | _ => none

/-- What exchange jobs do in a cycle, in their order, so that their credits come in it (R179/08): what reaches each from outside, its streams of
this module, what it must and what it may do. -/
def State.exchangeMoves (s : State) (due : List Move) : List Job → List Move × State
  | [] => ([], s)
  | j :: js =>
    let (ms, s) := s.sieve (s.jobMoves j)
    let (rest, s) := State.exchangeMoves s due js
    (orderInputs (due.filter fun m => s.exchangeJob m == some j.id) ++ ((failedModules due).map fun m => .peerLost j.id m) ++
      [.exchangeHeld j.id] ++ s.jobMust j ++ ms ++ rest, s)

/-- The exchange engine's turn: each job's, then what reaches it for none; its inputs stand first on the agenda. -/
def State.exchangeTurn (s : State) (n : Nat) : State :=
  let due := s.agenda.take n
  let (ms, t) := s.exchangeMoves due (s.jobOrder [3])
  { t with agenda := ms ++ (due.filter fun m => (s.exchangeJob m).isNone) ++ s.agenda.drop n }

/-! ### The cores of a cycle (R214/10, R405/26) -/

/-- The cores that may issue or store in a cycle, ascending. -/
def State.activeCores (s : State) : List Nat :=
  sortBy ((s.busyCores ++ (s.coreList.filter fun c => !c.2.fifo.isEmpty).map (fun c => c.1) ++ s.rsts.map (fun r => r.core) ++
    (s.seqQ.take 1).map fun r => r.core).eraseDups) fun a b => decide (a ≤ b)

/-- The ticket of the cycle, if the oldest request is a core's (R26/01, R184/08). -/
def State.ticketOf (s : State) (core : Nat) : List Move :=
  if (s.seqQ.head?.map fun r => r.core) = some core then [.event .sequencerTicket] else []

/-- What a core does in a cycle: its issues; dealt before and after them by free choice, its matrix quanta and the remote stores of its lanes
that are acknowledged (R23/01, R224/10, R348/17); its ticket. An issue that acts last is left for the end. -/
noncomputable def State.coreMoves (s : State) (core : Nat) : (List Move × List Move) × State :=
  let (quanta, s) := s.quanta core (s.core core).fifo
  let (acks, s) := s.sieve ((s.rsts.filter fun r => r.core == core).map fun r => .ack r.id)
  let (mixed, s) := s.mix (quanta ++ acks)
  let ((before, after), s) := s.deal mixed
  let issues := s.coreIssues core
  ((before ++ (issues.filter fun m => !(s.actsLast m)) ++ after ++ s.ticketOf core, issues.filter s.actsLast), s)

/-- What some cores do, in order; then the issues that act last. -/
noncomputable def State.segments (s : State) : List Nat → (List Move × List Move) × State
  | [] => (([], []), s)
  | c :: cs =>
    let ((ms, last), s) := s.coreMoves c
    let ((rest, lasts), s) := State.segments s cs
    ((ms ++ rest, last ++ lasts), s)

/-! ### The agenda of a cycle -/

/-- Retirements that may come in a cycle, before every park and reclaim (R250/11, R405/26). -/
def State.retireMoves (s : State) : List Move := (s.launches.filter s.launchOver).map fun l => .event (.launchRetirement l.id)

/-- The moves of a cycle that tasks and launches make: the cores' own tasks, steals, phases, starts (R53, R57, R58, R61/02). -/
def State.taskMoves (s : State) : List Move × State :=
  let (takes, s) := s.takeMoves s.coreList
  let (steals, s) := s.stealMoves s.seekers []
  let (phases, s) := s.phaseMoves s.seekers
  let (starts, s) := s.startMoves s.launches
  (takes ++ steals ++ phases ++ starts, s)

/-- What no rule binds to a place of the cycle, by free choice and in any order, part of it before the issues and part after:
data that arrives, lines that leave, dispatch (R33/01). -/
def State.freeMoves (s : State) : (List Move × List Move) × State :=
  let dispatch := if s.nextLaunch.isSome then [Move.event .launchDispatch] else []
  let (free, s) := s.sieve (s.landingMoves ++ s.fabricMoves ++ dispatch)
  let (free, s) := s.mix free
  s.deal free

/-- What comes before the issues of a cycle: its choices (R39, R46/02); waits, on the state at its start, so that a bit set later in it
ends at 1 (R183/08); retirements, before requests (R250/11); inputs, parser commands, timeouts. -/
def State.earlyMoves (s : State) (due : List Move) (late : List (Nat × Nat)) : List Move × State :=
  let (retire, s) := s.sieve s.retireMoves
  let (parser, s) := s.sieve s.parserMoves
  let (parser, s) := s.mix parser
  let (work, s) := s.sieve s.workMoves
  let (squeezes, s) := s.sieve s.squeezeMoves
  (s.choiceEvents ++ s.waitMoves ++ s.restartMoves ++ retire ++ orderInputs due ++ s.openingMoves ++ parser ++ s.emptyMoves ++ work ++
    s.nearMoves ++ s.postMoves ++ s.timeoutMoves ++ s.residencyMoves late ++ squeezes, s)

/-- What the engines do in a cycle, after the cores: copy and winnow; exchange, with what reaches it from outside, headers first; context, saves
that go on among it; the starts of matrix commands and of merges; the merge engine's actions (R179/08, R214/10, R361/17, R371/18). -/
def State.engineTurn (s : State) (due : List Move) : List Move × State :=
  let (first, s) := s.engineMoves (s.jobOrder [1, 2])
  let (rest, s) := s.engineMoves (s.jobOrder [5] ++ s.jobOrder [4])
  let (merges, s) := s.sieve s.mergeMoves
  let rows := due.filter fun m => !(isHeader m)
  (first ++ s.headerMoves ++ orderInputs (due.filter isHeader) ++ .exchangePhase rows.length :: rows ++ s.saveMoves ++ rest ++ [.matrixPhase] ++
    merges, s)

/-- What comes after the cores of a cycle: the engines; the issues that act last (R343/16); tasks; NOTICE and EXPAND (R234/11); page moves,
save deadlines, decoder writes (R136/05, R250/11, R385/19). -/
def State.lateMoves (s : State) (due last : List Move) : List Move × State :=
  let (engines, s) := s.engineTurn (due.filter isExchangeInput)
  let (tasks, s) := s.taskMoves
  let (pages, s) := s.sieve s.pageMoves
  (engines ++ last ++ tasks ++ s.noticeMoves ++ pages ++ s.saveDeadlines ++ due.filter isDecoderWrite, s)

/-- The agenda of a cycle that has begun; `late` are the residencies whose forced squeeze begins. -/
noncomputable def State.plan (s : State) (late : List (Nat × Nat)) : State :=
  let due := (s.inputs.filter fun x => decide (x.1 ≤ s.now)).map fun x => x.2
  let s := { s with inputs := s.inputs.filter fun x => !(decide (x.1 ≤ s.now)) }
  let (first, s) := s.earlyMoves (due.filter fun m => !(isDecoderWrite m) && !(isExchangeInput m)) late
  let ((free, after), s) := s.freeMoves
  let ((cores, last), s) := s.segments s.activeCores
  let (end_, s) := s.lateMoves due last
  { s with agenda := first ++ free ++ s.rechecks ++ cores ++ after ++ end_ ++ s.agenda }

/-- From one cycle to the next: the end of the old one, the start of the new, the turns of folded sheaves; then the plan of the rest. -/
noncomputable def State.tick (s : State) : State :=
  let t := s.closeCycle.openCycle
  { t with agenda := t.foldMoves ++ [.planCycle s.lateSqueezes] }

/-! ### Running a move -/

/-- A remote store is acknowledged (R224/10, R374/18): one to this module never fails; a peer that has failed, or whose module answers the store
with a fault, fails it (R386, R387/19). -/
def State.ackFails (s : State) (r : RemoteStore) : Option Cause :=
  if r.own then none
  else if s.peersDown.contains (moduleOf r.hpa) then some .uncorr
  else s.peerAnswer .store r.hpa

/-- The acknowledgement of the store with a number. -/
noncomputable def State.ackStore (s : State) (id : Nat) : Out :=
  match s.rsts.findIdx? fun r => r.id == id with
  | none => .next s
  | some k =>
    match s.rsts[k]? with
    | none => .next s
    | some r => exec (.remoteStoreAcknowledgement k (s.ackFails r)) { s with cur := none }

/-- A peer's module sets what it grants a context of a page of its exported window; none for everything (R386/19). -/
def State.setPeerFault (s : State) (ctx page : Nat) (grant : Option PeerPage) : State :=
  let key := page + ctx * 2 ^ 40
  let rest := s.peerFaults.filter fun x => !(x.1 == key)
  { s with peerFaults := match grant with | some g => (key, g) :: rest | none => rest }

/-- An outcome of one move. -/
noncomputable def State.runMove (s : State) (m : Move) : Out :=
  match m with
  | .issue i => s.runIssue i
  | .event e => exec e { s with cur := none }
  | .kstep core cmd => .next (s.kstep core cmd)
  | .hostWrite hpa bytes => .next { s with mem := s.mem.write hpa bytes }
  | .streamMatched job idx => .next (s.streamMatched job idx)
  | .streamAck job idx => .next (s.streamAcked job idx)
  | .deliverNotice core ctx => .next (s.deliverNotice core ctx)
  | .mailboxRead core => .next (s.mailboxRead core)
  | .ack id => s.ackStore id
  | .peerFault ctx page grant => .next (s.setPeerFault ctx page grant)
  | .poison line => .next { s with poison := lineOf line :: s.poison }
  | .starts launch => .next (s.startNext launch)
  | .planCycle late => .next (s.plan late)
  | .matrixPhase => .next { s with agenda := s.matrixMoves ++ s.agenda }
  | .exchangePhase n => .next (s.exchangeTurn n)
  | .exchangeHeld job => .next (s.exchangeHeld job)
  | .peerLost job m => .next (s.peerLost job m)

/-- Is a move the module's reset? -/
def isReset : Move → Bool
  | .event .moduleReset => true
  | _ => false

/-- With every clock stopped (R390/19) only module reset moves the machine: the first one the outside brings; what it would
have brought before that is lost. -/
noncomputable def State.whileTripped (s : State) : Out :=
  match s.inputs.dropWhile fun x => !(isReset x.2) with
  | [] => .fault .clocksStopped
  | _ :: later => exec .moduleReset { s with inputs := later }

/-- One move of the machine: the next of its cycle's agenda; with none left, the next cycle. -/
noncomputable def State.advance (s : State) : Out :=
  match s.agenda with
  | [] => .next s.tick
  | m :: rest => ({ s with agenda := rest } : State).runMove m

end Sys2Proof.Machine
end

