-- ==== Sys2Proof/Machine/Load.lean ====
section
/-! DEFINITION. How an instruction word is put where the next step fetches (log 7): at the next issue of the agenda, or in a sheaf loaded from outside. -/

namespace Sys2Proof.Machine

/-- The issue the next step makes, if it makes one. -/
def State.nextIssue (s : State) : Option Issue :=
  match s.trip, s.agenda with
  | false, .issue i :: _ =>
    match s.sheaf? i.sheaf with
    | some h => if i.pipe ≠ recheckPipe ∧ (s.launchOf h).closed = false ∧ h.stillAt i ≠ 0 then some i else none
    | none => none
  | _, _ => none

/-- Where a loaded program starts. -/
def loadPc : Vaddr := 0x1000

/-- The launch of a program loaded from outside: one sheaf, in context 0. -/
def loadedLaunch (id : Nat) : Launch :=
  { id := id, ctx := 0, tag := 0, state := 1, sheafCount := 1, residentOnce := [0], liveParts := 1, started := 1
    coresUsed := [0], slicesSize := 1024, entry := loadPc }

/-- Its sheaf, resident on core 0 with every lane at the program's start (R61/02). -/
def loadedSheaf (id launch slot now : Nat) : Sheaf :=
  { id := id, launch := launch, slot := slot, since := now, lanes := List.replicate 64 { pc := loadPc } }

/-- A program is loaded: its launch, its sheaf, its context on core 0, and the issue that fetches its first word. -/
def State.loadProgram (s : State) : State :=
  let l := s.nextId
  let slot := (s.freeSlots 0).headD 0
  let s : State := { s with
    trip := false
    nextId := s.nextId + 2
    launches := s.launches ++ [loadedLaunch l]
    sheaves := s.sheaves ++ [loadedSheaf (l + 1) l slot s.now]
    agenda := .issue ⟨l + 1, BitVec.allOnes 64, loadPc, 0, slot % 4, false, none, false⟩ :: s.agenda }
  if ((s.core 0).res? 0).isSome then s else s.modCore 0 fun c => { c with res := c.res ++ [{ ctx := 0 }] }

/-- A word is put where an issue fetches: the lane's window for a solo one, else the core's instruction cache. -/
def State.putFetch (s : State) (i : Issue) (w : Word) : State :=
  match s.sheaf? i.sheaf with
  | none => s
  | some h =>
    if i.solo then
      s.modSheaf i.sheaf fun h => h.modLane (lowestLane (h.stillAt i)) fun ln => { ln with winWords := putWord i.pc.toNat w ln.winWords }
    else
      (s.modSheaf i.sheaf fun h => { h with loopBuf := h.loopBuf.filter fun x => !(x.1 == i.pc.toNat) }).modCore h.core fun c =>
        { c with icache := putWord (icacheKey h.ctx i.pc) w c.icache }

/-- A word stands where the next step fetches. -/
def State.placeWord (s : State) (w : Word) : State :=
  match s.nextIssue with
  | some i => s.putFetch i w
  | none =>
    let t := s.loadProgram
    match t.agenda with
    | .issue i :: _ => t.putFetch i w
    | _ => t

end Sys2Proof.Machine
end

