-- ==== Sys2Proof/Machine/Step.lean ====
section
/-! DEFINITION. The step of the machine, and the word it fetches next. -/

namespace Sys2Proof.Machine

/-- One step (log 1): one move of the cycle in progress, or the beginning of the next cycle; with the clocks stopped, only
module reset (R390/19). -/
noncomputable def step (s : State) : Host.Outcome State Fault Refusal := if s.trip then s.whileTripped else s.advance

/-- `s` with a word of the opcode table where the next step fetches and runs it (log 7); bits above `nbits` are 0. -/
def State.withFetchWord (s : State) (nbits w : Nat) : State := s.placeWord (BitVec.ofNat 32 (w % 2 ^ nbits))

end Sys2Proof.Machine
end

