-- ==== Sys2Proof/Safety.lean ====
section
/-! DEFINITION. What statements about the machine are said in: an issue in progress, what an instruction leaves alone, where it moves its lanes, what it writes; and the canonical form of the host address space. -/

namespace Sys2Proof.Machine

/-! ### Canonical form -/

/-- The host address space is in its canonical form: addresses strictly rising, no entry equal to what an unlisted one reads as. -/
def State.memOk (s : State) : Prop := s.mem.wf = true

/-! ### An issue in progress -/

/-- An issue in progress of a sheaf the machine holds (R37/02). -/
def State.Issuing (s : State) (i : Issue) (h : Sheaf) : Prop := s.cur = some i ∧ s.sheaf? i.sheaf = some h

/-- Outside one sheaf nothing differs: memory, cores, teams, launches, jobs, queues, contexts, every other sheaf. -/
def SameBut (id : Nat) (s t : State) : Prop :=
  ({ t with sheaves := s.sheaves } : State) = s ∧ ∀ k, k ≠ id → t.sheaf? k = s.sheaf? k

/-- Every lane of the issue has moved past it, through its loop ends (R97/04, R280/13); the others are where they were. -/
def Moved (i : Issue) (h h' : Sheaf) : Prop :=
  h'.lanes.length = h.lanes.length ∧
    ∀ l, l < h.lanes.length → h'.lane l = if i.lanes.getLsbD l && decide (l < 64) then (h.lane l).pass i.pc i.solo else h.lane l

/-- A change of the active lanes, each by its own rule; the other lanes are as they were. -/
def LanesGo (i : Issue) (f : Nat → Lane → Lane) (h h' : Sheaf) : Prop :=
  h'.lanes.length = h.lanes.length ∧
    ∀ l, l < h.lanes.length → h'.lane l = if i.lanes.getLsbD l && decide (l < 64) then f l (h.lane l) else h.lane l

/-- Nothing of the sheaf differs but its lanes and WATCH skips. -/
def OnlyLanes (h h' : Sheaf) : Prop := ({ h' with lanes := h.lanes, watchSkip := h.watchSkip } : Sheaf) = h

/-- Nothing differs but what caches hold: L1 lines, cached translations, local copies of peer lines, and choices made. -/
def OnlyCaches (s t : State) : Prop :=
  ({ t with cores := s.cores, fields := s.fields, l2peer := s.l2peer, choices := s.choices } : State) = s ∧
    (∀ c, ({ t.core c with l1 := [], tlb := [] } : Core) = { s.core c with l1 := [], tlb := [] }) ∧
    ∀ n, ({ t.field n with tlb := [] } : FieldState) = { s.field n with tlb := [] }

/-- The instruction has completed in its sheaf: its lanes moved past it, and outside the sheaf nothing differs but what `out`
says. -/
def Completed (i : Issue) (out t : State) (h h' : Sheaf) : Prop :=
  t.sheaf? i.sheaf = some h' ∧ SameBut i.sheaf out t ∧ Moved i h h' ∧ h'.watchSkip = h.skipsLeft i.lanes i.pc

/-- A core's L1 holds no line of `.gl`, only lines of register backing regions, which an acquire spares (R130/05). -/
def Core.noGlLines (c : Core) : Prop := ∀ x ∈ c.l1, x.backing = true

/-! ### What an instruction writes in its sheaf -/

/-- A scalar register is written, and nothing else of the sheaf but its lanes' PCs. -/
def WritesScalar (d : Nat) (x : Dword) (h h' : Sheaf) : Prop :=
  h'.sget d = x ∧ (∀ n, n ≠ d → h'.sget n = h.sget n) ∧
    ({ h' with s := h.s, lanes := h.lanes, watchSkip := h.watchSkip } : Sheaf) = h

/-- The lanes of a list of virtual registers (from `d` through the window) hold new values in the active lanes: register k of
them holds `f l k` in lane l. No other register of any lane differs. -/
def VectorIs (i : Issue) (d n : Nat) (f : Nat → Nat → Word) (h h' : Sheaf) : Prop :=
  ∀ l r, l < 64 → h'.virt l r =
    if i.lanes.getLsbD l && decide (h.wb + d ≤ r) && decide (r < h.wb + d + n) then f l (r - (h.wb + d)) else h.virt l r

/-- A vector register of the active lanes is written, and nothing else of the sheaf but PCs and floating-point flags. -/
def WritesVector (i : Issue) (d : Nat) (f : Nat → Word) (fl : FpFlags) (h h' : Sheaf) : Prop :=
  VectorIs i d 1 (fun l _ => f l) h h' ∧ h'.flags = h.flags.or fl ∧ h'.raised = h.raised.or fl ∧
    ({ h' with v := h.v, lanes := h.lanes, watchSkip := h.watchSkip, flags := h.flags, raised := h.raised } : Sheaf) = h

/-- A pair of the active lanes is written, its low half first. -/
def WritesPair (i : Issue) (d : Nat) (f : Nat → Dword) (fl : FpFlags) (h h' : Sheaf) : Prop :=
  VectorIs i d 2 (fun l k => if k = 0 then (f l).extractLsb' 0 32 else (f l).extractLsb' 32 32) h h' ∧
    h'.flags = h.flags.or fl ∧ h'.raised = h.raised.or fl ∧
    ({ h' with v := h.v, lanes := h.lanes, watchSkip := h.watchSkip, flags := h.flags, raised := h.raised } : Sheaf) = h

/-- A predicate's bits of the active lanes are written, and nothing else of the sheaf but PCs and flags. -/
def WritesPred (i : Issue) (d : Nat) (f : Nat → Bool) (fl : FpFlags) (h h' : Sheaf) : Prop :=
  (∀ k l, l < 64 → (h'.pget k).getLsbD l = if k = d ∧ i.lanes.getLsbD l then f l else (h.pget k).getLsbD l) ∧
    h'.flags = h.flags.or fl ∧ h'.raised = h.raised.or fl ∧
    ({ h' with p := h.p, lanes := h.lanes, watchSkip := h.watchSkip, flags := h.flags, raised := h.raised } : Sheaf) = h

/-- A pending destination is added (R257/12), flags are raised, and nothing else of the sheaf changes but PCs. -/
def AddsPending (p : Pending) (fl : FpFlags) (h h' : Sheaf) : Prop :=
  h'.pend = h.pend ++ [p] ∧ h'.flags = h.flags.or fl ∧ h'.raised = h.raised.or fl ∧
    ({ h' with pend := h.pend, lanes := h.lanes, watchSkip := h.watchSkip, flags := h.flags, raised := h.raised } : Sheaf) = h

/-- What the active lanes raise together (R198/09). -/
def raisedBy (i : Issue) (f : Nat → Raised) : Raised := (lanesOf i.lanes).foldl (fun a l => a.or (f l)) {}

/-- The flags of a division: DZ when an active lane's divisor is 0 (R286/14). -/
def dzIf (i : Issue) (zero : Nat → Prop) [DecidablePred zero] : FpFlags := { dz := (lanesOf i.lanes).any fun l => decide (zero l) }

/-- Flags outside the enabled ones: no FPX follows (R198/09). -/
def Quiet (h : Sheaf) (r : Raised) : Prop := r.fl.bits &&& h.fpxen = 0

/-- The FPX trap that follows an instruction which has completed (R198/09): for the enabled flags that its lanes raised, in the lanes
that raised one. -/
def State.takesFpx (u : State) (i : Issue) (h : Sheaf) (f : Nat → Raised) : State :=
  u.takeTrap i.sheaf .fpx ((raisedBy i f).fl.bits &&& h.fpxen).toNat 0
    (maskOf ((lanesOf i.lanes).filter fun l => !((f l).fl.bits &&& h.fpxen == 0))) i.pc none

/-- The state after a saturation of the issuing sheaf, or the state itself (R195/09). -/
def State.satOut (s : State) (h : Sheaf) (r : Raised) : State := if r.sat then s.setSat h else s

end Sys2Proof.Machine
end

