-- ==== Sys2Proof/Certificates/Slice0/Obligations.lean ====
section
/-! DEFINITION. The statements about the machine: what every instruction and every event does, how traps are taken and left, the encodings, and the invariant of memory. -/

open Sys2Proof Sys2Proof.Machine

/-- R268/13: a scalar arithmetic instruction writes its result once, whatever the number of active lanes, and changes nothing else.
R270, R271, R272, R273/13: immediates, constants, scaled addresses and `vget` write their scalar once and change nothing else. -/
def Obligations.ScalarArithmetic : Prop :=
  (∀ (s : State) (i : Issue) (h : Sheaf) (d a b : Nat), s.Issuing i h →
      let A := s.readS h (lowestLane i.lanes) a
      let B := s.readS h (lowestLane i.lanes) b
      ∀ p ∈ ([(.sadd d a b, A + B), (.ssub d a b, A - B), (.smul d a b, A * B),
          (.smulhI64 d a b, BitVec.ofInt 64 (A.toInt * B.toInt / 2 ^ 64)),
          (.smulhN64 d a b, BitVec.ofNat 64 (A.toNat * B.toNat / 2 ^ 64)), (.sand d a b, A &&& B), (.sor d a b, A ||| B),
          (.sxor d a b, A ^^^ B), (.sshl d a b, A <<< (B.toNat % 64)), (.sshrN64 d a b, A >>> (B.toNat % 64)),
          (.sshrI64 d a b, A.sshiftRight (B.toNat % 64)), (.sminI64 d a b, if A.toInt < B.toInt then A else B),
          (.sminN64 d a b, if A.toNat < B.toNat then A else B), (.smaxI64 d a b, if A.toInt < B.toInt then B else A),
          (.smaxN64 d a b, if A.toNat < B.toNat then B else A), (.sseq d a b, if A = B then 1 else 0),
          (.ssne d a b, if A = B then 0 else 1), (.ssltI64 d a b, if A.toInt < B.toInt then 1 else 0),
          (.ssltN64 d a b, if A.toNat < B.toNat then 1 else 0), (.ssleI64 d a b, if A.toInt ≤ B.toInt then 1 else 0),
          (.ssleN64 d a b, if A.toNat ≤ B.toNat then 1 else 0), (.spopc d a, popc A), (.sclz d a, clzV A), (.sctz d a, ctzV A),
          (.sbrev d a, brevV A), (.smov d a, A)] : List (Instr × Dword)),
        ∃ t h', exec p.1 s = .next t ∧ Completed i s t h h' ∧ WritesScalar d p.2 h h') ∧
  (∀ w : Word, (w.extractLsb' 25 7 = 0 ∧ w.extractLsb' 0 4 = 15) ∨ (w.extractLsb' 25 7 = 1 ∧
        (w.extractLsb' 0 4 = 15 ∨ (10 ≤ (w.extractLsb' 0 4).toNat ∧ w.extractLsb' 4 7 ≠ 0))) →
      ∃ e, decode w = .error e) ∧
  (∀ (s : State) (i : Issue) (h : Sheaf) (d a b : Nat) (n : BitVec 11) (k : BitVec 6) (c : BitVec 18), s.Issuing i h →
      let A := s.readS h (lowestLane i.lanes) a
      let B := s.readS h (lowestLane i.lanes) b
      let I : Dword := n.signExtend 64
      ∀ p ∈ ([(.saddi d a n, A + I), (.sandi d a n, A &&& I), (.sori d a n, A ||| I), (.sxori d a n, A ^^^ I),
          (.smuli d a n, A * I), (.ssltiI64 d a n, if A.toInt < I.toInt then 1 else 0),
          (.ssltiN64 d a n, if A.toNat < I.toNat then 1 else 0), (.sshli d a k, A <<< k.toNat),
          (.sshriN64 d a k, A >>> k.toNat), (.sshriI64 d a k, A.sshiftRight k.toNat), (.li d c, c.signExtend 64),
          (.sli d c, (h.sget d <<< 18) ||| c.setWidth 64), (.addaX1 d a b, A + B * 1), (.addaX2 d a b, A + B * 2),
          (.addaX4 d a b, A + B * 4), (.addaX8 d a b, A + B * 8), (.addaX16 d a b, A + B * 16),
          (.vget d a b, (h.vget (B.toNat % 64) a).setWidth 64)] : List (Instr × Dword)),
        ∃ t h', exec p.1 s = .next t ∧ Completed i s t h h' ∧ WritesScalar d p.2 h h')

/-- R269/13: a scalar division writes its result once; a divisor of 0 gives all ones or the dividend and sets DZ, and no exception is taken.
R286/14: lane division and remainder; a zero divisor in an active lane sets DZ, its lane gets all ones or the dividend, and no exception is
taken. -/
def Obligations.Divisions : Prop :=
  (∀ (s : State) (i : Issue) (h : Sheaf) (d a b : Nat), s.Issuing i h →
      let A := s.readS h (lowestLane i.lanes) a
      let B := s.readS h (lowestLane i.lanes) b
      let g := if B = 0 then h.raise { dz := true } else h
      ∀ p ∈ ([(.sdivI64 d a b, if B = 0 then BitVec.allOnes 64 else BitVec.ofInt 64 (A.toInt.tdiv B.toInt)),
          (.sdivN64 d a b, if B = 0 then BitVec.allOnes 64 else BitVec.ofNat 64 (A.toNat / B.toNat)),
          (.sremI64 d a b, if B = 0 then A else BitVec.ofInt 64 (A.toInt.tmod B.toInt)),
          (.sremN64 d a b, if B = 0 then A else BitVec.ofNat 64 (A.toNat % B.toNat))] : List (Instr × Dword)),
        ∃ t h', exec p.1 s = .next t ∧ Completed i s t h h' ∧ WritesScalar d p.2 g h') ∧
  (∀ (s : State) (i : Issue) (h : Sheaf) (d a b : Nat), s.Issuing i h →
      (∀ p ∈ ([
          (.divI32Vv d a b, .divI32Vs d a b, fun x y => if y = 0 then BitVec.allOnes 32 else BitVec.ofInt 32 (x.toInt.tdiv y.toInt)),
          (.divN32Vv d a b, .divN32Vs d a b, fun x y => if y = 0 then BitVec.allOnes 32 else BitVec.ofNat 32 (x.toNat / y.toNat)),
          (.remI32Vv d a b, .remI32Vs d a b, fun x y => if y = 0 then x else BitVec.ofInt 32 (x.toInt.tmod y.toInt)),
          (.remN32Vv d a b, .remN32Vs d a b, fun x y => if y = 0 then x else BitVec.ofNat 32 (x.toNat % y.toNat))] : List (Instr × Instr × (Word → Word → Word))),
        (∃ t h', exec p.1 s = .next t ∧ Completed i s t h h' ∧
          WritesVector i d (fun l => p.2.2 (h.vget l a) (h.vget l b)) (dzIf i fun l => h.vget l b = 0) h h') ∧
        ∃ t h', exec p.2.1 s = .next t ∧ Completed i s t h h' ∧
          WritesVector i d (fun l => p.2.2 (h.vget l a) ((s.readS h l b).setWidth 32)) (dzIf i fun l => (s.readS h l b).setWidth 32 = 0) h h') ∧
      (∀ p ∈ ([
          (.divI64Vv d a b, .divI64Vs d a b, fun x y => if y = 0 then BitVec.allOnes 64 else BitVec.ofInt 64 (x.toInt.tdiv y.toInt)),
          (.divN64Vv d a b, .divN64Vs d a b, fun x y => if y = 0 then BitVec.allOnes 64 else BitVec.ofNat 64 (x.toNat / y.toNat)),
          (.remI64Vv d a b, .remI64Vs d a b, fun x y => if y = 0 then x else BitVec.ofInt 64 (x.toInt.tmod y.toInt)),
          (.remN64Vv d a b, .remN64Vs d a b, fun x y => if y = 0 then x else BitVec.ofNat 64 (x.toNat % y.toNat))] : List (Instr × Instr × (Dword → Dword → Dword))),
        (∃ t h', exec p.1 s = .next t ∧ Completed i s t h h' ∧
          WritesPair i d (fun l => p.2.2 (h.vget64 l a) (h.vget64 l b)) (dzIf i fun l => h.vget64 l b = 0) h h') ∧
        ∃ t h', exec p.2.1 s = .next t ∧ Completed i s t h h' ∧
          WritesPair i d (fun l => p.2.2 (h.vget64 l a) (s.readS h l b)) (dzIf i fun l => s.readS h l b = 0) h h')) ∧
  (∀ w : Word, (w.extractLsb' 25 7 = 0x2C ∨ w.extractLsb' 25 7 = 0x2D) ∧ 8 ≤ (w.extractLsb' 0 4).toNat →
      ∃ e, decode w = .error e)

/-- R285/14: integer arithmetic on 32-bit lanes, with a vector or a scalar as operand b, writes d in the active lanes and changes nothing else.
R285/14: integer arithmetic on 64-bit lanes, with a vector or a scalar as operand b, writes d in the active lanes and changes nothing else. -/
def Obligations.LaneArithmetic : Prop :=
  (∀ (s : State) (i : Issue) (h : Sheaf) (d a b : Nat), s.Issuing i h →
      ∀ p ∈ ([(.addI32Vv d a b, .addI32Vs d a b, fun x y => x + y), (.subI32Vv d a b, .subI32Vs d a b, fun x y => x - y),
          (.mulI32Vv d a b, .mulI32Vs d a b, fun x y => x * y),
          (.mulhI32Vv d a b, .mulhI32Vs d a b, fun x y => BitVec.ofInt 32 (x.toInt * y.toInt / 2 ^ 32)),
          (.mulhN32Vv d a b, .mulhN32Vs d a b, fun x y => BitVec.ofNat 32 (x.toNat * y.toNat / 2 ^ 32)),
          (.minI32Vv d a b, .minI32Vs d a b, fun x y => if x.toInt < y.toInt then x else y),
          (.minN32Vv d a b, .minN32Vs d a b, fun x y => if x.toNat < y.toNat then x else y),
          (.maxI32Vv d a b, .maxI32Vs d a b, fun x y => if x.toInt < y.toInt then y else x),
          (.maxN32Vv d a b, .maxN32Vs d a b, fun x y => if x.toNat < y.toNat then y else x),
          (.andB32Vv d a b, .andB32Vs d a b, fun x y => x &&& y), (.orB32Vv d a b, .orB32Vs d a b, fun x y => x ||| y),
          (.xorB32Vv d a b, .xorB32Vs d a b, fun x y => x ^^^ y),
          (.shlB32Vv d a b, .shlB32Vs d a b, fun x y => x <<< (y.toNat % 32)),
          (.shrN32Vv d a b, .shrN32Vs d a b, fun x y => x >>> (y.toNat % 32)),
          (.shrI32Vv d a b, .shrI32Vs d a b, fun x y => x.sshiftRight (y.toNat % 32)),
          (.addsI32Vv d a b, .addsI32Vs d a b, fun x y => BitVec.ofInt 32 (max (-2 ^ 31) (min (2 ^ 31 - 1) (x.toInt + y.toInt))))] : List (Instr × Instr × (Word → Word → Word))),
        (∃ t h', exec p.1 s = .next t ∧ Completed i s t h h' ∧ WritesVector i d (fun l => p.2.2 (h.vget l a) (h.vget l b)) {} h h') ∧
        ∃ t h', exec p.2.1 s = .next t ∧ Completed i s t h h' ∧ WritesVector i d (fun l => p.2.2 (h.vget l a) ((s.readS h l b).setWidth 32)) {} h h') ∧
  (∀ (s : State) (i : Issue) (h : Sheaf) (d a b : Nat), s.Issuing i h →
      ∀ p ∈ ([(.addI64Vv d a b, .addI64Vs d a b, fun x y => x + y), (.subI64Vv d a b, .subI64Vs d a b, fun x y => x - y),
          (.mulI64Vv d a b, .mulI64Vs d a b, fun x y => x * y),
          (.mulhI64Vv d a b, .mulhI64Vs d a b, fun x y => BitVec.ofInt 64 (x.toInt * y.toInt / 2 ^ 64)),
          (.mulhN64Vv d a b, .mulhN64Vs d a b, fun x y => BitVec.ofNat 64 (x.toNat * y.toNat / 2 ^ 64)),
          (.minI64Vv d a b, .minI64Vs d a b, fun x y => if x.toInt < y.toInt then x else y),
          (.minN64Vv d a b, .minN64Vs d a b, fun x y => if x.toNat < y.toNat then x else y),
          (.maxI64Vv d a b, .maxI64Vs d a b, fun x y => if x.toInt < y.toInt then y else x),
          (.maxN64Vv d a b, .maxN64Vs d a b, fun x y => if x.toNat < y.toNat then y else x),
          (.andB64Vv d a b, .andB64Vs d a b, fun x y => x &&& y), (.orB64Vv d a b, .orB64Vs d a b, fun x y => x ||| y),
          (.xorB64Vv d a b, .xorB64Vs d a b, fun x y => x ^^^ y),
          (.shlB64Vv d a b, .shlB64Vs d a b, fun x y => x <<< (y.toNat % 64)),
          (.shrN64Vv d a b, .shrN64Vs d a b, fun x y => x >>> (y.toNat % 64)),
          (.shrI64Vv d a b, .shrI64Vs d a b, fun x y => x.sshiftRight (y.toNat % 64)),
          (.addsI64Vv d a b, .addsI64Vs d a b, fun x y => BitVec.ofInt 64 (max (-2 ^ 63) (min (2 ^ 63 - 1) (x.toInt + y.toInt))))] : List (Instr × Instr × (Dword → Dword → Dword))),
        (∃ t h', exec p.1 s = .next t ∧ Completed i s t h h' ∧ WritesPair i d (fun l => p.2.2 (h.vget64 l a) (h.vget64 l b)) {} h h') ∧
        ∃ t h', exec p.2.1 s = .next t ∧ Completed i s t h h' ∧ WritesPair i d (fun l => p.2.2 (h.vget64 l a) (s.readS h l b)) {} h h') ∧
  (∀ w : Word, (w.extractLsb' 25 7 = 0x22 ∧ (w.getLsbD 18 ∨ w.getLsbD 11 ∨ w.getLsbD 4)) ∨
        (w.extractLsb' 25 7 = 0x23 ∧ (w.getLsbD 18 ∨ w.getLsbD 11)) →
      ∃ e, decode w = .error e)

/-- R287/14: the unary integer instructions write d in the active lanes and change nothing else.
R268/13, R287/14: what the bit counts count, and what a bit reversal reverses, at both widths. -/
def Obligations.LaneUnary : Prop :=
  (∀ (s : State) (i : Issue) (h : Sheaf) (d a : Nat), s.Issuing i h →
      (∀ p ∈ ([(.popcB32 d a, popc), (.clzB32 d a, clzV), (.ctzB32 d a, ctzV), (.brevB32 d a, brevV), (.notB32 d a, fun x => ~~~x),
          (.negI32 d a, fun x => -x), (.absI32 d a, fun x => if x.toInt < 0 then -x else x)] : List (Instr × (Word → Word))),
        ∃ t h', exec p.1 s = .next t ∧ Completed i s t h h' ∧ WritesVector i d (fun l => p.2 (h.vget l a)) {} h h') ∧
      ∀ p ∈ ([(.popcB64 d a, popc), (.clzB64 d a, clzV), (.ctzB64 d a, ctzV), (.brevB64 d a, brevV), (.notB64 d a, fun x => ~~~x),
          (.negI64 d a, fun x => -x), (.absI64 d a, fun x => if x.toInt < 0 then -x else x)] : List (Instr × (Dword → Dword))),
        ∃ t h', exec p.1 s = .next t ∧ Completed i s t h h' ∧ WritesPair i d (fun l => p.2 (h.vget64 l a)) {} h h') ∧
  (∀ (w : Nat) (x : BitVec w), w = 32 ∨ w = 64 →
      (popc x).toNat = ((List.range w).filter fun k => x.getLsbD k).length ∧
      (∀ n, (clzV x).toNat = n ↔ n ≤ w ∧ (∀ k, w - n ≤ k → k < w → x.getLsbD k = false) ∧ (n < w → x.getLsbD (w - 1 - n) = true)) ∧
      (∀ n, (ctzV x).toNat = n ↔ n ≤ w ∧ (∀ k, k < n → x.getLsbD k = false) ∧ (n < w → x.getLsbD n = true)) ∧
      ∀ k, k < w → (brevV x).getLsbD k = x.getLsbD (w - 1 - k)) ∧
  (∀ w : Word, w.extractLsb' 25 7 = 0x36 ∧ (w.extractLsb' 0 4 = 7 ∨ w.extractLsb' 0 4 = 15 ∨ w.extractLsb' 4 7 ≠ 0) →
      ∃ e, decode w = .error e)

/-- R271, R272, R273/13: constants, addresses, moves and broadcasts into lanes; `vput` writes the lane it names when that lane is active. That
the lane number of `vput` is read at the lowest active lane is the model's choice (log 97). -/
def Obligations.VectorMoves : Prop :=
  ∀ (s : State) (i : Issue) (h : Sheaf) (d a b : Nat) (c : BitVec 18), s.Issuing i h →
    let k := (s.readS h (lowestLane i.lanes) b).toNat % 64
    (∀ p ∈ ([(.vli d c, fun _ => c.signExtend 32), (.vmov d a, fun l => h.vget l a),
        (.vbcast d a, fun l => (s.readS h l a).setWidth 32)] : List (Instr × (Nat → Word))),
      ∃ t h', exec p.1 s = .next t ∧ Completed i s t h h' ∧ WritesVector i d p.2 {} h h') ∧
    (∀ p ∈ ([(.addaV d a b, fun l => s.readS h l a + (h.vget l b).setWidth 64), (.vbcast64 d a, fun l => s.readS h l a)] :
        List (Instr × (Nat → Dword))),
      ∃ t h', exec p.1 s = .next t ∧ Completed i s t h h' ∧ WritesPair i d p.2 {} h h') ∧
    ∃ t h', exec (.vput d a b) s = .next t ∧ Completed i s t h h' ∧
      (∀ l r, l < 64 → h'.virt l r =
        if l = k ∧ i.lanes.getLsbD l ∧ r = h.wb + d then (s.readS h k a).setWidth 32 else h.virt l r) ∧
      ({ h' with v := h.v, lanes := h.lanes, watchSkip := h.watchSkip } : Sheaf) = h

/-- R288/14, R198/09: a binary or fused form on 16- and 32-bit formats writes its correctly rounded result in the active lanes, raises its
flags, saturates SAT, and changes nothing else, when no enabled flag is raised.
R288/14, R198/09: the same forms on f64 pairs. That `copysign` of a NaN sign operand gives the canonical NaN is the model's reading (log
39). -/
def Obligations.FloatBinary : Prop :=
  (∀ (s : State) (i : Issue) (h : Sheaf) (d a b : Nat), s.Issuing i h →
      ∀ p ∈ ([(.addF16Vv d a b, .addF16Vs d a b, .f16, .add), (.subF16Vv d a b, .subF16Vs d a b, .f16, .sub),
          (.mulF16Vv d a b, .mulF16Vs d a b, .f16, .mul), (.divF16Vv d a b, .divF16Vs d a b, .f16, .div),
          (.minF16Vv d a b, .minF16Vs d a b, .f16, .min), (.maxF16Vv d a b, .maxF16Vs d a b, .f16, .max),
          (.fmaF16Vv d a b, .fmaF16Vs d a b, .f16, .fma), (.fmsF16Vv d a b, .fmsF16Vs d a b, .f16, .fms),
          (.fnmaF16Vv d a b, .fnmaF16Vs d a b, .f16, .fnma), (.copysignF16Vv d a b, .copysignF16Vs d a b, .f16, .copysign),
          (.addF32Vv d a b, .addF32Vs d a b, .f32, .add), (.subF32Vv d a b, .subF32Vs d a b, .f32, .sub),
          (.mulF32Vv d a b, .mulF32Vs d a b, .f32, .mul), (.divF32Vv d a b, .divF32Vs d a b, .f32, .div),
          (.minF32Vv d a b, .minF32Vs d a b, .f32, .min), (.maxF32Vv d a b, .maxF32Vs d a b, .f32, .max),
          (.fmaF32Vv d a b, .fmaF32Vs d a b, .f32, .fma), (.fmsF32Vv d a b, .fmsF32Vs d a b, .f32, .fms),
          (.fnmaF32Vv d a b, .fnmaF32Vs d a b, .f32, .fnma), (.copysignF32Vv d a b, .copysignF32Vs d a b, .f32, .copysign),
          (.addBf16Vv d a b, .addBf16Vs d a b, .bf16, .add), (.subBf16Vv d a b, .subBf16Vs d a b, .bf16, .sub),
          (.mulBf16Vv d a b, .mulBf16Vs d a b, .bf16, .mul), (.divBf16Vv d a b, .divBf16Vs d a b, .bf16, .div),
          (.minBf16Vv d a b, .minBf16Vs d a b, .bf16, .min), (.maxBf16Vv d a b, .maxBf16Vs d a b, .bf16, .max),
          (.fmaBf16Vv d a b, .fmaBf16Vs d a b, .bf16, .fma), (.fmsBf16Vv d a b, .fmsBf16Vs d a b, .bf16, .fms),
          (.fnmaBf16Vv d a b, .fnmaBf16Vs d a b, .bf16, .fnma), (.copysignBf16Vv d a b, .copysignBf16Vs d a b, .bf16, .copysign)] : List (Instr × Instr × Fmt × FOp)),
        ∀ q ∈ ([(p.1, fun l => h.vget l b), (p.2.1, fun l => (s.readS h l b).setWidth 32)] : List (Instr × (Nat → Word))),
          let R := fun l => fop p.2.2.1 p.2.2.2 h.mode h.ftz (p.2.2.1.code (h.vget l a).toNat) (p.2.2.1.code (q.2 l).toNat)
            (p.2.2.1.code (h.vget l d).toNat)
          let r := raisedBy i fun l => (R l).r
          Quiet h r → ∃ t h', exec q.1 s = .next t ∧ Completed i (s.satOut h r) t h h' ∧
            WritesVector i d (fun l => BitVec.ofNat 32 (R l).bits) r.fl h h') ∧
  (∀ (s : State) (i : Issue) (h : Sheaf) (d a b : Nat), s.Issuing i h →
      ∀ p ∈ ([(.addF64Vv d a b, .addF64Vs d a b, .add), (.subF64Vv d a b, .subF64Vs d a b, .sub),
          (.mulF64Vv d a b, .mulF64Vs d a b, .mul), (.divF64Vv d a b, .divF64Vs d a b, .div),
          (.minF64Vv d a b, .minF64Vs d a b, .min), (.maxF64Vv d a b, .maxF64Vs d a b, .max),
          (.fmaF64Vv d a b, .fmaF64Vs d a b, .fma), (.fmsF64Vv d a b, .fmsF64Vs d a b, .fms),
          (.fnmaF64Vv d a b, .fnmaF64Vs d a b, .fnma), (.copysignF64Vv d a b, .copysignF64Vs d a b, .copysign)] : List (Instr × Instr × FOp)),
        ∀ q ∈ ([(p.1, fun l => h.vget64 l b), (p.2.1, fun l => s.readS h l b)] : List (Instr × (Nat → Dword))),
          let R := fun l => fop .f64 p.2.2 h.mode h.ftz (h.vget64 l a).toNat (q.2 l).toNat (h.vget64 l d).toNat
          let r := raisedBy i fun l => (R l).r
          Quiet h r → ∃ t h', exec q.1 s = .next t ∧ Completed i (s.satOut h r) t h h' ∧
            WritesPair i d (fun l => BitVec.ofNat 64 (R l).bits) r.fl h h')

/-- R198/09, R226, R231/11, R288, R290, R291, R292, R295, R297 to R299, R303/14: where a lane raises an enabled flag, every floating-point form,
binary, fused, unary, comparison, conversion, block format, transcendental, reduction or scan, on registers or pairs, with a vector or a
scalar as operand b (of the unary forms only `rint` can raise a flag, R290), completes first, its result written, a pending one at once;
then FPX is taken for the raised enabled flags, in the lanes that raised one. That a pending result is written at once where its flag is
enabled, and the flags raised at the issue, is the model's reading (log 14). -/
def Obligations.FloatExceptionTaken : Prop :=
  (∀ (s : State) (i : Issue) (h : Sheaf) (d a b : Nat), s.Issuing i h →
      ∀ p ∈ ([(.addF16Vv d a b, .addF16Vs d a b, .f16, .add), (.subF16Vv d a b, .subF16Vs d a b, .f16, .sub),
          (.mulF16Vv d a b, .mulF16Vs d a b, .f16, .mul), (.divF16Vv d a b, .divF16Vs d a b, .f16, .div),
          (.minF16Vv d a b, .minF16Vs d a b, .f16, .min), (.maxF16Vv d a b, .maxF16Vs d a b, .f16, .max),
          (.fmaF16Vv d a b, .fmaF16Vs d a b, .f16, .fma), (.fmsF16Vv d a b, .fmsF16Vs d a b, .f16, .fms),
          (.fnmaF16Vv d a b, .fnmaF16Vs d a b, .f16, .fnma), (.copysignF16Vv d a b, .copysignF16Vs d a b, .f16, .copysign),
          (.addF32Vv d a b, .addF32Vs d a b, .f32, .add), (.subF32Vv d a b, .subF32Vs d a b, .f32, .sub),
          (.mulF32Vv d a b, .mulF32Vs d a b, .f32, .mul), (.divF32Vv d a b, .divF32Vs d a b, .f32, .div),
          (.minF32Vv d a b, .minF32Vs d a b, .f32, .min), (.maxF32Vv d a b, .maxF32Vs d a b, .f32, .max),
          (.fmaF32Vv d a b, .fmaF32Vs d a b, .f32, .fma), (.fmsF32Vv d a b, .fmsF32Vs d a b, .f32, .fms),
          (.fnmaF32Vv d a b, .fnmaF32Vs d a b, .f32, .fnma), (.copysignF32Vv d a b, .copysignF32Vs d a b, .f32, .copysign),
          (.addBf16Vv d a b, .addBf16Vs d a b, .bf16, .add), (.subBf16Vv d a b, .subBf16Vs d a b, .bf16, .sub),
          (.mulBf16Vv d a b, .mulBf16Vs d a b, .bf16, .mul), (.divBf16Vv d a b, .divBf16Vs d a b, .bf16, .div),
          (.minBf16Vv d a b, .minBf16Vs d a b, .bf16, .min), (.maxBf16Vv d a b, .maxBf16Vs d a b, .bf16, .max),
          (.fmaBf16Vv d a b, .fmaBf16Vs d a b, .bf16, .fma), (.fmsBf16Vv d a b, .fmsBf16Vs d a b, .bf16, .fms),
          (.fnmaBf16Vv d a b, .fnmaBf16Vs d a b, .bf16, .fnma), (.copysignBf16Vv d a b, .copysignBf16Vs d a b, .bf16, .copysign)] : List (Instr × Instr × Fmt × FOp)),
        ∀ q ∈ ([(p.1, fun l => h.vget l b), (p.2.1, fun l => (s.readS h l b).setWidth 32)] : List (Instr × (Nat → Word))),
          let R := fun l => fop p.2.2.1 p.2.2.2 h.mode h.ftz (p.2.2.1.code (h.vget l a).toNat) (p.2.2.1.code (q.2 l).toNat)
            (p.2.2.1.code (h.vget l d).toNat)
          let f : Nat → Raised := fun l => (R l).r; let r := raisedBy i f
          ¬ Quiet h r → ∃ u h', exec q.1 s = .next (u.takesFpx i h f) ∧ Completed i (s.satOut h r) u h h' ∧
            WritesVector i d (fun l => BitVec.ofNat 32 (R l).bits) r.fl h h') ∧
  (∀ (s : State) (i : Issue) (h : Sheaf) (d a b : Nat), s.Issuing i h →
      ∀ p ∈ ([(.addF64Vv d a b, .addF64Vs d a b, .add), (.subF64Vv d a b, .subF64Vs d a b, .sub),
          (.mulF64Vv d a b, .mulF64Vs d a b, .mul), (.divF64Vv d a b, .divF64Vs d a b, .div),
          (.minF64Vv d a b, .minF64Vs d a b, .min), (.maxF64Vv d a b, .maxF64Vs d a b, .max),
          (.fmaF64Vv d a b, .fmaF64Vs d a b, .fma), (.fmsF64Vv d a b, .fmsF64Vs d a b, .fms),
          (.fnmaF64Vv d a b, .fnmaF64Vs d a b, .fnma), (.copysignF64Vv d a b, .copysignF64Vs d a b, .copysign)] : List (Instr × Instr × FOp)),
        ∀ q ∈ ([(p.1, fun l => h.vget64 l b), (p.2.1, fun l => s.readS h l b)] : List (Instr × (Nat → Dword))),
          let R := fun l => fop .f64 p.2.2 h.mode h.ftz (h.vget64 l a).toNat (q.2 l).toNat (h.vget64 l d).toNat
          let f : Nat → Raised := fun l => (R l).r; let r := raisedBy i f
          ¬ Quiet h r → ∃ u h', exec q.1 s = .next (u.takesFpx i h f) ∧ Completed i (s.satOut h r) u h h' ∧
            WritesPair i d (fun l => BitVec.ofNat 64 (R l).bits) r.fl h h') ∧
  (∀ (s : State) (i : Issue) (h : Sheaf) (d a : Nat), s.Issuing i h →
      ∀ p ∈ ([(.rintF32 d a, .f32, .rint)] : List (Instr × Fmt × FUn)),
        let R := fun l => fun1 p.2.1 p.2.2 h.mode h.ftz (p.2.1.code (h.vget l a).toNat)
        let f : Nat → Raised := fun l => (R l).r; let r := raisedBy i f
        ¬ Quiet h r → ∃ u h', exec p.1 s = .next (u.takesFpx i h f) ∧ Completed i (s.satOut h r) u h h' ∧
          WritesVector i d (fun l => BitVec.ofNat 32 (R l).bits) r.fl h h') ∧
  (∀ (s : State) (i : Issue) (h : Sheaf) (d a b : Nat), s.Issuing i h →
      (∀ p ∈ ([(.ceqF32Vv d a b, .ceqF32Vs d a b, .f32, .eq), (.cltF32Vv d a b, .cltF32Vs d a b, .f32, .lt),
          (.cleF32Vv d a b, .cleF32Vs d a b, .f32, .le), (.cunF32Vv d a b, .cunF32Vs d a b, .f32, .un),
          (.ceqF16Vv d a b, .ceqF16Vs d a b, .f16, .eq), (.cltF16Vv d a b, .cltF16Vs d a b, .f16, .lt),
          (.cleF16Vv d a b, .cleF16Vs d a b, .f16, .le), (.cunF16Vv d a b, .cunF16Vs d a b, .f16, .un),
          (.ceqBf16Vv d a b, .ceqBf16Vs d a b, .bf16, .eq), (.cltBf16Vv d a b, .cltBf16Vs d a b, .bf16, .lt),
          (.cleBf16Vv d a b, .cleBf16Vs d a b, .bf16, .le)] : List (Instr × Instr × Fmt × FRel)),
        ∀ q ∈ ([(p.1, fun l => h.vget l b), (p.2.1, fun l => (s.readS h l b).setWidth 32)] : List (Instr × (Nat → Word))),
          let R := fun l => fcmp p.2.2.1 p.2.2.2 h.ftz (p.2.2.1.code (h.vget l a).toNat) (p.2.2.1.code (q.2 l).toNat)
          let f : Nat → Raised := fun l => (R l).2; let r := raisedBy i f
          ¬ Quiet h r → ∃ u h', exec q.1 s = .next (u.takesFpx i h f) ∧ Completed i (s.satOut h r) u h h' ∧ WritesPred i d (fun l => (R l).1) r.fl h h') ∧
      ∀ p ∈ ([(.ceqF64Vv d a b, .ceqF64Vs d a b, .eq), (.cltF64Vv d a b, .cltF64Vs d a b, .lt),
          (.cleF64Vv d a b, .cleF64Vs d a b, .le), (.cunF64Vv d a b, .cunF64Vs d a b, .un)] : List (Instr × Instr × FRel)),
        ∀ q ∈ ([(p.1, fun l => h.vget64 l b), (p.2.1, fun l => s.readS h l b)] : List (Instr × (Nat → Dword))),
          let R := fun l => fcmp .f64 p.2.2 h.ftz (h.vget64 l a).toNat (q.2 l).toNat
          let f : Nat → Raised := fun l => (R l).2; let r := raisedBy i f
          ¬ Quiet h r → ∃ u h', exec q.1 s = .next (u.takesFpx i h f) ∧ Completed i (s.satOut h r) u h h' ∧ WritesPred i d (fun l => (R l).1) r.fl h h') ∧
  (∀ (s : State) (i : Issue) (h : Sheaf) (d a : Nat) (x y : ElemType) (m : Rounding), s.Issuing i h →
      let R := fun l => cvtVal x y (roundMode m h.mode) h.ftz (if wideElem x then h.vget64 l a else (h.vget l a).setWidth 64)
      let f : Nat → Raised := fun l => (R l).2; let r := raisedBy i f
      ¬ Quiet h r → ∃ u h', exec (.cvt d a x m y) s = .next (u.takesFpx i h f) ∧ Completed i (s.satOut h r) u h h' ∧
        if wideElem y then WritesPair i d (fun l => (R l).1) r.fl h h' else WritesVector i d (fun l => (R l).1.setWidth 32) r.fl h h') ∧
  (∀ (s : State) (i : Issue) (h : Sheaf) (d a b : Nat), s.Issuing i h →
      (let R := fun l => pkLane h.mode (h.vget l a) (h.vget l b)
       let f : Nat → Raised := fun l => (R l).r; let r := raisedBy i f
       ¬ Quiet h r → ∃ u h', exec (.pkE2m1 d a b) s = .next (u.takesFpx i h f) ∧ Completed i (s.satOut h r) u h h' ∧
        WritesVector i d (fun l => pkWord ((lanesOf i.lanes).map fun k => (k, R k)) (l / 8)) r.fl h h') ∧
      ∀ p ∈ ([(.upkE2m1 d a b, fun l => upkLane h.mode l (h.vget l a) (h.vget l b)),
          (.scaccF32 d a b, fun l => scaccLane h.mode h.ftz (h.vget l d) (h.vget l a) (h.vget l b))] : List (Instr × (Nat → FRes))),
        let f : Nat → Raised := fun l => (p.2 l).r; let r := raisedBy i f
        ¬ Quiet h r → ∃ u h', exec p.1 s = .next (u.takesFpx i h f) ∧ Completed i (s.satOut h r) u h h' ∧
          WritesVector i d (fun l => BitVec.ofNat 32 (p.2 l).bits) r.fl h h') ∧
  (∀ (s : State) (i : Issue) (h : Sheaf) (d a : Nat), s.Issuing i h →
      (∀ p ∈ ([(.lredAddF32 d a, .addF32), (.lredMaxF32 d a, .maxF32), (.lredMinF32 d a, .minF32), (.lredAddI32 d a, .addI32),
          (.lredMaxI32 d a, .maxI32), (.lredMinI32 d a, .minI32), (.lredMaxN32 d a, .maxN32), (.lredMinN32 d a, .minN32),
          (.lredAddF16 d a, .addF16), (.lredMaxF16 d a, .maxF16), (.lredMinF16 d a, .minF16), (.lredAddBf16 d a, .addBf16),
          (.lredAndB32 d a, .andB32), (.lredOrB32 d a, .orB32), (.lredXorB32 d a, .xorB32)] : List (Instr × RedOp)),
        let xs := (List.range 64).map fun l => if i.lanes.getLsbD l then p.2.trim (h.vget l a) else p.2.ident
        let y := redSteps (lredStep p.2) [32, 16, 8, 4, 2, 1] xs
        let f : Nat → Raised := fun _ => y.2; let r := raisedBy i f
        ¬ Quiet h r → ∃ u h', exec p.1 s = .next (u.takesFpx i h f) ∧ Completed i (s.satOut h r) u h h' ∧
          WritesVector i d (fun l => y.1.getD l 0) r.fl h h') ∧
      ∀ p ∈ ([(.scanAddF32 d a, .scanxAddF32 d a, .addF32), (.scanMaxF32 d a, .scanxMaxF32 d a, .maxF32),
          (.scanMinF32 d a, .scanxMinF32 d a, .minF32), (.scanAddI32 d a, .scanxAddI32 d a, .addI32),
          (.scanMaxI32 d a, .scanxMaxI32 d a, .maxI32), (.scanMinI32 d a, .scanxMinI32 d a, .minI32),
          (.scanMaxN32 d a, .scanxMaxN32 d a, .maxN32), (.scanMinN32 d a, .scanxMinN32 d a, .minN32)] : List (Instr × Instr × RedOp)),
        let xs := (List.range 64).map fun l => if i.lanes.getLsbD l then p.2.2.trim (h.vget l a) else p.2.2.ident
        let y := redSteps (scanStep p.2.2) [1, 2, 4, 8, 16, 32] xs
        let f : Nat → Raised := fun _ => y.2; let r := raisedBy i f
        ¬ Quiet h r →
          (∃ u h', exec p.1 s = .next (u.takesFpx i h f) ∧ Completed i (s.satOut h r) u h h' ∧ WritesVector i d (fun l => p.2.2.canon (y.1.getD l 0)) r.fl h h') ∧
          ∃ u h', exec p.2.1 s = .next (u.takesFpx i h f) ∧ Completed i (s.satOut h r) u h h' ∧
            WritesVector i d (fun l => if l = 0 then p.2.2.ident else p.2.2.canon (y.1.getD (l - 1) 0)) r.fl h h') ∧
  (∀ (s : State) (i : Issue) (h : Sheaf) (d a n : Nat), s.Issuing i h →
      ∀ p ∈ ([(.rcpF32V d a n, .rcpF32S d a n, .rcp), (.rsqrtF32V d a n, .rsqrtF32S d a n, .rsqrt),
          (.sqrtF32V d a n, .sqrtF32S d a n, .sqrt), (.exp2F32V d a n, .exp2F32S d a n, .exp2),
          (.log2F32V d a n, .log2F32S d a n, .log2), (.sinF32V d a n, .sinF32S d a n, .sin),
          (.cosF32V d a n, .cosF32S d a n, .cos), (.tanhF32V d a n, .tanhF32S d a n, .tanh)] : List (Instr × Instr × Trans)),
        ∀ q ∈ ([(p.1, fun l => h.vget l a), (p.2.1, fun _ => (s.readS h (lowestLane i.lanes) a).setWidth 32)] : List (Instr × (Nat → Word))),
          let R := fun l => trans p.2.2 h.mode h.ftz (q.2 l).toNat
          let f : Nat → Raised := fun l => (R l).r; let r := raisedBy i f
          ¬ Quiet h r → ∃ u h', exec q.1 s = .next (u.takesFpx i h f) ∧ Completed i (s.satOut h r) u h h' ∧
            WritesVector i d (fun l => BitVec.ofNat 32 (R l).bits) r.fl h h') ∧
  (∀ (s : State) (i : Issue) (h : Sheaf) (d a n : Nat), s.Issuing i h →
      ∀ p ∈ ([(.tredAddF32 d a n, .addF32), (.tredMaxF32 d a n, .maxF32), (.tredMinF32 d a n, .minF32),
          (.tredAddI32 d a n, .addI32), (.tredMaxI32 d a n, .maxI32), (.tredMinI32 d a n, .minI32),
          (.tredMaxN32 d a n, .maxN32), (.tredMinN32 d a n, .minN32), (.tredAddF16 d a n, .addF16),
          (.tredMaxF16 d a n, .maxF16), (.tredMinF16 d a n, .minF16), (.tredAddBf16 d a n, .addBf16),
          (.tredAndB32 d a n, .andB32), (.tredOrB32 d a n, .orB32), (.tredXorB32 d a n, .xorB32)] : List (Instr × RedOp)),
        let xs := (List.range 64).map fun l => if i.lanes.getLsbD l then p.2.trim (h.vget l a) else p.2.ident
        let y := treeRoot p.2 6 xs
        let f : Nat → Raised := fun _ => y.2; let r := raisedBy i f
        ¬ Quiet h r → ∃ u h', exec p.1 s = .next (u.takesFpx i h f) ∧ Completed i (s.satOut h r) u h h' ∧ h'.sget d = p.2.widen y.1 ∧
          (∀ k, k ≠ d → h'.sget k = h.sget k) ∧ h'.flags = h.flags.or r.fl ∧ h'.raised = h.raised.or r.fl ∧
          ({ h' with s := h.s, lanes := h.lanes, watchSkip := h.watchSkip, flags := h.flags, raised := h.raised } : Sheaf) = h)

/-- R290/14: the unary floating-point forms, at every width. -/
def Obligations.FloatUnary : Prop :=
  ∀ (s : State) (i : Issue) (h : Sheaf) (d a : Nat), s.Issuing i h →
    (∀ p ∈ ([(.absF32 d a, .f32, .abs), (.negF32 d a, .f32, .neg), (.rintF32 d a, .f32, .rint), (.floorF32 d a, .f32, .floor),
        (.ceilF32 d a, .f32, .ceil), (.truncF32 d a, .f32, .trunc), (.absF16 d a, .f16, .abs), (.negF16 d a, .f16, .neg),
        (.absBf16 d a, .bf16, .abs), (.negBf16 d a, .bf16, .neg)] : List (Instr × Fmt × FUn)),
      let R := fun l => fun1 p.2.1 p.2.2 h.mode h.ftz (p.2.1.code (h.vget l a).toNat)
      let r := raisedBy i fun l => (R l).r
      Quiet h r → ∃ t h', exec p.1 s = .next t ∧ Completed i (s.satOut h r) t h h' ∧
        WritesVector i d (fun l => BitVec.ofNat 32 (R l).bits) r.fl h h') ∧
    ∀ p ∈ ([(.absF64 d a, .abs), (.negF64 d a, .neg)] : List (Instr × FUn)),
      let R := fun l => fun1 .f64 p.2 h.mode h.ftz (h.vget64 l a).toNat
      let r := raisedBy i fun l => (R l).r
      Quiet h r → ∃ t h', exec p.1 s = .next t ∧ Completed i (s.satOut h r) t h h' ∧
        WritesPair i d (fun l => BitVec.ofNat 64 (R l).bits) r.fl h h'

/-- R257/12, R291/14: a transcendental leaves its result pending in the active lanes, opens windows of its L, raises its flags and moves on.
That the flags are raised at the issue is the model's reading (log 14). -/
def Obligations.Transcendentals : Prop :=
  ∀ (s : State) (i : Issue) (h : Sheaf) (d a n : Nat), s.Issuing i h →
    ∀ p ∈ ([(.rcpF32V d a n, .rcpF32S d a n, .rcp), (.rsqrtF32V d a n, .rsqrtF32S d a n, .rsqrt),
        (.sqrtF32V d a n, .sqrtF32S d a n, .sqrt), (.exp2F32V d a n, .exp2F32S d a n, .exp2),
        (.log2F32V d a n, .log2F32S d a n, .log2), (.sinF32V d a n, .sinF32S d a n, .sin),
        (.cosF32V d a n, .cosF32S d a n, .cos), (.tanhF32V d a n, .tanhF32S d a n, .tanh)] : List (Instr × Instr × Trans)),
      ∀ q ∈ ([(p.1, fun l => h.vget l a), (p.2.1, fun _ => (s.readS h (lowestLane i.lanes) a).setWidth 32)] : List (Instr × (Nat → Word))),
        let R := fun l => trans p.2.2 h.mode h.ftz (q.2 l).toNat
        let r := raisedBy i fun l => (R l).r
        Quiet h r → ∃ t h', exec q.1 s = .next t ∧
          Completed i { s.satOut h r with nextId := s.nextId + 1 } t h h' ∧
          AddsPending { id := s.nextId, pc := i.pc, lanes := i.lanes, regs := [h.wb + d]
                        vals := (lanesOf i.lanes).map fun l => (l, h.wb + d, BitVec.ofNat 32 (R l).bits)
                        windows := windowsOf (lanesOf i.lanes) n, since := s.now } r.fl h h'

/-- R292, R94/04: integer comparisons write the active lanes of a predicate and change nothing else.
R292/14: float comparisons write the active lanes of a predicate; an ordered one on a NaN raises IV. -/
def Obligations.Comparisons : Prop :=
  (∀ (s : State) (i : Issue) (h : Sheaf) (d a b : Nat), s.Issuing i h →
      (∀ p ∈ ([(.ceqB32Vv d a b, .ceqB32Vs d a b, fun x y => decide (x = y)),
          (.cltI32Vv d a b, .cltI32Vs d a b, fun x y => decide (x.toInt < y.toInt)),
          (.cleI32Vv d a b, .cleI32Vs d a b, fun x y => decide (x.toInt ≤ y.toInt)),
          (.cltN32Vv d a b, .cltN32Vs d a b, fun x y => decide (x.toNat < y.toNat)),
          (.cleN32Vv d a b, .cleN32Vs d a b, fun x y => decide (x.toNat ≤ y.toNat))] : List (Instr × Instr × (Word → Word → Bool))),
        (∃ t h', exec p.1 s = .next t ∧ Completed i s t h h' ∧ WritesPred i d (fun l => p.2.2 (h.vget l a) (h.vget l b)) {} h h') ∧
        ∃ t h', exec p.2.1 s = .next t ∧ Completed i s t h h' ∧ WritesPred i d (fun l => p.2.2 (h.vget l a) ((s.readS h l b).setWidth 32)) {} h h') ∧
      (∀ p ∈ ([(.ceqB64Vv d a b, .ceqB64Vs d a b, fun x y => decide (x = y)),
          (.cltI64Vv d a b, .cltI64Vs d a b, fun x y => decide (x.toInt < y.toInt)),
          (.cleI64Vv d a b, .cleI64Vs d a b, fun x y => decide (x.toInt ≤ y.toInt)),
          (.cltN64Vv d a b, .cltN64Vs d a b, fun x y => decide (x.toNat < y.toNat)),
          (.cleN64Vv d a b, .cleN64Vs d a b, fun x y => decide (x.toNat ≤ y.toNat))] : List (Instr × Instr × (Dword → Dword → Bool))),
        (∃ t h', exec p.1 s = .next t ∧ Completed i s t h h' ∧ WritesPred i d (fun l => p.2.2 (h.vget64 l a) (h.vget64 l b)) {} h h') ∧
        ∃ t h', exec p.2.1 s = .next t ∧ Completed i s t h h' ∧ WritesPred i d (fun l => p.2.2 (h.vget64 l a) (s.readS h l b)) {} h h')) ∧
  (∀ (s : State) (i : Issue) (h : Sheaf) (d a b : Nat), s.Issuing i h →
      (∀ p ∈ ([(.ceqF32Vv d a b, .ceqF32Vs d a b, .f32, .eq), (.cltF32Vv d a b, .cltF32Vs d a b, .f32, .lt),
          (.cleF32Vv d a b, .cleF32Vs d a b, .f32, .le), (.cunF32Vv d a b, .cunF32Vs d a b, .f32, .un),
          (.ceqF16Vv d a b, .ceqF16Vs d a b, .f16, .eq), (.cltF16Vv d a b, .cltF16Vs d a b, .f16, .lt),
          (.cleF16Vv d a b, .cleF16Vs d a b, .f16, .le), (.cunF16Vv d a b, .cunF16Vs d a b, .f16, .un),
          (.ceqBf16Vv d a b, .ceqBf16Vs d a b, .bf16, .eq), (.cltBf16Vv d a b, .cltBf16Vs d a b, .bf16, .lt),
          (.cleBf16Vv d a b, .cleBf16Vs d a b, .bf16, .le)] : List (Instr × Instr × Fmt × FRel)),
        ∀ q ∈ ([(p.1, fun l => h.vget l b), (p.2.1, fun l => (s.readS h l b).setWidth 32)] : List (Instr × (Nat → Word))),
          let R := fun l => fcmp p.2.2.1 p.2.2.2 h.ftz (p.2.2.1.code (h.vget l a).toNat) (p.2.2.1.code (q.2 l).toNat)
          let r := raisedBy i fun l => (R l).2
          Quiet h r → ∃ t h', exec q.1 s = .next t ∧ Completed i (s.satOut h r) t h h' ∧ WritesPred i d (fun l => (R l).1) r.fl h h') ∧
      ∀ p ∈ ([(.ceqF64Vv d a b, .ceqF64Vs d a b, .eq), (.cltF64Vv d a b, .cltF64Vs d a b, .lt),
          (.cleF64Vv d a b, .cleF64Vs d a b, .le), (.cunF64Vv d a b, .cunF64Vs d a b, .un)] : List (Instr × Instr × FRel)),
        ∀ q ∈ ([(p.1, fun l => h.vget64 l b), (p.2.1, fun l => s.readS h l b)] : List (Instr × (Nat → Dword))),
          let R := fun l => fcmp .f64 p.2.2 h.ftz (h.vget64 l a).toNat (q.2 l).toNat
          let r := raisedBy i fun l => (R l).2
          Quiet h r → ∃ t h', exec q.1 s = .next t ∧ Completed i (s.satOut h r) t h h' ∧ WritesPred i d (fun l => (R l).1) r.fl h h')

/-- R293, R294/14, R94/04: selects write the chosen value; predicate instructions write the active lanes of d; `stop` writes its scalar once. -/
def Obligations.SelectsAndPredicates : Prop :=
  (∀ (s : State) (i : Issue) (h : Sheaf) (d a b m : Nat), s.Issuing i h →
      (∀ p ∈ ([(.selB32Vv d a b m, fun l => h.vget l b), (.selB32Vs d a b m, fun l => (s.readS h l b).setWidth 32)] :
          List (Instr × (Nat → Word))),
        ∃ t h', exec p.1 s = .next t ∧ Completed i s t h h' ∧
          WritesVector i d (fun l => if (h.pget m).getLsbD l then h.vget l a else p.2 l) {} h h') ∧
      (∀ p ∈ ([(.selB64Vv d a b m, fun l => h.vget64 l b), (.selB64Vs d a b m, fun l => s.readS h l b)] : List (Instr × (Nat → Dword))),
        ∃ t h', exec p.1 s = .next t ∧ Completed i s t h h' ∧
          WritesPair i d (fun l => if (h.pget m).getLsbD l then h.vget64 l a else p.2 l) {} h h') ∧
      (∀ p ∈ ([(.pand d a b, fun l => (h.pget a).getLsbD l && (h.pget b).getLsbD l),
          (.por d a b, fun l => (h.pget a).getLsbD l || (h.pget b).getLsbD l),
          (.pxor d a b, fun l => (h.pget a).getLsbD l != (h.pget b).getLsbD l), (.pnot d a, fun l => !(h.pget a).getLsbD l),
          (.pfroms d a, fun l => (s.readS h l a).getLsbD l), (.pall d, fun _ => true), (.pnone d, fun _ => false)] :
          List (Instr × (Nat → Bool))),
        ∃ t h', exec p.1 s = .next t ∧ Completed i s t h h' ∧ WritesPred i d p.2 {} h h') ∧
      ∃ t h', exec (.stop d a) s = .next t ∧ Completed i s t h h' ∧ WritesScalar d (h.pget a) h h') ∧
  (∀ w : Word, w.extractLsb' 25 7 = 0x47 ∧ (8 ≤ (w.extractLsb' 0 4).toNat ∨ (3 ≤ (w.extractLsb' 0 4).toNat ∧ w.extractLsb' 4 7 ≠ 0) ∨
        (6 ≤ (w.extractLsb' 0 4).toNat ∧ w.extractLsb' 11 7 ≠ 0)) →
      ∃ e, decode w = .error e)

/-- R295/14: `cvt` converts each active lane between two types under its rounding code, into a register or a pair as the destination type takes,
raising the flags of the conversion.
R297, R298, R299/14: `pk.e2m1` gathers eight lanes of codes into the word of each lane group, an inactive lane giving 0; `upk.e2m1` decodes
each lane its own code; `scacc.f32` accumulates a scaled value. -/
def Obligations.Conversions : Prop :=
  (∀ (s : State) (i : Issue) (h : Sheaf) (d a : Nat) (x y : ElemType) (m : Rounding), s.Issuing i h →
      let R := fun l => cvtVal x y (roundMode m h.mode) h.ftz (if wideElem x then h.vget64 l a else (h.vget l a).setWidth 64)
      let r := raisedBy i fun l => (R l).2
      Quiet h r → ∃ t h', exec (.cvt d a x m y) s = .next t ∧ Completed i (s.satOut h r) t h h' ∧
        if wideElem y then WritesPair i d (fun l => (R l).1) r.fl h h' else WritesVector i d (fun l => (R l).1.setWidth 32) r.fl h h') ∧
  (∀ (s : State) (i : Issue) (h : Sheaf) (d a b : Nat), s.Issuing i h →
      (let R := fun l => pkLane h.mode (h.vget l a) (h.vget l b)
       let r := raisedBy i fun l => (R l).r
       Quiet h r → ∃ t h', exec (.pkE2m1 d a b) s = .next t ∧ Completed i (s.satOut h r) t h h' ∧
        WritesVector i d (fun l => pkWord ((lanesOf i.lanes).map fun k => (k, R k)) (l / 8)) r.fl h h') ∧
      ∀ p ∈ ([(.upkE2m1 d a b, fun l => upkLane h.mode l (h.vget l a) (h.vget l b)),
          (.scaccF32 d a b, fun l => scaccLane h.mode h.ftz (h.vget l d) (h.vget l a) (h.vget l b))] : List (Instr × (Nat → FRes))),
        let r := raisedBy i fun l => (p.2 l).r
        Quiet h r → ∃ t h', exec p.1 s = .next t ∧ Completed i (s.satOut h r) t h h' ∧
          WritesVector i d (fun l => BitVec.ofNat 32 (p.2 l).bits) r.fl h h')

/-- R203/09, R303/14: `lred` and the scans combine all 64 lanes in the order of R203 and R303, an inactive lane contributing the identity, and
write the active lanes; a scan writes a NaN as the canonical one. -/
def Obligations.LogReductionsAndScans : Prop :=
  ∀ (s : State) (i : Issue) (h : Sheaf) (d a : Nat), s.Issuing i h →
    (∀ p ∈ ([(.lredAddF32 d a, .addF32), (.lredMaxF32 d a, .maxF32), (.lredMinF32 d a, .minF32), (.lredAddI32 d a, .addI32),
        (.lredMaxI32 d a, .maxI32), (.lredMinI32 d a, .minI32), (.lredMaxN32 d a, .maxN32), (.lredMinN32 d a, .minN32),
        (.lredAddF16 d a, .addF16), (.lredMaxF16 d a, .maxF16), (.lredMinF16 d a, .minF16), (.lredAddBf16 d a, .addBf16),
        (.lredAndB32 d a, .andB32), (.lredOrB32 d a, .orB32), (.lredXorB32 d a, .xorB32)] : List (Instr × RedOp)),
      let xs := (List.range 64).map fun l => if i.lanes.getLsbD l then p.2.trim (h.vget l a) else p.2.ident
      let y := redSteps (lredStep p.2) [32, 16, 8, 4, 2, 1] xs
      let r := raisedBy i fun _ => y.2
      Quiet h r → ∃ t h', exec p.1 s = .next t ∧ Completed i (s.satOut h r) t h h' ∧
        WritesVector i d (fun l => y.1.getD l 0) r.fl h h') ∧
    ∀ p ∈ ([(.scanAddF32 d a, .scanxAddF32 d a, .addF32), (.scanMaxF32 d a, .scanxMaxF32 d a, .maxF32),
        (.scanMinF32 d a, .scanxMinF32 d a, .minF32), (.scanAddI32 d a, .scanxAddI32 d a, .addI32),
        (.scanMaxI32 d a, .scanxMaxI32 d a, .maxI32), (.scanMinI32 d a, .scanxMinI32 d a, .minI32),
        (.scanMaxN32 d a, .scanxMaxN32 d a, .maxN32), (.scanMinN32 d a, .scanxMinN32 d a, .minN32)] : List (Instr × Instr × RedOp)),
      let xs := (List.range 64).map fun l => if i.lanes.getLsbD l then p.2.2.trim (h.vget l a) else p.2.2.ident
      let y := redSteps (scanStep p.2.2) [1, 2, 4, 8, 16, 32] xs
      let r := raisedBy i fun _ => y.2
      Quiet h r →
        (∃ t h', exec p.1 s = .next t ∧ Completed i (s.satOut h r) t h h' ∧ WritesVector i d (fun l => p.2.2.canon (y.1.getD l 0)) r.fl h h') ∧
        ∃ t h', exec p.2.1 s = .next t ∧ Completed i (s.satOut h r) t h h' ∧
          WritesVector i d (fun l => if l = 0 then p.2.2.ident else p.2.2.canon (y.1.getD (l - 1) 0)) r.fl h h'

/-- R202/09, R257/12, R303/14: `tred` leaves the root of the tree over all 64 lanes pending in its scalar.
R202, R203/09: with no rounding, the root of the tree and every lane of the log steps are the sum of the 64 lanes modulo 2^32. That the
flags are raised at the issue is the model's reading (log 14). -/
def Obligations.TreeReductions : Prop :=
  (∀ (s : State) (i : Issue) (h : Sheaf) (d a n : Nat), s.Issuing i h →
      ∀ p ∈ ([(.tredAddF32 d a n, .addF32), (.tredMaxF32 d a n, .maxF32), (.tredMinF32 d a n, .minF32),
          (.tredAddI32 d a n, .addI32), (.tredMaxI32 d a n, .maxI32), (.tredMinI32 d a n, .minI32),
          (.tredMaxN32 d a n, .maxN32), (.tredMinN32 d a n, .minN32), (.tredAddF16 d a n, .addF16),
          (.tredMaxF16 d a n, .maxF16), (.tredMinF16 d a n, .minF16), (.tredAddBf16 d a n, .addBf16),
          (.tredAndB32 d a n, .andB32), (.tredOrB32 d a n, .orB32), (.tredXorB32 d a n, .xorB32)] : List (Instr × RedOp)),
        let xs := (List.range 64).map fun l => if i.lanes.getLsbD l then p.2.trim (h.vget l a) else p.2.ident
        let y := treeRoot p.2 6 xs
        let r := raisedBy i fun _ => y.2
        Quiet h r → ∃ t h', exec p.1 s = .next t ∧ Completed i { s.satOut h r with nextId := s.nextId + 1 } t h h' ∧
          AddsPending { id := s.nextId, pc := i.pc, lanes := i.lanes, scalar := some (d, p.2.widen y.1)
                        windows := windowsOf (lanesOf i.lanes) n, since := s.now } r.fl h h') ∧
  (∀ xs : List Word, xs.length = 64 →
      treeRoot .addI32 6 xs = (xs.foldl (fun x y => x + y) 0, {}) ∧
      ∀ l, l < 64 → (redSteps (lredStep .addI32) [32, 16, 8, 4, 2, 1] xs).1.getD l 0 = xs.foldl (fun x y => x + y) 0)

/-- R300, R301, R302/14, R275/13: when every member that has not exited has arrived and no source is pending in them, a shuffle or vote writes
its result in every lane that arrived, each through the `$wb` of its arrival, and, where no handler has been entered or changed a PC since
an arrival, they all move on; until then the arrived lanes wait; a load's fault among the sources is taken, or waited for. -/
def Obligations.Collectives : Prop :=
  ∀ (s : State) (i : Issue) (h : Sheaf) (d a b m : Nat), s.Issuing i h →
    let ws := s.arrivals i m
    let M := collectiveMembers ws
    let rest := h.waits.filter fun x => !((h.collectivesAt i.pc).contains x)
    let J : Issue := { i with lanes := waitMask ws }
    let g : Sheaf := { h with waits := rest }
    let base := baseOf ws
    let k := fun l => (s.readS h l b).toNat % 64
    let own := fun l => h.virt l (base l + a)
    let from_ := fun l j => if j < 64 ∧ M.getLsbD j ∧ ¬ h.exited.getLsbD j then h.virt j (base j + a) else h.virt l (base l + d)
    let vals := (lanesOf M).map fun j => if h.exited.getLsbD j then (0 : Word) else h.virt j (base j + a)
    let done := fun srcs => h.collectiveLeft ws = 0 ∧ h.sourcePending ws srcs = none
    let new := i.lanes &&& ~~~waitMask (h.collectivesAt i.pc)
    let others := waitMask ws &&& ~~~new
    let there := (∀ w ∈ ws, w.lanes &&& ~~~new = 0 ∨ h.tl ≤ w.tl) ∧ ∀ l, l < 64 → others.getLsbD l → (h.lane l).pc = i.pc
    (there → ∀ p ∈ ([(.shflIdx d a b m, [a, b], fun l => from_ l ((h.virt l (base l + b)).toNat % 64)),
        (.shflUp d a b m, [a], fun l => if k l ≤ l then from_ l (l - k l) else own l),
        (.shflDown d a b m, [a], fun l => if l + k l < 64 then from_ l (l + k l) else own l),
        (.shflXor d a b m, [a], fun l => from_ l (l ^^^ k l))] : List (Instr × List Nat × (Nat → Word))), done p.2.1 →
      ∃ t h', exec p.1 s = .next t ∧ Completed J { s with cur := some J } t h h' ∧
        (∀ l r, l < 64 → h'.virt l r = if J.lanes.getLsbD l ∧ r = base l + d then p.2.2 l else h.virt l r) ∧
        ({ h' with v := h.v, lanes := h.lanes, watchSkip := h.watchSkip } : Sheaf) = g) ∧
    (there → ∀ p ∈ ([(.voteAny d a m, vals.any fun x => !(x == 0)), (.voteAll d a m, vals.all fun x => !(x == 0)),
        (.voteEq d a m, vals.all fun x => x == vals.headD 0)] : List (Instr × Bool)), done [a] →
      ∃ t h', exec p.1 s = .next t ∧ Completed J { s with cur := some J } t h h' ∧ WritesPred J d (fun _ => p.2) {} g h') ∧
    (there → done [a] → ∃ t h', exec (.voteBallot d a m) s = .next t ∧ Completed J { s with cur := some J } t h h' ∧
      WritesScalar d (maskOf ((lanesOf M).filter fun j => !(h.exited.getLsbD j) && !(h.virt j (base j + a) == 0))) g h') ∧
    ∀ p ∈ ([(.shflIdx d a b m, [a, b]), (.shflUp d a b m, [a]), (.shflDown d a b m, [a]), (.shflXor d a b m, [a]), (.voteAny d a m, [a]),
        (.voteAll d a m, [a]), (.voteEq d a m, [a]), (.voteBallot d a m, [a])] : List (Instr × List Nat)),
      (h.collectiveLeft ws ≠ 0 → exec p.1 s = .next (s.modSheaf i.sheaf fun x => { x with waits := rest ++ ws })) ∧
      ∀ q, h.collectiveLeft ws = 0 → h.sourcePending ws p.2 = some q →
        (q.faultOnly = false → exec p.1 s = .next (s.modSheaf i.sheaf fun x => { x with waits := (x.waits.filter fun w => !(ws.contains w)) ++ ws })) ∧
        (q.faultOnly = true → (∃ f ∈ q.faults, f.mappable = false) → exec p.1 s =
          .next ((s.modSheaf i.sheaf fun x => { x with waits := x.waits.filter fun w => !(ws.contains w) }).takeLoadFault i.sheaf q)) ∧
        (q.faultOnly = true → (∀ f ∈ q.faults, f.mappable = true) → exec p.1 s = .next (s.modSheaf i.sheaf fun x =>
          { x with
            waits := (x.waits.filter fun w => !(ws.contains w)) ++ ws
            pend := x.pend.map fun (z : Pending) => if z.id = q.id then
                { z with
                  waitSince := some (z.waitSince.getD s.now)
                  awaited := if z.awaited.contains i.pc then z.awaited else z.awaited ++ [i.pc] } else z }))

/-- R98/04, R274/13: `wbase` and `wshift` move the window when the new one lies in 0 to 384 and within the register budget, and change nothing
else; otherwise they trap SPACE. The 0 in $taddr of these SPACE traps is the model's reading (log 30). -/
def Obligations.WindowMoves : Prop :=
  ∀ (s : State) (i : Issue) (h : Sheaf) (n : BitVec 18) (m : BitVec 11), s.Issuing i h →
    ∀ p ∈ ([(.wbase n, (n.toNat : Int)), (.wshift m, (h.wb : Int) + m.toInt)] : List (Instr × Int)),
      (0 ≤ p.2 ∧ p.2 ≤ 384 ∧ p.2 + 128 ≤ (h.budget : Int) →
        ∃ t h', exec p.1 s = .next t ∧ Completed i s t h h' ∧ (h'.wb : Int) = p.2 ∧
          ({ h' with wb := h.wb, lanes := h.lanes, watchSkip := h.watchSkip } : Sheaf) = h) ∧
      (¬ (0 ≤ p.2 ∧ p.2 ≤ 384 ∧ p.2 + 128 ≤ (h.budget : Int)) → exec p.1 s = .next (s.trapAll .space 0 0))

/-- R255/12, R276/13: a branch whose target lies in the 56-bit address space moves each active lane, to the target where it is taken, past the
instruction where it is not, and changes nothing else; one whose target lies outside traps SPACE, taken or not.
R43/02, R276, R280/13: where a lane goes. A branch sets its PC to the target. A lane that passes an instruction goes to the next word,
unless that word was the end of a loop that still counts, where it returns to the start of the innermost such loop. The 0 in $taddr of these
SPACE traps is the model's reading (log 30). -/
def Obligations.Branches : Prop :=
  (∀ (s : State) (i : Issue) (h : Sheaf) (c : Nat) (o : BitVec 18), s.Issuing i h →
      let T : Int := (i.pc.toNat : Int) + 4 * o.toInt
      let C := s.readS h (lowestLane i.lanes) c
      ∀ p ∈ ([(.bra o, fun _ => true), (.bnz c o, fun _ => !(C == 0)), (.bz c o, fun _ => C == 0), (.bnzv c o, fun l => !(h.vget l c == 0)),
          (.bzv c o, fun l => h.vget l c == 0)] : List (Instr × (Nat → Bool))),
        (0 ≤ T ∧ T < 2 ^ 56 → ∃ t h', exec p.1 s = .next t ∧ t.sheaf? i.sheaf = some h' ∧ SameBut i.sheaf s t ∧ OnlyLanes h h' ∧
          LanesGo i (fun l ln => if p.2 l then ln.jump i.pc (BitVec.ofInt 56 T) i.solo else ln.pass i.pc i.solo) h h') ∧
        (¬ (0 ≤ T ∧ T < 2 ^ 56) → exec p.1 s = .next (s.trapAll .space 0 0))) ∧
  ((∀ (ln : Lane) (w t : Vaddr) (b : Bool), (ln.jump w t b).pc = t ∧ (ln.jump w t b).loops = ln.loops ∧
        (ln.jump w t b).held = ln.held) ∧
    (∀ (ln : Lane) (w : Vaddr) (b : Bool), (∀ k, k < 3 → (ln.loops.getD k {}).count = 0 ∨ (ln.loops.getD k {}).stop ≠ w) →
        ln.pass w b = { ln with pc := w + 4 }) ∧
    ∀ (ln : Lane) (w : Vaddr) (b : Bool) (k : Nat), k < 3 → ln.loops.length = 3 → (ln.loops.getD k {}).stop = w → 1 < (ln.loops.getD k {}).count.toNat →
        (∀ j, k < j → j < 3 → (ln.loops.getD j {}).count = 0 ∨ (ln.loops.getD j {}).stop ≠ w) →
        (ln.pass w b).pc = (ln.loops.getD k {}).start ∧
        ((ln.pass w b).loops.getD k {}).count = (ln.loops.getD k {}).count - 1)

/-- R277, R278, R279/13: `call` writes PC + 4 into its pair and branches; `ret` sends each lane to its pair's address, bits 1 and 0 dropped, and
traps SPACE in the lanes whose high byte is not 0, none moving; `loop` sets its level, or skips the body on a count of 0. The 0 in $taddr of
these SPACE traps is the model's reading (log 30). -/
def Obligations.CallsReturnsLoops : Prop :=
  ∀ (s : State) (i : Issue) (h : Sheaf) (c k n : Nat) (v : Bool) (o : BitVec 18), s.Issuing i h →
    let T : Int := (i.pc.toNat : Int) + 4 * o.toInt
    let R : Dword := i.pc.setWidth 64 + 4
    let len := BitVec.ofNat 56 (4 * (n + 1))
    let cnt := fun l => if v then h.vget l c else (s.readS h l c).setWidth 32
    let bad := (lanesOf i.lanes).filter fun l => !((h.vget64 l c).extractLsb' 56 8 == 0)
    (0 ≤ T ∧ T < 2 ^ 56 → ∃ t h', exec (.call c o) s = .next t ∧ t.sheaf? i.sheaf = some h' ∧ SameBut i.sheaf s t ∧
      VectorIs i c 2 (fun _ j => if j = 0 then R.extractLsb' 0 32 else R.extractLsb' 32 32) h h' ∧
      OnlyLanes { h with v := h'.v } h' ∧ LanesGo i (fun _ ln => ln.jump i.pc (BitVec.ofInt 56 T) i.solo) h h') ∧
    (¬ (0 ≤ T ∧ T < 2 ^ 56) → exec (.call c o) s = .next (s.trapAll .space 0 0)) ∧
    (bad = [] → ∃ t h', exec (.ret c) s = .next t ∧ t.sheaf? i.sheaf = some h' ∧ SameBut i.sheaf s t ∧ OnlyLanes h h' ∧
      LanesGo i (fun l ln => { ln with pc := (h.vget64 l c).setWidth 56 &&& ~~~3 }) h h') ∧
    (bad ≠ [] → exec (.ret c) s = .next (s.takeTrap i.sheaf .space 0 0 (maskOf bad) i.pc none)) ∧
    ∃ t h', exec (.loop c v k n) s = .next t ∧ t.sheaf? i.sheaf = some h' ∧ SameBut i.sheaf s t ∧ OnlyLanes h h' ∧
      LanesGo i (fun l ln =>
        if cnt l = 0 then { ln with loops := modAt (fun r : LoopReg => { r with count := 0 }) ln.loops k, pc := i.pc + 4 + len }
        else ({ ln with loops := modAt (fun _ => ⟨cnt l, i.pc + 4, i.pc + len⟩) ln.loops k } : Lane).pass i.pc i.solo) h h'

/-- R281, R282/13, R40/02: `nop` moves on and does nothing else; `yield` marks its lanes yielded with PROG = 1, and otherwise only moves on, the
sheaf's registers as they were; `exit` of some lanes with nothing pending leaves the others their state, keeps the PCs of those that exit,
and traps ILLOP in a handler; the last lanes' exit, with no child and no open job, ends the sheaf. -/
def Obligations.NopYieldExit : Prop :=
  ∀ (s : State) (i : Issue) (h : Sheaf), s.Issuing i h →
    (∃ t h', exec .nop s = .next t ∧ Completed i s t h h' ∧ OnlyLanes h h') ∧
    (∃ t h', exec .yield s = .next t ∧ t.sheaf? i.sheaf = some h' ∧ Moved i h h' ∧
      h'.yielded = (if h.prog then h.yielded ||| i.lanes else h.yielded) ∧
      h'.favoured = (if h.prog then h.favoured &&& ~~~i.lanes else h.favoured) ∧
      h'.favouredOld = (if h.prog then h.favouredOld.map (fun m => m &&& ~~~i.lanes) else h.favouredOld) ∧
      ({ h' with lanes := h.lanes, watchSkip := h.watchSkip, yielded := h.yielded, favoured := h.favoured, favouredOld := h.favouredOld } : Sheaf) = h ∧
      (∀ k, k ≠ i.sheaf → t.sheaf? k = s.sheaf? k) ∧ ({ t with sheaves := s.sheaves, cores := s.cores } : State) = s) ∧
    (h.tl ≠ 0 → exec .exit s = .next (s.trapAll .illop 0 0)) ∧
    (h.tl = 0 → h.pend = [] → ¬ (h.exited ||| i.lanes) = BitVec.allOnes 64 →
      ∃ t h', exec .exit s = .next t ∧ t.sheaf? i.sheaf = some h' ∧ SameBut i.sheaf s t ∧ h'.exited = h.exited ||| i.lanes ∧
        LanesGo i (fun _ ln => { ln with held := ln.pc, outer := ln.pc }) h h' ∧
        ({ h' with exited := h.exited, favoured := h.favoured, yielded := h.yielded, lanes := h.lanes } : Sheaf) = h) ∧
    (h.tl = 0 → h.pend = [] → h.exited ||| i.lanes = BitVec.allOnes 64 → h.children = [] → s.jobsOf i.sheaf = [] → h.inlineChild = false →
      ∃ t h', exec .exit s = .next t ∧ t.sheaf? i.sheaf = some h' ∧ h'.place = .ended ∧ h'.exited = BitVec.allOnes 64)

/-- R253/12, R281/13, R375/18: `brk`, `trap` and an illegal word trap sheaf-wide, BREAK, TRAP and ILLOP, whatever the mode; `trap` gives its
immediate as INFO. -/
def Obligations.TrappingInstructions : Prop :=
  ∀ (s : State) (i : Issue) (h : Sheaf) (n : BitVec 8) (w : Word), s.Issuing i h →
    exec .brk s = .next (s.trapAll .brk 0 0) ∧ exec (.trap n) s = .next (s.trapAll .trap n.toNat 0) ∧
    exec (.illegalInstruction w) s = .next (s.trapAll .illop 0 0)

/-- R97, R107/04, R166/07, R229, R230/11: taking a trap. With a handler's address in the vector table and the trap level below 2, every lane's
PC becomes its held PC (an exited lane's its last one), the handler lanes go to the handler, the four trap registers are written, the level
rises by 1, and at level 1 the outer frame keeps what they held; windows and stalls end, WATCH skips are set by until the return (R377/18),
lanes held at a post wait no more; no register, predicate, flag or exited lane changes, and outside the sheaf only caches do. That lanes
held at a post wait no more is the model's reading (log 19). -/
def Obligations.TrapEntry : Prop :=
  ∀ (s : State) (i : Issue) (h : Sheaf) (c : Cause) (info : Nat) (addr : Dword), s.Issuing i h →
    (s.launchOf h).closed = false → h.tl < 2 → (s.vectorEntry h.core h.ctx c).1 ≠ 0 →
    let t := s.trapAll c info addr
    let vec := BitVec.ofNat 56 (s.vectorEntry h.core h.ctx c).1
    ∃ h', t.sheaf? i.sheaf = some h' ∧ (∀ k, k ≠ i.sheaf → t.sheaf? k = s.sheaf? k) ∧
      OnlyCaches s { t with sheaves := s.sheaves } ∧
      h'.trap = ⟨BitVec.ofNat 64 (info % 256 * 256 + causeCode c), (addr.setWidth 56).setWidth 64, i.lanes, i.pc.setWidth 64⟩ ∧
      h'.tl = h.tl + 1 ∧ h'.replay = none ∧ (h.tl = 1 → h'.outer = h.trap ∧ h'.outerReplay = h.replay) ∧
      (h.tl = 0 → h'.outer = h.outer ∧ h'.outerReplay = h.outerReplay) ∧
      h'.lanes.length = h.lanes.length ∧
      (∀ l, l < h.lanes.length → h'.lane l = { h.lane l with
        held := (h.lane l).pc
        pc := if h.handlerLanes.getLsbD l then vec else (h.lane l).pc
        outer := if h.tl = 1 then (h.lane l).held else (h.lane l).outer }) ∧
      h'.waits = h.waits.filter (fun w => w.kind.holds) ∧ h'.pend = h.pend.map (fun p => { p with windows := [] }) ∧
      h'.watchSkip = 0 ∧ h'.skips = (h.watchSkip, h.lanes.map Lane.skipPc) :: h.skips ∧
      ({ h' with
          trap := h.trap, outer := h.outer, outerReplay := h.outerReplay, replay := h.replay, tl := h.tl, lanes := h.lanes, skips := h.skips
          waits := h.waits, pend := h.pend, stalled := h.stalled, blocked := h.blocked, watchSkip := h.watchSkip } : Sheaf) = h

/-- R230, R231/11: a trap at level 2, or one whose vector entry is 0, enters no handler: it ends the launch with its cause and the trapping
party, the first in the order of sheaf number and creation among those of one cycle, and the sheaves stay as they are; NOTICE and EXPAND are
no such traps. -/
def Obligations.UnhandledTrapEndsLaunch : Prop :=
  ∀ (s : State) (i : Issue) (h : Sheaf) (l : Launch) (c : Cause) (info : Nat) (addr : Dword), s.Issuing i h →
    s.launch? h.launch = some l → l.closed = false → c ≠ .notice → c ≠ .expand →
    (2 ≤ h.tl ∨ (s.vectorEntry h.core h.ctx c).1 = 0) →
    let t := s.trapAll c info addr
    let mine := (causeCode c, h.number, endKey h s.now)
    t.sheaves = s.sheaves ∧ t.mem = s.mem ∧ t.teams = s.teams ∧ t.jobs = s.jobs ∧
    (l.ended = none → t.launch? h.launch = some { l with ended := some mine }) ∧
    ∀ code n key, l.ended = some (code, n, key) →
      t.launch? h.launch = some { l with ended := some (if key.headD 0 = s.now ∧ keyLt (endKey h s.now) key then mine else (code, n, key)) }

/-- R232/11, R377/18, R378/18: the return. With nothing pending and no load to make again, `tret` sends the handler lanes to their held PCs and
lowers the level, restoring the outer frame at level 2; a lane that began to wait at the level returned to has its held PC again, and one
whose wait has ended goes on; a WATCH handler's lanes skip WATCH once, for the instruction at their held PCs, and the skips that the trap
had set by stand again; nothing else of the sheaf changes. `tret` traps ILLOP at level 0, and `nret` outside a NOTICE handler. That a lane
whose wait has ended is held until the level it waited at, and that a handler moves a waiting lane by its held PC, are the model's readings
(log 19, log 40). -/
def Obligations.TrapReturn : Prop :=
  ∀ (s : State) (i : Issue) (h : Sheaf), s.Issuing i h →
    let cause := (h.trap.tcause.extractLsb' 0 6).toNat
    let skip := h.skips.headD (0, [])
    let back := fun (h' : Sheaf) => h'.tl = h.tl - 1 ∧
      h'.trap = (if h.tl = 2 then h.outer else h.trap) ∧ h'.replay = (if h.tl = 2 then h.outerReplay else none) ∧
      h'.lanes.length = h.lanes.length ∧
      (∀ l, l < h.lanes.length → l < 64 → h'.lane l = { h.lane l with
        pc := if h.handlerLanes.getLsbD l ∨ h.exited.getLsbD l ∨ (h.waitedAt (h.tl - 1)).getLsbD l then (h.lane l).held else (h.lane l).pc
        held := if h.tl = 2 then (h.lane l).outer else (h.lane l).held
        skipPc := if cause = causeCode .watch ∧ h.handlerLanes.getLsbD l then (h.lane l).held else skip.2.getD l 0 }) ∧ h'.skips = h.skips.tail ∧
      h'.waits = h.waits.filter (fun w => !(w.kind == .held && decide (h.tl - 1 ≤ w.tl)))
    (h.tl = 0 → exec .tret s = .next (s.trapAll .illop 0 0)) ∧
    (h.tl = 0 ∨ cause ≠ causeCode .notice → exec .nret s = .next (s.trapAll .illop 0 0)) ∧
    (h.tl ≠ 0 → h.pend = [] → h.replay = none → cause ≠ causeCode .notice →
      ∃ t h', exec .tret s = .next t ∧ t.sheaf? i.sheaf = some h' ∧ SameBut i.sheaf s t ∧ back h' ∧
        h'.watchSkip = (if cause = causeCode .watch then skip.1 ||| h.handlerLanes else skip.1) ∧
        ({ h' with
            tl := h.tl, trap := h.trap, replay := h.replay, outerReplay := h.outerReplay, lanes := h.lanes, waits := h.waits
            watchSkip := h.watchSkip, skips := h.skips, stalled := h.stalled, blocked := h.blocked } : Sheaf) = h) ∧
    (h.tl ≠ 0 → h.pend = [] → h.replay = none → cause = causeCode .notice →
      ∃ t h', exec .nret s = .next t ∧ exec .tret s = .next t ∧ t.sheaf? i.sheaf = some h' ∧ SameBut i.sheaf { s with cores := t.cores } t ∧ back h' ∧
        h'.nleft = 0 ∧ h'.noticeOut = false ∧ h'.noticePending = false ∧ h'.watchSkip = skip.1 ∧
        ({ h' with
            tl := h.tl, trap := h.trap, replay := h.replay, outerReplay := h.outerReplay, lanes := h.lanes, waits := h.waits
            watchSkip := h.watchSkip, skips := h.skips, stalled := h.stalled, blocked := h.blocked, nleft := h.nleft, noticeOut := h.noticeOut, noticePending := h.noticePending } : Sheaf) = h)

/-- R19/01, R100, R101, R106, R108/04: what a scalar source reads: s0 to s95, each special register, each loop counter of the lane.
R378/18, R35/02: `lpc.rd` reads a lane's PC, the held one in a handler, with its exited and waiting bits on top, a lane stalled by the
scoreboard among those that wait; `lpc.wr` sets a lane's held PC, bits 1 and 0 dropped, and the issuing lanes move on; at level 0 it traps
ILLOP, and SPACE where the high byte of the operand is not 0.
R100, R101, R104, R106/04, R379/18: `spcw` writes `$ctrl`, with DIVTMR held to 4 to 12 and its unused bits as they read; clears the bits of
`$status` written as 1, but those raised in this cycle, a SAT bit being that of the team in its slot, and nothing else of a team; writes
`$nbudget`, within its bounds, and `$slewcy` for a supervisor and traps PRIV otherwise; and traps ILLOP on every other register. That a
write of `$nbudget` drops bits 63 to 32 before the clamp is the model's choice (log 86). The 0 in $taddr of these SPACE traps is the model's
reading (log 30). -/
def Obligations.SpecialRegisters : Prop :=
  (∀ (s : State) (h : Sheaf) (l : Nat),
      (∀ n, n < 96 → s.readS h l n = h.sget n) ∧
      (∀ p ∈ ([(96, 64), (97, BitVec.ofNat 64 l), (98, BitVec.ofNat 64 h.number), (99, BitVec.ofNat 64 h.core),
          (100, BitVec.ofNat 64 (h.core / 8)), (101, BitVec.ofNat 64 (h.core / 128)), (102, s.device), (103, BitVec.ofNat 64 h.wb),
          (104, BitVec.ofNat 64 h.rev), (107, (s.ctx h.ctx).nbudget.setWidth 64), (108, h.nleft.setWidth 64), (109, s.cycle),
          (110, (s.core h.core).slewcy.setWidth 64), (111, h.ctrl.setWidth 64),
          (112, BitVec.ofNat 64 (2 ^ (h.ctrl.extractLsb' 20 4).toNat)), (114, h.trap.tcause), (115, h.trap.taddr), (116, h.trap.tlanes),
          (117, h.trap.tpc)] : List (Nat × Dword)), s.readS h l p.1 = p.2) ∧
      (∀ r, (s.core h.core).res? h.ctx = some r →
        s.readS h l 105 = BitVec.ofNat 64 (r.goal * 16 + r.level) ∧ s.readS h l 106 = r.reclaim) ∧
      (∀ k, (s.readS h l 113).getLsbD k = if k < 5 then h.flags.bits.getLsbD k else if k < 9 then s.satBit h (k - 5) else false) ∧
      ∀ k, k < 3 → s.readS h l (118 + k) = (((h.lane l).loops.getD k {}).count).setWidth 64) ∧
  (∀ (s : State) (i : Issue) (h : Sheaf) (d a b : Nat), s.Issuing i h →
      let k := (s.readS h (lowestLane i.lanes) a).toNat % 64
      let B := s.readS h (lowestLane i.lanes) b
      let pc := if h.tl = 0 then (h.lane k).pc else (h.lane k).held
      (∃ t h', exec (.lpcRd d a) s = .next t ∧ Completed i s t h h' ∧
        WritesScalar d (BitVec.ofBool (h.exited.getLsbD k) ++ BitVec.ofBool ((waitMask h.waits ||| h.stalled ||| h.blocked).getLsbD k) ++ (0 : BitVec 6) ++ pc) h h') ∧
      (h.tl = 0 → exec (.lpcWr a b) s = .next (s.trapAll .illop 0 0)) ∧
      (h.tl ≠ 0 → ¬ B.toNat < 2 ^ 56 → exec (.lpcWr a b) s = .next (s.trapAll .space 0 0)) ∧
      (h.tl ≠ 0 → B.toNat < 2 ^ 56 → k < h.lanes.length →
        ∃ t h', exec (.lpcWr a b) s = .next t ∧ Completed i s t (h.modLane k fun ln => { ln with held := B.setWidth 56 &&& ~~~3 }) h' ∧ OnlyLanes h h' ∧
          (h'.lane k).held = B.setWidth 56 &&& ~~~3 ∧ ∀ l, l < h.lanes.length → l ≠ k → (h'.lane l).held = (h.lane l).held)) ∧
  (∀ (s : State) (i : Issue) (h : Sheaf) (a b : Nat), s.Issuing i h →
      let A := s.readS h (lowestLane i.lanes) a
      (∃ t h', exec (.spcw a 111) s = .next t ∧ Completed i s t h h' ∧
        (h'.ctrl.extractLsb' 20 4).toNat = max 4 (min 12 (A.extractLsb' 20 4).toNat) ∧ h'.ctrl.extractLsb' 8 12 = A.extractLsb' 8 12 ∧
        h'.ctrl.extractLsb' 0 8 = 0 ∧ (A.getLsbD 8 = false → h'.favoured = 0 ∧ h'.favouredOld = none ∧ h'.yielded = 0) ∧
        (A.getLsbD 8 = true → h'.favoured = h.favoured ∧ h'.favouredOld = h.favouredOld ∧ h'.yielded = h.yielded) ∧
        ({ h' with ctrl := h.ctrl, favoured := h.favoured, favouredOld := h.favouredOld, yielded := h.yielded, lanes := h.lanes, watchSkip := h.watchSkip } : Sheaf) = h) ∧
      (∃ t h', exec (.spcw a 113) s = .next t ∧ t.sheaf? i.sheaf = some h' ∧ Moved i h h' ∧
        (∀ k, k < 5 → h'.flags.bits.getLsbD k = (h.flags.bits.getLsbD k && (!A.getLsbD k || h.raised.bits.getLsbD k))) ∧
        ({ h' with flags := h.flags, lanes := h.lanes, watchSkip := h.watchSkip } : Sheaf) = h ∧
        (∀ x, t.team? x = (s.team? x).map fun tm =>
          if (List.range 4).any (fun k => A.getLsbD (5 + k) && h.slots.getD k none == some x) then (if tm.satAt = some s.now then tm else { tm with sat := false }) else tm) ∧
        (∀ k, k ≠ i.sheaf → t.sheaf? k = s.sheaf? k) ∧ ({ t with sheaves := s.sheaves, teams := s.teams } : State) = s) ∧
      (s.supervisor h.ctx → ∃ t h', exec (.spcw a 107) s = .next t ∧
        Completed i { s with ctxs := t.ctxs } t h h' ∧ OnlyLanes h h' ∧
        (t.ctx h.ctx).nbudget.toNat = max 1024 (min 65536 (A.setWidth 32).toNat) ∧ ∀ k, k ≠ h.ctx → t.ctx k = s.ctx k) ∧
      (s.supervisor h.ctx → ∃ t h', exec (.spcw a 110) s = .next t ∧ Completed i { s with cores := t.cores } t h h' ∧ OnlyLanes h h' ∧
        (t.core h.core).slewcy = A.setWidth 32 ∧ ∀ k, k ≠ h.core → t.core k = s.core k) ∧
      (¬ s.supervisor h.ctx → exec (.spcw a 107) s = .next (s.trapAll .priv 0 0) ∧ exec (.spcw a 110) s = .next (s.trapAll .priv 0 0)) ∧
      (b ≠ 111 → b ≠ 113 → b ≠ 107 → b ≠ 110 → exec (.spcw a b) s = .next (s.trapAll .illop 0 0)))

/-- R364, R380, R381/18: `xlinv` and `wpset` trap PRIV in a lane program. For a supervisor `xlinv` drops every cached translation of the context
that it names, in every core and field, once nothing of that context is in flight, and waits until then; `wpset` sets a watchpoint of a
context, over 2^n bytes from an address, for loads, stores and atomics as its bits say, or disables it, and changes no other; it traps ALIGN
for an address that is no multiple of its size, and both trap SPACE for a context, range or field that is none. The 0 in $taddr of these
SPACE traps is the model's reading (log 30). That the ALIGN trap gives the operand's address is its reading too (log 30). -/
def Obligations.SupervisorInstructions : Prop :=
  ∀ (s : State) (i : Issue) (h : Sheaf) (k d a b : Nat), s.Issuing i h →
    let x := (h.sget a).toNat
    let addr := h.sget (a + 1)
    let lo := addr.toNat
    let len := (h.sget (a + 2)).toNat
    let B := s.readS h (lowestLane i.lanes) b
    let n := (B.extractLsb' 0 6).toNat
    let code := (addr.extractLsb' 60 4).toNat
    let fits := k = 0 ∨ (len ≠ 0 ∧ lo + len ≤ (if k = 1 then 2 ^ 56 else 2 ^ 52))
    let aligned := (addr.extractLsb' 0 56).toNat % 2 ^ n = 0
    let legal := x < 64 ∧ 2 ≤ n ∧ n ≤ 30 ∧ B.extractLsb' 6 2 = 0 ∧ B.extractLsb' 11 53 = 0 ∧ 1 ≤ code ∧ code ≤ 4 ∧ addr.extractLsb' 56 4 = 0
    let sets := fun (w : Watch) => ∃ t h', exec (.wpset d a b) s = .next t ∧ Completed i { s with ctxs := t.ctxs } t h h' ∧ OnlyLanes h h' ∧
      t.ctx x = { s.ctx x with watch := (t.ctx x).watch } ∧ (∀ c, c ≠ x → t.ctx c = s.ctx c) ∧
      (d < (s.ctx x).watch.length → (t.ctx x).watch[d]? = some w) ∧ ∀ j, j ≠ d → (t.ctx x).watch[j]? = (s.ctx x).watch[j]?
    let hit := fun (e : Tlb) => e.ctx = x ∧ (k = 0 ∨ (let base := if k = 2 then e.gpa else e.va; base < lo + len ∧ lo < base + e.size))
    (¬ s.supervisor h.ctx → exec (.xlinv k a) s = .next (s.trapAll .priv 0 0) ∧ exec (.wpset d a b) s = .next (s.trapAll .priv 0 0)) ∧
    (s.supervisor h.ctx →
      (¬ (x < 64 ∧ fits) → exec (.xlinv k a) s = .next (s.trapAll .space 0 0)) ∧
      (x < 64 → fits → s.inFlight x = true → exec (.xlinv k a) s = .next s.stallMe) ∧
      (x < 64 → fits → s.inFlight x = false →
        ∃ t h', exec (.xlinv k a) s = .next t ∧ t.sheaf? i.sheaf = some h' ∧ Moved i h h' ∧ OnlyLanes h h' ∧
          (∀ c ∈ t.cores, ∀ e ∈ c.2.tlb, ¬ hit e) ∧ (∀ f ∈ t.fields, ∀ e ∈ f.2.tlb, ¬ hit e) ∧
          ((s.cores.map Prod.fst).Nodup → ∀ c, ({ t.core c with tlb := [] } : Core) = { s.core c with tlb := [] } ∧
            ∀ e, ¬ hit e → (e ∈ (t.core c).tlb ↔ e ∈ (s.core c).tlb)) ∧
          (x, if k = 0 then none else some (k == 2, lo, len)) ∈ t.removed ∧
          (∀ j, j ≠ i.sheaf → t.sheaf? j = s.sheaf? j) ∧
          ({ t with sheaves := s.sheaves, cores := s.cores, fields := s.fields, removed := s.removed } : State) = s) ∧
      (B = 0 → x < 64 → sets {}) ∧
      (B = 0 → 64 ≤ x → exec (.wpset d a b) s = .next (s.trapAll .space 0 0)) ∧
      (B ≠ 0 → legal → aligned → sets ⟨addr, n, B.getLsbD 8, B.getLsbD 9, B.getLsbD 10⟩) ∧
      (B ≠ 0 → 2 ≤ n → n ≤ 30 → ¬ aligned → exec (.wpset d a b) s = .next (s.trapAll .align 0 addr)) ∧
      (B ≠ 0 → ¬ legal → (2 ≤ n → n ≤ 30 → aligned) → exec (.wpset d a b) s = .next (s.trapAll .space 0 0)))

/-- R263/12, R305, R306/15, R235/11, R381/18: a load leaves its data pending in the lanes whose checks pass, with the faults of the others
attached, opens windows of its L and moves on; nothing but caches and the model numbers changes. A watched lane traps WATCH at the load; a
lane that meets its own remote store in flight waits for it, and one that meets bytes its own faulted load has still to read waits for that
load.
R309/15, R207/10, R130/05: an ordered load, relaxed or acquire, reads at the home slice from cluster scope up, and leaves its data pending
in the same way; an acquire at cluster scope or wider leaves no global line in the core's L1; memory does not change. That a load reads at
its issue is the model's choice (log 2); that an access waits for a remote store, or for a faulted load, of its lane that it meets is the
model's reading (log 47, log 74). -/
def Obligations.Loads : Prop :=
  (∀ (s : State) (i : Issue) (h : Sheaf) (d b n : Nat) (w : Width) (x : Idx), s.Issuing i h →
      let A := fun l => h.sget b + (match x with | .vec k => (h.vget l k).setWidth 64 | .imm k => BitVec.ofNat 64 (k * w.bytes))
      ∀ p ∈ ([(.ldLn d w b x n, .ln), (.ldSp d w b x n, .sp), (.ldCl d w b x n, .cl), (.ldBn d w b x n, .bn), (.ldGl d w b x n, .gl),
          (.ldAc d w b x n, .ac)] : List (Instr × Space)),
        let c := s.loadChecks p.2 w.bytes A
        let v := c.2.readLanes w.bytes (h.wb + d) {} c.1.ok
        let watched := s.watchLanes .load p.2 w.bytes A
        let behind := c.2.behindLoad p.2 w.bytes A (c.1.ok.map fun y => y.1)
        (∀ t, s.orderWait? true false = some t → exec p.1 s = .next t) ∧
        (s.orderWait? true false = none →
          (watched ≠ [] → ∃ cause lanes a, winning watched = some (cause, lanes, a) ∧ exec p.1 s = .next (s.takeTrap i.sheaf cause 0 a lanes i.pc none)) ∧
          (watched = [] → c.2.meetsRemote h.id c.1.ok w.bytes = true → exec p.1 s = .next c.2.stallMe) ∧
          (∀ q, watched = [] → c.2.meetsRemote h.id c.1.ok w.bytes = false → behind = some q → exec p.1 s = .next (c.2.dependOnFault q)) ∧
          (watched = [] → (∀ f ∈ c.1.bad, f.cause ≠ .uncorr) → c.2.meetsRemote h.id c.1.ok w.bytes = false → behind = none →
            ∃ t h' q, exec p.1 s = .next t ∧ Completed i { v.2 with nextId := s.nextId + 1 } t h h' ∧ OnlyCaches s v.2 ∧
              AddsPending q {} h h' ∧ q.id = s.nextId ∧ q.vals = v.1 ∧ q.faults = c.1.bad ∧ q.lanes = i.lanes ∧
              q.regs = (List.range (widthRegs w)).map (fun k => h.wb + d + k) ∧ q.windows = windowsOf (lanesOf i.lanes) n ∧ q.pc = i.pc ∧
              q.nearby = c.2.landsSoon h p.2 w.bytes c.1))) ∧
  (∀ (s : State) (i : Issue) (h : Sheaf) (d a n : Nat) (w : Width) (sc : Scope) (o : Sys2Proof.Ordering), s.Issuing i h →
      let A := fun l => h.vget64 l a
      let reach := s.reach h sc none
      let c := s.loadChecks .gl w.bytes A
      let v := c.2.readLanes w.bytes (h.wb + d) ⟨decide (3 ≤ reach), reach == 6⟩ c.1.ok
      (∀ t, s.orderWait? true false = some t → exec (.ldGlOrdered d a sc o w n) s = .next t) ∧
      (s.orderWait? true false = none → s.watchLanes .load .gl w.bytes A = [] → (∀ f ∈ c.1.bad, f.cause ≠ .uncorr) →
        c.2.meetsRemote h.id c.1.ok w.bytes = false → c.2.behindLoad .gl w.bytes A (c.1.ok.map fun y => y.1) = none →
        ∃ t h' q, exec (.ldGlOrdered d a sc o w n) s = .next t ∧ t.sheaf? i.sheaf = some h' ∧ Moved i h h' ∧
          AddsPending q {} h h' ∧ q.vals = v.1 ∧ q.faults = c.1.bad ∧ q.lanes = i.lanes ∧ q.windows = windowsOf (lanesOf i.lanes) n ∧
          (o = .acq → 3 ≤ reach → (t.core h.core).noGlLines) ∧
          ({ t with sheaves := s.sheaves, cores := s.cores, fields := s.fields, l2peer := s.l2peer, choices := s.choices
                    nextId := s.nextId } : State) = s))

/-- R119/05, R306, R307/15: in a lane's own slice a load reads, and a store writes, exactly the bytes at the lane's address, the lowest byte
first; every other byte of every slice, and everything else, is as before. That the access is performed at its issue is the model's choice
(log 2). -/
def Obligations.OwnSliceAccesses : Prop :=
  ∀ (s : State) (i : Issue) (h : Sheaf) (d b n : Nat) (w : Width) (x : Idx), s.Issuing i h → i.regback = none → s.orderWait? true false = none →
    let A := fun l => h.sget b + (match x with | .vec k => (h.vget l k).setWidth 64 | .imm k => BitVec.ofNat 64 (k * w.bytes))
    let size := (s.launchOf h).slicesSize
    (∀ l, l < 64 → i.lanes.getLsbD l → (A l).toNat % w.bytes = 0 ∧ (A l).toNat + w.bytes ≤ size) →
    s.behindLoad .ln w.bytes A (lanesOf i.lanes) = none →
    (∃ t h', exec (.ldLn d w b x n) s = .next t ∧ Completed i { s with nextId := s.nextId + 1 } t h h' ∧
      AddsPending { id := s.nextId, pc := i.pc, lanes := i.lanes, since := s.now
                    nearby := s.landsSoon h .ln w.bytes ⟨(lanesOf i.lanes).map fun l => (l, .slice l (A l).toNat), []⟩
                    vals := (lanesOf i.lanes).flatMap fun l => loadVals l (h.wb + d) (h.slice.read (l * 1024 + (A l).toNat) w.bytes)
                    regs := (List.range (widthRegs w)).map fun k => h.wb + d + k
                    again := some ⟨.illop, .ln, w, none, h.wb + d, [], i.pc⟩
                    windows := windowsOf (lanesOf i.lanes) n } {} h h') ∧
    (size ≤ 1024 → ∃ t h', exec (.stLn d w b x n) s = .next t ∧ t.sheaf? i.sheaf = some h' ∧ SameBut i.sheaf s t ∧ Moved i h h' ∧
      ({ h' with slice := h.slice, lanes := h.lanes, watchSkip := h.watchSkip } : Sheaf) = h ∧
      (∀ l k, l < 64 → i.lanes.getLsbD l → k < w.bytes →
        h'.slice.get (l * 1024 + (A l).toNat + k) = (h.storeBytes w l d).getD k 0) ∧
      ∀ a, (∀ l, l < 64 → i.lanes.getLsbD l → a < l * 1024 + (A l).toNat ∨ l * 1024 + (A l).toNat + w.bytes ≤ a) →
        h'.slice.get a = h.slice.get a)

/-- R307/15, R116/05, R226/11, R333/16: a plain store checks every lane first. When all pass, each lane's bytes are written at the place its
address gives, in ascending lane order, and the lanes move on, no register changing; when one fails, no lane writes and the store traps; one
that meets a remote store of its lane, or needs an overflow page that is not there, waits, and so does one that meets bytes a faulted load
of its lane has still to read.
R305, R307/15, R126/05: a store to accumulator memory writes nothing: where its addresses are aligned and in range it traps PERM in every
active lane, with the lowest lane's address. That a store writes at its issue is the model's choice (log 2); that an access waits for a
remote store, or for a faulted load, of its lane that it meets is the model's reading (log 47, log 74). -/
def Obligations.Stores : Prop :=
  (∀ (s : State) (i : Issue) (h : Sheaf) (d b n : Nat) (w : Width) (x : Idx), s.Issuing i h →
      let A := fun l => h.sget b + (match x with | .vec k => (h.vget l k).setWidth 64 | .imm k => BitVec.ofNat 64 (k * w.bytes))
      ∀ p ∈ ([(.stLn d w b x n, .ln), (.stSp d w b x n, .sp), (.stCl d w b x n, .cl), (.stBn d w b x n, .bn), (.stGl d w b x n, .gl)] :
          List (Instr × Space)),
        let c := s.checkLanes .store p.2 w.bytes A (lanesOf i.lanes)
        let bad := c.1.bad ++ c.2.watchLanes .store p.2 w.bytes A
        let waits := c.2.meetsRemote h.id c.1.ok w.bytes || c.2.storeWaits h c.1.ok
        let behind := c.2.behindLoad p.2 w.bytes A (c.1.ok.map fun y => y.1)
        (∀ t, s.orderWait? true false = some t → exec p.1 s = .next t) ∧
        (s.orderWait? true false = none →
          (∀ q, bad = [] → waits = false → behind = some q → exec p.1 s = .next (c.2.dependOnFault q)) ∧
          (bad = [] → waits = false → behind = none →
            ∃ t h', exec p.1 s = .next t ∧ t = (c.2.writeLanes (fun l => h.storeBytes w l d) false c.1.ok).retire ∧
              OnlyCaches s c.2 ∧ t.sheaf? i.sheaf = some h' ∧ Moved i h h' ∧
              ({ h' with slice := h.slice, peerDirty := h.peerDirty, lanes := h.lanes, watchSkip := h.watchSkip } : Sheaf) = h ∧
              ({ t with sheaves := s.sheaves, teams := s.teams, mem := s.mem, ctxs := s.ctxs, cores := s.cores, fields := s.fields
                        l2peer := s.l2peer, choices := s.choices } : State) = s) ∧
          (bad = [] → waits = true → exec p.1 s = .next c.2.stallMe) ∧
          (bad ≠ [] → ∃ cause lanes a, winning bad = some (cause, lanes, a) ∧
            exec p.1 s = .next (c.2.takeTrap i.sheaf cause 0 a lanes i.pc none)))) ∧
  (∀ (s : State) (i : Issue) (h : Sheaf) (d b n : Nat) (w : Width) (x : Idx), s.Issuing i h → s.orderWait? true false = none → i.lanes ≠ 0 →
      let A := fun l => h.sget b + (match x with | .vec k => (h.vget l k).setWidth 64 | .imm k => BitVec.ofNat 64 (k * w.bytes))
      (∀ l, l < 64 → i.lanes.getLsbD l → (A l).toNat % w.bytes = 0 ∧ (A l).toNat < 2 ^ 18) →
      exec (.stAc d w b x n) s = .next (s.takeTrap i.sheaf .perm 0 (A (lowestLane i.lanes)) i.lanes i.pc none))

/-- R309/15, R207, R208/10: an ordered store, relaxed or release, waits for what it, or its release, has to wait for; then it stores as a plain
one does, a release at system scope having written back the peer lines its sheaf left differing; it traps as a plain one does. That a store
writes at its issue is the model's choice (log 2); that an access waits for a remote store, or for a faulted load, of its lane that it meets
is the model's reading (log 47, log 74). -/
def Obligations.OrderedStores : Prop :=
  ∀ (s : State) (i : Issue) (h : Sheaf) (d a n : Nat) (w : Width) (sc : Scope) (o : Sys2Proof.Ordering), s.Issuing i h →
    let A := fun l => h.vget64 l a
    let reach := s.reach h sc none
    let c := s.checkLanes .store .gl w.bytes A (lanesOf i.lanes)
    let bad := c.1.bad ++ c.2.watchLanes .store .gl w.bytes A
    let waits := c.2.meetsRemote h.id c.1.ok w.bytes || c.2.storeWaits h c.1.ok
    let behind := c.2.behindLoad .gl w.bytes A (c.1.ok.map fun y => y.1)
    (∀ t, s.orderWait? true (o == .rel) = some t → exec (.stGlOrdered d a sc o w n) s = .next t) ∧
    (s.orderWait? true (o == .rel) = none →
      (∀ q, bad = [] → waits = false → behind = some q → exec (.stGlOrdered d a sc o w n) s = .next (c.2.dependOnFault q)) ∧
      (bad = [] → waits = false → behind = none →
        ∃ t h', exec (.stGlOrdered d a sc o w n) s = .next t ∧
          t = ((if o = .rel then c.2.releaseAt reach else c.2).writeLanes (fun l => h.storeBytes w l d) (reach == 6) c.1.ok).retire ∧
          t.sheaf? i.sheaf = some h' ∧ Moved i h h' ∧
          ({ h' with slice := h.slice, peerDirty := h.peerDirty, lanes := h.lanes, watchSkip := h.watchSkip } : Sheaf) = h) ∧
      (bad = [] → waits = true → exec (.stGlOrdered d a sc o w n) s = .next c.2.stallMe) ∧
      (bad ≠ [] → ∃ cause lanes x, winning bad = some (cause, lanes, x) ∧
        exec (.stGlOrdered d a sc o w n) s = .next (c.2.takeTrap i.sheaf cause 0 x lanes i.pc none)))

/-- R119, R120/05, R131/05: what an access's place reads and writes. A read after a write of a place gives the bytes written, a write leaves
every other byte of that memory as it was, and it touches no other memory. Host memory: outside peers, with no revision. -/
def Obligations.PlacesReadAndWrite : Prop :=
  ∀ (s : State) (h : Sheaf) (bs : List Byte),
    (∀ l off, s.sheaf? h.id = some h →
      ∃ h', (s.writeTarget h (.slice l off) bs false).sheaf? h.id = some h' ∧ h'.slice.read (l * 1024 + off) bs.length = bs ∧
        (∀ a, a < l * 1024 + off ∨ l * 1024 + off + bs.length ≤ a → h'.slice.get a = h.slice.get a) ∧
        SameBut h.id s (s.writeTarget h (.slice l off) bs false)) ∧
    (∀ id off t, s.team? id = some t →
      ∃ t', (s.writeTarget h (.team id off) bs false).team? id = some t' ∧ t'.mem.read off bs.length = bs ∧
        (∀ a, a < off ∨ off + bs.length ≤ a → t'.mem.get a = t.mem.get a) ∧ ({ t' with mem := t.mem } : Team) = t ∧
        (∀ k, k ≠ id → (s.writeTarget h (.team id off) bs false).team? k = s.team? k) ∧
        ({ s.writeTarget h (.team id off) bs false with teams := s.teams } : State) = s) ∧
    (∀ hpa, hpa < peerBase →
      let u := s.writeTarget h (.host none hpa) bs false
      u.mem.read hpa bs.length = bs ∧ (∀ a, a < hpa ∨ hpa + bs.length ≤ a → u.mem.get a = s.mem.get a) ∧ ({ u with mem := s.mem } : State) = s) ∧
    ∀ va hpa, hpa < peerBase → (s.ctx h.ctx).regionOf va = none →
      let u := s.writeTarget h (.host (some va) hpa) bs false
      u.mem.read hpa bs.length = bs ∧ (∀ a, a < hpa ∨ hpa + bs.length ≤ a → u.mem.get a = s.mem.get a) ∧
        ({ u with mem := s.mem, cores := s.cores } : State) = s

/-- R314/15, R204/09: the value an atomic writes, of the old value and the operand.
R313, R314, R315/15, R227/11: an atomic in each space. With all lanes' checks passed, each lane's operation is performed in ascending lane
order and its old value is pending; an `.sc` one enters one request for each lane in the sequencer's queue instead, and its result stays
pending until they are performed; a failing lane traps and no lane operates; an empty slot of a `.team` scope traps SPACE in every lane,
unless a lane's cause ranks above it. That an atomic is performed at its issue is the model's choice (log 2); that an access waits for a
remote store, or for a faulted load, of its lane that it meets is the model's reading (log 47, log 74). The 0 in $taddr of these SPACE traps
is the model's reading (log 30). -/
def Obligations.Atomics : Prop :=
  (∀ old x : Dword,
      let o := old.setWidth 32
      let y := x.setWidth 32
      let w := fun (z : Word) => z.setWidth 64
      let f := fun (k : Fmt) => BitVec.ofNat 64 (fop k .add .rne false (old.toNat % 2 ^ k.width) (x.toNat % 2 ^ k.width) 0).bits
      ∀ p ∈ ([(.addI32, w (o + y)), (.addI64, old + x), (.faddF16, f .f16), (.faddBf16, f .bf16), (.faddF32, f .f32), (.faddF64, f .f64),
          (.minI32, w (if o.toInt < y.toInt then o else y)), (.minN32, w (if o.toNat < y.toNat then o else y)),
          (.minI64, if old.toInt < x.toInt then old else x), (.minN64, if old.toNat < x.toNat then old else x),
          (.maxI32, w (if o.toInt < y.toInt then y else o)), (.maxN32, w (if o.toNat < y.toNat then y else o)),
          (.maxI64, if old.toInt < x.toInt then x else old), (.maxN64, if old.toNat < x.toNat then x else old),
          (.andB32, w (o &&& y)), (.andB64, old &&& x), (.orB32, w (o ||| y)), (.orB64, old ||| x), (.xorB32, w (o ^^^ y)), (.xorB64, old ^^^ x),
          (.exchB32, x), (.exchB64, x), (.casB32, x), (.casB64, x)] : List (AtomOp × Dword)), atomNew p.1 old x = p.2) ∧
  (∀ (s : State) (i : Issue) (h : Sheaf) (d slot n : Nat) (o : AtomOp) (sc : Scope) (r : Sys2Proof.Ordering), s.Issuing i h →
      let A := fun l => h.vget64 l (d + 2)
      let reach := s.reach h sc (some slot)
      let rel := r == .rel || r == .ar || r == .sc
      ∀ p ∈ ([(.atomSp d slot o sc r n, .sp), (.atomCl d slot o sc r n, .cl), (.atomBn d slot o sc r n, .bn), (.atomGl d slot o sc r n, .gl)] :
          List (Instr × Space)),
        let c := s.checkLanes .atomic p.2 (atomSize o) A (lanesOf i.lanes)
        let bad := c.1.bad ++ c.2.watchLanes .atomic p.2 (atomSize o) A
        let waits := c.2.meetsRemote h.id c.1.ok (atomSize o) || c.2.storeWaits h c.1.ok
        let behind := c.2.behindLoad p.2 (atomSize o) A (c.1.ok.map fun y => y.1)
        let u := if r = .rel ∨ r = .ar ∨ r = .sc then c.2.releaseAt reach else c.2
        let noTeam := sc = .team ∧ c.2.teamIn h slot = none ∧ ∀ f ∈ c.1.bad, causeRank .space ≤ causeRank f.cause
        (∀ t, s.orderWait? (!(r == .sc)) rel = some t → exec p.1 s = .next t) ∧
        (s.orderWait? (!(r == .sc)) rel = none →
          (noTeam → exec p.1 s = .next (c.2.trapAll .space 0 0)) ∧
          (∀ q, ¬ noTeam → bad = [] → waits = false → behind = some q → exec p.1 s = .next (c.2.dependOnFault q)) ∧
          (¬ noTeam → bad = [] → waits = false → behind = none →
            ∃ t h' q, exec p.1 s = .next t ∧ t.sheaf? i.sheaf = some h' ∧ Moved i h h' ∧ h'.pend = h.pend ++ [q] ∧
              q.regs = atomRegs o (h.wb + d) ∧ q.lanes = i.lanes ∧ q.windows = windowsOf (lanesOf i.lanes) n ∧
              ({ h' with pend := h.pend, slice := h.slice, peerDirty := h.peerDirty, lanes := h.lanes, watchSkip := h.watchSkip } : Sheaf) = h ∧
              (r ≠ .sc → q.vals = (u.atomLanes o d c.1.ok).1 ∧ q.tickets = 0 ∧ t.mem = (u.atomLanes o d c.1.ok).2.mem ∧
                t.teams = (u.atomLanes o d c.1.ok).2.teams ∧ t.seqQ = s.seqQ) ∧
              (r = .sc → q.vals = [] ∧ q.tickets = c.1.ok.length ∧ t.mem = u.mem ∧ t.teams = s.teams ∧
                (t.seqQ.map fun e => (e.sheaf, e.lane, e.op, e.target, e.operand)) =
                  (s.seqQ.map fun e => (e.sheaf, e.lane, e.op, e.target, e.operand)) ++
                    c.1.ok.map fun y => (h.id, y.1, some o, some y.2, (h.atomArgs o d y.1).1))) ∧
          (¬ noTeam → bad = [] → waits = true → exec p.1 s = .next c.2.stallMe) ∧
          (¬ noTeam → bad ≠ [] → ∃ cause lanes a, winning bad = some (cause, lanes, a) ∧
            exec p.1 s = .next (c.2.takeTrap i.sheaf cause 0 a lanes i.pc none))))

/-- R311, R312, R316, R318/15, R381/18: prefetches, cache control, fences and `icinv` change no register; a prefetch changes nothing but caches;
a failing or watched lane of `cctl` traps; `icinv` empties the instruction caches, loop buffers and windows of the cores its scope covers,
and its lanes move on; an `.sc` fence enters one request for each active lane in the sequencer's queue. That an access waits for a remote
store, or for a faulted load, of its lane that it meets is the model's reading (log 47, log 74). -/
def Obligations.CacheAndFenceInstructions : Prop :=
  ∀ (s : State) (i : Issue) (h : Sheaf) (b n : Nat) (w : Width) (x : Idx) (sc : Scope) (o : Sys2Proof.Ordering), s.Issuing i h →
    let reach := s.reach h sc none
    (∃ t h' v, exec (.pfGl w b x n) s = .next t ∧ OnlyCaches s v ∧ Completed i v t h h' ∧ OnlyLanes h h') ∧
    (∀ ins ∈ ([.cctlGlWb b x n, .cctlGlInv b x n, .cctlGlWbinv b x n] : List Instr),
      let c := s.checkLanes .load .gl 1 (s.ea b x 1) (lanesOf i.lanes)
      let bad := c.1.bad ++ c.2.watchLanes .load .gl 1 (s.ea b x 1)
      let behind := c.2.behindLoad .gl 128 (fun l => s.ea b x 1 l &&& ~~~127) (c.1.ok.map fun y => y.1)
      (∀ t, s.orderWait? true false = some t → exec ins s = .next t) ∧
      (s.orderWait? true false = none →
        (∀ q, bad = [] → c.2.meetsRemote h.id (c.1.ok.map fun x => (x.1, x.2.line)) 128 = false → behind = some q →
          exec ins s = .next (c.2.dependOnFault q)) ∧
        (bad = [] → c.2.meetsRemote h.id (c.1.ok.map fun x => (x.1, x.2.line)) 128 = false → behind = none →
          ∃ t h', exec ins s = .next t ∧ t.sheaf? i.sheaf = some h' ∧ Moved i h h' ∧ OnlyLanes h h' ∧
            ({ t with sheaves := s.sheaves, cores := s.cores, fields := s.fields, mem := s.mem, l2peer := s.l2peer, choices := s.choices } : State) = s) ∧
        (bad = [] → c.2.meetsRemote h.id (c.1.ok.map fun x => (x.1, x.2.line)) 128 = true → exec ins s = .next c.2.stallMe) ∧
        (bad ≠ [] → ∃ cause lanes a, winning bad = some (cause, lanes, a) ∧
          exec ins s = .next (c.2.takeTrap i.sheaf cause 0 a lanes i.pc none)))) ∧
    (∀ t, s.orderWait? (!(o == .sc)) true = some t → exec (.fence sc o) s = .next t) ∧
    (o ≠ .sc → s.orderWait? true true = none →
      ∃ t h', exec (.fence sc o) s = .next t ∧ t.sheaf? i.sheaf = some h' ∧ Moved i h h' ∧
        OnlyLanes { h with peerDirty := h'.peerDirty } h' ∧ (o ≠ .rel → 3 ≤ reach → (t.core h.core).noGlLines) ∧
        ((reach = 6 → o ≠ .acq → ∀ y ∈ h.peerDirty, s.peersDown.contains (moduleOf y) = false) →
          ({ t with sheaves := s.sheaves, cores := s.cores, mem := s.mem, l2peer := s.l2peer } : State) = s)) ∧
    (s.orderWait? false true = none →
      ∃ t h', exec (.fence sc .sc) s = .next t ∧ Completed i { s with seqQ := t.seqQ } t h h' ∧ OnlyLanes h h' ∧
        (t.seqQ.map fun e => (e.sheaf, e.lane, e.op, e.sys)) = (s.seqQ.map fun e => (e.sheaf, e.lane, e.op, e.sys)) ++
          (lanesOf i.lanes).map fun l => (h.id, l, none, reach == 6)) ∧
    (∀ t, s.orderWait? true true = some t → exec (.icinv sc) s = .next t) ∧
    (s.orderWait? true true = none →
      let g : Sheaf := if (s.icinvCores h sc).contains h.core then
          { h with loopBuf := [], lanes := h.lanes.map fun ln : Lane => { ln with winWords := [] } } else h
      ∃ t h', exec (.icinv sc) s = .next t ∧ t.sheaf? i.sheaf = some h' ∧ Moved i g h' ∧ OnlyLanes g h' ∧ (∀ c ∈ s.icinvCores h sc, (t.core c).icache = []) ∧
        ((s.icinvCores h sc).contains h.core → h'.loopBuf = [] ∧ ∀ ln ∈ h'.lanes, ln.winWords = []) ∧
        h'.s = h.s ∧ h'.v = h.v ∧ h'.p = h.p ∧
        ({ t with sheaves := s.sheaves, cores := s.cores } : State) = s)

/-- R224/10, R373/18: a remote store whose lanes all pass is in flight, one entry for each active lane in ascending order, with its bytes and
its PC, and counted against its launch; no memory changes until it is acknowledged. A lane that fails traps and none stores. That an access
waits for a faulted load of its lane that it meets is the model's reading (log 74). -/
def Obligations.RemoteStores : Prop :=
  ∀ (s : State) (i : Issue) (h : Sheaf) (d a n : Nat) (w : Width), s.Issuing i h →
    let A := fun l => h.vget64 l a
    let r := s.rstLanes w.bytes A (lanesOf i.lanes)
    let bad := r.1.2 ++ r.2.watchLanes .store .gl w.bytes A
    (∀ t, s.orderWait? true false = some t → exec (.rst d a w n) s = .next t) ∧
    (s.orderWait? true false = none →
      (∀ q, bad = [] → r.2.behindLoad .gl w.bytes A (r.1.1.map fun y => y.1) = some q → exec (.rst d a w n) s = .next (r.2.dependOnFault q)) ∧
      (bad = [] → r.2.behindLoad .gl w.bytes A (r.1.1.map fun y => y.1) = none → ∃ t h', exec (.rst d a w n) s = .next t ∧ t.sheaf? i.sheaf = some h' ∧ Moved i h h' ∧ OnlyLanes h h' ∧
        t.rsts = s.rsts ++ r.1.1.map (fun y => ⟨h.id, y.1, h.launch, h.ctx, h.core, h.rev, (A y.1).toNat, y.2.1, h.storeBytes w y.1 d, i.pc, y.2.2, s.nextId + y.1⟩) ∧
        t.nextId = s.nextId + 64 ∧
        t.mem = s.mem ∧ t.teams = s.teams ∧
        ∀ l, s.launch? h.launch = some l → ∃ l', t.launch? h.launch = some l' ∧ l'.rstsOut = l.rstsOut + r.1.1.length) ∧
      (bad ≠ [] → ∃ cause lanes x, winning bad = some (cause, lanes, x) ∧
        exec (.rst d a w n) s = .next (r.2.takeTrap i.sheaf cause 0 x lanes i.pc none)))

/-- R325, R326/16, R328/16, R177, R179/08, R195/09: `bar`, `arrive` and `phase`. The lanes wait until every lane that has not exited has come,
in a handler they trap ILLOP, without a team (or a carry entry) SPACE. In a later cycle, with nothing pending and no access of the sheaf
under way, an armed SAT flag traps SATURATE; else the sheaf arrives once for the generation: `bar` waits for it, `arrive` goes on with its
number, `phase` leaves its pipe and a phase record, whose spilled registers are read from their backing slots (log 22); where it has already
arrived it waits for that generation first. The 0 in $taddr of these SPACE traps is the model's reading (log 30). -/
def Obligations.BarrierArrivals : Prop :=
  ∀ (s : State) (i : Issue) (h : Sheaf) (d a c : Nat), s.Issuing i h → i.lanes ≠ 0 →
    (∀ p ∈ ([(.bar d, 0, d, 0, 0), (.arrive d a, 1, a, d, 0), (.phase d c, 2, d, 0, c)] : List (Instr × Nat × Nat × Nat × Nat)),
      h.gatherAt i.pc = none →
      let bad := s.teamIn h p.2.2.1 = none ∨ (p.2.1 = 2 ∧ (s.launchOf h).carry.length ≤ c)
      (h.tl ≠ 0 → exec p.1 s = .next (s.trapAll .illop 0 0)) ∧
      (h.tl = 0 → bad → exec p.1 s = .next (s.trapAll .space 0 0)) ∧
      (h.tl = 0 → ¬ bad → exec p.1 s = .next (s.modSheaf i.sheaf fun h =>
        { h with waits := h.waits ++ [⟨i.lanes, i.pc, .gather p.2.1 p.2.2.1 p.2.2.2.1 p.2.2.2.2, s.now, i.solo, h.wb, h.tl⟩] }))) ∧
    ∀ (w : Wait) (tm : Team), h.gatherAt i.pc = some w → i.lanes &&& ~~~w.lanes = 0 → h.live &&& ~~~w.lanes = 0 → w.since < s.now →
      h.pend = [] → (∀ r ∈ s.seqQ, r.sheaf ≠ i.sheaf) → (∀ r ∈ s.rsts, r.sheaf ≠ i.sheaf) →
      let rest := h.waits.filter fun x => !(x == w)
      let J : Issue := { i with lanes := w.lanes, solo := w.solo }
      let tm' := { tm with arr := tm.arr + 1, arrived := tm.arrived ++ [h.number], evt := true }
      let kept := s.carryEntry (s.launchOf h) c
      let sat := h.satarm && tm.satBefore s.now
      (∀ p ∈ ([(.bar d, 0, d, 0, 0), (.arrive d a, 1, a, d, 0), (.phase d c, 2, d, 0, c)] : List (Instr × Nat × Nat × Nat × Nat)),
        s.teamIn h p.2.2.1 = some tm →
        (sat = true → exec p.1 s = .next ((s.modSheaf i.sheaf fun x => { x with waits := x.waits.filter fun y => !(y == w) }).trapAll .saturate p.2.2.1 0)) ∧
        (sat = false → tm.arrived.contains h.number = true → exec p.1 s = .next (s.modSheaf i.sheaf fun x =>
          { x with waits := (x.waits.filter fun y => !(y == w)) ++ [{ w with kind := .later p.2.1 p.2.2.1 p.2.2.2.1 p.2.2.2.2 tm.gen }] }))) ∧
      ((∀ l, l < 64 → w.lanes.getLsbD l → (h.lane l).pc = i.pc) → h.tl = 0 → sat = false → tm.arrived.contains h.number = false →
      (s.teamIn h d = some tm → ∃ t h', exec (.bar d) s = .next t ∧ t.sheaf? i.sheaf = some h' ∧ t.team? tm.id = some tm' ∧
        h' = { h with waits := rest ++ [{ w with kind := .barrier tm.id tm.gen, since := s.now }] } ∧
        (∀ k, k ≠ i.sheaf → t.sheaf? k = s.sheaf? k) ∧ (∀ k, k ≠ tm.id → t.team? k = s.team? k) ∧
        ({ t with sheaves := s.sheaves, teams := s.teams } : State) = s) ∧
      (s.teamIn h a = some tm → ∃ t h', exec (.arrive d a) s = .next t ∧ t.sheaf? i.sheaf = some h' ∧ t.team? tm.id = some tm' ∧
        Moved J h h' ∧ h'.waits = rest ∧ h'.sget d = tm.gen.setWidth 64 ∧ (∀ k, k ≠ d → h'.sget k = h.sget k) ∧
        ({ h' with s := h.s, waits := h.waits, lanes := h.lanes } : Sheaf) = h ∧
        ({ t with sheaves := s.sheaves, teams := s.teams } : State) = s) ∧
      (s.teamIn h d = some tm → ∃ t h' g, exec (.phase d c) s = .next t ∧ t.sheaf? i.sheaf = some h' ∧ t.team? tm.id = some tm' ∧
        (((((s.modTeam tm.id fun x => x.arriveOne h.number).modSheaf i.sheaf fun x =>
          { x with waits := x.waits.filter fun y => !(y == w) }).noticeReturned i.sheaf).drawCarry i.sheaf c).2.sheaf? i.sheaf = some g) ∧
        (∀ l r, l < 64 → r ∉ s.coldRegs h (s.carryRegs h c) → g.virt l r = h.virt l r) ∧
        h'.place = .phase (fieldOfCore h.core) false tm.id c ∧ h'.waits = [] ∧ h'.p = h.p ∧ h'.wb = h.wb ∧ h'.ctrl = h.ctrl ∧ h'.flags = h.flags ∧
        (∀ k, h'.sget k = if (carryScalar kept).testBit k then h.sget k else 0) ∧
        (∀ l r, l < 64 → h'.virt l r =
          if h.wb ≤ r ∧ r < h.wb + 128 ∧ (carryVec kept).testBit (r - h.wb) then g.virt l r else 0) ∧
        (∀ l, l < h.lanes.length → (h'.lane l).pc = (if w.lanes.getLsbD l ∧ l < 64 then ((h.lane l).pass i.pc w.solo).pc else (h.lane l).pc)) ∧
        (∃ r ∈ (t.field (fieldOfCore h.core)).records, r.sheaf = i.sheaf) ∧
        ({ t with sheaves := s.sheaves, teams := s.teams, cores := s.cores, fields := s.fields, l2peer := s.l2peer,
                  choices := s.choices } : State) = s))

/-- R179/08, R327/16, R51/02: the check after a cycle's barrier events. With an event, ARR at least NEED and no byte outstanding, the generation
completes, an ended team's too: GEN rises by 1, ARR and the arrivals are 0, NEED falls by the sheaves that ended after they had arrived, and
every wait for it ends; in any other case nothing of the barrier changes but that the events have been looked at. -/
def Obligations.GenerationsComplete : Prop :=
  ∀ (s : State) (tm : Team), s.team? tm.id = some tm →
    (tm.evt = true → tm.need ≤ tm.arr → tm.pend ≤ 0 →
      ∃ tm', (s.checkBarrier tm).team? tm.id = some tm' ∧ tm'.gen = tm.gen + 1 ∧ tm'.arr = 0 ∧ tm'.pend = 0 ∧ tm'.arrived = [] ∧
        tm'.need = tm.need - tm.lowered ∧ tm'.evt = false ∧ tm'.expected = 0 ∧ tm'.mem = tm.mem ∧ tm'.maps = tm.maps ∧
        ∀ h ∈ s.sheaves, ∃ h', (s.checkBarrier tm).sheaf? h.id = some h' ∧
          (∀ w ∈ h'.waits, w.kind ≠ .barrier tm.id tm.gen ∧ w.kind ≠ .generation tm.id tm.gen)) ∧
    (¬ (tm.evt = true ∧ tm.need ≤ tm.arr ∧ tm.pend ≤ 0) →
      ({ s.checkBarrier tm with teams := s.teams } : State) = s ∧
      (s.checkBarrier tm).team? tm.id = some { tm with evt := false, expected := 0 } ∧ ∀ k, k ≠ tm.id → (s.checkBarrier tm).team? k = s.team? k)

/-- R325, R326, R327, R329/16, R177/08, R63/02: `bar.wait`, `bexp`, `gate` and `release`, each with what it writes, where it waits, and where it
traps. That `bar.wait` on a generation already completed passes at its issue is the model's reading (log 43). The 0 in $taddr of these SPACE
traps is the model's reading (log 30). -/
def Obligations.BarrierWaitsAndGates : Prop :=
  ∀ (s : State) (i : Issue) (h : Sheaf) (d a : Nat), s.Issuing i h →
    let A := s.readS h (lowestLane i.lanes) a
    let waits := fun k => s.modSheaf i.sheaf fun h => { h with waits := h.waits ++ [⟨i.lanes, i.pc, k, s.now, i.solo, h.wb, h.tl⟩] }
    (h.tl ≠ 0 → exec (.barWait d a) s = .next (s.trapAll .illop 0 0)) ∧
    (h.tl = 0 → (s.teamIn h d = none ∨ ∃ tm, s.teamIn h d = some tm ∧ tm.ended = true) → exec (.barWait d a) s = .next (s.trapAll .space 0 0)) ∧
    (∀ tm, s.teamIn h d = some tm → tm.ended = false → h.tl = 0 →
      let n := (tm.gen - A.setWidth 32).toNat
      (1 ≤ n ∧ n < 2 ^ 31 → ∃ t h', exec (.barWait d a) s = .next t ∧ Completed i { s with cores := t.cores } t h h' ∧ OnlyLanes h h' ∧
        (1 ≤ tm.scope ∨ 3 ≤ tm.doneReach → (t.core h.core).noGlLines)) ∧
      (¬ (1 ≤ n ∧ n < 2 ^ 31) → exec (.barWait d a) s = .next (waits (.generation tm.id (A.setWidth 32))))) ∧
    (∀ tm, s.teamIn h d = some tm →
      let ok := tm.ended = false ∧ 1 ≤ A.toNat ∧ A.toNat < 2 ^ 31 ∧ s.pendNow tm + A.toNat < (2 ^ 31 : Int)
      (ok → ∃ t h', exec (.bexp d a) s = .next t ∧ Completed i { s with teams := t.teams } t h h' ∧ OnlyLanes h h' ∧
        t.team? tm.id = some { tm with pend := tm.pend + A.toNat, expected := tm.expected + A.toNat, evt := true } ∧ ∀ k, k ≠ tm.id → t.team? k = s.team? k) ∧
      (¬ ok → exec (.bexp d a) s = .next (s.trapAll .space 0 0))) ∧
    (s.teamIn h d = none → exec (.bexp d a) s = .next (s.trapAll .space 0 0)) ∧
    (let l := s.launchOf h
     (l.dependent = false → ∃ t h', exec .gate s = .next t ∧ Completed i s t h h' ∧ OnlyLanes h h') ∧
     (l.dependent = true → l.gateOpen = true → ∃ t h', exec .gate s = .next t ∧ Completed i { s with cores := t.cores } t h h' ∧ OnlyLanes h h' ∧
        (t.core h.core).noGlLines) ∧
     (l.dependent = true → l.gateOpen = false → exec .gate s = .next (waits .gate))) ∧
    (s.orderWait? true true = none → ∃ t h', exec .release s = .next t ∧ Completed i { s with launches := t.launches } t h h' ∧ OnlyLanes h h' ∧
      (∀ l, s.launch? h.launch = some l → t.launch? h.launch = some { l with releases := l.releases + 1 }) ∧
      ∀ k, k ≠ h.launch → t.launch? k = s.launch? k) ∧
    (∀ t, s.orderWait? true true = some t → exec .release s = .next t)

/-- R181/08, R323/15, R330/16: `twait` and `cwait` wait where their lanes are, until the token counter or the chunk bits are there; `cwait` with
no bit named completes, and without a team traps SPACE. A counter has reached a value up to half its range behind it.
R181/08, R183/08, R323/15, R330/16: the completion of waits that are satisfied at the start of a cycle after they began: at trap level 0
their lanes go on and they wait no more; the other waits and every register stay as they were; a `cwait.clr` marks its bits for clearing.
That a `cwait` whose bits are set at its issue waits until the next cycle is the model's reading (log 24). The 0 in $taddr of these SPACE
traps is the model's reading (log 30). -/
def Obligations.TokenAndChunkWaits : Prop :=
  ((∀ (s : State) (i : Issue) (h : Sheaf) (d a q k : Nat) (n : BitVec 16), s.Issuing i h →
      let A := s.readS h (lowestLane i.lanes) a
      let waits := fun k => s.modSheaf i.sheaf fun h => { h with waits := h.waits ++ [⟨i.lanes, i.pc, k, s.now, i.solo, h.wb, h.tl⟩] }
      exec (.twait d a) s = .next (waits (.token d (A.setWidth 16) s.now)) ∧ exec (.twaitImm d n) s = .next (waits (.token d n s.now)) ∧
      ∀ p ∈ ([(.cwait d a q k, false), (.cwaitClr d a q k, true)] : List (Instr × Bool)),
        (s.teamIn h k = none → exec p.1 s = .next (s.trapAll .space 0 0)) ∧
        ∀ tm, s.teamIn h k = some tm →
          (A = 0 → ∃ t h', exec p.1 s = .next t ∧ Completed i s t h h' ∧ OnlyLanes h h') ∧
          (A ≠ 0 → exec p.1 s = .next (waits (.chunk tm.id d q A p.2)))) ∧
    (∀ (n : Nat) (v : BitVec 16), n < 2 ^ 15 → tokenReached (v + BitVec.ofNat 16 n) v = true) ∧
    ∀ (n : Nat) (v : BitVec 16), 1 ≤ n → n ≤ 2 ^ 15 → tokenReached (v - BitVec.ofNat 16 n) v = false) ∧
  (∀ (s : State) (k : Nat) (h : Sheaf) (w : Wait), s.sheaf? k = some h → h.tl = 0 → h.waits = [w] →
      (∀ l, l < 64 → w.lanes.getLsbD l → (h.lane l).pc = w.pc) →
      let J : Issue := ⟨k, w.lanes, w.pc, h.core, 0, w.solo, none, false⟩
      (∀ tk v since, w.kind = .token tk v since → since < s.now → tokenReached ((s.resOf h).bank.getD tk 0) v = true →
        ∃ t h', exec (.twaitCompletion k) s = .next t ∧ t.sheaf? k = some h' ∧ Moved J h h' ∧ h'.waits = [] ∧
          ({ h' with waits := h.waits, lanes := h.lanes } : Sheaf) = h ∧ ((s.resOf h).wide.getD tk false = true → (t.core h.core).noGlLines) ∧
          ({ t with sheaves := s.sheaves, cores := s.cores } : State) = s ∧ ∀ j, j ≠ k → t.sheaf? j = s.sheaf? j) ∧
      (∀ tk v since, w.kind = .token tk v since → (¬ since < s.now ∨ tokenReached ((s.resOf h).bank.getD tk 0) v = false) →
        exec (.twaitCompletion k) s = .next s) ∧
      ∀ team map q m clear tm, w.kind = .chunk team map q m clear → s.team? team = some tm →
        (w.since < s.now ∧ tm.quarter map q &&& m = m →
          ∃ t h' tm', exec (.cwaitCompletion k) s = .next t ∧ t.sheaf? k = some h' ∧ t.team? team = some tm' ∧ Moved J h h' ∧ h'.waits = [] ∧
            ({ h' with waits := h.waits, lanes := h.lanes } : Sheaf) = h ∧ ({ tm' with clears := tm.clears } : Team) = tm ∧
            tm'.quarter map q = tm.quarter map q ∧
            (clear = true → ((cget 0 tm'.clears map).extractLsb' (64 * q) 64 &&& m = m ∨ 4 ≤ q)) ∧
            (3 ≤ tm.chunkReach map q m → (t.core h.core).noGlLines) ∧
            ({ t with sheaves := s.sheaves, cores := s.cores, teams := s.teams } : State) = s) ∧
        (¬ (w.since < s.now ∧ tm.quarter map q &&& m = m) → exec (.cwaitCompletion k) s = .next s))

/-- R55, R56/02, R154, R160/07, R331, R332/16: `fork`. With a free revision, a context below its quota and a revision above depth 15, a child is
created with its task record, queued at the head of its core's deque, or, with the deque full, run inline while its parent waits; the handle
names its fork sequence and revision. At depth 15, at the quota or with no revision id free it is REFUSED; where the parent's record needs a
spilled register that has no mapping it traps REGBACK. In a handler it traps ILLOP; its address traps ALIGN or SPACE, a carry set beyond the
table SPACE. The drain before the checks is the model's reading (log 44), and so is that the carry entry is read as the fork executes (log
78); a spilled register is read from its backing slot (log 22). The address in $taddr of its ALIGN and SPACE traps, 0 for a carry set, is
the model's reading (log 30). -/
def Obligations.Forks : Prop :=
  ∀ (s : State) (i : Issue) (h : Sheaf) (d a c : Nat), s.Issuing i h → h.pend = [] →
    (∀ t, s.orderWait? true true = some t → exec (.fork d a c) s = .next t) ∧
    (s.orderWait? true true = none →
    let A := s.readS h (lowestLane i.lanes) a
    let k := s.ctx h.ctx
    let e := s.carryEntry (s.launchOf h) c
    let full := k.depth h.rev = 15 ∨ k.overQuota = true ∨ ∀ r, 1 ≤ r → r ≤ 65535 → r ∈ s.revsUsed
    let u := (s.pick 65535).2
    let q := u.drawCold i.sheaf (u.coldOf h)
    (h.tl ≠ 0 → exec (.fork d a c) s = .next (s.trapAll .illop 0 0)) ∧
    (h.tl = 0 → A.toNat % 4 ≠ 0 → exec (.fork d a c) s = .next (s.trapAll .align 0 A)) ∧
    (h.tl = 0 → A.toNat % 4 = 0 → 2 ^ 56 ≤ A.toNat → exec (.fork d a c) s = .next (s.trapAll .space 0 A)) ∧
    (h.tl = 0 → A.toNat % 4 = 0 → A.toNat < 2 ^ 56 → (s.launchOf h).carry.length ≤ c → exec (.fork d a c) s = .next (s.trapAll .space 0 0)) ∧
    (h.tl = 0 → A.toNat % 4 = 0 → A.toNat < 2 ^ 56 → c < (s.launchOf h).carry.length →
      (full → ∃ t h', exec (.fork d a c) s = .next t ∧ Completed i { s with choices := t.choices, cores := t.cores } t h h' ∧
        h'.sget d = BitVec.ofNat 64 (h.forkSeq.toNat * 2 ^ 32 + 2 * 2 ^ 16) ∧ (∀ n, n ≠ d → h'.sget n = h.sget n) ∧ h'.forkSeq = h.forkSeq + 1 ∧
        h'.children = h.children ∧ t.core h.core = { s.core h.core with forks := (s.core h.core).forks + 1 } ∧ ∀ n, n ≠ h.core → t.core n = s.core n) ∧
      (¬ full → (s.core h.core).dequeFull = false →
        ∃ t h' rev child, exec (.fork d a c) s = .next t ∧ t.sheaf? i.sheaf = some h' ∧ Moved i h h' ∧ 1 ≤ rev ∧ rev ≤ 65535 ∧ rev ∉ s.revsUsed ∧
          h'.sget d = BitVec.ofNat 64 (h.forkSeq.toNat * 2 ^ 32 + rev) ∧ (∀ n, n ≠ d → h'.sget n = h.sget n) ∧ h'.v = h.v ∧ h'.p = h.p ∧
          h'.forkSeq = h.forkSeq + 1 ∧ h'.children = h.children ++ [⟨h.forkSeq, rev, s.nextId, false⟩] ∧
          child ∈ t.sheaves ∧ child.id = s.nextId ∧ child.parent = some i.sheaf ∧ child.place = .deque i.core ∧ child.rev = rev ∧ child.wb = h.wb ∧
          child.v = h.carriedV e ∧ child.exited = ~~~i.lanes ∧ child.carrySet = c ∧
          (s.nextId ≠ i.sheaf → child.s = h.carriedS e ∧ ∀ l, l < 64 → (child.lane l).pc = A.setWidth 56) ∧
          (t.core h.core).deque = s.nextId :: (s.core h.core).deque ∧ (t.core h.core).forks = (s.core h.core).forks + 1 ∧
          (∃ r ∈ (t.field (fieldOfCore h.core)).records, r.sheaf = s.nextId) ∧ t.mem = s.mem ∧
          ((t.ctx h.ctx).rev? rev).map (fun v => (v.parent, v.depth)) = some (h.rev, k.depth h.rev + 1)) ∧
      (¬ full → (s.core h.core).dequeFull = true → ∀ b, q.1 = some b → exec (.fork d a c) s = .next (q.2.trapAll .regback 0 b)) ∧
      (¬ full → (s.core h.core).dequeFull = true → q.1 = none →
        ∃ t h' g rev child w, q.2.sheaf? i.sheaf = some g ∧ (∀ l r, l < 64 → r ∉ s.coldOf h → g.virt l r = h.virt l r) ∧ exec (.fork d a c) s = .next t ∧ t.sheaf? i.sheaf = some h' ∧ h'.place = .suspended ∧ h'.waits = h.waits ++ [w] ∧
          w.lanes = i.lanes ∧ w.pc = i.pc ∧ w.kind = .inline s.nextId d (BitVec.ofNat 64 (h.forkSeq.toNat * 2 ^ 32 + 2 ^ 16 + rev)) ∧
          h'.s = h.s ∧ h'.v = g.v ∧ h'.p = h.p ∧ child ∈ t.sheaves ∧ child.id = s.nextId ∧ child.inlineChild = true ∧ (s.nextId ≠ i.sheaf → child.place = .resident) ∧
          child.rev = rev ∧ child.slot = h.slot ∧ (t.core h.core).deque = (s.core h.core).deque ∧ (t.core h.core).noGlLines ∧
          ∃ r ∈ (t.field (fieldOfCore h.core)).records, r.sheaf = i.sheaf)))

/-- R334/16: `join`, with nothing pending: in a handler ILLOP; a REFUSED handle completes with status 1, an acquire at field scope as any join;
the handle of an unjoined child makes the lanes wait for it; any other traps SPACE. The 0 in $taddr of these SPACE traps is the model's
reading (log 30). -/
def Obligations.Joins : Prop :=
  ∀ (s : State) (i : Issue) (h : Sheaf) (d a : Nat), s.Issuing i h → h.pend = [] →
    let A := s.readS h (lowestLane i.lanes) a
    (h.tl ≠ 0 → exec (.join d a) s = .next (s.trapAll .illop 0 0)) ∧
    (h.tl = 0 → A.extractLsb' 16 2 = 2 → ∃ t h', exec (.join d a) s = .next t ∧ Completed i { s with cores := t.cores } t h h' ∧
      WritesScalar d 1 h h' ∧ (t.core h.core).noGlLines ∧ ∀ n, n ≠ h.core → t.core n = s.core n) ∧
    (h.tl = 0 → A.extractLsb' 16 2 ≠ 2 → (∀ c ∈ h.children, ¬ (c.rev = A.toNat % 65536 ∧ c.seq = A.extractLsb' 32 16)) →
      exec (.join d a) s = .next (s.trapAll .space 0 0)) ∧
    (h.tl = 0 → A.extractLsb' 16 2 ≠ 2 → (∃ c ∈ h.children, c.rev = A.toNat % 65536 ∧ c.seq = A.extractLsb' 32 16) →
      exec (.join d a) s = .next (s.modSheaf i.sheaf fun h =>
        { h with waits := h.waits ++ [⟨i.lanes, i.pc, .join (A.toNat % 65536) none d, s.now, i.solo, h.wb, h.tl⟩] }))

/-- R339/16, R161/07: the revision region table. `rgnr` reads a word of an entry; `rgnw` sets an entry that keeps the table's rules, in a
context without revisions but the root, from 32 bytes of memory, writing those bytes to its entry of the context's table in memory, where it
has one, and changes no other entry and no register; REGION otherwise, ALIGN and SPACE for its operands. That the entry lies in the
context's own memory at the table's address, 0 meaning no table, and that the table is read there again, is the model's reading (log 15).
The 0 in $taddr of these SPACE traps is the model's reading (log 30). -/
def Obligations.RegionTable : Prop :=
  ∀ (s : State) (i : Issue) (h : Sheaf) (d a b : Nat), s.Issuing i h →
    let A := s.readS h (lowestLane i.lanes) a
    let B := s.readS h (lowestLane i.lanes) b
    let k := s.ctx h.ctx
    (A.toNat ≤ 63 → B.toNat ≤ 3 → ∃ t h', exec (.rgnr d a b) s = .next t ∧ Completed i s t h h' ∧
      WritesScalar d ((cget 0 k.regions A.toNat).extractLsb' (64 * B.toNat) 64) h h') ∧
    (63 < A.toNat ∨ 3 < B.toNat → exec (.rgnr d a b) s = .next (s.trapAll .space 0 0)) ∧
    (∀ t, s.orderWait? true true = some t → exec (.rgnw a b) s = .next t) ∧
    (s.orderWait? true true = none →
      (B.toNat % 32 ≠ 0 → exec (.rgnw a b) s = .next (s.trapAll .align 0 B)) ∧
      (B.toNat % 32 = 0 → 63 < A.toNat → exec (.rgnw a b) s = .next (s.trapAll .space 0 0)) ∧
      (B.toNat % 32 = 0 → A.toNat ≤ 63 → B.toNat < 2 ^ 56 →
        ∀ bs u, s.readVirtual h.core h.ctx h.rev B.toNat 32 .load = (.ok bs, u) →
          let e : BitVec 256 := BitVec.ofNat 256 (natOfBytes bs)
          let U := if k.revs = [] then u.readRegions h.ctx else u
          let K := U.ctx h.ctx
          (K.regionOk A.toNat e = true → k.revs = [] → ∃ t h', exec (.rgnw a b) s = .next t ∧ t.sheaf? i.sheaf = some h' ∧ Moved i h h' ∧
            OnlyLanes h h' ∧ (∀ n, cget 0 (t.ctx h.ctx).regions n = if n = A.toNat then e else cget 0 K.regions n) ∧
            t.mem = (if K.regionTable = 0 then U else ((U.modCtx h.ctx fun c => { c with regions := cset 0 c.regions A.toNat e }).writeVirtual h.core h.ctx 0
              (K.regionTable.toNat + 32 * A.toNat) bs).2).mem ∧
            t.teams = s.teams ∧ t.launches = s.launches ∧ ∀ j, j ≠ h.ctx → t.ctx j = s.ctx j) ∧
          (K.regionOk A.toNat e = false ∨ k.revs ≠ [] → exec (.rgnw a b) s = .next (U.trapAll .region 0 0))))

/-- R99/04, R341, R342/16, R122/05: giving resources back. `shrink` to a legal budget keeps the registers below it and drops the others;
`spfree` makes the named pages relocated, read as 0, and leaves every other byte of the team's scratch and its slices. Both trap otherwise.
The 0 in $taddr of these SPACE traps is the model's reading (log 30). -/
def Obligations.GivingBack : Prop :=
  ∀ (s : State) (i : Issue) (h : Sheaf) (d a b : Nat), s.Issuing i h →
    let A := s.readS h (lowestLane i.lanes) a
    let n := A.toNat
    let m := (s.readS h (lowestLane i.lanes) b).toNat
    let ok := n % 16 = 0 ∧ 128 ≤ n ∧ n ≤ (s.launchOf h).budget ∧ h.wb + 128 ≤ n
    (ok → h.pend = [] → ∃ t h', exec (.shrink a) s = .next t ∧ Completed i { s with cores := t.cores } t h h' ∧ h'.budget = n ∧
      (∀ l r, l < 64 → h'.virt l r = if r < n then h.virt l r else 0) ∧
      ({ h' with budget := h.budget, v := h.v, lanes := h.lanes, watchSkip := h.watchSkip } : Sheaf) = h) ∧
    (¬ ok → exec (.shrink a) s = .next (s.trapAll .space 0 0)) ∧
    (n % 4096 ≠ 0 → exec (.spfree d a b) s = .next (s.trapAll .align 0 A)) ∧
    (n % 4096 = 0 → s.teamIn h d = none → exec (.spfree d a b) s = .next (s.trapAll .space 0 0)) ∧
    ∀ tm, s.teamIn h d = some tm → n % 4096 = 0 →
      let ok := tm.scope < 2 ∧ 1 ≤ m ∧ n + 4096 * m ≤ tm.allocated ∧ tm.floor ≤ n
      (ok → ∃ t h' tm', exec (.spfree d a b) s = .next t ∧ Completed i { s with teams := t.teams, cores := t.cores } t h h' ∧ OnlyLanes h h' ∧
        t.team? tm.id = some tm' ∧ (∀ x, tm'.mem.get x = if n ≤ x ∧ x < n + 4096 * m then 0 else tm.mem.get x) ∧
        (∀ p, p ∈ tm'.reloc ↔ (n / 4096 ≤ p ∧ p < n / 4096 + m) ∨ p ∈ tm.reloc) ∧ ({ tm' with mem := tm.mem, reloc := tm.reloc } : Team) = tm ∧
        ∀ k, k ≠ tm.id → t.team? k = s.team? k) ∧
      (¬ ok → exec (.spfree d a b) s = .next (s.trapAll .space 0 0))

/-- R319/15, R365/18, R147/06: `cpy`, `wnw` and `xchg`. A legal card of the producer sheaf, read from aligned memory, enters its engine's queue,
or its lanes wait while that is full; the checks that fail trap in their order, SPACE, ALIGN, SPACE, the card's access, COPYISS, SPACE,
PERM. The 0 in $taddr of these SPACE traps is the model's reading (log 30). -/
def Obligations.EnginePosts : Prop :=
  ∀ (s : State) (i : Issue) (h : Sheaf) (d a n : Nat), s.Issuing i h →
    (∀ ins ∈ ([.cpy d a n, .wnw d a n, .xchg d a n] : List Instr), ∀ t, s.orderWait? true true = some t → exec ins s = .next t) ∧
    (s.orderWait? true true = none →
    let A := s.readS h (lowestLane i.lanes) a
    ∀ p ∈ ([(.cpy d a n, 1), (.wnw d a n, 2), (.xchg d a n, 3)] : List (Instr × Nat)),
      (s.teamIn h d = none → exec p.1 s = .next (s.trapAll .space 0 0)) ∧
      ∀ tm, s.teamIn h d = some tm →
        (A.toNat % 128 ≠ 0 → exec p.1 s = .next (s.trapAll .align 0 A)) ∧
        (A.toNat % 128 = 0 → 2 ^ 56 ≤ A.toNat → exec p.1 s = .next (s.trapAll .space 0 A)) ∧
        (A.toNat % 128 = 0 → A.toNat < 2 ^ 56 → ∀ c u, s.readCard h.core h.ctx h.rev A.toNat = (.error c, u) → c ≠ .uncorr →
          exec p.1 s = .next (u.trapAll c 0 A)) ∧
        (A.toNat % 128 = 0 → A.toNat < 2 ^ 56 → ∀ card u, s.readCard h.core h.ctx h.rev A.toNat = (.ok card, u) →
          let j : Job := { id := 0, engine := p.2, field := fieldOfCore h.core, core := h.core, ctx := h.ctx, launch := some h.launch
                           poster := some i.sheaf, rev := h.rev, card := card, cardAddr := A, slots := h.slots, team := some tm.id
                           scope := cardScope card }
          let bad := (cardEngine card == p.2 && cardOk card h.slots) = false
          (tm.producer ≠ h.number ∨ h.task = true → exec p.1 s = .next (u.trapAll .copyiss 0 0)) ∧
          (tm.producer = h.number → h.task = false → bad → exec p.1 s = .next (u.trapAll .space 0 0)) ∧
          (tm.producer = h.number → h.task = false → ¬ bad → cardIntoAcc card = true → exec p.1 s = .next (u.trapAll .perm 0 0)) ∧
          (tm.producer = h.number → h.task = false → ¬ bad → cardIntoAcc card = false →
            (s.queueRoom (fieldOfCore h.core) p.2 h.ctx = true → ∃ t h', exec p.1 s = .next t ∧
              Completed i { u with nextId := s.nextId + 1, jobs := s.jobs ++ [{ j with id := s.nextId }] } t h h' ∧ OnlyLanes h h' ∧ OnlyCaches s u) ∧
            (s.queueRoom (fieldOfCore h.core) p.2 h.ctx = false → ∃ t h', exec p.1 s = .next t ∧ t.sheaf? i.sheaf = some h' ∧
              h' = { h with waits := h.waits ++ [⟨i.lanes, i.pc, .equeue j, s.now, i.solo, h.wb, h.tl⟩] } ∧ t.jobs = s.jobs))))

/-- R345, R346/17, R144/06: a matrix post whose operands pass its checks puts one command at the FIFO's end, with its operands copied from four
scalars, and its lanes move on; while 64 are held, its lanes wait; misaligned operands trap ALIGN before any other fault traps SPACE. That
`mswap` copies four scalars too, and that the unused scalars of `mclr` trap SPACE, are the model's readings (log 45). The 0 in $taddr of
these SPACE traps is the model's reading (log 30). -/
def Obligations.MatrixPosts : Prop :=
  ∀ (s : State) (i : Issue) (h : Sheaf) (q tk a n : Nat), s.Issuing i h →
    ∀ p ∈ ([(.mmulBf16 q tk a n, .mmul .bf16, a), (.mmulF16 q tk a n, .mmul .f16, a), (.mmulE4m3 q tk a n, .mmul .e4m3, a),
        (.mmulE5m2 q tk a n, .mmul .e5m2, a), (.mmbE2m1 q tk a n, .mmb, a), (.msca q tk a n, .msca, a), (.mldwBf16 q tk a n, .mldw (some .bf16), a),
        (.mldwF16 q tk a n, .mldw (some .f16), a), (.mldwE4m3 q tk a n, .mldw (some .e4m3), a), (.mldwE5m2 q tk a n, .mldw (some .e5m2), a),
        (.mldwE2m1 q tk a n, .mldw none, a), (.mswap q tk n, .mswap, 0), (.mdrainF32 q tk a n, .mdrain .f32, a),
        (.mdrainBf16 q tk a n, .mdrain .bf16, a), (.mdrainF16 q tk a n, .mdrain .f16, a), (.mdrainE4m3 q tk a n, .mdrain .e4m3, a),
        (.mdrainE5m2 q tk a n, .mdrain .e5m2, a), (.mclr q tk a n, .mclr, a)] : List (Instr × MatOp × Nat)),
      let c : MatCmd := { id := s.nextId, ctx := h.ctx, launch := h.launch, op := p.2.1, set := q, token := tk
                          s0 := h.sget p.2.2, s1 := h.sget (p.2.2 + 1), s2 := h.sget (p.2.2 + 2), s3 := h.sget (p.2.2 + 3)
                          satTeams := h.slots.filterMap id, posted := s.now }
      let k := (s.matCheck h c).1
      (k.align = true → exec p.1 s = .next (s.trapAll .align 0 c.addrOf)) ∧
      (k.align = false → k.space = true → exec p.1 s = .next (s.trapAll .space 0 0)) ∧
      (∀ t, k.align = false → k.space = false → s.orderWait? true true = some t → exec p.1 s = .next t) ∧
      (k.align = false → k.space = false → s.orderWait? true true = none → (s.core h.core).fifo.length < 64 →
        ∃ t h' c', exec p.1 s = .next t ∧ Completed i { s with cores := t.cores, nextId := s.nextId + 1 } t h h' ∧ OnlyLanes h h' ∧
          ({ c' with src := none, dst := none } : MatCmd) = c ∧ (t.core h.core).fifo = (s.core h.core).fifo ++ [c'] ∧
          ({ t.core h.core with fifo := (s.core h.core).fifo } : Core) = s.core h.core ∧ ∀ x, x ≠ h.core → t.core x = s.core x) ∧
      (k.align = false → k.space = false → s.orderWait? true true = none → 64 ≤ (s.core h.core).fifo.length →
        ∃ t h' w, exec p.1 s = .next t ∧ t.sheaf? i.sheaf = some h' ∧ h' = { h with waits := h.waits ++ [w] } ∧ w.lanes = i.lanes ∧ w.pc = i.pc ∧
          SameBut i.sheaf { s with nextId := s.nextId + 1 } t)

/-- R145/06, R354/17, R360/17: `mpush` moves a ring's head by its number of slots where they are free, waits where they are not, and traps SPACE
where the ring could never hold them; `mstat` writes four scalars and nothing else. The readings of the matrix chapter are the model's (log
64). The 0 in $taddr of these SPACE traps is the model's reading (log 30). -/
def Obligations.RingPushesAndStatus : Prop :=
  ∀ (s : State) (i : Issue) (h : Sheaf) (a n : Nat), s.Issuing i h →
    let x := h.sget a
    let q := (x.extractLsb' 0 2).toNat
    let m := (x.extractLsb' 32 16).toNat + 1
    let r := (s.core h.core).rings.getD q {}
    (2 ^ r.logsz < m → exec (.mpush a n) s = .next (s.trapAll .space 0 0)) ∧
    (∀ t, m ≤ 2 ^ r.logsz → s.orderWait? true true = some t → exec (.mpush a n) s = .next t) ∧
    (m ≤ 2 ^ r.logsz → s.orderWait? true true = none → q < (s.core h.core).rings.length →
      (r.filled + m ≤ 2 ^ r.logsz → ∃ t h', exec (.mpush a n) s = .next t ∧ Completed i { s with cores := t.cores } t h h' ∧ OnlyLanes h h' ∧
        (t.core h.core).rings.getD q {} = { r with head := r.head + BitVec.ofNat 32 m } ∧
        (∀ k, k ≠ q → (t.core h.core).rings.getD k {} = (s.core h.core).rings.getD k {}) ∧
        ({ t.core h.core with rings := (s.core h.core).rings } : Core) = s.core h.core ∧ ∀ k, k ≠ h.core → t.core k = s.core k) ∧
      (2 ^ r.logsz < r.filled + m → exec (.mpush a n) s = .next (s.modSheaf i.sheaf fun h =>
        { h with waits := h.waits ++ [⟨i.lanes, i.pc, .ring q m, s.now, i.solo, h.wb, h.tl⟩] }))) ∧
    ∃ t h', exec (.mstat a n) s = .next t ∧ Completed i s t h h' ∧
      (∀ k, k < 4 → h'.sget (a + k) = s.quadStatus h.core h.ctx k) ∧ (∀ k, k < a ∨ a + 4 ≤ k → h'.sget k = h.sget k) ∧
      ({ h' with s := h.s, lanes := h.lanes, watchSkip := h.watchSkip } : Sheaf) = h

/-- R10/00, R101, R104/04, R165/07, R128/05, R383, R389, R390, R391/19: module reset and bring-up. After reset DEVSTAT reads 0, no sheaf, launch
or job exists, the cycle is 0, and module memory reads 0 while pooled and peer memory keep their contents. Bring-up steps complete only in
order and only where none has failed; a failing step sets FWERR and stays; each change of DEVSTAT raises vector 1. Step 1, which the
security core's ROM takes, needs a good signature under the fused key and a version that has not been rolled back; it starts the other seven
Fleskapa cores; each later step is taken by its own core. The 0 of module memory, what reset keeps, and the budget before bring-up are the
model's choices (log 5, log 6, log 32). -/
def Obligations.ResetAndBringUp : Prop :=
  (∀ s : State, ∃ t, exec .moduleReset s = .next t ∧
    t = { State.reset with mem := t.mem, rollback := s.rollback, keyHash := s.keyHash, idSecret := s.idSecret, certificate := s.certificate, poison := s.poison, peerFaults := s.peerFaults,
                           peersDown := s.peersDown, inputs := s.inputs, choices := s.choices } ∧
    t.devstat = 0 ∧ t.sheaves = [] ∧ t.cycle = 0 ∧ (t.ctx 0).nbudget = 16384 ∧ (t.ramp 0).lo = 0x0808080808080404 ∧ (t.field 0).granary = 256 ∧
    ∀ a, t.mem.get a = if a < barnAlias ∨ peerBase ≤ a then s.mem.get a else 0) ∧
  ∀ (s : State) (ok : Bool) (key : List (BitVec 8)) (ver : Nat) (sys : Option Nat) (mp : MemoryPolicy) (pp : PowerPolicy) (dev : BitVec 13) (qs : List Nat),
    (∀ p ∈ ([(.firmwareBundleVerification ⟨ok, key⟩ ver sys, 1, !(s.fenced.contains (.fleskapa 5)), ok && decide (key = s.keyHash ∧ s.rollback ≤ ver)),
        (.bringUpMemory ok mp, 2, s.coreRuns 2, ok), (.bringUpPower ok pp, 3, s.coreRuns 4, ok), (.bringUpFabric ok dev, 4, s.coreRuns 6, ok),
        (.bringUpQueues ok qs, 5, s.coreRuns 1, ok)] : List (Instr × BitVec 8 × Bool × Bool)),
      (s.fwstep + 1 ≠ p.2.1 ∨ s.fwerr = true ∨ p.2.2.1 = false → exec p.1 s = .next s) ∧
      (s.fwstep + 1 = p.2.1 → s.fwerr = false → p.2.2.1 = true → p.2.2.2 = false →
        exec p.1 s = .next { s with fwerr := true, msix := s.msix ++ [1] }) ∧
      (s.fwstep + 1 = p.2.1 → s.fwerr = false → p.2.2.1 = true → p.2.2.2 = true →
        ∃ t, exec p.1 s = .next t ∧ t.fwstep = p.2.1 ∧ t.msix = s.msix ++ [1] ∧ t.fwerr = false ∧ t.mem = s.mem ∧ t.sheaves = s.sheaves)) ∧
    (s.fwstep = 0 → s.fwerr = false → s.fenced.contains (.fleskapa 5) = false → ok = true → key = s.keyHash → s.rollback ≤ ver →
      exec (.firmwareBundleVerification ⟨ok, key⟩ ver sys) s =
        .next { s with sysCtx := sys.filter fun c => decide (c < 64), bundle := some ver, started := [5, 0, 1, 2, 3, 4, 6, 7], fwstep := 1,
                       msix := s.msix ++ [1] }) ∧
    (s.fwstep = 2 → s.fwerr = false → s.coreRuns 4 = true → ok = true → ∃ t, exec (.bringUpPower ok pp) s = .next t ∧ 1200 ≤ t.capW ∧ t.capW ≤ 3600 ∧
      (1200 ≤ pp.capW → pp.capW ≤ 3600 → t.capW = pp.capW) ∧ t.clockMHz = pp.clockMHz) ∧
    (s.fwstep = 3 → s.fwerr = false → s.coreRuns 6 = true → ok = true → ∃ t, exec (.bringUpFabric ok dev) s = .next t ∧ t.device = dev.setWidth 64 ∧
      ∀ c, (t.ctx c).nbudget = 16384) ∧
    (s.fwstep = 4 → s.fwerr = false → s.coreRuns 1 = true → ok = true → ∃ t, exec (.bringUpQueues ok qs) s = .next t ∧ t.ready = true ∧
      ∀ q, q < 4096 → (t.queue q).enable = ((s.queue q).enable || qs.contains q))

/-- R141, R150, R151, R152/06, R165, R168, R172, R173/07, R371/18, R247/11, R382 to R389/19: what the host and the firmware write. A submission
sets a tail of an enabled queue that holds at most its ring, and is recorded for the host otherwise; before READY it is ignored; allow-list
fields but the bitmap stay while a queue is enabled; a ramp table entry is held between 1 and its reset value; registers keep what is
written in their fields, where the core whose path it is runs; an entry of a mailbox holds 64 bytes; a Fleskapa core's message waits while
16 are held; a reporter keeps up to 4 and then stalls its event to the next cycle. What a refused decoder write leaves and what the
submission register reads after a refusal are the model's readings (log 33, log 52), as are the host physical addresses of the error queues
(log 16) and a stalled reporter's event coming back in the next cycle (log 62); what an SPDM answer says of the images is free (log 65).
What an allow-list entry takes at offsets 8 and 10 (log 95), a power cap outside its range and a granary size outside its own (log 109) are
the model's choices; the layout of a mailbox entry (log 100) and core 2's path for an error queue's head (log 108) too. -/
def Obligations.HostAndFirmwareWrites : Prop :=
  ∀ (s : State),
    (∀ v : BitVec 64,
      let q := (v.extractLsb' 36 12).toNat
      let tail : BitVec 32 := v.extractLsb' 0 32
      let k := s.queue q
      let n := (tail - k.head).toNat
      let legal := k.enable = true ∧ 1 ≤ n ∧ n ≤ 2 ^ k.log
      (s.ready = false → exec (.physicalSubmissionRegisterWrite v) s = .next s) ∧
      (s.ready = true → legal → ∃ t, exec (.physicalSubmissionRegisterWrite v) s = .next t ∧ t.queue q = { k with tail := tail } ∧
        (∀ j, j ≠ q → t.queue j = s.queue j) ∧ ({ t with queues := s.queues, subReg := s.subReg } : State) = s) ∧
      (s.ready = true → ¬ legal → (s.hostErrWrite - s.hostErrHead).toNat ≠ 256 → (∀ x ∈ s.errsNow, x.queue = none → x.cause ≤ 7) → ∃ t, exec (.physicalSubmissionRegisterWrite v) s = .next t ∧
        t.hostErrWrite = s.hostErrWrite + 1 ∧ t.msix = s.msix ++ [0] ∧ t.queues = s.queues ∧
        (t.mem.read (s.hostErrBase.toNat + 32 * (s.hostErrWrite.toNat % 256)) 32).take 3 = [0xFF, 0x0F, 0x07])) ∧
    (∀ q off bytes, q < 4096 → ∃ t, exec (.allowListEntryWrite q off bytes) s = .next t ∧ (∀ j, j ≠ q → t.queue j = s.queue j) ∧
      ({ t with queues := s.queues } : State) = s ∧ (t.queue q).head = (s.queue q).head ∧ (t.queue q).tail = (s.queue q).tail ∧
      ((s.queue q).enable = true → (t.queue q).base = (s.queue q).base ∧ (t.queue q).log = (s.queue q).log ∧ (t.queue q).ctx = (s.queue q).ctx) ∧
      (∀ b, off = 10 → bytes = [b] → (s.queue q).enable = false → (t.queue q).ctx = b.toNat) ∧
      (∀ b, off = 8 → bytes = [b] → (s.queue q).enable = false → (t.queue q).log = b.toNat)) ∧
    (∀ c high v, s.coreRuns 4 = true → c < 128 → ∃ t w, exec (.rampTableWrite c high v) s = .next t ∧
      t.ramp c = (if high then { s.ramp c with newHi := some w } else { s.ramp c with newLo := some w }) ∧
      (∀ j, j ≠ c → t.ramp j = s.ramp j) ∧ ({ t with ramps := s.ramps } : State) = s ∧
      ∀ k, k < 8 → (w.extractLsb' (8 * k) 8).toNat =
        max 1 (min (v.extractLsb' (8 * k) 8).toNat ((if high then rampHiReset else rampLoReset).extractLsb' (8 * k) 8).toNat)) ∧
    (∀ c high v, s.coreRuns 4 = false → exec (.rampTableWrite c high v) s = .next s) ∧
    (∀ n d, s.coreRuns 2 = true → n < 32 → decoderOk d = true → ∃ t, exec (.pooledMemoryDecoderWrite n (some d)) s = .next t ∧ cget none t.decoders n = some d ∧
      (∀ j, j ≠ n → cget none t.decoders j = cget none s.decoders j) ∧ ({ t with decoders := s.decoders } : State) = s) ∧
    (∀ n d, 32 ≤ n ∨ decoderOk d = false ∨ s.coreRuns 2 = false → exec (.pooledMemoryDecoderWrite n (some d)) s = .next s) ∧
    (∀ v : BitVec 64, exec (.registerWrite .hostErrHead v) s = .next { s with hostErrHead := v.setWidth 32 } ∧
      exec (.registerWrite (.reserved 0) v) s = .next s) ∧
    (∀ v : BitVec 64, ∀ p ∈ ([(.exchangeDeadline, 6, { s with exDeadline := v.toNat }), (.saveDeadline, 3, { s with saveDeadline := v.toNat }),
        (.powerCap, 4, { s with capW := max 1200 (min 3600 v.toNat) })] : List (RegTarget × Nat × State)),
      exec (.registerWrite p.1 v) s = .next (if s.coreRuns p.2.1 then p.2.2 else s)) ∧
    (∀ v c off f page, s.coreRuns 2 = false → exec (.registerWrite (.contextEntry c off) v) s = .next s ∧
      exec (.registerWrite (.barnPage f page) v) s = .next s ∧ exec (.registerWrite (.granary f) v) s = .next s) ∧
    (∀ v : BitVec 64, ∀ c off, s.coreRuns 2 = true → c < 64 → ∃ t, exec (.registerWrite (.contextEntry c off) v) s = .next t ∧
      (∀ j, j ≠ c → t.ctx j = s.ctx j) ∧ ({ t with ctxs := s.ctxs } : State) = s ∧ (t.ctx c).eqWrite = (s.ctx c).eqWrite ∧
      (t.ctx c).eqLost = (s.ctx c).eqLost ∧ (t.ctx c).root1 = (if off = 0 then v else (s.ctx c).root1) ∧
      (t.ctx c).root2 = (if off = 8 then v else (s.ctx c).root2) ∧ (t.ctx c).vectors = (if off = 32 then v else (s.ctx c).vectors) ∧
      (t.ctx c).eqHead = (if off = 56 then v.setWidth 32 else (s.ctx c).eqHead) ∧ (t.ctx c).saveBase = (if off = 80 then v else (s.ctx c).saveBase)) ∧
    (∀ v : BitVec 64, ∀ f page, s.coreRuns 2 = true → f < 8 → page < 896 → ∃ t, exec (.registerWrite (.barnPage f page) v) s = .next t ∧
      ∀ j k, cget 0 (t.field j).barn k = if j = f ∧ k = page then v.setWidth 32 &&& 0xFFC00000 else cget 0 (s.field j).barn k) ∧
    (∀ v : BitVec 64, ∀ f, s.coreRuns 2 = true → f < 8 → ∃ t, exec (.registerWrite (.granary f) v) s = .next t ∧
      (t.field f).granary = if 64 ≤ v.toNat ∧ v.toNat ≤ 1024 ∧ v.toNat % 64 = 0 then v.toNat else (s.field f).granary) ∧
    (∀ v k, (s.coreRuns 7 = true →
        exec (.registerWrite (.energyCalibration k) v) s = .next { s with calibration := cset 0 s.calibration k v } ∧
        exec (.registerWrite (.hostCounter k) v) s = .next { s with hostCounters := cset 0 s.hostCounters k v }) ∧
      (s.coreRuns 7 = false → exec (.registerWrite (.energyCalibration k) v) s = .next s ∧ exec (.registerWrite (.hostCounter k) v) s = .next s)) ∧
    (∀ nonce, (s.fenced.contains (.fleskapa 5) = false → ∃ x, exec (.spdmMeasurementRequest nonce) s = .next { s with spdm := s.spdm ++ [s.measurements nonce ++ x] }) ∧
      (s.fenced.contains (.fleskapa 5) = true → exec (.spdmMeasurementRequest nonce) s = .next s)) ∧
    (∀ core sender msg, sender < 8 → s.coreRuns sender = false → exec (.mailboxMessage core sender msg) s = .next s) ∧
    ∀ core sender msg m, s.mailboxes[core]? = some m → (sender < 8 → s.coreRuns sender = true) →
      ∃ t, exec (.mailboxMessage core sender msg) s = .next t ∧ ({ t with mailboxes := s.mailboxes, inputs := s.inputs } : State) = s ∧
      (m.messages.length < 16 → m.waiting = [] → m.reporters = [] →
        t.mailboxes[core]? = some { m with messages := m.messages ++ [(sender, mailEntry msg)] } ∧ t.inputs = s.inputs) ∧
      (16 ≤ m.messages.length → sender < 8 →
        t.mailboxes[core]? = some { m with waiting := m.waiting ++ [(sender, mailEntry msg)] } ∧ t.inputs = s.inputs) ∧
      (16 ≤ m.messages.length → 8 ≤ sender → m.reporters.length < 4 →
        t.mailboxes[core]? = some { m with reporters := m.reporters ++ [(sender, mailEntry msg)] } ∧ t.inputs = s.inputs) ∧
      (16 ≤ m.messages.length → 8 ≤ sender → 4 ≤ m.reporters.length →
        t = { s with inputs := (s.now + 1, .event (.mailboxMessage core sender msg)) :: s.inputs })

/-- R140, R142/06, R168, R169, R170, R171/07, R240, R246/11, R380/18: the command parser. With an entry of its type at a queue's head, a command
that the allow-list admits, its reserved bits 0, does what it names and moves the head past it; otherwise the entry is dropped, the head
moves on, and the owner's error queue takes a record; where the head holds no such entry, nothing happens. That these accesses walk the
tables, and the checks of a command's card, are the model's choices (log 25, log 35), that a command's card is read where its address points
its reading (log 67). -/
def Obligations.RingCommands : Prop :=
  ∀ (s : State) (q : Nat) (e : List Byte),
    let k := s.queue q
    let a := fieldOf e 8 8
    let c := fieldOf e 8 1
    let past := fun (t : State) => (t.queue q).head = k.head + 1 ∧ (∀ j, j ≠ q → t.queue j = s.queue j) ∧ t.sheaves = s.sheaves
    let is := fun n => s.ringEntry q = some e ∧ entryType e = n
    let fine := fun n => is n ∧ k.bitmap.getLsbD n = true ∧ fieldOf e 0 1 < 32
    (∀ p ∈ ([(.noOperation q, 0), (.launch q, 1), (.engineJobCard q, 2), (.signalEventWord q, 3), (.waitEventWord q, 4), (.reclaimRequest (.ring q), 5),
        (.parkContext q, 6), (.resumeContext q, 7), (.translationInvalidation q, 8)] : List (Instr × Nat)),
      (s.ringEntry q = none → exec p.1 s = .next s) ∧
      (s.ringEntry q = some e → entryType e ≠ p.2 → exec p.1 s = .next s) ∧
      (is p.2 → (k.bitmap.getLsbD p.2 = false ∨ 32 ≤ fieldOf e 0 1) → ∃ t, exec p.1 s = .next t ∧ past t ∧ t.launches = s.launches ∧ t.jobs = s.jobs ∧
        (((s.ctx k.ctx).eqWrite - (s.ctx k.ctx).eqHead).toNat ≠ 256 → (t.ctx k.ctx).eqWrite = (s.ctx k.ctx).eqWrite + 1))) ∧
    (s.ringEntry q = some e → 9 ≤ entryType e → ∃ t, exec (.reservedCommandType q) s = .next t ∧ past t ∧ t.launches = s.launches ∧ t.jobs = s.jobs) ∧
    (fine 0 → exec (.noOperation q) s = .next (s.modQueue q fun k => { k with head := k.head + 1 })) ∧
    (fine 1 → ∀ d, s.guestBytes k.ctx a 256 = .ok d → ∃ t l, exec (.launch q) s = .next t ∧ past t ∧ t.launches = s.launches ++ [l] ∧ l.id = s.nextId ∧
      l.ctx = k.ctx ∧ l.tag = BitVec.ofNat 32 (fieldOf e 16 4) ∧ l.state = 0 ∧ l.descAddr = BitVec.ofNat 64 a ∧
      l.recordAddr = BitVec.ofNat 64 (fieldOf e 24 8) ∧ (fieldOf e 20 4 = 0 → l.pred = none)) ∧
    (fine 2 → ∀ d, s.guestBytes k.ctx a 256 = .ok d →
      let ok := (cardFormOk d && cardKind d == 3) = true
      (ok → s.queueRoom 0 (cardEngine d) k.ctx = true → ∃ t j, exec (.engineJobCard q) s = .next t ∧ past t ∧ t.jobs = s.jobs ++ [j] ∧ j.id = s.nextId ∧
        j.card = d ∧ j.ctx = k.ctx ∧ j.field = 0 ∧ j.launch = none ∧ j.started = false) ∧
      (ok → s.queueRoom 0 (cardEngine d) k.ctx = false → exec (.engineJobCard q) s = .next s) ∧
      (¬ ok → ∃ t, exec (.engineJobCard q) s = .next t ∧ past t ∧ t.jobs = s.jobs)) ∧
    (fine 3 → a % 8 = 0 → ∀ hpa, s.guestAt k.ctx a .store = .ok hpa → hpa < peerBase → (s.ctx k.ctx).regionOf a = none →
      ∃ t, exec (.signalEventWord q) s = .next t ∧ past t ∧ t.mem.read hpa 8 = bytesOfNat 8 (fieldOf e 16 8) ∧
        ∀ x, x < hpa ∨ hpa + 8 ≤ x → t.mem.get x = s.mem.get x) ∧
    (fine 4 → a % 8 = 0 → ∀ hpa, s.guestAt k.ctx a .load = .ok hpa →
      (s.wordReached k.ctx a (fieldOf e 16 8) = true → ∃ t, exec (.waitEventWord q) s = .next t ∧ past t ∧ t.mem = s.mem) ∧
      (s.wordReached k.ctx a (fieldOf e 16 8) = false → ∃ t, exec (.waitEventWord q) s = .next t ∧
        t.queue q = { k with hold := some (BitVec.ofNat 64 a, BitVec.ofNat 64 (fieldOf e 16 8)) } ∧ t.mem = s.mem)) ∧
    (∀ x v, k.hold = some (x, v) →
      (s.wordReached k.ctx x.toNat v.toNat = true → ∃ t, exec (.eventWordWaitSatisfied q) s = .next t ∧ t.queue q = { k with hold := none, head := k.head + 1 } ∧
        ({ t with queues := s.queues } : State) = s) ∧
      (s.wordReached k.ctx x.toNat v.toNat = false → exec (.eventWordWaitSatisfied q) s = .next s)) ∧
    (fine 5 → s.mayName k.ctx c = true → ∀ m, s.guestBytes k.ctx (fieldOf e 16 8) 128 = .ok m →
      ∃ t, exec (.reclaimRequest (.ring q)) s = .next t ∧ past t ∧ t.mem = s.mem ∧
        ∀ x, (m.getD (x / 8) 0).getLsbD (x % 8) = false → t.core x = s.core x) ∧
    (∀ r : Reclaim, s.coreRuns 1 = false → exec (.reclaimRequest (.firmware r)) s = .next s) ∧
    (∀ r : Reclaim, ∀ x res, s.coreRuns 1 = true → r.cores = [x] → x < 1024 → (s.core x).res? r.ctx = some res →
      ∃ t res', exec (.reclaimRequest (.firmware r)) s = .next t ∧ (t.core x).res? r.ctx = some res' ∧ t.sheaves = s.sheaves ∧ res'.level = res.level ∧
        res'.goal = (if r.slots = 0 ∧ r.regs = 0 ∧ r.pages = 0 then 7 else if res.level ≤ 1 then 1
          else s.goalBelow x r.ctx res.level ⟨r.slots, r.regs, r.pages⟩ (res.level - 1))) ∧
    (∀ p ∈ ([(.parkContext q, 6, false), (.resumeContext q, 7, true)] : List (Instr × Nat × Bool)), fine p.2.1 → s.mayName k.ctx c = true →
      (s.queueRoom 0 5 c = true → ∃ t j, exec p.1 s = .next t ∧ past t ∧ t.jobs = s.jobs ++ [j] ∧ j.engine = 5 ∧ j.ctx = c ∧ j.resume = p.2.2) ∧
      (s.queueRoom 0 5 c = false → exec p.1 s = .next s)) ∧
    (fine 8 → s.mayName k.ctx c = true →
      let lo := fieldOf e 16 8
      let n := fieldOf e 24 8
      n ≠ 0 → lo + n ≤ 2 ^ 56 → s.inFlight c = false → ∃ t, exec (.translationInvalidation q) s = .next t ∧ past t ∧ t.mem = s.mem ∧
        (∀ x ∈ t.cores, ∀ y ∈ x.2.tlb, ¬ (y.ctx = c ∧ y.va < lo + n ∧ lo < y.va + y.size)) ∧
        ∀ x ∈ t.fields, ∀ y ∈ x.2.tlb, ¬ (y.ctx = c ∧ y.va < lo + n ∧ lo < y.va + y.size))

/-- R48, R61, R62, R63, R65/02, R157/07, R249/11: the life of a launch: dispatch after its checks, or rejection; a sheaf made resident with
every lane at the entry address; the carve-out of an empty core; retirement once everything has ended, its sheaves gone and the gates that
waited for it open; a restart from the start. That a launch record is written by an uncached walk, and what a restart that is not allowed
does, are the model's choices (log 25, log 31). -/
def Obligations.LaunchLife : Prop :=
  ∀ (s : State),
    (s.nextLaunch = none → exec .launchDispatch s = .next s) ∧
    (∀ l d, s.nextLaunch = some l → s.guestBytes l.ctx l.descAddr.toNat 256 = .ok d →
      let c := s.dispatchChecks l d
      (c.bad = [] → ∃ t l', exec .launchDispatch s = .next t ∧ t.launch? l.id = some l' ∧ l'.state = 1 ∧ l'.dispatched = s.now ∧
        l'.sheafCount = fieldOf d 8 4 ∧ l'.liveParts = fieldOf d 8 4 ∧ l'.entry = BitVec.ofNat 56 (fieldOf d 0 8) ∧ l'.budget = 16 * fieldOf d 15 1 ∧
        t.sheaves = s.sheaves ∧ t.teams.length = s.teams.length + c.teams.length ∧ t.mem = s.mem) ∧
      (c.bad ≠ [] → ∃ t l', exec .launchDispatch s = .next t ∧ t.launch? l.id = some l' ∧ l'.state = 2 ∧ t.sheaves = s.sheaves ∧ t.teams = s.teams)) ∧
    (∀ id l n core slot, s.launch? id = some l →
      (s.makeResident l n core slot = none → exec (.sheafMadeResident id n core slot) s = .next s) ∧
      ∀ u, s.makeResident l n core slot = some u → exec (.sheafMadeResident id n core slot) s = .next u ∧
        ∃ h ∈ u.sheaves, h.id = s.nextId ∧ h.launch = l.id ∧ h.number = n ∧ h.core = core ∧ h.slot = slot ∧ h.place = .resident ∧ h.budget = l.budget ∧
          h.ctrl = 0x800100 ∧ h.tl = 0 ∧ h.v = [] ∧ h.p = [] ∧ (∀ x, x < 64 → (h.lane x).pc = l.entry) ∧
          (∀ x, x < 16 → h.sget x = BitVec.ofNat 64 (fieldOf l.desc (128 + 8 * x) 8)) ∧
          (n + 1 ≠ l.sheafCount → h.exited = 0) ∧
          (n + 1 = l.sheafCount → ∀ x, x < 64 → h.exited.getLsbD x = decide (l.lastLanes ≤ x))) ∧
    (∀ core idx l, l ∈ s.launches → s.wantsCore l core = true → (∀ m ∈ s.launches, s.wantsCore m core = true → m = l) → l.carve = idx →
      s.coreEmpty core = true → (s.core core).carve ≠ idx →
      ∃ t, exec (.carveOutChange core idx) s = .next t ∧ (t.core core).carve = idx ∧ (t.core core).l1 = [] ∧
        (∀ x, x ≠ core → t.core x = s.core x) ∧ ({ t with cores := s.cores } : State) = s) ∧
    (∀ core idx, s.coreEmpty core = false → exec (.carveOutChange core idx) s = .next s) ∧
    (∀ id l, s.launch? id = some l →
      (s.launchOver l = false → exec (.launchRetirement id) s = .next s) ∧
      (s.launchOver l = true → ∃ t, exec (.launchRetirement id) s = .next t ∧ (∀ h ∈ t.sheaves, h.launch ≠ id) ∧
        (∀ m ∈ t.launches, m.id = id → m.state = 2) ∧ (∀ m ∈ t.launches, m.pred = some id → m.id ≠ id → m.gateOpen = true) ∧
        t.jobs = s.jobs)) ∧
    ∀ id l, s.launch? id = some l → l.state = 1 → l.idempotent = true → s.ranFenced l = true →
      (l.restarts = 0 → l.spoiled = false → l.closed = false → ∃ t l', exec (.launchRestart id) s = .next t ∧ t.launch? id = some l' ∧ l'.state = 0 ∧
        l'.restarts = 1 ∧ l'.residentOnce = [] ∧ l'.releases = 0 ∧ (∀ h ∈ t.sheaves, h.launch ≠ id) ∧ (∀ x ∈ t.teams, x.launch ≠ id) ∧
        ∀ j ∈ t.jobs, j.launch ≠ some id) ∧
      (l.restarts = 1 → ∃ t l', exec (.launchRestart id) s = .next t ∧ t.launch? id = some l' ∧ l'.restarts = 2 ∧ l'.state = 1 ∧ t.sheaves = s.sheaves)

/-- R39, R46, R53, R57/02, R135, R136/05, R239, R242, R243/11: what the scheduler and the residency of a context do: the favoured set, a
starving sheaf, a folded group's turn, tasks and phases taken by cores, a squeeze that begins and completes, expansion by one level, a
scratch page moved with its contents to barn, or back from it. -/
def Obligations.SchedulingAndResidency : Prop :=
  ∀ (s : State),
    (∀ k h p, s.sheaf? k = some h → h.prog = true → h.starvedPc = some p → ∃ t, exec (.fairnessPeriodExpiry k) s = .next t ∧
      t.sheaf? k = some { h with favoured := h.lanesAt p, favouredOld := some h.favoured } ∧ SameBut k s t) ∧
    (∀ k h, s.sheaf? k = some h → 4088 ≤ h.starve → s.mayIssue h = true → s.pipeOf h < (s.core h.core).pipes.length →
      ∃ t, exec (.starvingSheaf k) s = .next t ∧ ((t.core h.core).pipes.getD (s.pipeOf h) {}).last = some k ∧ ({ t with cores := s.cores } : State) = s) ∧
    (∀ core ctx g r, (s.core core).res? ctx = some r → (cget (0, 0) r.turns g).2 + 512 ≤ s.now →
      ∃ t r', exec (.foldQuantumExpiry core ctx g) s = .next t ∧ (t.core core).res? ctx = some r' ∧
        cget (0, 0) r'.turns g =
          ((((s.groupSlots core ctx g).filter fun k => decide ((cget (0, 0) r.turns g).1 < k)).head?).getD ((s.groupSlots core ctx g).headD 0), s.now) ∧
        ({ t with cores := s.cores } : State) = s) ∧
    (∀ core slot x rest, (s.core core).deque = x :: rest →
      (s.startTask x core slot = none → exec (.taskTake core slot) s = .next s) ∧
      (s.startTask x core slot ≠ none → ∃ t, exec (.taskTake core slot) s = .next t ∧ (t.core core).deque = rest ∧
        ∃ h ∈ t.sheaves, h.id = x ∧ h.place = .resident ∧ h.core = core ∧ h.slot = slot)) ∧
    (∀ core slot x, (s.core core).deque = [] → (s.core (s.victimOf core)).deque.getLast? = some x → s.startTask x core slot ≠ none →
      ∃ t, exec (.taskSteal core slot) s = .next t ∧ (t.core (s.victimOf core)).deque = (s.core (s.victimOf core)).deque.dropLast ∧
        ∃ h ∈ t.sheaves, h.id = x ∧ h.place = .resident ∧ h.core = core ∧ h.slot = slot) ∧
    (∀ core slot, (s.core core).deque ≠ [] → exec (.taskSteal core slot) s = .next s) ∧
    (∀ core slot f h u, s.firstPhase core slot (s.phasesFor core) = some (f, h, u) → ∃ t, exec (.phaseResume core slot) s = .next t ∧
      h.id ∉ (t.field f).phases ∧ ∃ g ∈ t.sheaves, g.id = h.id ∧ g.place = .resident ∧ g.core = core ∧ g.slot = slot ∧
        g.v = (h.v.filter fun c => decide (c.1 < h.budget * 64)) ∧ g.s = h.s ∧ g.p = h.p ∧ g.lanes.map Lane.pc = h.lanes.map Lane.pc ∧
        g.lanes.map Lane.loops = h.lanes.map Lane.loops) ∧
    (∀ core ctx r, (s.core core).res? ctx = some r →
      (r.noticed = true → r.forced = true → r.aim < r.level → ∃ t, exec (.forcedSqueeze core ctx) s = .next t ∧
        (t.core core).res? ctx = some { r with squeezing := true, target := r.aim, stopped := false, noticed := false, forced := false,
                                               moves := [] } ∧ ({ t with cores := s.cores } : State) = s) ∧
      (r.noticed = false → exec (.forcedSqueeze core ctx) s = .next s) ∧
      (r.squeezing = true → r.stopped = true → r.moves = [] → r.returns = [] → s.beyond core ctx r.target = [] → s.pagesOut core ctx r.target = [] →
        ∃ t r', exec (.squeezeCompletion core ctx) s = .next t ∧ (t.core core).res? ctx = some r' ∧ r'.level = r.target ∧ r'.squeezing = false ∧
          (r.target ≤ r.aim → r'.reclaim.getLsbD 0 = false) ∧ (r.aim < r.target → r'.reclaim = r.reclaim) ∧ r'.goal = r.goal ∧
          ({ t with cores := s.cores, mem := s.mem, ctxs := s.ctxs, fields := s.fields, mailboxes := s.mailboxes } : State) = s ∧
          ((t.core core).saved = (s.core core).saved → ({ t with cores := s.cores } : State) = s)) ∧
      (r.squeezing = false ∨ r.stopped = false → exec (.squeezeCompletion core ctx) s = .next s) ∧
      (r.squeezing = false → r.parking = false → r.level < r.goal → s.grantsFit core ctx (r.level + 1) = true →
        (∃ x, r.expandAt = some x ∧ x ≤ s.now) →
        ∃ t r', exec (.expansionStep core ctx) s = .next t ∧ (t.core core).res? ctx = some r' ∧ r'.level = r.level + 1 ∧ t.mem = s.mem ∧
          r'.moves = r.moves ∧ r'.returns = s.pagesBack core ctx (r.level + 1) ∧
          r'.expandAt = if r.level + 1 < r.goal then some (s.now + 1024) else none) ∧
      (r.goal ≤ r.level → exec (.expansionStep core ctx) s = .next s) ∧
      ∀ id page rest tm, s.team? id = some tm → tm.ended = false →
        (r.moves = .team id page :: rest ∨ (r.moves = [] ∧ r.returns = .team id page :: rest)) →
        ∃ t r' tm', exec (.scratchPageMove core ctx) s = .next t ∧ (t.core core).res? ctx = some r' ∧ t.team? id = some tm' ∧
          tm'.reloc.contains page = !r.moves.isEmpty ∧ (∀ k, k ≠ page → tm'.reloc.contains k = tm.reloc.contains k) ∧
          ({ tm' with reloc := tm.reloc } : Team) = tm ∧
          r' = (if r.moves.isEmpty then { r with returns := rest } else { r with moves := rest }))

/-- R107/04, R112/04, R113/04, R137/05, R233, R235/11, R210/10, R259/12, R300/14: what reaches a sheaf between its issues: a load's data lands
in its registers and nowhere else, that of spilled registers in their backing slots too, whose bytes are then those of the registers, or,
where such a slot has no mapping, waits for one, its lanes with REGBACK as a fault; a mapping lets a faulted load's lanes read, but for
those behind an earlier access to their bytes, and lets data that waits for a slot land; a faulted load traps after 65,536 cycles, a
collective that has waited 2^20 traps COLLSTALL; NOTICE comes before EXPAND and below trap level 2; a fetch that fails traps with its PC.
That data of a spilled register lands in its backing slot, or waits for one, is the model's reading (log 22), that a load made again stays
behind earlier accesses to its bytes too (log 74). That a gather is released by a fault is the model's reading (log 21), when NOTICE and
EXPAND are taken its choice (log 75). -/
def Obligations.SheafEvents : Prop :=
  ∀ (s : State) (k : Nat) (h : Sheaf), s.sheaf? k = some h →
    (∀ n p, h.pend.find? (fun p => p.id == n) = some p → p.tickets = 0 → p.faults = [] → p.scalar = none → (∀ x ∈ p.vals, x.1 < 64) →
      (p.vals.map fun x => (x.1, x.2.1)).Nodup →
      let cold := s.coldRegs h p.regs
      let lost := cold.filter fun r => (s.slotOf h r).isNone
      let kept := cold.filter fun r => !(lost.contains r)
      let mine := p.vals.filter fun x => lost.contains x.2.1
      let apart := fun (place : Nat → Nat) (a : Nat) => ∀ r ∈ kept, a < place r ∨ place r + 256 ≤ a
      ∃ t h', exec (.loadDataArrival k n) s = .next t ∧ t.sheaf? k = some h' ∧ (∀ j, j ≠ k → t.sheaf? j = s.sheaf? j) ∧
        ({ t with sheaves := s.sheaves, cores := s.cores, mem := s.mem, l2peer := s.l2peer, choices := s.choices } : State) = s ∧
        (kept = [] → SameBut k s t) ∧
        (∀ x ∈ p.vals, x.2.1 ∉ lost → h'.virt x.1 x.2.1 = x.2.2) ∧
        (∀ l r, l < 64 → r ∉ kept → (r ∈ lost ∨ ∀ x ∈ p.vals, ¬ (x.1 = l ∧ x.2.1 = r)) → h'.virt l r = h.virt l r) ∧ h'.stalled = 0 ∧
        (∀ x, x.id ≠ n → (x ∈ h'.pend ↔ x ∈ h.pend)) ∧ (∀ x ∈ h'.pend, x.id = n → x.faults ≠ []) ∧
        (mine ≠ [] → h'.pend.find? (fun p => p.id == n) = some
          { p with
            vals := [], stored := p.stored ++ mine, lanes := maskOf (mine.map fun x => x.1)
            faults := mine.map fun x => ⟨x.1, .regback, BitVec.ofNat 64 (s.backingAddr h x.2.1)⟩ }) ∧
        ({ h' with v := h.v, pend := h.pend, stalled := h.stalled } : Sheaf) = h ∧
        ∀ place : Nat → Nat,
          (∀ r ∈ kept, place r + 256 ≤ peerBase ∧ ∀ q ∈ kept, q ≠ r → place r + 256 ≤ place q ∨ place q + 256 ≤ place r) →
          (∀ u : State, ({ u with sheaves := s.sheaves, cores := s.cores, mem := s.mem, choices := s.choices } : State) = s →
            (∀ a, apart place a → u.mem.get a = s.mem.get a) → ∀ r ∈ kept, u.slotOf h r = some (place r)) →
          (∀ r ∈ kept, t.mem.read (place r) 256 = h'.regBytes r) ∧ ∀ a, apart place a → t.mem.get a = s.mem.get a) ∧
    (∀ n p, h.pend.find? (fun p => p.id == n) = some p → p.tickets ≠ 0 → ∃ t, exec (.loadDataArrival k n) s = .next t ∧ t.sheaf? k = some h ∧ t.mem = s.mem) ∧
    (∀ n p r, h.pend.find? (fun p => p.id == n) = some p → p.again = some r →
      let p0 := s.unstored h p
      let put := fun (u : State) vals faults => u.modSheaf k fun g =>
        { g with stalled := 0, pend := g.pend.map fun x => if x.id = n then x.remade vals p0.stored faults else x }
      let now := fun (f : LaneFault) => f.mappable && !(p0.stored.any fun x => x.1 == f.lane) &&
        !(r.lanes.any fun x => x.lane == f.lane && s.behindEarlier h p r x)
      let asked := p0.faults.filter now
      let rest := p0.faults.filter fun f => !(now f)
      let regs := (List.range (widthRegs r.width)).map fun j => r.dreg + j
      let q := s.replayLoad h r (r.lanes.filter fun x => asked.any fun f => f.lane == x.lane)
      let u := (s.touchRegs h regs).2
      exec (.loadFaultMappingMade k n) s = .next (put q.2 (p0.vals ++ q.1.2) (rest ++ q.1.1)) ∧
      OnlyCaches u q.2 ∧ ({ u with sheaves := s.sheaves, cores := s.cores, mem := s.mem, l2peer := s.l2peer, choices := s.choices } : State) = s ∧
      (∀ j, j ≠ k → u.sheaf? j = s.sheaf? j) ∧
      ∃ t h' p', exec (.loadFaultMappingMade k n) s = .next t ∧ t.sheaf? k = some h' ∧
        (∀ l r, l < 64 → r ∉ regs → h'.virt l r = h.virt l r) ∧
        h'.pend.find? (fun p => p.id == n) = some p' ∧ p'.vals = p0.vals ++ q.1.2 ∧ p'.faults = rest ++ q.1.1 ∧ p'.stored = p0.stored ∧
        (q.1.1 = [] → (∀ f ∈ rest, f.mappable = false) → p'.waitSince = none) ∧ ({ h' with v := h.v, pend := h.pend, stalled := h.stalled } : Sheaf) = h) ∧
    (∀ n p, h.pend.find? (fun p => p.id == n) = some p → p.again = none → exec (.loadFaultMappingMade k n) s = .next (s.modSheaf k fun g =>
      { g with stalled := 0, pend := g.pend.map fun x =>
          if x.id = n then x.remade (s.unstored h p).vals (s.unstored h p).stored (s.unstored h p).faults else x })) ∧
    (∀ p, let p0 := s.unstored h p
      (∀ x, x ∈ p0.vals ++ p0.stored ↔ x ∈ p.vals ++ p.stored) ∧
      (∀ x ∈ p0.stored, x ∈ p.stored ∧ (s.resOf h).cold.contains (h.id, x.2.1) = true ∧ s.slotOf h x.2.1 = none) ∧
      ∀ x ∈ p.faults, x ∈ p0.faults ∨ (x.cause = .regback ∧ ∀ y ∈ p0.stored, y.1 ≠ x.lane)) ∧
    (∀ n p t0 cause lanes a, h.pend.find? (fun p => p.id == n) = some p → p.waitSince = some t0 → winning p.faults = some (cause, lanes, a) →
      (s.now < t0 + 65536 → exec (.loadFaultWaitTimeout k n) s = .next s) ∧
      (t0 + 65536 ≤ s.now → ∃ u again, exec (.loadFaultWaitTimeout k n) s = .next (u.takeTrap k cause 0 a lanes p.pc again) ∧ SameBut k s u)) ∧
    (h.stuckCollective s.now = [] → exec (.collstallTimeout k) s = .next s) ∧
    (∀ w ws, h.stuckCollective s.now = w :: ws →
      (∀ x ∈ w :: ws, x ∈ h.waits ∧ x.pc = w.pc ∧ ∃ m, x.kind = .collective m) ∧ (∃ x ∈ w :: ws, x.since + 2 ^ 20 ≤ s.now) ∧
      exec (.collstallTimeout k) s = .next ((s.modSheaf k fun h => { h with waits := h.waits.filter fun x => !((w :: ws).contains x) }).takeTrap k
        .collstall 0 0 (waitMask (w :: ws)) w.pc none)) ∧
    (h.place = .resident → h.handlerLanes ≠ 0 →
      let pc := (h.lane (lowestLane h.handlerLanes)).pc
      (2 ≤ h.tl → exec (.noticeTrap k) s = .next s) ∧
      (h.tl < 2 → h.noticePending = true → exec (.noticeTrap k) s =
        .next ((s.modSheaf k fun h => { h with noticePending := false }).takeTrap k .notice h.lowSlot 0 h.handlerLanes pc none)) ∧
      (h.tl < 2 → h.noticePending = false → h.expandPending = true → exec (.noticeTrap k) s =
        .next ((s.modSheaf k fun h => { h with expandPending := false }).takeTrap k .expand h.lowSlot 0 h.handlerLanes pc none)) ∧
      (h.noticePending = false → h.expandPending = false → exec (.noticeTrap k) s = .next s)) ∧
    ∀ i c u, s.Issuing i h → i.lanes ≠ 0 → s.xlate h.core h.ctx .fetch i.pc.toNat = (.error c, u) → c ≠ .uncorr →
      exec .fetchFault s = .next (u.takeTrap i.sheaf c 0 (i.pc.setWidth 64) i.lanes i.pc none)

/-- R144, R145, R147/06, R165/07, R180/08, R231, R244/11, R347, R348, R349, R361, R362/17: what each event of the matrix engine does, and when
it completes: MATRIX_COMMAND_START (a command that may start does; one that needs a grant, its slot filled, asks for it), RAMP_GOVERNOR_STEP
(the first pending command of a cluster is always granted, and opens the step), RING_SLOT_WAIT_END, MATRIX_QUIESCENT_STOP (a stop keeps the
command's progress; a command of an ended launch is removed), MATRIX_COMMAND_RESUME, MATRIX_COMMAND_COMPLETION (the token rises by 1 and the
entry is freed), FILLER_FINISHED, MATRIX_FIFO_POST_RESUME and ENGINE_QUEUE_POST_RESUME (a waiting post takes the entry that was freed).
Where the condition does not hold, nothing changes. The readings of the matrix chapter are the model's (log 64). -/
def Obligations.MatrixEvents : Prop :=
  ∀ (s : State) (core id : Nat),
    (∀ c, s.cmd? core id = some c →
      let onlyCore := fun (t : State) =>
        ({ t with cores := s.cores, mem := s.mem, ctxs := s.ctxs, fields := s.fields, mailboxes := s.mailboxes } : State) = s ∧
        ((t.core core).saved = (s.core core).saved → ({ t with cores := s.cores } : State) = s) ∧ (∀ x, x ≠ core → t.core x = s.core x) ∧
        ∀ n, n ≠ id → t.cmd? core n = s.cmd? core n
      (s.mayStart core c = none → exec (.matrixCommandStart core id) s = .next s) ∧
      (∀ r, s.mayStart core c = some r → c.needsGrant = false → ∃ t, exec (.matrixCommandStart core id) s = .next t ∧
        t.cmd? core id = some { c with started := true, stopped := false, run := r, done := c.empty } ∧ onlyCore t) ∧
      (∀ r, s.mayStart core c = some r → c.needsGrant = true → c.askedAt = none → 0 < ((s.core core).rings.getD c.ring {}).filled →
        ∃ t, exec (.matrixCommandStart core id) s = .next t ∧ t.cmd? core id = some { c with askedAt := some s.now } ∧ onlyCore t) ∧
      (∀ r, s.mayStart core c = some r → c.needsGrant = true → ((s.core core).rings.getD c.ring {}).filled = 0 →
        exec (.matrixCommandStart core id) s = .next s) ∧
      (0 < ((s.core core).rings.getD c.ring {}).filled → ∃ t, exec (.ringSlotWaitEnd core id) s = .next t ∧
        t.cmd? core id = some { c with starved := false } ∧ onlyCore t) ∧
      (((s.core core).rings.getD c.ring {}).filled = 0 → exec (.ringSlotWaitEnd core id) s = .next s) ∧
      (s.mustStop core c = false → exec (.matrixQuiescentStop core id) s = .next s) ∧
      (s.mustStop core c = true → s.launchClosed c.launch = false → ∃ t, exec (.matrixQuiescentStop core id) s = .next t ∧
        t.cmd? core id = some { c with stopped := true, starved := false, askedAt := none } ∧ onlyCore t) ∧
      (s.mustStop core c = true → s.launchClosed c.launch = true → ∃ t, exec (.matrixQuiescentStop core id) s = .next t ∧
        t.cmd? core id = none ∧ onlyCore t ∧ (t.core core).res = (s.core core).res) ∧
      (∀ r, c.started = true → c.stopped = true → s.runSet core c = some r → s.setFree core c r = true →
        ∃ t, exec (.matrixCommandResume core id) s = .next t ∧ onlyCore t ∧
          t.cmd? core id = some (if c.onArray then { c with started := false, run := 0 }
            else { c with started := true, stopped := false, run := r, done := c.empty })) ∧
      (c.started = false ∨ c.stopped = false ∨ s.runSet core c = none → exec (.matrixCommandResume core id) s = .next s) ∧
      (c.done = false → exec (.matrixCommandCompletion core id) s = .next s) ∧
      (c.done = true → ∃ t, exec (.matrixCommandCompletion core id) s = .next t ∧ t.cmd? core id = none ∧ onlyCore t ∧
        (s.launchClosed c.launch = true → (t.core core).res = (s.core core).res) ∧
        (s.launchClosed c.launch = false → ∀ r, (s.core core).res? c.ctx = some r →
          (t.core core).res? c.ctx = some { r with bank := modAt (fun x => x + 1) r.bank c.token }))) ∧
    (∀ cl c rest r, s.pendingCmds cl = (core, c) :: rest → s.mayStart core c = some r →
      ((s.ramp cl).opened = none ∨ ∃ x, (s.ramp cl).opened = some x ∧ (s.now - x) % 4 = 0) →
      ∃ t c', exec (.rampGovernorStep cl) s = .next t ∧ t.cmd? core c.id = some c' ∧ c'.started = true ∧
        (t.ramp cl).opened = some (((s.ramp cl).opened).getD s.now) ∧ t.sheaves = s.sheaves ∧
        ((∀ x ∈ s.pendingCmds cl, ∀ q, ((s.core x.1).quads.getD q {}).owner = none ∨ ((s.core x.1).quads.getD q {}).owner = some x.2.ctx) →
          (∀ x ∈ s.pendingCmds cl, ∀ y ∈ s.pendingCmds cl, x.1 = y.1 → x.2.ctx = y.2.ctx) → t.mem = s.mem)) ∧
    (∀ cl x, (s.ramp cl).opened = some x → (s.now - x) % 4 ≠ 0 → exec (.rampGovernorStep cl) s = .next s) ∧
    (∀ q, ∃ t, exec (.fillerFinished core q) s = .next t ∧ ((t.core core).quads.getD q {}).filler = 0 ∧
      (∀ k, k ≠ q → (t.core core).quads.getD k {} = (s.core core).quads.getD k {}) ∧ ({ t with cores := s.cores } : State) = s) ∧
    ∀ k h, s.sheaf? k = some h →
      let goesOn := fun (w : Wait) (h' : Sheaf) => h.tl = 0 → (∀ l, l < 64 → w.lanes.getLsbD l = true → (h.lane l).pc = w.pc) →
        Moved ⟨k, w.lanes, w.pc, h.core, 0, w.solo, none, false⟩ h h' ∧ h'.waits = h.waits.filter fun x => !(x == w)
      (∀ w c, h.fifoWait = some (w, c) → (s.core h.core).fifo.length < 64 → ∃ t h', exec (.matrixFifoPostResume k) s = .next t ∧
        t.sheaf? k = some h' ∧ goesOn w h' ∧ (t.core h.core).fifo = (s.core h.core).fifo ++ [{ c with posted := s.now }] ∧
        t.mem = s.mem) ∧
      (64 ≤ (s.core h.core).fifo.length ∨ h.fifoWait = none → exec (.matrixFifoPostResume k) s = .next s) ∧
      (∀ w j, h.queueWait = some (w, j) → s.queueRoom j.field j.engine j.ctx = true → ∃ t h', exec (.engineQueuePostResume k) s = .next t ∧
        t.sheaf? k = some h' ∧ goesOn w h' ∧ t.jobs = s.jobs ++ [{ j with id := s.nextId }] ∧ t.mem = s.mem) ∧
      (∀ w j, h.queueWait = some (w, j) → s.queueRoom j.field j.engine j.ctx = false → exec (.engineQueuePostResume k) s = .next s) ∧
      (h.queueWait = none → exec (.engineQueuePostResume k) s = .next s)

/-- R145/06, R200, R201/09, R350, R351, R353, R356 to R360/17: what one quantum of a matrix command computes. A command that does not work does
nothing; one on an array at the start of a row block with its ring dry waits for a slot. A K-step of `mmul` adds to each accumulator element
of its rows and columns, or to 0 at a fresh row block, the exact sum of the products of its rows of K, rounded once; at the end of K the
ring's tail moves, and a drain writes the rounded elements to scratch. `mmb` writes the block products; `msca` scales the partial planes
into one row; `mldw` loads one weight row of the shadow planes, with its side pairs, the first clearing them; `mswap` exchanges active and
shadow planes; `mdrain` writes one row, and after the last the transposed copy with its scale code, and clears; `mclr` clears one row of its
planes. Nothing else of the core or of the machine changes, and no other context's planes. The readings of the matrix chapter are the
model's (log 64): a step's width follows the running set, and a slot is read at the start of its row block. -/
def Obligations.MatrixQuanta : Prop :=
  ∀ (s : State) (core id : Nat) (c : MatCmd), s.cmd? core id = some c →
    let t := s.kstep core id
    let k := s.core core
    let u := t.core core
    let ring := k.rings.getD c.ring {}
    let rows := c.blockRows
    let cols := 32 * setNf c.set
    let tailMoves := c.ring < k.rings.length → (u.rings.getD c.ring {}).tail = ring.tail + 1
    let weightsStay := ∀ q, (u.planes c.ctx q).active = (k.planes c.ctx q).active ∧ (u.planes c.ctx q).shadow = (k.planes c.ctx q).shadow ∧
      (u.planes c.ctx q).sideA = (k.planes c.ctx q).sideA ∧ (u.planes c.ctx q).sideS = (k.planes c.ctx q).sideS
    let accStays := ∀ q, (u.planes c.ctx q).acc = (k.planes c.ctx q).acc
    (c.working = false ∨ c.starved = true → t = s) ∧
    (c.working = true → c.starved = false → c.onArray = true → c.kpos = 0 → ring.filled = 0 →
      t = s.modCmd core id fun c => { c with starved := true }) ∧
    (c.working = true → c.starved = false → (c.onArray = true → c.kpos = 0 → ring.filled ≠ 0) → c.set ∈ legalSets →
      ({ t with cores := s.cores, teams := s.teams } : State) = s ∧ (∀ x, x ≠ core → t.core x = s.core x) ∧
      ({ u with fifo := k.fifo, rings := k.rings, quads := k.quads, saved := k.saved } : Core) = k ∧ (∀ n, n ≠ id → t.cmd? core n = s.cmd? core n) ∧
      (∀ x q, x ≠ c.ctx → u.planes x q = k.planes x q) ∧
      (∀ f, c.op = .mmul f → c.ncols ≤ cols →
        let p := c.p0 + c.block % c.np
        let width := 32 * setKf c.run
        let ks := ((List.range width).map fun j => c.kpos + j).filter fun j => decide (j < c.kcols)
        let data := s.slotData core c
        let sz := elemBytes f
        let fresh := c.kpos = 0 ∧ (c.clears = true ∨ c.drainSpace ≠ 0)
        let value := fun (m n : Nat) => accAdd (if fresh then 0 else s.accGet core c p m n) (dotV (ks.map fun j =>
          (decodeF (elemFmt f) (fieldOf data ((m * c.kcols + j) * sz) sz), decodeF (elemFmt f) (s.weight core c j n))))
        (∀ m n, m < rows → n < c.ncols → t.accGet core c p m n = value m n) ∧
        (∀ q m n, m < 32 → n < cols → q ≠ p ∨ rows ≤ m ∨ c.ncols ≤ n → t.accGet core c q m n = s.accGet core c q m n) ∧ weightsStay ∧
        (c.kpos + width < c.kcols → t.teams = s.teams ∧ u.rings = k.rings ∧
          t.cmd? core id = some { c with kpos := c.kpos + width, ksteps := c.ksteps + 1 }) ∧
        (c.kcols ≤ c.kpos + width → tailMoves ∧
          t.cmd? core id = some { c with kpos := 0, ksteps := c.ksteps + 1, block := c.block + 1, done := decide (rowBlocks c.rows ≤ c.block + 1) } ∧
          ∀ d tm, c.dst = some d → s.team? d.team = some tm → ∀ m n, m < rows → n < c.ncols →
            t.scratchRead d (((32 * c.block + m) * c.ncols + n) * elemBytes c.drainElem) (elemBytes c.drainElem) =
              bytesOfNat (elemBytes c.drainElem) (drainElemOf c.drainElem (value m n)).bits)) ∧
      (c.op = .mmb → c.ncols ≤ cols →
        let nb := c.kcols / 32
        let j := c.kpos / 32
        let p := c.p0 + c.block * nb + j
        let data := s.slotData core c
        let elem := fun (pair code : Nat) => if pair % 256 = 255 then Val.nan else e2m1Val (pair / 256) code
        (∀ m n, m < rows → n < c.ncols → t.accGet core c p m n = BitVec.ofNat 32 (roundF (dotV ((List.range 32).map fun i =>
          (elem (fieldOf data (16 * c.kcols + 2 * (m * nb + j)) 2) (fieldOf data (m * (c.kcols / 2) + (32 * j + i) / 2) 1 / 16 ^ ((32 * j + i) % 2) % 16),
            elem (s.sidePair core c n j) (s.weight core c (32 * j + i) n % 16)))) .f32 .rne).bits) ∧
        (∀ q m n, m < 32 → n < cols → q ≠ p ∨ rows ≤ m ∨ c.ncols ≤ n → t.accGet core c q m n = s.accGet core c q m n) ∧ weightsStay ∧ t.teams = s.teams ∧
        (j + 1 < nb → t.cmd? core id = some { c with kpos := c.kpos + 32, ksteps := c.ksteps + 1 } ∧ u.rings = k.rings) ∧
        (nb ≤ j + 1 → tailMoves ∧
          t.cmd? core id = some { c with kpos := 0, ksteps := c.ksteps + 1, block := c.block + 1, done := decide (rowBlocks c.rows ≤ c.block + 1) })) ∧
      (c.op = .msca → c.ncols ≤ cols → c.kpos < 32 →
        let nb := opField c.s0 40 4
        let pp := opField c.s2 0 4
        let p := opField c.s2 4 4 + c.block
        let code := fun (j : Nat) => match c.src with | some r => natOfBytes (s.scratchRead r ((32 * c.block + c.kpos) * nb + j) 1) | none => 0
        (∀ n, n < c.ncols → t.accGet core c p c.kpos n = (List.range nb).foldl (fun (x : Word) j =>
          if code j = 255 ∨ s.sidePair core c n j % 256 = 255 then BitVec.ofNat 32 Fmt.f32.canon
          else accAdd x ((decodeF .f32 (s.accGet core c (pp + c.block * nb + j) c.kpos n).toNat).scale
            (((code j : Int) - 127) + (((s.sidePair core c n j % 256 : Nat) : Int) - 127))))
          (if c.clears then 0 else s.accGet core c p c.kpos n)) ∧
        (∀ q m n, m < 32 → n < cols → q ≠ p ∨ m ≠ c.kpos ∨ c.ncols ≤ n → t.accGet core c q m n = s.accGet core c q m n) ∧ weightsStay ∧
        t.teams = s.teams ∧ u.rings = k.rings ∧
        t.cmd? core id = some (if c.kpos + 1 < rows then { c with kpos := c.kpos + 1 }
          else { c with kpos := 0, block := c.block + 1, done := decide (rowBlocks c.rows ≤ c.block + 1) })) ∧
      (∀ f, c.op = .mldw f →
        let stride := opField c.s1 0 32
        let kn := opField c.s2 0 16
        let nb := (kn + 31) / 32
        let shadow := fun (z : Core) (j n : Nat) => cget 0 (z.planes c.ctx (weightAt c.set j n).1).shadow (weightAt c.set j n).2
        let side := fun (z : Core) (n b : Nat) => cget sideDefault (z.planes c.ctx ((setAcc c.set).getD (n / 32) 0)).sideS (n % 32 * 4 + b)
        kn ≤ 128 * setKf c.set → c.kpos < cols →
          (∀ ty r j, f = some ty → c.src = some r → j < kn →
            shadow u j c.kpos = BitVec.ofNat 16 (fieldOf (s.scratchRead r (c.kpos * stride) (kn * elemBytes ty)) (j * elemBytes ty) (elemBytes ty))) ∧
          (∀ r j, f = none → c.src = some r → j < kn →
            shadow u j c.kpos = BitVec.ofNat 16 (fieldOf (s.scratchRead r (c.kpos * stride) ((kn + 1) / 2)) (j / 2) 1 / 16 ^ (j % 2) % 16)) ∧
          (∀ r e b, f = none → c.src = some r → c.dst = some e → kn ≤ 128 → b < nb →
            side u c.kpos b = BitVec.ofNat 16 (fieldOf (s.scratchRead e (2 * (c.kpos * nb)) (2 * nb)) (2 * b) 2)) ∧
          (∀ j n, j < 128 * setKf c.set → n < cols → n ≠ c.kpos ∨ kn ≤ j → shadow u j n = if c.kpos = 0 then 0 else shadow k j n) ∧
          (∀ q, (u.planes c.ctx q).active = (k.planes c.ctx q).active ∧ (u.planes c.ctx q).sideA = (k.planes c.ctx q).sideA) ∧
          accStays ∧ t.teams = s.teams ∧ u.rings = k.rings ∧
          t.cmd? core id = some { c with kpos := c.kpos + 1, done := decide (opField c.s2 16 16 ≤ c.kpos + 1) }) ∧
      (c.op = .mswap → t.teams = s.teams ∧ u.rings = k.rings ∧ t.cmd? core id = some { c with done := true } ∧
        ∀ q, u.planes c.ctx q = if q ∈ setQuads c.set then
          { k.planes c.ctx q with active := (k.planes c.ctx q).shadow, shadow := (k.planes c.ctx q).active, sideA := (k.planes c.ctx q).sideS,
                                  sideS := (k.planes c.ctx q).sideA } else k.planes c.ctx q) ∧
      (∀ f, c.op = .mdrain f →
        let p := opField c.s0 0 4
        let h := opField c.s0 16 6
        let stride := opField c.s2 0 32
        let across := opField c.s2 32 32
        let sz := elemBytes f
        let ty : Fmt := elemFmt (if c.s0.getLsbD 9 then .e5m2 else .e4m3)
        let code := scaleCode ((tileCells h cols).foldl (fun a mn => amaxStep a (s.accGet core c p mn.1 mn.2)) (0, 1)) ty
        (∀ d tm n, c.src = some d → s.team? d.team = some tm → (c.kpos + 1 < h ∨ ∀ r, c.dst = some r → r.team ≠ d.team) → n < cols →
          t.scratchRead d (c.kpos * stride + n * sz) sz = bytesOfNat sz (drainElemOf f (s.accGet core c p c.kpos n)).bits) ∧
        (∀ r tm, h ≤ c.kpos + 1 → c.dst = some r → s.team? r.team = some tm → h ≤ across → t.scratchRead r (cols * across) 1 = bytesOfNat 1 code ∧
          ∀ m n, m < h → n < cols → t.scratchRead r (n * across + m) 1 =
            bytesOfNat 1 (roundF ((decodeF .f32 (s.accGet core c p m n).toNat).scale (127 - (code : Int))) ty .rne).bits) ∧
        (c.kpos + 1 < h ∨ c.s0.getLsbD 4 = false → accStays) ∧
        (h ≤ c.kpos + 1 → c.s0.getLsbD 4 = true → ∀ m n, m < h → n < cols → t.accGet core c p m n = 0) ∧ weightsStay ∧ u.rings = k.rings ∧
        t.cmd? core id = some (if c.kpos + 1 < h then { c with kpos := c.kpos + 1 } else { c with kpos := c.kpos + 1, done := true })) ∧
      (c.op = .mclr →
        let p := opField c.s0 0 4
        let n := opField c.s0 4 4 + 1
        (∀ q x m y, m < 32 → y < 32 → cget 0 (u.planes c.ctx q).acc (x * 1024 + m * 32 + y) =
          if q ∈ setQuads c.set ∧ p ≤ x ∧ x < p + n ∧ m = c.kpos then 0 else cget 0 (k.planes c.ctx q).acc (x * 1024 + m * 32 + y)) ∧
        weightsStay ∧ t.teams = s.teams ∧ u.rings = k.rings ∧
        t.cmd? core id = some { c with kpos := c.kpos + 1, done := decide (32 ≤ c.kpos + 1) }))

/-- R219, R220, R223/10, R249/11, R321, R322/15, R334, R335/16, R367, R370, R371/18: what each event of an engine job does, and when it
completes: JOB_START (a job begins in footprint order), COPY_CHUNK_LANDING (a chunk's elements are written at their destinations, and it is
signalled; an access that fails stops the job), JOB_COMPLETION (the token rises, the entry is freed), ENGINE_XLATE2_TIMEOUT,
ENGINE_ACCESS_MAPPING_MADE, JOB_REPLAY (once, at the end of another field's queue; a merge, which has no card, ends),
EXCHANGE_STREAM_ARRIVAL (a header is held or refused; the rows of one that is matched, and their count, are written),
EXCHANGE_HEADER_ADMISSION, EXCHANGE_DEADLINE_EXPIRY, STREAM_FAILED_BY_PEER, PEER_MODULE_FAILURE, MERGE_LINE_ACTION (each element merged by
its region's code) and JOIN_COMPLETION. Where the condition does not hold, nothing changes. What a merge does with a line whose access fails
is the model's reading (log 29), and so are how streams are matched, that only an unmatched header needs a place, and that rows for a job
that has not started or waits come again in the next cycle (log 89); the field that replays a job, that its old field's order goes on
without it, and how a merge on a fenced engine ends are its choices (log 110, log 111, log 112). -/
def Obligations.EngineEvents : Prop :=
  ∀ (s : State),
    (∀ id j, s.job? id = some j →
      let gone := fun (t : State) => ∀ x ∈ t.jobs, x.id ≠ id
      let T := tileOf j.card
      (s.jobMayStart j = false → exec (.jobStart id) s = .next s) ∧
      (s.jobMayStart j = true → j.engine = 1 ∨ j.engine = 2 → ∃ t, exec (.jobStart id) s = .next t ∧
        t.job? id = some { j with started := true, startCycle := s.now, startTime := s.time } ∧
        ({ t with jobs := s.jobs, launches := s.launches } : State) = s) ∧
      (s.jobMayStart j = true → j.engine = 4 → ∃ t, exec (.jobStart id) s = .next t ∧
        t.job? id = some { j with started := true, startCycle := s.now, startTime := s.time, regions := s.regionsNow j.ctx,
                                  lines := ({ s.ctx j.ctx with regions := s.regionsNow j.ctx } : Context).mergeLines j.child } ∧
        ({ t with jobs := s.jobs, launches := s.launches } : State) = s) ∧
      (∀ a b, s.jobMayStart j = true → j.engine = 3 → (s.engineBytes j (fieldOf j.card 160 8) 4 j.group 0).1 = .ok a →
        (s.engineBytes j (fieldOf j.card 184 8) 4 j.group 0).1 = .ok b →
        let peers := words32 j.group a
        let counts := words32 j.group b
        let sts := (peers.zip counts).map fun x =>
          (x.1, ({ src := s.device.toNat, tag := j.tag, rows := x.2, data := none, id := id } : Stream))
        (s.peersBad j peers counts = true ∨ peers.any s.peersDown.contains = true → ∃ t, exec (.jobStart id) s = .next t ∧ gone t) ∧
        (s.peersBad j peers counts = false → peers.any s.peersDown.contains = false → ∃ t, exec (.jobStart id) s = .next t ∧
          t.job? id = some { j with started := true, startCycle := s.now, startTime := s.time, peers := peers, counts := counts,
                                    sent := (List.range j.group).map fun i => (i, s.time) } ∧
          t.exSent = s.exSent ++ sts.filter (fun x => !(x.1 == s.device.toNat)) ∧
          t.exHeaders = s.exHeaders ++ (sts.filter fun x => x.1 == s.device.toNat).map (fun x => x.2) ∧
          ({ t with jobs := s.jobs, launches := s.launches, exSent := s.exSent, exHeaders := s.exHeaders } : State) = s)) ∧
      (∀ n, j.engine = 1 → j.started = true → j.waitAddr = none → n < T.chunks → j.landed.contains n = false →
        (s.copyStop j T (T.chunkElems n) = none → ∃ t, exec (.copyChunkLanding id n) s = .next t ∧
          t.job? id = some { j with landed := j.landed ++ [n] } ∧
          (∀ x tm, cardKind j.card = 1 → j.team = some x → s.team? x = some tm → T.base + n < 256 →
            ∃ tm', t.team? x = some tm' ∧ (cget 0 tm'.maps (cardTarget j.card)).getLsbD (T.base + n) = true) ∧
          ∀ x tm, cardKind j.card = 2 → j.creditTeam = some x → s.team? x = some tm →
            -(2 ^ 31 : Int) ≤ tm.pend - tm.expected - T.chunkBytes n →
            ∃ tm', t.team? x = some tm' ∧ tm'.pend = tm.pend - T.chunkBytes n) ∧
        (s.copyStop j T (T.chunkElems n) = none → ∃ t, exec (.copyChunkLanding id n) s = .next t ∧
          let sz := 2 ^ T.log
          (cardKind j.card ≠ 2 → t.mem = (s.copyElems j T (T.chunkElems n)).mem ∧
            ∀ e a b va hpa bs s1 s2 s3, T.chunkElems n = [e] → s.engineAt j .load T.src (T.offsets e).1 sz = (.ok a, s1) →
              s1.engineRead j a sz = (bs, s2) → s2.engineAt j .store T.dst (T.offsets e).2 sz = (.ok b, s3) → b = .host (some va) hpa →
              hpa < peerBase → (s.ctx j.ctx).regionOf va = none →
                t.mem.read hpa bs.length = bs ∧ ∀ x, x < hpa ∨ hpa + bs.length ≤ x → t.mem.get x = s.mem.get x) ∧
          ∀ (x y : Nat) (tx ty : Team) (a b : Nat → Nat), x ≠ y → s.team? x = some tx → s.team? y = some ty →
            (∀ e ∈ T.chunkElems n, (s.engineAt j .load T.src (T.offsets e).1 sz).1 = .ok (.team x (a e)) ∧
              (s.engineAt j .store T.dst (T.offsets e).2 sz).1 = .ok (.team y (b e)) ∧
              ∀ f ∈ T.chunkElems n, e ≠ f → b e + sz ≤ b f ∨ b f + sz ≤ b e) →
            ∃ ty', t.team? y = some ty' ∧ (∀ e ∈ T.chunkElems n, ty'.mem.read (b e) sz = tx.mem.read (a e) sz) ∧
              ∀ k, (∀ e ∈ T.chunkElems n, k < b e ∨ b e + sz ≤ k) → ty'.mem.get k = ty.mem.get k) ∧
        (∀ a, s.copyStop j T (T.chunkElems n) = some (.xlate2, a) → ∃ t, exec (.copyChunkLanding id n) s = .next t ∧
          t.job? id = some { j with waitAddr := some (BitVec.ofNat 64 a), waitSince := s.now } ∧ ({ t with jobs := s.jobs } : State) = s) ∧
        ∀ c a, s.copyStop j T (T.chunkElems n) = some (c, a) → c ≠ .xlate2 → ∃ t, exec (.copyChunkLanding id n) s = .next t ∧ gone t) ∧
      (∀ n, j.landed.contains n = true → exec (.copyChunkLanding id n) s = .next s) ∧
      (j.engine = 1 → j.started = true → j.waitAddr = none →
        (T.chunks ≤ j.landed.length → ∃ t, exec (.jobCompletion id) s = .next t ∧ gone t ∧ t.mem = s.mem ∧ t.teams = s.teams ∧
          ∀ r, (s.core j.core).res? j.ctx = some r → cardKind j.card = 0 → ∃ r', (t.core j.core).res? j.ctx = some r' ∧
            r'.bank = modAt (fun x => x + 1) r.bank (cardTarget j.card)) ∧
        (j.landed.length < T.chunks → exec (.jobCompletion id) s = .next s)) ∧
      (∀ ps, j.engine = 2 → j.started = true → j.waitAddr = none → s.winnowPuts j = .ok ps → s.putsStop j ps = none →
        exec (.jobCompletion id) s = .next ((s.putAll j ps).completeJob j)) ∧
      (j.engine = 3 → j.waitAddr = none → j.exchanged = true → ∃ t, exec (.jobCompletion id) s = .next t ∧ gone t ∧ t.mem = s.mem) ∧
      (j.started = false → exec (.jobCompletion id) s = .next s) ∧
      (∀ a, j.waitAddr = some a →
        (s.now < j.waitSince + 65536 ∨ s.nowMapped j.ctx a.toNat = true → exec (.engineXlate2Timeout id) s = .next s) ∧
        (j.waitSince + 65536 ≤ s.now → s.nowMapped j.ctx a.toNat = false → j.engine ≠ 4 →
          ∃ t, exec (.engineXlate2Timeout id) s = .next t ∧ gone t) ∧
        (s.nowMapped j.ctx a.toNat = true → j.engine ≠ 3 ∨ (j.matched.filter fun i => !(j.rowsSent.contains i)) = [] → ∃ t, exec (.engineAccessMappingMade id) s = .next t ∧
          t.job? id = some { j with waitAddr := none } ∧ ({ t with jobs := s.jobs } : State) = s) ∧
        (s.nowMapped j.ctx a.toNat = false → exec (.engineAccessMappingMade id) s = .next s)) ∧
      (s.jobCut j = false → exec (.jobReplay id) s = .next s) ∧
      (∀ f, s.jobCut j = true → s.mayReplay j = true → s.otherField j = some f →
        (s.queueRoom f j.engine j.ctx = true → ∃ t j', exec (.jobReplay id) s = .next t ∧
          t.jobs = (s.jobs.filter fun k => !(k.id == id)) ++ [j'] ∧ j'.id = id ∧ j'.field = f ∧ j'.replays = 1 ∧ j'.started = false ∧
          j'.landed = [] ∧ j'.card = j.card ∧ j'.cardAddr = j.cardAddr ∧ j'.slots = j.slots ∧
          t.exHeaders = s.exHeaders.filter (fun x => !(x.src == s.device.toNat && x.id == id)) ∧
          ({ t with jobs := s.jobs, exHeaders := s.exHeaders } : State) = s) ∧
        (s.queueRoom f j.engine j.ctx = false → exec (.jobReplay id) s = .next s)) ∧
      (s.jobCut j = true → s.mayReplay j = false ∨ s.otherField j = none →
        (j.engine ≠ 4 → ∃ t, exec (.jobReplay id) s = .next t ∧ gone t) ∧
        (j.engine = 4 → j.started = true → j.lines = [] → exec (.jobReplay id) s = .next s) ∧
        (j.engine = 4 → j.started = false ∨ j.lines ≠ [] → ∃ t, exec (.jobReplay id) s = .next t ∧
          t.job? id = some { j with started := true, waitAddr := none, lines := [] } ∧ t.sheaves = s.sheaves ∧ t.teams = s.teams ∧
          (((s.ctx j.ctx).eqWrite - (s.ctx j.ctx).eqHead).toNat ≠ 256 → (t.ctx j.ctx).eqWrite = (s.ctx j.ctx).eqWrite + 1))) ∧
      (j.engine = 3 → s.exchangeLate j = true → ∃ t, exec (.exchangeDeadlineExpiry id) s = .next t ∧ gone t) ∧
      (s.exchangeLate j = false → exec (.exchangeDeadlineExpiry id) s = .next s) ∧
      (∀ n, j.engine = 3 → j.started = true → (∃ x ∈ j.sent, x.1 = n) → j.acked.contains n = false →
        ∃ t, exec (.streamFailedByPeer id n) s = .next t ∧ gone t) ∧
      (∀ n, j.acked.contains n = true → exec (.streamFailedByPeer id n) s = .next s) ∧
      (∀ vl rest, j.engine = 4 → j.started = true → j.waitAddr = none → j.lines = vl :: rest →
        (∀ u st, s.mergeOne j vl = .ok (u, st) →
          exec (.mergeLineAction id) s = .next (u.modJob id fun j => { j with lines := rest, status := j.status ||| st })) ∧
        ∀ a, s.mergeOne j vl = .error (.xlate2, a) → ∃ t, exec (.mergeLineAction id) s = .next t ∧
          t.job? id = some { j with waitAddr := some (BitVec.ofNat 64 a), waitSince := s.now } ∧ ({ t with jobs := s.jobs } : State) = s) ∧
      (∀ vl rest c a, j.engine = 4 → j.started = true → j.waitAddr = none → j.lines = vl :: rest → s.mergeOne j vl = .error (c, a) → c ≠ .xlate2 →
        ∃ t, exec (.mergeLineAction id) s = .next t ∧ t.job? id = some { j with lines := rest }) ∧
      (j.lines = [] → exec (.mergeLineAction id) s = .next s) ∧
      (j.lines ≠ [] → exec (.joinCompletion id) s = .next s) ∧
      ∀ k h d w, j.engine = 4 → j.started = true → j.lines = [] → j.poster = some k → s.sheaf? k = some h → h.tl = 0 → j.dest = some d →
        h.joinWaits id = [w] → (∀ l, l < 64 → w.lanes.getLsbD l = true → (h.lane l).pc = w.pc) →
        ∃ t h', exec (.joinCompletion id) s = .next t ∧ gone t ∧ t.sheaf? k = some h' ∧ h'.sget d = j.status.setWidth 64 ∧
          (∀ n, n ≠ d → h'.sget n = h.sget n) ∧ h'.v = h.v ∧ h'.p = h.p ∧ (∀ c ∈ h'.children, c.rev ≠ j.child) ∧
          Moved ⟨k, w.lanes, w.pc, h.core, 0, w.solo, none, false⟩ h h' ∧ (∀ v ∈ (t.ctx j.ctx).revs, v.id ≠ j.child) ∧ t.mem = s.mem ∧
          (t.core h.core).noGlLines) ∧
    (∀ st : Stream,
      (st.data = none →
        (s.fits st = false → exec (.exchangeStreamArrival st) s = .next { s with exRefused := s.exRefused ++ [st] }) ∧
        (s.fits st = true → exec (.exchangeStreamArrival st) s = .next { s with exHeaders := s.exHeaders ++ [st] }) ∧
        ((∀ x ∈ s.exHeaders ++ [st], s.matchOf x = none) →
          (256 ≤ s.exHeaders.length → exec (.exchangeStreamArrival st) s = .next { s with exRefused := s.exRefused ++ [st] }) ∧
          (s.exHeaders.length < 256 → exec (.exchangeStreamArrival st) s = .next { s with exHeaders := s.exHeaders ++ [st] }) ∧
          ∀ rest, s.exRefused = st :: rest → s.exHeaders.length < 256 →
            exec .exchangeHeaderAdmission s = .next { s with exRefused := rest, exHeaders := s.exHeaders ++ [st] })) ∧
      ∀ data, st.data = some data →
        let later := s.inputs ++ [(s.now + 1, .event (.exchangeStreamArrival st))]
        (s.rowsJob st = none → exec (.exchangeStreamArrival st) s = .next s) ∧
        ∀ j, s.rowsJob st = some j → s.job? j.id = some j →
          (j.started = false ∨ j.waitAddr ≠ none → exec (.exchangeStreamArrival st) s = .next { s with inputs := later }) ∧
          ∀ i, j.started = true → j.waitAddr = none → j.peers.idxOf? st.src = some i → cardKind j.card ≠ 2 →
            let n := min st.rows j.slotRows
            let put := n * (j.rowBytes / 16)
            let start := i * j.slotRows * j.rowBytes
            let count := bytesOfNat 4 (if st.rows ≤ j.slotRows then st.rows else 2 ^ 31 + st.rows)
            (∀ a, s.engineMayPut j (fieldOf j.card 192 8) 16 put start = some (.xlate2, a) → exec (.exchangeStreamArrival st) s = .next
              { (s.modJob j.id fun j => { j with waitAddr := some (BitVec.ofNat 64 a), waitSince := s.now }) with inputs := later }) ∧
            (s.engineMayPut j (fieldOf j.card 192 8) 16 put start = none →
            (s.enginePut j (fieldOf j.card 192 8) 16 (pieces 16 put data) start).engineMayPut j (fieldOf j.card 208 8) 4 1 (4 * i) = none →
            ∃ t, exec (.exchangeStreamArrival st) s = .next t ∧
              t.exHeaders = s.exHeaders.eraseP (fun x => sameStream x st) ∧
              t.job? j.id = some { j with received := j.received ++ [i], credited := j.credited ++ [(i, n * j.rowBytes)] } ∧
              t.mem = ((s.enginePut j (fieldOf j.card 192 8) 16 (pieces 16 put data) start).enginePut j (fieldOf j.card 208 8) 4 [count] (4 * i)).mem ∧
              (∀ z c tz, (s.engineAt j .store (fieldOf j.card 208 8) (4 * i : Nat) 4).1 = .ok (.team z c) → s.team? z = some tz →
                ∃ tz', t.team? z = some tz' ∧ tz'.mem.read c 4 = count) ∧
              ∀ (y : Nat) (ty : Team) (b : Nat → Nat), s.team? y = some ty → 16 * put ≤ data.length →
                (∀ k, k < put → (s.engineAt j .store (fieldOf j.card 192 8) (start + 16 * k : Nat) 16).1 = .ok (.team y (b k)) ∧
                  ∀ l, l < put → k ≠ l → b k + 16 ≤ b l ∨ b l + 16 ≤ b k) →
                (∀ z c, (s.engineAt j .store (fieldOf j.card 208 8) (4 * i : Nat) 4).1 = .ok (.team z c) → z ≠ y) →
                ∃ ty', t.team? y = some ty' ∧ ∀ k, k < put → ty'.mem.read (b k) 16 = (data.drop (16 * k)).take 16)) ∧
    (s.exRefused.find? s.fits = none → exec .exchangeHeaderAdmission s = .next s) ∧
    (∀ x, s.exRefused.find? s.fits = some x → x.data = none →
      exec .exchangeHeaderAdmission s = .next { s with exRefused := s.exRefused.erase x, exHeaders := s.exHeaders ++ [x] }) ∧
    ((256 ≤ s.exHeaders.length ∧ ∀ x ∈ s.exHeaders ++ s.exRefused, s.matchOf x = none) ∨ s.exRefused = [] →
      exec .exchangeHeaderAdmission s = .next s) ∧
    (∀ code p c a, code < 12 → a ≤ 2 ^ (8 * elemSize code) →
      let val := fun (x : Nat) => if code < 4 then (BitVec.ofNat (8 * elemSize code) x).toInt else (x : Int)
      let larger := if val p < val c then c else p
      let smaller := if val c < val p then c else p
      mergeElem 1 code p c a = (if c = a then p else c) ∧ mergeElem 2 code p c a = (if p = a then c else p) ∧
      (mergeElem 3 code p c a : Int) = ((p : Int) + c - a) % 2 ^ (8 * elemSize code) ∧
      (∀ f, elemFloat code = some f → mergeElem 4 code p c a = (fop f .add .rne false p (fop f .sub .rne false c a 0).bits 0).bits ∧
        mergeElem 5 code p c a = (fop f .max .rne false p c 0).bits ∧ mergeElem 6 code p c a = (fop f .min .rne false p c 0).bits) ∧
      (code < 8 → mergeElem 5 code p c a = larger ∧ mergeElem 6 code p c a = smaller) ∧
      mergeElem 7 code p c a = p ||| c ∧ mergeElem 8 code p c a = (p ^^^ c) ^^^ a) ∧
    ∀ m, ∃ t, exec (.peerModuleFailure m) s = .next t ∧ m ∈ t.peersDown ∧
      ∀ j ∈ s.jobs, j.engine = 3 → j.started = true → (∃ i, j.peers[i]? = some m ∧ j.acked.contains i = false) → ∀ x ∈ t.jobs, x.id ≠ j.id

/-- R26/01, R184/08, R224/10, R247, R248, R250/11, R374/18, R386, R387, R390/19, R406/10: what each event of the fabric and each failure does,
and when it completes: SEQUENCER_TICKET (one ticket a cycle, in order), REMOTE_STORE_ACKNOWLEDGEMENT (performed or failed),
L2_LINE_EVICTION, PEER_ACCESS_ARRIVAL, SAVE_RESUME (of a save, or of planes that wait for a page), SAVE_DEADLINE_EXPIRY, UNCORRECTABLE_ERROR
(reported to its own context only; a core that failed is fenced), BRYNOZ_LINK_FAILURE (the link leaves the link masks of every peer table),
POWER_CAP_INTERVAL and THERMAL_TRIP. Where the condition does not hold, nothing changes. That the power interval's energy is free, and how a
save is laid out, are the model's choices (log 12, log 27); that the clock moves by 100 MHz at a comparison is its reading (log 50), and so
is that a peer table at address 0 is none (log 114). -/
def Obligations.FabricAndFailures : Prop :=
  ∀ (s : State),
    (s.seqQ = [] → exec .sequencerTicket s = .next s) ∧
    (∀ r rest, s.seqQ = r :: rest → s.ticketWaits r = true → exec .sequencerTicket s = .next s) ∧
    (∀ r rest, s.seqQ = r :: rest → s.ticketWaits r = false → ∃ t, exec .sequencerTicket s = .next t ∧ t.ticket = s.ticket + 1 ∧ t.seqQ = rest ∧
      (r.op = none → t.teams = s.teams ∧ (r.sys = false → t.mem = s.mem) ∧
        ∀ h line d m, r.sys = true → s.sheaf? r.sheaf = some h → h.peerDirty = [line] → s.peerCopy line = some (d, m) →
          s.peersDown.contains (moduleOf line) = false →
          (∀ k, k < 128 → t.mem.get (line + k) = if m.getLsbD k then d.getD k 0 else s.mem.get (line + k)) ∧
          ∀ a, a < line ∨ line + 128 ≤ a → t.mem.get a = s.mem.get a) ∧
      ∀ o id off tm, r.op = some o → r.target = some (.team id off) → s.team? id = some tm → atomCas o = false →
        ∃ tm', t.team? id = some tm' ∧ tm'.mem.read off (atomSize o) =
          bytesOfNat (atomSize o) (atomNew o (BitVec.ofNat 64 (natOfBytes (tm.mem.read off (atomSize o)))) r.operand).toNat ∧
          (∀ a, a < off ∨ off + atomSize o ≤ a → tm'.mem.get a = tm.mem.get a) ∧ (r.sys = false → t.mem = s.mem)) ∧
    (∀ k r, s.rsts[k]? = some r →
      let waits := (s.rsts.take k).any (fun x => x.meets r) = true ∨ s.retainWaits r.ctx r.rev r.va r.hpa = true
      (waits → ∀ c, exec (.remoteStoreAcknowledgement k c) s = .next s) ∧
      (¬ waits → (s.ctx r.ctx).regionOf r.va = none →
        (∃ t, exec (.remoteStoreAcknowledgement k none) s = .next t ∧ t.rsts = s.rsts.eraseIdx k ∧
          (∀ x ∈ (t.core r.core).l1, x.backing = true ∨ x.line ≠ lineOf r.hpa) ∧ t.mem.read r.hpa r.data.length = r.data ∧
          (∀ a, a < r.hpa ∨ r.hpa + r.data.length ≤ a → t.mem.get a = s.mem.get a) ∧
          ∀ l, s.launch? r.launch = some l → t.launch? r.launch = some { l with rstsOut := l.rstsOut - 1 }) ∧
        ∀ c, ∃ t, exec (.remoteStoreAcknowledgement k (some c)) s = .next t ∧ t.rsts = s.rsts.eraseIdx k ∧
          ∀ l, s.launch? r.launch = some l → l.jobError = none →
            t.launch? r.launch = some { l with rstsOut := l.rstsOut - 1, jobError := some (4, 255) })) ∧
    (∀ k c, s.rsts[k]? = none → exec (.remoteStoreAcknowledgement k c) s = .next s) ∧
    (∀ line, s.peersDown.contains (moduleOf line) = true → ∃ t, exec (.l2LineEviction line) s = .next t ∧ t.peerCopy line = none) ∧
    (∀ line d m, s.peerCopy line = some (d, m) → s.peersDown.contains (moduleOf line) = false → ∃ t, exec (.l2LineEviction line) s = .next t ∧ t.peerCopy line = none ∧
      (∀ k, k < 128 → t.mem.get (line + k) = if m.getLsbD k then d.getD k 0 else s.mem.get (line + k)) ∧
      (∀ a, a < line ∨ line + 128 ≤ a → t.mem.get a = s.mem.get a) ∧ ({ t with mem := s.mem, l2peer := s.l2peer } : State) = s) ∧
    (∀ line, s.peerCopy line = none → ∃ t, exec (.l2LineEviction line) s = .next t ∧ t.mem = s.mem) ∧
    (∀ a : PeerAccess, a.write = false → exec (.peerAccessArrival a) s = .next s) ∧
    (∀ (a : PeerAccess) b va hpa, a.write = true → a.data = [b] → s.exportAt a 0 = .ok (va, hpa) → (s.ctx a.ctx).regionOf va = none →
      ∃ t, exec (.peerAccessArrival a) s = .next t ∧ (∀ x, t.mem.get x = if x = hpa then b else s.mem.get x) ∧ ({ t with mem := s.mem } : State) = s) ∧
    (∀ (a : PeerAccess) k c, k < a.data.length → s.exportAt a k = .error c → exec (.peerAccessArrival a) s = .next s) ∧
    (∀ c,
      let u := if s.planesReady c = true then s.planesGoOn c else s
      let told := u.tell 3 errorMonitor
      let late := (∃ x, (s.ctx c).saveWait = some x ∧ s.elapsed x s.saveDeadline = true ∧ s.saveStuck c = true) ∨
        ∃ x, (s.ctx c).planeSince = some x ∧ s.elapsed x s.saveDeadline = true ∧ s.pageMapped c (s.ctx c).planeAddr = false
      (∀ x, (s.ctx c).planeWait = [x] → s.planeFault c x.1 x.2.1 = none → (s.ctx c).planeSince = none ∨ s.pageMapped c (s.ctx c).planeAddr = true →
        (u.ctx c).planeWait = [] ∧ (u.ctx c).planeSince = none ∧ u.sheaves = s.sheaves) ∧
      ((u.ctx c).saveWait = none ∨ u.saveStuck c = true → exec (.saveResume c) s = .next u) ∧
      ((u.ctx c).saveWait ≠ none → u.saveStuck c = false →
        (u.saveFault c (u.parkJob c) = none → ∃ t, exec (.saveResume c) s = .next t ∧ (t.ctx c).parked = true ∧ (t.ctx c).frozen = false ∧
          (t.ctx c).saveWait = none ∧ (∀ j ∈ t.jobs, j.ctx ≠ c) ∧
          ((∀ h ∈ u.sheaves, h.ctx = c → h.place = .resident → h.core ∈ u.coresOfCtx c) → ∀ h ∈ t.sheaves, h.ctx = c → h.place ≠ .resident)) ∧
        (∀ a v, u.saveFault c (u.parkJob c) = some a → told (bytesOfNat 8 c ++ bytesOfNat 8 a) = some v →
          exec (.saveResume c) s = .next (v.modCtx c fun x => { x with saveWait := some u.time, saveAddr := a })) ∧
        ∀ a, u.saveFault c (u.parkJob c) = some a → told (bytesOfNat 8 c ++ bytesOfNat 8 a) = none → exec (.saveResume c) s = .next u) ∧
      (late → ∃ t, exec (.saveDeadlineExpiry c) s = .next t ∧ (t.ctx c).saveWait = none ∧ (t.ctx c).planeWait = [] ∧
        (∀ l ∈ t.launches, l.ctx = c → l.state = 2) ∧ ∀ j ∈ t.jobs, j.ctx ≠ c) ∧
      (¬ late → exec (.saveDeadlineExpiry c) s = .next s)) ∧
    (∀ e : ErrorReport, e.failed = none → ∃ t, exec (.uncorrectableError e) s = .next t ∧ (∀ c, c ≠ e.ctx → t.ctx c = s.ctx c) ∧
      t.sheaves = s.sheaves ∧ t.fenced = s.fenced ∧
      (((s.ctx e.ctx).eqWrite - (s.ctx e.ctx).eqHead).toNat ≠ 256 → (t.ctx e.ctx).eqWrite = (s.ctx e.ctx).eqWrite + 1)) ∧
    (∀ (e : ErrorReport) n, e.failed = some (.core n) → n < 1024 → s.fenced.contains (.core n) = false → ∃ t, exec (.uncorrectableError e) s = .next t ∧
      (.core n) ∈ t.fenced ∧ (t.core n).fenced = true ∧ (t.core n).fifo = [] ∧ (t.core n).deque = [] ∧
      ∀ k h, t.sheaf? k = some h → h.core = n → h.place ≠ .resident ∧ h.place ≠ .suspended) ∧
    (∀ l, l < 32 → ∃ t, exec (.brynozLinkFailure l) s = .next t ∧ (∀ k, k < 32 → t.linksUp.getLsbD k = (s.linksUp.getLsbD k && !(k == l))) ∧
      ({ t with linksUp := s.linksUp, mem := s.mem } : State) = s ∧
      (s.memOk →
        let hit := fun (a : Nat) => ∃ c ∈ s.ctxs, c.2.peerTable ≠ 0 ∧ c.2.peerTable.toNat ≤ a ∧ a < c.2.peerTable.toNat + 16 * 8192 ∧
          (a - c.2.peerTable.toNat) % 16 = 8 + l / 8
        (∀ a, hit a → t.mem.get a = s.mem.get a &&& ~~~((1 : Byte) <<< (l % 8))) ∧ ∀ a, ¬ hit a → t.mem.get a = s.mem.get a)) ∧
    (∀ l, 32 ≤ l → exec (.brynozLinkFailure l) s = .next s) ∧
    (s.coreRuns 4 = false → exec .powerCapInterval s = .next s) ∧
    (s.coreRuns 4 = true → ∃ (t : State) (e : Nat), exec .powerCapInterval s = .next t ∧
      t.clockMHz = (if s.capW * 1000000 < e then min s.clockMHz (max 1000 (s.clockMHz - 100))
        else if e * 100 ≤ s.capW * 1000000 * 95 then min s.clockSet (s.clockMHz + 100) else s.clockMHz) ∧
      (s.capW * 1000000 < e → t.cap = true) ∧ (t.cap ≠ s.cap → t.msix = s.msix ++ [1]) ∧ (t.cap = s.cap → t.msix = s.msix) ∧
      ({ t with clockMHz := s.clockMHz, cap := s.cap, msix := s.msix, choices := s.choices, msSeen := s.msSeen } : State) = s) ∧
    ∃ t, exec .thermalTrip s = .next t ∧ t.trip = true ∧ t.msix = s.msix ++ [1] ∧ (∀ n, n < 1024 → .core n ∈ t.fenced) ∧
      (∀ n, n < 8 → .fleskapa n ∈ t.fenced) ∧ t.mem = s.mem ∧
      ((∀ x ∈ t.inputs, isReset x.2 = false) → step t = .fault .clocksStopped)

/-- R37, R43, R44/02, R112/04, R227/11, R253/12, R258, R259/12: a step that makes an issue runs the instruction that the fetched word stands
for. When the word at the PC of an issue's lanes decodes to an instruction that nothing holds back, `step` is `exec` of it in the marked
issue, its registers brought in and its word captured under broadcast, followed by the marks of an issue; a word that decodes to nothing
runs as an illegal one; a fetch that fails takes its fault; a solo issue takes its word from its lane's window. An event of the agenda is
`exec` of that event. That the word is captured when it issues (log 60) and which lanes' early data land (log 17) are the model's readings. -/
def Obligations.StepRunsDecodedInstruction : Prop :=
  ∀ (s : State) (i : Issue) (h : Sheaf) (rest : List Move), s.trip = false →
    (∀ e, s.agenda = .event e :: rest → step s = exec e { s with agenda := rest, cur := none }) ∧
    (s.agenda = .issue i :: rest → i.pipe ≠ recheckPipe → s.sheaf? i.sheaf = some h → (s.launchOf h).closed = false → h.stillAt i ≠ 0 →
      let j : Issue := { i with lanes := h.stillAt i }
      let s0 : State := { s with agenda := rest }
      let m : State := { s0.markIssue j h with cur := some j }
      let runs := fun (w : Word) (u : State) =>
        (∀ e, decode w = .error e → step s = andThen (exec (.illegalInstruction w) u) fun x => x.afterIssue j s0 h) ∧
        ∀ ins v, decode w = .ok ins → u.scoreboard ins = none → u.bringRegs ins = (none, v) →
          let y : State := if u.fills v ins then { v with cur := some { j with filled := true } } else v
          y.lookLanes ins = 0 →
          let x := y.earlyLands ins
          step s = andThen (exec ins (if i.solo then x else x.modMe fun g => g.capture j.lanes i.pc w)) fun x => x.afterIssue j s0 h
      (∀ w, i.solo = true → (h.lane (lowestLane j.lanes)).winWords.lookup i.pc.toNat = some w → runs w m) ∧
      (∀ w u, i.solo = false → m.fetchBroadcast h j.lanes i.pc = (.ok w, u) → runs w u) ∧
      (∀ c u, i.solo = false → m.fetchBroadcast h j.lanes i.pc = (.error c, u) →
        step s = andThen (exec .fetchFault u) fun x => x.afterIssue j s0 h))

/-- R253, R254, R261 to R266/12: words written out bit by bit from the encoding tables, one of each larger family, each decoded to the
instruction it stands for; a word with a reserved bit set; the two words that stand for none. -/
def Obligations.DecodeWords : Prop :=
  decode 0b00000000000011000000100000100000#32 = .ok (.sadd 3 1 2) ∧
  decode 0b00100100000011111111111111110000#32 = .ok (.bnz 3 0x3FFF0) ∧
  decode 0b00100000000000000000000000000000#32 = .ok .nop ∧
  decode 0b01001110001000000001000010010110#32 = .ok (.fmaF32Vs 8 2 9) ∧
  decode 0b10000000000011000001010100101000#32 = .ok (.cvt 3 2 .f32 .rtz .f16) ∧
  decode 0b10100010000101010011010000100011#32 = .ok (.ldSp 5 .b32 6 (.imm 2) 3) ∧
  decode 0b11000110001000000010010110000000#32 = .ok (.atomGl 8 0 .faddF32 .dev .sc 0) ∧
  decode 0b11010110001000001010000000010000#32 = .ok (.rst 8 20 .b64 0) ∧
  decode 0b11100110001000000001000000000001#32 = .ok (.fork 8 2 1) ∧
  decode 0b11110001111000000100000000000000#32 = .ok (.mmulBf16 15 0 8 0) ∧
  decode 0b11111010000000000001011011110011#32 = .ok (.spcw 2 111) ∧
  decode 0b00100000000000000000000000010000#32 = .error .reservedField ∧
  decode 0#32 = .error .reservedWord ∧
  decode 0xFFFFFFFF#32 = .error .reservedWord

/-- R251 to R266/12: no bit of an encoding is dropped. The word of a well-formed instruction, whatever its operands, decodes to that
instruction; the word of `sadd s0, s0, s0` is the reserved word 0 (R253/12), so that it is not well-formed. Every instruction has a word,
and no event has one. -/
def Obligations.EncodeThenDecode : Prop :=
  (∀ (i : Instr) (w : Word), i.wellFormed = true → encode i = some w → decode w = .ok i) ∧
  (∀ i : Instr, i.isEvent = false → ∃ w, encode i = some w) ∧
  (∀ i : Instr, i.isEvent = true → encode i = none) ∧ (Instr.sadd 0 0 0).wellFormed = false

/-- R251 to R266/12: no two words stand for one instruction, and none for an ill-formed one: a word that decodes to an instruction is the word
of it, so every reserved bit of it is 0. -/
def Obligations.DecodeThenEncode : Prop :=
  ∀ (w : Word) (i : Instr), decode w = .ok i → i.wellFormed = true ∧ encode i = some w

/-- R131/05, log 5: whatever move the machine makes, the list that holds its memory keeps its one canonical form, so that equal memories are
equal data. -/
def Obligations.StepKeepsMemOk : Prop :=
  ∀ s t : State, s.memOk → step s = .next t → t.memOk

/-- R10/00, log 5: the machine after reset has a memory in its canonical form, which lists nothing. -/
def Obligations.ResetMemOk : Prop :=
  State.reset.memOk ∧ State.reset.mem = [] ∧ ∀ a, State.reset.mem.get a = Config.unwritten
end

