-- ==== Sys2Proof/Laws/Cells.lean ====
section
/-! SUPPORT. Sparse maps and memories: a read after a write, and that every memory operation keeps the canonical form. -/

namespace Sys2Proof.Machine

set_option linter.unusedSectionVars false

variable {α : Type} [DecidableEq α] {dflt : α}

theorem cget_cput_same (m : Cells α) (n : Nat) (y : α) (h : ∀ c ∈ m, c.1 ≠ n) : cget dflt (cput m n y) n = y := by
  induction m with
  | nil => simp [cput, cget]
  | cons c m ih =>
    obtain ⟨k, x⟩ := c
    have hk : n ≠ k := fun e => h (k, x) (by simp) e.symm
    simp only [cput]
    split
    · simp [cget]
    · simp [cget, hk, ih fun c hc => h c (List.mem_cons_of_mem _ hc)]

theorem cget_cput_other (m : Cells α) (n k : Nat) (y : α) (h : k ≠ n) : cget dflt (cput m n y) k = cget dflt m k := by
  induction m with
  | nil => simp [cput, cget, h]
  | cons c m ih =>
    obtain ⟨j, x⟩ := c
    simp only [cput]
    split
    · simp [cget, h]
    · simp only [cget, ih]

theorem cget_cdrop_same (m : Cells α) (n : Nat) : cget dflt (cdrop m n) n = dflt := by
  induction m with
  | nil => simp [cdrop, cget]
  | cons c m ih =>
    obtain ⟨j, x⟩ := c
    by_cases e : j = n
    · simpa [cdrop, e] using ih
    · have : cdrop ((j, x) :: m) n = (j, x) :: cdrop m n := by simp [cdrop, e]
      simp [this, cget, Ne.symm e, ih]

theorem cget_cdrop_other (m : Cells α) (n k : Nat) (h : k ≠ n) : cget dflt (cdrop m n) k = cget dflt m k := by
  induction m with
  | nil => simp [cdrop, cget]
  | cons c m ih =>
    obtain ⟨j, x⟩ := c
    by_cases e : j = n
    · have : cdrop ((j, x) :: m) n = cdrop m n := by simp [cdrop, e]
      rw [this, ih]; subst e; simp [cget, h]
    · have : cdrop ((j, x) :: m) n = (j, x) :: cdrop m n := by simp [cdrop, e]
      simp [this, cget, ih]

/-- A read after a write to the same key gives the value written. -/
@[simp] theorem cget_cset_same (m : Cells α) (n : Nat) (y : α) : cget dflt (cset dflt m n y) n = y := by
  unfold cset
  split
  · rename_i e; rw [cget_cdrop_same, e]
  · exact cget_cput_same _ _ _ fun c hc => by simpa [cdrop] using (List.mem_filter.mp hc).2

/-- A write leaves every other key alone. -/
theorem cget_cset_other (m : Cells α) (n k : Nat) (y : α) (h : k ≠ n) : cget dflt (cset dflt m n y) k = cget dflt m k := by
  unfold cset
  split
  · exact cget_cdrop_other _ _ _ h
  · rw [cget_cput_other _ _ _ _ h, cget_cdrop_other _ _ _ h]

/-- A read after a write, either key. -/
theorem cget_cset (m : Cells α) (n k : Nat) (y : α) :
    cget dflt (cset dflt m n y) k = if k = n then y else cget dflt m k := by
  split
  · rename_i e; rw [e, cget_cset_same]
  · rename_i e; exact cget_cset_other _ _ _ _ e

/-! ### The canonical form -/

theorem cabove_iff (n : Nat) (m : Cells α) : caboveAll n m = true ↔ ∀ c ∈ m, n < c.1 := by simp [caboveAll]

theorem cwf_cons (k : Nat) (x : α) (m : Cells α) :
    cwf dflt ((k, x) :: m) = true ↔ x ≠ dflt ∧ (∀ c ∈ m, k < c.1) ∧ cwf dflt m = true := by
  simp [cwf, cabove_iff, and_assoc]

theorem cwf_filter (m : Cells α) (p : Nat × α → Bool) (h : cwf dflt m = true) : cwf dflt (m.filter p) = true := by
  induction m with
  | nil => simpa using h
  | cons c m ih =>
    obtain ⟨k, x⟩ := c
    obtain ⟨hx, hk, hm⟩ := (cwf_cons k x m).mp h
    by_cases e : p (k, x)
    · rw [List.filter_cons_of_pos e, cwf_cons]
      exact ⟨hx, fun c hc => hk c (List.mem_filter.mp hc).1, ih hm⟩
    · rw [List.filter_cons_of_neg e]; exact ih hm

theorem mem_cput (m : Cells α) (n : Nat) (y : α) (c : Nat × α) (h : c ∈ cput m n y) : c = (n, y) ∨ c ∈ m := by
  induction m with
  | nil => simpa [cput] using h
  | cons d m ih =>
    obtain ⟨j, x⟩ := d
    simp only [cput] at h
    split at h
    · simpa using h
    · rcases List.mem_cons.mp h with e | e
      · exact .inr (by simp [e])
      · rcases ih e with e | e
        · exact .inl e
        · exact .inr (List.mem_cons_of_mem _ e)

theorem cwf_cput (m : Cells α) (n : Nat) (y : α) (h : cwf dflt m = true) (hn : ∀ c ∈ m, c.1 ≠ n) (hy : y ≠ dflt) :
    cwf dflt (cput m n y) = true := by
  induction m with
  | nil => simp [cput, cwf, hy, caboveAll]
  | cons d m ih =>
    obtain ⟨j, x⟩ := d
    obtain ⟨hx, hk, hm⟩ := (cwf_cons j x m).mp h
    simp only [cput]
    split
    · rename_i e
      rw [cwf_cons]
      refine ⟨hy, fun c hc => ?_, h⟩
      rcases List.mem_cons.mp hc with e' | e'
      · rw [e']; exact e
      · exact Nat.lt_trans e (hk c e')
    · rename_i e
      have hj : j ≠ n := hn (j, x) (by simp)
      rw [cwf_cons]
      refine ⟨hx, fun c hc => ?_, ih hm fun c hc => hn c (List.mem_cons_of_mem _ hc)⟩
      rcases mem_cput _ _ _ _ hc with e' | e'
      · rw [e']; simp; omega
      · exact hk c e'

/-- A write keeps the canonical form. -/
theorem cwf_cset (m : Cells α) (n : Nat) (y : α) (h : cwf dflt m = true) : cwf dflt (cset dflt m n y) = true := by
  unfold cset
  split
  · exact cwf_filter _ _ h
  · rename_i hy
    exact cwf_cput _ _ _ (cwf_filter _ _ h) (fun c hc => by simpa [cdrop] using (List.mem_filter.mp hc).2) hy

/-! ### Memories -/

@[simp] theorem memory_get_set_same (m : Memory) (a : Nat) (b : Byte) : (m.set a b).get a = b := cget_cset_same m a b

theorem memory_get_set (m : Memory) (a k : Nat) (b : Byte) : (m.set a b).get k = if k = a then b else m.get k :=
  cget_cset m a k b

theorem memory_wf_set (m : Memory) (a : Nat) (b : Byte) (h : m.wf = true) : (m.set a b).wf = true := cwf_cset m a b h

theorem memory_wf_filter (m : Memory) (p : Nat × Byte → Bool) (h : m.wf = true) : Memory.wf (m.filter p) = true :=
  cwf_filter m p h

theorem memory_wf_write (m : Memory) (a : Nat) (bs : List Byte) (h : m.wf = true) : (m.write a bs).wf = true := by
  induction bs generalizing m a with
  | nil => exact h
  | cons b bs ih => exact ih _ _ (memory_wf_set m a b h)

/-- Writing bytes leaves every address outside them as it was. -/
theorem memory_get_write_outside (m : Memory) (a k : Nat) (bs : List Byte) (h : k < a ∨ a + bs.length ≤ k) :
    (m.write a bs).get k = m.get k := by
  induction bs generalizing m a with
  | nil => rfl
  | cons b bs ih =>
    simp only [List.length_cons] at h
    show ((m.set a b).write (a + 1) bs).get k = m.get k
    rw [ih _ _ (by omega), memory_get_set, if_neg (by omega)]

/-- Bytes written read back. -/
theorem memory_get_write_inside (m : Memory) (a k : Nat) (bs : List Byte) (h : k < bs.length) :
    (m.write a bs).get (a + k) = bs[k] := by
  induction bs generalizing m a k with
  | nil => simp at h
  | cons b bs ih =>
    show ((m.set a b).write (a + 1) bs).get (a + k) = _
    cases k with
    | zero => rw [memory_get_write_outside _ _ _ _ (by omega)]; simp
    | succ k =>
      have e : a + (k + 1) = (a + 1) + k := by omega
      rw [e, ih _ _ _ (by simpa using h)]; simp

theorem memory_read_length (m : Memory) (a n : Nat) : (m.read a n).length = n := by
  induction n generalizing a with
  | zero => rfl
  | succ n ih => simp [Memory.read, ih]

theorem memory_read_get (m : Memory) (a n k : Nat) (h : k < n) : (m.read a n)[k]? = some (m.get (a + k)) := by
  induction n generalizing a k with
  | zero => omega
  | succ n ih =>
    cases k with
    | zero => simp [Memory.read]
    | succ k => simp [Memory.read, ih (a + 1) k (by omega)]; congr 1; omega

/-- A read after a write of the same bytes gives them back. -/
theorem memory_read_write_same (m : Memory) (a : Nat) (bs : List Byte) : (m.write a bs).read a bs.length = bs := by
  apply List.ext_getElem?
  intro k
  by_cases h : k < bs.length
  · rw [memory_read_get _ _ _ _ h, memory_get_write_inside _ _ _ _ h]; simp [h]
  · rw [List.getElem?_eq_none (by rw [memory_read_length]; omega), List.getElem?_eq_none (by omega)]

end Sys2Proof.Machine
end

