-- ==== Sys2Proof/Laws/Sheaf.lean ====
section
/-! SUPPORT. Sheaves: reads after writes of lanes, masks and registers, and what folding a write over the active lanes gives. -/

namespace Sys2Proof.Machine

/-! ### Masks -/

theorem mem_lanesOf (m : Mask) (l : Nat) : l ∈ lanesOf m ↔ l < 64 ∧ m.getLsbD l = true := by
  simp [lanesOf]

theorem nodup_lanesOf (m : Mask) : (lanesOf m).Nodup := List.Nodup.filter _ List.nodup_range

theorem getLsbD_laneBit (l k : Nat) (h : k < 64) : (laneBit l).getLsbD k = decide (k = l) := by
  unfold laneBit
  simp only [BitVec.getLsbD_shiftLeft]
  by_cases e : k = l
  · subst e; simp [h]
  · simp only [h, e, decide_true, decide_false, Bool.true_and]
    by_cases e' : k < l
    · simp [e']
    · have : k - l ≠ 0 := by omega
      simp [this]

/-! ### Single writes -/

theorem virt_setVirt (h : Sheaf) (l r k q : Nat) (x : Word) (hl : l < 64) (hk : k < 64) :
    (h.setVirt l r x).virt k q = if k = l ∧ q = r then x else h.virt k q := by
  unfold Sheaf.setVirt Sheaf.virt
  simp only [cget_cset]
  have : (q * 64 + k = r * 64 + l) ↔ (k = l ∧ q = r) := by omega
  simp [this]

theorem virt_vset (h : Sheaf) (l n k q : Nat) (x : Word) (hl : l < 64) (hk : k < 64) :
    (h.vset l n x).virt k q = if k = l ∧ q = h.wb + n then x else h.virt k q := virt_setVirt h l (h.wb + n) k q x hl hk

theorem virt_vset64 (h : Sheaf) (l n k q : Nat) (x : Dword) (hl : l < 64) (hk : k < 64) :
    (h.vset64 l n x).virt k q =
      if k = l ∧ q = h.wb + n then x.extractLsb' 0 32
      else if k = l ∧ q = h.wb + n + 1 then x.extractLsb' 32 32 else h.virt k q := by
  unfold Sheaf.vset64
  rw [virt_vset _ _ _ _ _ _ hl hk, virt_vset _ _ _ _ _ _ hl hk]
  have e : (h.vset l n (x.extractLsb' 0 32)).wb = h.wb := rfl
  rw [e]
  by_cases c : k = l
  · by_cases a : q = h.wb + n
    · have : ¬ q = h.wb + (n + 1) := by omega
      simp [c, a]
    · simp [c, a, Nat.add_assoc]
  · simp [c]

@[simp] theorem sget_sset_same (h : Sheaf) (n : Nat) (x : Dword) : (h.sset n x).sget n = x := cget_cset_same _ _ _

theorem sget_sset (h : Sheaf) (n k : Nat) (x : Dword) : (h.sset n x).sget k = if k = n then x else h.sget k :=
  cget_cset _ _ _ _

theorem pget_pset (h : Sheaf) (n k : Nat) (x : Mask) : (h.pset n x).pget k = if k = n then x else h.pget k :=
  cget_cset _ _ _ _

theorem pget_psetBit (h : Sheaf) (n l k j : Nat) (b : Bool) (hj : j < 64) :
    ((h.psetBit n l b).pget k).getLsbD j = if k = n ∧ j = l then b else (h.pget k).getLsbD j := by
  unfold Sheaf.psetBit
  rw [pget_pset]
  by_cases e : k = n
  · subst e
    cases b
    · simp only [Bool.false_eq_true, if_false, if_true]
      rw [BitVec.getLsbD_and, BitVec.getLsbD_not, getLsbD_laneBit _ _ hj]
      by_cases e' : j = l <;> simp [e', hj]
    · simp only [if_true]
      rw [BitVec.getLsbD_or, getLsbD_laneBit _ _ hj]
      by_cases e' : j = l <;> simp [e']
  · simp [e]

/-! ### Writes folded over lanes -/

theorem foldl_keep {α β γ : Type} (g : α → β → α) (p : α → γ) (hg : ∀ a b, p (g a b) = p a) (xs : List β) (a : α) :
    p (xs.foldl g a) = p a := by
  induction xs generalizing a with
  | nil => rfl
  | cons x xs ih => rw [List.foldl_cons, ih, hg]

/-- A step that writes a lane's virtual registers by a rule, folded over lanes. -/
theorem virt_foldl (g : Sheaf → Nat → Sheaf) (P : Nat → Nat → Word → Word) (n : Nat)
    (hw : ∀ h x, (g h x).wb = h.wb)
    (hP : ∀ h x, h.wb = n → x < 64 → ∀ l r, l < 64 → (g h x).virt l r = if l = x then P l r (h.virt l r) else h.virt l r)
    (xs : List Nat) (hx : ∀ x ∈ xs, x < 64) (hd : xs.Nodup) (h : Sheaf) (hn : h.wb = n) (l r : Nat) (hl : l < 64) :
    (xs.foldl g h).virt l r = if l ∈ xs then P l r (h.virt l r) else h.virt l r := by
  induction xs generalizing h with
  | nil => simp
  | cons x xs ih =>
    have hd' := List.nodup_cons.mp hd
    rw [List.foldl_cons, ih (fun y hy => hx y (List.mem_cons_of_mem _ hy)) hd'.2 _ (by rw [hw, hn]),
      hP h x hn (hx x (by simp)) l r hl]
    by_cases e : l = x
    · subst e; simp [hd'.1]
    · simp [e]

/-- A step that writes a lane's bit of a predicate, folded over lanes. -/
theorem pget_foldl (d : Nat) (f : Nat → Bool) (xs : List Nat) (h : Sheaf) (k l : Nat) (hl : l < 64) :
    ((xs.foldl (fun h l => h.psetBit d l (f l)) h).pget k).getLsbD l =
      if k = d ∧ l ∈ xs then f l else (h.pget k).getLsbD l := by
  induction xs generalizing h with
  | nil => simp
  | cons x xs ih =>
    rw [List.foldl_cons, ih, pget_psetBit _ _ _ _ _ _ hl]
    by_cases a : k = d <;> by_cases b : l = x <;> by_cases c : l ∈ xs <;> simp [a, b, c]

/-! ### Lanes -/

@[simp] theorem length_modAt {α : Type} (f : α → α) (xs : List α) (n : Nat) : (modAt f xs n).length = xs.length := by
  induction xs generalizing n with
  | nil => rfl
  | cons x xs ih => cases n <;> simp [modAt, ih]

theorem getD_modAt {α : Type} (f : α → α) (xs : List α) (n k : Nat) (d : α) (h : n < xs.length) :
    (modAt f xs n).getD k d = if k = n then f (xs.getD k d) else xs.getD k d := by
  induction xs generalizing n k with
  | nil => simp at h
  | cons x xs ih =>
    cases n with
    | zero => cases k <;> simp [modAt]
    | succ n =>
      cases k with
      | zero => simp [modAt]
      | succ k =>
        have := ih n k (by simpa using h)
        simp only [modAt, List.getD_cons_succ, this]
        simp

theorem modAt_of_le {α : Type} (f : α → α) (xs : List α) (n : Nat) (h : xs.length ≤ n) : modAt f xs n = xs := by
  induction xs generalizing n with
  | nil => rfl
  | cons x xs ih =>
    cases n with
    | zero => simp at h
    | succ n => simp only [modAt]; rw [ih n (by simpa using h)]

theorem lane_modLane (h : Sheaf) (l k : Nat) (f : Lane → Lane) (hk : k < h.lanes.length) :
    (h.modLane l f).lane k = if k = l then f (h.lane k) else h.lane k := by
  unfold Sheaf.modLane Sheaf.lane
  by_cases hl : l < h.lanes.length
  · exact getD_modAt f _ _ _ _ hl
  · rw [modAt_of_le _ _ _ (by omega), if_neg (by omega)]

theorem length_foldl_modLane (f : Nat → Lane → Lane) (xs : List Nat) (h : Sheaf) :
    (xs.foldl (fun h l => h.modLane l (f l)) h).lanes.length = h.lanes.length :=
  foldl_keep _ (fun h : Sheaf => h.lanes.length) (fun a b => by simp [Sheaf.modLane]) xs h

theorem lane_foldl (f : Nat → Lane → Lane) (xs : List Nat) (hd : xs.Nodup) (h : Sheaf) (k : Nat) (hk : k < h.lanes.length) :
    (xs.foldl (fun h l => h.modLane l (f l)) h).lane k = if k ∈ xs then f k (h.lane k) else h.lane k := by
  induction xs generalizing h with
  | nil => simp
  | cons x xs ih =>
    have hd' := List.nodup_cons.mp hd
    rw [List.foldl_cons, ih hd'.2 _ (by simpa [Sheaf.modLane] using hk), lane_modLane _ _ _ _ hk]
    by_cases e : k = x
    · subst e; simp [hd'.1]
    · simp [e]

/-- Folding changes of lanes changes nothing but the lanes. -/
theorem foldl_modLane_frame (f : Nat → Lane → Lane) (xs : List Nat) (h : Sheaf) (L : List Lane) :
    ({ xs.foldl (fun h l => h.modLane l (f l)) h with lanes := L } : Sheaf) = { h with lanes := L } :=
  foldl_keep (fun h l => h.modLane l (f l)) (fun h : Sheaf => ({ h with lanes := L } : Sheaf)) (fun _ _ => rfl) xs h

/-- Folding writes of a vector register changes nothing but vector registers. -/
theorem foldl_vset_frame (d : Nat) (f : Nat → Word) (xs : List Nat) (h : Sheaf) (V : Cells Word) :
    ({ xs.foldl (fun h l => h.vset l d (f l)) h with v := V } : Sheaf) = { h with v := V } :=
  foldl_keep (fun h l => h.vset l d (f l)) (fun h : Sheaf => ({ h with v := V } : Sheaf)) (fun _ _ => rfl) xs h

theorem foldl_vset64_frame (d : Nat) (f : Nat → Dword) (xs : List Nat) (h : Sheaf) (V : Cells Word) :
    ({ xs.foldl (fun h l => h.vset64 l d (f l)) h with v := V } : Sheaf) = { h with v := V } :=
  foldl_keep (fun h l => h.vset64 l d (f l)) (fun h : Sheaf => ({ h with v := V } : Sheaf)) (fun _ _ => rfl) xs h

theorem foldl_psetBit_frame (d : Nat) (f : Nat → Bool) (xs : List Nat) (h : Sheaf) (P : Cells Mask) :
    ({ xs.foldl (fun h l => h.psetBit d l (f l)) h with p := P } : Sheaf) = { h with p := P } :=
  foldl_keep (fun h l => h.psetBit d l (f l)) (fun h : Sheaf => ({ h with p := P } : Sheaf)) (fun _ _ => rfl) xs h

/-- What writing a vector register of some lanes gives. -/
theorem virt_foldl_vset (d : Nat) (f : Nat → Word) (m : Mask) (h : Sheaf) (l r : Nat) (hl : l < 64) :
    ((lanesOf m).foldl (fun h l => h.vset l d (f l)) h).virt l r =
      if m.getLsbD l ∧ r = h.wb + d then f l else h.virt l r := by
  rw [virt_foldl (fun h l => h.vset l d (f l)) (fun l r x => if r = h.wb + d then f l else x) h.wb (fun _ _ => rfl)
    (fun g x hg hx l r hl => ?_) _ (fun x hx => ((mem_lanesOf m x).mp hx).1) (nodup_lanesOf m) h rfl l r hl]
  · simp only [mem_lanesOf]
    by_cases a : m.getLsbD l = true <;> by_cases b : r = h.wb + d <;> simp [a, b, hl]
  · rw [virt_vset _ _ _ _ _ _ hx hl, hg]
    by_cases e : l = x
    · subst e; simp
    · simp [e]

/-- What writing a pair of some lanes gives. -/
theorem virt_foldl_vset64 (d : Nat) (f : Nat → Dword) (m : Mask) (h : Sheaf) (l r : Nat) (hl : l < 64) :
    ((lanesOf m).foldl (fun h l => h.vset64 l d (f l)) h).virt l r =
      if m.getLsbD l ∧ r = h.wb + d then (f l).extractLsb' 0 32
      else if m.getLsbD l ∧ r = h.wb + d + 1 then (f l).extractLsb' 32 32 else h.virt l r := by
  rw [virt_foldl (fun h l => h.vset64 l d (f l))
    (fun l r x => if r = h.wb + d then (f l).extractLsb' 0 32 else if r = h.wb + d + 1 then (f l).extractLsb' 32 32 else x)
    h.wb (fun _ _ => rfl)
    (fun g x hg hx l r hl => ?_) _ (fun x hx => ((mem_lanesOf m x).mp hx).1) (nodup_lanesOf m) h rfl l r hl]
  · simp only [mem_lanesOf]
    by_cases a : m.getLsbD l = true <;> simp only [a, hl, true_and, false_and, and_self, if_true, if_false, Bool.false_eq_true]
  · rw [virt_vset64 _ _ _ _ _ _ hx hl, hg]
    by_cases e : l = x
    · subst e; simp
    · simp [e]

end Sys2Proof.Machine
end

