-- ==== Sys2Proof/Laws/Issue.lean ====
section
/-! SUPPORT. The issuing sheaf: what reading it gives, what changing it leaves alone, and what each shared operation of the register instructions does, once. -/

namespace Sys2Proof.Machine

variable {s t u out : State} {i : Issue} {h g : Sheaf}

/-! ### Sheaves of a state -/

theorem find?_map_keep {α : Type} (f : α → α) (p : α → Bool) (hp : ∀ a, p (f a) = p a) (xs : List α) :
    (xs.map f).find? p = (xs.find? p).map f := by
  induction xs with
  | nil => rfl
  | cons x xs ih =>
    simp only [List.map_cons, List.find?_cons, hp]
    cases p x <;> simp [ih]

theorem sheaf?_id (hs : s.sheaf? n = some h) : h.id = n := by
  have := List.find?_some hs
  simpa using this

/-- What a change of one sheaf does to the reading of any. -/
theorem sheaf?_modSheaf (s : State) (k n : Nat) (f : Sheaf → Sheaf) (hf : ∀ g, (f g).id = g.id) :
    (s.modSheaf k f).sheaf? n = if n = k then (s.sheaf? n).map f else s.sheaf? n := by
  have e : (s.modSheaf k f).sheaf? n = (s.sheaf? n).map fun h => if h.id = k then f h else h := by
    refine find?_map_keep _ _ (fun a => ?_) s.sheaves
    by_cases c : a.id = k <;> simp [c, hf]
  rw [e]
  cases hs : s.sheaf? n with
  | none => simp
  | some h =>
    have := sheaf?_id hs
    by_cases c : n = k <;> simp [c, this]

theorem modSheaf_modSheaf (s : State) (k : Nat) (f g : Sheaf → Sheaf) (hf : ∀ a, (f a).id = a.id) :
    (s.modSheaf k f).modSheaf k g = s.modSheaf k fun a => g (f a) := by
  unfold State.modSheaf
  simp only [List.map_map]
  congr 1
  apply List.map_congr_left
  intro a _
  by_cases c : a.id = k <;> simp [c, hf]

theorem sameBut_refl (k : Nat) (s : State) : SameBut k s s := ⟨rfl, fun _ _ => rfl⟩

theorem sameBut_modSheaf (s : State) (k : Nat) (f : Sheaf → Sheaf) (hf : ∀ a, (f a).id = a.id) :
    SameBut k s (s.modSheaf k f) :=
  ⟨rfl, fun n hn => by rw [sheaf?_modSheaf _ _ _ _ hf, if_neg hn]⟩

theorem sameBut_trans (h1 : SameBut k s t) (h2 : SameBut k t u) : SameBut k s u := by
  refine ⟨?_, fun n hn => (h2.2 n hn).trans (h1.2 n hn)⟩
  have e1 := h1.1
  have e2 := h2.1
  cases s; cases t; cases u
  simp only [State.mk.injEq] at e1 e2 ⊢
  simp_all

/-! ### The issuing sheaf -/

theorem me_of (hi : s.Issuing i h) : s.me = h := by simp [State.me, hi.1, hi.2]
theorem active_of (hi : s.Issuing i h) : s.active = i.lanes := by simp [State.active, hi.1]
theorem issuePc_of (hi : s.Issuing i h) : s.issuePc = i.pc := by simp [State.issuePc, hi.1]
theorem solo_of (hi : s.Issuing i h) : s.solo = i.solo := by simp [State.solo, hi.1]
theorem src_of (hi : s.Issuing i h) (n : Nat) : s.src n = s.readS h (lowestLane i.lanes) n := by
  unfold State.src; rw [me_of hi, active_of hi]
theorem modMe_of (hi : s.Issuing i h) (f : Sheaf → Sheaf) : s.modMe f = s.modSheaf i.sheaf f := by
  simp [State.modMe, hi.1]

theorem issuing_modMe (hi : s.Issuing i h) (f : Sheaf → Sheaf) (hf : ∀ a, (f a).id = a.id) : (s.modMe f).Issuing i (f h) := by
  rw [modMe_of hi]
  exact ⟨hi.1, by rw [sheaf?_modSheaf _ _ _ _ hf, if_pos rfl, hi.2]; rfl⟩

theorem sameBut_modMe (hi : s.Issuing i h) (f : Sheaf → Sheaf) (hf : ∀ a, (f a).id = a.id) : SameBut i.sheaf s (s.modMe f) := by
  rw [modMe_of hi]; exact sameBut_modSheaf _ _ _ hf

/-- A state that differs outside its sheaves only keeps the issue. -/
theorem issuing_of_eq (hi : s.Issuing i h) (hc : t.cur = s.cur) (hs : t.sheaves = s.sheaves) : t.Issuing i h :=
  ⟨hc.trans hi.1, by unfold State.sheaf?; rw [hs]; exact hi.2⟩

/-! ### Completion -/

theorem moved_pass (i : Issue) (hl : g.lanes = h.lanes) :
    Moved i h { g.pass (lanesOf i.lanes) i.pc i.solo with watchSkip := w } := by
  constructor
  · show (g.pass _ _ _).lanes.length = _
    unfold Sheaf.pass
    rw [length_foldl_modLane (fun _ ln => ln.pass i.pc i.solo), hl]
  · intro l hk
    have e : ({ g.pass (lanesOf i.lanes) i.pc i.solo with watchSkip := w } : Sheaf).lane l =
        (g.pass (lanesOf i.lanes) i.pc i.solo).lane l := rfl
    have e2 : g.lane l = h.lane l := by unfold Sheaf.lane; rw [hl]
    rw [e]
    unfold Sheaf.pass
    rw [lane_foldl (fun _ ln => ln.pass i.pc i.solo) _ (nodup_lanesOf _) _ _ (by rw [hl]; exact hk), e2]
    by_cases a : i.lanes.getLsbD l = true <;> by_cases b : l < 64 <;> simp only [mem_lanesOf, a, b, decide_true, decide_false,
      Bool.and_true, Bool.and_false, and_self, and_false, false_and, if_true, if_false, Bool.false_eq_true]

/-- Retiring an issue whose sheaf has become `g`: completed, and the sheaf is `g` but for its lanes' PCs and WATCH skips. -/
theorem retire_completed (hu : u.Issuing i g) (ho : SameBut i.sheaf out u) (hl : g.lanes = h.lanes) (hw : g.watchSkip = h.watchSkip) :
    ∃ h', Completed i out u.retire h h' ∧ ({ h' with lanes := h.lanes, watchSkip := h.watchSkip } : Sheaf) = g := by
  have hf : ∀ a : Sheaf, ({ a.pass (lanesOf i.lanes) i.pc i.solo with watchSkip := a.skipsLeft i.lanes i.pc } : Sheaf).id = a.id :=
    fun a => (congrArg Sheaf.id (foldl_modLane_frame (fun _ ln => ln.pass i.pc i.solo) (lanesOf i.lanes) a a.lanes) :)
  have er : u.retire = u.modMe fun h =>
      ({ h.pass (lanesOf i.lanes) i.pc i.solo with watchSkip := h.skipsLeft i.lanes i.pc } : Sheaf) := by
    unfold State.retire
    rw [active_of hu, issuePc_of hu, solo_of hu]
  refine ⟨{ g.pass (lanesOf i.lanes) i.pc i.solo with watchSkip := g.skipsLeft i.lanes i.pc }, ⟨?_, ?_, moved_pass i hl, ?_⟩, ?_⟩
  · rw [er]; exact (issuing_modMe hu _ hf).2
  · rw [er]; exact sameBut_trans ho (sameBut_modMe hu _ hf)
  · show g.skipsLeft i.lanes i.pc = _
    unfold Sheaf.skipsLeft Sheaf.lane
    rw [hw, hl]
  · have e := foldl_modLane_frame (fun _ ln => ln.pass i.pc i.solo) (lanesOf i.lanes) g h.lanes
    have e2 : ({ g.pass (lanesOf i.lanes) i.pc i.solo with lanes := h.lanes } : Sheaf) = { g with lanes := h.lanes } := e
    have e3 := congrArg (fun x : Sheaf => ({ x with watchSkip := h.watchSkip } : Sheaf)) e2
    have e4 : ({ { g with lanes := h.lanes } with watchSkip := h.watchSkip } : Sheaf) = g := by rw [← hl, ← hw]
    exact e3.trans e4

/-- A change of the issuing sheaf that leaves its lanes alone, and then the issue retired. -/
theorem modMe_retire (hi : s.Issuing i h) (f : Sheaf → Sheaf) (hf : ∀ a, (f a).id = a.id) (hl : (f h).lanes = h.lanes)
    (hw : (f h).watchSkip = h.watchSkip) :
    ∃ h', Completed i s (s.modMe f).retire h h' ∧ ({ h' with lanes := h.lanes, watchSkip := h.watchSkip } : Sheaf) = f h :=
  retire_completed (issuing_modMe hi f hf) (sameBut_modMe hi f hf) hl hw

/-! ### What an instruction's result writes -/

theorem flags_or_empty (f : FpFlags) : f.or {} = f := by cases f; simp [FpFlags.or]

/-- A scalar result. -/
theorem writesScalar_of {h' : Sheaf} (he : ({ h' with lanes := h.lanes, watchSkip := h.watchSkip } : Sheaf) = h.sset d x) : WritesScalar d x h h' := by
  have es : h'.s = (h.sset d x).s := (congrArg Sheaf.s he :)
  have eg : ∀ n, h'.sget n = (h.sset d x).sget n := fun n => by unfold Sheaf.sget; rw [es]
  refine ⟨by rw [eg]; simp, fun n hn => by rw [eg, sget_sset, if_neg hn], ?_⟩
  exact congrArg (fun a : Sheaf => ({ a with s := h.s } : Sheaf)) he

/-- `scalarOp` (R267, R268/13). -/
theorem scalarOp_spec (hi : s.Issuing i h) (d : Nat) (x : Dword) :
    ∃ h', Completed i s (s.scalarOp d x) h h' ∧ WritesScalar d x h h' := by
  obtain ⟨h', hc, he⟩ := modMe_retire hi (fun h => h.sset d x) (fun _ => rfl) rfl rfl
  exact ⟨h', hc, writesScalar_of he⟩

theorem vectorIs_of {h' : Sheaf} (f : Nat → Word) (he : h'.v = ((lanesOf i.lanes).foldl (fun h l => h.vset l d (f l)) h).v) :
    VectorIs i d 1 (fun l _ => f l) h h' := by
  intro l r hl
  have e : h'.virt l r = ((lanesOf i.lanes).foldl (fun h l => h.vset l d (f l)) h).virt l r := by unfold Sheaf.virt; rw [he]
  rw [e, virt_foldl_vset _ _ _ _ _ _ hl]
  by_cases a : i.lanes.getLsbD l = true
  · by_cases b : r = h.wb + d
    · subst b; simp [a]
    · have x : ¬ (h.wb + d ≤ r ∧ r < h.wb + d + 1) := by omega
      simp only [a, b, true_and, if_false, Bool.true_and]
      rw [if_neg]
      simpa using x
  · simp only [a, false_and, if_false, Bool.false_and, Bool.false_eq_true]

theorem pairIs_of {h' : Sheaf} (f : Nat → Dword) (he : h'.v = ((lanesOf i.lanes).foldl (fun h l => h.vset64 l d (f l)) h).v) :
    VectorIs i d 2 (fun l k => if k = 0 then (f l).extractLsb' 0 32 else (f l).extractLsb' 32 32) h h' := by
  intro l r hl
  have e : h'.virt l r = ((lanesOf i.lanes).foldl (fun h l => h.vset64 l d (f l)) h).virt l r := by unfold Sheaf.virt; rw [he]
  rw [e, virt_foldl_vset64 _ _ _ _ _ _ hl]
  by_cases a : i.lanes.getLsbD l = true
  · by_cases b : r = h.wb + d
    · subst b; simp [a]
    · by_cases c : r = h.wb + d + 1
      · subst c; simp only [a, true_and, if_true]
        have x1 : ¬ h.wb + d + 1 = h.wb + d := by omega
        have x2 : h.wb + d ≤ h.wb + d + 1 := by omega
        have x3 : h.wb + d + 1 < h.wb + d + 2 := by omega
        have x4 : ¬ h.wb + d + 1 - (h.wb + d) = 0 := by omega
        simp [x3]
      · have x : ¬ (h.wb + d ≤ r ∧ r < h.wb + d + 2) := by omega
        simp only [a, b, c, true_and, if_false, Bool.true_and]
        rw [if_neg]
        simpa using x
  · simp only [a, false_and, if_false, Bool.false_and, Bool.false_eq_true]

/-- A vector result of 32 bits (R283, R285/14). -/
theorem vwrite_spec (hi : s.Issuing i h) (d : Nat) (f : Nat → Word) :
    ∃ h', Completed i s (s.vwrite d f).retire h h' ∧ WritesVector i d f {} h h' := by
  have hf : ∀ a : Sheaf, ((lanesOf i.lanes).foldl (fun h l => h.vset l d (f l)) a).id = a.id :=
    fun a => (congrArg Sheaf.id (foldl_vset_frame d f (lanesOf i.lanes) a a.v) :)
  have fr := foldl_vset_frame d f (lanesOf i.lanes) h h.v
  obtain ⟨h', hc, he⟩ := modMe_retire hi (fun a => (lanesOf i.lanes).foldl (fun h l => h.vset l d (f l)) a) hf
    (congrArg Sheaf.lanes fr :) (congrArg Sheaf.watchSkip fr :)
  refine ⟨h', by unfold State.vwrite; rw [active_of hi]; exact hc, vectorIs_of f (congrArg Sheaf.v he :), ?_, ?_, ?_⟩
  · rw [flags_or_empty]; exact (congrArg Sheaf.flags he :).trans (congrArg Sheaf.flags fr :)
  · rw [flags_or_empty]; exact (congrArg Sheaf.raised he :).trans (congrArg Sheaf.raised fr :)
  · have e := (congrArg (fun a : Sheaf => ({ a with v := h.v, flags := h.flags, raised := h.raised } : Sheaf)) he).trans
      (congrArg (fun a : Sheaf => ({ a with flags := h.flags, raised := h.raised } : Sheaf)) fr)
    exact e

/-- A vector result on pairs (R283, R285/14). -/
theorem vwrite64_spec (hi : s.Issuing i h) (d : Nat) (f : Nat → Dword) :
    ∃ h', Completed i s (s.vwrite64 d f).retire h h' ∧ WritesPair i d f {} h h' := by
  have hf : ∀ a : Sheaf, ((lanesOf i.lanes).foldl (fun h l => h.vset64 l d (f l)) a).id = a.id :=
    fun a => (congrArg Sheaf.id (foldl_vset64_frame d f (lanesOf i.lanes) a a.v) :)
  have fr := foldl_vset64_frame d f (lanesOf i.lanes) h h.v
  obtain ⟨h', hc, he⟩ := modMe_retire hi (fun a => (lanesOf i.lanes).foldl (fun h l => h.vset64 l d (f l)) a) hf
    (congrArg Sheaf.lanes fr :) (congrArg Sheaf.watchSkip fr :)
  refine ⟨h', by unfold State.vwrite64; rw [active_of hi]; exact hc, pairIs_of f (congrArg Sheaf.v he :), ?_, ?_, ?_⟩
  · rw [flags_or_empty]; exact (congrArg Sheaf.flags he :).trans (congrArg Sheaf.flags fr :)
  · rw [flags_or_empty]; exact (congrArg Sheaf.raised he :).trans (congrArg Sheaf.raised fr :)
  · exact (congrArg (fun a : Sheaf => ({ a with v := h.v, flags := h.flags, raised := h.raised } : Sheaf)) he).trans
      (congrArg (fun a : Sheaf => ({ a with flags := h.flags, raised := h.raised } : Sheaf)) fr)

theorem predIs_of {h' : Sheaf} (f : Nat → Bool) (he : h'.p = ((lanesOf i.lanes).foldl (fun h l => h.psetBit d l (f l)) h).p) (k l : Nat) (hl : l < 64) :
    (h'.pget k).getLsbD l = if k = d ∧ i.lanes.getLsbD l then f l else (h.pget k).getLsbD l := by
  have e : h'.pget k = ((lanesOf i.lanes).foldl (fun h l => h.psetBit d l (f l)) h).pget k := by unfold Sheaf.pget; rw [he]
  rw [e, pget_foldl _ _ _ _ _ _ hl]
  simp only [mem_lanesOf, hl, true_and]

/-- A predicate result (R94/04). -/
theorem pwrite_spec (hi : s.Issuing i h) (d : Nat) (f : Nat → Bool) :
    ∃ h', Completed i s (s.pwrite d f).retire h h' ∧ WritesPred i d f {} h h' := by
  have hf : ∀ a : Sheaf, ((lanesOf i.lanes).foldl (fun h l => h.psetBit d l (f l)) a).id = a.id :=
    fun a => (congrArg Sheaf.id (foldl_psetBit_frame d f (lanesOf i.lanes) a a.p) :)
  have fr := foldl_psetBit_frame d f (lanesOf i.lanes) h h.p
  obtain ⟨h', hc, he⟩ := modMe_retire hi (fun a => (lanesOf i.lanes).foldl (fun h l => h.psetBit d l (f l)) a) hf
    (congrArg Sheaf.lanes fr :) (congrArg Sheaf.watchSkip fr :)
  refine ⟨h', by unfold State.pwrite; rw [active_of hi]; exact hc, predIs_of f (congrArg Sheaf.p he :), ?_, ?_, ?_⟩
  · rw [flags_or_empty]; exact (congrArg Sheaf.flags he :).trans (congrArg Sheaf.flags fr :)
  · rw [flags_or_empty]; exact (congrArg Sheaf.raised he :).trans (congrArg Sheaf.raised fr :)
  · exact (congrArg (fun a : Sheaf => ({ a with p := h.p, flags := h.flags, raised := h.raised } : Sheaf)) he).trans
      (congrArg (fun a : Sheaf => ({ a with flags := h.flags, raised := h.raised } : Sheaf)) fr)

/-! ### Floating-point completion (R198/09) -/

/-- What setting SAT changes: teams. -/
theorem setSat_eq (s : State) (h : Sheaf) : ∃ ts, s.setSat h = { s with teams := ts } := by
  unfold State.setSat
  generalize (h.slots.filterMap fun x => x) = xs
  induction xs generalizing s with
  | nil => exact ⟨s.teams, rfl⟩
  | cons x xs ih =>
    obtain ⟨ts, e⟩ := ih (s.modTeam x fun t => t.setSat s.now)
    exact ⟨ts, by rw [List.foldl_cons, e]; rfl⟩

/-- Setting SAT and changing a sheaf commute. -/
theorem setSat_modSheaf (s : State) (h : Sheaf) (k : Nat) (f : Sheaf → Sheaf) :
    (s.modSheaf k f).setSat h = (s.setSat h).modSheaf k f := by
  unfold State.setSat
  generalize (h.slots.filterMap fun x => x) = xs
  induction xs generalizing s with
  | nil => rfl
  | cons x xs ih =>
    rw [List.foldl_cons, List.foldl_cons, ← ih]
    rfl

theorem issuing_satOut (hi : s.Issuing i h) (r : Raised) : (s.satOut h r).Issuing i h := by
  unfold State.satOut
  split
  · obtain ⟨ts, e⟩ := setSat_eq s h
    rw [e]; exact issuing_of_eq hi rfl rfl
  · exact hi

/-- The lanes' flags together, as the meaning folds them. -/
theorem raisedBy_eq (i : Issue) (f : Nat → Raised) :
    ((lanesOf i.lanes).map fun l => (l, f l)).foldl (fun (a : Raised) x => a.or x.2) {} = raisedBy i f := by
  unfold raisedBy
  rw [List.foldl_map]

/-- A floating-point completion after a change of the sheaf's registers, with no enabled flag raised. -/
theorem fpFinish_spec (hi : s.Issuing i h) (f : Sheaf → Sheaf) (hf : ∀ a, (f a).id = a.id) (hl : (f h).lanes = h.lanes)
    (hw : (f h).watchSkip = h.watchSkip) (hx : (f h).ctrl = h.ctrl) (hs : (f h).slots = h.slots) (r : Nat → Raised)
    (hq : Quiet h (raisedBy i r)) :
    ∃ h', Completed i (s.satOut h (raisedBy i r)) ((s.modMe f).fpFinish ((lanesOf i.lanes).map fun l => (l, r l))) h h' ∧
      ({ h' with lanes := h.lanes, watchSkip := h.watchSkip } : Sheaf) = (f h).raise (raisedBy i r).fl := by
  have hi1 := issuing_modMe hi f hf
  have hq' : (raisedBy i r).fl.bits &&& (f h).fpxen = 0 := by
    have : (f h).fpxen = h.fpxen := by unfold Sheaf.fpxen; rw [hx]
    rw [this]; exact hq
  have es : (s.modMe f).setSat (f h) = (s.setSat h).modMe f := by
    have : (s.modMe f).setSat (f h) = (s.modMe f).setSat h := by unfold State.setSat; rw [hs]
    rw [this, modMe_of hi, setSat_modSheaf]
    obtain ⟨ts, e⟩ := setSat_eq s h
    rw [modMe_of (i := i) (h := h) (by rw [e]; exact issuing_of_eq hi rfl rfl)]
  have eo : (if (raisedBy i r).sat then (s.modMe f).setSat (f h) else s.modMe f) = (s.satOut h (raisedBy i r)).modMe f := by
    unfold State.satOut
    split
    · exact es
    · rfl
  have hout := issuing_satOut hi (raisedBy i r)
  have h2 := issuing_modMe hout f hf
  have h3 := issuing_modMe h2 (fun a => a.raise (raisedBy i r).fl) (fun _ => rfl)
  have ho := sameBut_trans (sameBut_modMe hout f hf) (sameBut_modMe h2 (fun a => a.raise (raisedBy i r).fl) (fun _ => rfl))
  obtain ⟨h', hc, he⟩ := retire_completed (h := h) h3 ho hl hw
  refine ⟨h', ?_, he⟩
  have ef : (s.modMe f).fpFinish ((lanesOf i.lanes).map fun l => (l, r l)) =
      (((s.satOut h (raisedBy i r)).modMe f).modMe fun a => a.raise (raisedBy i r).fl).retire := by
    unfold State.fpFinish
    simp only [raisedBy_eq, me_of hi1, hq', if_true, eo]
  rw [ef]; exact hc

/-- A floating-point vector result of 32 bits or fewer. -/
theorem fp32_spec (hi : s.Issuing i h) (d : Nat) (f : Nat → FRes) (hq : Quiet h (raisedBy i fun l => (f l).r)) :
    ∃ h', Completed i (s.satOut h (raisedBy i fun l => (f l).r)) (s.fp32 d f) h h' ∧
      WritesVector i d (fun l => BitVec.ofNat 32 (f l).bits) (raisedBy i fun l => (f l).r).fl h h' := by
  have hf : ∀ a : Sheaf, ((lanesOf i.lanes).foldl (fun h l => h.vset l d (BitVec.ofNat 32 (f l).bits)) a).id = a.id :=
    fun a => (congrArg Sheaf.id (foldl_vset_frame d (fun l => BitVec.ofNat 32 (f l).bits) (lanesOf i.lanes) a a.v) :)
  have fr := foldl_vset_frame d (fun l => BitVec.ofNat 32 (f l).bits) (lanesOf i.lanes) h h.v
  obtain ⟨h', hc, he⟩ := fpFinish_spec hi
    (fun a => (lanesOf i.lanes).foldl (fun h l => h.vset l d (BitVec.ofNat 32 (f l).bits)) a) hf
    (congrArg Sheaf.lanes fr :) (congrArg Sheaf.watchSkip fr :) (congrArg Sheaf.ctrl fr :) (congrArg Sheaf.slots fr :) (fun l => (f l).r) hq
  have e : s.fp32 d f = (s.modMe fun a => (lanesOf i.lanes).foldl (fun h l => h.vset l d (BitVec.ofNat 32 (f l).bits)) a).fpFinish
      ((lanesOf i.lanes).map fun l => (l, (f l).r)) := by
    unfold State.fp32 State.lanesFp raisedOf
    simp only [active_of hi, List.foldl_map, List.map_map]
    rfl
  refine ⟨h', by rw [e]; exact hc, vectorIs_of _ (congrArg Sheaf.v he :), ?_, ?_, ?_⟩
  · exact (congrArg Sheaf.flags he :).trans (congrArg (fun a : Sheaf => a.flags.or (raisedBy i fun l => (f l).r).fl) fr :)
  · exact (congrArg Sheaf.raised he :).trans (congrArg (fun a : Sheaf => a.raised.or (raisedBy i fun l => (f l).r).fl) fr :)
  · exact (congrArg (fun a : Sheaf => ({ a with v := h.v, flags := h.flags, raised := h.raised } : Sheaf)) he).trans
      (congrArg (fun a : Sheaf => ({ a with flags := h.flags, raised := h.raised } : Sheaf)) fr)

/-- A floating-point vector result on pairs. -/
theorem fp64_spec (hi : s.Issuing i h) (d : Nat) (f : Nat → FRes) (hq : Quiet h (raisedBy i fun l => (f l).r)) :
    ∃ h', Completed i (s.satOut h (raisedBy i fun l => (f l).r)) (s.fp64 d f) h h' ∧
      WritesPair i d (fun l => BitVec.ofNat 64 (f l).bits) (raisedBy i fun l => (f l).r).fl h h' := by
  have hf : ∀ a : Sheaf, ((lanesOf i.lanes).foldl (fun h l => h.vset64 l d (BitVec.ofNat 64 (f l).bits)) a).id = a.id :=
    fun a => (congrArg Sheaf.id (foldl_vset64_frame d (fun l => BitVec.ofNat 64 (f l).bits) (lanesOf i.lanes) a a.v) :)
  have fr := foldl_vset64_frame d (fun l => BitVec.ofNat 64 (f l).bits) (lanesOf i.lanes) h h.v
  obtain ⟨h', hc, he⟩ := fpFinish_spec hi
    (fun a => (lanesOf i.lanes).foldl (fun h l => h.vset64 l d (BitVec.ofNat 64 (f l).bits)) a) hf
    (congrArg Sheaf.lanes fr :) (congrArg Sheaf.watchSkip fr :) (congrArg Sheaf.ctrl fr :) (congrArg Sheaf.slots fr :) (fun l => (f l).r) hq
  have e : s.fp64 d f = (s.modMe fun a => (lanesOf i.lanes).foldl (fun h l => h.vset64 l d (BitVec.ofNat 64 (f l).bits)) a).fpFinish
      ((lanesOf i.lanes).map fun l => (l, (f l).r)) := by
    unfold State.fp64 State.lanesFp raisedOf
    simp only [active_of hi, List.foldl_map, List.map_map]
    rfl
  refine ⟨h', by rw [e]; exact hc, pairIs_of _ (congrArg Sheaf.v he :), ?_, ?_, ?_⟩
  · exact (congrArg Sheaf.flags he :).trans (congrArg (fun a : Sheaf => a.flags.or (raisedBy i fun l => (f l).r).fl) fr :)
  · exact (congrArg Sheaf.raised he :).trans (congrArg (fun a : Sheaf => a.raised.or (raisedBy i fun l => (f l).r).fl) fr :)
  · exact (congrArg (fun a : Sheaf => ({ a with v := h.v, flags := h.flags, raised := h.raised } : Sheaf)) he).trans
      (congrArg (fun a : Sheaf => ({ a with flags := h.flags, raised := h.raised } : Sheaf)) fr)

/-- A float comparison into a predicate (R292/14). -/
theorem fcmpP_spec (hi : s.Issuing i h) (d : Nat) (f : Nat → Bool × Raised) (hq : Quiet h (raisedBy i fun l => (f l).2)) :
    ∃ h', Completed i (s.satOut h (raisedBy i fun l => (f l).2)) (s.fcmpP d f) h h' ∧
      WritesPred i d (fun l => (f l).1) (raisedBy i fun l => (f l).2).fl h h' := by
  have hf : ∀ a : Sheaf, ((lanesOf i.lanes).foldl (fun h l => h.psetBit d l (f l).1) a).id = a.id :=
    fun a => (congrArg Sheaf.id (foldl_psetBit_frame d (fun l => (f l).1) (lanesOf i.lanes) a a.p) :)
  have fr := foldl_psetBit_frame d (fun l => (f l).1) (lanesOf i.lanes) h h.p
  obtain ⟨h', hc, he⟩ := fpFinish_spec hi (fun a => (lanesOf i.lanes).foldl (fun h l => h.psetBit d l (f l).1) a) hf
    (congrArg Sheaf.lanes fr :) (congrArg Sheaf.watchSkip fr :) (congrArg Sheaf.ctrl fr :) (congrArg Sheaf.slots fr :) (fun l => (f l).2) hq
  have e : s.fcmpP d f = (s.modMe fun a => (lanesOf i.lanes).foldl (fun h l => h.psetBit d l (f l).1) a).fpFinish
      ((lanesOf i.lanes).map fun l => (l, (f l).2)) := by
    unfold State.fcmpP
    simp only [active_of hi, List.foldl_map, List.map_map]
    rfl
  refine ⟨h', by rw [e]; exact hc, predIs_of _ (congrArg Sheaf.p he :), ?_, ?_, ?_⟩
  · exact (congrArg Sheaf.flags he :).trans (congrArg (fun a : Sheaf => a.flags.or (raisedBy i fun l => (f l).2).fl) fr :)
  · exact (congrArg Sheaf.raised he :).trans (congrArg (fun a : Sheaf => a.raised.or (raisedBy i fun l => (f l).2).fl) fr :)
  · exact (congrArg (fun a : Sheaf => ({ a with p := h.p, flags := h.flags, raised := h.raised } : Sheaf)) he).trans
      (congrArg (fun a : Sheaf => ({ a with flags := h.flags, raised := h.raised } : Sheaf)) fr)

/-! ### Division (R269/13, R286/14) -/

/-- A scalar division: the result, and DZ when the divisor is 0. -/
theorem scalarDiv_spec (hi : s.Issuing i h) (d a b : Nat) (f : Dword → Dword → Dword) :
    ∃ h', Completed i s (s.scalarDiv d a b f) h h' ∧
      WritesScalar d (f (s.src a) (s.src b)) (if s.src b = 0 then h.raise { dz := true } else h) h' := by
  unfold State.scalarDiv
  by_cases c : s.src b = 0
  · simp only [c, if_true]
    have h1 := issuing_modMe hi (fun h => h.raise { dz := true }) (fun _ => rfl)
    have o1 := sameBut_modMe hi (fun h => h.raise { dz := true }) (fun _ => rfl)
    have h2 := issuing_modMe h1 (fun h => h.sset d (f (s.src a) 0)) (fun _ => rfl)
    have o2 := sameBut_trans o1 (sameBut_modMe h1 (fun h => h.sset d (f (s.src a) 0)) (fun _ => rfl))
    obtain ⟨h', hc, he⟩ := retire_completed (h := h) h2 o2 rfl rfl
    exact ⟨h', hc, writesScalar_of (h := h.raise { dz := true }) he⟩
  · simp only [c, if_false]
    exact scalarOp_spec hi d _

/-- Flags raised after an instruction has completed. -/
theorem completed_raise (hi : s.Issuing i h) (hc : Completed i s t h h') (fl : FpFlags) :
    Completed i s (t.modMe fun a => a.raise fl) h (h'.raise fl) := by
  have ht : t.Issuing i h' := ⟨by
    have := congrArg State.cur hc.2.1.1
    exact (this : t.cur = s.cur).trans hi.1, hc.1⟩
  exact ⟨(issuing_modMe ht (fun a => a.raise fl) fun _ => rfl).2, sameBut_trans hc.2.1 (sameBut_modMe ht (fun a => a.raise fl) fun _ => rfl), hc.2.2.1, hc.2.2.2⟩

theorem flags_or_dz (f : FpFlags) : f.or { dz := false } = f := flags_or_empty f

/-- A division in lanes, after its result has been written. -/
theorem raiseDz_spec (hi : s.Issuing i h) (hc : Completed i s t h h') (z : Nat → Prop) [DecidablePred z] (c : Bool)
    (hz : c = (lanesOf i.lanes).any fun l => decide (z l)) :
    ∃ h'', Completed i s (t.raiseDz c) h h'' ∧ h''.flags = h'.flags.or (dzIf i z) ∧ h''.raised = h'.raised.or (dzIf i z) ∧
      ({ h'' with flags := h'.flags, raised := h'.raised } : Sheaf) = h' := by
  subst hz
  unfold State.raiseDz dzIf
  cases (lanesOf i.lanes).any fun l => decide (z l)
  · exact ⟨h', by simpa using hc, (flags_or_dz _).symm, (flags_or_dz _).symm, rfl⟩
  · exact ⟨_, completed_raise hi hc _, rfl, rfl, rfl⟩

/-- A lane division of 32 bits. -/
theorem vdiv32_spec (hi : s.Issuing i h) (vs : Bool) (d a b : Nat) (f : Word → Word → Word) :
    ∃ h', Completed i s (s.vdiv32 vs d a b f) h h' ∧
      WritesVector i d (fun l => f (h.vget l a) (s.opB h vs l b)) (dzIf i fun l => s.opB h vs l b = 0) h h' := by
  obtain ⟨h1, hc, hv, hf, hr, he⟩ := vwrite_spec hi d fun l => f (h.vget l a) (s.opB h vs l b)
  obtain ⟨h2, hc2, f2, r2, e2⟩ := raiseDz_spec hi hc (fun l => s.opB h vs l b = 0)
    ((lanesOf s.active).any fun l => s.opB s.me vs l b == 0) (by rw [active_of hi, me_of hi]; rfl)
  rw [flags_or_empty] at hf hr
  refine ⟨h2, ?_, ?_, by rw [f2, hf], by rw [r2, hr], ?_⟩
  · have e : s.vdiv32 vs d a b f = ((s.vwrite d fun l => f (h.vget l a) (s.opB h vs l b)).retire).raiseDz
        ((lanesOf s.active).any fun l => s.opB s.me vs l b == 0) := by unfold State.vdiv32 State.vec32; rw [me_of hi]
    rw [e]; exact hc2
  · intro l r hl
    have : h2.v = h1.v := (congrArg Sheaf.v e2 :)
    have e : h2.virt l r = h1.virt l r := by unfold Sheaf.virt; rw [this]
    rw [e]; exact hv l r hl
  · exact (congrArg (fun a : Sheaf => ({ a with v := h.v, lanes := h.lanes, watchSkip := h.watchSkip, flags := h.flags, raised := h.raised } : Sheaf)) e2 :).trans he

/-- A lane division of 64 bits. -/
theorem vdiv64_spec (hi : s.Issuing i h) (vs : Bool) (d a b : Nat) (f : Dword → Dword → Dword) :
    ∃ h', Completed i s (s.vdiv64 vs d a b f) h h' ∧
      WritesPair i d (fun l => f (h.vget64 l a) (s.opB64 h vs l b)) (dzIf i fun l => s.opB64 h vs l b = 0) h h' := by
  obtain ⟨h1, hc, hv, hf, hr, he⟩ := vwrite64_spec hi d fun l => f (h.vget64 l a) (s.opB64 h vs l b)
  obtain ⟨h2, hc2, f2, r2, e2⟩ := raiseDz_spec hi hc (fun l => s.opB64 h vs l b = 0)
    ((lanesOf s.active).any fun l => s.opB64 s.me vs l b == 0) (by rw [active_of hi, me_of hi]; rfl)
  rw [flags_or_empty] at hf hr
  refine ⟨h2, ?_, ?_, by rw [f2, hf], by rw [r2, hr], ?_⟩
  · have e : s.vdiv64 vs d a b f = ((s.vwrite64 d fun l => f (h.vget64 l a) (s.opB64 h vs l b)).retire).raiseDz
        ((lanesOf s.active).any fun l => s.opB64 s.me vs l b == 0) := by unfold State.vdiv64 State.vec64; rw [me_of hi]
    rw [e]; exact hc2
  · intro l r hl
    have : h2.v = h1.v := (congrArg Sheaf.v e2 :)
    have e : h2.virt l r = h1.virt l r := by unfold Sheaf.virt; rw [this]
    rw [e]; exact hv l r hl
  · exact (congrArg (fun a : Sheaf => ({ a with v := h.v, lanes := h.lanes, watchSkip := h.watchSkip, flags := h.flags, raised := h.raised } : Sheaf)) e2 :).trans he

/-! ### Pending results (R257/12) -/

/-- The flags given to all active lanes together. -/
theorem raised_map_eq (i : Issue) (f : Nat → Raised) (rs : List (Nat × Raised)) (h : rs = (lanesOf i.lanes).map fun l => (l, f l)) :
    rs.foldl (fun (a : Raised) x => a.or x.2) {} = raisedBy i f := by rw [h, raisedBy_eq]

/-- A lookahead-eligible result with no enabled flag raised: pending, with its windows. -/
theorem pendFp_spec (hi : s.Issuing i h) (r : Nat → Raised) (n : Nat) (p : Pending) (hq : Quiet h (raisedBy i r)) :
    ∃ h', Completed i { s.satOut h (raisedBy i r) with nextId := s.nextId + 1 }
        (s.pendFp ((lanesOf i.lanes).map fun l => (l, r l)) n p) h h' ∧
      AddsPending { p with id := s.nextId, pc := i.pc, windows := windowsOf (lanesOf i.lanes) n, since := s.now }
        (raisedBy i r).fl h h' := by
  have hs1 : ({ s with nextId := s.nextId + 1 } : State).Issuing i h := issuing_of_eq hi rfl rfl
  obtain ⟨h', hc, he⟩ := fpFinish_spec hs1 (fun h => { h with pend := h.pend ++
      [{ p with id := s.nextId, pc := i.pc, windows := windowsOf (lanesOf i.lanes) n, since := s.now }] }) (fun _ => rfl) rfl rfl rfl rfl r hq
  have eo : ({ s with nextId := s.nextId + 1 } : State).satOut h (raisedBy i r) =
      { s.satOut h (raisedBy i r) with nextId := s.nextId + 1 } := by
    unfold State.satOut
    split
    · unfold State.setSat
      generalize (h.slots.filterMap fun x => x) = xs
      have : ∀ u : State, xs.foldl (fun (s : State) t => s.modTeam t fun t => t.setSat s.now) { u with nextId := s.nextId + 1 } =
          { xs.foldl (fun (s : State) t => s.modTeam t fun t => t.setSat s.now) u with nextId := s.nextId + 1 } := by
        induction xs with
        | nil => intro u; rfl
        | cons x xs ih => intro u; rw [List.foldl_cons, List.foldl_cons, ← ih]; rfl
      exact this s
    · rfl
  rw [eo] at hc
  refine ⟨h', ?_, (congrArg Sheaf.pend he :), (congrArg Sheaf.flags he :), (congrArg Sheaf.raised he :), ?_⟩
  · have e : s.pendFp ((lanesOf i.lanes).map fun l => (l, r l)) n p =
        (({ s with nextId := s.nextId + 1 } : State).modMe fun h => { h with pend := h.pend ++
          [{ p with id := s.nextId, pc := i.pc, windows := windowsOf (lanesOf i.lanes) n, since := s.now }] }).fpFinish
            ((lanesOf i.lanes).map fun l => (l, r l)) := by
      have hq' : (raisedBy i r).fl.bits &&& h.fpxen = 0 := hq
      unfold State.pendFp
      simp only [raisedBy_eq, me_of hi, hq', if_true, issuePc_of hi, active_of hi]
      rfl
    rw [e]; exact hc
  · exact (congrArg (fun a : Sheaf => ({ a with pend := h.pend, flags := h.flags, raised := h.raised } : Sheaf)) he :)

/-! ### Collectives (R300/14) -/

/-- Arrivals at a collective that participants or data still hold back: only the arrivals are noted (R300/14). -/
theorem collect_wait (hi : s.Issuing i h) (m : Nat) (srcs : List Nat) (act : Mask → (Nat → Nat) → State → State)
    (hd : h.collectiveLeft (s.arrivals i m) ≠ 0) :
    s.collect m srcs act = s.modSheaf i.sheaf fun g =>
      { g with waits := (h.waits.filter fun x => !((h.collectivesAt i.pc).contains x)) ++ s.arrivals i m } := by
  unfold State.collect
  simp only [hi.1, me_of hi, if_neg hd]
  exact modMe_of hi _

/-- The completion of a collective: every lane that has arrived runs `act`, and those still at the instruction move on. -/
theorem collect_done (hi : s.Issuing i h) (m : Nat) (srcs : List Nat) (act : Mask → (Nat → Nat) → State → State)
    (hd : h.collectiveLeft (s.arrivals i m) = 0) (hp : h.sourcePending (s.arrivals i m) srcs = none) :
    s.collect m srcs act = (act (collectiveMembers (s.arrivals i m)) (baseOf (s.arrivals i m))
      { s.modSheaf i.sheaf fun g => { g with waits := h.waits.filter fun x => !((h.collectivesAt i.pc).contains x) } with
        cur := some { i with lanes := waitMask (s.arrivals i m) } }).retireWaited
          ((s.arrivals i m).map fun w => { w with lanes := w.lanes &&& ~~~(i.lanes &&& ~~~waitMask (h.collectivesAt i.pc)) }) := by
  unfold State.collect
  simp only [hi.1, me_of hi, if_pos hd, hp]
  rw [modMe_of hi]

/-- The issue of all arrived lanes, in the sheaf without its wait. -/
theorem collect_issuing (hi : s.Issuing i h) (L : Mask) (ws : List Wait) :
    ({ s.modSheaf i.sheaf fun g => { g with waits := ws } with cur := some { i with lanes := L } } : State).Issuing
      { i with lanes := L } { h with waits := ws } := by
  refine ⟨rfl, ?_⟩
  have := sheaf?_modSheaf s i.sheaf i.sheaf (fun g => { g with waits := ws }) (fun _ => rfl)
  rw [if_pos rfl, hi.2] at this
  exact this

end Sys2Proof.Machine
end

