-- ==== Sys2Proof/Laws/Mem.lean ====
section
/-! SUPPORT. Translations and reads change nothing but caches. -/

namespace Sys2Proof.Machine

variable {s t u : State}

theorem onlyCaches_refl (s : State) : OnlyCaches s s := ⟨rfl, fun _ => rfl, fun _ => rfl⟩

theorem onlyCaches_trans (h1 : OnlyCaches s t) (h2 : OnlyCaches t u) : OnlyCaches s u := by
  refine ⟨?_, fun c => (h2.2.1 c).trans (h1.2.1 c), fun n => (h2.2.2 n).trans (h1.2.2 n)⟩
  have e1 := h1.1
  have e2 := h2.1
  cases s; cases t; cases u
  simp only [State.mk.injEq] at e1 e2 ⊢
  simp_all

theorem core_modCore (s : State) (c k : Nat) (f : Core → Core) :
    (s.modCore c f).core k = if k = c then f (s.core c) else s.core k := cget_cset _ _ _ _

theorem field_modField (s : State) (c k : Nat) (f : FieldState → FieldState) :
    (s.modField c f).field k = if k = c then f (s.field c) else s.field k := cget_cset _ _ _ _

theorem onlyCaches_modCore (s : State) (c : Nat) (f : Core → Core)
    (hf : ∀ k : Core, ({ f k with l1 := [], tlb := [] } : Core) = { k with l1 := [], tlb := [] }) : OnlyCaches s (s.modCore c f) := by
  refine ⟨rfl, fun k => ?_, fun _ => rfl⟩
  rw [core_modCore]
  by_cases e : k = c
  · rw [if_pos e, hf, e]
  · rw [if_neg e]

theorem onlyCaches_modField (s : State) (c : Nat) (f : FieldState → FieldState)
    (hf : ∀ k : FieldState, ({ f k with tlb := [] } : FieldState) = { k with tlb := [] }) : OnlyCaches s (s.modField c f) := by
  refine ⟨rfl, fun _ => rfl, fun k => ?_⟩
  rw [field_modField]
  by_cases e : k = c
  · rw [if_pos e, hf, e]
  · rw [if_neg e]

theorem onlyCaches_flip (s : State) : OnlyCaches s s.flip.2 := ⟨rfl, fun _ => rfl, fun _ => rfl⟩

theorem onlyCaches_translate (s : State) (core ctx va : Nat) : OnlyCaches s (s.translate core ctx va).2 := by
  have add : ∀ (u : State) (x : Tlb), OnlyCaches u (u.modCore core fun c => { c with tlb := (x :: c.tlb).take 128 }) :=
    fun u _ => onlyCaches_modCore u core _ fun _ => rfl
  unfold State.translate
  split
  · exact onlyCaches_refl s
  · simp only
    split
    · exact add s _
    · split
      · exact onlyCaches_refl s
      · split
        · exact onlyCaches_refl s
        · rename_i x _ _
          exact onlyCaches_trans
            (onlyCaches_modField s (fieldOfCore core) (fun f => { f with tlb := (x :: f.tlb).take 8192 }) fun _ => rfl) (add _ x)

theorem onlyCaches_ownWindow (s : State) (core ctx : Nat) (k : AccKind) (off : Nat) :
    OnlyCaches s (s.ownWindow core ctx k off).2 := by
  unfold State.ownWindow
  split
  · exact onlyCaches_refl s
  · have h := onlyCaches_translate s core ctx (((s.ctx ctx).exportBase.toNat + off) % 2 ^ 56)
    simp only
    generalize s.translate core ctx (((s.ctx ctx).exportBase.toNat + off) % 2 ^ 56) = r at h
    obtain ⟨r, u⟩ := r
    cases r with
    | error c => cases c <;> exact h
    | ok t =>
      simp only
      split
      · exact h
      · split <;> exact h

theorem onlyCaches_xlateHere (s : State) (core ctx : Nat) (k : AccKind) (va : Nat) :
    OnlyCaches s (s.xlateHere core ctx k va).2 := by
  have h1 := onlyCaches_translate s core ctx va
  unfold State.xlateHere
  generalize s.translate core ctx va = r at h1
  obtain ⟨r, u⟩ := r
  cases r with
  | error c => exact h1
  | ok t =>
    simp only
    split
    · exact h1
    · split
      · exact h1
      · split
        · exact h1
        · split
          · exact h1
          · split
            · exact onlyCaches_trans h1 (onlyCaches_ownWindow u core ctx k _)
            · exact h1

theorem onlyCaches_xlate (s : State) (core ctx : Nat) (k : AccKind) (va : Nat) : OnlyCaches s (s.xlate core ctx k va).2 := by
  have h1 := onlyCaches_xlateHere s core ctx k va
  unfold State.xlate
  generalize s.xlateHere core ctx k va = r at h1
  obtain ⟨r, u⟩ := r
  cases r with
  | error c => exact onlyCaches_refl s
  | ok hpa =>
    simp only
    split
    · exact onlyCaches_refl s
    · exact h1

theorem onlyCaches_homeRead (s : State) (hpa n : Nat) (sys : Bool) : OnlyCaches s (s.homeRead hpa n sys).2 := by
  unfold State.homeRead
  split
  · exact onlyCaches_refl s
  · split
    · exact onlyCaches_refl s
    · simp only
      split
      · exact ⟨rfl, fun _ => rfl, fun _ => rfl⟩
      · exact onlyCaches_refl s

theorem onlyCaches_glRead (s : State) (ctx rev va hpa n : Nat) (sys : Bool) : OnlyCaches s (s.glRead ctx rev va hpa n sys).2 := by
  unfold State.glRead
  split
  · exact onlyCaches_homeRead _ _ _ _
  · exact onlyCaches_homeRead s (lineOf hpa) 128 sys

theorem onlyCaches_l1Drop (s : State) (core line : Nat) : OnlyCaches s (s.l1Drop core line) :=
  onlyCaches_modCore s core _ fun _ => rfl

theorem onlyCaches_l1Read (s : State) (core ctx rev va hpa n : Nat) : OnlyCaches s (s.l1Read core ctx rev va hpa n).2 := by
  have miss : ∀ (u : State) (r : Nat), OnlyCaches u ((u.glRead ctx rev (lineOf va) (lineOf hpa) 128 false).2.modCore core fun c =>
      { c with l1 := (⟨r, lineOf hpa, (u.glRead ctx rev (lineOf va) (lineOf hpa) 128 false).1, false⟩ :: c.l1).take (c.l1Bytes / 128) }) :=
    fun u r => onlyCaches_trans (onlyCaches_glRead u _ _ _ _ _ _) (onlyCaches_modCore _ core _ fun _ => rfl)
  unfold State.l1Read
  simp only
  split
  · exact miss s _
  · split
    · exact onlyCaches_flip s
    · exact onlyCaches_trans (onlyCaches_trans (onlyCaches_flip s) (onlyCaches_l1Drop _ _ _)) (miss _ _)

theorem onlyCaches_readVirtual (s : State) (core ctx rev va n : Nat) (k : AccKind) :
    OnlyCaches s (s.readVirtual core ctx rev va n k).2 := by
  have h1 := onlyCaches_xlate s core ctx k (va % 2 ^ 56)
  unfold State.readVirtual
  generalize s.xlate core ctx k (va % 2 ^ 56) = r at h1
  obtain ⟨r, u⟩ := r
  cases r with
  | error c => exact h1
  | ok hpa =>
    simp only
    split
    · exact h1
    · exact onlyCaches_trans h1 (onlyCaches_glRead _ _ _ _ _ _ _)

theorem onlyCaches_vectorEntry (s : State) (core ctx : Nat) (c : Cause) : OnlyCaches s (s.vectorEntry core ctx c).2 := by
  have h1 := onlyCaches_readVirtual s core ctx 0 ((s.ctx ctx).vectors.toNat + 8 * causeCode c) 8 .load
  unfold State.vectorEntry
  generalize s.readVirtual core ctx 0 ((s.ctx ctx).vectors.toNat + 8 * causeCode c) 8 .load = r at h1
  obtain ⟨r, u⟩ := r
  cases r <;> exact h1

theorem onlyCaches_resolve (s : State) (h : Sheaf) (k : AccKind) (space : Space) (a : Dword) (size lane : Nat) :
    OnlyCaches s (s.resolve h k space a size lane).2 := by
  unfold State.resolve
  simp only
  split
  · exact onlyCaches_refl s
  · cases space with
    | ln => simp only; split <;> exact onlyCaches_refl s
    | sp =>
      simp only
      split
      · exact onlyCaches_refl s
      · split
        · exact onlyCaches_refl s
        · split <;> exact onlyCaches_refl s
    | cl =>
      simp only
      split
      · exact onlyCaches_refl s
      · split
        · exact onlyCaches_refl s
        · split <;> exact onlyCaches_refl s
    | bn =>
      simp only
      split
      · exact onlyCaches_refl s
      · split
        · exact onlyCaches_refl s
        · split <;> exact onlyCaches_refl s
    | gl =>
      simp only
      split
      · exact onlyCaches_refl s
      · have h1 := onlyCaches_xlate s h.core h.ctx k a.toNat
        generalize s.xlate h.core h.ctx k a.toNat = r at h1
        obtain ⟨r, u⟩ := r
        cases r with
        | error c => exact h1
        | ok hpa => simp only; split <;> exact h1
    | ac =>
      simp only
      split
      · exact onlyCaches_refl s
      · cases k <;> exact onlyCaches_refl s

theorem onlyCaches_readTarget (s : State) (h : Sheaf) (x : Target) (n : Nat) (m : LoadMode) :
    OnlyCaches s (s.readTarget h x n m).2 := by
  unfold State.readTarget
  split
  · exact onlyCaches_refl s
  · exact onlyCaches_refl s
  · exact onlyCaches_refl s
  · exact onlyCaches_homeRead _ _ _ _
  · split
    · exact onlyCaches_trans (onlyCaches_glRead _ _ _ _ _ _ _) (onlyCaches_l1Drop _ _ _)
    · exact onlyCaches_l1Read _ _ _ _ _ _ _

theorem onlyCaches_readLanes (s : State) (size reg : Nat) (m : LoadMode) (ts : List (Nat × Target)) :
    OnlyCaches s (s.readLanes size reg m ts).2 := by
  induction ts generalizing s with
  | nil => exact onlyCaches_refl s
  | cons x ts ih => exact onlyCaches_trans (onlyCaches_readTarget s _ x.2 size m) (ih _)

/-- The checks of the lanes change nothing but caches, where none meets an uncorrectable error (which is reported, R248/11). -/
theorem onlyCaches_checkLanes (s : State) (k : AccKind) (space : Space) (size : Nat) (addr : Nat → Dword) (ls : List Nat)
    (hu : ∀ f ∈ (s.checkLanes k space size addr ls).1.bad, f.cause ≠ .uncorr) : OnlyCaches s (s.checkLanes k space size addr ls).2 := by
  induction ls generalizing s with
  | nil => exact onlyCaches_refl s
  | cons l ls ih =>
    have h1 := onlyCaches_resolve s s.me k space (addr l) size l
    unfold State.checkLanes at hu ⊢
    simp only at hu ⊢
    generalize s.resolve s.me k space (addr l) size l = r at h1 hu
    obtain ⟨r, u⟩ := r
    cases r with
    | error c =>
      simp only at hu ⊢
      have hc : c ≠ .uncorr := hu ⟨l, c, addr l⟩ (List.mem_cons_self ..)
      simp only [hc, if_false] at hu ⊢
      exact onlyCaches_trans h1 (ih u fun f hf => hu f (List.mem_cons_of_mem _ hf))
    | ok x => exact onlyCaches_trans h1 (ih u hu)

/-- What only caches change keeps the issue and its sheaf. -/
theorem onlyCaches_sheaf (h : OnlyCaches s t) (n : Nat) : t.sheaf? n = s.sheaf? n := by
  have := congrArg State.sheaves h.1
  have e : t.sheaves = s.sheaves := this
  unfold State.sheaf?
  rw [e]

theorem onlyCaches_issuing (h : OnlyCaches s t) {i : Issue} {g : Sheaf} (hi : s.Issuing i g) : t.Issuing i g :=
  ⟨((congrArg State.cur h.1 :) : t.cur = s.cur).trans hi.1, (onlyCaches_sheaf h _).trans hi.2⟩

end Sys2Proof.Machine
end

