-- ==== Sys2Proof/Laws/Control.lean ====
section
/-! SUPPORT. Branches, lane changes and traps: what each shared operation does, once. -/

namespace Sys2Proof.Machine

variable {s t u : State} {i : Issue} {h g : Sheaf}

/-- Changing the active lanes of the issuing sheaf, each by a rule; their WATCH skips end. -/
theorem lanesGo_spec (hi : s.Issuing i h) (f : Nat → Lane → Lane) :
    ∃ h', (s.modMe fun a => { (lanesOf i.lanes).foldl (fun h l => h.modLane l (f l)) a with
        watchSkip := a.skipsLeft i.lanes i.pc }).sheaf? i.sheaf = some h' ∧
      SameBut i.sheaf s (s.modMe fun a => { (lanesOf i.lanes).foldl (fun h l => h.modLane l (f l)) a with
        watchSkip := a.skipsLeft i.lanes i.pc }) ∧
      OnlyLanes h h' ∧ LanesGo i f h h' := by
  have hf : ∀ a : Sheaf, ({ (lanesOf i.lanes).foldl (fun h l => h.modLane l (f l)) a with
      watchSkip := a.skipsLeft i.lanes i.pc } : Sheaf).id = a.id :=
    fun a => (congrArg Sheaf.id (foldl_modLane_frame f (lanesOf i.lanes) a a.lanes) :)
  refine ⟨_, (issuing_modMe hi _ hf).2, sameBut_modMe hi _ hf, ?_, ?_, ?_⟩
  · have e := foldl_modLane_frame f (lanesOf i.lanes) h h.lanes
    exact (congrArg (fun a : Sheaf => ({ a with watchSkip := h.watchSkip } : Sheaf)) e :)
  · exact length_foldl_modLane f (lanesOf i.lanes) h
  · intro l hl
    refine (lane_foldl f (lanesOf i.lanes) (nodup_lanesOf _) h l hl).trans ?_
    by_cases a : i.lanes.getLsbD l = true <;> by_cases b : l < 64 <;> simp only [mem_lanesOf, a, b, decide_true, decide_false,
      Bool.and_true, Bool.and_false, and_self, and_false, false_and, if_true, if_false, Bool.false_eq_true]

/-- A branch to a target inside the address space (R276/13). -/
theorem branch_spec (hi : s.Issuing i h) (o : BitVec 18) (taken : Nat → Bool) (hin : inSpace (branchTarget i.pc o) = true) :
    ∃ h', (s.branch o taken).sheaf? i.sheaf = some h' ∧ SameBut i.sheaf s (s.branch o taken) ∧ OnlyLanes h h' ∧
      LanesGo i (fun l ln => if taken l then ln.jump i.pc (BitVec.ofInt 56 (branchTarget i.pc o)) i.solo else ln.pass i.pc i.solo) h h' := by
  have e : s.branch o taken = s.modMe fun h =>
      { (lanesOf i.lanes).foldl (fun h l => h.modLane l fun ln =>
          if taken l then ln.jump i.pc (BitVec.ofInt 56 (branchTarget i.pc o)) i.solo else ln.pass i.pc i.solo) h with
        watchSkip := h.skipsLeft i.lanes i.pc } := by
    unfold State.branch
    simp only [issuePc_of hi, active_of hi, solo_of hi, hin, if_true]
  rw [e]
  exact lanesGo_spec hi fun l ln => if taken l then ln.jump i.pc (BitVec.ofInt 56 (branchTarget i.pc o)) i.solo else ln.pass i.pc i.solo

/-! ### Traps (R229, R230/11) -/

@[simp] theorem enterTrap_id (h : Sheaf) (v : Vaddr) (r : TrapRegs) (a : Option Replay) : (h.enterTrap v r a).id = h.id := by
  unfold Sheaf.enterTrap; split <;> rfl

theorem enterTrap_frame (h : Sheaf) (v : Vaddr) (r : TrapRegs) (a : Option Replay) :
    (h.enterTrap v r a).trap = r ∧ (h.enterTrap v r a).tl = h.tl + 1 ∧ (h.enterTrap v r a).replay = a ∧
    (h.enterTrap v r a).s = h.s ∧ (h.enterTrap v r a).v = h.v ∧ (h.enterTrap v r a).p = h.p ∧ (h.enterTrap v r a).wb = h.wb ∧
    (h.enterTrap v r a).ctrl = h.ctrl ∧ (h.enterTrap v r a).flags = h.flags ∧ (h.enterTrap v r a).exited = h.exited ∧
    (h.enterTrap v r a).slice = h.slice ∧ (h.enterTrap v r a).lanes.length = h.lanes.length := by
  unfold Sheaf.enterTrap
  split <;> simp

/-- A trap that has a handler and a free level enters it (R229 to R231/11, R166/07). -/
theorem takeTrap_enters {k : Nat} (hs : s.sheaf? k = some h) (c : Cause) (info : Nat) (addr : Dword) (lanes : Mask) (pc : Vaddr)
    (again : Option Replay) (hl : (s.launchOf h).closed = false) (htl : h.tl < 2) (hv : (s.vectorEntry h.core h.ctx c).1 ≠ 0) :
    s.takeTrap k c info addr lanes pc again =
      (s.vectorEntry h.core h.ctx c).2.modSheaf k fun g => g.enterTrap (BitVec.ofNat 56 (s.vectorEntry h.core h.ctx c).1)
        ⟨tcauseOf c info, (addr.setWidth 56).setWidth 64, lanes, pc.setWidth 64⟩ again := by
  have h2 : ¬ 2 ≤ h.tl := by omega
  unfold State.takeTrap
  simp only [hs, hl, Bool.false_eq_true, if_false, h2, hv]

end Sys2Proof.Machine
end

