-- ==== Sys2Proof/Laws/Decode.lean ====
section
/-! SUPPORT. The decoder on the five fields of a word that was packed from them. -/

namespace Sys2Proof

/-- A word packed from legal fields is decoded by those fields (R251/12). -/
theorem decode_pack (m d a b f : Nat) (hm : m < 127) (hd : d < 128) (ha : a < 128) (hb : b < 128) (hf : f < 16)
    (h0 : ¬ (m = 0 ∧ d = 0 ∧ a = 0 ∧ b = 0 ∧ f = 0)) : decode (packFields (m, d, a, b, f)) = decodeChecked m d a b f := by
  have e : (packFields (m, d, a, b, f)).toNat = m * 33554432 + d * 262144 + a * 2048 + b * 16 + f := by
    simp [packFields]; omega
  rw [decode, e, decodeNat, if_neg (by omega)]
  congr 1 <;> omega

/-- Fields that decode to a well-formed instruction pass the check (R254/12). -/
theorem decodeChecked_of_fields {m d a b f : Nat} {i : Instr} (hw : i.wellFormed = true) (h : decodeFields m d a b f = .ok i) :
    decodeChecked m d a b f = .ok i := by
  simp [decodeChecked, h, hw]

end Sys2Proof
end

