-- ==== Sys2Proof/Laws/State.lean ====
section
/-! SUPPORT. What a change of one part of the state leaves in every other field: one lemma for each field of each update. -/

namespace Sys2Proof.Machine

/-! ### modCore -/

@[simp] theorem State.modCore_cycle (s : State) (c : Nat) (f : Core → Core) : (s.modCore c f).cycle = s.cycle := rfl
@[simp] theorem State.modCore_time (s : State) (c : Nat) (f : Core → Core) : (s.modCore c f).time = s.time := rfl
@[simp] theorem State.modCore_msSeen (s : State) (c : Nat) (f : Core → Core) : (s.modCore c f).msSeen = s.msSeen := rfl
@[simp] theorem State.modCore_errsNow (s : State) (c : Nat) (f : Core → Core) : (s.modCore c f).errsNow = s.errsNow := rfl
@[simp] theorem State.modCore_answers (s : State) (c : Nat) (f : Core → Core) : (s.modCore c f).answers = s.answers := rfl
@[simp] theorem State.modCore_ticket (s : State) (c : Nat) (f : Core → Core) : (s.modCore c f).ticket = s.ticket := rfl
@[simp] theorem State.modCore_seqQ (s : State) (c : Nat) (f : Core → Core) : (s.modCore c f).seqQ = s.seqQ := rfl
@[simp] theorem State.modCore_device (s : State) (c : Nat) (f : Core → Core) : (s.modCore c f).device = s.device := rfl
@[simp] theorem State.modCore_fwstep (s : State) (c : Nat) (f : Core → Core) : (s.modCore c f).fwstep = s.fwstep := rfl
@[simp] theorem State.modCore_trip (s : State) (c : Nat) (f : Core → Core) : (s.modCore c f).trip = s.trip := rfl
@[simp] theorem State.modCore_cap (s : State) (c : Nat) (f : Core → Core) : (s.modCore c f).cap = s.cap := rfl
@[simp] theorem State.modCore_fwerr (s : State) (c : Nat) (f : Core → Core) : (s.modCore c f).fwerr = s.fwerr := rfl
@[simp] theorem State.modCore_ready (s : State) (c : Nat) (f : Core → Core) : (s.modCore c f).ready = s.ready := rfl
@[simp] theorem State.modCore_subReg (s : State) (c : Nat) (f : Core → Core) : (s.modCore c f).subReg = s.subReg := rfl
@[simp] theorem State.modCore_hostErrBase (s : State) (c : Nat) (f : Core → Core) : (s.modCore c f).hostErrBase = s.hostErrBase := rfl
@[simp] theorem State.modCore_hostErrHead (s : State) (c : Nat) (f : Core → Core) : (s.modCore c f).hostErrHead = s.hostErrHead := rfl
@[simp] theorem State.modCore_hostErrWrite (s : State) (c : Nat) (f : Core → Core) : (s.modCore c f).hostErrWrite = s.hostErrWrite := rfl
@[simp] theorem State.modCore_hostErrLost (s : State) (c : Nat) (f : Core → Core) : (s.modCore c f).hostErrLost = s.hostErrLost := rfl
@[simp] theorem State.modCore_msix (s : State) (c : Nat) (f : Core → Core) : (s.modCore c f).msix = s.msix := rfl
@[simp] theorem State.modCore_ctxVector (s : State) (c : Nat) (f : Core → Core) : (s.modCore c f).ctxVector = s.ctxVector := rfl
@[simp] theorem State.modCore_wordVector (s : State) (c : Nat) (f : Core → Core) : (s.modCore c f).wordVector = s.wordVector := rfl
@[simp] theorem State.modCore_sysCtx (s : State) (c : Nat) (f : Core → Core) : (s.modCore c f).sysCtx = s.sysCtx := rfl
@[simp] theorem State.modCore_queues (s : State) (c : Nat) (f : Core → Core) : (s.modCore c f).queues = s.queues := rfl
@[simp] theorem State.modCore_decoders (s : State) (c : Nat) (f : Core → Core) : (s.modCore c f).decoders = s.decoders := rfl
@[simp] theorem State.modCore_poison (s : State) (c : Nat) (f : Core → Core) : (s.modCore c f).poison = s.poison := rfl
@[simp] theorem State.modCore_fenced (s : State) (c : Nat) (f : Core → Core) : (s.modCore c f).fenced = s.fenced := rfl
@[simp] theorem State.modCore_linksUp (s : State) (c : Nat) (f : Core → Core) : (s.modCore c f).linksUp = s.linksUp := rfl
@[simp] theorem State.modCore_peersDown (s : State) (c : Nat) (f : Core → Core) : (s.modCore c f).peersDown = s.peersDown := rfl
@[simp] theorem State.modCore_clockMHz (s : State) (c : Nat) (f : Core → Core) : (s.modCore c f).clockMHz = s.clockMHz := rfl
@[simp] theorem State.modCore_clockSet (s : State) (c : Nat) (f : Core → Core) : (s.modCore c f).clockSet = s.clockSet := rfl
@[simp] theorem State.modCore_capW (s : State) (c : Nat) (f : Core → Core) : (s.modCore c f).capW = s.capW := rfl
@[simp] theorem State.modCore_rollback (s : State) (c : Nat) (f : Core → Core) : (s.modCore c f).rollback = s.rollback := rfl
@[simp] theorem State.modCore_peerFaults (s : State) (c : Nat) (f : Core → Core) : (s.modCore c f).peerFaults = s.peerFaults := rfl
@[simp] theorem State.modCore_removed (s : State) (c : Nat) (f : Core → Core) : (s.modCore c f).removed = s.removed := rfl
@[simp] theorem State.modCore_retired (s : State) (c : Nat) (f : Core → Core) : (s.modCore c f).retired = s.retired := rfl
@[simp] theorem State.modCore_acks (s : State) (c : Nat) (f : Core → Core) : (s.modCore c f).acks = s.acks := rfl
@[simp] theorem State.modCore_keyHash (s : State) (c : Nat) (f : Core → Core) : (s.modCore c f).keyHash = s.keyHash := rfl
@[simp] theorem State.modCore_idSecret (s : State) (c : Nat) (f : Core → Core) : (s.modCore c f).idSecret = s.idSecret := rfl
@[simp] theorem State.modCore_certificate (s : State) (c : Nat) (f : Core → Core) : (s.modCore c f).certificate = s.certificate := rfl
@[simp] theorem State.modCore_calibration (s : State) (c : Nat) (f : Core → Core) : (s.modCore c f).calibration = s.calibration := rfl
@[simp] theorem State.modCore_hostCounters (s : State) (c : Nat) (f : Core → Core) : (s.modCore c f).hostCounters = s.hostCounters := rfl
@[simp] theorem State.modCore_bundle (s : State) (c : Nat) (f : Core → Core) : (s.modCore c f).bundle = s.bundle := rfl
@[simp] theorem State.modCore_started (s : State) (c : Nat) (f : Core → Core) : (s.modCore c f).started = s.started := rfl
@[simp] theorem State.modCore_linkKeys (s : State) (c : Nat) (f : Core → Core) : (s.modCore c f).linkKeys = s.linkKeys := rfl
@[simp] theorem State.modCore_loans (s : State) (c : Nat) (f : Core → Core) : (s.modCore c f).loans = s.loans := rfl
@[simp] theorem State.modCore_spdm (s : State) (c : Nat) (f : Core → Core) : (s.modCore c f).spdm = s.spdm := rfl
@[simp] theorem State.modCore_mailboxes (s : State) (c : Nat) (f : Core → Core) : (s.modCore c f).mailboxes = s.mailboxes := rfl
@[simp] theorem State.modCore_exDeadline (s : State) (c : Nat) (f : Core → Core) : (s.modCore c f).exDeadline = s.exDeadline := rfl
@[simp] theorem State.modCore_saveDeadline (s : State) (c : Nat) (f : Core → Core) : (s.modCore c f).saveDeadline = s.saveDeadline := rfl
@[simp] theorem State.modCore_exHeaders (s : State) (c : Nat) (f : Core → Core) : (s.modCore c f).exHeaders = s.exHeaders := rfl
@[simp] theorem State.modCore_exRefused (s : State) (c : Nat) (f : Core → Core) : (s.modCore c f).exRefused = s.exRefused := rfl
@[simp] theorem State.modCore_exSent (s : State) (c : Nat) (f : Core → Core) : (s.modCore c f).exSent = s.exSent := rfl
@[simp] theorem State.modCore_mem (s : State) (c : Nat) (f : Core → Core) : (s.modCore c f).mem = s.mem := rfl
@[simp] theorem State.modCore_l2peer (s : State) (c : Nat) (f : Core → Core) : (s.modCore c f).l2peer = s.l2peer := rfl
@[simp] theorem State.modCore_rsts (s : State) (c : Nat) (f : Core → Core) : (s.modCore c f).rsts = s.rsts := rfl
@[simp] theorem State.modCore_ramps (s : State) (c : Nat) (f : Core → Core) : (s.modCore c f).ramps = s.ramps := rfl
@[simp] theorem State.modCore_fields (s : State) (c : Nat) (f : Core → Core) : (s.modCore c f).fields = s.fields := rfl
@[simp] theorem State.modCore_ctxs (s : State) (c : Nat) (f : Core → Core) : (s.modCore c f).ctxs = s.ctxs := rfl
@[simp] theorem State.modCore_launches (s : State) (c : Nat) (f : Core → Core) : (s.modCore c f).launches = s.launches := rfl
@[simp] theorem State.modCore_teams (s : State) (c : Nat) (f : Core → Core) : (s.modCore c f).teams = s.teams := rfl
@[simp] theorem State.modCore_sheaves (s : State) (c : Nat) (f : Core → Core) : (s.modCore c f).sheaves = s.sheaves := rfl
@[simp] theorem State.modCore_jobs (s : State) (c : Nat) (f : Core → Core) : (s.modCore c f).jobs = s.jobs := rfl
@[simp] theorem State.modCore_inputs (s : State) (c : Nat) (f : Core → Core) : (s.modCore c f).inputs = s.inputs := rfl
@[simp] theorem State.modCore_agenda (s : State) (c : Nat) (f : Core → Core) : (s.modCore c f).agenda = s.agenda := rfl
@[simp] theorem State.modCore_choices (s : State) (c : Nat) (f : Core → Core) : (s.modCore c f).choices = s.choices := rfl
@[simp] theorem State.modCore_cur (s : State) (c : Nat) (f : Core → Core) : (s.modCore c f).cur = s.cur := rfl
@[simp] theorem State.modCore_nextId (s : State) (c : Nat) (f : Core → Core) : (s.modCore c f).nextId = s.nextId := rfl

/-! ### modField -/

@[simp] theorem State.modField_cycle (s : State) (n : Nat) (f : FieldState → FieldState) : (s.modField n f).cycle = s.cycle := rfl
@[simp] theorem State.modField_time (s : State) (n : Nat) (f : FieldState → FieldState) : (s.modField n f).time = s.time := rfl
@[simp] theorem State.modField_msSeen (s : State) (n : Nat) (f : FieldState → FieldState) : (s.modField n f).msSeen = s.msSeen := rfl
@[simp] theorem State.modField_errsNow (s : State) (n : Nat) (f : FieldState → FieldState) : (s.modField n f).errsNow = s.errsNow := rfl
@[simp] theorem State.modField_answers (s : State) (n : Nat) (f : FieldState → FieldState) : (s.modField n f).answers = s.answers := rfl
@[simp] theorem State.modField_ticket (s : State) (n : Nat) (f : FieldState → FieldState) : (s.modField n f).ticket = s.ticket := rfl
@[simp] theorem State.modField_seqQ (s : State) (n : Nat) (f : FieldState → FieldState) : (s.modField n f).seqQ = s.seqQ := rfl
@[simp] theorem State.modField_device (s : State) (n : Nat) (f : FieldState → FieldState) : (s.modField n f).device = s.device := rfl
@[simp] theorem State.modField_fwstep (s : State) (n : Nat) (f : FieldState → FieldState) : (s.modField n f).fwstep = s.fwstep := rfl
@[simp] theorem State.modField_trip (s : State) (n : Nat) (f : FieldState → FieldState) : (s.modField n f).trip = s.trip := rfl
@[simp] theorem State.modField_cap (s : State) (n : Nat) (f : FieldState → FieldState) : (s.modField n f).cap = s.cap := rfl
@[simp] theorem State.modField_fwerr (s : State) (n : Nat) (f : FieldState → FieldState) : (s.modField n f).fwerr = s.fwerr := rfl
@[simp] theorem State.modField_ready (s : State) (n : Nat) (f : FieldState → FieldState) : (s.modField n f).ready = s.ready := rfl
@[simp] theorem State.modField_subReg (s : State) (n : Nat) (f : FieldState → FieldState) : (s.modField n f).subReg = s.subReg := rfl
@[simp] theorem State.modField_hostErrBase (s : State) (n : Nat) (f : FieldState → FieldState) : (s.modField n f).hostErrBase = s.hostErrBase := rfl
@[simp] theorem State.modField_hostErrHead (s : State) (n : Nat) (f : FieldState → FieldState) : (s.modField n f).hostErrHead = s.hostErrHead := rfl
@[simp] theorem State.modField_hostErrWrite (s : State) (n : Nat) (f : FieldState → FieldState) : (s.modField n f).hostErrWrite = s.hostErrWrite := rfl
@[simp] theorem State.modField_hostErrLost (s : State) (n : Nat) (f : FieldState → FieldState) : (s.modField n f).hostErrLost = s.hostErrLost := rfl
@[simp] theorem State.modField_msix (s : State) (n : Nat) (f : FieldState → FieldState) : (s.modField n f).msix = s.msix := rfl
@[simp] theorem State.modField_ctxVector (s : State) (n : Nat) (f : FieldState → FieldState) : (s.modField n f).ctxVector = s.ctxVector := rfl
@[simp] theorem State.modField_wordVector (s : State) (n : Nat) (f : FieldState → FieldState) : (s.modField n f).wordVector = s.wordVector := rfl
@[simp] theorem State.modField_sysCtx (s : State) (n : Nat) (f : FieldState → FieldState) : (s.modField n f).sysCtx = s.sysCtx := rfl
@[simp] theorem State.modField_queues (s : State) (n : Nat) (f : FieldState → FieldState) : (s.modField n f).queues = s.queues := rfl
@[simp] theorem State.modField_decoders (s : State) (n : Nat) (f : FieldState → FieldState) : (s.modField n f).decoders = s.decoders := rfl
@[simp] theorem State.modField_poison (s : State) (n : Nat) (f : FieldState → FieldState) : (s.modField n f).poison = s.poison := rfl
@[simp] theorem State.modField_fenced (s : State) (n : Nat) (f : FieldState → FieldState) : (s.modField n f).fenced = s.fenced := rfl
@[simp] theorem State.modField_linksUp (s : State) (n : Nat) (f : FieldState → FieldState) : (s.modField n f).linksUp = s.linksUp := rfl
@[simp] theorem State.modField_peersDown (s : State) (n : Nat) (f : FieldState → FieldState) : (s.modField n f).peersDown = s.peersDown := rfl
@[simp] theorem State.modField_clockMHz (s : State) (n : Nat) (f : FieldState → FieldState) : (s.modField n f).clockMHz = s.clockMHz := rfl
@[simp] theorem State.modField_clockSet (s : State) (n : Nat) (f : FieldState → FieldState) : (s.modField n f).clockSet = s.clockSet := rfl
@[simp] theorem State.modField_capW (s : State) (n : Nat) (f : FieldState → FieldState) : (s.modField n f).capW = s.capW := rfl
@[simp] theorem State.modField_rollback (s : State) (n : Nat) (f : FieldState → FieldState) : (s.modField n f).rollback = s.rollback := rfl
@[simp] theorem State.modField_peerFaults (s : State) (n : Nat) (f : FieldState → FieldState) : (s.modField n f).peerFaults = s.peerFaults := rfl
@[simp] theorem State.modField_removed (s : State) (n : Nat) (f : FieldState → FieldState) : (s.modField n f).removed = s.removed := rfl
@[simp] theorem State.modField_retired (s : State) (n : Nat) (f : FieldState → FieldState) : (s.modField n f).retired = s.retired := rfl
@[simp] theorem State.modField_acks (s : State) (n : Nat) (f : FieldState → FieldState) : (s.modField n f).acks = s.acks := rfl
@[simp] theorem State.modField_keyHash (s : State) (n : Nat) (f : FieldState → FieldState) : (s.modField n f).keyHash = s.keyHash := rfl
@[simp] theorem State.modField_idSecret (s : State) (n : Nat) (f : FieldState → FieldState) : (s.modField n f).idSecret = s.idSecret := rfl
@[simp] theorem State.modField_certificate (s : State) (n : Nat) (f : FieldState → FieldState) : (s.modField n f).certificate = s.certificate := rfl
@[simp] theorem State.modField_calibration (s : State) (n : Nat) (f : FieldState → FieldState) : (s.modField n f).calibration = s.calibration := rfl
@[simp] theorem State.modField_hostCounters (s : State) (n : Nat) (f : FieldState → FieldState) : (s.modField n f).hostCounters = s.hostCounters := rfl
@[simp] theorem State.modField_bundle (s : State) (n : Nat) (f : FieldState → FieldState) : (s.modField n f).bundle = s.bundle := rfl
@[simp] theorem State.modField_started (s : State) (n : Nat) (f : FieldState → FieldState) : (s.modField n f).started = s.started := rfl
@[simp] theorem State.modField_linkKeys (s : State) (n : Nat) (f : FieldState → FieldState) : (s.modField n f).linkKeys = s.linkKeys := rfl
@[simp] theorem State.modField_loans (s : State) (n : Nat) (f : FieldState → FieldState) : (s.modField n f).loans = s.loans := rfl
@[simp] theorem State.modField_spdm (s : State) (n : Nat) (f : FieldState → FieldState) : (s.modField n f).spdm = s.spdm := rfl
@[simp] theorem State.modField_mailboxes (s : State) (n : Nat) (f : FieldState → FieldState) : (s.modField n f).mailboxes = s.mailboxes := rfl
@[simp] theorem State.modField_exDeadline (s : State) (n : Nat) (f : FieldState → FieldState) : (s.modField n f).exDeadline = s.exDeadline := rfl
@[simp] theorem State.modField_saveDeadline (s : State) (n : Nat) (f : FieldState → FieldState) : (s.modField n f).saveDeadline = s.saveDeadline := rfl
@[simp] theorem State.modField_exHeaders (s : State) (n : Nat) (f : FieldState → FieldState) : (s.modField n f).exHeaders = s.exHeaders := rfl
@[simp] theorem State.modField_exRefused (s : State) (n : Nat) (f : FieldState → FieldState) : (s.modField n f).exRefused = s.exRefused := rfl
@[simp] theorem State.modField_exSent (s : State) (n : Nat) (f : FieldState → FieldState) : (s.modField n f).exSent = s.exSent := rfl
@[simp] theorem State.modField_mem (s : State) (n : Nat) (f : FieldState → FieldState) : (s.modField n f).mem = s.mem := rfl
@[simp] theorem State.modField_l2peer (s : State) (n : Nat) (f : FieldState → FieldState) : (s.modField n f).l2peer = s.l2peer := rfl
@[simp] theorem State.modField_rsts (s : State) (n : Nat) (f : FieldState → FieldState) : (s.modField n f).rsts = s.rsts := rfl
@[simp] theorem State.modField_ramps (s : State) (n : Nat) (f : FieldState → FieldState) : (s.modField n f).ramps = s.ramps := rfl
@[simp] theorem State.modField_cores (s : State) (n : Nat) (f : FieldState → FieldState) : (s.modField n f).cores = s.cores := rfl
@[simp] theorem State.modField_ctxs (s : State) (n : Nat) (f : FieldState → FieldState) : (s.modField n f).ctxs = s.ctxs := rfl
@[simp] theorem State.modField_launches (s : State) (n : Nat) (f : FieldState → FieldState) : (s.modField n f).launches = s.launches := rfl
@[simp] theorem State.modField_teams (s : State) (n : Nat) (f : FieldState → FieldState) : (s.modField n f).teams = s.teams := rfl
@[simp] theorem State.modField_sheaves (s : State) (n : Nat) (f : FieldState → FieldState) : (s.modField n f).sheaves = s.sheaves := rfl
@[simp] theorem State.modField_jobs (s : State) (n : Nat) (f : FieldState → FieldState) : (s.modField n f).jobs = s.jobs := rfl
@[simp] theorem State.modField_inputs (s : State) (n : Nat) (f : FieldState → FieldState) : (s.modField n f).inputs = s.inputs := rfl
@[simp] theorem State.modField_agenda (s : State) (n : Nat) (f : FieldState → FieldState) : (s.modField n f).agenda = s.agenda := rfl
@[simp] theorem State.modField_choices (s : State) (n : Nat) (f : FieldState → FieldState) : (s.modField n f).choices = s.choices := rfl
@[simp] theorem State.modField_cur (s : State) (n : Nat) (f : FieldState → FieldState) : (s.modField n f).cur = s.cur := rfl
@[simp] theorem State.modField_nextId (s : State) (n : Nat) (f : FieldState → FieldState) : (s.modField n f).nextId = s.nextId := rfl

/-! ### modCtx -/

@[simp] theorem State.modCtx_cycle (s : State) (n : Nat) (f : Context → Context) : (s.modCtx n f).cycle = s.cycle := rfl
@[simp] theorem State.modCtx_time (s : State) (n : Nat) (f : Context → Context) : (s.modCtx n f).time = s.time := rfl
@[simp] theorem State.modCtx_msSeen (s : State) (n : Nat) (f : Context → Context) : (s.modCtx n f).msSeen = s.msSeen := rfl
@[simp] theorem State.modCtx_errsNow (s : State) (n : Nat) (f : Context → Context) : (s.modCtx n f).errsNow = s.errsNow := rfl
@[simp] theorem State.modCtx_answers (s : State) (n : Nat) (f : Context → Context) : (s.modCtx n f).answers = s.answers := rfl
@[simp] theorem State.modCtx_ticket (s : State) (n : Nat) (f : Context → Context) : (s.modCtx n f).ticket = s.ticket := rfl
@[simp] theorem State.modCtx_seqQ (s : State) (n : Nat) (f : Context → Context) : (s.modCtx n f).seqQ = s.seqQ := rfl
@[simp] theorem State.modCtx_device (s : State) (n : Nat) (f : Context → Context) : (s.modCtx n f).device = s.device := rfl
@[simp] theorem State.modCtx_fwstep (s : State) (n : Nat) (f : Context → Context) : (s.modCtx n f).fwstep = s.fwstep := rfl
@[simp] theorem State.modCtx_trip (s : State) (n : Nat) (f : Context → Context) : (s.modCtx n f).trip = s.trip := rfl
@[simp] theorem State.modCtx_cap (s : State) (n : Nat) (f : Context → Context) : (s.modCtx n f).cap = s.cap := rfl
@[simp] theorem State.modCtx_fwerr (s : State) (n : Nat) (f : Context → Context) : (s.modCtx n f).fwerr = s.fwerr := rfl
@[simp] theorem State.modCtx_ready (s : State) (n : Nat) (f : Context → Context) : (s.modCtx n f).ready = s.ready := rfl
@[simp] theorem State.modCtx_subReg (s : State) (n : Nat) (f : Context → Context) : (s.modCtx n f).subReg = s.subReg := rfl
@[simp] theorem State.modCtx_hostErrBase (s : State) (n : Nat) (f : Context → Context) : (s.modCtx n f).hostErrBase = s.hostErrBase := rfl
@[simp] theorem State.modCtx_hostErrHead (s : State) (n : Nat) (f : Context → Context) : (s.modCtx n f).hostErrHead = s.hostErrHead := rfl
@[simp] theorem State.modCtx_hostErrWrite (s : State) (n : Nat) (f : Context → Context) : (s.modCtx n f).hostErrWrite = s.hostErrWrite := rfl
@[simp] theorem State.modCtx_hostErrLost (s : State) (n : Nat) (f : Context → Context) : (s.modCtx n f).hostErrLost = s.hostErrLost := rfl
@[simp] theorem State.modCtx_msix (s : State) (n : Nat) (f : Context → Context) : (s.modCtx n f).msix = s.msix := rfl
@[simp] theorem State.modCtx_ctxVector (s : State) (n : Nat) (f : Context → Context) : (s.modCtx n f).ctxVector = s.ctxVector := rfl
@[simp] theorem State.modCtx_wordVector (s : State) (n : Nat) (f : Context → Context) : (s.modCtx n f).wordVector = s.wordVector := rfl
@[simp] theorem State.modCtx_sysCtx (s : State) (n : Nat) (f : Context → Context) : (s.modCtx n f).sysCtx = s.sysCtx := rfl
@[simp] theorem State.modCtx_queues (s : State) (n : Nat) (f : Context → Context) : (s.modCtx n f).queues = s.queues := rfl
@[simp] theorem State.modCtx_decoders (s : State) (n : Nat) (f : Context → Context) : (s.modCtx n f).decoders = s.decoders := rfl
@[simp] theorem State.modCtx_poison (s : State) (n : Nat) (f : Context → Context) : (s.modCtx n f).poison = s.poison := rfl
@[simp] theorem State.modCtx_fenced (s : State) (n : Nat) (f : Context → Context) : (s.modCtx n f).fenced = s.fenced := rfl
@[simp] theorem State.modCtx_linksUp (s : State) (n : Nat) (f : Context → Context) : (s.modCtx n f).linksUp = s.linksUp := rfl
@[simp] theorem State.modCtx_peersDown (s : State) (n : Nat) (f : Context → Context) : (s.modCtx n f).peersDown = s.peersDown := rfl
@[simp] theorem State.modCtx_clockMHz (s : State) (n : Nat) (f : Context → Context) : (s.modCtx n f).clockMHz = s.clockMHz := rfl
@[simp] theorem State.modCtx_clockSet (s : State) (n : Nat) (f : Context → Context) : (s.modCtx n f).clockSet = s.clockSet := rfl
@[simp] theorem State.modCtx_capW (s : State) (n : Nat) (f : Context → Context) : (s.modCtx n f).capW = s.capW := rfl
@[simp] theorem State.modCtx_rollback (s : State) (n : Nat) (f : Context → Context) : (s.modCtx n f).rollback = s.rollback := rfl
@[simp] theorem State.modCtx_peerFaults (s : State) (n : Nat) (f : Context → Context) : (s.modCtx n f).peerFaults = s.peerFaults := rfl
@[simp] theorem State.modCtx_removed (s : State) (n : Nat) (f : Context → Context) : (s.modCtx n f).removed = s.removed := rfl
@[simp] theorem State.modCtx_retired (s : State) (n : Nat) (f : Context → Context) : (s.modCtx n f).retired = s.retired := rfl
@[simp] theorem State.modCtx_acks (s : State) (n : Nat) (f : Context → Context) : (s.modCtx n f).acks = s.acks := rfl
@[simp] theorem State.modCtx_keyHash (s : State) (n : Nat) (f : Context → Context) : (s.modCtx n f).keyHash = s.keyHash := rfl
@[simp] theorem State.modCtx_idSecret (s : State) (n : Nat) (f : Context → Context) : (s.modCtx n f).idSecret = s.idSecret := rfl
@[simp] theorem State.modCtx_certificate (s : State) (n : Nat) (f : Context → Context) : (s.modCtx n f).certificate = s.certificate := rfl
@[simp] theorem State.modCtx_calibration (s : State) (n : Nat) (f : Context → Context) : (s.modCtx n f).calibration = s.calibration := rfl
@[simp] theorem State.modCtx_hostCounters (s : State) (n : Nat) (f : Context → Context) : (s.modCtx n f).hostCounters = s.hostCounters := rfl
@[simp] theorem State.modCtx_bundle (s : State) (n : Nat) (f : Context → Context) : (s.modCtx n f).bundle = s.bundle := rfl
@[simp] theorem State.modCtx_started (s : State) (n : Nat) (f : Context → Context) : (s.modCtx n f).started = s.started := rfl
@[simp] theorem State.modCtx_linkKeys (s : State) (n : Nat) (f : Context → Context) : (s.modCtx n f).linkKeys = s.linkKeys := rfl
@[simp] theorem State.modCtx_loans (s : State) (n : Nat) (f : Context → Context) : (s.modCtx n f).loans = s.loans := rfl
@[simp] theorem State.modCtx_spdm (s : State) (n : Nat) (f : Context → Context) : (s.modCtx n f).spdm = s.spdm := rfl
@[simp] theorem State.modCtx_mailboxes (s : State) (n : Nat) (f : Context → Context) : (s.modCtx n f).mailboxes = s.mailboxes := rfl
@[simp] theorem State.modCtx_exDeadline (s : State) (n : Nat) (f : Context → Context) : (s.modCtx n f).exDeadline = s.exDeadline := rfl
@[simp] theorem State.modCtx_saveDeadline (s : State) (n : Nat) (f : Context → Context) : (s.modCtx n f).saveDeadline = s.saveDeadline := rfl
@[simp] theorem State.modCtx_exHeaders (s : State) (n : Nat) (f : Context → Context) : (s.modCtx n f).exHeaders = s.exHeaders := rfl
@[simp] theorem State.modCtx_exRefused (s : State) (n : Nat) (f : Context → Context) : (s.modCtx n f).exRefused = s.exRefused := rfl
@[simp] theorem State.modCtx_exSent (s : State) (n : Nat) (f : Context → Context) : (s.modCtx n f).exSent = s.exSent := rfl
@[simp] theorem State.modCtx_mem (s : State) (n : Nat) (f : Context → Context) : (s.modCtx n f).mem = s.mem := rfl
@[simp] theorem State.modCtx_l2peer (s : State) (n : Nat) (f : Context → Context) : (s.modCtx n f).l2peer = s.l2peer := rfl
@[simp] theorem State.modCtx_rsts (s : State) (n : Nat) (f : Context → Context) : (s.modCtx n f).rsts = s.rsts := rfl
@[simp] theorem State.modCtx_ramps (s : State) (n : Nat) (f : Context → Context) : (s.modCtx n f).ramps = s.ramps := rfl
@[simp] theorem State.modCtx_fields (s : State) (n : Nat) (f : Context → Context) : (s.modCtx n f).fields = s.fields := rfl
@[simp] theorem State.modCtx_cores (s : State) (n : Nat) (f : Context → Context) : (s.modCtx n f).cores = s.cores := rfl
@[simp] theorem State.modCtx_launches (s : State) (n : Nat) (f : Context → Context) : (s.modCtx n f).launches = s.launches := rfl
@[simp] theorem State.modCtx_teams (s : State) (n : Nat) (f : Context → Context) : (s.modCtx n f).teams = s.teams := rfl
@[simp] theorem State.modCtx_sheaves (s : State) (n : Nat) (f : Context → Context) : (s.modCtx n f).sheaves = s.sheaves := rfl
@[simp] theorem State.modCtx_jobs (s : State) (n : Nat) (f : Context → Context) : (s.modCtx n f).jobs = s.jobs := rfl
@[simp] theorem State.modCtx_inputs (s : State) (n : Nat) (f : Context → Context) : (s.modCtx n f).inputs = s.inputs := rfl
@[simp] theorem State.modCtx_agenda (s : State) (n : Nat) (f : Context → Context) : (s.modCtx n f).agenda = s.agenda := rfl
@[simp] theorem State.modCtx_choices (s : State) (n : Nat) (f : Context → Context) : (s.modCtx n f).choices = s.choices := rfl
@[simp] theorem State.modCtx_cur (s : State) (n : Nat) (f : Context → Context) : (s.modCtx n f).cur = s.cur := rfl
@[simp] theorem State.modCtx_nextId (s : State) (n : Nat) (f : Context → Context) : (s.modCtx n f).nextId = s.nextId := rfl

/-! ### modQueue -/

@[simp] theorem State.modQueue_cycle (s : State) (n : Nat) (f : Queue → Queue) : (s.modQueue n f).cycle = s.cycle := rfl
@[simp] theorem State.modQueue_time (s : State) (n : Nat) (f : Queue → Queue) : (s.modQueue n f).time = s.time := rfl
@[simp] theorem State.modQueue_msSeen (s : State) (n : Nat) (f : Queue → Queue) : (s.modQueue n f).msSeen = s.msSeen := rfl
@[simp] theorem State.modQueue_errsNow (s : State) (n : Nat) (f : Queue → Queue) : (s.modQueue n f).errsNow = s.errsNow := rfl
@[simp] theorem State.modQueue_answers (s : State) (n : Nat) (f : Queue → Queue) : (s.modQueue n f).answers = s.answers := rfl
@[simp] theorem State.modQueue_ticket (s : State) (n : Nat) (f : Queue → Queue) : (s.modQueue n f).ticket = s.ticket := rfl
@[simp] theorem State.modQueue_seqQ (s : State) (n : Nat) (f : Queue → Queue) : (s.modQueue n f).seqQ = s.seqQ := rfl
@[simp] theorem State.modQueue_device (s : State) (n : Nat) (f : Queue → Queue) : (s.modQueue n f).device = s.device := rfl
@[simp] theorem State.modQueue_fwstep (s : State) (n : Nat) (f : Queue → Queue) : (s.modQueue n f).fwstep = s.fwstep := rfl
@[simp] theorem State.modQueue_trip (s : State) (n : Nat) (f : Queue → Queue) : (s.modQueue n f).trip = s.trip := rfl
@[simp] theorem State.modQueue_cap (s : State) (n : Nat) (f : Queue → Queue) : (s.modQueue n f).cap = s.cap := rfl
@[simp] theorem State.modQueue_fwerr (s : State) (n : Nat) (f : Queue → Queue) : (s.modQueue n f).fwerr = s.fwerr := rfl
@[simp] theorem State.modQueue_ready (s : State) (n : Nat) (f : Queue → Queue) : (s.modQueue n f).ready = s.ready := rfl
@[simp] theorem State.modQueue_subReg (s : State) (n : Nat) (f : Queue → Queue) : (s.modQueue n f).subReg = s.subReg := rfl
@[simp] theorem State.modQueue_hostErrBase (s : State) (n : Nat) (f : Queue → Queue) : (s.modQueue n f).hostErrBase = s.hostErrBase := rfl
@[simp] theorem State.modQueue_hostErrHead (s : State) (n : Nat) (f : Queue → Queue) : (s.modQueue n f).hostErrHead = s.hostErrHead := rfl
@[simp] theorem State.modQueue_hostErrWrite (s : State) (n : Nat) (f : Queue → Queue) : (s.modQueue n f).hostErrWrite = s.hostErrWrite := rfl
@[simp] theorem State.modQueue_hostErrLost (s : State) (n : Nat) (f : Queue → Queue) : (s.modQueue n f).hostErrLost = s.hostErrLost := rfl
@[simp] theorem State.modQueue_msix (s : State) (n : Nat) (f : Queue → Queue) : (s.modQueue n f).msix = s.msix := rfl
@[simp] theorem State.modQueue_ctxVector (s : State) (n : Nat) (f : Queue → Queue) : (s.modQueue n f).ctxVector = s.ctxVector := rfl
@[simp] theorem State.modQueue_wordVector (s : State) (n : Nat) (f : Queue → Queue) : (s.modQueue n f).wordVector = s.wordVector := rfl
@[simp] theorem State.modQueue_sysCtx (s : State) (n : Nat) (f : Queue → Queue) : (s.modQueue n f).sysCtx = s.sysCtx := rfl
@[simp] theorem State.modQueue_decoders (s : State) (n : Nat) (f : Queue → Queue) : (s.modQueue n f).decoders = s.decoders := rfl
@[simp] theorem State.modQueue_poison (s : State) (n : Nat) (f : Queue → Queue) : (s.modQueue n f).poison = s.poison := rfl
@[simp] theorem State.modQueue_fenced (s : State) (n : Nat) (f : Queue → Queue) : (s.modQueue n f).fenced = s.fenced := rfl
@[simp] theorem State.modQueue_linksUp (s : State) (n : Nat) (f : Queue → Queue) : (s.modQueue n f).linksUp = s.linksUp := rfl
@[simp] theorem State.modQueue_peersDown (s : State) (n : Nat) (f : Queue → Queue) : (s.modQueue n f).peersDown = s.peersDown := rfl
@[simp] theorem State.modQueue_clockMHz (s : State) (n : Nat) (f : Queue → Queue) : (s.modQueue n f).clockMHz = s.clockMHz := rfl
@[simp] theorem State.modQueue_clockSet (s : State) (n : Nat) (f : Queue → Queue) : (s.modQueue n f).clockSet = s.clockSet := rfl
@[simp] theorem State.modQueue_capW (s : State) (n : Nat) (f : Queue → Queue) : (s.modQueue n f).capW = s.capW := rfl
@[simp] theorem State.modQueue_rollback (s : State) (n : Nat) (f : Queue → Queue) : (s.modQueue n f).rollback = s.rollback := rfl
@[simp] theorem State.modQueue_peerFaults (s : State) (n : Nat) (f : Queue → Queue) : (s.modQueue n f).peerFaults = s.peerFaults := rfl
@[simp] theorem State.modQueue_removed (s : State) (n : Nat) (f : Queue → Queue) : (s.modQueue n f).removed = s.removed := rfl
@[simp] theorem State.modQueue_retired (s : State) (n : Nat) (f : Queue → Queue) : (s.modQueue n f).retired = s.retired := rfl
@[simp] theorem State.modQueue_acks (s : State) (n : Nat) (f : Queue → Queue) : (s.modQueue n f).acks = s.acks := rfl
@[simp] theorem State.modQueue_keyHash (s : State) (n : Nat) (f : Queue → Queue) : (s.modQueue n f).keyHash = s.keyHash := rfl
@[simp] theorem State.modQueue_idSecret (s : State) (n : Nat) (f : Queue → Queue) : (s.modQueue n f).idSecret = s.idSecret := rfl
@[simp] theorem State.modQueue_certificate (s : State) (n : Nat) (f : Queue → Queue) : (s.modQueue n f).certificate = s.certificate := rfl
@[simp] theorem State.modQueue_calibration (s : State) (n : Nat) (f : Queue → Queue) : (s.modQueue n f).calibration = s.calibration := rfl
@[simp] theorem State.modQueue_hostCounters (s : State) (n : Nat) (f : Queue → Queue) : (s.modQueue n f).hostCounters = s.hostCounters := rfl
@[simp] theorem State.modQueue_bundle (s : State) (n : Nat) (f : Queue → Queue) : (s.modQueue n f).bundle = s.bundle := rfl
@[simp] theorem State.modQueue_started (s : State) (n : Nat) (f : Queue → Queue) : (s.modQueue n f).started = s.started := rfl
@[simp] theorem State.modQueue_linkKeys (s : State) (n : Nat) (f : Queue → Queue) : (s.modQueue n f).linkKeys = s.linkKeys := rfl
@[simp] theorem State.modQueue_loans (s : State) (n : Nat) (f : Queue → Queue) : (s.modQueue n f).loans = s.loans := rfl
@[simp] theorem State.modQueue_spdm (s : State) (n : Nat) (f : Queue → Queue) : (s.modQueue n f).spdm = s.spdm := rfl
@[simp] theorem State.modQueue_mailboxes (s : State) (n : Nat) (f : Queue → Queue) : (s.modQueue n f).mailboxes = s.mailboxes := rfl
@[simp] theorem State.modQueue_exDeadline (s : State) (n : Nat) (f : Queue → Queue) : (s.modQueue n f).exDeadline = s.exDeadline := rfl
@[simp] theorem State.modQueue_saveDeadline (s : State) (n : Nat) (f : Queue → Queue) : (s.modQueue n f).saveDeadline = s.saveDeadline := rfl
@[simp] theorem State.modQueue_exHeaders (s : State) (n : Nat) (f : Queue → Queue) : (s.modQueue n f).exHeaders = s.exHeaders := rfl
@[simp] theorem State.modQueue_exRefused (s : State) (n : Nat) (f : Queue → Queue) : (s.modQueue n f).exRefused = s.exRefused := rfl
@[simp] theorem State.modQueue_exSent (s : State) (n : Nat) (f : Queue → Queue) : (s.modQueue n f).exSent = s.exSent := rfl
@[simp] theorem State.modQueue_mem (s : State) (n : Nat) (f : Queue → Queue) : (s.modQueue n f).mem = s.mem := rfl
@[simp] theorem State.modQueue_l2peer (s : State) (n : Nat) (f : Queue → Queue) : (s.modQueue n f).l2peer = s.l2peer := rfl
@[simp] theorem State.modQueue_rsts (s : State) (n : Nat) (f : Queue → Queue) : (s.modQueue n f).rsts = s.rsts := rfl
@[simp] theorem State.modQueue_ramps (s : State) (n : Nat) (f : Queue → Queue) : (s.modQueue n f).ramps = s.ramps := rfl
@[simp] theorem State.modQueue_fields (s : State) (n : Nat) (f : Queue → Queue) : (s.modQueue n f).fields = s.fields := rfl
@[simp] theorem State.modQueue_cores (s : State) (n : Nat) (f : Queue → Queue) : (s.modQueue n f).cores = s.cores := rfl
@[simp] theorem State.modQueue_ctxs (s : State) (n : Nat) (f : Queue → Queue) : (s.modQueue n f).ctxs = s.ctxs := rfl
@[simp] theorem State.modQueue_launches (s : State) (n : Nat) (f : Queue → Queue) : (s.modQueue n f).launches = s.launches := rfl
@[simp] theorem State.modQueue_teams (s : State) (n : Nat) (f : Queue → Queue) : (s.modQueue n f).teams = s.teams := rfl
@[simp] theorem State.modQueue_sheaves (s : State) (n : Nat) (f : Queue → Queue) : (s.modQueue n f).sheaves = s.sheaves := rfl
@[simp] theorem State.modQueue_jobs (s : State) (n : Nat) (f : Queue → Queue) : (s.modQueue n f).jobs = s.jobs := rfl
@[simp] theorem State.modQueue_inputs (s : State) (n : Nat) (f : Queue → Queue) : (s.modQueue n f).inputs = s.inputs := rfl
@[simp] theorem State.modQueue_agenda (s : State) (n : Nat) (f : Queue → Queue) : (s.modQueue n f).agenda = s.agenda := rfl
@[simp] theorem State.modQueue_choices (s : State) (n : Nat) (f : Queue → Queue) : (s.modQueue n f).choices = s.choices := rfl
@[simp] theorem State.modQueue_cur (s : State) (n : Nat) (f : Queue → Queue) : (s.modQueue n f).cur = s.cur := rfl
@[simp] theorem State.modQueue_nextId (s : State) (n : Nat) (f : Queue → Queue) : (s.modQueue n f).nextId = s.nextId := rfl

/-! ### modRamp -/

@[simp] theorem State.modRamp_cycle (s : State) (n : Nat) (f : Ramp → Ramp) : (s.modRamp n f).cycle = s.cycle := rfl
@[simp] theorem State.modRamp_time (s : State) (n : Nat) (f : Ramp → Ramp) : (s.modRamp n f).time = s.time := rfl
@[simp] theorem State.modRamp_msSeen (s : State) (n : Nat) (f : Ramp → Ramp) : (s.modRamp n f).msSeen = s.msSeen := rfl
@[simp] theorem State.modRamp_errsNow (s : State) (n : Nat) (f : Ramp → Ramp) : (s.modRamp n f).errsNow = s.errsNow := rfl
@[simp] theorem State.modRamp_answers (s : State) (n : Nat) (f : Ramp → Ramp) : (s.modRamp n f).answers = s.answers := rfl
@[simp] theorem State.modRamp_ticket (s : State) (n : Nat) (f : Ramp → Ramp) : (s.modRamp n f).ticket = s.ticket := rfl
@[simp] theorem State.modRamp_seqQ (s : State) (n : Nat) (f : Ramp → Ramp) : (s.modRamp n f).seqQ = s.seqQ := rfl
@[simp] theorem State.modRamp_device (s : State) (n : Nat) (f : Ramp → Ramp) : (s.modRamp n f).device = s.device := rfl
@[simp] theorem State.modRamp_fwstep (s : State) (n : Nat) (f : Ramp → Ramp) : (s.modRamp n f).fwstep = s.fwstep := rfl
@[simp] theorem State.modRamp_trip (s : State) (n : Nat) (f : Ramp → Ramp) : (s.modRamp n f).trip = s.trip := rfl
@[simp] theorem State.modRamp_cap (s : State) (n : Nat) (f : Ramp → Ramp) : (s.modRamp n f).cap = s.cap := rfl
@[simp] theorem State.modRamp_fwerr (s : State) (n : Nat) (f : Ramp → Ramp) : (s.modRamp n f).fwerr = s.fwerr := rfl
@[simp] theorem State.modRamp_ready (s : State) (n : Nat) (f : Ramp → Ramp) : (s.modRamp n f).ready = s.ready := rfl
@[simp] theorem State.modRamp_subReg (s : State) (n : Nat) (f : Ramp → Ramp) : (s.modRamp n f).subReg = s.subReg := rfl
@[simp] theorem State.modRamp_hostErrBase (s : State) (n : Nat) (f : Ramp → Ramp) : (s.modRamp n f).hostErrBase = s.hostErrBase := rfl
@[simp] theorem State.modRamp_hostErrHead (s : State) (n : Nat) (f : Ramp → Ramp) : (s.modRamp n f).hostErrHead = s.hostErrHead := rfl
@[simp] theorem State.modRamp_hostErrWrite (s : State) (n : Nat) (f : Ramp → Ramp) : (s.modRamp n f).hostErrWrite = s.hostErrWrite := rfl
@[simp] theorem State.modRamp_hostErrLost (s : State) (n : Nat) (f : Ramp → Ramp) : (s.modRamp n f).hostErrLost = s.hostErrLost := rfl
@[simp] theorem State.modRamp_msix (s : State) (n : Nat) (f : Ramp → Ramp) : (s.modRamp n f).msix = s.msix := rfl
@[simp] theorem State.modRamp_ctxVector (s : State) (n : Nat) (f : Ramp → Ramp) : (s.modRamp n f).ctxVector = s.ctxVector := rfl
@[simp] theorem State.modRamp_wordVector (s : State) (n : Nat) (f : Ramp → Ramp) : (s.modRamp n f).wordVector = s.wordVector := rfl
@[simp] theorem State.modRamp_sysCtx (s : State) (n : Nat) (f : Ramp → Ramp) : (s.modRamp n f).sysCtx = s.sysCtx := rfl
@[simp] theorem State.modRamp_queues (s : State) (n : Nat) (f : Ramp → Ramp) : (s.modRamp n f).queues = s.queues := rfl
@[simp] theorem State.modRamp_decoders (s : State) (n : Nat) (f : Ramp → Ramp) : (s.modRamp n f).decoders = s.decoders := rfl
@[simp] theorem State.modRamp_poison (s : State) (n : Nat) (f : Ramp → Ramp) : (s.modRamp n f).poison = s.poison := rfl
@[simp] theorem State.modRamp_fenced (s : State) (n : Nat) (f : Ramp → Ramp) : (s.modRamp n f).fenced = s.fenced := rfl
@[simp] theorem State.modRamp_linksUp (s : State) (n : Nat) (f : Ramp → Ramp) : (s.modRamp n f).linksUp = s.linksUp := rfl
@[simp] theorem State.modRamp_peersDown (s : State) (n : Nat) (f : Ramp → Ramp) : (s.modRamp n f).peersDown = s.peersDown := rfl
@[simp] theorem State.modRamp_clockMHz (s : State) (n : Nat) (f : Ramp → Ramp) : (s.modRamp n f).clockMHz = s.clockMHz := rfl
@[simp] theorem State.modRamp_clockSet (s : State) (n : Nat) (f : Ramp → Ramp) : (s.modRamp n f).clockSet = s.clockSet := rfl
@[simp] theorem State.modRamp_capW (s : State) (n : Nat) (f : Ramp → Ramp) : (s.modRamp n f).capW = s.capW := rfl
@[simp] theorem State.modRamp_rollback (s : State) (n : Nat) (f : Ramp → Ramp) : (s.modRamp n f).rollback = s.rollback := rfl
@[simp] theorem State.modRamp_peerFaults (s : State) (n : Nat) (f : Ramp → Ramp) : (s.modRamp n f).peerFaults = s.peerFaults := rfl
@[simp] theorem State.modRamp_removed (s : State) (n : Nat) (f : Ramp → Ramp) : (s.modRamp n f).removed = s.removed := rfl
@[simp] theorem State.modRamp_retired (s : State) (n : Nat) (f : Ramp → Ramp) : (s.modRamp n f).retired = s.retired := rfl
@[simp] theorem State.modRamp_acks (s : State) (n : Nat) (f : Ramp → Ramp) : (s.modRamp n f).acks = s.acks := rfl
@[simp] theorem State.modRamp_keyHash (s : State) (n : Nat) (f : Ramp → Ramp) : (s.modRamp n f).keyHash = s.keyHash := rfl
@[simp] theorem State.modRamp_idSecret (s : State) (n : Nat) (f : Ramp → Ramp) : (s.modRamp n f).idSecret = s.idSecret := rfl
@[simp] theorem State.modRamp_certificate (s : State) (n : Nat) (f : Ramp → Ramp) : (s.modRamp n f).certificate = s.certificate := rfl
@[simp] theorem State.modRamp_calibration (s : State) (n : Nat) (f : Ramp → Ramp) : (s.modRamp n f).calibration = s.calibration := rfl
@[simp] theorem State.modRamp_hostCounters (s : State) (n : Nat) (f : Ramp → Ramp) : (s.modRamp n f).hostCounters = s.hostCounters := rfl
@[simp] theorem State.modRamp_bundle (s : State) (n : Nat) (f : Ramp → Ramp) : (s.modRamp n f).bundle = s.bundle := rfl
@[simp] theorem State.modRamp_started (s : State) (n : Nat) (f : Ramp → Ramp) : (s.modRamp n f).started = s.started := rfl
@[simp] theorem State.modRamp_linkKeys (s : State) (n : Nat) (f : Ramp → Ramp) : (s.modRamp n f).linkKeys = s.linkKeys := rfl
@[simp] theorem State.modRamp_loans (s : State) (n : Nat) (f : Ramp → Ramp) : (s.modRamp n f).loans = s.loans := rfl
@[simp] theorem State.modRamp_spdm (s : State) (n : Nat) (f : Ramp → Ramp) : (s.modRamp n f).spdm = s.spdm := rfl
@[simp] theorem State.modRamp_mailboxes (s : State) (n : Nat) (f : Ramp → Ramp) : (s.modRamp n f).mailboxes = s.mailboxes := rfl
@[simp] theorem State.modRamp_exDeadline (s : State) (n : Nat) (f : Ramp → Ramp) : (s.modRamp n f).exDeadline = s.exDeadline := rfl
@[simp] theorem State.modRamp_saveDeadline (s : State) (n : Nat) (f : Ramp → Ramp) : (s.modRamp n f).saveDeadline = s.saveDeadline := rfl
@[simp] theorem State.modRamp_exHeaders (s : State) (n : Nat) (f : Ramp → Ramp) : (s.modRamp n f).exHeaders = s.exHeaders := rfl
@[simp] theorem State.modRamp_exRefused (s : State) (n : Nat) (f : Ramp → Ramp) : (s.modRamp n f).exRefused = s.exRefused := rfl
@[simp] theorem State.modRamp_exSent (s : State) (n : Nat) (f : Ramp → Ramp) : (s.modRamp n f).exSent = s.exSent := rfl
@[simp] theorem State.modRamp_mem (s : State) (n : Nat) (f : Ramp → Ramp) : (s.modRamp n f).mem = s.mem := rfl
@[simp] theorem State.modRamp_l2peer (s : State) (n : Nat) (f : Ramp → Ramp) : (s.modRamp n f).l2peer = s.l2peer := rfl
@[simp] theorem State.modRamp_rsts (s : State) (n : Nat) (f : Ramp → Ramp) : (s.modRamp n f).rsts = s.rsts := rfl
@[simp] theorem State.modRamp_fields (s : State) (n : Nat) (f : Ramp → Ramp) : (s.modRamp n f).fields = s.fields := rfl
@[simp] theorem State.modRamp_cores (s : State) (n : Nat) (f : Ramp → Ramp) : (s.modRamp n f).cores = s.cores := rfl
@[simp] theorem State.modRamp_ctxs (s : State) (n : Nat) (f : Ramp → Ramp) : (s.modRamp n f).ctxs = s.ctxs := rfl
@[simp] theorem State.modRamp_launches (s : State) (n : Nat) (f : Ramp → Ramp) : (s.modRamp n f).launches = s.launches := rfl
@[simp] theorem State.modRamp_teams (s : State) (n : Nat) (f : Ramp → Ramp) : (s.modRamp n f).teams = s.teams := rfl
@[simp] theorem State.modRamp_sheaves (s : State) (n : Nat) (f : Ramp → Ramp) : (s.modRamp n f).sheaves = s.sheaves := rfl
@[simp] theorem State.modRamp_jobs (s : State) (n : Nat) (f : Ramp → Ramp) : (s.modRamp n f).jobs = s.jobs := rfl
@[simp] theorem State.modRamp_inputs (s : State) (n : Nat) (f : Ramp → Ramp) : (s.modRamp n f).inputs = s.inputs := rfl
@[simp] theorem State.modRamp_agenda (s : State) (n : Nat) (f : Ramp → Ramp) : (s.modRamp n f).agenda = s.agenda := rfl
@[simp] theorem State.modRamp_choices (s : State) (n : Nat) (f : Ramp → Ramp) : (s.modRamp n f).choices = s.choices := rfl
@[simp] theorem State.modRamp_cur (s : State) (n : Nat) (f : Ramp → Ramp) : (s.modRamp n f).cur = s.cur := rfl
@[simp] theorem State.modRamp_nextId (s : State) (n : Nat) (f : Ramp → Ramp) : (s.modRamp n f).nextId = s.nextId := rfl

/-! ### modSheaf -/

@[simp] theorem State.modSheaf_cycle (s : State) (n : Nat) (f : Sheaf → Sheaf) : (s.modSheaf n f).cycle = s.cycle := rfl
@[simp] theorem State.modSheaf_time (s : State) (n : Nat) (f : Sheaf → Sheaf) : (s.modSheaf n f).time = s.time := rfl
@[simp] theorem State.modSheaf_msSeen (s : State) (n : Nat) (f : Sheaf → Sheaf) : (s.modSheaf n f).msSeen = s.msSeen := rfl
@[simp] theorem State.modSheaf_errsNow (s : State) (n : Nat) (f : Sheaf → Sheaf) : (s.modSheaf n f).errsNow = s.errsNow := rfl
@[simp] theorem State.modSheaf_answers (s : State) (n : Nat) (f : Sheaf → Sheaf) : (s.modSheaf n f).answers = s.answers := rfl
@[simp] theorem State.modSheaf_ticket (s : State) (n : Nat) (f : Sheaf → Sheaf) : (s.modSheaf n f).ticket = s.ticket := rfl
@[simp] theorem State.modSheaf_seqQ (s : State) (n : Nat) (f : Sheaf → Sheaf) : (s.modSheaf n f).seqQ = s.seqQ := rfl
@[simp] theorem State.modSheaf_device (s : State) (n : Nat) (f : Sheaf → Sheaf) : (s.modSheaf n f).device = s.device := rfl
@[simp] theorem State.modSheaf_fwstep (s : State) (n : Nat) (f : Sheaf → Sheaf) : (s.modSheaf n f).fwstep = s.fwstep := rfl
@[simp] theorem State.modSheaf_trip (s : State) (n : Nat) (f : Sheaf → Sheaf) : (s.modSheaf n f).trip = s.trip := rfl
@[simp] theorem State.modSheaf_cap (s : State) (n : Nat) (f : Sheaf → Sheaf) : (s.modSheaf n f).cap = s.cap := rfl
@[simp] theorem State.modSheaf_fwerr (s : State) (n : Nat) (f : Sheaf → Sheaf) : (s.modSheaf n f).fwerr = s.fwerr := rfl
@[simp] theorem State.modSheaf_ready (s : State) (n : Nat) (f : Sheaf → Sheaf) : (s.modSheaf n f).ready = s.ready := rfl
@[simp] theorem State.modSheaf_subReg (s : State) (n : Nat) (f : Sheaf → Sheaf) : (s.modSheaf n f).subReg = s.subReg := rfl
@[simp] theorem State.modSheaf_hostErrBase (s : State) (n : Nat) (f : Sheaf → Sheaf) : (s.modSheaf n f).hostErrBase = s.hostErrBase := rfl
@[simp] theorem State.modSheaf_hostErrHead (s : State) (n : Nat) (f : Sheaf → Sheaf) : (s.modSheaf n f).hostErrHead = s.hostErrHead := rfl
@[simp] theorem State.modSheaf_hostErrWrite (s : State) (n : Nat) (f : Sheaf → Sheaf) : (s.modSheaf n f).hostErrWrite = s.hostErrWrite := rfl
@[simp] theorem State.modSheaf_hostErrLost (s : State) (n : Nat) (f : Sheaf → Sheaf) : (s.modSheaf n f).hostErrLost = s.hostErrLost := rfl
@[simp] theorem State.modSheaf_msix (s : State) (n : Nat) (f : Sheaf → Sheaf) : (s.modSheaf n f).msix = s.msix := rfl
@[simp] theorem State.modSheaf_ctxVector (s : State) (n : Nat) (f : Sheaf → Sheaf) : (s.modSheaf n f).ctxVector = s.ctxVector := rfl
@[simp] theorem State.modSheaf_wordVector (s : State) (n : Nat) (f : Sheaf → Sheaf) : (s.modSheaf n f).wordVector = s.wordVector := rfl
@[simp] theorem State.modSheaf_sysCtx (s : State) (n : Nat) (f : Sheaf → Sheaf) : (s.modSheaf n f).sysCtx = s.sysCtx := rfl
@[simp] theorem State.modSheaf_queues (s : State) (n : Nat) (f : Sheaf → Sheaf) : (s.modSheaf n f).queues = s.queues := rfl
@[simp] theorem State.modSheaf_decoders (s : State) (n : Nat) (f : Sheaf → Sheaf) : (s.modSheaf n f).decoders = s.decoders := rfl
@[simp] theorem State.modSheaf_poison (s : State) (n : Nat) (f : Sheaf → Sheaf) : (s.modSheaf n f).poison = s.poison := rfl
@[simp] theorem State.modSheaf_fenced (s : State) (n : Nat) (f : Sheaf → Sheaf) : (s.modSheaf n f).fenced = s.fenced := rfl
@[simp] theorem State.modSheaf_linksUp (s : State) (n : Nat) (f : Sheaf → Sheaf) : (s.modSheaf n f).linksUp = s.linksUp := rfl
@[simp] theorem State.modSheaf_peersDown (s : State) (n : Nat) (f : Sheaf → Sheaf) : (s.modSheaf n f).peersDown = s.peersDown := rfl
@[simp] theorem State.modSheaf_clockMHz (s : State) (n : Nat) (f : Sheaf → Sheaf) : (s.modSheaf n f).clockMHz = s.clockMHz := rfl
@[simp] theorem State.modSheaf_clockSet (s : State) (n : Nat) (f : Sheaf → Sheaf) : (s.modSheaf n f).clockSet = s.clockSet := rfl
@[simp] theorem State.modSheaf_capW (s : State) (n : Nat) (f : Sheaf → Sheaf) : (s.modSheaf n f).capW = s.capW := rfl
@[simp] theorem State.modSheaf_rollback (s : State) (n : Nat) (f : Sheaf → Sheaf) : (s.modSheaf n f).rollback = s.rollback := rfl
@[simp] theorem State.modSheaf_peerFaults (s : State) (n : Nat) (f : Sheaf → Sheaf) : (s.modSheaf n f).peerFaults = s.peerFaults := rfl
@[simp] theorem State.modSheaf_removed (s : State) (n : Nat) (f : Sheaf → Sheaf) : (s.modSheaf n f).removed = s.removed := rfl
@[simp] theorem State.modSheaf_retired (s : State) (n : Nat) (f : Sheaf → Sheaf) : (s.modSheaf n f).retired = s.retired := rfl
@[simp] theorem State.modSheaf_acks (s : State) (n : Nat) (f : Sheaf → Sheaf) : (s.modSheaf n f).acks = s.acks := rfl
@[simp] theorem State.modSheaf_keyHash (s : State) (n : Nat) (f : Sheaf → Sheaf) : (s.modSheaf n f).keyHash = s.keyHash := rfl
@[simp] theorem State.modSheaf_idSecret (s : State) (n : Nat) (f : Sheaf → Sheaf) : (s.modSheaf n f).idSecret = s.idSecret := rfl
@[simp] theorem State.modSheaf_certificate (s : State) (n : Nat) (f : Sheaf → Sheaf) : (s.modSheaf n f).certificate = s.certificate := rfl
@[simp] theorem State.modSheaf_calibration (s : State) (n : Nat) (f : Sheaf → Sheaf) : (s.modSheaf n f).calibration = s.calibration := rfl
@[simp] theorem State.modSheaf_hostCounters (s : State) (n : Nat) (f : Sheaf → Sheaf) : (s.modSheaf n f).hostCounters = s.hostCounters := rfl
@[simp] theorem State.modSheaf_bundle (s : State) (n : Nat) (f : Sheaf → Sheaf) : (s.modSheaf n f).bundle = s.bundle := rfl
@[simp] theorem State.modSheaf_started (s : State) (n : Nat) (f : Sheaf → Sheaf) : (s.modSheaf n f).started = s.started := rfl
@[simp] theorem State.modSheaf_linkKeys (s : State) (n : Nat) (f : Sheaf → Sheaf) : (s.modSheaf n f).linkKeys = s.linkKeys := rfl
@[simp] theorem State.modSheaf_loans (s : State) (n : Nat) (f : Sheaf → Sheaf) : (s.modSheaf n f).loans = s.loans := rfl
@[simp] theorem State.modSheaf_spdm (s : State) (n : Nat) (f : Sheaf → Sheaf) : (s.modSheaf n f).spdm = s.spdm := rfl
@[simp] theorem State.modSheaf_mailboxes (s : State) (n : Nat) (f : Sheaf → Sheaf) : (s.modSheaf n f).mailboxes = s.mailboxes := rfl
@[simp] theorem State.modSheaf_exDeadline (s : State) (n : Nat) (f : Sheaf → Sheaf) : (s.modSheaf n f).exDeadline = s.exDeadline := rfl
@[simp] theorem State.modSheaf_saveDeadline (s : State) (n : Nat) (f : Sheaf → Sheaf) : (s.modSheaf n f).saveDeadline = s.saveDeadline := rfl
@[simp] theorem State.modSheaf_exHeaders (s : State) (n : Nat) (f : Sheaf → Sheaf) : (s.modSheaf n f).exHeaders = s.exHeaders := rfl
@[simp] theorem State.modSheaf_exRefused (s : State) (n : Nat) (f : Sheaf → Sheaf) : (s.modSheaf n f).exRefused = s.exRefused := rfl
@[simp] theorem State.modSheaf_exSent (s : State) (n : Nat) (f : Sheaf → Sheaf) : (s.modSheaf n f).exSent = s.exSent := rfl
@[simp] theorem State.modSheaf_mem (s : State) (n : Nat) (f : Sheaf → Sheaf) : (s.modSheaf n f).mem = s.mem := rfl
@[simp] theorem State.modSheaf_l2peer (s : State) (n : Nat) (f : Sheaf → Sheaf) : (s.modSheaf n f).l2peer = s.l2peer := rfl
@[simp] theorem State.modSheaf_rsts (s : State) (n : Nat) (f : Sheaf → Sheaf) : (s.modSheaf n f).rsts = s.rsts := rfl
@[simp] theorem State.modSheaf_ramps (s : State) (n : Nat) (f : Sheaf → Sheaf) : (s.modSheaf n f).ramps = s.ramps := rfl
@[simp] theorem State.modSheaf_fields (s : State) (n : Nat) (f : Sheaf → Sheaf) : (s.modSheaf n f).fields = s.fields := rfl
@[simp] theorem State.modSheaf_cores (s : State) (n : Nat) (f : Sheaf → Sheaf) : (s.modSheaf n f).cores = s.cores := rfl
@[simp] theorem State.modSheaf_ctxs (s : State) (n : Nat) (f : Sheaf → Sheaf) : (s.modSheaf n f).ctxs = s.ctxs := rfl
@[simp] theorem State.modSheaf_launches (s : State) (n : Nat) (f : Sheaf → Sheaf) : (s.modSheaf n f).launches = s.launches := rfl
@[simp] theorem State.modSheaf_teams (s : State) (n : Nat) (f : Sheaf → Sheaf) : (s.modSheaf n f).teams = s.teams := rfl
@[simp] theorem State.modSheaf_jobs (s : State) (n : Nat) (f : Sheaf → Sheaf) : (s.modSheaf n f).jobs = s.jobs := rfl
@[simp] theorem State.modSheaf_inputs (s : State) (n : Nat) (f : Sheaf → Sheaf) : (s.modSheaf n f).inputs = s.inputs := rfl
@[simp] theorem State.modSheaf_agenda (s : State) (n : Nat) (f : Sheaf → Sheaf) : (s.modSheaf n f).agenda = s.agenda := rfl
@[simp] theorem State.modSheaf_choices (s : State) (n : Nat) (f : Sheaf → Sheaf) : (s.modSheaf n f).choices = s.choices := rfl
@[simp] theorem State.modSheaf_cur (s : State) (n : Nat) (f : Sheaf → Sheaf) : (s.modSheaf n f).cur = s.cur := rfl
@[simp] theorem State.modSheaf_nextId (s : State) (n : Nat) (f : Sheaf → Sheaf) : (s.modSheaf n f).nextId = s.nextId := rfl

/-! ### modTeam -/

@[simp] theorem State.modTeam_cycle (s : State) (n : Nat) (f : Team → Team) : (s.modTeam n f).cycle = s.cycle := rfl
@[simp] theorem State.modTeam_time (s : State) (n : Nat) (f : Team → Team) : (s.modTeam n f).time = s.time := rfl
@[simp] theorem State.modTeam_msSeen (s : State) (n : Nat) (f : Team → Team) : (s.modTeam n f).msSeen = s.msSeen := rfl
@[simp] theorem State.modTeam_errsNow (s : State) (n : Nat) (f : Team → Team) : (s.modTeam n f).errsNow = s.errsNow := rfl
@[simp] theorem State.modTeam_answers (s : State) (n : Nat) (f : Team → Team) : (s.modTeam n f).answers = s.answers := rfl
@[simp] theorem State.modTeam_ticket (s : State) (n : Nat) (f : Team → Team) : (s.modTeam n f).ticket = s.ticket := rfl
@[simp] theorem State.modTeam_seqQ (s : State) (n : Nat) (f : Team → Team) : (s.modTeam n f).seqQ = s.seqQ := rfl
@[simp] theorem State.modTeam_device (s : State) (n : Nat) (f : Team → Team) : (s.modTeam n f).device = s.device := rfl
@[simp] theorem State.modTeam_fwstep (s : State) (n : Nat) (f : Team → Team) : (s.modTeam n f).fwstep = s.fwstep := rfl
@[simp] theorem State.modTeam_trip (s : State) (n : Nat) (f : Team → Team) : (s.modTeam n f).trip = s.trip := rfl
@[simp] theorem State.modTeam_cap (s : State) (n : Nat) (f : Team → Team) : (s.modTeam n f).cap = s.cap := rfl
@[simp] theorem State.modTeam_fwerr (s : State) (n : Nat) (f : Team → Team) : (s.modTeam n f).fwerr = s.fwerr := rfl
@[simp] theorem State.modTeam_ready (s : State) (n : Nat) (f : Team → Team) : (s.modTeam n f).ready = s.ready := rfl
@[simp] theorem State.modTeam_subReg (s : State) (n : Nat) (f : Team → Team) : (s.modTeam n f).subReg = s.subReg := rfl
@[simp] theorem State.modTeam_hostErrBase (s : State) (n : Nat) (f : Team → Team) : (s.modTeam n f).hostErrBase = s.hostErrBase := rfl
@[simp] theorem State.modTeam_hostErrHead (s : State) (n : Nat) (f : Team → Team) : (s.modTeam n f).hostErrHead = s.hostErrHead := rfl
@[simp] theorem State.modTeam_hostErrWrite (s : State) (n : Nat) (f : Team → Team) : (s.modTeam n f).hostErrWrite = s.hostErrWrite := rfl
@[simp] theorem State.modTeam_hostErrLost (s : State) (n : Nat) (f : Team → Team) : (s.modTeam n f).hostErrLost = s.hostErrLost := rfl
@[simp] theorem State.modTeam_msix (s : State) (n : Nat) (f : Team → Team) : (s.modTeam n f).msix = s.msix := rfl
@[simp] theorem State.modTeam_ctxVector (s : State) (n : Nat) (f : Team → Team) : (s.modTeam n f).ctxVector = s.ctxVector := rfl
@[simp] theorem State.modTeam_wordVector (s : State) (n : Nat) (f : Team → Team) : (s.modTeam n f).wordVector = s.wordVector := rfl
@[simp] theorem State.modTeam_sysCtx (s : State) (n : Nat) (f : Team → Team) : (s.modTeam n f).sysCtx = s.sysCtx := rfl
@[simp] theorem State.modTeam_queues (s : State) (n : Nat) (f : Team → Team) : (s.modTeam n f).queues = s.queues := rfl
@[simp] theorem State.modTeam_decoders (s : State) (n : Nat) (f : Team → Team) : (s.modTeam n f).decoders = s.decoders := rfl
@[simp] theorem State.modTeam_poison (s : State) (n : Nat) (f : Team → Team) : (s.modTeam n f).poison = s.poison := rfl
@[simp] theorem State.modTeam_fenced (s : State) (n : Nat) (f : Team → Team) : (s.modTeam n f).fenced = s.fenced := rfl
@[simp] theorem State.modTeam_linksUp (s : State) (n : Nat) (f : Team → Team) : (s.modTeam n f).linksUp = s.linksUp := rfl
@[simp] theorem State.modTeam_peersDown (s : State) (n : Nat) (f : Team → Team) : (s.modTeam n f).peersDown = s.peersDown := rfl
@[simp] theorem State.modTeam_clockMHz (s : State) (n : Nat) (f : Team → Team) : (s.modTeam n f).clockMHz = s.clockMHz := rfl
@[simp] theorem State.modTeam_clockSet (s : State) (n : Nat) (f : Team → Team) : (s.modTeam n f).clockSet = s.clockSet := rfl
@[simp] theorem State.modTeam_capW (s : State) (n : Nat) (f : Team → Team) : (s.modTeam n f).capW = s.capW := rfl
@[simp] theorem State.modTeam_rollback (s : State) (n : Nat) (f : Team → Team) : (s.modTeam n f).rollback = s.rollback := rfl
@[simp] theorem State.modTeam_peerFaults (s : State) (n : Nat) (f : Team → Team) : (s.modTeam n f).peerFaults = s.peerFaults := rfl
@[simp] theorem State.modTeam_removed (s : State) (n : Nat) (f : Team → Team) : (s.modTeam n f).removed = s.removed := rfl
@[simp] theorem State.modTeam_retired (s : State) (n : Nat) (f : Team → Team) : (s.modTeam n f).retired = s.retired := rfl
@[simp] theorem State.modTeam_acks (s : State) (n : Nat) (f : Team → Team) : (s.modTeam n f).acks = s.acks := rfl
@[simp] theorem State.modTeam_keyHash (s : State) (n : Nat) (f : Team → Team) : (s.modTeam n f).keyHash = s.keyHash := rfl
@[simp] theorem State.modTeam_idSecret (s : State) (n : Nat) (f : Team → Team) : (s.modTeam n f).idSecret = s.idSecret := rfl
@[simp] theorem State.modTeam_certificate (s : State) (n : Nat) (f : Team → Team) : (s.modTeam n f).certificate = s.certificate := rfl
@[simp] theorem State.modTeam_calibration (s : State) (n : Nat) (f : Team → Team) : (s.modTeam n f).calibration = s.calibration := rfl
@[simp] theorem State.modTeam_hostCounters (s : State) (n : Nat) (f : Team → Team) : (s.modTeam n f).hostCounters = s.hostCounters := rfl
@[simp] theorem State.modTeam_bundle (s : State) (n : Nat) (f : Team → Team) : (s.modTeam n f).bundle = s.bundle := rfl
@[simp] theorem State.modTeam_started (s : State) (n : Nat) (f : Team → Team) : (s.modTeam n f).started = s.started := rfl
@[simp] theorem State.modTeam_linkKeys (s : State) (n : Nat) (f : Team → Team) : (s.modTeam n f).linkKeys = s.linkKeys := rfl
@[simp] theorem State.modTeam_loans (s : State) (n : Nat) (f : Team → Team) : (s.modTeam n f).loans = s.loans := rfl
@[simp] theorem State.modTeam_spdm (s : State) (n : Nat) (f : Team → Team) : (s.modTeam n f).spdm = s.spdm := rfl
@[simp] theorem State.modTeam_mailboxes (s : State) (n : Nat) (f : Team → Team) : (s.modTeam n f).mailboxes = s.mailboxes := rfl
@[simp] theorem State.modTeam_exDeadline (s : State) (n : Nat) (f : Team → Team) : (s.modTeam n f).exDeadline = s.exDeadline := rfl
@[simp] theorem State.modTeam_saveDeadline (s : State) (n : Nat) (f : Team → Team) : (s.modTeam n f).saveDeadline = s.saveDeadline := rfl
@[simp] theorem State.modTeam_exHeaders (s : State) (n : Nat) (f : Team → Team) : (s.modTeam n f).exHeaders = s.exHeaders := rfl
@[simp] theorem State.modTeam_exRefused (s : State) (n : Nat) (f : Team → Team) : (s.modTeam n f).exRefused = s.exRefused := rfl
@[simp] theorem State.modTeam_exSent (s : State) (n : Nat) (f : Team → Team) : (s.modTeam n f).exSent = s.exSent := rfl
@[simp] theorem State.modTeam_mem (s : State) (n : Nat) (f : Team → Team) : (s.modTeam n f).mem = s.mem := rfl
@[simp] theorem State.modTeam_l2peer (s : State) (n : Nat) (f : Team → Team) : (s.modTeam n f).l2peer = s.l2peer := rfl
@[simp] theorem State.modTeam_rsts (s : State) (n : Nat) (f : Team → Team) : (s.modTeam n f).rsts = s.rsts := rfl
@[simp] theorem State.modTeam_ramps (s : State) (n : Nat) (f : Team → Team) : (s.modTeam n f).ramps = s.ramps := rfl
@[simp] theorem State.modTeam_fields (s : State) (n : Nat) (f : Team → Team) : (s.modTeam n f).fields = s.fields := rfl
@[simp] theorem State.modTeam_cores (s : State) (n : Nat) (f : Team → Team) : (s.modTeam n f).cores = s.cores := rfl
@[simp] theorem State.modTeam_ctxs (s : State) (n : Nat) (f : Team → Team) : (s.modTeam n f).ctxs = s.ctxs := rfl
@[simp] theorem State.modTeam_launches (s : State) (n : Nat) (f : Team → Team) : (s.modTeam n f).launches = s.launches := rfl
@[simp] theorem State.modTeam_sheaves (s : State) (n : Nat) (f : Team → Team) : (s.modTeam n f).sheaves = s.sheaves := rfl
@[simp] theorem State.modTeam_jobs (s : State) (n : Nat) (f : Team → Team) : (s.modTeam n f).jobs = s.jobs := rfl
@[simp] theorem State.modTeam_inputs (s : State) (n : Nat) (f : Team → Team) : (s.modTeam n f).inputs = s.inputs := rfl
@[simp] theorem State.modTeam_agenda (s : State) (n : Nat) (f : Team → Team) : (s.modTeam n f).agenda = s.agenda := rfl
@[simp] theorem State.modTeam_choices (s : State) (n : Nat) (f : Team → Team) : (s.modTeam n f).choices = s.choices := rfl
@[simp] theorem State.modTeam_cur (s : State) (n : Nat) (f : Team → Team) : (s.modTeam n f).cur = s.cur := rfl
@[simp] theorem State.modTeam_nextId (s : State) (n : Nat) (f : Team → Team) : (s.modTeam n f).nextId = s.nextId := rfl

/-! ### modLaunch -/

@[simp] theorem State.modLaunch_cycle (s : State) (n : Nat) (f : Launch → Launch) : (s.modLaunch n f).cycle = s.cycle := rfl
@[simp] theorem State.modLaunch_time (s : State) (n : Nat) (f : Launch → Launch) : (s.modLaunch n f).time = s.time := rfl
@[simp] theorem State.modLaunch_msSeen (s : State) (n : Nat) (f : Launch → Launch) : (s.modLaunch n f).msSeen = s.msSeen := rfl
@[simp] theorem State.modLaunch_errsNow (s : State) (n : Nat) (f : Launch → Launch) : (s.modLaunch n f).errsNow = s.errsNow := rfl
@[simp] theorem State.modLaunch_answers (s : State) (n : Nat) (f : Launch → Launch) : (s.modLaunch n f).answers = s.answers := rfl
@[simp] theorem State.modLaunch_ticket (s : State) (n : Nat) (f : Launch → Launch) : (s.modLaunch n f).ticket = s.ticket := rfl
@[simp] theorem State.modLaunch_seqQ (s : State) (n : Nat) (f : Launch → Launch) : (s.modLaunch n f).seqQ = s.seqQ := rfl
@[simp] theorem State.modLaunch_device (s : State) (n : Nat) (f : Launch → Launch) : (s.modLaunch n f).device = s.device := rfl
@[simp] theorem State.modLaunch_fwstep (s : State) (n : Nat) (f : Launch → Launch) : (s.modLaunch n f).fwstep = s.fwstep := rfl
@[simp] theorem State.modLaunch_trip (s : State) (n : Nat) (f : Launch → Launch) : (s.modLaunch n f).trip = s.trip := rfl
@[simp] theorem State.modLaunch_cap (s : State) (n : Nat) (f : Launch → Launch) : (s.modLaunch n f).cap = s.cap := rfl
@[simp] theorem State.modLaunch_fwerr (s : State) (n : Nat) (f : Launch → Launch) : (s.modLaunch n f).fwerr = s.fwerr := rfl
@[simp] theorem State.modLaunch_ready (s : State) (n : Nat) (f : Launch → Launch) : (s.modLaunch n f).ready = s.ready := rfl
@[simp] theorem State.modLaunch_subReg (s : State) (n : Nat) (f : Launch → Launch) : (s.modLaunch n f).subReg = s.subReg := rfl
@[simp] theorem State.modLaunch_hostErrBase (s : State) (n : Nat) (f : Launch → Launch) : (s.modLaunch n f).hostErrBase = s.hostErrBase := rfl
@[simp] theorem State.modLaunch_hostErrHead (s : State) (n : Nat) (f : Launch → Launch) : (s.modLaunch n f).hostErrHead = s.hostErrHead := rfl
@[simp] theorem State.modLaunch_hostErrWrite (s : State) (n : Nat) (f : Launch → Launch) : (s.modLaunch n f).hostErrWrite = s.hostErrWrite := rfl
@[simp] theorem State.modLaunch_hostErrLost (s : State) (n : Nat) (f : Launch → Launch) : (s.modLaunch n f).hostErrLost = s.hostErrLost := rfl
@[simp] theorem State.modLaunch_msix (s : State) (n : Nat) (f : Launch → Launch) : (s.modLaunch n f).msix = s.msix := rfl
@[simp] theorem State.modLaunch_ctxVector (s : State) (n : Nat) (f : Launch → Launch) : (s.modLaunch n f).ctxVector = s.ctxVector := rfl
@[simp] theorem State.modLaunch_wordVector (s : State) (n : Nat) (f : Launch → Launch) : (s.modLaunch n f).wordVector = s.wordVector := rfl
@[simp] theorem State.modLaunch_sysCtx (s : State) (n : Nat) (f : Launch → Launch) : (s.modLaunch n f).sysCtx = s.sysCtx := rfl
@[simp] theorem State.modLaunch_queues (s : State) (n : Nat) (f : Launch → Launch) : (s.modLaunch n f).queues = s.queues := rfl
@[simp] theorem State.modLaunch_decoders (s : State) (n : Nat) (f : Launch → Launch) : (s.modLaunch n f).decoders = s.decoders := rfl
@[simp] theorem State.modLaunch_poison (s : State) (n : Nat) (f : Launch → Launch) : (s.modLaunch n f).poison = s.poison := rfl
@[simp] theorem State.modLaunch_fenced (s : State) (n : Nat) (f : Launch → Launch) : (s.modLaunch n f).fenced = s.fenced := rfl
@[simp] theorem State.modLaunch_linksUp (s : State) (n : Nat) (f : Launch → Launch) : (s.modLaunch n f).linksUp = s.linksUp := rfl
@[simp] theorem State.modLaunch_peersDown (s : State) (n : Nat) (f : Launch → Launch) : (s.modLaunch n f).peersDown = s.peersDown := rfl
@[simp] theorem State.modLaunch_clockMHz (s : State) (n : Nat) (f : Launch → Launch) : (s.modLaunch n f).clockMHz = s.clockMHz := rfl
@[simp] theorem State.modLaunch_clockSet (s : State) (n : Nat) (f : Launch → Launch) : (s.modLaunch n f).clockSet = s.clockSet := rfl
@[simp] theorem State.modLaunch_capW (s : State) (n : Nat) (f : Launch → Launch) : (s.modLaunch n f).capW = s.capW := rfl
@[simp] theorem State.modLaunch_rollback (s : State) (n : Nat) (f : Launch → Launch) : (s.modLaunch n f).rollback = s.rollback := rfl
@[simp] theorem State.modLaunch_peerFaults (s : State) (n : Nat) (f : Launch → Launch) : (s.modLaunch n f).peerFaults = s.peerFaults := rfl
@[simp] theorem State.modLaunch_removed (s : State) (n : Nat) (f : Launch → Launch) : (s.modLaunch n f).removed = s.removed := rfl
@[simp] theorem State.modLaunch_retired (s : State) (n : Nat) (f : Launch → Launch) : (s.modLaunch n f).retired = s.retired := rfl
@[simp] theorem State.modLaunch_acks (s : State) (n : Nat) (f : Launch → Launch) : (s.modLaunch n f).acks = s.acks := rfl
@[simp] theorem State.modLaunch_keyHash (s : State) (n : Nat) (f : Launch → Launch) : (s.modLaunch n f).keyHash = s.keyHash := rfl
@[simp] theorem State.modLaunch_idSecret (s : State) (n : Nat) (f : Launch → Launch) : (s.modLaunch n f).idSecret = s.idSecret := rfl
@[simp] theorem State.modLaunch_certificate (s : State) (n : Nat) (f : Launch → Launch) : (s.modLaunch n f).certificate = s.certificate := rfl
@[simp] theorem State.modLaunch_calibration (s : State) (n : Nat) (f : Launch → Launch) : (s.modLaunch n f).calibration = s.calibration := rfl
@[simp] theorem State.modLaunch_hostCounters (s : State) (n : Nat) (f : Launch → Launch) : (s.modLaunch n f).hostCounters = s.hostCounters := rfl
@[simp] theorem State.modLaunch_bundle (s : State) (n : Nat) (f : Launch → Launch) : (s.modLaunch n f).bundle = s.bundle := rfl
@[simp] theorem State.modLaunch_started (s : State) (n : Nat) (f : Launch → Launch) : (s.modLaunch n f).started = s.started := rfl
@[simp] theorem State.modLaunch_linkKeys (s : State) (n : Nat) (f : Launch → Launch) : (s.modLaunch n f).linkKeys = s.linkKeys := rfl
@[simp] theorem State.modLaunch_loans (s : State) (n : Nat) (f : Launch → Launch) : (s.modLaunch n f).loans = s.loans := rfl
@[simp] theorem State.modLaunch_spdm (s : State) (n : Nat) (f : Launch → Launch) : (s.modLaunch n f).spdm = s.spdm := rfl
@[simp] theorem State.modLaunch_mailboxes (s : State) (n : Nat) (f : Launch → Launch) : (s.modLaunch n f).mailboxes = s.mailboxes := rfl
@[simp] theorem State.modLaunch_exDeadline (s : State) (n : Nat) (f : Launch → Launch) : (s.modLaunch n f).exDeadline = s.exDeadline := rfl
@[simp] theorem State.modLaunch_saveDeadline (s : State) (n : Nat) (f : Launch → Launch) : (s.modLaunch n f).saveDeadline = s.saveDeadline := rfl
@[simp] theorem State.modLaunch_exHeaders (s : State) (n : Nat) (f : Launch → Launch) : (s.modLaunch n f).exHeaders = s.exHeaders := rfl
@[simp] theorem State.modLaunch_exRefused (s : State) (n : Nat) (f : Launch → Launch) : (s.modLaunch n f).exRefused = s.exRefused := rfl
@[simp] theorem State.modLaunch_exSent (s : State) (n : Nat) (f : Launch → Launch) : (s.modLaunch n f).exSent = s.exSent := rfl
@[simp] theorem State.modLaunch_mem (s : State) (n : Nat) (f : Launch → Launch) : (s.modLaunch n f).mem = s.mem := rfl
@[simp] theorem State.modLaunch_l2peer (s : State) (n : Nat) (f : Launch → Launch) : (s.modLaunch n f).l2peer = s.l2peer := rfl
@[simp] theorem State.modLaunch_rsts (s : State) (n : Nat) (f : Launch → Launch) : (s.modLaunch n f).rsts = s.rsts := rfl
@[simp] theorem State.modLaunch_ramps (s : State) (n : Nat) (f : Launch → Launch) : (s.modLaunch n f).ramps = s.ramps := rfl
@[simp] theorem State.modLaunch_fields (s : State) (n : Nat) (f : Launch → Launch) : (s.modLaunch n f).fields = s.fields := rfl
@[simp] theorem State.modLaunch_cores (s : State) (n : Nat) (f : Launch → Launch) : (s.modLaunch n f).cores = s.cores := rfl
@[simp] theorem State.modLaunch_ctxs (s : State) (n : Nat) (f : Launch → Launch) : (s.modLaunch n f).ctxs = s.ctxs := rfl
@[simp] theorem State.modLaunch_teams (s : State) (n : Nat) (f : Launch → Launch) : (s.modLaunch n f).teams = s.teams := rfl
@[simp] theorem State.modLaunch_sheaves (s : State) (n : Nat) (f : Launch → Launch) : (s.modLaunch n f).sheaves = s.sheaves := rfl
@[simp] theorem State.modLaunch_jobs (s : State) (n : Nat) (f : Launch → Launch) : (s.modLaunch n f).jobs = s.jobs := rfl
@[simp] theorem State.modLaunch_inputs (s : State) (n : Nat) (f : Launch → Launch) : (s.modLaunch n f).inputs = s.inputs := rfl
@[simp] theorem State.modLaunch_agenda (s : State) (n : Nat) (f : Launch → Launch) : (s.modLaunch n f).agenda = s.agenda := rfl
@[simp] theorem State.modLaunch_choices (s : State) (n : Nat) (f : Launch → Launch) : (s.modLaunch n f).choices = s.choices := rfl
@[simp] theorem State.modLaunch_cur (s : State) (n : Nat) (f : Launch → Launch) : (s.modLaunch n f).cur = s.cur := rfl
@[simp] theorem State.modLaunch_nextId (s : State) (n : Nat) (f : Launch → Launch) : (s.modLaunch n f).nextId = s.nextId := rfl

/-! ### modJob -/

@[simp] theorem State.modJob_cycle (s : State) (n : Nat) (f : Job → Job) : (s.modJob n f).cycle = s.cycle := rfl
@[simp] theorem State.modJob_time (s : State) (n : Nat) (f : Job → Job) : (s.modJob n f).time = s.time := rfl
@[simp] theorem State.modJob_msSeen (s : State) (n : Nat) (f : Job → Job) : (s.modJob n f).msSeen = s.msSeen := rfl
@[simp] theorem State.modJob_errsNow (s : State) (n : Nat) (f : Job → Job) : (s.modJob n f).errsNow = s.errsNow := rfl
@[simp] theorem State.modJob_answers (s : State) (n : Nat) (f : Job → Job) : (s.modJob n f).answers = s.answers := rfl
@[simp] theorem State.modJob_ticket (s : State) (n : Nat) (f : Job → Job) : (s.modJob n f).ticket = s.ticket := rfl
@[simp] theorem State.modJob_seqQ (s : State) (n : Nat) (f : Job → Job) : (s.modJob n f).seqQ = s.seqQ := rfl
@[simp] theorem State.modJob_device (s : State) (n : Nat) (f : Job → Job) : (s.modJob n f).device = s.device := rfl
@[simp] theorem State.modJob_fwstep (s : State) (n : Nat) (f : Job → Job) : (s.modJob n f).fwstep = s.fwstep := rfl
@[simp] theorem State.modJob_trip (s : State) (n : Nat) (f : Job → Job) : (s.modJob n f).trip = s.trip := rfl
@[simp] theorem State.modJob_cap (s : State) (n : Nat) (f : Job → Job) : (s.modJob n f).cap = s.cap := rfl
@[simp] theorem State.modJob_fwerr (s : State) (n : Nat) (f : Job → Job) : (s.modJob n f).fwerr = s.fwerr := rfl
@[simp] theorem State.modJob_ready (s : State) (n : Nat) (f : Job → Job) : (s.modJob n f).ready = s.ready := rfl
@[simp] theorem State.modJob_subReg (s : State) (n : Nat) (f : Job → Job) : (s.modJob n f).subReg = s.subReg := rfl
@[simp] theorem State.modJob_hostErrBase (s : State) (n : Nat) (f : Job → Job) : (s.modJob n f).hostErrBase = s.hostErrBase := rfl
@[simp] theorem State.modJob_hostErrHead (s : State) (n : Nat) (f : Job → Job) : (s.modJob n f).hostErrHead = s.hostErrHead := rfl
@[simp] theorem State.modJob_hostErrWrite (s : State) (n : Nat) (f : Job → Job) : (s.modJob n f).hostErrWrite = s.hostErrWrite := rfl
@[simp] theorem State.modJob_hostErrLost (s : State) (n : Nat) (f : Job → Job) : (s.modJob n f).hostErrLost = s.hostErrLost := rfl
@[simp] theorem State.modJob_msix (s : State) (n : Nat) (f : Job → Job) : (s.modJob n f).msix = s.msix := rfl
@[simp] theorem State.modJob_ctxVector (s : State) (n : Nat) (f : Job → Job) : (s.modJob n f).ctxVector = s.ctxVector := rfl
@[simp] theorem State.modJob_wordVector (s : State) (n : Nat) (f : Job → Job) : (s.modJob n f).wordVector = s.wordVector := rfl
@[simp] theorem State.modJob_sysCtx (s : State) (n : Nat) (f : Job → Job) : (s.modJob n f).sysCtx = s.sysCtx := rfl
@[simp] theorem State.modJob_queues (s : State) (n : Nat) (f : Job → Job) : (s.modJob n f).queues = s.queues := rfl
@[simp] theorem State.modJob_decoders (s : State) (n : Nat) (f : Job → Job) : (s.modJob n f).decoders = s.decoders := rfl
@[simp] theorem State.modJob_poison (s : State) (n : Nat) (f : Job → Job) : (s.modJob n f).poison = s.poison := rfl
@[simp] theorem State.modJob_fenced (s : State) (n : Nat) (f : Job → Job) : (s.modJob n f).fenced = s.fenced := rfl
@[simp] theorem State.modJob_linksUp (s : State) (n : Nat) (f : Job → Job) : (s.modJob n f).linksUp = s.linksUp := rfl
@[simp] theorem State.modJob_peersDown (s : State) (n : Nat) (f : Job → Job) : (s.modJob n f).peersDown = s.peersDown := rfl
@[simp] theorem State.modJob_clockMHz (s : State) (n : Nat) (f : Job → Job) : (s.modJob n f).clockMHz = s.clockMHz := rfl
@[simp] theorem State.modJob_clockSet (s : State) (n : Nat) (f : Job → Job) : (s.modJob n f).clockSet = s.clockSet := rfl
@[simp] theorem State.modJob_capW (s : State) (n : Nat) (f : Job → Job) : (s.modJob n f).capW = s.capW := rfl
@[simp] theorem State.modJob_rollback (s : State) (n : Nat) (f : Job → Job) : (s.modJob n f).rollback = s.rollback := rfl
@[simp] theorem State.modJob_peerFaults (s : State) (n : Nat) (f : Job → Job) : (s.modJob n f).peerFaults = s.peerFaults := rfl
@[simp] theorem State.modJob_removed (s : State) (n : Nat) (f : Job → Job) : (s.modJob n f).removed = s.removed := rfl
@[simp] theorem State.modJob_retired (s : State) (n : Nat) (f : Job → Job) : (s.modJob n f).retired = s.retired := rfl
@[simp] theorem State.modJob_acks (s : State) (n : Nat) (f : Job → Job) : (s.modJob n f).acks = s.acks := rfl
@[simp] theorem State.modJob_keyHash (s : State) (n : Nat) (f : Job → Job) : (s.modJob n f).keyHash = s.keyHash := rfl
@[simp] theorem State.modJob_idSecret (s : State) (n : Nat) (f : Job → Job) : (s.modJob n f).idSecret = s.idSecret := rfl
@[simp] theorem State.modJob_certificate (s : State) (n : Nat) (f : Job → Job) : (s.modJob n f).certificate = s.certificate := rfl
@[simp] theorem State.modJob_calibration (s : State) (n : Nat) (f : Job → Job) : (s.modJob n f).calibration = s.calibration := rfl
@[simp] theorem State.modJob_hostCounters (s : State) (n : Nat) (f : Job → Job) : (s.modJob n f).hostCounters = s.hostCounters := rfl
@[simp] theorem State.modJob_bundle (s : State) (n : Nat) (f : Job → Job) : (s.modJob n f).bundle = s.bundle := rfl
@[simp] theorem State.modJob_started (s : State) (n : Nat) (f : Job → Job) : (s.modJob n f).started = s.started := rfl
@[simp] theorem State.modJob_linkKeys (s : State) (n : Nat) (f : Job → Job) : (s.modJob n f).linkKeys = s.linkKeys := rfl
@[simp] theorem State.modJob_loans (s : State) (n : Nat) (f : Job → Job) : (s.modJob n f).loans = s.loans := rfl
@[simp] theorem State.modJob_spdm (s : State) (n : Nat) (f : Job → Job) : (s.modJob n f).spdm = s.spdm := rfl
@[simp] theorem State.modJob_mailboxes (s : State) (n : Nat) (f : Job → Job) : (s.modJob n f).mailboxes = s.mailboxes := rfl
@[simp] theorem State.modJob_exDeadline (s : State) (n : Nat) (f : Job → Job) : (s.modJob n f).exDeadline = s.exDeadline := rfl
@[simp] theorem State.modJob_saveDeadline (s : State) (n : Nat) (f : Job → Job) : (s.modJob n f).saveDeadline = s.saveDeadline := rfl
@[simp] theorem State.modJob_exHeaders (s : State) (n : Nat) (f : Job → Job) : (s.modJob n f).exHeaders = s.exHeaders := rfl
@[simp] theorem State.modJob_exRefused (s : State) (n : Nat) (f : Job → Job) : (s.modJob n f).exRefused = s.exRefused := rfl
@[simp] theorem State.modJob_exSent (s : State) (n : Nat) (f : Job → Job) : (s.modJob n f).exSent = s.exSent := rfl
@[simp] theorem State.modJob_mem (s : State) (n : Nat) (f : Job → Job) : (s.modJob n f).mem = s.mem := rfl
@[simp] theorem State.modJob_l2peer (s : State) (n : Nat) (f : Job → Job) : (s.modJob n f).l2peer = s.l2peer := rfl
@[simp] theorem State.modJob_rsts (s : State) (n : Nat) (f : Job → Job) : (s.modJob n f).rsts = s.rsts := rfl
@[simp] theorem State.modJob_ramps (s : State) (n : Nat) (f : Job → Job) : (s.modJob n f).ramps = s.ramps := rfl
@[simp] theorem State.modJob_fields (s : State) (n : Nat) (f : Job → Job) : (s.modJob n f).fields = s.fields := rfl
@[simp] theorem State.modJob_cores (s : State) (n : Nat) (f : Job → Job) : (s.modJob n f).cores = s.cores := rfl
@[simp] theorem State.modJob_ctxs (s : State) (n : Nat) (f : Job → Job) : (s.modJob n f).ctxs = s.ctxs := rfl
@[simp] theorem State.modJob_launches (s : State) (n : Nat) (f : Job → Job) : (s.modJob n f).launches = s.launches := rfl
@[simp] theorem State.modJob_teams (s : State) (n : Nat) (f : Job → Job) : (s.modJob n f).teams = s.teams := rfl
@[simp] theorem State.modJob_sheaves (s : State) (n : Nat) (f : Job → Job) : (s.modJob n f).sheaves = s.sheaves := rfl
@[simp] theorem State.modJob_inputs (s : State) (n : Nat) (f : Job → Job) : (s.modJob n f).inputs = s.inputs := rfl
@[simp] theorem State.modJob_agenda (s : State) (n : Nat) (f : Job → Job) : (s.modJob n f).agenda = s.agenda := rfl
@[simp] theorem State.modJob_choices (s : State) (n : Nat) (f : Job → Job) : (s.modJob n f).choices = s.choices := rfl
@[simp] theorem State.modJob_cur (s : State) (n : Nat) (f : Job → Job) : (s.modJob n f).cur = s.cur := rfl
@[simp] theorem State.modJob_nextId (s : State) (n : Nat) (f : Job → Job) : (s.modJob n f).nextId = s.nextId := rfl

/-! ### modRes -/

@[simp] theorem State.modRes_cycle (s : State) (c n : Nat) (f : Res → Res) : (s.modRes c n f).cycle = s.cycle := rfl
@[simp] theorem State.modRes_time (s : State) (c n : Nat) (f : Res → Res) : (s.modRes c n f).time = s.time := rfl
@[simp] theorem State.modRes_msSeen (s : State) (c n : Nat) (f : Res → Res) : (s.modRes c n f).msSeen = s.msSeen := rfl
@[simp] theorem State.modRes_errsNow (s : State) (c n : Nat) (f : Res → Res) : (s.modRes c n f).errsNow = s.errsNow := rfl
@[simp] theorem State.modRes_answers (s : State) (c n : Nat) (f : Res → Res) : (s.modRes c n f).answers = s.answers := rfl
@[simp] theorem State.modRes_ticket (s : State) (c n : Nat) (f : Res → Res) : (s.modRes c n f).ticket = s.ticket := rfl
@[simp] theorem State.modRes_seqQ (s : State) (c n : Nat) (f : Res → Res) : (s.modRes c n f).seqQ = s.seqQ := rfl
@[simp] theorem State.modRes_device (s : State) (c n : Nat) (f : Res → Res) : (s.modRes c n f).device = s.device := rfl
@[simp] theorem State.modRes_fwstep (s : State) (c n : Nat) (f : Res → Res) : (s.modRes c n f).fwstep = s.fwstep := rfl
@[simp] theorem State.modRes_trip (s : State) (c n : Nat) (f : Res → Res) : (s.modRes c n f).trip = s.trip := rfl
@[simp] theorem State.modRes_cap (s : State) (c n : Nat) (f : Res → Res) : (s.modRes c n f).cap = s.cap := rfl
@[simp] theorem State.modRes_fwerr (s : State) (c n : Nat) (f : Res → Res) : (s.modRes c n f).fwerr = s.fwerr := rfl
@[simp] theorem State.modRes_ready (s : State) (c n : Nat) (f : Res → Res) : (s.modRes c n f).ready = s.ready := rfl
@[simp] theorem State.modRes_subReg (s : State) (c n : Nat) (f : Res → Res) : (s.modRes c n f).subReg = s.subReg := rfl
@[simp] theorem State.modRes_hostErrBase (s : State) (c n : Nat) (f : Res → Res) : (s.modRes c n f).hostErrBase = s.hostErrBase := rfl
@[simp] theorem State.modRes_hostErrHead (s : State) (c n : Nat) (f : Res → Res) : (s.modRes c n f).hostErrHead = s.hostErrHead := rfl
@[simp] theorem State.modRes_hostErrWrite (s : State) (c n : Nat) (f : Res → Res) : (s.modRes c n f).hostErrWrite = s.hostErrWrite := rfl
@[simp] theorem State.modRes_hostErrLost (s : State) (c n : Nat) (f : Res → Res) : (s.modRes c n f).hostErrLost = s.hostErrLost := rfl
@[simp] theorem State.modRes_msix (s : State) (c n : Nat) (f : Res → Res) : (s.modRes c n f).msix = s.msix := rfl
@[simp] theorem State.modRes_ctxVector (s : State) (c n : Nat) (f : Res → Res) : (s.modRes c n f).ctxVector = s.ctxVector := rfl
@[simp] theorem State.modRes_wordVector (s : State) (c n : Nat) (f : Res → Res) : (s.modRes c n f).wordVector = s.wordVector := rfl
@[simp] theorem State.modRes_sysCtx (s : State) (c n : Nat) (f : Res → Res) : (s.modRes c n f).sysCtx = s.sysCtx := rfl
@[simp] theorem State.modRes_queues (s : State) (c n : Nat) (f : Res → Res) : (s.modRes c n f).queues = s.queues := rfl
@[simp] theorem State.modRes_decoders (s : State) (c n : Nat) (f : Res → Res) : (s.modRes c n f).decoders = s.decoders := rfl
@[simp] theorem State.modRes_poison (s : State) (c n : Nat) (f : Res → Res) : (s.modRes c n f).poison = s.poison := rfl
@[simp] theorem State.modRes_fenced (s : State) (c n : Nat) (f : Res → Res) : (s.modRes c n f).fenced = s.fenced := rfl
@[simp] theorem State.modRes_linksUp (s : State) (c n : Nat) (f : Res → Res) : (s.modRes c n f).linksUp = s.linksUp := rfl
@[simp] theorem State.modRes_peersDown (s : State) (c n : Nat) (f : Res → Res) : (s.modRes c n f).peersDown = s.peersDown := rfl
@[simp] theorem State.modRes_clockMHz (s : State) (c n : Nat) (f : Res → Res) : (s.modRes c n f).clockMHz = s.clockMHz := rfl
@[simp] theorem State.modRes_clockSet (s : State) (c n : Nat) (f : Res → Res) : (s.modRes c n f).clockSet = s.clockSet := rfl
@[simp] theorem State.modRes_capW (s : State) (c n : Nat) (f : Res → Res) : (s.modRes c n f).capW = s.capW := rfl
@[simp] theorem State.modRes_rollback (s : State) (c n : Nat) (f : Res → Res) : (s.modRes c n f).rollback = s.rollback := rfl
@[simp] theorem State.modRes_peerFaults (s : State) (c n : Nat) (f : Res → Res) : (s.modRes c n f).peerFaults = s.peerFaults := rfl
@[simp] theorem State.modRes_removed (s : State) (c n : Nat) (f : Res → Res) : (s.modRes c n f).removed = s.removed := rfl
@[simp] theorem State.modRes_retired (s : State) (c n : Nat) (f : Res → Res) : (s.modRes c n f).retired = s.retired := rfl
@[simp] theorem State.modRes_acks (s : State) (c n : Nat) (f : Res → Res) : (s.modRes c n f).acks = s.acks := rfl
@[simp] theorem State.modRes_keyHash (s : State) (c n : Nat) (f : Res → Res) : (s.modRes c n f).keyHash = s.keyHash := rfl
@[simp] theorem State.modRes_idSecret (s : State) (c n : Nat) (f : Res → Res) : (s.modRes c n f).idSecret = s.idSecret := rfl
@[simp] theorem State.modRes_certificate (s : State) (c n : Nat) (f : Res → Res) : (s.modRes c n f).certificate = s.certificate := rfl
@[simp] theorem State.modRes_calibration (s : State) (c n : Nat) (f : Res → Res) : (s.modRes c n f).calibration = s.calibration := rfl
@[simp] theorem State.modRes_hostCounters (s : State) (c n : Nat) (f : Res → Res) : (s.modRes c n f).hostCounters = s.hostCounters := rfl
@[simp] theorem State.modRes_bundle (s : State) (c n : Nat) (f : Res → Res) : (s.modRes c n f).bundle = s.bundle := rfl
@[simp] theorem State.modRes_started (s : State) (c n : Nat) (f : Res → Res) : (s.modRes c n f).started = s.started := rfl
@[simp] theorem State.modRes_linkKeys (s : State) (c n : Nat) (f : Res → Res) : (s.modRes c n f).linkKeys = s.linkKeys := rfl
@[simp] theorem State.modRes_loans (s : State) (c n : Nat) (f : Res → Res) : (s.modRes c n f).loans = s.loans := rfl
@[simp] theorem State.modRes_spdm (s : State) (c n : Nat) (f : Res → Res) : (s.modRes c n f).spdm = s.spdm := rfl
@[simp] theorem State.modRes_mailboxes (s : State) (c n : Nat) (f : Res → Res) : (s.modRes c n f).mailboxes = s.mailboxes := rfl
@[simp] theorem State.modRes_exDeadline (s : State) (c n : Nat) (f : Res → Res) : (s.modRes c n f).exDeadline = s.exDeadline := rfl
@[simp] theorem State.modRes_saveDeadline (s : State) (c n : Nat) (f : Res → Res) : (s.modRes c n f).saveDeadline = s.saveDeadline := rfl
@[simp] theorem State.modRes_exHeaders (s : State) (c n : Nat) (f : Res → Res) : (s.modRes c n f).exHeaders = s.exHeaders := rfl
@[simp] theorem State.modRes_exRefused (s : State) (c n : Nat) (f : Res → Res) : (s.modRes c n f).exRefused = s.exRefused := rfl
@[simp] theorem State.modRes_exSent (s : State) (c n : Nat) (f : Res → Res) : (s.modRes c n f).exSent = s.exSent := rfl
@[simp] theorem State.modRes_mem (s : State) (c n : Nat) (f : Res → Res) : (s.modRes c n f).mem = s.mem := rfl
@[simp] theorem State.modRes_l2peer (s : State) (c n : Nat) (f : Res → Res) : (s.modRes c n f).l2peer = s.l2peer := rfl
@[simp] theorem State.modRes_rsts (s : State) (c n : Nat) (f : Res → Res) : (s.modRes c n f).rsts = s.rsts := rfl
@[simp] theorem State.modRes_ramps (s : State) (c n : Nat) (f : Res → Res) : (s.modRes c n f).ramps = s.ramps := rfl
@[simp] theorem State.modRes_fields (s : State) (c n : Nat) (f : Res → Res) : (s.modRes c n f).fields = s.fields := rfl
@[simp] theorem State.modRes_ctxs (s : State) (c n : Nat) (f : Res → Res) : (s.modRes c n f).ctxs = s.ctxs := rfl
@[simp] theorem State.modRes_launches (s : State) (c n : Nat) (f : Res → Res) : (s.modRes c n f).launches = s.launches := rfl
@[simp] theorem State.modRes_teams (s : State) (c n : Nat) (f : Res → Res) : (s.modRes c n f).teams = s.teams := rfl
@[simp] theorem State.modRes_sheaves (s : State) (c n : Nat) (f : Res → Res) : (s.modRes c n f).sheaves = s.sheaves := rfl
@[simp] theorem State.modRes_jobs (s : State) (c n : Nat) (f : Res → Res) : (s.modRes c n f).jobs = s.jobs := rfl
@[simp] theorem State.modRes_inputs (s : State) (c n : Nat) (f : Res → Res) : (s.modRes c n f).inputs = s.inputs := rfl
@[simp] theorem State.modRes_agenda (s : State) (c n : Nat) (f : Res → Res) : (s.modRes c n f).agenda = s.agenda := rfl
@[simp] theorem State.modRes_choices (s : State) (c n : Nat) (f : Res → Res) : (s.modRes c n f).choices = s.choices := rfl
@[simp] theorem State.modRes_cur (s : State) (c n : Nat) (f : Res → Res) : (s.modRes c n f).cur = s.cur := rfl
@[simp] theorem State.modRes_nextId (s : State) (c n : Nat) (f : Res → Res) : (s.modRes c n f).nextId = s.nextId := rfl

/-! ### modMe -/

@[simp] theorem State.modMe_cycle (s : State) (f : Sheaf → Sheaf) : (s.modMe f).cycle = s.cycle := by unfold State.modMe; split <;> rfl
@[simp] theorem State.modMe_time (s : State) (f : Sheaf → Sheaf) : (s.modMe f).time = s.time := by unfold State.modMe; split <;> rfl
@[simp] theorem State.modMe_msSeen (s : State) (f : Sheaf → Sheaf) : (s.modMe f).msSeen = s.msSeen := by unfold State.modMe; split <;> rfl
@[simp] theorem State.modMe_errsNow (s : State) (f : Sheaf → Sheaf) : (s.modMe f).errsNow = s.errsNow := by unfold State.modMe; split <;> rfl
@[simp] theorem State.modMe_answers (s : State) (f : Sheaf → Sheaf) : (s.modMe f).answers = s.answers := by unfold State.modMe; split <;> rfl
@[simp] theorem State.modMe_ticket (s : State) (f : Sheaf → Sheaf) : (s.modMe f).ticket = s.ticket := by unfold State.modMe; split <;> rfl
@[simp] theorem State.modMe_seqQ (s : State) (f : Sheaf → Sheaf) : (s.modMe f).seqQ = s.seqQ := by unfold State.modMe; split <;> rfl
@[simp] theorem State.modMe_device (s : State) (f : Sheaf → Sheaf) : (s.modMe f).device = s.device := by unfold State.modMe; split <;> rfl
@[simp] theorem State.modMe_fwstep (s : State) (f : Sheaf → Sheaf) : (s.modMe f).fwstep = s.fwstep := by unfold State.modMe; split <;> rfl
@[simp] theorem State.modMe_trip (s : State) (f : Sheaf → Sheaf) : (s.modMe f).trip = s.trip := by unfold State.modMe; split <;> rfl
@[simp] theorem State.modMe_cap (s : State) (f : Sheaf → Sheaf) : (s.modMe f).cap = s.cap := by unfold State.modMe; split <;> rfl
@[simp] theorem State.modMe_fwerr (s : State) (f : Sheaf → Sheaf) : (s.modMe f).fwerr = s.fwerr := by unfold State.modMe; split <;> rfl
@[simp] theorem State.modMe_ready (s : State) (f : Sheaf → Sheaf) : (s.modMe f).ready = s.ready := by unfold State.modMe; split <;> rfl
@[simp] theorem State.modMe_subReg (s : State) (f : Sheaf → Sheaf) : (s.modMe f).subReg = s.subReg := by unfold State.modMe; split <;> rfl
@[simp] theorem State.modMe_hostErrBase (s : State) (f : Sheaf → Sheaf) : (s.modMe f).hostErrBase = s.hostErrBase := by unfold State.modMe; split <;> rfl
@[simp] theorem State.modMe_hostErrHead (s : State) (f : Sheaf → Sheaf) : (s.modMe f).hostErrHead = s.hostErrHead := by unfold State.modMe; split <;> rfl
@[simp] theorem State.modMe_hostErrWrite (s : State) (f : Sheaf → Sheaf) : (s.modMe f).hostErrWrite = s.hostErrWrite := by unfold State.modMe; split <;> rfl
@[simp] theorem State.modMe_hostErrLost (s : State) (f : Sheaf → Sheaf) : (s.modMe f).hostErrLost = s.hostErrLost := by unfold State.modMe; split <;> rfl
@[simp] theorem State.modMe_msix (s : State) (f : Sheaf → Sheaf) : (s.modMe f).msix = s.msix := by unfold State.modMe; split <;> rfl
@[simp] theorem State.modMe_ctxVector (s : State) (f : Sheaf → Sheaf) : (s.modMe f).ctxVector = s.ctxVector := by unfold State.modMe; split <;> rfl
@[simp] theorem State.modMe_wordVector (s : State) (f : Sheaf → Sheaf) : (s.modMe f).wordVector = s.wordVector := by unfold State.modMe; split <;> rfl
@[simp] theorem State.modMe_sysCtx (s : State) (f : Sheaf → Sheaf) : (s.modMe f).sysCtx = s.sysCtx := by unfold State.modMe; split <;> rfl
@[simp] theorem State.modMe_queues (s : State) (f : Sheaf → Sheaf) : (s.modMe f).queues = s.queues := by unfold State.modMe; split <;> rfl
@[simp] theorem State.modMe_decoders (s : State) (f : Sheaf → Sheaf) : (s.modMe f).decoders = s.decoders := by unfold State.modMe; split <;> rfl
@[simp] theorem State.modMe_poison (s : State) (f : Sheaf → Sheaf) : (s.modMe f).poison = s.poison := by unfold State.modMe; split <;> rfl
@[simp] theorem State.modMe_fenced (s : State) (f : Sheaf → Sheaf) : (s.modMe f).fenced = s.fenced := by unfold State.modMe; split <;> rfl
@[simp] theorem State.modMe_linksUp (s : State) (f : Sheaf → Sheaf) : (s.modMe f).linksUp = s.linksUp := by unfold State.modMe; split <;> rfl
@[simp] theorem State.modMe_peersDown (s : State) (f : Sheaf → Sheaf) : (s.modMe f).peersDown = s.peersDown := by unfold State.modMe; split <;> rfl
@[simp] theorem State.modMe_clockMHz (s : State) (f : Sheaf → Sheaf) : (s.modMe f).clockMHz = s.clockMHz := by unfold State.modMe; split <;> rfl
@[simp] theorem State.modMe_clockSet (s : State) (f : Sheaf → Sheaf) : (s.modMe f).clockSet = s.clockSet := by unfold State.modMe; split <;> rfl
@[simp] theorem State.modMe_capW (s : State) (f : Sheaf → Sheaf) : (s.modMe f).capW = s.capW := by unfold State.modMe; split <;> rfl
@[simp] theorem State.modMe_rollback (s : State) (f : Sheaf → Sheaf) : (s.modMe f).rollback = s.rollback := by unfold State.modMe; split <;> rfl
@[simp] theorem State.modMe_peerFaults (s : State) (f : Sheaf → Sheaf) : (s.modMe f).peerFaults = s.peerFaults := by unfold State.modMe; split <;> rfl
@[simp] theorem State.modMe_removed (s : State) (f : Sheaf → Sheaf) : (s.modMe f).removed = s.removed := by unfold State.modMe; split <;> rfl
@[simp] theorem State.modMe_retired (s : State) (f : Sheaf → Sheaf) : (s.modMe f).retired = s.retired := by unfold State.modMe; split <;> rfl
@[simp] theorem State.modMe_acks (s : State) (f : Sheaf → Sheaf) : (s.modMe f).acks = s.acks := by unfold State.modMe; split <;> rfl
@[simp] theorem State.modMe_keyHash (s : State) (f : Sheaf → Sheaf) : (s.modMe f).keyHash = s.keyHash := by unfold State.modMe; split <;> rfl
@[simp] theorem State.modMe_idSecret (s : State) (f : Sheaf → Sheaf) : (s.modMe f).idSecret = s.idSecret := by unfold State.modMe; split <;> rfl
@[simp] theorem State.modMe_certificate (s : State) (f : Sheaf → Sheaf) : (s.modMe f).certificate = s.certificate := by unfold State.modMe; split <;> rfl
@[simp] theorem State.modMe_calibration (s : State) (f : Sheaf → Sheaf) : (s.modMe f).calibration = s.calibration := by unfold State.modMe; split <;> rfl
@[simp] theorem State.modMe_hostCounters (s : State) (f : Sheaf → Sheaf) : (s.modMe f).hostCounters = s.hostCounters := by unfold State.modMe; split <;> rfl
@[simp] theorem State.modMe_bundle (s : State) (f : Sheaf → Sheaf) : (s.modMe f).bundle = s.bundle := by unfold State.modMe; split <;> rfl
@[simp] theorem State.modMe_started (s : State) (f : Sheaf → Sheaf) : (s.modMe f).started = s.started := by unfold State.modMe; split <;> rfl
@[simp] theorem State.modMe_linkKeys (s : State) (f : Sheaf → Sheaf) : (s.modMe f).linkKeys = s.linkKeys := by unfold State.modMe; split <;> rfl
@[simp] theorem State.modMe_loans (s : State) (f : Sheaf → Sheaf) : (s.modMe f).loans = s.loans := by unfold State.modMe; split <;> rfl
@[simp] theorem State.modMe_spdm (s : State) (f : Sheaf → Sheaf) : (s.modMe f).spdm = s.spdm := by unfold State.modMe; split <;> rfl
@[simp] theorem State.modMe_mailboxes (s : State) (f : Sheaf → Sheaf) : (s.modMe f).mailboxes = s.mailboxes := by unfold State.modMe; split <;> rfl
@[simp] theorem State.modMe_exDeadline (s : State) (f : Sheaf → Sheaf) : (s.modMe f).exDeadline = s.exDeadline := by unfold State.modMe; split <;> rfl
@[simp] theorem State.modMe_saveDeadline (s : State) (f : Sheaf → Sheaf) : (s.modMe f).saveDeadline = s.saveDeadline := by unfold State.modMe; split <;> rfl
@[simp] theorem State.modMe_exHeaders (s : State) (f : Sheaf → Sheaf) : (s.modMe f).exHeaders = s.exHeaders := by unfold State.modMe; split <;> rfl
@[simp] theorem State.modMe_exRefused (s : State) (f : Sheaf → Sheaf) : (s.modMe f).exRefused = s.exRefused := by unfold State.modMe; split <;> rfl
@[simp] theorem State.modMe_exSent (s : State) (f : Sheaf → Sheaf) : (s.modMe f).exSent = s.exSent := by unfold State.modMe; split <;> rfl
@[simp] theorem State.modMe_mem (s : State) (f : Sheaf → Sheaf) : (s.modMe f).mem = s.mem := by unfold State.modMe; split <;> rfl
@[simp] theorem State.modMe_l2peer (s : State) (f : Sheaf → Sheaf) : (s.modMe f).l2peer = s.l2peer := by unfold State.modMe; split <;> rfl
@[simp] theorem State.modMe_rsts (s : State) (f : Sheaf → Sheaf) : (s.modMe f).rsts = s.rsts := by unfold State.modMe; split <;> rfl
@[simp] theorem State.modMe_ramps (s : State) (f : Sheaf → Sheaf) : (s.modMe f).ramps = s.ramps := by unfold State.modMe; split <;> rfl
@[simp] theorem State.modMe_fields (s : State) (f : Sheaf → Sheaf) : (s.modMe f).fields = s.fields := by unfold State.modMe; split <;> rfl
@[simp] theorem State.modMe_cores (s : State) (f : Sheaf → Sheaf) : (s.modMe f).cores = s.cores := by unfold State.modMe; split <;> rfl
@[simp] theorem State.modMe_ctxs (s : State) (f : Sheaf → Sheaf) : (s.modMe f).ctxs = s.ctxs := by unfold State.modMe; split <;> rfl
@[simp] theorem State.modMe_launches (s : State) (f : Sheaf → Sheaf) : (s.modMe f).launches = s.launches := by unfold State.modMe; split <;> rfl
@[simp] theorem State.modMe_teams (s : State) (f : Sheaf → Sheaf) : (s.modMe f).teams = s.teams := by unfold State.modMe; split <;> rfl
@[simp] theorem State.modMe_jobs (s : State) (f : Sheaf → Sheaf) : (s.modMe f).jobs = s.jobs := by unfold State.modMe; split <;> rfl
@[simp] theorem State.modMe_inputs (s : State) (f : Sheaf → Sheaf) : (s.modMe f).inputs = s.inputs := by unfold State.modMe; split <;> rfl
@[simp] theorem State.modMe_agenda (s : State) (f : Sheaf → Sheaf) : (s.modMe f).agenda = s.agenda := by unfold State.modMe; split <;> rfl
@[simp] theorem State.modMe_choices (s : State) (f : Sheaf → Sheaf) : (s.modMe f).choices = s.choices := by unfold State.modMe; split <;> rfl
@[simp] theorem State.modMe_cur (s : State) (f : Sheaf → Sheaf) : (s.modMe f).cur = s.cur := by unfold State.modMe; split <;> rfl
@[simp] theorem State.modMe_nextId (s : State) (f : Sheaf → Sheaf) : (s.modMe f).nextId = s.nextId := by unfold State.modMe; split <;> rfl

/-! ### sset -/

@[simp] theorem Sheaf.sset_id (h : Sheaf) (d : Nat) (x : Dword) : (h.sset d x).id = h.id := rfl
@[simp] theorem Sheaf.sset_launch (h : Sheaf) (d : Nat) (x : Dword) : (h.sset d x).launch = h.launch := rfl
@[simp] theorem Sheaf.sset_number (h : Sheaf) (d : Nat) (x : Dword) : (h.sset d x).number = h.number := rfl
@[simp] theorem Sheaf.sset_ctx (h : Sheaf) (d : Nat) (x : Dword) : (h.sset d x).ctx = h.ctx := rfl
@[simp] theorem Sheaf.sset_task (h : Sheaf) (d : Nat) (x : Dword) : (h.sset d x).task = h.task := rfl
@[simp] theorem Sheaf.sset_born (h : Sheaf) (d : Nat) (x : Dword) : (h.sset d x).born = h.born := rfl
@[simp] theorem Sheaf.sset_parent (h : Sheaf) (d : Nat) (x : Dword) : (h.sset d x).parent = h.parent := rfl
@[simp] theorem Sheaf.sset_inlineChild (h : Sheaf) (d : Nat) (x : Dword) : (h.sset d x).inlineChild = h.inlineChild := rfl
@[simp] theorem Sheaf.sset_place (h : Sheaf) (d : Nat) (x : Dword) : (h.sset d x).place = h.place := rfl
@[simp] theorem Sheaf.sset_core (h : Sheaf) (d : Nat) (x : Dword) : (h.sset d x).core = h.core := rfl
@[simp] theorem Sheaf.sset_slot (h : Sheaf) (d : Nat) (x : Dword) : (h.sset d x).slot = h.slot := rfl
@[simp] theorem Sheaf.sset_since (h : Sheaf) (d : Nat) (x : Dword) : (h.sset d x).since = h.since := rfl
@[simp] theorem Sheaf.sset_favouredOld (h : Sheaf) (d : Nat) (x : Dword) : (h.sset d x).favouredOld = h.favouredOld := rfl
@[simp] theorem Sheaf.sset_blocked (h : Sheaf) (d : Nat) (x : Dword) : (h.sset d x).blocked = h.blocked := rfl
@[simp] theorem Sheaf.sset_carrySet (h : Sheaf) (d : Nat) (x : Dword) : (h.sset d x).carrySet = h.carrySet := rfl
@[simp] theorem Sheaf.sset_lanes (h : Sheaf) (d : Nat) (x : Dword) : (h.sset d x).lanes = h.lanes := rfl
@[simp] theorem Sheaf.sset_exited (h : Sheaf) (d : Nat) (x : Dword) : (h.sset d x).exited = h.exited := rfl
@[simp] theorem Sheaf.sset_yielded (h : Sheaf) (d : Nat) (x : Dword) : (h.sset d x).yielded = h.yielded := rfl
@[simp] theorem Sheaf.sset_favoured (h : Sheaf) (d : Nat) (x : Dword) : (h.sset d x).favoured = h.favoured := rfl
@[simp] theorem Sheaf.sset_stalled (h : Sheaf) (d : Nat) (x : Dword) : (h.sset d x).stalled = h.stalled := rfl
@[simp] theorem Sheaf.sset_v (h : Sheaf) (d : Nat) (x : Dword) : (h.sset d x).v = h.v := rfl
@[simp] theorem Sheaf.sset_p (h : Sheaf) (d : Nat) (x : Dword) : (h.sset d x).p = h.p := rfl
@[simp] theorem Sheaf.sset_wb (h : Sheaf) (d : Nat) (x : Dword) : (h.sset d x).wb = h.wb := rfl
@[simp] theorem Sheaf.sset_budget (h : Sheaf) (d : Nat) (x : Dword) : (h.sset d x).budget = h.budget := rfl
@[simp] theorem Sheaf.sset_rev (h : Sheaf) (d : Nat) (x : Dword) : (h.sset d x).rev = h.rev := rfl
@[simp] theorem Sheaf.sset_ctrl (h : Sheaf) (d : Nat) (x : Dword) : (h.sset d x).ctrl = h.ctrl := rfl
@[simp] theorem Sheaf.sset_flags (h : Sheaf) (d : Nat) (x : Dword) : (h.sset d x).flags = h.flags := rfl
@[simp] theorem Sheaf.sset_raised (h : Sheaf) (d : Nat) (x : Dword) : (h.sset d x).raised = h.raised := rfl
@[simp] theorem Sheaf.sset_tl (h : Sheaf) (d : Nat) (x : Dword) : (h.sset d x).tl = h.tl := rfl
@[simp] theorem Sheaf.sset_trap (h : Sheaf) (d : Nat) (x : Dword) : (h.sset d x).trap = h.trap := rfl
@[simp] theorem Sheaf.sset_outer (h : Sheaf) (d : Nat) (x : Dword) : (h.sset d x).outer = h.outer := rfl
@[simp] theorem Sheaf.sset_nleft (h : Sheaf) (d : Nat) (x : Dword) : (h.sset d x).nleft = h.nleft := rfl
@[simp] theorem Sheaf.sset_noticeOut (h : Sheaf) (d : Nat) (x : Dword) : (h.sset d x).noticeOut = h.noticeOut := rfl
@[simp] theorem Sheaf.sset_noticePending (h : Sheaf) (d : Nat) (x : Dword) : (h.sset d x).noticePending = h.noticePending := rfl
@[simp] theorem Sheaf.sset_expandPending (h : Sheaf) (d : Nat) (x : Dword) : (h.sset d x).expandPending = h.expandPending := rfl
@[simp] theorem Sheaf.sset_slots (h : Sheaf) (d : Nat) (x : Dword) : (h.sset d x).slots = h.slots := rfl
@[simp] theorem Sheaf.sset_forkSeq (h : Sheaf) (d : Nat) (x : Dword) : (h.sset d x).forkSeq = h.forkSeq := rfl
@[simp] theorem Sheaf.sset_children (h : Sheaf) (d : Nat) (x : Dword) : (h.sset d x).children = h.children := rfl
@[simp] theorem Sheaf.sset_waits (h : Sheaf) (d : Nat) (x : Dword) : (h.sset d x).waits = h.waits := rfl
@[simp] theorem Sheaf.sset_pend (h : Sheaf) (d : Nat) (x : Dword) : (h.sset d x).pend = h.pend := rfl
@[simp] theorem Sheaf.sset_replay (h : Sheaf) (d : Nat) (x : Dword) : (h.sset d x).replay = h.replay := rfl
@[simp] theorem Sheaf.sset_outerReplay (h : Sheaf) (d : Nat) (x : Dword) : (h.sset d x).outerReplay = h.outerReplay := rfl
@[simp] theorem Sheaf.sset_watchSkip (h : Sheaf) (d : Nat) (x : Dword) : (h.sset d x).watchSkip = h.watchSkip := rfl
@[simp] theorem Sheaf.sset_skips (h : Sheaf) (d : Nat) (x : Dword) : (h.sset d x).skips = h.skips := rfl
@[simp] theorem Sheaf.sset_starve (h : Sheaf) (d : Nat) (x : Dword) : (h.sset d x).starve = h.starve := rfl
@[simp] theorem Sheaf.sset_issued (h : Sheaf) (d : Nat) (x : Dword) : (h.sset d x).issued = h.issued := rfl
@[simp] theorem Sheaf.sset_slice (h : Sheaf) (d : Nat) (x : Dword) : (h.sset d x).slice = h.slice := rfl
@[simp] theorem Sheaf.sset_sliceReloc (h : Sheaf) (d : Nat) (x : Dword) : (h.sset d x).sliceReloc = h.sliceReloc := rfl
@[simp] theorem Sheaf.sset_loopBuf (h : Sheaf) (d : Nat) (x : Dword) : (h.sset d x).loopBuf = h.loopBuf := rfl
@[simp] theorem Sheaf.sset_ending (h : Sheaf) (d : Nat) (x : Dword) : (h.sset d x).ending = h.ending := rfl
@[simp] theorem Sheaf.sset_peerDirty (h : Sheaf) (d : Nat) (x : Dword) : (h.sset d x).peerDirty = h.peerDirty := rfl

/-! ### vset -/

@[simp] theorem Sheaf.vset_id (h : Sheaf) (l d : Nat) (x : Word) : (h.vset l d x).id = h.id := rfl
@[simp] theorem Sheaf.vset_launch (h : Sheaf) (l d : Nat) (x : Word) : (h.vset l d x).launch = h.launch := rfl
@[simp] theorem Sheaf.vset_number (h : Sheaf) (l d : Nat) (x : Word) : (h.vset l d x).number = h.number := rfl
@[simp] theorem Sheaf.vset_ctx (h : Sheaf) (l d : Nat) (x : Word) : (h.vset l d x).ctx = h.ctx := rfl
@[simp] theorem Sheaf.vset_task (h : Sheaf) (l d : Nat) (x : Word) : (h.vset l d x).task = h.task := rfl
@[simp] theorem Sheaf.vset_born (h : Sheaf) (l d : Nat) (x : Word) : (h.vset l d x).born = h.born := rfl
@[simp] theorem Sheaf.vset_parent (h : Sheaf) (l d : Nat) (x : Word) : (h.vset l d x).parent = h.parent := rfl
@[simp] theorem Sheaf.vset_inlineChild (h : Sheaf) (l d : Nat) (x : Word) : (h.vset l d x).inlineChild = h.inlineChild := rfl
@[simp] theorem Sheaf.vset_place (h : Sheaf) (l d : Nat) (x : Word) : (h.vset l d x).place = h.place := rfl
@[simp] theorem Sheaf.vset_core (h : Sheaf) (l d : Nat) (x : Word) : (h.vset l d x).core = h.core := rfl
@[simp] theorem Sheaf.vset_slot (h : Sheaf) (l d : Nat) (x : Word) : (h.vset l d x).slot = h.slot := rfl
@[simp] theorem Sheaf.vset_since (h : Sheaf) (l d : Nat) (x : Word) : (h.vset l d x).since = h.since := rfl
@[simp] theorem Sheaf.vset_favouredOld (h : Sheaf) (l d : Nat) (x : Word) : (h.vset l d x).favouredOld = h.favouredOld := rfl
@[simp] theorem Sheaf.vset_blocked (h : Sheaf) (l d : Nat) (x : Word) : (h.vset l d x).blocked = h.blocked := rfl
@[simp] theorem Sheaf.vset_carrySet (h : Sheaf) (l d : Nat) (x : Word) : (h.vset l d x).carrySet = h.carrySet := rfl
@[simp] theorem Sheaf.vset_lanes (h : Sheaf) (l d : Nat) (x : Word) : (h.vset l d x).lanes = h.lanes := rfl
@[simp] theorem Sheaf.vset_exited (h : Sheaf) (l d : Nat) (x : Word) : (h.vset l d x).exited = h.exited := rfl
@[simp] theorem Sheaf.vset_yielded (h : Sheaf) (l d : Nat) (x : Word) : (h.vset l d x).yielded = h.yielded := rfl
@[simp] theorem Sheaf.vset_favoured (h : Sheaf) (l d : Nat) (x : Word) : (h.vset l d x).favoured = h.favoured := rfl
@[simp] theorem Sheaf.vset_stalled (h : Sheaf) (l d : Nat) (x : Word) : (h.vset l d x).stalled = h.stalled := rfl
@[simp] theorem Sheaf.vset_s (h : Sheaf) (l d : Nat) (x : Word) : (h.vset l d x).s = h.s := rfl
@[simp] theorem Sheaf.vset_p (h : Sheaf) (l d : Nat) (x : Word) : (h.vset l d x).p = h.p := rfl
@[simp] theorem Sheaf.vset_wb (h : Sheaf) (l d : Nat) (x : Word) : (h.vset l d x).wb = h.wb := rfl
@[simp] theorem Sheaf.vset_budget (h : Sheaf) (l d : Nat) (x : Word) : (h.vset l d x).budget = h.budget := rfl
@[simp] theorem Sheaf.vset_rev (h : Sheaf) (l d : Nat) (x : Word) : (h.vset l d x).rev = h.rev := rfl
@[simp] theorem Sheaf.vset_ctrl (h : Sheaf) (l d : Nat) (x : Word) : (h.vset l d x).ctrl = h.ctrl := rfl
@[simp] theorem Sheaf.vset_flags (h : Sheaf) (l d : Nat) (x : Word) : (h.vset l d x).flags = h.flags := rfl
@[simp] theorem Sheaf.vset_raised (h : Sheaf) (l d : Nat) (x : Word) : (h.vset l d x).raised = h.raised := rfl
@[simp] theorem Sheaf.vset_tl (h : Sheaf) (l d : Nat) (x : Word) : (h.vset l d x).tl = h.tl := rfl
@[simp] theorem Sheaf.vset_trap (h : Sheaf) (l d : Nat) (x : Word) : (h.vset l d x).trap = h.trap := rfl
@[simp] theorem Sheaf.vset_outer (h : Sheaf) (l d : Nat) (x : Word) : (h.vset l d x).outer = h.outer := rfl
@[simp] theorem Sheaf.vset_nleft (h : Sheaf) (l d : Nat) (x : Word) : (h.vset l d x).nleft = h.nleft := rfl
@[simp] theorem Sheaf.vset_noticeOut (h : Sheaf) (l d : Nat) (x : Word) : (h.vset l d x).noticeOut = h.noticeOut := rfl
@[simp] theorem Sheaf.vset_noticePending (h : Sheaf) (l d : Nat) (x : Word) : (h.vset l d x).noticePending = h.noticePending := rfl
@[simp] theorem Sheaf.vset_expandPending (h : Sheaf) (l d : Nat) (x : Word) : (h.vset l d x).expandPending = h.expandPending := rfl
@[simp] theorem Sheaf.vset_slots (h : Sheaf) (l d : Nat) (x : Word) : (h.vset l d x).slots = h.slots := rfl
@[simp] theorem Sheaf.vset_forkSeq (h : Sheaf) (l d : Nat) (x : Word) : (h.vset l d x).forkSeq = h.forkSeq := rfl
@[simp] theorem Sheaf.vset_children (h : Sheaf) (l d : Nat) (x : Word) : (h.vset l d x).children = h.children := rfl
@[simp] theorem Sheaf.vset_waits (h : Sheaf) (l d : Nat) (x : Word) : (h.vset l d x).waits = h.waits := rfl
@[simp] theorem Sheaf.vset_pend (h : Sheaf) (l d : Nat) (x : Word) : (h.vset l d x).pend = h.pend := rfl
@[simp] theorem Sheaf.vset_replay (h : Sheaf) (l d : Nat) (x : Word) : (h.vset l d x).replay = h.replay := rfl
@[simp] theorem Sheaf.vset_outerReplay (h : Sheaf) (l d : Nat) (x : Word) : (h.vset l d x).outerReplay = h.outerReplay := rfl
@[simp] theorem Sheaf.vset_watchSkip (h : Sheaf) (l d : Nat) (x : Word) : (h.vset l d x).watchSkip = h.watchSkip := rfl
@[simp] theorem Sheaf.vset_skips (h : Sheaf) (l d : Nat) (x : Word) : (h.vset l d x).skips = h.skips := rfl
@[simp] theorem Sheaf.vset_starve (h : Sheaf) (l d : Nat) (x : Word) : (h.vset l d x).starve = h.starve := rfl
@[simp] theorem Sheaf.vset_issued (h : Sheaf) (l d : Nat) (x : Word) : (h.vset l d x).issued = h.issued := rfl
@[simp] theorem Sheaf.vset_slice (h : Sheaf) (l d : Nat) (x : Word) : (h.vset l d x).slice = h.slice := rfl
@[simp] theorem Sheaf.vset_sliceReloc (h : Sheaf) (l d : Nat) (x : Word) : (h.vset l d x).sliceReloc = h.sliceReloc := rfl
@[simp] theorem Sheaf.vset_loopBuf (h : Sheaf) (l d : Nat) (x : Word) : (h.vset l d x).loopBuf = h.loopBuf := rfl
@[simp] theorem Sheaf.vset_ending (h : Sheaf) (l d : Nat) (x : Word) : (h.vset l d x).ending = h.ending := rfl
@[simp] theorem Sheaf.vset_peerDirty (h : Sheaf) (l d : Nat) (x : Word) : (h.vset l d x).peerDirty = h.peerDirty := rfl

/-! ### psetBit -/

@[simp] theorem Sheaf.psetBit_id (h : Sheaf) (d l : Nat) (x : Bool) : (h.psetBit d l x).id = h.id := rfl
@[simp] theorem Sheaf.psetBit_launch (h : Sheaf) (d l : Nat) (x : Bool) : (h.psetBit d l x).launch = h.launch := rfl
@[simp] theorem Sheaf.psetBit_number (h : Sheaf) (d l : Nat) (x : Bool) : (h.psetBit d l x).number = h.number := rfl
@[simp] theorem Sheaf.psetBit_ctx (h : Sheaf) (d l : Nat) (x : Bool) : (h.psetBit d l x).ctx = h.ctx := rfl
@[simp] theorem Sheaf.psetBit_task (h : Sheaf) (d l : Nat) (x : Bool) : (h.psetBit d l x).task = h.task := rfl
@[simp] theorem Sheaf.psetBit_born (h : Sheaf) (d l : Nat) (x : Bool) : (h.psetBit d l x).born = h.born := rfl
@[simp] theorem Sheaf.psetBit_parent (h : Sheaf) (d l : Nat) (x : Bool) : (h.psetBit d l x).parent = h.parent := rfl
@[simp] theorem Sheaf.psetBit_inlineChild (h : Sheaf) (d l : Nat) (x : Bool) : (h.psetBit d l x).inlineChild = h.inlineChild := rfl
@[simp] theorem Sheaf.psetBit_place (h : Sheaf) (d l : Nat) (x : Bool) : (h.psetBit d l x).place = h.place := rfl
@[simp] theorem Sheaf.psetBit_core (h : Sheaf) (d l : Nat) (x : Bool) : (h.psetBit d l x).core = h.core := rfl
@[simp] theorem Sheaf.psetBit_slot (h : Sheaf) (d l : Nat) (x : Bool) : (h.psetBit d l x).slot = h.slot := rfl
@[simp] theorem Sheaf.psetBit_since (h : Sheaf) (d l : Nat) (x : Bool) : (h.psetBit d l x).since = h.since := rfl
@[simp] theorem Sheaf.psetBit_favouredOld (h : Sheaf) (d l : Nat) (x : Bool) : (h.psetBit d l x).favouredOld = h.favouredOld := rfl
@[simp] theorem Sheaf.psetBit_blocked (h : Sheaf) (d l : Nat) (x : Bool) : (h.psetBit d l x).blocked = h.blocked := rfl
@[simp] theorem Sheaf.psetBit_carrySet (h : Sheaf) (d l : Nat) (x : Bool) : (h.psetBit d l x).carrySet = h.carrySet := rfl
@[simp] theorem Sheaf.psetBit_lanes (h : Sheaf) (d l : Nat) (x : Bool) : (h.psetBit d l x).lanes = h.lanes := rfl
@[simp] theorem Sheaf.psetBit_exited (h : Sheaf) (d l : Nat) (x : Bool) : (h.psetBit d l x).exited = h.exited := rfl
@[simp] theorem Sheaf.psetBit_yielded (h : Sheaf) (d l : Nat) (x : Bool) : (h.psetBit d l x).yielded = h.yielded := rfl
@[simp] theorem Sheaf.psetBit_favoured (h : Sheaf) (d l : Nat) (x : Bool) : (h.psetBit d l x).favoured = h.favoured := rfl
@[simp] theorem Sheaf.psetBit_stalled (h : Sheaf) (d l : Nat) (x : Bool) : (h.psetBit d l x).stalled = h.stalled := rfl
@[simp] theorem Sheaf.psetBit_s (h : Sheaf) (d l : Nat) (x : Bool) : (h.psetBit d l x).s = h.s := rfl
@[simp] theorem Sheaf.psetBit_v (h : Sheaf) (d l : Nat) (x : Bool) : (h.psetBit d l x).v = h.v := rfl
@[simp] theorem Sheaf.psetBit_wb (h : Sheaf) (d l : Nat) (x : Bool) : (h.psetBit d l x).wb = h.wb := rfl
@[simp] theorem Sheaf.psetBit_budget (h : Sheaf) (d l : Nat) (x : Bool) : (h.psetBit d l x).budget = h.budget := rfl
@[simp] theorem Sheaf.psetBit_rev (h : Sheaf) (d l : Nat) (x : Bool) : (h.psetBit d l x).rev = h.rev := rfl
@[simp] theorem Sheaf.psetBit_ctrl (h : Sheaf) (d l : Nat) (x : Bool) : (h.psetBit d l x).ctrl = h.ctrl := rfl
@[simp] theorem Sheaf.psetBit_flags (h : Sheaf) (d l : Nat) (x : Bool) : (h.psetBit d l x).flags = h.flags := rfl
@[simp] theorem Sheaf.psetBit_raised (h : Sheaf) (d l : Nat) (x : Bool) : (h.psetBit d l x).raised = h.raised := rfl
@[simp] theorem Sheaf.psetBit_tl (h : Sheaf) (d l : Nat) (x : Bool) : (h.psetBit d l x).tl = h.tl := rfl
@[simp] theorem Sheaf.psetBit_trap (h : Sheaf) (d l : Nat) (x : Bool) : (h.psetBit d l x).trap = h.trap := rfl
@[simp] theorem Sheaf.psetBit_outer (h : Sheaf) (d l : Nat) (x : Bool) : (h.psetBit d l x).outer = h.outer := rfl
@[simp] theorem Sheaf.psetBit_nleft (h : Sheaf) (d l : Nat) (x : Bool) : (h.psetBit d l x).nleft = h.nleft := rfl
@[simp] theorem Sheaf.psetBit_noticeOut (h : Sheaf) (d l : Nat) (x : Bool) : (h.psetBit d l x).noticeOut = h.noticeOut := rfl
@[simp] theorem Sheaf.psetBit_noticePending (h : Sheaf) (d l : Nat) (x : Bool) : (h.psetBit d l x).noticePending = h.noticePending := rfl
@[simp] theorem Sheaf.psetBit_expandPending (h : Sheaf) (d l : Nat) (x : Bool) : (h.psetBit d l x).expandPending = h.expandPending := rfl
@[simp] theorem Sheaf.psetBit_slots (h : Sheaf) (d l : Nat) (x : Bool) : (h.psetBit d l x).slots = h.slots := rfl
@[simp] theorem Sheaf.psetBit_forkSeq (h : Sheaf) (d l : Nat) (x : Bool) : (h.psetBit d l x).forkSeq = h.forkSeq := rfl
@[simp] theorem Sheaf.psetBit_children (h : Sheaf) (d l : Nat) (x : Bool) : (h.psetBit d l x).children = h.children := rfl
@[simp] theorem Sheaf.psetBit_waits (h : Sheaf) (d l : Nat) (x : Bool) : (h.psetBit d l x).waits = h.waits := rfl
@[simp] theorem Sheaf.psetBit_pend (h : Sheaf) (d l : Nat) (x : Bool) : (h.psetBit d l x).pend = h.pend := rfl
@[simp] theorem Sheaf.psetBit_replay (h : Sheaf) (d l : Nat) (x : Bool) : (h.psetBit d l x).replay = h.replay := rfl
@[simp] theorem Sheaf.psetBit_outerReplay (h : Sheaf) (d l : Nat) (x : Bool) : (h.psetBit d l x).outerReplay = h.outerReplay := rfl
@[simp] theorem Sheaf.psetBit_watchSkip (h : Sheaf) (d l : Nat) (x : Bool) : (h.psetBit d l x).watchSkip = h.watchSkip := rfl
@[simp] theorem Sheaf.psetBit_skips (h : Sheaf) (d l : Nat) (x : Bool) : (h.psetBit d l x).skips = h.skips := rfl
@[simp] theorem Sheaf.psetBit_starve (h : Sheaf) (d l : Nat) (x : Bool) : (h.psetBit d l x).starve = h.starve := rfl
@[simp] theorem Sheaf.psetBit_issued (h : Sheaf) (d l : Nat) (x : Bool) : (h.psetBit d l x).issued = h.issued := rfl
@[simp] theorem Sheaf.psetBit_slice (h : Sheaf) (d l : Nat) (x : Bool) : (h.psetBit d l x).slice = h.slice := rfl
@[simp] theorem Sheaf.psetBit_sliceReloc (h : Sheaf) (d l : Nat) (x : Bool) : (h.psetBit d l x).sliceReloc = h.sliceReloc := rfl
@[simp] theorem Sheaf.psetBit_loopBuf (h : Sheaf) (d l : Nat) (x : Bool) : (h.psetBit d l x).loopBuf = h.loopBuf := rfl
@[simp] theorem Sheaf.psetBit_ending (h : Sheaf) (d l : Nat) (x : Bool) : (h.psetBit d l x).ending = h.ending := rfl
@[simp] theorem Sheaf.psetBit_peerDirty (h : Sheaf) (d l : Nat) (x : Bool) : (h.psetBit d l x).peerDirty = h.peerDirty := rfl

end Sys2Proof.Machine
end

