-- ==== Sys2Proof/Tests/Slice0.lean ====
section
/-! SUPPORT. The model's own tests: ill-formed terms that well-formedness refuses, decoded words written out from the spec's encoding tables, single
steps on a small machine against values the spec works out, and, for every statement with hypotheses, a witness that meets them together. -/

set_option Elab.async false

open Sys2Proof Sys2Proof.Machine

/-! ### A small machine: one sheaf on core 0, one team, one cached translation -/

/-- One sheaf of launch 0, every lane at 0x1000, its team in slot 0. -/
def tSheaf : Sheaf := { loadedSheaf 1 0 0 0 with slots := [some 7, none, none, none] }
def tTeam : Team := { id := 7, launch := 0, number := 0, scope := 0, members := [0], scratch := 8192, need := 1, placed := true }
def tTlb : Tlb := ⟨0, 0, 0, barnAlias, 0x200000, true, true, true, 0x200000⟩
/-- A barn page of context 0 that it may read and write. -/
def tBarn : FieldState := { barn := [(0, 0x40C00000)] }
def tCore : Core := { res := [{ ctx := 0 }], tlb := [tTlb] }
/-- All lanes issue at 0x1000, or lane 0 alone. -/
def tIssue : Issue := ⟨1, BitVec.allOnes 64, 0x1000, 0, 0, false, none, false⟩
def tOne : Issue := { tIssue with lanes := 1 }
def tBy (i : Issue) (h : Sheaf) : State :=
  { launches := [loadedLaunch 0], sheaves := [h], teams := [tTeam], cores := [(0, tCore)], fields := [(0, tBarn)], cur := some i, nextId := 8 }
def tState : State := tBy tIssue tSheaf
def tOneState : State := tBy tOne tSheaf

theorem tBy_issuing (i : Issue) (h : Sheaf) (hi : h.id = i.sheaf) : (tBy i h).Issuing i h := by
  refine ⟨rfl, ?_⟩
  simp [State.sheaf?, tBy, hi]

theorem quiet_of_none (h : Sheaf) (r : Raised) (e : h.fpxen = 0) : Quiet h r := by simp [Quiet, e]

/-! ### Ill-formed terms, one for each check, which well-formedness refuses (R253, R254, R263, R264/12) -/

theorem test_illformed_operands : ∀ i ∈ ([.addI32Vv 128 0 0, .addI64Vv 1 0 0, .addI64Vv 128 0 0, .ldLn 2 .b128 0 (.imm 0) 0, .atomSp 2 0 .addI32 .sheaf .rlx 0,
    .atomSp 4 0 .casB32 .sheaf .rlx 0, .ldLn 0 .b32 0 (.vec 64) 0, .ldLn 0 .b32 0 (.imm 64) 0, .sadd 1 121 0, .sadd 96 0 0, .ldLn 0 .b32 16 (.imm 0) 0,
    .mmulBf16 1 0 93 0, .xlinv 0 94, .wpset 0 95 0, .pand 8 0 0, .bar 4, .twaitImm 8 0, .cwait 8 0 0 0] : List Instr), i.wellFormed = false := by
  decide +kernel

theorem test_illformed_fields : ∀ i ∈ ([.sadd 0 0 0, .loop 0 false 3 0, .loop 0 false 0 256, .wbase 8, .wbase 400, .wshift 8, .wshift 400, .selB32Vv 0 0 0 8,
    .rcpF32V 0 0 16, .shflIdx 0 0 0 4, .tredAddI32 0 0 16, .ldAc 0 .b16 0 (.imm 0) 0, .ldGlOrdered 0 0 .dev .rel .b32 0, .ldGlOrdered 0 0 .dev .rlx .b8 0,
    .stGlOrdered 0 0 .dev .acq .b32 0, .atomGl 0 1 .addI32 .dev .rlx 0, .atomGl 0 0 .addI32 .sys .sc 0, .fence .dev .rlx, .icinv .sys, .rst 0 0 .b8 0,
    .cwait 0 0 4 0, .phase 0 256, .fork 0 0 256, .mmulBf16 7 0 0 0, .mclr 1 8 0 0, .spcw 0 95, .xlinv 3 0, .wpset 4 0 0] : List Instr),
    i.wellFormed = false := by
  decide +kernel

/-! ### Words refused by name (R253/12) -/

theorem test_refused_words : decode 0x00000000 = .error .reservedWord ∧ decode 0xFFFFFFFF = .error .reservedWord ∧ decode 0x18000000 = .error .reservedMajor ∧
    decode 0x0000000F = .error .reservedFunction ∧ decode 0x0200001A = .error .reservedField ∧ decode 0x8000000E = .error .unassignedCode ∧
    decode 0x00000790 = .error .outOfRange := by
  and_intros <;> rfl

/-! ### The worked encodings of the spec (R261/12 and the ends of chapters 13 to 18) -/

theorem test_worked_scalar : decode 0x20000000 = .ok .nop ∧ decode 0x20000001 = .ok .exit ∧ decode 0x20000002 = .ok .yield ∧ decode 0x20000004 = .ok .brk ∧
    decode 0x000C0820 = .ok (.sadd 3 1 2) ∧ decode 0x02204091 = .ok (.sdivN64 8 8 9) ∧ decode 0x040817FF = .ok (.saddi 2 2 0x7FF) ∧
    decode 0x30040004 = .ok (.li 1 4) ∧ decode 0x32040000 = .ok (.sli 1 0) ∧ decode 0x340FFFFF = .ok (.vli 3 0x3FFFF) ∧
    decode 0x36101032 = .ok (.addaX4 4 2 3) ∧ decode 0x38000070 = .ok (.wbase 0x70) ∧ decode 0x3A0007F0 = .ok (.wshift 0x7F0) ∧
    decode 0x240FFFF0 = .ok (.bnz 3 0x3FFF0) ∧ decode 0x2A1C0008 = .ok (.bzv 7 8) ∧ decode 0x2C500100 = .ok (.call 20 0x100) ∧
    decode 0x2000A003 = .ok (.ret 20) ∧ decode 0x2E268003 = .ok (.loop 9 true 1 3) := by
  and_intros <;> rfl

theorem test_worked_vector : decode 0x40100820 = .ok (.addI32Vv 4 1 2) ∧ decode 0x4E201096 = .ok (.fmaF32Vs 8 2 9) ∧ decode 0x5E082871 = .ok (.cltF32Vs 2 5 7) ∧
    decode 0x64240823 = .ok (.selB32Vv 9 1 2 3) ∧ decode 0x68080831 = .ok (.exp2F32V 2 1 1) ∧ decode 0x800C1528 = .ok (.cvt 3 2 .f32 .rtz .f16) ∧
    decode 0x84183053 = .ok (.shflXor 6 6 5 0) ∧ decode 0x8A284002 = .ok (.tredAddF32 10 8 2) := by
  and_intros <;> rfl

theorem test_worked_memory : decode 0xA2153423 = .ok (.ldSp 5 .b32 6 (.imm 2) 3) ∧ decode 0xA8299070 = .ok (.ldGl 10 .b64 2 (.vec 7) 0) ∧
    decode 0xB2153420 = .ok (.stSp 5 .b32 6 (.imm 2) 0) ∧ decode 0xAC105540 = .ok (.ldGlOrdered 4 10 .dev .acq .b32 0) ∧
    decode 0xBC0C5380 = .ok (.stGlOrdered 3 10 .clus .rel .b32 0) ∧ decode 0xAE021400 = .ok (.pfGl .b128 2 (.imm 0) 0) ∧
    decode 0xBE081810 = .ok (.cctlGlWbinv 3 (.vec 1) 0) ∧ decode 0xC6202580 = .ok (.atomGl 8 0 .faddF32 .dev .sc 0) ∧
    decode 0xC0310140 = .ok (.atomSp 12 1 .addI32 .team .rel 0) ∧ decode 0xC8002803 = .ok (.fence .dev .ar) ∧ decode 0xCA001800 = .ok (.icinv .clus) ∧
    decode 0xD0002001 = .ok (.cpy 0 4 1) ∧ decode 0xE0082A06 = .ok (.cwait 2 5 1 0) := by
  and_intros <;> rfl

theorem test_worked_tasks : decode 0xE0040000 = .ok (.bar 1) ∧ decode 0xE0043810 = .ok (.barWait 1 7) ∧ decode 0xE0100801 = .ok (.arrive 4 1) ∧
    decode 0xE0004802 = .ok (.bexp 0 9) ∧ decode 0xE0000003 = .ok .gate ∧ decode 0xE0000004 = .ok .release ∧ decode 0xE0082005 = .ok (.twait 2 4) ∧
    decode 0xE0000008 = .ok .nret ∧ decode 0xE0001809 = .ok (.shrink 3) ∧ decode 0xE000286A = .ok (.spfree 0 5 6) ∧ decode 0xE2000002 = .ok (.phase 0 2) ∧
    decode 0xE4040003 = .ok (.twaitImm 1 3) ∧ decode 0xE6201001 = .ok (.fork 8 2 1) ∧ decode 0xE8244000 = .ok (.join 9 8) ∧
    decode 0xE8000821 = .ok (.rgnw 1 2) ∧ decode 0xE80C0822 = .ok (.rgnr 3 1 2) := by
  and_intros <;> rfl

theorem test_worked_engines : decode 0xF1E04000 = .ok (.mmulBf16 15 0 8 0) ∧ decode 0xF02C2040 = .ok (.mmbE2m1 1 3 4 0) ∧ decode 0xF2646000 = .ok (.mldwBf16 3 1 12 0) ∧
    decode 0xF2640080 = .ok (.mswap 3 1 0) ∧ decode 0xF220A100 = .ok (.mpush 20 0) ∧ decode 0xF4688010 = .ok (.mdrainBf16 3 2 16 0) ∧
    decode 0xF5E0C090 = .ok (.mstat 24 0) ∧ decode 0xD2002001 = .ok (.wnw 0 4 1) ∧ decode 0xD4043000 = .ok (.xchg 1 6 0) ∧
    decode 0xD620A010 = .ok (.rst 8 20 .b64 0) ∧ decode 0xF8000021 = .ok (.trap 0x21) ∧ decode 0xFA000000 = .ok .tret ∧ decode 0xFA0C2801 = .ok (.lpcRd 3 5) ∧
    decode 0xFA002862 = .ok (.lpcWr 5 6) ∧ decode 0xFA0016F3 = .ok (.spcw 2 111) ∧ decode 0xFC805000 = .ok (.xlinv 1 10) ∧ decode 0xFC0860E1 = .ok (.wpset 2 12 14) := by
  and_intros <;> rfl

/-! ### A word of every row of the opcode table, its fixed bits and fields from the table, for each major -/

/-- Major 0x00. -/
theorem test_decode_00 :
    decode 0x00082060 = .ok (.sadd 2 4 6) ∧
    decode 0x00082061 = .ok (.ssub 2 4 6) ∧
    decode 0x00082062 = .ok (.smul 2 4 6) ∧
    decode 0x00082063 = .ok (.smulhI64 2 4 6) ∧
    decode 0x00082064 = .ok (.smulhN64 2 4 6) ∧
    decode 0x00082065 = .ok (.sand 2 4 6) ∧
    decode 0x00082066 = .ok (.sor 2 4 6) ∧
    decode 0x00082067 = .ok (.sxor 2 4 6) ∧
    decode 0x00082068 = .ok (.sshl 2 4 6) ∧
    decode 0x00082069 = .ok (.sshrN64 2 4 6) ∧
    decode 0x0008206A = .ok (.sshrI64 2 4 6) ∧
    decode 0x0008206B = .ok (.sminI64 2 4 6) ∧
    decode 0x0008206C = .ok (.sminN64 2 4 6) ∧
    decode 0x0008206D = .ok (.smaxI64 2 4 6) ∧
    decode 0x0008206E = .ok (.smaxN64 2 4 6) := by
  and_intros <;> rfl

/-- Major 0x01. -/
theorem test_decode_01 :
    decode 0x02082060 = .ok (.sdivI64 2 4 6) ∧
    decode 0x02082061 = .ok (.sdivN64 2 4 6) ∧
    decode 0x02082062 = .ok (.sremI64 2 4 6) ∧
    decode 0x02082063 = .ok (.sremN64 2 4 6) ∧
    decode 0x02082064 = .ok (.sseq 2 4 6) ∧
    decode 0x02082065 = .ok (.ssne 2 4 6) ∧
    decode 0x02082066 = .ok (.ssltI64 2 4 6) ∧
    decode 0x02082067 = .ok (.ssltN64 2 4 6) ∧
    decode 0x02082068 = .ok (.ssleI64 2 4 6) ∧
    decode 0x02082069 = .ok (.ssleN64 2 4 6) ∧
    decode 0x0208200A = .ok (.spopc 2 4) ∧
    decode 0x0208200B = .ok (.sclz 2 4) ∧
    decode 0x0208200C = .ok (.sctz 2 4) ∧
    decode 0x0208200D = .ok (.sbrev 2 4) ∧
    decode 0x0208200E = .ok (.smov 2 4) := by
  and_intros <;> rfl

/-- Major 0x02. -/
theorem test_decode_02 :
    decode 0x040825A5 = .ok (.saddi 2 4 0x5a5) := by
  rfl

/-- Major 0x03. -/
theorem test_decode_03 :
    decode 0x060825A5 = .ok (.sandi 2 4 0x5a5) := by
  rfl

/-- Major 0x04. -/
theorem test_decode_04 :
    decode 0x080825A5 = .ok (.sori 2 4 0x5a5) := by
  rfl

/-- Major 0x05. -/
theorem test_decode_05 :
    decode 0x0A0825A5 = .ok (.sxori 2 4 0x5a5) := by
  rfl

/-- Major 0x06. -/
theorem test_decode_06 :
    decode 0x0C08202B = .ok (.sshli 2 4 0x2b) := by
  rfl

/-- Major 0x07. -/
theorem test_decode_07 :
    decode 0x0E08202B = .ok (.sshriN64 2 4 0x2b) := by
  rfl

/-- Major 0x08. -/
theorem test_decode_08 :
    decode 0x1008202B = .ok (.sshriI64 2 4 0x2b) := by
  rfl

/-- Major 0x09. -/
theorem test_decode_09 :
    decode 0x120825A5 = .ok (.ssltiI64 2 4 0x5a5) := by
  rfl

/-- Major 0x0A. -/
theorem test_decode_0A :
    decode 0x140825A5 = .ok (.ssltiN64 2 4 0x5a5) := by
  rfl

/-- Major 0x0B. -/
theorem test_decode_0B :
    decode 0x160825A5 = .ok (.smuli 2 4 0x5a5) := by
  rfl

/-- Major 0x10. -/
theorem test_decode_10 :
    decode 0x20000000 = .ok .nop ∧
    decode 0x20000001 = .ok .exit ∧
    decode 0x20000002 = .ok .yield ∧
    decode 0x20002003 = .ok (.ret 4) ∧
    decode 0x20000004 = .ok .brk := by
  and_intros <;> rfl

/-- Major 0x11. -/
theorem test_decode_11 :
    decode 0x2202A5C3 = .ok (.bra 0x2a5c3) := by
  rfl

/-- Major 0x12. -/
theorem test_decode_12 :
    decode 0x248EA5C3 = .ok (.bnz 35 0x2a5c3) := by
  rfl

/-- Major 0x13. -/
theorem test_decode_13 :
    decode 0x268EA5C3 = .ok (.bz 35 0x2a5c3) := by
  rfl

/-- Major 0x14. -/
theorem test_decode_14 :
    decode 0x288EA5C3 = .ok (.bnzv 35 0x2a5c3) := by
  rfl

/-- Major 0x15. -/
theorem test_decode_15 :
    decode 0x2A8EA5C3 = .ok (.bzv 35 0x2a5c3) := by
  rfl

/-- Major 0x16. -/
theorem test_decode_16 :
    decode 0x2C92A5C3 = .ok (.call 36 0x2a5c3) := by
  rfl

/-- Major 0x17. -/
theorem test_decode_17 :
    decode 0x2E1E80FF = .ok (.loop 7 true 1 255) := by
  rfl

/-- Major 0x18. -/
theorem test_decode_18 :
    decode 0x300AA5C3 = .ok (.li 2 0x2a5c3) := by
  rfl

/-- Major 0x19. -/
theorem test_decode_19 :
    decode 0x320AA5C3 = .ok (.sli 2 0x2a5c3) := by
  rfl

/-- Major 0x1A. -/
theorem test_decode_1A :
    decode 0x340AA5C3 = .ok (.vli 2 0x2a5c3) := by
  rfl

/-- Major 0x1B. -/
theorem test_decode_1B :
    decode 0x36082060 = .ok (.addaX1 2 4 6) ∧
    decode 0x36082061 = .ok (.addaX2 2 4 6) ∧
    decode 0x36082062 = .ok (.addaX4 2 4 6) ∧
    decode 0x36082063 = .ok (.addaX8 2 4 6) ∧
    decode 0x36082064 = .ok (.addaX16 2 4 6) ∧
    decode 0x36082065 = .ok (.addaV 2 4 6) := by
  and_intros <;> rfl

/-- Major 0x1C. -/
theorem test_decode_1C :
    decode 0x38000110 = .ok (.wbase 0x110) := by
  rfl

/-- Major 0x1D. -/
theorem test_decode_1D :
    decode 0x3A0007F0 = .ok (.wshift 0x7f0) := by
  rfl

/-- Major 0x1E. -/
theorem test_decode_1E :
    decode 0x3C082000 = .ok (.vmov 2 4) ∧
    decode 0x3C082001 = .ok (.vbcast 2 4) ∧
    decode 0x3C082002 = .ok (.vbcast64 2 4) ∧
    decode 0x3C082063 = .ok (.vget 2 4 6) ∧
    decode 0x3C082064 = .ok (.vput 2 4 6) := by
  and_intros <;> rfl

/-- Major 0x20. -/
theorem test_decode_20 :
    decode 0x40082060 = .ok (.addI32Vv 2 4 6) ∧
    decode 0x40082061 = .ok (.subI32Vv 2 4 6) ∧
    decode 0x4008A062 = .ok (.mulI32Vv 2 20 6) ∧
    decode 0x4008A063 = .ok (.mulhI32Vv 2 20 6) ∧
    decode 0x4008A064 = .ok (.mulhN32Vv 2 20 6) ∧
    decode 0x4008A065 = .ok (.minI32Vv 2 20 6) ∧
    decode 0x4008A066 = .ok (.minN32Vv 2 20 6) ∧
    decode 0x4008A067 = .ok (.maxI32Vv 2 20 6) ∧
    decode 0x4008A068 = .ok (.maxN32Vv 2 20 6) ∧
    decode 0x40082069 = .ok (.andB32Vv 2 4 6) ∧
    decode 0x4008206A = .ok (.orB32Vv 2 4 6) ∧
    decode 0x4008206B = .ok (.xorB32Vv 2 4 6) ∧
    decode 0x4008206C = .ok (.shlB32Vv 2 4 6) ∧
    decode 0x4008206D = .ok (.shrN32Vv 2 4 6) ∧
    decode 0x4008206E = .ok (.shrI32Vv 2 4 6) ∧
    decode 0x4008206F = .ok (.addsI32Vv 2 4 6) := by
  and_intros <;> rfl

/-- Major 0x21. -/
theorem test_decode_21 :
    decode 0x42082060 = .ok (.addI32Vs 2 4 6) ∧
    decode 0x42082061 = .ok (.subI32Vs 2 4 6) ∧
    decode 0x4208A062 = .ok (.mulI32Vs 2 20 6) ∧
    decode 0x4208A063 = .ok (.mulhI32Vs 2 20 6) ∧
    decode 0x4208A064 = .ok (.mulhN32Vs 2 20 6) ∧
    decode 0x4208A065 = .ok (.minI32Vs 2 20 6) ∧
    decode 0x4208A066 = .ok (.minN32Vs 2 20 6) ∧
    decode 0x4208A067 = .ok (.maxI32Vs 2 20 6) ∧
    decode 0x4208A068 = .ok (.maxN32Vs 2 20 6) ∧
    decode 0x42082069 = .ok (.andB32Vs 2 4 6) ∧
    decode 0x4208206A = .ok (.orB32Vs 2 4 6) ∧
    decode 0x4208206B = .ok (.xorB32Vs 2 4 6) ∧
    decode 0x4208206C = .ok (.shlB32Vs 2 4 6) ∧
    decode 0x4208206D = .ok (.shrN32Vs 2 4 6) ∧
    decode 0x4208206E = .ok (.shrI32Vs 2 4 6) ∧
    decode 0x4208206F = .ok (.addsI32Vs 2 4 6) := by
  and_intros <;> rfl

/-- Major 0x22. -/
theorem test_decode_22 :
    decode 0x44082060 = .ok (.addI64Vv 2 4 6) ∧
    decode 0x44082061 = .ok (.subI64Vv 2 4 6) ∧
    decode 0x4408A062 = .ok (.mulI64Vv 2 20 6) ∧
    decode 0x4408A063 = .ok (.mulhI64Vv 2 20 6) ∧
    decode 0x4408A064 = .ok (.mulhN64Vv 2 20 6) ∧
    decode 0x4408A065 = .ok (.minI64Vv 2 20 6) ∧
    decode 0x4408A066 = .ok (.minN64Vv 2 20 6) ∧
    decode 0x4408A067 = .ok (.maxI64Vv 2 20 6) ∧
    decode 0x4408A068 = .ok (.maxN64Vv 2 20 6) ∧
    decode 0x44082069 = .ok (.andB64Vv 2 4 6) ∧
    decode 0x4408206A = .ok (.orB64Vv 2 4 6) ∧
    decode 0x4408206B = .ok (.xorB64Vv 2 4 6) ∧
    decode 0x4408206C = .ok (.shlB64Vv 2 4 6) ∧
    decode 0x4408206D = .ok (.shrN64Vv 2 4 6) ∧
    decode 0x4408206E = .ok (.shrI64Vv 2 4 6) ∧
    decode 0x4408206F = .ok (.addsI64Vv 2 4 6) := by
  and_intros <;> rfl

/-- Major 0x23. -/
theorem test_decode_23 :
    decode 0x46082060 = .ok (.addI64Vs 2 4 6) ∧
    decode 0x46082061 = .ok (.subI64Vs 2 4 6) ∧
    decode 0x4608A062 = .ok (.mulI64Vs 2 20 6) ∧
    decode 0x4608A063 = .ok (.mulhI64Vs 2 20 6) ∧
    decode 0x4608A064 = .ok (.mulhN64Vs 2 20 6) ∧
    decode 0x4608A065 = .ok (.minI64Vs 2 20 6) ∧
    decode 0x4608A066 = .ok (.minN64Vs 2 20 6) ∧
    decode 0x4608A067 = .ok (.maxI64Vs 2 20 6) ∧
    decode 0x4608A068 = .ok (.maxN64Vs 2 20 6) ∧
    decode 0x46082069 = .ok (.andB64Vs 2 4 6) ∧
    decode 0x4608206A = .ok (.orB64Vs 2 4 6) ∧
    decode 0x4608206B = .ok (.xorB64Vs 2 4 6) ∧
    decode 0x4608206C = .ok (.shlB64Vs 2 4 6) ∧
    decode 0x4608206D = .ok (.shrN64Vs 2 4 6) ∧
    decode 0x4608206E = .ok (.shrI64Vs 2 4 6) ∧
    decode 0x4608206F = .ok (.addsI64Vs 2 4 6) := by
  and_intros <;> rfl

/-- Major 0x24. -/
theorem test_decode_24 :
    decode 0x48082060 = .ok (.addF16Vv 2 4 6) ∧
    decode 0x48082061 = .ok (.subF16Vv 2 4 6) ∧
    decode 0x4808A062 = .ok (.mulF16Vv 2 20 6) ∧
    decode 0x48082063 = .ok (.divF16Vv 2 4 6) ∧
    decode 0x4808A064 = .ok (.minF16Vv 2 20 6) ∧
    decode 0x4808A065 = .ok (.maxF16Vv 2 20 6) ∧
    decode 0x48082066 = .ok (.fmaF16Vv 2 4 6) ∧
    decode 0x48082067 = .ok (.fmsF16Vv 2 4 6) ∧
    decode 0x48082068 = .ok (.fnmaF16Vv 2 4 6) ∧
    decode 0x48082069 = .ok (.copysignF16Vv 2 4 6) := by
  and_intros <;> rfl

/-- Major 0x25. -/
theorem test_decode_25 :
    decode 0x4A082060 = .ok (.addF16Vs 2 4 6) ∧
    decode 0x4A082061 = .ok (.subF16Vs 2 4 6) ∧
    decode 0x4A08A062 = .ok (.mulF16Vs 2 20 6) ∧
    decode 0x4A082063 = .ok (.divF16Vs 2 4 6) ∧
    decode 0x4A08A064 = .ok (.minF16Vs 2 20 6) ∧
    decode 0x4A08A065 = .ok (.maxF16Vs 2 20 6) ∧
    decode 0x4A082066 = .ok (.fmaF16Vs 2 4 6) ∧
    decode 0x4A082067 = .ok (.fmsF16Vs 2 4 6) ∧
    decode 0x4A082068 = .ok (.fnmaF16Vs 2 4 6) ∧
    decode 0x4A082069 = .ok (.copysignF16Vs 2 4 6) := by
  and_intros <;> rfl

/-- Major 0x26. -/
theorem test_decode_26 :
    decode 0x4C082060 = .ok (.addF32Vv 2 4 6) ∧
    decode 0x4C082061 = .ok (.subF32Vv 2 4 6) ∧
    decode 0x4C08A062 = .ok (.mulF32Vv 2 20 6) ∧
    decode 0x4C082063 = .ok (.divF32Vv 2 4 6) ∧
    decode 0x4C08A064 = .ok (.minF32Vv 2 20 6) ∧
    decode 0x4C08A065 = .ok (.maxF32Vv 2 20 6) ∧
    decode 0x4C082066 = .ok (.fmaF32Vv 2 4 6) ∧
    decode 0x4C082067 = .ok (.fmsF32Vv 2 4 6) ∧
    decode 0x4C082068 = .ok (.fnmaF32Vv 2 4 6) ∧
    decode 0x4C082069 = .ok (.copysignF32Vv 2 4 6) := by
  and_intros <;> rfl

/-- Major 0x27. -/
theorem test_decode_27 :
    decode 0x4E082060 = .ok (.addF32Vs 2 4 6) ∧
    decode 0x4E082061 = .ok (.subF32Vs 2 4 6) ∧
    decode 0x4E08A062 = .ok (.mulF32Vs 2 20 6) ∧
    decode 0x4E082063 = .ok (.divF32Vs 2 4 6) ∧
    decode 0x4E08A064 = .ok (.minF32Vs 2 20 6) ∧
    decode 0x4E08A065 = .ok (.maxF32Vs 2 20 6) ∧
    decode 0x4E082066 = .ok (.fmaF32Vs 2 4 6) ∧
    decode 0x4E082067 = .ok (.fmsF32Vs 2 4 6) ∧
    decode 0x4E082068 = .ok (.fnmaF32Vs 2 4 6) ∧
    decode 0x4E082069 = .ok (.copysignF32Vs 2 4 6) := by
  and_intros <;> rfl

/-- Major 0x28. -/
theorem test_decode_28 :
    decode 0x50082060 = .ok (.addBf16Vv 2 4 6) ∧
    decode 0x50082061 = .ok (.subBf16Vv 2 4 6) ∧
    decode 0x5008A062 = .ok (.mulBf16Vv 2 20 6) ∧
    decode 0x50082063 = .ok (.divBf16Vv 2 4 6) ∧
    decode 0x5008A064 = .ok (.minBf16Vv 2 20 6) ∧
    decode 0x5008A065 = .ok (.maxBf16Vv 2 20 6) ∧
    decode 0x50082066 = .ok (.fmaBf16Vv 2 4 6) ∧
    decode 0x50082067 = .ok (.fmsBf16Vv 2 4 6) ∧
    decode 0x50082068 = .ok (.fnmaBf16Vv 2 4 6) ∧
    decode 0x50082069 = .ok (.copysignBf16Vv 2 4 6) := by
  and_intros <;> rfl

/-- Major 0x29. -/
theorem test_decode_29 :
    decode 0x52082060 = .ok (.addBf16Vs 2 4 6) ∧
    decode 0x52082061 = .ok (.subBf16Vs 2 4 6) ∧
    decode 0x5208A062 = .ok (.mulBf16Vs 2 20 6) ∧
    decode 0x52082063 = .ok (.divBf16Vs 2 4 6) ∧
    decode 0x5208A064 = .ok (.minBf16Vs 2 20 6) ∧
    decode 0x5208A065 = .ok (.maxBf16Vs 2 20 6) ∧
    decode 0x52082066 = .ok (.fmaBf16Vs 2 4 6) ∧
    decode 0x52082067 = .ok (.fmsBf16Vs 2 4 6) ∧
    decode 0x52082068 = .ok (.fnmaBf16Vs 2 4 6) ∧
    decode 0x52082069 = .ok (.copysignBf16Vs 2 4 6) := by
  and_intros <;> rfl

/-- Major 0x2A. -/
theorem test_decode_2A :
    decode 0x54082060 = .ok (.addF64Vv 2 4 6) ∧
    decode 0x54082061 = .ok (.subF64Vv 2 4 6) ∧
    decode 0x5408A062 = .ok (.mulF64Vv 2 20 6) ∧
    decode 0x54082063 = .ok (.divF64Vv 2 4 6) ∧
    decode 0x5408A064 = .ok (.minF64Vv 2 20 6) ∧
    decode 0x5408A065 = .ok (.maxF64Vv 2 20 6) ∧
    decode 0x54082066 = .ok (.fmaF64Vv 2 4 6) ∧
    decode 0x54082067 = .ok (.fmsF64Vv 2 4 6) ∧
    decode 0x54082068 = .ok (.fnmaF64Vv 2 4 6) ∧
    decode 0x54082069 = .ok (.copysignF64Vv 2 4 6) := by
  and_intros <;> rfl

/-- Major 0x2B. -/
theorem test_decode_2B :
    decode 0x56082060 = .ok (.addF64Vs 2 4 6) ∧
    decode 0x56082061 = .ok (.subF64Vs 2 4 6) ∧
    decode 0x5608A062 = .ok (.mulF64Vs 2 20 6) ∧
    decode 0x56082063 = .ok (.divF64Vs 2 4 6) ∧
    decode 0x5608A064 = .ok (.minF64Vs 2 20 6) ∧
    decode 0x5608A065 = .ok (.maxF64Vs 2 20 6) ∧
    decode 0x56082066 = .ok (.fmaF64Vs 2 4 6) ∧
    decode 0x56082067 = .ok (.fmsF64Vs 2 4 6) ∧
    decode 0x56082068 = .ok (.fnmaF64Vs 2 4 6) ∧
    decode 0x56082069 = .ok (.copysignF64Vs 2 4 6) := by
  and_intros <;> rfl

/-- Major 0x2C. -/
theorem test_decode_2C :
    decode 0x58082060 = .ok (.divI32Vv 2 4 6) ∧
    decode 0x58082061 = .ok (.divN32Vv 2 4 6) ∧
    decode 0x58082062 = .ok (.remI32Vv 2 4 6) ∧
    decode 0x58082063 = .ok (.remN32Vv 2 4 6) ∧
    decode 0x58082064 = .ok (.divI64Vv 2 4 6) ∧
    decode 0x58082065 = .ok (.divN64Vv 2 4 6) ∧
    decode 0x58082066 = .ok (.remI64Vv 2 4 6) ∧
    decode 0x58082067 = .ok (.remN64Vv 2 4 6) := by
  and_intros <;> rfl

/-- Major 0x2D. -/
theorem test_decode_2D :
    decode 0x5A082060 = .ok (.divI32Vs 2 4 6) ∧
    decode 0x5A082061 = .ok (.divN32Vs 2 4 6) ∧
    decode 0x5A082062 = .ok (.remI32Vs 2 4 6) ∧
    decode 0x5A082063 = .ok (.remN32Vs 2 4 6) ∧
    decode 0x5A082064 = .ok (.divI64Vs 2 4 6) ∧
    decode 0x5A082065 = .ok (.divN64Vs 2 4 6) ∧
    decode 0x5A082066 = .ok (.remI64Vs 2 4 6) ∧
    decode 0x5A082067 = .ok (.remN64Vs 2 4 6) := by
  and_intros <;> rfl

/-- Major 0x2E. -/
theorem test_decode_2E :
    decode 0x5C082060 = .ok (.ceqF32Vv 2 4 6) ∧
    decode 0x5C082061 = .ok (.cltF32Vv 2 4 6) ∧
    decode 0x5C082062 = .ok (.cleF32Vv 2 4 6) ∧
    decode 0x5C082063 = .ok (.cunF32Vv 2 4 6) ∧
    decode 0x5C082064 = .ok (.ceqB32Vv 2 4 6) ∧
    decode 0x5C082065 = .ok (.cltI32Vv 2 4 6) ∧
    decode 0x5C082066 = .ok (.cleI32Vv 2 4 6) ∧
    decode 0x5C082067 = .ok (.cltN32Vv 2 4 6) ∧
    decode 0x5C082068 = .ok (.cleN32Vv 2 4 6) ∧
    decode 0x5C082069 = .ok (.ceqF16Vv 2 4 6) ∧
    decode 0x5C08206A = .ok (.cltF16Vv 2 4 6) ∧
    decode 0x5C08206B = .ok (.cleF16Vv 2 4 6) ∧
    decode 0x5C08206C = .ok (.cunF16Vv 2 4 6) ∧
    decode 0x5C08206D = .ok (.ceqBf16Vv 2 4 6) ∧
    decode 0x5C08206E = .ok (.cltBf16Vv 2 4 6) ∧
    decode 0x5C08206F = .ok (.cleBf16Vv 2 4 6) := by
  and_intros <;> rfl

/-- Major 0x2F. -/
theorem test_decode_2F :
    decode 0x5E082060 = .ok (.ceqF32Vs 2 4 6) ∧
    decode 0x5E082061 = .ok (.cltF32Vs 2 4 6) ∧
    decode 0x5E082062 = .ok (.cleF32Vs 2 4 6) ∧
    decode 0x5E082063 = .ok (.cunF32Vs 2 4 6) ∧
    decode 0x5E082064 = .ok (.ceqB32Vs 2 4 6) ∧
    decode 0x5E082065 = .ok (.cltI32Vs 2 4 6) ∧
    decode 0x5E082066 = .ok (.cleI32Vs 2 4 6) ∧
    decode 0x5E082067 = .ok (.cltN32Vs 2 4 6) ∧
    decode 0x5E082068 = .ok (.cleN32Vs 2 4 6) ∧
    decode 0x5E082069 = .ok (.ceqF16Vs 2 4 6) ∧
    decode 0x5E08206A = .ok (.cltF16Vs 2 4 6) ∧
    decode 0x5E08206B = .ok (.cleF16Vs 2 4 6) ∧
    decode 0x5E08206C = .ok (.cunF16Vs 2 4 6) ∧
    decode 0x5E08206D = .ok (.ceqBf16Vs 2 4 6) ∧
    decode 0x5E08206E = .ok (.cltBf16Vs 2 4 6) ∧
    decode 0x5E08206F = .ok (.cleBf16Vs 2 4 6) := by
  and_intros <;> rfl

/-- Major 0x30. -/
theorem test_decode_30 :
    decode 0x60082060 = .ok (.ceqF64Vv 2 4 6) ∧
    decode 0x60082061 = .ok (.cltF64Vv 2 4 6) ∧
    decode 0x60082062 = .ok (.cleF64Vv 2 4 6) ∧
    decode 0x60082063 = .ok (.cunF64Vv 2 4 6) ∧
    decode 0x60082064 = .ok (.ceqB64Vv 2 4 6) ∧
    decode 0x60082065 = .ok (.cltI64Vv 2 4 6) ∧
    decode 0x60082066 = .ok (.cleI64Vv 2 4 6) ∧
    decode 0x60082067 = .ok (.cltN64Vv 2 4 6) ∧
    decode 0x60082068 = .ok (.cleN64Vv 2 4 6) := by
  and_intros <;> rfl

/-- Major 0x31. -/
theorem test_decode_31 :
    decode 0x62082060 = .ok (.ceqF64Vs 2 4 6) ∧
    decode 0x62082061 = .ok (.cltF64Vs 2 4 6) ∧
    decode 0x62082062 = .ok (.cleF64Vs 2 4 6) ∧
    decode 0x62082063 = .ok (.cunF64Vs 2 4 6) ∧
    decode 0x62082064 = .ok (.ceqB64Vs 2 4 6) ∧
    decode 0x62082065 = .ok (.cltI64Vs 2 4 6) ∧
    decode 0x62082066 = .ok (.cleI64Vs 2 4 6) ∧
    decode 0x62082067 = .ok (.cltN64Vs 2 4 6) ∧
    decode 0x62082068 = .ok (.cleN64Vs 2 4 6) := by
  and_intros <;> rfl

/-- Major 0x32. -/
theorem test_decode_32 :
    decode 0x64082065 = .ok (.selB32Vv 2 4 6 5) ∧
    decode 0x6408206D = .ok (.selB64Vv 2 4 6 5) := by
  and_intros <;> rfl

/-- Major 0x33. -/
theorem test_decode_33 :
    decode 0x66082065 = .ok (.selB32Vs 2 4 6 5) ∧
    decode 0x6608206D = .ok (.selB64Vs 2 4 6 5) := by
  and_intros <;> rfl

/-- Major 0x34. -/
theorem test_decode_34 :
    decode 0x68082009 = .ok (.rcpF32V 2 4 9) ∧
    decode 0x68082019 = .ok (.rsqrtF32V 2 4 9) ∧
    decode 0x68082029 = .ok (.sqrtF32V 2 4 9) ∧
    decode 0x68082039 = .ok (.exp2F32V 2 4 9) ∧
    decode 0x68082049 = .ok (.log2F32V 2 4 9) ∧
    decode 0x68082059 = .ok (.sinF32V 2 4 9) ∧
    decode 0x68082069 = .ok (.cosF32V 2 4 9) ∧
    decode 0x68082079 = .ok (.tanhF32V 2 4 9) := by
  and_intros <;> rfl

/-- Major 0x35. -/
theorem test_decode_35 :
    decode 0x6A082009 = .ok (.rcpF32S 2 4 9) ∧
    decode 0x6A082019 = .ok (.rsqrtF32S 2 4 9) ∧
    decode 0x6A082029 = .ok (.sqrtF32S 2 4 9) ∧
    decode 0x6A082039 = .ok (.exp2F32S 2 4 9) ∧
    decode 0x6A082049 = .ok (.log2F32S 2 4 9) ∧
    decode 0x6A082059 = .ok (.sinF32S 2 4 9) ∧
    decode 0x6A082069 = .ok (.cosF32S 2 4 9) ∧
    decode 0x6A082079 = .ok (.tanhF32S 2 4 9) := by
  and_intros <;> rfl

/-- Major 0x36. -/
theorem test_decode_36 :
    decode 0x6C082000 = .ok (.popcB32 2 4) ∧
    decode 0x6C082001 = .ok (.clzB32 2 4) ∧
    decode 0x6C082002 = .ok (.ctzB32 2 4) ∧
    decode 0x6C082003 = .ok (.brevB32 2 4) ∧
    decode 0x6C082004 = .ok (.notB32 2 4) ∧
    decode 0x6C082005 = .ok (.negI32 2 4) ∧
    decode 0x6C082006 = .ok (.absI32 2 4) ∧
    decode 0x6C082008 = .ok (.popcB64 2 4) ∧
    decode 0x6C082009 = .ok (.clzB64 2 4) ∧
    decode 0x6C08200A = .ok (.ctzB64 2 4) ∧
    decode 0x6C08200B = .ok (.brevB64 2 4) ∧
    decode 0x6C08200C = .ok (.notB64 2 4) ∧
    decode 0x6C08200D = .ok (.negI64 2 4) ∧
    decode 0x6C08200E = .ok (.absI64 2 4) := by
  and_intros <;> rfl

/-- Major 0x38. -/
theorem test_decode_38 :
    decode 0x70082000 = .ok (.absF32 2 4) ∧
    decode 0x70082001 = .ok (.negF32 2 4) ∧
    decode 0x70082002 = .ok (.rintF32 2 4) ∧
    decode 0x70082003 = .ok (.floorF32 2 4) ∧
    decode 0x70082004 = .ok (.ceilF32 2 4) ∧
    decode 0x70082005 = .ok (.truncF32 2 4) ∧
    decode 0x70082006 = .ok (.absF16 2 4) ∧
    decode 0x70082007 = .ok (.negF16 2 4) ∧
    decode 0x70082008 = .ok (.absBf16 2 4) ∧
    decode 0x70082009 = .ok (.negBf16 2 4) ∧
    decode 0x7008200A = .ok (.absF64 2 4) ∧
    decode 0x7008200B = .ok (.negF64 2 4) := by
  and_intros <;> rfl

/-- Major 0x40. -/
theorem test_decode_40 :
    decode 0x8008253D = .ok (.cvt 2 4 .f32 .rdn .e5m2) := by
  rfl

/-- Major 0x41. -/
theorem test_decode_41 :
    decode 0x82082060 = .ok (.pkE2m1 2 4 6) ∧
    decode 0x82082061 = .ok (.upkE2m1 2 4 6) ∧
    decode 0x82082062 = .ok (.scaccF32 2 4 6) := by
  and_intros <;> rfl

/-- Major 0x42. -/
theorem test_decode_42 :
    decode 0x84082068 = .ok (.shflIdx 2 4 6 2) ∧
    decode 0x84082069 = .ok (.shflUp 2 4 6 2) ∧
    decode 0x8408206A = .ok (.shflDown 2 4 6 2) ∧
    decode 0x8408206B = .ok (.shflXor 2 4 6 2) := by
  and_intros <;> rfl

/-- Major 0x43. -/
theorem test_decode_43 :
    decode 0x86082008 = .ok (.voteAny 2 4 2) ∧
    decode 0x86082009 = .ok (.voteAll 2 4 2) ∧
    decode 0x8608200A = .ok (.voteEq 2 4 2) ∧
    decode 0x8608200B = .ok (.voteBallot 2 4 2) := by
  and_intros <;> rfl

/-- Major 0x44. -/
theorem test_decode_44 :
    decode 0x88082000 = .ok (.lredAddF32 2 4) ∧
    decode 0x88082001 = .ok (.lredMaxF32 2 4) ∧
    decode 0x88082002 = .ok (.lredMinF32 2 4) ∧
    decode 0x88082003 = .ok (.lredAddI32 2 4) ∧
    decode 0x88082004 = .ok (.lredMaxI32 2 4) ∧
    decode 0x88082005 = .ok (.lredMinI32 2 4) ∧
    decode 0x88082006 = .ok (.lredMaxN32 2 4) ∧
    decode 0x88082007 = .ok (.lredMinN32 2 4) ∧
    decode 0x88082008 = .ok (.lredAddF16 2 4) ∧
    decode 0x88082009 = .ok (.lredMaxF16 2 4) ∧
    decode 0x8808200A = .ok (.lredMinF16 2 4) ∧
    decode 0x8808200B = .ok (.lredAddBf16 2 4) ∧
    decode 0x8808200C = .ok (.lredAndB32 2 4) ∧
    decode 0x8808200D = .ok (.lredOrB32 2 4) ∧
    decode 0x8808200E = .ok (.lredXorB32 2 4) := by
  and_intros <;> rfl

/-- Major 0x45. -/
theorem test_decode_45 :
    decode 0x8A082009 = .ok (.tredAddF32 2 4 9) ∧
    decode 0x8A082019 = .ok (.tredMaxF32 2 4 9) ∧
    decode 0x8A082029 = .ok (.tredMinF32 2 4 9) ∧
    decode 0x8A082039 = .ok (.tredAddI32 2 4 9) ∧
    decode 0x8A082049 = .ok (.tredMaxI32 2 4 9) ∧
    decode 0x8A082059 = .ok (.tredMinI32 2 4 9) ∧
    decode 0x8A082069 = .ok (.tredMaxN32 2 4 9) ∧
    decode 0x8A082079 = .ok (.tredMinN32 2 4 9) ∧
    decode 0x8A082089 = .ok (.tredAddF16 2 4 9) ∧
    decode 0x8A082099 = .ok (.tredMaxF16 2 4 9) ∧
    decode 0x8A0820A9 = .ok (.tredMinF16 2 4 9) ∧
    decode 0x8A0820B9 = .ok (.tredAddBf16 2 4 9) ∧
    decode 0x8A0820C9 = .ok (.tredAndB32 2 4 9) ∧
    decode 0x8A0820D9 = .ok (.tredOrB32 2 4 9) ∧
    decode 0x8A0820E9 = .ok (.tredXorB32 2 4 9) := by
  and_intros <;> rfl

/-- Major 0x46. -/
theorem test_decode_46 :
    decode 0x8C082000 = .ok (.scanAddF32 2 4) ∧
    decode 0x8C082001 = .ok (.scanMaxF32 2 4) ∧
    decode 0x8C082002 = .ok (.scanMinF32 2 4) ∧
    decode 0x8C082003 = .ok (.scanAddI32 2 4) ∧
    decode 0x8C082004 = .ok (.scanMaxI32 2 4) ∧
    decode 0x8C082005 = .ok (.scanMinI32 2 4) ∧
    decode 0x8C082006 = .ok (.scanMaxN32 2 4) ∧
    decode 0x8C082007 = .ok (.scanMinN32 2 4) ∧
    decode 0x8C082008 = .ok (.scanxAddF32 2 4) ∧
    decode 0x8C082009 = .ok (.scanxMaxF32 2 4) ∧
    decode 0x8C08200A = .ok (.scanxMinF32 2 4) ∧
    decode 0x8C08200B = .ok (.scanxAddI32 2 4) ∧
    decode 0x8C08200C = .ok (.scanxMaxI32 2 4) ∧
    decode 0x8C08200D = .ok (.scanxMinI32 2 4) ∧
    decode 0x8C08200E = .ok (.scanxMaxN32 2 4) ∧
    decode 0x8C08200F = .ok (.scanxMinN32 2 4) := by
  and_intros <;> rfl

/-- Major 0x47. -/
theorem test_decode_47 :
    decode 0x8E082060 = .ok (.pand 2 4 6) ∧
    decode 0x8E082061 = .ok (.por 2 4 6) ∧
    decode 0x8E082062 = .ok (.pxor 2 4 6) ∧
    decode 0x8E082003 = .ok (.pnot 2 4) ∧
    decode 0x8E082004 = .ok (.pfroms 2 4) ∧
    decode 0x8E082005 = .ok (.stop 2 4) ∧
    decode 0x8E080006 = .ok (.pall 2) ∧
    decode 0x8E080007 = .ok (.pnone 2) := by
  and_intros <;> rfl

/-- Major 0x50. -/
theorem test_decode_50 :
    decode 0xA0093059 = .ok (.ldLn 2 .b32 6 (.vec 5) 9) := by
  rfl

/-- Major 0x51. -/
theorem test_decode_51 :
    decode 0xA2093059 = .ok (.ldSp 2 .b32 6 (.vec 5) 9) := by
  rfl

/-- Major 0x52. -/
theorem test_decode_52 :
    decode 0xA4093059 = .ok (.ldCl 2 .b32 6 (.vec 5) 9) := by
  rfl

/-- Major 0x53. -/
theorem test_decode_53 :
    decode 0xA6093059 = .ok (.ldBn 2 .b32 6 (.vec 5) 9) := by
  rfl

/-- Major 0x54. -/
theorem test_decode_54 :
    decode 0xA8093059 = .ok (.ldGl 2 .b32 6 (.vec 5) 9) := by
  rfl

/-- Major 0x55. -/
theorem test_decode_55 :
    decode 0xAA093059 = .ok (.ldAc 2 .b32 6 (.vec 5) 9) := by
  rfl

/-- Major 0x56. -/
theorem test_decode_56 :
    decode 0xAC882459 = .ok (.ldGlOrdered 34 4 .fld .acq .b64 9) := by
  rfl

/-- Major 0x57. -/
theorem test_decode_57 :
    decode 0xAE013059 = .ok (.pfGl .b32 6 (.vec 5) 9) := by
  rfl

/-- Major 0x58. -/
theorem test_decode_58 :
    decode 0xB0093059 = .ok (.stLn 2 .b32 6 (.vec 5) 9) := by
  rfl

/-- Major 0x59. -/
theorem test_decode_59 :
    decode 0xB2093059 = .ok (.stSp 2 .b32 6 (.vec 5) 9) := by
  rfl

/-- Major 0x5A. -/
theorem test_decode_5A :
    decode 0xB4093059 = .ok (.stCl 2 .b32 6 (.vec 5) 9) := by
  rfl

/-- Major 0x5B. -/
theorem test_decode_5B :
    decode 0xB6093059 = .ok (.stBn 2 .b32 6 (.vec 5) 9) := by
  rfl

/-- Major 0x5C. -/
theorem test_decode_5C :
    decode 0xB8093059 = .ok (.stGl 2 .b32 6 (.vec 5) 9) := by
  rfl

/-- Major 0x5D. -/
theorem test_decode_5D :
    decode 0xBA093059 = .ok (.stAc 2 .b32 6 (.vec 5) 9) := by
  rfl

/-- Major 0x5E. -/
theorem test_decode_5E :
    decode 0xBC882499 = .ok (.stGlOrdered 34 4 .fld .rel .b64 9) := by
  rfl

/-- Major 0x5F. -/
theorem test_decode_5F :
    decode 0xBE003059 = .ok (.cctlGlWb 6 (.vec 5) 9) ∧
    decode 0xBE043059 = .ok (.cctlGlInv 6 (.vec 5) 9) ∧
    decode 0xBE083059 = .ok (.cctlGlWbinv 6 (.vec 5) 9) := by
  and_intros <;> rfl

/-- Major 0x60. -/
theorem test_decode_60 :
    decode 0xC023A169 = .ok (.atomSp 8 3 .exchB32 .team .ar 9) := by
  rfl

/-- Major 0x61. -/
theorem test_decode_61 :
    decode 0xC223A169 = .ok (.atomCl 8 3 .exchB32 .team .ar 9) := by
  rfl

/-- Major 0x62. -/
theorem test_decode_62 :
    decode 0xC423A169 = .ok (.atomBn 8 3 .exchB32 .team .ar 9) := by
  rfl

/-- Major 0x63. -/
theorem test_decode_63 :
    decode 0xC623A169 = .ok (.atomGl 8 3 .exchB32 .team .ar 9) := by
  rfl

/-- Major 0x64. -/
theorem test_decode_64 :
    decode 0xC8002003 = .ok (.fence .fld .ar) := by
  rfl

/-- Major 0x65. -/
theorem test_decode_65 :
    decode 0xCA002000 = .ok (.icinv .fld) := by
  rfl

/-- Major 0x68. -/
theorem test_decode_68 :
    decode 0xD0082009 = .ok (.cpy 2 4 9) := by
  rfl

/-- Major 0x69. -/
theorem test_decode_69 :
    decode 0xD2082009 = .ok (.wnw 2 4 9) := by
  rfl

/-- Major 0x6A. -/
theorem test_decode_6A :
    decode 0xD4082009 = .ok (.xchg 2 4 9) := by
  rfl

/-- Major 0x6B. -/
theorem test_decode_6B :
    decode 0xD6082019 = .ok (.rst 2 4 .b64 9) := by
  rfl

/-- Major 0x70. -/
theorem test_decode_70 :
    decode 0xE0080000 = .ok (.bar 2) ∧
    decode 0xE0082010 = .ok (.barWait 2 4) ∧
    decode 0xE0081801 = .ok (.arrive 2 3) ∧
    decode 0xE0082002 = .ok (.bexp 2 4) ∧
    decode 0xE0000003 = .ok .gate ∧
    decode 0xE0000004 = .ok .release ∧
    decode 0xE0082005 = .ok (.twait 2 4) ∧
    decode 0xE0082386 = .ok (.cwait 2 4 1 3) ∧
    decode 0xE0082387 = .ok (.cwaitClr 2 4 1 3) ∧
    decode 0xE0000008 = .ok .nret ∧
    decode 0xE0002009 = .ok (.shrink 4) ∧
    decode 0xE008206A = .ok (.spfree 2 4 6) := by
  and_intros <;> rfl

/-- Major 0x71. -/
theorem test_decode_71 :
    decode 0xE2080003 = .ok (.phase 2 3) := by
  rfl

/-- Major 0x72. -/
theorem test_decode_72 :
    decode 0xE408BEEF = .ok (.twaitImm 2 0xbeef) := by
  rfl

/-- Major 0x73. -/
theorem test_decode_73 :
    decode 0xE6082003 = .ok (.fork 2 4 3) := by
  rfl

/-- Major 0x74. -/
theorem test_decode_74 :
    decode 0xE8082000 = .ok (.join 2 4) ∧
    decode 0xE8002061 = .ok (.rgnw 4 6) ∧
    decode 0xE8082062 = .ok (.rgnr 2 4 6) := by
  and_intros <;> rfl

/-- Major 0x78. -/
theorem test_decode_78 :
    decode 0xF024A009 = .ok (.mmulBf16 1 1 20 9) ∧
    decode 0xF024A019 = .ok (.mmulF16 1 1 20 9) ∧
    decode 0xF024A029 = .ok (.mmulE4m3 1 1 20 9) ∧
    decode 0xF024A039 = .ok (.mmulE5m2 1 1 20 9) ∧
    decode 0xF024A049 = .ok (.mmbE2m1 1 1 20 9) ∧
    decode 0xF024A059 = .ok (.msca 1 1 20 9) := by
  and_intros <;> rfl

/-- Major 0x79. -/
theorem test_decode_79 :
    decode 0xF224A009 = .ok (.mldwBf16 1 1 20 9) ∧
    decode 0xF224A019 = .ok (.mldwF16 1 1 20 9) ∧
    decode 0xF224A029 = .ok (.mldwE4m3 1 1 20 9) ∧
    decode 0xF224A039 = .ok (.mldwE5m2 1 1 20 9) ∧
    decode 0xF224A049 = .ok (.mldwE2m1 1 1 20 9) ∧
    decode 0xF2240089 = .ok (.mswap 1 1 9) ∧
    decode 0xF220A109 = .ok (.mpush 20 9) := by
  and_intros <;> rfl

/-- Major 0x7A. -/
theorem test_decode_7A :
    decode 0xF424A009 = .ok (.mdrainF32 1 1 20 9) ∧
    decode 0xF424A019 = .ok (.mdrainBf16 1 1 20 9) ∧
    decode 0xF424A029 = .ok (.mdrainF16 1 1 20 9) ∧
    decode 0xF424A039 = .ok (.mdrainE4m3 1 1 20 9) ∧
    decode 0xF424A049 = .ok (.mdrainE5m2 1 1 20 9) ∧
    decode 0xF424A089 = .ok (.mclr 1 1 20 9) ∧
    decode 0xF5E0A099 = .ok (.mstat 20 9) := by
  and_intros <;> rfl

/-- Major 0x7C. -/
theorem test_decode_7C :
    decode 0xF80000A5 = .ok (.trap 0xa5) := by
  rfl

/-- Major 0x7D. -/
theorem test_decode_7D :
    decode 0xFA000000 = .ok .tret ∧
    decode 0xFA082001 = .ok (.lpcRd 2 4) ∧
    decode 0xFA002062 = .ok (.lpcWr 4 6) ∧
    decode 0xFA0026F3 = .ok (.spcw 4 111) := by
  and_intros <;> rfl

/-- Major 0x7E. -/
theorem test_decode_7E :
    decode 0xFC802000 = .ok (.xlinv 1 4) ∧
    decode 0xFC082061 = .ok (.wpset 2 4 6) := by
  and_intros <;> rfl

/-! ### Single steps: the spec's worked values -/

/-- What a sheaf holds after an instruction. -/
noncomputable def tAfter (i : Instr) (s : State) (f : Sheaf → Nat) : Nat :=
  match exec i s with
  | .next t => f ((t.sheaf? 1).getD tSheaf)
  | .fault _ => 0
  | .refused _ => 0

/-- R269/13: −2^63 by −1. -/
theorem test_sdiv_corner : tAfter (.sdivI64 1 2 3) (tBy tOne ((tSheaf.sset 2 0x8000000000000000).sset 3 (BitVec.allOnes 64))) (fun h => (h.sget 1).toNat) = 2 ^ 63 := by
  decide +kernel
/-- R269/13: by zero gives 2^64 − 1 and DZ. -/
theorem test_sdiv_zero : tAfter (.sdivN64 1 2 3) (tBy tOne (tSheaf.sset 2 5)) (fun h => (h.sget 1).toNat + (if h.flags.dz then 1 else 0)) = 2 ^ 64 := by decide +kernel
/-- R271/13: the last of `li s1, 4 ; sli s1, 0 ; sli s1, 0`. -/
theorem test_sli : tAfter (.sli 1 0) (tBy tOne (tSheaf.sset 1 0x100000)) (fun h => (h.sget 1).toNat) = 0x4000000000 := by decide +kernel
/-- R98/04: from 112 with a budget of 256, `wshift` by 16 gives 128; once more traps. -/
theorem test_wshift : tAfter (.wshift 16) (tBy tOne { tSheaf with wb := 112, budget := 256 }) (fun h => h.wb) = 128 ∧
    tAfter (.wshift 16) (tBy tOne { tSheaf with wb := 128, budget := 256 }) (fun h => h.wb) = 128 := by decide +kernel
/-- R19/01: core 734 is of field 5, cluster 91. -/
theorem test_core_numbers : (tState.readS { tSheaf with core := 734 } 0 100).toNat = 91 ∧ (tState.readS { tSheaf with core := 734 } 0 101).toNat = 5 := by decide +kernel
/-- R101/04: DIVTMR is held to 4 to 12, unused bits read 0. -/
theorem test_ctrl_clamp : tAfter (.spcw 1 111) (tBy tOne (tSheaf.sset 1 0xFFF000FF)) (fun h => h.ctrl.toNat) = 0xC00000 := by decide +kernel
/-- R378/18: lane 5, at 0x1000, has exited: bit 63 over its PC; of lane 6, at 0x1000, the PC alone, by 70 mod 64. -/
theorem test_lpc_rd : tAfter (.lpcRd 3 5) (tBy tOne { (tSheaf.sset 5 5) with exited := 32 }) (fun h => (h.sget 3).toNat) = 0x8000000000001000 ∧
    tAfter (.lpcRd 3 5) (tBy tOne { (tSheaf.sset 5 70) with exited := 32 }) (fun h => (h.sget 3).toNat) = 0x1000 := by decide +kernel
/-- R378/18: at level 1 the held PC of lane 5 becomes 0x2007 without its bits 1 and 0. -/
theorem test_lpc_wr : tAfter (.lpcWr 5 6) (tBy tOne { ((tSheaf.sset 5 5).sset 6 0x2007) with tl := 1 }) (fun h => (h.lane 5).held.toNat) = 0x2004 := by decide +kernel
/-- R106/04: a 1 in bit 3 of `$status` clears DZ and leaves IV. -/
theorem test_status_write : tAfter (.spcw 1 113) (tBy tOne { (tSheaf.sset 1 8) with flags := { dz := true, iv := true } })
    (fun h => (if h.flags.dz then 1 else 0) + (if h.flags.iv then 2 else 0)) = 2 := by decide +kernel
/-- R380/18: `xlinv.va` of 64 bytes at 0x1000 of context 0 drops the translation of its 2 MiB page. -/
theorem test_xlinv : (match exec (.xlinv 1 0) { tBy tOne ((tSheaf.sset 1 0x1000).sset 2 64) with sysCtx := some 0 } with
    | .next t => ((t.core 0).tlb.length, ((t.sheaf? 1).map fun h => (h.lane 0).pc.toNat)) | _ => (9, none)) = (0, some 0x1004) := by decide +kernel
/-- R381/18: watchpoint 2 of context 0 over 4 KiB at 0x1000 of space 1, for loads and atomics. -/
theorem test_wpset : (match exec (.wpset 2 0 3) { tBy tOne ((tSheaf.sset 1 0x1000000000001000).sset 3 0x50C) with sysCtx := some 0 } with
    | .next t => (t.ctx 0).watch.map fun w => (w.log, w.ld, w.st, w.atom) | _ => []) =
    [(0, false, false, false), (0, false, false, false), (12, true, false, true), (0, false, false, false)] := by decide +kernel
/-- R295/14: 470 to e4m3 gives 448, and saturates under RNE only; 300.7 to i8 gives 127 and IV. -/
theorem test_cvt : (cvtVal .f32 .e4m3 .rne false 0x43EB0000).1 = 0x7E ∧ (cvtVal .f32 .e4m3 .rne false 0x43EB0000).2.sat = true ∧
    (cvtVal .f32 .e4m3 .rtz false 0x43EB0000).1 = 0x7E ∧ (cvtVal .f32 .e4m3 .rtz false 0x43EB0000).2.sat = false ∧
    (cvtVal .f32 .i8 .rne false 0x4396599A).1.setWidth 8 = 127 ∧ (cvtVal .f32 .i8 .rne false 0x4396599A).2.fl.iv = true := by decide +kernel
/-- R203/09: lanes 0 to 3 hold 2^24, 1, 1, −2^24, the others −0: the log steps and the tree give 1. -/
theorem test_reduction_orders :
    let xs : List Word := [0x4B800000, 0x3F800000, 0x3F800000, 0xCB800000] ++ List.replicate 60 0x80000000
    (redSteps (lredStep .addF32) [32, 16, 8, 4, 2, 1] xs).1.getD 0 0 = 0x3F800000 ∧ (treeRoot .addF32 6 xs).1 = 0x3F800000 := by decide +kernel
/-- R303/14: the worked scan of 1, 2^24, 1, 1. -/
theorem test_scan :
    let xs : List Word := [0x3F800000, 0x4B800000, 0x3F800000, 0x3F800000] ++ List.replicate 60 0x80000000
    (redSteps (scanStep .addF32) [1, 2, 4, 8, 16, 32] xs).1.take 4 = [0x3F800000, 0x4B800000, 0x4B800000, 0x4B800001] ∧
      (redSteps (scanStep .addF32) [1, 2, 4, 8, 16, 32] xs).2.fl.nx = true := by decide +kernel
/-- R281/13, R107/04: `trap 0x21` with a handler: the cause and INFO, the trap level, the lane's PC at the handler. -/
theorem test_trap : tAfter (.trap 0x21) { tOneState with mem := [(barnAlias + 145, 0x13)] }
    (fun h => h.trap.tcause.toNat + 0x10000 * h.tl + 0x1000000 * (h.lane 0).pc.toNat) = 0x2112 + 0x10000 + 0x1000000 * 0x1300 := by decide +kernel
/-- R276/13: a taken backward branch, and one not taken. -/
theorem test_branch : tAfter (.bra 0x3FFF0) tOneState (fun h => (h.lane 0).pc.toNat) = 0xFC0 ∧ tAfter (.bnz 1 0x3FFF0) tOneState (fun h => (h.lane 0).pc.toNat) = 0x1004 := by
  decide +kernel
/-- R307/15, R6/00: a 32-bit store in lane 0's slice, its lowest byte first. -/
theorem test_store : tAfter (.stLn 3 .b32 0 (.imm 1) 0) (tBy tOne (tSheaf.vset 0 3 0x04030201)) (fun h => natOfBytes (h.slice.read 3 6)) = 0x040302010000 / 256 := by
  decide +kernel
/-- R285/14: `adds.i32` clamps. -/
theorem test_adds : tAfter (.addsI32Vv 1 2 3) (tBy tOne ((tSheaf.vset 0 2 0x7FFFFFFF).vset 0 3 1)) (fun h => (h.vget 0 1).toNat) = 0x7FFFFFFF := by decide +kernel

/-! ### Witnesses: concrete states and operands that meet the hypotheses of each statement -/

/-- ScalarArithmetic, LaneArithmetic, VectorMoves: an issue in progress, and for ScalarArithmetic an unassigned word. -/
theorem witness_ScalarArithmetic : tState.Issuing tIssue tSheaf ∧
    (0x0000000F#32).extractLsb' 25 7 = 0 ∧ (0x0000000F#32).extractLsb' 0 4 = 15 ∧
    (0x0200001A#32).extractLsb' 25 7 = 1 ∧ 10 ≤ ((0x0200001A#32).extractLsb' 0 4).toNat ∧ (0x0200001A#32).extractLsb' 4 7 ≠ 0 := by
  and_intros <;> first | exact tBy_issuing _ _ rfl | exact ⟨rfl, rfl⟩ | decide +kernel

theorem witness_LaneArithmetic : tState.Issuing tIssue tSheaf := tBy_issuing _ _ rfl

theorem witness_VectorMoves : tOneState.Issuing tOne tSheaf := tBy_issuing _ _ rfl

theorem witness_Divisions : tState.Issuing tIssue tSheaf ∧ (0x58000008#32).extractLsb' 25 7 = 0x2C ∧ 8 ≤ ((0x58000008#32).extractLsb' 0 4).toNat :=
  ⟨tBy_issuing _ _ rfl, by decide, by decide⟩

theorem witness_LaneUnary : tState.Issuing tIssue tSheaf ∧ (0x6C000007#32).extractLsb' 25 7 = 0x36 ∧ (0x6C000007#32).extractLsb' 0 4 = 7 :=
  ⟨tBy_issuing _ _ rfl, by decide, by decide⟩

/-- FloatBinary, FloatUnary, Transcendentals, Comparisons, Conversions, LogReductionsAndScans, TreeReductions: with no flag
enabled, whatever a lane raises is quiet. -/
theorem witness_FloatBinary : tState.Issuing tIssue tSheaf ∧ ∀ r, Quiet tSheaf r := ⟨tBy_issuing _ _ rfl, fun r => quiet_of_none _ r (by decide)⟩
theorem witness_FloatUnary : tOneState.Issuing tOne tSheaf ∧ ∀ r, Quiet tSheaf r := ⟨tBy_issuing _ _ rfl, fun r => quiet_of_none _ r (by decide)⟩
theorem witness_Transcendentals : tOneState.Issuing tOne tSheaf ∧ ∀ r, Quiet tSheaf r := ⟨tBy_issuing _ _ rfl, fun r => quiet_of_none _ r (by decide)⟩
theorem witness_Comparisons : tState.Issuing tIssue tSheaf ∧ ∀ r, Quiet tSheaf r := ⟨tBy_issuing _ _ rfl, fun r => quiet_of_none _ r (by decide)⟩
theorem witness_Conversions : tState.Issuing tIssue tSheaf ∧ ∀ r, Quiet tSheaf r := ⟨tBy_issuing _ _ rfl, fun r => quiet_of_none _ r (by decide)⟩
theorem witness_LogReductionsAndScans : tState.Issuing tIssue tSheaf ∧ ∀ r, Quiet tSheaf r := ⟨tBy_issuing _ _ rfl, fun r => quiet_of_none _ r (by decide)⟩
theorem witness_TreeReductions : (tState.Issuing tIssue tSheaf ∧ ∀ r, Quiet tSheaf r) ∧ (List.replicate 64 (1 : Word)).length = 64 :=
  ⟨⟨tBy_issuing _ _ rfl, fun r => quiet_of_none _ r (by decide)⟩, by simp⟩

/-- Every flag enabled; in lane 0: 0 / 0, 1/2 to an integer, a comparison of a NaN, 2^40 to i32, a NaN block scale, a product that overflows,
1/0, and ∞ + −∞ over the lanes. -/
theorem witness_FloatExceptionTaken :
    let h : Sheaf := ((({ tSheaf with ctrl := 0x8FFF00 } : Sheaf).vset 0 3 0x3F000000).vset 0 4 0x7FC00000).vset64 0 6 0x7FF8000000000000
    let xs : List Word := [0x7F800000, 0xFF800000] ++ List.replicate 62 0x80000000
    (tBy tOne h).Issuing tOne h ∧
    (∀ r ∈ [(fop .f32 .div h.mode h.ftz 0 0 0).r, (fop .f64 .div h.mode h.ftz 0 0 0).r,
        (fun1 .f32 .rint h.mode h.ftz (Fmt.f32.code (h.vget 0 3).toNat)).r, (fcmp .f32 .lt h.ftz (Fmt.f32.code (h.vget 0 4).toNat) 0).2,
        (fcmp .f64 .lt h.ftz (h.vget64 0 6).toNat 0).2, (cvtVal .f32 .i32 (roundMode .rne h.mode) h.ftz 0x53800000).2,
        (pkLane h.mode (h.vget 0 3) 0xFF).r, (upkLane h.mode 0 7 0xFE).r, (scaccLane h.mode h.ftz 0x7F7FFFFF 0x7F7FFFFF 0xFEFE).r,
        (trans .rcp h.mode h.ftz 0).r, (redSteps (lredStep .addF32) [32, 16, 8, 4, 2, 1] xs).2,
        (redSteps (scanStep .addF32) [1, 2, 4, 8, 16, 32] xs).2, (treeRoot .addF32 6 xs).2], ¬ Quiet h (raisedBy tOne fun _ => r)) :=
  ⟨tBy_issuing _ _ rfl, by unfold Quiet; decide +kernel⟩

theorem witness_SelectsAndPredicates : tState.Issuing tIssue tSheaf ∧ (0x8E000008#32).extractLsb' 25 7 = 0x47 ∧ 8 ≤ ((0x8E000008#32).extractLsb' 0 4).toNat ∧
    (0x8E000806#32).extractLsb' 25 7 = 0x47 ∧ 6 ≤ ((0x8E000806#32).extractLsb' 0 4).toNat ∧ (0x8E000806#32).extractLsb' 11 7 ≠ 0 := by
  and_intros <;> first | exact tBy_issuing _ _ rfl | exact ⟨rfl, rfl⟩ | decide +kernel

/-- Every lane comes at once, no source pending; lane 0 alone, and the others are awaited; a source pending with data, with a fault that a
mapping can mend, and with one that none can. -/
theorem witness_Collectives :
    (let ws := tState.arrivals tIssue 0
     tState.Issuing tIssue tSheaf ∧ tSheaf.collectiveLeft ws = 0 ∧ tSheaf.sourcePending ws [1, 2] = none ∧ waitMask ws &&& ~~~tIssue.lanes = 0) ∧
    (tOneState.Issuing tOne tSheaf ∧ tSheaf.collectiveLeft (tOneState.arrivals tOne 0) ≠ 0) ∧
    ∀ p ∈ ([⟨3, 0x1000, [(0, 1, 9)], [1], 1, none, [], none, [], 0, none, 0, false, [], []⟩, { id := 3, pc := 0x1000, regs := [1], lanes := 1, faults := [⟨0, .xlate2, 0⟩] },
        { id := 3, pc := 0x1000, regs := [1], lanes := 1, faults := [⟨0, .perm, 0⟩] }] : List Pending),
      let h : Sheaf := { tSheaf with pend := [p] }
      (tBy tIssue h).Issuing tIssue h ∧ h.collectiveLeft ((tBy tIssue h).arrivals tIssue 0) = 0 ∧
        h.sourcePending ((tBy tIssue h).arrivals tIssue 0) [1] = some p :=
  ⟨⟨tBy_issuing _ _ rfl, by decide +kernel, by decide +kernel, by decide +kernel⟩, ⟨tBy_issuing _ _ rfl, by decide +kernel⟩, fun p hp => by
    simp only [List.mem_cons, List.not_mem_nil, or_false] at hp
    obtain rfl | rfl | rfl := hp <;> exact ⟨tBy_issuing _ _ rfl, by decide +kernel, by decide +kernel⟩⟩

/-- A window at 384, the last one; one past it. -/
theorem witness_WindowMoves : tState.Issuing tIssue tSheaf ∧ (0 : Int) ≤ ((384#18).toNat : Int) ∧ ((384#18).toNat : Int) ≤ 384 ∧
    ((384#18).toNat : Int) + 128 ≤ (tSheaf.budget : Int) ∧ ¬ ((400#18).toNat : Int) ≤ 384 ∧ ¬ (0 : Int) ≤ (tSheaf.wb : Int) + (0x7F0#11).toInt := by
  and_intros <;> first | exact tBy_issuing _ _ rfl | exact ⟨rfl, rfl⟩ | decide +kernel

/-- The lowest target, 0; and one below it. -/
theorem witness_Branches : tState.Issuing tIssue tSheaf ∧ (tIssue.pc.toNat : Int) + 4 * (0x3FC00#18).toInt = 0 ∧
    (tIssue.pc.toNat : Int) + 4 * (0x3FBFF#18).toInt < 0 :=
  ⟨tBy_issuing _ _ rfl, by decide, by decide⟩

theorem witness_LaneSteps :
    (∀ k, k < 3 → (({} : Lane).loops.getD k {}).count = 0 ∨ (({} : Lane).loops.getD k {}).stop ≠ 0x1004) ∧
    (let ln : Lane := { loops := [⟨2, 0x1000, 0x1004⟩, {}, {}] }
     ln.loops.length = 3 ∧ (ln.loops.getD 0 {}).stop = 0x1004 ∧ 1 < (ln.loops.getD 0 {}).count.toNat ∧
       ∀ j, j < 3 → 0 < j → (ln.loops.getD j {}).count = 0 ∨ (ln.loops.getD j {}).stop ≠ 0x1004) := by
  and_intros <;> decide +kernel

theorem witness_CallsReturnsLoops :
    (tState.Issuing tIssue tSheaf ∧ (0 : Int) ≤ (tIssue.pc.toNat : Int) + 4 * (1#18).toInt ∧ (tIssue.pc.toNat : Int) + 4 * (1#18).toInt < 2 ^ 56 ∧
      ((lanesOf tOne.lanes).filter fun l => !((tSheaf.vget64 l 2).extractLsb' 56 8 == 0)) = []) ∧
    (let h : Sheaf := tSheaf.vset 0 3 0x01000000
     (tBy tOne h).Issuing tOne h ∧ ((lanesOf tOne.lanes).filter fun l => !((h.vget64 l 2).extractLsb' 56 8 == 0)) ≠ []) :=
  ⟨⟨tBy_issuing _ _ rfl, by decide, by decide, by decide +kernel⟩, tBy_issuing _ _ rfl, by decide +kernel⟩

theorem witness_NopYieldExit :
    (tOneState.Issuing tOne tSheaf ∧ tSheaf.tl = 0 ∧ tSheaf.pend = [] ∧ ¬ (tSheaf.exited ||| tOne.lanes) = BitVec.allOnes 64) ∧
    (tState.Issuing tIssue tSheaf ∧ tSheaf.exited ||| tIssue.lanes = BitVec.allOnes 64 ∧ tSheaf.children = [] ∧ tState.jobsOf tIssue.sheaf = [] ∧
      tSheaf.inlineChild = false) ∧
    (let h : Sheaf := { tSheaf with tl := 1 }
     (tBy tOne h).Issuing tOne h ∧ h.tl ≠ 0) :=
  ⟨⟨tBy_issuing _ _ rfl, rfl, rfl, by decide⟩, ⟨tBy_issuing _ _ rfl, by decide, rfl, by decide +kernel, rfl⟩, tBy_issuing _ _ rfl, by decide⟩

theorem witness_TrappingInstructions : tState.Issuing tIssue tSheaf := tBy_issuing _ _ rfl

/-- A vector table with a handler for BREAK at 0x1300; a first trap, and a second inside its handler. -/
theorem witness_TrapEntry :
    let s : State := { tState with mem := [(barnAlias + 137, 0x13)] }
    let h : Sheaf := { tSheaf with tl := 1 }
    s.Issuing tIssue tSheaf ∧ (s.launchOf tSheaf).ended = none ∧ tSheaf.tl < 2 ∧ (s.vectorEntry 0 0 .brk).1 ≠ 0 ∧
    ({ s with sheaves := [h] } : State).Issuing tIssue h ∧ h.tl < 2 ∧ h.tl = 1 :=
  ⟨⟨rfl, rfl⟩, rfl, by decide, by decide +kernel, ⟨rfl, rfl⟩, by decide, rfl⟩

theorem witness_UnhandledTrapEndsLaunch :
    (tState.Issuing tIssue tSheaf ∧ tState.launch? tSheaf.launch = some (loadedLaunch 0) ∧ (loadedLaunch 0).ended = none ∧
      (tState.vectorEntry 0 0 .brk).1 = 0) ∧
    (let h : Sheaf := { tSheaf with tl := 2 }
     (tBy tIssue h).Issuing tIssue h ∧ 2 ≤ h.tl) :=
  ⟨⟨tBy_issuing _ _ rfl, rfl, rfl, by decide +kernel⟩, tBy_issuing _ _ rfl, by decide⟩

theorem witness_TrapReturn :
    (tState.Issuing tIssue tSheaf ∧ tSheaf.tl = 0) ∧
    (let h : Sheaf := { tSheaf with tl := 2, trap := ⟨0x11, 0, 0, 0⟩ }
     (tBy tIssue h).Issuing tIssue h ∧ h.tl ≠ 0 ∧ h.pend = [] ∧ h.replay = none ∧ (h.trap.tcause.extractLsb' 0 6).toNat ≠ causeCode .notice) ∧
    (let h : Sheaf := { tSheaf with tl := 1, trap := ⟨0x0E, 0, 0, 0⟩ }
     (tBy tIssue h).Issuing tIssue h ∧ h.tl ≠ 0 ∧ h.pend = [] ∧ h.replay = none ∧ (h.trap.tcause.extractLsb' 0 6).toNat = causeCode .notice) := by
  and_intros <;> first | exact tBy_issuing _ _ rfl | exact ⟨rfl, rfl⟩ | decide +kernel

theorem witness_SpecialRegisters :
    (tState.Issuing tIssue tSheaf ∧ tSheaf.tl = 0 ∧ ¬ tState.supervisor tSheaf.ctx ∧ (tState.core 0).res? 0 = some { ctx := 0 } ∧ (112 : Nat) ≠ 111 ∧
      (112 : Nat) ≠ 113 ∧ (112 : Nat) ≠ 107 ∧ (112 : Nat) ≠ 110) ∧
    (let h : Sheaf := ({ tSheaf with tl := 1 } : Sheaf).sset 1 (2 ^ 56)
     let s : State := { tBy tIssue h with sysCtx := some 0 }
     s.Issuing tIssue h ∧ h.tl ≠ 0 ∧ ¬ (s.readS h 0 1).toNat < 2 ^ 56 ∧ (s.readS h 0 2).toNat < 2 ^ 56 ∧ (s.readS h 0 2).toNat % 64 < h.lanes.length ∧
       s.supervisor h.ctx) := by
  and_intros <;> first | exact tBy_issuing _ _ rfl | exact ⟨rfl, rfl⟩ | decide +kernel

/-- A remote store of lane 0 in flight, to the bytes behind virtual address 0. -/
def tStore : RemoteStore := ⟨1, 0, 0, 0, 0, 0, 0, barnAlias, [1, 2], 0x1000, false, 0⟩

/-- `xlinv` of s0 to s2: a range of context 0, with nothing in flight and with a remote store of it; of s3, no context. -/
theorem witness_SupervisorInstructions :
    (tState.Issuing tIssue tSheaf ∧ ¬ tState.supervisor tSheaf.ctx) ∧
    let h : Sheaf := ((tSheaf.sset 1 0x1000).sset 2 64).sset 3 64
    let s : State := { tBy tIssue h with sysCtx := some 0 }
    s.Issuing tIssue h ∧ s.supervisor h.ctx ∧ (h.sget 0).toNat < 64 ∧ (h.sget 2).toNat ≠ 0 ∧ (h.sget 1).toNat + (h.sget 2).toNat ≤ 2 ^ 52 ∧
      s.inFlight 0 = false ∧ (s.cores.map Prod.fst).Nodup ∧ ({ s with rsts := [tStore] } : State).inFlight 0 = true ∧ ¬ (h.sget 3).toNat < 64 := by
  and_intros <;> first | exact tBy_issuing _ _ rfl | exact ⟨rfl, rfl⟩ | decide +kernel

/-- `wpset` of s0 and s1, the address 0x1000 in space 1: B = 0; 4 KiB; 8 KiB, for which it is misaligned; with a reserved bit set; of s3, no context. -/
theorem witness_Watchpoints :
    let h : Sheaf := ((((tSheaf.sset 1 0x1000000000001000).sset 3 64).sset 6 0x70C).sset 7 0x70D).sset 8 0x74C
    let s : State := { tBy tIssue h with sysCtx := some 0 }
    let n := fun (k : Nat) => ((s.readS h 0 k).extractLsb' 0 6).toNat
    let code := ((h.sget 1).extractLsb' 60 4).toNat
    s.Issuing tIssue h ∧ s.supervisor h.ctx ∧ s.readS h 0 5 = 0 ∧ 3 < (s.ctx 0).watch.length ∧ 64 ≤ (h.sget 3).toNat ∧
      (s.readS h 0 6 ≠ 0 ∧ n 6 = 12 ∧ (s.readS h 0 6).extractLsb' 6 2 = 0 ∧ (s.readS h 0 6).extractLsb' 11 53 = 0 ∧ code = 1 ∧
        (h.sget 1).extractLsb' 56 4 = 0 ∧ ((h.sget 1).extractLsb' 0 56).toNat % 2 ^ n 6 = 0) ∧
      (s.readS h 0 7 ≠ 0 ∧ n 7 = 13 ∧ ¬ ((h.sget 1).extractLsb' 0 56).toNat % 2 ^ n 7 = 0) ∧
      (s.readS h 0 8 ≠ 0 ∧ n 8 = 12 ∧ (s.readS h 0 8).extractLsb' 6 2 ≠ 0) := by
  and_intros <;> first | exact tBy_issuing _ _ rfl | exact ⟨rfl, rfl⟩ | decide +kernel

/-- A load of lane 0 that has run past its fault, of 4 bytes at address 0 of a space. -/
def tFaulted (p : Space) : Pending :=
  { id := 3, pc := 0x1000, regs := [9], lanes := 1, faults := [⟨0, .xlate2, 0⟩], again := some ⟨.xlate2, p, .b32, none, 9, [⟨0, 0⟩], 0x1000⟩ }

def tBehind (p : Space) : State := tBy tOne { tSheaf with pend := [tFaulted p] }

/-- Address 0 in the slice, in the team's scratch, and in `.gl`; and an address that no `.cl` team has, whose fault is mappable or not. -/
theorem witness_Loads :
    let A := fun l => tSheaf.sget 3 + (tSheaf.vget l 2).setWidth 64
    (tOneState.Issuing tOne tSheaf ∧ tOneState.orderWait? true false = none) ∧
    (∀ p ∈ [Space.ln, .sp, .cl, .bn, .gl, .ac],
      tOneState.watchLanes .load p 4 A = [] ∧ (∀ f ∈ (tOneState.loadChecks p 4 A).1.bad, f.cause ≠ .uncorr) ∧
      (tOneState.loadChecks p 4 A).2.meetsRemote 1 (tOneState.loadChecks p 4 A).1.ok 4 = false ∧ tOneState.behindLoad p 4 A [0] = none) ∧
    (∀ p ∈ [Space.ln, .gl],
      (tBehind p).orderWait? true false = none ∧ (tBehind p).watchLanes .load p 4 A = [] ∧
      (let c := (tBehind p).loadChecks p 4 A
       c.2.meetsRemote 1 c.1.ok 4 = false ∧ c.2.behindLoad p 4 A (c.1.ok.map fun y => y.1) = some (tFaulted p))) ∧
    ({ tOneState with ctxs := [(0, { watch := [{ ld := true, addr := BitVec.ofNat 64 (spaceCode .gl * 2 ^ 60) }, {}, {}, {}] })] } : State).watchLanes .load .gl 4 A ≠ [] ∧
    (let s : State := { tOneState with rsts := [tStore] }
     (s.loadChecks .gl 4 A).2.meetsRemote 1 (s.loadChecks .gl 4 A).1.ok 4 = true) :=
  ⟨⟨tBy_issuing _ _ rfl, rfl⟩, by decide +kernel, by decide +kernel, by decide +kernel, by decide +kernel⟩

/-- The last word of a lane's slice. -/
theorem witness_OwnSliceAccesses :
    let h := tSheaf.sset 3 1020
    (tBy tOne h).Issuing tOne h ∧ tOne.regback = none ∧ (tBy tOne h).orderWait? true false = none ∧ ((tBy tOne h).launchOf h).slicesSize = 1024 ∧
      (h.sget 3 + 0#64).toNat % 4 = 0 ∧ (h.sget 3 + 0#64).toNat + 4 ≤ ((tBy tOne h).launchOf h).slicesSize ∧
      (tBy tOne h).behindLoad .ln 4 (fun _ => h.sget 3 + 0#64) (lanesOf tOne.lanes) = none :=
  ⟨tBy_issuing _ _ rfl, rfl, rfl, by decide +kernel, by decide +kernel, by decide +kernel, by decide +kernel⟩

/-- A store that passes; one that meets a remote store; a misaligned one; an accumulator store at the last word. -/
theorem witness_Stores :
    (tOneState.Issuing tOne tSheaf ∧ tOneState.orderWait? true false = none ∧ ∀ p ∈ [Space.ln, .sp, .gl],
      let c := tOneState.checkLanes .store p 4 (fun _ => 0) [0]
      c.1.bad = [] ∧ c.2.watchLanes .store p 4 (fun _ => 0) = [] ∧ (c.2.meetsRemote 1 c.1.ok 4 || c.2.storeWaits tSheaf c.1.ok) = false ∧
        c.2.behindLoad p 4 (fun _ => 0) (c.1.ok.map fun y => y.1) = none) ∧
    (∀ p ∈ [Space.ln, .gl],
      let c := (tBehind p).checkLanes .store p 4 (fun _ => 0) [0]
      (tBehind p).orderWait? true false = none ∧ c.1.bad = [] ∧ c.2.watchLanes .store p 4 (fun _ => 0) = [] ∧
        (c.2.meetsRemote 1 c.1.ok 4 || c.2.storeWaits tSheaf c.1.ok) = false ∧
        c.2.behindLoad p 4 (fun _ => 0) (c.1.ok.map fun y => y.1) = some (tFaulted p)) ∧
    (let c := ({ tOneState with rsts := [tStore] } : State).checkLanes .store .gl 4 (fun _ => 0) [0]
     c.1.bad = [] ∧ c.2.watchLanes .store .gl 4 (fun _ => 0) = [] ∧ (c.2.meetsRemote 1 c.1.ok 4 || c.2.storeWaits tSheaf c.1.ok) = true) ∧
    (tOneState.checkLanes .store .gl 4 (fun _ => 2) [0]).1.bad ≠ [] ∧
    tOne.lanes ≠ 0 ∧ (0x3FFFC#64).toNat % 4 = 0 ∧ (0x3FFFC#64).toNat < 2 ^ 18 := by
  and_intros <;> first | exact tBy_issuing _ _ rfl | exact ⟨rfl, rfl⟩ | decide +kernel

/-- An ordered store that goes on; one behind a faulted load; one whose lane still has a ticket. -/
theorem witness_OrderedStores :
    (tOneState.Issuing tOne tSheaf ∧ tOneState.orderWait? true true = none ∧
      let c := tOneState.checkLanes .store .gl 4 (fun l => tSheaf.vget64 l 2) [0]
      c.1.bad = [] ∧ c.2.watchLanes .store .gl 4 (fun l => tSheaf.vget64 l 2) = [] ∧ (c.2.meetsRemote 1 c.1.ok 4 || c.2.storeWaits tSheaf c.1.ok) = false ∧
        c.2.behindLoad .gl 4 (fun l => tSheaf.vget64 l 2) (c.1.ok.map fun y => y.1) = none) ∧
    (let c := (tBehind .gl).checkLanes .store .gl 4 (fun l => tSheaf.vget64 l 2) [0]
     (tBehind .gl).orderWait? true false = none ∧ c.1.bad = [] ∧ c.2.watchLanes .store .gl 4 (fun l => tSheaf.vget64 l 2) = [] ∧
       (c.2.meetsRemote 1 c.1.ok 4 || c.2.storeWaits tSheaf c.1.ok) = false ∧
       c.2.behindLoad .gl 4 (fun l => tSheaf.vget64 l 2) (c.1.ok.map fun y => y.1) = some (tFaulted .gl)) ∧
    (({ tOneState with seqQ := [{ core := 0, sheaf := 1, lane := 0 }] } : State).orderWait? true false).isSome = true ∧
    (({ tOneState with rsts := [tStore] } : State).orderWait? true true).isSome = true :=
  ⟨⟨tBy_issuing _ _ rfl, rfl, by decide +kernel⟩, by decide +kernel, rfl, rfl⟩

theorem witness_PlacesReadAndWrite : tState.sheaf? tSheaf.id = some tSheaf ∧ tState.team? 7 = some tTeam ∧ barnAlias < peerBase ∧
    (tState.ctx tSheaf.ctx).regionOf 0 = none := ⟨rfl, rfl, by decide, by decide +kernel⟩

/-- Atomics on scratch and on `.gl`; behind a faulted load; a misaligned one. -/
theorem witness_Atomics :
    (tOneState.Issuing tOne tSheaf ∧ tOneState.orderWait? true true = none ∧ tOneState.orderWait? false true = none ∧ (tOneState.teamIn tSheaf 0).isSome ∧
      ∀ p ∈ [Space.sp, .gl],
        let c := tOneState.checkLanes .atomic p 4 (fun l => tSheaf.vget64 l 10) [0]
        c.1.bad = [] ∧ c.2.watchLanes .atomic p 4 (fun l => tSheaf.vget64 l 10) = [] ∧ (c.2.meetsRemote 1 c.1.ok 4 || c.2.storeWaits tSheaf c.1.ok) = false ∧
          c.2.behindLoad p 4 (fun l => tSheaf.vget64 l 10) (c.1.ok.map fun y => y.1) = none) ∧
    (let c := (tBehind .gl).checkLanes .atomic .gl 4 (fun l => tSheaf.vget64 l 10) [0]
     c.1.bad = [] ∧ c.2.watchLanes .atomic .gl 4 (fun l => tSheaf.vget64 l 10) = [] ∧ (c.2.meetsRemote 1 c.1.ok 4 || c.2.storeWaits tSheaf c.1.ok) = false ∧
       c.2.behindLoad .gl 4 (fun l => tSheaf.vget64 l 10) (c.1.ok.map fun y => y.1) = some (tFaulted .gl)) ∧
    (let c := ({ tOneState with rsts := [tStore] } : State).checkLanes .atomic .gl 4 (fun l => tSheaf.vget64 l 10) [0]
     c.1.bad = [] ∧ c.2.meetsRemote 1 c.1.ok 4 = true) ∧
    (let c := tOneState.checkLanes .atomic .gl 4 (fun l => tSheaf.vget64 l 10) [0]
     c.2.teamIn tSheaf 1 = none ∧ ∀ f ∈ c.1.bad, causeRank .space ≤ causeRank f.cause) ∧
    (tOneState.checkLanes .atomic .gl 8 (fun _ => 4) [0]).1.bad ≠ [] :=
  ⟨⟨tBy_issuing _ _ rfl, rfl, rfl, by decide, by decide +kernel⟩, by decide +kernel, by decide +kernel, by decide +kernel, by decide +kernel⟩

theorem witness_CacheAndFenceInstructions : tOneState.Issuing tOne tSheaf ∧ tOneState.orderWait? true false = none ∧ tOneState.orderWait? true true = none ∧
    tOneState.orderWait? false true = none ∧
    (let c := tOneState.checkLanes .load .gl 1 (tOneState.ea 3 (.vec 2) 1) [0]
     c.1.bad = [] ∧ c.2.watchLanes .load .gl 1 (tOneState.ea 3 (.vec 2) 1) = [] ∧ c.2.meetsRemote 1 (c.1.ok.map fun x => (x.1, x.2.line)) 128 = false ∧
       c.2.behindLoad .gl 128 (fun l => tOneState.ea 3 (.vec 2) 1 l &&& ~~~127) (c.1.ok.map fun y => y.1) = none) ∧
    (let c := (tBehind .gl).checkLanes .load .gl 1 ((tBehind .gl).ea 3 (.vec 2) 1) [0]
     c.1.bad = [] ∧ c.2.meetsRemote 1 (c.1.ok.map fun x => (x.1, x.2.line)) 128 = false ∧
       c.2.behindLoad .gl 128 (fun l => (tBehind .gl).ea 3 (.vec 2) 1 l &&& ~~~127) (c.1.ok.map fun y => y.1) = some (tFaulted .gl)) ∧
    (∀ y ∈ tSheaf.peerDirty, tOneState.peersDown.contains (moduleOf y) = false) ∧
    (tOneState.icinvCores tSheaf .sheaf).contains tSheaf.core = true ∧
    (let c := ({ tOneState with rsts := [tStore] } : State).checkLanes .load .gl 1 (tOneState.ea 3 (.vec 2) 1) [0]
     c.2.meetsRemote 1 (c.1.ok.map fun x => (x.1, x.2.line)) 128 = true) :=
  ⟨tBy_issuing _ _ rfl, rfl, rfl, rfl, by decide +kernel, by decide +kernel, by decide +kernel, by decide +kernel, by decide +kernel⟩

/-- Module 3's window, its entry of the peer table at address 0x1000; a misaligned address. -/
theorem witness_RemoteStores :
    let s : State := { tOneState with
      cores := [(0, { tCore with tlb := [⟨0, 0, 0, peerBase + 3 * 2 ^ 38, 0x200000, true, true, true, 0x200000⟩] })]
      ctxs := [(0, { peerTable := 0x1000 })], mem := [(0x1030, 7), (0x1031, 38)] }
    s.Issuing tOne tSheaf ∧ s.orderWait? true false = none ∧
      (s.rstLanes 4 (fun l => tSheaf.vget64 l 2) [0]).1.2 = [] ∧ (s.rstLanes 4 (fun l => tSheaf.vget64 l 2) [0]).1.1 ≠ [] ∧
      (s.rstLanes 4 (fun l => tSheaf.vget64 l 2) [0]).2.watchLanes .store .gl 4 (fun l => tSheaf.vget64 l 2) = [] ∧
      (s.rstLanes 4 (fun _ => 2) [0]).1.2 ≠ [] ∧
      (s.rstLanes 4 (fun l => tSheaf.vget64 l 2) [0]).2.behindLoad .gl 4 (fun l => tSheaf.vget64 l 2) [0] = none ∧
      (let u : State := { s with sheaves := (tBehind .gl).sheaves }
       let r := u.rstLanes 4 (fun l => tSheaf.vget64 l 2) [0]
       r.1.2 = [] ∧ r.2.watchLanes .store .gl 4 (fun l => tSheaf.vget64 l 2) = [] ∧
         r.2.behindLoad .gl 4 (fun l => tSheaf.vget64 l 2) (r.1.1.map fun y => y.1) = some (tFaulted .gl)) :=
  ⟨⟨rfl, rfl⟩, rfl, by decide +kernel, by decide +kernel, by decide +kernel, by decide +kernel, by decide +kernel, by decide +kernel⟩

/-- All lanes gathered in the cycle before; and lane 0 alone, a handler, an empty slot. -/
theorem witness_BarrierArrivals :
    (tOneState.Issuing tOne tSheaf ∧ tOne.lanes ≠ 0 ∧ tSheaf.gatherAt tOne.pc = none ∧ tSheaf.tl = 0 ∧
      (tOneState.teamIn tSheaf 0).isSome ∧ tOneState.teamIn tSheaf 1 = none) ∧
    (let h : Sheaf := { tSheaf with tl := 1 }
     (tBy tOne h).Issuing tOne h ∧ h.tl ≠ 0) ∧
    (let w : Wait := ⟨BitVec.allOnes 64, 0x1000, .gather 0 0 0 0, 0, false, 0, 0⟩
     let h : Sheaf := { tSheaf with waits := [w] }
     let s : State := { tBy tIssue h with cycle := 1 }
     s.Issuing tIssue h ∧ h.gatherAt tIssue.pc = some w ∧ tIssue.lanes &&& ~~~w.lanes = 0 ∧ h.live &&& ~~~w.lanes = 0 ∧ w.since < s.now ∧
       (∀ l, l < 64 → w.lanes.getLsbD l → (h.lane l).pc = tIssue.pc) ∧ h.tl = 0 ∧ h.pend = [] ∧ s.seqQ = [] ∧ s.rsts = [] ∧ (h.satarm && tTeam.satBefore s.now) = false ∧ tTeam.arrived.contains h.number = false ∧
       s.teamIn h 0 = some tTeam) ∧
    (let h : Sheaf := { tSheaf with ctrl := 0x802100 }
     let tm : Team := { tTeam with sat := true, arrived := [0] }
     (h.satarm && tm.satBefore 1) = true ∧ tm.arrived.contains h.number = true ∧ (tTeam.satBefore 1) = false) := by
  and_intros <;> first | exact tBy_issuing _ _ rfl | exact ⟨rfl, rfl⟩ | decide +kernel

theorem witness_GenerationsComplete :
    (let tm : Team := { tTeam with arr := 1, arrived := [0], evt := true }
     let s : State := { tState with teams := [tm] }
     s.team? tm.id = some tm ∧ tm.evt = true ∧ tm.need ≤ tm.arr ∧ tm.pend ≤ 0) ∧
    tState.team? tTeam.id = some tTeam ∧ ¬ (tTeam.evt = true ∧ tTeam.need ≤ tTeam.arr ∧ tTeam.pend ≤ 0) :=
  ⟨by decide, by decide, by decide⟩

/-- A generation that has passed, the present one; the largest expectation, and one past it. -/
theorem witness_BarrierWaitsAndGates :
    (let tm : Team := { tTeam with gen := 1 }
     let h := (tSheaf.sset 2 (2 ^ 31 - 1)).sset 3 (2 ^ 31)
     let s : State := { tBy tIssue h with teams := [tm] }
     s.Issuing tIssue h ∧ s.teamIn h 0 = some tm ∧ tm.ended = false ∧ h.tl = 0 ∧ 1 ≤ (tm.gen - (s.readS h 0 1).setWidth 32).toNat ∧
       1 ≤ (s.readS h 0 2).toNat ∧ (s.readS h 0 2).toNat < 2 ^ 31 ∧ s.pendNow tm + (s.readS h 0 2).toNat < (2 ^ 31 : Int) ∧ ¬ (s.readS h 0 3).toNat < 2 ^ 31 ∧
       s.teamIn h 1 = none ∧ (s.launchOf h).dependent = false ∧ s.orderWait? true true = none) ∧
    ¬ (1 ≤ (tTeam.gen - (tState.readS tSheaf 0 1).setWidth 32).toNat) ∧
    (let l : Launch := { loadedLaunch 0 with dependent := true, gateOpen := true }
     (({ tState with launches := [l] } : State).launchOf tSheaf).dependent = true ∧ (({ tState with launches := [l] } : State).launchOf tSheaf).gateOpen = true) := by
  and_intros <;> first | exact tBy_issuing _ _ rfl | exact ⟨rfl, rfl⟩ | decide +kernel

theorem witness_TokenAndChunkWaits :
    (tState.Issuing tIssue tSheaf ∧ tState.teamIn tSheaf 1 = none ∧ tState.teamIn tSheaf 0 = some tTeam ∧ tState.readS tSheaf 0 1 = 0 ∧
      (32767 : Nat) < 2 ^ 15 ∧ (1 : Nat) ≤ 2 ^ 15) ∧
    (let w : Wait := ⟨BitVec.allOnes 64, 0x1000, .token 0 0 0, 0, false, 0, 0⟩
     let h : Sheaf := { tSheaf with waits := [w] }
     let s : State := { tBy tIssue h with cycle := 1 }
     s.sheaf? 1 = some h ∧ h.tl = 0 ∧ (0 : Nat) < s.now ∧ tokenReached ((s.resOf h).bank.getD 0 0) 0 = true) ∧
    (let w : Wait := ⟨BitVec.allOnes 64, 0x1000, .chunk 7 0 0 1 true, 0, false, 0, 0⟩
     let h : Sheaf := { tSheaf with waits := [w] }
     let tm : Team := { tTeam with maps := [(0, 1)] }
     let s : State := { tBy tIssue h with cycle := 1, teams := [tm] }
     s.sheaf? 1 = some h ∧ s.team? 7 = some tm ∧ w.since < s.now ∧ tm.quarter 0 0 &&& 1 = 1 ∧ ¬ tTeam.quarter 0 0 &&& 1 = 1) := by
  and_intros <;> first | exact tBy_issuing _ _ rfl | exact ⟨rfl, rfl⟩ | decide +kernel

theorem witness_Forks :
    (let s : State := { tState with launches := [{ loadedLaunch 0 with carry := [[]] }] }
     s.Issuing tIssue tSheaf ∧ tSheaf.pend = [] ∧ s.orderWait? true true = none ∧ tSheaf.tl = 0 ∧ (s.readS tSheaf 0 1).toNat % 4 = 0 ∧
       (s.readS tSheaf 0 1).toNat < 2 ^ 56 ∧ 0 < (s.launchOf tSheaf).carry.length ∧ (s.launchOf tSheaf).carry.length ≤ 1 ∧
       (¬ ((s.ctx 0).depth 0 = 15 ∨ (s.ctx 0).overQuota = true ∨ ∀ r, 1 ≤ r → r ≤ 65535 → r ∈ s.revsUsed)) ∧ (s.core 0).dequeFull = false) ∧
    (let c : Context := { revs := [⟨9, 8, 15, [], []⟩] }
     ({ tState with ctxs := [(0, c)] } : State).ctx 0 = c ∧ c.depth 9 = 15) ∧
    (∀ r, 1 ≤ r → r ≤ 65535 → r ∈ ({ tState with ctxs := [(0, { revs := (List.range 65536).map fun k => ⟨k, 0, 1, [], []⟩ })] } : State).revsUsed) ∧
    (let s : State := { tState with cores := [(0, { tCore with dequeStart := 64 })] }
     (s.core 0).dequeFull = true ∧ (s.drawCold 1 (s.coldOf tSheaf)).1 = none ∧
       (let c : State := { s with cores := [(0, { tCore with dequeStart := 64, res := [{ ctx := 0, cold := [(1, 5)] }] })] }
        (c.drawCold 1 (c.coldOf tSheaf)).1 = some 0x500)) ∧
    (let h := (tSheaf.sset 1 2).sset 2 (2 ^ 56)
     (h.sget 1).toNat % 4 ≠ 0 ∧ (h.sget 2).toNat % 4 = 0 ∧ 2 ^ 56 ≤ (h.sget 2).toNat) := by
  and_intros <;> first
    | exact tBy_issuing _ _ rfl
    | exact ⟨rfl, rfl⟩
    | exact fun x => x.elim (by decide +kernel) fun y => y.elim (by decide +kernel) fun z => absurd (z 1 (by decide) (by decide)) (by decide +kernel)
    | exact fun r _ h => by simp [State.revsUsed]; omega
    | decide +kernel

theorem witness_Joins :
    let h : Sheaf := ((({ tSheaf with children := [⟨0, 5, 2, false⟩] } : Sheaf).sset 1 5).sset 2 0x20000).sset 3 6
    let s := tBy tIssue h
    s.Issuing tIssue h ∧ h.pend = [] ∧ h.tl = 0 ∧
      ((s.readS h 0 1).extractLsb' 16 2 ≠ 2 ∧ ∃ c ∈ h.children, c.rev = (s.readS h 0 1).toNat % 65536 ∧ c.seq = (s.readS h 0 1).extractLsb' 32 16) ∧
      (s.readS h 0 2).extractLsb' 16 2 = 2 ∧ (s.readS h 0 3).extractLsb' 16 2 ≠ 2 ∧
      ∀ c ∈ h.children, ¬ (c.rev = (s.readS h 0 3).toNat % 65536 ∧ c.seq = (s.readS h 0 3).extractLsb' 32 16) :=
  ⟨tBy_issuing _ _ rfl, rfl, rfl, by decide +kernel, by decide +kernel, by decide +kernel, by decide +kernel⟩

theorem witness_RegionTable :
    let h := (((tSheaf.sset 1 63).sset 2 64).sset 3 3).sset 4 33
    let s := tBy tIssue h
    s.Issuing tIssue h ∧ (s.readS h 0 1).toNat ≤ 63 ∧ (s.readS h 0 3).toNat ≤ 3 ∧ 63 < (s.readS h 0 2).toNat ∧ s.orderWait? true true = none ∧
      (s.readS h 0 4).toNat % 32 ≠ 0 ∧ (s.readS h 0 5).toNat % 32 = 0 ∧
      (s.readVirtual 0 0 0 0 32 .load).1.toOption = some (List.replicate 32 0) ∧ (s.ctx 0).regionOk 63 0 = true ∧ (s.ctx 0).revs = [] ∧
      (s.readRegions 0).ctx 0 = s.ctx 0 ∧ (s.ctx 0).regionOk 0 3 = false := by
  and_intros <;> first | exact tBy_issuing _ _ rfl | exact ⟨rfl, rfl⟩ | decide +kernel

theorem witness_GivingBack :
    let h := ((tSheaf.sset 1 128).sset 2 4096).sset 3 1
    let s := tBy tIssue h
    s.Issuing tIssue h ∧ h.pend = [] ∧ (s.readS h 0 1).toNat % 16 = 0 ∧ 128 ≤ (s.readS h 0 1).toNat ∧ (s.readS h 0 1).toNat ≤ (s.launchOf h).budget ∧
      h.wb + 128 ≤ (s.readS h 0 1).toNat ∧ ¬ (s.readS h 0 2).toNat ≤ (s.launchOf h).budget ∧ (s.readS h 0 1).toNat % 4096 ≠ 0 ∧
      (s.readS h 0 2).toNat % 4096 = 0 ∧ s.teamIn h 1 = none ∧ s.teamIn h 0 = some tTeam ∧ tTeam.scope < 2 ∧ 1 ≤ (s.readS h 0 3).toNat ∧
      (s.readS h 0 2).toNat + 4096 * (s.readS h 0 3).toNat ≤ tTeam.allocated ∧ tTeam.floor ≤ (s.readS h 0 2).toNat ∧ ¬ 1 ≤ (s.readS h 0 5).toNat := by
  and_intros <;> first | exact tBy_issuing _ _ rfl | exact ⟨rfl, rfl⟩ | decide +kernel

/-- A byte-wide copy card in `.gl`, one element, no completion target, at virtual address 0. -/
def tCardBytes (dst : Byte) : Memory :=
  [(barnAlias, 1), (barnAlias + 2, 3), (barnAlias + 167, 0x40), (barnAlias + 175, dst), (barnAlias + 176, 1), (barnAlias + 180, 1)]

def tCard (dst : Byte) : List Byte := Memory.read (tCardBytes dst) barnAlias 256

/-- Posts of a legal card, of one into accumulator memory, of an illegal one, of one that is not the team's producer's; of a card that cannot
be read; into a full queue. -/
theorem witness_EnginePosts :
    let s : State := { tOneState with mem := tCardBytes 0x40 }
    (s.Issuing tOne tSheaf ∧ s.orderWait? true true = none ∧ s.teamIn tSheaf 0 = some tTeam ∧ s.teamIn tSheaf 1 = none ∧ (s.readS tSheaf 0 1).toNat % 128 = 0 ∧
      (s.readS tSheaf 0 1).toNat < 2 ^ 56 ∧ (s.readCard 0 0 0 0).1.toOption = some (tCard 0x40) ∧ tTeam.producer = tSheaf.number ∧ tSheaf.task = false ∧
      (cardEngine (tCard 0x40) == 1 && cardOk (tCard 0x40) tSheaf.slots) = true ∧ cardIntoAcc (tCard 0x40) = false ∧ s.queueRoom 0 1 0 = true) ∧
    ((cardEngine (tCard 0x60) == 1 && cardOk (tCard 0x60) tSheaf.slots) = true ∧ cardIntoAcc (tCard 0x60) = true) ∧
    (cardEngine (tCard 0x40) == 2 && cardOk (tCard 0x40) tSheaf.slots) = false ∧
    ({ tTeam with producer := 1 } : Team).producer ≠ tSheaf.number ∧
    (match ({ s with cores := [] } : State).readCard 0 0 0 0 with | (.error c, _) => c != .uncorr | _ => false) = true ∧
    ({ s with jobs := List.replicate 64 { id := 9, engine := 1, field := 0, core := 0, ctx := 0 } } : State).queueRoom 0 1 0 = false ∧
    (let h := (tSheaf.sset 1 64).sset 2 (2 ^ 56)
     (h.sget 1).toNat % 128 ≠ 0 ∧ (h.sget 2).toNat % 128 = 0 ∧ 2 ^ 56 ≤ (h.sget 2).toNat) := by
  and_intros <;> first | exact tBy_issuing _ _ rfl | exact ⟨rfl, rfl⟩ | decide +kernel

/-- A clear that passes its checks, one that names no plane; a drain to a misaligned address; a full FIFO. -/
theorem witness_MatrixPosts :
    let h := (tSheaf.sset 4 0x100).sset 8 1
    let s := tBy tOne h
    let c (op : MatOp) (a : Nat) : MatCmd := { id := s.nextId, ctx := h.ctx, launch := h.launch, op := op, set := 1, token := 0, s0 := h.sget a, s1 := h.sget (a + 1)
                                               s2 := h.sget (a + 2), s3 := h.sget (a + 3), satTeams := h.slots.filterMap id, posted := s.now }
    s.Issuing tOne h ∧ s.orderWait? true true = none ∧
      ((s.matCheck h (c .mclr 0)).1.align = false ∧ (s.matCheck h (c .mclr 0)).1.space = false ∧ (s.core 0).fifo.length < 64) ∧
      ((s.matCheck h (c .mclr 4)).1.align = false ∧ (s.matCheck h (c .mclr 4)).1.space = true) ∧
      (s.matCheck h (c (.mldw (some .bf16)) 8)).1.align = true ∧
      64 ≤ (({ s with cores := [(0, { tCore with fifo := List.replicate 64 (c .mclr 0) })] } : State).core 0).fifo.length :=
  ⟨tBy_issuing _ _ rfl, rfl, by decide +kernel, by decide +kernel, by decide +kernel, by decide +kernel⟩

/-- A ring of two slots: room for one, none for two more, never for three. -/
theorem witness_RingPushesAndStatus :
    let h := ((tSheaf.sset 1 0).sset 2 0x100000000).sset 3 0x200000000
    let s : State := { tBy tOne h with cores := [(0, { tCore with rings := [{ logsz := 1, head := 1 }, {}, {}, {}] })] }
    let r := (s.core 0).rings.getD 0 {}
    s.Issuing tOne h ∧ s.orderWait? true true = none ∧ 0 < (s.core 0).rings.length ∧ r.filled + (((h.sget 1).extractLsb' 32 16).toNat + 1) ≤ 2 ^ r.logsz ∧
      2 ^ r.logsz < r.filled + (((h.sget 2).extractLsb' 32 16).toNat + 1) ∧ ((h.sget 2).extractLsb' 32 16).toNat + 1 ≤ 2 ^ r.logsz ∧
      2 ^ r.logsz < ((h.sget 3).extractLsb' 32 16).toNat + 1 := by
  and_intros <;> first | exact tBy_issuing _ _ rfl | exact ⟨rfl, rfl⟩ | decide +kernel

/-- Each bring-up step in its turn, on its core, and out of turn. -/
theorem witness_ResetAndBringUp :
    State.reset.fenced.contains (.fleskapa 5) = false ∧ ({ State.reset with fenced := [.fleskapa 5] } : State).fenced.contains (.fleskapa 5) = true ∧
    State.reset.coreRuns 2 = false ∧ State.reset.keyHash = [] ∧ State.reset.keyHash ≠ [1] ∧
    (∀ n ∈ [2, 4, 6, 1], ({ State.reset with started := [5, 0, 1, 2, 3, 4, 6, 7] } : State).coreRuns n = true) ∧
    State.reset.fwstep + 1 = 1 ∧ State.reset.fwerr = false ∧ State.reset.rollback ≤ 0 ∧ State.reset.fwstep + 1 ≠ 2 ∧
    (∀ n ∈ [1, 2, 3, 4], ({ State.reset with fwstep := BitVec.ofNat 8 n } : State).fwstep + 1 = BitVec.ofNat 8 (n + 1)) ∧
    (decide (1 ≤ 0) = false) := by decide

/-- An enabled queue of 16 entries; its tail one past its head, and 17 past it; a legal decoder, an illegal one; a mailbox with room, a full one. -/
theorem witness_HostAndFirmwareWrites :
    (let s : State := { State.reset with ready := true, queues := [(0, { enable := true, log := 4 })] }
     s.ready = true ∧ (s.queue 0).enable = true ∧ 1 ≤ ((1 : BitVec 32) - (s.queue 0).head).toNat ∧ ((1 : BitVec 32) - (s.queue 0).head).toNat ≤ 2 ^ (s.queue 0).log ∧
       ¬ ((17 : BitVec 32) - (s.queue 0).head).toNat ≤ 2 ^ (s.queue 0).log ∧ (s.hostErrWrite - s.hostErrHead).toNat ≠ 256 ∧ s.errsNow = [] ∧ (s.queue 1).enable = false) ∧
    State.reset.ready = false ∧
    decoderOk ⟨0, 2 ^ 28, 256, [0]⟩ = true ∧ decoderOk ⟨0, 0, 0, []⟩ = false ∧
    (State.reset.mailboxes[7]? = some ({} : Mailbox) ∧ ({} : Mailbox).messages.length < 16 ∧ ({} : Mailbox).waiting = [] ∧ ({} : Mailbox).reporters = []) ∧
    (let m : Mailbox := { messages := List.replicate 16 (0, []) }
     ({ State.reset with mailboxes := [m] } : State).mailboxes[0]? = some m ∧ 16 ≤ m.messages.length ∧ m.reporters.length < 4 ∧
       4 ≤ ({ m with reporters := List.replicate 4 (9, []) } : Mailbox).reporters.length) ∧
    (∀ n ∈ [1, 2, 3, 4, 6, 7], State.reset.coreRuns n = false ∧ ({ State.reset with started := [5, 0, 1, 2, 3, 4, 6, 7] } : State).coreRuns n = true) ∧
    State.reset.fenced.contains (.fleskapa 5) = false ∧ ({ State.reset with fenced := [.fleskapa 5] } : State).fenced.contains (.fleskapa 5) = true := by
  and_intros <;> decide +kernel

/-- A ring at guest address 0x200000 whose second stage maps the lowest GiB; its entry has the type and bytes given. -/
def tRing (bytes : Memory) (bitmap : BitVec 32) : State :=
  { State.reset with
    ready := true
    queues := [(0, { base := 0x200000, log := 4, enable := true, bitmap := bitmap, tail := 1 })]
    ctxs := [(0, { root2 := 0x100000 })]
    cores := [(1024, { tlb := [tTlb] }), (0, { res := [{ ctx := 0 }] })]
    fields := [(0, tBarn)]
    mem := [(0x100000, 0x01), (0x100001, 0x10), (0x100002, 0x10), (0x101000, 0x01), (0x101001, 0x20), (0x101002, 0x10), (0x102000, 0x3D)] ++ bytes }

def tEntry (bytes : Memory) : List Byte := Memory.read bytes 0x200000 64

/-- An entry of each type at the head; an empty ring; an entry the allow-list refuses, one with reserved bits. -/
theorem witness_RingCommands :
    (∀ n ∈ [1, 2, 3, 4, 5, 6, 7, 8, 9, 31], (tRing [(0x200000, BitVec.ofNat 8 n)] 0x1FF).ringEntry 0 = some (tEntry [(0x200000, BitVec.ofNat 8 n)]) ∧
      entryType (tEntry [(0x200000, BitVec.ofNat 8 n)]) = n) ∧
    (tRing [] 0x1FF).ringEntry 0 = some (tEntry []) ∧ (tRing [] 0x1FF).ringEntry 1 = none ∧
    ((0x1FF : BitVec 32).getLsbD 8 = true ∧ (0 : BitVec 32).getLsbD 8 = false ∧ fieldOf (tEntry [(0x200000, 0x28)]) 0 1 = 40) ∧
    ((tRing [] 0x1FF).guestBytes 0 0 256).toOption = some (List.replicate 256 0) ∧
    (cardFormOk (tCard 0x40) && cardKind (tCard 0x40) == 3) = true ∧ (tRing [] 0).queueRoom 0 1 0 = true ∧
    (((tRing [] 0).guestAt 0 8 .store).toOption = some (barnAlias + 8) ∧ ((tRing [] 0).ctx 0).regionOf 8 = none) ∧
    ((tRing [] 0).wordReached 0 8 0 = true ∧ (tRing [] 0).wordReached 0 8 1 = false) ∧
    ((tRing [] 0).mayName 0 0 = true ∧ ((tRing [] 0).core 0).res? 0 = some { ctx := 0 } ∧ (tRing [] 0).queueRoom 0 5 0 = true ∧ (tRing [] 0).inFlight 0 = false) ∧
    ({ tRing [] 0 with jobs := List.replicate 64 { id := 9, engine := 5, field := 0, core := 0, ctx := 0 } } : State).queueRoom 0 5 0 = false ∧
    (tRing [] 0).coreRuns 1 = false ∧ ({ tRing [] 0 with started := [1] } : State).coreRuns 1 = true ∧
    (let s : State := { tRing [] 0 with queues := [(0, { hold := some (8, 0) })] }
     (s.queue 0).hold = some (8, 0)) := by
  and_intros <;> decide +kernel

/-- A launch ready to go whose descriptor is illegal; the first sheaf of a running launch; a core whose carve-out may change; a launch that is over;
one to restart, and one restarted before. -/
theorem witness_LaunchLife :
    (let l : Launch := { loadedLaunch 0 with state := 0 }
     let s : State := { tRing [] 0 with launches := [l] }
     s.nextLaunch = some l ∧ (s.guestBytes 0 0 256).toOption = some (List.replicate 256 0) ∧ (s.dispatchChecks l (List.replicate 256 0)).bad ≠ []) ∧
    (let l : Launch := { loadedLaunch 0 with state := 0 }
     let d := Memory.read [(8, 1), (12, 1), (15, 8)] 0 256
     let s : State := { tRing [(barnAlias + 8, 1), (barnAlias + 12, 1), (barnAlias + 15, 8)] 0 with launches := [l] }
     s.nextLaunch = some l ∧ (s.guestBytes 0 0 256).toOption = some d ∧ (s.dispatchChecks l d).bad = []) ∧
    State.reset.nextLaunch = none ∧
    (let l : Launch := { loadedLaunch 0 with sheafCount := 2, liveParts := 2, residentOnce := [] }
     let s : State := { State.reset with launches := [l], nextId := 1 }
     s.launch? 0 = some l ∧ (s.makeResident l 0 0 0).isSome = true ∧ s.makeResident l 2 0 0 = none) ∧
    (let l : Launch := { loadedLaunch 0 with carve := 1, residentOnce := [] }
     let s : State := { State.reset with launches := [l] }
     s.wantsCore l 0 = true ∧ s.coreEmpty 0 = true ∧ (s.core 0).carve ≠ 1 ∧ tState.coreEmpty 0 = false) ∧
    (let l : Launch := { loadedLaunch 0 with liveParts := 0 }
     ({ State.reset with launches := [l] } : State).launchOver l = true ∧ tState.launchOver (loadedLaunch 0) = false) ∧
    (let l : Launch := { loadedLaunch 0 with idempotent := true }
     let s : State := { State.reset with launches := [l], cores := [(0, { fenced := true })] }
     s.launch? 0 = some l ∧ l.state = 1 ∧ s.ranFenced l = true ∧ l.restarts = 0 ∧ l.spoiled = false ∧ l.closed = false ∧ ({ l with restarts := 1 } : Launch).restarts = 1) := by
  and_intros <;> decide +kernel

/-- A PC starved for a fairness period; a starving sheaf; a fold turn of 512 cycles; a task in a deque, and in the victim's; residencies to
squeeze, to complete, to expand; a page to move. -/
theorem witness_SchedulingAndResidency :
    (let h : Sheaf := { tSheaf with lanes := List.replicate 64 { pc := 0x1000, bwait := 256 }, starve := 4088 }
     let s := tBy tIssue h
     s.sheaf? 1 = some h ∧ h.prog = true ∧ h.starvedPc = some 0x1000 ∧ 4088 ≤ h.starve ∧ s.mayIssue h = true ∧ s.pipeOf h < (s.core h.core).pipes.length) ∧
    (let r : Res := { ctx := 0 }
     (cget (0, 0) r.turns 0).2 + 512 ≤ ({ tState with cycle := 512 } : State).now ∧ (({ tState with cycle := 512 } : State).core 0).res? 0 = some r) ∧
    (let h : Sheaf := { loadedSheaf 2 0 0 0 with task := true, place := .deque 0, parent := some 1, rev := 1 }
     let c : Context := { revs := [⟨1, 0, 1, [], []⟩] }
     let s : State := { tState with sheaves := [tSheaf, h], cores := [(0, { tCore with deque := [2] })], ctxs := [(0, c)] }
     (s.core 0).deque = [2] ∧ s.startTask 2 0 1 ≠ none ∧ s.startTask 2 0 0 = none) ∧
    (let h : Sheaf := { loadedSheaf 2 0 0 0 with task := true, place := .deque 1, parent := some 1, rev := 1 }
     let c : Context := { revs := [⟨1, 0, 1, [], []⟩] }
     let s : State := { tState with sheaves := [tSheaf, h], cores := [(0, tCore), (1, { deque := [2] })], ctxs := [(0, c)] }
     (s.core 0).deque = [] ∧ s.victimOf 0 = 1 ∧ (s.core 1).deque.getLast? = some 2 ∧ s.startTask 2 0 1 ≠ none) ∧
    (let h : Sheaf := { tSheaf with place := .phase 0 true 7 0 }
     let s : State := { tState with sheaves := [h], fields := [(0, { phases := [1] })] }
     (s.firstPhase 0 1 (s.phasesFor 0)).map (fun x => (x.1, x.2.1.id)) = some (0, 1)) ∧
    (let r : Res := { ctx := 0, noticed := true, forced := true, goal := 3 }
     r.noticed = true ∧ r.forced = true ∧ r.aim < r.level ∧ (({ tState with cores := [(0, { tCore with res := [r] })] } : State).core 0).res? 0 = some r) ∧
    (let r : Res := { ctx := 0, goal := 3, squeezing := true, target := 3, stopped := true }
     let s : State := { tState with cores := [(0, { tCore with res := [r] })] }
     (s.core 0).res? 0 = some r ∧ r.moves = [] ∧ r.returns = [] ∧ r.squeezing = true ∧ r.stopped = true ∧ s.beyond 0 0 r.target = [] ∧
       ({ s with teams := [], sheaves := [] } : State).pagesOut 0 0 r.target = [] ∧ ({ s with teams := [], sheaves := [] } : State).beyond 0 0 r.target = [] ∧ r.target ≤ r.aim ∧
       ({ r with goal := 2 } : Res).aim < r.target) ∧
    (let r : Res := { ctx := 0, goal := 7, level := 3, expandAt := some 0 }
     let s : State := { tState with cores := [(0, { tCore with res := [r] })] }
     (s.core 0).res? 0 = some r ∧ r.squeezing = false ∧ r.parking = false ∧ r.level < r.goal ∧ s.grantsFit 0 0 (r.level + 1) = true ∧ r.expandAt = some 0 ∧ (0 : Nat) ≤ s.now) ∧
    (let r : Res := { ctx := 0, squeezing := true, moves := [.team 7 1] }
     r.moves = .team 7 1 :: [] ∧ tState.team? 7 = some tTeam ∧ tTeam.ended = false ∧
       ({ r with moves := [], returns := [.team 7 1] } : Res).moves = [] ∧ ({ r with moves := [], returns := [.team 7 1] } : Res).returns = .team 7 1 :: []) := by
  and_intros <;> decide +kernel

/-- A machine whose context has a second stage, and its sheaf's register 5 spilled, with data for it on the way. -/
def tSpilled (root : BitVec 64) : State :=
  { tRing [] 0 with
    ctxs := [(0, { root2 := root })], cores := [(0, { res := [{ ctx := 0, cold := [(1, 5)] }] })]
    sheaves := [{ tSheaf with pend := [{ id := 3, pc := 0x1000, vals := [(0, 5, 9)], regs := [5], lanes := 1 }] }] }

/-- Memories that agree from an address up read alike there. -/
theorem read_above {m m' : Memory} {b : Nat} (h : ∀ a, b ≤ a → m.get a = m'.get a) :
    ∀ n a, b ≤ a → m.read a n = m'.read a n
  | 0, _, _ => rfl
  | n + 1, a, ha => by
    unfold Memory.read
    rw [h a ha, read_above h n (a + 1) (by omega)]

/-- A walk goes on in the table that an entry names. -/
theorem walk_table {read : Nat → Except Cause (BitVec 64)} {bad : Cause} {va l table t : Nat} {e : BitVec 64}
    (hr : read (table + va / (4096 * 512 ^ (l + 1)) % 512 * 8) = .ok e) (he : pteOf (l + 1) e = .table t) :
    walkFrom read bad va (l + 1) table = walkFrom read bad va l t := by
  rw [walkFrom, hr]
  simp only [he]

/-- A walk ends at a leaf. -/
theorem walk_leaf {read : Nat → Except Cause (BitVec 64)} {bad : Cause} {va l table b n : Nat} {r w x : Bool} {e : BitVec 64}
    (hr : read (table + va / (4096 * 512 ^ (l + 1)) % 512 * 8) = .ok e) (he : pteOf (l + 1) e = .leaf b n r w x) :
    walkFrom read bad va (l + 1) table = .ok ⟨b, n, r, w, x⟩ := by
  rw [walkFrom, hr]
  simp only [he]

/-- Register 5's backing slot is at 0x500 as long as the page tables stand; with no second stage it has none. -/
theorem witness_SheafEvents_slots :
    let h : Sheaf := { tSheaf with pend := [{ id := 3, pc := 0x1000, vals := [(0, 5, 9)], regs := [5], lanes := 1 }] }
    (tSpilled 0x100000).sheaf? 1 = some h ∧ (tSpilled 0x100000).coldRegs h [5] = [5] ∧ ((tSpilled 0x100000).slotOf h 5).isNone = false ∧
      (tSpilled 0).coldRegs h [5] = [5] ∧ ((tSpilled 0).slotOf h 5).isNone = true ∧ 0x500 + 256 ≤ peerBase ∧
      ∀ u : State, ({ u with sheaves := (tSpilled 0x100000).sheaves, cores := (tSpilled 0x100000).cores, mem := (tSpilled 0x100000).mem,
                             choices := (tSpilled 0x100000).choices } : State) = tSpilled 0x100000 →
        (∀ a, a < 0x500 ∨ 0x500 + 256 ≤ a → u.mem.get a = (tSpilled 0x100000).mem.get a) → u.slotOf h 5 = some 0x500 := by
  refine ⟨by decide +kernel, by decide +kernel, by decide +kernel, by decide +kernel, by decide +kernel, by decide +kernel, fun u hu hm => ?_⟩
  have hp : u.l2peer = [] := congrArg State.l2peer hu
  have hcs : u.ctxs = (tSpilled 0x100000).ctxs := by have := congrArg State.ctxs hu; exact this
  have hc : u.ctx 0 = (tSpilled 0x100000).ctx 0 := by
    unfold State.ctx; rw [hcs]
  have hr : ∀ a e, 0x600 ≤ a → u.hostValid a = true → a < peerBase →
      natOfBytes ((tSpilled 0x100000).mem.read a 8) = e →
      (if u.hostValid a then Except.ok (u.readDword (placeOf 0 a)) else .error Cause.xlate2) = .ok (BitVec.ofNat 64 e) := by
    intro a e ha hv hq he
    rw [if_pos hv, placeOf, if_neg (by omega), State.readDword, State.peerCopy, hp, ← he,
      ← read_above (fun x hx => hm x (Or.inr (by omega))) 8 a ha]
    rfl
  have hb (h : Sheaf) (hh : h.ctx = 0) : u.backingAddr h 5 = (tSpilled 0x100000).backingAddr h 5 := by
    unfold State.backingAddr; rw [hh, hc]
  have hv (a : Nat) (ha : a < barnAlias) : u.hostValid a = true := by unfold State.hostValid; rw [if_pos ha]
  have h5 : (tSpilled 0x100000).backingAddr { tSheaf with pend := [{ id := 3, pc := 0x1000, vals := [(0, 5, 9)], regs := [5], lanes := 1 }] } 5
      = 0x500 := by decide +kernel
  have hw : walkFrom (fun a => if u.hostValid a then .ok (u.readDword (placeOf 0 a)) else .error .xlate2) .xlate2 0x500 4 0x100000
      = .ok ⟨0, 4096 * 512 ^ 2, true, true, true⟩ := by
    rw [walk_table (hr _ _ (by decide) (hv _ (by decide)) (by decide) rfl) (t := 0x101000) (by decide +kernel),
      walk_table (hr _ _ (by decide) (hv _ (by decide)) (by decide) rfl) (t := 0x102000) (by decide +kernel)]
    exact walk_leaf (hr _ _ (by decide) (hv _ (by decide)) (by decide) rfl) (by decide +kernel)
  have h2 : u.stage2 0 0x500 = .ok (0x500, ⟨0, 4096 * 512 ^ 2, true, true, true⟩) := by
    have hroot : (u.ctx 0).root2.toNat = 0x100000 := hc ▸ by decide +kernel
    rw [State.stage2, if_neg (by decide), hroot, hw]
    exact if_pos (hv 0x500 (by decide))
  unfold State.slotOf
  rw [hb _ rfl, h5]
  exact (congrArg (fun x : Except Cause (Nat × Leaf) => match x with | .error _ => none | .ok (hpa, _) => some hpa) h2)

/-- A load's data, a sequencer result, a faulted load and its wait, a stuck collective, a pending NOTICE and EXPAND, a failing fetch. -/
theorem witness_SheafEvents :
    (let p : Pending := { id := 3, pc := 0x1000, vals := [(0, 5, 9)], lanes := 1 }
     let h : Sheaf := { tSheaf with pend := [p] }
     (tBy tIssue h).sheaf? 1 = some h ∧ h.pend.find? (fun p => p.id == 3) = some p ∧ p.tickets = 0 ∧ p.faults = [] ∧ p.scalar = none ∧ (∀ x ∈ p.vals, x.1 < 64) ∧
       (p.vals.map fun x => (x.1, x.2.1)).Nodup ∧ ({ p with tickets := 1 } : Pending).tickets ≠ 0 ∧ (tBy tIssue h).coldRegs h p.regs = [] ∧
       5 ∉ (tBy tIssue h).coldRegs h p.regs) ∧
    (let r : Replay := ⟨.xlate2, .gl, .b32, none, 5, [⟨0, 0⟩], 0x1000⟩
     let p : Pending := { id := 3, pc := 0x1000, lanes := 1, faults := [⟨0, .xlate2, 0⟩], again := some r, waitSince := some 0 }
     let h : Sheaf := { tSheaf with pend := [p] }
     let s := tBy tIssue h
     (s.replayLoad h r r.lanes).1.1 = [] ∧ s.behindEarlier h p r ⟨0, 0⟩ = false ∧
       s.behindEarlier { h with pend := [tFaulted .gl, p] } p r ⟨0, 0⟩ = false ∧
       s.behindEarlier { h with pend := [tFaulted .gl, { p with id := 4 }] } { p with id := 4 } r ⟨0, 0⟩ = true ∧ ({ p with again := none } : Pending).again = none ∧ h.pend.find? (fun p => p.id == 3) = some p ∧ p.again = some r ∧ p.waitSince = some 0 ∧ (winning p.faults).isSome = true ∧
       (0 : Nat) + 65536 ≤ ({ tBy tIssue h with cycle := 65536 } : State).now ∧ ({ tBy tIssue h with cycle := 65535 } : State).now < 65536) ∧
    (let h : Sheaf := { tSheaf with waits := [⟨1, 0x1000, .collective 3, 0, false, 0, 0⟩] }
     h.stuckCollective (2 ^ 20) = [⟨1, 0x1000, .collective 3, 0, false, 0, 0⟩] ∧ h.stuckCollective (2 ^ 20 - 1) = []) ∧
    (tSheaf.place = .resident ∧ tSheaf.handlerLanes ≠ 0 ∧ tSheaf.tl < 2 ∧ ({ tSheaf with tl := 2 } : Sheaf).tl = 2) ∧
    (let s : State := { tState with cores := [] }
     s.Issuing tIssue tSheaf ∧ tIssue.lanes ≠ 0 ∧ (match s.xlate 0 0 .fetch tIssue.pc.toNat with | (.error c, _) => c != .uncorr | _ => false) = true) := by
  and_intros <;> first | exact tBy_issuing _ _ rfl | exact ⟨rfl, rfl⟩ | decide +kernel

/-- A clear that may start and one that has started; a product that asks for its grant; one beyond its level's quadrants; one of an ended
launch; done; a full FIFO and one with room; queue room for a waiting post. -/
theorem witness_MatrixEvents :
    let c : MatCmd := { id := 3, ctx := 0, launch := 0, op := .mclr, set := 1, token := 0 }
    let m : MatCmd := { c with op := .mmul .bf16, s0 := 1 }
    let w (c : MatCmd) (k : Core → Core) : State := { tState with cores := [(0, k { tCore with fifo := [c], rings := [{ head := 1 }, {}, {}, {}] })] }
    ((w c id).cmd? 0 3 = some c ∧ (w c id).mayStart 0 c = some 1 ∧ c.needsGrant = false ∧ (w { c with started := true } id).mayStart 0 { c with started := true } = none) ∧
    ((w m id).mayStart 0 m = some 1 ∧ m.needsGrant = true ∧ m.askedAt = none ∧ 0 < (((w m id).core 0).rings.getD m.ring {}).filled ∧
      (((w m id).core 0).rings.getD 1 {}).filled = 0) ∧
    (let r : MatCmd := { m with started := true, run := 1 }
     (w r id).mustStop 0 r = false ∧ (w r fun k => { k with res := [] }).mustStop 0 r = true ∧ (w r fun k => { k with res := [] }).launchClosed 0 = false) ∧
    (let r : MatCmd := { m with started := true, run := 1 }
     let s : State := { w r id with launches := [{ loadedLaunch 0 with ended := some (1, 0, []), closed := true }] }
     s.mustStop 0 r = true ∧ s.launchClosed r.launch = true) ∧
    (let r : MatCmd := { c with started := true, stopped := true }
     (w r id).runSet 0 r = some 1 ∧ (w r id).setFree 0 r 1 = true ∧ r.onArray = false ∧ ({ r with op := .mmb } : MatCmd).onArray = true ∧
       (w r fun k => { k with res := [] }).runSet 0 r = none) ∧
    (({ c with done := true } : MatCmd).done = true ∧ c.token < 8 ∧ c.done = false ∧ (w c id).launchClosed c.launch = false ∧ ((w c id).core 0).res? 0 = some { ctx := 0 }) ∧
    (let r : MatCmd := { m with askedAt := some 0 }
     (w r id).pendingCmds 0 = [(0, r)] ∧ (w r id).mayStart 0 r = some 1 ∧ ((w r id).ramp 0).opened = none ∧
       (∀ x ∈ (w r id).pendingCmds 0, ∀ q, (((w r id).core x.1).quads.getD q {}).owner = none ∨ (((w r id).core x.1).quads.getD q {}).owner = some x.2.ctx) ∧
       ∀ x ∈ (w r id).pendingCmds 0, ∀ y ∈ (w r id).pendingCmds 0, x.1 = y.1 → x.2.ctx = y.2.ctx) ∧
    (let s : State := { tState with ramps := [(0, { opened := some 0 })], cycle := 1 }
     (s.ramp 0).opened = some 0 ∧ (s.now - 0) % 4 ≠ 0) ∧
    (let h : Sheaf := { tSheaf with waits := [⟨1, 0x1000, .fifo c, 0, false, 0, 0⟩] }
     (tBy tIssue h).sheaf? 1 = some h ∧ h.tl = 0 ∧ h.fifoWait = some (⟨1, 0x1000, .fifo c, 0, false, 0, 0⟩, c) ∧ ((tBy tIssue h).core 0).fifo.length < 64 ∧
       64 ≤ (({ tBy tIssue h with cores := [(0, { tCore with fifo := List.replicate 64 c })] } : State).core 0).fifo.length) ∧
    (let j : Job := { id := 0, engine := 1, field := 0, core := 0, ctx := 0 }
     let h : Sheaf := { tSheaf with waits := [⟨1, 0x1000, .equeue j, 0, false, 0, 0⟩] }
     h.queueWait = some (⟨1, 0x1000, .equeue j, 0, false, 0, 0⟩, j) ∧ (tBy tIssue h).queueRoom 0 1 0 = true ∧
       ({ tBy tIssue h with jobs := List.replicate 64 j } : State).queueRoom 0 1 0 = false) := by
  and_intros <;> first | decide +kernel | (intro x hx q; have : x = (0, _) := List.mem_singleton.mp hx; subst this; left; rcases q with _ | _ | _ | _ | q <;> rfl)

/-- Commands at work, one of each kind, at each place where what a quantum does changes: a starved one, a dry ring at the start of a row block; the middle and
the last K-step of a product that drains; the blocks of a block product, the last one and one before; the rows of a scaling, a load, a drain and a clear. -/
theorem witness_MatrixQuanta :
    let w (c : MatCmd) (head : BitVec 32) : State := { tState with cores := [(0, { tCore with fifo := [c], rings := [{ head := head }, {}, {}, {}] })] }
    let c : MatCmd := { id := 3, ctx := 0, launch := 0, op := .mclr, set := 1, token := 0, started := true, run := 1 }
    let m : MatCmd := { c with op := .mmul .e4m3, s0 := 0x20100000020, s3 := 0x1000000000000000, dst := some ⟨7, 0⟩ }
    let b : MatCmd := { c with op := .mmb, s0 := 0x20100000020 }
    let a : MatCmd := { c with op := .msca, s0 := 0x20100000020, src := some ⟨7, 0⟩ }
    let l : MatCmd := { c with op := .mldw (some .bf16), s1 := 64, s2 := 0x00200020, src := some ⟨7, 0⟩ }
    let d : MatCmd := { c with op := .mdrain .f32, s0 := 0x200110, s2 := 0x2000000080, src := some ⟨7, 0⟩, dst := some ⟨7, 4096⟩ }
    ((w c 1).cmd? 0 3 = some c ∧ ({ c with done := true } : MatCmd).working = false ∧ ({ m with starved := true } : MatCmd).starved = true) ∧
    (m.working = true ∧ m.starved = false ∧ m.onArray = true ∧ m.kpos = 0 ∧ (((w m 0).core 0).rings.getD m.ring {}).filled = 0 ∧
      (((w m 1).core 0).rings.getD m.ring {}).filled ≠ 0 ∧ m.set ∈ legalSets ∧ m.ncols ≤ 32 * setNf m.set) ∧
    (m.kpos + 32 * setKf m.run < m.kcols ∧ m.kcols ≤ 32 + 32 * setKf m.run ∧ m.ring < ((w m 1).core 0).rings.length ∧ m.blockRows = 32 ∧
      (w m 1).team? 7 = some tTeam ∧ m.drainSpace ≠ 0) ∧
    (b.working = true ∧ b.starved = false ∧ b.set ∈ legalSets ∧ b.ncols ≤ 32 * setNf b.set ∧ b.kpos / 32 + 1 < b.kcols / 32 ∧ b.kcols / 32 ≤ 32 / 32 + 1) ∧
    (a.working = true ∧ a.starved = false ∧ a.onArray = false ∧ a.ncols ≤ 32 * setNf a.set ∧ a.kpos < 32 ∧ a.kpos + 1 < a.blockRows ∧ ¬ 31 + 1 < a.blockRows) ∧
    (l.working = true ∧ l.starved = false ∧ l.onArray = false ∧ opField l.s2 0 16 = 32 ∧ 32 ≤ 128 * setKf l.set ∧ l.kpos < 32 * setNf l.set ∧ opField l.s2 16 16 ≤ 31 + 1) ∧
    (({ l with op := .mldw none } : MatCmd).onArray = false ∧ ({ l with op := .mldw none, dst := some ⟨7, 64⟩ } : MatCmd).dst = some ⟨7, 64⟩ ∧
      ({ c with op := .mswap } : MatCmd).working = true ∧ ({ c with op := .mswap } : MatCmd).onArray = false) ∧
    (d.working = true ∧ d.starved = false ∧ d.onArray = false ∧ opField d.s0 16 6 = 32 ∧ opField d.s2 32 32 = 32 ∧ d.kpos + 1 < 32 ∧ 32 ≤ 31 + 1 ∧
      d.s0.getLsbD 4 = true ∧ ({ d with s0 := 0x200100 } : MatCmd).s0.getLsbD 4 = false) ∧
    (c.working = true ∧ c.starved = false ∧ c.onArray = false ∧ c.set ∈ legalSets ∧ opField c.s0 0 4 = 0 ∧ opField c.s0 4 4 + 1 = 1) := by
  and_intros <;> decide +kernel

/-- Jobs of each engine that may start, and one that has; a chunk to copy, one landed; a job that waits for a mapping, whose time has passed; a
fenced engine; an exchange past its deadline; a merge with lines and one without; streams with and without room. -/
theorem witness_EngineEvents :
    let j : Job := { id := 3, engine := 1, field := 0, core := 0, ctx := 0, card := tCard 0x40 }
    let s (j : Job) : State := { tState with jobs := [j], mem := tCardBytes 0x40, cores := [(0, tCore), (1024, { tlb := [tTlb] })] }
    ((s j).job? 3 = some j ∧ (s j).jobMayStart j = true ∧ (s { j with started := true }).jobMayStart { j with started := true } = false ∧
      (s { j with engine := 2 }).jobMayStart { j with engine := 2 } = true ∧ (s { j with engine := 4 }).jobMayStart { j with engine := 4 } = true) ∧
    (let k : Job := { j with started := true }
     k.waitAddr = none ∧ 0 < (tileOf k.card).chunks ∧ k.landed.contains 0 = false ∧ (s k).copyStop k (tileOf k.card) ((tileOf k.card).chunkElems 0) = none ∧
       (tileOf k.card).chunkElems 0 = [0] ∧ cardKind k.card ≠ 2 ∧ ((s k).engineAt k .load (tileOf k.card).src 0 1).1.toOption = some (.host (some 0) barnAlias) ∧
       ((s k).engineAt k .store (tileOf k.card).dst 0 1).1.toOption = some (.host (some 0) barnAlias) ∧ barnAlias < peerBase ∧ ((s k).ctx 0).regionOf 0 = none ∧
       (({ s k with cores := [] } : State).copyStop k (tileOf k.card) ((tileOf k.card).chunkElems 0)).map Prod.fst = some .xlate2 ∧
       (s { k with landed := [0] }).job? 3 = some { k with landed := [0] } ∧ (tileOf k.card).chunks ≤ [0].length ∧
       (match ({ s k with cores := [(0, { tlb := [{ tTlb with w := false }] }), (1024, { tlb := [{ tTlb with w := false }] })] } : State).copyStop k (tileOf k.card) ((tileOf k.card).chunkElems 0) with | some (c, _) => c != .xlate2 | none => false) = true) ∧
    (let k : Job := { j with started := true, slots := [some 7, some 8], card := (((tCard 0x10).set 167 0x10).set 170 0x10) }
     let s : State := { s k with teams := [tTeam, { tTeam with id := 8 }] }
     s.copyStop k (tileOf k.card) [0] = none ∧ (tileOf k.card).chunkElems 0 = [0] ∧ (s.team? 7).isSome = true ∧ (s.team? 8).isSome = true ∧
       (s.engineAt k .load (tileOf k.card).src 0 1).1.toOption = some (.team 7 0) ∧ (s.engineAt k .store (tileOf k.card).dst 0 1).1.toOption = some (.team 8 0)) ∧
    (let k : Job := { j with engine := 3, started := true, waitAddr := none, peers := [] }
     k.exchanged = true) ∧
    (let k : Job := { j with waitAddr := some 0 }
     k.waitAddr = some 0 ∧ (s k).now < k.waitSince + 65536 ∧ k.waitSince + 65536 ≤ ({ s k with cycle := 65536 } : State).now ∧ (s k).nowMapped 0 0 = true ∧
       ({ s k with cycle := 65536, cores := [] } : State).nowMapped 0 0 = false) ∧
    (let k : Job := { j with engine := 4, started := true, lines := [0] }
     let u : State := { s k with fenced := [.engine 0 4] }
     u.jobCut k = true ∧ u.mayReplay k = false ∧ k.lines ≠ [] ∧ ({ k with lines := [] } : Job).lines = []) ∧
    (let k : Job := { j with engine := 3, card := [(168, 1), (161, 0x10), (167, 0x40), (185, 0x10), (191, 0x40)].foldl (fun c x => c.set x.1 x.2) (List.replicate 256 0) }
     let u : State := { s k with ctxs := [(0, { peerTable := 0x5000 })], mem := [(0x5000, 5)] }
     u.jobMayStart k = true ∧ (u.engineBytes k (fieldOf k.card 160 8) 4 k.group 0).1.toOption = some [0, 0, 0, 0] ∧
       (u.engineBytes k (fieldOf k.card 184 8) 4 k.group 0).1.toOption = some [0, 0, 0, 0] ∧ words32 k.group [0, 0, 0, 0] = [0] ∧
       u.peersBad k [0] [0] = false ∧ (s k).peersBad k [0] [0] = true ∧ ([0].any u.peersDown.contains) = false ∧
       ([0].any ({ u with peersDown := [0] } : State).peersDown.contains) = true) ∧
    (let k : State := { s j with fenced := [.engine 0 1] }
     k.fenced.contains (.engine 0 1) = true ∧ (s j).fenced.contains (.engine 0 1) = false ∧ k.jobCut j = true ∧ (s j).jobCut j = false ∧ k.otherField j = some 1 ∧ k.queueRoom 1 1 0 = true ∧ k.mayReplay j = false ∧
       k.mayReplay { j with card := (tCard 0x40).set 6 1 } = true) ∧
    (let k : Job := { j with engine := 3, started := true, sent := [(0, {})] }
     ({ s k with exDeadline := 0, time := { num := 4000 } } : State).exchangeLate k = true ∧ (s k).exchangeLate k = false ∧ (∃ x ∈ k.sent, x.1 = 0) ∧ k.acked.contains 0 = false) ∧
    (let k : Job := { j with engine := 4, started := true, lines := [0], poster := some 1, dest := some 2 }
     k.lines = 0 :: [] ∧ (s k).mergeOne k 0 = .ok (s k, 0) ∧
       (let e : Job := { k with regions := [(0, BitVec.ofNat 256 (2 ^ 64 + 2 ^ 96))] }
        (match ({ s e with cores := [] } : State).mergeOne e 0 with | .error x => x == (.xlate2, 0) | .ok _ => false) = true ∧
          (match ({ s e with poison := [barnAlias] } : State).mergeOne e 0 with | .error x => x == (.uncorr, 0) | .ok _ => false) = true) ∧
       (let h : Sheaf := { tSheaf with waits := [⟨1, 0x1000, .join 5 (some 3) 2, 0, false, 0, 0⟩] }
        h.joinWaits 3 = h.waits ∧ h.tl = 0)) ∧
    (∀ top ∈ ([0x40, 0x10] : List Byte),
     let k : Job := { j with engine := 3, started := true, peers := [5], slots := [some 7],
                             card := ((((List.replicate 256 0).set 172 16).set 200 1).set 199 top).set 215 0x40 }
     let st : Stream := { src := 5, tag := 0, rows := 1, data := some (List.replicate 16 9) }
     let s (k : Job) : State := { s k with exHeaders := [{ st with data := none }] }
     (s k).rowsJob st = some k ∧ (s k).job? k.id = some k ∧ k.waitAddr = none ∧ k.peers.idxOf? st.src = some 0 ∧
       cardKind k.card ≠ 2 ∧ min st.rows k.slotRows * (k.rowBytes / 16) = 1 ∧
       (s k).engineMayPut k (fieldOf k.card 192 8) 16 1 0 = none ∧
       ((s k).enginePut k (fieldOf k.card 192 8) 16 (pieces 16 1 (List.replicate 16 9)) 0).engineMayPut k (fieldOf k.card 208 8) 4 1 0 = none ∧
       (top = 0x40 → (({ s k with cores := [] } : State).engineMayPut k (fieldOf k.card 192 8) 16 1 0).map Prod.fst = some .xlate2) ∧
       ((s k).engineAt k .store (fieldOf k.card 208 8) 0 4).1.toOption = some (.host (some 0) barnAlias) ∧
       (top = 0x10 → ((s k).engineAt k .store (fieldOf k.card 192 8) 0 16).1.toOption = some (.team 7 0) ∧ (s k).team? 7 = some tTeam) ∧
       (s { k with started := false }).rowsJob st = some { k with started := false } ∧ k.peers[0]? = some 5 ∧ k.acked.contains 0 = false) ∧
    (let k : Job := { j with engine := 2, started := true, card := [160, 168, 184, 192].foldl (fun c n => c.set (n + 7) 0x40) (List.replicate 256 0) }
     (match (s k).winnowPuts k with | .ok ps => (s k).putsStop k ps == none | .error _ => false) = true) ∧
    (let st : Stream := { src := 5, tag := 0, rows := 0, data := none }
     let s : State := { tState with exRefused := [st] }
     st.data = none ∧ tState.exHeaders.length < 256 ∧ tState.exRefused = [] ∧ s.exRefused = st :: [] ∧ (∀ x ∈ s.exHeaders ++ [st], s.matchOf x = none) ∧
       s.exRefused.find? s.fits = some st ∧ tState.fits st = true ∧ s.rowsJob { st with data := some [] } = none) ∧
    (let st : Stream := { src := 5, tag := 0, rows := 0, data := none }
     let s : State := { tState with jobs := [], exHeaders := List.replicate 256 st, exRefused := [st] }
     256 ≤ s.exHeaders.length ∧ s.fits st = false ∧ s.exRefused.find? s.fits = none ∧
       ((s.exHeaders ++ s.exRefused).all fun x => (s.matchOf x).isNone) = true) ∧
    (11 < 12 ∧ 255 ≤ 2 ^ (8 * elemSize 0) ∧ (elemFloat 8).isSome = true) := by
  and_intros <;> decide +kernel

/-- A ticket for a scratch atomic, one for a fence; remote stores in order, and one behind another; a peer line; a peer's write; a save that may
go on, one that may not and whose time has passed; an error of a core. -/
theorem witness_FabricAndFailures :
    (let r : SeqReq := { core := 0, sheaf := 1, lane := 0, op := some .addI32, target := some (.team 7 8), operand := 1 }
     ({ tState with seqQ := [r] } : State).seqQ = r :: [] ∧ tState.team? 7 = some tTeam ∧ atomCas .addI32 = false ∧ tState.seqQ = [] ∧
       tState.ticketWaits r = false) ∧
    (let r : SeqReq := { core := 0, sheaf := 1, lane := 0, op := some .addI32, target := some (.host (some 0) barnAlias), rev := 9 }
     let c : Context := { regions := [(0, BitVec.ofNat 256 (2 ^ 64 + 2 ^ 96))], revs := [⟨9, 0, 1, [], []⟩] }
     ({ tState with ctxs := [(0, c)], fields := [(0, { tBarn with granary := 0 })] } : State).ticketWaits r = true) ∧
    (let r : SeqReq := { core := 0, sheaf := 1, lane := 0, sys := true }
     let h : Sheaf := { tSheaf with peerDirty := [peerBase] }
     let s : State := { tBy tIssue h with seqQ := [r], l2peer := [(peerBase, List.replicate 128 1, 1)] }
     s.ticketWaits r = false ∧ r.op = none ∧ r.sys = true ∧ s.sheaf? r.sheaf = some h ∧ s.peerCopy peerBase = some (List.replicate 128 1, 1) ∧
       s.peersDown.contains (moduleOf peerBase) = false) ∧
    (let r : RemoteStore := ⟨1, 0, 0, 0, 0, 0, 0, peerBase, [1, 2], 0x1000, false, 0⟩
     let s : State := { tState with rsts := [r, r] }
     s.rsts[0]? = some r ∧ (s.rsts.take 0).any (fun x => x.meets r) = false ∧ (s.rsts.take 1).any (fun x => x.meets r) = true ∧
       s.retainWaits r.ctx r.rev r.va r.hpa = false ∧
       (s.ctx r.ctx).regionOf r.va = none ∧ s.launch? r.launch = some (loadedLaunch 0) ∧ (loadedLaunch 0).jobError = none) ∧
    ({ tState with l2peer := [(peerBase, List.replicate 128 1, 1)] } : State).peerCopy peerBase = some (List.replicate 128 1, 1) ∧
    (tState.peersDown.contains (moduleOf peerBase) = false ∧ ({ tState with peersDown := [0] } : State).peersDown.contains (moduleOf peerBase) = true) ∧
    (let s : State := { tState with ctxs := [(0, { exportSize := 64 })], cores := [(1024, { tlb := [tTlb] })] }
     let a : PeerAccess := { module := 2, ctx := 0, offset := 0, write := true, len := 1, data := [9] }
     s.exportAt a 0 = .ok (0, barnAlias) ∧ (s.ctx 0).regionOf 0 = none ∧ s.exportAt { a with offset := 64 } 0 = .error .xlate2) ∧
    (let s : State := { tRing [] 0 with ctxs := [(0, { root2 := 0x100000, saveWait := some {}, saveBase := 0x300000 })] }
     (s.ctx 0).saveWait = some {} ∧ s.planesReady 0 = false ∧ s.saveStuck 0 = false ∧ s.saveFault 0 (s.parkJob 0) = none ∧ (∀ h ∈ s.sheaves, h.place = .resident → h.core ∈ s.coresOfCtx 0)) ∧
    (let s : State := { tRing [] 0 with ctxs := [(0, { root2 := 0x100000, saveWait := some {}, saveBase := 0x7FFFFFFF000 })] }
     s.saveStuck 0 = false ∧ (s.saveFault 0 (s.parkJob 0)).isSome = true ∧ (s.tell 3 errorMonitor (bytesOfNat 8 0 ++ bytesOfNat 8 0)).isSome = true ∧
       ({ s with mailboxes := s.mailboxes.map fun m => { m with messages := List.replicate 16 (0, []), reporters := List.replicate 4 (9, []) } } : State).tell 3 errorMonitor
         (bytesOfNat 8 0 ++ bytesOfNat 8 0) = none) ∧
    (let s : State := { tState with ctxs := [(0, { saveWait := some {} })], saveDeadline := 1, time := { num := 2 } }
     s.saveStuck 0 = true ∧ s.elapsed {} 1 = true ∧ ({ s with time := {} } : State).elapsed {} 1 = false) ∧
    (let s : State := { tRing [] 0 with ctxs := [(0, { root2 := 0x100000, planeWait := [(0, 0, true)], saveBase := 0x300000 })] }
     s.planesReady 0 = true ∧ (s.ctx 0).planeWait = [(0, 0, true)] ∧ s.planeFault 0 0 0 = none ∧ (s.ctx 0).planeSince = none) ∧
    (let s : State := { tState with ctxs := [(0, { planeSince := some {} })], saveDeadline := 1, time := { num := 2 } }
     (s.ctx 0).planeSince = some {} ∧ s.elapsed {} s.saveDeadline = true ∧ s.pageMapped 0 (s.ctx 0).planeAddr = false) ∧
    (let s : State := { State.reset with ctxs := [(0, { peerTable := 0x1000 })], mem := [(0x1008, 7), (0x1009, 1)] }
     s.memOk ∧ (1 + 8 / 8 : Nat) = 2 ∧ s.coreRuns 4 = false ∧ ({ s with started := [4] } : State).coreRuns 4 = true) ∧
    ((tState.ctx 0).eqWrite - (tState.ctx 0).eqHead).toNat ≠ 256 ∧ tState.fenced.contains (.core 1023) = false ∧ (∀ x ∈ tState.inputs, isReset x.2 = false) := by
  and_intros <;> first | decide +kernel | rfl

/-- An issue whose word, `sadd s3, s1, s2`, is in the core's instruction cache; and an event. -/
theorem witness_StepRunsDecodedInstruction :
    let s : State := { State.reset.withFetchWord 32 0x000C0820 with trip := false }
    ∃ i h rest, s.agenda = .issue i :: rest ∧ s.trip = false ∧ i.pipe ≠ recheckPipe ∧ i.solo = false ∧ s.sheaf? i.sheaf = some h ∧
      (s.launchOf h).closed = false ∧ h.stillAt i = BitVec.allOnes 64 ∧
      (let u : State := { ({ s with agenda := rest } : State).markIssue i h with cur := some i }
       (match u.fetchBroadcast h i.lanes i.pc with | (.ok w, _) => w == 0x000C0820 | _ => false) = true ∧ decode 0x000C0820 = .ok (.sadd 3 1 2) ∧
         u.scoreboard (.sadd 3 1 2) = none ∧ (u.bringRegs (.sadd 3 1 2)).1 = none ∧ u.fills (u.bringRegs (.sadd 3 1 2)).2 (.sadd 3 1 2) = false ∧ (u.bringRegs (.sadd 3 1 2)).2.lookLanes (.sadd 3 1 2) = 0) := by
  refine ⟨_, _, _, rfl, rfl, by decide, rfl, rfl, ?_⟩
  and_intros <;> rfl

theorem witness_EncodeThenDecode : (Instr.sadd 3 1 2).wellFormed = true ∧ encode (.sadd 3 1 2) = some 0x000C0820 ∧ (Instr.sadd 3 1 2).isEvent = false ∧
    Instr.moduleReset.isEvent = true := ⟨rfl, rfl, rfl, rfl⟩
theorem witness_DecodeThenEncode : decode 0x000C0820 = .ok (.sadd 3 1 2) := rfl

/-- A host write of one byte to empty memory, and one to a byte that is listed. -/
theorem witness_StepKeepsMemOk :
    let s : State := { State.reset with agenda := [.hostWrite 5 [1]] }
    s.memOk ∧ (∃ t, step s = .next t) ∧ ({ s with mem := [(5, 1), (9, 2)] } : State).memOk := ⟨rfl, ⟨_, rfl⟩, rfl⟩
end

section
/-! SUPPORT. Module reset and bring-up (R10/00, R389 to R391/19): what memory reads as after reset, and the one shape of the five bring-up
steps. Settles O45 and O60. -/

namespace Sys2Proof.Machine

/-! ### Sparse maps: filtered by key, changed everywhere -/

/-- Keeping the entries of some keys keeps what those keys read as, and makes every other key read as the default. -/
theorem cget_filter_key {α : Type} {dflt : α} (p : Nat → Bool) (m : Cells α) (n : Nat) :
    cget dflt (m.filter fun c => p c.1) n = if p n then cget dflt m n else dflt := by
  induction m with
  | nil => simp [cget]
  | cons c m ih =>
    obtain ⟨k, x⟩ := c
    by_cases hk : n = k
    · subst hk; cases hp : p n <;> simp_all [cget]
    · cases hp : p k <;> simp [cget, hk, hp, ih]

/-- What holds of the default and of every changed value holds wherever a changed map is read. -/
theorem cget_cmap_of {α : Type} [DecidableEq α] {dflt : α} {f : α → α} {P : α → Prop} (hd : P dflt) (hf : ∀ x, P (f x))
    (m : Cells α) (n : Nat) : P (cget dflt (cmap dflt f m) n) := by
  induction m with
  | nil => exact hd
  | cons c m ih =>
    obtain ⟨k, x⟩ := c
    by_cases hx : f x = dflt
    · simpa [cmap, hx] using ih
    · by_cases hk : n = k
      · simpa [cmap, hx, cget, hk] using hf x
      · simpa [cmap, hx, cget, hk] using ih

/-! ### Reset -/

/-- R10/00, log 5, log 32: reset keeps pooled and peer memory; the module's own memory reads as unwritten. -/
theorem memory_get_outsideModule (m : Memory) (a : Nat) :
    Memory.get (m.filter fun c => decide (c.1 < barnAlias) || decide (peerBase ≤ c.1)) a =
      if a < barnAlias ∨ peerBase ≤ a then m.get a else Config.unwritten := by
  simpa [Memory.get] using cget_filter_key (fun k => decide (k < barnAlias) || decide (peerBase ≤ k)) m a

/-- R383/19: DEVSTAT reads 0 where no step has completed and no bit of it is set. -/
theorem devstat_eq_zero {s : State} (hstep : s.fwstep = 0) (htrip : s.trip = false) (hcap : s.cap = false) (herr : s.fwerr = false)
    (hready : s.ready = false) : s.devstat = 0 := by
  rw [State.devstat, hstep, htrip, hcap, herr, hready]; rfl

/-! ### The shape of a bring-up step -/

/-- R391/19: what a bring-up step does, where `u` is what it sets up when it passes. -/
def State.bringUpStep (s : State) (n : BitVec 8) (runs passes : Bool) (u : State) : Out :=
  if s.fwstep + 1 = n ∧ s.fwerr = false ∧ runs = true then .next (if passes then u.stepDone n else s.bringUpFails) else .next s

/-- The fields that no bring-up step changes before it completes. -/
def State.bringUpFrame (s : State) : Bool × List Nat × Memory × List Sheaf := (s.fwerr, s.msix, s.mem, s.sheaves)

section
variable {s u : State} {n : BitVec 8} {runs passes : Bool}

/-- A step out of order, after a failure, or whose core does not run does nothing. -/
theorem bringUpStep_idle (h : s.fwstep + 1 ≠ n ∨ s.fwerr = true ∨ runs = false) : s.bringUpStep n runs passes u = .next s := by
  unfold State.bringUpStep
  rw [if_neg]
  rintro ⟨hn, he, hr⟩
  simp_all

theorem bringUpStep_due (hn : s.fwstep + 1 = n) (he : s.fwerr = false) (hr : runs = true) :
    s.bringUpStep n runs passes u = .next (if passes then u.stepDone n else s.bringUpFails) := if_pos ⟨hn, he, hr⟩

theorem bringUpStep_pass (hn : s.fwstep + 1 = n) (he : s.fwerr = false) (hr : runs = true) :
    s.bringUpStep n runs true u = .next (u.stepDone n) := bringUpStep_due hn he hr

/-- An instruction of this shape, whose set-up keeps the frame, has the three outcomes of R391/19. -/
theorem bringUpStep_outcomes {e : Instr} (hx : exec e s = s.bringUpStep n runs passes u) (hu : u.bringUpFrame = s.bringUpFrame) :
    (s.fwstep + 1 ≠ n ∨ s.fwerr = true ∨ runs = false → exec e s = .next s) ∧
    (s.fwstep + 1 = n → s.fwerr = false → runs = true → passes = false →
      exec e s = .next { s with fwerr := true, msix := s.msix ++ [1] }) ∧
    (s.fwstep + 1 = n → s.fwerr = false → runs = true → passes = true →
      ∃ t, exec e s = .next t ∧ t.fwstep = n ∧ t.msix = s.msix ++ [1] ∧ t.fwerr = false ∧ t.mem = s.mem ∧ t.sheaves = s.sheaves) := by
  rw [hx]
  refine ⟨bringUpStep_idle, fun hn he hr hp => ?_, fun hn he hr hp => ⟨u.stepDone n, ?_, rfl, ?_⟩⟩
  · rw [bringUpStep_due hn he hr, hp]; rfl
  · rw [hp, bringUpStep_pass hn he hr]
  · obtain ⟨hfe, hms, hme, hsh⟩ : u.fwerr = s.fwerr ∧ u.msix = s.msix ∧ u.mem = s.mem ∧ u.sheaves = s.sheaves := by
      simpa [State.bringUpFrame] using hu
    exact ⟨congrArg (· ++ [1]) hms, hfe.trans he, hme, hsh⟩

end

/-! ### What the parts of a set-up keep -/

@[simp] theorem setDecoder_bringUpFrame (s : State) (n : Nat) (d : Option Decoder) :
    (s.setDecoder n d).bringUpFrame = s.bringUpFrame := by unfold State.setDecoder; split <;> rfl

@[simp] theorem setBarn_bringUpFrame (s : State) (f page : Nat) (e : BitVec 32) :
    (s.setBarn f page e).bringUpFrame = s.bringUpFrame := by unfold State.setBarn; split <;> rfl

@[simp] theorem setGranary_bringUpFrame (s : State) (f mib : Nat) :
    (s.setGranary f mib).bringUpFrame = s.bringUpFrame := by unfold State.setGranary; split <;> rfl

@[simp] theorem writeRamp_bringUpFrame (s : State) (c : Nat) (high : Bool) (v : Dword) :
    (s.writeRamp c high v).bringUpFrame = s.bringUpFrame := by
  unfold State.writeRamp
  split
  · rfl
  · split <;> rfl

/-! ### The five steps -/

/-- What step 1 sets up (R389, R391/19): the system context the signed policy names, the bundle's version, the cores that run. -/
def State.runBundle (s : State) (version : Nat) (sysCtx : Option Nat) : State :=
  { s with
    sysCtx := sysCtx.filter fun c => decide (c < 64)
    bundle := some version
    started := [5, 0, 1, 2, 3, 4, 6, 7] }

/-- What step 2 sets up: the decoders, the barn page tables, the granaries. -/
def State.setMemoryPolicy (s : State) (p : MemoryPolicy) : State :=
  p.granary.foldl (fun (s : State) x => s.setGranary x.1 x.2)
    (p.barn.foldl (fun (s : State) x => s.setBarn x.1 x.2.1 x.2.2)
      (p.decoders.foldl (fun (s : State) x => s.setDecoder x.1 (some x.2)) s))

/-- What step 3 sets up: the ramp tables, the power cap, the clock. -/
def State.setPowerPolicy (s : State) (p : PowerPolicy) : State :=
  { p.ramps.foldl (fun (s : State) x => (s.writeRamp x.1 false x.2.1).writeRamp x.1 true x.2.2) s with
    capW := clampCap p.capW
    clockMHz := p.clockMHz
    clockSet := p.clockMHz }

/-- What step 4 sets up: the module's number and the contexts' budgets. -/
def State.setFabric (s : State) (device : BitVec 13) : State :=
  ({ s with device := device.setWidth 64 } : State).defaultBudgets

/-- The queues that step 5 enables. -/
def State.enableQueues (s : State) (qs : List Nat) : State :=
  qs.foldl (fun (s : State) q => s.modQueue q fun k => { k with enable := true }) s

/-- What step 5 sets up: the queues that exist among those named, and READY. -/
def State.openQueues (s : State) (qs : List Nat) : State :=
  { s.enableQueues (qs.filter fun q => decide (q < Config.queues)) with ready := true }

theorem setMemoryPolicy_bringUpFrame (s : State) (p : MemoryPolicy) : (s.setMemoryPolicy p).bringUpFrame = s.bringUpFrame := by
  unfold State.setMemoryPolicy
  rw [foldl_keep _ State.bringUpFrame (by simp), foldl_keep _ State.bringUpFrame (by simp),
    foldl_keep _ State.bringUpFrame (by simp)]

theorem setPowerPolicy_bringUpFrame (s : State) (p : PowerPolicy) : (s.setPowerPolicy p).bringUpFrame = s.bringUpFrame :=
  foldl_keep (fun (s : State) (x : Nat × Dword × Dword) => (s.writeRamp x.1 false x.2.1).writeRamp x.1 true x.2.2)
    State.bringUpFrame (by simp) p.ramps s

theorem openQueues_bringUpFrame (s : State) (qs : List Nat) : (s.openQueues qs).bringUpFrame = s.bringUpFrame :=
  foldl_keep (fun (s : State) q => s.modQueue q fun k => { k with enable := true }) State.bringUpFrame (fun _ _ => rfl) _ s

theorem clampCap_bounds (w : Nat) : 1200 ≤ clampCap w ∧ clampCap w ≤ 3600 ∧ (1200 ≤ w → w ≤ 3600 → clampCap w = w) := by
  unfold clampCap; omega

theorem defaultBudgets_nbudget (s : State) (c : Nat) : (s.defaultBudgets.ctx c).nbudget = 16384 :=
  cget_cmap_of (dflt := ({} : Context)) (f := fun c => { c with nbudget := 16384 }) (P := fun c => c.nbudget = 16384) rfl
    (fun _ => rfl) s.ctxs c

theorem queue_modQueue (s : State) (n k : Nat) (f : Queue → Queue) :
    (s.modQueue n f).queue k = if k = n then f (s.queue n) else s.queue k := cget_cset s.queues n k (f (s.queue n))

theorem enableQueues_enable (s : State) (qs : List Nat) (q : Nat) :
    ((s.enableQueues qs).queue q).enable = ((s.queue q).enable || qs.contains q) := by
  induction qs generalizing s with
  | nil => simp [State.enableQueues]
  | cons j qs ih =>
    rw [show s.enableQueues (j :: qs) = (s.modQueue j fun k => { k with enable := true }).enableQueues qs from rfl, ih, queue_modQueue]
    by_cases hq : q = j
    · simp [hq]
    · simp [hq]

/-- R391/19: of the queues that exist, step 5 enables those named and leaves the others. -/
theorem openQueues_enable (s : State) (qs : List Nat) (q : Nat) (hq : q < Config.queues) :
    ((s.openQueues qs).queue q).enable = ((s.queue q).enable || qs.contains q) := by
  have hc : (qs.filter fun q => decide (q < Config.queues)).contains q = qs.contains q := by simp [hq]
  exact (enableQueues_enable s _ q).trans (by rw [hc])

/-- The guard of steps 2 to 5, as `bringUpStep` writes it. -/
theorem nextStep_iff (s : State) (n : BitVec 8) (core : Nat) :
    s.nextStep n core = true ↔ s.fwstep + 1 = n ∧ s.fwerr = false ∧ s.coreRuns core = true := by
  simp [State.nextStep, and_assoc]

/-- Steps 2 to 5 are written with the failure before the set-up. -/
theorem bringUpStep_of_nextStep (s u : State) (n : BitVec 8) (core : Nat) (ok : Bool) :
    (if ¬ s.nextStep n core then .next s else if ¬ ok then .next s.bringUpFails else .next (u.stepDone n)) =
      s.bringUpStep n (s.coreRuns core) ok u := by
  simp only [State.bringUpStep, ← nextStep_iff, ite_not]
  split
  · cases ok <;> rfl
  · rfl

theorem exec_firmwareBundleVerification (s : State) (ok : Bool) (key : List (BitVec 8)) (ver : Nat) (sys : Option Nat) :
    exec (.firmwareBundleVerification ⟨ok, key⟩ ver sys) s =
      s.bringUpStep 1 (!(s.fenced.contains (.fleskapa 5))) (ok && decide (key = s.keyHash ∧ s.rollback ≤ ver)) (s.runBundle ver sys) := by
  have hstep : s.fwstep + 1 = 1 ↔ s.fwstep = 0 := by bv_omega
  show execFirmwareBundleVerification ⟨ok, key⟩ ver sys s = _
  simp only [execFirmwareBundleVerification, State.romRuns, State.bringUpStep, hstep, ite_not, Bool.not_eq_true, Bool.and_eq_true,
    decide_eq_true_eq]
  split
  · split <;> rfl
  · rfl

theorem exec_bringUpMemory (s : State) (ok : Bool) (p : MemoryPolicy) :
    exec (.bringUpMemory ok p) s = s.bringUpStep 2 (s.coreRuns 2) ok (s.setMemoryPolicy p) := bringUpStep_of_nextStep s _ 2 2 ok

theorem exec_bringUpPower (s : State) (ok : Bool) (p : PowerPolicy) :
    exec (.bringUpPower ok p) s = s.bringUpStep 3 (s.coreRuns 4) ok (s.setPowerPolicy p) := bringUpStep_of_nextStep s _ 3 4 ok

theorem exec_bringUpFabric (s : State) (ok : Bool) (device : BitVec 13) :
    exec (.bringUpFabric ok device) s = s.bringUpStep 4 (s.coreRuns 6) ok (s.setFabric device) := bringUpStep_of_nextStep s _ 4 6 ok

theorem exec_bringUpQueues (s : State) (ok : Bool) (qs : List Nat) :
    exec (.bringUpQueues ok qs) s = s.bringUpStep 5 (s.coreRuns 1) ok (s.openQueues qs) := bringUpStep_of_nextStep s _ 5 1 ok

/-- R383, R389, R391/19: a bundle that passes makes step 1 complete, and the machine changes in nothing else. -/
theorem exec_firmwareBundleVerification_pass (s : State) (key : List (BitVec 8)) (ver : Nat) (sys : Option Nat) (hn : s.fwstep = 0)
    (he : s.fwerr = false) (hr : s.fenced.contains (.fleskapa 5) = false) (hk : key = s.keyHash) (hv : s.rollback ≤ ver) :
    exec (.firmwareBundleVerification ⟨true, key⟩ ver sys) s = .next ((s.runBundle ver sys).stepDone 1) := by
  rw [exec_firmwareBundleVerification, decide_eq_true ⟨hk, hv⟩]
  exact bringUpStep_pass (by rw [hn]; rfl) he (by rw [hr]; rfl)

/-- Settles O45: reset by the reads of filtered memory, bring-up by the shape that its five steps share. -/
theorem resetAndBringUp : Obligations.ResetAndBringUp := by
  unfold Obligations.ResetAndBringUp
  refine ⟨fun s => ⟨_, rfl, rfl, devstat_eq_zero rfl rfl rfl rfl rfl, rfl, rfl, rfl, rfl, rfl, memory_get_outsideModule s.mem⟩,
    fun s ok key ver sys mp pp dev qs => ⟨?steps, ?bundle, ?power, ?fabric, ?queues⟩⟩
  case steps =>
    simp only [List.forall_mem_cons]
    exact ⟨bringUpStep_outcomes (exec_firmwareBundleVerification s ok key ver sys) rfl,
      bringUpStep_outcomes (exec_bringUpMemory s ok mp) (setMemoryPolicy_bringUpFrame s mp),
      bringUpStep_outcomes (exec_bringUpPower s ok pp) (setPowerPolicy_bringUpFrame s pp),
      bringUpStep_outcomes (exec_bringUpFabric s ok dev) rfl,
      bringUpStep_outcomes (exec_bringUpQueues s ok qs) (openQueues_bringUpFrame s qs),
      fun _ h => absurd h List.not_mem_nil⟩
  case bundle =>
    rintro hn he hr rfl hk hv
    exact exec_firmwareBundleVerification_pass s key ver sys hn he hr hk hv
  case power =>
    rintro hn he hr rfl
    obtain ⟨hlo, hhi, hin⟩ := clampCap_bounds pp.capW
    refine ⟨(s.setPowerPolicy pp).stepDone 3, ?_, hlo, hhi, hin, rfl⟩
    rw [exec_bringUpPower, bringUpStep_pass (by rw [hn]; rfl) he hr]
  case fabric =>
    rintro hn he hr rfl
    refine ⟨(s.setFabric dev).stepDone 4, ?_, rfl, defaultBudgets_nbudget { s with device := dev.setWidth 64 }⟩
    rw [exec_bringUpFabric, bringUpStep_pass (by rw [hn]; rfl) he hr]
  case queues =>
    rintro hn he hr rfl
    refine ⟨(s.openQueues qs).stepDone 5, ?_, rfl, openQueues_enable s qs⟩
    rw [exec_bringUpQueues, bringUpStep_pass (by rw [hn]; rfl) he hr]

/-- Settles O60: the state after reset lists no byte. -/
theorem resetMemOk : Obligations.ResetMemOk := ⟨rfl, rfl, fun _ => rfl⟩

end Sys2Proof.Machine
end

section
/-! SUPPORT. What a save leaves of where sheaves stand (R246/11), and a state that a save resumes without lifting every resident sheaf of the
context. Refutes O54. -/

namespace Sys2Proof.Machine

/-! ### Reads of a backing region change nothing but caches -/

theorem onlyCaches_backLine (s : State) (core line : Nat) : OnlyCaches s (s.backLine core line).2 := by
  have miss : ∀ u : State, OnlyCaches u ((u.homeRead line 128 false).2.modCore core fun c =>
      { c with l1 := (⟨0, line, (u.homeRead line 128 false).1, true⟩ :: c.l1).take (c.l1Bytes / 128) }) :=
    fun u => onlyCaches_trans (onlyCaches_homeRead u _ _ _) (onlyCaches_modCore _ core _ fun _ => rfl)
  unfold State.backLine
  simp only
  split
  · exact miss s
  · split
    · exact onlyCaches_flip s
    · have drop : OnlyCaches s.flip.2 (s.flip.2.modCore core fun c => { c with l1 := c.l1.filter fun y => !(y.line == line && y.backing) }) :=
        onlyCaches_modCore _ core _ fun _ => rfl
      exact onlyCaches_trans (onlyCaches_trans (onlyCaches_flip s) drop) (miss _)

theorem backLine_sheaves (s : State) (core line : Nat) : (s.backLine core line).2.sheaves = s.sheaves :=
  (congrArg State.sheaves (onlyCaches_backLine s core line).1 :)

theorem backRead_sheaves (s : State) (core a n : Nat) : (s.backRead core a n).2.sheaves = s.sheaves := by
  unfold State.backRead
  exact foldl_keep (fun (q : List Byte × State) l => (q.1 ++ (q.2.backLine core l).1, (q.2.backLine core l).2))
    (fun q => q.2.sheaves) (fun q l => backLine_sheaves q.2 core l) (linesOf a n) ([], s)

/-! ### Where sheaves stand -/

/-- Whose a sheaf is, its core and its place. -/
def Sheaf.whereabouts (h : Sheaf) : Nat × Nat × Place := (h.ctx, h.core, h.place)

def State.whereabouts (s : State) : List (Nat × Nat × Place) := s.sheaves.map Sheaf.whereabouts

variable {s : State} {x c n : Nat}

theorem whereabouts_congr {s t : State} (h : t.sheaves = s.sheaves) : t.whereabouts = s.whereabouts :=
  congrArg (List.map Sheaf.whereabouts) h

theorem whereabouts_modSheaf (s : State) (k : Nat) (f : Sheaf → Sheaf) (hf : ∀ h, (f h).whereabouts = h.whereabouts) :
    (s.modSheaf k f).whereabouts = s.whereabouts := by
  unfold State.whereabouts State.modSheaf
  rw [List.map_map]
  refine List.map_congr_left fun h _ => ?_
  by_cases e : h.id = k
  · simp [e, hf]
  · simp [e]

theorem setVirt_whereabouts (h : Sheaf) (l r : Nat) (w : Word) : (h.setVirt l r w).whereabouts = h.whereabouts := rfl

theorem setRegBytes_whereabouts (h : Sheaf) (r : Nat) (bs : List Byte) : (h.setRegBytes r bs).whereabouts = h.whereabouts := by
  unfold Sheaf.setRegBytes
  generalize List.range 64 = lanes
  exact foldl_keep _ Sheaf.whereabouts (fun g l => setVirt_whereabouts g l r _) lanes h

theorem openCold_whereabouts (s : State) (k r : Nat) : (s.openCold k r).whereabouts = s.whereabouts := by
  unfold State.openCold
  split
  · rfl
  · split
    · rfl
    · exact (whereabouts_modSheaf _ k _ fun h => setRegBytes_whereabouts h r _).trans (whereabouts_congr (backRead_sheaves s _ _ 256))

theorem drawSheaves_whereabouts (s : State) (c : Nat) (cores : List Nat) : (s.drawSheaves c cores).whereabouts = s.whereabouts := by
  unfold State.drawSheaves
  refine foldl_keep _ State.whereabouts (fun u h => ?_) _ s
  exact foldl_keep (fun (s : State) r => s.openCold h.id r) State.whereabouts (fun v r => openCold_whereabouts v h.id r) _ u

/-! ### Writing the save area changes memory alone -/

/-- What a write of memory leaves as it is: the sheaves and the cores. -/
def State.offMemory (s : State) : List Sheaf × Cells Core := (s.sheaves, s.cores)

theorem putPage_offMemory (s : State) (c gpa : Nat) (m : Memory) (p : Nat) : (s.putPage c gpa m p).offMemory = s.offMemory := by
  unfold State.putPage; split <;> rfl

theorem putPages_offMemory (s : State) (c gpa : Nat) (m : Memory) (k : Nat) : (s.putPages c gpa m k).offMemory = s.offMemory :=
  foldl_keep _ State.offMemory (fun _ _ => putPage_offMemory _ _ _ _ _) _ s

theorem writePlanes_offMemory (s : State) (core : Nat) (q : Nat × Nat × Quad) : (s.writePlanes core q).offMemory = s.offMemory :=
  putPages_offMemory s _ _ _ _

theorem writeParts_offMemory (cs : List Nat) (s : State) (c gpa : Nat) : (s.writeParts c cs gpa).offMemory = s.offMemory := by
  induction cs generalizing s gpa with
  | nil => rfl
  | cons k cs ih => exact (ih _ _).trans (putPages_offMemory _ _ _ _ _)

theorem writeSave_offMemory (s : State) (c job : Nat) : (s.writeSave c job).offMemory = s.offMemory := by
  unfold State.writeSave
  rw [putPages_offMemory, foldl_keep _ State.offMemory (fun _ _ => putPages_offMemory _ _ _ _ _), writeParts_offMemory, putPage_offMemory,
    foldl_keep _ State.offMemory (fun _ _ => writePlanes_offMemory _ _ _)]

/-! ### A park lifts the sheaves of the cores it finds, and no other -/

/-- A resident sheaf of a core that is not lifted stays resident. -/
theorem liftCores_keeps_resident {cores : List Nat} (hx : (x, n, .resident) ∈ s.whereabouts) (hn : n ∉ cores) :
    (x, n, .resident) ∈ (s.liftCores c cores).whereabouts := by
  rw [← drawSheaves_whereabouts s c cores] at hx
  obtain ⟨h, hm, hw⟩ := List.mem_map.mp hx
  have hcore : h.core = n := congrArg (fun w => w.2.1) hw
  unfold State.liftCores
  refine List.mem_map.mpr ⟨h, List.mem_map.mpr ⟨h, ?_, ?_⟩, hw⟩
  · rw [foldl_keep _ State.sheaves (fun _ _ => State.modCore_sheaves _ _ _)]
    exact hm
  · rw [if_neg]
    rintro ⟨-, -, hc⟩
    exact hn (hcore ▸ List.contains_iff_mem.mp hc)

theorem parkContext_sheaves (s : State) (c job : Nat) : (s.parkContext c job).sheaves =
    (((s.drawSheaves c (s.coresOfCtx c)).writeSave c job).liftCores c
      (((s.drawSheaves c (s.coresOfCtx c)).writeSave c job).coresOfCtx c)).sheaves := by
  simp only [State.parkContext, State.clearBuffers, State.mapFields, State.modCtx_sheaves]

/-- R246/11: a park lifts the cores that the context holds a level on once the spilled registers are drawn; a resident sheaf elsewhere stays
resident. -/
theorem parkContext_keeps_resident (job : Nat) (hx : (x, n, .resident) ∈ s.whereabouts)
    (hn : n ∉ (s.drawSheaves c (s.coresOfCtx c)).coresOfCtx c) : (x, n, .resident) ∈ (s.parkContext c job).whereabouts := by
  rw [whereabouts_congr (parkContext_sheaves s c job)]
  rw [← drawSheaves_whereabouts s c (s.coresOfCtx c)] at hx
  generalize s.drawSheaves c (s.coresOfCtx c) = u at *
  have hw := writeSave_offMemory u c job
  have hsheaves : (u.writeSave c job).sheaves = u.sheaves := congrArg Prod.fst hw
  have hcores : (u.writeSave c job).cores = u.cores := congrArg Prod.snd hw
  refine liftCores_keeps_resident (whereabouts_congr hsheaves ▸ hx) ?_
  rwa [State.coresOfCtx, hcores]

/-- R247/11: a save that waited, whose pages are all mapped now, is made. -/
theorem exec_saveResume_parks (hr : s.planesReady c = false) (hw : (s.ctx c).saveWait.isSome = true) (hs : s.saveStuck c = false)
    (hf : s.saveFault c (s.parkJob c) = none) : exec (.saveResume c) s = .next (s.parkContext c (s.parkJob c)) := by
  show execSaveResume c s = _
  simp [execSaveResume, State.saveGoesOn, hr, hw, hs, hf]

/-! ### A state in which the cores of a context change with the draw -/

/-- Context 0 waits with its save, and its second stage maps the lowest GiB. Core 1 is listed twice, first without a level of the context, and
two resident sheaves share the number 0, that of core 1 before that of core 0, whose register 0 is spilled. The spilled register is looked
up by the number and so read through core 1, which leaves the first entry of core 1 alone: the context holds a level there no more. -/
def twiceListed : State :=
  { ctxs := [(0, { root2 := 0x100000, saveWait := some {}, saveBase := 0x300000 })]
    sheaves := [{ id := 0, launch := 0, core := 1 }, { id := 0, launch := 0, core := 0 }]
    cores := [(0, { res := [{ ctx := 0, cold := [(0, 0)] }] }), (1, {}), (1, { res := [{ ctx := 0 }] })]
    mem := [(0x100000, 0x01), (0x100001, 0x10), (0x100002, 0x10), (0x101000, 0x01), (0x101001, 0x20), (0x101002, 0x10), (0x102000, 0x3D)] }

theorem twiceListed_planesReady : twiceListed.planesReady 0 = false := by decide +kernel

theorem twiceListed_saveStuck : twiceListed.saveStuck 0 = false := by decide +kernel

theorem twiceListed_saveFault : twiceListed.saveFault 0 (twiceListed.parkJob 0) = none := by decide +kernel

theorem twiceListed_residents_on_cores :
    ∀ h ∈ twiceListed.sheaves, h.ctx = 0 → h.place = .resident → h.core ∈ twiceListed.coresOfCtx 0 := by decide +kernel

theorem twiceListed_cores_after_draw : (twiceListed.drawSheaves 0 (twiceListed.coresOfCtx 0)).coresOfCtx 0 = [0] := by decide +kernel

/-- The save of `twiceListed` is made, and leaves the sheaf of core 1 resident. -/
theorem twiceListed_park_leaves_resident : (0, 1, .resident) ∈ (twiceListed.parkContext 0 (twiceListed.parkJob 0)).whereabouts :=
  parkContext_keeps_resident _ List.mem_cons_self (by rw [twiceListed_cores_after_draw]; decide)

/-- Refutes O54: of SAVE_RESUME it says that no sheaf of the context stays resident, and asks only that the resident ones stand on cores of the
context before the draw. In `twiceListed`, whose core list is not in canonical form and whose sheaves share a number, the draw takes core 1
from those cores, and the sheaf there stays resident. -/
theorem not_fabricAndFailures : ¬ Obligations.FabricAndFailures := by
  unfold Obligations.FabricAndFailures
  intro hall
  obtain ⟨-, -, -, -, -, -, -, -, -, -, -, hsave, -⟩ := hall twiceListed
  obtain ⟨-, -, hgo, -⟩ := hsave 0
  simp only [twiceListed_planesReady, Bool.false_eq_true, if_false] at hgo
  obtain ⟨hmade, -⟩ := hgo (by decide) twiceListed_saveStuck
  obtain ⟨t, ht, -, -, -, -, hgone⟩ := hmade twiceListed_saveFault
  rw [exec_saveResume_parks twiceListed_planesReady rfl twiceListed_saveStuck twiceListed_saveFault] at ht
  obtain rfl := Host.Outcome.next.inj ht
  obtain ⟨h, hm, hw⟩ := List.mem_map.mp twiceListed_park_leaves_resident
  exact hgone twiceListed_residents_on_cores h hm (congrArg Prod.fst hw) (congrArg (fun w => w.2.2) hw)

end Sys2Proof.Machine
end

section
/-! SUPPORT. A step that makes an issue: the fetch, what is found before the meaning, the meaning (R37, R43/02, R253, R257 to R259/12). Settles
O55. -/

namespace Sys2Proof.Machine

variable {s u : State} {i : Issue} {h : Sheaf} {w : Word} {ins : Instr} {m : Move} {rest : List Move}

/-! ### The move of a step -/

/-- A step makes the first move of the agenda. -/
theorem step_agenda (ht : s.trip = false) (ha : s.agenda = m :: rest) : step s = ({ s with agenda := rest } : State).runMove m := by
  simp [step, ht, State.advance, ha]

/-! ### From a fetched word to its meaning -/

@[simp] theorem trapLanes_nil (s : State) : s.trapLanes [] = none := by
  unfold State.trapLanes
  split
  · rename_i hw; cases hw
  · rfl

/-- With no early access that LKCHK forbids, an instruction runs once the free choices of its early accesses are made and its word captured. -/
theorem issueLooked_quiet (hl : u.lookLanes ins = 0) : u.issueLooked i w ins =
    exec ins (if i.solo then u.earlyLands ins else (u.earlyLands ins).modMe fun g => g.capture i.lanes i.pc w) := by
  have hn : lanesOf (0 : Mask) = [] := rfl
  simp only [State.issueLooked, hl, hn, List.map_nil, trapLanes_nil, State.unlessAbove]

/-- The state in which an instruction is looked at whose registers have been brought in, which took `s` to `u` (R394/21). -/
def State.broughtIn (s u : State) (i : Issue) (ins : Instr) : State :=
  if s.fills u ins then { u with cur := some { i with filled := true } } else u

/-- An instruction that the scoreboard, its registers and LKCHK let pass runs. -/
theorem issueInstr_passes {v : State} (hs : u.scoreboard ins = none) (hb : u.bringRegs ins = (none, v))
    (hl : (u.broughtIn v i ins).lookLanes ins = 0) : u.issueInstr i w ins =
      exec ins (if i.solo then (u.broughtIn v i ins).earlyLands ins
        else ((u.broughtIn v i ins).earlyLands ins).modMe fun g => g.capture i.lanes i.pc w) := by
  rw [← issueLooked_quiet hl]
  simp only [State.issueInstr, hs, hb, State.broughtIn]
  split <;> rfl

theorem issueWord_error {e : DecodeError} (hd : decode w = .error e) : u.issueWord i w = exec (.illegalInstruction w) u := by
  simp only [State.issueWord, hd]

theorem issueWord_ok (hd : decode w = .ok ins) : u.issueWord i w = u.issueInstr i w ins := by
  simp only [State.issueWord, hd]

/-! ### The fetch of an issue -/

/-- The lanes of an issue that can still issue (R37/02). -/
def Issue.narrowed (i : Issue) (h : Sheaf) : Issue := { i with lanes := h.stillAt i }

/-- The state in which an issue fetches: marked, and under way (R39 to R46/02). -/
def State.underWay (s : State) (i : Issue) (h : Sheaf) : State := { s.markIssue i h with cur := some i }

/-- A word that was fetched issues; a fetch that failed takes its fault (R43/02, R137/05). -/
noncomputable def State.runFetched (s : State) (i : Issue) (h : Sheaf) (r : Except Cause Word × State) : Out :=
  match r with
  | (.ok w, u) => andThen (u.issueWord i w) fun x => x.afterIssue i s h
  | (.error _, u) => andThen (exec .fetchFault u) fun x => x.afterIssue i s h

section
variable (hp : i.pipe ≠ recheckPipe) (hs : s.sheaf? i.sheaf = some h) (hc : (s.launchOf h).closed = false) (hl : h.stillAt i ≠ 0)
include hp hs hc hl

/-- A solo issue takes its word from its lane's window. -/
theorem runIssue_solo (hi : i.solo = true) (hw : (h.lane (lowestLane (h.stillAt i))).winWords.lookup i.pc.toNat = some w) :
    s.runIssue i = andThen ((s.underWay (i.narrowed h) h).issueWord (i.narrowed h) w) fun x => x.afterIssue (i.narrowed h) s h := by
  unfold State.runIssue
  simp only [if_neg hp, hs, if_neg hl, hc, Bool.false_eq_true, if_false]
  rw [if_pos hi]
  simp only [hw]
  rfl

/-- A broadcast issue goes on with what its fetch gives. -/
theorem runIssue_broadcast (hi : i.solo = false) :
    s.runIssue i = s.runFetched (i.narrowed h) h ((s.underWay (i.narrowed h) h).fetchBroadcast h (h.stillAt i) i.pc) := by
  unfold State.runIssue
  simp only [if_neg hp, hs, if_neg hl, hc, Bool.false_eq_true, if_false]
  rw [if_neg (ne_true_of_eq_false hi)]
  rfl

end

/-- Settles O55: the three fetches of an issue, then the word, by what it decodes to. -/
theorem stepRunsDecodedInstruction : Obligations.StepRunsDecodedInstruction := by
  unfold Obligations.StepRunsDecodedInstruction
  intro s i h rest ht
  refine ⟨fun e ha => step_agenda ht ha, fun ha hp hs hc hl => ?_⟩
  have hstep : step s = ({ s with agenda := rest } : State).runIssue i := step_agenda ht ha
  have runs : ∀ w u, step s = andThen (u.issueWord (i.narrowed h) w) (fun x => x.afterIssue (i.narrowed h) { s with agenda := rest } h) →
      (∀ e, decode w = .error e → step s = andThen (exec (.illegalInstruction w) u) fun x =>
        x.afterIssue (i.narrowed h) { s with agenda := rest } h) ∧
      ∀ ins v, decode w = .ok ins → u.scoreboard ins = none → u.bringRegs ins = (none, v) →
        (u.broughtIn v (i.narrowed h) ins).lookLanes ins = 0 →
        step s = andThen (exec ins (if i.solo then (u.broughtIn v (i.narrowed h) ins).earlyLands ins
          else ((u.broughtIn v (i.narrowed h) ins).earlyLands ins).modMe fun g => g.capture (h.stillAt i) i.pc w)) fun x =>
            x.afterIssue (i.narrowed h) { s with agenda := rest } h := by
    intro w u hw
    refine ⟨fun e hd => ?_, fun ins v hd hsb hbr hlk => ?_⟩
    · rw [hw, issueWord_error hd]
    · rw [hw, issueWord_ok hd, issueInstr_passes hsb hbr hlk]
      rfl
  refine ⟨fun w hi hw => ?_, fun w u hi hf => ?_, fun c u hi hf => ?_⟩
  · exact runs w _ (hstep.trans (runIssue_solo hp hs hc hl hi hw))
  · exact runs w u ((hstep.trans (runIssue_broadcast hp hs hc hl hi)).trans (congrArg (State.runFetched _ _ h) hf))
  · exact (hstep.trans (runIssue_broadcast hp hs hc hl hi)).trans (congrArg (State.runFetched _ _ h) hf)

end Sys2Proof.Machine
end

section
/-! SUPPORT. Reads after a change of a launch, a team, a residency; what a sheaf put on a core, a page that moves and planes that leave a
quadrant change (R49/02, R127, R135, R136/05, R243/11). -/

namespace Sys2Proof.Machine

variable {s t u : State} {h : Sheaf}

/-! ### Reads after writes -/

/-- Among items with keys, changing those of one key changes what is found under it. -/
theorem find?_map_key {α : Type} (key : α → Nat) (k : Nat) (f : α → α) (hf : ∀ x, key x = k → key (f x) = k) (xs : List α) :
    (xs.map fun x => if key x = k then f x else x).find? (fun x => key x == k) = (xs.find? fun x => key x == k).map f := by
  induction xs with
  | nil => rfl
  | cons x xs ih =>
    by_cases e : key x = k
    · simp [e, hf x e]
    · simp [e, ih]

theorem launch?_id {n : Nat} {l : Launch} (hl : s.launch? n = some l) : l.id = n := by simpa using List.find?_some hl

theorem launch?_mem {n : Nat} {l : Launch} (hl : s.launch? n = some l) : l ∈ s.launches := List.mem_of_find?_eq_some hl

/-- What a change of one launch does to its reading. -/
theorem launch?_modLaunch (s : State) (k : Nat) (f : Launch → Launch) (hf : ∀ l, l.id = k → (f l).id = k) :
    (s.modLaunch k f).launch? k = (s.launch? k).map f := find?_map_key Launch.id k f hf s.launches

/-- What a change of one team does to its reading. -/
theorem team?_modTeam (s : State) (k : Nat) (f : Team → Team) (hf : ∀ x, x.id = k → (f x).id = k) :
    (s.modTeam k f).team? k = (s.team? k).map f := find?_map_key Team.id k f hf s.teams

/-- What a change of one residency does to its reading. -/
theorem res?_modRes (s : State) (c n : Nat) (f : Res → Res) (hf : ∀ r, r.ctx = n → (f r).ctx = n) :
    ((s.modRes c n f).core c).res? n = ((s.core c).res? n).map f := by
  unfold State.modRes
  rw [core_modCore, if_pos rfl]
  exact find?_map_key Res.ctx n f hf (s.core c).res

theorem res?_of_cores_modRes {c n : Nat} {f : Res → Res} {r : Res} (ht : t.cores = (s.modRes c n f).cores)
    (hf : ∀ r, r.ctx = n → (f r).ctx = n) (hr : (s.core c).res? n = some r) : (t.core c).res? n = some (f r) := by
  have hcore : t.core c = (s.modRes c n f).core c := by unfold State.core; rw [ht]
  rw [hcore, res?_modRes s c n f hf, hr, Option.map_some]

theorem ctx_modCtx (s : State) (c n : Nat) (f : Context → Context) :
    (s.modCtx c f).ctx n = if n = c then f (s.ctx c) else s.ctx n := cget_cset _ _ _ _

/-- What every sheaf shows of itself stays as it was where a change of one sheaf keeps it. -/
theorem map_sheaves_modSheaf {β : Type} (s : State) (k : Nat) (f : Sheaf → Sheaf) (p : Sheaf → β)
    (hp : ∀ h, h.id = k → p (f h) = p h) :
    (s.modSheaf k f).sheaves.map p = s.sheaves.map p := by
  unfold State.modSheaf
  rw [List.map_map]
  refine List.map_congr_left fun h _ => ?_
  by_cases e : h.id = k
  · simp [e, hp h e]
  · simp [e]

@[simp] theorem l1Clear_sheaves (s : State) (core : Nat) : (s.l1Clear core).sheaves = s.sheaves := rfl

@[simp] theorem dropRecord_sheaves (s : State) (x : Nat) : (s.dropRecord x).sheaves = s.sheaves := rfl

theorem l1Clear_deque (s : State) (core c : Nat) : ((s.l1Clear core).core c).deque = (s.core c).deque := by
  unfold State.l1Clear
  rw [core_modCore]
  split
  · rename_i e; rw [e]
  · rfl

/-- A value read after every value has been changed is the default or a changed one of that key. -/
theorem cget_cmap_cases {α : Type} [DecidableEq α] {dflt : α} (f : α → α) (m : Cells α) (n : Nat) :
    cget dflt (cmap dflt f m) n = dflt ∨ ∃ x, (n, x) ∈ m ∧ cget dflt (cmap dflt f m) n = f x := by
  induction m with
  | nil => exact .inl rfl
  | cons c m ih =>
    obtain ⟨k, x⟩ := c
    have later : cget dflt (cmap dflt f m) n = dflt ∨ ∃ y, (n, y) ∈ (k, x) :: m ∧ cget dflt (cmap dflt f m) n = f y :=
      ih.imp_right fun ⟨y, hy, e⟩ => ⟨y, List.mem_cons_of_mem _ hy, e⟩
    by_cases hx : f x = dflt
    · have e : cmap dflt f ((k, x) :: m) = cmap dflt f m := by simp [cmap, hx]
      rw [e]
      exact later
    · have e : cmap dflt f ((k, x) :: m) = (k, f x) :: cmap dflt f m := by simp [cmap, hx]
      rw [e, cget]
      by_cases hk : n = k
      · rw [if_pos hk]
        exact .inr ⟨x, by simp [hk], rfl⟩
      · rw [if_neg hk]
        exact later

/-- After a write to a key, what the map lists under it is the value written. -/
theorem eq_of_mem_cset {α : Type} [DecidableEq α] {dflt : α} {m : Cells α} {n : Nat} {x y : α} (hx : (n, x) ∈ cset dflt m n y) :
    x = y := by
  have dropped : (n, x) ∉ cdrop m n := by simp [cdrop]
  unfold cset at hx
  split at hx
  · exact absurd hx dropped
  · rcases mem_cput _ _ _ _ hx with e | e
    · exact (Prod.mk.inj e).2
    · exact absurd e dropped

/-! ### Pages -/

/-- A sheaf but for where its slices' pages lie. -/
def Sheaf.butPages (h : Sheaf) : Sheaf := { h with sliceReloc := [] }

/-- What marking pages leaves: the sheaves but for their slices' pages, and the cores. -/
def State.butPages (s : State) : List Sheaf × Cells Core := (s.sheaves.map Sheaf.butPages, s.cores)

theorem markPage_butPages (s : State) (p : PageRef) (away : Bool) : (s.markPage p away).butPages = s.butPages := by
  cases p with
  | slice k n => exact congrArg (Prod.mk · s.cores) (map_sheaves_modSheaf s k _ Sheaf.butPages fun _ _ => rfl)
  | team k n => rfl

theorem settleLevel_butPages (s : State) (core ctx : Nat) : (s.settleLevel core ctx).butPages = s.butPages := by
  unfold State.settleLevel
  split
  · rfl
  · split
    · rfl
    · exact foldl_keep _ State.butPages (fun u p => markPage_butPages u p true) _ s

/-- A team one of whose pages is marked relocated or returned (R135/05). -/
def Team.markedPage (x : Team) (page : Nat) (away : Bool) : Team :=
  { x with reloc := if away then page :: x.reloc else x.reloc.filter fun k => !(k == page) }

/-- R135, R136/05: a page of a team that has not ended moves, and nothing else of the team changes. -/
theorem movePage_team {id page : Nat} {tm : Team} {away : Bool} (ht : s.team? id = some tm) (he : tm.ended = false) :
    ∃ tm', (s.movePage (.team id page) away).team? id = some tm' ∧ tm'.reloc.contains page = away ∧
      (∀ k, k ≠ page → tm'.reloc.contains k = tm.reloc.contains k) ∧ ({ tm' with reloc := tm.reloc } : Team) = tm ∧
      (s.movePage (.team id page) away).cores = s.cores := by
  have hstays : s.pageStays (.team id page) = false := by simp [State.pageStays, ht, he]
  have hreloc : s.relocated (.team id page) = tm.reloc.contains page := by simp [State.relocated, ht]
  unfold State.movePage
  rw [hstays, Bool.false_or, hreloc]
  by_cases hthere : tm.reloc.contains page = away
  · rw [if_pos (beq_iff_eq.mpr hthere)]
    exact ⟨tm, ht, hthere, fun _ _ => rfl, rfl, rfl⟩
  · rw [if_neg fun e => hthere (beq_iff_eq.mp e)]
    refine ⟨tm.markedPage page away, ?_, ?_, fun k hk => ?_, rfl, rfl⟩
    · exact (team?_modTeam s id (fun x => x.markedPage page away) fun _ e => e).trans (by rw [ht]; rfl)
    · cases away <;> simp [Team.markedPage]
    · cases away <;> simp [Team.markedPage, hk]

/-! ### A sheaf put on a core -/

/-- Entering a core changes neither the sheaves nor any deque. -/
theorem enterCore_some {core ctx : Nat} (he : s.enterCore core ctx = some u) :
    u.sheaves = s.sheaves ∧ ∀ c, (u.core c).deque = (s.core c).deque := by
  unfold State.enterCore at he
  split at he
  · split at he
    · cases he
    · obtain rfl := Option.some.inj he
      exact ⟨rfl, fun _ => rfl⟩
  · split at he
    · cases he
    · split at he
      · cases he
      · obtain rfl := Option.some.inj he
        refine ⟨rfl, fun c => ?_⟩
        rw [core_modCore]
        split
        · rename_i e; rw [e]
        · rfl

/-- R49/02: the sheaf stands where it was put, with everything it held but where its pages lie, and no deque changes. -/
theorem settleOn_some {l : Launch} {teams : Bool} (he : s.settleOn l h teams = some u) :
    (∃ g ∈ u.sheaves, g.butPages = h.butPages) ∧ ∀ c, (u.core c).deque = (s.core c).deque := by
  have hcore : ∀ c, ((if teams then s.placeTeams l.id h.number h.core else s).core c) = s.core c := by
    intro c; cases teams <;> rfl
  unfold State.settleOn at he
  simp only at he
  split at he
  · cases he
  · rename_i v hv
    split at he
    · obtain rfl := Option.some.inj he
      obtain ⟨hsh, hdq⟩ := enterCore_some hv
      have hpages := settleLevel_butPages v h.core h.ctx
      have hmem : h.butPages ∈ (v.settleLevel h.core h.ctx).sheaves.map Sheaf.butPages := by
        rw [show (v.settleLevel h.core h.ctx).sheaves.map Sheaf.butPages = v.sheaves.map Sheaf.butPages from congrArg Prod.fst hpages]
        refine List.mem_map_of_mem ?_
        rw [hsh]
        exact List.mem_append_right _ List.mem_cons_self
      refine ⟨List.mem_map.mp hmem, fun c => ?_⟩
      have hcores : (v.settleLevel h.core h.ctx).cores = v.cores := congrArg Prod.snd hpages
      calc ((v.settleLevel h.core h.ctx).core c).deque
        _ = (v.core c).deque := by unfold State.core; rw [hcores]
        _ = ((if teams then s.placeTeams l.id h.number h.core else s).core c).deque := hdq c
        _ = (s.core c).deque := by rw [hcore]
    · cases he

/-! ### Planes that leave their quadrants -/

/-- The state but for what planes that leave or come back change: memory, contexts, save buffers, mailboxes. -/
def State.butPlanes (s : State) : State := { s with mem := [], ctxs := [], fields := [], mailboxes := [] }

theorem tell_butPlanes {core sender : Nat} {msg : List Byte} (he : s.tell core sender msg = some t) : t.butPlanes = s.butPlanes := by
  unfold State.tell at he
  split at he
  · obtain rfl := Option.some.inj he; rfl
  · obtain ⟨m, -, rfl⟩ := Option.map_eq_some_iff.mp he; rfl

theorem reportPlane_butPlanes (s : State) (ctx : Nat) : (s.reportPlane ctx).butPlanes = s.butPlanes := by
  unfold State.reportPlane
  split
  · rfl
  · split
    · rfl
    · rename_i t ht
      exact (rfl : _ = t.butPlanes).trans (tell_butPlanes ht)

theorem stallPlanes_butPlanes (s : State) (core ctx q : Nat) : (s.stallPlanes core ctx q).butPlanes = s.butPlanes := by
  unfold State.stallPlanes
  simp only
  split <;> split
  · rfl
  · exact (reportPlane_butPlanes _ _).trans rfl
  · rfl
  · exact (reportPlane_butPlanes _ _).trans rfl

theorem putPage_butPlanes (s : State) (ctx gpa : Nat) (m : Memory) (p : Nat) : (s.putPage ctx gpa m p).butPlanes = s.butPlanes := by
  unfold State.putPage; split <;> rfl

theorem savePlanes_butPlanes (s : State) (core : Nat) (x : Nat × Nat × Quad) : (s.savePlanes core x).butPlanes = s.butPlanes := by
  unfold State.savePlanes
  split
  · exact stallPlanes_butPlanes s _ _ _
  · exact foldl_keep _ State.butPlanes (fun _ _ => putPage_butPlanes _ _ _ _ _) _ s

theorem endPlaneWait_butPlanes (s : State) (ctx core q : Nat) : (s.endPlaneWait ctx core q).butPlanes = s.butPlanes := by
  unfold State.endPlaneWait
  split
  · rfl
  · simp only
    split <;> rfl

/-- A change of a core's quadrants is the change of the core, but for its planes' memory, contexts, buffers and reports. -/
theorem modQuads_butPlanes (s : State) (core : Nat) (f : Core → Core) : (s.modQuads core f).butPlanes = (s.modCore core f).butPlanes := by
  unfold State.modQuads
  simp only
  rw [foldl_keep _ State.butPlanes (fun u x => savePlanes_butPlanes u core x),
    foldl_keep _ State.butPlanes (fun u (x : Nat × Nat × Quad) => endPlaneWait_butPlanes u x.1 core x.2.1)]

/-- Where no planes are saved and none come back, only the core changes. -/
theorem modQuads_of_saved_eq {core : Nat} {f : Core → Core} (hf : (f (s.core core)).saved = (s.core core).saved) :
    s.modQuads core f = s.modCore core f := by
  have hsaved : ((s.modCore core f).core core).saved = (s.core core).saved := by rw [core_modCore, if_pos rfl, hf]
  have none_new : ∀ xs : List (Nat × Nat × Quad), (xs.filter fun x => !(xs.any fun y => y.1 == x.1 && y.2.1 == x.2.1)) = [] := by
    intro xs
    refine List.filter_eq_nil_iff.mpr fun x hx => ?_
    simpa using ⟨x.2.2, hx⟩
  unfold State.modQuads
  simp only [hsaved, none_new, List.foldl_nil]

@[simp] theorem leaveQuad_res (c : Core) (q : Nat) : (c.leaveQuad q).res = c.res := by
  unfold Core.leaveQuad
  simp only
  split <;> rfl

@[simp] theorem takeQuads_res (c : Core) (ctx granted : Nat) : (c.takeQuads ctx granted).res = c.res := by
  refine foldl_keep _ Core.res (fun c q => ?_) (List.range 4) c
  split
  · exact leaveQuad_res c q
  · rfl

end Sys2Proof.Machine
end

section
/-! SUPPORT. What the scheduler and the residency of a context do, event by event (R39, R46, R53, R57/02, R135, R136/05, R239, R242, R243/11).
Settles O49. -/

namespace Sys2Proof.Machine

variable {s u : State} {h : Sheaf} {r : Res} {core ctx slot : Nat}

/-! ### Choices of a cycle -/

/-- A sheaf once case 1 of R39/02 has chosen its favoured set. -/
def Sheaf.favourStarved (h : Sheaf) : Sheaf :=
  if !h.prog then h
  else
    match h.starvedPc with
    | some p => { h with favoured := h.lanesAt p, favouredOld := some h.favoured }
    | none => h

theorem favourStarved_id (h : Sheaf) : h.favourStarved.id = h.id := by
  unfold Sheaf.favourStarved
  split
  · rfl
  · split <;> rfl

theorem favourStarved_of_starved {p : Vaddr} (hp : h.prog = true) (hv : h.starvedPc = some p) :
    h.favourStarved = { h with favoured := h.lanesAt p, favouredOld := some h.favoured } := by
  simp [Sheaf.favourStarved, hp, hv]

theorem exec_fairnessPeriodExpiry (s : State) (k : Nat) : exec (.fairnessPeriodExpiry k) s = .next (s.modSheaf k Sheaf.favourStarved) := rfl

/-- R46/02: a starving sheaf becomes the sheaf of its pipe's greedy run. -/
theorem exec_starvingSheaf {k : Nat} (hs : s.sheaf? k = some h) (hv : 4088 ≤ h.starve) (hi : s.mayIssue h = true)
    (hp : s.pipeOf h < (s.core h.core).pipes.length) :
    ∃ t, exec (.starvingSheaf k) s = .next t ∧ ((t.core h.core).pipes.getD (s.pipeOf h) {}).last = some k ∧
      ({ t with cores := s.cores } : State) = s := by
  refine ⟨s.modCore h.core fun c => { c with pipes := modAt (fun x : Pipe => { x with last := some k }) c.pipes (s.pipeOf h) }, ?_, ?_, rfl⟩
  · show execStarvingSheaf k s = _
    simp [execStarvingSheaf, hs, hv, hi]
  · rw [core_modCore, if_pos rfl, getD_modAt _ _ _ _ _ hp, if_pos rfl]

/-- R239/11: the turn passes to the group's next sheaf, which holds it from this cycle on. -/
theorem exec_foldQuantumExpiry {g : Nat} (hr : (s.core core).res? ctx = some r) (hq : (cget (0, 0) r.turns g).2 + 512 ≤ s.now) :
    exec (.foldQuantumExpiry core ctx g) s = .next (s.nextTurn core ctx g s.now) := by
  show execFoldQuantumExpiry core ctx g s = _
  simp [execFoldQuantumExpiry, hr, hq]

/-- A residency once a group's turn has passed, of whose sheaf slots these are the ascending list (R239/11). -/
def Res.turned (slots : List Nat) (g since : Nat) (r : Res) : Res :=
  { r with
    turns := cset (0, 0) r.turns g
      (((slots.filter fun k => decide ((cget (0, 0) r.turns g).1 < k)).head?).getD (slots.headD 0), since) }

theorem nextTurn_eq (s : State) (core ctx g since : Nat) :
    s.nextTurn core ctx g since = s.modRes core ctx (Res.turned (s.groupSlots core ctx g) g since) := rfl

theorem nextTurn_turns {g since : Nat} (hr : (s.core core).res? ctx = some r) :
    ∃ r', ((s.nextTurn core ctx g since).core core).res? ctx = some r' ∧ cget (0, 0) r'.turns g =
      ((((s.groupSlots core ctx g).filter fun k => decide ((cget (0, 0) r.turns g).1 < k)).head?).getD
        ((s.groupSlots core ctx g).headD 0), since) := by
  refine ⟨r.turned (s.groupSlots core ctx g) g since, ?_, cget_cset_same _ _ _⟩
  rw [nextTurn_eq, res?_modRes s core ctx (Res.turned _ g since) fun _ e => e, hr]
  rfl

/-! ### Tasks and phases taken by cores -/

/-- R53, R57/02: a suspended party that a core takes in stands there, restored from its record. -/
theorem takeIn_some (he : s.takeIn h core slot = some u) :
    (∃ g ∈ u.sheaves, g.butPages =
      Sheaf.butPages { (h.resumed (s.launchOf h).budget s.now) with core := core, slot := slot }) ∧
      ∀ c, (u.core c).deque = (s.core c).deque := by
  unfold State.takeIn at he
  simp only at he
  split at he
  · exact settleOn_some he
  · cases he

/-- R57/02: a task that starts is resident where it was put, and no deque has changed. -/
theorem startTask_some {x : Nat} (he : s.startTask x core slot = some u) :
    (∃ g ∈ u.sheaves, g.id = x ∧ g.place = .resident ∧ g.core = core ∧ g.slot = slot) ∧ ∀ c, (u.core c).deque = (s.core c).deque := by
  unfold State.startTask at he
  split at he
  · cases he
  · rename_i h hs
    split at he
    · cases he
    · rename_i v hv
      obtain rfl := Option.some.inj he
      obtain ⟨⟨g, hg, e⟩, hdq⟩ := takeIn_some hv
      have hid : g.id = h.id := (congrArg Sheaf.id e :)
      refine ⟨⟨g, ?_, ?_, congrArg Sheaf.place e, congrArg Sheaf.core e, congrArg Sheaf.slot e⟩, fun c => ?_⟩
      · rw [l1Clear_sheaves, State.modLaunch_sheaves, dropRecord_sheaves]
        exact hg
      · exact hid.trans (sheaf?_id hs)
      · exact (l1Clear_deque _ core c).trans (hdq c)

theorem exec_taskTake_none {x : Nat} {rest : List Nat} (hd : (s.core core).deque = x :: rest) (hn : s.startTask x core slot = none) :
    exec (.taskTake core slot) s = .next s := by
  show execTaskTake core slot s = _
  simp [execTaskTake, hd, hn]

theorem exec_taskTake_some {x : Nat} {rest : List Nat} (hd : (s.core core).deque = x :: rest) (hu : s.startTask x core slot = some u) :
    exec (.taskTake core slot) s = .next (u.modCore core fun c => { c with deque := rest }) := by
  show execTaskTake core slot s = _
  simp [execTaskTake, hd, hu]

theorem exec_taskSteal_some {x : Nat} (hd : (s.core core).deque = []) (hv : (s.core (s.victimOf core)).deque.getLast? = some x)
    (hu : s.startTask x core slot = some u) :
    exec (.taskSteal core slot) s = .next (u.modCore (s.victimOf core) fun c => { c with deque := c.deque.dropLast }) := by
  show execTaskSteal core slot s = _
  simp [execTaskSteal, hd, hv, hu]

theorem exec_taskSteal_own (hd : (s.core core).deque ≠ []) : exec (.taskSteal core slot) s = .next s := by
  show execTaskSteal core slot s = _
  simp [execTaskSteal, hd]

/-- The phase task that is resumed is one that the core takes in. -/
theorem firstPhase_takes {f : Nat} {xs : List (Nat × Nat)} (he : s.firstPhase core slot xs = some (f, h, u)) :
    s.takeIn h core slot = some u := by
  induction xs with
  | nil => cases he
  | cons x xs ih =>
    obtain ⟨g, k⟩ := x
    unfold State.firstPhase at he
    split at he
    · exact ih he
    · split at he
      · rename_i hv
        cases he
        exact hv
      · exact ih he

theorem acquireTeam_frame (s : State) (core : Nat) (x : Team) :
    (s.acquireTeam core x).fields = s.fields ∧ (s.acquireTeam core x).sheaves = s.sheaves := by
  unfold State.acquireTeam; split <;> exact ⟨rfl, rfl⟩

/-- R53/02: a resumption takes the phase task from its queue; its acquire leaves fields and sheaves. -/
theorem exec_phaseResume {f : Nat} (he : s.firstPhase core slot (s.phasesFor core) = some (f, h, u)) :
    ∃ t, exec (.phaseResume core slot) s = .next t ∧
      t.fields = ((u.modField f fun x => x.without [h.id]).dropRecord h.id).fields ∧ t.sheaves = u.sheaves := by
  show ∃ t, execPhaseResume core slot s = .next t ∧ _
  unfold execPhaseResume
  rw [he]
  simp only
  split
  · split
    · exact ⟨_, rfl, acquireTeam_frame _ _ _⟩
    · exact ⟨_, rfl, rfl, rfl⟩
  · exact ⟨_, rfl, rfl, rfl⟩

/-- A phase task taken from a field's queue is no more in it. -/
theorem not_mem_phases_taken (s : State) (f x : Nat) :
    x ∉ (((s.modField f fun k => k.without [x]).dropRecord x).field f).phases := by
  have hwithout : x ∉ ((s.field f).without [x]).phases := by
    intro hm
    have := List.mem_of_mem_take hm
    simp at this
  rcases cget_cmap_cases (dflt := ({} : FieldState)) (fun k => { k with records := k.records.filter fun r => !(r.sheaf == x) })
    (s.modField f fun k => k.without [x]).fields f with e | ⟨y, hy, e⟩
  · exact fun hm => List.not_mem_nil ((congrArg FieldState.phases e) ▸ hm)
  · obtain rfl := eq_of_mem_cset hy
    exact fun hm => hwithout ((congrArg FieldState.phases e) ▸ hm)

/-! ### Squeezes, expansions and pages -/

theorem exec_forcedSqueeze (hr : (s.core core).res? ctx = some r) (hn : r.noticed = true) (hf : r.forced = true) (ha : r.aim < r.level) :
    ∃ t, exec (.forcedSqueeze core ctx) s = .next t ∧
      (t.core core).res? ctx = some { r with squeezing := true, target := r.aim, stopped := false, noticed := false, forced := false,
                                             moves := [] } ∧ ({ t with cores := s.cores } : State) = s := by
  refine ⟨s.beginSqueeze core ctx, ?_, ?_, rfl⟩
  · show execForcedSqueeze core ctx s = _
    simp [execForcedSqueeze, hr, hn, hf]
  · unfold State.beginSqueeze
    rw [res?_modRes s core ctx _ fun r e => by split <;> exact e, hr]
    simp [ha]

theorem exec_forcedSqueeze_unnoticed (hr : (s.core core).res? ctx = some r) (hn : r.noticed = false) :
    exec (.forcedSqueeze core ctx) s = .next s := by
  show execForcedSqueeze core ctx s = _
  simp [execForcedSqueeze, hr, hn]

/-- The residency of a context once a squeeze of it is complete (R243/11). -/
def Res.squeezed (r : Res) : Res :=
  { r with
    level := r.target
    squeezing := false
    stopped := false
    reclaim := if r.aim < r.target then r.reclaim else clearAct r.reclaim }

theorem clearAct_act (x : Dword) : (clearAct x).getLsbD 0 = false := by simp [clearAct]

/-- R243/11: with nothing left to spill or to move, the squeeze is complete: its quadrants are taken, and LEVEL is its level. -/
theorem exec_squeezeCompletion (hr : (s.core core).res? ctx = some r) (hq : r.squeezing = true) (hst : r.stopped = true)
    (hm : r.moves = []) (hb : r.returns = []) (hy : s.beyond core ctx r.target = []) (hp : s.pagesOut core ctx r.target = []) :
    exec (.squeezeCompletion core ctx) s =
      .next ((s.modQuads core fun k => k.takeQuads ctx (levelQuads r.target)).modRes core ctx Res.squeezed) := by
  show execSqueezeCompletion core ctx s = _
  simp [execSqueezeCompletion, hr, hq, hst, hm, hb, hy, hp, State.spill]
  exact congrArg (State.modRes _ core ctx) rfl

/-- After a change of a core, but for its planes' memory, contexts, buffers and reports, a change of a residency leaves the rest. -/
theorem modRes_eq_of_butPlanes {f : Core → Core} {g : Res → Res} (hu : u.butPlanes = (s.modCore core f).butPlanes) :
    ({ u.modRes core ctx g with
      cores := s.cores, mem := s.mem, ctxs := s.ctxs, fields := s.fields, mailboxes := s.mailboxes } : State) = s := by
  calc ({ u.modRes core ctx g with
      cores := s.cores, mem := s.mem, ctxs := s.ctxs, fields := s.fields, mailboxes := s.mailboxes } : State)
    _ = { u.butPlanes with
      cores := s.cores, mem := s.mem, ctxs := s.ctxs, fields := s.fields, mailboxes := s.mailboxes } := rfl
    _ = { (s.modCore core f).butPlanes with
      cores := s.cores, mem := s.mem, ctxs := s.ctxs, fields := s.fields, mailboxes := s.mailboxes } := by rw [hu]
    _ = s := by simp only [State.butPlanes, State.modCore]

theorem core_modQuads (s : State) (core : Nat) (f : Core → Core) : (s.modQuads core f).core core = f (s.core core) := by
  have hcores : (s.modQuads core f).cores = (s.modCore core f).cores := (congrArg State.cores (modQuads_butPlanes s core f) :)
  unfold State.core
  rw [hcores]
  exact cget_cset_same _ _ _

theorem modCore_butCores (s : State) (c : Nat) (f : Core → Core) (m : Cells Core) :
    ({ s.modCore c f with cores := m } : State) = { s with cores := m } := rfl

/-- Where no planes are saved and none come back, a squeeze changes nothing outside the core. -/
theorem modRes_modQuads_of_saved_eq {f : Core → Core} {g : Res → Res}
    (hs : (((s.modQuads core f).modRes core ctx g).core core).saved = (s.core core).saved) :
    ({ (s.modQuads core f).modRes core ctx g with cores := s.cores } : State) = s := by
  have hf : (f (s.core core)).saved = (s.core core).saved := by
    rw [← core_modQuads s core f, ← hs, State.modRes, core_modCore, if_pos rfl]
  rw [modQuads_of_saved_eq hf]
  exact modCore_butCores (s.modCore core f) core _ s.cores

theorem exec_squeezeCompletion_idle (hr : (s.core core).res? ctx = some r) (hq : r.squeezing = false ∨ r.stopped = false) :
    exec (.squeezeCompletion core ctx) s = .next s := by
  have hno : (r.squeezing && r.stopped) = false := by rcases hq with e | e <;> simp [e]
  have hno' : ¬ (r.squeezing = true ∧ r.stopped = true) := by rcases hq with e | e <;> simp [e]
  show execSqueezeCompletion core ctx s = _
  unfold execSqueezeCompletion
  rw [hr]
  simp only [hno, Bool.false_eq_true, if_false]
  rw [if_neg fun h => hno' ⟨h.1, h.2.1⟩, if_neg fun h => hno' ⟨h.1, h.2.1⟩]

/-- The residency of a context that has risen by one level, `back` being the pages that come back (R243/11). -/
def Res.expanded (back : List PageRef) (now : Nat) (r : Res) : Res :=
  { r with
    level := r.level + 1
    returns := back
    expandAt := if r.level + 1 < r.goal then some (now + 1024) else none }

/-- The state but for its sheaves. -/
def State.butSheaves (s : State) : State := { s with sheaves := [] }

theorem newlyResident_butSheaves (s : State) (core ctx : Nat) : (s.newlyResident core ctx).butSheaves = s.butSheaves := by
  unfold State.newlyResident
  refine foldl_keep _ State.butSheaves (fun u h => ?_) _ s
  split <;> rfl

theorem expandAll_butSheaves (s : State) (core ctx : Nat) : (s.expandAll core ctx).butSheaves = s.butSheaves := by
  unfold State.expandAll
  refine foldl_keep _ State.butSheaves (fun u h => ?_) _ s
  split <;> rfl

/-- R243/11: LEVEL rises by one step; but for sheaves, only the residency changes. -/
theorem exec_expansionStep (hr : (s.core core).res? ctx = some r) (hq : r.squeezing = false) (hp : r.parking = false)
    (hl : r.level < r.goal) (hg : s.grantsFit core ctx (r.level + 1) = true) {x : Nat} (hx : r.expandAt = some x) (hn : x ≤ s.now) :
    ∃ t, exec (.expansionStep core ctx) s = .next t ∧
      t.butSheaves = (s.modRes core ctx (Res.expanded (s.pagesBack core ctx (r.level + 1)) s.now)).butSheaves := by
  have hgo : ¬ (r.squeezing = true ∨ r.parking = true ∨ r.goal ≤ r.level ∨ ¬ s.grantsFit core ctx (r.level + 1) = true) := by
    simp [hq, hp, hg]; omega
  show ∃ t, execExpansionStep core ctx s = .next t ∧ _
  unfold execExpansionStep
  rw [hr]
  simp only [if_neg hgo, hx, if_neg (Nat.not_lt.mpr hn)]
  refine ⟨_, rfl, ?_⟩
  split
  · exact (expandAll_butSheaves _ _ _).trans (newlyResident_butSheaves _ _ _)
  · exact newlyResident_butSheaves _ _ _

theorem exec_expansionStep_atGoal (hr : (s.core core).res? ctx = some r) (hl : r.goal ≤ r.level) :
    exec (.expansionStep core ctx) s = .next s := by
  show execExpansionStep core ctx s = _
  simp [execExpansionStep, hr, hl]

/-- R135, R136/05: a residency's list changes and a page of a team moves; the page stands where it should, the team's others where they stood. -/
theorem movePage_team_residency {id : Nat} {tm : Team} (f : Res → Res) (hf : ∀ r, r.ctx = ctx → (f r).ctx = ctx)
    (hr : (s.core core).res? ctx = some r) (ht : s.team? id = some tm) (he : tm.ended = false) (page : Nat) (away : Bool) :
    ∃ tm', (((s.modRes core ctx f).movePage (.team id page) away).core core).res? ctx = some (f r) ∧
      ((s.modRes core ctx f).movePage (.team id page) away).team? id = some tm' ∧ tm'.reloc.contains page = away ∧
      (∀ k, k ≠ page → tm'.reloc.contains k = tm.reloc.contains k) ∧ ({ tm' with reloc := tm.reloc } : Team) = tm := by
  obtain ⟨tm', htm, hhas, hothers, hframe, hcores⟩ := movePage_team (s := s.modRes core ctx f) (page := page) (away := away) ht he
  exact ⟨tm', res?_of_cores_modRes hcores hf hr, htm, hhas, hothers, hframe⟩

/-- R135/05: the next page to leave goes first. -/
theorem exec_scratchPageMove_out {p : PageRef} {rest : List PageRef} (hr : (s.core core).res? ctx = some r) (hm : r.moves = p :: rest) :
    exec (.scratchPageMove core ctx) s = .next ((s.modRes core ctx fun r => { r with moves := rest }).movePage p true) := by
  show execScratchPageMove core ctx s = _
  simp [execScratchPageMove, hr, hm]

/-- R135/05: with none left to leave, the next one comes back. -/
theorem exec_scratchPageMove_back {p : PageRef} {rest : List PageRef} (hr : (s.core core).res? ctx = some r) (hm : r.moves = [])
    (hb : r.returns = p :: rest) :
    exec (.scratchPageMove core ctx) s = .next ((s.modRes core ctx fun r => { r with returns := rest }).movePage p false) := by
  show execScratchPageMove core ctx s = _
  simp [execScratchPageMove, hr, hm, hb]

/-- Settles O49: each event by the lemma that says what it makes of the state. -/
theorem schedulingAndResidency : Obligations.SchedulingAndResidency := by
  unfold Obligations.SchedulingAndResidency
  intro s
  refine ⟨?fairness, ?starving, ?fold, ?take, ?steal, fun _ _ => exec_taskSteal_own, ?phase, fun core ctx r hr => ⟨?forced,
    exec_forcedSqueeze_unnoticed hr, ?complete, exec_squeezeCompletion_idle hr, ?expand, exec_expansionStep_atGoal hr, ?page⟩⟩
  case fairness =>
    intro k h p hs hp hv
    refine ⟨_, exec_fairnessPeriodExpiry s k, ?_, sameBut_modSheaf s k _ favourStarved_id⟩
    rw [sheaf?_modSheaf s k k _ favourStarved_id, if_pos rfl, hs, Option.map_some, favourStarved_of_starved hp hv]
  case starving => exact fun k h hs hv hi hp => exec_starvingSheaf hs hv hi hp
  case fold =>
    intro core ctx g r hr hq
    obtain ⟨r', hr', ht⟩ := nextTurn_turns (g := g) (since := s.now) hr
    exact ⟨_, r', exec_foldQuantumExpiry hr hq, hr', ht, rfl⟩
  case take =>
    intro core slot x rest hd
    refine ⟨exec_taskTake_none hd, fun hn => ?_⟩
    obtain ⟨u, hu⟩ := Option.ne_none_iff_exists'.mp hn
    refine ⟨_, exec_taskTake_some hd hu, ?_, (startTask_some hu).1⟩
    rw [core_modCore, if_pos rfl]
  case steal =>
    intro core slot x hd hv hn
    obtain ⟨u, hu⟩ := Option.ne_none_iff_exists'.mp hn
    obtain ⟨hstands, hdeques⟩ := startTask_some hu
    refine ⟨_, exec_taskSteal_some hd hv hu, ?_, hstands⟩
    rw [core_modCore, if_pos rfl]
    exact congrArg List.dropLast (hdeques _)
  case phase =>
    intro core slot f h u he
    obtain ⟨t, hx, hfields, hsheaves⟩ := exec_phaseResume he
    obtain ⟨⟨g, hg, e⟩, -⟩ := takeIn_some (firstPhase_takes he)
    have hlanes : g.lanes = h.lanes.map fun ln : Lane => { ln with bwait := 0, winBase := none, winWords := [] } :=
      (congrArg Sheaf.lanes e :)
    refine ⟨t, hx, ?_, g, hsheaves ▸ hg, (congrArg Sheaf.id e :), congrArg Sheaf.place e, congrArg Sheaf.core e, congrArg Sheaf.slot e,
      congrArg Sheaf.v e, (congrArg Sheaf.s e :), (congrArg Sheaf.p e :), ?_, ?_⟩
    · unfold State.field
      rw [hfields]
      exact not_mem_phases_taken u f h.id
    · rw [hlanes, List.map_map]; rfl
    · rw [hlanes, List.map_map]; rfl
  case forced => exact exec_forcedSqueeze hr
  case complete =>
    intro hq hst hm hb hy hp
    refine ⟨_, r.squeezed, exec_squeezeCompletion hr hq hst hm hb hy hp, ?_, rfl, rfl, fun hle => ?_, fun hlt => ?_, rfl, ?_, fun hsaved => ?_⟩
    · rw [res?_modRes _ core ctx Res.squeezed fun _ e => e, core_modQuads, Core.res?, takeQuads_res]
      exact congrArg (Option.map Res.squeezed) hr
    · show (if r.aim < r.target then r.reclaim else clearAct r.reclaim).getLsbD 0 = false
      rw [if_neg (Nat.not_lt.mpr hle), clearAct_act]
    · exact if_pos hlt
    · exact modRes_eq_of_butPlanes (modQuads_butPlanes s core _)
    · exact modRes_modQuads_of_saved_eq hsaved
  case expand =>
    intro hq hp hl hg hx
    obtain ⟨x, hx, hn⟩ := hx
    obtain ⟨t, ht, hframe⟩ := exec_expansionStep hr hq hp hl hg hx hn
    refine ⟨t, r.expanded (s.pagesBack core ctx (r.level + 1)) s.now, ht, ?_, rfl, (congrArg State.mem hframe :), rfl, rfl, rfl⟩
    exact res?_of_cores_modRes (congrArg State.cores hframe :) (fun _ e => e) hr
  case page =>
    intro id page rest tm ht he hnext
    rcases hnext with hm | ⟨hm, hb⟩
    · obtain ⟨tm', hres, htm, hhas, hframe⟩ := movePage_team_residency (fun r => { r with moves := rest }) (fun _ e => e) hr ht he page true
      exact ⟨_, _, tm', exec_scratchPageMove_out hr hm, hres, htm, by rw [hhas, hm]; rfl, hframe.1, hframe.2, by rw [hm]; rfl⟩
    · obtain ⟨tm', hres, htm, hhas, hframe⟩ := movePage_team_residency (fun r => { r with returns := rest }) (fun _ e => e) hr ht he page false
      exact ⟨_, _, tm', exec_scratchPageMove_back hr hm hb, hres, htm, by rw [hhas, hm]; rfl, hframe.1, hframe.2, by rw [hm]; rfl⟩

end Sys2Proof.Machine
end

section
/-! SUPPORT. The life of a launch: what a record or a report written in memory leaves as it was, dispatch, the start of a sheaf, the carve-out,
retirement, restart (R48, R61 to R65/02, R157/07, R249/11). Settles O48. -/

namespace Sys2Proof.Machine

variable {s t u : State} {l : Launch}

/-! ### Folds -/

/-- A fold whose every step adds one. -/
theorem foldl_grows {α β : Type} (g : α → β → α) (size : α → Nat) (xs : List β) (hg : ∀ a, ∀ x ∈ xs, size (g a x) = size a + 1) (a : α) :
    size (xs.foldl g a) = size a + xs.length := by
  induction xs generalizing a with
  | nil => rfl
  | cons x xs ih =>
    rw [List.foldl_cons, ih (fun b y hy => hg b y (List.mem_cons_of_mem _ hy)), hg a x List.mem_cons_self, List.length_cons]
    omega

/-- A fold that at each item keeps what it has or takes the item ends with one of the items. -/
theorem foldl_choice_mem {α : Type} (P : α → α → Prop) [∀ a b, Decidable (P a b)] (xs : List α) (a : α) :
    xs.foldl (fun b m => if P b m then m else b) a ∈ a :: xs := by
  induction xs generalizing a with
  | nil => exact List.mem_cons_self
  | cons x xs ih =>
    rw [List.foldl_cons]
    by_cases h : P a x
    · rw [if_pos h]
      exact List.mem_cons_of_mem _ (ih x)
    · rw [if_neg h]
      rcases List.mem_cons.mp (ih a) with e | e
      · rw [e]; exact List.mem_cons_self
      · exact List.mem_cons_of_mem _ (List.mem_cons_of_mem _ e)

/-- What is read after writes to some keys. -/
theorem cget_foldl_cset {α : Type} [DecidableEq α] {dflt : α} (v : Nat → α) (ks : List Nat) (m : Cells α) (n : Nat) :
    cget dflt (ks.foldl (fun r k => cset dflt r k (v k)) m) n = if n ∈ ks then v n else cget dflt m n := by
  induction ks generalizing m with
  | nil => simp
  | cons k ks ih =>
    rw [List.foldl_cons, ih, cget_cset]
    by_cases hk : n = k
    · simp [hk]
    · simp [hk]

/-- The lanes of a mask made from a list. -/
theorem getLsbD_maskOf (ls : List Nat) (x : Nat) (hx : x < 64) : (maskOf ls).getLsbD x = decide (x ∈ ls) := by
  have step : ∀ (ls : List Nat) (m : Mask), (ls.foldl (fun m l => m ||| laneBit l) m).getLsbD x = (m.getLsbD x || decide (x ∈ ls)) := by
    intro ls
    induction ls with
    | nil => simp
    | cons l ls ih =>
      intro m
      rw [List.foldl_cons, ih, BitVec.getLsbD_or, getLsbD_laneBit l x hx]
      simp [Bool.or_assoc]
  rw [maskOf, step]
  simp

/-! ### Records and reports -/

/-- The work the machine holds: launches, sheaves, teams, jobs. -/
def State.work (s : State) : List Launch × List Sheaf × List Team × List Job := (s.launches, s.sheaves, s.teams, s.jobs)

theorem homeWrite_work (s : State) (hpa : Nat) (bs : List Byte) (sys : Bool) : (s.homeWrite hpa bs sys).work = s.work := by
  unfold State.homeWrite
  simp only
  split
  · rfl
  · split <;> rfl

theorem putGuest_work (bs : List Byte) (s : State) (ctx gpa : Nat) : (s.putGuest ctx gpa bs).work = s.work := by
  induction bs generalizing s gpa with
  | nil => rfl
  | cons b bs ih =>
    unfold State.putGuest
    rw [ih]
    split <;> rfl

theorem retain_work (s : State) (ctx id vline hline : Nat) (data : List Byte) : (s.retain ctx id vline hline data).work = s.work := by
  unfold State.retain
  simp only
  split
  · exact putGuest_work _ _ _ _
  · rfl

theorem retainFor_work (s : State) (ctx rev vline hline : Nat) : (s.retainFor ctx rev vline hline).work = s.work :=
  foldl_keep _ State.work (fun _ _ => retain_work _ _ _ _ _ _) _ s

theorem glWrite_work (s : State) (ctx rev va hpa : Nat) (bs : List Byte) (sys : Bool) : (s.glWrite ctx rev va hpa bs sys).work = s.work := by
  unfold State.glWrite
  split
  · exact homeWrite_work s hpa bs sys
  · simp only
    split
    · rw [homeWrite_work, retainFor_work]
    · exact retainFor_work s ctx rev (lineOf va) (lineOf hpa)

theorem guestWrite_work (fuel : Nat) (s : State) (ctx va : Nat) (bs : List Byte) : (s.guestWrite ctx va fuel bs).work = s.work := by
  induction fuel generalizing s va bs with
  | zero => rfl
  | succ fuel ih =>
    unfold State.guestWrite
    split
    · rfl
    · simp only
      rw [ih]
      split
      · rfl
      · exact glWrite_work _ _ _ _ _ _ _

/-- R157/07: a launch record that is written changes no work. -/
theorem writeRecord_work (s : State) (l : Launch) (status reason b2 b3 : Nat) : (s.writeRecord l status reason b2 b3).work = s.work :=
  guestWrite_work _ s _ _ _

/-- R150/06: a record of an error queue changes no work. -/
theorem report_work (s : State) (ctx cause byte3 addr : Nat) (detail : List Byte) :
    (s.report ctx cause byte3 addr detail).work = s.work := by
  unfold State.report
  simp only
  split
  · split <;> rfl
  · rfl

/-! ### Dispatch (R48/02, R157/07) -/

theorem nextLaunch_mem (hn : s.nextLaunch = some l) : l ∈ s.launches := by
  unfold State.nextLaunch at hn
  simp only at hn
  split at hn
  · cases hn
  · rename_i m ms hm
    have hl : l ∈ m :: ms := Option.some.inj hn ▸ foldl_choice_mem _ ms m
    exact (List.mem_filter.mp (hm ▸ hl)).1

theorem exec_launchDispatch_none (hn : s.nextLaunch = none) : exec .launchDispatch s = .next s := by
  show execLaunchDispatch s = _
  simp only [execLaunchDispatch, hn]

/-- The launch that a dispatch makes of one that passes its checks (R48, R63/02). -/
def State.dispatched (s : State) (l : Launch) (d : List Byte) : Launch :=
  { l.withDesc d with
    state := 1
    dispatched := s.now
    dispatchSeq := s.launches.foldl (fun n m => max n m.dispatchSeq) 0 + 1
    liveParts := fieldOf d 8 4
    carry := (s.dispatchChecks l d).carry
    gateOpen := (s.readRegions l.ctx).gateNow (l.withDesc d) }

section
variable {d : List Byte} (hn : s.nextLaunch = some l) (hd : s.guestBytes l.ctx l.descAddr.toNat 256 = .ok d)
include hn hd

theorem exec_launchDispatch_passes (hb : (s.dispatchChecks l d).bad = []) : exec .launchDispatch s =
    .next (((s.readRegions l.ctx).modLaunch l.id fun _ => s.dispatched l d).addTeams (s.dispatched l d) (s.dispatchChecks l d).teams) := by
  show execLaunchDispatch s = _
  simp only [execLaunchDispatch, hn, hd, hb, ne_eq, not_true_eq_false, if_false]
  rfl

theorem exec_launchDispatch_rejects (hb : (s.dispatchChecks l d).bad ≠ []) :
    exec .launchDispatch s = .next (s.rejectLaunch (l.withDesc d) (leastReason (s.dispatchChecks l d).bad)) := by
  show execLaunchDispatch s = _
  simp only [execLaunchDispatch, hn, hd, hb, ne_eq, not_false_eq_true, if_true]

end

/-- A dispatch adds the teams of the table, and changes nothing else but numbers. -/
theorem addTeams_spec (s : State) (l : Launch) (es : List TeamEntry) :
    (s.addTeams l es).launches = s.launches ∧ (s.addTeams l es).sheaves = s.sheaves ∧ (s.addTeams l es).mem = s.mem ∧
      (s.addTeams l es).teams.length = s.teams.length + es.length := by
  have keeps : ((s.addTeams l es).launches, (s.addTeams l es).sheaves, (s.addTeams l es).mem) = (s.launches, s.sheaves, s.mem) := by
    unfold State.addTeams
    refine foldl_keep _ (fun s : State => (s.launches, s.sheaves, s.mem)) (fun u k => ?_) _ s
    split <;> rfl
  have grows : (s.addTeams l es).teams.length = s.teams.length + (List.range es.length).length := by
    unfold State.addTeams
    refine foldl_grows _ (fun s : State => s.teams.length) _ (fun u k hk => ?_) s
    rw [List.getElem?_eq_getElem (List.mem_range.mp hk)]
    simp [State.fresh]
  obtain ⟨hl, hs, hm⟩ : _ ∧ _ ∧ _ := by simpa using keeps
  exact ⟨hl, hs, hm, by rw [grows, List.length_range]⟩

/-- A number that some launch has is that of a launch. -/
theorem launch?_of_id_mem {n : Nat} (hn : n ∈ s.launches.map Launch.id) : ∃ k, s.launch? n = some k := by
  obtain ⟨m, hm, e⟩ := List.mem_map.mp hn
  exact Option.isSome_iff_exists.mp ((List.find?_isSome (p := fun l : Launch => l.id == n)).mpr ⟨m, hm, by simpa using e⟩)

/-- A launch among those of the machine, under its number, once it has become another. -/
theorem launch?_modLaunch_const (hl : l ∈ s.launches) (m : Launch) (hm : m.id = l.id) :
    (s.modLaunch l.id fun _ => m).launch? l.id = some m := by
  rw [launch?_modLaunch s l.id (fun _ => m) fun _ _ => hm]
  obtain ⟨k, hk⟩ := launch?_of_id_mem (List.mem_map_of_mem hl)
  rw [hk, Option.map_some]

theorem launch?_congr (h : t.launches = s.launches) (n : Nat) : t.launch? n = s.launch? n := by
  unfold State.launch?; rw [h]

/-! ### The start of a sheaf (R61, R62/02) -/

theorem enqueueLinked_sheaves (s : State) (l : Launch) (core : Nat) (slots : List (Option Nat)) :
    (s.enqueueLinked l core slots).sheaves = s.sheaves := by
  have rejects : ∀ (u : State) (idx addr engine cause : Nat), (u.rejectLinked l idx addr engine cause).sheaves = u.sheaves :=
    fun u _ addr engine cause => congrArg (fun w => w.2.1) (report_work u l.ctx errJob engine addr _)
  unfold State.enqueueLinked
  refine foldl_keep _ State.sheaves (fun u x => ?_) _ s
  split
  · exact rejects _ _ _ _ _
  · split
    · rfl
    · exact rejects _ _ _ _ _

/-- A sheaf that is made resident starts as its launch says, but for where its pages lie. -/
theorem makeResident_some {n core slot : Nat} (hm : s.makeResident l n core slot = some u) :
    ∃ g ∈ u.sheaves, g.butPages =
      (l.newSheaf s.nextId n core slot s.now (State.slotsOf { s with nextId := s.nextId + 1 } l.id n)).butPages := by
  unfold State.makeResident at hm
  split at hm
  · simp only [State.fresh] at hm
    split at hm
    · cases hm
    · rename_i v hv
      obtain ⟨g, hg, e⟩ := (settleOn_some hv).1
      refine ⟨g, ?_, e⟩
      rw [← Option.some.inj hm]
      split
      · rw [enqueueLinked_sheaves, l1Clear_sheaves, State.modLaunch_sheaves]
        exact hg
      · rw [l1Clear_sheaves, State.modLaunch_sheaves]
        exact hg
  · cases hm

theorem newSheaf_lane (l : Launch) (id n core slot now : Nat) (slots : List (Option Nat)) (x : Nat) (hx : x < 64) :
    ((l.newSheaf id n core slot now slots).lane x).pc = l.entry := by
  show ((List.replicate 64 ({ pc := l.entry } : Lane)).getD x {}).pc = l.entry
  rw [List.getD_eq_getElem?_getD, List.getElem?_replicate, if_pos hx, Option.getD_some]

theorem newSheaf_sget (l : Launch) (id n core slot now : Nat) (slots : List (Option Nat)) (x : Nat) (hx : x < 16) :
    (l.newSheaf id n core slot now slots).sget x = BitVec.ofNat 64 (fieldOf l.desc (128 + 8 * x) 8) := by
  show cget 0 (argRegs l.desc) x = _
  unfold argRegs
  rw [cget_foldl_cset (fun k => BitVec.ofNat 64 (fieldOf l.desc (128 + 8 * k) 8)), if_pos (List.mem_range.mpr hx)]

theorem newSheaf_exited_last {l : Launch} {n : Nat} (hn : n + 1 = l.sheafCount) (id core slot now : Nat) (slots : List (Option Nat)) (x : Nat)
    (hx : x < 64) : (l.newSheaf id n core slot now slots).exited.getLsbD x = decide (l.lastLanes ≤ x) := by
  show (if n + 1 = l.sheafCount then maskOf _ else 0).getLsbD x = _
  rw [if_pos hn, getLsbD_maskOf _ x hx]
  simp [hx]

/-! ### The carve-out (R65/02) -/

/-- A choice among launches that are all the same is that one. -/
theorem foldl_choice_of_all_eq (g : Option Launch → Launch → Option Launch) (hfirst : g none l = some l) (hrest : g (some l) l = some l)
    (xs : List Launch) (hx : xs ≠ []) (hall : ∀ m ∈ xs, m = l) : xs.foldl g none = some l := by
  obtain ⟨n, hn⟩ := Nat.exists_eq_succ_of_ne_zero fun h0 => hx (List.length_eq_zero_iff.mp h0)
  rw [List.eq_replicate_of_mem hall, hn, List.replicate_succ, List.foldl_cons, hfirst]
  clear hn
  induction n with
  | zero => rfl
  | succ n ih => rw [List.replicate_succ, List.foldl_cons, hrest, ih]

theorem exec_carveOutChange {core idx : Nat} (hl : l ∈ s.launches) (hw : s.wantsCore l core = true)
    (hall : ∀ m ∈ s.launches, s.wantsCore m core = true → m = l) (hc : l.carve = idx) (he : s.coreEmpty core = true)
    (hn : (s.core core).carve ≠ idx) :
    exec (.carveOutChange core idx) s = .next ((s.modCore core fun c => { c with carve := idx }).l1Empty core) := by
  have hne : s.launches.filter (fun l => s.wantsCore l core) ≠ [] := List.ne_nil_of_mem (List.mem_filter.mpr ⟨hl, hw⟩)
  have hsame : ∀ m ∈ s.launches.filter (fun l => s.wantsCore l core), m = l := fun m hm =>
    hall m (List.mem_filter.mp hm).1 (List.mem_filter.mp hm).2
  show execCarveOutChange core idx s = _
  simp only [execCarveOutChange]
  rw [foldl_choice_of_all_eq _ rfl (if_neg (Nat.lt_irrefl _)) _ hne hsame]
  exact if_pos ⟨he, hc, hn⟩

theorem exec_carveOutChange_held {core idx : Nat} (he : s.coreEmpty core = false) : exec (.carveOutChange core idx) s = .next s := by
  show execCarveOutChange core idx s = _
  simp only [execCarveOutChange, he, Bool.false_eq_true, false_and, if_false]
  split <;> rfl

/-- What a core is after its L1 has been emptied. -/
theorem core_l1Empty (s : State) (core x : Nat) : (s.l1Empty core).core x =
    if x = core then { (s.l1Clear core).core core with l1 := [] } else s.core x := by
  unfold State.l1Empty
  rw [core_modCore]
  by_cases e : x = core
  · rw [if_pos e, if_pos e]
  · rw [if_neg e, if_neg e, State.l1Clear, core_modCore, if_neg e]

theorem l1Empty_modCore_butCores (s : State) (core : Nat) (f : Core → Core) :
    ({ (s.modCore core f).l1Empty core with cores := s.cores } : State) = s := by
  simp only [State.l1Empty, State.l1Clear, State.modCore]

theorem l1Clear_carve (s : State) (core : Nat) : ((s.l1Clear core).core core).carve = (s.core core).carve := by
  unfold State.l1Clear
  rw [core_modCore, if_pos rfl]

/-! ### Retirement (R62, R63/02) -/

theorem exec_launchRetirement_waits {id : Nat} (hl : s.launch? id = some l) (ho : s.launchOver l = false) :
    exec (.launchRetirement id) s = .next s := by
  show execLaunchRetirement id s = _
  simp [execLaunchRetirement, hl, ho]

theorem exec_launchRetirement_over {id : Nat} (hl : s.launch? id = some l) (ho : s.launchOver l = true) :
    exec (.launchRetirement id) s = .next (s.retireLaunch l) := by
  show execLaunchRetirement id s = _
  simp [execLaunchRetirement, hl, ho]

/-- What the retirement of a launch makes of a launch. -/
def Launch.afterRetirement (id : Nat) (k : Launch) : Launch :=
  if k.id = id then { k with state := 2 } else if k.pred = some id then { k with gateOpen := true } else k

theorem dropTeams_sheaves (s : State) : s.dropTeams.sheaves = s.sheaves := rfl

theorem dropTeams_jobs (s : State) : s.dropTeams.jobs = s.jobs := rfl

theorem freeDropped_sheaves (s : State) (l : Launch) : (s.freeDropped l).sheaves = s.sheaves := rfl

theorem freeDropped_jobs (s : State) (l : Launch) : (s.freeDropped l).jobs = s.jobs := rfl

theorem mapFields_sheaves (s : State) (f : FieldState → FieldState) : (s.mapFields f).sheaves = s.sheaves := rfl

theorem mapFields_jobs (s : State) (f : FieldState → FieldState) : (s.mapFields f).jobs = s.jobs := rfl

theorem retireLaunch_launches (s : State) (l : Launch) :
    ∃ ks : List Launch, (s.retireLaunch l).launches = ks.map (Launch.afterRetirement l.id) := by
  unfold State.retireLaunch
  obtain ⟨st, b2, b3⟩ := l.status
  dsimp only
  generalize (s.writeRecord l st 0 b2 b3).freeDropped l = w
  exact ⟨w.launches, rfl⟩

theorem retireLaunch_sheaves (s : State) (l : Launch) : (s.retireLaunch l).sheaves = s.sheaves.filter fun h => !(h.launch == l.id) := by
  unfold State.retireLaunch
  obtain ⟨st, b2, b3⟩ := l.status
  have hw : (s.writeRecord l st 0 b2 b3).sheaves = s.sheaves := congrArg (fun w => w.2.1) (writeRecord_work s l st 0 b2 b3)
  simp only [dropTeams_sheaves, mapFields_sheaves, freeDropped_sheaves, hw]

theorem retireLaunch_jobs (s : State) (l : Launch) : (s.retireLaunch l).jobs = s.jobs := by
  unfold State.retireLaunch
  obtain ⟨st, b2, b3⟩ := l.status
  have hw : (s.writeRecord l st 0 b2 b3).jobs = s.jobs := congrArg (fun w => w.2.2.2) (writeRecord_work s l st 0 b2 b3)
  simp only [dropTeams_jobs, mapFields_jobs, freeDropped_jobs, hw]

theorem afterRetirement_state {id : Nat} {k : Launch} (hk : (k.afterRetirement id).id = id) : (k.afterRetirement id).state = 2 := by
  unfold Launch.afterRetirement at hk ⊢
  split
  · rfl
  · rename_i hne
    rw [if_neg hne] at hk
    split at hk <;> exact absurd hk hne

theorem afterRetirement_gateOpen {id : Nat} {k : Launch} (hk : (k.afterRetirement id).id ≠ id) (hp : (k.afterRetirement id).pred = some id) :
    (k.afterRetirement id).gateOpen = true := by
  unfold Launch.afterRetirement at hk hp ⊢
  split
  · rename_i he
    rw [if_pos he] at hk
    exact absurd he hk
  · rename_i hne
    rw [if_neg hne] at hp
    split
    · rfl
    · rename_i hq
      rw [if_neg hq] at hp
      exact absurd hp hq

/-! ### Restart (R249/11) -/

theorem modLaunch_ids (s : State) (k : Nat) (f : Launch → Launch) (hf : ∀ l, (f l).id = l.id) :
    (s.modLaunch k f).launches.map Launch.id = s.launches.map Launch.id := by
  unfold State.modLaunch
  rw [List.map_map]
  refine List.map_congr_left fun l _ => ?_
  by_cases e : l.id = k
  · simp [e, hf]
  · simp [e]

theorem endSheaf_ids (s : State) (k : Nat) : (s.endSheaf k).launches.map Launch.id = s.launches.map Launch.id := by
  unfold State.endSheaf
  split
  · rfl
  · split
    · rfl
    · simp only
      rw [modLaunch_ids _ _ (fun l => { l with liveParts := l.liveParts - 1 }) fun _ => rfl]
      exact foldl_keep (fun (s : State) t => s.modTeam t fun t => t.settle _) (fun s : State => s.launches.map Launch.id) (fun _ _ => rfl) _ _

/-- A launch that is cleared stays a launch, as every other. -/
theorem clearLaunch_ids (s : State) (l : Launch) : (s.clearLaunch l).launches.map Launch.id = s.launches.map Launch.id := by
  have dropped : ((s.dropChildren l.id).freeDropped l).launches.map Launch.id = s.launches.map Launch.id := by
    unfold State.freeDropped
    rw [modLaunch_ids _ _ (fun k => { k with dropped := [] }) fun _ => rfl]
    exact modLaunch_ids s l.id (fun k => { k with dropped := k.dropped ++ _ }) fun _ => rfl
  rw [← dropped]
  exact foldl_keep (fun (s : State) i => s.endSheaf i) (fun s : State => s.launches.map Launch.id) endSheaf_ids _ _

theorem clearLaunch_sheaves {k : Sheaf} (hk : k ∈ (s.clearLaunch l).sheaves) : k.launch ≠ l.id := by
  obtain ⟨-, h⟩ := List.mem_filter.mp (hk : k ∈ List.filter (fun h : Sheaf => !(h.launch == l.id)) _)
  simpa using h

theorem clearLaunch_teams {x : Team} (hx : x ∈ (s.clearLaunch l).teams) : x.launch ≠ l.id := by
  obtain ⟨-, h⟩ := List.mem_filter.mp (hx : x ∈ List.filter (fun t : Team => !(t.launch == l.id)) _)
  simpa using h

theorem clearLaunch_jobs {j : Job} (hj : j ∈ (s.clearLaunch l).jobs) : j.launch ≠ some l.id := by
  obtain ⟨-, h⟩ := List.mem_filter.mp (hj : j ∈ List.filter (fun j : Job => !(j.launch == some l.id)) _)
  simpa using h

/-- A launch that is to be dispatched again, from the start. -/
def Launch.restarted (k : Launch) : Launch :=
  { k with state := 0, restarts := 1, residentOnce := [], started := 0, releases := 0, coresUsed := [], cards := []
           jobError := none, grantWait := 0, liveParts := 0, ended := none }

/-- A launch whose restart is not made. -/
def Launch.replayFailed (k : Launch) : Launch := { k with restarts := 2 }

theorem owesRestart_of {l : Launch} (hs : l.state = 1) (hi : l.idempotent = true) (hf : s.ranFenced l = true) (hr : l.restarts < 2) :
    s.owesRestart l = true := by
  simp [State.owesRestart, hs, hi, hf, hr]

section
variable {id : Nat} (hl : s.launch? id = some l) (ho : s.owesRestart l = true)
include hl ho

theorem exec_launchRestart_again (hr : l.restarts = 0) (hp : l.spoiled = false) (hc : l.closed = false) :
    exec (.launchRestart id) s = .next ((s.clearLaunch l).modLaunch id Launch.restarted) := by
  show execLaunchRestart id s = _
  simp only [execLaunchRestart, hl, ho, hr, hp, hc, Bool.false_eq_true, not_false_eq_true, and_self, if_true]
  rfl

theorem exec_launchRestart_fails (hr : l.restarts = 1) :
    exec (.launchRestart id) s = .next ((s.report l.ctx errReplay 0 l.descAddr.toNat []).modLaunch id Launch.replayFailed) := by
  show execLaunchRestart id s = _
  simp only [execLaunchRestart, hl, ho, hr, one_ne_zero, false_and, if_true, if_false]
  rfl

end

/-- Settles O48: each event by the lemmas that say what it makes of the launches, the sheaves and the teams. -/
theorem launchLife : Obligations.LaunchLife := by
  unfold Obligations.LaunchLife
  intro s
  refine ⟨exec_launchDispatch_none, fun l d hn hd => ⟨?passes, ?rejects⟩, ?resident, ?carve, fun _ _ => exec_carveOutChange_held,
    fun id l hl => ⟨exec_launchRetirement_waits hl, ?retires⟩, fun id l hl hs hi hf => ⟨?again, ?fails⟩⟩
  case passes =>
    intro hb
    obtain ⟨hlaunches, hsheaves, hmem, hteams⟩ :=
      addTeams_spec ((s.readRegions l.ctx).modLaunch l.id fun _ => s.dispatched l d) (s.dispatched l d) (s.dispatchChecks l d).teams
    refine ⟨_, s.dispatched l d, exec_launchDispatch_passes hn hd hb, ?_, rfl, rfl, rfl, rfl, rfl, rfl, hsheaves, hteams, hmem⟩
    rw [launch?_congr hlaunches]
    have hlisted : l ∈ (s.readRegions l.ctx).launches := nextLaunch_mem (s := s) hn
    exact launch?_modLaunch_const (s := s.readRegions l.ctx) hlisted _ rfl
  case rejects =>
    intro hb
    have hwork := writeRecord_work (s.modLaunch l.id fun _ => { l.withDesc d with dispatched := s.now, state := 2 })
      { l.withDesc d with dispatched := s.now } 1 (leastReason (s.dispatchChecks l d).bad) 0 0
    refine ⟨_, { l.withDesc d with dispatched := s.now, state := 2 }, exec_launchDispatch_rejects hn hd hb, ?_, rfl,
      (congrArg (fun w => w.2.1) hwork :), (congrArg (fun w => w.2.2.1) hwork :)⟩
    exact (launch?_congr (congrArg Prod.fst hwork) l.id).trans (launch?_modLaunch_const (nextLaunch_mem hn) _ rfl)
  case resident =>
    intro id l n core slot hl
    have hx : exec (.sheafMadeResident id n core slot) s = .next ((s.makeResident l n core slot).getD s) := by
      show execSheafMadeResident id n core slot s = _
      simp only [execSheafMadeResident, hl]
    refine ⟨fun hm => by rw [hx, hm, Option.getD_none], fun u hm => ⟨by rw [hx, hm, Option.getD_some], ?_⟩⟩
    obtain ⟨g, hg, e⟩ := makeResident_some hm
    refine ⟨g, hg, congrArg Sheaf.id e, congrArg Sheaf.launch e, congrArg Sheaf.number e, congrArg Sheaf.core e, congrArg Sheaf.slot e,
      congrArg Sheaf.place e, congrArg Sheaf.budget e, congrArg Sheaf.ctrl e, congrArg Sheaf.tl e, congrArg Sheaf.v e, congrArg Sheaf.p e,
      fun x hx => ?_, fun x hx => ?_, fun hn => ?_, fun hn x hx => ?_⟩
    · exact (congrArg (fun k : Sheaf => (k.lane x).pc) e :).trans (newSheaf_lane l _ n core slot _ _ x hx)
    · exact (congrArg (fun k : Sheaf => k.sget x) e :).trans (newSheaf_sget l _ n core slot _ _ x hx)
    · exact (congrArg Sheaf.exited e :).trans (if_neg hn)
    · exact (congrArg (fun k : Sheaf => k.exited.getLsbD x) e :).trans (newSheaf_exited_last hn _ core slot _ _ x hx)
  case carve =>
    intro core idx l hl hw hall hc he hn
    refine ⟨_, exec_carveOutChange hl hw hall hc he hn, ?_, ?_, fun x hx => ?_, l1Empty_modCore_butCores s core _⟩
    · rw [core_l1Empty, if_pos rfl]
      show ((State.l1Clear _ core).core core).carve = idx
      rw [l1Clear_carve, core_modCore, if_pos rfl]
    · rw [core_l1Empty, if_pos rfl]
    · rw [core_l1Empty, if_neg hx, core_modCore, if_neg hx]
  case retires =>
    intro ho
    obtain ⟨ks, hks⟩ := retireLaunch_launches s l
    have hid := launch?_id hl
    refine ⟨_, exec_launchRetirement_over hl ho, fun h hh => ?_, fun m hm he => ?_, fun m hm hp hne => ?_, retireLaunch_jobs s l⟩
    · rw [retireLaunch_sheaves] at hh
      simpa [hid] using (List.mem_filter.mp hh).2
    · rw [hks, hid] at hm
      obtain ⟨k, -, rfl⟩ := List.mem_map.mp hm
      exact afterRetirement_state he
    · rw [hks, hid] at hm
      obtain ⟨k, -, rfl⟩ := List.mem_map.mp hm
      exact afterRetirement_gateOpen hne hp
  case again =>
    intro hr hp hc
    have hid := launch?_id hl
    have hmem : id ∈ (s.clearLaunch l).launches.map Launch.id := by
      rw [clearLaunch_ids, ← hid]
      exact List.mem_map_of_mem (launch?_mem hl)
    obtain ⟨k, hk⟩ := launch?_of_id_mem hmem
    refine ⟨_, k.restarted, exec_launchRestart_again hl (owesRestart_of hs hi hf (by omega)) hr hp hc, ?_, rfl, rfl, rfl, rfl, ?_, ?_, ?_⟩
    · rw [launch?_modLaunch _ id Launch.restarted fun _ e => e, hk, Option.map_some]
    · exact fun h hh => hid ▸ clearLaunch_sheaves hh
    · exact fun x hx => hid ▸ clearLaunch_teams hx
    · exact fun j hj => hid ▸ clearLaunch_jobs hj
  case fails =>
    intro hr
    have hwork := report_work s l.ctx errReplay 0 l.descAddr.toNat []
    refine ⟨_, l.replayFailed, exec_launchRestart_fails hl (owesRestart_of hs hi hf (by omega)) hr, ?_, rfl, hs,
      (congrArg (fun w => w.2.1) hwork :)⟩
    rw [launch?_modLaunch _ id Launch.replayFailed fun _ e => e, launch?_congr (congrArg Prod.fst hwork), hl, Option.map_some]

end Sys2Proof.Machine
end

section
/-! SUPPORT. What reads of memory by a fork give does not depend on the counters of choices and of numbers (R154/07, R332/16). Settles O38. -/

namespace Sys2Proof.Machine

variable {s t u : State}

/-- Other counts of the choices made and of the numbers given. -/
def State.withCounters (s : State) (a b : Nat) : State := { s with choices := a, nextId := b }

theorem walkBoth_withCounters (s : State) (a b ctx va : Nat) : (s.withCounters a b).walkBoth ctx va = s.walkBoth ctx va := rfl

theorem translate_withCounters (s : State) (a b core ctx va : Nat) :
    (s.withCounters a b).translate core ctx va = ((s.translate core ctx va).1, (s.translate core ctx va).2.withCounters a b) := by
  have hcore : (s.withCounters a b).core core = s.core core := rfl
  have hfield : (s.withCounters a b).field (fieldOfCore core) = s.field (fieldOfCore core) := rfl
  have hremoved : (s.withCounters a b).removed = s.removed := rfl
  unfold State.translate
  rw [walkBoth_withCounters, hcore, hfield, hremoved]
  cases tlbFind (s.core core).tlb ctx va with
  | some t => rfl
  | none =>
    simp only
    cases tlbFind (s.field (fieldOfCore core)).tlb ctx va with
    | some t => rfl
    | none =>
      simp only
      cases s.walkBoth ctx va with
      | error c => rfl
      | ok t =>
        simp only
        cases s.removed.any t.removedBy <;> rfl

theorem ownWindow_withCounters (s : State) (a b core ctx : Nat) (k : AccKind) (off : Nat) :
    (s.withCounters a b).ownWindow core ctx k off =
      ((s.ownWindow core ctx k off).1, (s.ownWindow core ctx k off).2.withCounters a b) := by
  have hctx : (s.withCounters a b).ctx ctx = s.ctx ctx := rfl
  unfold State.ownWindow
  simp only [hctx, translate_withCounters]
  by_cases hsize : (s.ctx ctx).exportSize ≤ off
  · rw [if_pos hsize, if_pos hsize]
  · rw [if_neg hsize, if_neg hsize]
    generalize s.translate core ctx (((s.ctx ctx).exportBase.toNat + off) % 2 ^ 56) = r
    obtain ⟨r, u⟩ := r
    cases r with
    | error c => cases c <;> rfl
    | ok t =>
      simp only
      split
      · rfl
      · split <;> rfl

theorem xlateHere_withCounters (s : State) (a b core ctx : Nat) (k : AccKind) (va : Nat) :
    (s.withCounters a b).xlateHere core ctx k va =
      ((s.xlateHere core ctx k va).1, (s.xlateHere core ctx k va).2.withCounters a b) := by
  have hpeer : ∀ (u : State) (m : Nat), (u.withCounters a b).peerEntry ctx m = u.peerEntry ctx m := fun _ _ => rfl
  have hdevice : ∀ u : State, (u.withCounters a b).device = u.device := fun _ => rfl
  unfold State.xlateHere
  rw [translate_withCounters]
  generalize s.translate core ctx va = r
  obtain ⟨r, u⟩ := r
  cases r with
  | error c => rfl
  | ok t =>
    simp only [hpeer, hdevice, ownWindow_withCounters]
    split
    · rfl
    · split
      · rfl
      · split
        · rfl
        · split
          · rfl
          · split <;> rfl

/-- The place of a byte does not depend on the counters. -/
theorem xlate_withCounters (s : State) (a b core ctx : Nat) (k : AccKind) (va : Nat) :
    ((s.withCounters a b).xlate core ctx k va).1 = (s.xlate core ctx k va).1 := by
  have hanswer : ∀ hpa, (s.withCounters a b).peerAnswer k hpa = s.peerAnswer k hpa := fun _ => rfl
  unfold State.xlate
  simp only [xlateHere_withCounters, hanswer]
  generalize s.xlateHere core ctx k va = r
  obtain ⟨r, u⟩ := r
  cases r with
  | error c => rfl
  | ok hpa =>
    simp only
    split <;> rfl

theorem guestAt_withCounters (s : State) (a b ctx va : Nat) (k : AccKind) : (s.withCounters a b).guestAt ctx va k = s.guestAt ctx va k := by
  have huncorr : ∀ hpa, (s.withCounters a b).uncorrAt hpa = s.uncorrAt hpa := fun _ => rfl
  unfold State.guestAt
  simp only [xlate_withCounters, huncorr]

theorem homeRead_withCounters (s : State) (a b hpa n : Nat) (sys : Bool) :
    ((s.withCounters a b).homeRead hpa n sys).1 = (s.homeRead hpa n sys).1 := by
  have hcopy : (s.withCounters a b).peerCopy (lineOf hpa) = s.peerCopy (lineOf hpa) := rfl
  unfold State.homeRead
  rw [hcopy]
  split
  · rfl
  · split <;> rfl

theorem homeRead_ctx (s : State) (hpa n : Nat) (sys : Bool) (c : Nat) : (s.homeRead hpa n sys).2.ctx c = s.ctx c := by
  unfold State.ctx
  rw [show (s.homeRead hpa n sys).2.ctxs = s.ctxs from (congrArg State.ctxs (onlyCaches_homeRead s hpa n sys).1 :)]

theorem glRead_withCounters (s : State) (a b ctx rev va hpa n : Nat) (sys : Bool) :
    ((s.withCounters a b).glRead ctx rev va hpa n sys).1 = (s.glRead ctx rev va hpa n sys).1 := by
  have hctx : (s.withCounters a b).ctx ctx = s.ctx ctx := rfl
  unfold State.glRead
  rw [hctx]
  split
  · exact homeRead_withCounters s a b hpa n sys
  · simp only [homeRead_withCounters, homeRead_ctx, hctx]

theorem guestRead_withCounters (s : State) (a b ctx fuel va n : Nat) :
    (s.withCounters a b).guestRead ctx va fuel n = s.guestRead ctx va fuel n := by
  induction fuel generalizing va n with
  | zero => rfl
  | succ fuel ih =>
    unfold State.guestRead
    simp only [guestAt_withCounters, glRead_withCounters, ih]

/-- A carry table entry does not depend on the counters. -/
theorem carryEntry_withCounters (s : State) (a b : Nat) (l : Launch) (c : Nat) : (s.withCounters a b).carryEntry l c = s.carryEntry l c := by
  unfold State.carryEntry State.guestBytes
  rw [guestRead_withCounters]

end Sys2Proof.Machine
end

section
/-! SUPPORT. `fork` (R55, R56/02, R331, R332/16): the free revision, the child, the registers that an inline child's parent takes along.
Settles O38. -/

namespace Sys2Proof.Machine

variable {s t u : State} {i : Issue} {h g : Sheaf} {d a c : Nat}

/-! ### The free revision (R332/16) -/

theorem freeRev_some {used : List Nat} {n k r : Nat} (hr : freeRev used n k = some r) : 1 ≤ r ∧ r ≤ 65535 ∧ r ∉ used := by
  induction n generalizing k with
  | zero => exact absurd hr (by simp [freeRev])
  | succ n ih =>
    unfold freeRev at hr
    by_cases hu : used.contains (k % 65535 + 1) = true
    · rw [if_pos hu] at hr
      exact ih hr
    · rw [if_neg hu, Option.some.injEq] at hr
      subst hr
      exact ⟨by omega, by omega, by simpa using hu⟩

theorem freeRev_none {used : List Nat} {n k j : Nat} (hr : freeRev used n k = none) (hj : j < n) : (k + j) % 65535 + 1 ∈ used := by
  induction n generalizing k j with
  | zero => omega
  | succ n ih =>
    unfold freeRev at hr
    by_cases hu : used.contains (k % 65535 + 1) = true
    · rw [if_pos hu] at hr
      cases j with
      | zero => simpa using hu
      | succ j =>
        rw [show k + (j + 1) = k + 1 + j by omega]
        exact ih hr (by omega)
    · rw [if_neg hu] at hr
      cases hr

/-- The revision that a fork of a sheaf takes: none where it is to be refused. -/
def State.forkRev (s : State) (h : Sheaf) : Option Nat :=
  if (s.ctx h.ctx).depth h.rev = 15 ∨ (s.ctx h.ctx).overQuota then none else freeRev (s.pick 65535).2.revsUsed 65535 (s.pick 65535).1

/-- R332/16: a fork is refused at depth 15, at the quota, or with no revision id free. -/
def State.forkFull (s : State) (h : Sheaf) : Prop :=
  (s.ctx h.ctx).depth h.rev = 15 ∨ (s.ctx h.ctx).overQuota = true ∨ ∀ r, 1 ≤ r → r ≤ 65535 → r ∈ s.revsUsed

theorem forkRev_of_full (hf : s.forkFull h) : s.forkRev h = none := by
  unfold State.forkRev
  rcases hf with hdepth | hquota | hall
  · exact if_pos (.inl hdepth)
  · exact if_pos (.inr hquota)
  · split
    · rfl
    · refine Option.eq_none_iff_forall_ne_some.mpr fun r hr => ?_
      obtain ⟨hlow, hhigh, hfree⟩ := freeRev_some hr
      exact hfree (hall r hlow hhigh)

theorem forkRev_of_not_full (hf : ¬ s.forkFull h) : ∃ rev, s.forkRev h = some rev ∧ 1 ≤ rev ∧ rev ≤ 65535 ∧ rev ∉ s.revsUsed := by
  have hopen : ¬ ((s.ctx h.ctx).depth h.rev = 15 ∨ (s.ctx h.ctx).overQuota = true) := fun he =>
    hf (he.elim .inl fun hq => .inr (.inl hq))
  unfold State.forkRev
  rw [if_neg hopen]
  cases hr : freeRev (s.pick 65535).2.revsUsed 65535 (s.pick 65535).1 with
  | some rev => exact ⟨rev, rfl, freeRev_some hr⟩
  | none =>
    refine absurd (.inr (.inr fun r hlow hhigh => ?_)) hf
    generalize (s.pick 65535).1 = k at hr
    have hj := freeRev_none hr (j := (r - 1 + (65535 - k % 65535)) % 65535) (Nat.mod_lt _ (by omega))
    rw [show (k + (r - 1 + (65535 - k % 65535)) % 65535) % 65535 + 1 = r by omega] at hj
    exact hj

/-! ### What `fork` does, by case -/

theorem drain?_of_nothing (hi : s.Issuing i h) (hp : h.pend = []) : s.drain? = none := by
  unfold State.drain?
  rw [me_of hi, hp]
  rfl

section
variable (hi : s.Issuing i h) (hp : h.pend = [])
include hi hp

theorem exec_fork_waits (hw : s.orderWait? true true = some t) : exec (.fork d a c) s = .next t := by
  show execFork d a c s = _
  simp only [execFork, drain?_of_nothing hi hp, hw]

variable (hw : s.orderWait? true true = none)
include hw

theorem exec_fork_handler (hl : h.tl ≠ 0) : exec (.fork d a c) s = .next (s.trapAll .illop 0 0) := by
  show execFork d a c s = _
  simp only [execFork, drain?_of_nothing hi hp, hw, hi.1, me_of hi, if_pos hl]

variable (hl : h.tl = 0)
include hl

theorem exec_fork_align (hx : (s.readS h (lowestLane i.lanes) a).toNat % 4 ≠ 0) :
    exec (.fork d a c) s = .next (s.trapAll .align 0 (s.readS h (lowestLane i.lanes) a)) := by
  show execFork d a c s = _
  simp only [execFork, drain?_of_nothing hi hp, hw, hi.1, me_of hi, src_of hi, hl, ne_eq, not_true_eq_false, if_false, if_pos hx]

variable (hx : (s.readS h (lowestLane i.lanes) a).toNat % 4 = 0)
include hx

theorem exec_fork_high (hy : 2 ^ 56 ≤ (s.readS h (lowestLane i.lanes) a).toNat) :
    exec (.fork d a c) s = .next (s.trapAll .space 0 (s.readS h (lowestLane i.lanes) a)) := by
  show execFork d a c s = _
  simp only [execFork, drain?_of_nothing hi hp, hw, hi.1, me_of hi, src_of hi, hl, hx, ne_eq, not_true_eq_false, if_false, if_pos hy]

variable (hy : (s.readS h (lowestLane i.lanes) a).toNat < 2 ^ 56)
include hy

theorem exec_fork_noCarry (hc : (s.launchOf h).carry.length ≤ c) : exec (.fork d a c) s = .next (s.trapAll .space 0 0) := by
  show execFork d a c s = _
  simp only [execFork, drain?_of_nothing hi hp, hw, hi.1, me_of hi, src_of hi, hl, hx, ne_eq, not_true_eq_false, if_false,
    if_neg (Nat.not_le.mpr hy), if_pos hc]

variable (hc : c < (s.launchOf h).carry.length)
include hc

theorem exec_fork_refused (hr : s.forkRev h = none) : exec (.fork d a c) s =
    .next (((((s.pick 65535).2.swrite d (forkHandle h.forkSeq 2 0)).modMe fun p => { p with forkSeq := p.forkSeq + 1 }).countFork h.core).retire) := by
  unfold State.forkRev at hr
  show execFork d a c s = _
  simp only [execFork, drain?_of_nothing hi hp, hw, hi.1, me_of hi, src_of hi, hl, hx, ne_eq, not_true_eq_false, if_false,
    if_neg (Nat.not_le.mpr hy), if_neg (Nat.not_le.mpr hc)]
  simp only [hr]

theorem exec_fork_queued {rev : Nat} (hr : s.forkRev h = some rev) (hq : (s.core h.core).dequeFull = false) :
    exec (.fork d a c) s = .next ((s.pick 65535).2.forkChild h i d c rev (s.readS h (lowestLane i.lanes) a)) := by
  unfold State.forkRev at hr
  have hq' : ((s.pick 65535).2.core h.core).dequeFull = false := hq
  show execFork d a c s = _
  simp only [execFork, drain?_of_nothing hi hp, hw, hi.1, me_of hi, src_of hi, hl, hx, ne_eq, not_true_eq_false, if_false,
    if_neg (Nat.not_le.mpr hy), if_neg (Nat.not_le.mpr hc)]
  simp only [hr, hq', Bool.false_eq_true, if_false]

variable {rev : Nat} (hr : s.forkRev h = some rev) (hq : (s.core h.core).dequeFull = true)
include hr hq

theorem exec_fork_regback {b : Dword} (hb : ((s.pick 65535).2.drawCold i.sheaf ((s.pick 65535).2.coldOf h)).1 = some b) :
    exec (.fork d a c) s = .next (((s.pick 65535).2.drawCold i.sheaf ((s.pick 65535).2.coldOf h)).2.trapAll .regback 0 b) := by
  unfold State.forkRev at hr
  have hq' : ((s.pick 65535).2.core h.core).dequeFull = true := hq
  show execFork d a c s = _
  simp only [execFork, drain?_of_nothing hi hp, hw, hi.1, me_of hi, src_of hi, hl, hx, ne_eq, not_true_eq_false, if_false,
    if_neg (Nat.not_le.mpr hy), if_neg (Nat.not_le.mpr hc)]
  simp only [hr, hq', if_true, sheaf?_id hi.2]
  generalize (s.pick 65535).2.drawCold i.sheaf ((s.pick 65535).2.coldOf h) = q at hb
  obtain ⟨q, v⟩ := q
  obtain rfl : q = some b := hb
  rfl

theorem exec_fork_inline (hb : ((s.pick 65535).2.drawCold i.sheaf ((s.pick 65535).2.coldOf h)).1 = none) :
    exec (.fork d a c) s = .next (((s.pick 65535).2.drawCold i.sheaf ((s.pick 65535).2.coldOf h)).2.forkChild h i d c rev
      (s.readS h (lowestLane i.lanes) a)) := by
  unfold State.forkRev at hr
  have hq' : ((s.pick 65535).2.core h.core).dequeFull = true := hq
  show execFork d a c s = _
  simp only [execFork, drain?_of_nothing hi hp, hw, hi.1, me_of hi, src_of hi, hl, hx, ne_eq, not_true_eq_false, if_false,
    if_neg (Nat.not_le.mpr hy), if_neg (Nat.not_le.mpr hc)]
  simp only [hr, hq', if_true, sheaf?_id hi.2]
  generalize (s.pick 65535).2.drawCold i.sheaf ((s.pick 65535).2.coldOf h) = q at hb
  obtain ⟨q, v⟩ := q
  obtain rfl : q = none := hb
  rfl

end

/-! ### The refusal -/

theorem core_countFork (s : State) (core x : Nat) :
    (s.countFork core).core x = if x = core then { s.core core with forks := (s.core core).forks + 1 } else s.core x := core_modCore _ _ _ _

theorem issuing_countFork (hi : s.Issuing i h) (core : Nat) : (s.countFork core).Issuing i h := issuing_of_eq hi rfl rfl

theorem sameBut_countFork {k : Nat} (hs : SameBut k s t) (core : Nat) : SameBut k (s.countFork core) (t.countFork core) := by
  refine ⟨?_, hs.2⟩
  have h1 := congrArg (fun u : State => u.countFork core) hs.1
  exact h1

theorem refusal_completed (hi : s.Issuing i h) (d core : Nat) (x : Dword) :
    ∃ h', Completed i (s.countFork core) (((s.swrite d x).modMe fun p => { p with forkSeq := p.forkSeq + 1 }).countFork core).retire h h' ∧
      ({ h' with lanes := h.lanes, watchSkip := h.watchSkip } : Sheaf) = { h.sset d x with forkSeq := h.forkSeq + 1 } := by
  have hwritten : (s.swrite d x).Issuing i (h.sset d x) := issuing_modMe hi (fun p => p.sset d x) fun _ => rfl
  have hcounted := issuing_modMe hwritten (fun p => { p with forkSeq := p.forkSeq + 1 }) fun _ => rfl
  have hsame : SameBut i.sheaf s ((s.swrite d x).modMe fun p => { p with forkSeq := p.forkSeq + 1 }) :=
    sameBut_trans (sameBut_modMe hi (fun p => p.sset d x) fun _ => rfl)
      (sameBut_modMe hwritten (fun p => { p with forkSeq := p.forkSeq + 1 }) fun _ => rfl)
  exact retire_completed (issuing_countFork hcounted core) (sameBut_countFork hsame core) rfl rfl

/-! ### The child -/

/-- A parent that notes its child (R331/16). -/
def Sheaf.noted (h child p : Sheaf) : Sheaf :=
  { p with forkSeq := p.forkSeq + 1, children := p.children ++ [⟨h.forkSeq, child.rev, child.id, child.inlineChild⟩] }

/-- The region table that a fork reads while no revision lives (R154/07). -/
def State.forkRegions (s : State) (ctx : Nat) : State := if (s.ctx ctx).revs.isEmpty then s.readRegions ctx else s

/-- A child comes to be (R55, R56/02): its sheaf, its revision, its part of the launch, its parent's note of it. -/
def State.withChild (s : State) (h child : Sheaf) : State :=
  let s := s.forkRegions h.ctx
  let s := { s with sheaves := s.sheaves ++ [child] }
  let s := s.modCtx h.ctx fun c =>
    { c with revs := c.revs ++ [{ id := child.rev, parent := h.rev, depth := (s.ctx h.ctx).depth h.rev + 1 }] }
  let s := s.modLaunch h.launch fun l =>
    { l with liveParts := l.liveParts + 1, started := if child.inlineChild then l.started + 1 else l.started }
  s.modSheaf h.id (Sheaf.noted h child)

/-- The state with the number of a fork's child given. -/
def State.numbered (s : State) : State := { s with nextId := s.nextId + 1 }

/-- The child that a fork makes. -/
def State.newChild (s : State) (h : Sheaf) (i : Issue) (c rev : Nat) (entry : Dword) (inl : Bool) : Sheaf :=
  childOf h (s.launchOf h) (s.numbered.carryEntry (s.launchOf h) c) i s.nextId rev s.now c entry inl

/-- A child that has come to be enters its core's deque, its record the field's record area (R55/02). -/
def State.queuesChild (s : State) (h child : Sheaf) : State :=
  let t := s.withChild h child
  (t.putRecord (fieldOfCore h.core) child.id 64 (t.taskRecord child)).modCore h.core fun c => { c with deque := child.id :: c.deque }

theorem forkChild_queued {rev : Nat} {x : Dword} (hq : (s.core h.core).dequeFull = false) : s.forkChild h i d c rev x =
    (((s.numbered.queuesChild h (s.newChild h i c rev x false)).swrite d (forkHandle h.forkSeq 0 rev)).countFork h.core).retire := by
  have hq' : (({ s with nextId := s.nextId + 1 } : State).core h.core).dequeFull = false := hq
  simp only [State.forkChild, State.fresh, hq', Bool.false_eq_true, if_false]
  rfl

/-- The parent of a child that runs inline waits for it, in a task record (R56/02). -/
def State.runsInline (s : State) (h : Sheaf) (k : WaitKind) : State :=
  let t := (s.waitMe k).modRes h.core h.ctx fun r => { r with
    hot := r.hot.filter fun x => !(x.1 == h.id)
    cold := r.cold.filter fun x => !(x.1 == h.id) }
  (((t.putRecord (fieldOfCore h.core) h.id 64 (t.taskRecord t.me)).modSheaf h.id fun p => { p with place := .suspended }).l1Clear
    h.core).countFork h.core

theorem forkChild_inline {rev : Nat} {x : Dword} (hq : (s.core h.core).dequeFull = true) : s.forkChild h i d c rev x =
    (s.numbered.withChild h (s.newChild h i c rev x true)).runsInline h (.inline s.nextId d (forkHandle h.forkSeq 1 rev)) := by
  have hq' : (({ s with nextId := s.nextId + 1 } : State).core h.core).dequeFull = true := hq
  simp only [State.forkChild, State.fresh, hq', if_true]
  rfl

theorem forkRegions_frame (s : State) (n : Nat) : ({ s.forkRegions n with ctxs := s.ctxs } : State) = s := by
  unfold State.forkRegions
  split <;> rfl

theorem forkRegions_revs (s : State) (n : Nat) : ((s.forkRegions n).ctx n).revs = (s.ctx n).revs := by
  unfold State.forkRegions
  split
  · rw [State.readRegions, ctx_modCtx, if_pos rfl]
  · rfl

theorem withChild_frame (s : State) (h child : Sheaf) :
    ({ s.withChild h child with sheaves := s.sheaves, ctxs := s.ctxs, launches := s.launches } : State) = s := by
  have hr := congrArg (fun t : State => { t with launches := s.launches, sheaves := s.sheaves }) (forkRegions_frame s h.ctx)
  unfold State.withChild
  generalize s.forkRegions h.ctx = r at hr ⊢
  simp only [State.modSheaf, State.modLaunch, State.modCtx]
  exact hr

theorem withChild_sheaf? {n : Nat} (hs : s.sheaf? n = some g) (hn : h.id = n) (child : Sheaf) :
    (s.withChild h child).sheaf? n = some (h.noted child g) := by
  have hsheaves : (s.forkRegions h.ctx).sheaves = s.sheaves := (congrArg State.sheaves (forkRegions_frame s h.ctx) :)
  have hfound : ({ s with sheaves := (s.forkRegions h.ctx).sheaves ++ [child] } : State).sheaf? n = some g := by
    show ((s.forkRegions h.ctx).sheaves ++ [child]).find? _ = some g
    rw [hsheaves, List.find?_append, show s.sheaves.find? (fun k => k.id == n) = some g from hs]
    rfl
  have hmod := sheaf?_modSheaf { s with sheaves := (s.forkRegions h.ctx).sheaves ++ [child] } h.id n (Sheaf.noted h child) fun _ => rfl
  rw [if_pos hn.symm, hfound, Option.map_some] at hmod
  exact hmod

/-- A context's revisions are in use. -/
theorem revs_used {n : Nat} {v : Rev} (hv : v ∈ (s.ctx n).revs) : v.id ∈ s.revsUsed := by
  unfold State.ctx at hv
  unfold State.revsUsed
  generalize s.ctxs = cs at hv
  induction cs with
  | nil => exact absurd hv (List.not_mem_nil)
  | cons x cs ih =>
    obtain ⟨k, x⟩ := x
    rw [List.flatMap_cons, List.mem_append]
    unfold cget at hv
    split at hv
    · exact .inl (List.mem_map_of_mem hv)
    · exact .inr (ih hv)

/-- The revision of a child (R55, R332/16). -/
def State.childRev (s : State) (h child : Sheaf) : Rev := { id := child.rev, parent := h.rev, depth := (s.ctx h.ctx).depth h.rev + 1 }

theorem withChild_revs (s : State) (h child : Sheaf) :
    ((s.withChild h child).ctx h.ctx).revs = (s.ctx h.ctx).revs ++ [s.childRev h child] := by
  have hdepth : ((s.forkRegions h.ctx).ctx h.ctx).depth h.rev = (s.ctx h.ctx).depth h.rev := by
    unfold Context.depth Context.rev?
    rw [forkRegions_revs]
  have hctxs : (s.withChild h child).ctxs = ((s.forkRegions h.ctx).modCtx h.ctx fun c =>
      { c with revs := c.revs ++ [(s.forkRegions h.ctx).childRev h child] }).ctxs := by
    unfold State.withChild
    simp only [State.modSheaf_ctxs, State.modLaunch_ctxs]
    rfl
  unfold State.ctx
  rw [hctxs]
  show (((s.forkRegions h.ctx).modCtx h.ctx fun c => { c with revs := c.revs ++ [(s.forkRegions h.ctx).childRev h child] }).ctx h.ctx).revs = _
  rw [ctx_modCtx, if_pos rfl, forkRegions_revs, State.childRev, hdepth]
  rfl

theorem withChild_rev? {child : Sheaf} (hr : child.rev ∉ s.revsUsed) :
    ((s.withChild h child).ctx h.ctx).rev? child.rev = some (s.childRev h child) := by
  have hnone : (s.ctx h.ctx).revs.find? (fun v => v.id == child.rev) = none :=
    List.find?_eq_none.mpr fun v hv he => hr (by simpa using (beq_iff_eq.mp he) ▸ revs_used hv)
  unfold Context.rev?
  rw [withChild_revs, List.find?_append, hnone, Option.none_or, List.find?_cons_of_pos (by simp [State.childRev])]

/-- A sheaf but for what its own fork may change of it, where it is the one that forks. -/
def Sheaf.butFork (k : Nat) (h : Sheaf) : Sheaf :=
  { h with lanes := if h.id = k then [] else h.lanes, s := if h.id = k then [] else h.s, forkSeq := 0, children := [], watchSkip := 0, waits := [] }

theorem butFork_self {k : Nat} (hk : h.id = k) :
    h.butFork k = { h with lanes := [], s := [], forkSeq := 0, children := [], watchSkip := 0, waits := [] } := by
  unfold Sheaf.butFork
  rw [if_pos hk, if_pos hk]

/-- A child that comes to be is among the sheaves. -/
theorem withChild_mem (s : State) (h child : Sheaf) :
    child.butFork h.id ∈ (s.withChild h child).sheaves.map (Sheaf.butFork h.id) := by
  have hmod := map_sheaves_modSheaf { s with sheaves := (s.forkRegions h.ctx).sheaves ++ [child] } h.id (Sheaf.noted h child)
    (Sheaf.butFork h.id) fun _ _ => rfl
  have hsheaves : (s.withChild h child).sheaves =
      (({ s with sheaves := (s.forkRegions h.ctx).sheaves ++ [child] } : State).modSheaf h.id (Sheaf.noted h child)).sheaves := rfl
  rw [hsheaves, hmod]
  exact List.mem_map_of_mem (List.mem_append_right _ List.mem_cons_self)

/-! ### A queued child (R55/02) -/

theorem swrite_sheaves (hi : s.Issuing i h) (d : Nat) (x : Dword) :
    (s.swrite d x).sheaves.map (Sheaf.butFork i.sheaf) = s.sheaves.map (Sheaf.butFork i.sheaf) := by
  unfold State.swrite
  rw [modMe_of hi]
  refine map_sheaves_modSheaf s i.sheaf _ _ fun k hk => ?_
  rw [butFork_self hk, butFork_self (h := k.sset d x) hk]
  rfl

theorem retire_sheaves (hi : s.Issuing i h) : s.retire.sheaves.map (Sheaf.butFork i.sheaf) = s.sheaves.map (Sheaf.butFork i.sheaf) := by
  unfold State.retire
  rw [modMe_of hi]
  refine map_sheaves_modSheaf s i.sheaf _ _ fun k hk => ?_
  have hpass := foldl_modLane_frame (fun _ ln => ln.pass s.issuePc s.solo) (lanesOf s.active) k []
  have hid : (k.pass (lanesOf s.active) s.issuePc s.solo).id = i.sheaf := (congrArg Sheaf.id hpass :).trans hk
  have hrest := congrArg (fun a : Sheaf => { a with s := [], forkSeq := 0, children := [], watchSkip := 0, waits := [] }) hpass
  exact (butFork_self hid).trans (hrest.trans (butFork_self hk).symm)

theorem swrite_completed (hi : s.Issuing i h) (d core : Nat) (x : Dword) : ∃ h',
    Completed i (s.countFork core) ((s.swrite d x).countFork core).retire h h' ∧
      ({ h' with lanes := h.lanes, watchSkip := h.watchSkip } : Sheaf) = h.sset d x := by
  have hwritten : (s.swrite d x).Issuing i (h.sset d x) := issuing_modMe hi (fun p => p.sset d x) fun _ => rfl
  have hsame : SameBut i.sheaf s (s.swrite d x) := sameBut_modMe hi (fun p => p.sset d x) fun _ => rfl
  exact retire_completed (issuing_countFork hwritten core) (sameBut_countFork hsame core) rfl rfl

theorem withChild_cur (s : State) (h child : Sheaf) : (s.withChild h child).cur = s.cur :=
  (congrArg State.cur (withChild_frame s h child) :)

theorem withChild_core (s : State) (h child : Sheaf) (x : Nat) : (s.withChild h child).core x = s.core x :=
  (congrArg (fun t : State => t.core x) (withChild_frame s h child) :)

theorem withChild_issuing (hi : s.Issuing i g) (hn : h.id = i.sheaf) (child : Sheaf) :
    (s.withChild h child).Issuing i (h.noted child g) :=
  ⟨(withChild_cur s h child).trans hi.1, withChild_sheaf? hi.2 hn child⟩

theorem queuesChild_sheaves (s : State) (h child : Sheaf) : (s.queuesChild h child).sheaves = (s.withChild h child).sheaves := by
  simp [State.queuesChild, State.putRecord]

theorem queuesChild_issuing (hi : s.Issuing i g) (hn : h.id = i.sheaf) (child : Sheaf) :
    (s.queuesChild h child).Issuing i (h.noted child g) :=
  issuing_of_eq (withChild_issuing hi hn child) (by simp [State.queuesChild, State.putRecord]) (queuesChild_sheaves s h child)

theorem queuesChild_core (s : State) (h child : Sheaf) (x : Nat) : (s.queuesChild h child).core x =
    if x = h.core then { s.core h.core with deque := child.id :: (s.core h.core).deque } else s.core x := by
  have hput : ∀ y m, ((s.withChild h child).putRecord (fieldOfCore h.core) child.id 64 m).core y = s.core y := by
    intro y m
    rw [← withChild_core s h child]
    simp [State.core, State.putRecord]
  unfold State.queuesChild
  simp only
  rw [core_modCore, hput, hput]

theorem putRecord_mem (s : State) (f n pages : Nat) (m : Memory) : ∃ r ∈ ((s.putRecord f n pages m).field f).records, r.sheaf = n := by
  unfold State.putRecord
  rw [field_modField, if_pos rfl]
  exact ⟨_, List.mem_append_right _ List.mem_cons_self, rfl⟩

theorem queuesChild_record (s : State) (h child : Sheaf) :
    ∃ r ∈ ((s.queuesChild h child).field (fieldOfCore h.core)).records, r.sheaf = child.id := by
  unfold State.queuesChild State.field
  rw [State.modCore_fields]
  exact putRecord_mem _ _ _ _ _

/-- A fork that queues its child completes: what its parent becomes, and what the machine is outside the sheaves. -/
theorem forkChild_queued_completed {rev : Nat} {x : Dword} (hi : s.Issuing i h) (hq : (s.core h.core).dequeFull = false) : ∃ h',
    Completed i ((s.numbered.queuesChild h (s.newChild h i c rev x false)).countFork h.core) (s.forkChild h i d c rev x)
        (h.noted (s.newChild h i c rev x false) h) h' ∧
      ({ h' with lanes := h.lanes, watchSkip := h.watchSkip } : Sheaf) =
        (h.noted (s.newChild h i c rev x false) h).sset d (forkHandle h.forkSeq 0 rev) := by
  rw [forkChild_queued hq]
  generalize s.newChild h i c rev x false = child
  have hn : s.numbered.Issuing i h := issuing_of_eq hi rfl rfl
  exact swrite_completed (queuesChild_issuing hn (sheaf?_id hi.2) child) d h.core _

theorem queuesChild_retire_mem (hi : s.Issuing i h) (hid : h.id = i.sheaf) (child : Sheaf) (x : Dword) (core : Nat) :
    child.butFork i.sheaf ∈ (((s.queuesChild h child).swrite d x).countFork core).retire.sheaves.map (Sheaf.butFork i.sheaf) := by
  have hqueued := queuesChild_issuing hi hid child
  have hwritten : ((s.queuesChild h child).swrite d x).Issuing i _ := issuing_modMe hqueued (fun p => p.sset d x) fun _ => rfl
  have hmem := withChild_mem s h child
  rw [hid, ← queuesChild_sheaves, ← swrite_sheaves hqueued d x] at hmem
  rw [retire_sheaves (issuing_countFork hwritten core), State.countFork, State.modCore_sheaves]
  exact hmem

/-- The child that a fork has queued is among the sheaves. -/
theorem forkChild_queued_mem {rev : Nat} {x : Dword} (hi : s.Issuing i h) (hq : (s.core h.core).dequeFull = false) :
    ∃ k ∈ (s.forkChild h i d c rev x).sheaves, k.butFork i.sheaf = (s.newChild h i c rev x false).butFork i.sheaf := by
  have hn : s.numbered.Issuing i h := issuing_of_eq hi rfl rfl
  rw [forkChild_queued hq]
  exact List.mem_map.mp (queuesChild_retire_mem hn (sheaf?_id hi.2) _ _ _)

/-! ### The registers of an inline child's parent (R56/02, R111, R112/04) -/

theorem setRegBytes_frame (h : Sheaf) (r : Nat) (bs : List Byte) (V : Cells Word) :
    ({ h.setRegBytes r bs with v := V } : Sheaf) = { h with v := V } :=
  foldl_keep (fun (h : Sheaf) l => h.setVirt l r (BitVec.ofNat 32 (fieldOf bs (4 * l) 4))) (fun h : Sheaf => { h with v := V }) (fun _ _ => rfl) _ h

theorem setRegBytes_id (h : Sheaf) (r : Nat) (bs : List Byte) : (h.setRegBytes r bs).id = h.id :=
  (congrArg Sheaf.id (setRegBytes_frame h r bs []) :)

theorem virt_setRegBytes_other (h : Sheaf) {r q l : Nat} (bs : List Byte) (hl : l < 64) (hq : q ≠ r) :
    (h.setRegBytes r bs).virt l q = h.virt l q := by
  unfold Sheaf.setRegBytes
  rw [virt_foldl (fun h l => h.setVirt l r (BitVec.ofNat 32 (fieldOf bs (4 * l) 4)))
    (fun l q w => if q = r then BitVec.ofNat 32 (fieldOf bs (4 * l) 4) else w) h.wb (fun _ _ => rfl)
    (fun g x _ hx l q hl => ?_) _ (fun x hx => List.mem_range.mp hx) List.nodup_range h rfl l q hl]
  · simp [hq]
  · rw [virt_setVirt _ _ _ _ _ _ hx hl]
    by_cases e : l = x
    · simp [e]
    · simp [e]

/-- The answer of a read of memory, and the state after it, as a sheaf's register takes them. -/
def State.takeRegister (q : List Byte × State) (k r : Nat) : State := q.2.modSheaf k fun g => g.setRegBytes r q.1

theorem openCold_cases (s : State) (k r : Nat) : s.openCold k r = s ∨
    ∃ core hpa, s.openCold k r = State.takeRegister (s.backRead core hpa 256) k r := by
  unfold State.openCold
  split
  · exact .inl rfl
  · rename_i h _
    split
    · exact .inl rfl
    · rename_i hpa _
      refine .inr ⟨h.core, hpa, ?_⟩
      generalize s.backRead h.core hpa 256 = q
      rfl

/-- A register that is read from its slot: the sheaf differs in that register at most. -/
theorem openCold_sheaf? {k : Nat} (hs : s.sheaf? k = some h) (r : Nat) : ∃ g, (s.openCold k r).sheaf? k = some g ∧
    ({ g with v := h.v } : Sheaf) = h ∧ ∀ l q, l < 64 → q ≠ r → g.virt l q = h.virt l q := by
  rcases openCold_cases s k r with e | ⟨core, hpa, e⟩
  · rw [e]
    exact ⟨h, hs, rfl, fun _ _ _ _ => rfl⟩
  · rw [e]
    have hread := backRead_sheaves s core hpa 256
    generalize s.backRead core hpa 256 = q at hread ⊢
    have ht : q.2.sheaf? k = some h := by
      unfold State.sheaf?
      rw [hread]
      exact hs
    refine ⟨h.setRegBytes r q.1, ?_, setRegBytes_frame h r q.1 h.v, fun l _ hl hq => virt_setRegBytes_other h q.1 hl hq⟩
    rw [State.takeRegister, sheaf?_modSheaf q.2 k k (fun g => g.setRegBytes r q.1) fun g => setRegBytes_id g r q.1, if_pos rfl, ht,
      Option.map_some]

theorem foldl_openCold_sheaf? {k : Nat} (rs : List Nat) (hs : s.sheaf? k = some h) :
    ∃ g, (rs.foldl (fun (s : State) r => s.openCold k r) s).sheaf? k = some g ∧ ({ g with v := h.v } : Sheaf) = h ∧
      ∀ l q, l < 64 → q ∉ rs → g.virt l q = h.virt l q := by
  induction rs generalizing s h with
  | nil => exact ⟨h, hs, rfl, fun _ _ _ _ => rfl⟩
  | cons r rs ih =>
    obtain ⟨g, hg, hframe, hvirt⟩ := openCold_sheaf? hs r
    obtain ⟨g', hg', hframe', hvirt'⟩ := ih hg
    refine ⟨g', hg', ?_, fun l q hl hq => ?_⟩
    · exact (congrArg (fun x : Sheaf => { x with v := h.v }) hframe').trans hframe
    · rw [hvirt' l q hl fun hm => hq (List.mem_cons_of_mem _ hm), hvirt l q hl fun e => hq (e ▸ List.mem_cons_self)]

/-- The issue, the next number, and what decides the room of the deques (R55/02). -/
def State.forkRoom (s : State) : Option Issue × Nat × (Nat → List Nat × Nat × Nat) :=
  (s.cur, s.nextId, fun x => ((s.core x).deque, (s.core x).dequeStart, (s.core x).forks))

theorem onlyCaches_forkRoom (hc : OnlyCaches s t) : t.forkRoom = s.forkRoom := by
  obtain ⟨hrest, hcores, -⟩ := hc
  have hcur : t.cur = s.cur := (congrArg State.cur hrest :)
  have hnext : t.nextId = s.nextId := (congrArg State.nextId hrest :)
  have hroom : ∀ x, ((t.core x).deque, (t.core x).dequeStart, (t.core x).forks) = ((s.core x).deque, (s.core x).dequeStart, (s.core x).forks) :=
    fun x => (congrArg (fun k : Core => (k.deque, k.dequeStart, k.forks)) (hcores x) :)
  unfold State.forkRoom
  rw [hcur, hnext]
  exact congrArg (fun f => (s.cur, s.nextId, f)) (funext hroom)

theorem backRead_forkRoom (s : State) (core a n : Nat) : (s.backRead core a n).2.forkRoom = s.forkRoom := by
  unfold State.backRead
  generalize hq : List.foldl _ _ _ = q
  obtain ⟨bs, t⟩ := q
  have ht := congrArg (fun q : List Byte × State => q.2.forkRoom) hq
  exact ht.symm.trans (foldl_keep (fun q l => (q.1 ++ (q.2.backLine core l).1, (q.2.backLine core l).2)) (fun q : List Byte × State => q.2.forkRoom)
    (fun q l => onlyCaches_forkRoom (onlyCaches_backLine q.2 core l)) (linesOf a n) ([], s))

theorem modSheaf_forkRoom (s : State) (k : Nat) (f : Sheaf → Sheaf) : (s.modSheaf k f).forkRoom = s.forkRoom := rfl

theorem openCold_forkRoom (s : State) (k r : Nat) : (s.openCold k r).forkRoom = s.forkRoom := by
  rcases openCold_cases s k r with e | ⟨core, hpa, e⟩
  · rw [e]
  · rw [e, State.takeRegister, modSheaf_forkRoom, backRead_forkRoom]

/-- Registers that are drawn: the sheaf differs in them at most, and the room of the deques is what it was. -/
theorem drawCold_spec {k : Nat} {regs : List Nat} (hs : s.sheaf? k = some h) (hn : (s.drawCold k regs).1 = none) :
    (∃ g, (s.drawCold k regs).2.sheaf? k = some g ∧ ({ g with v := h.v } : Sheaf) = h ∧
      ∀ l r, l < 64 → r ∉ regs → g.virt l r = h.virt l r) ∧ (s.drawCold k regs).2.forkRoom = s.forkRoom := by
  unfold State.drawCold at hn ⊢
  simp only [hs] at hn ⊢
  split at hn
  · cases hn
  · obtain ⟨g, hg, hframe, hvirt⟩ := foldl_openCold_sheaf? (s.coldRegs h regs) hs
    exact ⟨⟨g, hg, hframe, fun l r hl hr => hvirt l r hl fun hm => hr (List.mem_filter.mp hm).1⟩,
      foldl_keep (fun (s : State) r => s.openCold k r) State.forkRoom (fun s r => openCold_forkRoom s k r) _ s⟩

/-! ### A child that runs inline (R56/02) -/

/-- A sheaf some of whose lanes begin to wait. -/
def Sheaf.waiting (p : Sheaf) (w : Wait) : Sheaf := { p with waits := p.waits ++ [w] }

/-- The wait of lanes whose child runs inline. -/
def State.inlineWait (s : State) (i : Issue) (p : Sheaf) (k : WaitKind) : Wait := ⟨i.lanes, i.pc, k, s.now, i.solo, p.wb, p.tl⟩

theorem modSheaf_sheaves_congr (ht : t.sheaves = s.sheaves) (k : Nat) (f : Sheaf → Sheaf) :
    (t.modSheaf k f).sheaves = (s.modSheaf k f).sheaves := by
  unfold State.modSheaf
  rw [ht]

theorem runsInline_sheaves (s : State) (h : Sheaf) (k : WaitKind) :
    (s.runsInline h k).sheaves = ((s.waitMe k).modSheaf h.id fun p => { p with place := .suspended }).sheaves := by
  unfold State.runsInline State.countFork State.l1Clear
  rw [State.modCore_sheaves, State.modCore_sheaves]
  exact modSheaf_sheaves_congr (by rw [State.putRecord, State.modField_sheaves, State.modRes_sheaves]) _ _

section
variable {p : Sheaf} {k : WaitKind} (hi : s.Issuing i p) (hid : h.id = i.sheaf)
include hi

theorem waitMe_of : s.waitMe k = s.modSheaf i.sheaf fun p => p.waiting (s.inlineWait i p k) := by
  unfold State.waitMe
  rw [active_of hi, issuePc_of hi, solo_of hi, modMe_of hi]
  rfl

include hid

theorem runsInline_sheaf? :
    (s.runsInline h k).sheaf? i.sheaf = some { p.waiting (s.inlineWait i p k) with place := .suspended } := by
  have hwait : (s.waitMe k).sheaf? i.sheaf = some (p.waiting (s.inlineWait i p k)) := by
    rw [waitMe_of hi, sheaf?_modSheaf s i.sheaf i.sheaf (fun p => p.waiting (s.inlineWait i p k)) fun _ => rfl, if_pos rfl, hi.2, Option.map_some]
  have hplace := sheaf?_modSheaf (s.waitMe k) h.id i.sheaf (fun p => { p with place := .suspended }) fun _ => rfl
  rw [if_pos hid.symm, hwait, Option.map_some] at hplace
  rw [← hplace]
  unfold State.sheaf?
  rw [runsInline_sheaves]

theorem runsInline_mem {child : Sheaf} (hc : child.butFork i.sheaf ∈ s.sheaves.map (Sheaf.butFork i.sheaf)) :
    ∃ x ∈ (s.runsInline h k).sheaves, x.id = child.id ∧ x.inlineChild = child.inlineChild ∧ x.rev = child.rev ∧ x.slot = child.slot ∧
      (child.id ≠ i.sheaf → x.place = child.place) := by
  have hwait : (s.waitMe k).sheaves.map (Sheaf.butFork i.sheaf) = s.sheaves.map (Sheaf.butFork i.sheaf) := by
    rw [waitMe_of hi]
    exact map_sheaves_modSheaf s i.sheaf _ _ fun _ _ => rfl
  rw [← hwait] at hc
  obtain ⟨y, hy, e⟩ := List.mem_map.mp hc
  have hyid : y.id = child.id := (congrArg Sheaf.id e :)
  have hyplace : y.place = child.place := (congrArg Sheaf.place e :)
  refine ⟨if y.id = h.id then { y with place := .suspended } else y, ?_, ?_⟩
  · rw [runsInline_sheaves]
    exact List.mem_map_of_mem hy
  by_cases he : y.id = h.id
  · rw [if_pos he]
    exact ⟨hyid, (congrArg Sheaf.inlineChild e :), (congrArg Sheaf.rev e :), (congrArg Sheaf.slot e :), fun hne =>
      absurd (hyid.symm.trans (he.trans hid)) hne⟩
  · rw [if_neg he]
    exact ⟨hyid, (congrArg Sheaf.inlineChild e :), (congrArg Sheaf.rev e :), (congrArg Sheaf.slot e :), fun _ => hyplace⟩

end

theorem runsInline_record (s : State) (h : Sheaf) (k : WaitKind) :
    ∃ r ∈ ((s.runsInline h k).field (fieldOfCore h.core)).records, r.sheaf = h.id := by
  unfold State.runsInline State.field State.countFork State.l1Clear
  rw [State.modCore_fields, State.modCore_fields, State.modSheaf_fields]
  exact putRecord_mem _ _ _ _ _

end Sys2Proof.Machine
end

section
/-! SUPPORT. What a fork that queues its child, and one whose child runs inline, make of the machine (R55, R56/02, R331, R332/16). Settles O38. -/

namespace Sys2Proof.Machine

variable {s t u : State} {i : Issue} {h g : Sheaf} {d a c : Nat}

/-! ### What stays outside the issuing sheaf -/

theorem sameBut_cores {k : Nat} (hs : SameBut k s t) : t.cores = s.cores := (congrArg State.cores hs.1 :)

theorem sameBut_fields {k : Nat} (hs : SameBut k s t) : t.fields = s.fields := (congrArg State.fields hs.1 :)

theorem sameBut_ctxs {k : Nat} (hs : SameBut k s t) : t.ctxs = s.ctxs := (congrArg State.ctxs hs.1 :)

theorem sameBut_mem {k : Nat} (hs : SameBut k s t) : t.mem = s.mem := (congrArg State.mem hs.1 :)

theorem sameBut_choices {k : Nat} (hs : SameBut k s t) : t.choices = s.choices := (congrArg State.choices hs.1 :)

theorem pick_countFork_cores (s : State) (core : Nat) : ((s.pick 65535).2.countFork core).cores = (s.countFork core).cores := rfl

/-- A refused fork (R332/16) counts, and nothing else outside its sheaf differs but the choice made. -/
theorem refusal_outside {h' : Sheaf} {core : Nat} (hd : Completed i ((s.pick 65535).2.countFork core) t h h') :
    Completed i { s with choices := t.choices, cores := t.cores } t h h' ∧ t.cores = (s.countFork core).cores := by
  have hout : ({ s with choices := t.choices, cores := t.cores } : State) = (s.pick 65535).2.countFork core := by
    rw [sameBut_cores hd.2.1, sameBut_choices hd.2.1]
    rfl
  exact ⟨hout ▸ hd, (sameBut_cores hd.2.1).trans (pick_countFork_cores s core)⟩

theorem sget_of_sset {h' : Sheaf} {x : Dword} (hs : h'.s = (h.sset d x).s) : h'.sget d = x ∧ ∀ n, n ≠ d → h'.sget n = h.sget n := by
  have hget : ∀ n, h'.sget n = (h.sset d x).sget n := fun n => congrArg (fun m => cget 0 m n) hs
  exact ⟨(hget d).trans (sget_sset_same h d x), fun n hn => (hget n).trans ((sget_sset h d n x).trans (if_neg hn))⟩

/-- The sheaf of a refused fork: its handle, its other scalar registers, its count, its children. -/
theorem refused_sheaf {h' : Sheaf} {x : Dword}
    (hf : ({ h' with lanes := h.lanes, watchSkip := h.watchSkip } : Sheaf) = { h.sset d x with forkSeq := h.forkSeq + 1 }) :
    h'.sget d = x ∧ (∀ n, n ≠ d → h'.sget n = h.sget n) ∧ h'.forkSeq = h.forkSeq + 1 ∧ h'.children = h.children := by
  obtain ⟨hwritten, hothers⟩ := sget_of_sset (congrArg Sheaf.s hf :)
  exact ⟨hwritten, hothers, (congrArg Sheaf.forkSeq hf :), (congrArg Sheaf.children hf :)⟩

/-- The sheaf of a fork that has queued its child: its handle, its other registers, its count, its children. -/
theorem forked_sheaf {h' child : Sheaf} {x : Dword}
    (hf : ({ h' with lanes := h.lanes, watchSkip := h.watchSkip } : Sheaf) = (h.noted child h).sset d x) :
    h'.sget d = x ∧ (∀ n, n ≠ d → h'.sget n = h.sget n) ∧ h'.v = h.v ∧ h'.p = h.p ∧ h'.forkSeq = h.forkSeq + 1 ∧
      h'.children = h.children ++ [⟨h.forkSeq, child.rev, child.id, child.inlineChild⟩] := by
  have hs : h'.s = (h.sset d x).s := (congrArg Sheaf.s hf :)
  obtain ⟨hwritten, hothers⟩ := sget_of_sset hs
  exact ⟨hwritten, hothers, (congrArg Sheaf.v hf :), (congrArg Sheaf.p hf :), (congrArg Sheaf.forkSeq hf :), (congrArg Sheaf.children hf :)⟩

theorem forkHandle_refused (seq : BitVec 16) : forkHandle seq 2 0 = BitVec.ofNat 64 (seq.toNat * 2 ^ 32 + 2 * 2 ^ 16) := by
  rw [forkHandle, Nat.add_zero]

theorem forkHandle_queued (seq : BitVec 16) (rev : Nat) : forkHandle seq 0 rev = BitVec.ofNat 64 (seq.toNat * 2 ^ 32 + rev) := by
  rw [forkHandle, Nat.zero_mul, Nat.add_zero]

theorem forkHandle_inline (seq : BitVec 16) (rev : Nat) : forkHandle seq 1 rev = BitVec.ofNat 64 (seq.toNat * 2 ^ 32 + 2 ^ 16 + rev) := by
  rw [forkHandle, Nat.one_mul]

/-! ### A queued child -/

theorem queuesChild_mem (s : State) (h child : Sheaf) : (s.queuesChild h child).mem = s.mem := by
  have hmem : (s.withChild h child).mem = s.mem := (congrArg State.mem (withChild_frame s h child) :)
  simp [State.queuesChild, State.putRecord, hmem]

theorem queuesChild_ctxs (s : State) (h child : Sheaf) : (s.queuesChild h child).ctxs = (s.withChild h child).ctxs := by
  simp [State.queuesChild, State.putRecord]

theorem countFork_ctxs (s : State) (core : Nat) : (s.countFork core).ctxs = s.ctxs := rfl

theorem countFork_fields (s : State) (core : Nat) : (s.countFork core).fields = s.fields := rfl

theorem countFork_mem (s : State) (core : Nat) : (s.countFork core).mem = s.mem := rfl

section
variable {child : Sheaf} (ht : SameBut i.sheaf ((s.queuesChild h child).countFork h.core) t)
include ht

theorem queued_core : t.core h.core =
    { s.core h.core with deque := child.id :: (s.core h.core).deque, forks := (s.core h.core).forks + 1 } := by
  have hcore : t.core h.core = ((s.queuesChild h child).countFork h.core).core h.core := by
    unfold State.core
    rw [sameBut_cores ht]
  rw [hcore, core_countFork, if_pos rfl, queuesChild_core, if_pos rfl]

theorem queued_record : ∃ r ∈ (t.field (fieldOfCore h.core)).records, r.sheaf = child.id := by
  unfold State.field
  rw [sameBut_fields ht, countFork_fields]
  exact queuesChild_record s h child

theorem queued_mem : t.mem = s.mem := by rw [sameBut_mem ht, countFork_mem, queuesChild_mem]

theorem queued_rev? (hr : child.rev ∉ s.revsUsed) : (t.ctx h.ctx).rev? child.rev = some (s.childRev h child) := by
  unfold State.ctx
  rw [sameBut_ctxs ht, countFork_ctxs, queuesChild_ctxs]
  exact withChild_rev? hr

end

/-- The child of a fork does not depend on the choice that the fork makes. -/
theorem newChild_pick (s : State) (h : Sheaf) (i : Issue) (c rev : Nat) (x : Dword) (inl : Bool) :
    (s.pick 65535).2.newChild h i c rev x inl =
      childOf h (s.launchOf h) (s.carryEntry (s.launchOf h) c) i s.nextId rev s.now c x inl := by
  have hcarry : (s.pick 65535).2.numbered.carryEntry (s.launchOf h) c = s.carryEntry (s.launchOf h) c :=
    carryEntry_withCounters s (s.choices + 1) (s.nextId + 1) (s.launchOf h) c
  have hlaunch : (s.pick 65535).2.launchOf h = s.launchOf h := rfl
  unfold State.newChild
  rw [hlaunch, hcarry]
  rfl

/-- Where a sheaf is not the one that forks, its scalar registers and its lanes are what they were. -/
theorem butFork_of_ne {k : Nat} (e : g.butFork k = h.butFork k) (hne : h.id ≠ k) : g.s = h.s ∧ g.lanes = h.lanes := by
  have hid : g.id = h.id := (congrArg Sheaf.id e :)
  have hs := congrArg Sheaf.s e
  have hl := congrArg Sheaf.lanes e
  simp only [Sheaf.butFork, hid, if_neg hne] at hs hl
  exact ⟨hs, hl⟩

theorem childOf_lane (h : Sheaf) (l : Launch) (e : List Byte) (i : Issue) (id rev now carry : Nat) (x : Dword) (inl : Bool) (n : Nat) (hn : n < 64) :
    ((childOf h l e i id rev now carry x inl).lane n).pc = x.setWidth 56 := by
  show ((List.replicate 64 ({ pc := x.setWidth 56 } : Lane)).getD n {}).pc = x.setWidth 56
  rw [List.getD_eq_getElem?_getD, List.getElem?_replicate, if_pos hn, Option.getD_some]

/-- A queued child as the machine holds it after its fork. -/
theorem queued_child {k : Sheaf} {n id rev now carry : Nat} {l : Launch} {e : List Byte} {x : Dword}
    (hk : k.butFork n = (childOf h l e i id rev now carry x false).butFork n) :
    k.id = id ∧ k.parent = some h.id ∧ k.place = .deque i.core ∧ k.rev = rev ∧ k.wb = h.wb ∧ k.v = h.carriedV e ∧ k.exited = ~~~i.lanes ∧
      k.carrySet = carry ∧ (id ≠ n → k.s = h.carriedS e ∧ ∀ y, y < 64 → (k.lane y).pc = x.setWidth 56) := by
  refine ⟨(congrArg Sheaf.id hk :), (congrArg Sheaf.parent hk :), (congrArg Sheaf.place hk :), (congrArg Sheaf.rev hk :),
    (congrArg Sheaf.wb hk :), (congrArg Sheaf.v hk :), (congrArg Sheaf.exited hk :), (congrArg Sheaf.carrySet hk :), fun hne => ?_⟩
  obtain ⟨hs, hl⟩ := butFork_of_ne hk hne
  refine ⟨hs, fun y hy => ?_⟩
  unfold Sheaf.lane
  rw [hl]
  exact childOf_lane h l e i id rev now carry x false y hy

/-! ### An inline child -/

/-- What registers that are drawn leave of a sheaf's issue and of the room of the deques. -/
theorem drawn_room {v : State} (hr : v.forkRoom = s.forkRoom) : v.cur = s.cur ∧ v.nextId = s.nextId ∧
    (∀ x, (v.core x).deque = (s.core x).deque) ∧ ∀ x, (v.core x).dequeFull = (s.core x).dequeFull := by
  have hcore : ∀ x, ((v.core x).deque, (v.core x).dequeStart, (v.core x).forks) = ((s.core x).deque, (s.core x).dequeStart, (s.core x).forks) :=
    fun x => congrFun (congrArg (fun y => y.2.2) hr) x
  refine ⟨congrArg Prod.fst hr, congrArg (fun y => y.2.1) hr, fun x => congrArg Prod.fst (hcore x), fun x => ?_⟩
  obtain ⟨hdeque, hstart, hforks⟩ : _ ∧ _ ∧ _ := by simpa using hcore x
  unfold Core.dequeFull
  rw [hdeque, hstart, hforks]

theorem withChild_deque (s : State) (h child : Sheaf) (x : Nat) : ((s.numbered.withChild h child).core x).deque = (s.core x).deque :=
  congrArg Core.deque (withChild_core s.numbered h child x)

/-- A child that is to run inline as the machine holds it after its fork. -/
theorem inline_child {rev : Nat} {x : Dword} {k : WaitKind} (hi : s.Issuing i g) (hid : h.id = i.sheaf) :
    ∃ child ∈ ((s.numbered.withChild h (s.newChild h i c rev x true)).runsInline h k).sheaves, child.id = s.nextId ∧
      child.inlineChild = true ∧ child.rev = rev ∧ child.slot = h.slot ∧ (s.nextId ≠ i.sheaf → child.place = .resident) := by
  have hn : s.numbered.Issuing i g := issuing_of_eq hi rfl rfl
  have hmem := withChild_mem s.numbered h (s.newChild h i c rev x true)
  rw [hid] at hmem
  exact runsInline_mem (withChild_issuing hn hid _) hid hmem

theorem runsInline_deque {k : WaitKind} (s : State) (h : Sheaf) : ((s.runsInline h k).core h.core).deque = (s.core h.core).deque := by
  have hres : ∀ (u : State) (f : Res → Res), ((u.modRes h.core h.ctx f).core h.core).deque = (u.core h.core).deque := by
    intro u f
    unfold State.modRes
    rw [core_modCore, if_pos rfl]
  have hparent : ∀ (u : State) (n pages : Nat) (m : Memory) (f : Sheaf → Sheaf),
      ((u.putRecord (fieldOfCore h.core) n pages m).modSheaf n f).core h.core = u.core h.core := by
    intro u n pages m f
    simp [State.core, State.putRecord]
  have hwait : (s.waitMe k).core h.core = s.core h.core := by
    simp [State.core, State.waitMe]
  unfold State.runsInline
  rw [core_countFork, if_pos rfl]
  show ((State.l1Clear _ h.core).core h.core).deque = _
  rw [l1Clear_deque, hparent, hres, hwait]

theorem l1Clear_noGlLines (s : State) (core : Nat) : ((s.l1Clear core).core core).noGlLines := by
  unfold State.l1Clear
  rw [core_modCore, if_pos rfl]
  exact fun x hx => (List.mem_filter.mp hx).2

theorem countFork_noGlLines {core : Nat} (hs : (s.core core).noGlLines) : ((s.countFork core).core core).noGlLines := by
  rw [core_countFork, if_pos rfl]
  exact hs

theorem runsInline_noGlLines (s : State) (h : Sheaf) (k : WaitKind) : ((s.runsInline h k).core h.core).noGlLines :=
  countFork_noGlLines (l1Clear_noGlLines _ _)

/-- Settles O38: by the case of the fork's checks, then by what the refusal, the queued child and the inline child make of the machine. -/
theorem forks : Obligations.Forks := by
  unfold Obligations.Forks
  intro s i h d a c hi hp
  have hpick : (s.pick 65535).2.Issuing i h := issuing_of_eq hi rfl rfl
  refine ⟨fun t hw => exec_fork_waits hi hp hw, fun hw => ⟨exec_fork_handler hi hp hw, exec_fork_align hi hp hw,
    exec_fork_high hi hp hw, exec_fork_noCarry hi hp hw, fun hl hx hy hc => ⟨?refused, ?queued, ?regback, ?inline⟩⟩⟩
  case refused =>
    intro hfull
    obtain ⟨h', hdone, hframe⟩ := refusal_completed hpick d h.core (forkHandle h.forkSeq 2 0)
    obtain ⟨hout, hcores⟩ := refusal_outside hdone
    obtain ⟨hwritten, hothers, hseq, hchildren⟩ := refused_sheaf hframe
    have hx := exec_fork_refused (d := d) hi hp hw hl hx hy hc (forkRev_of_full hfull)
    refine ⟨_, h', hx, hout, hwritten.trans (forkHandle_refused _), hothers, hseq, hchildren, ?_, fun n hn => ?_⟩
    · unfold State.core
      rw [hcores]
      exact (core_countFork s h.core h.core).trans (if_pos rfl)
    · unfold State.core
      rw [hcores]
      exact (core_countFork s h.core n).trans (if_neg hn)
  case queued =>
    intro hopen hq
    obtain ⟨rev, hr, hlow, hhigh, hfree⟩ := forkRev_of_not_full hopen
    obtain ⟨h', ⟨hsheaf, houtside, hmoved, -⟩, hframe⟩ := forkChild_queued_completed (d := d) (c := c) (rev := rev)
      (x := s.readS h (lowestLane i.lanes) a) hpick hq
    obtain ⟨k, hk, hkeeps⟩ := forkChild_queued_mem (d := d) (c := c) (rev := rev) (x := s.readS h (lowestLane i.lanes) a) hpick hq
    have hcore := queued_core houtside
    rw [newChild_pick] at hkeeps
    obtain ⟨hid, hparent, hplace, hrev, hwb, hv, hexited, hcarry, hregs⟩ := queued_child hkeeps
    obtain ⟨hwritten, hothers, hv', hp', hseq, hchildren⟩ := forked_sheaf hframe
    have hexec := exec_fork_queued (d := d) hi hp hw hl hx hy hc hr hq
    generalize (s.pick 65535).2.forkChild h i d c rev (s.readS h (lowestLane i.lanes) a) = t at hexec hsheaf houtside hk hcore
    have hrecord := queued_record houtside
    have hmem := queued_mem houtside
    have hfound : (t.ctx h.ctx).rev? rev = _ := queued_rev? houtside hfree
    refine ⟨t, h', rev, k, hexec, hsheaf, hmoved, hlow, hhigh, hfree, ?_, hothers, hv', hp', hseq, ?_, hk, hid, ?_, hplace,
      hrev, hwb, hv, hexited, hcarry, hregs, ?_, ?_, hrecord, ?_, ?_⟩
    · exact hwritten.trans (forkHandle_queued _ _)
    · exact hchildren
    · exact hparent.trans (congrArg some (sheaf?_id hi.2))
    · rw [hcore]; rfl
    · rw [hcore]; rfl
    · exact hmem
    · rw [hfound]; rfl
  case regback =>
    intro hopen hq b hb
    obtain ⟨rev, hr, -⟩ := forkRev_of_not_full hopen
    exact exec_fork_regback hi hp hw hl hx hy hc hr hq hb
  case inline =>
    intro hopen hq hb
    obtain ⟨rev, hr, -⟩ := forkRev_of_not_full hopen
    have hexec := exec_fork_inline (d := d) hi hp hw hl hx hy hc hr hq hb
    obtain ⟨⟨g, hg, hframe, hvirt⟩, hroom⟩ := drawCold_spec hpick.2 hb
    obtain ⟨hcur, hnext, hdeques, hfulls⟩ : _ ∧ _ = s.nextId ∧ _ := drawn_room hroom
    generalize ((s.pick 65535).2.drawCold i.sheaf ((s.pick 65535).2.coldOf h)).2 = v at hexec hg hcur hnext hdeques hfulls ⊢
    have hid := sheaf?_id hi.2
    have hv : v.Issuing i g := ⟨hcur.trans hi.1, hg⟩
    rw [forkChild_inline ((hfulls h.core).trans hq)] at hexec
    obtain ⟨child, hmem, hcid, hcinline, hcrev, hcslot, hcplace⟩ := inline_child (c := c) (rev := rev)
      (x := s.readS h (lowestLane i.lanes) a) (k := .inline v.nextId d (forkHandle h.forkSeq 1 rev)) hv hid
    have hsheaf := runsInline_sheaf? (k := .inline v.nextId d (forkHandle h.forkSeq 1 rev)) (withChild_issuing (s := v.numbered)
      (issuing_of_eq hv rfl rfl) hid (v.newChild h i c rev (s.readS h (lowestLane i.lanes) a) true)) hid
    refine ⟨_, _, g, rev, child, _, hg, hvirt, hexec, hsheaf, rfl, congrArg (· ++ _) (congrArg Sheaf.waits hframe :), rfl, rfl, ?_,
      (congrArg Sheaf.s hframe :), rfl, (congrArg Sheaf.p hframe :), hmem, hcid.trans hnext, hcinline, fun hne => hcplace (hnext ▸ hne), hcrev,
      hcslot, ?_, runsInline_noGlLines _ h _, hid ▸ runsInline_record _ h _⟩
    · rw [← forkHandle_inline, ← hnext]
      rfl
    · rw [runsInline_deque, withChild_deque]
      exact hdeques h.core

end Sys2Proof.Machine
end

section
/-! SUPPORT. Window moves, and where a lane goes (R97, R98/04, R255/12, R274, R276, R280/13). Settles O16 and O17. -/

namespace Sys2Proof.Machine

variable {s : State} {i : Issue} {h : Sheaf}

/-! ### Window moves (R98/04, R274/13) -/

/-- A window within its bounds becomes the sheaf's window; any other traps SPACE. -/
theorem exec_moveWindow_outcomes (hi : s.Issuing i h) {ins : Instr} {new : Int} (hx : exec ins s = .next (s.moveWindow new)) :
    (0 ≤ new ∧ new ≤ 384 ∧ new + 128 ≤ (h.budget : Int) → ∃ t h', exec ins s = .next t ∧ Completed i s t h h' ∧ (h'.wb : Int) = new ∧
      ({ h' with wb := h.wb, lanes := h.lanes, watchSkip := h.watchSkip } : Sheaf) = h) ∧
    (¬ (0 ≤ new ∧ new ≤ 384 ∧ new + 128 ≤ (h.budget : Int)) → exec ins s = .next (s.trapAll .space 0 0)) := by
  rw [hx, State.moveWindow, me_of hi]
  constructor
  · intro hn
    obtain ⟨h', hc, he⟩ := modMe_retire hi (fun g => { g with wb := new.toNat }) (fun _ => rfl) rfl rfl
    have hwb : h'.wb = new.toNat := (congrArg Sheaf.wb he :)
    exact ⟨_, h', by rw [if_pos hn], hc, by omega, (congrArg (fun g : Sheaf => { g with wb := h.wb }) he :)⟩
  · intro hn
    rw [if_neg hn]

/-- Settles O16: `wbase` and `wshift` are one move of the window, to the place that each names. -/
theorem windowMoves : Obligations.WindowMoves := by
  unfold Obligations.WindowMoves
  intro s i h n m hi
  have hshift : exec (.wshift m) s = .next (s.moveWindow ((h.wb : Int) + m.toInt)) := by rw [← me_of hi]; rfl
  simp only [List.forall_mem_cons]
  exact ⟨exec_moveWindow_outcomes hi rfl, exec_moveWindow_outcomes hi hshift, fun _ hm => absurd hm List.not_mem_nil⟩

/-! ### Branches (R255/12, R276/13) -/

theorem inSpace_iff (t : Int) : inSpace t = true ↔ 0 ≤ t ∧ t < 2 ^ 56 := by simp [inSpace]

/-- A branch moves the active lanes where its target lies in the address space, and traps SPACE where it does not. -/
theorem exec_branch_outcomes (hi : s.Issuing i h) {ins : Instr} {o : BitVec 18} {taken : Nat → Bool}
    (hx : exec ins s = .next (s.branch o taken)) :
    (0 ≤ branchTarget i.pc o ∧ branchTarget i.pc o < 2 ^ 56 →
      ∃ t h', exec ins s = .next t ∧ t.sheaf? i.sheaf = some h' ∧ SameBut i.sheaf s t ∧ OnlyLanes h h' ∧
        LanesGo i (fun l ln => if taken l then ln.jump i.pc (BitVec.ofInt 56 (branchTarget i.pc o)) i.solo else ln.pass i.pc i.solo) h h') ∧
    (¬ (0 ≤ branchTarget i.pc o ∧ branchTarget i.pc o < 2 ^ 56) → exec ins s = .next (s.trapAll .space 0 0)) := by
  rw [hx]
  constructor
  · intro hin
    obtain ⟨h', hgo⟩ := branch_spec hi o taken ((inSpace_iff _).mpr hin)
    exact ⟨_, h', rfl, hgo⟩
  · intro hout
    rw [← inSpace_iff] at hout
    rw [State.branch, issuePc_of hi, if_neg hout]

/-! ### A lane that jumps (R43/02, R276/13) -/

theorem setWindow_frame (ln : Lane) (t : Vaddr) :
    ({ ln.setWindow t with winBase := ln.winBase, winWords := ln.winWords } : Lane) = ln := by
  unfold Lane.setWindow
  split <;> rfl

theorem setWindow_pc (ln : Lane) (t : Vaddr) : (ln.setWindow t).pc = ln.pc := (congrArg Lane.pc (setWindow_frame ln t) :)

theorem setWindow_loops (ln : Lane) (t : Vaddr) : (ln.setWindow t).loops = ln.loops := (congrArg Lane.loops (setWindow_frame ln t) :)

theorem setWindow_held (ln : Lane) (t : Vaddr) : (ln.setWindow t).held = ln.held := (congrArg Lane.held (setWindow_frame ln t) :)

/-- A jump moves the PC, and changes nothing else but the divergence window. -/
theorem jump_spec (ln : Lane) (w t : Vaddr) (solo : Bool) :
    (ln.jump w t solo).pc = t ∧ (ln.jump w t solo).loops = ln.loops ∧ (ln.jump w t solo).held = ln.held := by
  unfold Lane.jump
  simp only
  split
  · exact ⟨setWindow_pc _ t, setWindow_loops _ t, setWindow_held _ t⟩
  · exact ⟨rfl, rfl, rfl⟩

/-! ### A lane that passes an instruction, through the ends of its loops (R280/13) -/

/-- A loop level that does not end at a word, or counts no more. -/
def Lane.idleAt (ln : Lane) (w : Vaddr) (k : Nat) : Prop := (ln.loops.getD k {}).count = 0 ∨ (ln.loops.getD k {}).stop ≠ w

/-- A lane with the counter of one loop level lowered. -/
def Lane.countDown (ln : Lane) (k : Nat) : Lane :=
  { ln with loops := modAt (fun _ => { ln.loops.getD k {} with count := (ln.loops.getD k {}).count - 1 }) ln.loops k }

theorem loopLevel_of_idle {ln : Lane} {w : Vaddr} {k : Nat} (hk : ln.idleAt w k) : ln.loopLevel w k = (ln, none) := by
  have hoff : ¬ ((ln.loops.getD k {}).count ≠ 0 ∧ (ln.loops.getD k {}).stop = w) := by
    rintro ⟨hc, hs⟩
    exact hk.elim hc fun hne => hne hs
  unfold Lane.loopLevel
  simp only
  rw [if_neg hoff]

theorem loopLevel_of_again {ln : Lane} {w : Vaddr} {k : Nat} (hs : (ln.loops.getD k {}).stop = w) (hc : 1 < (ln.loops.getD k {}).count.toNat) :
    ln.loopLevel w k = (ln.countDown k, some (ln.loops.getD k {}).start) := by
  have hon : (ln.loops.getD k {}).count ≠ 0 ∧ (ln.loops.getD k {}).stop = w := ⟨by bv_omega, hs⟩
  have hleft : (ln.loops.getD k {}).count - 1 ≠ 0 := by bv_omega
  unfold Lane.loopLevel
  simp only
  rw [if_pos hon, if_pos hleft]
  rfl

theorem loopEnds_of_idle {ln : Lane} {w : Vaddr} (hk : ∀ k, k < 3 → ln.idleAt w k) : ln.loopEnds w = (ln, none) := by
  simp only [Lane.loopEnds, loopLevel_of_idle (hk 2 (by decide)), loopLevel_of_idle (hk 1 (by decide)), loopLevel_of_idle (hk 0 (by decide))]

/-- The innermost loop that ends at the word and still counts is the one that goes on. -/
theorem loopEnds_of_again {ln : Lane} {w : Vaddr} {k : Nat} (hk : k < 3) (hs : (ln.loops.getD k {}).stop = w)
    (hc : 1 < (ln.loops.getD k {}).count.toNat) (hinner : ∀ j, k < j → j < 3 → ln.idleAt w j) :
    ln.loopEnds w = (ln.countDown k, some (ln.loops.getD k {}).start) := by
  have hgo := loopLevel_of_again hs hc
  unfold Lane.loopEnds
  obtain rfl | rfl | rfl : k = 2 ∨ k = 1 ∨ k = 0 := by omega
  · simp only [hgo]
  · simp only [loopLevel_of_idle (hinner 2 (by decide) (by decide)), hgo]
  · simp only [loopLevel_of_idle (hinner 2 (by decide) (by decide)), loopLevel_of_idle (hinner 1 (by decide) (by decide)), hgo]

theorem pass_of_idle {ln : Lane} {w : Vaddr} (hk : ∀ k, k < 3 → ln.idleAt w k) (solo : Bool) : ln.pass w solo = { ln with pc := w + 4 } := by
  simp only [Lane.pass, loopEnds_of_idle hk]

/-- A lane whose loop goes on is at the loop's start, its counter lowered. -/
theorem pass_of_again {ln n : Lane} {w t : Vaddr} (he : ln.loopEnds w = (n, some t)) (solo : Bool) :
    (ln.pass w solo).pc = t ∧ (ln.pass w solo).loops = n.loops := by
  simp only [Lane.pass, he]
  split
  · exact ⟨rfl, rfl⟩
  · exact ⟨setWindow_pc _ t, setWindow_loops _ t⟩

/-- Settles O17: the five branches by their shared operation; where a lane goes by the loop level that acts, if one does. -/
theorem branches : Obligations.Branches := by
  unfold Obligations.Branches
  refine ⟨fun s i h c o hi => ?outcomes, jump_spec, fun ln w b hk => pass_of_idle hk b, fun ln w b k hk hlen hs hc hinner => ?again⟩
  case outcomes =>
    have hbra : exec (.bra o) s = .next (s.branch o fun _ => true) := rfl
    have hbnz : exec (.bnz c o) s = .next (s.branch o fun _ => !(s.readS h (lowestLane i.lanes) c == 0)) := by rw [← src_of hi]; rfl
    have hbz : exec (.bz c o) s = .next (s.branch o fun _ => s.readS h (lowestLane i.lanes) c == 0) := by rw [← src_of hi]; rfl
    have hbnzv : exec (.bnzv c o) s = .next (s.branch o fun l => !(h.vget l c == 0)) := by rw [← me_of hi]; rfl
    have hbzv : exec (.bzv c o) s = .next (s.branch o fun l => h.vget l c == 0) := by rw [← me_of hi]; rfl
    iterate 5 rw [List.forall_mem_cons]
    exact ⟨exec_branch_outcomes hi hbra, exec_branch_outcomes hi hbnz, exec_branch_outcomes hi hbz, exec_branch_outcomes hi hbnzv,
      exec_branch_outcomes hi hbzv, fun _ hm => absurd hm List.not_mem_nil⟩
  case again =>
    obtain ⟨hpc, hloops⟩ := pass_of_again (loopEnds_of_again hk hs hc hinner) b
    refine ⟨hpc, ?_⟩
    rw [hloops, Lane.countDown, getD_modAt _ _ _ _ _ (by omega), if_pos rfl]

end Sys2Proof.Machine
end

section
/-! SUPPORT. What the special registers read, and what writing them and the lane program counters does (R35/02, R100, R101, R104, R106, R108/04,
R378, R379/18). Settles O24. -/

namespace Sys2Proof.Machine

variable {s t u : State} {i : Issue} {h g : Sheaf}

/-! ### Reads (R100, R106, R108/04) -/

theorem readS_scalar (s : State) (h : Sheaf) (l : Nat) {n : Nat} (hn : n < 96) : s.readS h l n = h.sget n := if_pos hn

theorem readS_special (s : State) (h : Sheaf) (l : Nat) {n : Nat} (hlo : ¬ n < 96) (hhi : n < 118) : s.readS h l n = s.special h l n := by
  rw [State.readS, if_neg hlo, if_pos hhi]

theorem readS_loopCounter (s : State) (h : Sheaf) (l k : Nat) :
    s.readS h l (118 + k) = (((h.lane l).loops.getD k {}).count).setWidth 64 := by
  rw [State.readS, if_neg (by omega), if_neg (by omega), Nat.add_sub_cancel_left]

theorem getLsbD_fourBits (b : Nat → Bool) {k : Nat} (hk : k < 4) :
    (BitVec.ofBool (b 3) ++ BitVec.ofBool (b 2) ++ BitVec.ofBool (b 1) ++ BitVec.ofBool (b 0)).getLsbD k = b k := by
  simp only [BitVec.getLsbD_append]
  obtain rfl | rfl | rfl | rfl : k = 0 ∨ k = 1 ∨ k = 2 ∨ k = 3 := by omega
  all_goals simp

/-- `$status` has the flags in its low five bits, and the SAT bits of the four team slots above them (R106/04). -/
theorem getLsbD_status (s : State) (h : Sheaf) (k : Nat) :
    (s.status h).getLsbD k = if k < 5 then h.flags.bits.getLsbD k else if k < 9 then s.satBit h (k - 5) else false := by
  unfold State.status
  rw [BitVec.getLsbD_setWidth, BitVec.getLsbD_append]
  split
  · simp [show k < 64 by omega]
  · split
    · rw [getLsbD_fourBits (s.satBit h) (by omega)]
      simp [show k < 64 by omega]
    · rw [BitVec.getLsbD_of_ge _ _ (by omega), Bool.and_false]

theorem resOf_of_res? {r : Res} (hr : (s.core h.core).res? h.ctx = some r) : s.resOf h = r := by rw [State.resOf, hr, Option.getD_some]

/-! ### The state of a completed instruction, outside its sheaf -/

/-- A state whose issuing sheaf is as it was retires the issue: nothing differs from it but the lanes and WATCH skips of the sheaf. -/
theorem retire_onlyLanes (hu : u.Issuing i h) : ∃ h', Completed i u u.retire h h' ∧ OnlyLanes h h' :=
  retire_completed hu (sameBut_refl _ _) rfl rfl

/-! ### Lane program counters (R378/18) -/

theorem loopLevel_held (ln : Lane) (w : Vaddr) (k : Nat) : (ln.loopLevel w k).1.held = ln.held := by
  unfold Lane.loopLevel
  simp only
  split <;> rfl

theorem loopEnds_held (ln : Lane) (w : Vaddr) : (ln.loopEnds w).1.held = ln.held := by
  have h2 := loopLevel_held ln w 2
  unfold Lane.loopEnds
  generalize ln.loopLevel w 2 = q2 at h2
  obtain ⟨n2, t2⟩ := q2
  cases t2 with
  | some _ => exact h2
  | none =>
    have h1 := loopLevel_held n2 w 1
    simp only
    generalize n2.loopLevel w 1 = q1 at h1
    obtain ⟨n1, t1⟩ := q1
    cases t1 with
    | some _ => exact h1.trans h2
    | none => exact (loopLevel_held n1 w 0).trans (h1.trans h2)

/-- A lane that passes an instruction keeps its held PC. -/
theorem pass_held (ln : Lane) (w : Vaddr) (solo : Bool) : (ln.pass w solo).held = ln.held := by
  have he := loopEnds_held ln w
  unfold Lane.pass
  generalize ln.loopEnds w = q at he
  obtain ⟨n, t⟩ := q
  cases t with
  | none => exact he
  | some t =>
    simp only
    split
    · exact he
    · exact (setWindow_held _ t).trans he

theorem moved_held (hm : Moved i h g) {l : Nat} (hl : l < h.lanes.length) : (g.lane l).held = (h.lane l).held := by
  rw [hm.2 l hl]
  split
  · exact pass_held _ _ _
  · rfl

theorem getLsbD_flagAt (b : Bool) {n k : Nat} (hk : k < 64) : (if b then (1 : Dword) <<< n else 0).getLsbD k = (b && decide (k = n)) := by
  cases b
  · simp
  · exact getLsbD_laneBit n k hk

/-- A lane's PC as `lpc.rd` gives it: exited in bit 63, waiting in bit 62. -/
theorem lanePc_bits (x w : Bool) (pc : Vaddr) :
    pc.setWidth 64 ||| (if x then (1 : Dword) <<< 63 else 0) ||| (if w then (1 : Dword) <<< 62 else 0) =
      BitVec.ofBool x ++ BitVec.ofBool w ++ (0 : BitVec 6) ++ pc := by
  refine BitVec.eq_of_getLsbD_eq fun k hk => ?_
  simp only [BitVec.getLsbD_append, BitVec.getLsbD_or, BitVec.getLsbD_setWidth, hk, getLsbD_flagAt]
  by_cases hpc : k < 56
  · simp [hpc, show k ≠ 62 by omega, show k ≠ 63 by omega]
  · rw [BitVec.getLsbD_of_ge pc k (by omega)]
    obtain hlow | rfl | rfl : k < 62 ∨ k = 62 ∨ k = 63 := by omega
    · simp [hpc, show k ≠ 62 by omega, show k ≠ 63 by omega, show k - 56 < 6 by omega]
    · simp
    · simp

theorem exec_lpcRd (hi : s.Issuing i h) (d a : Nat) :
    let k := (s.readS h (lowestLane i.lanes) a).toNat % 64
    exec (.lpcRd d a) s = .next (s.scalarOp d (BitVec.ofBool (h.exited.getLsbD k) ++
      BitVec.ofBool ((waitMask h.waits ||| h.stalled ||| h.blocked).getLsbD k) ++ (0 : BitVec 6) ++
        (if h.tl = 0 then (h.lane k).pc else (h.lane k).held))) := by
  intro k
  show execLpcRd d a s = _
  unfold execLpcRd
  simp only [src_of hi, me_of hi, lanePc_bits]
  rfl

theorem highByte_eq_zero_iff (x : Dword) : x.extractLsb' 56 8 = 0 ↔ x.toNat < 2 ^ 56 := by
  rw [← BitVec.toNat_inj, BitVec.extractLsb'_toNat]
  have := x.isLt
  simp only [Nat.shiftRight_eq_div_pow, BitVec.toNat_zero, BitVec.ofNat_eq_ofNat]
  omega

/-- A sheaf with the held PC of one lane set, as `lpc.wr` sets it. -/
def Sheaf.setHeld (h : Sheaf) (k : Nat) (x : Dword) : Sheaf := h.modLane k fun ln => { ln with held := x.setWidth 56 &&& ~~~3 }

section
variable (hi : s.Issuing i h) (a b : Nat)
include hi

theorem exec_lpcWr_level0 (hl : h.tl = 0) : exec (.lpcWr a b) s = .next (s.trapAll .illop 0 0) := by
  show execLpcWr a b s = _
  simp only [execLpcWr, me_of hi, if_pos hl]

theorem exec_lpcWr_high (hl : h.tl ≠ 0) (hb : ¬ (s.readS h (lowestLane i.lanes) b).toNat < 2 ^ 56) :
    exec (.lpcWr a b) s = .next (s.trapAll .space 0 0) := by
  rw [← highByte_eq_zero_iff] at hb
  show execLpcWr a b s = _
  simp only [execLpcWr, me_of hi, src_of hi, if_neg hl, ne_eq, if_pos hb]

theorem exec_lpcWr_sets (hl : h.tl ≠ 0) (hb : (s.readS h (lowestLane i.lanes) b).toNat < 2 ^ 56) :
    exec (.lpcWr a b) s = .next (s.modMe fun g =>
      g.setHeld ((s.readS h (lowestLane i.lanes) a).toNat % 64) (s.readS h (lowestLane i.lanes) b)).retire := by
  rw [← highByte_eq_zero_iff] at hb
  show execLpcWr a b s = _
  simp only [execLpcWr, me_of hi, src_of hi, if_neg hl, ne_eq, hb, not_true_eq_false, if_false]
  rfl

theorem setHeld_completed (k : Nat) (x : Dword) : ∃ h',
    Completed i s (s.modMe fun g => g.setHeld k x).retire (h.setHeld k x) h' ∧ OnlyLanes h h' := by
  obtain ⟨h', hc, he⟩ := retire_completed (issuing_modMe hi (fun g => g.setHeld k x) fun _ => rfl)
    (sameBut_modMe hi (fun g => g.setHeld k x) fun _ => rfl) (h := h.setHeld k x) rfl rfl
  exact ⟨h', hc, (congrArg (fun g : Sheaf => { g with lanes := h.lanes }) he :)⟩

end

theorem length_setHeld (h : Sheaf) (k : Nat) (x : Dword) : (h.setHeld k x).lanes.length = h.lanes.length := length_modAt _ _ _

theorem held_setHeld (h : Sheaf) {k l : Nat} (x : Dword) (hl : l < h.lanes.length) :
    ((h.setHeld k x).lane l).held = if l = k then x.setWidth 56 &&& ~~~3 else (h.lane l).held := by
  rw [Sheaf.setHeld, lane_modLane _ _ _ _ hl]
  split <;> rfl

/-! ### `$ctrl` (R101/04) -/

theorem ctrlWrite_divtmr (x : Dword) : ((ctrlWrite x).extractLsb' 20 4).toNat = max 4 (min 12 (x.extractLsb' 20 4).toNat) := by
  have hfield : ∀ n, (BitVec.ofNat 4 n ++ x.extractLsb' 8 12 ++ (0 : BitVec 8)).extractLsb' 20 4 = BitVec.ofNat 4 n := fun n => by
    refine BitVec.eq_of_getLsbD_eq fun k hk => ?_
    simp only [BitVec.getLsbD_append, BitVec.getLsbD_extractLsb', hk]
    simp [show ¬ 20 + k < 8 by omega, show ¬ 20 + k - 8 < 12 by omega, show 20 + k - 8 - 12 = k by omega]
  rw [ctrlWrite, hfield, BitVec.toNat_ofNat]
  split
  · omega
  · split <;> omega

theorem ctrlWrite_middle (x : Dword) : (ctrlWrite x).extractLsb' 8 12 = x.extractLsb' 8 12 := by
  refine BitVec.eq_of_getLsbD_eq fun k hk => ?_
  simp only [ctrlWrite, BitVec.getLsbD_append, BitVec.getLsbD_extractLsb', hk]
  simp [hk]

theorem ctrlWrite_unused (x : Dword) : (ctrlWrite x).extractLsb' 0 8 = 0 := by
  refine BitVec.eq_of_getLsbD_eq fun k hk => ?_
  simp only [ctrlWrite, BitVec.getLsbD_append, BitVec.getLsbD_extractLsb', hk]
  simp [hk]

theorem ctrlWrite_prog (x : Dword) : (ctrlWrite x).getLsbD 8 = x.getLsbD 8 := by
  have hmid := congrArg (fun y : BitVec 12 => y.getLsbD 0) (ctrlWrite_middle x)
  simpa using hmid

theorem writeCtrl_of_prog (h : Sheaf) {x : Dword} (hp : x.getLsbD 8 = true) : h.writeCtrl x = { h with ctrl := ctrlWrite x } := by
  have hprog : Sheaf.prog { h with ctrl := ctrlWrite x } = true := (ctrlWrite_prog x).trans hp
  simp only [Sheaf.writeCtrl, hprog, if_true]

theorem writeCtrl_of_not_prog (h : Sheaf) {x : Dword} (hp : x.getLsbD 8 = false) :
    h.writeCtrl x = { h with ctrl := ctrlWrite x, favoured := 0, favouredOld := none, yielded := 0 } := by
  have hprog : Sheaf.prog { h with ctrl := ctrlWrite x } = false := (ctrlWrite_prog x).trans hp
  simp only [Sheaf.writeCtrl, hprog, Bool.false_eq_true, if_false]

theorem writeCtrl_frame (h : Sheaf) (x : Dword) :
    ({ h.writeCtrl x with ctrl := h.ctrl, favoured := h.favoured, favouredOld := h.favouredOld, yielded := h.yielded } : Sheaf) = h := by
  cases hp : x.getLsbD 8
  · rw [writeCtrl_of_not_prog h hp]
  · rw [writeCtrl_of_prog h hp]

theorem writeCtrl_ctrl (h : Sheaf) (x : Dword) : (h.writeCtrl x).ctrl = ctrlWrite x := by
  cases hp : x.getLsbD 8
  · rw [writeCtrl_of_not_prog h hp]
  · rw [writeCtrl_of_prog h hp]

theorem exec_spcw_ctrl (hi : s.Issuing i h) (a : Nat) : exec (.spcw a 111) s =
    .next (s.modMe fun g => g.writeCtrl (s.readS h (lowestLane i.lanes) a)).retire := by rw [← src_of hi]; rfl

/-- A write of `$ctrl` completes, and the sheaf is what the write makes of it. -/
theorem writeCtrl_completed (hi : s.Issuing i h) (x : Dword) : ∃ h', Completed i s (s.modMe fun g => g.writeCtrl x).retire h h' ∧
    ({ h' with lanes := h.lanes, watchSkip := h.watchSkip } : Sheaf) = h.writeCtrl x :=
  modMe_retire hi (fun g => g.writeCtrl x) (fun g => (congrArg Sheaf.id (writeCtrl_frame g x) :)) (congrArg Sheaf.lanes (writeCtrl_frame h x) :)
    (congrArg Sheaf.watchSkip (writeCtrl_frame h x) :)

/-! ### `$status` (R106/04) -/

/-- A sheaf with the flags of `$status` written as 1 cleared, but those raised in this cycle. -/
def Sheaf.clearFlags (h : Sheaf) (x : Dword) : Sheaf :=
  { h with flags := FpFlags.ofBits (h.flags.bits &&& (~~~(x.extractLsb' 0 5) ||| h.raised.bits)) }

theorem bits_ofBits (b : BitVec 5) : (FpFlags.ofBits b).bits = b := by
  decide +revert

theorem clearFlags_bits (h : Sheaf) (x : Dword) {k : Nat} (hk : k < 5) :
    (h.clearFlags x).flags.bits.getLsbD k = (h.flags.bits.getLsbD k && (!x.getLsbD k || h.raised.bits.getLsbD k)) := by
  simp [Sheaf.clearFlags, bits_ofBits, hk]

/-- A write of `$status` at one team slot: the team there has its SAT cleared where the slot's bit is written as 1. -/
def State.clearSlot (h : Sheaf) (x : Dword) (s : State) (k : Nat) : State :=
  match x.getLsbD (5 + k), h.slots.getD k none with
  | true, some t => s.modTeam t fun t => t.clearSat s.now
  | _, _ => s

theorem clearSlot_frame (h : Sheaf) (x : Dword) (s : State) (k : Nat) (ts : List Team) :
    ({ s.clearSlot h x k with teams := ts } : State) = { s with teams := ts } := by
  unfold State.clearSlot
  split <;> rfl

theorem clearSat_id (tm : Team) (now : Nat) : (tm.clearSat now).id = tm.id := by
  unfold Team.clearSat
  split <;> rfl

theorem clearSat_clearSat (tm : Team) (now : Nat) : (tm.clearSat now).clearSat now = tm.clearSat now := by
  unfold Team.clearSat
  split <;> simp_all

theorem team?_id {n : Nat} {tm : Team} (ht : s.team? n = some tm) : tm.id = n := by simpa using List.find?_some ht

theorem team?_modTeam_other (s : State) {k n : Nat} (f : Team → Team) (hf : ∀ x, (f x).id = x.id) (hn : n ≠ k) :
    (s.modTeam k f).team? n = s.team? n := by
  have hfound : (s.modTeam k f).team? n = (s.team? n).map fun x => if x.id = k then f x else x :=
    find?_map_keep _ _ (fun x => by by_cases hx : x.id = k <;> simp [hx, hf]) s.teams
  rw [hfound]
  cases ht : s.team? n with
  | none => rfl
  | some x => rw [Option.map_some, if_neg (team?_id ht ▸ hn)]

/-- The team of which a slot's bit is written as 1. -/
def Sheaf.clearsAt (h : Sheaf) (x : Dword) (n k : Nat) : Bool := x.getLsbD (5 + k) && h.slots.getD k none == some n

theorem clearSlot_team? (h : Sheaf) (x : Dword) (s : State) (k n : Nat) :
    (s.clearSlot h x k).team? n = (s.team? n).map fun tm => if h.clearsAt x n k then tm.clearSat s.now else tm := by
  unfold State.clearSlot Sheaf.clearsAt
  cases x.getLsbD (5 + k) with
  | false => simp
  | true =>
    cases h.slots.getD k none with
    | none => simp
    | some m =>
      by_cases hn : n = m
      · subst hn
        have hsame := team?_modTeam s n (fun tm => tm.clearSat s.now) fun tm hid => (clearSat_id tm s.now).trans hid
        simpa using hsame
      · have hother := team?_modTeam_other s (fun tm => tm.clearSat s.now) (fun tm => clearSat_id tm s.now) hn
        simpa [Ne.symm hn] using hother

theorem foldl_clearSlot_frame (h : Sheaf) (x : Dword) (ks : List Nat) (s : State) (ts : List Team) :
    ({ ks.foldl (State.clearSlot h x) s with teams := ts } : State) = { s with teams := ts } :=
  foldl_keep (State.clearSlot h x) (fun s : State => { s with teams := ts }) (fun s k => clearSlot_frame h x s k ts) ks s

theorem foldl_clearSlot_team? (h : Sheaf) (x : Dword) (ks : List Nat) (s : State) (n : Nat) :
    (ks.foldl (State.clearSlot h x) s).team? n = (s.team? n).map fun tm => if ks.any (h.clearsAt x n) then tm.clearSat s.now else tm := by
  induction ks generalizing s with
  | nil => simp
  | cons k ks ih =>
    have hnow : (s.clearSlot h x k).now = s.now := (congrArg State.now (clearSlot_frame h x s k s.teams) :)
    rw [List.foldl_cons, ih, clearSlot_team?, hnow, Option.map_map]
    congr 1
    funext tm
    simp only [Function.comp, List.any_cons]
    by_cases hk : h.clearsAt x n k = true <;> by_cases hks : ks.any (h.clearsAt x n) = true <;>
      simp only [hk, hks, clearSat_clearSat, Bool.or_true, Bool.true_or, Bool.or_self, if_true, if_false, Bool.false_eq_true]

/-- A state after a write of `$status`, before the issue is retired. -/
def State.statusWritten (s : State) (h : Sheaf) (x : Dword) : State :=
  (List.range 4).foldl (State.clearSlot h x) (s.modMe fun g => g.clearFlags x)

theorem exec_spcw_status (hi : s.Issuing i h) (a : Nat) :
    exec (.spcw a 113) s = .next (s.statusWritten h (s.readS h (lowestLane i.lanes) a)).retire := by
  rw [← src_of hi, ← me_of hi]
  rfl

theorem statusWritten_issuing (hi : s.Issuing i h) (x : Dword) : (s.statusWritten h x).Issuing i (h.clearFlags x) := by
  have hframe := foldl_clearSlot_frame h x (List.range 4) (s.modMe fun g => g.clearFlags x) s.teams
  exact issuing_of_eq (issuing_modMe hi (fun g => g.clearFlags x) fun _ => rfl) (congrArg State.cur hframe :) (congrArg State.sheaves hframe :)

theorem statusWritten_team? (hi : s.Issuing i h) (x : Dword) (n : Nat) :
    (s.statusWritten h x).team? n = (s.team? n).map fun tm => if (List.range 4).any (h.clearsAt x n) then tm.clearSat s.now else tm := by
  rw [State.statusWritten, foldl_clearSlot_team?, modMe_of hi]
  rfl

theorem statusWritten_frame (hi : s.Issuing i h) (x : Dword) :
    ({ s.statusWritten h x with sheaves := s.sheaves, teams := s.teams } : State) = s ∧
      ∀ k, k ≠ i.sheaf → (s.statusWritten h x).sheaf? k = s.sheaf? k := by
  have hfold := foldl_clearSlot_frame h x (List.range 4) (s.modMe fun g => g.clearFlags x) s.teams
  have hsame := sameBut_modMe hi (fun g => g.clearFlags x) fun _ => rfl
  refine ⟨?_, fun k hk => ?_⟩
  · exact (congrArg (fun u : State => { u with sheaves := s.sheaves }) hfold :).trans (congrArg (fun u : State => { u with teams := s.teams }) hsame.1 :)
  · have hsheaf : (s.statusWritten h x).sheaf? k = (s.modMe fun g => g.clearFlags x).sheaf? k := (congrArg (fun u : State => u.sheaf? k) hfold :)
    exact hsheaf.trans (hsame.2 k hk)

/-! ### `$nbudget`, `$slewcy`, and the registers that cannot be written (R100, R104/04) -/

theorem clampBudget_toNat (x : Dword) : (clampBudget x).toNat = max 1024 (min 65536 (x.setWidth 32).toNat) := by
  unfold clampBudget
  rw [BitVec.toNat_ofNat, Nat.mod_eq_of_lt (by omega)]

section
variable (hi : s.Issuing i h) (a : Nat)
include hi

theorem exec_spcw_nbudget (hv : s.supervisor h.ctx = true) : exec (.spcw a 107) s =
    .next (s.modCtx h.ctx fun c => { c with nbudget := clampBudget (s.readS h (lowestLane i.lanes) a) }).retire := by
  show execSpcw a 107 s = _
  simp only [execSpcw, me_of hi, src_of hi, hv, if_true]

theorem exec_spcw_slewcy (hv : s.supervisor h.ctx = true) : exec (.spcw a 110) s =
    .next (s.modCore h.core fun c => { c with slewcy := (s.readS h (lowestLane i.lanes) a).setWidth 32 }).retire := by
  show execSpcw a 110 s = _
  simp only [execSpcw, me_of hi, src_of hi, hv, if_true]

theorem exec_spcw_unprivileged (hv : ¬ s.supervisor h.ctx = true) :
    exec (.spcw a 107) s = .next (s.trapAll .priv 0 0) ∧ exec (.spcw a 110) s = .next (s.trapAll .priv 0 0) := by
  constructor
  · show execSpcw a 107 s = _
    simp only [execSpcw, me_of hi, if_neg hv]
  · show execSpcw a 110 s = _
    simp only [execSpcw, me_of hi, if_neg hv]

end

theorem exec_spcw_readOnly (s : State) (a : Nat) {b : Nat} (h111 : b ≠ 111) (h113 : b ≠ 113) (h107 : b ≠ 107) (h110 : b ≠ 110) :
    exec (.spcw a b) s = .next (s.trapAll .illop 0 0) := by
  show execSpcw a b s = _
  simp only [execSpcw]

/-- A change of one context outside the sheaf, then the issue retired. -/
theorem modCtx_completed (hi : s.Issuing i h) (f : Context → Context) : ∃ t h', t = (s.modCtx h.ctx f).retire ∧
    Completed i { s with ctxs := t.ctxs } t h h' ∧ OnlyLanes h h' ∧ t.ctx h.ctx = f (s.ctx h.ctx) ∧ ∀ k, k ≠ h.ctx → t.ctx k = s.ctx k := by
  obtain ⟨h', hc, ho⟩ := retire_onlyLanes (u := s.modCtx h.ctx f) (issuing_of_eq hi rfl rfl)
  have hctxs := sameBut_ctxs hc.2.1
  have hout : ({ s with ctxs := (s.modCtx h.ctx f).retire.ctxs } : State) = s.modCtx h.ctx f := by rw [hctxs]; rfl
  have hctx : ∀ k, (s.modCtx h.ctx f).retire.ctx k = (s.modCtx h.ctx f).ctx k := fun k => by unfold State.ctx; rw [hctxs]
  refine ⟨_, h', rfl, by rw [hout]; exact hc, ho, ?_, fun k hk => ?_⟩
  · rw [hctx, ctx_modCtx, if_pos rfl]
  · rw [hctx, ctx_modCtx, if_neg hk]

/-- A change of one core outside the sheaf, then the issue retired. -/
theorem modCore_completed (hi : s.Issuing i h) (f : Core → Core) : ∃ t h', t = (s.modCore h.core f).retire ∧
    Completed i { s with cores := t.cores } t h h' ∧ OnlyLanes h h' ∧ t.core h.core = f (s.core h.core) ∧ ∀ k, k ≠ h.core → t.core k = s.core k := by
  obtain ⟨h', hc, ho⟩ := retire_onlyLanes (u := s.modCore h.core f) (issuing_of_eq hi rfl rfl)
  have hcores := sameBut_cores hc.2.1
  have hout : ({ s with cores := (s.modCore h.core f).retire.cores } : State) = s.modCore h.core f := by rw [hcores]; rfl
  have hcore : ∀ k, (s.modCore h.core f).retire.core k = (s.modCore h.core f).core k := fun k => by unfold State.core; rw [hcores]
  refine ⟨_, h', rfl, by rw [hout]; exact hc, ho, ?_, fun k hk => ?_⟩
  · rw [hcore, core_modCore, if_pos rfl]
  · rw [hcore, core_modCore, if_neg hk]

/-- Settles O24: reads by register, then one lemma for each of `lpc.rd`, `lpc.wr` and the writable registers. -/
theorem specialRegisters : Obligations.SpecialRegisters := by
  unfold Obligations.SpecialRegisters
  refine ⟨fun s h l => ⟨fun n hn => readS_scalar s h l hn, ?special, fun r hr => ?level, ?status, fun k _ => readS_loopCounter s h l k⟩,
    fun s i h d a b hi => ⟨?rd, exec_lpcWr_level0 hi a b, exec_lpcWr_high hi a b, ?wr⟩,
    fun s i h a b hi => ⟨?ctrl, ?statusWrite, ?nbudget, ?slewcy, exec_spcw_unprivileged hi a, exec_spcw_readOnly s a⟩⟩
  case special =>
    simp only [List.forall_mem_cons]
    exact ⟨rfl, rfl, rfl, rfl, rfl, rfl, rfl, rfl, rfl, rfl, rfl, rfl, rfl, rfl, rfl, rfl, rfl, rfl, rfl, fun _ hm => absurd hm List.not_mem_nil⟩
  case level =>
    rw [readS_special s h l (by decide) (by decide), readS_special s h l (by decide) (by decide), ← resOf_of_res? hr]
    exact ⟨rfl, rfl⟩
  case status =>
    rw [readS_special s h l (by decide) (by decide)]
    exact getLsbD_status s h
  case rd =>
    rw [exec_lpcRd hi d a]
    obtain ⟨h', hc, hw⟩ := scalarOp_spec hi d _
    exact ⟨_, h', rfl, hc, hw⟩
  case wr =>
    intro hl hb hk
    obtain ⟨h', hc, ho⟩ := setHeld_completed hi ((s.readS h (lowestLane i.lanes) a).toNat % 64)
      (s.readS h (lowestLane i.lanes) b)
    have hheld : ∀ l, l < h.lanes.length → (h'.lane l).held = _ := fun l hlt =>
      (moved_held hc.2.2.1 (by rw [length_setHeld]; exact hlt)).trans (held_setHeld h _ hlt)
    refine ⟨_, h', exec_lpcWr_sets hi a b hl hb, hc, ho, ?_, fun l hlt hne => ?_⟩
    · rw [hheld _ hk, if_pos rfl]
    · rw [hheld l hlt, if_neg hne]
  case ctrl =>
    obtain ⟨h', hc, he⟩ := writeCtrl_completed hi (s.readS h (lowestLane i.lanes) a)
    have hctrl : h'.ctrl = ctrlWrite _ := (congrArg Sheaf.ctrl he :).trans (writeCtrl_ctrl h _)
    refine ⟨_, h', exec_spcw_ctrl hi a, hc, ?_, ?_, ?_, fun hp => ?_, fun hp => ?_, ?_⟩
    · rw [hctrl, ctrlWrite_divtmr]
    · rw [hctrl, ctrlWrite_middle]
    · rw [hctrl, ctrlWrite_unused]
    · rw [writeCtrl_of_not_prog h hp] at he
      exact ⟨(congrArg Sheaf.favoured he :), (congrArg Sheaf.favouredOld he :), (congrArg Sheaf.yielded he :)⟩
    · rw [writeCtrl_of_prog h hp] at he
      exact ⟨(congrArg Sheaf.favoured he :), (congrArg Sheaf.favouredOld he :), (congrArg Sheaf.yielded he :)⟩
    · exact (congrArg (fun g : Sheaf => { g with ctrl := h.ctrl, favoured := h.favoured, favouredOld := h.favouredOld, yielded := h.yielded }) he :).trans
        (writeCtrl_frame h _)
  case statusWrite =>
    obtain ⟨hframe, hothers⟩ := statusWritten_frame hi (s.readS h (lowestLane i.lanes) a)
    obtain ⟨h', ⟨hs, hsame, hmoved, -⟩, he⟩ := retire_completed (statusWritten_issuing hi (s.readS h (lowestLane i.lanes) a))
      (sameBut_refl _ _) (h := h) rfl rfl
    refine ⟨_, h', exec_spcw_status hi a, hs, hmoved, fun k hk => ?_, (congrArg (fun g : Sheaf => { g with flags := h.flags }) he :), fun x => ?_,
      fun k hk => (hsame.2 k hk).trans (hothers k hk), ?_⟩
    · rw [show h'.flags = _ from (congrArg Sheaf.flags he :), clearFlags_bits h _ hk]
    · rw [State.team?, show (s.statusWritten h _).retire.teams = _ from (congrArg State.teams hsame.1 :)]
      exact statusWritten_team? hi _ x
    · exact (congrArg (fun u : State => { u with sheaves := s.sheaves, teams := s.teams }) hsame.1 :).trans hframe
  case nbudget =>
    intro hv
    obtain ⟨t, h', rfl, hc, ho, hctx, hothers⟩ := modCtx_completed hi fun c => { c with nbudget := clampBudget (s.readS h (lowestLane i.lanes) a) }
    exact ⟨_, h', exec_spcw_nbudget hi a hv, hc, ho, by rw [hctx, clampBudget_toNat], hothers⟩
  case slewcy =>
    intro hv
    obtain ⟨t, h', rfl, hc, ho, hcore, hothers⟩ := modCore_completed hi fun c => { c with slewcy := (s.readS h (lowestLane i.lanes) a).setWidth 32 }
    exact ⟨_, h', exec_spcw_slewcy hi a hv, hc, ho, by rw [hcore], hothers⟩

end Sys2Proof.Machine
end

section
/-! SUPPORT. Giving registers and scratch pages back (R99/04, R122/05, R341, R342/16). Settles O41. -/

namespace Sys2Proof.Machine

variable {s t u : State} {i : Issue} {h : Sheaf}

/-! ### `shrink` (R99/04, R341/16) -/

theorem budgetOk_iff (h : Sheaf) (l : Launch) (n : Nat) :
    budgetOk h l n = true ↔ n % 16 = 0 ∧ 128 ≤ n ∧ n ≤ l.budget ∧ h.wb + 128 ≤ n := by
  simp [budgetOk, and_assoc]

/-- A sheaf that has given up the registers from a budget on. -/
def Sheaf.shrunk (h : Sheaf) (n : Nat) : Sheaf := { h with budget := n, v := h.v.filter fun c => decide (c.1 / 64 < n) }

theorem virt_shrunk (h : Sheaf) (n : Nat) {l : Nat} (r : Nat) (hl : l < 64) : (h.shrunk n).virt l r = if r < n then h.virt l r else 0 := by
  have hreg : (r * 64 + l) / 64 = r := by omega
  have hkept := cget_filter_key (dflt := (0 : Word)) (fun k => decide (k / 64 < n)) h.v (r * 64 + l)
  simp only [hreg, decide_eq_true_eq] at hkept
  exact hkept

/-- A residency without the physical registers that a sheaf has given up. -/
def Res.dropFrom (r : Res) (id n : Nat) : Res :=
  { r with
    hot := r.hot.filter fun x => !(x.1 == id && decide (n ≤ x.2))
    cold := r.cold.filter fun x => !(x.1 == id && decide (n ≤ x.2)) }

theorem exec_shrink (hi : s.Issuing i h) {a n : Nat} (hn : (s.readS h (lowestLane i.lanes) a).toNat = n)
    (hb : budgetOk h (s.launchOf h) n = true) (hp : h.pend = []) :
    exec (.shrink a) s = .next ((s.modMe fun g => g.shrunk n).modRes h.core h.ctx fun r => r.dropFrom h.id n).retire := by
  show execShrink a s = _
  simp only [execShrink, src_of hi, me_of hi, hn, hb, not_true_eq_false, if_false, drain?_of_nothing hi hp]
  rfl

theorem exec_shrink_refused (hi : s.Issuing i h) {a : Nat}
    (hb : ¬ budgetOk h (s.launchOf h) (s.readS h (lowestLane i.lanes) a).toNat = true) :
    exec (.shrink a) s = .next (s.trapAll .space 0 0) := by
  show execShrink a s = _
  simp only [execShrink, src_of hi, me_of hi, if_pos hb]

theorem sameBut_setCores {k : Nat} (hs : SameBut k s t) (m : Cells Core) : SameBut k { s with cores := m } { t with cores := m } :=
  ⟨(congrArg (fun u : State => { u with cores := m }) hs.1 :), hs.2⟩

/-- A change of the sheaf that leaves its lanes alone, one of a core's residency, then the issue retired. -/
theorem modMe_modRes_completed (hi : s.Issuing i h) (f : Sheaf → Sheaf) (hf : ∀ g, (f g).id = g.id) (hl : (f h).lanes = h.lanes)
    (hw : (f h).watchSkip = h.watchSkip) (core ctx : Nat) (k : Res → Res) : ∃ t h', t = ((s.modMe f).modRes core ctx k).retire ∧
      Completed i { s with cores := t.cores } t h h' ∧ ({ h' with lanes := h.lanes, watchSkip := h.watchSkip } : Sheaf) = f h := by
  have hu : ((s.modMe f).modRes core ctx k).Issuing i (f h) := issuing_of_eq (issuing_modMe hi f hf) rfl rfl
  have hsame := sameBut_setCores (sameBut_modMe hi f hf) ((s.modMe f).modRes core ctx k).cores
  obtain ⟨h', hc, he⟩ := retire_completed hu hsame hl hw
  have hcores := sameBut_cores hc.2.1
  exact ⟨_, h', rfl, by rw [hcores]; exact hc, he⟩

/-! ### `spfree` (R122/05, R342/16) -/

/-- A team some of whose scratch pages have been given up: they are relocated, and read as 0. -/
def Team.freed (tm : Team) (lo bytes n : Nat) : Team :=
  { tm with
    reloc := ((List.range n).map fun k => lo + k) ++ tm.reloc.filter fun p => !(decide (lo ≤ p) && decide (p < lo + n))
    mem := tm.mem.filter fun c => !(decide (bytes ≤ c.1) && decide (c.1 < bytes + 4096 * n)) }

theorem freed_mem_get (tm : Team) (lo bytes n x : Nat) :
    (tm.freed lo bytes n).mem.get x = if bytes ≤ x ∧ x < bytes + 4096 * n then 0 else tm.mem.get x := by
  have hkept := cget_filter_key (dflt := (0 : Byte)) (fun k => !(decide (bytes ≤ k) && decide (k < bytes + 4096 * n))) tm.mem x
  refine hkept.trans ?_
  by_cases hx : bytes ≤ x ∧ x < bytes + 4096 * n
  · simp [hx]
  · rw [if_neg hx, if_pos (by simp; omega)]
    rfl

theorem mem_freed_reloc (tm : Team) (lo bytes n p : Nat) :
    p ∈ (tm.freed lo bytes n).reloc ↔ (lo ≤ p ∧ p < lo + n) ∨ p ∈ tm.reloc := by
  have hpage : (∃ k < n, lo + k = p) ↔ lo ≤ p ∧ p < lo + n :=
    ⟨fun ⟨k, hk, e⟩ => by omega, fun ⟨hlo, hhi⟩ => ⟨p - lo, by omega, by omega⟩⟩
  simp only [Team.freed, List.mem_append, List.mem_map, List.mem_range, hpage, List.mem_filter, Bool.not_eq_true', Bool.and_eq_false_iff,
    decide_eq_false_iff_not]
  by_cases hp : lo ≤ p ∧ p < lo + n
  · simp [hp]
  · simp only [hp, false_or, and_iff_left_iff_imp]
    omega

/-- Listing the pages to move anew changes cores alone. -/
theorem relist_frame (s : State) (ctx : Nat) (m : Cells Core) : ({ s.relist ctx with cores := m } : State) = { s with cores := m } := by
  unfold State.relist
  generalize s.cores = cs
  induction cs generalizing s with
  | nil => rfl
  | cons c cs ih =>
    rw [List.foldl_cons, ih]
    rfl

theorem relist_eq (s : State) (ctx : Nat) : s.relist ctx = { s with cores := (s.relist ctx).cores } := relist_frame s ctx (s.relist ctx).cores

section
variable (hi : s.Issuing i h) {d a b : Nat}
include hi

theorem exec_spfree_align (hx : (s.readS h (lowestLane i.lanes) a).toNat % 4096 ≠ 0) :
    exec (.spfree d a b) s = .next (s.trapAll .align 0 (s.readS h (lowestLane i.lanes) a)) := by
  show execSpfree d a b s = _
  simp only [execSpfree, src_of hi, if_pos hx]

variable (hx : (s.readS h (lowestLane i.lanes) a).toNat % 4096 = 0)
include hx

theorem exec_spfree_noTeam (ht : s.teamIn h d = none) : exec (.spfree d a b) s = .next (s.trapAll .space 0 0) := by
  show execSpfree d a b s = _
  simp only [execSpfree, src_of hi, me_of hi, hx, ne_eq, not_true_eq_false, if_false, ht]

variable {tm : Team} (ht : s.teamIn h d = some tm) {m : Nat} (hm : (s.readS h (lowestLane i.lanes) b).toNat = m)
include ht hm

theorem exec_spfree_refused (hb : 2 ≤ tm.scope ∨ m = 0 ∨ tm.allocated < (s.readS h (lowestLane i.lanes) a).toNat + 4096 * m ∨
    (s.readS h (lowestLane i.lanes) a).toNat < tm.floor) : exec (.spfree d a b) s = .next (s.trapAll .space 0 0) := by
  show execSpfree d a b s = _
  simp only [execSpfree, src_of hi, me_of hi, hx, hm, ne_eq, not_true_eq_false, if_false, ht, if_pos hb]

theorem exec_spfree_frees (hb : ¬ (2 ≤ tm.scope ∨ m = 0 ∨ tm.allocated < (s.readS h (lowestLane i.lanes) a).toNat + 4096 * m ∨
    (s.readS h (lowestLane i.lanes) a).toNat < tm.floor)) : exec (.spfree d a b) s = .next ((s.modTeam tm.id fun x =>
      x.freed ((s.readS h (lowestLane i.lanes) a).toNat / 4096) (s.readS h (lowestLane i.lanes) a).toNat m).relist tm.ctx).retire := by
  show execSpfree d a b s = _
  simp only [execSpfree, src_of hi, me_of hi, hx, hm, ne_eq, not_true_eq_false, if_false, ht, if_neg hb]
  rfl

end

theorem teamIn_found {d : Nat} {tm : Team} (ht : s.teamIn h d = some tm) : s.team? tm.id = some tm := by
  unfold State.teamIn at ht
  split at ht
  · rw [team?_id ht]
    exact ht
  · cases ht

/-- A change of one team, with pages listed anew, then the issue retired. -/
theorem modTeam_relist_completed (hi : s.Issuing i h) {tm : Team} (ht : s.team? tm.id = some tm) (f : Team → Team)
    (hf : ∀ x, (f x).id = x.id) (ctx : Nat) : ∃ t h', t = ((s.modTeam tm.id f).relist ctx).retire ∧
      Completed i { s with teams := t.teams, cores := t.cores } t h h' ∧ OnlyLanes h h' ∧ t.team? tm.id = some (f tm) ∧
      ∀ k, k ≠ tm.id → t.team? k = s.team? k := by
  rw [relist_eq]
  generalize ((s.modTeam tm.id f).relist ctx).cores = m
  obtain ⟨h', hc, ho⟩ := retire_onlyLanes (u := { s.modTeam tm.id f with cores := m }) (issuing_of_eq hi rfl rfl)
  have hteams : ({ s.modTeam tm.id f with cores := m } : State).retire.teams = (s.modTeam tm.id f).teams := (congrArg State.teams hc.2.1.1 :)
  have hcores := sameBut_cores hc.2.1
  have hteam : ∀ k, ({ s.modTeam tm.id f with cores := m } : State).retire.team? k = (s.modTeam tm.id f).team? k :=
    fun k => by unfold State.team?; rw [hteams]
  refine ⟨_, h', rfl, by rw [hteams, hcores]; exact hc, ho, ?_, fun k hk => ?_⟩
  · rw [hteam, team?_modTeam s tm.id f fun x hx => (hf x).trans hx, ht, Option.map_some]
  · rw [hteam, team?_modTeam_other s f hf hk]

/-- Settles O41: `shrink` by the registers it keeps, `spfree` by the pages it names. -/
theorem givingBack : Obligations.GivingBack := by
  unfold Obligations.GivingBack
  intro s i h d a b hi
  refine ⟨fun hok hp => ?shrinks, fun hno => ?refused, exec_spfree_align hi, exec_spfree_noTeam hi, fun tm ht hx => ⟨fun hok => ?frees, fun hno => ?keeps⟩⟩
  case shrinks =>
    obtain ⟨t, h', rfl, hc, he⟩ := modMe_modRes_completed hi (fun g => g.shrunk (s.readS h (lowestLane i.lanes) a).toNat) (fun _ => rfl) rfl rfl
      h.core h.ctx fun r => r.dropFrom h.id (s.readS h (lowestLane i.lanes) a).toNat
    have hv : h'.v = (h.shrunk _).v := (congrArg Sheaf.v he :)
    refine ⟨_, h', exec_shrink hi rfl ((budgetOk_iff _ _ _).mpr hok) hp, hc, (congrArg Sheaf.budget he :), fun l r hl => ?_,
      (congrArg (fun g : Sheaf => { g with budget := h.budget, v := h.v }) he :)⟩
    rw [Sheaf.virt, hv]
    exact virt_shrunk h _ r hl
  case refused =>
    exact exec_shrink_refused hi fun hb => hno ((budgetOk_iff _ _ _).mp hb)
  case frees =>
    obtain ⟨hscope, hone, hfits, hfloor⟩ := hok
    obtain ⟨t, h', rfl, hc, ho, hteam, hothers⟩ := modTeam_relist_completed hi (teamIn_found ht)
      (fun x => x.freed ((s.readS h (lowestLane i.lanes) a).toNat / 4096) (s.readS h (lowestLane i.lanes) a).toNat
        (s.readS h (lowestLane i.lanes) b).toNat) (fun _ => rfl) tm.ctx
    exact ⟨_, h', _, exec_spfree_frees hi hx ht rfl (by omega), hc, ho, hteam, freed_mem_get tm _ _ _, mem_freed_reloc tm _ _ _, rfl, hothers⟩
  case keeps =>
    exact exec_spfree_refused hi hx ht rfl (by omega)

end Sys2Proof.Machine
end

section
/-! SUPPORT. A load made again as an acquire clears what its core remembers of wide completions (R130/05, R235/11, R330/16), which is no cache.
Refutes O50. -/

namespace Sys2Proof.Machine

variable {s t : State}

/-- What a residency remembers of wide completions stays as it was where only caches differ. -/
theorem onlyCaches_wide (hc : OnlyCaches s t) (h : Sheaf) : (t.resOf h).wide = (s.resOf h).wide := by
  have hres : (t.core h.core).res = (s.core h.core).res := (congrArg Core.res (hc.2.1 h.core) :)
  unfold State.resOf Core.res?
  rw [hres]

/-- The lanes for which a faulted load is made again after a mapping (R210/10, R235/11), as LOAD_FAULT_MAPPING_MADE finds them. -/
def State.askedAgain (s : State) (h : Sheaf) (p : Pending) (r : Replay) : List LaneAccess :=
  r.lanes.filter fun x => ((s.unstored h p).faults.filter fun f =>
    f.mappable && !((s.unstored h p).stored.any fun y => y.1 == f.lane) &&
      !(r.lanes.any fun y => y.lane == f.lane && s.behindEarlier h p r y)).any fun f => f.lane == x.lane

/-! ### A state in which an acquire is made again -/

/-- A load of lane 0, an acquire of device scope, that has met no mapping of address 0. -/
def acquireAgain : Replay := ⟨.xlate2, .gl, .b32, some (.dev, .acq), 5, [⟨0, 0⟩], 0x1000⟩

def acquirePending : Pending := { id := 3, pc := 0x1000, lanes := 1, faults := [⟨0, .xlate2, 0⟩], again := some acquireAgain }

def acquiringSheaf : Sheaf := { tSheaf with pend := [acquirePending] }

/-- The mapping has been made, and a job of cluster scope or wider has raised token counter 0 since the core's last L1 invalidation. -/
def acquiringState : State :=
  { tBy tIssue acquiringSheaf with
    cores := [(0, { tCore with res := [{ ctx := 0, wide := [true, false, false, false, false, false, false, false] }] })] }

theorem acquiringState_asked : acquiringState.askedAgain acquiringSheaf acquirePending acquireAgain = [⟨0, 0⟩] := by decide +kernel

/-- Register 5 is brought in, and the core still remembers the wide completion. -/
theorem acquiringState_touched_wide : ((acquiringState.touchRegs acquiringSheaf [5]).2.resOf acquiringSheaf).wide.getD 0 false = true := by
  decide +kernel

/-- The load of lane 0 made again is performed, and the core remembers the wide completion no more. -/
theorem acquiringState_replayed_wide :
    ((acquiringState.replayLoad acquiringSheaf acquireAgain [⟨0, 0⟩]).2.resOf acquiringSheaf).wide.getD 0 false = false := by decide +kernel

/-- Refutes O50: of a mapping made for a faulted load it says that only caches differ once the load is made again. That of an acquire at cluster
scope or wider also clears, with the core's L1, the record of the token counters that wide jobs have raised: in `acquiringState` that of
counter 0. -/
theorem not_sheafEvents : ¬ Obligations.SheafEvents := by
  unfold Obligations.SheafEvents
  intro hall
  obtain ⟨-, -, hmade, -⟩ := hall acquiringState 1 acquiringSheaf rfl
  obtain ⟨-, hcaches, -⟩ := hmade 3 acquirePending acquireAgain rfl rfl
  have hwide : ((acquiringState.replayLoad acquiringSheaf acquireAgain (acquiringState.askedAgain acquiringSheaf acquirePending acquireAgain)).2.resOf
      acquiringSheaf).wide = ((acquiringState.touchRegs acquiringSheaf [5]).2.resOf acquiringSheaf).wide :=
    onlyCaches_wide hcaches acquiringSheaf
  rw [acquiringState_asked] at hwide
  have hkept := acquiringState_touched_wide
  rw [← hwide, acquiringState_replayed_wide] at hkept
  exact absurd hkept (by decide)

end Sys2Proof.Machine
end

section
/-! SUPPORT. What an access's place reads and writes, and what every other memory keeps (R119, R120, R131/05). Settles O30. -/

namespace Sys2Proof.Machine

/-! ### The writes of a place, by the memory it names -/

/-- A sheaf with bytes written in its lanes' slices (R119/05). -/
def Sheaf.putSlice (h : Sheaf) (a : Nat) (bs : List Byte) : Sheaf := { h with slice := h.slice.write a bs }

/-- A team with bytes written in its scratch (R120/05). -/
def Team.putScratch (t : Team) (a : Nat) (bs : List Byte) : Team := { t with mem := t.mem.write a bs }

theorem writeTarget_slice (s : State) (h : Sheaf) (l off : Nat) (bs : List Byte) (sys : Bool) :
    s.writeTarget h (.slice l off) bs sys = s.modSheaf h.id fun g => g.putSlice (l * 1024 + off) bs := rfl

theorem writeTarget_team (s : State) (h : Sheaf) (id off : Nat) (bs : List Byte) (sys : Bool) :
    s.writeTarget h (.team id off) bs sys = s.modTeam id fun t => t.putScratch off bs := rfl

/-- Below the peers' memory a write at the home slice is a write of memory (R131/05). -/
theorem homeWrite_below {hpa : Nat} (hp : hpa < peerBase) (s : State) (bs : List Byte) (sys : Bool) :
    s.homeWrite hpa bs sys = { s with mem := s.mem.write hpa bs } := if_pos (.inl hp)

theorem writeTarget_barn {hpa : Nat} (hp : hpa < peerBase) (s : State) (h : Sheaf) (bs : List Byte) (sys : Bool) :
    s.writeTarget h (.host none hpa) bs sys = { s with mem := s.mem.write hpa bs } := homeWrite_below hp s bs false

/-- Outside the revisioned regions a write of `.gl` is one at the home slice. -/
theorem glWrite_unrevised {s : State} {ctx va : Nat} (hr : (s.ctx ctx).regionOf va = none) (rev hpa : Nat) (bs : List Byte) (sys : Bool) :
    s.glWrite ctx rev va hpa bs sys = s.homeWrite hpa bs sys := by rw [State.glWrite, hr]

/-- A write of `.gl` below the peers' memory and outside the regions: memory, and what the core's L1 holds of the line (R130/05). -/
theorem writeTarget_global {s : State} {h : Sheaf} {hpa va : Nat} (hp : hpa < peerBase) (hr : (s.ctx h.ctx).regionOf va = none)
    (bs : List Byte) (sys : Bool) :
    ∃ f, s.writeTarget h (.host (some va) hpa) bs sys = ({ s with mem := s.mem.write hpa bs } : State).modCore h.core f := by
  have hthrough : s.writeTarget h (.host (some va) hpa) bs sys = s.storeThrough h.core h.ctx h.rev va hpa bs sys :=
    if_neg fun hpeer => absurd hp (Nat.not_lt.mpr hpeer.1)
  rw [hthrough, State.storeThrough, glWrite_unrevised hr, homeWrite_below hp]
  exact ⟨_, rfl⟩

/-- Settles O30: each place by the write of the one memory that it names. -/
theorem placesReadAndWrite : Obligations.PlacesReadAndWrite := by
  unfold Obligations.PlacesReadAndWrite
  refine fun s h bs => ⟨fun l off hh => ?slice, fun id off t ht => ?team, fun hpa hp => ?barn, fun va hpa hp hr => ?global⟩
  case slice =>
    rw [writeTarget_slice]
    refine ⟨h.putSlice (l * 1024 + off) bs, ?_, memory_read_write_same _ _ _, fun a ha => memory_get_write_outside _ _ _ _ ha,
      sameBut_modSheaf s _ _ fun _ => rfl⟩
    rw [sheaf?_modSheaf s h.id h.id (fun g => g.putSlice (l * 1024 + off) bs) fun _ => rfl, if_pos rfl, hh, Option.map_some]
  case team =>
    rw [writeTarget_team]
    refine ⟨t.putScratch off bs, ?_, memory_read_write_same _ _ _, fun a ha => memory_get_write_outside _ _ _ _ ha, rfl,
      fun k hk => team?_modTeam_other s _ (fun _ => rfl) hk, rfl⟩
    rw [team?_modTeam s id (fun x => x.putScratch off bs) fun _ hx => hx, ht, Option.map_some]
  case barn =>
    rw [writeTarget_barn hp]
    exact ⟨memory_read_write_same _ _ _, fun a ha => memory_get_write_outside _ _ _ _ ha, rfl⟩
  case global =>
    obtain ⟨f, hf⟩ := writeTarget_global hp hr bs false
    rw [hf]
    exact ⟨memory_read_write_same _ _ _, fun a ha => memory_get_write_outside _ _ _ _ ha, rfl⟩

end Sys2Proof.Machine
end

section
/-! SUPPORT. Accesses of a lane's own slice: the checks pass and change nothing, a read is of the lane's bytes, and the writes of the lanes lie apart
(R116, R119/05, R306, R307/15). Settles O27. -/

namespace Sys2Proof.Machine

variable {s : State} {i : Issue} {h : Sheaf}

/-- The place that a lane's address names in its own slice. -/
def ownPlace (A : Nat → Dword) (l : Nat) : Nat × Target := (l, .slice l (A l).toNat)

/-- Is a lane's access aligned, and inside its slice? -/
def InOwnSlice (size bytes : Nat) (A : Nat → Dword) (l : Nat) : Prop := (A l).toNat % bytes = 0 ∧ (A l).toNat + bytes ≤ size

/-! ### Checks and waits -/

theorem resolve_own {k : AccKind} {bytes : Nat} {A : Nat → Dword} {l : Nat} (hl : InOwnSlice (s.launchOf h).slicesSize bytes A l) :
    s.resolve h k .ln (A l) bytes l = (.ok (ownPlace A l).2, s) := by
  obtain ⟨haligned, hinside⟩ := hl
  unfold State.resolve
  simp [haligned, hinside, ownPlace]

theorem checkLanes_own {k : AccKind} {bytes : Nat} {A : Nat → Dword} {ls : List Nat}
    (hl : ∀ l ∈ ls, InOwnSlice (s.launchOf s.me).slicesSize bytes A l) :
    s.checkLanes k .ln bytes A ls = (⟨ls.map (ownPlace A), []⟩, s) := by
  induction ls with
  | nil => rfl
  | cons l ls ih =>
    unfold State.checkLanes
    simp only [resolve_own (hl l List.mem_cons_self), ih fun x hx => hl x (List.mem_cons_of_mem l hx)]
    rfl

/-- No watchpoint watches a lane's slice (R381/18). -/
theorem watchLanes_own (s : State) (k : AccKind) (bytes : Nat) (A : Nat → Dword) : s.watchLanes k .ln bytes A = [] := by
  simp [State.watchLanes, State.watched, Watch.hits, spaceCode]

theorem meetsRemote_own (s : State) (n bytes : Nat) (A : Nat → Dword) (ls : List Nat) :
    s.meetsRemote n (ls.map (ownPlace A)) bytes = false := by
  simp [State.meetsRemote, ownPlace]

theorem storeWaits_own (s : State) (g : Sheaf) (A : Nat → Dword) (ls : List Nat) : s.storeWaits g (ls.map (ownPlace A)) = false := by
  induction ls with
  | nil => rfl
  | cons l ls ih => exact ih

theorem localWait_own {bytes : Nat} {A : Nat → Dword} {ls : List Nat} (hb : s.behindLoad .ln bytes A ls = none) :
    s.localWait? .ln bytes A (ls.map (ownPlace A)) false = none := by
  have hlanes : (ls.map (ownPlace A)).map (fun x => x.1) = ls := by
    rw [List.map_map]
    exact List.map_id ls
  simp [State.localWait?, meetsRemote_own, hlanes, hb]

theorem readLanes_own (s : State) (bytes reg : Nat) (m : LoadMode) (A : Nat → Dword) (ls : List Nat) :
    s.readLanes bytes reg m (ls.map (ownPlace A)) =
      (ls.flatMap fun l => loadVals l reg (s.me.slice.read (l * 1024 + (A l).toNat) bytes), s) := by
  induction ls with
  | nil => rfl
  | cons l ls ih => simp [State.readLanes, State.readTarget, ownPlace, ih]

/-! ### Writes of the lanes -/

/-- A sheaf with each lane's bytes written in its own slice. -/
def Sheaf.putOwn (h : Sheaf) (A : Nat → Dword) (data : Nat → List Byte) (ls : List Nat) : Sheaf :=
  ls.foldl (fun g l => g.putSlice (l * 1024 + (A l).toNat) (data l)) h

theorem putOwn_frame (h : Sheaf) (A : Nat → Dword) (data : Nat → List Byte) (ls : List Nat) (m : Memory) :
    ({ h.putOwn A data ls with slice := m } : Sheaf) = { h with slice := m } :=
  foldl_keep (fun (g : Sheaf) l => g.putSlice (l * 1024 + (A l).toNat) (data l)) (fun g => ({ g with slice := m } : Sheaf)) (fun _ _ => rfl) ls h

theorem writeLanes_own (hi : s.Issuing i h) (A : Nat → Dword) (data : Nat → List Byte) (sys : Bool) (ls : List Nat) :
    s.writeLanes data sys (ls.map (ownPlace A)) = s.modMe fun g => g.putOwn A data ls := by
  induction ls generalizing s h with
  | nil =>
    rw [modMe_of hi]
    show s = { s with sheaves := s.sheaves.map fun g => if g.id = i.sheaf then g else g }
    simp
  | cons l ls ih =>
    have hme : s.writeTarget s.me (ownPlace A l).2 (data l) sys = s.modMe fun g => g.putSlice (l * 1024 + (A l).toNat) (data l) := by
      rw [me_of hi, modMe_of hi, ← sheaf?_id hi.2]
      rfl
    have hi' := issuing_modMe hi (fun g => g.putSlice (l * 1024 + (A l).toNat) (data l)) fun _ => rfl
    show (s.writeTarget s.me (ownPlace A l).2 (data l) sys).writeLanes data sys (ls.map (ownPlace A)) = _
    rw [hme, ih hi', modMe_of hi', modMe_of hi, modMe_of hi, modSheaf_modSheaf]
    · rfl
    · exact fun _ => rfl

/-- A byte that no lane's bytes cover is as it was. -/
theorem putOwn_get_outside {h : Sheaf} {A : Nat → Dword} {data : Nat → List Byte} {ls : List Nat} {a : Nat}
    (ha : ∀ l ∈ ls, a < l * 1024 + (A l).toNat ∨ l * 1024 + (A l).toNat + (data l).length ≤ a) :
    (h.putOwn A data ls).slice.get a = h.slice.get a := by
  induction ls generalizing h with
  | nil => rfl
  | cons l ls ih =>
    exact (ih fun x hx => ha x (List.mem_cons_of_mem l hx)).trans (memory_get_write_outside _ _ _ _ (ha l List.mem_cons_self))

/-- A lane's bytes stand in its slice, since the lanes' slices lie apart. -/
theorem putOwn_get_inside {h : Sheaf} {A : Nat → Dword} {data : Nat → List Byte} {ls : List Nat} {l k : Nat}
    (hfit : ∀ x ∈ ls, (A x).toNat + (data x).length ≤ 1024) (hd : ls.Nodup) (hl : l ∈ ls) (hk : k < (data l).length) :
    (h.putOwn A data ls).slice.get (l * 1024 + (A l).toNat + k) = (data l).getD k 0 := by
  induction ls generalizing h with
  | nil => cases hl
  | cons x ls ih =>
    obtain ⟨hx, hd'⟩ := List.nodup_cons.mp hd
    by_cases hin : l ∈ ls
    · exact ih (fun y hy => hfit y (List.mem_cons_of_mem x hy)) hd' hin
    · have hlx : l = x := (List.mem_cons.mp hl).resolve_right hin
      subst hlx
      have hlater : ∀ y ∈ ls, l * 1024 + (A l).toNat + k < y * 1024 + (A y).toNat ∨
          y * 1024 + (A y).toNat + (data y).length ≤ l * 1024 + (A l).toNat + k := by
        intro y hy
        have hne : y ≠ l := fun e => hin (e ▸ hy)
        have hfitl := hfit l List.mem_cons_self
        have hfity := hfit y (List.mem_cons_of_mem l hy)
        omega
      refine (putOwn_get_outside hlater).trans ((memory_get_write_inside _ _ _ _ hk).trans ?_)
      rw [List.getD_eq_getElem?_getD, List.getElem?_eq_getElem hk, Option.getD_some]

/-! ### The two operations -/

@[simp] theorem length_bytesOfNat (n x : Nat) : (bytesOfNat n x).length = n := by
  induction n generalizing x with
  | zero => rfl
  | succ n ih => simp [bytesOfNat, ih]

theorem length_storeBytes (h : Sheaf) (w : Width) (l d : Nat) : (h.storeBytes w l d).length = w.bytes := by
  cases w <;> simp [Sheaf.storeBytes, Width.bytes, Width.code]

theorem ea_vec (hi : s.Issuing i h) (b k bytes l : Nat) : s.ea b (.vec k) bytes l = h.sget b + (h.vget l k).setWidth 64 := by
  rw [State.ea, me_of hi]

theorem ea_imm (hi : s.Issuing i h) (b k bytes l : Nat) : s.ea b (.imm k) bytes l = h.sget b + BitVec.ofNat 64 (k * bytes) := by
  rw [State.ea, me_of hi]

/-- The pending destination of a load of the lanes' own slices. -/
def State.ownPending (s : State) (i : Issue) (h : Sheaf) (w : Width) (d n : Nat) (A : Nat → Dword) (id : Nat) : Pending :=
  { id := id, pc := i.pc, lanes := i.lanes, since := s.now
    nearby := s.landsSoon h .ln w.bytes ⟨(lanesOf i.lanes).map (ownPlace A), []⟩
    vals := (lanesOf i.lanes).flatMap fun l => loadVals l (h.wb + d) (h.slice.read (l * 1024 + (A l).toNat) w.bytes)
    regs := (List.range (widthRegs w)).map fun k => h.wb + d + k
    again := some ⟨.illop, .ln, w, none, h.wb + d, [], i.pc⟩
    windows := windowsOf (lanesOf i.lanes) n }

section
variable {w : Width} {A : Nat → Dword} (hi : s.Issuing i h)
  (hfit : ∀ l, l < 64 → i.lanes.getLsbD l → InOwnSlice (s.launchOf h).slicesSize w.bytes A l)
include hi hfit

theorem checkLanes_active (k : AccKind) :
    s.checkLanes k .ln w.bytes A (lanesOf s.active) = (⟨(lanesOf i.lanes).map (ownPlace A), []⟩, s) := by
  rw [active_of hi]
  refine checkLanes_own fun l hl => ?_
  rw [me_of hi]
  exact hfit l ((mem_lanesOf _ _).mp hl).1 ((mem_lanesOf _ _).mp hl).2

variable (ho : s.orderWait? true false = none) (hb : s.behindLoad .ln w.bytes A (lanesOf i.lanes) = none)
include ho hb

theorem loadOp_own (hr : i.regback = none) (d n : Nat) :
    s.loadOp .ln w d n A none = (s.addPending (s.ownPending i h w d n A)).retire := by
  have hchecks : s.loadChecks .ln w.bytes A = (⟨(lanesOf i.lanes).map (ownPlace A), []⟩, s) := by
    unfold State.loadChecks
    rw [hi.1, Option.bind_some, hr]
    exact checkLanes_active hi hfit .load
  unfold State.loadOp
  simp only [ho, watchLanes_own, trapLanes_nil, hchecks, localWait_own hb, readLanes_own, me_of hi, active_of hi, issuePc_of hi]
  rfl

theorem storeOp_own (d : Nat) : s.storeOp .ln w d A none =
    (s.modMe fun g => g.putOwn A (fun l => h.storeBytes w l d) (lanesOf i.lanes)).retire := by
  unfold State.storeOp
  simp only [ho, checkLanes_active hi hfit, watchLanes_own, List.append_nil, trapLanes_nil, storeWaits_own, localWait_own hb, me_of hi,
    Bool.false_eq_true, if_false]
  rw [writeLanes_own hi]

end

/-- An added pending destination, and the issue retired: a number is used, and the sheaf has the destination (R257/12). -/
theorem addPending_retire (hi : s.Issuing i h) (p : Nat → Pending) :
    ∃ h', Completed i { s with nextId := s.nextId + 1 } (s.addPending p).retire h h' ∧ AddsPending (p s.nextId) {} h h' := by
  have hi' : ({ s with nextId := s.nextId + 1 } : State).Issuing i h := issuing_of_eq hi rfl rfl
  obtain ⟨h', hc, he⟩ := modMe_retire hi' (fun g => { g with pend := g.pend ++ [p s.nextId] }) (fun _ => rfl) rfl rfl
  refine ⟨h', hc, (congrArg Sheaf.pend he :), ?_, ?_, (congrArg (fun g : Sheaf => { g with pend := h.pend, flags := h.flags, raised := h.raised }) he :)⟩
  · rw [flags_or_empty]; exact (congrArg Sheaf.flags he :)
  · rw [flags_or_empty]; exact (congrArg Sheaf.raised he :)

/-- Settles O27: the load by its pending destination, the store by the bytes that each lane writes in its slice. -/
theorem ownSliceAccesses : Obligations.OwnSliceAccesses := by
  unfold Obligations.OwnSliceAccesses
  intro s i h d b n w x hi hr ho A size hfit hb
  have hea : s.ea b x w.bytes = A := by
    funext l
    cases x with
    | vec k => exact ea_vec hi b k w.bytes l
    | imm k => exact ea_imm hi b k w.bytes l
  refine ⟨?load, fun hsize => ?store⟩
  case load =>
    obtain ⟨h', hc, ha⟩ := addPending_retire hi (s.ownPending i h w d n A)
    refine ⟨_, h', ?_, hc, ha⟩
    show Host.Outcome.next (s.loadOp .ln w d n (s.ea b x w.bytes) none) = _
    rw [hea]
    exact congrArg Host.Outcome.next (loadOp_own hi hfit ho hb hr d n)
  case store =>
    have hframe := putOwn_frame h A (fun l => h.storeBytes w l d) (lanesOf i.lanes)
    obtain ⟨h', hc, he⟩ := modMe_retire hi (fun g => g.putOwn A (fun l => h.storeBytes w l d) (lanesOf i.lanes))
      (fun g => (congrArg Sheaf.id (putOwn_frame g A _ _ g.slice) :)) (congrArg Sheaf.lanes (hframe h.slice) :)
      (congrArg Sheaf.watchSkip (hframe h.slice) :)
    obtain ⟨hsheaf, hsame, hmoved, -⟩ := hc
    have hslice : h'.slice = (h.putOwn A (fun l => h.storeBytes w l d) (lanesOf i.lanes)).slice := (congrArg Sheaf.slice he :)
    refine ⟨_, h', ?_, hsheaf, hsame, hmoved, (congrArg (fun g : Sheaf => { g with slice := h.slice }) he :).trans (hframe h.slice),
      fun l k hl hact hk => ?_, fun a ha => ?_⟩
    · show Host.Outcome.next (s.storeOp .ln w d (s.ea b x w.bytes) none) = _
      rw [hea]
      exact congrArg Host.Outcome.next (storeOp_own hi hfit ho hb d)
    · rw [hslice]
      refine putOwn_get_inside (fun y hy => ?_) (nodup_lanesOf _) ((mem_lanesOf _ _).mpr ⟨hl, hact⟩) (by rw [length_storeBytes]; exact hk)
      obtain ⟨hy64, hyact⟩ := (mem_lanesOf _ _).mp hy
      rw [length_storeBytes]
      exact (hfit y hy64 hyact).2.trans hsize
    · rw [hslice]
      refine putOwn_get_outside fun l hl => ?_
      obtain ⟨hl64, hact⟩ := (mem_lanesOf _ _).mp hl
      rw [length_storeBytes]
      exact ha l hl64 hact

end Sys2Proof.Machine
end

section
/-! SUPPORT. The memory stays in its canonical form (R131/05). Few operations write memory (the writes of host, guest and home memory, of reports and
of pages, the loss of a link, module reset), and each does so by writing cells or by dropping them. Every other operation changes memory only
through these: one lemma for each, in the order of the model, from the lemmas of the operations it is made of.
Here: the accessors of the state, memory and its caches, registers, and the ends of sheaves. Settles O59. -/

namespace Sys2Proof.Machine

variable {s t : State} {a core ctx hline hpa id info line n rev va vline : Nat} {addr : Dword} {bs : List Byte} {cause : Cause} {f : Sheaf → Sheaf}
  {h : Sheaf} {k : AccKind} {sys : Bool} {x2 : Target}

theorem memOk_foldl {β : Type} {g : State → β → State} (hg : ∀ s x, s.memOk → (g s x).memOk) (hs : s.memOk) (xs : List β) :
    (xs.foldl g s).memOk := by
  induction xs generalizing s with
  | nil => exact hs
  | cons x xs ih => exact ih (hg s x hs)

theorem memOk_foldl_snd {α β : Type} {g : α × State → β → α × State} (hg : ∀ q x, q.2.memOk → (g q x).2.memOk)
    {q : α × State} (hq : q.2.memOk) (xs : List β) : (xs.foldl g q).2.memOk := by
  induction xs generalizing q with
  | nil => exact hq
  | cons x xs ih => exact ih (hg q x hq)

theorem wf_foldl {β : Type} {g : Memory → β → Memory} (hg : ∀ m x, m.wf = true → (g m x).wf = true) {m : Memory} (hm : m.wf = true)
    (xs : List β) : (xs.foldl g m).wf = true := by
  induction xs generalizing m with
  | nil => exact hm
  | cons x xs ih => exact ih (hg m x hm)

/-- If an outcome is a next state, that state's memory is in its canonical form. -/
def OutOk : Out → Prop
  | .next t => t.memOk
  | .fault _ | .refused _ => True

theorem wf_putErrors {m : Memory} (hm : m.wf = true) (base : Nat) (start : BitVec 32) (rs : List ErrorRecord) :
    (m.putErrors base start rs).wf = true := by
  unfold Memory.putErrors
  generalize start = b
  induction rs generalizing m b with
  | nil => exact hm
  | cons r rs ih => exact ih (memory_wf_write m _ _ hm) _

/-- Changing bytes in place, and dropping those that then read as unwritten, keeps the form. -/
theorem wf_map_filter {m : Memory} (f : Host.Cell → Host.Cell) (hf : ∀ c, (f c).1 = c.1) (hm : m.wf = true) :
    Memory.wf ((m.map f).filter fun c => !(c.2 == Config.unwritten)) = true := by
  unfold Memory.wf at *
  induction m with
  | nil => rfl
  | cons c m ih =>
    obtain ⟨-, habove, hm'⟩ := (cwf_cons c.1 c.2 m).mp hm
    rw [List.map_cons]
    by_cases hd : (f c).2 = Config.unwritten
    · rw [List.filter_cons_of_neg (by simp [hd])]
      exact ih hm'
    · rw [List.filter_cons_of_pos (by simp [hd])]
      refine (cwf_cons _ _ _).mpr ⟨hd, fun d hd' => ?_, ih hm'⟩
      obtain ⟨e, he, rfl⟩ := List.mem_map.mp (List.mem_filter.mp hd').1
      rw [hf, hf]
      exact habove e he

theorem memOk_getD {o : Option State} (ho : ∀ t, o = some t → t.memOk) (hs : s.memOk) : (o.getD s).memOk := by
  cases o with
  | none => exact hs
  | some t => exact ho t rfl

/-! ### Accessors of the state -/

theorem memOk_modCore {c : Nat} {f : Core → Core} (hs : s.memOk) : (s.modCore c f).memOk := hs

theorem memOk_modField {f : FieldState → FieldState} (hs : s.memOk) : (s.modField n f).memOk := hs

theorem memOk_modCtx {f : Context → Context} (hs : s.memOk) : (s.modCtx n f).memOk := hs

theorem memOk_modQueue {f : Queue → Queue} (hs : s.memOk) : (s.modQueue n f).memOk := hs

theorem memOk_modRamp {f : Ramp → Ramp} (hs : s.memOk) : (s.modRamp n f).memOk := hs

theorem memOk_mapCores {f : Core → Core} (hs : s.memOk) : (s.mapCores f).memOk := hs

theorem memOk_mapFields {f : FieldState → FieldState} (hs : s.memOk) : (s.mapFields f).memOk := hs

theorem memOk_mapSheaves (hs : s.memOk) : (s.mapSheaves f).memOk := hs

theorem memOk_modSheaf (hs : s.memOk) : (s.modSheaf id f).memOk := by grind [State.modSheaf, State.memOk]

theorem memOk_modTeam {f : Team → Team} (hs : s.memOk) : (s.modTeam id f).memOk := by grind [State.modTeam, State.memOk]

theorem memOk_modLaunch {f : Launch → Launch} (hs : s.memOk) : (s.modLaunch id f).memOk := by grind [State.modLaunch, State.memOk]

theorem memOk_modJob {f : Job → Job} (hs : s.memOk) : (s.modJob id f).memOk := by grind [State.modJob, State.memOk]

theorem memOk_modRes {f : Res → Res} (hs : s.memOk) : (s.modRes core ctx f).memOk := by grind [State.modRes, memOk_modCore]

theorem memOk_pick {ways : Nat} (hs : s.memOk) : (s.pick ways).2.memOk := hs

theorem memOk_flip (hs : s.memOk) : s.flip.2.memOk := hs

theorem memOk_fresh (hs : s.memOk) : s.fresh.2.memOk := hs

theorem memOk_modMe (hs : s.memOk) : (s.modMe f).memOk := by grind [State.modMe, memOk_modSheaf]

/-! ### Memory and its caches -/

theorem memOk_translate (hs : s.memOk) : (s.translate core ctx va).2.memOk := by grind [State.translate, memOk_modField, memOk_modCore]

theorem memOk_ownWindow {off : Nat} (hs : s.memOk) : (s.ownWindow core ctx k off).2.memOk := by grind [State.ownWindow, memOk_translate]

theorem memOk_xlateHere (hs : s.memOk) : (s.xlateHere core ctx k va).2.memOk := by grind [State.xlateHere, memOk_ownWindow, memOk_translate]

theorem memOk_xlate (hs : s.memOk) : (s.xlate core ctx k va).2.memOk := by grind [State.xlate, memOk_xlateHere]

theorem memOk_putGuest {gpa : Nat} (hs : s.memOk) : (s.putGuest ctx gpa bs).memOk := by
  fun_induction State.putGuest s ctx gpa bs <;> grind [State.memOk, memory_wf_set]

theorem memOk_retain {data : List Byte} (hs : s.memOk) : (s.retain ctx id vline hline data).memOk := by
  unfold State.retain
  refine memOk_modCtx ?_
  split
  · exact memOk_putGuest hs
  · exact hs

theorem memOk_homeRead (hs : s.memOk) : (s.homeRead hpa n sys).2.memOk := by grind [State.homeRead, State.memOk]

theorem memOk_homeWrite (hs : s.memOk) : (s.homeWrite hpa bs sys).memOk := by
  unfold State.homeWrite
  grind [State.memOk, memory_wf_write]

theorem memOk_peerWriteBack (hs : s.memOk) : (s.peerWriteBack line).memOk := by
  unfold State.peerWriteBack
  split
  · exact hs
  · refine wf_foldl (fun m x hm => ?_) hs _
    split
    · exact memory_wf_set m _ _ hm
    · exact hm

theorem memOk_peerDrop (hs : s.memOk) : (s.peerDrop line).memOk := hs

theorem memOk_retainFor (hs : s.memOk) : (s.retainFor ctx rev vline hline).memOk := by grind [State.retainFor, memOk_retain, memOk_foldl]

theorem memOk_glRead (hs : s.memOk) : (s.glRead ctx rev va hpa n sys).2.memOk := by grind [State.glRead, memOk_homeRead]

theorem memOk_glWrite (hs : s.memOk) : (s.glWrite ctx rev va hpa bs sys).memOk := by
  grind [State.glWrite, memOk_modCtx, memOk_retainFor, memOk_homeWrite]

theorem memOk_l1Drop (hs : s.memOk) : (s.l1Drop core line).memOk := hs

theorem memOk_l1Clear (hs : s.memOk) : (s.l1Clear core).memOk := hs

theorem memOk_l1Empty (hs : s.memOk) : (s.l1Empty core).memOk := hs

theorem memOk_l1Read (hs : s.memOk) : (s.l1Read core ctx rev va hpa n).2.memOk := by
  grind [State.l1Read, memOk_l1Drop, memOk_flip, memOk_modCore, memOk_glRead]

theorem memOk_storeThrough (hs : s.memOk) : (s.storeThrough core ctx rev va hpa bs sys).memOk := by
  grind [State.storeThrough, memOk_modCore, memOk_glWrite]

theorem memOk_backLine (hs : s.memOk) : (s.backLine core line).2.memOk := by grind [State.backLine, memOk_flip, memOk_modCore, memOk_homeRead]

theorem memOk_backRead (hs : s.memOk) : (s.backRead core a n).2.memOk := by grind [State.backRead, memOk_backLine, memOk_foldl_snd]

theorem memOk_backWrite (hs : s.memOk) : (s.backWrite core a bs).memOk := by grind [State.backWrite, memOk_modCore, memOk_homeWrite, memOk_foldl]

theorem memOk_resolve {space : Space} {a : Dword} {size lane : Nat} (hs : s.memOk) : (s.resolve h k space a size lane).2.memOk := by
  unfold State.resolve
  grind [memOk_xlate]

theorem memOk_readTarget {m : LoadMode} (hs : s.memOk) : (s.readTarget h x2 n m).2.memOk := by
  unfold State.readTarget
  grind [memOk_l1Read, memOk_l1Drop, memOk_glRead, memOk_homeRead]

theorem memOk_writeTarget (hs : s.memOk) : (s.writeTarget h x2 bs sys).memOk := by
  unfold State.writeTarget
  grind [memOk_storeThrough, memOk_homeWrite, memOk_modTeam, memOk_modSheaf]

theorem memOk_readVirtual (hs : s.memOk) : (s.readVirtual core ctx rev va n k).2.memOk := by grind [State.readVirtual, memOk_glRead, memOk_xlate]

theorem memOk_writeVirtual (hs : s.memOk) : (s.writeVirtual core ctx rev va bs).2.memOk := by grind [State.writeVirtual, memOk_glWrite, memOk_xlate]

/-! ### Registers, program counters, ends and traps -/

theorem memOk_retire (hs : s.memOk) : s.retire.memOk := memOk_modMe hs

theorem memOk_waitMe {k : WaitKind} (hs : s.memOk) : (s.waitMe k).memOk := memOk_modMe hs

theorem memOk_stallMe (hs : s.memOk) : s.stallMe.memOk := memOk_modMe hs

theorem memOk_finishWait {w : Wait} (hs : s.memOk) : (s.finishWait id w).memOk := hs

theorem memOk_retireWaited {ws : List Wait} (hs : s.memOk) : (s.retireWaited ws).memOk := by
  grind [State.retireWaited, memOk_modSheaf, memOk_retire, State.memOk]

theorem memOk_endSheaf (hs : s.memOk) : (s.endSheaf id).memOk := by
  grind [State.endSheaf, memOk_modLaunch, memOk_modTeam, memOk_modRes, memOk_modSheaf, memOk_foldl]

theorem memOk_dropChildren {launch : Nat} (hs : s.memOk) : (s.dropChildren launch).memOk := by
  grind [State.dropChildren, memOk_mapSheaves, memOk_modLaunch]

theorem memOk_endLaunch (hs : s.memOk) : (s.endLaunch h cause).memOk := by grind [State.endLaunch, memOk_modLaunch]

theorem memOk_closeLaunch {l : Launch} (hs : s.memOk) : (s.closeLaunch l).memOk := by
  grind [State.closeLaunch, memOk_dropChildren, memOk_mapFields, memOk_mapCores, memOk_mapSheaves, memOk_endSheaf, memOk_modLaunch, memOk_foldl,
    State.memOk]

theorem memOk_closeLaunches (hs : s.memOk) : s.closeLaunches.memOk := by grind [State.closeLaunches, memOk_closeLaunch, memOk_foldl]

theorem memOk_vectorEntry (hs : s.memOk) : (s.vectorEntry core ctx cause).2.memOk := by grind [State.vectorEntry, memOk_readVirtual]

theorem memOk_takeTrap {lanes : Mask} {tpc : Vaddr} {again : Option Replay} (hs : s.memOk) :
    (s.takeTrap id cause info addr lanes tpc again).memOk := by
  grind [State.takeTrap, memOk_modSheaf, memOk_modRes, memOk_vectorEntry, memOk_endLaunch]

theorem memOk_trapAll (hs : s.memOk) : (s.trapAll cause info addr).memOk := by grind [State.trapAll, memOk_takeTrap]

theorem memOk_trapLanes {fs : List LaneFault} (he : s.trapLanes fs = some t) (hs : s.memOk) : t.memOk := by grind [State.trapLanes, memOk_takeTrap]

theorem memOk_setSat (hs : s.memOk) : (s.setSat h).memOk := by grind [State.setSat, memOk_modTeam, memOk_foldl]

end Sys2Proof.Machine
end

section
/-! SUPPORT. The memory stays canonical: operands, reports, guest memory, records, squeezes, control and job cards (R131/05). Settles O59. -/

namespace Sys2Proof.Machine

variable {s t : State} {a addr byte3 core ctx d gpa id n pages pid q r sheaf va word : Nat} {bs detail : List Byte} {cause : Cause} {h : Sheaf}
  {j : Job} {m : Memory} {o : BitVec 18} {p : Pending} {v : Nat × Nat} {x : Nat × Nat × Quad} {x2 : Target}

/-! ### Operands and residency levels -/

theorem memOk_vwrite {f : Nat → Word} (hs : s.memOk) : (s.vwrite d f).memOk := by grind [State.vwrite, memOk_modMe]

theorem memOk_vwrite64 {f : Nat → Dword} (hs : s.memOk) : (s.vwrite64 d f).memOk := by grind [State.vwrite64, memOk_modMe]

theorem memOk_pwrite {f : Nat → Bool} (hs : s.memOk) : (s.pwrite d f).memOk := by grind [State.pwrite, memOk_modMe]

theorem memOk_swrite {x : Dword} (hs : s.memOk) : (s.swrite d x).memOk := memOk_modMe hs

theorem memOk_fpFinish {raised : List (Nat × Raised)} (hs : s.memOk) : (s.fpFinish raised).memOk := by
  grind [State.fpFinish, memOk_takeTrap, memOk_modMe, memOk_retire, memOk_setSat]

theorem memOk_addPending {p : Nat → Pending} (hs : s.memOk) : (s.addPending p).memOk := by grind [State.addPending, memOk_modMe, memOk_fresh]

theorem memOk_takeLoadFault (hs : s.memOk) : (s.takeLoadFault sheaf p).memOk := by grind [State.takeLoadFault, memOk_takeTrap, memOk_modSheaf]

theorem memOk_dependOnFault (hs : s.memOk) : (s.dependOnFault p).memOk := by
  grind [State.dependOnFault, memOk_modMe, memOk_stallMe, memOk_takeLoadFault]

theorem memOk_drain (he : s.drain? = some t) (hs : s.memOk) : t.memOk := by grind [State.drain?, memOk_dependOnFault, memOk_stallMe]

theorem memOk_spillReg (he : s.spillReg v = .ok t) (hs : s.memOk) : t.memOk := by grind [State.spillReg, memOk_backWrite, memOk_modRes]

theorem memOk_fillReg (he : s.fillReg v = .ok t) (hs : s.memOk) : t.memOk := by grind [State.fillReg, memOk_modSheaf, memOk_modRes, memOk_backRead]

theorem memOk_spill {vs : List (Nat × Nat)} (hs : s.memOk) : (s.spill vs).memOk := by grind [State.spill, memOk_spillReg, memOk_foldl]

theorem memOk_makeRoom {a : List (Nat × Nat)} (he : s.makeRoom a = .ok t) (hs : s.memOk) : t.memOk := by
  fun_induction s.makeRoom a <;> grind [memOk_spillReg]

theorem memOk_warm (hs : s.memOk) : (s.warm h r).memOk := hs

theorem memOk_touchReg (hs : s.memOk) : (s.touchReg h r).2.memOk := by
  unfold State.touchReg
  simp only
  split
  · exact memOk_warm (memOk_spill hs)
  · split
    · exact hs
    next t ht =>
      have hroom := memOk_makeRoom ht hs
      split
      · split
        · exact hroom
        next u hu => exact memOk_fillReg hu hroom
      · exact memOk_warm hroom

theorem memOk_touchRegs {a : List Nat} (hs : s.memOk) : (s.touchRegs h a).2.memOk := by fun_induction s.touchRegs h a <;> grind [memOk_touchReg]

theorem memOk_openCold (hs : s.memOk) : (s.openCold sheaf r).memOk := by grind [State.openCold, memOk_modSheaf, memOk_backRead]

theorem memOk_shutCold (hs : s.memOk) : (s.shutCold sheaf r).memOk := by grind [State.shutCold, memOk_backWrite]

theorem memOk_landCold {cold : List Nat} {land : Sheaf → Sheaf} (hs : s.memOk) : (s.landCold sheaf cold land).memOk := by
  grind [State.landCold, memOk_modSheaf, memOk_shutCold, memOk_openCold, memOk_foldl]

theorem memOk_landPending (hs : s.memOk) : (s.landPending sheaf pid).memOk := by grind [State.landPending, memOk_landCold]

theorem memOk_landOne {lane : Nat} (hs : s.memOk) : (s.landOne sheaf pid lane).memOk := by grind [State.landOne, memOk_landCold]

theorem memOk_drawCold {regs : List Nat} (hs : s.memOk) : (s.drawCold sheaf regs).2.memOk := by grind [State.drawCold, memOk_openCold, memOk_foldl]

/-! ### Reports -/

theorem memOk_interrupt {v : Nat} (hs : s.memOk) : (s.interrupt v).memOk := hs

theorem memOk_keepErrors {queue : Option Nat} {rs : List ErrorRecord} (hs : s.memOk) : (s.keepErrors queue rs).memOk := hs

theorem memOk_reportHost {cause : Nat} (hs : s.memOk) : (s.reportHost cause byte3 addr detail).memOk := by
  unfold State.reportHost
  grind [State.memOk, memOk_keepErrors, memOk_interrupt, wf_putErrors]

theorem memOk_report {cause : Nat} (hs : s.memOk) : (s.report ctx cause byte3 addr detail).memOk := by
  unfold State.report
  grind [State.memOk, memOk_keepErrors, memOk_interrupt, memOk_modCtx, wf_putErrors]

theorem memOk_reportUncorr {port pc : Nat} (hs : s.memOk) : (s.reportUncorr ctx addr port pc).memOk := memOk_report hs

theorem memOk_reportJob {engine causeC cardAddr : Nat} (hs : s.memOk) : (s.reportJob ctx engine causeC cardAddr).memOk := memOk_report hs

theorem memOk_writeBackPeer {line : Nat} (hs : s.memOk) : (s.writeBackPeer line).memOk := by
  grind [State.writeBackPeer, memOk_peerWriteBack, memOk_reportUncorr, memOk_foldl, State.memOk]

theorem memOk_tell {sender : Nat} {msg : List Byte} (he : s.tell core sender msg = some t) (hs : s.memOk) : t.memOk := by
  unfold State.tell at he
  split at he
  · cases he
    exact hs
  · obtain ⟨m, -, rfl⟩ := Option.map_eq_some_iff.mp he
    exact hs

/-! ### Guest memory -/

theorem memOk_guestUncorr (hs : s.memOk) : (s.guestUncorr ctx va n).memOk := memOk_reportUncorr hs

theorem memOk_guestWrite {a4 : List Byte} (hs : s.memOk) : (s.guestWrite ctx va a a4).memOk := by
  fun_induction s.guestWrite ctx va a a4 <;> grind [memOk_glWrite]

theorem memOk_guestPut (hs : s.memOk) : (s.guestPut ctx va bs).memOk := memOk_guestWrite hs

theorem memOk_putPage {page : Nat} (hs : s.memOk) : (s.putPage ctx gpa m page).memOk := by
  unfold State.putPage
  split
  · exact hs
  · exact wf_foldl (fun m x hm => memory_wf_set m _ _ hm) (memory_wf_filter _ _ hs) _

theorem memOk_putPages (hs : s.memOk) : (s.putPages ctx gpa m pages).memOk := by grind [State.putPages, memOk_putPage, memOk_foldl]

theorem memOk_writePlanes (hs : s.memOk) : (s.writePlanes core x).memOk := memOk_putPages hs

theorem memOk_reportPlane (hs : s.memOk) : (s.reportPlane ctx).memOk := by grind [State.reportPlane, memOk_modCtx, memOk_tell]

theorem memOk_stallPlanes (hs : s.memOk) : (s.stallPlanes core ctx q).memOk := by
  grind [State.stallPlanes, memOk_reportPlane, memOk_modCtx, memOk_modField]

theorem memOk_savePlanes (hs : s.memOk) : (s.savePlanes core x).memOk := by grind [State.savePlanes, memOk_writePlanes, memOk_stallPlanes]

theorem memOk_endPlaneWait (hs : s.memOk) : (s.endPlaneWait ctx core q).memOk := by grind [State.endPlaneWait, memOk_modCtx, memOk_modField]

theorem memOk_modQuads {f : Core → Core} (hs : s.memOk) : (s.modQuads core f).memOk := by
  grind [State.modQuads, memOk_savePlanes, memOk_endPlaneWait, memOk_modCore, memOk_foldl]

theorem memOk_planesGoOn (hs : s.memOk) : (s.planesGoOn ctx).memOk := by
  grind [State.planesGoOn, memOk_reportPlane, memOk_writePlanes, memOk_endPlaneWait, memOk_foldl]

theorem memOk_readRegions (hs : s.memOk) : (s.readRegions ctx).memOk := hs

/-! ### Records -/

theorem memOk_putRecord {field : Nat} {bytes : Memory} (hs : s.memOk) : (s.putRecord field sheaf pages bytes).memOk := hs

theorem memOk_dropRecord (hs : s.memOk) : (s.dropRecord sheaf).memOk := hs

/-! ### Squeezes and folding -/

theorem memOk_markPage {p : PageRef} {away : Bool} (hs : s.memOk) : (s.markPage p away).memOk := by
  unfold State.markPage
  grind [memOk_modTeam, memOk_modSheaf]

theorem memOk_beginSqueeze (hs : s.memOk) : (s.beginSqueeze core ctx).memOk := by grind [State.beginSqueeze, memOk_modRes]

theorem memOk_squeezeStopped (hs : s.memOk) : (s.squeezeStopped core ctx).memOk := by grind [State.squeezeStopped, memOk_spill, memOk_modRes]

theorem memOk_squeezeIfReturned (hs : s.memOk) : (s.squeezeIfReturned core ctx).memOk := by grind [State.squeezeIfReturned, memOk_beginSqueeze]

theorem memOk_noticeReturned (hs : s.memOk) : (s.noticeReturned id).memOk := by
  grind [State.noticeReturned, memOk_squeezeIfReturned, memOk_modRes, memOk_modSheaf]

theorem memOk_settleLevel (hs : s.memOk) : (s.settleLevel core ctx).memOk := by grind [State.settleLevel, memOk_markPage, memOk_foldl]

theorem memOk_settleAll (hs : s.memOk) : s.settleAll.memOk := by grind [State.settleAll, memOk_settleLevel, memOk_foldl]

theorem memOk_relist (hs : s.memOk) : (s.relist ctx).memOk := by grind [State.relist, memOk_modRes, memOk_foldl]

theorem memOk_squeezeReturned (hs : s.memOk) : s.squeezeReturned.memOk := by grind [State.squeezeReturned, memOk_squeezeIfReturned, memOk_foldl]

theorem memOk_nextTurn {group since : Nat} (hs : s.memOk) : (s.nextTurn core ctx group since).memOk := hs

theorem memOk_settleTurns (hs : s.memOk) : s.settleTurns.memOk := by grind [State.settleTurns, memOk_modRes, memOk_foldl]

theorem memOk_yieldTurn (hs : s.memOk) : (s.yieldTurn h).memOk := by grind [State.yieldTurn, memOk_nextTurn]

/-! ### Control -/

theorem memOk_branch {taken : Nat → Bool} (hs : s.memOk) : (s.branch o taken).memOk := by grind [State.branch, memOk_trapAll, memOk_modMe]

theorem memOk_endIfDone (hs : s.memOk) : (s.endIfDone id).memOk := by grind [State.endIfDone, memOk_dropRecord, memOk_modSheaf, memOk_endSheaf]

theorem memOk_exitLanes (hs : s.memOk) : s.exitLanes.memOk := by grind [State.exitLanes, memOk_endIfDone, memOk_modMe]

theorem outOk_execExit (hs : s.memOk) : OutOk (execExit s) := by grind [execExit, OutOk, memOk_exitLanes, memOk_drain, memOk_trapAll]

theorem outOk_execYield (hs : s.memOk) : OutOk (execYield s) := by grind [execYield, OutOk, memOk_modCore, memOk_modMe, memOk_retire, memOk_yieldTurn]

theorem outOk_execRet (hs : s.memOk) : OutOk (execRet a s) := by grind [execRet, OutOk, memOk_modMe, memOk_trapLanes]

theorem outOk_execCall {c : Nat} (hs : s.memOk) : OutOk (execCall c o s) := by grind [execCall, OutOk, memOk_trapAll, memOk_vwrite64, memOk_branch]

theorem outOk_execLoop {v : Bool} {k : Nat} (hs : s.memOk) : OutOk (execLoop d v k n s) := by grind [execLoop, OutOk, memOk_modMe]

/-! ### Job cards -/

theorem memOk_enqueue (hs : s.memOk) : (s.enqueue j).memOk := by grind [State.enqueue, memOk_fresh, State.memOk]

theorem memOk_engineAt {k : AccKind} {off : Int} (hs : s.memOk) : (s.engineAt j k word off n).2.memOk := by grind [State.engineAt, memOk_resolve]

theorem memOk_engineRead (hs : s.memOk) : (s.engineRead j x2 n).2.memOk := by
  unfold State.engineRead
  grind [memOk_readTarget, memOk_glRead]

theorem memOk_engineWrite (hs : s.memOk) : (s.engineWrite j x2 bs).memOk := by
  unfold State.engineWrite
  grind [memOk_writeTarget, memOk_glWrite]

theorem memOk_enginePut {g a5 : Nat} {a : List (List Byte)} (hs : s.memOk) : (s.enginePut j word g a a5).memOk := by
  fun_induction s.enginePut j word g a a5 <;> grind [memOk_engineWrite, memOk_engineAt]

theorem memOk_tokenInc {tk : Nat} {wide : Bool} (hs : s.memOk) : (s.tokenInc core ctx tk wide).memOk := by grind [State.tokenInc, memOk_modRes]

theorem memOk_credit {team reach : Nat} (hs : s.memOk) : (s.credit team n reach).1.memOk := by grind [State.credit, memOk_modTeam]

theorem memOk_setChunk {i : Nat} (hs : s.memOk) : (s.setChunk j i).memOk := by grind [State.setChunk, memOk_modTeam]

theorem memOk_jobErrorAt (hs : s.memOk) : (s.jobErrorAt j).memOk := by grind [State.jobErrorAt, memOk_modLaunch]

theorem memOk_keepHeaders (hs : s.memOk) : s.keepHeaders.memOk := hs

theorem memOk_dropJob (hs : s.memOk) : (s.dropJob id).memOk := hs

theorem memOk_completeJob (hs : s.memOk) : (s.completeJob j).memOk := by grind [State.completeJob, memOk_dropJob, memOk_tokenInc]

theorem memOk_releaseFailed (hs : s.memOk) : (s.releaseFailed j).memOk := by
  grind [State.releaseFailed, memOk_completeJob, memOk_credit, memOk_setChunk, memOk_foldl]

theorem memOk_reportReplay (hs : s.memOk) : (s.reportReplay j).memOk := memOk_report hs

theorem memOk_failCode {code : Nat} (hs : s.memOk) : (s.failCode j code).memOk := by
  grind [State.failCode, memOk_reportJob, memOk_jobErrorAt, memOk_releaseFailed, memOk_reportReplay]

theorem memOk_failJob (hs : s.memOk) : (s.failJob j cause).memOk := memOk_failCode hs

theorem memOk_engineUncorr (hs : s.memOk) : (s.engineUncorr j cause addr).memOk := by grind [State.engineUncorr, memOk_guestUncorr]

theorem memOk_engineFault (hs : s.memOk) : (s.engineFault j cause addr).memOk := by
  unfold State.engineFault
  grind [memOk_engineUncorr, memOk_failJob, memOk_modJob]

end Sys2Proof.Machine
end

section
/-! SUPPORT. The memory stays canonical: loads, stores, atomics, fences, and the matrix engine (R131/05). Settles O59. -/

namespace Sys2Proof.Machine

variable {s t : State} {_l a cmd core d l p reach sheaf size : Nat} {addr : Nat → Dword} {c : MatCmd} {f : ElemType} {h : Sheaf} {o : AtomOp}
  {op : Cctl} {ordered : Option (Scope × Ordering)} {r : ScratchRef} {space : Space} {w : Width} {x0 : Scope}

/-! ### Loads, stores, atomics and fences -/

theorem memOk_orderWait {tickets rel : Bool} (he : s.orderWait? tickets rel = some t) (hs : s.memOk) : t.memOk := by
  grind [State.orderWait?, memOk_dependOnFault, memOk_stallMe]

theorem memOk_releasePeers (hs : s.memOk) : (s.releasePeers sheaf).memOk := by
  grind [State.releasePeers, memOk_writeBackPeer, memOk_modSheaf, memOk_foldl]

theorem memOk_releaseAt (hs : s.memOk) : (s.releaseAt reach).memOk := by grind [State.releaseAt, memOk_writeBackPeer, memOk_modMe, memOk_foldl]

theorem memOk_acquireAt (hs : s.memOk) : (s.acquireAt reach).memOk := by grind [State.acquireAt, memOk_l1Clear]

theorem memOk_laneUncorr {a : Dword} (hs : s.memOk) : (s.laneUncorr h space a).memOk := by
  unfold State.laneUncorr
  grind [memOk_reportUncorr, memOk_xlate]

theorem memOk_checkLanes {k : AccKind} {a : List Nat} (hs : s.memOk) : (s.checkLanes k space size addr a).2.memOk := by
  fun_induction s.checkLanes k space size addr a <;> grind [memOk_laneUncorr, memOk_resolve]

theorem memOk_localWait {ts : List (Nat × Target)} {retains : Bool} (he : s.localWait? space size addr ts retains = some t) (hs : s.memOk) :
    t.memOk := by
  unfold State.localWait? at he
  split at he
  · cases he
    exact memOk_stallMe hs
  · obtain ⟨p, -, rfl⟩ := Option.map_eq_some_iff.mp he
    exact memOk_dependOnFault hs

theorem memOk_readLanes {reg : Nat} {m : LoadMode} {a : List (Nat × Target)} (hs : s.memOk) : (s.readLanes size reg m a).2.memOk := by
  fun_induction s.readLanes size reg m a <;> grind [memOk_readTarget]

theorem memOk_loadChecks (hs : s.memOk) : (s.loadChecks space size addr).2.memOk := by grind [State.loadChecks, memOk_checkLanes]

theorem memOk_loadOp (hs : s.memOk) : (s.loadOp space w d l addr ordered).memOk := by
  grind [State.loadOp, memOk_addPending, memOk_retire, memOk_acquireAt, memOk_readLanes, memOk_localWait, memOk_loadChecks, memOk_trapLanes,
    memOk_orderWait]

theorem memOk_writeLanes {data : Nat → List Byte} {sys : Bool} {a : List (Nat × Target)} (hs : s.memOk) : (s.writeLanes data sys a).memOk := by
  fun_induction s.writeLanes data sys a <;> grind [memOk_writeTarget]

theorem memOk_storeOp (hs : s.memOk) : (s.storeOp space w d addr ordered).memOk := by
  unfold State.storeOp
  grind [memOk_writeLanes, memOk_retire, memOk_releaseAt, memOk_localWait, memOk_trapLanes, memOk_checkLanes, memOk_orderWait]

theorem memOk_prefetchLanes {a : List Nat} (hs : s.memOk) : (s.prefetchLanes size addr a).memOk := by
  fun_induction s.prefetchLanes size addr a <;> grind [memOk_l1Read, memOk_resolve]

theorem memOk_cctlLine {hline : Nat} (hs : s.memOk) : (s.cctlLine op core hline).memOk := by
  unfold State.cctlLine
  grind [memOk_peerDrop, memOk_l1Drop, memOk_peerWriteBack]

theorem memOk_cctlOp (hs : s.memOk) : (s.cctlOp op addr).memOk := by
  grind [State.cctlOp, memOk_cctlLine, memOk_retire, memOk_localWait, memOk_trapLanes, memOk_checkLanes, memOk_orderWait, memOk_foldl]

theorem memOk_atomAt {x3 : Target} {x cmp : Dword} (hs : s.memOk) : (s.atomAt h o x3 x cmp).2.memOk := by
  grind [State.atomAt, memOk_writeTarget, memOk_readTarget]

theorem memOk_atomLanes {a : List (Nat × Target)} (hs : s.memOk) : (s.atomLanes o d a).2.memOk := by
  fun_induction s.atomLanes o d a <;> grind [memOk_atomAt]

theorem memOk_atomOp {slot : Nat} {sc : Scope} {r : Ordering} (hs : s.memOk) : (s.atomOp space d slot o sc r l).memOk := by
  grind [State.atomOp, memOk_acquireAt, memOk_atomLanes, memOk_retire, memOk_addPending, memOk_releaseAt, memOk_localWait, memOk_trapLanes,
    memOk_trapAll, memOk_checkLanes, memOk_orderWait, State.memOk]

theorem memOk_icinvOn {cores : List Nat} (hs : s.memOk) : (s.icinvOn cores).memOk := by
  grind [State.icinvOn, memOk_mapSheaves, memOk_modCore, memOk_foldl]

theorem outOk_execFence {o : Ordering} (hs : s.memOk) : OutOk (execFence x0 o s) := by
  grind [execFence, OutOk, memOk_acquireAt, memOk_releaseAt, memOk_retire, memOk_orderWait, State.memOk]

theorem outOk_execIcinv (hs : s.memOk) : OutOk (execIcinv x0 s) := by grind [execIcinv, OutOk, memOk_icinvOn, memOk_retire, memOk_orderWait]

theorem memOk_rstCheck {a : Dword} (hs : s.memOk) : (s.rstCheck h a size).2.memOk := by grind [State.rstCheck, memOk_xlateHere]

theorem memOk_rstLanes {a : List Nat} (hs : s.memOk) : (s.rstLanes size addr a).2.memOk := by
  fun_induction s.rstLanes size addr a <;> grind [memOk_rstCheck]

theorem outOk_execRst (hs : s.memOk) : OutOk (execRst d a w _l s) := by
  grind [execRst, OutOk, memOk_retire, memOk_modLaunch, memOk_dependOnFault, memOk_trapLanes, memOk_rstLanes, memOk_orderWait, State.memOk]

/-! ### The matrix engine -/

theorem memOk_matPost {op : MatOp} {q x3 : Nat} (hs : s.memOk) : (s.matPost op q x3 a).memOk := by
  grind [State.matPost, memOk_waitMe, memOk_modCore, memOk_retire, memOk_orderWait, memOk_trapAll, State.memOk]

theorem outOk_execMpush (hs : s.memOk) : OutOk (execMpush a _l s) := by
  grind [execMpush, OutOk, memOk_waitMe, memOk_modCore, memOk_retire, memOk_orderWait, memOk_trapAll]

theorem memOk_modCmd {id : Nat} {f : MatCmd → MatCmd} (hs : s.memOk) : (s.modCmd core id f).memOk := by grind [State.modCmd, memOk_modCore]

theorem memOk_startCmd {r : Nat} (hs : s.memOk) : (s.startCmd core c r).memOk := by grind [State.startCmd, memOk_modCmd, memOk_modQuads]

theorem outOk_execMatrixCommandStart (hs : s.memOk) : OutOk (execMatrixCommandStart core cmd s) := by
  grind [execMatrixCommandStart, OutOk, memOk_startCmd, memOk_modCmd]

theorem memOk_chargeWait (hs : s.memOk) : (s.chargeWait core c).memOk := hs

theorem memOk_grantFrom {entry : Nat} {a3 : List (Nat × MatCmd)} (hs : s.memOk) : (s.grantFrom entry a a3).memOk := by
  fun_induction s.grantFrom entry a a3 <;> grind [memOk_chargeWait, memOk_startCmd]

theorem outOk_execRampGovernorStep {cluster : Nat} (hs : s.memOk) : OutOk (execRampGovernorStep cluster s) := by
  grind [execRampGovernorStep, OutOk, memOk_grantFrom, memOk_modRamp]

theorem memOk_scratchWrite {off : Nat} {bs : List Byte} (hs : s.memOk) : (s.scratchWrite r off bs).memOk := hs

theorem memOk_accPut {m n : Nat} {x : Word} (hs : s.memOk) : (s.accPut core c p m n x).memOk := hs

theorem memOk_satCmd {sat : Bool} (hs : s.memOk) : (s.satCmd c sat).memOk := by grind [State.satCmd, memOk_modTeam, memOk_foldl]

theorem memOk_popSlot {ring : Nat} (hs : s.memOk) : (s.popSlot core ring).memOk := hs

theorem memOk_drainBlock (hs : s.memOk) : (s.drainBlock core c p).memOk := by grind [State.drainBlock, memOk_scratchWrite, memOk_satCmd, memOk_foldl]

theorem memOk_mmulStep (hs : s.memOk) : (s.mmulStep core c f).memOk := by
  grind [State.mmulStep, memOk_popSlot, memOk_drainBlock, memOk_modCmd, memOk_accPut, memOk_foldl]

theorem memOk_mmbStep (hs : s.memOk) : (s.mmbStep core c).memOk := by grind [State.mmbStep, memOk_popSlot, memOk_modCmd, memOk_accPut, memOk_foldl]

theorem memOk_mscaStep (hs : s.memOk) : (s.mscaStep core c).memOk := by grind [State.mscaStep, memOk_modCmd, memOk_accPut, memOk_foldl]

theorem memOk_modSet {f : Quad → Quad} (hs : s.memOk) : (s.modSet core c f).memOk := by grind [State.modSet, memOk_modCore]

theorem memOk_mldwStep {f : Option ElemType} (hs : s.memOk) : (s.mldwStep core c f).memOk := by
  grind [State.mldwStep, memOk_modCmd, memOk_modCore, memOk_modSet, memOk_foldl, State.memOk]

theorem memOk_mswapStep (hs : s.memOk) : (s.mswapStep core c).memOk := hs

theorem memOk_transposed {h nt : Nat} (hs : s.memOk) : (s.transposed core c r p h nt).memOk := by
  grind [State.transposed, memOk_scratchWrite, memOk_satCmd, memOk_foldl]

theorem memOk_mdrainStep (hs : s.memOk) : (s.mdrainStep core c f).memOk := by
  grind [State.mdrainStep, memOk_accPut, memOk_transposed, memOk_modCmd, memOk_scratchWrite, memOk_satCmd, memOk_foldl]

theorem memOk_mclrStep (hs : s.memOk) : (s.mclrStep core c).memOk := hs

theorem memOk_kstep (hs : s.memOk) : (s.kstep core cmd).memOk := by
  grind [State.kstep, memOk_mclrStep, memOk_mdrainStep, memOk_mswapStep, memOk_mldwStep, memOk_mscaStep, memOk_mmbStep, memOk_mmulStep, memOk_modCmd]

theorem outOk_execRingSlotWaitEnd (hs : s.memOk) : OutOk (execRingSlotWaitEnd core cmd s) := by grind [execRingSlotWaitEnd, OutOk, memOk_modCmd]

theorem memOk_leaveArray (hs : s.memOk) : (s.leaveArray core c).memOk := by grind [State.leaveArray, memOk_modCore]

theorem memOk_freeCmd (hs : s.memOk) : (s.freeCmd core cmd).memOk := hs

theorem outOk_execMatrixCommandCompletion (hs : s.memOk) : OutOk (execMatrixCommandCompletion core cmd s) := by
  grind [execMatrixCommandCompletion, OutOk, memOk_freeCmd, memOk_tokenInc, memOk_leaveArray]

theorem outOk_execMatrixQuiescentStop (hs : s.memOk) : OutOk (execMatrixQuiescentStop core cmd s) := by
  grind [execMatrixQuiescentStop, OutOk, memOk_modQuads, memOk_modCmd, memOk_freeCmd, memOk_leaveArray]

theorem outOk_execMatrixCommandResume (hs : s.memOk) : OutOk (execMatrixCommandResume core cmd s) := by
  grind [execMatrixCommandResume, OutOk, memOk_startCmd, memOk_modCmd]

theorem outOk_execMatrixFifoPostResume (hs : s.memOk) : OutOk (execMatrixFifoPostResume sheaf s) := by
  grind [execMatrixFifoPostResume, OutOk, memOk_modCore, memOk_finishWait]

theorem outOk_execMstat (hs : s.memOk) : OutOk (execMstat a _l s) := by grind [execMstat, OutOk, memOk_swrite, memOk_retire, memOk_foldl]

end Sys2Proof.Machine
end

section
/-! SUPPORT. The memory stays canonical: traps, residency, posts, synchronisation and launches (R131/05). Settles O59. -/

namespace Sys2Proof.Machine

variable {s t : State} {a b carry core ctx d dest engine id idx kind n reason rev sheaf slot : Nat} {h : Sheaf} {l : Launch} {r : Replay}
  {req : Amounts} {w : Wait} {x3 : Team}

/-! ### Traps -/

theorem memOk_replayLanes {a : List LaneAccess} (hs : s.memOk) : (s.replayLanes h r a).2.memOk := by
  fun_induction s.replayLanes h r a <;> grind [memOk_readTarget, memOk_resolve]

theorem memOk_replayLoad {xs : List LaneAccess} (hs : s.memOk) : (s.replayLoad h r xs).2.memOk := by
  grind [State.replayLoad, memOk_l1Clear, memOk_replayLanes, memOk_touchRegs]

theorem memOk_loadReplay (hs : s.memOk) : (s.loadReplay id).2.memOk := by
  grind [State.loadReplay, memOk_vectorEntry, memOk_modSheaf, memOk_replayLoad]

/-- The state that a load made again leaves when it traps. -/
theorem memOk_loadReplay_trap (he : (s.loadReplay id).1 = some t) (hs : s.memOk) : t.memOk := by
  unfold State.loadReplay at he
  grind [memOk_vectorEntry, memOk_replayLoad, memOk_endLaunch, memOk_modSheaf]

theorem memOk_trapReturn (hs : s.memOk) : s.trapReturn.memOk := by
  unfold State.trapReturn
  split
  next t ht => exact memOk_drain ht hs
  split
  · exact hs
  next i hi =>
    have hload := memOk_loadReplay (id := i.sheaf) hs
    split
    · exact memOk_stallMe hs
    split
    next t u hu => exact memOk_loadReplay_trap (by rw [hu]) hs
    next u hu =>
      rw [hu] at hload
      simp only
      split
      · exact memOk_noticeReturned (memOk_modMe hload)
      · exact memOk_modMe hload

theorem outOk_execTret (hs : s.memOk) : OutOk (execTret s) := by grind [execTret, OutOk, memOk_trapReturn, memOk_trapAll]

theorem outOk_execNret (hs : s.memOk) : OutOk (execNret s) := by grind [execNret, OutOk, memOk_trapReturn, memOk_trapAll]

theorem outOk_execLpcRd (hs : s.memOk) : OutOk (execLpcRd d a s) := by grind [execLpcRd, OutOk, memOk_swrite, memOk_retire]

theorem outOk_execLpcWr (hs : s.memOk) : OutOk (execLpcWr a b s) := by grind [execLpcWr, OutOk, memOk_modMe, memOk_retire, memOk_trapAll]

theorem memOk_writeStatus {x : Dword} (hs : s.memOk) : (s.writeStatus x).memOk := by
  grind [State.writeStatus, memOk_modTeam, memOk_modMe, memOk_foldl]

theorem outOk_execSpcw (hs : s.memOk) : OutOk (execSpcw a b s) := by
  unfold execSpcw
  grind [OutOk, memOk_modCore, memOk_trapAll, memOk_modCtx, memOk_writeStatus, memOk_modMe, memOk_retire]

/-! ### Residency -/

theorem outOk_execFairnessPeriodExpiry (hs : s.memOk) : OutOk (execFairnessPeriodExpiry sheaf s) := by
  grind [execFairnessPeriodExpiry, OutOk, memOk_modSheaf]

theorem outOk_execStarvingSheaf (hs : s.memOk) : OutOk (execStarvingSheaf sheaf s) := by grind [execStarvingSheaf, OutOk, memOk_modCore]

theorem outOk_execFoldQuantumExpiry {group : Nat} (hs : s.memOk) : OutOk (execFoldQuantumExpiry core ctx group s) := by
  grind [execFoldQuantumExpiry, OutOk, memOk_nextTurn]

theorem memOk_takePending (hs : s.memOk) : (s.takePending sheaf).memOk := by
  grind [State.takePending, memOk_modSheaf, memOk_takeTrap, memOk_noticeReturned]

theorem memOk_deliverNotice (hs : s.memOk) : (s.deliverNotice core ctx).memOk := by
  grind [State.deliverNotice, memOk_squeezeIfReturned, memOk_takePending, memOk_noticeReturned, memOk_modSheaf, memOk_modRes, memOk_foldl]

theorem outOk_execForcedSqueeze (hs : s.memOk) : OutOk (execForcedSqueeze core ctx s) := by grind [execForcedSqueeze, OutOk, memOk_beginSqueeze]

theorem memOk_movePage {p : PageRef} {away : Bool} (hs : s.memOk) : (s.movePage p away).memOk := by grind [State.movePage, memOk_markPage]

theorem outOk_execScratchPageMove (hs : s.memOk) : OutOk (execScratchPageMove core ctx s) := by
  grind [execScratchPageMove, OutOk, memOk_modRes, memOk_movePage]

theorem memOk_squeezeStages (hs : s.memOk) : s.squeezeStages.memOk := by grind [State.squeezeStages, memOk_squeezeStopped, memOk_foldl]

theorem outOk_execSqueezeCompletion (hs : s.memOk) : OutOk (execSqueezeCompletion core ctx s) := by
  grind [execSqueezeCompletion, OutOk, memOk_modQuads, memOk_modRes, memOk_spill]

theorem memOk_expandAll (hs : s.memOk) : (s.expandAll core ctx).memOk := by grind [State.expandAll, memOk_modSheaf, memOk_foldl]

theorem memOk_newlyResident (hs : s.memOk) : (s.newlyResident core ctx).memOk := by grind [State.newlyResident, memOk_modSheaf, memOk_foldl]

theorem outOk_execExpansionStep (hs : s.memOk) : OutOk (execExpansionStep core ctx s) := by
  grind [execExpansionStep, OutOk, memOk_expandAll, memOk_newlyResident, memOk_modRes]

theorem memOk_answer {taken refused : Amounts} (hs : s.memOk) : (s.answer core ctx taken refused).memOk := hs

theorem memOk_releaseCore (hs : s.memOk) : (s.releaseCore core ctx).memOk := by grind [State.releaseCore, memOk_modRes, memOk_answer]

theorem memOk_retarget {goal : Nat} (hs : s.memOk) : (s.retarget core ctx goal).memOk := by grind [State.retarget, memOk_modRes]

theorem memOk_reclaimCore (hs : s.memOk) : (s.reclaimCore core ctx req).memOk := by
  grind [State.reclaimCore, memOk_modRes, memOk_retarget, memOk_answer, memOk_releaseCore]

theorem memOk_settlePages (hs : s.memOk) : (s.settlePages core ctx).memOk := by grind [State.settlePages, memOk_modRes]

theorem memOk_ackRetired (hs : s.memOk) : (s.ackRetired ctx).memOk := hs

theorem memOk_reclaim {cores : List Nat} (hs : s.memOk) : (s.reclaim ctx cores req).memOk := by
  grind [State.reclaim, memOk_ackRetired, memOk_reclaimCore, memOk_settlePages, memOk_foldl]

/-! ### Engine posts -/

theorem memOk_readCard {va : Nat} (hs : s.memOk) : (s.readCard core ctx rev va).2.memOk := by grind [State.readCard, memOk_readVirtual]

theorem memOk_post (hs : s.memOk) : (s.post engine d a).memOk := by
  grind [State.post, memOk_waitMe, memOk_enqueue, memOk_retire, memOk_laneUncorr, memOk_readCard, memOk_trapAll, memOk_orderWait]

theorem outOk_execEngineQueuePostResume (hs : s.memOk) : OutOk (execEngineQueuePostResume sheaf s) := by
  grind [execEngineQueuePostResume, OutOk, memOk_enqueue, memOk_finishWait]

/-! ### Barriers, waits, forks and joins -/

theorem memOk_acquireTeam {x2 : Team} (hs : s.memOk) : (s.acquireTeam core x2).memOk := by grind [State.acquireTeam, memOk_l1Clear]

theorem memOk_drawCarry (hs : s.memOk) : (s.drawCarry id carry).2.memOk := by grind [State.drawCarry, memOk_drawCold]

theorem memOk_leavePhase (hs : s.memOk) : (s.leavePhase id w x3 carry).memOk := by
  grind [State.leavePhase, memOk_modSheaf, memOk_putRecord, memOk_modRes, memOk_noticeReturned, memOk_drawCarry]

theorem memOk_makeArrival (hs : s.memOk) : (s.makeArrival id w x3 kind dest carry).memOk := by
  grind [State.makeArrival, memOk_leavePhase, memOk_modSheaf, memOk_modTeam]

theorem memOk_dropWait (hs : s.memOk) : (s.dropWait w).memOk := memOk_modMe hs

theorem memOk_gathered (hs : s.memOk) : (s.gathered w kind slot dest carry).memOk := by
  grind [State.gathered, memOk_makeArrival, memOk_trapAll, memOk_modMe, memOk_dropWait, memOk_takeLoadFault]

theorem memOk_gather (hs : s.memOk) : (s.gather kind slot dest carry).memOk := by
  grind [State.gather, memOk_gathered, memOk_modMe, memOk_waitMe, memOk_trapAll]

theorem outOk_execBarWait (hs : s.memOk) : OutOk (execBarWait d a s) := by
  grind [execBarWait, OutOk, memOk_waitMe, memOk_acquireTeam, memOk_retire, memOk_trapAll]

theorem outOk_execRelease (hs : s.memOk) : OutOk (execRelease s) := by grind [execRelease, OutOk, memOk_modLaunch, memOk_retire, memOk_orderWait]

theorem outOk_execGate (hs : s.memOk) : OutOk (execGate s) := by grind [execGate, OutOk, memOk_waitMe, memOk_l1Clear, memOk_retire]

theorem outOk_execTwaitCompletion (hs : s.memOk) : OutOk (execTwaitCompletion sheaf s) := by
  grind [execTwaitCompletion, OutOk, memOk_finishWait, memOk_l1Clear, memOk_foldl]

theorem memOk_chunkWait {map q : Nat} {clear : Bool} (hs : s.memOk) : (s.chunkWait map slot a q clear).memOk := by
  grind [State.chunkWait, memOk_waitMe, memOk_retire, memOk_trapAll]

theorem memOk_finishChunk (hs : s.memOk) : (s.finishChunk h w).memOk := by grind [State.finishChunk, memOk_finishWait, memOk_modTeam, memOk_l1Clear]

theorem outOk_execCwaitCompletion (hs : s.memOk) : OutOk (execCwaitCompletion sheaf s) := by
  grind [execCwaitCompletion, OutOk, memOk_finishChunk, memOk_foldl]

theorem memOk_countFork (hs : s.memOk) : (s.countFork core).memOk := hs

theorem memOk_forkChild {i : Issue} {entry : Dword} (hs : s.memOk) : (s.forkChild h i d carry rev entry).memOk := by
  grind [State.forkChild, memOk_modCore, memOk_swrite, memOk_retire, memOk_l1Clear, memOk_countFork, memOk_putRecord, memOk_modRes, memOk_waitMe,
    memOk_modSheaf, memOk_modLaunch, memOk_modCtx, memOk_readRegions, memOk_fresh, State.memOk]

theorem outOk_execFork {c : Nat} (hs : s.memOk) : OutOk (execFork d a c s) := by
  unfold execFork
  split
  next t ht => exact memOk_drain ht hs
  split
  next t ht => exact memOk_orderWait ht hs
  split
  · exact hs
  simp only
  split
  · exact memOk_trapAll hs
  split
  · exact memOk_trapAll hs
  split
  · exact memOk_trapAll hs
  split
  · exact memOk_trapAll hs
  have hpicked := memOk_pick (ways := 65535) hs
  generalize s.pick 65535 = p at hpicked
  grind [OutOk, memOk_trapAll, memOk_drawCold, memOk_forkChild, memOk_retire, memOk_countFork, memOk_modMe, memOk_swrite]

theorem outOk_execJoin (hs : s.memOk) : OutOk (execJoin d a s) := by
  grind [execJoin, OutOk, memOk_waitMe, memOk_swrite, memOk_l1Clear, memOk_retire, memOk_trapAll, memOk_drain]

theorem outOk_execRgnw (hs : s.memOk) : OutOk (execRgnw a b s) := by
  grind [execRgnw, OutOk, memOk_writeVirtual, memOk_retire, memOk_modCtx, memOk_readRegions, memOk_laneUncorr, memOk_readVirtual, memOk_trapAll,
    memOk_orderWait]

theorem outOk_execRgnr (hs : s.memOk) : OutOk (execRgnr d a b s) := by grind [execRgnr, OutOk, memOk_swrite, memOk_retire, memOk_trapAll]

theorem outOk_execShrink (hs : s.memOk) : OutOk (execShrink a s) := by
  grind [execShrink, OutOk, memOk_modRes, memOk_retire, memOk_modMe, memOk_drain, memOk_trapAll]

theorem outOk_execSpfree (hs : s.memOk) : OutOk (execSpfree d a b s) := by
  grind [execSpfree, OutOk, memOk_modTeam, memOk_relist, memOk_retire, memOk_trapAll]

/-! ### Launches -/

theorem memOk_writeRecord {status b2 b3 : Nat} (hs : s.memOk) : (s.writeRecord l status reason b2 b3).memOk := by
  grind [State.writeRecord, memOk_guestPut]

theorem memOk_rejectLaunch (hs : s.memOk) : (s.rejectLaunch l reason).memOk := memOk_writeRecord hs

theorem memOk_addTeams {es : List TeamEntry} (hs : s.memOk) : (s.addTeams l es).memOk := by
  grind [State.addTeams, memOk_fresh, memOk_foldl, State.memOk]

theorem outOk_execLaunchDispatch (hs : s.memOk) : OutOk (execLaunchDispatch s) := by
  grind [execLaunchDispatch, OutOk, memOk_modLaunch, memOk_addTeams, memOk_readRegions, memOk_rejectLaunch]

theorem memOk_placeTeams {launch : Nat} (hs : s.memOk) : (s.placeTeams launch n core).memOk := by grind [State.placeTeams, State.memOk]

theorem memOk_enterCore (he : s.enterCore core ctx = some t) (hs : s.memOk) : t.memOk := by grind [State.enterCore, memOk_modCore]

theorem memOk_settleOn {teams : Bool} (he : s.settleOn l h teams = some t) (hs : s.memOk) : t.memOk := by
  unfold State.settleOn at he
  have hplaced : (if teams then s.placeTeams l.id h.number h.core else s).memOk := by
    split
    · exact memOk_placeTeams hs
    · exact hs
  generalize (if teams then s.placeTeams l.id h.number h.core else s) = u at hplaced he
  simp only at he
  split at he
  · cases he
  next v hv =>
    have hentered : v.memOk := memOk_enterCore hv hplaced
    grind [memOk_settleLevel]

theorem memOk_rejectLinked {addr cause : Nat} (hs : s.memOk) : (s.rejectLinked l idx addr engine cause).memOk := by
  grind [State.rejectLinked, memOk_reportJob, memOk_modLaunch]

theorem memOk_enqueueLinked {slots : List (Option Nat)} (hs : s.memOk) : (s.enqueueLinked l core slots).memOk := by
  grind [State.enqueueLinked, memOk_enqueue, memOk_modLaunch, memOk_rejectLinked, memOk_foldl]

theorem memOk_makeResident (he : s.makeResident l n core slot = some t) (hs : s.memOk) : t.memOk := by
  grind [State.makeResident, memOk_enqueueLinked, memOk_l1Clear, memOk_modLaunch, memOk_settleOn, memOk_fresh]

theorem outOk_execSheafMadeResident {l : Nat} (hs : s.memOk) : OutOk (execSheafMadeResident l n core slot s) := by
  unfold execSheafMadeResident
  split
  · exact hs
  · exact memOk_getD (fun t ht => memOk_makeResident ht hs) hs

theorem outOk_execCarveOutChange (hs : s.memOk) : OutOk (execCarveOutChange core idx s) := by
  grind [execCarveOutChange, OutOk, memOk_modCore, memOk_l1Empty]

theorem memOk_takeIn (he : s.takeIn h core slot = some t) (hs : s.memOk) : t.memOk := by grind [State.takeIn, memOk_settleOn]

theorem memOk_startTask (he : s.startTask id core slot = some t) (hs : s.memOk) : t.memOk := by
  grind [State.startTask, memOk_dropRecord, memOk_modLaunch, memOk_l1Clear, memOk_takeIn]

theorem outOk_execTaskTake (hs : s.memOk) : OutOk (execTaskTake core slot s) := by grind [execTaskTake, OutOk, memOk_modCore, memOk_startTask]

theorem outOk_execTaskSteal (hs : s.memOk) : OutOk (execTaskSteal core slot s) := by grind [execTaskSteal, OutOk, memOk_modCore, memOk_startTask]

theorem memOk_firstPhase {a : List (Nat × Nat)} {k : Nat} {g : Sheaf} (he : s.firstPhase core slot a = some (k, g, t)) (hs : s.memOk) : t.memOk := by
  fun_induction s.firstPhase core slot a <;> grind [memOk_takeIn]

theorem outOk_execPhaseResume (hs : s.memOk) : OutOk (execPhaseResume core slot s) := by
  grind [execPhaseResume, OutOk, memOk_acquireTeam, memOk_modField, memOk_dropRecord, memOk_firstPhase]

theorem memOk_dropTeams (hs : s.memOk) : s.dropTeams.memOk := hs

theorem memOk_freeDropped (hs : s.memOk) : (s.freeDropped l).memOk := hs

theorem memOk_retireLaunch (hs : s.memOk) : (s.retireLaunch l).memOk := by
  grind [State.retireLaunch, memOk_dropTeams, memOk_mapFields, memOk_writeRecord, memOk_freeDropped, State.memOk]

theorem outOk_execLaunchRetirement {l : Nat} (hs : s.memOk) : OutOk (execLaunchRetirement l s) := by
  grind [execLaunchRetirement, OutOk, memOk_retireLaunch]

theorem memOk_clearLaunch (hs : s.memOk) : (s.clearLaunch l).memOk := by
  grind [State.clearLaunch, memOk_keepHeaders, memOk_mapFields, memOk_mapCores, memOk_endSheaf, memOk_dropChildren, memOk_freeDropped, memOk_foldl,
    State.memOk]

theorem outOk_execLaunchRestart {l : Nat} (hs : s.memOk) : OutOk (execLaunchRestart l s) := by
  grind [execLaunchRestart, OutOk, memOk_report, memOk_clearLaunch, memOk_modLaunch]

end Sys2Proof.Machine
end

section
/-! SUPPORT. The memory stays canonical: the context engine, the other engines and the firmware (R131/05). Settles O59. -/

namespace Sys2Proof.Machine

variable {s t : State} {a cores : List Nat} {a3 cluster code core ctx field i idx job link m n vl : Nat} {bs c data p : List Byte}
  {d : Option Decoder} {e : BitVec 256} {high ok : Bool} {j : Job} {r : RegTarget} {st : Stream} {v : BitVec 64}

/-! ### The context engine -/

theorem memOk_writeParts (hs : s.memOk) : (s.writeParts ctx a a3).memOk := by fun_induction s.writeParts ctx a a3 <;> grind [memOk_putPages]

theorem memOk_writeSave (hs : s.memOk) : (s.writeSave ctx job).memOk := by
  grind [State.writeSave, memOk_putPages, memOk_putPage, memOk_writeParts, memOk_writePlanes, memOk_foldl]

theorem memOk_drawSheaves (hs : s.memOk) : (s.drawSheaves ctx cores).memOk := by grind [State.drawSheaves, memOk_openCold, memOk_foldl]

theorem memOk_liftCores (hs : s.memOk) : (s.liftCores ctx cores).memOk := by
  grind [State.liftCores, memOk_mapSheaves, memOk_modCore, memOk_modCtx, memOk_drawSheaves, memOk_foldl]

theorem memOk_clearBuffers (hs : s.memOk) : (s.clearBuffers ctx).memOk := hs

theorem memOk_parkContext (hs : s.memOk) : (s.parkContext ctx job).memOk := by
  grind [State.parkContext, memOk_modCtx, memOk_liftCores, memOk_clearBuffers, memOk_writeSave, memOk_drawSheaves, State.memOk]

theorem memOk_bufferSave (hs : s.memOk) : (s.bufferSave ctx).memOk := by grind [State.bufferSave, memOk_modField, memOk_liftCores, memOk_foldl]

theorem memOk_saveOrStall (hs : s.memOk) : (s.saveOrStall ctx job).memOk := by
  grind [State.saveOrStall, memOk_modCtx, memOk_bufferSave, memOk_tell, memOk_parkContext]

theorem memOk_beginPark (hs : s.memOk) : (s.beginPark ctx).memOk := by grind [State.beginPark, memOk_modRes, memOk_foldl]

/-- The two equations of `State.readRecords` are stated here because its generated ones are too costly to unfold. -/
theorem readRecords_nil : s.readRecords ctx gpa [] = some s := by
  delta State.readRecords
  rfl

theorem readRecords_cons {h : Sheaf} {xs : List Sheaf} : s.readRecords ctx gpa (h :: xs) =
    match s.getPages ctx gpa 64 with
    | none => none
    | some m => State.readRecords (s.modSheaf h.id fun h => h.ofRecord m) ctx (gpa + 262144) xs := by
  delta State.readRecords
  rfl

theorem memOk_readRecords {gpa : Nat} {xs : List Sheaf} (he : s.readRecords ctx gpa xs = some t) (hs : s.memOk) : t.memOk := by
  induction xs generalizing s gpa with
  | nil =>
    rw [readRecords_nil] at he
    exact Option.some.inj he ▸ hs
  | cons h xs ih =>
    rw [readRecords_cons] at he
    split at he
    · cases he
    · exact ih he (memOk_modSheaf hs)

theorem memOk_resumeCore {part : Core} (he : s.resumeCore ctx core part = some t) (hs : s.memOk) : t.memOk := by
  grind [State.resumeCore, memOk_mapSheaves, memOk_modCore, memOk_l1Empty]

theorem memOk_resumeCores {a : List (Nat × Core)} (he : s.resumeCores ctx a = some t) (hs : s.memOk) : t.memOk := by
  fun_induction s.resumeCores ctx a <;> grind [memOk_resumeCore]

theorem memOk_readWatch (hs : s.memOk) : (s.readWatch ctx).memOk := by grind [State.readWatch, memOk_modCtx]

theorem memOk_resumeContext (he : s.resumeContext ctx = some t) (hs : s.memOk) : t.memOk := by
  unfold State.resumeContext at he
  simp only at he
  split at he
  · cases he
  next u hu =>
    have hread : (u.readWatch ctx).memOk := memOk_readWatch (memOk_readRecords hu hs)
    split at he
    · cases he
    next v hv =>
      have hcores : v.memOk := memOk_resumeCores hv hread
      split at he
      · cases he
        exact hcores
      · cases he

theorem memOk_resetContext (hs : s.memOk) : (s.resetContext ctx).memOk := by
  grind [State.resetContext, memOk_modCtx, memOk_keepHeaders, memOk_mapCores, memOk_clearBuffers, memOk_clearLaunch, memOk_report, memOk_retireLaunch,
    memOk_foldl, State.memOk]

theorem memOk_saveGoesOn (hs : s.memOk) : (s.saveGoesOn ctx).memOk := by grind [State.saveGoesOn, memOk_modCtx, memOk_tell, memOk_parkContext]

theorem outOk_execSaveResume (hs : s.memOk) : OutOk (execSaveResume ctx s) := by grind [execSaveResume, OutOk, memOk_saveGoesOn, memOk_planesGoOn]

theorem outOk_execSaveDeadlineExpiry (hs : s.memOk) : OutOk (execSaveDeadlineExpiry ctx s) := by
  grind [execSaveDeadlineExpiry, OutOk, memOk_resetContext]

/-! ### Engine jobs -/

theorem memOk_markStarted (hs : s.memOk) : (s.markStarted j).memOk := hs

theorem memOk_stopJob {e : EngineStop} (hs : s.memOk) : (s.stopJob j e).memOk := memOk_engineFault hs

theorem memOk_copyElems {x2 : Tile} (hs : s.memOk) : (s.copyElems j x2 a).memOk := by
  fun_induction s.copyElems j x2 a <;> grind [memOk_engineWrite, memOk_engineRead, memOk_engineAt]

theorem memOk_chunkSignal (hs : s.memOk) : (s.chunkSignal j i n).memOk := by
  grind [State.chunkSignal, memOk_reportJob, memOk_jobErrorAt, memOk_credit, memOk_setChunk]

theorem outOk_execCopyChunkLanding {chunk : Nat} (hs : s.memOk) : OutOk (execCopyChunkLanding job chunk s) := by
  grind [execCopyChunkLanding, OutOk, memOk_chunkSignal, memOk_modJob, memOk_copyElems, memOk_stopJob]

theorem memOk_putAll {a : List EnginePut} (hs : s.memOk) : (s.putAll j a).memOk := by fun_induction s.putAll j a <;> grind [memOk_enginePut]

theorem memOk_winnowDone (hs : s.memOk) : (s.winnowDone j).memOk := by grind [State.winnowDone, memOk_putAll, memOk_completeJob, memOk_stopJob]

theorem memOk_dropHeader (hs : s.memOk) : (s.dropHeader st).memOk := hs

theorem memOk_leaveHeaders (hs : s.memOk) : (s.leaveHeaders job).memOk := hs

theorem memOk_failExchange (hs : s.memOk) : (s.failExchange j code).memOk := by
  grind [State.failExchange, memOk_failCode, memOk_enginePut, memOk_leaveHeaders, memOk_foldl]

theorem memOk_stopExchange {e : EngineStop} (hs : s.memOk) : (s.stopExchange j e).memOk := by
  grind [State.stopExchange, memOk_engineUncorr, memOk_failExchange, memOk_stopJob]

theorem memOk_sendStream (hs : s.memOk) : (s.sendStream j i).memOk := by grind [State.sendStream, memOk_modJob, memOk_stopExchange, State.memOk]

theorem memOk_landStream (hs : s.memOk) : (s.landStream j st data).1.memOk := by
  grind [State.landStream, memOk_chunkSignal, memOk_modJob, memOk_enginePut, memOk_stopExchange, memOk_failExchange]

theorem memOk_landOwn (hs : s.memOk) : (s.landOwn j st).memOk := by
  grind [State.landOwn, memOk_modJob, memOk_dropHeader, memOk_landStream, memOk_stopExchange]

theorem memOk_landHeld (hs : s.memOk) : (s.landHeld job st).memOk := by grind [State.landHeld, memOk_landOwn, memOk_failExchange, memOk_dropHeader]

theorem memOk_exchangeHeld (hs : s.memOk) : (s.exchangeHeld job).memOk := by grind [State.exchangeHeld, memOk_landHeld, memOk_foldl]

theorem memOk_landRows (hs : s.memOk) : (s.landRows st data).memOk := by grind [State.landRows, memOk_dropHeader, memOk_landStream, State.memOk]

theorem memOk_arriveStream (hs : s.memOk) : (s.arriveStream st).memOk := by grind [State.arriveStream, memOk_landRows, State.memOk]

theorem memOk_startExchange (hs : s.memOk) : (s.startExchange j).memOk := by
  grind [State.startExchange, memOk_modJob, memOk_markStarted, memOk_failExchange, memOk_stopExchange, State.memOk]

theorem outOk_execExchangeHeaderAdmission (hs : s.memOk) : OutOk (execExchangeHeaderAdmission s) := by
  grind [execExchangeHeaderAdmission, OutOk, memOk_arriveStream, State.memOk]

theorem outOk_execExchangeDeadlineExpiry (hs : s.memOk) : OutOk (execExchangeDeadlineExpiry job s) := by
  grind [execExchangeDeadlineExpiry, OutOk, memOk_failExchange]

theorem outOk_execStreamFailedByPeer (hs : s.memOk) : OutOk (execStreamFailedByPeer job idx s) := by
  grind [execStreamFailedByPeer, OutOk, memOk_failExchange]

theorem memOk_peerLost (hs : s.memOk) : (s.peerLost job m).memOk := by grind [State.peerLost, memOk_failExchange]

theorem memOk_streamMatched (hs : s.memOk) : (s.streamMatched job idx).memOk := by grind [State.streamMatched, memOk_sendStream, memOk_modJob]

theorem memOk_streamAcked (hs : s.memOk) : (s.streamAcked job idx).memOk := by grind [State.streamAcked, memOk_modJob]

theorem memOk_revPut {rev va : Nat} (he : s.revPut j rev va bs = .ok t) (hs : s.memOk) : t.memOk := by grind [State.revPut, memOk_glWrite]

theorem memOk_logConflict {ring addr c : Nat} {st : BitVec 5} (he : s.logConflict j ring addr c = .ok (t, st)) (hs : s.memOk) : t.memOk := by
  unfold State.logConflict at he
  simp only at he
  split at he
  · cases he
  split at he
  · split at he
    · cases he
    next u hu =>
      cases he
      exact memOk_revPut hu hs
  · split at he
    · cases he
    next u hu =>
      split at he
      · cases he
      next v hv =>
        cases he
        exact memOk_revPut hv (memOk_revPut hu hs)

theorem memOk_logLine {a : List Byte} {ks : List Nat} {st : BitVec 5} (he : s.logLine j e vl p c a ks = .ok (t, st, bs)) (hs : s.memOk) :
    t.memOk := by
  induction ks generalizing s t st bs with
  | nil =>
    rw [State.logLine] at he
    cases he
    exact hs
  | cons k ks ih =>
    rw [State.logLine] at he
    split at he
    · split at he
      · cases he
      next hconflict =>
        split at he
        · cases he
        next hrest =>
          cases he
          exact ih hrest (memOk_logConflict hconflict hs)
    · split at he
      · cases he
      next hrest =>
        cases he
        exact ih hrest hs

theorem memOk_appendRecords {pc ac : Nat} (he : s.appendRecords j e pc ac a = .ok t) (hs : s.memOk) : t.memOk := by
  fun_induction s.appendRecords j e pc ac a <;> grind [memOk_revPut]

theorem memOk_appendLine {a : List Byte} {st : BitVec 5} (he : s.appendLine j e p c a = .ok (t, st, bs)) (hs : s.memOk) : t.memOk := by
  unfold State.appendLine at he
  grind [memOk_appendRecords]

theorem memOk_mergeOne {st : BitVec 5} (he : s.mergeOne j vl = .ok (t, st)) (hs : s.memOk) : t.memOk := by
  unfold State.mergeOne at he
  split at he
  · cases he
    exact hs
  split at he
  · cases he
  simp only at he
  split at he
  · cases he
  split at he
  · cases he
  split at he
  · cases he
  next u st d hr =>
    have hmerged : u.memOk := by
      split at hr
      · exact memOk_logLine hr hs
      · split at hr
        · split at hr
          · exact memOk_appendLine hr hs
          · cases hr
            exact hs
        · cases hr
          exact hs
    split at he
    · cases he
      exact hmerged
    · split at he
      · cases he
      · cases he
        exact memOk_glWrite hmerged

theorem outOk_execMergeLineAction (hs : s.memOk) : OutOk (execMergeLineAction job s) := by
  unfold execMergeLineAction
  grind [OutOk, memOk_engineUncorr, memOk_reportJob, memOk_stopJob, memOk_modJob, memOk_mergeOne]

theorem outOk_execJoinCompletion (hs : s.memOk) : OutOk (execJoinCompletion job s) := by
  grind [execJoinCompletion, OutOk, memOk_finishWait, memOk_l1Clear, memOk_modSheaf, memOk_modCtx, memOk_dropJob, memOk_foldl]

theorem outOk_execJobStart (hs : s.memOk) : OutOk (execJobStart job s) := by
  grind [execJobStart, OutOk, memOk_beginPark, memOk_markStarted, memOk_modJob, memOk_startExchange]

theorem outOk_execJobCompletion (hs : s.memOk) : OutOk (execJobCompletion job s) := by
  grind [execJobCompletion, OutOk, memOk_saveOrStall, memOk_dropJob, memOk_resumeContext, memOk_winnowDone, memOk_completeJob]

theorem outOk_execEngineXlate2Timeout (hs : s.memOk) : OutOk (execEngineXlate2Timeout job s) := by
  grind [execEngineXlate2Timeout, OutOk, memOk_failJob, memOk_reportJob, memOk_modJob, memOk_failExchange]

theorem memOk_sendMatched (hs : s.memOk) : (s.sendMatched job a).memOk := by fun_induction s.sendMatched job a <;> grind [memOk_sendStream]

theorem outOk_execEngineAccessMappingMade (hs : s.memOk) : OutOk (execEngineAccessMappingMade job s) := by
  grind [execEngineAccessMappingMade, OutOk, memOk_sendMatched, memOk_modJob]

theorem memOk_failPlain (hs : s.memOk) : (s.failPlain j).memOk := by grind [State.failPlain, memOk_failCode, memOk_failExchange]

theorem memOk_endMerge (hs : s.memOk) : (s.endMerge j).memOk := by grind [State.endMerge, memOk_reportReplay, memOk_modJob]

theorem outOk_execJobReplay (hs : s.memOk) : OutOk (execJobReplay job s) := by
  grind [execJobReplay, OutOk, memOk_reportReplay, memOk_failPlain, memOk_endMerge, State.memOk]

/-! ### Firmware, host registers and peers -/

theorem memOk_statusChanged (hs : s.memOk) : s.statusChanged.memOk := hs

theorem outOk_execModuleReset (hs : s.memOk) : OutOk (execModuleReset s) := memory_wf_filter s.mem _ hs

theorem memOk_bringUpFails (hs : s.memOk) : s.bringUpFails.memOk := hs

theorem memOk_stepDone {n : BitVec 8} (hs : s.memOk) : (s.stepDone n).memOk := hs

theorem outOk_execFirmwareBundleVerification {sig : BundleSignature} {version : Nat} {sysCtx : Option Nat} (hs : s.memOk) :
    OutOk (execFirmwareBundleVerification sig version sysCtx s) := by
  grind [execFirmwareBundleVerification, OutOk, memOk_bringUpFails, memOk_stepDone, State.memOk]

theorem memOk_setDecoder (hs : s.memOk) : (s.setDecoder n d).memOk := by grind [State.setDecoder, State.memOk]

theorem memOk_setBarn {page : Nat} {e : BitVec 32} (hs : s.memOk) : (s.setBarn field page e).memOk := by grind [State.setBarn, memOk_modField]

theorem memOk_setGranary {mib : Nat} (hs : s.memOk) : (s.setGranary field mib).memOk := by grind [State.setGranary, memOk_modField]

theorem outOk_execBringUpMemory {p : MemoryPolicy} (hs : s.memOk) : OutOk (execBringUpMemory ok p s) := by
  grind [execBringUpMemory, OutOk, memOk_stepDone, memOk_setGranary, memOk_setBarn, memOk_setDecoder, memOk_bringUpFails, memOk_foldl]

theorem memOk_writeRamp {v : Dword} (hs : s.memOk) : (s.writeRamp cluster high v).memOk := by grind [State.writeRamp, memOk_modRamp]

theorem outOk_execBringUpPower {p : PowerPolicy} (hs : s.memOk) : OutOk (execBringUpPower ok p s) := by
  grind [execBringUpPower, OutOk, memOk_stepDone, memOk_writeRamp, memOk_bringUpFails, memOk_foldl, State.memOk]

theorem memOk_defaultBudgets (hs : s.memOk) : s.defaultBudgets.memOk := hs

theorem outOk_execBringUpFabric {device : BitVec 13} (hs : s.memOk) : OutOk (execBringUpFabric ok device s) := by
  grind [execBringUpFabric, OutOk, memOk_defaultBudgets, memOk_stepDone, memOk_bringUpFails, State.memOk]

theorem outOk_execBringUpQueues {queues : List Nat} (hs : s.memOk) : OutOk (execBringUpQueues ok queues s) := by
  grind [execBringUpQueues, OutOk, memOk_stepDone, memOk_modQueue, memOk_bringUpFails, memOk_foldl, State.memOk]

theorem outOk_execSpdmMeasurementRequest {nonce : List (BitVec 8)} (hs : s.memOk) : OutOk (execSpdmMeasurementRequest nonce s) := by
  grind [execSpdmMeasurementRequest, OutOk, State.memOk]

theorem outOk_execPhysicalSubmissionRegisterWrite (hs : s.memOk) : OutOk (execPhysicalSubmissionRegisterWrite v s) := by
  grind [execPhysicalSubmissionRegisterWrite, OutOk, memOk_reportHost, memOk_modQueue, State.memOk]

theorem outOk_execAllowListEntryWrite {q off : Nat} {bytes : List (BitVec 8)} (hs : s.memOk) : OutOk (execAllowListEntryWrite q off bytes s) := by
  grind [execAllowListEntryWrite, OutOk, memOk_modQueue]

theorem outOk_execRampTableWrite (hs : s.memOk) : OutOk (execRampTableWrite cluster high v s) := by grind [execRampTableWrite, OutOk, memOk_writeRamp]

theorem outOk_execPooledMemoryDecoderWrite (hs : s.memOk) : OutOk (execPooledMemoryDecoderWrite n d s) := by
  grind [execPooledMemoryDecoderWrite, OutOk, memOk_setDecoder]

theorem memOk_setClock {mhz : Nat} (hs : s.memOk) : (s.setClock mhz).memOk := by grind [State.setClock, State.memOk]

theorem memOk_putRegister (hs : s.memOk) : (s.putRegister r v).memOk := by
  unfold State.putRegister
  grind [memOk_setClock, memOk_setGranary, memOk_setBarn, memOk_modCtx, State.memOk]

theorem outOk_execRegisterWrite (hs : s.memOk) : OutOk (execRegisterWrite r v s) := by grind [execRegisterWrite, OutOk, memOk_putRegister]

theorem outOk_execPowerCapInterval (hs : s.memOk) : OutOk (execPowerCapInterval s) := by
  grind [execPowerCapInterval, OutOk, memOk_statusChanged, State.memOk]

theorem outOk_execMailboxMessage {sender : Nat} {msg : List (BitVec 8)} (hs : s.memOk) : OutOk (execMailboxMessage core sender msg s) := by
  grind [execMailboxMessage, OutOk, memOk_tell, State.memOk]

theorem memOk_mailboxRead (hs : s.memOk) : (s.mailboxRead core).memOk := by grind [State.mailboxRead, State.memOk]

theorem memOk_reportFenced {engine : Nat} (hs : s.memOk) : (s.reportFenced ctx engine core).memOk := memOk_report hs

theorem memOk_fenceCore (hs : s.memOk) : (s.fenceCore core).memOk := by
  grind [State.fenceCore, memOk_reportFenced, memOk_modCore, memOk_endSheaf, memOk_mapFields, memOk_foldl]

theorem memOk_fenceEngine (hs : s.memOk) : (s.fenceEngine field code).memOk := by grind [State.fenceEngine, memOk_reportFenced, memOk_foldl]

theorem memOk_dropLink (hs : s.memOk) : (s.dropLink link).memOk := by
  unfold State.dropLink
  exact wf_map_filter _ (fun c => by grind) hs

theorem memOk_fencePort {port : Nat} (hs : s.memOk) : (s.fencePort port).memOk := by
  grind [State.fencePort, memOk_reportFenced, memOk_foldl, State.memOk]

theorem memOk_onLink (hs : s.memOk) : (s.onLink ctx m link).2.memOk := by grind [State.onLink, memOk_flip]

theorem memOk_storesOn {a : List RemoteStore} (hs : s.memOk) : (s.storesOn link a).2.memOk := by
  fun_induction s.storesOn link a <;> grind [memOk_onLink]

theorem memOk_streamOn (hs : s.memOk) : (s.streamOn j link a).2.memOk := by fun_induction s.streamOn j link a <;> grind [memOk_onLink]

theorem memOk_jobsOn {a : List Job} (hs : s.memOk) : (s.jobsOn link a).2.memOk := by fun_induction s.jobsOn link a <;> grind [memOk_streamOn]

theorem memOk_storeFails {r : RemoteStore} (hs : s.memOk) : (s.storeFails r).memOk := by grind [State.storeFails, memOk_modLaunch, State.memOk]

theorem memOk_fenceLink (hs : s.memOk) : (s.fenceLink link).memOk := by
  grind [State.fenceLink, memOk_reportFenced, memOk_dropLink, memOk_storeFails, memOk_jobsOn, memOk_storesOn, memOk_foldl, State.memOk]

theorem memOk_fence {f : FuncId} (hs : s.memOk) : (s.fence f).memOk := by
  grind [State.fence, memOk_fenceLink, memOk_fencePort, memOk_fenceEngine, memOk_fenceCore, State.memOk]

theorem outOk_execUncorrectableError {e : ErrorReport} (hs : s.memOk) : OutOk (execUncorrectableError e s) := by
  grind [execUncorrectableError, OutOk, memOk_fence, memOk_reportUncorr]

theorem outOk_execBrynozLinkFailure (hs : s.memOk) : OutOk (execBrynozLinkFailure link s) := by grind [execBrynozLinkFailure, OutOk, memOk_dropLink]

theorem outOk_execPeerModuleFailure (hs : s.memOk) : OutOk (execPeerModuleFailure m s) := by
  grind [execPeerModuleFailure, OutOk, memOk_failExchange, memOk_foldl, State.memOk]

theorem memOk_exportPut {a : PeerAccess} {a2 : List Byte} (hs : s.memOk) : (s.exportPut a a2 a3).memOk := by
  fun_induction s.exportPut a a2 a3 <;> grind [memOk_glWrite]

theorem outOk_execPeerAccessArrival {a : PeerAccess} (hs : s.memOk) : OutOk (execPeerAccessArrival a s) := by
  grind [execPeerAccessArrival, OutOk, memOk_exportPut]

end Sys2Proof.Machine
end

section
/-! SUPPORT. The memory stays canonical: vector instructions, landings, the parser and scalar instructions (R131/05). Settles O59. -/

namespace Sys2Proof.Machine

variable {s t : State} {a addr b ctx d k l m p pend q sheaf type : Nat} {e : List Byte} {f : Dword → Dword → Dword} {o : RedOp} {op : FOp}
  {rel : FRel} {srcs : List Nat} {vs : Bool}

/-! ### Vector instructions -/

theorem memOk_vec32 {f : Word → Word → Word} (hs : s.memOk) : (s.vec32 vs d a b f).memOk := by grind [State.vec32, memOk_vwrite, memOk_retire]

theorem memOk_vec64 (hs : s.memOk) : (s.vec64 vs d a b f).memOk := by grind [State.vec64, memOk_vwrite64, memOk_retire]

theorem memOk_raiseDz {c : Bool} (hs : s.memOk) : (s.raiseDz c).memOk := by grind [State.raiseDz, memOk_modMe]

theorem memOk_vdiv32 {f : Word → Word → Word} (hs : s.memOk) : (s.vdiv32 vs d a b f).memOk := by grind [State.vdiv32, memOk_vec32, memOk_raiseDz]

theorem memOk_vdiv64 (hs : s.memOk) : (s.vdiv64 vs d a b f).memOk := by grind [State.vdiv64, memOk_vec64, memOk_raiseDz]

theorem memOk_vun32 {f : Word → Word} (hs : s.memOk) : (s.vun32 d a f).memOk := by grind [State.vun32, memOk_vwrite, memOk_retire]

theorem memOk_vun64 {f : Dword → Dword} (hs : s.memOk) : (s.vun64 d a f).memOk := by grind [State.vun64, memOk_vwrite64, memOk_retire]

theorem memOk_fp32 {f : Nat → FRes} (hs : s.memOk) : (s.fp32 d f).memOk := by grind [State.fp32, memOk_modMe, memOk_fpFinish]

theorem memOk_fp64 {f : Nat → FRes} (hs : s.memOk) : (s.fp64 d f).memOk := by grind [State.fp64, memOk_modMe, memOk_fpFinish]

theorem memOk_fbin {f : Fmt} (hs : s.memOk) : (s.fbin f op vs d a b).memOk := memOk_fp32 hs

theorem memOk_fbin64 (hs : s.memOk) : (s.fbin64 op vs d a b).memOk := memOk_fp64 hs

theorem memOk_fun32 {f : Fmt} {op : FUn} (hs : s.memOk) : (s.fun32 f op d a).memOk := memOk_fp32 hs

theorem memOk_fun64 {op : FUn} (hs : s.memOk) : (s.fun64 op d a).memOk := memOk_fp64 hs

theorem memOk_pendFp {raised : List (Nat × Raised)} {p : Pending} (hs : s.memOk) : (s.pendFp raised l p).memOk := by
  grind [State.pendFp, memOk_modMe, memOk_addPending, memOk_fpFinish]

theorem memOk_transOp {fn : Trans} {x : Nat → Word} (hs : s.memOk) : (s.transOp fn d l x).memOk := memOk_pendFp hs

theorem memOk_vcmp32 {f : Word → Word → Bool} (hs : s.memOk) : (s.vcmp32 vs d a b f).memOk := by grind [State.vcmp32, memOk_pwrite, memOk_retire]

theorem memOk_vcmp64 {f : Dword → Dword → Bool} (hs : s.memOk) : (s.vcmp64 vs d a b f).memOk := by grind [State.vcmp64, memOk_pwrite, memOk_retire]

theorem memOk_fcmpP {f : Nat → Bool × Raised} (hs : s.memOk) : (s.fcmpP d f).memOk := by grind [State.fcmpP, memOk_modMe, memOk_fpFinish]

theorem memOk_fcmp32 {f : Fmt} (hs : s.memOk) : (s.fcmp32 f rel vs d a b).memOk := memOk_fcmpP hs

theorem memOk_fcmp64 (hs : s.memOk) : (s.fcmp64 rel vs d a b).memOk := memOk_fcmpP hs

theorem outOk_execSelB32Vv (hs : s.memOk) : OutOk (execSelB32Vv d a b p s) := by grind [execSelB32Vv, OutOk, memOk_vwrite, memOk_retire]

theorem outOk_execSelB64Vv (hs : s.memOk) : OutOk (execSelB64Vv d a b p s) := by grind [execSelB64Vv, OutOk, memOk_vwrite64, memOk_retire]

theorem outOk_execSelB32Vs (hs : s.memOk) : OutOk (execSelB32Vs d a b p s) := by grind [execSelB32Vs, OutOk, memOk_vwrite, memOk_retire]

theorem outOk_execSelB64Vs (hs : s.memOk) : OutOk (execSelB64Vs d a b p s) := by grind [execSelB64Vs, OutOk, memOk_vwrite64, memOk_retire]

theorem outOk_execPand (hs : s.memOk) : OutOk (execPand d a b s) := by grind [execPand, OutOk, memOk_pwrite, memOk_retire]

theorem outOk_execPor (hs : s.memOk) : OutOk (execPor d a b s) := by grind [execPor, OutOk, memOk_pwrite, memOk_retire]

theorem outOk_execPxor (hs : s.memOk) : OutOk (execPxor d a b s) := by grind [execPxor, OutOk, memOk_pwrite, memOk_retire]

theorem outOk_execPnot (hs : s.memOk) : OutOk (execPnot d a s) := by grind [execPnot, OutOk, memOk_pwrite, memOk_retire]

theorem outOk_execPfroms (hs : s.memOk) : OutOk (execPfroms d a s) := by grind [execPfroms, OutOk, memOk_pwrite, memOk_retire]

theorem outOk_execStop (hs : s.memOk) : OutOk (execStop d a s) := by grind [execStop, OutOk, memOk_swrite, memOk_retire]

theorem outOk_execPall (hs : s.memOk) : OutOk (execPall d s) := by grind [execPall, OutOk, memOk_pwrite, memOk_retire]

theorem outOk_execPnone (hs : s.memOk) : OutOk (execPnone d s) := by grind [execPnone, OutOk, memOk_pwrite, memOk_retire]

theorem outOk_execCvt {s' x4 : ElemType} {r : Rounding} (hs : s.memOk) : OutOk (execCvt d a s' r x4 s) := by
  grind [execCvt, OutOk, memOk_modMe, memOk_fpFinish]

theorem outOk_execPkE2m1 (hs : s.memOk) : OutOk (execPkE2m1 d a b s) := by grind [execPkE2m1, OutOk, memOk_vwrite, memOk_fpFinish]

/-! ### Shuffles, votes, reductions and scans -/

theorem memOk_sourceWait {i : Issue} {ws : List Wait} {p : Pending} (hs : s.memOk) : (s.sourceWait i ws p).memOk := by
  grind [State.sourceWait, memOk_takeLoadFault, memOk_modMe]

theorem memOk_collect {act : Mask → (Nat → Nat) → State → State} (ha : ∀ m b s, s.memOk → (act m b s).memOk) (hs : s.memOk) :
    (s.collect m srcs act).memOk := by
  unfold State.collect
  grind [State.memOk, memOk_sourceWait, memOk_modMe, memOk_retireWaited]

theorem memOk_vwriteAt {base : Nat → Nat} {f : Nat → Word} (hs : s.memOk) : (s.vwriteAt base d f).memOk := by grind [State.vwriteAt, memOk_modMe]

theorem memOk_shuffle {j : State → (Nat → Nat) → Nat → Option Nat} (hs : s.memOk) : (s.shuffle m d a srcs j).memOk := by
  grind [State.shuffle, memOk_vwriteAt, memOk_collect]

theorem memOk_vote {f : List Word → Bool} (hs : s.memOk) : (s.vote m d a f).memOk := by grind [State.vote, memOk_pwrite, memOk_collect]

theorem memOk_lred (hs : s.memOk) : (s.lred o d a).memOk := by grind [State.lred, memOk_vwrite, memOk_fpFinish]

theorem memOk_scan {excl : Bool} (hs : s.memOk) : (s.scan o excl d a).memOk := by grind [State.scan, memOk_vwrite, memOk_fpFinish]

theorem memOk_tred (hs : s.memOk) : (s.tred o d a l).memOk := by grind [State.tred, memOk_pendFp]

theorem outOk_execVoteBallot (hs : s.memOk) : OutOk (execVoteBallot d a m s) := by grind [execVoteBallot, OutOk, memOk_swrite, memOk_collect]

/-! ### Byte expectations -/

theorem outOk_execBexp (hs : s.memOk) : OutOk (execBexp d a s) := by grind [execBexp, OutOk, memOk_modTeam, memOk_retire, memOk_trapAll]

/-! ### Landings -/

theorem outOk_execLoadFaultMappingMade (hs : s.memOk) : OutOk (execLoadFaultMappingMade sheaf pend s) := by
  grind [execLoadFaultMappingMade, OutOk, memOk_replayLoad, memOk_modSheaf]

theorem outOk_execLoadFaultWaitTimeout (hs : s.memOk) : OutOk (execLoadFaultWaitTimeout sheaf pend s) := by
  grind [execLoadFaultWaitTimeout, OutOk, memOk_modSheaf, memOk_takeLoadFault]

theorem outOk_execCollstallTimeout (hs : s.memOk) : OutOk (execCollstallTimeout sheaf s) := by
  grind [execCollstallTimeout, OutOk, memOk_modSheaf, memOk_takeTrap]

theorem memOk_wakeAll (hs : s.memOk) : s.wakeAll.memOk := hs

theorem memOk_performTicket {r : SeqReq} (hs : s.memOk) : (s.performTicket r).memOk := by
  grind [State.performTicket, memOk_modSheaf, memOk_atomAt, memOk_l1Clear, memOk_releasePeers]

theorem outOk_execSequencerTicket (hs : s.memOk) : OutOk (execSequencerTicket s) := by
  grind [execSequencerTicket, OutOk, memOk_performTicket, memOk_wakeAll, State.memOk]

theorem outOk_execRemoteStoreAcknowledgement {fail : Option Cause} (hs : s.memOk) : OutOk (execRemoteStoreAcknowledgement k fail s) := by
  grind [execRemoteStoreAcknowledgement, OutOk, memOk_wakeAll, memOk_reportUncorr, memOk_glWrite, memOk_l1Drop, memOk_modLaunch, State.memOk]

/-! ### Supervisor instructions -/

theorem memOk_dropTlb {range : Option (Bool × Nat × Nat)} (hs : s.memOk) : (s.dropTlb ctx range).memOk := hs

theorem outOk_execXlinv (hs : s.memOk) : OutOk (execXlinv k a s) := by
  grind [execXlinv, OutOk, memOk_dropTlb, memOk_retire, memOk_stallMe, memOk_trapAll]

theorem outOk_execWpset (hs : s.memOk) : OutOk (execWpset d a b s) := by grind [execWpset, OutOk, memOk_modCtx, memOk_retire, memOk_trapAll]

theorem memOk_fetchCause (hs : s.memOk) : s.fetchCause.2.memOk := by grind [State.fetchCause, memOk_xlate]

theorem outOk_execFetchFault (hs : s.memOk) : OutOk (execFetchFault s) := by
  unfold execFetchFault
  have hcause := memOk_fetchCause hs
  split
  next u hu => grind [OutOk]
  next c port u hu =>
    have hreported : (if c = .uncorr then u.reportUncorr u.me.ctx u.issuePc.toNat port u.issuePc.toNat else u).memOk := by
      grind [memOk_reportUncorr]
    exact memOk_getD (fun t ht => memOk_trapLanes ht hreported) hreported

/-! ### The command parser -/

theorem memOk_nextEntry (hs : s.memOk) : (s.nextEntry q).memOk := hs

theorem memOk_dropEntry (hs : s.memOk) : (s.dropEntry q e addr).memOk := memOk_report hs

theorem memOk_parse {f : Nat → List Byte → State} (hf : ∀ c e, (f c e).memOk) (hs : s.memOk) : (s.parse q type f).memOk := by
  unfold State.parse
  grind [memOk_dropEntry]

theorem outOk_execNoOperation (hs : s.memOk) : OutOk (execNoOperation q s) := memOk_parse (fun _ _ => hs) hs

theorem memOk_submit {d : List Byte} (hs : s.memOk) : (s.submit ctx e d).memOk := by grind [State.submit, memOk_fresh, State.memOk]

theorem outOk_execLaunch (hs : s.memOk) : OutOk (execLaunch q s) := by
  grind [execLaunch, OutOk, memOk_dropEntry, memOk_submit, memOk_nextEntry, memOk_parse]

theorem outOk_execEngineJobCard (hs : s.memOk) : OutOk (execEngineJobCard q s) := by
  grind [execEngineJobCard, OutOk, memOk_enqueue, memOk_reportJob, memOk_dropEntry, memOk_guestUncorr, memOk_nextEntry, memOk_parse]

theorem memOk_wordInterrupt (hs : s.memOk) : (s.wordInterrupt ctx addr).memOk := by grind [State.wordInterrupt, memOk_interrupt]

theorem outOk_execSignalEventWord (hs : s.memOk) : OutOk (execSignalEventWord q s) := by
  grind [execSignalEventWord, OutOk, memOk_glWrite, memOk_wordInterrupt, memOk_guestUncorr, memOk_nextEntry, memOk_dropEntry, memOk_parse]

theorem outOk_execWaitEventWord (hs : s.memOk) : OutOk (execWaitEventWord q s) := by
  grind [execWaitEventWord, OutOk, memOk_modQueue, memOk_guestUncorr, memOk_nextEntry, memOk_dropEntry, memOk_parse]

theorem outOk_execEventWordWaitSatisfied (hs : s.memOk) : OutOk (execEventWordWaitSatisfied q s) := by
  grind [execEventWordWaitSatisfied, OutOk, memOk_modQueue, memOk_nextEntry]

theorem outOk_execReclaimRequest {src : ReclaimSource} (hs : s.memOk) : OutOk (execReclaimRequest src s) := by
  unfold execReclaimRequest
  grind [OutOk, memOk_guestUncorr, memOk_nextEntry, memOk_dropEntry, memOk_parse, memOk_reclaim]

theorem memOk_contextCommand {resume : Bool} (hs : s.memOk) : (s.contextCommand q type resume).memOk := by
  grind [State.contextCommand, memOk_enqueue, memOk_nextEntry, memOk_dropEntry, memOk_parse]

theorem memOk_parkAsked (hs : s.memOk) : (s.parkAsked ctx).memOk := by grind [State.parkAsked, memOk_ackRetired, memOk_mapCores]

theorem outOk_execParkContext (hs : s.memOk) : OutOk (execParkContext q s) := by grind [execParkContext, OutOk, memOk_parkAsked, memOk_contextCommand]

theorem outOk_execTranslationInvalidation (hs : s.memOk) : OutOk (execTranslationInvalidation q s) := by
  grind [execTranslationInvalidation, OutOk, memOk_dropTlb, memOk_nextEntry, memOk_dropEntry, memOk_parse]

theorem outOk_execReservedCommandType (hs : s.memOk) : OutOk (execReservedCommandType q s) := by
  grind [execReservedCommandType, OutOk, memOk_dropEntry]

/-! ### Scalar instructions -/

theorem memOk_scalarOp {x : Dword} (hs : s.memOk) : (s.scalarOp d x).memOk := by grind [State.scalarOp, memOk_swrite, memOk_retire]

theorem memOk_scalarDiv (hs : s.memOk) : (s.scalarDiv d a b f).memOk := by grind [State.scalarDiv, memOk_scalarOp, memOk_modMe]

theorem memOk_moveWindow {new : Int} (hs : s.memOk) : (s.moveWindow new).memOk := by
  grind [State.moveWindow, memOk_trapAll, memOk_modMe, memOk_retire]

theorem outOk_execVget (hs : s.memOk) : OutOk (execVget d a b s) := by grind [execVget, OutOk, memOk_scalarOp, memOk_flip]

theorem outOk_execVli {i : BitVec 18} (hs : s.memOk) : OutOk (execVli d i s) := by grind [execVli, OutOk, memOk_vwrite, memOk_retire]

theorem outOk_execAddaV (hs : s.memOk) : OutOk (execAddaV d a b s) := by grind [execAddaV, OutOk, memOk_vwrite64, memOk_retire]

theorem outOk_execVmov (hs : s.memOk) : OutOk (execVmov d a s) := by grind [execVmov, OutOk, memOk_vwrite, memOk_retire]

theorem outOk_execVbcast (hs : s.memOk) : OutOk (execVbcast d a s) := by grind [execVbcast, OutOk, memOk_vwrite, memOk_retire]

theorem outOk_execVbcast64 (hs : s.memOk) : OutOk (execVbcast64 d a s) := by grind [execVbcast64, OutOk, memOk_vwrite64, memOk_retire]

theorem outOk_execVput (hs : s.memOk) : OutOk (execVput d a b s) := by grind [execVput, OutOk, memOk_modMe, memOk_retire]

end Sys2Proof.Machine
end

section
/-! SUPPORT. The memory stays canonical through every instruction and event, every issue, every move and the end of a cycle (R131/05). Settles O59. -/

namespace Sys2Proof.Machine

variable {s t : State} {a : List Nat} {core id n : Nat} {due : List Move} {h : Sheaf} {i : Issue} {ins : Instr} {late : List (Nat × Nat)}
  {old : State} {pc : Vaddr} {w : Word} {x1 : Team}

/-! ### Every instruction and event -/

theorem outOk_exec (hs : s.memOk) (i : Instr) : OutOk (exec i s) := by
  cases i
  case moduleReset => exact outOk_execModuleReset hs
  case firmwareBundleVerification => exact outOk_execFirmwareBundleVerification hs
  case bringUpMemory => exact outOk_execBringUpMemory hs
  case bringUpPower => exact outOk_execBringUpPower hs
  case bringUpFabric => exact outOk_execBringUpFabric hs
  case bringUpQueues => exact outOk_execBringUpQueues hs
  case spdmMeasurementRequest => exact outOk_execSpdmMeasurementRequest hs
  case physicalSubmissionRegisterWrite => exact outOk_execPhysicalSubmissionRegisterWrite hs
  case allowListEntryWrite => exact outOk_execAllowListEntryWrite hs
  case rampTableWrite => exact outOk_execRampTableWrite hs
  case pooledMemoryDecoderWrite => exact outOk_execPooledMemoryDecoderWrite hs
  case registerWrite => exact outOk_execRegisterWrite hs
  case noOperation => exact outOk_execNoOperation hs
  case launch => exact outOk_execLaunch hs
  case engineJobCard => exact outOk_execEngineJobCard hs
  case signalEventWord => exact outOk_execSignalEventWord hs
  case waitEventWord => exact outOk_execWaitEventWord hs
  case eventWordWaitSatisfied => exact outOk_execEventWordWaitSatisfied hs
  case reclaimRequest => exact outOk_execReclaimRequest hs
  case parkContext => exact outOk_execParkContext hs
  case resumeContext => exact memOk_contextCommand hs
  case translationInvalidation => exact outOk_execTranslationInvalidation hs
  case launchDispatch => exact outOk_execLaunchDispatch hs
  case launchRetirement => exact outOk_execLaunchRetirement hs
  case sheafMadeResident => exact outOk_execSheafMadeResident hs
  case carveOutChange => exact outOk_execCarveOutChange hs
  case fairnessPeriodExpiry => exact outOk_execFairnessPeriodExpiry hs
  case starvingSheaf => exact outOk_execStarvingSheaf hs
  case foldQuantumExpiry => exact outOk_execFoldQuantumExpiry hs
  case taskTake => exact outOk_execTaskTake hs
  case taskSteal => exact outOk_execTaskSteal hs
  case phaseResume => exact outOk_execPhaseResume hs
  case loadDataArrival => exact memOk_landPending hs
  case loadFaultMappingMade => exact outOk_execLoadFaultMappingMade hs
  case loadFaultWaitTimeout => exact outOk_execLoadFaultWaitTimeout hs
  case collstallTimeout => exact outOk_execCollstallTimeout hs
  case noticeTrap => exact memOk_takePending hs
  case forcedSqueeze => exact outOk_execForcedSqueeze hs
  case squeezeCompletion => exact outOk_execSqueezeCompletion hs
  case expansionStep => exact outOk_execExpansionStep hs
  case scratchPageMove => exact outOk_execScratchPageMove hs
  case matrixCommandStart => exact outOk_execMatrixCommandStart hs
  case rampGovernorStep => exact outOk_execRampGovernorStep hs
  case ringSlotWaitEnd => exact outOk_execRingSlotWaitEnd hs
  case matrixQuiescentStop => exact outOk_execMatrixQuiescentStop hs
  case matrixCommandResume => exact outOk_execMatrixCommandResume hs
  case matrixCommandCompletion => exact outOk_execMatrixCommandCompletion hs
  case matrixFifoPostResume => exact outOk_execMatrixFifoPostResume hs
  case engineQueuePostResume => exact outOk_execEngineQueuePostResume hs
  case jobStart => exact outOk_execJobStart hs
  case copyChunkLanding => exact outOk_execCopyChunkLanding hs
  case jobCompletion => exact outOk_execJobCompletion hs
  case engineXlate2Timeout => exact outOk_execEngineXlate2Timeout hs
  case exchangeStreamArrival => exact memOk_arriveStream hs
  case exchangeHeaderAdmission => exact outOk_execExchangeHeaderAdmission hs
  case exchangeDeadlineExpiry => exact outOk_execExchangeDeadlineExpiry hs
  case mergeLineAction => exact outOk_execMergeLineAction hs
  case joinCompletion => exact outOk_execJoinCompletion hs
  case sequencerTicket => exact outOk_execSequencerTicket hs
  case remoteStoreAcknowledgement => exact outOk_execRemoteStoreAcknowledgement hs
  case l2LineEviction => exact memOk_writeBackPeer hs
  case twaitCompletion => exact outOk_execTwaitCompletion hs
  case cwaitCompletion => exact outOk_execCwaitCompletion hs
  case saveResume => exact outOk_execSaveResume hs
  case saveDeadlineExpiry => exact outOk_execSaveDeadlineExpiry hs
  case uncorrectableError => exact outOk_execUncorrectableError hs
  case jobReplay => exact outOk_execJobReplay hs
  case launchRestart => exact outOk_execLaunchRestart hs
  case brynozLinkFailure => exact outOk_execBrynozLinkFailure hs
  case peerModuleFailure => exact outOk_execPeerModuleFailure hs
  case powerCapInterval => exact outOk_execPowerCapInterval hs
  case thermalTrip => exact hs
  case mailboxMessage => exact outOk_execMailboxMessage hs
  case illegalInstruction | brk | trap => exact memOk_trapAll hs
  case sadd | ssub | smul | smulhI64 | smulhN64 | sand | sor | sxor | sshl | sshrN64 | sshrI64 | sminI64 | sminN64 | smaxI64 | smaxN64 | sseq | ssne |
      ssltI64 | ssltN64 | ssleI64 | ssleN64 | spopc | sclz | sctz | sbrev | smov | saddi | sandi | sori | sxori | sshli | sshriN64 | sshriI64 |
      ssltiI64 | ssltiN64 | smuli | li | sli | addaX1 | addaX2 | addaX4 | addaX8 | addaX16 => exact memOk_scalarOp hs
  case sdivI64 | sdivN64 | sremI64 | sremN64 => exact memOk_scalarDiv hs
  case nop => exact memOk_retire hs
  case exit => exact outOk_execExit hs
  case yield => exact outOk_execYield hs
  case ret => exact outOk_execRet hs
  case bra | bnz | bz | bnzv | bzv => exact memOk_branch hs
  case call => exact outOk_execCall hs
  case loop => exact outOk_execLoop hs
  case vli => exact outOk_execVli hs
  case addaV => exact outOk_execAddaV hs
  case wbase | wshift => exact memOk_moveWindow hs
  case vmov => exact outOk_execVmov hs
  case vbcast => exact outOk_execVbcast hs
  case vbcast64 => exact outOk_execVbcast64 hs
  case vget => exact outOk_execVget hs
  case vput => exact outOk_execVput hs
  case addI32Vv | subI32Vv | mulI32Vv | mulhI32Vv | mulhN32Vv | minI32Vv | minN32Vv | maxI32Vv | maxN32Vv | andB32Vv | orB32Vv | xorB32Vv | shlB32Vv |
      shrN32Vv | shrI32Vv | addsI32Vv | addI32Vs | subI32Vs | mulI32Vs | mulhI32Vs | mulhN32Vs | minI32Vs | minN32Vs | maxI32Vs | maxN32Vs | andB32Vs
      | orB32Vs | xorB32Vs | shlB32Vs | shrN32Vs | shrI32Vs | addsI32Vs => exact memOk_vec32 hs
  case addI64Vv | subI64Vv | mulI64Vv | mulhI64Vv | mulhN64Vv | minI64Vv | minN64Vv | maxI64Vv | maxN64Vv | andB64Vv | orB64Vv | xorB64Vv | shlB64Vv |
      shrN64Vv | shrI64Vv | addsI64Vv | addI64Vs | subI64Vs | mulI64Vs | mulhI64Vs | mulhN64Vs | minI64Vs | minN64Vs | maxI64Vs | maxN64Vs | andB64Vs
      | orB64Vs | xorB64Vs | shlB64Vs | shrN64Vs | shrI64Vs | addsI64Vs => exact memOk_vec64 hs
  case addF16Vv | subF16Vv | mulF16Vv | divF16Vv | minF16Vv | maxF16Vv | fmaF16Vv | fmsF16Vv | fnmaF16Vv | copysignF16Vv | addF16Vs | subF16Vs |
      mulF16Vs | divF16Vs | minF16Vs | maxF16Vs | fmaF16Vs | fmsF16Vs | fnmaF16Vs | copysignF16Vs | addF32Vv | subF32Vv | mulF32Vv | divF32Vv |
      minF32Vv | maxF32Vv | fmaF32Vv | fmsF32Vv | fnmaF32Vv | copysignF32Vv | addF32Vs | subF32Vs | mulF32Vs | divF32Vs | minF32Vs | maxF32Vs |
      fmaF32Vs | fmsF32Vs | fnmaF32Vs | copysignF32Vs | addBf16Vv | subBf16Vv | mulBf16Vv | divBf16Vv | minBf16Vv | maxBf16Vv | fmaBf16Vv | fmsBf16Vv
      | fnmaBf16Vv | copysignBf16Vv | addBf16Vs | subBf16Vs | mulBf16Vs | divBf16Vs | minBf16Vs | maxBf16Vs | fmaBf16Vs | fmsBf16Vs | fnmaBf16Vs |
      copysignBf16Vs => exact memOk_fbin hs
  case addF64Vv | subF64Vv | mulF64Vv | divF64Vv | minF64Vv | maxF64Vv | fmaF64Vv | fmsF64Vv | fnmaF64Vv | copysignF64Vv | addF64Vs | subF64Vs |
      mulF64Vs | divF64Vs | minF64Vs | maxF64Vs | fmaF64Vs | fmsF64Vs | fnmaF64Vs | copysignF64Vs => exact memOk_fbin64 hs
  case divI32Vv | divN32Vv | remI32Vv | remN32Vv | divI32Vs | divN32Vs | remI32Vs | remN32Vs => exact memOk_vdiv32 hs
  case divI64Vv | divN64Vv | remI64Vv | remN64Vv | divI64Vs | divN64Vs | remI64Vs | remN64Vs => exact memOk_vdiv64 hs
  case ceqF32Vv | cltF32Vv | cleF32Vv | cunF32Vv | ceqF16Vv | cltF16Vv | cleF16Vv | cunF16Vv | ceqBf16Vv | cltBf16Vv | cleBf16Vv | ceqF32Vs | cltF32Vs
      | cleF32Vs | cunF32Vs | ceqF16Vs | cltF16Vs | cleF16Vs | cunF16Vs | ceqBf16Vs | cltBf16Vs | cleBf16Vs => exact memOk_fcmp32 hs
  case ceqB32Vv | cltI32Vv | cleI32Vv | cltN32Vv | cleN32Vv | ceqB32Vs | cltI32Vs | cleI32Vs | cltN32Vs | cleN32Vs => exact memOk_vcmp32 hs
  case ceqF64Vv | cltF64Vv | cleF64Vv | cunF64Vv | ceqF64Vs | cltF64Vs | cleF64Vs | cunF64Vs => exact memOk_fcmp64 hs
  case ceqB64Vv | cltI64Vv | cleI64Vv | cltN64Vv | cleN64Vv | ceqB64Vs | cltI64Vs | cleI64Vs | cltN64Vs | cleN64Vs => exact memOk_vcmp64 hs
  case selB32Vv => exact outOk_execSelB32Vv hs
  case selB64Vv => exact outOk_execSelB64Vv hs
  case selB32Vs => exact outOk_execSelB32Vs hs
  case selB64Vs => exact outOk_execSelB64Vs hs
  case rcpF32V | rsqrtF32V | sqrtF32V | exp2F32V | log2F32V | sinF32V | cosF32V | tanhF32V | rcpF32S | rsqrtF32S | sqrtF32S | exp2F32S | log2F32S |
      sinF32S | cosF32S | tanhF32S => exact memOk_transOp hs
  case popcB32 | clzB32 | ctzB32 | brevB32 | notB32 | negI32 | absI32 => exact memOk_vun32 hs
  case popcB64 | clzB64 | ctzB64 | brevB64 | notB64 | negI64 | absI64 => exact memOk_vun64 hs
  case absF32 | negF32 | rintF32 | floorF32 | ceilF32 | truncF32 | absF16 | negF16 | absBf16 | negBf16 => exact memOk_fun32 hs
  case absF64 | negF64 => exact memOk_fun64 hs
  case cvt => exact outOk_execCvt hs
  case pkE2m1 => exact outOk_execPkE2m1 hs
  case upkE2m1 | scaccF32 => exact memOk_fp32 hs
  case shflIdx | shflUp | shflDown | shflXor => exact memOk_shuffle hs
  case voteAny | voteAll | voteEq => exact memOk_vote hs
  case voteBallot => exact outOk_execVoteBallot hs
  case lredAddF32 | lredMaxF32 | lredMinF32 | lredAddI32 | lredMaxI32 | lredMinI32 | lredMaxN32 | lredMinN32 | lredAddF16 | lredMaxF16 | lredMinF16 |
      lredAddBf16 | lredAndB32 | lredOrB32 | lredXorB32 => exact memOk_lred hs
  case tredAddF32 | tredMaxF32 | tredMinF32 | tredAddI32 | tredMaxI32 | tredMinI32 | tredMaxN32 | tredMinN32 | tredAddF16 | tredMaxF16 | tredMinF16 |
      tredAddBf16 | tredAndB32 | tredOrB32 | tredXorB32 => exact memOk_tred hs
  case scanAddF32 | scanMaxF32 | scanMinF32 | scanAddI32 | scanMaxI32 | scanMinI32 | scanMaxN32 | scanMinN32 | scanxAddF32 | scanxMaxF32 | scanxMinF32
      | scanxAddI32 | scanxMaxI32 | scanxMinI32 | scanxMaxN32 | scanxMinN32 => exact memOk_scan hs
  case pand => exact outOk_execPand hs
  case por => exact outOk_execPor hs
  case pxor => exact outOk_execPxor hs
  case pnot => exact outOk_execPnot hs
  case pfroms => exact outOk_execPfroms hs
  case stop => exact outOk_execStop hs
  case pall => exact outOk_execPall hs
  case pnone => exact outOk_execPnone hs
  case ldLn | ldSp | ldCl | ldBn | ldGl | ldAc | ldGlOrdered => exact memOk_loadOp hs
  case pfGl => exact memOk_retire (memOk_prefetchLanes hs)
  case stLn | stSp | stCl | stBn | stGl | stAc | stGlOrdered => exact memOk_storeOp hs
  case cctlGlWb | cctlGlInv | cctlGlWbinv => exact memOk_cctlOp hs
  case atomSp | atomCl | atomBn | atomGl => exact memOk_atomOp hs
  case fence => exact outOk_execFence hs
  case icinv => exact outOk_execIcinv hs
  case cpy | wnw | xchg => exact memOk_post hs
  case rst d a w l => exact outOk_execRst (_l := l) hs
  case bar | arrive | phase => exact memOk_gather hs
  case barWait => exact outOk_execBarWait hs
  case bexp => exact outOk_execBexp hs
  case gate => exact outOk_execGate hs
  case release => exact outOk_execRelease hs
  case twait | twaitImm => exact memOk_waitMe hs
  case cwait | cwaitClr => exact memOk_chunkWait hs
  case nret => exact outOk_execNret hs
  case shrink => exact outOk_execShrink hs
  case spfree => exact outOk_execSpfree hs
  case fork => exact outOk_execFork hs
  case join => exact outOk_execJoin hs
  case rgnw => exact outOk_execRgnw hs
  case rgnr => exact outOk_execRgnr hs
  case mmulBf16 | mmulF16 | mmulE4m3 | mmulE5m2 | mmbE2m1 | msca | mldwBf16 | mldwF16 | mldwE4m3 | mldwE5m2 | mldwE2m1 | mswap | mdrainF32 |
      mdrainBf16 | mdrainF16 | mdrainE4m3 | mdrainE5m2 | mclr => exact memOk_matPost hs
  case mpush a l => exact outOk_execMpush (_l := l) hs
  case mstat a l => exact outOk_execMstat (_l := l) hs
  case tret => exact outOk_execTret hs
  case lpcRd => exact outOk_execLpcRd hs
  case lpcWr => exact outOk_execLpcWr hs
  case spcw => exact outOk_execSpcw hs
  case xlinv => exact outOk_execXlinv hs
  case wpset => exact outOk_execWpset hs
  case fetchFault => exact outOk_execFetchFault hs
  case reservedCommandType => exact outOk_execReservedCommandType hs
  case peerAccessArrival => exact outOk_execPeerAccessArrival hs
  case streamFailedByPeer => exact outOk_execStreamFailedByPeer hs
  case engineAccessMappingMade => exact outOk_execEngineAccessMappingMade hs
  case fillerFinished => exact memOk_modCore hs

/-! ### One issue -/

theorem memOk_fetchMemory (hs : s.memOk) : (s.fetchMemory h pc).2.memOk := by grind [State.fetchMemory, memOk_modCore, memOk_glRead, memOk_xlate]

theorem memOk_fetchBroadcast {lanes : Mask} (hs : s.memOk) : (s.fetchBroadcast h lanes pc).2.memOk := by
  grind [State.fetchBroadcast, memOk_fetchMemory]

theorem memOk_scoreboard {i : Instr} (he : s.scoreboard i = some t) (hs : s.memOk) : t.memOk := by
  grind [State.scoreboard, memOk_dependOnFault, memOk_stallMe]

theorem memOk_bringRegs {i : Instr} (hs : s.memOk) : (s.bringRegs i).2.memOk := memOk_touchRegs hs

theorem memOk_earlyLane {pid lane : Nat} (hs : s.memOk) : (s.earlyLane pid lane).memOk := by grind [State.earlyLane, memOk_landOne, memOk_flip]

theorem memOk_earlyLands {i : Instr} (hs : s.memOk) : (s.earlyLands i).memOk := by grind [State.earlyLands, memOk_earlyLane, memOk_foldl]

theorem memOk_markIssue (hs : s.memOk) : (s.markIssue i h).memOk := by grind [State.markIssue, memOk_modSheaf, memOk_modCore]

theorem memOk_unmark (hs : s.memOk) : (s.unmark i old h).memOk := hs

theorem memOk_endIssue (hs : s.memOk) : s.endIssue.memOk := hs

theorem memOk_afterIssue (hs : s.memOk) : (s.afterIssue i old h).memOk := by grind [State.afterIssue, memOk_endIssue, memOk_modSheaf, memOk_unmark]

theorem outOk_unlessAbove {above : List Cause} {trap : Option State} {go : State} (ht : ∀ t, trap = some t → t.memOk) (hg : go.memOk) :     OutOk
    (s.unlessAbove ins above trap go) := by
  unfold State.unlessAbove
  have hexec := outOk_exec hg ins
  cases trap with
  | none => exact hexec
  | some t =>
    have htrap := ht t rfl
    simp only
    split
    next u hu =>
      rw [hu] at hexec
      split
      · exact hexec
      · exact htrap
    · exact htrap
    · exact htrap

theorem outOk_issueLooked (hs : s.memOk) : OutOk (s.issueLooked i w ins) := by
  unfold State.issueLooked
  refine outOk_unlessAbove (fun t ht => memOk_trapLanes ht hs) ?_
  split
  · exact memOk_earlyLands hs
  · exact memOk_modMe (memOk_earlyLands hs)

theorem outOk_issueInstr (hs : s.memOk) : OutOk (s.issueInstr i w ins) := by
  unfold State.issueInstr
  have hbrought := memOk_bringRegs (i := ins) hs
  split
  next t ht => exact memOk_scoreboard ht hs
  split
  next a u hu =>
    rw [hu] at hbrought
    split
    · exact outOk_issueLooked hbrought
    · exact outOk_unlessAbove (fun t ht => memOk_trapLanes ht hbrought) hbrought
  next u hu =>
    rw [hu] at hbrought
    split
    · exact outOk_issueLooked hbrought
    · exact outOk_issueLooked hbrought

theorem outOk_issueWord (hs : s.memOk) : OutOk (s.issueWord i w) := by
  unfold State.issueWord
  split
  · exact outOk_issueInstr hs
  · exact outOk_exec hs _

theorem outOk_andThen {o : Out} {f : State → State} (ho : OutOk o) (hf : ∀ s, s.memOk → (f s).memOk) : OutOk (andThen o f) := by
  cases o with
  | next t => exact hf t ho
  | fault e => trivial
  | refused e => trivial

theorem memOk_recheckFault {a : Dword} (hs : s.memOk) : (s.recheckFault i a).memOk := by grind [State.recheckFault, memOk_modSheaf, memOk_takeTrap]

theorem outOk_recheck (hs : s.memOk) : OutOk (s.recheck i) := by
  unfold State.recheck
  split
  · exact hs
  next h hh =>
    have hfetched := memOk_fetchBroadcast (h := h) (lanes := i.lanes) (pc := i.pc) hs
    split
    next c u hu =>
      rw [hu] at hfetched
      exact hfetched
    next w u hu =>
      rw [hu] at hfetched
      split
      · exact hfetched
      next ins hins =>
        have hbrought := memOk_bringRegs (s := { u with cur := some i }) (i := ins) hfetched
        split
        next a v hv =>
          rw [hv] at hbrought
          exact memOk_endIssue (memOk_recheckFault hbrought)
        next v hv =>
          rw [hv] at hbrought
          exact outOk_andThen (outOk_exec hbrought ins) fun _ => memOk_endIssue

theorem outOk_runIssue (hs : s.memOk) : OutOk (s.runIssue i) := by
  unfold State.runIssue
  split
  · exact outOk_recheck hs
  split
  · exact hs
  next h hh =>
    simp only
    split
    · exact hs
    split
    · exact memOk_endIssue (memOk_exitLanes hs)
    have hmarked : ({ s.markIssue { i with lanes := h.stillAt i } h with cur := some { i with lanes := h.stillAt i } } : State).memOk :=
      memOk_markIssue hs
    split
    · split
      · exact hs
      · exact outOk_andThen (outOk_issueWord hmarked) fun _ => memOk_afterIssue
    · have hfetched := memOk_fetchBroadcast (h := h) (lanes := h.stillAt i) (pc := i.pc) hmarked
      split
      next w u hu =>
        rw [hu] at hfetched
        exact outOk_andThen (outOk_issueWord hfetched) fun _ => memOk_afterIssue
      next c u hu =>
        rw [hu] at hfetched
        exact outOk_andThen (outOk_exec hfetched _) fun _ => memOk_afterIssue

/-! ### The choice of issues -/

theorem memOk_openCycle (hs : s.memOk) : s.openCycle.memOk := hs

/-! ### The end of a cycle -/

theorem memOk_freeWaiters (hs : s.memOk) : (s.freeWaiters x1).memOk := by grind [State.freeWaiters, memOk_finishWait, memOk_acquireTeam, memOk_foldl]

theorem memOk_queuePhases (hs : s.memOk) : (s.queuePhases x1).memOk := by grind [State.queuePhases, memOk_modSheaf, memOk_modField, memOk_foldl]

theorem memOk_checkBarrier (hs : s.memOk) : (s.checkBarrier x1).memOk := by
  grind [State.checkBarrier, memOk_freeWaiters, memOk_queuePhases, memOk_modTeam]

theorem memOk_checkBarriers (hs : s.memOk) : s.checkBarriers.memOk := by grind [State.checkBarriers, memOk_checkBarrier, memOk_foldl]

theorem memOk_lateArrivals (hs : s.memOk) : s.lateArrivals.memOk := by
  unfold State.lateArrivals
  refine memOk_foldl (fun s h hs => memOk_foldl (fun s w hs => ?_) hs _) hs _
  grind [memOk_modSheaf, memOk_takeTrap, memOk_drawCarry, memOk_makeArrival]

theorem memOk_closeSheaves (hs : s.memOk) : s.closeSheaves.memOk := by grind [State.closeSheaves, memOk_mapSheaves]

theorem memOk_rampIdle (hs : s.memOk) : s.rampIdle.memOk := by grind [State.rampIdle, State.memOk]

theorem memOk_fillerRuns (hs : s.memOk) : s.fillerRuns.memOk := by grind [State.fillerRuns, memOk_mapCores]

theorem memOk_openGates (hs : s.memOk) : s.openGates.memOk := by grind [State.openGates, memOk_finishWait, memOk_l1Clear, memOk_foldl, State.memOk]

theorem memOk_pushRings (hs : s.memOk) : s.pushRings.memOk := by grind [State.pushRings, memOk_modCore, memOk_finishWait, memOk_foldl]

theorem memOk_joinFirst (he : s.joinFirst h = some t) (hs : s.memOk) : t.memOk := by grind [State.joinFirst, memOk_enqueue, memOk_modSheaf]

theorem memOk_explicitJoins (hs : s.memOk) : (s.explicitJoins id n).memOk := by
  induction n generalizing s with
  | zero => exact hs
  | succ n ih =>
    unfold State.explicitJoins
    split
    next t ht =>
      obtain ⟨h, -, hj⟩ := Option.bind_eq_some_iff.mp ht
      exact ih (memOk_joinFirst hj hs)
    · exact hs

theorem memOk_implicitJoins (hs : s.memOk) : (s.implicitJoins h).memOk := by grind [State.implicitJoins, memOk_enqueue, memOk_endIfDone]

theorem memOk_joins (hs : s.memOk) : s.joins.memOk := by grind [State.joins, memOk_explicitJoins, memOk_implicitJoins, memOk_foldl]

theorem memOk_restartThieves (hs : s.memOk) : s.restartThieves.memOk := by grind [State.restartThieves, memOk_modCore, memOk_foldl]

theorem memOk_icacheLoss (hs : s.memOk) : s.icacheLoss.memOk := by grind [State.icacheLoss, memOk_modCore, memOk_flip, memOk_foldl]

theorem memOk_nextCycle (hs : s.memOk) : s.nextCycle.memOk := hs

theorem memOk_closeCycle (hs : s.memOk) : s.closeCycle.memOk := by
  have hchecked := memOk_checkBarriers (memOk_joins hs)
  have hcleared : ({ s.joins.checkBarriers with teams := s.joins.checkBarriers.teams.map Team.applyClears } : State).memOk := hchecked
  have hsettled := memOk_settleTurns <| memOk_settleAll <| memOk_squeezeStages <| memOk_squeezeReturned <| memOk_rampIdle <|
    memOk_fillerRuns <| memOk_closeSheaves hcleared
  have hnext := memOk_nextCycle <| memOk_icacheLoss <| memOk_dropTeams <| memOk_restartThieves hsettled
  unfold State.closeCycle
  exact memOk_closeLaunches <| memOk_pushRings <| memOk_lateArrivals <| memOk_openGates hnext

/-! ### The moves of a cycle -/

theorem memOk_quanta {a : List MatCmd} (hs : s.memOk) : (s.quanta core a).2.memOk := by fun_induction s.quanta core a <;> grind [memOk_pick]

theorem memOk_startNext {launch : Nat} (hs : s.memOk) : (s.startNext launch).memOk := by grind [State.startNext, memOk_pick, State.memOk]

theorem memOk_startMoves {a : List Launch} (hs : s.memOk) : (s.startMoves a).2.memOk := by fun_induction s.startMoves a <;> grind [memOk_pick]

theorem memOk_pickSlot (hs : s.memOk) : (s.pickSlot core).2.memOk := by grind [State.pickSlot, memOk_pick]

theorem memOk_takeMoves {a : List (Nat × Core)} (hs : s.memOk) : (s.takeMoves a).2.memOk := by fun_induction s.takeMoves a <;> grind [memOk_pickSlot]

theorem memOk_stealMoves {a2 : List Nat} (hs : s.memOk) : (s.stealMoves a a2).2.memOk := by fun_induction s.stealMoves a a2 <;> grind [memOk_pickSlot]

theorem memOk_phaseMoves (hs : s.memOk) : (s.phaseMoves a).2.memOk := by fun_induction s.phaseMoves a <;> grind [memOk_pickSlot, memOk_flip]

theorem memOk_sieve {a : List Move} (hs : s.memOk) : (s.sieve a).2.memOk := by fun_induction s.sieve a <;> grind [memOk_flip]

theorem memOk_mix {a : List Move} (hs : s.memOk) : (s.mix a).2.memOk := by fun_induction s.mix a <;> grind [memOk_pick]

theorem memOk_deal {a : List Move} (hs : s.memOk) : (s.deal a).2.memOk := by fun_induction s.deal a <;> grind [memOk_flip]

theorem memOk_engineMoves {a : List Job} (hs : s.memOk) : (s.engineMoves a).2.memOk := by
  fun_induction s.engineMoves a <;> grind [memOk_mix, memOk_sieve]

theorem memOk_exchangeMoves {a : List Job} (hs : s.memOk) : (s.exchangeMoves due a).2.memOk := by
  fun_induction s.exchangeMoves due a <;> grind [memOk_sieve]

theorem memOk_exchangeTurn (hs : s.memOk) : (s.exchangeTurn n).memOk := by grind [State.exchangeTurn, memOk_exchangeMoves, State.memOk]

theorem memOk_coreMoves (hs : s.memOk) : (s.coreMoves core).2.memOk := by grind [State.coreMoves, memOk_deal, memOk_mix, memOk_sieve, memOk_quanta]

theorem memOk_segments (hs : s.memOk) : (s.segments a).2.memOk := by fun_induction s.segments a <;> grind [memOk_coreMoves]

theorem memOk_taskMoves (hs : s.memOk) : s.taskMoves.2.memOk := by
  grind [State.taskMoves, memOk_startMoves, memOk_phaseMoves, memOk_stealMoves, memOk_takeMoves]

theorem memOk_freeMoves (hs : s.memOk) : s.freeMoves.2.memOk := by grind [State.freeMoves, memOk_deal, memOk_mix, memOk_sieve]

theorem memOk_earlyMoves (hs : s.memOk) : (s.earlyMoves due late).2.memOk := by
  unfold State.earlyMoves
  grind [memOk_mix, memOk_sieve]

theorem memOk_engineTurn (hs : s.memOk) : (s.engineTurn due).2.memOk := by grind [State.engineTurn, memOk_sieve, memOk_engineMoves]

theorem memOk_lateMoves {last : List Move} (hs : s.memOk) : (s.lateMoves due last).2.memOk := by
  unfold State.lateMoves
  grind [memOk_sieve, memOk_taskMoves, memOk_engineTurn]

theorem memOk_plan (hs : s.memOk) : (s.plan late).memOk := by
  unfold State.plan
  extract_lets due u
  have hearly := memOk_earlyMoves (s := u) (due := due.filter fun m => !(isDecoderWrite m) && !(isExchangeInput m)) (late := late) hs
  clear_value u
  split
  next first v hv =>
    rw [hv] at hearly
    have hfree := memOk_freeMoves hearly
    split
    next free after w hw =>
      rw [hw] at hfree
      have hsegments := memOk_segments (a := w.activeCores) hfree
      split
      next cores last x hx =>
        rw [hx] at hsegments
        have hlate := memOk_lateMoves (due := due) (last := last) hsegments
        split
        next y hy =>
          rw [hy] at hlate
          exact hlate

theorem memOk_tick (hs : s.memOk) : s.tick.memOk := by
  have hclosed := memOk_openCycle (memOk_closeCycle hs)
  unfold State.tick
  generalize s.closeCycle.openCycle = t at hclosed
  exact hclosed

theorem outOk_ackStore (hs : s.memOk) : OutOk (s.ackStore id) := by
  unfold State.ackStore
  split
  · exact hs
  split
  · exact hs
  · exact outOk_exec (s := { s with cur := none }) hs _

theorem memOk_setPeerFault {ctx page : Nat} {grant : Option PeerPage} (hs : s.memOk) : (s.setPeerFault ctx page grant).memOk := by
  unfold State.setPeerFault
  grind [State.memOk]

theorem outOk_runMove (hs : s.memOk) (m : Move) : OutOk (s.runMove m) := by
  cases m with
  | issue i => exact outOk_runIssue hs
  | event e => exact outOk_exec (s := { s with cur := none }) hs e
  | kstep core cmd => exact memOk_kstep hs
  | hostWrite hpa bytes => exact memory_wf_write _ _ _ hs
  | streamMatched job idx => exact memOk_streamMatched hs
  | streamAck job idx => exact memOk_streamAcked hs
  | deliverNotice core ctx => exact memOk_deliverNotice hs
  | mailboxRead core => exact memOk_mailboxRead hs
  | ack id => exact outOk_ackStore hs
  | peerFault ctx page grant => exact memOk_setPeerFault hs
  | poison line => exact hs
  | starts launch => exact memOk_startNext hs
  | planCycle late => exact memOk_plan hs
  | matrixPhase => exact hs
  | exchangePhase n => exact memOk_exchangeTurn hs
  | exchangeHeld job => exact memOk_exchangeHeld hs
  | peerLost job m => exact memOk_peerLost hs

theorem outOk_whileTripped (hs : s.memOk) : OutOk s.whileTripped := by
  unfold State.whileTripped
  split
  · trivial
  next x later hx => exact outOk_exec (s := { s with inputs := later }) hs .moduleReset

theorem outOk_advance (hs : s.memOk) : OutOk s.advance := by
  unfold State.advance
  split
  · exact memOk_tick hs
  next m rest hm => exact outOk_runMove (s := { s with agenda := rest }) hs m

/-! ### The step -/

theorem outOk_step (hs : s.memOk) : OutOk (step s) := by
  unfold step
  split
  · exact outOk_whileTripped hs
  · exact outOk_advance hs

/-- Settles O59: whatever move a step makes, the memory keeps its canonical form, since every operation a move is made of keeps it. -/
theorem stepKeepsMemOk : Obligations.StepKeepsMemOk := by
  unfold Obligations.StepKeepsMemOk
  intro s t hs hstep
  have hout := outOk_step hs
  rw [hstep] at hout
  exact hout

end Sys2Proof.Machine
end

section
/-! SUPPORT. The rings of a core and the status of its quadrants: what `mpush` and `mstat` do (R145/06, R354, R360, R363/17). Settles O44. -/

namespace Sys2Proof.Machine

variable {s : State} {i : Issue} {h : Sheaf}

/-! ### `mpush` (R145/06, R354/17) -/

/-- The ring that a push names. -/
def State.pushedRing (s : State) (h : Sheaf) (a : Nat) : Ring := (s.core h.core).rings.getD (opField (h.sget a) 0 2) {}

/-- The slots that a push fills. -/
def pushedSlots (h : Sheaf) (a : Nat) : Nat := opField (h.sget a) 32 16 + 1

/-- The head of a ring of the core moves. -/
def State.moveHead (s : State) (core q m : Nat) : State :=
  s.modCore core fun c => { c with rings := modAt (fun r : Ring => { r with head := r.head + BitVec.ofNat 32 m }) c.rings q }

theorem exec_mpush_neverFits (hi : s.Issuing i h) (a n : Nat) (hm : 2 ^ (s.pushedRing h a).logsz < pushedSlots h a) :
    exec (.mpush a n) s = .next (s.trapAll .space 0 0) := by
  show execMpush a n s = _
  unfold execMpush
  rw [me_of hi]
  exact if_pos hm

theorem exec_mpush_waitsForOrder (hi : s.Issuing i h) (a n : Nat) (hm : pushedSlots h a ≤ 2 ^ (s.pushedRing h a).logsz) {t : State}
    (ho : s.orderWait? true true = some t) : exec (.mpush a n) s = .next t := by
  show execMpush a n s = _
  unfold execMpush
  rw [me_of hi, ho]
  exact if_neg (Nat.not_lt.mpr hm)

/-- Where nothing holds the push back, the room in its ring decides. -/
theorem exec_mpush_ordered (hi : s.Issuing i h) (a n : Nat) (hm : pushedSlots h a ≤ 2 ^ (s.pushedRing h a).logsz)
    (ho : s.orderWait? true true = none) : exec (.mpush a n) s =
      if (s.pushedRing h a).filled + pushedSlots h a ≤ 2 ^ (s.pushedRing h a).logsz then
        .next (s.moveHead h.core (opField (h.sget a) 0 2) (pushedSlots h a)).retire
      else .next (s.waitMe (.ring (opField (h.sget a) 0 2) (pushedSlots h a))) := by
  show execMpush a n s = _
  unfold execMpush
  rw [me_of hi, ho]
  exact if_neg (Nat.not_lt.mpr hm)

/-- Lanes that begin to wait at an issue. -/
theorem waitMe_modSheaf (hi : s.Issuing i h) (k : WaitKind) : s.waitMe k = s.modSheaf i.sheaf fun h =>
    { h with waits := h.waits ++ [⟨i.lanes, i.pc, k, s.now, i.solo, h.wb, h.tl⟩] } := by
  unfold State.waitMe
  rw [modMe_of hi, active_of hi, issuePc_of hi, solo_of hi]

/-- A push that finds its slots free completes with the head moved, and nothing else of the core, or of another, differs. -/
theorem moveHead_retire_spec (hi : s.Issuing i h) {q : Nat} (m : Nat) (hq : q < (s.core h.core).rings.length) :
    ∃ h', Completed i { s with cores := (s.moveHead h.core q m).retire.cores } (s.moveHead h.core q m).retire h h' ∧ OnlyLanes h h' ∧
      (((s.moveHead h.core q m).retire.core h.core).rings.getD q {} =
        { (s.core h.core).rings.getD q {} with head := ((s.core h.core).rings.getD q {}).head + BitVec.ofNat 32 m }) ∧
      (∀ k, k ≠ q → ((s.moveHead h.core q m).retire.core h.core).rings.getD k {} = (s.core h.core).rings.getD k {}) ∧
      ({ (s.moveHead h.core q m).retire.core h.core with rings := (s.core h.core).rings } : Core) = s.core h.core ∧
      ∀ k, k ≠ h.core → (s.moveHead h.core q m).retire.core k = s.core k := by
  have hmoved : (s.moveHead h.core q m).Issuing i h := issuing_of_eq hi rfl rfl
  obtain ⟨h', hc, honly⟩ := retire_completed hmoved (sameBut_refl i.sheaf _) rfl rfl
  have hcores : (s.moveHead h.core q m).retire.cores = (s.moveHead h.core q m).cores := (congrArg State.cores hc.2.1.1 :)
  have hcore : ∀ k, (s.moveHead h.core q m).retire.core k = (s.moveHead h.core q m).core k := fun k => by
    unfold State.core; rw [hcores]
  have hout : ({ s with cores := (s.moveHead h.core q m).retire.cores } : State) = s.moveHead h.core q m := by rw [hcores]; rfl
  refine ⟨h', by rw [hout]; exact hc, honly, ?_, fun k hk => ?_, ?_, fun k hk => ?_⟩
  · rw [hcore, State.moveHead, core_modCore, if_pos rfl, getD_modAt _ _ _ _ _ hq, if_pos rfl]
  · rw [hcore, State.moveHead, core_modCore, if_pos rfl, getD_modAt _ _ _ _ _ hq, if_neg hk]
  · rw [hcore, State.moveHead, core_modCore, if_pos rfl]
  · rw [hcore, State.moveHead, core_modCore, if_neg hk]

/-! ### `mstat` (R360, R363/17) -/

/-- A sheaf with values written to some scalar registers. -/
def Sheaf.writeScalars (h : Sheaf) (f : Nat → Dword) (ks : List Nat) : Sheaf := { h with s := ks.foldl (fun r k => cset 0 r k (f k)) h.s }

theorem sget_writeScalars (h : Sheaf) (f : Nat → Dword) (ks : List Nat) (n : Nat) :
    (h.writeScalars f ks).sget n = if n ∈ ks then f n else h.sget n := cget_foldl_cset f ks h.s n

/-- Scalars written to the issuing sheaf one after the other. -/
theorem foldl_swrite (hi : s.Issuing i h) (f : Nat → Dword) (ks : List Nat) :
    (ks.foldl (fun (t : State) k => t.swrite k (f k)) s).Issuing i (h.writeScalars f ks) ∧
      SameBut i.sheaf s (ks.foldl (fun (t : State) k => t.swrite k (f k)) s) := by
  induction ks generalizing s h with
  | nil => exact ⟨hi, sameBut_refl _ _⟩
  | cons k ks ih =>
    obtain ⟨hlast, hsame⟩ := ih (issuing_modMe hi (fun h => h.sset k (f k)) fun _ => rfl)
    exact ⟨hlast, sameBut_trans (sameBut_modMe hi (fun h => h.sset k (f k)) fun _ => rfl) hsame⟩

/-- What `mstat` writes in scalar `n`, with its first destination `a`. -/
def State.statusIn (s : State) (h : Sheaf) (a n : Nat) : Dword := s.quadStatus h.core h.ctx (n - a)

theorem exec_mstat (hi : s.Issuing i h) (a n : Nat) : exec (.mstat a n) s =
    .next ((List.range' a 4).foldl (fun (t : State) k => t.swrite k (s.statusIn h a k)) s).retire := by
  show execMstat a n s = _
  unfold execMstat
  rw [me_of hi, List.range'_eq_map_range, List.foldl_map]
  simp only [State.statusIn, Nat.add_sub_cancel_left]

/-- `mstat` writes the four quadrants' status and nothing else. -/
theorem exec_mstat_spec (hi : s.Issuing i h) (a n : Nat) : ∃ t h', exec (.mstat a n) s = .next t ∧ Completed i s t h h' ∧
    (∀ k, k < 4 → h'.sget (a + k) = s.quadStatus h.core h.ctx k) ∧ (∀ k, k < a ∨ a + 4 ≤ k → h'.sget k = h.sget k) ∧
    ({ h' with s := h.s, lanes := h.lanes, watchSkip := h.watchSkip } : Sheaf) = h := by
  obtain ⟨hissue, hsame⟩ := foldl_swrite hi (s.statusIn h a) (List.range' a 4)
  obtain ⟨h', hc, he⟩ := retire_completed (h := h) hissue hsame rfl rfl
  have hscalars : ∀ k, h'.sget k = (h.writeScalars (s.statusIn h a) (List.range' a 4)).sget k := fun k => (congrArg (fun g : Sheaf => g.sget k) he :)
  refine ⟨_, h', exec_mstat hi a n, hc, fun k hk => ?_, fun k hk => ?_, (congrArg (fun g : Sheaf => ({ g with s := h.s } : Sheaf)) he :)⟩
  · rw [hscalars, sget_writeScalars, if_pos (List.mem_range'_1.mpr ⟨Nat.le_add_right a k, Nat.add_lt_add_left hk a⟩), State.statusIn,
      Nat.add_sub_cancel_left]
  · rw [hscalars, sget_writeScalars, if_neg]
    rw [List.mem_range'_1]
    omega

/-- Settles O44: the checks of `mpush` decide its outcome in their order, its head moves in its ring alone, and `mstat` folds four writes. -/
theorem ringPushesAndStatus : Obligations.RingPushesAndStatus := by
  unfold Obligations.RingPushesAndStatus
  intro s i h a n hi
  refine ⟨exec_mpush_neverFits hi a n, fun t hm ho => exec_mpush_waitsForOrder hi a n hm ho, fun hm ho hq => ⟨fun hroom => ?_, fun hfull => ?_⟩,
    exec_mstat_spec hi a n⟩
  · obtain ⟨h', hc, honly, hring, hrings, hcore, hcores⟩ := moveHead_retire_spec hi (pushedSlots h a) hq
    exact ⟨_, h', (exec_mpush_ordered hi a n hm ho).trans (if_pos hroom), hc, honly, hring, hrings, hcore, hcores⟩
  · rw [exec_mpush_ordered hi a n hm ho]
    exact (if_neg (Nat.not_le.mpr hfull)).trans (congrArg Host.Outcome.next (waitMe_modSheaf hi _))

end Sys2Proof.Machine
end

section
/-! SUPPORT. What the host and the firmware write: the submission register and the host's error queue, the allow-list, the ramp tables, the
decoders, the registers, the mailboxes (R141, R150 to R152/06, R165, R168, R172, R173/07, R382 to R389/19). Settles O46. -/

namespace Sys2Proof.Machine

variable {s : State} {v : BitVec 64}

/-! ### Error records (R149 to R151/06) -/

/-- R149/06: a record has 32 bytes. -/
theorem length_errorBytes (cid cause byte3 addr : Nat) (cycle : Dword) (detail : List Byte) :
    (errorBytes cid cause byte3 addr cycle detail).length = 32 := by
  simp [errorBytes, length_bytesOfNat]

/-- A record whose cause code no record of the cycle exceeds goes behind them, where its queue has room. -/
theorem errorSlots_last {r : ErrorRecord} {write head : BitVec 32} (hroom : (write - head).toNat ≠ 256)
    (hcause : ∀ x ∈ s.errsNow, x.queue = r.queue → x.cause ≤ r.cause) : s.errorSlots r write head =
      ((s.errsNow.filter fun x => x.queue == r.queue) ++ [r],
        write - BitVec.ofNat 32 (s.errsNow.filter fun x => x.queue == r.queue).length, false) := by
  have hbelow : ∀ x ∈ s.errsNow.filter fun x => x.queue == r.queue, x.cause ≤ r.cause := fun x hx =>
    hcause x (List.mem_filter.mp hx).1 (beq_iff_eq.mp (List.mem_filter.mp hx).2)
  have horder : orderErrors (s.errsNow.filter fun x => x.queue == r.queue) r = (s.errsNow.filter fun x => x.queue == r.queue) ++ [r] := by
    unfold orderErrors
    rw [List.filter_eq_self.mpr fun x hx => decide_eq_true (hbelow x hx),
      (List.filter_eq_nil_iff (p := fun x : ErrorRecord => decide (r.cause < x.cause))).mpr fun x hx => by
        simpa using hbelow x hx, List.append_nil]
  unfold State.errorSlots
  simp only [horder, decide_eq_false hroom, Bool.false_eq_true, if_false]

/-- The entry at which the next record is written. -/
theorem putErrors_next (rs : List ErrorRecord) (m : Memory) (base : Nat) (start : BitVec 32) :
    (rs.foldl (fun (q : Memory × BitVec 32) r => (q.1.write (base + 32 * (q.2.toNat % 256)) r.bytes, q.2 + 1)) (m, start)).2 =
      start + BitVec.ofNat 32 rs.length := by
  induction rs generalizing m start with
  | nil => simp
  | cons r rs ih =>
    rw [List.foldl_cons, ih, List.length_cons, BitVec.add_assoc, BitVec.ofNat_add, BitVec.add_comm (BitVec.ofNat 32 rs.length)]
    rfl

/-- The last record written reads back at its entry. -/
theorem putErrors_read_last (m : Memory) (base : Nat) (write : BitVec 32) (rs : List ErrorRecord) (r : ErrorRecord) :
    (m.putErrors base (write - BitVec.ofNat 32 rs.length) (rs ++ [r])).read (base + 32 * (write.toNat % 256)) r.bytes.length = r.bytes := by
  unfold Memory.putErrors
  rw [List.foldl_append, List.foldl_cons, List.foldl_nil, putErrors_next, BitVec.sub_add_cancel]
  exact memory_read_write_same _ _ _

/-- R150, R151/06: a record for the host, with room in its queue and none of a higher cause in the cycle: it is written at the write index,
which rises, and vector 0 is raised; no queue changes. -/
theorem reportHost_last {cause : Nat} (byte3 addr : Nat) (detail : List Byte) (hroom : (s.hostErrWrite - s.hostErrHead).toNat ≠ 256)
    (hcause : ∀ x ∈ s.errsNow, x.queue = none → x.cause ≤ cause) :
    (s.reportHost cause byte3 addr detail).hostErrWrite = s.hostErrWrite + 1 ∧
    (s.reportHost cause byte3 addr detail).msix = s.msix ++ [0] ∧
    (s.reportHost cause byte3 addr detail).queues = s.queues ∧
    (s.reportHost cause byte3 addr detail).mem.read (s.hostErrBase.toNat + 32 * (s.hostErrWrite.toNat % 256)) 32 =
      errorBytes 0xFFF cause byte3 addr s.cycle detail := by
  have hslots := errorSlots_last (s := s) (r := ⟨none, cause, errorBytes 0xFFF cause byte3 addr s.cycle detail⟩) hroom hcause
  unfold State.reportHost
  rw [hslots]
  refine ⟨rfl, rfl, rfl, ?_⟩
  have hread := putErrors_read_last s.mem s.hostErrBase.toNat s.hostErrWrite (s.errsNow.filter fun x => x.queue == none)
    ⟨none, cause, errorBytes 0xFFF cause byte3 addr s.cycle detail⟩
  rw [length_errorBytes] at hread
  exact hread

/-! ### The submission register (R141/06) -/

theorem exec_submission_notReady (hr : s.ready = false) : exec (.physicalSubmissionRegisterWrite v) s = .next s := by
  show execPhysicalSubmissionRegisterWrite v s = _
  simp only [execPhysicalSubmissionRegisterWrite, hr, Bool.false_eq_true, not_false_eq_true, if_true]

/-- The queue that a submission names. -/
def submittedQueue (v : BitVec 64) : Nat := (v.extractLsb' 36 12).toNat

/-- May a submission be taken: its queue is enabled, and would hold at least one entry and at most its ring? -/
def State.submissionLegal (s : State) (v : BitVec 64) : Prop :=
  (s.queue (submittedQueue v)).enable = true ∧ 1 ≤ (v.extractLsb' 0 32 - (s.queue (submittedQueue v)).head).toNat ∧
    (v.extractLsb' 0 32 - (s.queue (submittedQueue v)).head).toNat ≤ 2 ^ (s.queue (submittedQueue v)).log

/-- The state in which the submission register reads what was written. -/
def State.noteSubmission (s : State) (v : BitVec 64) : State := { s with subReg := v &&& submissionMask }

theorem exec_submission_taken (hr : s.ready = true) (hl : s.submissionLegal v) : exec (.physicalSubmissionRegisterWrite v) s =
    .next ((s.noteSubmission v).modQueue (submittedQueue v) fun k => { k with tail := v.extractLsb' 0 32 }) := by
  show execPhysicalSubmissionRegisterWrite v s = _
  unfold execPhysicalSubmissionRegisterWrite
  rw [if_neg (by simp [hr])]
  exact if_pos hl

theorem exec_submission_refused (hr : s.ready = true) (hl : ¬ s.submissionLegal v) : exec (.physicalSubmissionRegisterWrite v) s =
    .next ((s.noteSubmission v).reportHost errSubmission (submittedQueue v / 16) 0 ([0, 0, 0, 0] ++ bytesOfNat 8 v.toNat)) := by
  show execPhysicalSubmissionRegisterWrite v s = _
  unfold execPhysicalSubmissionRegisterWrite
  rw [if_neg (by simp [hr])]
  exact if_neg hl

/-! ### The allow-list (R168/07) -/

@[simp] theorem putByte_indices (k : Queue) (off : Nat) (b : Byte) :
    ((k.putByte off b).head, (k.putByte off b).tail) = (k.head, k.tail) := by
  unfold Queue.putByte
  grind

/-- The ring's indices are no part of the entry that is written. -/
theorem putEntry_indices (k : Queue) (off : Nat) (bs : List Byte) :
    ((k.putEntry off bs).head, (k.putEntry off bs).tail) = (k.head, k.tail) := by
  have keeps := foldl_keep (fun (k : Queue) (x : Nat × Byte) => k.putByte x.1 x.2) (fun k => (k.head, k.tail))
    fun k x => putByte_indices k x.1 x.2
  exact (keeps _ _).trans (keeps _ _)

/-- While the queue is enabled, only its bitmap takes a byte. -/
theorem putByte_enabled {k : Queue} (hk : k.enable = true) (off : Nat) (b : Byte) :
    k.putByte off b = { k with bitmap := (k.putByte off b).bitmap } := by
  unfold Queue.putByte
  split
  · rfl
  · rfl

theorem putBytes_enabled {k : Queue} (hk : k.enable = true) (xs : List (Nat × Byte)) :
    ∃ m, xs.foldl (fun (k : Queue) x => k.putByte x.1 x.2) k = { k with bitmap := m } := by
  induction xs generalizing k with
  | nil => exact ⟨k.bitmap, rfl⟩
  | cons x xs ih =>
    obtain ⟨m, hm⟩ := ih (k := { k with bitmap := (k.putByte x.1 x.2).bitmap }) hk
    exact ⟨m, by rw [List.foldl_cons, putByte_enabled hk, hm]⟩

theorem putEntry_enabled {k : Queue} (hk : k.enable = true) (off : Nat) (bs : List Byte) : ∃ m, k.putEntry off bs = { k with bitmap := m } := by
  obtain ⟨m, hm⟩ := putBytes_enabled hk ((bs.zipIdx.map fun x => (off + x.2, x.1)).filter fun x => !(x.1 == 9))
  obtain ⟨m', hm'⟩ := putBytes_enabled (k := { k with bitmap := m }) hk ((bs.zipIdx.map fun x => (off + x.2, x.1)).filter fun x => x.1 == 9)
  exact ⟨m', (congrArg (List.foldl _ · _) hm).trans hm'⟩

theorem putEntry_ctx {k : Queue} (hk : k.enable = false) (b : Byte) : k.putEntry 10 [b] = { k with ctx := b.toNat } := by
  simp [Queue.putEntry, Queue.putByte, hk]

theorem putEntry_log {k : Queue} (hk : k.enable = false) (b : Byte) : k.putEntry 8 [b] = { k with log := b.toNat } := by
  simp [Queue.putEntry, Queue.putByte, hk]

theorem exec_allowListEntryWrite {q : Nat} (hq : q < 4096) (off : Nat) (bytes : List (BitVec 8)) :
    exec (.allowListEntryWrite q off bytes) s = .next (s.modQueue q fun k => k.putEntry off bytes) := if_pos hq

/-! ### The ramp tables (R165/07) -/

theorem getLsbD_foldl_or {w : Nat} (f : Nat → BitVec w) (ks : List Nat) (x : BitVec w) (i : Nat) :
    (ks.foldl (fun x k => x ||| f k) x).getLsbD i = (x.getLsbD i || ks.any fun k => (f k).getLsbD i) := by
  induction ks generalizing x with
  | nil => simp
  | cons k ks ih => rw [List.foldl_cons, ih, BitVec.getLsbD_or, List.any_cons, Bool.or_assoc]

/-- Bytes put side by side read back. -/
theorem extract_byte_foldl_or (b : Nat → Nat) (hb : ∀ k, b k < 256) (k : Nat) (hk : k < 8) :
    (((List.range 8).foldl (fun (x : Dword) k => x ||| (BitVec.ofNat 64 (b k) <<< (8 * k))) 0).extractLsb' (8 * k) 8).toNat = b k := by
  have hbyte : ((List.range 8).foldl (fun (x : Dword) k => x ||| (BitVec.ofNat 64 (b k) <<< (8 * k))) 0).extractLsb' (8 * k) 8 =
      BitVec.ofNat 8 (b k) := by
    refine BitVec.eq_of_getLsbD_eq fun j hj => ?_
    have hother : ∀ n, n ≠ k → (BitVec.ofNat 64 (b n) <<< (8 * n)).getLsbD (8 * k + j) = false := by
      intro n hn
      rw [BitVec.getLsbD_shiftLeft]
      by_cases hlt : 8 * k + j < 8 * n
      · simp [hlt]
      · have hbig : b n < 2 ^ (8 * k + j - 8 * n) := lt_of_lt_of_le (hb n) (Nat.pow_le_pow_right (n := 2) (i := 8) (by decide) (by omega))
        simp [BitVec.getLsbD_ofNat, Nat.testBit_lt_two_pow hbig]
    rw [BitVec.getLsbD_extractLsb', getLsbD_foldl_or, BitVec.getLsbD_ofNat]
    have hany : ((List.range 8).any fun n => (BitVec.ofNat 64 (b n) <<< (8 * n)).getLsbD (8 * k + j)) =
        (BitVec.ofNat 64 (b k) <<< (8 * k)).getLsbD (8 * k + j) := by
      rw [Bool.eq_iff_iff, List.any_eq_true]
      refine ⟨fun ⟨n, _, hn⟩ => ?_, fun h => ⟨k, List.mem_range.mpr hk, h⟩⟩
      by_cases e : n = k
      · rwa [e] at hn
      · rw [hother n e] at hn; cases hn
    have hin : 8 * k + j < 64 := by omega
    rw [hany, BitVec.getLsbD_shiftLeft, BitVec.getLsbD_ofNat]
    simp [hj, hin, show j < 64 by omega]
  rw [hbyte, BitVec.toNat_ofNat, Nat.mod_eq_of_lt (hb k)]

/-- R165/07: each entry of a written table lies between 1 and its reset value. -/
theorem clampRamp_entry (limit : Dword) (k : Nat) (hk : k < 8) : ((clampRamp v limit).extractLsb' (8 * k) 8).toNat =
    max 1 (min (v.extractLsb' (8 * k) 8).toNat (limit.extractLsb' (8 * k) 8).toNat) := by
  refine extract_byte_foldl_or (fun k => max 1 (min (v.extractLsb' (8 * k) 8).toNat (limit.extractLsb' (8 * k) 8).toNat)) (fun k => ?_) k hk
  have hbyte := (v.extractLsb' (8 * k) 8).isLt
  omega

theorem ramp_modRamp (s : State) (n k : Nat) (f : Ramp → Ramp) :
    (s.modRamp n f).ramp k = if k = n then f (s.ramp n) else s.ramp k := cget_cset s.ramps n k (f (s.ramp n))

theorem exec_rampTableWrite (hr : s.coreRuns 4 = true) {c : Nat} (hc : c < 128) (high : Bool) :
    exec (.rampTableWrite c high v) s = .next (s.modRamp c fun r =>
      if high then { r with newHi := some (clampRamp v rampHiReset) } else { r with newLo := some (clampRamp v rampLoReset) }) := by
  have hcluster : ¬ Config.cores / Config.coresPerCluster ≤ c := Nat.not_le.mpr hc
  show execRampTableWrite c high v s = _
  rw [execRampTableWrite, if_pos hr, State.writeRamp, if_neg hcluster]
  cases high <;> rfl

/-- R165, R388/19: a ramp table that the power core writes. -/
theorem rampTableWrite_spec (hr : s.coreRuns 4 = true) {c : Nat} (hc : c < 128) (high : Bool) :
    ∃ t w, exec (.rampTableWrite c high v) s = .next t ∧
      t.ramp c = (if high then { s.ramp c with newHi := some w } else { s.ramp c with newLo := some w }) ∧
      (∀ j, j ≠ c → t.ramp j = s.ramp j) ∧ ({ t with ramps := s.ramps } : State) = s ∧
      ∀ k, k < 8 → (w.extractLsb' (8 * k) 8).toNat =
        max 1 (min (v.extractLsb' (8 * k) 8).toNat ((if high then rampHiReset else rampLoReset).extractLsb' (8 * k) 8).toNat) := by
  refine ⟨_, clampRamp v (if high then rampHiReset else rampLoReset), exec_rampTableWrite hr hc high, ?_, fun j hj => ?_, rfl,
    clampRamp_entry _⟩
  · rw [ramp_modRamp, if_pos rfl]
    cases high <;> rfl
  · rw [ramp_modRamp, if_neg hj]

/-! ### The decoders of pooled memory (R385/19) -/

theorem exec_decoderWrite_taken (hr : s.coreRuns 2 = true) {n : Nat} (hn : n < 32) {d : Decoder} (hd : decoderOk d = true) :
    exec (.pooledMemoryDecoderWrite n (some d)) s = .next { s with decoders := cset none s.decoders n (some d) } := by
  show execPooledMemoryDecoderWrite n (some d) s = _
  simp [execPooledMemoryDecoderWrite, State.setDecoder, hr, hn, hd]

theorem exec_decoderWrite_refused {n : Nat} {d : Decoder} (h : 32 ≤ n ∨ decoderOk d = false ∨ s.coreRuns 2 = false) :
    exec (.pooledMemoryDecoderWrite n (some d)) s = .next s := by
  show execPooledMemoryDecoderWrite n (some d) s = _
  rcases h with hn | hd | hr
  · simp [execPooledMemoryDecoderWrite, State.setDecoder, Nat.not_lt.mpr hn]
  · simp [execPooledMemoryDecoderWrite, State.setDecoder, hd]
  · simp [execPooledMemoryDecoderWrite, hr]

/-! ### Registers (R382, R388/19) -/

/-- Where the core of a register's path does not run, nothing is written. -/
theorem exec_registerWrite_stopped {r : RegTarget} {n : Nat} (hw : regWriter r = some n) (hr : s.coreRuns n = false) :
    exec (.registerWrite r v) s = .next s := by
  show execRegisterWrite r v s = _
  simp [execRegisterWrite, hw, hr]

theorem exec_registerWrite_runs {r : RegTarget} {n : Nat} (hw : regWriter r = some n) (hr : s.coreRuns n = true) :
    exec (.registerWrite r v) s = .next (s.putRegister r v) := by
  show execRegisterWrite r v s = _
  simp [execRegisterWrite, hw, hr]

/-- A register that one core writes, whole. -/
theorem exec_registerWrite_if {r : RegTarget} {n : Nat} (hw : regWriter r = some n) :
    exec (.registerWrite r v) s = .next (if s.coreRuns n then s.putRegister r v else s) := by
  cases hr : s.coreRuns n
  · exact exec_registerWrite_stopped hw hr
  · exact exec_registerWrite_runs hw hr

/-- R172/07: what eight bytes written to a context table entry change; the write index and the lost records are the device's. -/
theorem putEntry_fields (c : Context) (off : Nat) :
    (c.putEntry off v).eqWrite = c.eqWrite ∧ (c.putEntry off v).eqLost = c.eqLost ∧
    (c.putEntry off v).root1 = (if off = 0 then v else c.root1) ∧ (c.putEntry off v).root2 = (if off = 8 then v else c.root2) ∧
    (c.putEntry off v).vectors = (if off = 32 then v else c.vectors) ∧
    (c.putEntry off v).eqHead = (if off = 56 then v.setWidth 32 else c.eqHead) ∧
    (c.putEntry off v).saveBase = (if off = 80 then v else c.saveBase) := by
  unfold Context.putEntry
  split <;> simp_all
  split <;> simp

theorem contextEntryWrite_spec (hr : s.coreRuns 2 = true) {c : Nat} (hc : c < 64) (off : Nat) :
    ∃ t, exec (.registerWrite (.contextEntry c off) v) s = .next t ∧
      (∀ j, j ≠ c → t.ctx j = s.ctx j) ∧ ({ t with ctxs := s.ctxs } : State) = s ∧ (t.ctx c).eqWrite = (s.ctx c).eqWrite ∧
      (t.ctx c).eqLost = (s.ctx c).eqLost ∧ (t.ctx c).root1 = (if off = 0 then v else (s.ctx c).root1) ∧
      (t.ctx c).root2 = (if off = 8 then v else (s.ctx c).root2) ∧ (t.ctx c).vectors = (if off = 32 then v else (s.ctx c).vectors) ∧
      (t.ctx c).eqHead = (if off = 56 then v.setWidth 32 else (s.ctx c).eqHead) ∧
      (t.ctx c).saveBase = (if off = 80 then v else (s.ctx c).saveBase) := by
  have hput : s.putRegister (.contextEntry c off) v = if off = 16 ∧ s.ctxBusy c then s else s.modCtx c fun k => k.putEntry off v := by
    show (if c < 64 ∧ ¬ (off = 16 ∧ s.ctxBusy c) then _ else _) = _
    simp only [hc, true_and, ite_not]
  refine ⟨_, exec_registerWrite_runs rfl hr, ?_⟩
  rw [hput]
  by_cases hbusy : off = 16 ∧ s.ctxBusy c = true
  · rw [if_pos hbusy]
    obtain ⟨rfl, -⟩ := hbusy
    exact ⟨fun _ _ => rfl, rfl, rfl, rfl, rfl, rfl, rfl, rfl, rfl⟩
  · rw [if_neg hbusy, ctx_modCtx, if_pos rfl]
    exact ⟨fun j hj => by rw [ctx_modCtx, if_neg hj], rfl, putEntry_fields (s.ctx c) off⟩

theorem barnPageWrite_spec (hr : s.coreRuns 2 = true) {f page : Nat} (hf : f < 8) (hp : page < 896) :
    ∃ t, exec (.registerWrite (.barnPage f page) v) s = .next t ∧
      ∀ j k, cget 0 (t.field j).barn k = if j = f ∧ k = page then v.setWidth 32 &&& 0xFFC00000 else cget 0 (s.field j).barn k := by
  have hput : s.putRegister (.barnPage f page) v =
      s.modField f fun x => { x with barn := cset 0 x.barn page (v.setWidth 32 &&& 0xFFC00000) } := if_pos ⟨hf, hp⟩
  refine ⟨_, exec_registerWrite_runs rfl hr, fun j k => ?_⟩
  rw [hput, field_modField]
  by_cases hj : j = f
  · subst hj
    simp only [if_true, true_and]
    exact cget_cset _ _ _ _
  · simp [hj]

theorem granaryWrite_spec (hr : s.coreRuns 2 = true) {f : Nat} (hf : f < 8) :
    ∃ t, exec (.registerWrite (.granary f) v) s = .next t ∧
      (t.field f).granary = if 64 ≤ v.toNat ∧ v.toNat ≤ 1024 ∧ v.toNat % 64 = 0 then v.toNat else (s.field f).granary := by
  refine ⟨_, exec_registerWrite_runs rfl hr, ?_⟩
  show ((if f < 8 ∧ 64 ≤ v.toNat ∧ v.toNat ≤ 1024 ∧ v.toNat % 64 = 0 then _ else _ : State).field f).granary = _
  simp only [hf, true_and]
  split
  · rw [field_modField, if_pos rfl]
  · rfl

/-! ### SPDM requests (R389/19) -/

theorem exec_spdm_runs {nonce : List (BitVec 8)} (hf : s.fenced.contains (.fleskapa 5) = false) :
    exec (.spdmMeasurementRequest nonce) s =
      .next { s with spdm := s.spdm ++ [s.measurements nonce ++ Config.spdmAnswer s.idSecret (s.measurements nonce)] } := by
  show execSpdmMeasurementRequest nonce s = _
  simp only [execSpdmMeasurementRequest, State.romRuns, hf, Bool.not_false, not_true_eq_false, if_false]

theorem exec_spdm_fenced {nonce : List (BitVec 8)} (hf : s.fenced.contains (.fleskapa 5) = true) :
    exec (.spdmMeasurementRequest nonce) s = .next s := by
  show execSpdmMeasurementRequest nonce s = _
  simp only [execSpdmMeasurementRequest, State.romRuns, hf, Bool.not_true, Bool.false_eq_true, not_false_eq_true, if_true]

/-! ### Mailboxes (R152/06) -/

variable {core sender : Nat} {msg : List (BitVec 8)} {m : Mailbox}

theorem exec_mailboxMessage_stopped (hs : sender < 8) (hr : s.coreRuns sender = false) :
    exec (.mailboxMessage core sender msg) s = .next s := by
  show execMailboxMessage core sender msg s = _
  simp [execMailboxMessage, hs, hr]

/-- A message that its mailbox takes. -/
theorem exec_mailboxMessage_taken (hs : sender < 8 → s.coreRuns sender = true) (hm : s.mailboxes[core]? = some m) {m' : Mailbox}
    (hsend : m.send sender (mailEntry msg) = some m') :
    exec (.mailboxMessage core sender msg) s = .next { s with mailboxes := modAt (fun _ => m') s.mailboxes core } := by
  have hruns : ¬ (sender < 8 ∧ ¬ s.coreRuns sender = true) := fun h => h.2 (hs h.1)
  show execMailboxMessage core sender msg s = _
  simp only [execMailboxMessage, if_neg hruns, State.tell, hm, hsend, Option.map_some]

/-- A message that stalls its event to the next cycle. -/
theorem exec_mailboxMessage_stalls (hs : sender < 8 → s.coreRuns sender = true) (hm : s.mailboxes[core]? = some m)
    (hsend : m.send sender (mailEntry msg) = none) : exec (.mailboxMessage core sender msg) s =
      .next { s with inputs := (s.now + 1, .event (.mailboxMessage core sender msg)) :: s.inputs } := by
  have hruns : ¬ (sender < 8 ∧ ¬ s.coreRuns sender = true) := fun h => h.2 (hs h.1)
  show execMailboxMessage core sender msg s = _
  simp only [execMailboxMessage, if_neg hruns, State.tell, hm, hsend, Option.map_none]

theorem send_room {b : List Byte} (hn : m.messages.length < 16) (hw : m.waiting = []) (hr : m.reporters = []) :
    m.send sender b = some { m with messages := m.messages ++ [(sender, b)] } := if_pos ⟨hn, hw, hr⟩

theorem send_core {b : List Byte} (hn : 16 ≤ m.messages.length) (hs : sender < 8) :
    m.send sender b = some { m with waiting := m.waiting ++ [(sender, b)] } := by
  rw [Mailbox.send, if_neg fun h => absurd h.1 (Nat.not_lt.mpr hn), if_pos hs]

theorem send_reporter {b : List Byte} (hn : 16 ≤ m.messages.length) (hs : 8 ≤ sender) : m.send sender b =
    if m.reporters.length < 4 then some { m with reporters := m.reporters ++ [(sender, b)] } else none := by
  rw [Mailbox.send, if_neg fun h => absurd h.1 (Nat.not_lt.mpr hn), if_neg (Nat.not_lt.mpr hs)]

theorem getElem?_modAt_same {α : Type} {xs : List α} {n : Nat} {x : α} (f : α → α) (hx : xs[n]? = some x) : (modAt f xs n)[n]? = some (f x) := by
  induction xs generalizing n with
  | nil => cases hx
  | cons y ys ih =>
    cases n with
    | zero => obtain rfl : y = x := by simpa using hx
              rfl
    | succ n => exact ih (by simpa using hx)

theorem mailboxMessage_spec (hs : sender < 8 → s.coreRuns sender = true) (hm : s.mailboxes[core]? = some m) :
    ∃ t, exec (.mailboxMessage core sender msg) s = .next t ∧ ({ t with mailboxes := s.mailboxes, inputs := s.inputs } : State) = s ∧
      (m.messages.length < 16 → m.waiting = [] → m.reporters = [] →
        t.mailboxes[core]? = some { m with messages := m.messages ++ [(sender, mailEntry msg)] } ∧ t.inputs = s.inputs) ∧
      (16 ≤ m.messages.length → sender < 8 →
        t.mailboxes[core]? = some { m with waiting := m.waiting ++ [(sender, mailEntry msg)] } ∧ t.inputs = s.inputs) ∧
      (16 ≤ m.messages.length → 8 ≤ sender → m.reporters.length < 4 →
        t.mailboxes[core]? = some { m with reporters := m.reporters ++ [(sender, mailEntry msg)] } ∧ t.inputs = s.inputs) ∧
      (16 ≤ m.messages.length → 8 ≤ sender → 4 ≤ m.reporters.length →
        t = { s with inputs := (s.now + 1, .event (.mailboxMessage core sender msg)) :: s.inputs }) := by
  have hbox : ∀ m' : Mailbox, (modAt (fun _ => m') s.mailboxes core)[core]? = some m' := fun m' => getElem?_modAt_same _ hm
  cases hsend : m.send sender (mailEntry msg) with
  | none =>
    refine ⟨_, exec_mailboxMessage_stalls hs hm hsend, rfl, fun hn hw hr => ?_, fun hn hc => ?_, fun hn hc hr => ?_, fun _ _ _ => rfl⟩
    · rw [send_room hn hw hr] at hsend; cases hsend
    · rw [send_core hn hc] at hsend; cases hsend
    · rw [send_reporter hn hc, if_pos hr] at hsend; cases hsend
  | some m' =>
    refine ⟨_, exec_mailboxMessage_taken hs hm hsend, rfl, fun hn hw hr => ⟨?_, rfl⟩, fun hn hc => ⟨?_, rfl⟩, fun hn hc hr => ⟨?_, rfl⟩,
      fun hn hc hr => ?_⟩
    · rw [hbox, ← hsend, send_room hn hw hr]
    · rw [hbox, ← hsend, send_core hn hc]
    · rw [hbox, ← hsend, send_reporter hn hc, if_pos hr]
    · rw [send_reporter hn hc, if_neg (Nat.not_lt.mpr hr)] at hsend; cases hsend

/-- Settles O46, write by write. -/
theorem hostAndFirmwareWrites : Obligations.HostAndFirmwareWrites := by
  unfold Obligations.HostAndFirmwareWrites
  refine fun s => ⟨fun v => ⟨exec_submission_notReady, fun hr hl => ?taken, fun hr hl hroom hcause => ?refused⟩, fun q off bytes hq => ?allow,
    fun c high v hr hc => rampTableWrite_spec hr hc high, fun c high v hr => ?ramp, fun n d hr hn hd => ?decoder,
    fun n d h => exec_decoderWrite_refused h, fun v => ⟨rfl, rfl⟩, fun v p hp => ?own,
    fun v c off f page hr => ⟨exec_registerWrite_stopped rfl hr, exec_registerWrite_stopped rfl hr, exec_registerWrite_stopped rfl hr⟩,
    fun v c off hr hc => contextEntryWrite_spec hr hc off, fun v f page hr hf hp => barnPageWrite_spec hr hf hp,
    fun v f hr hf => granaryWrite_spec hr hf,
    fun v k => ⟨fun hr => ⟨exec_registerWrite_runs rfl hr, exec_registerWrite_runs rfl hr⟩,
      fun hr => ⟨exec_registerWrite_stopped rfl hr, exec_registerWrite_stopped rfl hr⟩⟩,
    fun nonce => ⟨fun hf => ⟨_, exec_spdm_runs hf⟩, exec_spdm_fenced⟩, fun core sender msg => exec_mailboxMessage_stopped,
    fun core sender msg m hm hs => mailboxMessage_spec hs hm⟩
  case taken =>
    refine ⟨_, exec_submission_taken hr hl, ?_, fun j hj => ?_, rfl⟩
    · exact (queue_modQueue _ _ _ _).trans (if_pos rfl)
    · exact (queue_modQueue _ _ _ _).trans (if_neg hj)
  case refused =>
    obtain ⟨hwrite, hmsix, hqueues, hread⟩ := reportHost_last (s := s.noteSubmission v) (submittedQueue v / 16) 0
      ([0, 0, 0, 0] ++ bytesOfNat 8 v.toNat) hroom hcause
    exact ⟨_, exec_submission_refused hr hl, hwrite, hmsix, hqueues, (congrArg (List.take 3) hread).trans rfl⟩
  case allow =>
    obtain ⟨hhead, htail⟩ := Prod.mk.inj (putEntry_indices (s.queue q) off bytes)
    refine ⟨_, exec_allowListEntryWrite hq off bytes, fun j hj => (queue_modQueue _ _ _ _).trans (if_neg hj), rfl, ?_⟩
    rw [queue_modQueue, if_pos rfl]
    refine ⟨hhead, htail, fun hk => ?_, fun b ho hb hk => ?_, fun b ho hb hk => ?_⟩
    · obtain ⟨m, hm⟩ := putEntry_enabled hk off bytes
      rw [hm]
      exact ⟨rfl, rfl, rfl⟩
    · rw [ho, hb, putEntry_ctx hk]
    · rw [ho, hb, putEntry_log hk]
  case ramp =>
    show execRampTableWrite c high v s = _
    rw [execRampTableWrite, if_neg (by simp [hr])]
  case decoder =>
    exact ⟨_, exec_decoderWrite_taken hr hn hd, cget_cset_same s.decoders n (some d), fun j hj => cget_cset_other s.decoders n j (some d) hj, rfl⟩
  case own =>
    simp only [List.mem_cons, List.not_mem_nil, or_false] at hp
    rcases hp with rfl | rfl | rfl
    · exact exec_registerWrite_if rfl
    · exact exec_registerWrite_if rfl
    · exact exec_registerWrite_if rfl

end Sys2Proof.Machine
end

section
/-! SUPPORT. A cached translation that is larger than the translation it is a piece of, which an invalidation of its second page leaves in its
cache (R380/18). Refutes O47. -/

namespace Sys2Proof.Machine

/-- R170/07, R380/18: an invalidation that is admitted removes translations and moves the head. -/
theorem exec_translationInvalidation_drops {s : State} {q : Nat} {e : List Byte} (he : s.ringEntry q = some e) (ht : entryType e = 8)
    (hb : (s.queue q).bitmap.getLsbD 8 = true) (hr : fieldOf e 0 1 < 32) (hm : s.mayName (s.queue q).ctx (fieldOf e 8 1) = true)
    (hn : fieldOf e 24 8 ≠ 0) (hle : fieldOf e 16 8 + fieldOf e 24 8 ≤ 2 ^ 56) (hf : s.inFlight (fieldOf e 8 1) = false) :
    exec (.translationInvalidation q) s =
      .next ((s.dropTlb (fieldOf e 8 1) (some (false, fieldOf e 16 8, fieldOf e 24 8))).nextEntry q) := by
  have hrange : ¬ (fieldOf e 24 8 = 0 ∨ 2 ^ 56 < fieldOf e 16 8 + fieldOf e 24 8) := by omega
  show execTranslationInvalidation q s = _
  simp only [execTranslationInvalidation, State.parse, he, ht, ne_eq, not_true_eq_false, if_false, hb, Bool.not_true, Bool.false_or,
    decide_eq_true_eq, Nat.not_le.mpr hr, hm, hrange, hf, Bool.false_eq_true]

/-- A cached translation of two pages of context 0 whose span is one page, so that only its first page counts as its own. -/
def outsizedTlb : Tlb := { ctx := 0, va := 0, gpa := 0, hpa := 0, size := 8192, r := true, w := true, x := true, span := 4096 }

/-- Core 0 caches the translation. The second stage of context 0 maps the lowest GiB, and the head of its ring, at 0x200000, holds a command of
type 8 for one byte at 4096. -/
def outsizedCached : State :=
  { ready := true
    queues := [(0, { base := 0x200000, log := 4, enable := true, bitmap := 0x100, tail := 1 })]
    ctxs := [(0, { root2 := 0x100000 })]
    cores := [(0, { tlb := [outsizedTlb] })]
    mem := [(0x100000, 0x01), (0x100001, 0x10), (0x100002, 0x10), (0x101000, 0x01), (0x101001, 0x20), (0x101002, 0x10), (0x102000, 0x3D),
      (0x200000, 0x08), (0x200011, 0x10), (0x200018, 0x01)] }

/-- The command at the head: type 8, context 0, address 4096, length 1. -/
def invalidateSecondPage : List Byte := Memory.read [(0, 0x08), (17, 0x10), (24, 0x01)] 0 64

theorem outsizedCached_ringEntry : outsizedCached.ringEntry 0 = some invalidateSecondPage := by decide +kernel

theorem invalidateSecondPage_fields : entryType invalidateSecondPage = 8 ∧ fieldOf invalidateSecondPage 0 1 = 8 ∧
    fieldOf invalidateSecondPage 8 1 = 0 ∧ fieldOf invalidateSecondPage 16 8 = 4096 ∧ fieldOf invalidateSecondPage 24 8 = 1 := by decide

theorem outsizedCached_keeps_tlb : (outsizedCached.dropTlb 0 (some (false, 4096, 1))).cores = outsizedCached.cores := by decide +kernel

/-- Refutes O47: of a translation invalidation it says that no cache keeps an entry which overlaps the range, whatever entries the caches hold.
The device judges an entry by its span, and the entry of `outsizedCached`, which its span does not cover, stays. -/
theorem not_ringCommands : ¬ Obligations.RingCommands := by
  unfold Obligations.RingCommands
  intro hall
  obtain ⟨-, -, -, -, -, -, -, -, -, -, -, -, hinvalidate⟩ := hall outsizedCached 0 invalidateSecondPage
  obtain ⟨htype, hbyte, hctx, haddr, hlen⟩ := invalidateSecondPage_fields
  have hbit : (outsizedCached.queue 0).bitmap.getLsbD 8 = true := by decide
  have hname : outsizedCached.mayName (outsizedCached.queue 0).ctx (fieldOf invalidateSecondPage 8 1) = true := by decide
  have hrange : fieldOf invalidateSecondPage 16 8 + fieldOf invalidateSecondPage 24 8 ≤ 2 ^ 56 := by rw [haddr, hlen]; decide
  have hlt : fieldOf invalidateSecondPage 0 1 < 32 := by rw [hbyte]; decide
  have hflight : outsizedCached.inFlight (fieldOf invalidateSecondPage 8 1) = false := rfl
  have hne : fieldOf invalidateSecondPage 24 8 ≠ 0 := by rw [hlen]; decide
  obtain ⟨t, ht, -, -, hcores, -⟩ :=
    hinvalidate ⟨⟨outsizedCached_ringEntry, htype⟩, hbit, hlt⟩ hname hne hrange hflight
  rw [exec_translationInvalidation_drops outsizedCached_ringEntry htype hbit hlt hname hne hrange hflight] at ht
  obtain rfl := Host.Outcome.next.inj ht
  rw [hctx, haddr, hlen] at hcores
  have hstays : (0, ({ tlb := [outsizedTlb] } : Core)) ∈ ((outsizedCached.dropTlb 0 (some (false, 4096, 1))).nextEntry 0).cores := by
    show _ ∈ (outsizedCached.dropTlb 0 (some (false, 4096, 1))).cores
    rw [outsizedCached_keeps_tlb]
    exact List.mem_cons_self
  exact hcores _ hstays outsizedTlb List.mem_cons_self (by decide)

end Sys2Proof.Machine
end

section
/-! SUPPORT. The commands of a core's FIFO: reads after a change of one, what a change of a core leaves beside its commands, what a start and a
grant do (R244/11, R347, R349, R352, R361/17). -/

namespace Sys2Proof.Machine

variable {s t u : State} {core id : Nat} {c : MatCmd}

/-! ### Reads after writes -/

/-- Among items with keys, changing those of one key leaves what is found under another. -/
theorem find?_map_key_other {α : Type} (key : α → Nat) {k n : Nat} (hn : n ≠ k) (f : α → α) (hf : ∀ x, key x = k → key (f x) = k)
    (xs : List α) : (xs.map fun x => if key x = k then f x else x).find? (fun x => key x == n) = xs.find? fun x => key x == n := by
  induction xs with
  | nil => rfl
  | cons x xs ih =>
    by_cases e : key x = k
    · have hne : k ≠ n := Ne.symm hn
      simp [e, hf x e, hne, ih]
    · by_cases e' : key x = n
      · simp [e', hn]
      · simp [e, e', ih]

theorem cmd?_id (hc : s.cmd? core id = some c) : c.id = id := by simpa using List.find?_some hc

theorem cmd?_modCore (s : State) (core n : Nat) (f : Core → Core) :
    (s.modCore core f).cmd? core n = (f (s.core core)).fifo.find? fun c => c.id == n := by
  unfold State.cmd?
  rw [core_modCore, if_pos rfl]

/-- What a change of one command does to its reading. -/
theorem cmd?_modCmd (s : State) (core id : Nat) (f : MatCmd → MatCmd)
    (hf : ∀ c, c.id = id → (f c).id = id) :
    (s.modCmd core id f).cmd? core id = (s.cmd? core id).map f :=
  (cmd?_modCore s core id _).trans (find?_map_key MatCmd.id id f hf (s.core core).fifo)

theorem cmd?_modCmd_other (s : State) (core : Nat) {n : Nat} (hn : n ≠ id) (f : MatCmd → MatCmd)
    (hf : ∀ c, c.id = id → (f c).id = id) :
    (s.modCmd core id f).cmd? core n = s.cmd? core n :=
  (cmd?_modCore s core n _).trans (find?_map_key_other MatCmd.id hn f hf (s.core core).fifo)

theorem cmd?_freeCmd (s : State) (core id n : Nat) : (s.freeCmd core id).cmd? core n = if n = id then none else s.cmd? core n := by
  refine (cmd?_modCore s core n _).trans ?_
  rw [List.find?_filter]
  split
  · next e => simp [e, List.find?_eq_none]
  · next e =>
    unfold State.cmd?
    congr 1
    funext c
    by_cases hc : c.id = n
    · simp [hc, e]
    · simp [hc]

theorem cores_modQuads (s : State) (core : Nat) (f : Core → Core) : (s.modQuads core f).cores = (s.modCore core f).cores :=
  (congrArg State.cores (modQuads_butPlanes s core f) :)

theorem core_modQuads_cases (s : State) (core k : Nat) (f : Core → Core) :
    (s.modQuads core f).core k = if k = core then f (s.core core) else s.core k := by
  rw [← core_modCore]
  unfold State.core
  rw [cores_modQuads]

theorem getD_modAt_cases {α : Type} (f : α → α) (xs : List α) (n k : Nat) (d : α) :
    (modAt f xs n).getD k d = xs.getD k d ∨ k = n ∧ (modAt f xs n).getD k d = f (xs.getD k d) := by
  by_cases hn : n < xs.length
  · rw [getD_modAt f xs n k d hn]
    by_cases hk : k = n
    · exact .inr ⟨hk, if_pos hk⟩
    · exact .inl (if_neg hk)
  · rw [modAt_of_le f xs n (Nat.not_lt.mp hn)]
    exact .inl rfl

/-! ### Beside the commands of a core -/

/-- What an event of one command of a core leaves as it is where no planes move: everything outside the cores, the other cores, the other
commands, the planes that are saved. -/
def State.besideCmd (s : State) (core id : Nat) : State × (Nat → Core) × (Nat → Option MatCmd) × List (Nat × Nat × Quad) :=
  ({ s with cores := [] }, fun x => if x = core then {} else s.core x, fun n => if n = id then none else s.cmd? core n, (s.core core).saved)

theorem besideCmd_modCore {f : Core → Core} (hs : (f (s.core core)).saved = (s.core core).saved)
    (hc : ∀ n, n ≠ id → ((f (s.core core)).fifo.find? fun c => c.id == n) = s.cmd? core n) :
    (s.modCore core f).besideCmd core id = s.besideCmd core id := by
  have hcores : (fun x => if x = core then ({} : Core) else (s.modCore core f).core x) = fun x => if x = core then {} else s.core x := by
    funext x
    by_cases hx : x = core
    · simp [hx]
    · simp [hx, core_modCore]
  have hcmds : (fun n => if n = id then none else (s.modCore core f).cmd? core n) = fun n => if n = id then none else s.cmd? core n := by
    funext n
    by_cases hn : n = id
    · simp [hn]
    · simp only [hn, if_false]
      exact (cmd?_modCore s core n f).trans (hc n hn)
  have hsaved : ((s.modCore core f).core core).saved = (s.core core).saved := by rw [core_modCore, if_pos rfl, hs]
  unfold State.besideCmd
  rw [hcores, hcmds, hsaved]
  rfl

/-- A change of the core that leaves its commands and its saved planes. -/
theorem besideCmd_modCore_keeps {f : Core → Core} (hs : (f (s.core core)).saved = (s.core core).saved)
    (hf : (f (s.core core)).fifo = (s.core core).fifo) : (s.modCore core f).besideCmd core id = s.besideCmd core id :=
  besideCmd_modCore hs fun n _ => by rw [hf]; rfl

theorem besideCmd_modCmd (s : State) (core id : Nat) (f : MatCmd → MatCmd)
    (hf : ∀ c, c.id = id → (f c).id = id) :
    (s.modCmd core id f).besideCmd core id = s.besideCmd core id :=
  besideCmd_modCore rfl fun _ hn => find?_map_key_other MatCmd.id hn f hf (s.core core).fifo

theorem besideCmd_freeCmd (s : State) (core id : Nat) : (s.freeCmd core id).besideCmd core id = s.besideCmd core id :=
  besideCmd_modCore rfl fun n hn => by
    have h := cmd?_freeCmd s core id n
    rw [if_neg hn] at h
    exact (cmd?_modCore s core n _).symm.trans h

/-- R349/17: what an event of a command changes: its core, but for the other commands, and what planes that move write. -/
def State.onlyCore (s : State) (core id : Nat) (t : State) : Prop :=
  ({ t with cores := s.cores, mem := s.mem, ctxs := s.ctxs, fields := s.fields, mailboxes := s.mailboxes } : State) = s ∧
  ((t.core core).saved = (s.core core).saved → ({ t with cores := s.cores } : State) = s) ∧ (∀ x, x ≠ core → t.core x = s.core x) ∧
  ∀ n, n ≠ id → t.cmd? core n = s.cmd? core n

theorem besideCmd_cores (h : t.besideCmd core id = s.besideCmd core id) {x : Nat} (hx : x ≠ core) : t.core x = s.core x := by
  have hfun := congrArg (fun b : State × (Nat → Core) × (Nat → Option MatCmd) × List (Nat × Nat × Quad) => b.2.1 x) h
  simpa only [State.besideCmd, if_neg hx] using hfun

theorem besideCmd_cmds (h : t.besideCmd core id = s.besideCmd core id) {n : Nat} (hn : n ≠ id) : t.cmd? core n = s.cmd? core n := by
  have hfun := congrArg (fun b : State × (Nat → Core) × (Nat → Option MatCmd) × List (Nat × Nat × Quad) => b.2.2.1 n) h
  simpa only [State.besideCmd, if_neg hn] using hfun

theorem besideCmd_outside (h : t.besideCmd core id = s.besideCmd core id) : ({ t with cores := [] } : State) = { s with cores := [] } :=
  congrArg Prod.fst h

theorem besideCmd_saved (h : t.besideCmd core id = s.besideCmd core id) : (t.core core).saved = (s.core core).saved :=
  congrArg (fun b => b.2.2.2) h

theorem onlyCore_of_besideCmd (h : t.besideCmd core id = s.besideCmd core id) : s.onlyCore core id t :=
  ⟨(congrArg (fun x : State => ({ x with cores := s.cores, mem := s.mem, ctxs := s.ctxs, fields := s.fields, mailboxes := s.mailboxes } : State))
      (besideCmd_outside h) :),
    fun _ => (congrArg (fun x : State => ({ x with cores := s.cores } : State)) (besideCmd_outside h) :),
    fun _ hx => besideCmd_cores h hx, fun _ hn => besideCmd_cmds h hn⟩

/-- A change of the quadrants between two changes of the command. -/
theorem onlyCore_of_modQuads {f : Core → Core} (hbefore : u.besideCmd core id = s.besideCmd core id)
    (hf : (f (u.core core)).fifo = (u.core core).fifo) (hafter : t.besideCmd core id = (u.modQuads core f).besideCmd core id) :
    s.onlyCore core id t := by
  have hcmds : ∀ n, (u.modQuads core f).cmd? core n = u.cmd? core n := fun n => by
    unfold State.cmd?
    rw [core_modQuads, hf]
  refine ⟨?_, fun hsaved => ?_, fun x hx => ?_, fun n hn => ?_⟩
  · calc ({ t with cores := s.cores, mem := s.mem, ctxs := s.ctxs, fields := s.fields, mailboxes := s.mailboxes } : State)
      _ = { u.modQuads core f with
            cores := s.cores, mem := s.mem, ctxs := s.ctxs, fields := s.fields, mailboxes := s.mailboxes } :=
          (onlyCore_of_besideCmd hafter).1 ▸ rfl
      _ = { (u.modQuads core f).butPlanes with
            cores := s.cores, mem := s.mem, ctxs := s.ctxs, fields := s.fields, mailboxes := s.mailboxes } := rfl
      _ = { (u.modCore core f).butPlanes with
            cores := s.cores, mem := s.mem, ctxs := s.ctxs, fields := s.fields, mailboxes := s.mailboxes } := by rw [modQuads_butPlanes]
      _ = { u with cores := s.cores, mem := s.mem, ctxs := s.ctxs, fields := s.fields, mailboxes := s.mailboxes } := rfl
      _ = s := (onlyCore_of_besideCmd hbefore).1
  · have hkept : (f (u.core core)).saved = (u.core core).saved := by
      rw [← core_modQuads u core f, ← besideCmd_saved hafter, hsaved, besideCmd_saved hbefore]
    rw [modQuads_of_saved_eq hkept] at hafter
    calc ({ t with cores := s.cores } : State)
      _ = { u.modCore core f with cores := s.cores } :=
          (congrArg (fun x : State => ({ x with cores := s.cores } : State)) (besideCmd_outside hafter) :)
      _ = { u with cores := s.cores } := rfl
      _ = s := (congrArg (fun x : State => ({ x with cores := s.cores } : State)) (besideCmd_outside hbefore) :)
  · rw [besideCmd_cores hafter hx, core_modQuads_cases, if_neg hx, besideCmd_cores hbefore hx]
  · rw [besideCmd_cmds hafter hn, hcmds, besideCmd_cmds hbefore hn]

/-! ### Quadrants that a start gains (R352/17) -/

@[simp] theorem leaveQuad_fifo (k : Core) (q : Nat) : (k.leaveQuad q).fifo = k.fifo := by
  unfold Core.leaveQuad
  simp only
  split <;> rfl

@[simp] theorem gainQuad_fifo (k : Core) (ctx q : Nat) : (k.gainQuad ctx q).fifo = k.fifo := by
  unfold Core.gainQuad
  split
  · rfl
  · exact leaveQuad_fifo k q

theorem takeQuads_fifo (k : Core) (ctx granted : Nat) : (k.takeQuads ctx granted).fifo = k.fifo := by
  refine foldl_keep _ Core.fifo (fun k q => ?_) (List.range 4) k
  split
  · exact leaveQuad_fifo k q
  · rfl

/-- The filler of some quadrants ends. -/
def Core.endFiller (k : Core) (qs : List Nat) : Core :=
  qs.foldl (fun (k : Core) q => { k with quads := modAt (fun x : Quad => { x with filler := 0 }) k.quads q }) k

theorem endFiller_fifo (k : Core) (qs : List Nat) : (k.endFiller qs).fifo = k.fifo := foldl_keep _ Core.fifo (fun _ _ => by rfl) qs k

theorem endFiller_saved (k : Core) (qs : List Nat) : (k.endFiller qs).saved = k.saved :=
  foldl_keep _ Core.saved (fun _ _ => by rfl) qs k

/-- A core that gives a command the quadrants of its set, and its ring (R347, R352, R353, R362/17). -/
def Core.giveSet (k : Core) (c : MatCmd) (r : Nat) : Core :=
  let k := (setQuads r).foldl (fun k q => k.gainQuad c.ctx q) k
  let k := if c.onArray && !c.empty then k.endFiller (setQuads r) else k
  if c.onArray then
    { k with rings := modAt (fun x : Ring => { x with base := c.src, logsz := c.logsz, slotSize := c.slotBytes }) k.rings c.ring }
  else k

/-- A command once it has started on a set. -/
def MatCmd.startedOn (c : MatCmd) (r : Nat) : MatCmd := { c with started := true, stopped := false, run := r, done := c.empty }

theorem startCmd_eq (s : State) (core : Nat) (c : MatCmd) (r : Nat) :
    s.startCmd core c r = (s.modQuads core fun k => k.giveSet c r).modCmd core c.id fun x => x.startedOn r := rfl

theorem giveSet_fifo (k : Core) (c : MatCmd) (r : Nat) : (k.giveSet c r).fifo = k.fifo := by
  have hgain : ((setQuads r).foldl (fun k q => k.gainQuad c.ctx q) k).fifo = k.fifo :=
    foldl_keep _ Core.fifo (fun _ _ => gainQuad_fifo _ _ _) _ k
  unfold Core.giveSet
  simp only
  split <;> split
  · exact (endFiller_fifo _ _).trans hgain
  · exact hgain
  · exact (endFiller_fifo _ _).trans hgain
  · exact hgain

theorem cmd?_modQuads {f : Core → Core} (hf : (f (s.core core)).fifo = (s.core core).fifo) (n : Nat) :
    (s.modQuads core f).cmd? core n = s.cmd? core n := by
  unfold State.cmd?
  rw [core_modQuads, hf]

/-- R347/17: a command that starts is the command with its running set, and nothing else changes but its core's quadrants. -/
theorem startCmd_spec (hc : s.cmd? core id = some c) (r : Nat) :
    (s.startCmd core c r).cmd? core id = some { c with started := true, stopped := false, run := r, done := c.empty } ∧
      s.onlyCore core id (s.startCmd core c r) := by
  have hstart : s.startCmd core c r = (s.modQuads core fun k => k.giveSet c r).modCmd core id fun x => x.startedOn r := by
    rw [startCmd_eq, cmd?_id hc]
  rw [hstart]
  refine ⟨?_, onlyCore_of_modQuads rfl (giveSet_fifo _ c r) (besideCmd_modCmd _ core id _ (by exact fun _ e => e))⟩
  rw [cmd?_modCmd _ _ _ _ (by exact fun _ e => e), cmd?_modQuads (giveSet_fifo _ c r), hc]
  rfl

/-- An event that changes the command alone. -/
theorem modCmd_spec (hc : s.cmd? core id = some c) (f : MatCmd → MatCmd) (hf : ∀ c, (f c).id = c.id) :
    (s.modCmd core id f).cmd? core id = some (f c) ∧ s.onlyCore core id (s.modCmd core id f) := by
  have hkey : ∀ c, c.id = id → (f c).id = id := fun c e => (hf c).trans e
  rw [cmd?_modCmd s core id f hkey, hc]
  exact ⟨rfl, onlyCore_of_besideCmd (besideCmd_modCmd s core id f hkey)⟩

/-! ### Quadrants that no other context holds -/

/-- Every quadrant of a core is a context's own or no context's. -/
def Core.heldBy (k : Core) (ctx : Nat) : Prop := ∀ q, (k.quads.getD q {}).owner = none ∨ (k.quads.getD q {}).owner = some ctx

/-- A context that gains a quadrant of no other context saves no planes. -/
theorem gainQuad_heldBy {k : Core} {ctx : Nat} (hk : k.heldBy ctx) (q : Nat) :
    (k.gainQuad ctx q).heldBy ctx ∧ (k.gainQuad ctx q).saved ⊆ k.saved := by
  unfold Core.gainQuad
  split
  · exact ⟨hk, fun _ hx => hx⟩
  · next hq =>
    have hfree : (k.quads.getD q {}).owner = none := (hk q).resolve_right hq
    have hstay : k.leaveQuad q = k := by simp only [Core.leaveQuad, hfree]
    rw [hstay]
    refine ⟨fun n => ?_, fun x hx => (List.mem_filter.mp hx).1⟩
    rcases getD_modAt_cases (fun x : Quad => { (((k.saved.find? fun x => x.1 == ctx && x.2.1 == q).map fun x => x.2.2).getD {}) with
        owner := some ctx, filler := x.filler }) k.quads q n {} with e | ⟨-, e⟩
    · exact e ▸ hk n
    · exact .inr (congrArg Quad.owner e)

theorem foldl_gainQuad_heldBy {k : Core} {ctx : Nat} (hk : k.heldBy ctx) (qs : List Nat) :
    (qs.foldl (fun k q => k.gainQuad ctx q) k).heldBy ctx ∧ (qs.foldl (fun k q => k.gainQuad ctx q) k).saved ⊆ k.saved := by
  induction qs generalizing k with
  | nil => exact ⟨hk, fun _ hx => hx⟩
  | cons q qs ih =>
    obtain ⟨hq, hsaved⟩ := gainQuad_heldBy hk q
    obtain ⟨hlast, hrest⟩ := ih hq
    exact ⟨hlast, fun x hx => hsaved (hrest hx)⟩

theorem endFiller_heldBy {k : Core} {ctx : Nat} (hk : k.heldBy ctx) (qs : List Nat) : (k.endFiller qs).heldBy ctx := by
  induction qs generalizing k with
  | nil => exact hk
  | cons q qs ih =>
    refine ih fun n => ?_
    have howner : ((modAt (fun x : Quad => { x with filler := 0 }) k.quads q).getD n {}).owner = (k.quads.getD n {}).owner := by
      rcases getD_modAt_cases (fun x : Quad => { x with filler := 0 }) k.quads q n {} with e | ⟨-, e⟩ <;> rw [e]
    rw [howner]
    exact hk n

theorem giveSet_heldBy {k : Core} (hk : k.heldBy c.ctx) (r : Nat) : (k.giveSet c r).heldBy c.ctx ∧ (k.giveSet c r).saved ⊆ k.saved := by
  obtain ⟨hheld, hsaved⟩ := foldl_gainQuad_heldBy hk (setQuads r)
  have hfill := endFiller_heldBy hheld (setQuads r)
  have hfillSaved := endFiller_saved ((setQuads r).foldl (fun k q => k.gainQuad c.ctx q) k) (setQuads r)
  unfold Core.giveSet
  simp only
  split <;> split
  · exact ⟨hfill, hfillSaved ▸ hsaved⟩
  · exact ⟨hheld, hsaved⟩
  · exact ⟨hfill, hfillSaved ▸ hsaved⟩
  · exact ⟨hheld, hsaved⟩

theorem endPlaneWait_mem (s : State) (ctx core q : Nat) : (s.endPlaneWait ctx core q).mem = s.mem := by
  unfold State.endPlaneWait
  split
  · rfl
  · simp only
    split <;> rfl

/-- Where no further planes are saved, memory stays. -/
theorem modQuads_mem {f : Core → Core} (hf : (f (s.core core)).saved ⊆ (s.core core).saved) : (s.modQuads core f).mem = s.mem := by
  have hcore : ((s.modCore core f).core core).saved = (f (s.core core)).saved := by rw [core_modCore, if_pos rfl]
  have hnone : ((f (s.core core)).saved.filter fun x => !((s.core core).saved.any fun y => y.1 == x.1 && y.2.1 == x.2.1)) = [] := by
    refine List.filter_eq_nil_iff.mpr fun x hx => ?_
    simpa using ⟨x.2.2, hf hx⟩
  unfold State.modQuads
  simp only [hcore, hnone, List.foldl_nil]
  exact foldl_keep _ State.mem (fun u (x : Nat × Nat × Quad) => endPlaneWait_mem u x.1 core x.2.1) _ _

/-! ### Grants (R165/07, R361/17) -/

/-- A command of a core that is granted: charged for its wait, and started. -/
def State.grant (s : State) (core : Nat) (c : MatCmd) (r : Nat) : State := (s.chargeWait core c).startCmd core c r

/-- What every grant of the list keeps, and the state has, it has at the end. -/
theorem grantFrom_keeps (P : State → Prop) (entry : Nat) {xs : List (Nat × MatCmd)} (hP : ∀ t, P t → ∀ x ∈ xs, ∀ r, P (t.grant x.1 x.2 r))
    {used : Nat} (hs : P s) : P (s.grantFrom entry used xs) := by
  induction xs generalizing s used with
  | nil => exact hs
  | cons x xs ih =>
    obtain ⟨core, c⟩ := x
    have hrest : ∀ t, P t → ∀ x ∈ xs, ∀ r, P (t.grant x.1 x.2 r) := fun t ht x hx => hP t ht x (List.mem_cons_of_mem _ hx)
    unfold State.grantFrom
    split
    · exact ih hrest hs
    · next r hr =>
      have hgrant : P (s.grant core c r) := hP s hs (core, c) List.mem_cons_self r
      simp only
      split
      · split
        · exact hgrant
        · exact ih hrest hgrant
      · exact hs

/-- R361/17: the first pending command, where it may start, is granted whatever the entry. -/
theorem grantFrom_first (P : State → Prop) (entry : Nat) {xs : List (Nat × MatCmd)} {r : Nat}
    (hP : ∀ t, P t → ∀ x ∈ xs, ∀ r, P (t.grant x.1 x.2 r)) (hm : s.mayStart core c = some r) (hs : P (s.grant core c r)) :
    P (s.grantFrom entry 0 ((core, c) :: xs)) := by
  unfold State.grantFrom
  rw [hm]
  simp only [or_true, if_true]
  split
  · exact hs
  · exact grantFrom_keeps P entry hP hs

/-- A core charged for cycles that a command of it waited. -/
def Core.charged (k : Core) (n : Nat) : Core := { k with slewcy := BitVec.ofNat 32 (min (2 ^ 32 - 1) (k.slewcy.toNat + n)) }

theorem chargeWait_core (s : State) (core x : Nat) (c : MatCmd) : (s.chargeWait core c).core x =
    if x = core then (s.core core).charged (s.now - c.askedAt.getD s.now) else s.core x :=
  core_modCore s core x fun k => k.charged (s.now - c.askedAt.getD s.now)

theorem chargeWait_fifo_quads (s : State) (core x : Nat) (c : MatCmd) :
    ((s.chargeWait core c).core x).fifo = (s.core x).fifo ∧ ((s.chargeWait core c).core x).quads = (s.core x).quads := by
  rw [chargeWait_core]
  split
  · next e => rw [e]; exact ⟨rfl, rfl⟩
  · exact ⟨rfl, rfl⟩

theorem chargeWait_cmd? (s : State) (core n x : Nat) (c : MatCmd) : (s.chargeWait core c).cmd? x n = s.cmd? x n := by
  unfold State.cmd?
  rw [(chargeWait_fifo_quads s core x c).1]

theorem modQuads_outside (s : State) (core : Nat) (f : Core → Core) :
    (s.modQuads core f).sheaves = s.sheaves ∧ (s.modQuads core f).ramps = s.ramps :=
  ⟨(congrArg State.sheaves (modQuads_butPlanes s core f) :), (congrArg State.ramps (modQuads_butPlanes s core f) :)⟩

/-- A grant leaves the sheaves and the ramps as they were. -/
theorem grant_outside (s : State) (core : Nat) (c : MatCmd) (r : Nat) :
    (s.grant core c r).sheaves = s.sheaves ∧ (s.grant core c r).ramps = s.ramps := by
  rw [State.grant, startCmd_eq, State.modCmd, State.modCore_sheaves, State.modCore_ramps]
  exact modQuads_outside (s.chargeWait core c) core fun k => k.giveSet c r

theorem grant_cmd? (s : State) (core x n : Nat) (c : MatCmd) (r : Nat) : (s.grant core c r).cmd? x n =
    if x = core ∧ n = c.id then (s.cmd? x n).map fun y => y.startedOn r else s.cmd? x n := by
  have hquads : ∀ n, ((s.chargeWait core c).modQuads core fun k => k.giveSet c r).cmd? core n = s.cmd? core n := fun n => by
    rw [cmd?_modQuads (giveSet_fifo _ c r), chargeWait_cmd?]
  rw [State.grant, startCmd_eq]
  by_cases hx : x = core
  · subst hx
    by_cases hn : n = c.id
    · rw [if_pos ⟨rfl, hn⟩, hn, cmd?_modCmd _ _ _ _ (by exact fun _ e => e), hquads]
    · rw [if_neg fun h => hn h.2, cmd?_modCmd_other _ _ hn _ (by exact fun _ e => e), hquads]
  · rw [if_neg fun h => hx h.1, State.cmd?, State.modCmd, core_modCore, if_neg hx, core_modQuads_cases, if_neg hx]
    exact chargeWait_cmd? s core n x c

/-- A command that has started stays so. -/
theorem grant_keeps_started {x n : Nat} (h : ∃ y, s.cmd? x n = some y ∧ y.started = true) (core : Nat) (c : MatCmd) (r : Nat) :
    ∃ y, (s.grant core c r).cmd? x n = some y ∧ y.started = true := by
  obtain ⟨y, hy, hstarted⟩ := h
  rw [grant_cmd?]
  split
  · exact ⟨y.startedOn r, by rw [hy]; rfl, rfl⟩
  · exact ⟨y, hy, hstarted⟩

theorem grant_starts (hc : (s.cmd? core c.id).isSome) (r : Nat) : ∃ y, (s.grant core c r).cmd? core c.id = some y ∧ y.started = true := by
  obtain ⟨y, hy⟩ := Option.isSome_iff_exists.mp hc
  exact ⟨y.startedOn r, by rw [grant_cmd?, if_pos ⟨rfl, rfl⟩, hy]; rfl, rfl⟩

/-- A grant on a core whose quadrants no other context holds writes no memory, and leaves them so. -/
theorem grant_heldBy (hk : (s.core core).heldBy c.ctx) (r : Nat) :
    (s.grant core c r).mem = s.mem ∧ ((s.grant core c r).core core).heldBy c.ctx ∧
      ∀ x, x ≠ core → ((s.grant core c r).core x).quads = (s.core x).quads := by
  have hheld : ((s.chargeWait core c).core core).heldBy c.ctx := by
    unfold Core.heldBy
    rw [(chargeWait_fifo_quads s core core c).2]
    exact hk
  obtain ⟨hgiven, hsaved⟩ := giveSet_heldBy hheld r
  refine ⟨?_, ?_, fun x hx => ?_⟩
  · rw [State.grant, startCmd_eq, State.modCmd, State.modCore_mem]
    exact modQuads_mem (f := fun k => k.giveSet c r) hsaved
  · rw [State.grant, startCmd_eq, State.modCmd, core_modCore, if_pos rfl, core_modQuads]
    exact hgiven
  · rw [State.grant, startCmd_eq, State.modCmd, core_modCore, if_neg hx, core_modQuads_cases, if_neg hx, (chargeWait_fifo_quads s core x c).2]

end Sys2Proof.Machine
end

section
/-! SUPPORT. The events of the matrix engine and the posts that waited (R144, R145, R147/06, R165/07, R180/08, R231, R244/11, R347 to R349,
R361, R362/17). Settles O51. -/

namespace Sys2Proof.Machine

variable {s t : State} {core id : Nat} {c : MatCmd} {r : Nat}

/-! ### Starts (R347, R361/17) -/

theorem exec_matrixCommandStart_none (hc : s.cmd? core id = some c) (hm : s.mayStart core c = none) :
    exec (.matrixCommandStart core id) s = .next s := by
  show execMatrixCommandStart core id s = _
  simp only [execMatrixCommandStart, hc, hm]

theorem exec_matrixCommandStart_starts (hc : s.cmd? core id = some c) (hm : s.mayStart core c = some r) (hg : c.needsGrant = false) :
    exec (.matrixCommandStart core id) s = .next (s.startCmd core c r) := by
  show execMatrixCommandStart core id s = _
  simp only [execMatrixCommandStart, hc, hm, hg, Bool.false_eq_true, if_false]

theorem exec_matrixCommandStart_asks (hc : s.cmd? core id = some c) (hm : s.mayStart core c = some r) (hg : c.needsGrant = true)
    (ha : c.askedAt = none) (hf : 0 < ((s.core core).rings.getD c.ring {}).filled) :
    exec (.matrixCommandStart core id) s = .next (s.modCmd core id fun c => { c with askedAt := some s.now }) := by
  show execMatrixCommandStart core id s = _
  simp only [execMatrixCommandStart, hc, hm, hg, if_true, if_pos (And.intro ha hf)]

theorem exec_matrixCommandStart_dry (hc : s.cmd? core id = some c) (hm : s.mayStart core c = some r) (hg : c.needsGrant = true)
    (hf : ((s.core core).rings.getD c.ring {}).filled = 0) : exec (.matrixCommandStart core id) s = .next s := by
  have hdry : ¬ (c.askedAt = none ∧ 0 < ((s.core core).rings.getD c.ring {}).filled) := fun h => Nat.ne_of_gt h.2 hf
  show execMatrixCommandStart core id s = _
  simp only [execMatrixCommandStart, hc, hm, hg, if_true, if_neg hdry]

/-! ### Ring slots (R145/06) -/

theorem exec_ringSlotWaitEnd_filled (hc : s.cmd? core id = some c) (hf : 0 < ((s.core core).rings.getD c.ring {}).filled) :
    exec (.ringSlotWaitEnd core id) s = .next (s.modCmd core id fun c => { c with starved := false }) := by
  show execRingSlotWaitEnd core id s = _
  simp only [execRingSlotWaitEnd, hc, if_pos hf]

theorem exec_ringSlotWaitEnd_dry (hc : s.cmd? core id = some c) (hf : ((s.core core).rings.getD c.ring {}).filled = 0) :
    exec (.ringSlotWaitEnd core id) s = .next s := by
  show execRingSlotWaitEnd core id s = _
  simp only [execRingSlotWaitEnd, hc, if_neg fun h => Nat.ne_of_gt h hf]

/-! ### Leaving an array, stops, resumes and completion (R231, R244/11, R348, R349, R362/17) -/

/-- Leaving an array changes nothing but the filler of the core's quadrants. -/
theorem leaveArray_eq (s : State) (core : Nat) (c : MatCmd) :
    s.leaveArray core c = s ∨ ∃ f : Core → List Quad, s.leaveArray core c = s.modCore core fun k => { k with quads := f k } := by
  unfold State.leaveArray
  split
  · exact .inr ⟨_, rfl⟩
  · exact .inl rfl

theorem leaveArray_besideCmd (s : State) (core id : Nat) (c : MatCmd) : (s.leaveArray core c).besideCmd core id = s.besideCmd core id := by
  rcases leaveArray_eq s core c with e | ⟨f, e⟩
  · rw [e]
  · rw [e]
    exact besideCmd_modCore_keeps rfl rfl

theorem leaveArray_core (s : State) (core : Nat) (c : MatCmd) : ((s.leaveArray core c).core core).fifo = (s.core core).fifo ∧
    ((s.leaveArray core c).core core).res = (s.core core).res := by
  rcases leaveArray_eq s core c with e | ⟨f, e⟩
  · rw [e]
    exact ⟨rfl, rfl⟩
  · rw [e, core_modCore, if_pos rfl]
    exact ⟨rfl, rfl⟩

theorem leaveArray_launchClosed (s : State) (core : Nat) (c : MatCmd) (l : Nat) : (s.leaveArray core c).launchClosed l = s.launchClosed l := by
  rcases leaveArray_eq s core c with e | ⟨f, e⟩
  · rw [e]
  · rw [e]
    rfl

theorem exec_matrixQuiescentStop_idle (hc : s.cmd? core id = some c) (hm : s.mustStop core c = false) :
    exec (.matrixQuiescentStop core id) s = .next s := by
  show execMatrixQuiescentStop core id s = _
  simp [execMatrixQuiescentStop, hc, hm]

/-- R244/11: a command that stops keeps its progress. -/
theorem matrixQuiescentStop_stops (hc : s.cmd? core id = some c) (hm : s.mustStop core c = true) (hl : s.launchClosed c.launch = false) :
    ∃ t, exec (.matrixQuiescentStop core id) s = .next t ∧
      t.cmd? core id = some { c with stopped := true, starved := false, askedAt := none } ∧ s.onlyCore core id t := by
  have hfifo : ∀ k : Core, (k.takeQuads c.ctx ((s.leaveArray core c).quadsGranted core c.ctx)).fifo = k.fifo := fun k => takeQuads_fifo k _ _
  refine ⟨((s.leaveArray core c).modQuads core fun k => k.takeQuads c.ctx ((s.leaveArray core c).quadsGranted core c.ctx)).modCmd core id
    fun c => { c with stopped := true, starved := false, askedAt := none }, ?_, ?_,
    onlyCore_of_modQuads (leaveArray_besideCmd s core id c) (hfifo _) (besideCmd_modCmd _ core id _ (by exact fun _ e => e))⟩
  · show execMatrixQuiescentStop core id s = _
    simp only [execMatrixQuiescentStop, hc, hm, not_true_eq_false, if_false, leaveArray_launchClosed, hl, Bool.false_eq_true]
  · rw [cmd?_modCmd _ _ _ _ (by exact fun _ e => e), cmd?_modQuads (hfifo _), State.cmd?, (leaveArray_core s core c).1, ← State.cmd?, hc]
    rfl

/-- R231/11: a command of an ended launch is removed and counts no token. -/
theorem matrixQuiescentStop_removes (hc : s.cmd? core id = some c) (hm : s.mustStop core c = true) (hl : s.launchClosed c.launch = true) :
    ∃ t, exec (.matrixQuiescentStop core id) s = .next t ∧ t.cmd? core id = none ∧ s.onlyCore core id t ∧
      (t.core core).res = (s.core core).res := by
  refine ⟨(s.leaveArray core c).freeCmd core id, ?_, by rw [cmd?_freeCmd, if_pos rfl],
    onlyCore_of_besideCmd ((besideCmd_freeCmd _ core id).trans (leaveArray_besideCmd s core id c)), ?_⟩
  · show execMatrixQuiescentStop core id s = _
    simp only [execMatrixQuiescentStop, hc, hm, not_true_eq_false, if_false, leaveArray_launchClosed, hl, if_true]
  · rw [State.freeCmd, core_modCore, if_pos rfl]
    exact (leaveArray_core s core c).2

/-- R244/11: a stopped command whose set is free goes on; one on arrays asks for a new grant. -/
theorem matrixCommandResume_spec (hc : s.cmd? core id = some c) (hst : c.started = true) (hsp : c.stopped = true)
    (hr : s.runSet core c = some r) (hf : s.setFree core c r = true) :
    ∃ t, exec (.matrixCommandResume core id) s = .next t ∧ s.onlyCore core id t ∧
      t.cmd? core id = some (if c.onArray then { c with started := false, run := 0 }
        else { c with started := true, stopped := false, run := r, done := c.empty }) := by
  have hexec : exec (.matrixCommandResume core id) s = .next (if c.onArray then s.modCmd core id fun c => { c with started := false, run := 0 }
      else s.startCmd core c r) := by
    show execMatrixCommandResume core id s = _
    simp only [execMatrixCommandResume, hc, hst, hsp, Bool.and_self, not_true_eq_false, if_false, hr, hf]
    split <;> rfl
  refine ⟨_, hexec, ?_⟩
  split
  · obtain ⟨hcmd, honly⟩ := modCmd_spec hc (fun c => { c with started := false, run := 0 }) fun _ => rfl
    exact ⟨honly, hcmd⟩
  · obtain ⟨hcmd, honly⟩ := startCmd_spec hc r
    exact ⟨honly, hcmd⟩

theorem exec_matrixCommandResume_idle (hc : s.cmd? core id = some c) (h : c.started = false ∨ c.stopped = false ∨ s.runSet core c = none) :
    exec (.matrixCommandResume core id) s = .next s := by
  show execMatrixCommandResume core id s = _
  rcases h with h | h | h
  · simp [execMatrixCommandResume, hc, h]
  · simp [execMatrixCommandResume, hc, h]
  · simp only [execMatrixCommandResume, hc, h]
    split <;> rfl

theorem exec_matrixCommandCompletion_idle (hc : s.cmd? core id = some c) (hd : c.done = false) :
    exec (.matrixCommandCompletion core id) s = .next s := by
  show execMatrixCommandCompletion core id s = _
  simp [execMatrixCommandCompletion, hc, hd]

/-- The token of a command that is done rises, but for a command of an ended launch. -/
def State.countToken (s : State) (core : Nat) (c : MatCmd) : State :=
  if s.launchClosed c.launch then s else s.tokenInc core c.ctx c.token false

theorem countToken_besideCmd (s : State) (core id : Nat) (c : MatCmd) : (s.countToken core c).besideCmd core id = s.besideCmd core id := by
  unfold State.countToken
  split
  · rfl
  · exact besideCmd_modCore_keeps rfl rfl

/-- R180/08, R348/17: the token rises by 1 and the entry is freed. -/
theorem matrixCommandCompletion_spec (hc : s.cmd? core id = some c) (hd : c.done = true) :
    ∃ t, exec (.matrixCommandCompletion core id) s = .next t ∧ t.cmd? core id = none ∧ s.onlyCore core id t ∧
      (s.launchClosed c.launch = true → (t.core core).res = (s.core core).res) ∧
      (s.launchClosed c.launch = false → ∀ r, (s.core core).res? c.ctx = some r →
        (t.core core).res? c.ctx = some { r with bank := modAt (fun x => x + 1) r.bank c.token }) := by
  have hres : ∀ u : State, ((u.freeCmd core id).core core).res = (u.core core).res := fun u => by
    rw [State.freeCmd, core_modCore, if_pos rfl]
  have hleft := (leaveArray_core s core c).2
  refine ⟨((s.leaveArray core c).countToken core c).freeCmd core id, ?_, by rw [cmd?_freeCmd, if_pos rfl],
    onlyCore_of_besideCmd (((besideCmd_freeCmd _ core id).trans (countToken_besideCmd _ core id c)).trans (leaveArray_besideCmd s core id c)),
    fun hl => ?_, fun hl r hr => ?_⟩
  · show execMatrixCommandCompletion core id s = _
    simp only [execMatrixCommandCompletion, hc, hd, not_true_eq_false, if_false]
    rfl
  · rw [hres, State.countToken, leaveArray_launchClosed, if_pos hl, hleft]
  · have hfound : ((s.leaveArray core c).core core).res? c.ctx = some r := by rw [Core.res?, hleft]; exact hr
    rw [Core.res?, hres, ← Core.res?, State.countToken, leaveArray_launchClosed, if_neg (by rw [hl]; exact Bool.false_ne_true),
      State.tokenInc, res?_modRes _ core c.ctx _ (by exact fun _ e => e), hfound]
    rfl

/-! ### The ramp governor (R165/07, R361/17) -/

/-- A pending command is one of its core. -/
theorem pendingCmds_cmd? {cl : Nat} {x : Nat × MatCmd} (hx : x ∈ s.pendingCmds cl) : (s.cmd? x.1 x.2.id).isSome = true := by
  obtain ⟨k, -, hk⟩ := List.mem_flatMap.mp hx
  obtain ⟨c, hc, rfl⟩ := List.mem_map.mp hk
  have mem_insertBy : ∀ (y : MatCmd) (le : MatCmd → MatCmd → Bool) (ys : List MatCmd), c ∈ insertBy y le ys → c = y ∨ c ∈ ys := by
    intro y le ys hy
    induction ys with
    | nil => exact .inl (List.mem_singleton.mp hy)
    | cons z zs ih =>
      unfold insertBy at hy
      split at hy
      · exact List.mem_cons.mp hy
      · rcases List.mem_cons.mp hy with e | e
        · exact .inr (e ▸ List.mem_cons_self)
        · exact (ih e).imp_right (List.mem_cons_of_mem _)
  have mem_sortBy : ∀ (le : MatCmd → MatCmd → Bool) (ys : List MatCmd), c ∈ sortBy ys le → c ∈ ys := by
    intro le ys hy
    induction ys with
    | nil => exact hy
    | cons z zs ih =>
      rcases mem_insertBy z le _ hy with e | e
      · exact e ▸ List.mem_cons_self
      · exact List.mem_cons_of_mem _ (ih e)
  exact (List.find?_isSome (p := fun y : MatCmd => y.id == c.id)).mpr ⟨c, (List.mem_filter.mp (mem_sortBy _ _ hc)).1, beq_self_eq_true _⟩

/-- The ramp of a cluster with the tables that take effect at a step's boundary. -/
def Ramp.atBoundary (r : Ramp) : Ramp := { r with lo := r.newLo.getD r.lo, hi := r.newHi.getD r.hi, newLo := none, newHi := none }

/-- At a boundary, with commands pending, the governor opens a step if none is open, and grants in order. -/
theorem exec_rampGovernorStep_grants {cl : Nat} (hp : s.pendingCmds cl ≠ [])
    (ho : (s.ramp cl).opened = none ∨ ∃ x, (s.ramp cl).opened = some x ∧ (s.now - x) % 4 = 0) :
    ∃ entry, exec (.rampGovernorStep cl) s =
      .next ((s.modRamp cl fun _ => { (s.ramp cl).atBoundary with opened := some (((s.ramp cl).opened).getD s.now) }).grantFrom entry 0
        (s.pendingCmds cl)) := by
  have hpending : (s.pendingCmds cl).isEmpty = false := by simpa using hp
  rcases ho with ho | ⟨x, ho, hx⟩
  · refine ⟨(s.ramp cl).atBoundary.entry 0, ?_⟩
    show execRampGovernorStep cl s = _
    simp only [execRampGovernorStep, ho, hpending, Bool.false_eq_true, if_false]
    rfl
  · refine ⟨(s.ramp cl).atBoundary.entry (min 15 ((s.now - x) / 4)), ?_⟩
    show execRampGovernorStep cl s = _
    simp only [execRampGovernorStep, ho, hx, if_true, Option.getD_some]
    rfl

theorem exec_rampGovernorStep_between {cl x : Nat} (ho : (s.ramp cl).opened = some x) (hx : (s.now - x) % 4 ≠ 0) :
    exec (.rampGovernorStep cl) s = .next s := by
  show execRampGovernorStep cl s = _
  simp only [execRampGovernorStep, ho, hx, if_false]

/-- R361/17: the first pending command that may start is granted, and opens the step. -/
theorem rampGovernorStep_spec {cl : Nat} {rest : List (Nat × MatCmd)} (hp : s.pendingCmds cl = (core, c) :: rest)
    (hm : s.mayStart core c = some r) (ho : (s.ramp cl).opened = none ∨ ∃ x, (s.ramp cl).opened = some x ∧ (s.now - x) % 4 = 0) :
    ∃ t c', exec (.rampGovernorStep cl) s = .next t ∧ t.cmd? core c.id = some c' ∧ c'.started = true ∧
      (t.ramp cl).opened = some (((s.ramp cl).opened).getD s.now) ∧ t.sheaves = s.sheaves ∧
      ((∀ x ∈ s.pendingCmds cl, ∀ q, ((s.core x.1).quads.getD q {}).owner = none ∨ ((s.core x.1).quads.getD q {}).owner = some x.2.ctx) →
        (∀ x ∈ s.pendingCmds cl, ∀ y ∈ s.pendingCmds cl, x.1 = y.1 → x.2.ctx = y.2.ctx) → t.mem = s.mem) := by
  obtain ⟨entry, hexec⟩ := exec_rampGovernorStep_grants (by rw [hp]; exact List.cons_ne_nil _ _) ho
  have hfirst : (core, c) ∈ s.pendingCmds cl := by rw [hp]; exact List.mem_cons_self
  have hsome := pendingCmds_cmd? hfirst
  have hrest : ∀ x ∈ rest, x ∈ s.pendingCmds cl := fun x hx => by rw [hp]; exact List.mem_cons_of_mem _ hx
  generalize hu : (s.modRamp cl fun _ => { (s.ramp cl).atBoundary with opened := some (((s.ramp cl).opened).getD s.now) }) = u at hexec
  have hcores : u.cores = s.cores := by rw [← hu]; rfl
  have hmay : u.mayStart core c = some r := by rw [← hu]; exact hm
  have hstarted : ∃ y, (u.grantFrom entry 0 (s.pendingCmds cl)).cmd? core c.id = some y ∧ y.started = true := by
    rw [hp]
    refine grantFrom_first (fun t => ∃ y, t.cmd? core c.id = some y ∧ y.started = true) entry
      (fun t ht x _ r => grant_keeps_started ht x.1 x.2 r) hmay (grant_starts ?_ r)
    rw [State.cmd?, State.core, hcores]
    exact hsome
  have houtside : (u.grantFrom entry 0 (s.pendingCmds cl)).sheaves = u.sheaves ∧ (u.grantFrom entry 0 (s.pendingCmds cl)).ramps = u.ramps :=
    grantFrom_keeps (fun t => t.sheaves = u.sheaves ∧ t.ramps = u.ramps) entry
      (fun t ht x _ r => ⟨(grant_outside t x.1 x.2 r).1.trans ht.1, (grant_outside t x.1 x.2 r).2.trans ht.2⟩) ⟨rfl, rfl⟩
  obtain ⟨y, hy, hys⟩ := hstarted
  refine ⟨_, y, hexec, hy, hys, ?_, houtside.1.trans (by rw [← hu]; rfl), fun hheld hsame => ?_⟩
  · have hramp : (u.grantFrom entry 0 (s.pendingCmds cl)).ramp cl = u.ramp cl := by unfold State.ramp; rw [houtside.2]
    rw [hramp, ← hu]
    exact congrArg Ramp.opened (cget_cset_same s.ramps cl _)
  · have hmem := grantFrom_keeps (s := u) (used := 0) (fun t => t.mem = s.mem ∧ ∀ x ∈ s.pendingCmds cl, (t.core x.1).heldBy x.2.ctx) entry
      (xs := s.pendingCmds cl) (fun t ht x hx r => ?_) ⟨by rw [← hu]; rfl, fun x hx => by rw [State.core, hcores]; exact hheld x hx⟩
    · exact hmem.1
    · obtain ⟨hgm, hgk, hgo⟩ := grant_heldBy (ht.2 x hx) r
      refine ⟨hgm.trans ht.1, fun z hz => ?_⟩
      by_cases hxz : z.1 = x.1
      · rw [hxz, hsame z hz x hx hxz]
        exact hgk
      · unfold Core.heldBy
        rw [hgo z.1 hxz]
        exact ht.2 z hz

/-! ### Filler (R362/17) -/

theorem fillerFinished_spec (s : State) (core q : Nat) : ∃ t, exec (.fillerFinished core q) s = .next t ∧
    ((t.core core).quads.getD q {}).filler = 0 ∧
    (∀ k, k ≠ q → (t.core core).quads.getD k {} = (s.core core).quads.getD k {}) ∧ ({ t with cores := s.cores } : State) = s := by
  refine ⟨_, rfl, ?_, fun k hk => ?_, rfl⟩
  · rw [core_modCore, if_pos rfl]
    by_cases hq : q < (s.core core).quads.length
    · rw [getD_modAt _ _ _ _ _ hq, if_pos rfl]
    · rw [modAt_of_le _ _ _ (Nat.not_lt.mp hq), List.getD_eq_default _ _ (Nat.not_lt.mp hq)]
  · rw [core_modCore, if_pos rfl]
    exact (getD_modAt_cases (fun x : Quad => { x with filler := 0 }) (s.core core).quads q k {}).resolve_right fun h => hk h.1

/-! ### Posts that waited (R144, R147/06) -/

/-- Lanes that waited and go on keep their sheaf's number. -/
theorem finishLanes_id (h : Sheaf) (w : Wait) : (h.finishLanes w).id = h.id := by
  unfold Sheaf.finishLanes
  split
  · exact (congrArg Sheaf.id (foldl_modLane_frame (fun _ ln => ln.pass w.pc w.solo) _ h h.lanes) :)
  · show Sheaf.id (List.foldl _ h (lanesOf w.lanes)) = h.id
    exact foldl_keep _ Sheaf.id (fun _ _ => by rfl) (lanesOf w.lanes) h

/-- Outside a handler, lanes whose PC is still that of their wait move past it, and the wait is over. -/
theorem finishLanes_spec {h : Sheaf} (w : Wait) (k core : Nat) (htl : h.tl = 0)
    (hpc : ∀ l, l < 64 → w.lanes.getLsbD l = true → (h.lane l).pc = w.pc) :
    Moved ⟨k, w.lanes, w.pc, core, 0, w.solo, none, false⟩ h (({ h with waits := h.waits.filter fun x => !(x == w) }).finishLanes w) ∧
      (({ h with waits := h.waits.filter fun x => !(x == w) } : Sheaf).finishLanes w).waits = h.waits.filter fun x => !(x == w) := by
  have hall : (lanesOf w.lanes).filter (fun l => (h.lane l).pc == w.pc) = lanesOf w.lanes :=
    List.filter_eq_self.mpr fun l hl => by
      obtain ⟨hlt, hbit⟩ := (mem_lanesOf _ _).mp hl
      exact beq_iff_eq.mpr (hpc l hlt hbit)
  have hpass : ({ h with waits := h.waits.filter fun x => !(x == w) } : Sheaf).finishLanes w =
      ({ h with waits := h.waits.filter fun x => !(x == w) } : Sheaf).pass (lanesOf w.lanes) w.pc w.solo := by
    unfold Sheaf.finishLanes
    rw [if_pos (by show h.tl ≤ w.tl; omega)]
    unfold Sheaf.passWaited
    exact congrArg (fun ls => Sheaf.pass _ ls w.pc w.solo) hall
  rw [hpass]
  refine ⟨?_, (congrArg Sheaf.waits (foldl_modLane_frame (fun _ ln => ln.pass w.pc w.solo) (lanesOf w.lanes)
    { h with waits := h.waits.filter fun x => !(x == w) } h.lanes) :)⟩
  exact moved_pass (g := { h with waits := h.waits.filter fun x => !(x == w) })
    (w := (({ h with waits := h.waits.filter fun x => !(x == w) } : Sheaf).pass (lanesOf w.lanes) w.pc w.solo).watchSkip)
    ⟨k, w.lanes, w.pc, core, 0, w.solo, none, false⟩ rfl

/-- A wait of a sheaf ends, its lanes going on. -/
theorem finishWait_spec {k : Nat} {h : Sheaf} (hs : s.sheaf? k = some h) (w : Wait) :
    ∃ h', (s.finishWait k w).sheaf? k = some h' ∧ (h.tl = 0 → (∀ l, l < 64 → w.lanes.getLsbD l = true → (h.lane l).pc = w.pc) →
      Moved ⟨k, w.lanes, w.pc, h.core, 0, w.solo, none, false⟩ h h' ∧ h'.waits = h.waits.filter fun x => !(x == w)) := by
  refine ⟨({ h with waits := h.waits.filter fun x => !(x == w) }).finishLanes w, ?_, fun htl hpc => ?_⟩
  · unfold State.finishWait
    rw [sheaf?_modSheaf s k k _ fun g => finishLanes_id { g with waits := g.waits.filter fun x => !(x == w) } w, if_pos rfl, hs]
    rfl
  · exact finishLanes_spec w k h.core htl hpc

/-- A command takes an entry of a core's FIFO. -/
def State.enterCmd (s : State) (core : Nat) (c : MatCmd) : State := s.modCore core fun k => { k with fifo := k.fifo ++ [{ c with posted := s.now }] }

theorem enterCmd_fifo (s : State) (core : Nat) (c : MatCmd) :
    ((s.enterCmd core c).core core).fifo = (s.core core).fifo ++ [{ c with posted := s.now }] := by
  rw [State.enterCmd, core_modCore, if_pos rfl]

/-- R144/06: the post that waited takes the entry that was freed. -/
theorem matrixFifoPostResume_spec {k : Nat} {h : Sheaf} {w : Wait} (hs : s.sheaf? k = some h) (hw : h.fifoWait = some (w, c))
    (hroom : (s.core h.core).fifo.length < 64) : ∃ t h', exec (.matrixFifoPostResume k) s = .next t ∧ t.sheaf? k = some h' ∧
      (h.tl = 0 → (∀ l, l < 64 → w.lanes.getLsbD l = true → (h.lane l).pc = w.pc) →
        Moved ⟨k, w.lanes, w.pc, h.core, 0, w.solo, none, false⟩ h h' ∧ h'.waits = h.waits.filter fun x => !(x == w)) ∧
      (t.core h.core).fifo = (s.core h.core).fifo ++ [{ c with posted := s.now }] ∧ t.mem = s.mem := by
  have hposted : (s.enterCmd h.core c).sheaf? k = some h := hs
  obtain ⟨h', hfound, hgoes⟩ := finishWait_spec hposted w
  refine ⟨(s.enterCmd h.core c).finishWait k w, h', ?_, hfound, hgoes, enterCmd_fifo s h.core c, rfl⟩
  show execMatrixFifoPostResume k s = _
  simp only [execMatrixFifoPostResume, hs, hw, if_pos hroom]
  rfl

theorem exec_matrixFifoPostResume_idle {k : Nat} {h : Sheaf} (hs : s.sheaf? k = some h)
    (hw : 64 ≤ (s.core h.core).fifo.length ∨ h.fifoWait = none) : exec (.matrixFifoPostResume k) s = .next s := by
  show execMatrixFifoPostResume k s = _
  unfold execMatrixFifoPostResume
  rw [hs]
  simp only
  split
  · rfl
  · next hsome =>
    rcases hw with hfull | hnone
    · rw [if_neg (Nat.not_lt.mpr hfull)]
    · rw [hnone] at hsome; cases hsome

/-- R147/06: the post that waited takes a place of its engine's queue. -/
theorem engineQueuePostResume_spec {k : Nat} {h : Sheaf} {w : Wait} {j : Job} (hs : s.sheaf? k = some h) (hw : h.queueWait = some (w, j))
    (hroom : s.queueRoom j.field j.engine j.ctx = true) : ∃ t h', exec (.engineQueuePostResume k) s = .next t ∧ t.sheaf? k = some h' ∧
      (h.tl = 0 → (∀ l, l < 64 → w.lanes.getLsbD l = true → (h.lane l).pc = w.pc) →
        Moved ⟨k, w.lanes, w.pc, h.core, 0, w.solo, none, false⟩ h h' ∧ h'.waits = h.waits.filter fun x => !(x == w)) ∧
      t.jobs = s.jobs ++ [{ j with id := s.nextId }] ∧ t.mem = s.mem := by
  have hposted : (s.enqueue j).sheaf? k = some h := hs
  obtain ⟨h', hfound, hgoes⟩ := finishWait_spec hposted w
  refine ⟨_, h', ?_, hfound, hgoes, rfl, rfl⟩
  show execEngineQueuePostResume k s = _
  simp only [execEngineQueuePostResume, hs, Option.bind_some, hw, hroom, if_true]

theorem exec_engineQueuePostResume_full {k : Nat} {h : Sheaf} {w : Wait} {j : Job} (hs : s.sheaf? k = some h)
    (hw : h.queueWait = some (w, j)) (hroom : s.queueRoom j.field j.engine j.ctx = false) :
    exec (.engineQueuePostResume k) s = .next s := by
  show execEngineQueuePostResume k s = _
  simp [execEngineQueuePostResume, hs, hw, hroom]

theorem exec_engineQueuePostResume_none {k : Nat} {h : Sheaf} (hs : s.sheaf? k = some h) (hw : h.queueWait = none) :
    exec (.engineQueuePostResume k) s = .next s := by
  show execEngineQueuePostResume k s = _
  simp [execEngineQueuePostResume, hs, hw]

/-- Settles O51, event by event. -/
theorem matrixEvents : Obligations.MatrixEvents := by
  unfold Obligations.MatrixEvents
  refine fun s core id => ⟨fun c hc => ?command, fun cl c rest r hp hm ho => rampGovernorStep_spec hp hm ho,
    fun cl x ho hx => exec_rampGovernorStep_between ho hx, fun q => fillerFinished_spec s core q, fun k h hs => ?post⟩
  case command =>
    exact ⟨exec_matrixCommandStart_none hc,
      fun r hm hg => ⟨_, exec_matrixCommandStart_starts hc hm hg, startCmd_spec hc r⟩,
      fun r hm hg ha hf => ⟨_, exec_matrixCommandStart_asks hc hm hg ha hf, modCmd_spec hc (fun c => { c with askedAt := some s.now }) fun _ => rfl⟩,
      fun r hm hg hf => exec_matrixCommandStart_dry hc hm hg hf,
      fun hf => ⟨_, exec_ringSlotWaitEnd_filled hc hf, modCmd_spec hc (fun c => { c with starved := false }) fun _ => rfl⟩,
      exec_ringSlotWaitEnd_dry hc, exec_matrixQuiescentStop_idle hc, matrixQuiescentStop_stops hc, matrixQuiescentStop_removes hc,
      fun r hst hsp hr hf => matrixCommandResume_spec hc hst hsp hr hf, exec_matrixCommandResume_idle hc,
      exec_matrixCommandCompletion_idle hc, matrixCommandCompletion_spec hc⟩
  case post =>
    exact ⟨fun w c hw hroom => matrixFifoPostResume_spec hs hw hroom, exec_matrixFifoPostResume_idle hs,
      fun w j hw hroom => engineQueuePostResume_spec hs hw hroom, fun w j hw hroom => exec_engineQueuePostResume_full hs hw hroom,
      exec_engineQueuePostResume_none hs⟩

end Sys2Proof.Machine
end

section
/-! SUPPORT. The planes of a context, its accumulators, weights and side pairs, and the scratch of a team: reads after writes, and what a write
of one leaves (R127/05, R344, R350 to R352, R356/17). -/

namespace Sys2Proof.Machine

variable {s t u : State} {core : Nat} {c : MatCmd}

/-! ### Folds -/

/-- A fold whose steps each write one key, by a rule on what was there, read at any key. `Inv` is what the rule of a step rests on. -/
theorem foldl_writes {σ κ V : Type} [DecidableEq κ] {step : σ → κ → σ} {get : σ → κ → V} {new : κ → V → V} (Inv : σ → Prop)
    {keys : List κ} (hnodup : keys.Nodup) (hinv : ∀ a, Inv a → ∀ k ∈ keys, Inv (step a k)) {j : κ}
    (hget : ∀ a, Inv a → ∀ k ∈ keys, get (step a k) j = if j = k then new j (get a j) else get a j) {a : σ} (ha : Inv a) :
    get (keys.foldl step a) j = if j ∈ keys then new j (get a j) else get a j := by
  induction keys generalizing a with
  | nil => simp
  | cons k ks ih =>
    obtain ⟨hk, hks⟩ := List.nodup_cons.mp hnodup
    rw [List.foldl_cons, ih hks (fun a ha k hk => hinv a ha k (List.mem_cons_of_mem _ hk))
      (fun a ha k hk => hget a ha k (List.mem_cons_of_mem _ hk)) (hinv a ha k List.mem_cons_self), hget a ha k List.mem_cons_self]
    by_cases hj : j = k
    · subst hj
      simp [hk]
    · simp [hj]

/-- What every step of a fold keeps. -/
theorem foldl_inv {σ κ : Type} {step : σ → κ → σ} (Inv : σ → Prop) {keys : List κ} (hinv : ∀ a, Inv a → ∀ k ∈ keys, Inv (step a k)) {a : σ}
    (ha : Inv a) : Inv (keys.foldl step a) := by
  induction keys generalizing a with
  | nil => exact ha
  | cons k ks ih => exact ih (fun a ha k hk => hinv a ha k (List.mem_cons_of_mem _ hk)) (hinv a ha k List.mem_cons_self)

/-- What one step of a fold establishes and every step keeps holds at its end. -/
theorem foldl_establishes {σ κ : Type} {step : σ → κ → σ} (P : σ → Prop) (hkeep : ∀ a, P a → ∀ k, P (step a k)) {keys : List κ} {j : κ}
    (hset : ∀ a, P (step a j)) (hj : j ∈ keys) (a : σ) : P (keys.foldl step a) := by
  induction keys generalizing a with
  | nil => cases hj
  | cons k ks ih =>
    rcases List.mem_cons.mp hj with e | hjs
    · subst e
      rw [List.foldl_cons]
      exact foldl_inv P (fun a ha k _ => hkeep a ha k) (hset a)
    · exact ih hjs (step a k)

theorem mem_tileCells (rows cols m n : Nat) : (m, n) ∈ tileCells rows cols ↔ m < rows ∧ n < cols := by
  simp [tileCells]

theorem nodup_tileCells (rows cols : Nat) : (tileCells rows cols).Nodup := List.nodup_range.product List.nodup_range

/-! ### Planes (R127/05, R352/17) -/

theorem saved_any_eq_false_of_find? {l : List (Nat × Nat × Quad)} {x y : Nat} (h : (l.find? fun z => z.1 == x && z.2.1 == y) = none) :
    (l.any fun z => z.1 == x && z.2.1 == y) = false :=
  List.any_eq_false.mpr (List.find?_eq_none.mp h)

theorem saved_find?_eq_none_of_any {l : List (Nat × Nat × Quad)} {x y : Nat} (h : (l.any fun z => z.1 == x && z.2.1 == y) = false) :
    (l.find? fun z => z.1 == x && z.2.1 == y) = none :=
  List.find?_eq_none.mpr (List.any_eq_false.mp h)

/-- The planes of one context for one quadrant change, and no others. -/
theorem planes_modPlanes (k : Core) (ctx q : Nat) {f : Quad → Quad} (hf : ∀ p, (f p).owner = p.owner) (x y : Nat) :
    (k.modPlanes ctx q f).planes x y = if x = ctx ∧ y = q then f (k.planes ctx q) else k.planes x y := by
  unfold Core.modPlanes
  split
  · next hsaved =>
    have hfound : (k.saved.map fun z => if z.1 = ctx ∧ z.2.1 = q then (z.1, z.2.1, f z.2.2) else z).find? (fun z => z.1 == x && z.2.1 == y) =
        (k.saved.find? fun z => z.1 == x && z.2.1 == y).map fun z => if z.1 = ctx ∧ z.2.1 = q then (z.1, z.2.1, f z.2.2) else z :=
      find?_map_keep _ _ (fun z => by split <;> rfl) k.saved
    unfold Core.planes
    simp only [hfound]
    cases hz : k.saved.find? fun z => z.1 == x && z.2.1 == y with
    | none =>
      have hkey : ¬ (x = ctx ∧ y = q) := by
        rintro ⟨hx, hy⟩
        rw [hx, hy] at hz
        exact Bool.false_ne_true ((saved_any_eq_false_of_find? hz).symm.trans hsaved)
      rw [if_neg hkey]
      rfl
    | some z =>
      have hzkey : z.1 = x ∧ z.2.1 = y := by simpa using List.find?_some hz
      rw [Option.map_some]
      by_cases hkey : x = ctx ∧ y = q
      · have hzf : z.1 = ctx ∧ z.2.1 = q := ⟨hzkey.1.trans hkey.1, hzkey.2.trans hkey.2⟩
        rw [hkey.1, hkey.2] at hz
        simp only [if_pos hkey, if_pos hzf, hz]
      · have hzf : ¬ (z.1 = ctx ∧ z.2.1 = q) := by rwa [hzkey.1, hzkey.2]
        simp only [if_neg hkey, if_neg hzf]
  · next hsaved =>
    have hnone : k.saved.find? (fun z => z.1 == ctx && z.2.1 == q) = none :=
      saved_find?_eq_none_of_any (Bool.not_eq_true _ ▸ hsaved)
    split
    · next howner =>
      have hlt : q < k.quads.length := by
        by_contra hge
        rw [List.getD_eq_default _ _ (Nat.not_lt.mp hge)] at howner
        cases howner
      unfold Core.planes
      simp only [getD_modAt f k.quads q y {} hlt, hnone, howner, if_true]
      by_cases hy : y = q
      · subst hy
        by_cases hx : x = ctx
        · subst hx
          simp only [hnone, if_true, hf, howner, and_self]
        · have hother : ¬ some ctx = some x := fun h => hx (Option.some.inj h).symm
          simp only [if_true, hf, howner, hother, if_false, hx, false_and]
      · simp only [hy, if_false, and_false]
    · next howner =>
      unfold Core.planes
      simp only [List.find?_append, hnone, howner, if_false, List.find?_cons, List.find?_nil]
      by_cases hkey : x = ctx ∧ y = q
      · obtain ⟨rfl, rfl⟩ := hkey
        simp [hnone]
      · rw [if_neg hkey]
        have hmiss : (ctx == x && q == y) = false := by
          rw [Bool.and_eq_false_iff, beq_eq_false_iff_ne, beq_eq_false_iff_ne]
          by_contra h
          push Not at h
          exact hkey ⟨h.1.symm, h.2.symm⟩
        simp only [hmiss, Option.or_none]

/-- A change of planes changes nothing of the core but its quadrants and the planes that are saved. -/
theorem modPlanes_frame (k : Core) (ctx q : Nat) (f : Quad → Quad) (Q : List Quad) (S : List (Nat × Nat × Quad)) :
    ({ k.modPlanes ctx q f with quads := Q, saved := S } : Core) = { k with quads := Q, saved := S } := by
  unfold Core.modPlanes
  split
  · rfl
  · split <;> rfl

theorem foldl_modPlanes_frame (k : Core) (ctx : Nat) (f : Quad → Quad) (qs : List Nat) (Q : List Quad) (S : List (Nat × Nat × Quad)) :
    ({ qs.foldl (fun k q => k.modPlanes ctx q f) k with quads := Q, saved := S } : Core) = { k with quads := Q, saved := S } :=
  foldl_keep (fun k q => k.modPlanes ctx q f) (fun k : Core => ({ k with quads := Q, saved := S } : Core))
    (fun k q => modPlanes_frame k ctx q f Q S) qs k

/-- The planes of one context change for some quadrants. -/
theorem planes_foldl_modPlanes (k : Core) (ctx : Nat) {f : Quad → Quad} (hf : ∀ p, (f p).owner = p.owner) {qs : List Nat} (hqs : qs.Nodup)
    (x y : Nat) : (qs.foldl (fun k q => k.modPlanes ctx q f) k).planes x y =
      if x = ctx ∧ y ∈ qs then f (k.planes ctx y) else k.planes x y := by
  by_cases hx : x = ctx
  · subst hx
    simp only [true_and]
    refine foldl_writes (get := fun (k : Core) y => k.planes x y) (new := fun _ p => f p) (fun _ => True) hqs (fun _ _ _ _ => trivial)
      (fun k _ q _ => ?_) trivial
    rw [planes_modPlanes k x q hf]
    by_cases hy : y = q
    · simp [hy]
    · simp [hy]
  · simp only [hx, false_and, if_false]
    refine foldl_keep (fun (k : Core) q => k.modPlanes ctx q f) (fun k => k.planes x y) (fun k q => ?_) qs k
    rw [planes_modPlanes k ctx q hf, if_neg fun h => hx h.1]

theorem nodup_setQuads (set : Nat) : (setQuads set).Nodup := List.nodup_range.filter _

/-! ### What the work of a command leaves (R349/17) -/

/-- What the work of a quantum leaves: everything but the cores and the teams, the other cores, the core but for its rings and planes, and the
planes of other contexts. -/
def State.besideWork (s : State) (core ctx : Nat) : State × (Nat → Core) × Core × (Nat → Nat → Quad) :=
  ({ s with cores := [], teams := [] }, fun x => if x = core then {} else s.core x,
    { s.core core with rings := [], quads := [], saved := [] }, fun x q => if x = ctx then {} else (s.core core).planes x q)

/-- What work on planes leaves besides: the teams and the rings. -/
def State.teamsAndRings (s : State) (core : Nat) : List Team × List Ring := (s.teams, (s.core core).rings)

theorem besideWork_modCore {ctx : Nat} {f : Core → Core}
    (hf : ({ f (s.core core) with rings := [], quads := [], saved := [] } : Core) = { s.core core with rings := [], quads := [], saved := [] })
    (hp : ∀ x q, x ≠ ctx → (f (s.core core)).planes x q = (s.core core).planes x q) :
    (s.modCore core f).besideWork core ctx = s.besideWork core ctx := by
  have hcore : (s.modCore core f).core core = f (s.core core) := by rw [core_modCore, if_pos rfl]
  have hothers : (fun x => if x = core then ({} : Core) else (s.modCore core f).core x) = fun x => if x = core then {} else s.core x := by
    funext x
    by_cases hx : x = core
    · simp [hx]
    · simp [hx, core_modCore]
  have hplanes : (fun x q => if x = ctx then ({} : Quad) else (f (s.core core)).planes x q) =
      fun x q => if x = ctx then {} else (s.core core).planes x q := by
    funext x q
    by_cases hx : x = ctx
    · simp [hx]
    · simp [hx, hp x q hx]
  unfold State.besideWork
  rw [hothers, hcore, hf, hplanes]
  rfl

/-- A change of planes of the context. -/
theorem besideWork_modPlanes (s : State) (core ctx q : Nat) {f : Quad → Quad} (hf : ∀ p, (f p).owner = p.owner) :
    (s.modCore core fun z => z.modPlanes ctx q f).besideWork core ctx = s.besideWork core ctx :=
  besideWork_modCore
    (congrArg (fun k : Core => ({ k with rings := [] } : Core)) (modPlanes_frame (s.core core) ctx q f [] []))
    fun x y hx => by rw [planes_modPlanes _ ctx q hf, if_neg fun h => hx h.1]

theorem teamsAndRings_modCore {f : Core → Core} (hf : (f (s.core core)).rings = (s.core core).rings) :
    (s.modCore core f).teamsAndRings core = s.teamsAndRings core := by
  unfold State.teamsAndRings
  rw [core_modCore, if_pos rfl, hf]
  rfl

theorem modPlanes_rings (k : Core) (ctx q : Nat) (f : Quad → Quad) : (k.modPlanes ctx q f).rings = k.rings :=
  (congrArg Core.rings (modPlanes_frame k ctx q f k.quads k.saved) :)

theorem teamsAndRings_modPlanes (s : State) (core ctx q : Nat) (f : Quad → Quad) :
    (s.modCore core fun z => z.modPlanes ctx q f).teamsAndRings core = s.teamsAndRings core :=
  teamsAndRings_modCore (modPlanes_rings (s.core core) ctx q f)

/-- The planes of the context for a quadrant once those of one quadrant have changed. -/
theorem planes_modCore_modPlanes (s : State) (core ctx q : Nat) {f : Quad → Quad} (hf : ∀ p, (f p).owner = p.owner) (y : Nat) :
    ((s.modCore core fun z => z.modPlanes ctx q f).core core).planes ctx y =
      if y = q then f ((s.core core).planes ctx q) else (s.core core).planes ctx y := by
  rw [core_modCore, if_pos rfl, planes_modPlanes _ ctx q hf]
  simp only [true_and]

/-! ### Where elements lie in the quadrants of a set (R344/17) -/

theorem setKf_bounds (set : Nat) : setKf set = 1 ∨ setKf set = 2 := by
  unfold setKf
  split <;> simp

/-- The quadrants of a legal set differ by column half and by row half, and belong to the set. -/
theorem legalSets_quadrants : ∀ set ∈ legalSets, ∀ i < setNf set, ∀ a < setKf set,
    (setAcc set).getD i 0 + 2 * a ∈ setQuads set ∧
    ∀ j < setNf set, ∀ b < setKf set, (setAcc set).getD i 0 + 2 * a = (setAcc set).getD j 0 + 2 * b → i = j ∧ a = b := by decide

theorem setAcc_inj {set i j : Nat} (hset : set ∈ legalSets) (hi : i < setNf set) (hj : j < setNf set)
    (h : (setAcc set).getD i 0 = (setAcc set).getD j 0) : i = j := by
  have hkf : 0 < setKf set := by rcases setKf_bounds set with e | e <;> omega
  exact ((legalSets_quadrants set hset i hi 0 hkf).2 j hj 0 hkf (by rw [h])).1

/-- Accumulator elements of a legal set lie apart. -/
theorem accAt_inj {set : Nat} (hset : set ∈ legalSets) {p q m m' n n' : Nat} (hm : m < 32) (hm' : m' < 32) (hn : n < 32 * setNf set)
    (hn' : n' < 32 * setNf set) : accAt set q m' n' = accAt set p m n ↔ q = p ∧ (m', n') = (m, n) := by
  refine ⟨fun h => ?_, fun ⟨hq, hmn⟩ => by rw [hq, (Prod.mk.inj hmn).1, (Prod.mk.inj hmn).2]⟩
  obtain ⟨hquad, hkey⟩ := Prod.mk.inj h
  have hcol := setAcc_inj hset (Nat.div_lt_of_lt_mul hn') (Nat.div_lt_of_lt_mul hn) hquad
  obtain ⟨hq, hrow, hc⟩ : q = p ∧ m' = m ∧ n' = n := by omega
  exact ⟨hq, by rw [hrow, hc]⟩

/-- The quadrant of a weight, by its column half and its row half. -/
theorem weightAt_quadrant (set k n : Nat) :
    (weightAt set k n).1 = (setAcc set).getD (n / 32) 0 + 2 * (k % (32 * setKf set) / 32) := by
  have hhalf : (if k % (32 * setKf set) < 32 then 0 else 2) = 2 * (k % (32 * setKf set) / 32) := by
    rcases setKf_bounds set with e | e
    · rw [e]
      split <;> omega
    · rw [e]
      split <;> omega
  exact congrArg ((setAcc set).getD (n / 32) 0 + ·) hhalf

theorem weightHalf_lt (set k : Nat) : k % (32 * setKf set) / 32 < setKf set := by
  rcases setKf_bounds set with e | e <;> rw [e] <;> omega

theorem weightAt_mem_setQuads {set k n : Nat} (hset : set ∈ legalSets) (hn : n < 32 * setNf set) : (weightAt set k n).1 ∈ setQuads set := by
  rw [weightAt_quadrant]
  exact (legalSets_quadrants set hset _ (Nat.div_lt_of_lt_mul hn) _ (weightHalf_lt set k)).1

/-- Weights of a legal set lie apart. -/
theorem weightAt_inj {set : Nat} (hset : set ∈ legalSets) {k k' n n' : Nat} (hk : k < 128 * setKf set) (hk' : k' < 128 * setKf set)
    (hn : n < 32 * setNf set) (hn' : n' < 32 * setNf set) : weightAt set k' n' = weightAt set k n ↔ k' = k ∧ n' = n := by
  refine ⟨fun h => ?_, fun ⟨hk, hn⟩ => by rw [hk, hn]⟩
  have hquad := congrArg Prod.fst h
  rw [weightAt_quadrant, weightAt_quadrant] at hquad
  obtain ⟨hcol, hhalf⟩ := (legalSets_quadrants set hset _ (Nat.div_lt_of_lt_mul hn') _ (weightHalf_lt set k')).2 _ (Nat.div_lt_of_lt_mul hn) _
    (weightHalf_lt set k) hquad
  have hkey : (k' % (32 * setKf set) % 32 * 32 + n' % 32) * 4 + k' / (32 * setKf set) =
      (k % (32 * setKf set) % 32 * 32 + n % 32) * 4 + k / (32 * setKf set) := congrArg Prod.snd h
  have hslot : k / (32 * setKf set) < 4 := Nat.div_lt_of_lt_mul (by omega)
  have hslot' : k' / (32 * setKf set) < 4 := Nat.div_lt_of_lt_mul (by omega)
  have hwhole := Nat.div_add_mod k (32 * setKf set)
  have hwhole' := Nat.div_add_mod k' (32 * setKf set)
  generalize k / (32 * setKf set) = d at hslot hwhole hkey
  generalize k' / (32 * setKf set) = d' at hslot' hwhole' hkey
  generalize k % (32 * setKf set) = r at hwhole hkey hhalf
  generalize k' % (32 * setKf set) = r' at hwhole' hkey hhalf
  obtain ⟨hd, hr, hcols⟩ : d' = d ∧ r' % 32 = r % 32 ∧ n' % 32 = n % 32 := by omega
  have hrow : r' = r := by omega
  exact ⟨by rw [← hwhole, ← hwhole', hd, hrow], by omega⟩

/-! ### Accumulators (R126/05, R356/17) -/

theorem accPut_planes (s : State) (core : Nat) (c : MatCmd) (p m n : Nat) (x : Word) (y : Nat) :
    ((s.accPut core c p m n x).core core).planes c.ctx y = if y = (accAt c.set p m n).1 then
      { (s.core core).planes c.ctx (accAt c.set p m n).1 with
        acc := cset 0 ((s.core core).planes c.ctx (accAt c.set p m n).1).acc (accAt c.set p m n).2 x }
      else (s.core core).planes c.ctx y :=
  planes_modCore_modPlanes s core c.ctx (accAt c.set p m n).1 (f := fun q => { q with acc := cset 0 q.acc (accAt c.set p m n).2 x })
    (fun _ => rfl) y

theorem accPut_besideWork (s : State) (core : Nat) (c : MatCmd) (p m n : Nat) (x : Word) :
    (s.accPut core c p m n x).besideWork core c.ctx = s.besideWork core c.ctx :=
  besideWork_modPlanes s core c.ctx _ fun _ => rfl

theorem accPut_teamsAndRings (s : State) (core : Nat) (c : MatCmd) (p m n : Nat) (x : Word) :
    (s.accPut core c p m n x).teamsAndRings core = s.teamsAndRings core := teamsAndRings_modPlanes s core c.ctx _ _

/-- An accumulator read after a write, by where the two lie. -/
theorem accGet_accPut (s : State) (core : Nat) (c : MatCmd) (p m n : Nat) (x : Word) (q m' n' : Nat) :
    (s.accPut core c p m n x).accGet core c q m' n' =
      if accAt c.set q m' n' = accAt c.set p m n then x else s.accGet core c q m' n' := by
  unfold State.accGet
  simp only [accPut_planes]
  by_cases hquad : (accAt c.set q m' n').1 = (accAt c.set p m n).1
  · rw [if_pos hquad]
    simp only [cget_cset, hquad]
    by_cases hkey : (accAt c.set q m' n').2 = (accAt c.set p m n).2
    · rw [if_pos hkey, if_pos (Prod.ext hquad hkey)]
    · rw [if_neg hkey, if_neg fun h => hkey (congrArg Prod.snd h)]
  · rw [if_neg hquad, if_neg fun h => hquad (congrArg Prod.fst h)]

theorem accGet_congr (h : (t.core core).planes c.ctx = (s.core core).planes c.ctx) (p m n : Nat) :
    t.accGet core c p m n = s.accGet core c p m n := by
  unfold State.accGet
  rw [h]

/-! ### Weights and side pairs (R350 to R352/17) -/

/-- The weights of a context and their side pairs, by quadrant. -/
def State.weightPlanes (s : State) (core ctx q : Nat) : Cells (BitVec 16) × Cells (BitVec 16) × Cells (BitVec 16) × Cells (BitVec 16) :=
  (((s.core core).planes ctx q).active, ((s.core core).planes ctx q).shadow, ((s.core core).planes ctx q).sideA,
    ((s.core core).planes ctx q).sideS)

theorem accPut_weightPlanes (s : State) (core : Nat) (c : MatCmd) (p m n : Nat) (x : Word) :
    (s.accPut core c p m n x).weightPlanes core c.ctx = s.weightPlanes core c.ctx := by
  funext y
  unfold State.weightPlanes
  rw [accPut_planes]
  split
  · next e => rw [e]
  · rfl

theorem weightPlanes_congr {ctx : Nat} (h : (t.core core).planes ctx = (s.core core).planes ctx) :
    t.weightPlanes core ctx = s.weightPlanes core ctx := by
  unfold State.weightPlanes
  rw [h]

theorem weight_congr (h : t.weightPlanes core c.ctx = s.weightPlanes core c.ctx) (k n : Nat) : t.weight core c k n = s.weight core c k n :=
  congrArg (fun w => (cget 0 w (weightAt c.set k n).2).toNat) (congrArg Prod.fst (congrFun h (weightAt c.set k n).1))

/-- The four planes of weights as they were, quadrant by quadrant. -/
theorem weightPlanes_stay {ctx : Nat} (h : t.weightPlanes core ctx = s.weightPlanes core ctx) (q : Nat) :
    ((t.core core).planes ctx q).active = ((s.core core).planes ctx q).active ∧
    ((t.core core).planes ctx q).shadow = ((s.core core).planes ctx q).shadow ∧
    ((t.core core).planes ctx q).sideA = ((s.core core).planes ctx q).sideA ∧
    ((t.core core).planes ctx q).sideS = ((s.core core).planes ctx q).sideS := by
  obtain ⟨ha, hs, hA, hS⟩ := by simpa only [State.weightPlanes, Prod.mk.injEq] using congrFun h q
  exact ⟨ha, hs, hA, hS⟩

theorem sidePair_congr (h : t.weightPlanes core c.ctx = s.weightPlanes core c.ctx) (n b : Nat) :
    t.sidePair core c n b = s.sidePair core c n b := by
  obtain ⟨-, -, hsides, -⟩ := weightPlanes_stay h ((setAcc c.set).getD (n / 32) 0)
  unfold State.sidePair
  rw [hsides]

/-! ### Scratch (R346/17) -/

theorem memory_read_congr {m m' : Memory} {a n : Nat} (h : ∀ k, a ≤ k → k < a + n → m.get k = m'.get k) : m.read a n = m'.read a n := by
  induction n generalizing a with
  | zero => rfl
  | succ n ih =>
    rw [Memory.read, Memory.read, h a (Nat.le_refl a) (by omega), ih fun k hk hkn => h k (by omega) (by omega)]

theorem scratchRead_congr (h : t.teams = s.teams) (r : ScratchRef) (off n : Nat) : t.scratchRead r off n = s.scratchRead r off n := by
  unfold State.scratchRead State.team?
  rw [h]

theorem team?_scratchWrite (s : State) (r : ScratchRef) (off : Nat) (bs : List Byte) :
    (s.scratchWrite r off bs).team? r.team = (s.team? r.team).map fun t => t.putScratch (r.off + off) bs :=
  team?_modTeam s r.team (fun t => t.putScratch (r.off + off) bs) fun _ e => e

/-- Bytes written to the scratch of a team that there is read back. -/
theorem scratchRead_scratchWrite_same {r : ScratchRef} (hr : (s.team? r.team).isSome = true) (off : Nat) (bs : List Byte) :
    (s.scratchWrite r off bs).scratchRead r off bs.length = bs := by
  obtain ⟨tm, htm⟩ := Option.isSome_iff_exists.mp hr
  unfold State.scratchRead
  rw [team?_scratchWrite, htm]
  exact memory_read_write_same _ _ _

/-- Bytes written elsewhere in the team's scratch leave those read. -/
theorem scratchRead_scratchWrite_apart (s : State) (r : ScratchRef) {off off' n : Nat} {bs : List Byte}
    (h : off' + n ≤ off ∨ off + bs.length ≤ off') : (s.scratchWrite r off bs).scratchRead r off' n = s.scratchRead r off' n := by
  unfold State.scratchRead
  rw [team?_scratchWrite]
  cases s.team? r.team with
  | none => rfl
  | some tm => exact memory_read_congr fun k hk hkn => memory_get_write_outside _ _ _ _ (by omega)

theorem scratchRead_scratchWrite_otherTeam (s : State) {r r' : ScratchRef} (h : r'.team ≠ r.team) (off off' n : Nat) (bs : List Byte) :
    (s.scratchWrite r off bs).scratchRead r' off' n = s.scratchRead r' off' n := by
  unfold State.scratchRead
  rw [State.scratchWrite, team?_modTeam_other s (fun t => { t with mem := t.mem.write (r.off + off) bs }) (fun _ => rfl) h]

theorem scratchWrite_isSome (s : State) (r : ScratchRef) (off : Nat) (bs : List Byte) :
    ((s.scratchWrite r off bs).team? r.team).isSome = (s.team? r.team).isSome := by
  rw [team?_scratchWrite, Option.isSome_map]

/-- A team's scratch as it stands, if there is such a team. -/
def State.scratchOf (s : State) (k : Nat) : Option Memory := (s.team? k).map Team.mem

/-- Setting SAT changes no scratch. -/
theorem satCmd_scratchOf (s : State) (c : MatCmd) (sat : Bool) (k : Nat) : (s.satCmd c sat).scratchOf k = s.scratchOf k := by
  unfold State.satCmd
  split
  · refine foldl_keep (fun (s : State) x => s.modTeam x fun t => t.setSat s.now) (fun s => s.scratchOf k) (fun s x => ?_) c.satTeams s
    unfold State.scratchOf
    by_cases hk : k = x
    · subst hk
      rw [team?_modTeam s k (fun t => t.setSat s.now) fun _ e => e, Option.map_map]
      rfl
    · rw [team?_modTeam_other s (fun t => t.setSat s.now) (fun _ => rfl) hk]
  · rfl

theorem scratchRead_eq (s : State) (r : ScratchRef) (off n : Nat) :
    s.scratchRead r off n = ((s.scratchOf r.team).map fun m => m.read (r.off + off) n).getD [] := by
  rw [State.scratchRead, State.scratchOf, Option.map_map]
  rfl

theorem satCmd_scratchRead (s : State) (c : MatCmd) (sat : Bool) (r : ScratchRef) (off n : Nat) :
    (s.satCmd c sat).scratchRead r off n = s.scratchRead r off n := by
  rw [scratchRead_eq, scratchRead_eq, satCmd_scratchOf]

theorem satCmd_isSome (s : State) (c : MatCmd) (sat : Bool) (k : Nat) : ((s.satCmd c sat).team? k).isSome = (s.team? k).isSome := by
  have h := congrArg Option.isSome (satCmd_scratchOf s c sat k)
  simpa only [State.scratchOf, Option.isSome_map] using h

/-- What work on teams leaves: everything else. -/
theorem satCmd_butTeams (s : State) (c : MatCmd) (sat : Bool) : ({ s.satCmd c sat with teams := [] } : State) = { s with teams := [] } := by
  unfold State.satCmd
  split
  · exact foldl_keep (fun (s : State) x => s.modTeam x fun t => t.setSat s.now) (fun s : State => ({ s with teams := [] } : State))
      (fun _ _ => rfl) c.satTeams s
  · rfl

/-- One element drained into scratch, with the SAT that it sets (R195/09, R356/17). -/
def State.drainTo (s : State) (c : MatCmd) (r : ScratchRef) (off sz : Nat) (x : FRes) : State :=
  (s.scratchWrite r off (bytesOfNat sz x.bits)).satCmd c x.r.sat

theorem drainTo_butTeams (s : State) (c : MatCmd) (r : ScratchRef) (off sz : Nat) (x : FRes) :
    ({ s.drainTo c r off sz x with teams := [] } : State) = { s with teams := [] } := satCmd_butTeams _ _ _

theorem drainTo_cores (s : State) (c : MatCmd) (r : ScratchRef) (off sz : Nat) (x : FRes) : (s.drainTo c r off sz x).cores = s.cores :=
  (congrArg State.cores (drainTo_butTeams s c r off sz x) :)

/-- Elements drained to places that lie apart read back, each as the cores give it when the drain begins. -/
theorem scratchRead_foldl_drainTo {ι : Type} [DecidableEq ι] {keys : List ι} (hnodup : keys.Nodup) {c : MatCmd} {r : ScratchRef} {sz : Nat}
    {off : ι → Nat} {val : State → ι → FRes} (hval : ∀ a b : State, a.cores = b.cores → val a = val b)
    (hapart : ∀ i ∈ keys, ∀ j ∈ keys, i ≠ j → off i + sz ≤ off j ∨ off j + sz ≤ off i) (hr : (s.team? r.team).isSome = true) {j : ι}
    (hj : j ∈ keys) : (keys.foldl (fun s i => s.drainTo c r (off i) sz (val s i)) s).scratchRead r (off j) sz = bytesOfNat sz (val s j).bits := by
  have hread := foldl_writes (step := fun s i => s.drainTo c r (off i) sz (val s i)) (get := fun (a : State) i => a.scratchRead r (off i) sz)
    (new := fun i _ => bytesOfNat sz (val s i).bits) (fun a => a.cores = s.cores ∧ (a.team? r.team).isSome = true) hnodup
    (fun a ha i _ => ⟨(drainTo_cores a c r _ sz _).trans ha.1, by rw [State.drainTo, satCmd_isSome, scratchWrite_isSome]; exact ha.2⟩)
    (j := j) (fun a ha i hi => ?_) (a := s) ⟨rfl, hr⟩
  · rw [if_pos hj] at hread
    exact hread
  · rw [State.drainTo, satCmd_scratchRead, hval a s ha.1]
    by_cases hij : j = i
    · subst hij
      have hsame := scratchRead_scratchWrite_same ha.2 (off j) (bytesOfNat sz (val s j).bits)
      rw [length_bytesOfNat] at hsame
      rw [if_pos rfl, hsame]
    · rw [if_neg hij]
      exact scratchRead_scratchWrite_apart a r (by rw [length_bytesOfNat]; exact hapart j hj i hi hij)

theorem foldl_drainTo_butTeams {ι : Type} (keys : List ι) (c : MatCmd) (r : ScratchRef) (sz : Nat) (off : ι → Nat) (val : State → ι → FRes) :
    ({ keys.foldl (fun s i => s.drainTo c r (off i) sz (val s i)) s with teams := [] } : State) = { s with teams := [] } :=
  foldl_keep (fun s i => s.drainTo c r (off i) sz (val s i)) (fun s : State => ({ s with teams := [] } : State))
    (fun s i => drainTo_butTeams s c r (off i) sz (val s i)) keys s

/-- Equal steps of a size lie apart. -/
theorem mul_apart {i j : Nat} (sz : Nat) (h : i ≠ j) : i * sz + sz ≤ j * sz ∨ j * sz + sz ≤ i * sz := by
  rcases Nat.lt_or_gt_of_ne h with hlt | hlt
  · exact .inl (by rw [← Nat.succ_mul]; exact Nat.mul_le_mul_right sz hlt)
  · exact .inr (by rw [← Nat.succ_mul]; exact Nat.mul_le_mul_right sz hlt)

/-- A place in rows of a width. -/
theorem row_inj {w m n m' n' : Nat} (hn : n < w) (hn' : n' < w) (h : m * w + n = m' * w + n') : m = m' ∧ n = n' := by
  have hdiv := congrArg (· / w) h
  have hmod := congrArg (· % w) h
  have hw : 0 < w := Nat.lt_of_le_of_lt (Nat.zero_le n) hn
  simp only [Nat.mul_add_mod', Nat.mod_eq_of_lt hn, Nat.mod_eq_of_lt hn'] at hmod
  rw [← hmod] at h
  exact ⟨Nat.eq_of_mul_eq_mul_right hw (Nat.add_right_cancel h), hmod⟩

end Sys2Proof.Machine
end
section
/-! SUPPORT. What a quantum of a matrix command leaves, and the steps of `mmul` and `mmb`: tiles of accumulators, ring slots, drains
(R145/06, R349, R356, R357/17). -/

namespace Sys2Proof.Machine

variable {s t w : State} {core : Nat} {c : MatCmd}

/-! ### A quantum is work followed by a step of its command -/

/-- The machine, the other cores, the core but for its FIFO, rings and planes, the other commands and the other contexts' planes stay. -/
def State.quantumKeeps (s : State) (core id ctx : Nat) (t : State) : Prop :=
  ({ t with cores := s.cores, teams := s.teams } : State) = s ∧ (∀ x, x ≠ core → t.core x = s.core x) ∧
  ({ t.core core with fifo := (s.core core).fifo, rings := (s.core core).rings, quads := (s.core core).quads,
                      saved := (s.core core).saved } : Core) = s.core core ∧
  (∀ n, n ≠ id → t.cmd? core n = s.cmd? core n) ∧ ∀ x q, x ≠ ctx → (t.core core).planes x q = (s.core core).planes x q

theorem besideWork_outside {ctx : Nat} (h : w.besideWork core ctx = s.besideWork core ctx) :
    ({ w with cores := [], teams := [] } : State) = { s with cores := [], teams := [] } := congrArg Prod.fst h

theorem besideWork_cores {ctx : Nat} (h : w.besideWork core ctx = s.besideWork core ctx) {x : Nat} (hx : x ≠ core) : w.core x = s.core x := by
  have hall := congrFun (congrArg (fun z => z.2.1) h) x
  simpa only [State.besideWork, if_neg hx] using hall

theorem besideWork_core {ctx : Nat} (h : w.besideWork core ctx = s.besideWork core ctx) :
    ({ w.core core with rings := [], quads := [], saved := [] } : Core) = { s.core core with rings := [], quads := [], saved := [] } :=
  congrArg (fun z => z.2.2.1) h

theorem besideWork_planes {ctx : Nat} (h : w.besideWork core ctx = s.besideWork core ctx) {x : Nat} (hx : x ≠ ctx) (q : Nat) :
    (w.core core).planes x q = (s.core core).planes x q := by
  have hall := congrFun (congrFun (congrArg (fun z => z.2.2.2) h) x) q
  simpa only [State.besideWork, if_neg hx] using hall

theorem besideWork_cmd? {ctx : Nat} (h : w.besideWork core ctx = s.besideWork core ctx) (n : Nat) : w.cmd? core n = s.cmd? core n := by
  have hfifo : (w.core core).fifo = (s.core core).fifo := (congrArg Core.fifo (besideWork_core h) :)
  unfold State.cmd?
  rw [hfifo]

theorem core_modCmd (w : State) (core id : Nat) (g : MatCmd → MatCmd) :
    (w.modCmd core id g).core core = { w.core core with fifo := (w.core core).fifo.map fun c => if c.id = id then g c else c } :=
  (core_modCore w core core _).trans (if_pos rfl)

theorem modCmd_planes (w : State) (core id : Nat) (g : MatCmd → MatCmd) : ((w.modCmd core id g).core core).planes = (w.core core).planes := by
  rw [core_modCmd]
  rfl

theorem modCmd_teams (w : State) (core id : Nat) (g : MatCmd → MatCmd) : (w.modCmd core id g).teams = w.teams := rfl

theorem modCmd_rings (w : State) (core id : Nat) (g : MatCmd → MatCmd) : ((w.modCmd core id g).core core).rings = (w.core core).rings := by
  rw [core_modCmd]

theorem modCmd_accGet (w : State) (core id : Nat) (g : MatCmd → MatCmd) (c : MatCmd) (p m n : Nat) :
    (w.modCmd core id g).accGet core c p m n = w.accGet core c p m n := accGet_congr (by rw [modCmd_planes]) p m n

theorem modCmd_weightPlanes (w : State) (core id : Nat) (g : MatCmd → MatCmd) (ctx : Nat) :
    (w.modCmd core id g).weightPlanes core ctx = w.weightPlanes core ctx := weightPlanes_congr (by rw [modCmd_planes])

theorem quantumKeeps_modCmd {id ctx : Nat} {g : MatCmd → MatCmd} (hw : w.besideWork core ctx = s.besideWork core ctx)
    (hg : ∀ x, (g x).id = x.id) : s.quantumKeeps core id ctx (w.modCmd core id g) := by
  refine ⟨?_, fun x hx => ?_, ?_, fun n hn => ?_, fun x q hx => ?_⟩
  · exact (congrArg (fun z : State => ({ z with cores := s.cores, teams := s.teams } : State)) (besideWork_outside hw) :)
  · rw [← besideWork_cores hw hx]
    exact (core_modCore w core x _).trans (if_neg hx)
  · rw [core_modCmd]
    exact (congrArg (fun z : Core => ({ z with fifo := (s.core core).fifo, rings := (s.core core).rings, quads := (s.core core).quads,
                                                saved := (s.core core).saved } : Core)) (besideWork_core hw) :)
  · rw [cmd?_modCmd_other w core hn g fun x e => (hg x).trans e, besideWork_cmd? hw]
  · rw [modCmd_planes, besideWork_planes hw hx]

theorem cmd?_modCmd_of_besideWork (hc : s.cmd? core c.id = some c) {ctx : Nat} {g : MatCmd → MatCmd}
    (hw : w.besideWork core ctx = s.besideWork core ctx) (hg : ∀ x, (g x).id = x.id) :
    (w.modCmd core c.id g).cmd? core c.id = some (g c) := by
  rw [cmd?_modCmd w core c.id g fun x e => (hg x).trans e, besideWork_cmd? hw, hc]
  rfl

theorem besideWork_of_butTeams (h : ({ w with teams := [] } : State) = { s with teams := [] }) (core ctx : Nat) :
    w.besideWork core ctx = s.besideWork core ctx := (congrArg (fun z : State => z.besideWork core ctx) h :)

theorem cores_of_butTeams (h : ({ w with teams := [] } : State) = { s with teams := [] }) : w.cores = s.cores :=
  (congrArg State.cores h :)

theorem core_of_cores (h : w.cores = s.cores) (x : Nat) : w.core x = s.core x := by
  unfold State.core
  rw [h]

theorem accGet_of_cores (h : w.cores = s.cores) (p m n : Nat) : w.accGet core c p m n = s.accGet core c p m n :=
  accGet_congr (by rw [core_of_cores h]) p m n

/-! ### Tiles of accumulators -/

/-- Every element of a tile is computed from what it held. -/
def State.accTile (s : State) (core : Nat) (c : MatCmd) (p rows cols : Nat) (new : State → Nat × Nat → Word → Word) : State :=
  (tileCells rows cols).foldl (fun s mn => s.accPut core c p mn.1 mn.2 (new s mn (s.accGet core c p mn.1 mn.2))) s

variable {p rows cols : Nat} {new : State → Nat × Nat → Word → Word}

theorem accTile_besideWork (s : State) (core : Nat) (c : MatCmd) (p rows cols : Nat) (new : State → Nat × Nat → Word → Word) :
    (s.accTile core c p rows cols new).besideWork core c.ctx = s.besideWork core c.ctx :=
  foldl_keep (fun s mn => s.accPut core c p mn.1 mn.2 (new s mn (s.accGet core c p mn.1 mn.2))) (fun s => s.besideWork core c.ctx)
    (fun s mn => accPut_besideWork s core c p mn.1 mn.2 _) _ s

theorem accTile_teamsAndRings (s : State) (core : Nat) (c : MatCmd) (p rows cols : Nat) (new : State → Nat × Nat → Word → Word) :
    (s.accTile core c p rows cols new).teamsAndRings core = s.teamsAndRings core :=
  foldl_keep (fun s mn => s.accPut core c p mn.1 mn.2 (new s mn (s.accGet core c p mn.1 mn.2))) (fun s => s.teamsAndRings core)
    (fun s mn => accPut_teamsAndRings s core c p mn.1 mn.2 _) _ s

theorem accTile_weightPlanes (s : State) (core : Nat) (c : MatCmd) (p rows cols : Nat) (new : State → Nat × Nat → Word → Word) :
    (s.accTile core c p rows cols new).weightPlanes core c.ctx = s.weightPlanes core c.ctx :=
  foldl_keep (fun s mn => s.accPut core c p mn.1 mn.2 (new s mn (s.accGet core c p mn.1 mn.2))) (fun s => s.weightPlanes core c.ctx)
    (fun s mn => accPut_weightPlanes s core c p mn.1 mn.2 _) _ s

/-- R356/17: the elements of a tile are the new ones, all others as they were, where what is computed rests on the weights. -/
theorem accTile_accGet (hset : c.set ∈ legalSets) (hrows : rows ≤ 32) (hcols : cols ≤ 32 * setNf c.set)
    (hnew : ∀ a : State, a.weightPlanes core c.ctx = s.weightPlanes core c.ctx → new a = new s) {q m n : Nat} (hm : m < 32)
    (hn : n < 32 * setNf c.set) : (s.accTile core c p rows cols new).accGet core c q m n =
      if q = p ∧ m < rows ∧ n < cols then new s (m, n) (s.accGet core c p m n) else s.accGet core c q m n := by
  have hat : ∀ mn ∈ tileCells rows cols, accAt c.set q m n = accAt c.set p mn.1 mn.2 ↔ q = p ∧ (m, n) = mn := fun mn hmn => by
    obtain ⟨hr, hc⟩ := (mem_tileCells rows cols mn.1 mn.2).mp hmn
    exact accAt_inj hset (Nat.lt_of_lt_of_le hr hrows) hm (Nat.lt_of_lt_of_le hc hcols) hn
  by_cases hq : q = p
  · subst hq
    have hfold := foldl_writes (step := fun s mn => s.accPut core c q mn.1 mn.2 (new s mn (s.accGet core c q mn.1 mn.2)))
      (get := fun (a : State) mn => a.accGet core c q mn.1 mn.2) (new := new s)
      (fun a => a.weightPlanes core c.ctx = s.weightPlanes core c.ctx) (nodup_tileCells rows cols)
      (fun a ha mn _ => (accPut_weightPlanes a core c q mn.1 mn.2 _).trans ha) (j := (m, n)) (fun a ha mn hmn => ?_) (a := s) rfl
    · simpa only [mem_tileCells, true_and, State.accTile] using hfold
    · rw [accGet_accPut, hnew a ha]
      simp only [hat mn hmn, true_and]
      refine ite_congr rfl (fun e => ?_) fun _ => rfl
      subst e
      rfl
  · simp only [hq, false_and, if_false]
    refine foldl_inv (fun a : State => a.accGet core c q m n = s.accGet core c q m n) (fun a ha mn hmn => ?_) rfl
    rw [accGet_accPut, if_neg fun e => hq ((hat mn hmn).mp e).1, ha]

/-! ### Ring slots (R145/06) -/

theorem popSlot_besideWork (s : State) (core r ctx : Nat) : (s.popSlot core r).besideWork core ctx = s.besideWork core ctx :=
  besideWork_modCore rfl fun _ _ _ => rfl

theorem popSlot_core (s : State) (core r : Nat) : (s.popSlot core r).core core =
    { s.core core with rings := modAt (fun r : Ring => { r with tail := r.tail + 1 }) (s.core core).rings r } :=
  (core_modCore s core core _).trans (if_pos rfl)

theorem popSlot_planes (s : State) (core r : Nat) : ((s.popSlot core r).core core).planes = (s.core core).planes := by
  rw [popSlot_core]
  rfl

theorem popSlot_tail (s : State) (core : Nat) {r : Nat} (hr : r < (s.core core).rings.length) :
    (((s.popSlot core r).core core).rings.getD r {}).tail = ((s.core core).rings.getD r {}).tail + 1 := by
  rw [popSlot_core]
  simp only [getD_modAt _ _ r r {} hr, if_true]

/-! ### The drain of a row block (R356/17) -/

theorem drainBlock_butTeams (s : State) (core : Nat) (c : MatCmd) (p : Nat) :
    ({ s.drainBlock core c p with teams := [] } : State) = { s with teams := [] } := by
  unfold State.drainBlock
  split
  · rfl
  · next d _ =>
    exact foldl_drainTo_butTeams (tileCells c.blockRows c.ncols) c d (elemBytes c.drainElem)
      (fun mn => ((32 * c.block + mn.1) * c.ncols + mn.2) * elemBytes c.drainElem)
      (fun s mn => drainElemOf c.drainElem (s.accGet core c p mn.1 mn.2))

theorem drainBlock_cores (s : State) (core : Nat) (c : MatCmd) (p : Nat) : (s.drainBlock core c p).cores = s.cores :=
  cores_of_butTeams (drainBlock_butTeams s core c p)

/-- A drain writes the rounded elements, row after row. -/
theorem scratchRead_drainBlock {d : ScratchRef} (hd : c.dst = some d) (hteam : (s.team? d.team).isSome = true) (p : Nat) {m n : Nat}
    (hm : m < c.blockRows) (hn : n < c.ncols) :
    (s.drainBlock core c p).scratchRead d (((32 * c.block + m) * c.ncols + n) * elemBytes c.drainElem) (elemBytes c.drainElem) =
      bytesOfNat (elemBytes c.drainElem) (drainElemOf c.drainElem (s.accGet core c p m n)).bits := by
  have hdrain : s.drainBlock core c p = (tileCells c.blockRows c.ncols).foldl (fun s mn => s.drainTo c d
      (((32 * c.block + mn.1) * c.ncols + mn.2) * elemBytes c.drainElem) (elemBytes c.drainElem)
      (drainElemOf c.drainElem (s.accGet core c p mn.1 mn.2))) s := by
    unfold State.drainBlock
    rw [hd]
    rfl
  rw [hdrain]
  refine scratchRead_foldl_drainTo (off := fun mn : Nat × Nat => ((32 * c.block + mn.1) * c.ncols + mn.2) * elemBytes c.drainElem)
    (val := fun s mn => drainElemOf c.drainElem (s.accGet core c p mn.1 mn.2)) (j := (m, n)) (nodup_tileCells _ _)
    (fun a b hab => ?_) (fun i hi j hj hij => mul_apart _ fun e => hij ?_) hteam ((mem_tileCells _ _ m n).mpr ⟨hm, hn⟩)
  · funext mn
    rw [accGet_of_cores hab]
  · obtain ⟨hrow, hcol⟩ := row_inj ((mem_tileCells _ _ _ _).mp hi).2 ((mem_tileCells _ _ _ _).mp hj).2 e
    exact Prod.ext (Nat.add_left_cancel hrow) hcol

/-! ### A K-step of `mmul` (R356/17) -/

/-- The plane a row block accumulates in. -/
def MatCmd.mmulPlane (c : MatCmd) : Nat := c.p0 + c.block % c.np

/-- The rows of K of a K-step. -/
def MatCmd.mmulKs (c : MatCmd) : List Nat :=
  ((List.range (32 * setKf c.run)).map fun j => c.kpos + j).filter fun j => decide (j < c.kcols)

/-- Does a K-step begin with 0? -/
def MatCmd.mmulFresh (c : MatCmd) : Bool := c.kpos == 0 && (c.clears || !(c.drainSpace == 0))

theorem mmulFresh_iff (c : MatCmd) : c.mmulFresh = true ↔ c.kpos = 0 ∧ (c.clears = true ∨ c.drainSpace ≠ 0) := by
  simp [MatCmd.mmulFresh]

/-- What a K-step makes of an element, with the slot's bytes. -/
def State.mmulNew (core : Nat) (c : MatCmd) (f : ElemType) (data : List Byte) (s : State) (mn : Nat × Nat) (old : Word) : Word :=
  accAdd (if c.mmulFresh then 0 else old) (dotV (c.mmulKs.map fun j =>
    (decodeF (elemFmt f) (fieldOf data ((mn.1 * c.kcols + j) * elemBytes f) (elemBytes f)), decodeF (elemFmt f) (s.weight core c j mn.2))))

theorem mmulNew_congr {f : ElemType} {data : List Byte} (h : t.weightPlanes core c.ctx = s.weightPlanes core c.ctx) :
    State.mmulNew core c f data t = State.mmulNew core c f data s := by
  funext mn old
  unfold State.mmulNew
  simp only [weight_congr h]

/-- The tile of a K-step. -/
def State.mmulTile (s : State) (core : Nat) (c : MatCmd) (f : ElemType) : State :=
  s.accTile core c c.mmulPlane c.blockRows c.ncols (State.mmulNew core c f (s.slotData core c))

/-- What a K-step does but for its command. -/
def State.mmulWork (s : State) (core : Nat) (c : MatCmd) (f : ElemType) : State :=
  if c.kpos + 32 * setKf c.run < c.kcols then s.mmulTile core c f
  else ((s.mmulTile core c f).popSlot core c.ring).drainBlock core c c.mmulPlane

/-- The command after a step: it goes on by a number of columns, or to its next row block. -/
def MatCmd.afterStep (goesOn : Bool) (width : Nat) (c : MatCmd) : MatCmd :=
  if goesOn then { c with kpos := c.kpos + width, ksteps := c.ksteps + 1 }
  else { c with kpos := 0, ksteps := c.ksteps + 1, block := c.block + 1, done := decide (rowBlocks c.rows ≤ c.block + 1) }

theorem afterStep_id (goesOn : Bool) (width : Nat) (c : MatCmd) : (c.afterStep goesOn width).id = c.id := by
  unfold MatCmd.afterStep
  split <;> rfl

theorem mmulStep_eq (s : State) (core : Nat) (c : MatCmd) (f : ElemType) : s.mmulStep core c f =
    (s.mmulWork core c f).modCmd core c.id (MatCmd.afterStep (decide (c.kpos + 32 * setKf c.run < c.kcols)) (32 * setKf c.run)) := by
  unfold State.mmulStep State.mmulWork MatCmd.afterStep
  by_cases h : c.kpos + 32 * setKf c.run < c.kcols
  · simp only [h, decide_true]
    rfl
  · simp only [h, decide_false]
    rfl

theorem mmulWork_besideWork (s : State) (core : Nat) (c : MatCmd) (f : ElemType) :
    (s.mmulWork core c f).besideWork core c.ctx = s.besideWork core c.ctx := by
  unfold State.mmulWork
  split
  · exact accTile_besideWork s core c _ _ _ _
  · rw [besideWork_of_butTeams (drainBlock_butTeams _ core c _), popSlot_besideWork]
    exact accTile_besideWork s core c _ _ _ _

theorem mmulWork_planes (s : State) (core : Nat) (c : MatCmd) (f : ElemType) :
    ((s.mmulWork core c f).core core).planes = ((s.mmulTile core c f).core core).planes := by
  unfold State.mmulWork
  split
  · rfl
  · rw [core_of_cores (drainBlock_cores _ core c _), popSlot_planes]

theorem blockRows_le (c : MatCmd) : c.blockRows ≤ 32 := Nat.min_le_left _ _

theorem mmulTile_accGet (hset : c.set ∈ legalSets) (hcols : c.ncols ≤ 32 * setNf c.set) (f : ElemType) {q m n : Nat} (hm : m < 32)
    (hn : n < 32 * setNf c.set) : (s.mmulTile core c f).accGet core c q m n =
      if q = c.mmulPlane ∧ m < c.blockRows ∧ n < c.ncols then
        State.mmulNew core c f (s.slotData core c) s (m, n) (s.accGet core c c.mmulPlane m n)
      else s.accGet core c q m n :=
  accTile_accGet hset (blockRows_le c) hcols (fun _ ha => mmulNew_congr ha) hm hn

theorem mmulWork_weightPlanes (s : State) (core : Nat) (c : MatCmd) (f : ElemType) :
    (s.mmulWork core c f).weightPlanes core c.ctx = s.weightPlanes core c.ctx :=
  (weightPlanes_congr (congrFun (mmulWork_planes s core c f) c.ctx)).trans (accTile_weightPlanes s core c _ _ _ _)

theorem teams_of_teamsAndRings (h : w.teamsAndRings core = s.teamsAndRings core) : w.teams = s.teams := congrArg Prod.fst h

theorem rings_of_teamsAndRings (h : w.teamsAndRings core = s.teamsAndRings core) : (w.core core).rings = (s.core core).rings :=
  congrArg Prod.snd h

/-- The last K-step of a row block drains what its tile holds. -/
theorem mmulWork_drains {f : ElemType} {d : ScratchRef} {tm : Team} (hend : c.kcols ≤ c.kpos + 32 * setKf c.run) (hd : c.dst = some d)
    (htm : s.team? d.team = some tm) {m n : Nat} (hm : m < c.blockRows) (hn : n < c.ncols) :
    (s.mmulWork core c f).scratchRead d (((32 * c.block + m) * c.ncols + n) * elemBytes c.drainElem) (elemBytes c.drainElem) =
      bytesOfNat (elemBytes c.drainElem) (drainElemOf c.drainElem ((s.mmulTile core c f).accGet core c c.mmulPlane m n)).bits := by
  have hteams : (s.mmulTile core c f).teams = s.teams := teams_of_teamsAndRings (accTile_teamsAndRings s core c _ _ _ _)
  have hteam : (((s.mmulTile core c f).popSlot core c.ring).team? d.team).isSome = true := by
    have hsame : ((s.mmulTile core c f).popSlot core c.ring).team? d.team = s.team? d.team :=
      congrArg (List.find? fun x : Team => x.id == d.team) hteams
    rw [hsame, htm]
    rfl
  rw [State.mmulWork, if_neg (Nat.not_lt.mpr hend), scratchRead_drainBlock hd hteam _ hm hn,
    accGet_congr (congrFun (popSlot_planes (s.mmulTile core c f) core c.ring) c.ctx)]

theorem drained_tail {f : State → State} (hcores : ∀ a : State, (f a).cores = a.cores) (hw : w.teamsAndRings core = s.teamsAndRings core) {r : Nat}
    (hr : r < (s.core core).rings.length) :
    (((f (w.popSlot core r)).core core).rings.getD r {}).tail = ((s.core core).rings.getD r {}).tail + 1 := by
  have hrings := rings_of_teamsAndRings hw
  rw [core_of_cores (hcores _), popSlot_tail w core (by rw [hrings]; exact hr), hrings]

/-- R356/17: a K-step of `mmul`. -/
theorem mmulStep_spec (hc : s.cmd? core c.id = some c) (hset : c.set ∈ legalSets) (hcols : c.ncols ≤ 32 * setNf c.set) {f : ElemType}
    {value : Nat → Nat → Word}
    (hvalue : ∀ m n, value m n = State.mmulNew core c f (s.slotData core c) s (m, n) (s.accGet core c c.mmulPlane m n))
    (ht : t = s.mmulStep core c f) :
    (∀ m n, m < c.blockRows → n < c.ncols → t.accGet core c c.mmulPlane m n = value m n) ∧
    (∀ q m n, m < 32 → n < 32 * setNf c.set → q ≠ c.mmulPlane ∨ c.blockRows ≤ m ∨ c.ncols ≤ n → t.accGet core c q m n = s.accGet core c q m n) ∧
    t.weightPlanes core c.ctx = s.weightPlanes core c.ctx ∧
    (c.kpos + 32 * setKf c.run < c.kcols → t.teams = s.teams ∧ (t.core core).rings = (s.core core).rings ∧
      t.cmd? core c.id = some { c with kpos := c.kpos + 32 * setKf c.run, ksteps := c.ksteps + 1 }) ∧
    (c.kcols ≤ c.kpos + 32 * setKf c.run →
      (c.ring < (s.core core).rings.length →
        ((t.core core).rings.getD c.ring {}).tail = ((s.core core).rings.getD c.ring {}).tail + 1) ∧
      t.cmd? core c.id = some { c with kpos := 0, ksteps := c.ksteps + 1, block := c.block + 1, done := decide (rowBlocks c.rows ≤ c.block + 1) } ∧
      ∀ d tm, c.dst = some d → s.team? d.team = some tm → ∀ m n, m < c.blockRows → n < c.ncols →
        t.scratchRead d (((32 * c.block + m) * c.ncols + n) * elemBytes c.drainElem) (elemBytes c.drainElem) =
          bytesOfNat (elemBytes c.drainElem) (drainElemOf c.drainElem (value m n)).bits) := by
  rw [mmulStep_eq] at ht
  subst ht
  have hread : ∀ q m n, ((s.mmulWork core c f).modCmd core c.id (MatCmd.afterStep (decide (c.kpos + 32 * setKf c.run < c.kcols))
      (32 * setKf c.run))).accGet core c q m n = (s.mmulTile core c f).accGet core c q m n := fun q m n =>
    (modCmd_accGet _ _ _ _ _ _ _ _).trans (accGet_congr (congrFun (mmulWork_planes s core c f) c.ctx) q m n)
  have hnew : ∀ m n, m < c.blockRows → n < c.ncols → (s.mmulTile core c f).accGet core c c.mmulPlane m n = value m n := fun m n hm hn => by
    rw [mmulTile_accGet hset hcols f (Nat.lt_of_lt_of_le hm (blockRows_le c)) (Nat.lt_of_lt_of_le hn hcols), if_pos ⟨rfl, hm, hn⟩, hvalue]
  have hcmd := cmd?_modCmd_of_besideWork (g := MatCmd.afterStep (decide (c.kpos + 32 * setKf c.run < c.kcols)) (32 * setKf c.run)) hc
    (mmulWork_besideWork s core c f) (afterStep_id _ _)
  have htile := accTile_teamsAndRings s core c c.mmulPlane c.blockRows c.ncols (State.mmulNew core c f (s.slotData core c))
  refine ⟨fun m n hm hn => (hread _ m n).trans (hnew m n hm hn), fun q m n hm hn hout => ?_,
    (modCmd_weightPlanes _ _ _ _ _).trans (mmulWork_weightPlanes s core c f), fun hon => ?_, fun hend => ⟨fun hr => ?_, ?_, ?_⟩⟩
  · rw [hread, mmulTile_accGet hset hcols f hm hn, if_neg (by omega)]
  · have hwork : s.mmulWork core c f = s.mmulTile core c f := if_pos hon
    rw [decide_eq_true hon] at hcmd ⊢
    rw [modCmd_rings, hwork]
    rw [hwork] at hcmd
    have hteams : (s.mmulTile core c f).teams = s.teams := teams_of_teamsAndRings htile
    exact ⟨hteams, rings_of_teamsAndRings htile, hcmd⟩
  · rw [modCmd_rings, State.mmulWork, if_neg (Nat.not_lt.mpr hend)]
    exact drained_tail (f := fun a => a.drainBlock core c c.mmulPlane) (fun a => drainBlock_cores a core c _) htile hr
  · rw [decide_eq_false (Nat.not_lt.mpr hend)] at hcmd ⊢
    exact hcmd
  · intro d tm hd htm m n hm hn
    rw [← hnew m n hm hn]
    exact mmulWork_drains hend hd htm hm hn

/-! ### A block product of `mmb` (R357/17) -/

/-- The plane of a block product. -/
def MatCmd.mmbPlane (c : MatCmd) : Nat := c.p0 + c.block * (c.kcols / 32) + c.kpos / 32

/-- An element of a block with its side pair. -/
def mmbElem (pair code : Nat) : Val := if pair % 256 = 255 then .nan else e2m1Val (pair / 256) code

/-- A block product, with the slot's bytes. -/
def State.mmbNew (core : Nat) (c : MatCmd) (data : List Byte) (s : State) (mn : Nat × Nat) (_ : Word) : Word :=
  BitVec.ofNat 32 (roundF (dotV ((List.range 32).map fun i =>
    (mmbElem (fieldOf data (16 * c.kcols + 2 * (mn.1 * (c.kcols / 32) + c.kpos / 32)) 2)
      (fieldOf data (mn.1 * (c.kcols / 2) + (32 * (c.kpos / 32) + i) / 2) 1 / 16 ^ ((32 * (c.kpos / 32) + i) % 2) % 16),
      mmbElem (s.sidePair core c mn.2 (c.kpos / 32)) (s.weight core c (32 * (c.kpos / 32) + i) mn.2 % 16)))) .f32 .rne).bits

theorem mmbNew_congr {data : List Byte} (h : t.weightPlanes core c.ctx = s.weightPlanes core c.ctx) :
    State.mmbNew core c data t = State.mmbNew core c data s := by
  funext mn old
  unfold State.mmbNew
  simp only [weight_congr h, sidePair_congr h]

/-- The tile of a block product. -/
def State.mmbTile (s : State) (core : Nat) (c : MatCmd) : State :=
  s.accTile core c c.mmbPlane c.blockRows c.ncols (State.mmbNew core c (s.slotData core c))

/-- What a step of `mmb` does but for its command. -/
def State.mmbWork (s : State) (core : Nat) (c : MatCmd) : State :=
  if c.kpos / 32 + 1 < c.kcols / 32 then s.mmbTile core c else (s.mmbTile core c).popSlot core c.ring

theorem mmbStep_eq (s : State) (core : Nat) (c : MatCmd) : s.mmbStep core c =
    (s.mmbWork core c).modCmd core c.id (MatCmd.afterStep (decide (c.kpos / 32 + 1 < c.kcols / 32)) 32) := by
  unfold State.mmbStep State.mmbWork MatCmd.afterStep
  by_cases h : c.kpos / 32 + 1 < c.kcols / 32
  · simp only [h, decide_true]
    rfl
  · simp only [h, decide_false]
    rfl

theorem mmbWork_besideWork (s : State) (core : Nat) (c : MatCmd) : (s.mmbWork core c).besideWork core c.ctx = s.besideWork core c.ctx := by
  unfold State.mmbWork
  split
  · exact accTile_besideWork s core c _ _ _ _
  · rw [popSlot_besideWork]
    exact accTile_besideWork s core c _ _ _ _

theorem mmbWork_planes (s : State) (core : Nat) (c : MatCmd) :
    ((s.mmbWork core c).core core).planes = ((s.mmbTile core c).core core).planes := by
  unfold State.mmbWork
  split
  · rfl
  · rw [popSlot_planes]

theorem mmbTile_accGet (hset : c.set ∈ legalSets) (hcols : c.ncols ≤ 32 * setNf c.set) {q m n : Nat} (hm : m < 32)
    (hn : n < 32 * setNf c.set) : (s.mmbTile core c).accGet core c q m n =
      if q = c.mmbPlane ∧ m < c.blockRows ∧ n < c.ncols then
        State.mmbNew core c (s.slotData core c) s (m, n) (s.accGet core c c.mmbPlane m n)
      else s.accGet core c q m n :=
  accTile_accGet hset (blockRows_le c) hcols (fun _ ha => mmbNew_congr ha) hm hn

theorem mmbWork_weightPlanes (s : State) (core : Nat) (c : MatCmd) :
    (s.mmbWork core c).weightPlanes core c.ctx = s.weightPlanes core c.ctx :=
  (weightPlanes_congr (congrFun (mmbWork_planes s core c) c.ctx)).trans (accTile_weightPlanes s core c _ _ _ _)

theorem mmbWork_teams (s : State) (core : Nat) (c : MatCmd) : (s.mmbWork core c).teams = s.teams := by
  have htile : (s.mmbTile core c).teams = s.teams := teams_of_teamsAndRings (accTile_teamsAndRings s core c _ _ _ _)
  unfold State.mmbWork
  split
  · exact htile
  · exact htile

/-- R357/17: a step of `mmb`. -/
theorem mmbStep_spec (hc : s.cmd? core c.id = some c) (hset : c.set ∈ legalSets) (hcols : c.ncols ≤ 32 * setNf c.set)
    (ht : t = s.mmbStep core c) :
    (∀ m n, m < c.blockRows → n < c.ncols → t.accGet core c c.mmbPlane m n =
      State.mmbNew core c (s.slotData core c) s (m, n) (s.accGet core c c.mmbPlane m n)) ∧
    (∀ q m n, m < 32 → n < 32 * setNf c.set → q ≠ c.mmbPlane ∨ c.blockRows ≤ m ∨ c.ncols ≤ n → t.accGet core c q m n = s.accGet core c q m n) ∧
    t.weightPlanes core c.ctx = s.weightPlanes core c.ctx ∧ t.teams = s.teams ∧
    (c.kpos / 32 + 1 < c.kcols / 32 → t.cmd? core c.id = some { c with kpos := c.kpos + 32, ksteps := c.ksteps + 1 } ∧
      (t.core core).rings = (s.core core).rings) ∧
    (c.kcols / 32 ≤ c.kpos / 32 + 1 →
      (c.ring < (s.core core).rings.length →
        ((t.core core).rings.getD c.ring {}).tail = ((s.core core).rings.getD c.ring {}).tail + 1) ∧
      t.cmd? core c.id = some { c with kpos := 0, ksteps := c.ksteps + 1, block := c.block + 1, done := decide (rowBlocks c.rows ≤ c.block + 1) }) := by
  rw [mmbStep_eq] at ht
  subst ht
  have hread : ∀ q m n, ((s.mmbWork core c).modCmd core c.id (MatCmd.afterStep (decide (c.kpos / 32 + 1 < c.kcols / 32)) 32)).accGet core c q m n =
      (s.mmbTile core c).accGet core c q m n := fun q m n =>
    (modCmd_accGet _ _ _ _ _ _ _ _).trans (accGet_congr (congrFun (mmbWork_planes s core c) c.ctx) q m n)
  have hcmd := cmd?_modCmd_of_besideWork (g := MatCmd.afterStep (decide (c.kpos / 32 + 1 < c.kcols / 32)) 32) hc
    (mmbWork_besideWork s core c) (afterStep_id _ _)
  have htile := accTile_teamsAndRings s core c c.mmbPlane c.blockRows c.ncols (State.mmbNew core c (s.slotData core c))
  refine ⟨fun m n hm hn => ?_, fun q m n hm hn hout => ?_, (modCmd_weightPlanes _ _ _ _ _).trans (mmbWork_weightPlanes s core c),
    mmbWork_teams s core c, fun hon => ?_, fun hend => ⟨fun hr => ?_, ?_⟩⟩
  · rw [hread, mmbTile_accGet hset hcols (Nat.lt_of_lt_of_le hm (blockRows_le c)) (Nat.lt_of_lt_of_le hn hcols), if_pos ⟨rfl, hm, hn⟩]
  · rw [hread, mmbTile_accGet hset hcols hm hn, if_neg (by omega)]
  · rw [decide_eq_true hon] at hcmd ⊢
    refine ⟨hcmd, ?_⟩
    rw [modCmd_rings, State.mmbWork, if_pos hon]
    exact rings_of_teamsAndRings htile
  · rw [modCmd_rings, State.mmbWork, if_neg (Nat.not_lt.mpr hend)]
    exact drained_tail (f := id) (fun _ => rfl) htile hr
  · rw [decide_eq_false (Nat.not_lt.mpr hend)] at hcmd ⊢
    exact hcmd

end Sys2Proof.Machine
end
section
/-! SUPPORT. The steps of `msca`, `mldw`, `mswap`, `mdrain` and `mclr` (R350, R351, R358 to R360/17). -/

namespace Sys2Proof.Machine

variable {s t w : State} {core : Nat} {c : MatCmd}

/-! ### One row of `msca` (R358/17) -/

/-- The plane `msca` sums into. -/
def MatCmd.mscaPlane (c : MatCmd) : Nat := opField c.s2 4 4 + c.block

/-- The row scale code of a block. -/
def State.mscaCode (s : State) (c : MatCmd) (j : Nat) : Int :=
  match c.src with
  | some r => natOfBytes (s.scratchRead r ((32 * c.block + c.kpos) * opField c.s0 40 4 + j) 1)
  | none => 0

/-- The scaled sum of a column's partial planes; `column` reads the row, plane by plane. -/
def State.mscaSum (s : State) (core : Nat) (c : MatCmd) (n : Nat) (column : Nat → Word) : Word :=
  (List.range (opField c.s0 40 4)).foldl (fun acc j =>
    if s.mscaCode c j = 255 ∨ s.sidePair core c n j % 256 = 255 then BitVec.ofNat 32 Fmt.f32.canon
    else accAdd acc ((decodeF .f32 (column (opField c.s2 0 4 + c.block * opField c.s0 40 4 + j)).toNat).scale
      ((s.mscaCode c j - 127) + (((s.sidePair core c n j % 256 : Nat) : Int) - 127))))
    (if c.clears then 0 else column c.mscaPlane)

theorem mscaSum_congr (hweights : t.weightPlanes core c.ctx = s.weightPlanes core c.ctx) (hteams : t.teams = s.teams) :
    t.mscaSum core c = s.mscaSum core c := by
  funext n column
  unfold State.mscaSum State.mscaCode
  simp only [sidePair_congr hweights, scratchRead_congr hteams]

/-- What a step of `msca` does but for its command. -/
def State.mscaWork (s : State) (core : Nat) (c : MatCmd) : State :=
  (List.range c.ncols).foldl (fun s n => s.accPut core c c.mscaPlane c.kpos n (s.mscaSum core c n fun q => s.accGet core c q c.kpos n)) s

/-- The command after a row of `msca`. -/
def MatCmd.afterScaledRow (c : MatCmd) : MatCmd :=
  if c.kpos + 1 < c.blockRows then { c with kpos := c.kpos + 1 }
  else { c with kpos := 0, block := c.block + 1, done := decide (rowBlocks c.rows ≤ c.block + 1) }

theorem afterScaledRow_id (c : MatCmd) : c.afterScaledRow.id = c.id := by
  unfold MatCmd.afterScaledRow
  split <;> rfl

theorem mscaStep_eq (s : State) (core : Nat) (c : MatCmd) :
    s.mscaStep core c = (s.mscaWork core c).modCmd core c.id MatCmd.afterScaledRow := by
  unfold State.mscaStep State.mscaWork State.mscaSum State.mscaCode
  rfl

theorem mscaWork_besideWork (s : State) (core : Nat) (c : MatCmd) : (s.mscaWork core c).besideWork core c.ctx = s.besideWork core c.ctx :=
  foldl_keep (fun s n => s.accPut core c c.mscaPlane c.kpos n (s.mscaSum core c n fun q => s.accGet core c q c.kpos n))
    (fun s => s.besideWork core c.ctx) (fun s _ => accPut_besideWork s core c _ _ _ _) _ s

theorem mscaWork_teamsAndRings (s : State) (core : Nat) (c : MatCmd) : (s.mscaWork core c).teamsAndRings core = s.teamsAndRings core :=
  foldl_keep (fun s n => s.accPut core c c.mscaPlane c.kpos n (s.mscaSum core c n fun q => s.accGet core c q c.kpos n))
    (fun s => s.teamsAndRings core) (fun s _ => accPut_teamsAndRings s core c _ _ _ _) _ s

theorem mscaWork_weightPlanes (s : State) (core : Nat) (c : MatCmd) :
    (s.mscaWork core c).weightPlanes core c.ctx = s.weightPlanes core c.ctx :=
  foldl_keep (fun s n => s.accPut core c c.mscaPlane c.kpos n (s.mscaSum core c n fun q => s.accGet core c q c.kpos n))
    (fun s => s.weightPlanes core c.ctx) (fun s _ => accPut_weightPlanes s core c _ _ _ _) _ s

/-- R358/17: the columns of the row hold the scaled sums of what they held. -/
theorem mscaWork_accGet (hset : c.set ∈ legalSets) (hcols : c.ncols ≤ 32 * setNf c.set) (hrow : c.kpos < 32) {q m n : Nat} (hm : m < 32)
    (hn : n < 32 * setNf c.set) : (s.mscaWork core c).accGet core c q m n =
      if q = c.mscaPlane ∧ m = c.kpos ∧ n < c.ncols then s.mscaSum core c n fun q => s.accGet core c q c.kpos n
      else s.accGet core c q m n := by
  have hat : ∀ k ∈ List.range c.ncols, ∀ q m, m < 32 →
      (accAt c.set q m n = accAt c.set c.mscaPlane c.kpos k ↔ q = c.mscaPlane ∧ (m, n) = (c.kpos, k)) := fun k hk q m hm =>
    accAt_inj hset hrow hm (Nat.lt_of_lt_of_le (List.mem_range.mp hk) hcols) hn
  by_cases hmk : m = c.kpos
  · subst hmk
    have hfold := foldl_writes
      (step := fun s n => s.accPut core c c.mscaPlane c.kpos n (s.mscaSum core c n fun q => s.accGet core c q c.kpos n))
      (get := fun (a : State) n q => a.accGet core c q c.kpos n)
      (new := fun n column q => if q = c.mscaPlane then s.mscaSum core c n column else column q)
      (fun a => a.weightPlanes core c.ctx = s.weightPlanes core c.ctx ∧ a.teams = s.teams) (keys := List.range c.ncols) List.nodup_range
      (fun a ha k _ => ⟨(accPut_weightPlanes a core c _ _ _ _).trans ha.1,
        (teams_of_teamsAndRings (accPut_teamsAndRings a core c _ _ _ _)).trans ha.2⟩) (j := n) (fun a ha k hk => ?_) (a := s) ⟨rfl, rfl⟩
    · have hq := congrFun hfold q
      rw [State.mscaWork, hq]
      by_cases hin : n < c.ncols <;> simp [hin]
    · funext x
      rw [accGet_accPut, mscaSum_congr ha.1 ha.2]
      simp only [hat k hk x c.kpos hrow, Prod.mk.injEq, true_and]
      by_cases hx : x = c.mscaPlane
      · by_cases hnk : n = k
        · subst hnk
          simp [hx]
        · simp [hnk]
      · by_cases hnk : n = k <;> simp [hx, hnk]
  · rw [if_neg fun h => hmk h.2.1]
    refine foldl_inv (fun a : State => a.accGet core c q m n = s.accGet core c q m n) (fun a ha k hk => ?_) rfl
    rw [accGet_accPut, if_neg fun e => hmk (Prod.mk.inj ((hat k hk q m hm).mp e).2).1, ha]

/-- R358/17: one row of `msca`. -/
theorem mscaStep_spec (hc : s.cmd? core c.id = some c) (hset : c.set ∈ legalSets) (hcols : c.ncols ≤ 32 * setNf c.set) (hrow : c.kpos < 32)
    (ht : t = s.mscaStep core c) :
    (∀ n, n < c.ncols → t.accGet core c c.mscaPlane c.kpos n = s.mscaSum core c n fun q => s.accGet core c q c.kpos n) ∧
    (∀ q m n, m < 32 → n < 32 * setNf c.set → q ≠ c.mscaPlane ∨ m ≠ c.kpos ∨ c.ncols ≤ n → t.accGet core c q m n = s.accGet core c q m n) ∧
    t.weightPlanes core c.ctx = s.weightPlanes core c.ctx ∧ t.teams = s.teams ∧ (t.core core).rings = (s.core core).rings ∧
    t.cmd? core c.id = some c.afterScaledRow := by
  rw [mscaStep_eq] at ht
  subst ht
  refine ⟨fun n hn => ?_, fun q m n hm hn hout => ?_, (modCmd_weightPlanes _ _ _ _ _).trans (mscaWork_weightPlanes s core c),
    (modCmd_teams _ _ _ _).trans (teams_of_teamsAndRings (mscaWork_teamsAndRings s core c)),
    (modCmd_rings _ _ _ _).trans (rings_of_teamsAndRings (mscaWork_teamsAndRings s core c)),
    cmd?_modCmd_of_besideWork hc (mscaWork_besideWork s core c) afterScaledRow_id⟩
  · rw [modCmd_accGet, mscaWork_accGet hset hcols hrow hrow (Nat.lt_of_lt_of_le hn hcols), if_pos ⟨rfl, rfl, hn⟩]
  · rw [modCmd_accGet, mscaWork_accGet hset hcols hrow hm hn, if_neg (by omega)]

/-! ### Changes of the planes of a set -/

/-- A part of a context's planes that a change leaves. -/
theorem planes_keep {β : Type} (part : Quad → β) (s : State) (core ctx q : Nat) {f : Quad → Quad} (hf : ∀ p, (f p).owner = p.owner)
    (hpart : ∀ p, part (f p) = part p) (y : Nat) :
    part (((s.modCore core fun z => z.modPlanes ctx q f).core core).planes ctx y) = part ((s.core core).planes ctx y) := by
  rw [planes_modCore_modPlanes s core ctx q hf]
  split
  · next e => rw [hpart, e]
  · rfl

theorem modSet_core (s : State) (core : Nat) (c : MatCmd) (f : Quad → Quad) :
    (s.modSet core c f).core core = (setQuads c.set).foldl (fun k q => k.modPlanes c.ctx q f) (s.core core) :=
  (core_modCore s core core _).trans (if_pos rfl)

theorem planes_modSet (s : State) (core : Nat) (c : MatCmd) {f : Quad → Quad} (hf : ∀ p, (f p).owner = p.owner) (y : Nat) :
    ((s.modSet core c f).core core).planes c.ctx y =
      if y ∈ setQuads c.set then f ((s.core core).planes c.ctx y) else (s.core core).planes c.ctx y := by
  rw [modSet_core, planes_foldl_modPlanes _ c.ctx hf (nodup_setQuads c.set)]
  simp only [true_and]

/-- A part of a context's planes that a change of a set's quadrants leaves. -/
theorem planes_modSet_keep {β : Type} (part : Quad → β) (s : State) (core : Nat) (c : MatCmd) {f : Quad → Quad}
    (hf : ∀ p, (f p).owner = p.owner) (hpart : ∀ p, part (f p) = part p) (y : Nat) :
    part (((s.modSet core c f).core core).planes c.ctx y) = part ((s.core core).planes c.ctx y) := by
  rw [planes_modSet s core c hf]
  split
  · rw [hpart]
  · rfl

theorem modSet_besideWork (s : State) (core : Nat) (c : MatCmd) {f : Quad → Quad} (hf : ∀ p, (f p).owner = p.owner) :
    (s.modSet core c f).besideWork core c.ctx = s.besideWork core c.ctx :=
  besideWork_modCore (congrArg (fun k : Core => ({ k with rings := [] } : Core)) (foldl_modPlanes_frame (s.core core) c.ctx f _ [] []))
    fun x y hx => by rw [planes_foldl_modPlanes _ c.ctx hf (nodup_setQuads c.set), if_neg fun h => hx h.1]

theorem modSet_teamsAndRings (s : State) (core : Nat) (c : MatCmd) (f : Quad → Quad) :
    (s.modSet core c f).teamsAndRings core = s.teamsAndRings core :=
  teamsAndRings_modCore (foldl_keep (fun k q => k.modPlanes c.ctx q f) Core.rings (fun k q => modPlanes_rings k c.ctx q f) _ _)

/-! ### The exchange of `mswap` (R351/17) -/

/-- The active and the shadow plane of a quadrant change places. -/
def Quad.exchanged (q : Quad) : Quad := { q with active := q.shadow, shadow := q.active, sideA := q.sideS, sideS := q.sideA }

theorem mswapStep_eq (s : State) (core : Nat) (c : MatCmd) :
    s.mswapStep core c = (s.modSet core c Quad.exchanged).modCmd core c.id fun c => { c with done := true } := rfl

/-- R351/17: the exchange of `mswap`. -/
theorem mswapStep_spec (hc : s.cmd? core c.id = some c) (ht : t = s.mswapStep core c) :
    t.teams = s.teams ∧ (t.core core).rings = (s.core core).rings ∧ t.cmd? core c.id = some { c with done := true } ∧
    ∀ q, (t.core core).planes c.ctx q =
      if q ∈ setQuads c.set then ((s.core core).planes c.ctx q).exchanged else (s.core core).planes c.ctx q := by
  rw [mswapStep_eq] at ht
  subst ht
  have hkeep := modSet_teamsAndRings s core c Quad.exchanged
  refine ⟨(modCmd_teams _ _ _ _).trans (teams_of_teamsAndRings hkeep), (modCmd_rings _ _ _ _).trans (rings_of_teamsAndRings hkeep),
    cmd?_modCmd_of_besideWork hc (modSet_besideWork s core c fun _ => by rfl) fun _ => rfl, fun q => ?_⟩
  rw [modCmd_planes, planes_modSet s core c (f := Quad.exchanged) fun _ => rfl]

/-! ### One row of `mclr` (R360/17) -/

/-- Is an accumulator key one of the planes and the row that are cleared? -/
def MatCmd.clearsKey (c : MatCmd) (x : Nat) : Bool :=
  decide (opField c.s0 0 4 * 1024 ≤ x) && decide (x < (opField c.s0 0 4 + (opField c.s0 4 4 + 1)) * 1024) && x / 32 % 32 == c.kpos

/-- A quadrant without the accumulators that are cleared. -/
def MatCmd.clearRow (c : MatCmd) (q : Quad) : Quad := { q with acc := q.acc.filter fun x => !c.clearsKey x.1 }

theorem clearsKey_iff (c : MatCmd) {x m y : Nat} (hm : m < 32) (hy : y < 32) : c.clearsKey (x * 1024 + m * 32 + y) = true ↔
    opField c.s0 0 4 ≤ x ∧ x < opField c.s0 0 4 + (opField c.s0 4 4 + 1) ∧ m = c.kpos := by
  have hrow : (x * 1024 + m * 32 + y) / 32 % 32 = m := by omega
  simp only [MatCmd.clearsKey, Bool.and_eq_true, decide_eq_true_eq, beq_iff_eq, hrow]
  omega

theorem mclrStep_eq (s : State) (core : Nat) (c : MatCmd) : s.mclrStep core c =
    (s.modSet core c c.clearRow).modCmd core c.id fun c => { c with kpos := c.kpos + 1, done := decide (32 ≤ c.kpos + 1) } := rfl

/-- R360/17: one row of `mclr`. -/
theorem mclrStep_spec (hc : s.cmd? core c.id = some c) (ht : t = s.mclrStep core c) :
    (∀ q x m y, m < 32 → y < 32 → cget 0 ((t.core core).planes c.ctx q).acc (x * 1024 + m * 32 + y) =
      if q ∈ setQuads c.set ∧ opField c.s0 0 4 ≤ x ∧ x < opField c.s0 0 4 + (opField c.s0 4 4 + 1) ∧ m = c.kpos then 0
      else cget 0 ((s.core core).planes c.ctx q).acc (x * 1024 + m * 32 + y)) ∧
    t.weightPlanes core c.ctx = s.weightPlanes core c.ctx ∧ t.teams = s.teams ∧ (t.core core).rings = (s.core core).rings ∧
    t.cmd? core c.id = some { c with kpos := c.kpos + 1, done := decide (32 ≤ c.kpos + 1) } := by
  rw [mclrStep_eq] at ht
  subst ht
  have hkeep := modSet_teamsAndRings s core c c.clearRow
  have howner : ∀ p, (c.clearRow p).owner = p.owner := fun _ => rfl
  refine ⟨fun q x m y hm hy => ?_, (modCmd_weightPlanes _ _ _ _ _).trans (funext fun q => ?_),
    (modCmd_teams _ _ _ _).trans (teams_of_teamsAndRings hkeep), (modCmd_rings _ _ _ _).trans (rings_of_teamsAndRings hkeep),
    cmd?_modCmd_of_besideWork hc (modSet_besideWork s core c howner) fun _ => rfl⟩
  · rw [modCmd_planes, planes_modSet s core c howner]
    by_cases hq : q ∈ setQuads c.set
    · rw [if_pos hq, MatCmd.clearRow, cget_filter_key fun x => !c.clearsKey x]
      by_cases hkey : c.clearsKey (x * 1024 + m * 32 + y) = true
      · rw [if_neg (by simp [hkey]), if_pos ⟨hq, (clearsKey_iff c hm hy).mp hkey⟩]
      · rw [if_pos (by simp [hkey]), if_neg fun h => hkey ((clearsKey_iff c hm hy).mpr h.2)]
    · rw [if_neg hq, if_neg fun h => hq h.1]
  · exact planes_modSet_keep (fun p : Quad => (p.active, p.shadow, p.sideA, p.sideS)) s core c howner (fun _ => rfl) q

/-! ### One weight row of `mldw` (R350/17) -/

/-- A weight of the shadow planes. -/
def State.shadowAt (s : State) (core : Nat) (c : MatCmd) (j n : Nat) : BitVec 16 :=
  cget 0 ((s.core core).planes c.ctx (weightAt c.set j n).1).shadow (weightAt c.set j n).2

/-- A side pair of the shadow planes. -/
def State.shadowSide (s : State) (core : Nat) (c : MatCmd) (n b : Nat) : BitVec 16 :=
  cget sideDefault ((s.core core).planes c.ctx ((setAcc c.set).getD (n / 32) 0)).sideS (n % 32 * 4 + b)

/-- Shadow planes of zero codes and scale 1. -/
def Quad.blankShadow (q : Quad) : Quad := { q with shadow := [], sideS := [] }

/-- A weight written to a quadrant's shadow plane. -/
def Quad.setShadow (key : Nat) (x : BitVec 16) (q : Quad) : Quad := { q with shadow := cset 0 q.shadow key x }

/-- A side pair written to a quadrant's shadow plane. -/
def Quad.setSide (key : Nat) (x : BitVec 16) (q : Quad) : Quad := { q with sideS := cset sideDefault q.sideS key x }

/-- The first row clears the shadow planes. -/
def State.clearShadow (s : State) (core : Nat) (c : MatCmd) : State :=
  if c.kpos = 0 then s.modSet core c Quad.blankShadow else s

/-- A weight of the row. -/
def State.putShadow (s : State) (core : Nat) (c : MatCmd) (j x : Nat) : State :=
  s.modCore core fun z => z.modPlanes c.ctx (weightAt c.set j c.kpos).1 (Quad.setShadow (weightAt c.set j c.kpos).2 (BitVec.ofNat 16 x))

/-- The weights of the row. -/
def State.loadWeights (s : State) (core : Nat) (c : MatCmd) (kn : Nat) (x : Nat → Nat) : State :=
  (List.range kn).foldl (fun s j => s.putShadow core c j (x j)) s

/-- A side pair of the row. -/
def State.putSide (s : State) (core : Nat) (c : MatCmd) (b x : Nat) : State :=
  s.modCore core fun z =>
    z.modPlanes c.ctx ((setAcc c.set).getD (c.kpos / 32) 0) (Quad.setSide (c.kpos % 32 * 4 + b) (BitVec.ofNat 16 x))

/-- The side pairs of the row. -/
def State.loadSides (s : State) (core : Nat) (c : MatCmd) (nb : Nat) (x : Nat → Nat) : State :=
  (List.range nb).foldl (fun s b => s.putSide core c b (x b)) s

/-- The weights of a row as scratch holds them, of a type or of 4 bits. -/
def State.rowWeight (s : State) (c : MatCmd) (f : Option ElemType) (r : ScratchRef) (j : Nat) : Nat :=
  let stride := opField c.s1 0 32
  let kn := opField c.s2 0 16
  match f with
  | some ty => fieldOf (s.scratchRead r (c.kpos * stride) (kn * elemBytes ty)) (j * elemBytes ty) (elemBytes ty)
  | none => fieldOf (s.scratchRead r (c.kpos * stride) ((kn + 1) / 2)) (j / 2) 1 / 16 ^ (j % 2) % 16

/-- The side pairs of a row as scratch holds them. -/
def State.rowSide (s : State) (c : MatCmd) (e : ScratchRef) (b : Nat) : Nat :=
  let nb := (opField c.s2 0 16 + 31) / 32
  fieldOf (s.scratchRead e (2 * (c.kpos * nb)) (2 * nb)) (2 * b) 2

/-- The weights loaded, where there is a source. -/
def State.mldwWeights (s : State) (core : Nat) (c : MatCmd) (f : Option ElemType) : State :=
  match c.src with
  | none => s.clearShadow core c
  | some r => (s.clearShadow core c).loadWeights core c (opField c.s2 0 16) ((s.clearShadow core c).rowWeight c f r)

/-- Are side pairs loaded, and from where? -/
def MatCmd.sideSource (c : MatCmd) (f : Option ElemType) : Option ScratchRef :=
  if f.isNone && c.src.isSome then c.dst else none

/-- What a step of `mldw` does but for its command. -/
def State.mldwWork (s : State) (core : Nat) (c : MatCmd) (f : Option ElemType) : State :=
  match c.sideSource f with
  | none => s.mldwWeights core c f
  | some e => (s.mldwWeights core c f).loadSides core c ((opField c.s2 0 16 + 31) / 32) ((s.mldwWeights core c f).rowSide c e)

theorem mldwStep_eq (s : State) (core : Nat) (c : MatCmd) (f : Option ElemType) : s.mldwStep core c f =
    (s.mldwWork core c f).modCmd core c.id fun x => { x with kpos := c.kpos + 1, done := decide (opField c.s2 16 16 ≤ c.kpos + 1) } := by
  unfold State.mldwStep State.mldwWork State.mldwWeights MatCmd.sideSource
  cases hsrc : c.src with
  | none => cases f <;> rfl
  | some r =>
    cases f with
    | some ty => rfl
    | none =>
      cases hdst : c.dst with
      | none => rfl
      | some e => rfl

/-- What `mldw` leaves: all but the shadow planes and their side pairs. -/
def State.besideShadow (s : State) (core : Nat) (c : MatCmd) :
    (State × (Nat → Core) × Core × (Nat → Nat → Quad)) × (List Team × List Ring) × (Nat → Quad) :=
  (s.besideWork core c.ctx, s.teamsAndRings core, fun q => ((s.core core).planes c.ctx q).blankShadow)

theorem besideShadow_modPlanes (s : State) (core : Nat) (c : MatCmd) (q : Nat) {f : Quad → Quad} (hf : ∀ p, (f p).owner = p.owner)
    (hblank : ∀ p, (f p).blankShadow = p.blankShadow) :
    (s.modCore core fun z => z.modPlanes c.ctx q f).besideShadow core c = s.besideShadow core c := by
  unfold State.besideShadow
  rw [besideWork_modPlanes s core c.ctx q hf, teamsAndRings_modPlanes s core c.ctx q f,
    funext fun y => planes_keep Quad.blankShadow s core c.ctx q hf hblank y]

theorem clearShadow_besideShadow (s : State) (core : Nat) (c : MatCmd) : (s.clearShadow core c).besideShadow core c = s.besideShadow core c := by
  unfold State.clearShadow
  split
  · unfold State.besideShadow
    rw [modSet_besideWork s core c (f := Quad.blankShadow) fun _ => rfl, modSet_teamsAndRings s core c Quad.blankShadow,
      funext fun y => planes_modSet_keep Quad.blankShadow s core c (f := Quad.blankShadow) (fun _ => rfl) (fun _ => rfl) y]
  · rfl

theorem putShadow_besideShadow (s : State) (core : Nat) (c : MatCmd) (j x : Nat) :
    (s.putShadow core c j x).besideShadow core c = s.besideShadow core c :=
  besideShadow_modPlanes s core c _ (f := Quad.setShadow _ _) (fun _ => rfl) fun _ => rfl

theorem putSide_besideShadow (s : State) (core : Nat) (c : MatCmd) (b x : Nat) :
    (s.putSide core c b x).besideShadow core c = s.besideShadow core c :=
  besideShadow_modPlanes s core c _ (f := Quad.setSide _ _) (fun _ => rfl) fun _ => rfl

theorem loadWeights_besideShadow (s : State) (core : Nat) (c : MatCmd) (kn : Nat) (x : Nat → Nat) :
    (s.loadWeights core c kn x).besideShadow core c = s.besideShadow core c :=
  foldl_keep (fun s j => s.putShadow core c j (x j)) (fun s => s.besideShadow core c) (fun s j => putShadow_besideShadow s core c j (x j)) _ s

theorem loadSides_besideShadow (s : State) (core : Nat) (c : MatCmd) (nb : Nat) (x : Nat → Nat) :
    (s.loadSides core c nb x).besideShadow core c = s.besideShadow core c :=
  foldl_keep (fun s b => s.putSide core c b (x b)) (fun s => s.besideShadow core c) (fun s b => putSide_besideShadow s core c b (x b)) _ s

theorem mldwWeights_besideShadow (s : State) (core : Nat) (c : MatCmd) (f : Option ElemType) :
    (s.mldwWeights core c f).besideShadow core c = s.besideShadow core c := by
  unfold State.mldwWeights
  split
  · exact clearShadow_besideShadow s core c
  · rw [loadWeights_besideShadow, clearShadow_besideShadow]

theorem mldwWork_besideShadow (s : State) (core : Nat) (c : MatCmd) (f : Option ElemType) :
    (s.mldwWork core c f).besideShadow core c = s.besideShadow core c := by
  unfold State.mldwWork
  split
  · exact mldwWeights_besideShadow s core c f
  · rw [loadSides_besideShadow, mldwWeights_besideShadow]

theorem besideWork_of_besideShadow (h : w.besideShadow core c = s.besideShadow core c) : w.besideWork core c.ctx = s.besideWork core c.ctx :=
  congrArg Prod.fst h

theorem teamsAndRings_of_besideShadow (h : w.besideShadow core c = s.besideShadow core c) : w.teamsAndRings core = s.teamsAndRings core :=
  congrArg (fun z => z.2.1) h

/-- The accumulators, the active planes and their side pairs stay. -/
theorem planes_of_besideShadow (h : w.besideShadow core c = s.besideShadow core c) (q : Nat) :
    ((w.core core).planes c.ctx q).acc = ((s.core core).planes c.ctx q).acc ∧
    ((w.core core).planes c.ctx q).active = ((s.core core).planes c.ctx q).active ∧
    ((w.core core).planes c.ctx q).sideA = ((s.core core).planes c.ctx q).sideA := by
  have hq : ((w.core core).planes c.ctx q).blankShadow = ((s.core core).planes c.ctx q).blankShadow := congrFun (congrArg (fun z => z.2.2) h) q
  exact ⟨(congrArg Quad.acc hq :), (congrArg Quad.active hq :), (congrArg Quad.sideA hq :)⟩

/-- The shadow planes are cleared by the first row. -/
theorem clearShadow_shadowAt (hset : c.set ∈ legalSets) {j n : Nat} (hn : n < 32 * setNf c.set) :
    (s.clearShadow core c).shadowAt core c j n = if c.kpos = 0 then 0 else s.shadowAt core c j n := by
  unfold State.clearShadow
  split
  · unfold State.shadowAt
    rw [planes_modSet s core c (f := Quad.blankShadow) fun _ => rfl, if_pos (weightAt_mem_setQuads hset hn)]
    rfl
  · rfl

theorem shadowAt_putShadow (s : State) (core : Nat) (c : MatCmd) (j x j' n' : Nat) : (s.putShadow core c j x).shadowAt core c j' n' =
    if weightAt c.set j' n' = weightAt c.set j c.kpos then BitVec.ofNat 16 x else s.shadowAt core c j' n' := by
  unfold State.shadowAt State.putShadow
  rw [planes_modCore_modPlanes s core c.ctx _ (f := Quad.setShadow _ _) fun _ => rfl]
  by_cases hquad : (weightAt c.set j' n').1 = (weightAt c.set j c.kpos).1
  · rw [if_pos hquad, Quad.setShadow, cget_cset, ← hquad]
    by_cases hkey : (weightAt c.set j' n').2 = (weightAt c.set j c.kpos).2
    · rw [if_pos hkey, if_pos (Prod.ext hquad hkey)]
    · rw [if_neg hkey, if_neg fun h => hkey (congrArg Prod.snd h)]
  · rw [if_neg hquad, if_neg fun h => hquad (congrArg Prod.fst h)]

/-- The row's weights are loaded, the others stay. -/
theorem loadWeights_shadowAt (hset : c.set ∈ legalSets) {kn : Nat} (hkn : kn ≤ 128 * setKf c.set) (hkpos : c.kpos < 32 * setNf c.set)
    (x : Nat → Nat) {j n : Nat} (hj : j < 128 * setKf c.set) (hn : n < 32 * setNf c.set) :
    (s.loadWeights core c kn x).shadowAt core c j n = if n = c.kpos ∧ j < kn then BitVec.ofNat 16 (x j) else s.shadowAt core c j n := by
  have hat : ∀ k ∈ List.range kn, weightAt c.set j n = weightAt c.set k c.kpos ↔ j = k ∧ n = c.kpos := fun k hk =>
    weightAt_inj hset (Nat.lt_of_lt_of_le (List.mem_range.mp hk) hkn) hj hkpos hn
  by_cases hnk : n = c.kpos
  · subst hnk
    have hfold := foldl_writes (step := fun s k => s.putShadow core c k (x k)) (get := fun (a : State) j => a.shadowAt core c j c.kpos)
      (new := fun j _ => BitVec.ofNat 16 (x j)) (fun _ => True) (keys := List.range kn) List.nodup_range (fun _ _ _ _ => trivial) (j := j)
      (fun a _ k hk => ?_) (a := s) trivial
    · simpa only [List.mem_range, true_and, State.loadWeights] using hfold
    · rw [shadowAt_putShadow]
      simp only [hat k hk, and_true]
      refine ite_congr rfl (fun e => ?_) fun _ => rfl
      rw [e]
  · rw [if_neg fun h => hnk h.1]
    refine foldl_inv (fun a : State => a.shadowAt core c j n = s.shadowAt core c j n) (fun a ha k hk => ?_) rfl
    rw [shadowAt_putShadow, if_neg fun e => hnk ((hat k hk).mp e).2, ha]

theorem loadSides_shadowAt (s : State) (core : Nat) (c : MatCmd) (nb : Nat) (x : Nat → Nat) (j n : Nat) :
    (s.loadSides core c nb x).shadowAt core c j n = s.shadowAt core c j n := by
  refine foldl_keep (fun s b => s.putSide core c b (x b)) (fun s => s.shadowAt core c j n) (fun s b => ?_) _ s
  exact congrArg (fun m => cget 0 m (weightAt c.set j n).2)
    (planes_keep Quad.shadow s core c.ctx _ (f := Quad.setSide _ _) (fun _ => rfl) (fun _ => rfl) _)

/-- The row's side pairs are loaded. -/
theorem loadSides_shadowSide (s : State) (core : Nat) (c : MatCmd) {nb b : Nat} (x : Nat → Nat) (hb : b < nb) :
    (s.loadSides core c nb x).shadowSide core c c.kpos b = BitVec.ofNat 16 (x b) := by
  have hfold := foldl_writes (step := fun s b => s.putSide core c b (x b)) (get := fun (a : State) b => a.shadowSide core c c.kpos b)
    (new := fun b _ => BitVec.ofNat 16 (x b)) (fun _ => True) (keys := List.range nb) List.nodup_range (fun _ _ _ _ => trivial) (j := b)
    (fun a _ k _ => ?_) (a := s) trivial
  · rw [if_pos (List.mem_range.mpr hb)] at hfold
    exact hfold
  · unfold State.shadowSide State.putSide
    rw [planes_modCore_modPlanes a core c.ctx _ (f := Quad.setSide _ _) fun _ => rfl, if_pos rfl, Quad.setSide, cget_cset]
    simp only [Nat.add_left_cancel_iff]
    refine ite_congr rfl (fun e => ?_) fun _ => rfl
    rw [e]

theorem rowWeight_congr (h : t.teams = s.teams) (c : MatCmd) (f : Option ElemType) (r : ScratchRef) : t.rowWeight c f r = s.rowWeight c f r := by
  funext j
  unfold State.rowWeight
  simp only [scratchRead_congr h]

theorem rowSide_congr (h : t.teams = s.teams) (c : MatCmd) (e : ScratchRef) : t.rowSide c e = s.rowSide c e := by
  funext b
  unfold State.rowSide
  simp only [scratchRead_congr h]

theorem modCmd_shadowAt (w : State) (core id : Nat) (g : MatCmd → MatCmd) (c : MatCmd) (j n : Nat) :
    (w.modCmd core id g).shadowAt core c j n = w.shadowAt core c j n := by
  unfold State.shadowAt
  rw [modCmd_planes]

theorem modCmd_shadowSide (w : State) (core id : Nat) (g : MatCmd → MatCmd) (c : MatCmd) (n b : Nat) :
    (w.modCmd core id g).shadowSide core c n b = w.shadowSide core c n b := by
  unfold State.shadowSide
  rw [modCmd_planes]

theorem mldwWeights_of_source {r : ScratchRef} (hr : c.src = some r) (s : State) (core : Nat) (f : Option ElemType) : s.mldwWeights core c f =
    (s.clearShadow core c).loadWeights core c (opField c.s2 0 16) ((s.clearShadow core c).rowWeight c f r) := by
  rw [State.mldwWeights, hr]

theorem mldwWork_of_sides {f : Option ElemType} {e : ScratchRef} (he : c.sideSource f = some e) (s : State) (core : Nat) :
    s.mldwWork core c f = (s.mldwWeights core c f).loadSides core c ((opField c.s2 0 16 + 31) / 32) ((s.mldwWeights core c f).rowSide c e) := by
  rw [State.mldwWork, he]

theorem mldwWork_shadowAt (s : State) (core : Nat) (c : MatCmd) (f : Option ElemType) (j n : Nat) :
    (s.mldwWork core c f).shadowAt core c j n = (s.mldwWeights core c f).shadowAt core c j n := by
  unfold State.mldwWork
  split
  · rfl
  · exact loadSides_shadowAt _ core c _ _ j n

/-- R350/17: one weight row of `mldw`. -/
theorem mldwStep_spec (hc : s.cmd? core c.id = some c) (hset : c.set ∈ legalSets) {f : Option ElemType}
    (hkn : opField c.s2 0 16 ≤ 128 * setKf c.set) (hkpos : c.kpos < 32 * setNf c.set) (ht : t = s.mldwStep core c f) :
    (∀ r j, c.src = some r → j < opField c.s2 0 16 → t.shadowAt core c j c.kpos = BitVec.ofNat 16 (s.rowWeight c f r j)) ∧
    (∀ r e b, f = none → c.src = some r → c.dst = some e → b < (opField c.s2 0 16 + 31) / 32 →
      t.shadowSide core c c.kpos b = BitVec.ofNat 16 (s.rowSide c e b)) ∧
    (∀ j n, j < 128 * setKf c.set → n < 32 * setNf c.set → n ≠ c.kpos ∨ opField c.s2 0 16 ≤ j →
      t.shadowAt core c j n = if c.kpos = 0 then 0 else s.shadowAt core c j n) ∧
    (∀ q, ((t.core core).planes c.ctx q).acc = ((s.core core).planes c.ctx q).acc ∧
      ((t.core core).planes c.ctx q).active = ((s.core core).planes c.ctx q).active ∧
      ((t.core core).planes c.ctx q).sideA = ((s.core core).planes c.ctx q).sideA) ∧
    t.teams = s.teams ∧ (t.core core).rings = (s.core core).rings ∧
    t.cmd? core c.id = some { c with kpos := c.kpos + 1, done := decide (opField c.s2 16 16 ≤ c.kpos + 1) } := by
  rw [mldwStep_eq] at ht
  subst ht
  have hkeep := mldwWork_besideShadow s core c f
  have hteams := teams_of_teamsAndRings (teamsAndRings_of_besideShadow hkeep)
  have hclear : (s.clearShadow core c).teams = s.teams :=
    teams_of_teamsAndRings (teamsAndRings_of_besideShadow (clearShadow_besideShadow s core c))
  have hloaded : (s.mldwWeights core c f).teams = s.teams :=
    teams_of_teamsAndRings (teamsAndRings_of_besideShadow (mldwWeights_besideShadow s core c f))
  refine ⟨fun r j hr hj => ?_, fun r e b hf hr he hb => ?_, fun j n hj hn hout => ?_, fun q => ?_, hteams,
    (modCmd_rings _ _ _ _).trans (rings_of_teamsAndRings (teamsAndRings_of_besideShadow hkeep)),
    cmd?_modCmd_of_besideWork hc (besideWork_of_besideShadow hkeep) fun _ => rfl⟩
  · rw [modCmd_shadowAt, mldwWork_shadowAt, mldwWeights_of_source hr,
      loadWeights_shadowAt hset hkn hkpos _ (Nat.lt_of_lt_of_le hj hkn) hkpos, if_pos ⟨rfl, hj⟩, rowWeight_congr hclear]
  · have hsource : c.sideSource f = some e := by
      rw [MatCmd.sideSource, hf, hr, he]
      rfl
    rw [modCmd_shadowSide, mldwWork_of_sides hsource, loadSides_shadowSide _ _ _ _ hb, rowSide_congr hloaded]
  · rw [modCmd_shadowAt, mldwWork_shadowAt, ← clearShadow_shadowAt hset hn]
    unfold State.mldwWeights
    split
    · rfl
    · rw [loadWeights_shadowAt hset hkn hkpos _ hj hn, if_neg (by omega)]
  · rw [modCmd_planes]
    exact planes_of_besideShadow hkeep q

end Sys2Proof.Machine
end
section
/-! SUPPORT. The step of `mdrain` and its transposed copy (R359/17). -/

namespace Sys2Proof.Machine

variable {s t w : State} {core : Nat} {c : MatCmd}

/-! ### Drains leave cores, teams stay there, and other teams keep their scratch -/

theorem scratchWrite_isSome_other (s : State) {r : ScratchRef} {k : Nat} (h : k ≠ r.team) (off : Nat) (bs : List Byte) :
    ((s.scratchWrite r off bs).team? k).isSome = (s.team? k).isSome := by
  rw [State.scratchWrite, team?_modTeam_other s (fun t => { t with mem := t.mem.write (r.off + off) bs }) (fun _ => rfl) h]

theorem drainTo_isSome (s : State) (c : MatCmd) (r : ScratchRef) (off sz : Nat) (x : FRes) (k : Nat) :
    ((s.drainTo c r off sz x).team? k).isSome = (s.team? k).isSome := by
  rw [State.drainTo, satCmd_isSome]
  by_cases h : k = r.team
  · rw [h, scratchWrite_isSome]
  · rw [scratchWrite_isSome_other s h]

theorem drainTo_scratchRead_otherTeam (s : State) (c : MatCmd) {r r' : ScratchRef} (h : r'.team ≠ r.team) (off sz : Nat) (x : FRes)
    (off' n : Nat) : (s.drainTo c r off sz x).scratchRead r' off' n = s.scratchRead r' off' n := by
  rw [State.drainTo, satCmd_scratchRead, scratchRead_scratchWrite_otherTeam s h]

/-! ### One row of `mdrain` -/

/-- The plane and the height of a drain. -/
def MatCmd.drainPlane (c : MatCmd) : Nat := opField c.s0 0 4
def MatCmd.drainHeight (c : MatCmd) : Nat := opField c.s0 16 6

/-- The row drained to scratch. -/
def State.drainRow (s : State) (core : Nat) (c : MatCmd) (f : ElemType) : State :=
  match c.src with
  | none => s
  | some d => (List.range (32 * setNf c.set)).foldl (fun s n =>
      s.drainTo c d (c.kpos * opField c.s2 0 32 + n * elemBytes f) (elemBytes f) (drainElemOf f (s.accGet core c c.drainPlane c.kpos n))) s

theorem drainRow_butTeams (s : State) (core : Nat) (c : MatCmd) (f : ElemType) :
    ({ s.drainRow core c f with teams := [] } : State) = { s with teams := [] } := by
  unfold State.drainRow
  split
  · rfl
  · next d _ =>
    exact foldl_drainTo_butTeams (List.range (32 * setNf c.set)) c d (elemBytes f) (fun n => c.kpos * opField c.s2 0 32 + n * elemBytes f)
      (fun s n => drainElemOf f (s.accGet core c c.drainPlane c.kpos n))

theorem drainRow_isSome (s : State) (core : Nat) (c : MatCmd) (f : ElemType) (k : Nat) :
    ((s.drainRow core c f).team? k).isSome = (s.team? k).isSome := by
  unfold State.drainRow
  split
  · rfl
  · next d _ =>
    exact foldl_keep (fun s n => s.drainTo c d (c.kpos * opField c.s2 0 32 + n * elemBytes f) (elemBytes f)
      (drainElemOf f (s.accGet core c c.drainPlane c.kpos n))) (fun s => (s.team? k).isSome) (fun s n => drainTo_isSome s c d _ _ _ k) _ s

/-- A row drained reads back as its rounded elements. -/
theorem drainRow_scratchRead {f : ElemType} {d : ScratchRef} (hd : c.src = some d) (hteam : (s.team? d.team).isSome = true) {n : Nat}
    (hn : n < 32 * setNf c.set) : (s.drainRow core c f).scratchRead d (c.kpos * opField c.s2 0 32 + n * elemBytes f) (elemBytes f) =
      bytesOfNat (elemBytes f) (drainElemOf f (s.accGet core c c.drainPlane c.kpos n)).bits := by
  rw [State.drainRow, hd]
  refine scratchRead_foldl_drainTo (off := fun n => c.kpos * opField c.s2 0 32 + n * elemBytes f)
    (val := fun s n => drainElemOf f (s.accGet core c c.drainPlane c.kpos n)) List.nodup_range (fun a b hab => ?_) (fun i _ j _ hij => ?_) hteam
    (List.mem_range.mpr hn)
  · funext n
    rw [accGet_of_cores hab]
  · have hapart := mul_apart (elemBytes f) hij
    omega

/-! ### The transposed copy -/

/-- The format of the transposed copy. -/
def MatCmd.copyFmt (c : MatCmd) : Fmt := elemFmt (if c.s0.getLsbD 9 then .e5m2 else .e4m3)

/-- The scale code of the transposed copy, by the largest magnitude of the tile. -/
def State.copyCode (s : State) (core : Nat) (c : MatCmd) : Nat :=
  scaleCode ((tileCells c.drainHeight (32 * setNf c.set)).foldl (fun a mn => amaxStep a (s.accGet core c c.drainPlane mn.1 mn.2)) (0, 1)) c.copyFmt

/-- An element of the transposed copy. -/
def State.copyElem (s : State) (core : Nat) (c : MatCmd) (code : Nat) (mn : Nat × Nat) : FRes :=
  roundF ((decodeF .f32 (s.accGet core c c.drainPlane mn.1 mn.2).toNat).scale (127 - (code : Int))) c.copyFmt .rne

/-- The elements of the transposed copy. -/
def State.copyTile (s : State) (core : Nat) (c : MatCmd) (r : ScratchRef) (code : Nat) : State :=
  (tileCells c.drainHeight (32 * setNf c.set)).foldl (fun s mn =>
    s.drainTo c r (mn.2 * opField c.s2 32 32 + mn.1) 1 (s.copyElem core c code mn)) s

/-- The transposed copy with its scale code, where there is one. -/
def State.transposedCopy (s : State) (core : Nat) (c : MatCmd) : State :=
  match c.dst with
  | some r => (s.copyTile core c r (s.copyCode core c)).scratchWrite r (32 * setNf c.set * opField c.s2 32 32) (bytesOfNat 1 (s.copyCode core c))
  | none => s

theorem transposedCopy_eq (s : State) (core : Nat) (c : MatCmd) : s.transposedCopy core c =
    match c.dst with
    | some r => s.transposed core c r c.drainPlane c.drainHeight (32 * setNf c.set)
    | none => s := by
  unfold State.transposedCopy
  cases c.dst <;> rfl

theorem copyTile_butTeams (s : State) (core : Nat) (c : MatCmd) (r : ScratchRef) (code : Nat) :
    ({ s.copyTile core c r code with teams := [] } : State) = { s with teams := [] } :=
  foldl_drainTo_butTeams (tileCells c.drainHeight (32 * setNf c.set)) c r 1 (fun mn => mn.2 * opField c.s2 32 32 + mn.1)
    (fun s mn => s.copyElem core c code mn)

theorem transposedCopy_butTeams (s : State) (core : Nat) (c : MatCmd) :
    ({ s.transposedCopy core c with teams := [] } : State) = { s with teams := [] } := by
  unfold State.transposedCopy
  split
  · exact copyTile_butTeams s core c _ _
  · rfl

theorem copyElem_of_cores (h : w.cores = s.cores) (code : Nat) : w.copyElem core c code = s.copyElem core c code := by
  funext mn
  unfold State.copyElem
  rw [accGet_of_cores h]

theorem copyCode_of_cores (h : w.cores = s.cores) : w.copyCode core c = s.copyCode core c := by
  unfold State.copyCode
  simp only [accGet_of_cores h]

theorem copyTile_isSome (s : State) (core : Nat) (c : MatCmd) (r : ScratchRef) (code : Nat) :
    ((s.copyTile core c r code).team? r.team).isSome = (s.team? r.team).isSome :=
  foldl_keep (fun s mn => s.drainTo c r (mn.2 * opField c.s2 32 32 + mn.1) 1 (s.copyElem core c code mn)) (fun s => (s.team? r.team).isSome)
    (fun s _ => drainTo_isSome s c r _ _ _ r.team) _ s

/-- Elements of the copy lie apart, column after column. -/
theorem copyTile_scratchRead {r : ScratchRef} (hteam : (s.team? r.team).isSome = true) (hfit : c.drainHeight ≤ opField c.s2 32 32) (code : Nat)
    {m n : Nat} (hm : m < c.drainHeight) (hn : n < 32 * setNf c.set) :
    (s.copyTile core c r code).scratchRead r (n * opField c.s2 32 32 + m) 1 = bytesOfNat 1 (s.copyElem core c code (m, n)).bits := by
  refine scratchRead_foldl_drainTo (off := fun mn : Nat × Nat => mn.2 * opField c.s2 32 32 + mn.1) (val := fun s mn => s.copyElem core c code mn)
    (j := (m, n)) (nodup_tileCells _ _) (fun a b hab => copyElem_of_cores hab code) (fun i hi j hj hij => ?_) hteam
    ((mem_tileCells _ _ m n).mpr ⟨hm, hn⟩)
  have hne : i.2 * opField c.s2 32 32 + i.1 ≠ j.2 * opField c.s2 32 32 + j.1 := fun e => by
    obtain ⟨hcol, hrow⟩ := row_inj (Nat.lt_of_lt_of_le ((mem_tileCells _ _ _ _).mp hi).1 hfit)
      (Nat.lt_of_lt_of_le ((mem_tileCells _ _ _ _).mp hj).1 hfit) e
    exact hij (Prod.ext hrow hcol)
  exact (Nat.lt_or_gt_of_ne hne).imp id id

/-- R359/17: the transposed copy reads back as its elements and its scale code. -/
theorem transposedCopy_scratchRead {r : ScratchRef} (hr : c.dst = some r) (hteam : (s.team? r.team).isSome = true)
    (hfit : c.drainHeight ≤ opField c.s2 32 32) :
    (s.transposedCopy core c).scratchRead r (32 * setNf c.set * opField c.s2 32 32) 1 = bytesOfNat 1 (s.copyCode core c) ∧
    ∀ m n, m < c.drainHeight → n < 32 * setNf c.set →
      (s.transposedCopy core c).scratchRead r (n * opField c.s2 32 32 + m) 1 =
        bytesOfNat 1 (s.copyElem core c (s.copyCode core c) (m, n)).bits := by
  rw [State.transposedCopy, hr]
  refine ⟨?_, fun m n hm hn => ?_⟩
  · have hsame := scratchRead_scratchWrite_same ((copyTile_isSome s core c r (s.copyCode core c)).trans hteam)
      (32 * setNf c.set * opField c.s2 32 32) (bytesOfNat 1 (s.copyCode core c))
    rwa [length_bytesOfNat] at hsame
  · have hbefore : n * opField c.s2 32 32 + m + 1 ≤ 32 * setNf c.set * opField c.s2 32 32 :=
      calc n * opField c.s2 32 32 + m + 1 ≤ n * opField c.s2 32 32 + opField c.s2 32 32 := by omega
        _ = (n + 1) * opField c.s2 32 32 := (Nat.succ_mul n _).symm
        _ ≤ 32 * setNf c.set * opField c.s2 32 32 := Nat.mul_le_mul_right _ hn
    exact (scratchRead_scratchWrite_apart _ r (.inl hbefore)).trans (copyTile_scratchRead hteam hfit _ hm hn)

theorem copyTile_scratchRead_otherTeam {r d : ScratchRef} (h : d.team ≠ r.team) (s : State) (core : Nat) (c : MatCmd) (code off n : Nat) :
    (s.copyTile core c r code).scratchRead d off n = s.scratchRead d off n :=
  foldl_keep (fun s mn => s.drainTo c r (mn.2 * opField c.s2 32 32 + mn.1) 1 (s.copyElem core c code mn)) (fun s => s.scratchRead d off n)
    (fun s _ => drainTo_scratchRead_otherTeam s c h _ _ _ off n) _ s

theorem transposedCopy_scratchRead_otherTeam {d : ScratchRef} (h : ∀ r, c.dst = some r → r.team ≠ d.team) (s : State) (core off n : Nat) :
    (s.transposedCopy core c).scratchRead d off n = s.scratchRead d off n := by
  unfold State.transposedCopy
  split
  · next r hr =>
    have hne := (h r hr).symm
    rw [scratchRead_scratchWrite_otherTeam _ hne, copyTile_scratchRead_otherTeam hne]
  · rfl

/-! ### The clear after the last row -/

/-- What is drained becomes 0, where the command says so. -/
def State.clearTile (s : State) (core : Nat) (c : MatCmd) : State :=
  if c.s0.getLsbD 4 then s.accTile core c c.drainPlane c.drainHeight (32 * setNf c.set) fun _ _ _ => 0 else s

theorem clearTile_besideWork (s : State) (core : Nat) (c : MatCmd) : (s.clearTile core c).besideWork core c.ctx = s.besideWork core c.ctx := by
  unfold State.clearTile
  split
  · exact accTile_besideWork s core c _ _ _ _
  · rfl

theorem clearTile_teamsAndRings (s : State) (core : Nat) (c : MatCmd) : (s.clearTile core c).teamsAndRings core = s.teamsAndRings core := by
  unfold State.clearTile
  split
  · exact accTile_teamsAndRings s core c _ _ _ _
  · rfl

theorem clearTile_weightPlanes (s : State) (core : Nat) (c : MatCmd) :
    (s.clearTile core c).weightPlanes core c.ctx = s.weightPlanes core c.ctx := by
  unfold State.clearTile
  split
  · exact accTile_weightPlanes s core c _ _ _ _
  · rfl

theorem clearTile_accGet (hclear : c.s0.getLsbD 4 = true) (s : State) (core : Nat) {m n : Nat} (hm : m < c.drainHeight)
    (hn : n < 32 * setNf c.set) : (s.clearTile core c).accGet core c c.drainPlane m n = 0 := by
  rw [State.clearTile, if_pos hclear]
  refine foldl_establishes (fun a : State => a.accGet core c c.drainPlane m n = 0) (fun a ha mn => ?_) (j := (m, n)) (fun a => ?_)
    ((mem_tileCells _ _ m n).mpr ⟨hm, hn⟩) s
  · rw [accGet_accPut, ha, ite_self]
  · rw [accGet_accPut, if_pos rfl]

/-! ### The step -/

/-- What a step of `mdrain` does but for its command. -/
def State.mdrainWork (s : State) (core : Nat) (c : MatCmd) (f : ElemType) : State :=
  if c.kpos + 1 < c.drainHeight then s.drainRow core c f else ((s.drainRow core c f).transposedCopy core c).clearTile core c

/-- The command after a row of `mdrain`. -/
def MatCmd.afterDrainedRow (c x : MatCmd) : MatCmd :=
  if c.kpos + 1 < c.drainHeight then { x with kpos := c.kpos + 1 } else { x with kpos := c.kpos + 1, done := true }

theorem afterDrainedRow_id (c x : MatCmd) : (c.afterDrainedRow x).id = x.id := by
  unfold MatCmd.afterDrainedRow
  split <;> rfl

theorem mdrainStep_eq (s : State) (core : Nat) (c : MatCmd) (f : ElemType) :
    s.mdrainStep core c f = (s.mdrainWork core c f).modCmd core c.id c.afterDrainedRow := by
  unfold State.mdrainStep State.mdrainWork MatCmd.afterDrainedRow
  rw [transposedCopy_eq]
  by_cases h : c.kpos + 1 < c.drainHeight
  · simp only [if_pos h]
    exact if_pos h
  · simp only [if_neg h]
    exact if_neg h

theorem mdrainWork_besideWork (s : State) (core : Nat) (c : MatCmd) (f : ElemType) :
    (s.mdrainWork core c f).besideWork core c.ctx = s.besideWork core c.ctx := by
  unfold State.mdrainWork
  split
  · exact besideWork_of_butTeams (drainRow_butTeams s core c f) core c.ctx
  · rw [clearTile_besideWork, besideWork_of_butTeams (transposedCopy_butTeams _ core c),
      besideWork_of_butTeams (drainRow_butTeams s core c f)]

/-- The cores as they were before the clear. -/
theorem drainedCopy_cores (s : State) (core : Nat) (c : MatCmd) (f : ElemType) : ((s.drainRow core c f).transposedCopy core c).cores = s.cores :=
  (cores_of_butTeams (transposedCopy_butTeams _ core c)).trans (cores_of_butTeams (drainRow_butTeams s core c f))

theorem planes_of_cores (h : w.cores = s.cores) (core : Nat) : (w.core core).planes = (s.core core).planes := by rw [core_of_cores h]

theorem mdrainWork_rings (s : State) (core : Nat) (c : MatCmd) (f : ElemType) :
    ((s.mdrainWork core c f).core core).rings = (s.core core).rings := by
  unfold State.mdrainWork
  split
  · rw [core_of_cores (cores_of_butTeams (drainRow_butTeams s core c f))]
  · rw [rings_of_teamsAndRings (clearTile_teamsAndRings _ core c), core_of_cores (drainedCopy_cores s core c f)]

theorem mdrainWork_weightPlanes (s : State) (core : Nat) (c : MatCmd) (f : ElemType) :
    (s.mdrainWork core c f).weightPlanes core c.ctx = s.weightPlanes core c.ctx := by
  unfold State.mdrainWork
  split
  · exact weightPlanes_congr (congrFun (planes_of_cores (cores_of_butTeams (drainRow_butTeams s core c f)) core) c.ctx)
  · rw [clearTile_weightPlanes]
    exact weightPlanes_congr (congrFun (planes_of_cores (drainedCopy_cores s core c f) core) c.ctx)

theorem mdrainWork_planes_of_kept {f : ElemType} (h : c.kpos + 1 < c.drainHeight ∨ c.s0.getLsbD 4 = false) (s : State) (core : Nat) :
    ((s.mdrainWork core c f).core core).planes = (s.core core).planes := by
  unfold State.mdrainWork
  split
  · exact planes_of_cores (cores_of_butTeams (drainRow_butTeams s core c f)) core
  · next hlast =>
    have hkept := h.resolve_left hlast
    rw [State.clearTile, if_neg (by rw [hkept]; exact Bool.false_ne_true)]
    exact planes_of_cores (drainedCopy_cores s core c f) core

/-- The scratch after a step is that before the clear. -/
theorem mdrainWork_scratchRead_last {f : ElemType} (h : c.drainHeight ≤ c.kpos + 1) (s : State) (core : Nat) (r : ScratchRef) (off n : Nat) :
    (s.mdrainWork core c f).scratchRead r off n = ((s.drainRow core c f).transposedCopy core c).scratchRead r off n := by
  rw [State.mdrainWork, if_neg (Nat.not_lt.mpr h), scratchRead_congr (teams_of_teamsAndRings (clearTile_teamsAndRings _ core c))]

theorem mdrainWork_scratchRead_row {f : ElemType} {d : ScratchRef} (h : c.kpos + 1 < c.drainHeight ∨ ∀ r, c.dst = some r → r.team ≠ d.team)
    (s : State) (core off n : Nat) : (s.mdrainWork core c f).scratchRead d off n = (s.drainRow core c f).scratchRead d off n := by
  by_cases hmore : c.kpos + 1 < c.drainHeight
  · rw [State.mdrainWork, if_pos hmore]
  · rw [mdrainWork_scratchRead_last (Nat.not_lt.mp hmore), transposedCopy_scratchRead_otherTeam (h.resolve_left hmore)]

/-- R359/17: one row of `mdrain`, and what follows the last. -/
theorem mdrainStep_spec (hc : s.cmd? core c.id = some c) {f : ElemType} (ht : t = s.mdrainStep core c f) :
    (∀ d tm n, c.src = some d → s.team? d.team = some tm → (c.kpos + 1 < c.drainHeight ∨ ∀ r, c.dst = some r → r.team ≠ d.team) →
      n < 32 * setNf c.set → t.scratchRead d (c.kpos * opField c.s2 0 32 + n * elemBytes f) (elemBytes f) =
        bytesOfNat (elemBytes f) (drainElemOf f (s.accGet core c c.drainPlane c.kpos n)).bits) ∧
    (∀ r tm, c.drainHeight ≤ c.kpos + 1 → c.dst = some r → s.team? r.team = some tm → c.drainHeight ≤ opField c.s2 32 32 →
      t.scratchRead r (32 * setNf c.set * opField c.s2 32 32) 1 = bytesOfNat 1 (s.copyCode core c) ∧
      ∀ m n, m < c.drainHeight → n < 32 * setNf c.set →
        t.scratchRead r (n * opField c.s2 32 32 + m) 1 = bytesOfNat 1 (s.copyElem core c (s.copyCode core c) (m, n)).bits) ∧
    (c.kpos + 1 < c.drainHeight ∨ c.s0.getLsbD 4 = false →
      ∀ q, ((t.core core).planes c.ctx q).acc = ((s.core core).planes c.ctx q).acc) ∧
    (c.drainHeight ≤ c.kpos + 1 → c.s0.getLsbD 4 = true → ∀ m n, m < c.drainHeight → n < 32 * setNf c.set →
      t.accGet core c c.drainPlane m n = 0) ∧
    t.weightPlanes core c.ctx = s.weightPlanes core c.ctx ∧ (t.core core).rings = (s.core core).rings ∧
    t.cmd? core c.id = some (c.afterDrainedRow c) := by
  rw [mdrainStep_eq] at ht
  subst ht
  have hrow := cores_of_butTeams (drainRow_butTeams s core c f)
  have hscratch : ∀ r off n, ((s.mdrainWork core c f).modCmd core c.id c.afterDrainedRow).scratchRead r off n =
      (s.mdrainWork core c f).scratchRead r off n := fun r off n => scratchRead_congr (modCmd_teams _ _ _ _) r off n
  refine ⟨fun d tm n hd htm h hn => ?_, fun r tm hlast hr htm hfit => ?_, fun h q => ?_, fun hlast hclear m n hm hn => ?_,
    (modCmd_weightPlanes _ _ _ _ _).trans (mdrainWork_weightPlanes s core c f), (modCmd_rings _ _ _ _).trans (mdrainWork_rings s core c f),
    cmd?_modCmd_of_besideWork hc (mdrainWork_besideWork s core c f) (afterDrainedRow_id c)⟩
  · rw [hscratch, mdrainWork_scratchRead_row h]
    exact drainRow_scratchRead hd (by rw [htm]; rfl) hn
  · simp only [hscratch, mdrainWork_scratchRead_last hlast]
    rw [← copyElem_of_cores hrow, ← copyCode_of_cores hrow]
    exact transposedCopy_scratchRead hr (by rw [drainRow_isSome, htm]; rfl) hfit
  · rw [modCmd_planes, mdrainWork_planes_of_kept h]
  · rw [modCmd_accGet, State.mdrainWork, if_neg (Nat.not_lt.mpr hlast)]
    exact clearTile_accGet hclear _ core hm hn

end Sys2Proof.Machine
end
section
/-! O52: a quantum of a matrix command. -/

namespace Sys2Proof.Machine

variable {s : State} {core id : Nat} {c : MatCmd}

/-- What a quantum computes, by the command's operation. -/
def State.opStep (s : State) (core : Nat) (c : MatCmd) : State :=
  match c.op with
  | .mmul f => s.mmulStep core c f
  | .mmb => s.mmbStep core c
  | .msca => s.mscaStep core c
  | .mldw f => s.mldwStep core c f
  | .mswap => s.mswapStep core c
  | .mdrain f => s.mdrainStep core c f
  | .mclr => s.mclrStep core c

theorem kstep_idle (hc : s.cmd? core id = some c) (h : c.working = false ∨ c.starved = true) : s.kstep core id = s := by
  unfold State.kstep
  simp only [hc]
  rw [if_pos]
  rcases h with h | h <;> simp [h]

theorem kstep_dry (hc : s.cmd? core id = some c) (hw : c.working = true) (hs : c.starved = false) (ha : c.onArray = true) (hk : c.kpos = 0)
    (hf : ((s.core core).rings.getD c.ring {}).filled = 0) :
    s.kstep core id = s.modCmd core id fun c => { c with starved := true } := by
  unfold State.kstep
  simp only [hc]
  rw [if_neg (by simp [hw, hs]), if_pos (by rw [ha, hk, hf]; rfl)]

theorem kstep_working (hc : s.cmd? core id = some c) (hw : c.working = true) (hs : c.starved = false)
    (hring : c.onArray = true → c.kpos = 0 → ((s.core core).rings.getD c.ring {}).filled ≠ 0) : s.kstep core id = s.opStep core c := by
  have hwet : ¬ (c.onArray && c.kpos == 0 && ((s.core core).rings.getD c.ring {}).filled == 0) = true := fun h => by
    simp only [Bool.and_eq_true, beq_iff_eq] at h
    exact hring h.1.1 h.1.2 h.2
  unfold State.kstep State.opStep
  simp only [hc]
  exact (if_neg (by simp [hw, hs])).trans (if_neg hwet)

/-- R349/17: a quantum leaves everything but its core's rings and FIFO, its context's planes and scratch. -/
theorem opStep_keeps (s : State) (core : Nat) (c : MatCmd) : s.quantumKeeps core c.id c.ctx (s.opStep core c) := by
  unfold State.opStep
  cases c.op with
  | mmul f =>
    simp only [mmulStep_eq]
    exact quantumKeeps_modCmd (mmulWork_besideWork s core c f) (afterStep_id _ _)
  | mmb =>
    simp only [mmbStep_eq]
    exact quantumKeeps_modCmd (mmbWork_besideWork s core c) (afterStep_id _ _)
  | msca =>
    simp only [mscaStep_eq]
    exact quantumKeeps_modCmd (mscaWork_besideWork s core c) afterScaledRow_id
  | mldw f =>
    simp only [mldwStep_eq]
    exact quantumKeeps_modCmd (besideWork_of_besideShadow (mldwWork_besideShadow s core c f)) fun _ => rfl
  | mswap => exact quantumKeeps_modCmd (modSet_besideWork s core c (f := Quad.exchanged) fun _ => rfl) fun _ => rfl
  | mdrain f =>
    simp only [mdrainStep_eq]
    exact quantumKeeps_modCmd (mdrainWork_besideWork s core c f) (afterDrainedRow_id c)
  | mclr => exact quantumKeeps_modCmd (modSet_besideWork s core c (f := c.clearRow) fun _ => rfl) fun _ => rfl

/-- Settles O52: each operation's quantum is work on planes, rings and scratch followed by a change of its command; a tile's elements lie
apart, so each is computed from what it held before, and what is drained lies apart in scratch. -/
theorem matrixQuanta : Obligations.MatrixQuanta := by
  unfold Obligations.MatrixQuanta
  intro s core id c hc
  obtain rfl := cmd?_id hc
  refine ⟨kstep_idle hc, kstep_dry hc, fun hw hs hring hset => ?_⟩
  have ht := kstep_working hc hw hs hring
  obtain ⟨hstate, hcores, hcore, hcmds, hplanes⟩ := opStep_keeps s core c
  rw [ht]
  refine ⟨hstate, hcores, hcore, hcmds, hplanes, fun f hop hcols => ?_, fun hop hcols => ?_, fun hop hcols hrow => ?_, fun f hop => ?_,
    fun hop => ?_, fun f hop => ?_, fun hop => ?_⟩
  · have hvalue : ∀ m n, accAdd (if c.kpos = 0 ∧ (c.clears = true ∨ c.drainSpace ≠ 0) then 0 else s.accGet core c c.mmulPlane m n)
        (dotV (c.mmulKs.map fun j => (decodeF (elemFmt f) (fieldOf (s.slotData core c) ((m * c.kcols + j) * elemBytes f) (elemBytes f)),
          decodeF (elemFmt f) (s.weight core c j n)))) =
        State.mmulNew core c f (s.slotData core c) s (m, n) (s.accGet core c c.mmulPlane m n) := fun m n => by
      unfold State.mmulNew
      rw [if_congr (mmulFresh_iff c) rfl rfl]
    obtain ⟨hnew, hold, hweights, hon, hend⟩ := mmulStep_spec (t := s.opStep core c) hc hset hcols hvalue (by rw [State.opStep, hop])
    exact ⟨hnew, hold, weightPlanes_stay hweights, hon, hend⟩
  · obtain ⟨hnew, hold, hweights, hteams, hon, hend⟩ := mmbStep_spec (t := s.opStep core c) hc hset hcols (by rw [State.opStep, hop])
    exact ⟨hnew, hold, weightPlanes_stay hweights, hteams, hon, hend⟩
  · obtain ⟨hnew, hold, hweights, hteams, hrings, hcmd⟩ := mscaStep_spec (t := s.opStep core c) hc hset hcols hrow (by rw [State.opStep, hop])
    exact ⟨hnew, hold, weightPlanes_stay hweights, hteams, hrings, hcmd⟩
  · intro stride kn nb shadow side hkn hkpos
    obtain ⟨hrow, hsides, hold, hkept, hteams, hrings, hcmd⟩ := mldwStep_spec (t := s.opStep core c) hc hset hkn hkpos (by rw [State.opStep, hop])
    exact ⟨fun ty r j hf hr hj => by subst hf; exact hrow r j hr hj, fun r j hf hr hj => by subst hf; exact hrow r j hr hj,
      fun r e b hf hr he _ hb => hsides r e b hf hr he hb, hold, fun q => (hkept q).2, fun q => (hkept q).1, hteams, hrings, hcmd⟩
  · exact mswapStep_spec hc (by rw [State.opStep, hop])
  · obtain ⟨hrow, hcopy, hkept, hclear, hweights, hrings, hcmd⟩ := mdrainStep_spec (t := s.opStep core c) hc (by rw [State.opStep, hop])
    exact ⟨hrow, hcopy, hkept, hclear, weightPlanes_stay hweights, hrings, hcmd⟩
  · obtain ⟨hrow, hweights, hteams, hrings, hcmd⟩ := mclrStep_spec (t := s.opStep core c) hc (by rw [State.opStep, hop])
    exact ⟨hrow, weightPlanes_stay hweights, hteams, hrings, hcmd⟩

end Sys2Proof.Machine
end
section
/-! SUPPORT. The completion of a barrier generation: the waits of a sheaf only end, those for the generation all do, and the team is changed by
the check alone (R51/02, R179/08, R327/16). Settles O35. -/

namespace Sys2Proof.Machine

variable {s u : State} {h : Sheaf} {w x : Wait} {tm : Team}

/-! ### A wait that ends, in its sheaf and in the state -/

/-- A sheaf one of whose waits ends, its lanes going on. -/
def Sheaf.afterWait (h : Sheaf) (w : Wait) : Sheaf := ({ h with waits := h.waits.filter fun x => !(x == w) }).finishLanes w

theorem sheaf?_finishWait (s : State) (k n : Nat) (w : Wait) :
    (s.finishWait k w).sheaf? n = if n = k then (s.sheaf? n).map fun h => h.afterWait w else s.sheaf? n :=
  sheaf?_modSheaf s k n _ fun g => finishLanes_id { g with waits := g.waits.filter fun x => !(x == w) } w

/-- Lanes of a handler entered since stay held. -/
theorem finishLanes_waits (h : Sheaf) (w : Wait) :
    (h.finishLanes w).waits = if h.tl ≤ w.tl then h.waits else h.waits ++ [{ w with kind := .held }] := by
  unfold Sheaf.finishLanes
  split
  · exact (congrArg Sheaf.waits (foldl_modLane_frame (fun _ ln => ln.pass w.pc w.solo) _ h h.lanes) :)
  · exact congrArg (· ++ _) (foldl_keep _ Sheaf.waits (fun _ _ => by rfl) (lanesOf w.lanes) h)

theorem mem_waits_afterWait (hx : x ∈ (h.afterWait w).waits) : x.kind = .held ∨ x ∈ h.waits ∧ x ≠ w := by
  rw [Sheaf.afterWait, finishLanes_waits] at hx
  have hkept : x ∈ h.waits.filter (fun x => !(x == w)) → x ∈ h.waits ∧ x ≠ w := fun hm => by simpa using hm
  split at hx
  · exact .inr (hkept hx)
  · rcases List.mem_append.mp hx with hm | hheld
    · exact .inr (hkept hm)
    · exact .inl (by rw [List.mem_singleton.mp hheld])

/-! ### The waits of a sheaf under the ends of waits -/

/-- The waits of a sheaf the machine holds. -/
def State.waitsOf (s : State) (n : Nat) : Option (List Wait) := (s.sheaf? n).map Sheaf.waits

/-- The sheaf is there, and its waits are among those of a list or hold lanes of a handler. -/
def State.waitsAmong (s : State) (n : Nat) (ws : List Wait) : Prop := ∃ l, s.waitsOf n = some l ∧ ∀ x ∈ l, x.kind = .held ∨ x ∈ ws

/-- A sheaf does not wait so. -/
def State.waitOver (s : State) (n : Nat) (w : Wait) : Prop := ∀ l, s.waitsOf n = some l → w ∉ l

theorem waitsOf_congr (hsheaves : u.sheaves = s.sheaves) (n : Nat) : u.waitsOf n = s.waitsOf n := by
  unfold State.waitsOf State.sheaf?
  rw [hsheaves]

theorem waitsOf_finishWait (s : State) (k n : Nat) (w : Wait) :
    (s.finishWait k w).waitsOf n = if n = k then (s.sheaf? n).map fun h => (h.afterWait w).waits else s.waitsOf n := by
  unfold State.waitsOf
  rw [sheaf?_finishWait]
  split
  · exact Option.map_map ..
  · rfl

theorem waitsAmong_finishWait {n : Nat} {ws : List Wait} (hs : s.waitsAmong n ws) (k : Nat) (w : Wait) :
    (s.finishWait k w).waitsAmong n ws := by
  unfold State.waitsAmong
  rw [waitsOf_finishWait]
  split
  · obtain ⟨l, hl, hamong⟩ := hs
    obtain ⟨g, hg, rfl⟩ := Option.map_eq_some_iff.mp hl
    exact ⟨_, by rw [hg]; rfl, fun x hx => (mem_waits_afterWait hx).elim .inl fun hm => hamong x hm.1⟩
  · exact hs

/-- What has ended does not come back, unless lanes of a handler are held so. -/
theorem waitOver_finishWait {n : Nat} (hs : s.waitOver n x) (hx : x.kind ≠ .held) (k : Nat) (w : Wait) : (s.finishWait k w).waitOver n x := by
  unfold State.waitOver
  rw [waitsOf_finishWait]
  split
  · intro l hl hm
    obtain ⟨g, hg, rfl⟩ := Option.map_eq_some_iff.mp hl
    exact (mem_waits_afterWait hm).elim hx fun hkept => hs g.waits (by rw [State.waitsOf, hg]; rfl) hkept.1
  · exact hs

theorem finishWait_waitOver (s : State) (k : Nat) (hw : w.kind ≠ .held) : (s.finishWait k w).waitOver k w := by
  intro l hl hm
  rw [waitsOf_finishWait, if_pos rfl] at hl
  obtain ⟨g, -, rfl⟩ := Option.map_eq_some_iff.mp hl
  exact (mem_waits_afterWait hm).elim hw fun hkept => hkept.2 rfl

/-! ### The waits that a completed generation frees (R327/16) -/

/-- A freed wait ends, with its acquire. -/
def State.freeOne (s : State) (tm : Team) (h : Sheaf) (w : Wait) : State := (s.finishWait h.id w).acquireTeam h.core tm

/-- The freed waits of one sheaf end. -/
def State.freeSheaf (s : State) (tm : Team) (h : Sheaf) : State := (h.waits.filter tm.frees).foldl (fun s w => s.freeOne tm h w) s

theorem freeWaiters_eq (s : State) (tm : Team) : s.freeWaiters tm = s.sheaves.foldl (fun s h => s.freeSheaf tm h) s := rfl

theorem freeOne_waitsOf (s : State) (tm : Team) (h : Sheaf) (w : Wait) (n : Nat) :
    (s.freeOne tm h w).waitsOf n = (s.finishWait h.id w).waitsOf n := waitsOf_congr (acquireTeam_frame _ _ _).2 n

theorem freeOne_teams (s : State) (tm : Team) (h : Sheaf) (w : Wait) : (s.freeOne tm h w).teams = s.teams := by
  unfold State.freeOne State.acquireTeam
  split <;> rfl

theorem freeOne_waitsAmong {n : Nat} {ws : List Wait} (hs : s.waitsAmong n ws) (tm : Team) (h : Sheaf) (w : Wait) :
    (s.freeOne tm h w).waitsAmong n ws := by
  unfold State.waitsAmong
  rw [freeOne_waitsOf]
  exact waitsAmong_finishWait hs h.id w

theorem freeOne_waitOver {n : Nat} (hs : s.waitOver n x) (hx : x.kind ≠ .held) (tm : Team) (h : Sheaf) (w : Wait) :
    (s.freeOne tm h w).waitOver n x := by
  unfold State.waitOver
  rw [freeOne_waitsOf]
  exact waitOver_finishWait hs hx h.id w

theorem freeOne_ends (s : State) (tm : Team) (h : Sheaf) (hw : w.kind ≠ .held) : (s.freeOne tm h w).waitOver h.id w := by
  unfold State.waitOver
  rw [freeOne_waitsOf]
  exact finishWait_waitOver s h.id hw

theorem freeWaiters_teams (s : State) (tm : Team) : (s.freeWaiters tm).teams = s.teams := by
  rw [freeWaiters_eq]
  exact foldl_keep _ State.teams (fun s h => foldl_keep _ State.teams (fun s w => freeOne_teams s tm h w) _ s) s.sheaves s

theorem freeWaiters_waitsAmong {n : Nat} {ws : List Wait} (hs : s.waitsAmong n ws) (tm : Team) : (s.freeWaiters tm).waitsAmong n ws := by
  rw [freeWaiters_eq]
  exact foldl_inv (fun s : State => s.waitsAmong n ws)
    (fun _ hs h _ => foldl_inv (fun s : State => s.waitsAmong n ws) (fun _ hs w _ => freeOne_waitsAmong hs tm h w) hs) hs

theorem frees_not_held (hw : tm.frees w = true) : w.kind ≠ .held := fun hk => by simp [Team.frees, hk] at hw

/-- Every wait that a sheaf had and that the generation frees has ended. -/
theorem freeWaiters_waitOver (hh : h ∈ s.sheaves) (hw : w ∈ h.waits) (hfrees : tm.frees w = true) : (s.freeWaiters tm).waitOver h.id w := by
  have hkind := frees_not_held hfrees
  have hkeep : ∀ (s : State) (g : Sheaf), s.waitOver h.id w → (s.freeSheaf tm g).waitOver h.id w := fun s g hs =>
    foldl_inv (fun s : State => s.waitOver h.id w) (fun s hs y _ => freeOne_waitOver hs hkind tm g y) hs
  have hset : ∀ s : State, (s.freeSheaf tm h).waitOver h.id w := fun s =>
    foldl_establishes (fun s : State => s.waitOver h.id w) (fun s hs y => freeOne_waitOver hs hkind tm h y)
      (fun s => freeOne_ends s tm h hkind) (List.mem_filter.mpr ⟨hw, hfrees⟩) s
  rw [freeWaiters_eq]
  exact foldl_establishes (fun s : State => s.waitOver h.id w) (fun s hs g => hkeep s g hs) hset hh s

/-! ### Phase tasks (R53/02) -/

/-- The phase record of one sheaf becomes a phase task. -/
def State.queuePhase (s : State) (h : Sheaf) : State :=
  match h.place with
  | .phase f _ team carry =>
    (s.modSheaf h.id fun h => { h with place := .phase f true team carry }).modField f fun x => x.queueTask h.id
  | _ => s

theorem queuePhases_eq (s : State) (tm : Team) : ∃ hs : List Sheaf, s.queuePhases tm = hs.foldl State.queuePhase s := ⟨_, rfl⟩

theorem queuePhase_waitsOf (s : State) (h : Sheaf) (n : Nat) : (s.queuePhase h).waitsOf n = s.waitsOf n := by
  unfold State.queuePhase
  split
  · next f _ team carry _ =>
    show Option.map Sheaf.waits ((s.modSheaf h.id fun h => { h with place := .phase f true team carry }).sheaf? n) = _
    rw [sheaf?_modSheaf s h.id n (fun h => { h with place := .phase f true team carry }) fun _ => rfl]
    split
    · exact Option.map_map ..
    · rfl
  · rfl

theorem queuePhase_teams (s : State) (h : Sheaf) : (s.queuePhase h).teams = s.teams := by
  unfold State.queuePhase
  split <;> rfl

theorem queuePhases_waitsOf (s : State) (tm : Team) (n : Nat) : (s.queuePhases tm).waitsOf n = s.waitsOf n := by
  obtain ⟨hs, e⟩ := queuePhases_eq s tm
  rw [e]
  exact foldl_keep _ (fun s : State => s.waitsOf n) (fun s h => queuePhase_waitsOf s h n) hs s

theorem queuePhases_teams (s : State) (tm : Team) : (s.queuePhases tm).teams = s.teams := by
  obtain ⟨hs, e⟩ := queuePhases_eq s tm
  rw [e]
  exact foldl_keep _ State.teams queuePhase_teams hs s

/-! ### The check (R179/08) -/

/-- A team whose barrier events have been looked at. -/
def Team.looked (tm : Team) : Team := { tm with evt := false, expected := 0 }

/-- A team whose generation completes in the check. -/
def Team.passed (tm : Team) : Team := { tm.complete with expected := 0 }

/-- The state in which the waits of a completed generation end. -/
def State.passTeam (s : State) (tm : Team) : State := (s.modTeam tm.id Team.looked).modTeam tm.id fun _ => tm.passed

theorem checkBarrier_completes (hok : tm.evt = true ∧ tm.need ≤ tm.arr ∧ tm.pend ≤ 0) :
    s.checkBarrier tm = ((s.passTeam tm).freeWaiters tm.passed).queuePhases tm.passed := if_pos hok

theorem checkBarrier_looks (hno : ¬ (tm.evt = true ∧ tm.need ≤ tm.arr ∧ tm.pend ≤ 0)) :
    s.checkBarrier tm = s.modTeam tm.id Team.looked := if_neg hno

theorem team?_congr (hteams : u.teams = s.teams) (n : Nat) : u.team? n = s.team? n := by
  unfold State.team?
  rw [hteams]

theorem passTeam_team? (ht : s.team? tm.id = some tm) : (s.passTeam tm).team? tm.id = some tm.passed := by
  unfold State.passTeam
  rw [team?_modTeam _ tm.id (fun _ => tm.passed) fun _ _ => rfl, team?_modTeam s tm.id Team.looked fun _ hx => hx, ht]
  rfl

/-- The generation that a team was in has completed once it is in the next. -/
theorem passed_completed (tm : Team) : tm.passed.completed tm.gen = true := by
  have hgen : tm.passed.gen - tm.gen = 1 := by
    show tm.gen + 1 - tm.gen = 1
    rw [BitVec.add_comm, BitVec.add_sub_cancel]
  unfold Team.completed
  rw [hgen]
  rfl

theorem passed_frees (hw : w.kind = .barrier tm.id tm.gen ∨ w.kind = .generation tm.id tm.gen) : tm.passed.frees w = true := by
  have hfrees : (tm.id == tm.passed.id && tm.passed.completed tm.gen) = true := by
    rw [passed_completed, Bool.and_true]
    exact beq_self_eq_true _
  unfold Team.frees
  rcases hw with hk | hk <;> rw [hk] <;> exact hfrees

/-- R327/16: no sheaf waits for the generation that has completed. -/
theorem passed_waits (hh : h ∈ s.sheaves) : ∃ h', (((s.passTeam tm).freeWaiters tm.passed).queuePhases tm.passed).sheaf? h.id = some h' ∧
    ∀ w ∈ h'.waits, w.kind ≠ .barrier tm.id tm.gen ∧ w.kind ≠ .generation tm.id tm.gen := by
  obtain ⟨g, hg⟩ : ∃ g, s.sheaf? h.id = some g :=
    Option.isSome_iff_exists.mp (List.find?_isSome.mpr ⟨h, hh, beq_self_eq_true _⟩)
  have hgid := sheaf?_id hg
  have hmem : g ∈ (s.passTeam tm).sheaves := List.mem_of_find?_eq_some hg
  have hstart : (s.passTeam tm).waitsAmong h.id g.waits := ⟨g.waits, congrArg (Option.map Sheaf.waits) hg, fun x hx => .inr hx⟩
  obtain ⟨l, hl, hamong⟩ := freeWaiters_waitsAmong hstart tm.passed
  have hend := (queuePhases_waitsOf _ tm.passed h.id).trans hl
  obtain ⟨h', hh', rfl⟩ := Option.map_eq_some_iff.mp hend
  have hno : ∀ w ∈ h'.waits, ¬ (w.kind = .barrier tm.id tm.gen ∨ w.kind = .generation tm.id tm.gen) := fun w hw hkind => by
    have hfrees := passed_frees hkind
    have hw0 := (hamong w hw).resolve_left (frees_not_held hfrees)
    exact freeWaiters_waitOver hmem hw0 hfrees h'.waits (hgid ▸ hl) hw
  exact ⟨h', hh', fun w hw => not_or.mp (hno w hw)⟩

/-- Settles O35: a generation that completes frees its waits and changes its team's record alone; without one the check only looks. -/
theorem generationsComplete : Obligations.GenerationsComplete := by
  unfold Obligations.GenerationsComplete
  refine fun s tm ht => ⟨fun hevt hneed hpend => ?completes, fun hno => ?looks⟩
  case completes =>
    rw [checkBarrier_completes ⟨hevt, hneed, hpend⟩]
    have hteam := (team?_congr ((queuePhases_teams _ tm.passed).trans (freeWaiters_teams _ tm.passed)) tm.id).trans (passTeam_team? ht)
    exact ⟨tm.passed, hteam, rfl, rfl, rfl, rfl, rfl, rfl, rfl, rfl, rfl, fun h hh => passed_waits hh⟩
  case looks =>
    rw [checkBarrier_looks hno]
    refine ⟨rfl, ?_, fun k hk => team?_modTeam_other s Team.looked (fun _ => rfl) hk⟩
    rw [team?_modTeam s tm.id Team.looked fun _ hx => hx, ht]
    rfl

end Sys2Proof.Machine
end
section
/-! SUPPORT. Waits for token counters and chunk bits: where their lanes wait, what a counter has reached, what the completion of a wait changes
(R181, R183/08, R323/15, R330/16). Settles O37. -/

namespace Sys2Proof.Machine

variable {s : State} {i : Issue} {h : Sheaf} {w : Wait} {tm : Team} {d a q slot : Nat}

/-! ### The issues -/

section
variable (hi : s.Issuing i h)
include hi

theorem exec_twait : exec (.twait d a) s = .next (s.modSheaf i.sheaf fun p =>
    p.waiting (s.inlineWait i p (.token d ((s.readS h (lowestLane i.lanes) a).setWidth 16) s.now))) := by
  show execTwait d a s = _
  rw [execTwait, src_of hi, waitMe_of hi]

theorem exec_twaitImm (n : BitVec 16) : exec (.twaitImm d n) s = .next (s.modSheaf i.sheaf fun p =>
    p.waiting (s.inlineWait i p (.token d n s.now))) := by
  show execTwaitImm d n s = _
  rw [execTwaitImm, waitMe_of hi]

theorem chunkWait_noTeam (ht : s.teamIn h slot = none) (clear : Bool) : s.chunkWait d slot a q clear = s.trapAll .space 0 0 := by
  unfold State.chunkWait
  rw [me_of hi, ht]

theorem chunkWait_noBits (ht : s.teamIn h slot = some tm) (hm : s.readS h (lowestLane i.lanes) a = 0) (clear : Bool) :
    s.chunkWait d slot a q clear = s.retire := by
  unfold State.chunkWait
  rw [me_of hi, ht, src_of hi]
  exact if_pos hm

theorem chunkWait_waits (ht : s.teamIn h slot = some tm) (hm : s.readS h (lowestLane i.lanes) a ≠ 0) (clear : Bool) :
    s.chunkWait d slot a q clear = s.modSheaf i.sheaf fun p =>
      p.waiting (s.inlineWait i p (.chunk tm.id d q (s.readS h (lowestLane i.lanes) a) clear)) := by
  unfold State.chunkWait
  rw [me_of hi, ht, src_of hi, ← waitMe_of hi]
  exact if_neg hm

end

/-! ### Counters (R181/08) -/

theorem tokenReached_add (v : BitVec 16) {n : Nat} (hn : n < 2 ^ 15) : tokenReached (v + BitVec.ofNat 16 n) v = true := by
  have hdist : (v + BitVec.ofNat 16 n - v).toNat = n := by
    rw [BitVec.add_comm, BitVec.add_sub_cancel, BitVec.toNat_ofNat]
    omega
  rw [tokenReached, hdist]
  exact decide_eq_true hn

theorem tokenReached_sub (v : BitVec 16) {n : Nat} (h1 : 1 ≤ n) (hn : n ≤ 2 ^ 15) : tokenReached (v - BitVec.ofNat 16 n) v = false := by
  have hdist : 2 ^ 15 ≤ (v - BitVec.ofNat 16 n - v).toNat := by
    have hv := v.isLt
    simp only [BitVec.toNat_sub, BitVec.toNat_ofNat]
    omega
  rw [tokenReached]
  exact decide_eq_false (Nat.not_lt.mpr hdist)

/-! ### The end of the one wait of a sheaf -/

theorem afterWait_frame (hw : h.tl ≤ w.tl) : ({ h.afterWait w with waits := h.waits, lanes := h.lanes } : Sheaf) = h := by
  unfold Sheaf.afterWait Sheaf.finishLanes
  rw [if_pos hw]
  exact congrArg (fun a : Sheaf => { a with waits := h.waits })
    (foldl_modLane_frame (fun _ ln => ln.pass w.pc w.solo) _ { h with waits := h.waits.filter fun x => !(x == w) } h.lanes)

/-- At trap level 0 the lanes of a sheaf's one wait go on, it waits no more, and nothing else of it differs. -/
theorem finishWait_last {k : Nat} (hs : s.sheaf? k = some h) (htl : h.tl = 0) (hw : h.waits = [w])
    (hpc : ∀ l, l < 64 → w.lanes.getLsbD l = true → (h.lane l).pc = w.pc) :
    ∃ h', (s.finishWait k w).sheaf? k = some h' ∧ Moved ⟨k, w.lanes, w.pc, h.core, 0, w.solo, none, false⟩ h h' ∧ h'.waits = [] ∧
      ({ h' with waits := h.waits, lanes := h.lanes } : Sheaf) = h := by
  obtain ⟨hmoved, hwaits⟩ := finishLanes_spec w k h.core htl hpc
  refine ⟨h.afterWait w, ?_, hmoved, hwaits.trans (by simp [hw]), afterWait_frame (by omega)⟩
  rw [sheaf?_finishWait, if_pos rfl, hs]
  rfl

/-- A core acquires, where what its lanes waited for was wide (R130/05). -/
def State.acquireIf (s : State) (wide : Bool) (core : Nat) : State := if wide then s.l1Clear core else s

theorem acquireIf_frame (s : State) (wide : Bool) (core : Nat) : ({ s.acquireIf wide core with cores := s.cores } : State) = s := by
  cases wide <;> rfl

theorem acquireIf_sheaf? (s : State) (wide : Bool) (core n : Nat) : (s.acquireIf wide core).sheaf? n = s.sheaf? n := by
  cases wide <;> rfl

theorem acquireIf_team? (s : State) (wide : Bool) (core n : Nat) : (s.acquireIf wide core).team? n = s.team? n := by
  cases wide <;> rfl

theorem acquireIf_noGlLines (s : State) {wide : Bool} (hwide : wide = true) (core : Nat) : ((s.acquireIf wide core).core core).noGlLines := by
  rw [State.acquireIf, if_pos hwide]
  exact l1Clear_noGlLines s core

/-! ### Completion of token waits (R330/16) -/

theorem tokenDone_of {tk since : Nat} {v : BitVec 16} (hk : w.kind = .token tk v since) :
    s.tokenDone h w = if since < s.now ∧ tokenReached ((s.resOf h).bank.getD tk 0) v = true then some tk else none := by
  unfold State.tokenDone
  rw [hk]

theorem exec_twaitCompletion_done {k tk : Nat} (hs : s.sheaf? k = some h) (hw : h.waits = [w]) (hd : s.tokenDone h w = some tk) :
    exec (.twaitCompletion k) s = .next ((s.acquireIf ((s.resOf h).wide.getD tk false) h.core).finishWait k w) := by
  show execTwaitCompletion k s = _
  simp [execTwaitCompletion, hs, hw, hd, State.acquireIf]

theorem exec_twaitCompletion_idle {k : Nat} (hs : s.sheaf? k = some h) (hw : h.waits = [w]) (hd : s.tokenDone h w = none) :
    exec (.twaitCompletion k) s = .next s := by
  show execTwaitCompletion k s = _
  simp [execTwaitCompletion, hs, hw, hd]

/-! ### Completion of chunk waits (R183/08, R323/15) -/

/-- A team with chunk bits marked for clearing. -/
def Team.marked (tm : Team) (map q : Nat) (m : Dword) : Team :=
  { tm with clears := cset 0 tm.clears map (cget 0 tm.clears map ||| (m.setWidth 256 <<< (64 * q))) }

/-- The bits of a wait are marked, where it clears. -/
def Team.markedIf (tm : Team) (clear : Bool) (map q : Nat) (m : Dword) : Team := if clear then tm.marked map q m else tm

theorem markedIf_frame (tm : Team) (clear : Bool) (map q : Nat) (m : Dword) :
    ({ tm.markedIf clear map q m with clears := tm.clears } : Team) = tm := by
  cases clear <;> rfl

theorem markedIf_quarter (tm : Team) (clear : Bool) (map q : Nat) (m : Dword) : (tm.markedIf clear map q m).quarter map q = tm.quarter map q := by
  cases clear <;> rfl

/-- The bits marked for clearing in a map's quarter hold those of a mask set there. -/
theorem extract_marks (c : BitVec 256) (m : Dword) {q : Nat} (hq : q < 4) :
    (c ||| (m.setWidth 256 <<< (64 * q))).extractLsb' (64 * q) 64 &&& m = m := by
  refine BitVec.eq_of_getLsbD_eq fun j hj => ?_
  have hin : 64 * q + j < 256 := by omega
  simp only [BitVec.getLsbD_and, BitVec.getLsbD_extractLsb', BitVec.getLsbD_or, BitVec.getLsbD_shiftLeft, BitVec.getLsbD_setWidth]
  cases hm : m.getLsbD j <;> simp [hj, hin, hm, show j < 256 by omega]

theorem markedIf_marks (tm : Team) {clear : Bool} (hclear : clear = true) (map q : Nat) (m : Dword) :
    (cget 0 (tm.markedIf clear map q m).clears map).extractLsb' (64 * q) 64 &&& m = m ∨ 4 ≤ q := by
  rcases Nat.lt_or_ge q 4 with hq | hq
  · refine .inl ?_
    rw [Team.markedIf, if_pos hclear, Team.marked, cget_cset_same]
    exact extract_marks _ m hq
  · exact .inr hq

/-- What a completing chunk wait changes beside its sheaf: the core acquires where what it observed was wide, and a `cwait.clr` marks its bits. -/
def State.takeChunk (s : State) (core : Nat) (wide clear : Bool) (team map q : Nat) (m : Dword) : State :=
  if clear then (s.acquireIf wide core).modTeam team fun tm => tm.marked map q m else s.acquireIf wide core

theorem takeChunk_frame (s : State) (core : Nat) (wide clear : Bool) (team map q : Nat) (m : Dword) :
    ({ s.takeChunk core wide clear team map q m with cores := s.cores, teams := s.teams } : State) = s := by
  cases wide <;> cases clear <;> rfl

theorem takeChunk_sheaf? (s : State) (core : Nat) (wide clear : Bool) (team map q : Nat) (m : Dword) (n : Nat) :
    (s.takeChunk core wide clear team map q m).sheaf? n = s.sheaf? n := by
  cases wide <;> cases clear <;> rfl

theorem takeChunk_noGlLines (s : State) (core : Nat) {wide : Bool} (hwide : wide = true) (clear : Bool) (team map q : Nat) (m : Dword) :
    ((s.takeChunk core wide clear team map q m).core core).noGlLines := by
  cases clear <;> exact acquireIf_noGlLines s hwide core

theorem takeChunk_team? {team : Nat} (ht : s.team? team = some tm) (core : Nat) (wide clear : Bool) (map q : Nat) (m : Dword) :
    (s.takeChunk core wide clear team map q m).team? team = some (tm.markedIf clear map q m) := by
  have hacquired : (s.acquireIf wide core).team? team = some tm := (acquireIf_team? s wide core team).trans ht
  cases clear with
  | false => exact hacquired
  | true => exact (team?_modTeam _ team (fun tm => tm.marked map q m) fun _ hx => hx).trans (by rw [hacquired]; rfl)

section
variable {k team map : Nat} {m : Dword} {clear : Bool} (hs : s.sheaf? k = some h) (hk : w.kind = .chunk team map q m clear)
  (ht : s.team? team = some tm)
include hk ht

theorem chunkDone_iff : s.chunkDone w = true ↔ w.since < s.now ∧ tm.quarter map q &&& m = m := by
  unfold State.chunkDone
  rw [hk]
  simp [ht]

theorem finishChunk_eq : s.finishChunk h w =
    (s.takeChunk h.core (decide (3 ≤ tm.chunkReach map q m)) clear team map q m).finishWait h.id w := by
  unfold State.finishChunk
  rw [hk]
  simp only [ht]
  rfl

include hs

theorem exec_cwaitCompletion_done (hw : h.waits = [w]) (hd : w.since < s.now ∧ tm.quarter map q &&& m = m) :
    exec (.cwaitCompletion k) s =
      .next ((s.takeChunk h.core (decide (3 ≤ tm.chunkReach map q m)) clear team map q m).finishWait k w) := by
  show execCwaitCompletion k s = _
  unfold execCwaitCompletion
  rw [hs]
  simp only
  rw [hw, List.filter_cons_of_pos ((chunkDone_iff hk ht).mpr hd), List.filter_nil, List.foldl_cons, List.foldl_nil, finishChunk_eq hk ht,
    sheaf?_id hs]

theorem exec_cwaitCompletion_idle (hw : h.waits = [w]) (hd : ¬ (w.since < s.now ∧ tm.quarter map q &&& m = m)) :
    exec (.cwaitCompletion k) s = .next s := by
  show execCwaitCompletion k s = _
  unfold execCwaitCompletion
  rw [hs]
  simp only
  rw [hw, List.filter_cons_of_neg (mt (chunkDone_iff hk ht).mp hd), List.filter_nil, List.foldl_nil]

end

/-- Settles O37: an issue waits or retires by what it names; a wait that completes makes its core acquire, marks its team's bits, and ends. -/
theorem tokenAndChunkWaits : Obligations.TokenAndChunkWaits := by
  unfold Obligations.TokenAndChunkWaits
  refine ⟨⟨fun s i h d a q k n hi => ?issues, fun n v hn => tokenReached_add v hn, fun n v h1 hn => tokenReached_sub v h1 hn⟩,
    fun s k h w hs htl hw hpc => ⟨fun tk v since hk hsince hr => ?tokens, fun tk v since hk hno => ?noToken,
      fun team map q m clear tm hk ht => ⟨fun hd => ?chunks, exec_cwaitCompletion_idle hs hk ht hw⟩⟩⟩
  case issues =>
    refine ⟨exec_twait hi, exec_twaitImm hi n, fun p hp => ?_⟩
    have hexec : exec p.1 s = .next (s.chunkWait d k a q p.2) := by
      rcases List.mem_pair.mp hp with rfl | rfl <;> rfl
    rw [hexec]
    refine ⟨fun ht => by rw [chunkWait_noTeam hi ht], fun tm ht => ⟨fun hm => ?_, fun hm => by rw [chunkWait_waits hi ht hm]; rfl⟩⟩
    obtain ⟨h', hc, ho⟩ := retire_onlyLanes hi
    exact ⟨s.retire, h', by rw [chunkWait_noBits hi ht hm], hc, ho⟩
  case tokens =>
    have hd : s.tokenDone h w = some tk := by rw [tokenDone_of hk, if_pos ⟨hsince, hr⟩]
    obtain ⟨h', hfound, hmoved, hwaits, hframe⟩ :=
      finishWait_last ((acquireIf_sheaf? s ((s.resOf h).wide.getD tk false) h.core k).trans hs) htl hw hpc
    refine ⟨_, h', exec_twaitCompletion_done hs hw hd, hfound, hmoved, hwaits, hframe, fun hwide => acquireIf_noGlLines s hwide h.core,
      congrArg (fun t : State => { t with sheaves := s.sheaves }) (acquireIf_frame s _ h.core), fun j hj => ?_⟩
    rw [sheaf?_finishWait, if_neg hj, acquireIf_sheaf?]
  case noToken =>
    refine exec_twaitCompletion_idle hs hw ?_
    rw [tokenDone_of hk, if_neg fun ⟨hsince, hr⟩ => hno.elim (· hsince) fun hf => by rw [hf] at hr; cases hr]
  case chunks =>
    obtain ⟨h', hfound, hmoved, hwaits, hframe⟩ :=
      finishWait_last ((takeChunk_sheaf? s h.core (decide (3 ≤ tm.chunkReach map q m)) clear team map q m k).trans hs) htl hw hpc
    exact ⟨_, h', tm.markedIf clear map q m, exec_cwaitCompletion_done hs hk ht hw hd, hfound, takeChunk_team? ht h.core _ clear map q m,
      hmoved, hwaits, hframe, markedIf_frame tm clear map q m, markedIf_quarter tm clear map q m,
      fun hclear => markedIf_marks tm hclear map q m, fun hreach => takeChunk_noGlLines s h.core (decide_eq_true hreach) clear team map q m,
      congrArg (fun t : State => { t with sheaves := s.sheaves }) (takeChunk_frame s h.core _ clear team map q m)⟩

end Sys2Proof.Machine
end
section
/-! SUPPORT. A floating-point instruction completes, and then takes FPX where a lane raised an enabled flag (R198/09): said once for any write of
registers, then for vectors, pairs, predicates and scalars, and for each shared operation of the floating-point instructions. -/

namespace Sys2Proof.Machine

variable {s : State} {i : Issue} {h h' : Sheaf} {d : Nat} {f : Sheaf → Sheaf} {r : Nat → Raised} {fl : FpFlags}

/-! ### Completion, then FPX (R198/09) -/

/-- A change of a sheaf's registers alone. -/
def RegistersOnly (f : Sheaf → Sheaf) : Prop := ∀ a, ({ f a with v := a.v, s := a.s, p := a.p } : Sheaf) = a

/-- The state in which a floating-point instruction has completed, its write being `W`; where a flag is enabled, FPX has been taken after it. -/
def FpDone (s : State) (i : Issue) (h : Sheaf) (r : Nat → Raised) (W : Sheaf → Prop) (t : State) : Prop :=
  ∃ u h', Completed i (s.satOut h (raisedBy i r)) u h h' ∧ W h' ∧
    (Quiet h (raisedBy i r) → t = u) ∧ (¬ Quiet h (raisedBy i r) → t = u.takesFpx i h r)

theorem FpDone.quiet {W : Sheaf → Prop} {t : State} {o : Out} (hd : FpDone s i h r W t) (ho : o = .next t) (hq : Quiet h (raisedBy i r)) :
    ∃ t h', o = .next t ∧ Completed i (s.satOut h (raisedBy i r)) t h h' ∧ W h' := by
  obtain ⟨u, h', hc, hW, hquiet, -⟩ := hd
  exact ⟨u, h', by rw [ho, hquiet hq], hc, hW⟩

theorem FpDone.taken {W : Sheaf → Prop} {t : State} {o : Out} (hd : FpDone s i h r W t) (ho : o = .next t) (hq : ¬ Quiet h (raisedBy i r)) :
    ∃ u h', o = .next (u.takesFpx i h r) ∧ Completed i (s.satOut h (raisedBy i r)) u h h' ∧ W h' := by
  obtain ⟨u, h', hc, hW, -, htaken⟩ := hd
  exact ⟨u, h', by rw [ho, htaken hq], hc, hW⟩

/-- Saturation of the issuing sheaf reads its slots alone, and commutes with a change of its registers. -/
theorem satOut_modMe (hi : s.Issuing i h) (hf : RegistersOnly f) (x : Raised) : (s.modMe f).satOut (f h) x = (s.satOut h x).modMe f := by
  have hslots : (f h).slots = h.slots := (congrArg Sheaf.slots (hf h) :)
  have hsat : (s.modMe f).setSat (f h) = (s.modMe f).setSat h := by unfold State.setSat; rw [hslots]
  rw [modMe_of (issuing_satOut hi x)]
  unfold State.satOut
  split
  · rw [hsat, modMe_of hi, setSat_modSheaf]
  · exact modMe_of hi f

theorem retire_cur (s : State) : s.retire.cur = s.cur := by
  unfold State.retire State.modMe
  split <;> rfl

/-- The lanes that raised an enabled flag, as the completion finds them. -/
theorem fpxLanes_eq (i : Issue) (r : Nat → Raised) (on : BitVec 5) :
    (((lanesOf i.lanes).map fun l => (l, r l)).filter fun x => !(x.2.fl.bits &&& on == 0)).map (·.1) =
      (lanesOf i.lanes).filter fun l => !((r l).fl.bits &&& on == 0) := by
  rw [List.filter_map, List.map_map]
  exact List.map_id _

/-- `fpFinish`: the flags join, the issue retires, and FPX follows where a flag is enabled. -/
theorem fpFinish_eq (hi : s.Issuing i h) (r : Nat → Raised) {u : State}
    (hu : u = ((s.satOut h (raisedBy i r)).modMe fun g => g.raise (raisedBy i r).fl).retire) :
    (Quiet h (raisedBy i r) → s.fpFinish ((lanesOf i.lanes).map fun l => (l, r l)) = u) ∧
      (¬ Quiet h (raisedBy i r) → s.fpFinish ((lanesOf i.lanes).map fun l => (l, r l)) = u.takesFpx i h r) := by
  have hcur : u.cur = some i := by
    rw [hu, retire_cur]
    exact (issuing_modMe (issuing_satOut hi (raisedBy i r)) (fun g => g.raise (raisedBy i r).fl) fun _ => rfl).1
  have hfin : s.fpFinish ((lanesOf i.lanes).map fun l => (l, r l)) =
      if (raisedBy i r).fl.bits &&& h.fpxen = 0 then u else u.takesFpx i h r := by
    unfold State.fpFinish
    simp only [raisedBy_eq, me_of hi, fpxLanes_eq]
    rw [show (if (raisedBy i r).sat then s.setSat h else s) = s.satOut h (raisedBy i r) from rfl, ← hu, hcur]
    rfl
  exact ⟨fun hq => hfin.trans (if_pos hq), fun hq => hfin.trans (if_neg hq)⟩

/-- A write of registers, then the completion. -/
theorem fpFinish_done (hi : s.Issuing i h) (hf : RegistersOnly f) (r : Nat → Raised) {W : Sheaf → Prop}
    (hW : ∀ h' : Sheaf, ({ h' with lanes := h.lanes, watchSkip := h.watchSkip } : Sheaf) = (f h).raise (raisedBy i r).fl → W h') :
    FpDone s i h r W ((s.modMe f).fpFinish ((lanesOf i.lanes).map fun l => (l, r l))) := by
  have hid : ∀ a, (f a).id = a.id := fun a => (congrArg Sheaf.id (hf a) :)
  have hfx : (f h).fpxen = h.fpxen := (congrArg Sheaf.fpxen (hf h) :)
  have hout := issuing_satOut hi (raisedBy i r)
  have hmod := issuing_modMe hout f hid
  have hraise := issuing_modMe hmod (fun g => g.raise (raisedBy i r).fl) fun _ => rfl
  have hsame := sameBut_trans (sameBut_modMe hout f hid) (sameBut_modMe hmod (fun g => g.raise (raisedBy i r).fl) fun _ => rfl)
  obtain ⟨h', hc, he⟩ := retire_completed (h := h) hraise hsame (congrArg Sheaf.lanes (hf h) :) (congrArg Sheaf.watchSkip (hf h) :)
  have hfin := fpFinish_eq (issuing_modMe hi f hid) r (congrArg (fun x : State => (x.modMe _).retire) (satOut_modMe hi hf (raisedBy i r)).symm)
  unfold Quiet State.takesFpx at hfin
  rw [hfx] at hfin
  exact ⟨_, h', hc, hW h' he, hfin⟩

/-! ### What the write changes -/

theorem registersOnly_vset (d : Nat) (g : Nat → Word) (xs : List Nat) : RegistersOnly fun a => xs.foldl (fun a l => a.vset l d (g l)) a :=
  fun a => (congrArg (fun x : Sheaf => ({ x with s := a.s, p := a.p } : Sheaf)) (foldl_vset_frame d g xs a a.v) :)

theorem registersOnly_vset64 (d : Nat) (g : Nat → Dword) (xs : List Nat) : RegistersOnly fun a => xs.foldl (fun a l => a.vset64 l d (g l)) a :=
  fun a => (congrArg (fun x : Sheaf => ({ x with s := a.s, p := a.p } : Sheaf)) (foldl_vset64_frame d g xs a a.v) :)

theorem registersOnly_psetBit (d : Nat) (g : Nat → Bool) (xs : List Nat) : RegistersOnly fun a => xs.foldl (fun a l => a.psetBit d l (g l)) a :=
  fun a => (congrArg (fun x : Sheaf => ({ x with v := a.v, s := a.s } : Sheaf)) (foldl_psetBit_frame d g xs a a.p) :)

theorem registersOnly_sset (d : Nat) (x : Dword) : RegistersOnly fun a => a.sset d x := fun _ => rfl

/-- The flags after a write of registers and the raising of some. -/
theorem flags_of_raise (hf : RegistersOnly f) (he : ({ h' with lanes := h.lanes, watchSkip := h.watchSkip } : Sheaf) = (f h).raise fl) :
    h'.flags = h.flags.or fl ∧ h'.raised = h.raised.or fl :=
  ⟨(congrArg Sheaf.flags he :).trans (congrArg (fun a : Sheaf => a.flags.or fl) (hf h) :),
    (congrArg Sheaf.raised he :).trans (congrArg (fun a : Sheaf => a.raised.or fl) (hf h) :)⟩

theorem writesVector_of {g : Nat → Word} (he : ({ h' with lanes := h.lanes, watchSkip := h.watchSkip } : Sheaf) =
    ((lanesOf i.lanes).foldl (fun a l => a.vset l d (g l)) h).raise fl) : WritesVector i d g fl h h' := by
  obtain ⟨hflags, hraised⟩ := flags_of_raise (registersOnly_vset d g (lanesOf i.lanes)) he
  refine ⟨vectorIs_of g (congrArg Sheaf.v he :), hflags, hraised, ?_⟩
  exact (congrArg (fun a : Sheaf => ({ a with v := h.v, flags := h.flags, raised := h.raised } : Sheaf)) he).trans
    (congrArg (fun a : Sheaf => ({ a with flags := h.flags, raised := h.raised } : Sheaf)) (foldl_vset_frame d g (lanesOf i.lanes) h h.v))

theorem writesPair_of {g : Nat → Dword} (he : ({ h' with lanes := h.lanes, watchSkip := h.watchSkip } : Sheaf) =
    ((lanesOf i.lanes).foldl (fun a l => a.vset64 l d (g l)) h).raise fl) : WritesPair i d g fl h h' := by
  obtain ⟨hflags, hraised⟩ := flags_of_raise (registersOnly_vset64 d g (lanesOf i.lanes)) he
  refine ⟨pairIs_of g (congrArg Sheaf.v he :), hflags, hraised, ?_⟩
  exact (congrArg (fun a : Sheaf => ({ a with v := h.v, flags := h.flags, raised := h.raised } : Sheaf)) he).trans
    (congrArg (fun a : Sheaf => ({ a with flags := h.flags, raised := h.raised } : Sheaf)) (foldl_vset64_frame d g (lanesOf i.lanes) h h.v))

theorem writesPred_of {g : Nat → Bool} (he : ({ h' with lanes := h.lanes, watchSkip := h.watchSkip } : Sheaf) =
    ((lanesOf i.lanes).foldl (fun a l => a.psetBit d l (g l)) h).raise fl) : WritesPred i d g fl h h' := by
  obtain ⟨hflags, hraised⟩ := flags_of_raise (registersOnly_psetBit d g (lanesOf i.lanes)) he
  refine ⟨predIs_of g (congrArg Sheaf.p he :), hflags, hraised, ?_⟩
  exact (congrArg (fun a : Sheaf => ({ a with p := h.p, flags := h.flags, raised := h.raised } : Sheaf)) he).trans
    (congrArg (fun a : Sheaf => ({ a with flags := h.flags, raised := h.raised } : Sheaf)) (foldl_psetBit_frame d g (lanesOf i.lanes) h h.p))

/-- A scalar register is written and flags are raised, and nothing else of the sheaf changes but its lanes' PCs. -/
def WritesScalarFp (d : Nat) (x : Dword) (fl : FpFlags) (h h' : Sheaf) : Prop :=
  h'.sget d = x ∧ (∀ k, k ≠ d → h'.sget k = h.sget k) ∧ h'.flags = h.flags.or fl ∧ h'.raised = h.raised.or fl ∧
    ({ h' with s := h.s, lanes := h.lanes, watchSkip := h.watchSkip, flags := h.flags, raised := h.raised } : Sheaf) = h

theorem writesScalarFp_of {x : Dword} (he : ({ h' with lanes := h.lanes, watchSkip := h.watchSkip } : Sheaf) = (h.sset d x).raise fl) :
    WritesScalarFp d x fl h h' := by
  obtain ⟨hflags, hraised⟩ := flags_of_raise (registersOnly_sset d x) he
  obtain ⟨hsame, hother, -⟩ := writesScalar_of (h' := { h' with flags := h.flags, raised := h.raised }) (h := h) (d := d) (x := x)
    (congrArg (fun a : Sheaf => ({ a with flags := h.flags, raised := h.raised } : Sheaf)) he)
  exact ⟨hsame, hother, hflags, hraised, congrArg (fun a : Sheaf => ({ a with s := h.s, flags := h.flags, raised := h.raised } : Sheaf)) he⟩

/-! ### The shared operations (R288 to R303/14) -/

section
variable (hi : s.Issuing i h)
include hi

theorem vector_done (d : Nat) (g : Nat → Word) (r : Nat → Raised) :
    FpDone s i h r (WritesVector i d g (raisedBy i r).fl h)
      ((s.modMe fun a => (lanesOf i.lanes).foldl (fun a l => a.vset l d (g l)) a).fpFinish ((lanesOf i.lanes).map fun l => (l, r l))) :=
  fpFinish_done hi (registersOnly_vset d g _) r fun _ he => writesVector_of he

/-- A vector written by `vwrite`, each active lane having raised its own flags. -/
theorem vwrite_done (d : Nat) (g : Nat → Word) (r : Nat → Raised) :
    FpDone s i h r (WritesVector i d g (raisedBy i r).fl h) ((s.vwrite d g).fpFinish ((lanesOf i.lanes).map fun l => (l, r l))) := by
  unfold State.vwrite
  rw [active_of hi]
  exact vector_done hi d g r

theorem pair_done (d : Nat) (g : Nat → Dword) (r : Nat → Raised) :
    FpDone s i h r (WritesPair i d g (raisedBy i r).fl h)
      ((s.modMe fun a => (lanesOf i.lanes).foldl (fun a l => a.vset64 l d (g l)) a).fpFinish ((lanesOf i.lanes).map fun l => (l, r l))) :=
  fpFinish_done hi (registersOnly_vset64 d g _) r fun _ he => writesPair_of he

theorem pred_done (d : Nat) (g : Nat → Bool) (r : Nat → Raised) :
    FpDone s i h r (WritesPred i d g (raisedBy i r).fl h)
      ((s.modMe fun a => (lanesOf i.lanes).foldl (fun a l => a.psetBit d l (g l)) a).fpFinish ((lanesOf i.lanes).map fun l => (l, r l))) :=
  fpFinish_done hi (registersOnly_psetBit d g _) r fun _ he => writesPred_of he

theorem fp32_done (d : Nat) (g : Nat → FRes) :
    FpDone s i h (fun l => (g l).r) (WritesVector i d (fun l => BitVec.ofNat 32 (g l).bits) (raisedBy i fun l => (g l).r).fl h) (s.fp32 d g) := by
  have hdone := vector_done hi d (fun l => BitVec.ofNat 32 (g l).bits) fun l => (g l).r
  unfold State.fp32 State.lanesFp raisedOf
  simp only [active_of hi, List.foldl_map, List.map_map]
  exact hdone

theorem fp64_done (d : Nat) (g : Nat → FRes) :
    FpDone s i h (fun l => (g l).r) (WritesPair i d (fun l => BitVec.ofNat 64 (g l).bits) (raisedBy i fun l => (g l).r).fl h) (s.fp64 d g) := by
  have hdone := pair_done hi d (fun l => BitVec.ofNat 64 (g l).bits) fun l => (g l).r
  unfold State.fp64 State.lanesFp raisedOf
  simp only [active_of hi, List.foldl_map, List.map_map]
  exact hdone

theorem fcmpP_done (d : Nat) (g : Nat → Bool × Raised) :
    FpDone s i h (fun l => (g l).2) (WritesPred i d (fun l => (g l).1) (raisedBy i fun l => (g l).2).fl h) (s.fcmpP d g) := by
  have hdone := pred_done hi d (fun l => (g l).1) fun l => (g l).2
  unfold State.fcmpP
  simp only [active_of hi, List.foldl_map, List.map_map]
  exact hdone

/-! ### Pending results that land at once (R257/12, log 14) -/

/-- With an enabled flag raised, a pending destination's values land before the completion. -/
theorem pendFp_of_not_quiet (r : Nat → Raised) (n : Nat) (p : Pending) (hq : ¬ Quiet h (raisedBy i r)) :
    s.pendFp ((lanesOf i.lanes).map fun l => (l, r l)) n p =
      (s.modMe fun g => (g.landVals p.vals).landScalar p.scalar).fpFinish ((lanesOf i.lanes).map fun l => (l, r l)) := by
  unfold State.pendFp
  simp only [raisedBy_eq, me_of hi]
  exact if_neg hq

end

end Sys2Proof.Machine
end
section
/-! SUPPORT. Reductions and scans: what `lred`, the scans and `tred` do with the lanes' contributions, and that the tree and the log steps of a sum
give the sum (R202, R203/09, R303/14). Settles O13 and O14. -/

namespace Sys2Proof.Machine

variable {s : State} {i : Issue} {h : Sheaf}

/-! ### Log steps and trees (R202, R203/09, R303/14) -/

/-- What each lane brings to a reduction or a scan: its value, or the identity where it is not active (R303/14). -/
def contributions (i : Issue) (h : Sheaf) (o : RedOp) (a : Nat) : List Word :=
  (List.range 64).map fun l => if i.lanes.getLsbD l then o.trim (h.vget l a) else o.ident

/-- What a scan writes in a lane, given what its steps leave in the lanes (R303/14). -/
def scanOut (o : RedOp) (excl : Bool) (ys : List Word) (l : Nat) : Word :=
  if excl then (if l = 0 then o.ident else o.canon (ys.getD (l - 1) 0)) else o.canon (ys.getD l 0)

section
variable (hi : s.Issuing i h)
include hi

theorem redLanes_of (o : RedOp) (a : Nat) : s.redLanes o a = contributions i h o a := by
  unfold State.redLanes State.redLane contributions
  simp only [active_of hi, me_of hi]

theorem forAll_of (x : Raised) : s.forAll x = (lanesOf i.lanes).map fun l => (l, x) := by
  unfold State.forAll
  rw [active_of hi]

/-- `lred` writes what its six steps leave in each lane (R203/09, R303/14). -/
theorem lred_done (o : RedOp) (d a : Nat) {y : List Word × Raised} (hy : y = redSteps (lredStep o) [32, 16, 8, 4, 2, 1] (contributions i h o a)) :
    FpDone s i h (fun _ => y.2) (WritesVector i d (fun l => y.1.getD l 0) (raisedBy i fun _ => y.2).fl h) (s.lred o d a) := by
  unfold State.lred
  rw [redLanes_of hi, ← hy]
  obtain ⟨ys, x⟩ := y
  simp only [forAll_of hi]
  exact vwrite_done hi d _ _

/-- A scan writes what its six steps leave in the lanes, moved up by one lane in an exclusive one (R303/14). -/
theorem scan_done (o : RedOp) (excl : Bool) (d a : Nat) {y : List Word × Raised}
    (hy : y = redSteps (scanStep o) [1, 2, 4, 8, 16, 32] (contributions i h o a)) :
    FpDone s i h (fun _ => y.2) (WritesVector i d (scanOut o excl y.1) (raisedBy i fun _ => y.2).fl h) (s.scan o excl d a) := by
  unfold State.scan
  rw [redLanes_of hi, ← hy]
  obtain ⟨ys, x⟩ := y
  simp only [forAll_of hi]
  exact vwrite_done hi d (scanOut o excl ys) _

/-- `tred` leaves the root of its tree pending in its scalar. -/
theorem tred_eq (o : RedOp) (d a n : Nat) {y : Word × Raised} (hy : y = treeRoot o 6 (contributions i h o a)) :
    s.tred o d a n = s.pendFp ((lanesOf i.lanes).map fun l => (l, y.2)) n
      { id := 0, pc := 0, lanes := i.lanes, scalar := some (d, o.widen y.1) } := by
  unfold State.tred
  rw [redLanes_of hi, ← hy]
  obtain ⟨x, r⟩ := y
  simp only [forAll_of hi, active_of hi]

/-- A `tred` that raises an enabled flag writes its scalar at once. -/
theorem tred_taken (o : RedOp) (d a n : Nat) {y : Word × Raised} (hy : y = treeRoot o 6 (contributions i h o a))
    (hq : ¬ Quiet h (raisedBy i fun _ => y.2)) :
    FpDone s i h (fun _ => y.2) (WritesScalarFp d (o.widen y.1) (raisedBy i fun _ => y.2).fl h) (s.tred o d a n) := by
  rw [tred_eq hi o d a n hy, pendFp_of_not_quiet hi (fun _ => y.2) n _ hq]
  exact fpFinish_done hi (registersOnly_sset d (o.widen y.1)) (fun _ => y.2) fun _ he => writesScalarFp_of he

end

/-- Settles O13: `lred` and the scans are six steps from the lanes' contributions, and then a completion. -/
theorem logReductionsAndScans : Obligations.LogReductionsAndScans := by
  unfold Obligations.LogReductionsAndScans
  refine fun s i h d a hi => ⟨fun p hp hq => ?lred, fun p hp hq => ?scan⟩
  case lred =>
    have hexec : exec p.1 s = .next (s.lred p.2 d a) := by fin_cases hp <;> rfl
    exact (lred_done hi p.2 d a rfl).quiet hexec hq
  case scan =>
    have hexec : exec p.1 s = .next (s.scan p.2.2 false d a) ∧ exec p.2.1 s = .next (s.scan p.2.2 true d a) := by
      fin_cases hp <;> exact ⟨rfl, rfl⟩
    exact ⟨(scan_done hi p.2.2 false d a rfl).quiet hexec.1 hq, (scan_done hi p.2.2 true d a rfl).quiet hexec.2 hq⟩

/-! ### Sums (R202, R203/09) -/

/-- A level of the tree of sums keeps the sum, halves the number of values, and raises nothing. -/
theorem treeLevel_addI32 : ∀ xs : List Word, (treeLevel .addI32 xs).2 = {} ∧ (treeLevel .addI32 xs).1.sum = xs.sum ∧
    (treeLevel .addI32 xs).1.length = (xs.length + 1) / 2
  | [] => ⟨rfl, rfl, rfl⟩
  | [x] => ⟨rfl, rfl, by simp [treeLevel]⟩
  | x :: y :: rest => by
    obtain ⟨hraised, hsum, hlength⟩ := treeLevel_addI32 rest
    refine ⟨by simp only [treeLevel, hraised]; rfl, ?_, ?_⟩
    · simp only [treeLevel, RedOp.node, List.sum_cons, hsum, add_assoc]
    · simp only [treeLevel, List.length_cons, hlength]
      omega

theorem treeRoot_addI32 (n : Nat) (xs : List Word) (hxs : xs.length ≤ 2 ^ n) : treeRoot .addI32 n xs = (xs.sum, {}) := by
  induction n generalizing xs with
  | zero =>
    match xs, hxs with
    | [], _ => rfl
    | [x], _ => simp [treeRoot]
  | succ n ih =>
    obtain ⟨hraised, hsum, hlength⟩ := treeLevel_addI32 xs
    have hhalf : (treeLevel .addI32 xs).1.length ≤ 2 ^ n := by rw [hlength]; omega
    simp only [treeRoot, ih _ hhalf, hraised, hsum]
    rfl

/-- The distances of the last n log steps, each half of the one before (R203/09). -/
def halvings : Nat → List Nat
  | 0 => []
  | n + 1 => 2 ^ n :: halvings n

/-- A lane and its partner at distance 2^n agree below bit n and differ in it. -/
theorem xor_two_pow_mod (l n : Nat) : (l ^^^ 2 ^ n) % 2 ^ (n + 1) = l % 2 ^ n + 2 ^ n * (!l.testBit n).toNat := by
  rw [Nat.mod_pow_succ, ← Nat.toNat_testBit, Nat.xor_mod_two_pow, Nat.mod_self, Nat.xor_zero, Nat.testBit_xor, Nat.testBit_two_pow_self,
    Bool.xor_true]

/-- One log step of a sum: where lane l held `z (l mod 2^(n+1))`, it then holds the sum of the two of them that its pair held. -/
theorem lredStep_addI32 {n : Nat} (hn : n < 6) {xs : List Word} {z : Nat → Word} (hxs : ∀ l, l < 64 → xs.getD l 0 = z (l % 2 ^ (n + 1)))
    {l : Nat} (hl : l < 64) : (lredStep .addI32 (2 ^ n) xs l).1 = z (l % 2 ^ n) + z (2 ^ n + l % 2 ^ n) := by
  have hpartner : l ^^^ 2 ^ n < 2 ^ 6 := Nat.xor_lt_two_pow hl (Nat.pow_lt_pow_right (by decide) hn)
  have hpair : (lredStep .addI32 (2 ^ n) xs l).1 = xs.getD l 0 + xs.getD (l ^^^ 2 ^ n) 0 := by
    simp only [lredStep, RedOp.node]
    rcases Nat.le_total l (l ^^^ 2 ^ n) with hle | hle
    · rw [Nat.min_eq_left hle, Nat.max_eq_right hle]
    · rw [Nat.min_eq_right hle, Nat.max_eq_left hle, BitVec.add_comm]
  rw [hpair, hxs l hl, hxs _ hpartner, xor_two_pow_mod, Nat.mod_pow_succ, ← Nat.toNat_testBit]
  cases l.testBit n
  · simp [Nat.add_comm]
  · simp [Nat.add_comm, BitVec.add_comm]

/-- After the last n log steps of a sum every lane holds the sum of the 2^n values that the lanes held. -/
theorem redSteps_lred_addI32 (n : Nat) (hn : n ≤ 6) (xs : List Word) (z : Nat → Word) (hxs : ∀ l, l < 64 → xs.getD l 0 = z (l % 2 ^ n))
    (l : Nat) (hl : l < 64) : (redSteps (lredStep .addI32) (halvings n) xs).1.getD l 0 = ((List.range (2 ^ n)).map z).sum := by
  induction n generalizing xs z with
  | zero =>
    have hz : xs.getD l 0 = z 0 := by rw [hxs l hl, Nat.pow_zero, Nat.mod_one]
    simpa [halvings, redSteps] using hz
  | succ n ih =>
    have hstep := ih (by omega) (redStep (lredStep .addI32 (2 ^ n)) xs).1 (fun m => z m + z (2 ^ n + m)) fun l hl => by
      rw [← lredStep_addI32 hn hxs hl]
      simp [redStep, hl]
    rw [halvings, redSteps]
    refine hstep.trans ?_
    rw [Nat.pow_succ, Nat.mul_two, List.range_add, List.map_append, List.sum_append, List.map_map, List.sum_map_add]
    rfl

/-- Settles O14: a `tred` is a pending scalar; levels of the tree, and log steps, keep the sum. -/
theorem treeReductions : Obligations.TreeReductions := by
  unfold Obligations.TreeReductions
  refine ⟨fun s i h d a n hi p hp hq => ?pending, fun xs hxs => ⟨?tree, fun l hl => ?steps⟩⟩
  case pending =>
    have hexec : exec p.1 s = .next (s.tred p.2 d a n) := by fin_cases hp <;> rfl
    obtain ⟨h', hc, hp⟩ := pendFp_spec hi _ n _ hq
    exact ⟨_, h', hexec.trans (congrArg _ (tred_eq hi p.2 d a n rfl)), hc, hp⟩
  case tree => rw [treeRoot_addI32 6 xs (by omega), List.sum_eq_foldl]
  case steps =>
    have hsum := redSteps_lred_addI32 6 (Nat.le_refl 6) xs (fun m => xs.getD m 0)
      (fun l hl => by rw [Nat.mod_eq_of_lt (show l < 2 ^ 6 from hl)]) l hl
    have hall : (List.range (2 ^ 6)).map (fun m => xs.getD m 0) = xs := by
      refine List.ext_getElem (by simp [hxs]) fun k hk hk' => by simp [hk']
    rw [hall, List.sum_eq_foldl] at hsum
    exact hsum

end Sys2Proof.Machine
end
section
/-! SUPPORT. Each floating-point form as one of the shared completions, and the FPX that follows an enabled flag (R198/09, R288 to R303/14). Settles
O7. -/

namespace Sys2Proof.Machine

variable {s : State} {i : Issue} {h : Sheaf}

section
variable (hi : s.Issuing i h)
include hi

theorem fbin_eq (F : Fmt) (op : FOp) (vs : Bool) (d a b : Nat) : s.fbin F op vs d a b = s.fp32 d fun l =>
    fop F op h.mode h.ftz (F.code (h.vget l a).toNat) (F.code (s.opB h vs l b).toNat) (F.code (h.vget l d).toNat) := by
  unfold State.fbin; rw [me_of hi]

theorem fbin64_eq (op : FOp) (vs : Bool) (d a b : Nat) : s.fbin64 op vs d a b = s.fp64 d fun l =>
    fop .f64 op h.mode h.ftz (h.vget64 l a).toNat (s.opB64 h vs l b).toNat (h.vget64 l d).toNat := by
  unfold State.fbin64; rw [me_of hi]

theorem fun32_eq (F : Fmt) (op : FUn) (d a : Nat) :
    s.fun32 F op d a = s.fp32 d fun l => fun1 F op h.mode h.ftz (F.code (h.vget l a).toNat) := by
  unfold State.fun32; rw [me_of hi]

theorem fcmp32_eq (F : Fmt) (rel : FRel) (vs : Bool) (d a b : Nat) : s.fcmp32 F rel vs d a b =
    s.fcmpP d fun l => fcmp F rel h.ftz (F.code (h.vget l a).toNat) (F.code (s.opB h vs l b).toNat) := by
  unfold State.fcmp32; rw [me_of hi]

theorem fcmp64_eq (rel : FRel) (vs : Bool) (d a b : Nat) : s.fcmp64 rel vs d a b =
    s.fcmpP d fun l => fcmp .f64 rel h.ftz (h.vget64 l a).toNat (s.opB64 h vs l b).toNat := by
  unfold State.fcmp64; rw [me_of hi]

theorem upkE2m1_eq (d a b : Nat) : exec (.upkE2m1 d a b) s = .next (s.fp32 d fun l => upkLane h.mode l (h.vget l a) (h.vget l b)) := by
  show execUpkE2m1 d a b s = _
  rw [execUpkE2m1, me_of hi]

theorem scaccF32_eq (d a b : Nat) :
    exec (.scaccF32 d a b) s = .next (s.fp32 d fun l => scaccLane h.mode h.ftz (h.vget l d) (h.vget l a) (h.vget l b)) := by
  show execScaccF32 d a b s = _
  rw [execScaccF32, me_of hi]

theorem pkE2m1_eq (d a b : Nat) : exec (.pkE2m1 d a b) s =
    .next ((s.vwrite d fun l => pkWord ((lanesOf i.lanes).map fun k => (k, pkLane h.mode (h.vget k a) (h.vget k b))) (l / 8)).fpFinish
      ((lanesOf i.lanes).map fun l => (l, (pkLane h.mode (h.vget l a) (h.vget l b)).r))) := by
  show execPkE2m1 d a b s = _
  simp only [execPkE2m1, State.lanesFp, raisedOf, active_of hi, me_of hi, List.map_map]
  rfl

/-- `cvt`, by whether its destination type takes a pair (R295/14). -/
theorem cvt_eq (d a : Nat) (x y : ElemType) (m : Rounding) (R : Nat → Dword × Raised)
    (hR : R = fun l => cvtVal x y (roundMode m h.mode) h.ftz (if wideElem x then h.vget64 l a else (h.vget l a).setWidth 64)) :
    exec (.cvt d a x m y) s = .next ((s.modMe fun g => (lanesOf i.lanes).foldl
      (fun g l => if wideElem y then g.vset64 l d (R l).1 else g.vset l d ((R l).1.setWidth 32)) g).fpFinish
      ((lanesOf i.lanes).map fun l => (l, (R l).2))) := by
  subst hR
  show execCvt d a x m y s = _
  simp only [execCvt, active_of hi, me_of hi, List.foldl_map, List.map_map]
  rfl

/-- A transcendental leaves its results pending in the active lanes (R291/14). -/
theorem transOp_eq (fn : Trans) (d n : Nat) (x : Nat → Word) {R : Nat → FRes} (hR : R = fun l => trans fn h.mode h.ftz (x l).toNat) :
    s.transOp fn d n x = s.pendFp ((lanesOf i.lanes).map fun l => (l, (R l).r)) n
      { id := 0, pc := 0, lanes := i.lanes, regs := [h.wb + d]
        vals := (lanesOf i.lanes).map fun l => (l, h.wb + d, BitVec.ofNat 32 (R l).bits) } := by
  subst hR
  simp only [State.transOp, State.lanesFp, raisedOf, active_of hi, me_of hi, List.map_map]
  rfl

end

/-- Values that land in one register of the issue's window are a vector written. -/
theorem landVals_eq (h : Sheaf) (d : Nat) (g : Nat → Word) (ls : List Nat) :
    h.landVals (ls.map fun l => (l, h.wb + d, g l)) = ls.foldl (fun a l => a.vset l d (g l)) h := by
  unfold Sheaf.landVals
  rw [List.foldl_map]
  induction ls generalizing h with
  | nil => rfl
  | cons l ls ih => exact ih (h.vset l d (g l))

theorem landVals_frame (h : Sheaf) (vals : List (Nat × Nat × Word)) : ({ h.landVals vals with v := h.v } : Sheaf) = h :=
  foldl_keep (fun (a : Sheaf) (x : Nat × Nat × Word) => a.setVirt x.1 x.2.1 x.2.2)
    (fun a : Sheaf => ({ a with v := h.v } : Sheaf)) (fun _ _ => rfl) vals h

/-- A transcendental that raises an enabled flag writes its results at once. -/
theorem transOp_taken (hi : s.Issuing i h) (fn : Trans) (d n : Nat) (x : Nat → Word) {R : Nat → FRes}
    (hR : R = fun l => trans fn h.mode h.ftz (x l).toNat) (hq : ¬ Quiet h (raisedBy i fun l => (R l).r)) :
    FpDone s i h (fun l => (R l).r) (WritesVector i d (fun l => BitVec.ofNat 32 (R l).bits) (raisedBy i fun l => (R l).r).fl h)
      (s.transOp fn d n x) := by
  rw [transOp_eq hi fn d n x hR, pendFp_of_not_quiet hi (fun l => (R l).r) n _ hq]
  refine fpFinish_done hi (fun a => ?registers) (fun l => (R l).r) fun h' he => writesVector_of ?written
  case registers => exact congrArg (fun g : Sheaf => ({ g with s := a.s, p := a.p } : Sheaf)) (landVals_frame a _)
  case written => exact he.trans (congrArg (Sheaf.raise · _) (landVals_eq h d _ _))

/-- Settles O7: whatever form raises an enabled flag, its write is followed by the one completion, which takes FPX. -/
theorem floatExceptionTaken : Obligations.FloatExceptionTaken := by
  unfold Obligations.FloatExceptionTaken
  refine ⟨fun s i h d a b hi p hp q hq hr => ?binary, fun s i h d a b hi p hp q hq hr => ?binary64, fun s i h d a hi p hp hr => ?unary,
    fun s i h d a b hi => ⟨fun p hp q hq hr => ?comparison, fun p hp q hq hr => ?comparison64⟩, fun s i h d a x y m hi hr => ?conversion,
    fun s i h d a b hi => ⟨fun hr => ?packing, fun p hp hr => ?block⟩,
    fun s i h d a hi => ⟨fun p hp hr => ?lred, fun p hp hr => ?scan⟩, fun s i h d a n hi p hp q hq hr => ?transcendental,
    fun s i h d a n hi p hp hr => ?tred⟩
  case binary =>
    have hexec : exec p.1 s = .next (s.fbin p.2.2.1 p.2.2.2 false d a b) ∧ exec p.2.1 s = .next (s.fbin p.2.2.1 p.2.2.2 true d a b) := by
      fin_cases hp <;> exact ⟨rfl, rfl⟩
    rw [fbin_eq hi, fbin_eq hi] at hexec
    rcases List.mem_pair.mp hq with rfl | rfl
    · exact (fp32_done hi d _).taken hexec.1 hr
    · exact (fp32_done hi d _).taken hexec.2 hr
  case binary64 =>
    have hexec : exec p.1 s = .next (s.fbin64 p.2.2 false d a b) ∧ exec p.2.1 s = .next (s.fbin64 p.2.2 true d a b) := by
      fin_cases hp <;> exact ⟨rfl, rfl⟩
    rw [fbin64_eq hi, fbin64_eq hi] at hexec
    rcases List.mem_pair.mp hq with rfl | rfl
    · exact (fp64_done hi d _).taken hexec.1 hr
    · exact (fp64_done hi d _).taken hexec.2 hr
  case unary =>
    have hexec : exec p.1 s = .next (s.fun32 p.2.1 p.2.2 d a) := by fin_cases hp; rfl
    rw [fun32_eq hi] at hexec
    exact (fp32_done hi d _).taken hexec hr
  case comparison =>
    have hexec : exec p.1 s = .next (s.fcmp32 p.2.2.1 p.2.2.2 false d a b) ∧ exec p.2.1 s = .next (s.fcmp32 p.2.2.1 p.2.2.2 true d a b) := by
      fin_cases hp <;> exact ⟨rfl, rfl⟩
    rw [fcmp32_eq hi, fcmp32_eq hi] at hexec
    rcases List.mem_pair.mp hq with rfl | rfl
    · exact (fcmpP_done hi d _).taken hexec.1 hr
    · exact (fcmpP_done hi d _).taken hexec.2 hr
  case comparison64 =>
    have hexec : exec p.1 s = .next (s.fcmp64 p.2.2 false d a b) ∧ exec p.2.1 s = .next (s.fcmp64 p.2.2 true d a b) := by
      fin_cases hp <;> exact ⟨rfl, rfl⟩
    rw [fcmp64_eq hi, fcmp64_eq hi] at hexec
    rcases List.mem_pair.mp hq with rfl | rfl
    · exact (fcmpP_done hi d _).taken hexec.1 hr
    · exact (fcmpP_done hi d _).taken hexec.2 hr
  case conversion =>
    have hexec := cvt_eq hi d a x y m _ rfl
    cases hy : wideElem y
    case true =>
      simp only [hy, if_true] at hexec ⊢
      exact (pair_done hi d _ _).taken hexec hr
    case false =>
      simp only [hy, if_false, Bool.false_eq_true] at hexec ⊢
      exact (vector_done hi d _ _).taken hexec hr
  case packing => exact (vwrite_done hi d _ _).taken (pkE2m1_eq hi d a b) hr
  case block =>
    rcases List.mem_pair.mp hp with rfl | rfl
    · exact (fp32_done hi d _).taken (upkE2m1_eq hi d a b) hr
    · exact (fp32_done hi d _).taken (scaccF32_eq hi d a b) hr
  case lred =>
    have hexec : exec p.1 s = .next (s.lred p.2 d a) := by fin_cases hp <;> rfl
    exact (lred_done hi p.2 d a rfl).taken hexec hr
  case scan =>
    have hexec : exec p.1 s = .next (s.scan p.2.2 false d a) ∧ exec p.2.1 s = .next (s.scan p.2.2 true d a) := by
      fin_cases hp <;> exact ⟨rfl, rfl⟩
    exact ⟨(scan_done hi p.2.2 false d a rfl).taken hexec.1 hr, (scan_done hi p.2.2 true d a rfl).taken hexec.2 hr⟩
  case transcendental =>
    have hexec : exec q.1 s = .next (s.transOp p.2.2 d n q.2) := by
      have hboth : exec p.1 s = .next (s.transOp p.2.2 d n fun l => s.me.vget l a) ∧
          exec p.2.1 s = .next (s.transOp p.2.2 d n fun _ => (s.src a).setWidth 32) := by fin_cases hp <;> exact ⟨rfl, rfl⟩
      rw [me_of hi, src_of hi] at hboth
      rcases List.mem_pair.mp hq with rfl | rfl
      · exact hboth.1
      · exact hboth.2
    exact (transOp_taken hi p.2.2 d n q.2 rfl hr).taken hexec hr
  case tred =>
    have hexec : exec p.1 s = .next (s.tred p.2 d a n) := by fin_cases hp <;> rfl
    exact (tred_taken hi p.2 d a n rfl hr).taken hexec hr

end Sys2Proof.Machine
end

section
/-! SUPPORT. Remote stores: what the checks of their lanes leave, and what `rst` makes of the machine, by the outcome of the checks
(R210, R224/10, R373/18). Settles O33. -/

namespace Sys2Proof.Machine

variable {s t : State} {i : Issue} {h : Sheaf}

/-! ### The checks of the lanes -/

theorem onlyCaches_rstCheck (s : State) (h : Sheaf) (a : Dword) (size : Nat) : OnlyCaches s (s.rstCheck h a size).2 := by
  have hwalk := onlyCaches_xlateHere s h.core h.ctx .store a.toNat
  unfold State.rstCheck
  simp only
  split
  · exact onlyCaches_refl s
  · split
    · exact onlyCaches_refl s
    · split
      · exact onlyCaches_refl s
      · split
        · exact onlyCaches_refl s
        · split
          · exact onlyCaches_refl s
          · generalize s.xlateHere h.core h.ctx .store a.toNat = r at hwalk
            obtain ⟨_ | _, u⟩ := r
            · exact onlyCaches_refl s
            · exact hwalk

theorem onlyCaches_rstLanes (s : State) (size : Nat) (addr : Nat → Dword) (ls : List Nat) : OnlyCaches s (s.rstLanes size addr ls).2 := by
  induction ls generalizing s with
  | nil => exact onlyCaches_refl s
  | cons l ls ih =>
    have hl := onlyCaches_rstCheck s s.me (addr l) size
    unfold State.rstLanes
    generalize s.rstCheck s.me (addr l) size = r at hl
    obtain ⟨_ | _, u⟩ := r
    · exact onlyCaches_trans hl (ih u)
    · exact onlyCaches_trans hl (ih u)

/-- A lane's fault makes the issue trap, by the winning cause (R227/11). -/
theorem trapLanes_of_ne_nil (hi : s.Issuing i h) {fs : List LaneFault} (hf : fs ≠ []) :
    ∃ cause lanes a, winning fs = some (cause, lanes, a) ∧ s.trapLanes fs = some (s.takeTrap i.sheaf cause 0 a lanes i.pc none) := by
  obtain ⟨f, fs, rfl⟩ := List.exists_cons_of_ne_nil hf
  exact ⟨_, _, _, rfl, by unfold State.trapLanes; rw [hi.1]; rfl⟩

/-! ### What `rst` does, by case -/

/-- Stores in flight are added, and counted against a launch; each lane has a number of its own for its acknowledgement. -/
def State.sendRsts (s : State) (launch : Nat) (new : List RemoteStore) : State :=
  { s.modLaunch launch fun k => { k with rstsOut := k.rstsOut + new.length } with rsts := s.rsts ++ new, nextId := s.nextId + 64 }

/-- The entries of the lanes that passed. -/
def State.newRsts (s : State) (i : Issue) (h : Sheaf) (w : Width) (A : Nat → Dword) (d : Nat) (ok : List (Nat × Nat × Bool)) : List RemoteStore :=
  ok.map fun y => ⟨h.id, y.1, h.launch, h.ctx, h.core, h.rev, (A y.1).toNat, y.2.1, h.storeBytes w y.1 d, i.pc, y.2.2, s.nextId + y.1⟩

theorem exec_rst_waits (d a n : Nat) (w : Width) (hw : s.orderWait? true false = some t) : exec (.rst d a w n) s = .next t := by
  show execRst d a w n s = _
  simp only [execRst, hw]

section
variable (hi : s.Issuing i h) (d a n : Nat) (w : Width) (hw : s.orderWait? true false = none)
  {A : Nat → Dword} (hA : A = fun l => h.vget64 l a) {r : (List (Nat × Nat × Bool) × List LaneFault) × State}
  (hr : r = s.rstLanes w.bytes A (lanesOf i.lanes))
include hi hw hA hr

/-- Once nothing holds it back, `rst` is its checks and what follows from them. -/
theorem exec_rst_checks : exec (.rst d a w n) s =
    match r.2.trapLanes (r.1.2 ++ r.2.watchLanes .store .gl w.bytes A) with
    | some t => .next t
    | none =>
      match r.2.behindLoad .gl w.bytes A (r.1.1.map fun y => y.1) with
      | some q => .next (r.2.dependOnFault q)
      | none => .next (r.2.sendRsts h.launch (r.2.newRsts i h w A d r.1.1)).retire := by
  have hcaches := onlyCaches_rstLanes s w.bytes A (lanesOf i.lanes)
  subst hA hr
  show execRst d a w n s = _
  simp only [execRst, hw, me_of hi, active_of hi, issuePc_of (onlyCaches_issuing hcaches hi)]
  rfl

end

/-- Settles O33: the checks of the lanes change caches alone, and their outcome decides between the trap, the load to wait for and the stores. -/
theorem remoteStores : Obligations.RemoteStores := by
  unfold Obligations.RemoteStores
  intro s i h d a n w hi A r bad
  refine ⟨fun t => exec_rst_waits d a n w, fun hw => ?_⟩
  have hcaches : OnlyCaches s r.2 := onlyCaches_rstLanes s w.bytes A (lanesOf i.lanes)
  have hi' : r.2.Issuing i h := onlyCaches_issuing hcaches hi
  have hexec := exec_rst_checks hi d a n w hw (A := A) rfl (r := r) rfl
  refine ⟨fun q hbad hq => ?behind, fun hbad hq => ?sends, fun hbad => ?traps⟩
  case behind => rw [hexec, show r.1.2 ++ r.2.watchLanes .store .gl w.bytes A = [] from hbad, trapLanes_nil, hq]
  case sends =>
    rw [hexec, show r.1.2 ++ r.2.watchLanes .store .gl w.bytes A = [] from hbad, trapLanes_nil, hq]
    obtain ⟨h', ⟨hfound, ⟨hout, -⟩, hmoved, -⟩, honly⟩ := retire_completed (h := h) (u := r.2.sendRsts h.launch (r.2.newRsts i h w A d r.1.1))
      ⟨hi'.1, hi'.2⟩ (sameBut_refl i.sheaf _) rfl rfl
    refine ⟨_, h', rfl, hfound, hmoved, honly, ?rsts, ?nextId, ?mem, ?teams, fun l hl => ?launch⟩
    case rsts =>
      have hrsts : r.2.rsts = s.rsts := (congrArg State.rsts hcaches.1 :)
      have hnext : r.2.nextId = s.nextId := (congrArg State.nextId hcaches.1 :)
      rw [← hrsts, ← hnext]
      exact (congrArg State.rsts hout :)
    case nextId => exact (congrArg State.nextId hout :).trans (congrArg (State.nextId · + 64) hcaches.1 :)
    case mem => exact (congrArg State.mem hout :).trans (congrArg State.mem hcaches.1 :)
    case teams => exact (congrArg State.teams hout :).trans (congrArg State.teams hcaches.1 :)
    case launch =>
      have hlaunches : r.2.launch? h.launch = some l := (launch?_congr (congrArg State.launches hcaches.1 :) h.launch).trans hl
      have hcounted := launch?_modLaunch r.2 h.launch (fun k => { k with rstsOut := k.rstsOut + (r.2.newRsts i h w A d r.1.1).length }) fun _ e => e
      rw [hlaunches] at hcounted
      exact ⟨_, (launch?_congr (congrArg State.launches hout :) h.launch).trans hcounted, congrArg (l.rstsOut + ·) (List.length_map _)⟩
  case traps =>
    obtain ⟨cause, lanes, x, hwins, htrap⟩ := trapLanes_of_ne_nil hi' hbad
    exact ⟨cause, lanes, x, hwins, by rw [hexec, htrap]⟩

end Sys2Proof.Machine
end

section
/-! SUPPORT. Engine jobs: reads of the jobs after a change, what the end of a job leaves, and what an engine's accesses leave as it was
(R147/06, R218/10, R322/15). Settles O53, with the parts that follow. -/

namespace Sys2Proof.Machine

variable {s t u : State} {j : Job}

/-! ### Reads of the jobs -/

theorem job?_id {n : Nat} (hj : s.job? n = some j) : j.id = n := by simpa using List.find?_some hj

theorem job?_congr (hjobs : t.jobs = s.jobs) (n : Nat) : t.job? n = s.job? n := by
  unfold State.job?
  rw [hjobs]

/-- What a change of one job does to its reading. -/
theorem job?_modJob (s : State) (k : Nat) (f : Job → Job) (hf : ∀ x, x.id = k → (f x).id = k) :
    (s.modJob k f).job? k = (s.job? k).map f := find?_map_key Job.id k f hf s.jobs

/-- No job has the number. -/
def State.jobGone (s : State) (n : Nat) : Prop := ∀ x ∈ s.jobs, x.id ≠ n

/-! ### A write of global memory -/

/-- The machine but for what a write of global memory changes: memory, copies of peer lines, revisions. -/
def State.butGlobal (s : State) : State := { s with mem := [], l2peer := [], ctxs := [] }

theorem homeWrite_butGlobal (s : State) (hpa : Nat) (bs : List Byte) (sys : Bool) : (s.homeWrite hpa bs sys).butGlobal = s.butGlobal := by
  unfold State.homeWrite
  simp only
  split
  · rfl
  · split <;> rfl

theorem putGuest_butGlobal (bs : List Byte) (s : State) (ctx gpa : Nat) : (s.putGuest ctx gpa bs).butGlobal = s.butGlobal := by
  induction bs generalizing s gpa with
  | nil => rfl
  | cons b bs ih =>
    unfold State.putGuest
    rw [ih]
    split <;> rfl

theorem retain_butGlobal (s : State) (ctx id vline hline : Nat) (data : List Byte) :
    (s.retain ctx id vline hline data).butGlobal = s.butGlobal := by
  unfold State.retain
  simp only
  split
  · exact putGuest_butGlobal _ s _ _
  · rfl

theorem retainFor_butGlobal (s : State) (ctx rev vline hline : Nat) : (s.retainFor ctx rev vline hline).butGlobal = s.butGlobal :=
  foldl_keep _ State.butGlobal (fun _ _ => retain_butGlobal _ _ _ _ _ _) _ s

theorem glWrite_butGlobal (s : State) (ctx rev va hpa : Nat) (bs : List Byte) (sys : Bool) :
    (s.glWrite ctx rev va hpa bs sys).butGlobal = s.butGlobal := by
  unfold State.glWrite
  split
  · exact homeWrite_butGlobal s hpa bs sys
  · simp only
    split
    · rw [homeWrite_butGlobal, retainFor_butGlobal]
    · exact retainFor_butGlobal s ctx rev (lineOf va) (lineOf hpa)

/-! ### What an engine's accesses leave -/

/-- A team but for the bytes of its scratch. -/
def Team.bare (t : Team) : Team := { t with mem := [] }

/-- The jobs, and the peers that have failed. -/
def State.roster (s : State) : List Job × List Nat := (s.jobs, s.peersDown)

/-- What an engine's accesses leave: the jobs and the failed peers, the headers held, and the teams but for their bytes. -/
def State.bench (s : State) : (List Job × List Nat) × List Stream × List Team := (s.roster, s.exHeaders, s.teams.map Team.bare)

theorem bench_of_butGlobal (h : t.butGlobal = s.butGlobal) : t.bench = s.bench := (congrArg State.bench h :)

theorem bench_of_onlyCaches (h : OnlyCaches s t) : t.bench = s.bench := (congrArg State.bench h.1 :)

theorem modTeam_bench (s : State) (y : Nat) (f : Team → Team) (hf : ∀ x, (f x).bare = x.bare) : (s.modTeam y f).bench = s.bench := by
  have hteams : (s.modTeam y f).teams.map Team.bare = s.teams.map Team.bare := by
    unfold State.modTeam
    rw [List.map_map]
    refine List.map_congr_left fun x _ => ?_
    by_cases hx : x.id = y <;> simp [hx, hf]
  exact congrArg (fun ts => (s.roster, s.exHeaders, ts)) hteams

theorem roster_of_bench (h : t.bench = s.bench) : t.roster = s.roster := congrArg (fun b => b.1) h

theorem jobs_of_bench (h : t.bench = s.bench) : t.jobs = s.jobs := congrArg (fun b => b.1.1) h

theorem exHeaders_of_bench (h : t.bench = s.bench) : t.exHeaders = s.exHeaders := congrArg (fun b => b.2.1) h

/-- Teams that differ in their bytes alone are found under the same numbers. -/
theorem team?_bare_of_bench (h : t.bench = s.bench) (n : Nat) : (t.team? n).map Team.bare = (s.team? n).map Team.bare := by
  have hfound : ∀ u : State, (u.team? n).map Team.bare = (u.teams.map Team.bare).find? fun x => x.id == n := fun u =>
    (find?_map_keep Team.bare (fun x => x.id == n) (fun _ => rfl) u.teams).symm
  rw [hfound, hfound]
  exact congrArg (fun b : (List Job × List Nat) × List Stream × List Team => b.2.2.find? fun x => x.id == n) h

theorem team?_of_bench (h : t.bench = s.bench) {n : Nat} {tm : Team} (ht : s.team? n = some tm) :
    ∃ tm', t.team? n = some tm' ∧ tm'.bare = tm.bare := by
  have hbare := team?_bare_of_bench h n
  rw [ht] at hbare
  exact Option.map_eq_some_iff.mp hbare

/-- An engine's access names no place in any state, or is that of the job's party in a space (R218/10, R320/15). -/
theorem engineAt_cases (j : Job) (k : AccKind) (word : Nat) (off : Int) (n : Nat) :
    (∀ s : State, s.engineAt j k word off n = (.error .space, s)) ∨
      ∃ space a lane, ∀ s : State, s.engineAt j k word off n = s.resolve (s.jobParty j) k space a n lane := by
  have same : ∀ r : Except Cause Target × State,
      (match r with | (.error c, s) => (Except.error c, s) | (.ok t, s) => (.ok t, s) : Except Cause Target × State) = r := by
    rintro ⟨_ | _, _⟩ <;> rfl
  unfold State.engineAt
  cases hspace : spaceOf (word / 2 ^ 60) with
  | none => exact .inl fun s => rfl
  | some space =>
    simp only
    generalize (((word % 2 ^ 56 : Nat) : Int) + off) = a
    by_cases hout : a < 0 ∨ ((2 ^ 56 : Nat) : Int) ≤ a
    · exact .inl fun s => if_pos hout
    · by_cases hlane : 64 ≤ (if space = .ln then a.toNat / 1024 else 0) ∨ (space = .ln ∧ j.poster = none)
      · exact .inl fun s => by rw [if_neg hout, if_pos hlane]
      · exact .inr ⟨space, _, _, fun s => by rw [if_neg hout, if_neg hlane]; exact same _⟩

theorem onlyCaches_engineAt (s : State) (j : Job) (k : AccKind) (word : Nat) (off : Int) (n : Nat) : OnlyCaches s (s.engineAt j k word off n).2 := by
  rcases engineAt_cases j k word off n with hfails | ⟨space, a, lane, hat⟩
  · rw [hfails]
    exact onlyCaches_refl s
  · rw [hat]
    exact onlyCaches_resolve ..

theorem onlyCaches_engineRead (s : State) (j : Job) (x : Target) (n : Nat) : OnlyCaches s (s.engineRead j x n).2 := by
  unfold State.engineRead
  split
  · exact onlyCaches_glRead ..
  · exact onlyCaches_readTarget ..

theorem engineWrite_bench (s : State) (j : Job) (x : Target) (bs : List Byte) : (s.engineWrite j x bs).bench = s.bench := by
  unfold State.engineWrite
  split
  · exact bench_of_butGlobal (glWrite_butGlobal ..)
  · next hx =>
    cases x with
    | slice l off => rfl
    | team y b => exact modTeam_bench s y _ fun _ => rfl
    | acc a => rfl
    | host va hpa =>
      cases va with
      | none => exact bench_of_butGlobal (homeWrite_butGlobal s hpa bs false)
      | some va => exact absurd rfl (hx va hpa)

theorem enginePut_bench (j : Job) (word g : Nat) (ps : List (List Byte)) (s : State) (off : Nat) :
    (s.enginePut j word g ps off).bench = s.bench := by
  induction ps generalizing s off with
  | nil => rfl
  | cons bs ps ih =>
    have hat := bench_of_onlyCaches (onlyCaches_engineAt s j .store word off g)
    unfold State.enginePut
    generalize s.engineAt j .store word off g = r at hat
    obtain ⟨_ | x, v⟩ := r
    · exact (ih v _).trans hat
    · exact (ih _ _).trans ((engineWrite_bench v j x bs).trans hat)

theorem copyElems_bench (j : Job) (T : Tile) (es : List Nat) (s : State) : (s.copyElems j T es).bench = s.bench := by
  induction es generalizing s with
  | nil => rfl
  | cons e es ih =>
    have hload := bench_of_onlyCaches (onlyCaches_engineAt s j .load T.src (T.offsets e).1 (2 ^ T.log))
    unfold State.copyElems
    simp only
    generalize s.engineAt j .load T.src (T.offsets e).1 (2 ^ T.log) = r at hload
    obtain ⟨_ | x, v⟩ := r
    · exact (ih v).trans hload
    · have hread := bench_of_onlyCaches (onlyCaches_engineRead v j x (2 ^ T.log))
      simp only
      generalize v.engineRead j x (2 ^ T.log) = q at hread
      obtain ⟨bs, w⟩ := q
      have hstore := bench_of_onlyCaches (onlyCaches_engineAt w j .store T.dst (T.offsets e).2 (2 ^ T.log))
      simp only
      generalize w.engineAt j .store T.dst (T.offsets e).2 (2 ^ T.log) = p at hstore
      obtain ⟨_ | z, w'⟩ := p
      · exact (ih w').trans (hstore.trans (hread.trans hload))
      · exact (ih _).trans ((engineWrite_bench w' j z bs).trans (hstore.trans (hread.trans hload)))

/-! ### The end of a job -/

/-- The jobs but for those of a number, and the peers that have failed. -/
def State.rosterBut (s : State) (n : Nat) : List Job × List Nat := (s.jobs.filter fun x => !(x.id == n), s.peersDown)

theorem rosterBut_congr (h : t.roster = s.roster) (n : Nat) : t.rosterBut n = s.rosterBut n := by
  obtain ⟨hjobs, hdown⟩ := Prod.mk.inj h
  unfold State.rosterBut
  rw [hjobs, hdown]

theorem report_roster (s : State) (ctx cause byte3 addr : Nat) (detail : List Byte) : (s.report ctx cause byte3 addr detail).roster = s.roster := by
  unfold State.report
  simp only
  split
  · split <;> rfl
  · rfl

theorem engineUncorr_roster (s : State) (j : Job) (c : Cause) (addr : Nat) : (s.engineUncorr j c addr).roster = s.roster := by
  unfold State.engineUncorr
  split
  · exact report_roster s _ _ _ _ _
  · rfl

theorem jobErrorAt_roster (s : State) (j : Job) : (s.jobErrorAt j).roster = s.roster := by
  unfold State.jobErrorAt
  split <;> rfl

theorem setChunk_roster (s : State) (j : Job) (i : Nat) : (s.setChunk j i).roster = s.roster := by
  unfold State.setChunk
  split <;> rfl

theorem credit_roster (s : State) (team n reach : Nat) : (s.credit team n reach).1.roster = s.roster := by
  unfold State.credit
  split <;> rfl

/-- The job alone leaves its queue (R147/06). -/
theorem completeJob_roster (s : State) (j : Job) : (s.completeJob j).roster = s.rosterBut j.id := by
  unfold State.completeJob
  simp only
  split <;> rfl

theorem releaseFailed_roster (s : State) (j : Job) : (s.releaseFailed j).roster = s.rosterBut j.id := by
  unfold State.releaseFailed
  simp only
  rw [completeJob_roster]
  refine rosterBut_congr ?_ j.id
  split
  · exact foldl_keep _ State.roster (fun v i => by split; exacts [rfl, setChunk_roster v j i]) _ s
  · split
    · exact credit_roster s _ _ _
    · rfl
  · rfl

/-- A job that fails leaves its queue, and no other does (R322/15). -/
theorem failCode_roster (s : State) (j : Job) (code : Nat) : (s.failCode j code).roster = s.rosterBut j.id := by
  have hreplay : (if 0 < j.replays then s.reportReplay j else s).roster = s.roster := by
    split
    · exact report_roster s _ _ _ _ _
    · rfl
  unfold State.failCode
  simp only
  rw [releaseFailed_roster]
  exact rosterBut_congr ((jobErrorAt_roster _ j).trans ((report_roster _ _ _ _ _ _).trans hreplay)) j.id

theorem failExchange_roster (s : State) (j : Job) (code : Nat) : (s.failExchange j code).roster = s.rosterBut j.id := by
  unfold State.failExchange
  simp only
  rw [failCode_roster]
  refine rosterBut_congr ((foldl_keep _ State.roster (fun v i => ?_) _ _).trans rfl) j.id
  split
  · rfl
  · exact roster_of_bench (enginePut_bench j _ _ _ v _)

theorem jobGone_of_roster {n : Nat} (h : t.roster = s.rosterBut n) : t.jobGone n := by
  have hjobs : t.jobs = s.jobs.filter fun x => !(x.id == n) := congrArg Prod.fst h
  intro x hx
  rw [hjobs] at hx
  simpa using (List.mem_filter.mp hx).2

theorem completeJob_gone (s : State) (j : Job) : (s.completeJob j).jobGone j.id := jobGone_of_roster (completeJob_roster s j)

theorem failCode_gone (s : State) (j : Job) (code : Nat) : (s.failCode j code).jobGone j.id := jobGone_of_roster (failCode_roster s j code)

theorem failExchange_gone (s : State) (j : Job) (code : Nat) : (s.failExchange j code).jobGone j.id :=
  jobGone_of_roster (failExchange_roster s j code)

/-- A job that an access stops ends, but where the access waits for a mapping (R322/15). -/
theorem engineFault_gone (s : State) (j : Job) {c : Cause} (hc : c ≠ .xlate2) (addr : Nat) : (s.engineFault j c addr).jobGone j.id := by
  unfold State.engineFault
  split
  · exact absurd rfl hc
  · exact failCode_gone _ j _

/-- A job that no access stopped ends. -/
theorem failPlain_gone (s : State) (j : Job) : (s.failPlain j).jobGone j.id := by
  unfold State.failPlain
  split
  · exact failExchange_gone s j 0
  · exact failCode_gone s j 0

end Sys2Proof.Machine
end

section
/-! SUPPORT. Engine accesses of a team's scratch: their places rest on the teams' sizes alone, and what pieces written there leave to be read
(R116, R120/05, R320, R321/15). -/

namespace Sys2Proof.Machine

variable {s t : State} {j : Job}

/-! ### Pieces written in a memory -/

/-- Pieces written one after another, each at its own address. -/
def Memory.putPieces (m : Memory) (ps : List (Nat × List Byte)) : Memory := ps.foldl (fun m p => m.write p.1 p.2) m

theorem putPieces_get_outside {m : Memory} {ps : List (Nat × List Byte)} {k : Nat} (hk : ∀ p ∈ ps, k < p.1 ∨ p.1 + p.2.length ≤ k) :
    (m.putPieces ps).get k = m.get k := by
  induction ps generalizing m with
  | nil => rfl
  | cons p ps ih =>
    exact (ih fun q hq => hk q (List.mem_cons_of_mem p hq)).trans (memory_get_write_outside _ _ _ _ (hk p List.mem_cons_self))

/-- Of pieces that lie apart, each is read back. -/
theorem putPieces_read {m : Memory} {ps : List (Nat × List Byte)}
    (hapart : ∀ p ∈ ps, ∀ q ∈ ps, p ≠ q → p.1 + p.2.length ≤ q.1 ∨ q.1 + q.2.length ≤ p.1) {p : Nat × List Byte} (hp : p ∈ ps) :
    (m.putPieces ps).read p.1 p.2.length = p.2 := by
  induction ps generalizing m with
  | nil => cases hp
  | cons q ps ih =>
    by_cases hlater : p ∈ ps
    · exact ih (fun a ha b hb => hapart a (List.mem_cons_of_mem q ha) b (List.mem_cons_of_mem q hb)) hlater
    · have hpq : p = q := (List.mem_cons.mp hp).resolve_right hlater
      subst hpq
      refine (memory_read_congr fun k hk hkp => ?_).trans (memory_read_write_same m p.1 p.2)
      refine putPieces_get_outside (m := m.write p.1 p.2) fun r hr => ?_
      have hne : p ≠ r := fun e => hlater (e ▸ hr)
      have := hapart p List.mem_cons_self r (List.mem_cons_of_mem p hr) hne
      omega

/-! ### The places of scratch -/

theorem jobParty_slots (s : State) (j : Job) : (s.jobParty j).slots = j.slots := by
  unfold State.jobParty
  split <;> rfl

theorem teamIn_bare {h g : Sheaf} (hb : t.bench = s.bench) (hslots : g.slots = h.slots) (n : Nat) :
    (t.teamIn g n).map Team.bare = (s.teamIn h n).map Team.bare := by
  unfold State.teamIn
  rw [hslots]
  cases h.slots.getD n none with
  | none => rfl
  | some k => exact team?_bare_of_bench hb k

/-- The place of bytes in the scratch of the team in a slot, of a team of the scope that the space is for (R116, R120/05). -/
def State.scratchPlace (s : State) (h : Sheaf) (slot scope off size : Nat) : Except Cause Target × State :=
  match s.teamIn h slot with
  | none => (.error .space, s)
  | some t => if t.scope = scope ∧ off + size ≤ t.scratch then (.ok (.team t.id off), s) else (.error .space, s)

theorem scratchPlace_team {h g : Sheaf} {slot scope off size y b : Nat} (hat : (s.scratchPlace h slot scope off size).1 = .ok (.team y b))
    (hb : t.bench = s.bench) (hslots : g.slots = h.slots) : t.scratchPlace g slot scope off size = (.ok (.team y b), t) := by
  unfold State.scratchPlace at hat ⊢
  have hfound := teamIn_bare hb hslots slot
  cases hs : s.teamIn h slot with
  | none => rw [hs] at hat; cases hat
  | some tm =>
    rw [hs] at hat hfound
    obtain ⟨tm', ht, hbare⟩ := Option.map_eq_some_iff.mp hfound
    have hid : tm'.id = tm.id := (congrArg Team.id hbare :)
    have hscope : tm'.scope = tm.scope := (congrArg Team.scope hbare :)
    have hscratch : tm'.scratch = tm.scratch := (congrArg Team.scratch hbare :)
    simp only [ht, hid, hscope, hscratch] at hat ⊢
    split at hat
    · next hfits =>
      rw [if_pos hfits]
      exact congrArg (·, t) hat
    · cases hat

/-- An access that finds its place in a team's scratch finds it wherever the teams are the same but for their bytes, and changes nothing. -/
theorem resolve_team {h g : Sheaf} {k : AccKind} {space : Space} {a : Dword} {size lane y b : Nat}
    (hat : (s.resolve h k space a size lane).1 = .ok (.team y b)) (hb : t.bench = s.bench) (hslots : g.slots = h.slots) :
    t.resolve g k space a size lane = (.ok (.team y b), t) := by
  unfold State.resolve at hat ⊢
  simp only at hat ⊢
  split at hat
  · cases hat
  · next haligned =>
    rw [if_neg haligned]
    cases space with
    | ln => simp only at hat; split at hat <;> cases hat
    | sp =>
      simp only at hat ⊢
      split at hat
      · cases hat
      · next hin =>
        rw [if_neg hin]
        exact scratchPlace_team hat hb hslots
    | cl =>
      simp only at hat ⊢
      split at hat
      · cases hat
      · next hin =>
        rw [if_neg hin]
        exact scratchPlace_team hat hb hslots
    | bn =>
      simp only at hat
      split at hat
      · cases hat
      · split at hat
        · cases hat
        · split at hat <;> cases hat
    | gl =>
      simp only at hat
      split at hat
      · cases hat
      · generalize s.xlate h.core h.ctx k a.toNat = r at hat
        obtain ⟨_ | _, u⟩ := r
        · cases hat
        · simp only at hat
          split at hat <;> cases hat
    | ac =>
      simp only at hat
      split at hat
      · cases hat
      · cases k <;> cases hat

theorem engineAt_team {k : AccKind} {word n y b : Nat} {off : Int} (hat : (s.engineAt j k word off n).1 = .ok (.team y b))
    (hb : t.bench = s.bench) : t.engineAt j k word off n = (.ok (.team y b), t) := by
  rcases engineAt_cases j k word off n with hfails | ⟨space, a, lane, hresolves⟩
  · rw [hfails] at hat
    cases hat
  · rw [hresolves] at hat ⊢
    exact resolve_team hat hb ((jobParty_slots t j).trans (jobParty_slots s j).symm)

/-! ### Scratch written piece by piece -/

/-- A team with pieces written in its scratch. -/
def Team.putPieces (x : Team) (ps : List (Nat × List Byte)) : Team := { x with mem := x.mem.putPieces ps }

theorem modTeam_putPieces_nil (s : State) (y : Nat) : (s.modTeam y fun x => x.putPieces []) = s := by
  show { s with teams := s.teams.map fun x => if x.id = y then x.putPieces [] else x } = s
  have hsame : (s.teams.map fun x => if x.id = y then x.putPieces [] else x) = s.teams :=
    (List.map_congr_left fun x _ => by split <;> rfl).trans (List.map_id _)
  rw [hsame]

theorem modTeam_putPieces_cons (s : State) (y b : Nat) (bs : List Byte) (ps : List (Nat × List Byte)) :
    ((s.modTeam y fun x => x.putScratch b bs).modTeam y fun x => x.putPieces ps) = s.modTeam y fun x => x.putPieces ((b, bs) :: ps) := by
  unfold State.modTeam
  simp only [List.map_map]
  congr 1
  refine List.map_congr_left fun x _ => ?_
  by_cases hx : x.id = y
  · simp only [Function.comp_apply, if_pos hx]
    exact if_pos hx
  · simp [hx]

theorem putScratch_bench (s : State) (y b : Nat) (bs : List Byte) : (s.modTeam y fun x => x.putScratch b bs).bench = s.bench :=
  modTeam_bench s y _ fun _ => rfl

/-- Pieces of which each goes to one team's scratch are written there, and nothing else changes. -/
theorem enginePut_team {word g y : Nat} {b : Nat → Nat} {ps : List (List Byte)} {off : Nat}
    (hat : ∀ k, k < ps.length → (s.engineAt j .store word ((off + g * k : Nat) : Int) g).1 = .ok (.team y (b k))) :
    s.enginePut j word g ps off = s.modTeam y fun x => x.putPieces (ps.mapIdx fun k bs => (b k, bs)) := by
  induction ps generalizing s off b with
  | nil => exact (modTeam_putPieces_nil s y).symm
  | cons bs ps ih =>
    have hfirst := engineAt_team (by simpa using hat 0 (by simp)) (rfl : s.bench = s.bench)
    have hrest := ih (s := s.modTeam y fun x => x.putScratch (b 0) bs) (off := off + g) (b := fun k => b (k + 1)) fun k hk => by
      have hk' := hat (k + 1) (by simpa using hk)
      rw [show off + g * (k + 1) = off + g + g * k by rw [Nat.mul_succ]; omega] at hk'
      rw [engineAt_team hk' (putScratch_bench s y (b 0) bs)]
    unfold State.enginePut
    rw [hfirst]
    refine hrest.trans ((modTeam_putPieces_cons s y (b 0) bs _).trans ?_)
    rw [List.mapIdx_cons]

/-- Elements of which each comes from one team's scratch and goes to another's are copied there, and nothing else changes. -/
theorem copyElems_team {T : Tile} {x y : Nat} {tx : Team} {a b : Nat → Nat} {es : List Nat} (hxy : x ≠ y) (hx : s.team? x = some tx)
    (hat : ∀ e ∈ es, (s.engineAt j .load T.src (T.offsets e).1 (2 ^ T.log)).1 = .ok (.team x (a e)) ∧
      (s.engineAt j .store T.dst (T.offsets e).2 (2 ^ T.log)).1 = .ok (.team y (b e))) :
    s.copyElems j T es = s.modTeam y fun z => z.putPieces (es.map fun e => (b e, tx.mem.read (a e) (2 ^ T.log))) := by
  induction es generalizing s with
  | nil => exact (modTeam_putPieces_nil s y).symm
  | cons e es ih =>
    obtain ⟨hload, hstore⟩ := hat e List.mem_cons_self
    have hread : s.engineRead j (.team x (a e)) (2 ^ T.log) = (tx.mem.read (a e) (2 ^ T.log), s) := by
      show (((s.team? x).map fun t => t.mem.read (a e) (2 ^ T.log)).getD [], s) = _
      rw [hx]
      rfl
    have hrest := ih (s := s.modTeam y fun z => z.putScratch (b e) (tx.mem.read (a e) (2 ^ T.log)))
      ((team?_modTeam_other s (fun z => z.putScratch (b e) (tx.mem.read (a e) (2 ^ T.log))) (fun _ => rfl) hxy).trans hx) fun f hf => by
        obtain ⟨hloadf, hstoref⟩ := hat f (List.mem_cons_of_mem e hf)
        have hb := putScratch_bench s y (b e) (tx.mem.read (a e) (2 ^ T.log))
        exact ⟨by rw [engineAt_team hloadf hb], by rw [engineAt_team hstoref hb]⟩
    unfold State.copyElems
    simp only [engineAt_team hload rfl, hread, engineAt_team hstore rfl]
    exact hrest.trans (modTeam_putPieces_cons s y (b e) _ _)

end Sys2Proof.Machine
end

section
/-! SUPPORT. Engine jobs: starts, the chunks of a copy and their signals, completion (R183/08, R219, R220/10, R321, R322/15). -/

namespace Sys2Proof.Machine

variable {s t : State} {j : Job}

/-! ### Starts (R220/10) -/

/-- A job as it starts. -/
def Job.startedIn (j : Job) (s : State) : Job := { j with started := true, startCycle := s.now, startTime := s.time }

theorem job?_markStarted (hj : s.job? j.id = some j) : (s.markStarted j).job? j.id = some (j.startedIn s) := by
  exact (job?_modJob (s.spoil j) j.id (fun x => x.startedIn s) fun _ e => e).trans
    (congrArg (Option.map _) ((job?_congr (t := s.spoil j) (s := s) rfl j.id).trans hj))

/-- A start changes jobs and launches alone. -/
theorem markStarted_frame (s : State) (j : Job) : ({ s.markStarted j with jobs := s.jobs, launches := s.launches } : State) = s := by
  simp only [State.markStarted, State.spoil, State.modJob]

/-- A merge as it starts: with the region table as memory holds it, and the lines that its child has dirtied (R161/07, R335/16). -/
def Job.mergeIn (j : Job) (s : State) : Job :=
  { j with lines := ({ s.ctx j.ctx with regions := s.regionsNow j.ctx } : Context).mergeLines j.child, regions := s.regionsNow j.ctx }

theorem exec_jobStart_held (hj : s.job? j.id = some j) (hm : s.jobMayStart j = false) : exec (.jobStart j.id) s = .next s := by
  show execJobStart j.id s = _
  simp [execJobStart, hj, hm]

section
variable (hj : s.job? j.id = some j) (hm : s.jobMayStart j = true)
include hj hm

/-- A copy or a winnow starts. -/
theorem exec_jobStart_plain (he : j.engine = 1 ∨ j.engine = 2) : exec (.jobStart j.id) s = .next (s.markStarted j) := by
  show execJobStart j.id s = _
  rcases he with he | he <;> simp [execJobStart, hj, hm, he]

theorem exec_jobStart_exchange (he : j.engine = 3) : exec (.jobStart j.id) s = .next (s.startExchange j) := by
  show execJobStart j.id s = _
  simp [execJobStart, hj, hm, he]

theorem exec_jobStart_merge (he : j.engine = 4) :
    exec (.jobStart j.id) s = .next ((s.markStarted j).modJob j.id fun x => x.mergeIn s) := by
  show execJobStart j.id s = _
  simp only [execJobStart, hj, hm, he, not_true_eq_false, if_false]
  rfl

end

theorem mergeStarted_frame (s : State) (j : Job) :
    ({ (s.markStarted j).modJob j.id fun x => x.mergeIn s with jobs := s.jobs, launches := s.launches } : State) = s := by
  simp only [State.markStarted, State.spoil, State.modJob]

theorem job?_mergeStarted (hj : s.job? j.id = some j) :
    ((s.markStarted j).modJob j.id fun x => x.mergeIn s).job? j.id = some ((j.startedIn s).mergeIn s) :=
  (job?_modJob (s.markStarted j) j.id (fun x => x.mergeIn s) fun _ e => e).trans (congrArg (Option.map _) (job?_markStarted hj))

/-! ### The signal of a chunk (R177, R178, R183/08, R321/15) -/

/-- A chunk bit is set (R183/08). -/
theorem setChunk_bit {i x : Nat} {tm : Team} (hteam : j.team = some x) (hx : s.team? x = some tm) (hbit : (tileOf j.card).base + i < 256) :
    ∃ tm', (s.setChunk j i).team? x = some tm' ∧ (cget 0 tm'.maps (cardTarget j.card)).getLsbD ((tileOf j.card).base + i) = true := by
  unfold State.setChunk
  rw [hteam]
  simp only
  refine ⟨_, ((team?_modTeam s x _ ?_).trans (congrArg (Option.map _) hx)), ?_⟩
  · exact fun _ e => e
  · simp [hbit]

/-- A credit that does not saturate lowers PEND by its bytes (R177, R178/08). -/
theorem credit_room {x n : Nat} {tm : Team} (hx : s.team? x = some tm) (hroom : -(2 ^ 31 : Int) ≤ tm.pend - tm.expected - n) (reach : Nat) :
    (s.credit x n reach).2 = false ∧ ∃ tm', (s.credit x n reach).1.team? x = some tm' ∧ tm'.pend = tm.pend - n := by
  have hlow : (-((2 ^ 31 : Nat) : Int)) = -(2 ^ 31 : Int) := rfl
  unfold State.credit
  rw [hx]
  simp only [hlow]
  refine ⟨by simpa using hroom, _, (team?_modTeam s x _ ?_).trans (congrArg (Option.map _) hx), ?_⟩
  · exact fun _ e => e
  · show max (-(2 ^ 31 : Int)) (tm.pend - tm.expected - n) + tm.expected = _
    omega

/-- The teams but for what a chunk's signal writes of them: their numbers and their bytes. -/
def State.scratches (s : State) : List (Nat × Memory) := s.teams.map fun t => (t.id, t.mem)

theorem modTeam_scratches (s : State) (x : Nat) (f : Team → Team) (hf : ∀ t, ((f t).id, (f t).mem) = (t.id, t.mem)) :
    (s.modTeam x f).scratches = s.scratches := by
  unfold State.scratches State.modTeam
  rw [List.map_map]
  refine List.map_congr_left fun t _ => ?_
  by_cases ht : t.id = x
  · simpa [ht] using hf t
  · simp [ht]

theorem mem_of_scratches (h : t.scratches = s.scratches) {y : Nat} {ty : Team} (hy : s.team? y = some ty) :
    ∃ ty', t.team? y = some ty' ∧ ty'.mem = ty.mem := by
  have hfound : ∀ u : State, (u.team? y).map (fun x => (x.id, x.mem)) = u.scratches.find? fun p => p.1 == y := fun u => by
    simp [State.team?, State.scratches, List.find?_map]
  have hsame := (hfound t).trans ((congrArg (List.find? fun p => p.1 == y) h).trans (hfound s).symm)
  rw [hy] at hsame
  obtain ⟨ty', ht, hpair⟩ := Option.map_eq_some_iff.mp hsame
  exact ⟨ty', ht, (Prod.mk.inj hpair).2⟩

theorem setChunk_scratches (s : State) (j : Job) (i : Nat) : (s.setChunk j i).scratches = s.scratches := by
  unfold State.setChunk
  split
  · rfl
  · exact modTeam_scratches s _ _ fun _ => rfl

theorem credit_scratches (s : State) (x n reach : Nat) : (s.credit x n reach).1.scratches = s.scratches := by
  unfold State.credit
  split
  · rfl
  · exact modTeam_scratches s _ _ fun _ => rfl

/-- A saturated credit's record and error leave the jobs and the teams. -/
theorem saturated_frame (s : State) (j : Job) (c code : Nat) :
    ((s.reportJob j.ctx c code j.cardAddr.toNat).jobErrorAt j).roster = s.roster ∧
      ((s.reportJob j.ctx c code j.cardAddr.toNat).jobErrorAt j).scratches = s.scratches := by
  refine ⟨(jobErrorAt_roster _ j).trans (report_roster s _ _ _ _ _), ?_⟩
  have hteams : (s.reportJob j.ctx c code j.cardAddr.toNat).teams = s.teams := congrArg (fun w => w.2.2.1) (report_work s _ _ _ _ _)
  unfold State.jobErrorAt State.scratches
  split <;> exact congrArg (List.map _) hteams

/-- A chunk's signal leaves the jobs, and of the teams their bytes. -/
theorem chunkSignal_frame (s : State) (j : Job) (i n : Nat) :
    (s.chunkSignal j i n).roster = s.roster ∧ (s.chunkSignal j i n).scratches = s.scratches := by
  unfold State.chunkSignal
  split
  · exact ⟨setChunk_roster s j i, setChunk_scratches s j i⟩
  · split
    · exact ⟨rfl, rfl⟩
    · next x _ =>
      have hroster := credit_roster s x n (s.jobReach j)
      have hscratches := credit_scratches s x n (s.jobReach j)
      simp only
      split
      · obtain ⟨hr, hs⟩ := saturated_frame (s.credit x n (s.jobReach j)).1 j j.engine 0
        exact ⟨hr.trans hroster, hs.trans hscratches⟩
      · exact ⟨hroster, hscratches⟩
  · exact ⟨rfl, rfl⟩

/-- A signal that is no credit writes no memory. -/
theorem chunkSignal_mem (s : State) {j : Job} (hk : cardKind j.card ≠ 2) (i n : Nat) : (s.chunkSignal j i n).mem = s.mem := by
  unfold State.chunkSignal
  split
  · unfold State.setChunk
    split <;> rfl
  · next h2 => exact absurd h2 hk
  · rfl

theorem chunkSignal_bit {i n x : Nat} {tm : Team} (hk : cardKind j.card = 1) (hteam : j.team = some x) (hx : s.team? x = some tm)
    (hbit : (tileOf j.card).base + i < 256) : ∃ tm', (s.chunkSignal j i n).team? x = some tm' ∧
      (cget 0 tm'.maps (cardTarget j.card)).getLsbD ((tileOf j.card).base + i) = true := by
  unfold State.chunkSignal
  rw [hk]
  exact setChunk_bit hteam hx hbit

theorem chunkSignal_credit {i n x : Nat} {tm : Team} (hk : cardKind j.card = 2) (hteam : j.creditTeam = some x) (hx : s.team? x = some tm)
    (hroom : -(2 ^ 31 : Int) ≤ tm.pend - tm.expected - n) : ∃ tm', (s.chunkSignal j i n).team? x = some tm' ∧ tm'.pend = tm.pend - n := by
  obtain ⟨hfits, hpend⟩ := credit_room hx hroom (s.jobReach j)
  unfold State.chunkSignal
  rw [hk]
  simp only [hteam, hfits]
  exact hpend

/-! ### The chunks of a copy (R321, R322/15) -/

/-- The machine with a chunk copied, before its signal. -/
def State.chunkCopied (s : State) (j : Job) (n : Nat) : State :=
  (s.copyElems j (tileOf j.card) ((tileOf j.card).chunkElems n)).modJob j.id fun j => { j with landed := j.landed ++ [n] }

section
variable {n : Nat} (hj : s.job? j.id = some j)
include hj

theorem exec_copyChunkLanding_landed (hl : j.landed.contains n = true) : exec (.copyChunkLanding j.id n) s = .next s := by
  show execCopyChunkLanding j.id n s = _
  unfold execCopyChunkLanding
  rw [hj]
  exact if_neg fun h => h.2.2.2.2 hl

variable (he : j.engine = 1) (hs : j.started = true) (hw : j.waitAddr = none) (hn : n < (tileOf j.card).chunks) (hl : j.landed.contains n = false)
include he hs hw hn hl

/-- A chunk that may land is looked at element by element, then copied and signalled, or stopped. -/
theorem exec_copyChunkLanding_due : exec (.copyChunkLanding j.id n) s =
    match s.copyStop j (tileOf j.card) ((tileOf j.card).chunkElems n) with
    | some e => .next (s.stopJob j e)
    | none => .next ((s.chunkCopied j n).chunkSignal j n ((tileOf j.card).chunkBytes n)) := by
  show execCopyChunkLanding j.id n s = _
  unfold execCopyChunkLanding
  rw [hj]
  exact if_pos ⟨he, hs, by rw [hw]; rfl, hn, by rw [hl]; exact Bool.false_ne_true⟩

theorem exec_copyChunkLanding_lands (hgo : s.copyStop j (tileOf j.card) ((tileOf j.card).chunkElems n) = none) :
    exec (.copyChunkLanding j.id n) s = .next ((s.chunkCopied j n).chunkSignal j n ((tileOf j.card).chunkBytes n)) := by
  rw [exec_copyChunkLanding_due hj he hs hw hn hl, hgo]

theorem exec_copyChunkLanding_stops {e : EngineStop} (hstop : s.copyStop j (tileOf j.card) ((tileOf j.card).chunkElems n) = some e) :
    exec (.copyChunkLanding j.id n) s = .next (s.stopJob j e) := by
  rw [exec_copyChunkLanding_due hj he hs hw hn hl, hstop]

end

theorem chunkCopied_team? {n x : Nat} {tm : Team} (hx : s.team? x = some tm) (j : Job) :
    ∃ tm', (s.chunkCopied j n).team? x = some tm' ∧ tm'.bare = tm.bare :=
  team?_of_bench (t := s.copyElems j (tileOf j.card) ((tileOf j.card).chunkElems n)) (copyElems_bench j _ _ s) hx

theorem chunkCopied_job? (hj : s.job? j.id = some j) (n : Nat) : (s.chunkCopied j n).job? j.id = some { j with landed := j.landed ++ [n] } := by
  have hlanded := job?_modJob (s.copyElems j (tileOf j.card) ((tileOf j.card).chunkElems n)) j.id
    (fun x => { x with landed := x.landed ++ [n] }) fun _ e => e
  rw [job?_congr (jobs_of_bench (copyElems_bench j _ _ s)), hj] at hlanded
  exact hlanded

/-- One element whose places are memory below the peers', outside the regions: its bytes are written there and nowhere else (R131/05). -/
theorem copyElems_global {T : Tile} {e : Nat} {a : Target} {va hpa : Nat} {bs : List Byte} {s1 s2 s3 : State}
    (hload : s.engineAt j .load T.src (T.offsets e).1 (2 ^ T.log) = (.ok a, s1)) (hread : s1.engineRead j a (2 ^ T.log) = (bs, s2))
    (hstore : s2.engineAt j .store T.dst (T.offsets e).2 (2 ^ T.log) = (.ok (.host (some va) hpa), s3)) (hp : hpa < peerBase)
    (hr : (s.ctx j.ctx).regionOf va = none) : (s.copyElems j T [e]).mem = s.mem.write hpa bs := by
  have h1 : OnlyCaches s s1 := by simpa [hload] using onlyCaches_engineAt s j .load T.src (T.offsets e).1 (2 ^ T.log)
  have h2 : OnlyCaches s1 s2 := by simpa [hread] using onlyCaches_engineRead s1 j a (2 ^ T.log)
  have h3 : OnlyCaches s2 s3 := by simpa [hstore] using onlyCaches_engineAt s2 j .store T.dst (T.offsets e).2 (2 ^ T.log)
  have hcaches := onlyCaches_trans h1 (onlyCaches_trans h2 h3)
  have hctx : s3.ctx j.ctx = s.ctx j.ctx := (congrArg (State.ctx · j.ctx) hcaches.1 :)
  have hmem : s3.mem = s.mem := (congrArg State.mem hcaches.1 :)
  have hcopied : s.copyElems j T [e] = s3.glWrite j.ctx j.rev va hpa bs false := by
    unfold State.copyElems
    simp only [hload, hread, hstore]
    rfl
  rw [hcopied, glWrite_unrevised (by rw [hctx]; exact hr), homeWrite_below hp, ← hmem]

/-! ### Completion (R219/10) -/

theorem exec_jobCompletion_unstarted (hj : s.job? j.id = some j) (hs : j.started = false) : exec (.jobCompletion j.id) s = .next s := by
  show execJobCompletion j.id s = _
  simp [execJobCompletion, hj, hs]

section
variable (hj : s.job? j.id = some j) (hs : j.started = true) (hw : j.waitAddr = none)
include hj hs hw

theorem exec_jobCompletion_copy (he : j.engine = 1) : exec (.jobCompletion j.id) s =
    if (tileOf j.card).chunks ≤ j.landed.length then .next (s.completeJob j) else .next s := by
  show execJobCompletion j.id s = _
  simp [execJobCompletion, hj, hs, hw, he]

theorem exec_jobCompletion_winnow (he : j.engine = 2) {ps : List EnginePut} (hputs : s.winnowPuts j = .ok ps) (hstop : s.putsStop j ps = none) :
    exec (.jobCompletion j.id) s = .next ((s.putAll j ps).completeJob j) := by
  show execJobCompletion j.id s = _
  simp [execJobCompletion, hj, hs, hw, he, State.winnowDone, hputs, hstop]

theorem exec_jobCompletion_exchange (he : j.engine = 3) (hx : j.exchanged = true) : exec (.jobCompletion j.id) s = .next (s.completeJob j) := by
  show execJobCompletion j.id s = _
  simp [execJobCompletion, hj, hs, hw, he, hx]

end

/-- A completion writes neither memory nor a team. -/
theorem completeJob_frame (s : State) (j : Job) : (s.completeJob j).mem = s.mem ∧ (s.completeJob j).teams = s.teams := by
  unfold State.completeJob
  simp only
  split <;> exact ⟨rfl, rfl⟩

/-- A job that signals a token counter raises it by one (R180/08). -/
theorem completeJob_token {r : Res} (hr : (s.core j.core).res? j.ctx = some r) (he : j.engine ≤ 3) (hk : cardKind j.card = 0) :
    ∃ r', ((s.completeJob j).core j.core).res? j.ctx = some r' ∧ r'.bank = modAt (fun x => x + 1) r.bank (cardTarget j.card) := by
  unfold State.completeJob
  simp only [if_pos (And.intro he hk)]
  exact ⟨_, res?_of_cores_modRes (s := s) rfl (fun _ e => e) hr, rfl⟩

end Sys2Proof.Machine
end

section
/-! SUPPORT. Engine jobs: waits for a mapping, replays, merges and joins (R223/10, R249/11, R322/15, R334, R335/16). -/

namespace Sys2Proof.Machine

variable {s t : State} {j : Job}

/-! ### Waits for a mapping (R322/15) -/

/-- An access that finds no mapping makes its job wait, and nothing else differs. -/
theorem stopJob_waits (hj : s.job? j.id = some j) (a : Nat) :
    (s.stopJob j (.xlate2, a)).job? j.id = some { j with waitAddr := some (BitVec.ofNat 64 a), waitSince := s.now } ∧
      ({ s.stopJob j (.xlate2, a) with jobs := s.jobs } : State) = s :=
  ⟨(job?_modJob s j.id (fun x => { x with waitAddr := some (BitVec.ofNat 64 a), waitSince := s.now }) fun _ e => e).trans
    (congrArg (Option.map _) hj), rfl⟩

section
variable {a : Dword} (hj : s.job? j.id = some j) (ha : j.waitAddr = some a)
include hj ha

theorem exec_engineXlate2Timeout_early (hearly : s.now < j.waitSince + 65536 ∨ s.nowMapped j.ctx a.toNat = true) :
    exec (.engineXlate2Timeout j.id) s = .next s := by
  show execEngineXlate2Timeout j.id s = _
  unfold execEngineXlate2Timeout
  simp only [hj, ha]
  refine if_neg fun hlate => ?_
  rcases hearly with hnow | hmapped
  · omega
  · exact hlate.2 hmapped

theorem exec_engineXlate2Timeout_late (hlate : j.waitSince + 65536 ≤ s.now) (hm : s.nowMapped j.ctx a.toNat = false) (he : j.engine ≠ 4) :
    ∃ t, exec (.engineXlate2Timeout j.id) s = .next t ∧ t.jobGone j.id := by
  show ∃ t, execEngineXlate2Timeout j.id s = _ ∧ _
  unfold execEngineXlate2Timeout
  simp only [hj, ha, hm, hlate, Bool.false_eq_true, not_false_eq_true, and_self, if_true]
  split
  · exact ⟨_, rfl, failExchange_gone s j _⟩
  · next h4 => exact absurd h4 he
  · exact ⟨_, rfl, failCode_gone s j _⟩

theorem exec_engineAccessMappingMade_unmapped (hm : s.nowMapped j.ctx a.toNat = false) :
    exec (.engineAccessMappingMade j.id) s = .next s := by
  show execEngineAccessMappingMade j.id s = _
  simp [execEngineAccessMappingMade, hj, ha, hm]

/-- A job with no rows left to send goes on, and nothing else differs. -/
theorem exec_engineAccessMappingMade_mapped (hm : s.nowMapped j.ctx a.toNat = true)
    (hrows : j.engine ≠ 3 ∨ (j.matched.filter fun i => !(j.rowsSent.contains i)) = []) :
    exec (.engineAccessMappingMade j.id) s = .next (s.modJob j.id fun j => { j with waitAddr := none }) := by
  show execEngineAccessMappingMade j.id s = _
  unfold execEngineAccessMappingMade
  simp only [hj, ha, hm, if_true]
  rcases hrows with he | hnone
  · rw [if_neg he]
  · rw [hnone]
    split <;> rfl

end

/-! ### Replays (R249/11) -/

theorem exec_jobReplay_uncut (hj : s.job? j.id = some j) (hc : s.jobCut j = false) : exec (.jobReplay j.id) s = .next s := by
  show execJobReplay j.id s = _
  simp [execJobReplay, hj, hc]

section
variable (hj : s.job? j.id = some j) (hc : s.jobCut j = true)
include hj hc

theorem exec_jobReplay_allowed (hmay : s.mayReplay j = true) {f : Nat} (hf : s.otherField j = some f) : exec (.jobReplay j.id) s =
    if s.queueRoom f j.engine j.ctx then
      .next { s with jobs := (s.jobs.filter fun k => !(k.id == j.id)) ++ [j.again f]
                     exHeaders := s.exHeaders.filter fun x => !(x.src == s.device.toNat && x.id == j.id) }
    else .next s := by
  show execJobReplay j.id s = _
  simp [execJobReplay, hj, hc, hmay, hf]

theorem exec_jobReplay_refused (hno : s.mayReplay j = false ∨ s.otherField j = none) : exec (.jobReplay j.id) s =
    .next (if j.engine = 4 then s.endMerge j else if 0 < j.replays then s.failPlain j else (s.reportReplay j).failPlain j) := by
  show execJobReplay j.id s = _
  unfold execJobReplay
  simp only [hj, hc, not_true_eq_false, if_false]
  rcases hno with hmay | hnone
  · rw [hmay]
  · rw [hnone]
    split
    · next hsome => cases hsome
    · rfl

/-- A job that is not replayed fails. -/
theorem exec_jobReplay_fails (hno : s.mayReplay j = false ∨ s.otherField j = none) (he : j.engine ≠ 4) :
    ∃ t, exec (.jobReplay j.id) s = .next t ∧ t.jobGone j.id := by
  refine ⟨_, exec_jobReplay_refused hj hc hno, ?_⟩
  rw [if_neg he]
  split
  · exact failPlain_gone s j
  · exact failPlain_gone _ j

end

theorem report_eqWrite {ctx cause byte3 addr : Nat} (detail : List Byte) (hroom : ((s.ctx ctx).eqWrite - (s.ctx ctx).eqHead).toNat ≠ 256) :
    ((s.report ctx cause byte3 addr detail).ctx ctx).eqWrite = (s.ctx ctx).eqWrite + 1 := by
  unfold State.report State.errorSlots
  simp only [hroom, decide_false, Bool.false_eq_true, if_false]
  rw [ctx_modCtx, if_pos rfl]
  rfl

/-- A merge on a fenced engine that has lines left, or has not started, ends with a record (log 112). -/
theorem endMerge_ends (hj : s.job? j.id = some j) (hleft : ¬ (j.started = true ∧ j.lines = [])) :
    (s.endMerge j).job? j.id = some { j with started := true, waitAddr := none, lines := [] } ∧
      (s.endMerge j).sheaves = s.sheaves ∧ (s.endMerge j).teams = s.teams ∧
      (((s.ctx j.ctx).eqWrite - (s.ctx j.ctx).eqHead).toNat ≠ 256 → ((s.endMerge j).ctx j.ctx).eqWrite = (s.ctx j.ctx).eqWrite + 1) := by
  have hwork : (s.reportReplay j).work = s.work := report_work s _ _ _ _ _
  have hfound : (s.reportReplay j).job? j.id = some j := (job?_congr (congrArg (fun w => w.2.2.2) hwork) j.id).trans hj
  unfold State.endMerge
  rw [if_neg hleft]
  exact ⟨(job?_modJob (s.reportReplay j) j.id (fun x => { x with started := true, waitAddr := none, lines := [] }) fun _ e => e).trans
    (congrArg (Option.map _) hfound), congrArg (fun w => w.2.1) hwork, congrArg (fun w => w.2.2.1) hwork, report_eqWrite _⟩

/-! ### The lines of a merge (R335/16) -/

theorem exec_mergeLineAction_idle (hj : s.job? j.id = some j) (hl : j.lines = []) : exec (.mergeLineAction j.id) s = .next s := by
  show execMergeLineAction j.id s = _
  unfold execMergeLineAction
  simp only [hj, hl]
  split <;> rfl

/-- The next line of a merge, by what its accesses give. -/
theorem exec_mergeLineAction_line (hj : s.job? j.id = some j) (he : j.engine = 4) (hs : j.started = true) (hw : j.waitAddr = none)
    {vl : Nat} {rest : List Nat} (hl : j.lines = vl :: rest) : exec (.mergeLineAction j.id) s =
    match s.mergeOne j vl with
    | .ok (s, st) => .next (s.modJob j.id fun j => { j with lines := rest, status := j.status ||| st })
    | .error e =>
      if e.1 = .xlate2 then .next (s.stopJob j e)
      else .next (((s.engineUncorr j e.1 e.2).reportJob j.ctx 4 (causeCode e.1) e.2).modJob j.id fun j => { j with lines := rest }) := by
  show execMergeLineAction j.id s = _
  unfold execMergeLineAction
  simp only [hj, hl]
  exact if_pos ⟨he, hs, by rw [hw]; rfl⟩

/-- A line whose access fails is left unmerged (log 29). -/
theorem skipLine_job? (hj : s.job? j.id = some j) (c : Cause) (a : Nat) (rest : List Nat) :
    (((s.engineUncorr j c a).reportJob j.ctx 4 (causeCode c) a).modJob j.id fun j => { j with lines := rest }).job? j.id =
      some { j with lines := rest } :=
  (job?_modJob _ j.id (fun x => { x with lines := rest }) fun _ e => e).trans (congrArg (Option.map _)
    ((job?_congr (congrArg Prod.fst ((report_roster _ _ _ _ _ _).trans (engineUncorr_roster s j c a))) j.id).trans hj))

/-! ### Joins (R334/16) -/

theorem exec_joinCompletion_lines (hj : s.job? j.id = some j) (hl : j.lines ≠ []) : exec (.joinCompletion j.id) s = .next s := by
  show execJoinCompletion j.id s = _
  unfold execJoinCompletion
  rw [hj]
  exact if_neg fun h => hl h.2.2

/-- The machine with a merge job and its child's revision gone. -/
def State.mergeDone (s : State) (j : Job) : State :=
  (s.dropJob j.id).modCtx j.ctx fun c => { c with revs := c.revs.filter fun v => !(v.id == j.child) }

/-- A parent with a child joined: the child forgotten, the status written. -/
def Sheaf.joined (h : Sheaf) (child d : Nat) (status : BitVec 5) : Sheaf :=
  ({ h with children := h.children.filter fun c => !(c.rev == child) } : Sheaf).sset d (status.setWidth 64)

theorem exec_joinCompletion_joins {k d : Nat} {h : Sheaf} {w : Wait} (hj : s.job? j.id = some j) (he : j.engine = 4) (hs : j.started = true)
    (hl : j.lines = []) (hp : j.poster = some k) (hk : s.sheaf? k = some h) (hd : j.dest = some d) (hw : h.joinWaits j.id = [w]) :
    exec (.joinCompletion j.id) s =
      .next ((((s.mergeDone j).l1Clear h.core).modSheaf k fun h => h.joined j.child d j.status).finishWait k w) := by
  have hk' : (s.mergeDone j).sheaf? k = some h := hk
  have hid := sheaf?_id hk
  have hsheaf := modSheaf_modSheaf ((s.mergeDone j).l1Clear h.core) k (fun h => { h with children := h.children.filter fun c => !(c.rev == j.child) })
    (fun h => h.sset d (j.status.setWidth 64)) fun _ => rfl
  show execJoinCompletion j.id s = _
  unfold execJoinCompletion
  rw [hj]
  refine (if_pos ⟨he, hs, hl⟩).trans ?_
  show (match j.poster.bind (s.mergeDone j).sheaf? with | none => _ | some h => _) = _
  rw [hp, Option.bind_some, hk']
  subst hid
  simp only [hd, hw, List.foldl_cons, List.foldl_nil]
  exact congrArg (fun u : State => (.next (u.finishWait h.id w) : Out)) hsheaf

/-- R334/16: what a join leaves of its sheaf and of the machine. -/
theorem joinCompletion_spec {k d : Nat} {h : Sheaf} {w : Wait} (hk : s.sheaf? k = some h) (htl : h.tl = 0)
    (hpc : ∀ l, l < 64 → w.lanes.getLsbD l = true → (h.lane l).pc = w.pc) (j : Job) {t : State}
    (ht : t = (((s.mergeDone j).l1Clear h.core).modSheaf k fun h => h.joined j.child d j.status).finishWait k w) :
    ∃ h', t.jobGone j.id ∧ t.sheaf? k = some h' ∧ h'.sget d = j.status.setWidth 64 ∧
      (∀ n, n ≠ d → h'.sget n = h.sget n) ∧ h'.v = h.v ∧ h'.p = h.p ∧ (∀ c ∈ h'.children, c.rev ≠ j.child) ∧
      Moved ⟨k, w.lanes, w.pc, h.core, 0, w.solo, none, false⟩ h h' ∧ (∀ v ∈ (t.ctx j.ctx).revs, v.id ≠ j.child) ∧ t.mem = s.mem ∧
      (t.core h.core).noGlLines := by
  have hjoined : (((s.mergeDone j).l1Clear h.core).modSheaf k fun h => h.joined j.child d j.status).sheaf? k =
      some (h.joined j.child d j.status) := by
    rw [sheaf?_modSheaf _ k k (fun h => h.joined j.child d j.status) fun _ => rfl, if_pos rfl]
    exact congrArg (Option.map _) hk
  have hframe := afterWait_frame (h := h.joined j.child d j.status) (w := w) (by show h.tl ≤ w.tl; omega)
  have hs : ((h.joined j.child d j.status).afterWait w).s = (h.joined j.child d j.status).s := (congrArg Sheaf.s hframe :)
  have hsget : ∀ n, ((h.joined j.child d j.status).afterWait w).sget n = if n = d then j.status.setWidth 64 else h.sget n := fun n =>
    (congrArg (cget 0 · n) hs).trans (sget_sset { h with children := h.children.filter fun c => !(c.rev == j.child) } d n _)
  have hout : t.roster = (s.mergeDone j).roster ∧ t.ctxs = (s.mergeDone j).ctxs ∧ t.mem = (s.mergeDone j).mem := by
    simp only [ht, State.roster, State.finishWait, State.l1Clear, State.modSheaf_jobs, State.modSheaf_peersDown, State.modSheaf_ctxs,
      State.modSheaf_mem, State.modCore_jobs, State.modCore_peersDown, State.modCore_ctxs, State.modCore_mem, and_self]
  obtain ⟨hroster, hctxs, hmem⟩ := hout
  refine ⟨(h.joined j.child d j.status).afterWait w, ?gone, ?found, by rw [hsget, if_pos rfl], fun n hn => by rw [hsget, if_neg hn],
    (congrArg Sheaf.v hframe :), (congrArg Sheaf.p hframe :), ?children, ?moved, ?revs, hmem, ?lines⟩
  case gone => exact jobGone_of_roster (s := s) hroster
  case found =>
    rw [ht, sheaf?_finishWait, if_pos rfl, hjoined]
    rfl
  case children =>
    intro c hc
    rw [(congrArg Sheaf.children hframe :)] at hc
    simpa using (List.mem_filter.mp hc).2
  case moved => exact (finishLanes_spec (h := h.joined j.child d j.status) w k h.core htl hpc).1
  case revs =>
    have hctx : t.ctx j.ctx = (s.mergeDone j).ctx j.ctx := by unfold State.ctx; rw [hctxs]
    intro v hv
    rw [hctx, State.mergeDone, ctx_modCtx, if_pos rfl] at hv
    simpa using (List.mem_filter.mp hv).2
  case lines =>
    rw [ht]
    exact l1Clear_noGlLines (s.mergeDone j) h.core

end Sys2Proof.Machine
end

section
/-! SUPPORT. Exchange jobs: their start, the headers that a module holds or refuses, the rows that land, deadlines and failures
(R369 to R371/18, R387/19). -/

namespace Sys2Proof.Machine

variable {s t : State} {j : Job} {st : Stream}

/-! ### The start (R369, R370/18) -/

section
variable {a b : List Byte} (ha : (s.engineBytes j (fieldOf j.card 160 8) 4 j.group 0).1 = .ok a)
  (hb : (s.engineBytes j (fieldOf j.card 184 8) 4 j.group 0).1 = .ok b)
include ha hb

/-- A job whose list is bad, or names a module that has failed, fails at its start. -/
theorem startExchange_fails (hbad : s.peersBad j (words32 j.group a) (words32 j.group b) = true ∨
    (words32 j.group a).any s.peersDown.contains = true) : (s.startExchange j).jobGone j.id := by
  have hgone : ∀ code, (s.failExchange { j with peers := words32 j.group a } code).jobGone j.id := fun code =>
    failExchange_gone s { j with peers := words32 j.group a } code
  unfold State.startExchange
  simp only [ha, hb]
  split
  · exact hgone 0
  · next hok =>
    rw [if_pos (hbad.resolve_left hok)]
    exact hgone _

/-- The headers of a job's streams, each with the module that it goes to. -/
def State.headersFor (s : State) (j : Job) (peers counts : List Nat) : List (Nat × Stream) :=
  (peers.zip counts).map fun x => (x.1, ({ src := s.device.toNat, tag := j.tag, rows := x.2, data := none, id := j.id } : Stream))

/-- An exchange job as it starts, with its lists. -/
def Job.exchanging (j : Job) (s : State) (peers counts : List Nat) : Job :=
  { j with peers := peers, counts := counts, sent := (List.range j.group).map fun i => (i, s.time) }

/-- The machine with an exchange job started: its headers go to its peers, and those to the module itself are held. -/
def State.exchangeStarted (s : State) (j : Job) (peers counts : List Nat) : State :=
  { (s.markStarted j).modJob j.id fun x => x.exchanging s peers counts with
    exSent := s.exSent ++ (s.headersFor j peers counts).filter fun x => !(x.1 == s.device.toNat)
    exHeaders := s.exHeaders ++ ((s.headersFor j peers counts).filter fun x => x.1 == s.device.toNat).map fun x => x.2 }

theorem startExchange_starts (hgood : s.peersBad j (words32 j.group a) (words32 j.group b) = false)
    (hup : (words32 j.group a).any s.peersDown.contains = false) :
    s.startExchange j = s.exchangeStarted j (words32 j.group a) (words32 j.group b) := by
  unfold State.startExchange
  simp only [ha, hb, hgood, hup, Bool.false_eq_true, if_false]
  rfl

end

theorem exchangeStarted_job? (hj : s.job? j.id = some j) (peers counts : List Nat) :
    (s.exchangeStarted j peers counts).job? j.id = some ((j.startedIn s).exchanging s peers counts) :=
  (job?_modJob (s.markStarted j) j.id (fun x => x.exchanging s peers counts) fun _ e => e).trans (congrArg (Option.map _) (job?_markStarted hj))

theorem exchangeStarted_frame (s : State) (j : Job) (peers counts : List Nat) :
    ({ s.exchangeStarted j peers counts with
      jobs := s.jobs, launches := s.launches, exSent := s.exSent, exHeaders := s.exHeaders } : State) = s := by
  simp only [State.exchangeStarted, State.markStarted, State.spoil, State.modJob]

/-! ### Headers (R371/18) -/

/-- Streams that no job matches all need places. -/
theorem unmatched_of_no_match {xs : List Stream} (hx : ∀ x ∈ xs, s.matchOf x = none) : s.unmatched [] xs = xs := by
  induction xs with
  | nil => rfl
  | cons x xs ih =>
    unfold State.unmatched
    rw [hx x List.mem_cons_self, ih fun y hy => hx y (List.mem_cons_of_mem x hy)]

theorem fits_of_no_match (hx : ∀ x ∈ s.exHeaders ++ [st], s.matchOf x = none) : s.fits st = decide (s.exHeaders.length < 256) := by
  unfold State.fits
  rw [unmatched_of_no_match hx, List.length_append, List.length_singleton]
  rfl

/-- A header that finds a match or a place is held, and another is refused. -/
theorem exec_exchangeStreamArrival_header (hd : st.data = none) : exec (.exchangeStreamArrival st) s =
    .next (if s.fits st then { s with exHeaders := s.exHeaders ++ [st] } else { s with exRefused := s.exRefused ++ [st] }) := by
  show execExchangeStreamArrival st s = _
  unfold execExchangeStreamArrival State.arriveStream
  rw [hd]

theorem exec_exchangeHeaderAdmission_none (hf : s.exRefused.find? s.fits = none) : exec .exchangeHeaderAdmission s = .next s := by
  show execExchangeHeaderAdmission s = _
  unfold execExchangeHeaderAdmission
  rw [hf]

/-- The places of headers do not rest on the headers refused. -/
theorem unmatched_refused (s : State) (rs : List Stream) (xs : List Stream) (taken : List (Nat × Nat)) :
    ({ s with exRefused := rs } : State).unmatched taken xs = s.unmatched taken xs := by
  induction xs generalizing taken with
  | nil => rfl
  | cons x xs ih =>
    have hsame : ({ s with exRefused := rs } : State).matchOf x taken = s.matchOf x taken := rfl
    unfold State.unmatched
    rw [hsame]
    split
    · exact ih _
    · rw [ih]

theorem fits_refused (s : State) (rs : List Stream) (st : Stream) : ({ s with exRefused := rs } : State).fits st = s.fits st := by
  unfold State.fits
  rw [unmatched_refused]

/-- The first refused header that finds a match or a place is taken in. -/
theorem exec_exchangeHeaderAdmission_some (hf : s.exRefused.find? s.fits = some st) (hd : st.data = none) :
    exec .exchangeHeaderAdmission s = .next { s with exRefused := s.exRefused.erase st, exHeaders := s.exHeaders ++ [st] } := by
  have hfits : ({ s with exRefused := s.exRefused.erase st } : State).fits st = true :=
    (fits_refused s _ st).trans (by simpa using List.find?_some hf)
  show execExchangeHeaderAdmission s = _
  unfold execExchangeHeaderAdmission
  simp only [hf]
  unfold State.arriveStream
  rw [hd]
  simp only [hfits, if_true]

/-- With every place taken and no match, no refused header is taken in. -/
theorem find?_fits_none (hfull : (256 ≤ s.exHeaders.length ∧ ∀ x ∈ s.exHeaders ++ s.exRefused, s.matchOf x = none) ∨ s.exRefused = []) :
    s.exRefused.find? s.fits = none := by
  rcases hfull with ⟨hlen, hno⟩ | hnil
  · refine List.find?_eq_none.mpr fun x hx => ?_
    rw [fits_of_no_match fun y hy => hno y ((List.mem_append.mp hy).elim (List.mem_append_left _) fun h => List.mem_append_right _ (by
      rw [List.mem_singleton.mp h]; exact hx))]
    simpa using hlen
  · rw [hnil]
    rfl

/-! ### Rows (R370, R371/18) -/

@[simp] theorem length_pieces (g n : Nat) (bs : List Byte) : (pieces g n bs).length = n := by
  induction n generalizing bs with
  | zero => rfl
  | succ n ih => simp [pieces, ih]

theorem getElem?_pieces (g n k : Nat) (bs : List Byte) (hk : k < n) : (pieces g n bs)[k]? = some ((bs.drop (g * k)).take g) := by
  induction n generalizing bs k with
  | zero => omega
  | succ n ih =>
    cases k with
    | zero => simp [pieces]
    | succ k =>
      rw [pieces, List.getElem?_cons_succ, ih k (bs.drop g) (by omega), List.drop_drop, Nat.mul_succ, Nat.add_comm]

theorem exec_exchangeStreamArrival_unknown {data : List Byte} (hd : st.data = some data) (hr : s.rowsJob st = none) :
    exec (.exchangeStreamArrival st) s = .next s := by
  show execExchangeStreamArrival st s = _
  simp [execExchangeStreamArrival, State.arriveStream, hd, State.landRows, hr]

/-- Rows of a job that has not started, or waits, come again in the next cycle (log 89). -/
theorem exec_exchangeStreamArrival_again {data : List Byte} (hd : st.data = some data) (hr : s.rowsJob st = some j)
    (hno : j.started = false ∨ j.waitAddr ≠ none) : exec (.exchangeStreamArrival st) s =
      .next { s with inputs := s.inputs ++ [(s.now + 1, .event (.exchangeStreamArrival st))] } := by
  have hnot : ¬ (j.started = true ∧ j.waitAddr.isNone = true) := fun h => hno.elim (fun hs => by simp [hs] at h) fun hw => hw (by simpa using h.2)
  show execExchangeStreamArrival st s = _
  simp only [execExchangeStreamArrival, State.arriveStream, hd, State.landRows, hr, if_neg hnot]

theorem exec_exchangeStreamArrival_rows {data : List Byte} (hd : st.data = some data) (hr : s.rowsJob st = some j)
    (hs : j.started = true) (hw : j.waitAddr = none) : exec (.exchangeStreamArrival st) s =
      .next (if (s.landStream j st data).2 then (s.landStream j st data).1.dropHeader st
        else { (s.landStream j st data).1 with inputs := s.inputs ++ [(s.now + 1, .event (.exchangeStreamArrival st))] }) := by
  show execExchangeStreamArrival st s = _
  simp only [execExchangeStreamArrival, State.arriveStream, hd, State.landRows, hr, hs, hw, Option.isNone_none, and_self, if_true]

/-- The machine with some rows of a stream written, and then their count. -/
def State.rowsPut (s : State) (j : Job) (ps : List (List Byte)) (start i : Nat) (count : List Byte) : State :=
  (s.enginePut j (fieldOf j.card 192 8) 16 ps start).enginePut j (fieldOf j.card 208 8) 4 [count] (4 * i)

/-- The machine once a stream has landed for a job: its rows and their count written, its header used up. -/
def State.streamLanded (s : State) (j : Job) (st : Stream) (ps : List (List Byte)) (start i bytes : Nat) (count : List Byte) : State :=
  ((s.rowsPut j ps start i count).modJob j.id fun x =>
    { x with received := x.received ++ [i], credited := x.credited ++ [(i, bytes)] }).dropHeader st

section
variable {data : List Byte} {i n : Nat} (hi : j.peers.idxOf? st.src = some i) (hn : n = min st.rows j.slotRows)
include hi hn

/-- Rows that find no mapping make the job wait, and come again in the next cycle. -/
theorem exec_exchangeStreamArrival_waits {a : Nat} (hd : st.data = some data) (hr : s.rowsJob st = some j) (hs : j.started = true)
    (hw : j.waitAddr = none)
    (hput : s.engineMayPut j (fieldOf j.card 192 8) 16 (n * (j.rowBytes / 16)) (i * j.slotRows * j.rowBytes) = some (.xlate2, a)) :
    exec (.exchangeStreamArrival st) s =
      .next { s.stopJob j (.xlate2, a) with inputs := s.inputs ++ [(s.now + 1, .event (.exchangeStreamArrival st))] } := by
  subst hn
  have hland : s.landStream j st data = (s.stopJob j (.xlate2, a), false) := by
    unfold State.landStream
    simp only [hi, length_pieces, hput]
    rfl
  rw [exec_exchangeStreamArrival_rows hd hr hs hw, hland]
  rfl

/-- Rows and a count that may be written are, and the job has received the stream. -/
theorem exec_exchangeStreamArrival_lands {start : Nat} {ps : List (List Byte)} {count : List Byte} (hd : st.data = some data)
    (hr : s.rowsJob st = some j) (hs : j.started = true) (hw : j.waitAddr = none) (hk : cardKind j.card ≠ 2)
    (hstart : start = i * j.slotRows * j.rowBytes) (hps : ps = pieces 16 (n * (j.rowBytes / 16)) data)
    (hcounts : count = bytesOfNat 4 (if st.rows ≤ j.slotRows then st.rows else 2 ^ 31 + st.rows))
    (hput : s.engineMayPut j (fieldOf j.card 192 8) 16 (n * (j.rowBytes / 16)) start = none)
    (hcount : (s.enginePut j (fieldOf j.card 192 8) 16 ps start).engineMayPut j (fieldOf j.card 208 8) 4 1 (4 * i) = none) :
    exec (.exchangeStreamArrival st) s = .next (s.streamLanded j st ps start i (n * j.rowBytes) count) := by
  subst hn hstart hps hcounts
  have hland : s.landStream j st data =
      ((s.rowsPut j (pieces 16 (min st.rows j.slotRows * (j.rowBytes / 16)) data) (i * j.slotRows * j.rowBytes) i
        (bytesOfNat 4 (if st.rows ≤ j.slotRows then st.rows else 2 ^ 31 + st.rows))).modJob j.id fun x =>
          { x with received := x.received ++ [i], credited := x.credited ++ [(i, min st.rows j.slotRows * j.rowBytes)] }, true) := by
    unfold State.landStream
    simp only [hi, length_pieces, hput, hcount, if_neg hk]
    rfl
  rw [exec_exchangeStreamArrival_rows hd hr hs hw, hland]
  rfl

end

theorem rowsPut_bench (s : State) (j : Job) (ps : List (List Byte)) (start i : Nat) (count : List Byte) :
    (s.rowsPut j ps start i count).bench = s.bench := (enginePut_bench j _ 4 [count] _ _).trans (enginePut_bench j _ 16 ps s start)

theorem streamLanded_exHeaders (s : State) (j : Job) (st : Stream) (ps : List (List Byte)) (start i bytes : Nat) (count : List Byte) :
    (s.streamLanded j st ps start i bytes count).exHeaders = s.exHeaders.eraseP fun x => sameStream x st :=
  congrArg (List.eraseP fun x => sameStream x st) (exHeaders_of_bench (t := s.rowsPut j ps start i count) (rowsPut_bench s j ps start i count))

theorem streamLanded_job? (hj : s.job? j.id = some j) (st : Stream) (ps : List (List Byte)) (start i bytes : Nat) (count : List Byte) :
    (s.streamLanded j st ps start i bytes count).job? j.id =
      some { j with received := j.received ++ [i], credited := j.credited ++ [(i, bytes)] } :=
  (job?_modJob _ j.id (fun x => { x with received := x.received ++ [i], credited := x.credited ++ [(i, bytes)] }) fun _ e => e).trans
    (congrArg (Option.map _) ((job?_congr (jobs_of_bench (t := s.rowsPut j ps start i count) (rowsPut_bench s j ps start i count)) j.id).trans hj))

/-- A count whose place is a team's scratch stands there. -/
theorem rowsPut_count {ps : List (List Byte)} {start i z c : Nat} {tz : Team} {count : List Byte}
    (hz : (s.engineAt j .store (fieldOf j.card 208 8) ((4 * i : Nat) : Int) 4).1 = .ok (.team z c)) (htz : s.team? z = some tz) :
    ∃ tz', (s.rowsPut j ps start i count).team? z = some tz' ∧ tz'.mem.read c count.length = count := by
  have hb := enginePut_bench j (fieldOf j.card 192 8) 16 ps s start
  obtain ⟨tz1, htz1, -⟩ := team?_of_bench hb htz
  have hwritten : s.rowsPut j ps start i count =
      (s.enginePut j (fieldOf j.card 192 8) 16 ps start).modTeam z fun x => x.putScratch c count := by
    unfold State.rowsPut
    rw [State.enginePut, engineAt_team hz hb]
    rfl
  refine ⟨tz1.putScratch c count, ?_, memory_read_write_same _ _ _⟩
  rw [hwritten, team?_modTeam _ z (fun x => x.putScratch c count) fun _ e => e, htz1, Option.map_some]

/-- A count leaves a team that its place is not of. -/
theorem enginePut_team_other {word g off y : Nat} {bs : List Byte} (hat : ∀ c, (s.engineAt j .store word (off : Int) g).1 ≠ .ok (.team y c)) :
    (s.enginePut j word g [bs] off).team? y = s.team? y := by
  have hcaches := onlyCaches_engineAt s j .store word off g
  unfold State.enginePut
  generalize s.engineAt j .store word off g = r at hcaches hat
  obtain ⟨_ | x, u⟩ := r
  · exact team?_congr (congrArg State.teams hcaches.1 :) y
  · have hu : u.team? y = s.team? y := team?_congr (congrArg State.teams hcaches.1 :) y
    refine Eq.trans ?_ hu
    show (u.engineWrite j x bs).team? y = _
    cases x with
    | slice l o => rfl
    | team z c => exact team?_modTeam_other u (fun t => t.putScratch c bs) (fun _ => rfl) fun e => hat c (by rw [e])
    | acc a => rfl
    | host va hpa =>
      cases va with
      | none => exact team?_congr (congrArg State.teams (homeWrite_butGlobal u hpa bs false) :) y
      | some va => exact team?_congr (congrArg State.teams (glWrite_butGlobal u j.ctx j.rev va hpa bs false) :) y

/-- Rows whose places lie apart in one team's scratch stand there, where the count does not go to it. -/
theorem rowsPut_rows {ps : List (List Byte)} {start i y : Nat} {b : Nat → Nat} {ty : Team} {count : List Byte} (hy : s.team? y = some ty)
    (hlen : ∀ k (hk : k < ps.length), ps[k].length = 16)
    (hat : ∀ k, k < ps.length → (s.engineAt j .store (fieldOf j.card 192 8) ((start + 16 * k : Nat) : Int) 16).1 = .ok (.team y (b k)) ∧
      ∀ l, l < ps.length → k ≠ l → b k + 16 ≤ b l ∨ b l + 16 ≤ b k)
    (hz : ∀ z c, (s.engineAt j .store (fieldOf j.card 208 8) ((4 * i : Nat) : Int) 4).1 = .ok (.team z c) → z ≠ y) :
    ∃ ty', (s.rowsPut j ps start i count).team? y = some ty' ∧ ∀ k (hk : k < ps.length), ty'.mem.read (b k) 16 = ps[k] := by
  have hput := enginePut_team fun k hk => (hat k hk).1
  have hcount : ∀ c, ((s.enginePut j (fieldOf j.card 192 8) 16 ps start).engineAt j .store (fieldOf j.card 208 8) ((4 * i : Nat) : Int) 4).1 ≠
      .ok (.team y c) := fun c hc =>
    hz y c (by rw [engineAt_team hc (enginePut_bench j (fieldOf j.card 192 8) 16 ps s start).symm]) rfl
  refine ⟨ty.putPieces (ps.mapIdx fun k bs => (b k, bs)), ?_, fun k hk => ?_⟩
  · unfold State.rowsPut
    rw [enginePut_team_other hcount, hput, team?_modTeam s y (fun x => x.putPieces _) fun _ e => e, hy, Option.map_some]
  · have hmem : (b k, ps[k]) ∈ ps.mapIdx fun k bs => (b k, bs) := List.mem_mapIdx.mpr ⟨k, hk, rfl⟩
    have hread := putPieces_read (m := ty.mem) (fun p hp q hq hpq => ?_) hmem
    · rw [hlen k hk] at hread
      exact hread
    · obtain ⟨x, hx, rfl⟩ := List.mem_mapIdx.mp hp
      obtain ⟨z, hz, rfl⟩ := List.mem_mapIdx.mp hq
      have hne : x ≠ z := fun e => hpq (by subst e; rfl)
      simpa [hlen x hx, hlen z hz] using (hat x hx).2 z hz hne

/-! ### Deadlines and failures (R371/18, R387/19) -/

theorem exec_exchangeDeadlineExpiry_early (hj : s.job? j.id = some j) (hl : s.exchangeLate j = false) :
    exec (.exchangeDeadlineExpiry j.id) s = .next s := by
  show execExchangeDeadlineExpiry j.id s = _
  simp [execExchangeDeadlineExpiry, hj, hl]

theorem exec_exchangeDeadlineExpiry_late (hj : s.job? j.id = some j) (he : j.engine = 3) (hl : s.exchangeLate j = true) :
    exec (.exchangeDeadlineExpiry j.id) s = .next (s.failExchange j 0) := by
  show execExchangeDeadlineExpiry j.id s = _
  simp [execExchangeDeadlineExpiry, hj, he, hl]

theorem exec_streamFailedByPeer_acked (hj : s.job? j.id = some j) {n : Nat} (ha : j.acked.contains n = true) :
    exec (.streamFailedByPeer j.id n) s = .next s := by
  show execStreamFailedByPeer j.id n s = _
  unfold execStreamFailedByPeer
  rw [hj]
  exact if_neg fun h => h.2.2.2 ha

theorem exec_streamFailedByPeer_fails (hj : s.job? j.id = some j) {n : Nat} (he : j.engine = 3) (hs : j.started = true)
    (hsent : ∃ x ∈ j.sent, x.1 = n) (ha : j.acked.contains n = false) :
    exec (.streamFailedByPeer j.id n) s = .next (s.failExchange j 0) := by
  show execStreamFailedByPeer j.id n s = _
  unfold execStreamFailedByPeer
  rw [hj]
  exact if_pos ⟨he, hs, by simpa using hsent, by rw [ha]; exact Bool.false_ne_true⟩

theorem failExchange_keeps_gone {n : Nat} (hs : s.jobGone n) (j : Job) (code : Nat) : (s.failExchange j code).jobGone n := by
  have hjobs : (s.failExchange j code).jobs = s.jobs.filter fun x => !(x.id == j.id) := congrArg Prod.fst (failExchange_roster s j code)
  intro x hx
  rw [hjobs] at hx
  exact hs x (List.mem_filter.mp hx).1

/-- Every job that awaits a module which fails is gone. -/
theorem exec_peerModuleFailure_gone (s : State) (m : Nat) : ∃ t, exec (.peerModuleFailure m) s = .next t ∧ m ∈ t.peersDown ∧
    ∀ j ∈ s.jobs, j.awaits m = true → t.jobGone j.id := by
  refine ⟨_, rfl, ?down, fun j hj hm => ?gone⟩
  case down =>
    refine (foldl_keep _ State.peersDown (fun u j => congrArg Prod.snd (failExchange_roster u j _)) _ _).symm ▸ ?_
    by_cases hm : m ∈ s.peersDown <;> simp [hm]
  case gone =>
    have hlisted : j ∈ s.jobs.filter fun j => j.awaits m := List.mem_filter.mpr ⟨hj, hm⟩
    exact foldl_establishes (fun u => u.jobGone j.id) (fun u hu k => failExchange_keeps_gone hu k _) (fun u => failExchange_gone u j _) hlisted _

theorem awaits_of {m i : Nat} (he : j.engine = 3) (hs : j.started = true) (hm : j.peers[i]? = some m) (ha : j.acked.contains i = false) :
    j.awaits m = true := by
  have hi : i < j.peers.length := (List.getElem?_eq_some_iff.mp hm).1
  unfold Job.awaits
  simp only [he, hs, beq_self_eq_true, Bool.true_and, List.any_eq_true, List.mem_range]
  exact ⟨i, hi, by rw [hm, ha, beq_self_eq_true]; rfl⟩

end Sys2Proof.Machine
end

section
/-! SUPPORT. The events of engine jobs, each by what it makes of the machine (R219 to R223/10, R249/11, R321, R322/15, R334, R335/16, R367 to
R371/18). Settles O53. -/

namespace Sys2Proof.Machine

variable {s : State} {j : Job}

/-! ### The values of a merge (R335/16) -/

theorem elemFloat_none {code : Nat} (hc : code < 8) : elemFloat code = none := by
  interval_cases code <;> rfl

/-- Where one side has changed an element, CHILD and PARENT take its value (R335/16). -/
theorem mergeElem_changed (code p c a : Nat) :
    mergeElem 1 code p c a = (if c = a then p else c) ∧ mergeElem 2 code p c a = if p = a then c else p := by
  show (if c ≠ a then c else p) = _ ∧ (if p ≠ a then p else c) = _
  exact ⟨ite_not .., ite_not ..⟩

/-- The sum of a merge is taken modulo the element's size (R335/16). -/
theorem mergeElem_sum {code a : Nat} (p c : Nat) (ha : a ≤ 2 ^ (8 * elemSize code)) :
    (mergeElem 3 code p c a : Int) = ((p : Int) + c - a) % 2 ^ (8 * elemSize code) := by
  have hsum : mergeElem 3 code p c a = (p + c + (2 ^ (8 * elemSize code) - a)) % 2 ^ (8 * elemSize code) := rfl
  rw [hsum]
  push_cast [ha]
  rw [show (p : Int) + c + (2 ^ (8 * elemSize code) - a) = (p + c - a) + 2 ^ (8 * elemSize code) by ring, Int.add_emod_right]

theorem mergeElem_bound {code : Nat} (p c a : Nat) (hc : code < 8) :
    let val := fun (x : Nat) => if code < 4 then (BitVec.ofNat (8 * elemSize code) x).toInt else (x : Int)
    mergeElem 5 code p c a = (if val p < val c then c else p) ∧ mergeElem 6 code p c a = if val c < val p then c else p := by
  show mergeBound code true p c = _ ∧ mergeBound code false p c = _
  unfold mergeBound
  rw [elemFloat_none hc]
  exact ⟨rfl, rfl⟩

theorem mergeElem_float {code : Nat} {f : Fmt} (p c a : Nat) (hf : elemFloat code = some f) :
    mergeElem 4 code p c a = (fop f .add .rne false p (fop f .sub .rne false c a 0).bits 0).bits ∧
      mergeElem 5 code p c a = (fop f .max .rne false p c 0).bits ∧ mergeElem 6 code p c a = (fop f .min .rne false p c 0).bits := by
  refine ⟨?_, ?_, ?_⟩
  · show (match elemFloat code with | some f => mergeFloat f .add p (mergeFloat f .sub c a) | none => p) = _
    rw [hf]
    rfl
  · show mergeBound code true p c = _
    unfold mergeBound
    rw [hf]
    rfl
  · show mergeBound code false p c = _
    unfold mergeBound
    rw [hf]
    rfl

/-! ### A chunk copied from one team's scratch to another's -/

/-- A chunk's elements are read at places of team `x`'s scratch, and go to places of team `y`'s that lie apart. -/
def State.ChunkBetween (s : State) (j : Job) (n x y : Nat) (a b : Nat → Nat) : Prop :=
  ∀ e ∈ (tileOf j.card).chunkElems n,
    (s.engineAt j .load (tileOf j.card).src ((tileOf j.card).offsets e).1 (2 ^ (tileOf j.card).log)).1 = .ok (.team x (a e)) ∧
    (s.engineAt j .store (tileOf j.card).dst ((tileOf j.card).offsets e).2 (2 ^ (tileOf j.card).log)).1 = .ok (.team y (b e)) ∧
    ∀ f ∈ (tileOf j.card).chunkElems n, e ≠ f → b e + 2 ^ (tileOf j.card).log ≤ b f ∨ b f + 2 ^ (tileOf j.card).log ≤ b e

/-- Team memory `m'` is `m` with the chunk's elements, read in `src` at `a`, standing at `b`. -/
def ChunkStands (j : Job) (n : Nat) (a b : Nat → Nat) (src m m' : Memory) : Prop :=
  (∀ e ∈ (tileOf j.card).chunkElems n, m'.read (b e) (2 ^ (tileOf j.card).log) = src.read (a e) (2 ^ (tileOf j.card).log)) ∧
    ∀ k, (∀ e ∈ (tileOf j.card).chunkElems n, k < b e ∨ b e + 2 ^ (tileOf j.card).log ≤ k) → m'.get k = m.get k

/-- An element's place and its bytes. -/
def chunkPiece (j : Job) (a b : Nat → Nat) (src : Memory) (e : Nat) : Nat × List Byte := (b e, src.read (a e) (2 ^ (tileOf j.card).log))

theorem length_chunkPiece (a b : Nat → Nat) (src : Memory) (e : Nat) : (chunkPiece j a b src e).2.length = 2 ^ (tileOf j.card).log :=
  memory_read_length _ _ _

theorem chunkCopied_scratch {n x y : Nat} {tx ty : Team} {a b : Nat → Nat} (hxy : x ≠ y) (hx : s.team? x = some tx) (hy : s.team? y = some ty)
    (hat : s.ChunkBetween j n x y a b) :
    ∃ ty', (s.chunkCopied j n).team? y = some ty' ∧ ChunkStands j n a b tx.mem ty.mem ty'.mem := by
  have hcopied := copyElems_team hxy hx fun e he => ⟨(hat e he).1, (hat e he).2.1⟩
  refine ⟨ty.putPieces (((tileOf j.card).chunkElems n).map (chunkPiece j a b tx.mem)), ?_, fun e he => ?_, fun k hk => ?_⟩
  · show (s.copyElems j (tileOf j.card) ((tileOf j.card).chunkElems n)).team? y = _
    rw [hcopied, team?_modTeam s y (fun z => z.putPieces _) fun _ e => e, hy, Option.map_some]
    rfl
  · have hread := putPieces_read (m := ty.mem) (fun p hp q hq hpq => ?_) (List.mem_map_of_mem (f := chunkPiece j a b tx.mem) he)
    · rw [length_chunkPiece] at hread
      exact hread
    · obtain ⟨f, hf, rfl⟩ := List.mem_map.mp hp
      obtain ⟨g, hg, rfl⟩ := List.mem_map.mp hq
      rw [length_chunkPiece, length_chunkPiece]
      exact (hat f hf).2.2 g hg fun e => hpq (by rw [e])
  · refine putPieces_get_outside fun p hp => ?_
    obtain ⟨e, he, rfl⟩ := List.mem_map.mp hp
    rw [length_chunkPiece]
    exact hk e he

/-! ### A chunk that has landed -/

theorem chunkLanded_job? {n : Nat} (hj : s.job? j.id = some j) (bytes : Nat) :
    ((s.chunkCopied j n).chunkSignal j n bytes).job? j.id = some { j with landed := j.landed ++ [n] } :=
  (job?_congr (congrArg Prod.fst (chunkSignal_frame (s.chunkCopied j n) j n bytes).1) j.id).trans (chunkCopied_job? hj n)

theorem chunkLanded_bit {n x : Nat} {tm : Team} (hk : cardKind j.card = 1) (hteam : j.team = some x) (hx : s.team? x = some tm)
    (hbit : (tileOf j.card).base + n < 256) (bytes : Nat) : ∃ tm', ((s.chunkCopied j n).chunkSignal j n bytes).team? x = some tm' ∧
      (cget 0 tm'.maps (cardTarget j.card)).getLsbD ((tileOf j.card).base + n) = true := by
  obtain ⟨tc, hc, -⟩ := chunkCopied_team? hx j
  exact chunkSignal_bit hk hteam hc hbit

theorem chunkLanded_credit {n x bytes : Nat} {tm : Team} (hk : cardKind j.card = 2) (hteam : j.creditTeam = some x) (hx : s.team? x = some tm)
    (hroom : -(2 ^ 31 : Int) ≤ tm.pend - tm.expected - bytes) :
    ∃ tm', ((s.chunkCopied j n).chunkSignal j n bytes).team? x = some tm' ∧ tm'.pend = tm.pend - bytes := by
  obtain ⟨tc, hc, hbare⟩ := chunkCopied_team? (n := n) hx j
  have hpend : tc.pend = tm.pend := (congrArg Team.pend hbare :)
  have hexpected : tc.expected = tm.expected := (congrArg Team.expected hbare :)
  rw [← hpend, ← hexpected] at hroom
  rw [← hpend]
  exact chunkSignal_credit hk hteam hc hroom

theorem chunkLanded_mem {n : Nat} (hk : cardKind j.card ≠ 2) (bytes : Nat) :
    ((s.chunkCopied j n).chunkSignal j n bytes).mem = (s.copyElems j (tileOf j.card) ((tileOf j.card).chunkElems n)).mem :=
  chunkSignal_mem (s.chunkCopied j n) hk n bytes

/-- A chunk of one element whose places are memory: its bytes are written there and nowhere else. -/
theorem chunkLanded_global {n e : Nat} {a b : Target} {va hpa : Nat} {bs : List Byte} {s1 s2 s3 : State} (hk : cardKind j.card ≠ 2)
    (he : (tileOf j.card).chunkElems n = [e])
    (hload : s.engineAt j .load (tileOf j.card).src ((tileOf j.card).offsets e).1 (2 ^ (tileOf j.card).log) = (.ok a, s1))
    (hread : s1.engineRead j a (2 ^ (tileOf j.card).log) = (bs, s2))
    (hstore : s2.engineAt j .store (tileOf j.card).dst ((tileOf j.card).offsets e).2 (2 ^ (tileOf j.card).log) = (.ok b, s3))
    (hb : b = .host (some va) hpa) (hp : hpa < peerBase) (hr : (s.ctx j.ctx).regionOf va = none) (bytes : Nat) :
    ((s.chunkCopied j n).chunkSignal j n bytes).mem.read hpa bs.length = bs ∧
      ∀ k, k < hpa ∨ hpa + bs.length ≤ k → ((s.chunkCopied j n).chunkSignal j n bytes).mem.get k = s.mem.get k := by
  subst hb
  rw [chunkLanded_mem hk, he, copyElems_global hload hread hstore hp hr]
  exact ⟨memory_read_write_same s.mem hpa bs, fun k => memory_get_write_outside s.mem hpa k bs⟩

theorem chunkLanded_scratch {n x y : Nat} {tx ty : Team} {a b : Nat → Nat} (hxy : x ≠ y) (hx : s.team? x = some tx) (hy : s.team? y = some ty)
    (hat : s.ChunkBetween j n x y a b) (bytes : Nat) :
    ∃ ty', ((s.chunkCopied j n).chunkSignal j n bytes).team? y = some ty' ∧ ChunkStands j n a b tx.mem ty.mem ty'.mem := by
  obtain ⟨tc, hc, hcopied⟩ := chunkCopied_scratch hxy hx hy hat
  obtain ⟨ty', hty, hmem⟩ := mem_of_scratches (chunkSignal_frame (s.chunkCopied j n) j n bytes).2 hc
  rw [← hmem] at hcopied
  exact ⟨ty', hty, hcopied⟩

/-! ### Rows that have landed -/

theorem streamLanded_count {st : Stream} {ps : List (List Byte)} {start i bytes z c x : Nat} {tz : Team}
    (hz : (s.engineAt j .store (fieldOf j.card 208 8) ((4 * i : Nat) : Int) 4).1 = .ok (.team z c)) (htz : s.team? z = some tz) :
    ∃ tz', (s.streamLanded j st ps start i bytes (bytesOfNat 4 x)).team? z = some tz' ∧ tz'.mem.read c 4 = bytesOfNat 4 x := by
  have hcount := rowsPut_count (ps := ps) (start := start) (count := bytesOfNat 4 x) hz htz
  rw [length_bytesOfNat] at hcount
  exact hcount

theorem streamLanded_rows {st : Stream} {data count : List Byte} {put start i bytes y : Nat} {b : Nat → Nat} {ty : Team}
    (hy : s.team? y = some ty) (hlen : 16 * put ≤ data.length)
    (hat : ∀ k, k < put → (s.engineAt j .store (fieldOf j.card 192 8) ((start + 16 * k : Nat) : Int) 16).1 = .ok (.team y (b k)) ∧
      ∀ l, l < put → k ≠ l → b k + 16 ≤ b l ∨ b l + 16 ≤ b k)
    (hz : ∀ z c, (s.engineAt j .store (fieldOf j.card 208 8) ((4 * i : Nat) : Int) 4).1 = .ok (.team z c) → z ≠ y) :
    ∃ ty', (s.streamLanded j st (pieces 16 put data) start i bytes count).team? y = some ty' ∧
      ∀ k, k < put → ty'.mem.read (b k) 16 = (data.drop (16 * k)).take 16 := by
  have hpiece : ∀ k (hk : k < (pieces 16 put data).length), (pieces 16 put data)[k] = (data.drop (16 * k)).take 16 := fun k hk =>
    (List.getElem_eq_iff hk).mpr (getElem?_pieces 16 put k data (by rwa [length_pieces] at hk))
  obtain ⟨ty', hty, hread⟩ := rowsPut_rows (ps := pieces 16 put data) (count := count) hy
    (fun k hk => by
      rw [hpiece k hk, List.length_take, List.length_drop]
      rw [length_pieces] at hk
      omega)
    (by rwa [length_pieces]) hz
  exact ⟨ty', hty, fun k hk => (hread k (by rwa [length_pieces])).trans (hpiece k (by rwa [length_pieces]))⟩

/-- Settles O53, event by event. -/
theorem engineEvents : Obligations.EngineEvents := by
  unfold Obligations.EngineEvents
  refine fun s => ⟨fun id j hj => ?jobs, fun st => ⟨fun hd => ?header, fun data hd => ?rows⟩, exec_exchangeHeaderAdmission_none,
    fun x => exec_exchangeHeaderAdmission_some, fun h => exec_exchangeHeaderAdmission_none (find?_fits_none h),
    fun code p c a hcode ha => ?merge, fun m => ?peer⟩
  case jobs =>
    obtain rfl := job?_id hj
    refine ⟨exec_jobStart_held hj, fun hm he => ?plain, fun hm he => ?startMerge, fun a b hm he ha hb => ?startExchange,
      fun n he hs hw hn hl => ?chunk, fun n => exec_copyChunkLanding_landed hj, fun he hs hw => ?copyDone,
      fun ps he hs hw => exec_jobCompletion_winnow hj hs hw he, fun he hw hx => ?exchangeDone, exec_jobCompletion_unstarted hj,
      fun a ha => ?wait, exec_jobReplay_uncut hj, fun f hc hmay hf => ?replay, fun hc hno => ?refused, fun he hl => ?late,
      exec_exchangeDeadlineExpiry_early hj, fun n he hs hsent ha => ?lost, fun n => exec_streamFailedByPeer_acked hj,
      fun vl rest he hs hw hl => ?line, fun vl rest c a he hs hw hl herr hc => ?skipped, exec_mergeLineAction_idle hj,
      exec_joinCompletion_lines hj, fun k h d w he hs hl hp hk htl hd hw hpc => ?join⟩
    case plain => exact ⟨_, exec_jobStart_plain hj hm he, job?_markStarted hj, markStarted_frame s j⟩
    case startMerge => exact ⟨_, exec_jobStart_merge hj hm he, job?_mergeStarted hj, mergeStarted_frame s j⟩
    case startExchange =>
      refine ⟨fun hbad => ⟨_, exec_jobStart_exchange hj hm he, startExchange_fails ha hb hbad⟩, fun hgood hup => ?_⟩
      exact ⟨_, (exec_jobStart_exchange hj hm he).trans (congrArg _ (startExchange_starts ha hb hgood hup)), exchangeStarted_job? hj _ _, rfl, rfl,
        exchangeStarted_frame s j _ _⟩
    case chunk =>
      refine ⟨fun hgo => ⟨_, exec_copyChunkLanding_lands hj he hs hw hn hl hgo, chunkLanded_job? hj _, ?signal⟩,
        fun hgo => ⟨_, exec_copyChunkLanding_lands hj he hs hw hn hl hgo, ?bytes,
          fun x y tx ty a b hxy hx hy hat => chunkLanded_scratch hxy hx hy hat _⟩,
        fun a hstop => ⟨_, exec_copyChunkLanding_stops hj he hs hw hn hl hstop, stopJob_waits hj a⟩,
        fun c a hstop hc => ⟨_, exec_copyChunkLanding_stops hj he hs hw hn hl hstop, engineFault_gone s j hc a⟩⟩
      case signal =>
        exact ⟨fun x tm hk hteam hx hbit => chunkLanded_bit hk hteam hx hbit _,
          fun x tm hk hteam hx hroom => chunkLanded_credit hk hteam hx hroom⟩
      case bytes =>
        exact fun hk => ⟨chunkLanded_mem hk _, fun e a b va hpa bs s1 s2 s3 h1 hload hread hstore hb hp hr =>
          chunkLanded_global hk h1 hload hread hstore hb hp hr _⟩
    case copyDone =>
      have hexec := exec_jobCompletion_copy hj hs hw he
      refine ⟨fun hall => ⟨s.completeJob j, hexec.trans (if_pos hall), completeJob_gone s j, (completeJob_frame s j).1, (completeJob_frame s j).2,
        fun r hr hk => completeJob_token hr (by omega) hk⟩, fun hleft => hexec.trans (if_neg (Nat.not_le.mpr hleft))⟩
    case exchangeDone =>
      have hs : j.started = true := by
        unfold Job.exchanged at hx
        exact (Bool.and_eq_true_iff.mp hx).1
      exact ⟨_, exec_jobCompletion_exchange hj hs hw he hx, completeJob_gone s j, (completeJob_frame s j).1⟩
    case wait =>
      refine ⟨exec_engineXlate2Timeout_early hj ha, exec_engineXlate2Timeout_late hj ha, fun hm hrows => ?_,
        exec_engineAccessMappingMade_unmapped hj ha⟩
      exact ⟨_, exec_engineAccessMappingMade_mapped hj ha hm hrows,
        (job?_modJob s j.id (fun x => { x with waitAddr := none }) fun _ e => e).trans (congrArg (Option.map _) hj), rfl⟩
    case replay =>
      have hexec := exec_jobReplay_allowed hj hc hmay hf
      exact ⟨fun hroom => ⟨_, j.again f, hexec.trans (if_pos hroom), rfl, rfl, rfl, rfl, rfl, rfl, rfl, rfl, rfl, rfl, rfl⟩,
        fun hfull => hexec.trans (if_neg (by rw [hfull]; exact Bool.false_ne_true))⟩
    case refused =>
      have hexec := exec_jobReplay_refused hj hc hno
      refine ⟨exec_jobReplay_fails hj hc hno, fun he hs hl => ?_,
        fun he hleft => ⟨s.endMerge j, hexec.trans (by rw [if_pos he]), endMerge_ends hj ?_⟩⟩
      · rw [hexec, if_pos he, State.endMerge, if_pos ⟨hs, hl⟩]
      · rintro ⟨hs, hl⟩
        exact hleft.elim (fun h => by simp [hs] at h) fun h => h hl
    case late => exact ⟨_, exec_exchangeDeadlineExpiry_late hj he hl, failExchange_gone s j 0⟩
    case lost => exact ⟨_, exec_streamFailedByPeer_fails hj he hs hsent ha, failExchange_gone s j 0⟩
    case line =>
      have hexec := exec_mergeLineAction_line hj he hs hw hl
      refine ⟨fun u st hok => by rw [hexec, hok], fun a herr => ?_⟩
      rw [hexec, herr]
      exact ⟨_, rfl, stopJob_waits hj a⟩
    case skipped =>
      have hexec := exec_mergeLineAction_line hj he hs hw hl
      rw [hexec, herr]
      exact ⟨_, if_neg hc, skipLine_job? hj c a rest⟩
    case join =>
      obtain ⟨h', hjoined⟩ := joinCompletion_spec hk htl hpc j rfl
      obtain ⟨hgone, hrest⟩ := hjoined
      exact ⟨_, h', exec_joinCompletion_joins hj he hs hl hp hk hd hw, hgone, hrest⟩
  case header =>
    have harrives := exec_exchangeStreamArrival_header (s := s) hd
    refine ⟨fun hf => by rw [harrives, hf]; rfl, fun hf => by rw [harrives, hf]; rfl, fun hno => ?_⟩
    have hfits := fits_of_no_match hno
    refine ⟨fun hfull => ?full, fun hroom => ?room, fun rest hrest hroom => ?enters⟩
    case full =>
      rw [harrives, hfits, decide_eq_false (Nat.not_lt.mpr hfull)]
      rfl
    case room =>
      rw [harrives, hfits, decide_eq_true hroom]
      rfl
    case enters =>
      rw [exec_exchangeHeaderAdmission_some (by rw [hrest, List.find?_cons_of_pos (by rw [hfits]; simpa using hroom)]) hd, hrest,
        List.erase_cons_head]
  case rows =>
    refine ⟨exec_exchangeStreamArrival_unknown hd, fun j hr hj => ⟨exec_exchangeStreamArrival_again hd hr, fun i hs hw hi hk => ?_⟩⟩
    refine ⟨fun a hput => exec_exchangeStreamArrival_waits hi rfl hd hr hs hw hput, fun hput hcount => ?_⟩
    refine ⟨_, exec_exchangeStreamArrival_lands hi rfl hd hr hs hw hk rfl rfl rfl hput hcount, streamLanded_exHeaders ..,
      streamLanded_job? hj .., rfl, fun z c tz hz htz => streamLanded_count hz htz,
      fun y ty b hy hlen hat hz => streamLanded_rows hy hlen hat hz⟩
  case merge =>
    obtain ⟨hchild, hparent⟩ := mergeElem_changed code p c a
    exact ⟨hchild, hparent, mergeElem_sum p c ha, fun f hf => mergeElem_float p c a hf, mergeElem_bound p c a, rfl, rfl⟩
  case peer =>
    obtain ⟨t, hexec, hdown, hgone⟩ := exec_peerModuleFailure_gone s m
    exact ⟨t, hexec, hdown, fun j hj he hs ⟨i, hm, ha⟩ => hgone j hj (awaits_of he hs hm ha)⟩

end Sys2Proof.Machine
end

section
/-! SUPPORT. Traps and returns (R229 to R233/11, R340/16, R377/18): what entering a handler and leaving one make of the sheaf, and what a trap
without a handler makes of the launch. Settles O21, O22 and O23. -/

namespace Sys2Proof.Machine

variable {s u : State} {i : Issue} {h : Sheaf} {l : Launch} {c : Cause}

/-! ### Entering a handler (R229, R230/11) -/

section
variable (h : Sheaf) (v : Vaddr) (r : TrapRegs) (again : Option Replay)

theorem enterTrap_lanes : (h.enterTrap v r again).lanes = h.lanes.mapIdx fun n ln =>
    { ln with
      held := ln.pc
      pc := if h.handlerLanes.getLsbD n then v else ln.pc
      outer := if h.tl = 1 then ln.held else ln.outer } := by
  unfold Sheaf.enterTrap
  split <;> exact List.ext_getElem (by simp) fun n _ _ => by simp [*]

theorem enterTrap_skips : (h.enterTrap v r again).skips = (h.watchSkip, h.lanes.map Lane.skipPc) :: h.skips := by
  unfold Sheaf.enterTrap
  split <;> simp [Function.comp_def]

/-- The outer frame is saved at level 1 (R230/11). -/
theorem enterTrap_outer_level1 (hl : h.tl = 1) :
    (h.enterTrap v r again).outer = h.trap ∧ (h.enterTrap v r again).outerReplay = h.replay := by
  simp only [Sheaf.enterTrap, if_pos hl, and_self]

theorem enterTrap_outer_level0 (hl : h.tl = 0) :
    (h.enterTrap v r again).outer = h.outer ∧ (h.enterTrap v r again).outerReplay = h.outerReplay := by
  simp [Sheaf.enterTrap, hl]

theorem enterTrap_ends : (h.enterTrap v r again).waits = h.waits.filter (fun w => w.kind.holds) ∧
    (h.enterTrap v r again).pend = h.pend.map (fun p => { p with windows := [] }) ∧ (h.enterTrap v r again).watchSkip = 0 := by
  unfold Sheaf.enterTrap
  split <;> exact ⟨rfl, rfl, rfl⟩

/-- Entering a handler changes nothing else of the sheaf. -/
theorem enterTrap_rest : ({ h.enterTrap v r again with
    trap := h.trap, outer := h.outer, outerReplay := h.outerReplay, replay := h.replay, tl := h.tl, lanes := h.lanes, skips := h.skips
    waits := h.waits, pend := h.pend, stalled := h.stalled, blocked := h.blocked, watchSkip := h.watchSkip } : Sheaf) = h := by
  unfold Sheaf.enterTrap
  split <;> rfl

end

/-- A lane of a sheaf whose lanes are those of another, each changed by its number. -/
theorem lane_of_mapIdx {g : Sheaf} {f : Nat → Lane → Lane} (hg : g.lanes = h.lanes.mapIdx f) {n : Nat} (hn : n < h.lanes.length) :
    g.lane n = f n (h.lane n) := by
  unfold Sheaf.lane
  rw [hg, List.getD_eq_getElem _ _ (by simpa using hn), List.getD_eq_getElem _ _ hn, List.getElem_mapIdx]

theorem trapAll_of (hi : s.Issuing i h) (c : Cause) (info : Nat) (addr : Dword) :
    s.trapAll c info addr = s.takeTrap i.sheaf c info addr i.lanes i.pc none := by
  simp only [State.trapAll, hi.1]

/-- Outside the sheaf that a change is made of, only caches differ where only they did before it. -/
theorem onlyCaches_modSheaf (ho : OnlyCaches s u) (k : Nat) (f : Sheaf → Sheaf) :
    OnlyCaches s { u.modSheaf k f with sheaves := s.sheaves } := by
  have hsheaves : u.sheaves = s.sheaves := (congrArg State.sheaves ho.1 :)
  have hsame : ({ u.modSheaf k f with sheaves := s.sheaves } : State) = u := by rw [← hsheaves]; rfl
  rwa [hsame]

/-- Settles O21: the trap reads its vector, which changes only caches, then the sheaf enters the handler. -/
theorem trapEntry : Obligations.TrapEntry := by
  unfold Obligations.TrapEntry
  intro s i h c info addr hi hopen htl hvec t vec
  have hcaches := onlyCaches_vectorEntry s h.core h.ctx c
  let regs : TrapRegs := ⟨tcauseOf c info, (addr.setWidth 56).setWidth 64, i.lanes, i.pc.setWidth 64⟩
  have ht : t = (s.vectorEntry h.core h.ctx c).2.modSheaf i.sheaf fun g => g.enterTrap vec regs none :=
    (trapAll_of hi c info addr).trans (takeTrap_enters hi.2 c info addr i.lanes i.pc none hopen htl hvec)
  obtain ⟨htrap, hlevel, hreplay, -, -, -, -, -, -, -, -, hlength⟩ := enterTrap_frame h vec regs none
  obtain ⟨hwaits, hpend, hwatch⟩ := enterTrap_ends h vec regs none
  have hid : ∀ g : Sheaf, (g.enterTrap vec regs none).id = g.id := fun g => enterTrap_id g vec regs none
  refine ⟨h.enterTrap vec regs none, ?issuing, fun k hk => ?others, ?outside, htrap, hlevel, hreplay,
    enterTrap_outer_level1 h vec regs none, enterTrap_outer_level0 h vec regs none, hlength,
    fun n hn => lane_of_mapIdx (enterTrap_lanes h vec regs none) hn, hwaits, hpend, hwatch, enterTrap_skips h vec regs none,
    enterTrap_rest h vec regs none⟩
  case issuing => rw [ht, sheaf?_modSheaf _ _ _ _ hid, if_pos rfl, onlyCaches_sheaf hcaches, hi.2]; rfl
  case others => rw [ht, sheaf?_modSheaf _ _ _ _ hid, if_neg hk, onlyCaches_sheaf hcaches]
  case outside => rw [ht]; exact onlyCaches_modSheaf hcaches _ _

/-! ### A trap without a handler (R230, R231/11) -/

theorem launchOf_of (hl : s.launch? h.launch = some l) : s.launchOf h = l := by rw [State.launchOf, hl]; rfl

/-- A trap at level 2, or with vector entry 0, ends the launch; at most caches differ before. -/
theorem takeTrap_ends {k : Nat} (hs : s.sheaf? k = some h) (info : Nat) (addr : Dword) (lanes : Mask) (pc : Vaddr) (again : Option Replay)
    (hopen : (s.launchOf h).closed = false) (hn : c ≠ .notice) (he : c ≠ .expand)
    (hv : 2 ≤ h.tl ∨ (s.vectorEntry h.core h.ctx c).1 = 0) :
    ∃ u, OnlyCaches s u ∧ s.takeTrap k c info addr lanes pc again = u.endLaunch h c := by
  unfold State.takeTrap
  simp only [hs, hopen, Bool.false_eq_true, if_false]
  by_cases htl : 2 ≤ h.tl
  · exact ⟨s, onlyCaches_refl s, if_pos htl⟩
  · exact ⟨_, onlyCaches_vectorEntry s h.core h.ctx c, (if_neg htl).trans (if_pos (hv.resolve_left htl))⟩

theorem endLaunch_launch? (hl : s.launch? h.launch = some l) : (s.endLaunch h c).launch? h.launch = some
    { l with ended := some (match l.ended with
      | none => (causeCode c, h.number, endKey h s.now)
      | some (code, n, key) => if key.headD 0 = s.now ∧ keyLt (endKey h s.now) key then (causeCode c, h.number, endKey h s.now)
        else (code, n, key)) } := by
  unfold State.endLaunch
  rw [launch?_modLaunch _ _ _ fun x hx => ?id, hl]
  case id => split <;> [exact hx; (split <;> exact hx)]
  obtain he | ⟨⟨code, n, key⟩, he⟩ := Option.eq_none_or_eq_some l.ended
  · simp only [Option.map_some, he]
  · simp only [Option.map_some, he]
    split
    · rfl
    · rw [← he]

/-- Settles O22: the launch of the trapping sheaf is ended, and beside it at most caches differ. -/
theorem unhandledTrapEndsLaunch : Obligations.UnhandledTrapEndsLaunch := by
  unfold Obligations.UnhandledTrapEndsLaunch
  intro s i h l c info addr hi hl hopen hnotice hexpand hvec t mine
  obtain ⟨u, hcaches, hend⟩ := takeTrap_ends hi.2 info addr i.lanes i.pc none ((congrArg Launch.closed (launchOf_of hl)).trans hopen)
    hnotice hexpand hvec
  have ht : t = u.endLaunch h c := (trapAll_of hi c info addr).trans hend
  have hnow : u.now = s.now := (congrArg State.now hcaches.1 :)
  have hlaunch : u.launch? h.launch = some l := (launch?_congr (congrArg State.launches hcaches.1 :) _).trans hl
  have hended := endLaunch_launch? (c := c) hlaunch
  rw [← ht, hnow] at hended
  refine ⟨?sheaves, ?mem, ?teams, ?jobs, fun hnone => ?first, fun code n key hsome => ?again⟩
  case sheaves => rw [ht]; exact (congrArg State.sheaves hcaches.1 :)
  case mem => rw [ht]; exact (congrArg State.mem hcaches.1 :)
  case teams => rw [ht]; exact (congrArg State.teams hcaches.1 :)
  case jobs => rw [ht]; exact (congrArg State.jobs hcaches.1 :)
  case first => rw [hended, hnone]
  case again => rw [hended, hsome]

/-! ### Leaving a handler (R232/11, R377/18) -/

/-- The sheaf that returns, by the cause and the handler lanes it returns from: a WATCH handler's lanes skip WATCH once (R377/18). -/
def Sheaf.returned (cause : Nat) (hl : Mask) (h : Sheaf) : Sheaf :=
  if cause = causeCode .watch then h.leaveTrap.skipWatch hl else h.leaveTrap

/-- The sheaf whose NOTICE has been answered (R233/11). -/
def Sheaf.noticeDone (h : Sheaf) : Sheaf := { h with noticeOut := false, noticePending := false, nleft := 0 }

theorem leaveTrap_lanes (h : Sheaf) : h.leaveTrap.lanes = h.lanes.mapIdx fun n ln =>
    { ln with
      pc := if (h.handlerLanes ||| h.exited ||| h.waitedAt (h.tl - 1)).getLsbD n then ln.held else ln.pc
      held := if h.tl = 2 then ln.outer else ln.held
      skipPc := (h.skips.headD (0, [])).2.getD n 0 } := by
  unfold Sheaf.leaveTrap
  simp only
  split <;> exact List.ext_getElem (by simp) fun n _ _ => by simp only [List.getElem_mapIdx, List.getElem_map, *]; split <;> simp

/-- At level 2 the outer frame is restored; the frame in force stays in the registers at level 1 (R232/11). -/
theorem leaveTrap_frame (h : Sheaf) : h.leaveTrap.trap = (if h.tl = 2 then h.outer else h.trap) ∧
    h.leaveTrap.replay = (if h.tl = 2 then h.outerReplay else none) := by
  by_cases hl : h.tl = 2 <;> simp only [Sheaf.leaveTrap, hl, if_true, if_false, and_self]

/-- The level, the WATCH skips and the waits that a return leaves (R232/11, R377/18). -/
theorem leaveTrap_level (h : Sheaf) : h.leaveTrap.tl = h.tl - 1 ∧ h.leaveTrap.watchSkip = (h.skips.headD (0, [])).1 ∧
    h.leaveTrap.skips = h.skips.tail ∧ h.leaveTrap.waits = h.waits.filter (fun w => !(w.kind == .held && decide (h.tl - 1 ≤ w.tl))) := by
  by_cases hl : h.tl = 2 <;> simp only [Sheaf.leaveTrap, hl, if_true, if_false, and_self]

/-- The return changes nothing else of the sheaf. -/
theorem leaveTrap_rest (h : Sheaf) : ({ h.leaveTrap with
    tl := h.tl, trap := h.trap, replay := h.replay, outerReplay := h.outerReplay, lanes := h.lanes, waits := h.waits
    watchSkip := h.watchSkip, skips := h.skips, stalled := h.stalled, blocked := h.blocked } : Sheaf) = h := by
  unfold Sheaf.leaveTrap
  simp only
  split <;> rfl

/-- A return differs from leaving the handler in the WATCH skips and the lanes' skip PCs only. -/
theorem returned_eq (cause : Nat) (m : Mask) (h : Sheaf) : ∃ w ls, h.returned cause m = { h.leaveTrap with watchSkip := w, lanes := ls } := by
  unfold Sheaf.returned
  split <;> exact ⟨_, _, rfl⟩

theorem returned_watchSkip (cause : Nat) (m : Mask) (h : Sheaf) : (h.returned cause m).watchSkip =
    if cause = causeCode .watch then (h.skips.headD (0, [])).1 ||| m else (h.skips.headD (0, [])).1 := by
  obtain ⟨-, hwatch, -, -⟩ := leaveTrap_level h
  rw [← hwatch]
  unfold Sheaf.returned
  split <;> rfl

/-- Where the lanes go. A WATCH handler's lanes have come back to their held PCs, so those are the PCs that they skip (R377/18). -/
theorem returned_lanes (cause : Nat) (h : Sheaf) : (h.returned cause h.handlerLanes).lanes = h.lanes.mapIdx fun n ln =>
    { ln with
      pc := if h.handlerLanes.getLsbD n ∨ h.exited.getLsbD n ∨ (h.waitedAt (h.tl - 1)).getLsbD n then ln.held else ln.pc
      held := if h.tl = 2 then ln.outer else ln.held
      skipPc := if cause = causeCode .watch ∧ h.handlerLanes.getLsbD n then ln.held else (h.skips.headD (0, [])).2.getD n 0 } := by
  unfold Sheaf.returned
  by_cases hc : cause = causeCode .watch
  · rw [if_pos hc, Sheaf.skipWatch, leaveTrap_lanes]
    refine List.ext_getElem (by simp) fun n _ _ => ?_
    by_cases hn : h.handlerLanes.getLsbD n = true <;> simp [hc, hn]
  · rw [if_neg hc, leaveTrap_lanes]
    simp only [hc, BitVec.getLsbD_or, Bool.or_eq_true, or_assoc, false_and, if_false]

theorem returned_rest (cause : Nat) (m : Mask) (h : Sheaf) : ({ h.returned cause m with
    tl := h.tl, trap := h.trap, replay := h.replay, outerReplay := h.outerReplay, lanes := h.lanes, waits := h.waits
    watchSkip := h.watchSkip, skips := h.skips, stalled := h.stalled, blocked := h.blocked } : Sheaf) = h := by
  obtain ⟨w, ls, he⟩ := returned_eq cause m h
  rw [he]
  exact leaveTrap_rest h

theorem returned_id (cause : Nat) (m : Mask) (h : Sheaf) : (h.returned cause m).id = h.id := (congrArg Sheaf.id (returned_rest cause m h) :)

/-! ### The return as an instruction (R377/18, R340/16) -/

theorem loadReplay_none {k : Nat} (hs : s.sheaf? k = some h) (hr : h.replay = none) : s.loadReplay k = (none, s) := by
  simp only [State.loadReplay, hs, hr]

/-- With nothing pending and no load to make again, the issuing sheaf leaves its handler. -/
theorem trapReturn_eq (hi : s.Issuing i h) (hp : h.pend = []) (hr : h.replay = none) : s.trapReturn =
    if (h.trap.tcause.extractLsb' 0 6).toNat = causeCode .notice then
      (s.modMe fun g => g.returned (h.trap.tcause.extractLsb' 0 6).toNat h.handlerLanes).noticeReturned i.sheaf
    else s.modMe fun g => g.returned (h.trap.tcause.extractLsb' 0 6).toNat h.handlerLanes := by
  simp only [State.trapReturn, drain?_of_nothing hi hp, hi.1, me_of hi, hr, loadReplay_none hi.2 hr, Option.map_none, Option.getD_none,
    Bool.false_eq_true, if_false]
  rfl

theorem squeezeIfReturned_cores (s : State) (core ctx : Nat) : ∃ cs, s.squeezeIfReturned core ctx = { s with cores := cs } := by
  unfold State.squeezeIfReturned
  split
  · exact ⟨s.cores, rfl⟩
  · split
    · exact ⟨_, rfl⟩
    · exact ⟨s.cores, rfl⟩

/-- A NOTICE answered is outstanding no more; beside the sheaf it changes only cores (R233, R242/11). -/
theorem noticeReturned_eq {k : Nat} (hs : s.sheaf? k = some h) :
    ∃ cs, s.noticeReturned k = { s.modSheaf k Sheaf.noticeDone with cores := cs } := by
  simp only [State.noticeReturned, hs]
  obtain ⟨cs, he⟩ := squeezeIfReturned_cores
    ((s.modSheaf k Sheaf.noticeDone).modRes h.core h.ctx fun r => { r with affected := r.affected.filter fun x => !(x == k) }) h.core h.ctx
  exact ⟨cs, he⟩

/-- A return from a NOTICE handler. -/
theorem trapReturn_notice (hi : s.Issuing i h) (hp : h.pend = []) (hr : h.replay = none)
    (hc : (h.trap.tcause.extractLsb' 0 6).toNat = causeCode .notice) :
    ∃ cs, s.trapReturn = ({ s with cores := cs } : State).modSheaf i.sheaf fun g =>
      (g.returned (h.trap.tcause.extractLsb' 0 6).toNat h.handlerLanes).noticeDone := by
  have hid := returned_id (h.trap.tcause.extractLsb' 0 6).toNat h.handlerLanes
  obtain ⟨cs, he⟩ := noticeReturned_eq (issuing_modMe hi _ hid).2
  refine ⟨cs, ?_⟩
  rw [trapReturn_eq hi hp hr, if_pos hc, he, modMe_of hi, modSheaf_modSheaf _ _ _ _ hid]
  rfl

theorem exec_tret_level0 (hi : s.Issuing i h) (hl : h.tl = 0) : exec .tret s = .next (s.trapAll .illop 0 0) := by
  show execTret s = _
  rw [execTret, me_of hi, if_pos hl]

theorem exec_tret (hi : s.Issuing i h) (hl : h.tl ≠ 0) : exec .tret s = .next s.trapReturn := by
  show execTret s = _
  rw [execTret, me_of hi, if_neg hl]

theorem exec_nret_outside (hi : s.Issuing i h) (hc : h.tl = 0 ∨ (h.trap.tcause.extractLsb' 0 6).toNat ≠ causeCode .notice) :
    exec .nret s = .next (s.trapAll .illop 0 0) := by
  show execNret s = _
  rw [execNret, me_of hi, if_pos hc]

theorem exec_nret (hi : s.Issuing i h) (hl : h.tl ≠ 0) (hc : (h.trap.tcause.extractLsb' 0 6).toNat = causeCode .notice) :
    exec .nret s = .next s.trapReturn := by
  show execNret s = _
  rw [execNret, me_of hi, if_neg (not_or.mpr ⟨hl, not_not.mpr hc⟩)]

/-- Settles O23: both returns leave the handler alike; a return from NOTICE also answers it. -/
theorem trapReturn : Obligations.TrapReturn := by
  unfold Obligations.TrapReturn
  intro s i h hi cause skip back
  have hback : back (h.returned cause h.handlerLanes) := by
    obtain ⟨hlevel, -, hskips, hwaits⟩ := leaveTrap_level h
    obtain ⟨htrap, hreplay⟩ := leaveTrap_frame h
    have hlanes := returned_lanes cause h
    obtain ⟨w, ls, he⟩ := returned_eq cause h.handlerLanes h
    exact ⟨by rwa [he], by rwa [he], by rwa [he], by rw [hlanes, List.length_mapIdx], fun n hn _ => lane_of_mapIdx hlanes hn,
      by rwa [he], by rwa [he]⟩
  have hwatch := returned_watchSkip cause h.handlerLanes h
  have hrest := returned_rest cause h.handlerLanes h
  have hid := returned_id cause h.handlerLanes
  refine ⟨exec_tret_level0 hi, exec_nret_outside hi, fun hl hp hr hc => ?other, fun hl hp hr hc => ?notice⟩
  case other =>
    have ht := (trapReturn_eq hi hp hr).trans (if_neg hc)
    exact ⟨_, _, by rw [exec_tret hi hl, ht], (issuing_modMe hi _ hid).2, sameBut_modMe hi _ hid, hback, hwatch, hrest⟩
  case notice =>
    obtain ⟨cs, ht⟩ := trapReturn_notice hi hp hr hc
    have hdone : ∀ g : Sheaf, (g.returned cause h.handlerLanes).noticeDone.id = g.id := hid
    have hnoWatch : cause ≠ causeCode .watch := fun hw => absurd (hc.symm.trans hw) (by decide)
    refine ⟨_, (h.returned cause h.handlerLanes).noticeDone, by rw [exec_nret hi hl hc, ht],
      by rw [exec_tret hi hl, ht], ?_, sameBut_modSheaf { s with cores := cs } i.sheaf _ hdone, hback, rfl, rfl, rfl,
      hwatch.trans (if_neg hnoWatch), ?_⟩
    · rw [sheaf?_modSheaf _ _ _ _ hdone, if_pos rfl]
      exact congrArg (Option.map _) hi.2
    · exact (congrArg (fun g : Sheaf => { g with nleft := h.nleft, noticeOut := h.noticeOut, noticePending := h.noticePending }) hrest :)

end Sys2Proof.Machine
end

section
/-! SUPPORT. The encodings piece by piece: the codes that fields hold, the immediates that span fields, and the decoder's two guards (R252 to
R256/12). -/

namespace Sys2Proof

variable {a b d f m n : Nat} {i : Instr}

/-! ### Codes (R256, R264/12) -/

theorem Width.ofCode?_eq_some {w : Width} : Width.ofCode? n = some w ↔ w.code = n := by
  refine ⟨fun h => ?_, fun h => h ▸ by cases w <;> rfl⟩
  unfold Width.ofCode? at h
  split at h <;> cases h <;> rfl

theorem Scope.ofCode?_eq_some {s : Scope} : Scope.ofCode? n = some s ↔ s.code = n := by
  refine ⟨fun h => ?_, fun h => h ▸ by cases s <;> rfl⟩
  unfold Scope.ofCode? at h
  split at h <;> cases h <;> rfl

theorem Ordering.ofCode?_eq_some {o : Ordering} : Ordering.ofCode? n = some o ↔ o.code = n := by
  refine ⟨fun h => ?_, fun h => h ▸ by cases o <;> rfl⟩
  unfold Ordering.ofCode? at h
  split at h <;> cases h <;> rfl

theorem Rounding.ofCode?_eq_some {r : Rounding} : Rounding.ofCode? n = some r ↔ r.code = n := by
  refine ⟨fun h => ?_, fun h => h ▸ by cases r <;> rfl⟩
  unfold Rounding.ofCode? at h
  split at h <;> cases h <;> rfl

theorem ElemType.ofCode?_eq_some {t : ElemType} : ElemType.ofCode? n = some t ↔ t.code = n := by
  refine ⟨fun h => ?_, fun h => h ▸ by cases t <;> rfl⟩
  unfold ElemType.ofCode? at h
  split at h <;> cases h <;> rfl

theorem AtomOp.ofCode?_eq_some {o : AtomOp} : AtomOp.ofCode? n = some o ↔ o.code = n := by
  refine ⟨fun h => ?_, fun h => h ▸ by cases o <;> rfl⟩
  unfold AtomOp.ofCode? at h
  split at h <;> cases h <;> rfl

theorem Width.code_le (w : Width) : w.code ≤ 4 := by cases w <;> decide
theorem Scope.code_le (s : Scope) : s.code ≤ 6 := by cases s <;> decide
theorem Ordering.code_le (o : Ordering) : o.code ≤ 4 := by cases o <;> decide
theorem Rounding.code_le (r : Rounding) : r.code ≤ 4 := by cases r <;> decide
theorem ElemType.code_le (t : ElemType) : t.code ≤ 13 := by cases t <;> decide
theorem AtomOp.code_le (o : AtomOp) : o.code ≤ 23 := by cases o <;> decide

/-! ### The field X (R263/12) -/

theorem Idx.code_ofCode (n : Nat) : (Idx.ofCode n).code = n := by
  unfold Idx.ofCode
  split
  · rfl
  · exact Nat.add_sub_of_le (by omega)

theorem Idx.ofCode_code {x : Idx} (h : x.ok = true) : Idx.ofCode x.code = x := by
  cases x with
  | vec n => exact if_pos (of_decide_eq_true h)
  | imm k => exact (if_neg (Nat.not_lt.2 (Nat.le_add_right 64 k))).trans (congrArg Idx.imm (Nat.add_sub_cancel_left 64 k))

/-! ### Immediates that span fields (R251/12) -/

theorem imm6_of_fields (v : BitVec 6) : BitVec.ofNat 6 (v.toNat / 16 * 16 + v.toNat % 16) = v := by bv_omega
theorem imm8_of_fields (v : BitVec 8) : BitVec.ofNat 8 (v.toNat / 16 * 16 + v.toNat % 16) = v := by bv_omega
theorem imm11_of_fields (v : BitVec 11) : BitVec.ofNat 11 (v.toNat / 16 * 16 + v.toNat % 16) = v := by bv_omega
theorem imm16_of_fields (v : BitVec 16) :
    BitVec.ofNat 16 (v.toNat / 2048 * 2048 + v.toNat / 16 % 128 * 16 + v.toNat % 16) = v := by bv_omega
theorem imm18_of_fields (v : BitVec 18) :
    BitVec.ofNat 18 (v.toNat / 2048 * 2048 + v.toNat / 16 % 128 * 16 + v.toNat % 16) = v := by bv_omega

/-- Bits [10:0] of a word are its last two fields. -/
theorem imm11_lt (h : n < 2048) : n / 16 < 128 ∧ n % 16 < 16 := by omega

/-- Bits [17:0] of a word are its last three fields. -/
theorem imm18_lt (h : n < 262144) : n / 2048 < 128 ∧ n / 16 % 128 < 128 ∧ n % 16 < 16 := by omega

/-! ### The decoder's guards (R253/12) -/

theorem need_eq_ok {c : Bool} {j : Instr} : need c i = .ok j ↔ c = true ∧ i = j := by
  cases c <;> simp [need]

theorem code_eq_ok {α : Type} {o : Option α} {k : α → Except DecodeError Instr} :
    code o k = .ok i ↔ ∃ y, o = some y ∧ k y = .ok i := by
  cases o <;> simp [code]

theorem decodeChecked_eq_ok : decodeChecked m d a b f = .ok i ↔ decodeFields m d a b f = .ok i ∧ i.wellFormed = true := by
  refine ⟨fun h => ?_, fun ⟨h, hw⟩ => decodeChecked_of_fields hw h⟩
  unfold decodeChecked at h
  split at h
  case h_1 j hj =>
    by_cases hw : j.wellFormed = true
    · rw [if_pos hw] at h
      cases h
      exact ⟨hj, hw⟩
    · rw [if_neg hw] at h
      cases h
  case h_2 => cases h

/-- No event has fields in a word, and every instruction has. -/
theorem isEvent_eq_isNone_fields (i : Instr) : i.isEvent = i.fields.isNone := by
  cases i <;> rfl

end Sys2Proof
end

section
/-! SUPPORT. The word of a well-formed instruction decodes to it: its fields lie in their places, and the decoder reads the instruction from
them (R251 to R265/12). Settles O57. -/

namespace Sys2Proof

variable {a b c d f m n : Nat} {i : Instr}

/-! ### What well-formedness says of fields that name no register (R263 to R265/12) -/

theorem wellFormed_iff : i.wellFormed = true ↔ (∀ o ∈ i.operands, o.ok = true) ∧ i.fieldsOk = true := by
  rw [Instr.wellFormed, Bool.and_eq_true, List.all_eq_true]

theorem both_limits {p q : Prop} [Decidable p] [Decidable q] (h : (decide p && decide q) = true) : p ∧ q := by
  simpa only [Bool.and_eq_true, decide_eq_true_eq] using h

/-- The base, the field X and the lookahead of the RM format. -/
theorem memory_limits {x : Idx} {l : Nat} (h : (decide (b < 16) && x.ok && decide (l < 16)) = true) : b < 16 ∧ x.ok = true ∧ l < 16 := by
  simpa only [Bool.and_eq_true, decide_eq_true_eq, and_assoc] using h

theorem word_code_limits {w : Width} (h : (w == .b32 || w == .b64) = true) : 2 ≤ w.code ∧ w.code ≤ 3 := by
  simp only [Bool.or_eq_true, beq_iff_eq] at h
  rcases h with rfl | rfl <;> decide

/-- The width, the ordering and the lookahead of an ordered access; the second ordering is `.acq` of a load and `.rel` of a store. -/
theorem ordered_limits {w : Width} {o o' : Ordering} {l : Nat} (ho' : o'.code ≤ 2)
    (h : ((w == .b32 || w == .b64) && (o == .rlx || o == o') && decide (l < 16)) = true) :
    (2 ≤ w.code ∧ w.code ≤ 3) ∧ o.code ≤ 2 ∧ l < 16 := by
  simp only [Bool.and_eq_true, decide_eq_true_eq] at h
  obtain ⟨⟨hw, ho⟩, hl⟩ := h
  refine ⟨word_code_limits hw, ?_, hl⟩
  simp only [Bool.or_eq_true, beq_iff_eq] at ho
  rcases ho with rfl | rfl
  · decide
  · exact ho'

theorem remote_limits {w : Width} {l : Nat} (h : ((w == .b32 || w == .b64) && decide (l < 16)) = true) :
    (2 ≤ w.code ∧ w.code ≤ 3) ∧ l < 16 := by
  simp only [Bool.and_eq_true, decide_eq_true_eq] at h
  exact ⟨word_code_limits h.1, h.2⟩

/-- The team slot and the lookahead of an atomic. -/
theorem atomic_limits {t l : Nat} {c e : Bool} (h : (decide (t < 4) && c && e && decide (l < 16)) = true) : t < 4 ∧ l < 16 := by
  simp only [Bool.and_eq_true, decide_eq_true_eq] at h
  obtain ⟨⟨⟨ht, -⟩, -⟩, hl⟩ := h
  exact ⟨ht, hl⟩

theorem quadSetOk_lt (h : quadSetOk n = true) : n < 16 := by
  simp only [quadSetOk, Bool.or_eq_true, beq_iff_eq] at h
  omega

/-- The quadrant set, the token counter and the lookahead of a matrix command. -/
theorem matrix_limits {q t l : Nat} (h : (quadSetOk q && decide (t < 8) && decide (l < 16)) = true) : q < 16 ∧ t < 8 ∧ l < 16 := by
  simp only [Bool.and_eq_true, decide_eq_true_eq] at h
  obtain ⟨⟨hq, ht⟩, hl⟩ := h
  exact ⟨quadSetOk_lt hq, ht, hl⟩

/-! ### The fields lie in their places (R251, R254/12) -/

theorem operand_n_lt {o : Operand} (h : o.ok = true) : o.n < 128 := by
  obtain ⟨k, n, r, w⟩ := o
  show n < 128
  cases k <;> simp only [Operand.ok, OpKind.ok, Bool.and_eq_true, decide_eq_true_eq] at h <;> omega

/-- The specifiers of up to three operands, 0 where there are fewer. -/
def specifiers : List Operand → Nat × Nat × Nat
  | [] => (0, 0, 0)
  | [o] => (o.n, 0, 0)
  | [o, p] => (o.n, p.n, 0)
  | o :: p :: q :: _ => (o.n, p.n, q.n)

/-- Do three specifiers fit fields of 7 bits? -/
def FitFields (x : Nat × Nat × Nat) : Prop := x.1 < 128 ∧ x.2.1 < 128 ∧ x.2.2 < 128

theorem specifiers_fit : ∀ {os : List Operand}, (∀ o ∈ os, o.ok = true) → FitFields (specifiers os)
  | [], _ => ⟨Nat.zero_lt_succ _, Nat.zero_lt_succ _, Nat.zero_lt_succ _⟩
  | [o], h => ⟨operand_n_lt (h o (by simp)), Nat.zero_lt_succ _, Nat.zero_lt_succ _⟩
  | [o, p], h => ⟨operand_n_lt (h o (by simp)), operand_n_lt (h p (by simp)), Nat.zero_lt_succ _⟩
  | o :: p :: q :: _, h => ⟨operand_n_lt (h o (by simp)), operand_n_lt (h p (by simp)), operand_n_lt (h q (by simp))⟩

/-- A word whose fields d, a and b hold the specifiers. -/
theorem inPlace_of_three (h : FitFields (d, a, b)) (hm : m < 127) (hf : f < 16) : m < 127 ∧ d < 128 ∧ a < 128 ∧ b < 128 ∧ f < 16 :=
  ⟨hm, h.1, h.2.1, h.2.2, hf⟩

/-- A word whose fields d and a hold the specifiers. -/
theorem inPlace_of_two (h : FitFields (d, a, c)) (hm : m < 127) (hb : b < 128) (hf : f < 16) :
    m < 127 ∧ d < 128 ∧ a < 128 ∧ b < 128 ∧ f < 16 :=
  ⟨hm, h.1, h.2.1, hb, hf⟩

/-- Each field of a well-formed instruction's word has its place to itself. First the instructions whose fields hold more than specifiers, by
the rule that packs them; the rest hold specifiers, a function code and zeros. -/
theorem fields_inPlace (hw : i.wellFormed = true) (hf : i.fields = some (m, d, a, b, f)) :
    m < 127 ∧ d < 128 ∧ a < 128 ∧ b < 128 ∧ f < 16 := by
  obtain ⟨hops, hok⟩ := wellFormed_iff.1 hw
  have hfit := specifiers_fit hops
  clear hw hops
  cases i
  -- R255: immediates and offsets
  case saddi v | sandi v | sori v | sxori v | ssltiI64 v | ssltiN64 v | smuli v =>
    cases hf
    exact ⟨by decide, hfit.1, hfit.2.1, imm11_lt v.isLt⟩
  case sshli v | sshriN64 v | sshriI64 v =>
    cases hf
    exact ⟨by decide, hfit.1, hfit.2.1, imm11_lt (v.isLt.trans (by decide))⟩
  case wshift v =>
    cases hf
    exact ⟨by decide, by decide, by decide, imm11_lt v.isLt⟩
  case trap v =>
    cases hf
    exact ⟨by decide, by decide, by decide, imm11_lt (v.isLt.trans (by decide))⟩
  case phase | fork =>
    have hc := of_decide_eq_true hok
    cases hf
    exact ⟨by decide, hfit.1, hfit.2.1, imm11_lt (hc.trans (by decide))⟩
  case bnz v | bz v | bnzv v | bzv v | call v | li v | sli v | vli v =>
    cases hf
    exact ⟨by decide, hfit.1, imm18_lt v.isLt⟩
  case twaitImm v =>
    cases hf
    exact ⟨by decide, hfit.1, imm18_lt (v.isLt.trans (by decide))⟩
  case bra v | wbase v =>
    cases hf
    exact ⟨by decide, by decide, imm18_lt v.isLt⟩
  case loop v k n =>
    obtain ⟨hk, hn⟩ := both_limits hok
    cases hf
    cases v <;> exact ⟨by decide, hfit.1, by rw [cond]; omega, by omega, by omega⟩
  -- R262: a predicate or a member mask in f
  case selB32Vv | selB32Vs | selB64Vv | selB64Vs | shflIdx | shflUp | shflDown | shflXor | voteAny | voteAll | voteEq | voteBallot =>
    have hp := of_decide_eq_true hok
    cases hf
    exact inPlace_of_three hfit (by decide) (by omega)
  -- R262: operands from field a on, or other numbers beside them
  case ret | shrink | rgnw | lpcWr =>
    cases hf
    exact ⟨by decide, by decide, hfit.1, hfit.2.1, by decide⟩
  case spcw =>
    obtain ⟨-, hb⟩ := both_limits hok
    cases hf
    exact ⟨by decide, by decide, hfit.1, by omega, by decide⟩
  case barWait =>
    cases hf
    exact inPlace_of_two hfit (by decide) (by decide) (by decide)
  case cwait | cwaitClr =>
    obtain ⟨hq, hs⟩ := both_limits hok
    cases hf
    exact inPlace_of_two hfit (by decide) (by omega) (by decide)
  case xlinv =>
    have hk := of_decide_eq_true hok
    cases hf
    exact ⟨by decide, by omega, hfit.1, by decide, by decide⟩
  case wpset =>
    have hd := of_decide_eq_true hok
    cases hf
    exact ⟨by decide, by omega, hfit.1, hfit.2.1, by decide⟩
  -- R261, R265: a code in b and the lookahead in f
  case rcpF32V | rsqrtF32V | sqrtF32V | exp2F32V | log2F32V | sinF32V | cosF32V | tanhF32V | rcpF32S | rsqrtF32S | sqrtF32S | exp2F32S
      | log2F32S | sinF32S | cosF32S | tanhF32S | tredAddF32 | tredMaxF32 | tredMinF32 | tredAddI32 | tredMaxI32 | tredMinI32 | tredMaxN32
      | tredMinN32 | tredAddF16 | tredMaxF16 | tredMinF16 | tredAddBf16 | tredAndB32 | tredOrB32 | tredXorB32 | cpy | wnw | xchg =>
    have hl := of_decide_eq_true hok
    cases hf
    exact inPlace_of_two hfit (by decide) (by decide) hl
  case rst =>
    obtain ⟨hw, hl⟩ := remote_limits hok
    cases hf
    exact inPlace_of_two hfit (by decide) (by omega) hl
  case cvt s r t =>
    have hs := s.code_le
    have hr := r.code_le
    have ht := t.code_le
    cases hf
    exact inPlace_of_two hfit (by decide) (by omega) (by omega)
  -- R263: memory accesses
  case ldLn w _ _ _ | ldSp w _ _ _ | ldCl w _ _ _ | ldBn w _ _ _ | ldGl w _ _ _ | stLn w _ _ _ | stSp w _ _ _ | stCl w _ _ _
      | stBn w _ _ _ | stGl w _ _ _ | stAc w _ _ _ =>
    obtain ⟨hb, -, hl⟩ := memory_limits hok
    have hw := w.code_le
    cases hf
    exact ⟨by decide, hfit.1, by omega, hfit.2.2, hl⟩
  case ldAc w _ _ _ =>
    obtain ⟨hb, -, hl⟩ := memory_limits (Bool.and_elim_left hok)
    have hw := w.code_le
    cases hf
    exact ⟨by decide, hfit.1, by omega, hfit.2.2, hl⟩
  case pfGl w _ _ _ =>
    obtain ⟨hb, -, hl⟩ := memory_limits hok
    have hw := w.code_le
    cases hf
    exact ⟨by decide, by decide, by omega, hfit.2.1, hl⟩
  case cctlGlWb | cctlGlInv | cctlGlWbinv =>
    obtain ⟨-, -, hl⟩ := memory_limits hok
    cases hf
    exact ⟨by decide, by decide, hfit.1, hfit.2.1, hl⟩
  case ldGlOrdered s o w l | stGlOrdered s o w l =>
    obtain ⟨hw, ho, hl⟩ := ordered_limits (by decide) hok
    have hs := s.code_le
    cases hf
    exact inPlace_of_two hfit (by decide) (by omega) hl
  -- R264: atomics, fences
  case atomSp t o s r l | atomCl t o s r l | atomBn t o s r l | atomGl t o s r l =>
    obtain ⟨ht, hl⟩ := atomic_limits hok
    have ho := o.code_le
    have hs := s.code_le
    have hr := r.code_le
    cases hf
    exact ⟨by decide, hfit.1, by omega, by omega, hl⟩
  case fence s o =>
    have hs := s.code_le
    have ho := o.code_le
    cases hf
    exact ⟨by decide, by decide, by omega, by decide, by omega⟩
  case icinv s =>
    have hs := s.code_le
    cases hf
    exact ⟨by decide, by decide, by omega, by decide, by decide⟩
  -- R265: matrix commands
  case mmulBf16 | mmulF16 | mmulE4m3 | mmulE5m2 | mmbE2m1 | msca | mldwBf16 | mldwF16 | mldwE4m3 | mldwE5m2 | mldwE2m1 | mswap
      | mdrainF32 | mdrainBf16 | mdrainF16 | mdrainE4m3 | mdrainE5m2 | mclr =>
    obtain ⟨hq, ht, hl⟩ := matrix_limits hok
    cases hf
    exact ⟨by decide, by omega, hfit.1, by decide, hl⟩
  case mpush | mstat =>
    have hl := of_decide_eq_true hok
    cases hf
    exact ⟨by decide, by decide, hfit.1, by decide, hl⟩
  all_goals (cases hf <;> exact inPlace_of_three hfit (by decide) (by decide))

/-! ### The decoder reads the instruction from its fields -/

/-- The decoder undoes what the encoder packs. First the instructions whose fields are packed or split, by the rule that packs them; the decoder
takes the operands of the rest from the fields as they stand. -/
theorem decodeFields_of_fields (hok : i.fieldsOk = true) (hf : i.fields = some (m, d, a, b, f)) : decodeFields m d a b f = .ok i := by
  cases i
  -- R255: immediates and offsets
  case saddi | sandi | sori | sxori | ssltiI64 | ssltiN64 | smuli | wshift =>
    cases hf
    change Except.ok _ = Except.ok _
    rw [imm11_of_fields]
  case bra | bnz | bz | bnzv | bzv | call | li | sli | vli | wbase =>
    cases hf
    change Except.ok _ = Except.ok _
    rw [imm18_of_fields]
  case sshli | sshriN64 | sshriI64 =>
    cases hf
    exact need_eq_ok.2 ⟨decide_eq_true (by omega), by rw [imm6_of_fields]⟩
  case trap =>
    cases hf
    exact need_eq_ok.2 ⟨decide_eq_true (by omega), by rw [imm8_of_fields]⟩
  case twaitImm =>
    cases hf
    exact need_eq_ok.2 ⟨decide_eq_true (by omega), by rw [imm16_of_fields]⟩
  case phase | fork =>
    have hc := of_decide_eq_true hok
    cases hf
    exact need_eq_ok.2 ⟨decide_eq_true (by omega), by rw [Nat.div_add_mod']⟩
  case loop v k n =>
    obtain ⟨hk, hn⟩ := both_limits hok
    cases hf
    cases v <;> interval_cases k <;>
      exact need_eq_ok.2 ⟨decide_eq_true (by omega), congrArg (Instr.loop d _ _) (Nat.div_add_mod' n 16)⟩
  -- R262: subfields beside the function code
  case selB32Vv | selB32Vs =>
    have hp := of_decide_eq_true hok
    cases hf
    exact if_pos hp
  case selB64Vv | selB64Vs =>
    cases hf
    rfl
  case shflIdx k | shflUp k | shflDown k | shflXor k | voteAny k | voteAll k | voteEq k | voteBallot k =>
    have hk := of_decide_eq_true hok
    cases hf
    interval_cases k <;> rfl
  case cwait | cwaitClr =>
    obtain ⟨hq, hs⟩ := both_limits hok
    cases hf
    exact need_eq_ok.2 ⟨beq_iff_eq.2 (by omega), by congr <;> omega⟩
  case xlinv k a =>
    have hk := of_decide_eq_true hok
    cases hf
    interval_cases k <;> rfl
  -- R265: packed codes
  case cvt s r t =>
    have hr := r.code_le
    cases hf
    exact code_eq_ok.2 ⟨s, ElemType.ofCode?_eq_some.2 (by omega), code_eq_ok.2 ⟨r, Rounding.ofCode?_eq_some.2 (by omega),
      code_eq_ok.2 ⟨t, ElemType.ofCode?_eq_some.2 rfl, rfl⟩⟩⟩
  case rst w l =>
    obtain ⟨hw, hl⟩ := remote_limits hok
    cases hf
    exact code_eq_ok.2 ⟨w, Width.ofCode?_eq_some.2 (by omega), rfl⟩
  -- R263: memory accesses
  case ldLn w _ _ _ | ldSp w _ _ _ | ldCl w _ _ _ | ldBn w _ _ _ | ldGl w _ _ _ | stLn w _ _ _ | stSp w _ _ _ | stCl w _ _ _
      | stBn w _ _ _ | stGl w _ _ _ | stAc w _ _ _ =>
    obtain ⟨hb, hx, -⟩ := memory_limits hok
    cases hf
    refine code_eq_ok.2 ⟨w, Width.ofCode?_eq_some.2 (by omega), ?_⟩
    rw [Idx.ofCode_code hx, Nat.mul_add_mod_of_lt hb]
  case ldAc w _ _ _ =>
    obtain ⟨hb, hx, -⟩ := memory_limits (Bool.and_elim_left hok)
    cases hf
    refine code_eq_ok.2 ⟨w, Width.ofCode?_eq_some.2 (by omega), ?_⟩
    rw [Idx.ofCode_code hx, Nat.mul_add_mod_of_lt hb]
  case pfGl w _ _ _ =>
    obtain ⟨hb, hx, -⟩ := memory_limits hok
    cases hf
    refine code_eq_ok.2 ⟨w, Width.ofCode?_eq_some.2 (by omega), need_eq_ok.2 ⟨rfl, ?_⟩⟩
    rw [Idx.ofCode_code hx, Nat.mul_add_mod_of_lt hb]
  case cctlGlWb | cctlGlInv | cctlGlWbinv =>
    obtain ⟨hb, hx, -⟩ := memory_limits hok
    cases hf
    exact need_eq_ok.2 ⟨decide_eq_true hb, by rw [Nat.mod_eq_of_lt hb, Idx.ofCode_code hx]⟩
  case ldGlOrdered s o w l | stGlOrdered s o w l =>
    obtain ⟨hw, ho, -⟩ := ordered_limits (by decide) hok
    cases hf
    exact code_eq_ok.2 ⟨s, Scope.ofCode?_eq_some.2 (by omega), code_eq_ok.2 ⟨o, Ordering.ofCode?_eq_some.2 (by omega),
      code_eq_ok.2 ⟨w, Width.ofCode?_eq_some.2 (by omega), rfl⟩⟩⟩
  -- R264: atomics, fences
  case atomSp t o s r l | atomCl t o s r l | atomBn t o s r l | atomGl t o s r l =>
    have ho := o.code_le
    have hr := r.code_le
    cases hf
    refine code_eq_ok.2 ⟨o, AtomOp.ofCode?_eq_some.2 (by omega), code_eq_ok.2 ⟨s, Scope.ofCode?_eq_some.2 (by omega),
      code_eq_ok.2 ⟨r, Ordering.ofCode?_eq_some.2 (by omega), need_eq_ok.2 ⟨beq_iff_eq.2 (by omega), ?_⟩⟩⟩⟩
    congr
    omega
  case fence s o =>
    cases hf
    exact code_eq_ok.2 ⟨s, Scope.ofCode?_eq_some.2 rfl, code_eq_ok.2 ⟨o, Ordering.ofCode?_eq_some.2 rfl, rfl⟩⟩
  case icinv s =>
    cases hf
    exact code_eq_ok.2 ⟨s, Scope.ofCode?_eq_some.2 rfl, rfl⟩
  -- R265: matrix commands
  case mmulBf16 | mmulF16 | mmulE4m3 | mmulE5m2 | mmbE2m1 | msca | mldwBf16 | mldwF16 | mldwE4m3 | mldwE5m2 | mldwE2m1 | mswap
      | mdrainF32 | mdrainBf16 | mdrainF16 | mdrainE4m3 | mdrainE5m2 | mclr =>
    obtain ⟨-, ht, -⟩ := matrix_limits hok
    cases hf
    change Except.ok _ = Except.ok _
    congr <;> omega
  all_goals (cases hf <;> rfl)

/-! ### The statement -/

theorem encode_eq_some {w : Word} : encode i = some w ↔ ∃ x, i.fields = some x ∧ packFields x = w :=
  Option.map_eq_some_iff

/-- Only `sadd s0, s0, s0` has the fields of the reserved word 0, and it is ill-formed (R253/12). -/
theorem fields_ne_zero (hw : i.wellFormed = true) (h : decodeFields m d a b f = .ok i) : ¬ (m = 0 ∧ d = 0 ∧ a = 0 ∧ b = 0 ∧ f = 0) := by
  rintro ⟨rfl, rfl, rfl, rfl, rfl⟩
  cases h
  cases hw

theorem decode_of_encode {w : Word} (hw : i.wellFormed = true) (he : encode i = some w) : decode w = .ok i := by
  obtain ⟨⟨m, d, a, b, f⟩, hfields, rfl⟩ := encode_eq_some.1 he
  have hdecode := decodeFields_of_fields (wellFormed_iff.1 hw).2 hfields
  obtain ⟨hm, hd, ha, hb, hf⟩ := fields_inPlace hw hfields
  rw [decode_pack m d a b f hm hd ha hb hf (fields_ne_zero hw hdecode)]
  exact decodeChecked_of_fields hw hdecode

/-- Settles O57: the fields of a well-formed instruction lie apart in its word, and the decoder undoes what the encoder packs in each. -/
theorem encodeThenDecode : Obligations.EncodeThenDecode := by
  unfold Obligations.EncodeThenDecode
  refine ⟨fun i w hw he => decode_of_encode hw he, fun i hi => ?word, fun i hi => ?event, rfl⟩
  case word =>
    rw [isEvent_eq_isNone_fields, Option.isNone_eq_false_iff, Option.isSome_iff_exists] at hi
    obtain ⟨x, hx⟩ := hi
    exact ⟨packFields x, encode_eq_some.2 ⟨x, hx, rfl⟩⟩
  case event =>
    rw [isEvent_eq_isNone_fields, Option.isNone_iff_eq_none] at hi
    rw [encode, hi, Option.map_none]

end Sys2Proof
end

section
/-! SUPPORT. A word that decodes is the word of its instruction: each major's decoder gives instructions whose fields are the ones it read (R251
to R265/12). Settles O58. -/

namespace Sys2Proof

variable {a b d f m : Nat} {i : Instr}

/-! ### The decoders of the majors (R261/12) -/

/-- What a major makes of the other fields of a word. -/
abbrev FieldDecoder : Type := Nat → Nat → Nat → Nat → Except DecodeError Instr

/-- Does a major's decoder give only instructions whose fields are the ones it read? -/
def Faithful (D : Nat × FieldDecoder) : Prop :=
  ∀ d a b f i, a < 128 → b < 128 → f < 16 → D.2 d a b f = .ok i → i.fields = some (D.1, d, a, b, f)

/-- The fields of an instruction that a decoder gave, when they agree with the word's one by one. -/
theorem fields_eq {m' d' a' b' f' : Nat} (h : i.fields = some (m', d', a', b', f')) (e : m' = m ∧ d' = d ∧ a' = a ∧ b' = b ∧ f' = f) :
    i.fields = some (m, d, a, b, f) := by
  obtain ⟨rfl, rfl, rfl, rfl, rfl⟩ := e
  exact h

/-- The majors in which one field is a function code and each other field an operand, a lookahead or 0 (R262, R265/12). -/
noncomputable def functionDecoders : List (Nat × FieldDecoder) :=
  [(0x00, decodeMajor00), (0x01, decodeMajor01), (0x10, decodeMajor10), (0x1B, decodeMajor1B), (0x1E, decodeMajor1E), (0x20, decodeMajor20),
   (0x21, decodeMajor21), (0x22, decodeMajor22), (0x23, decodeMajor23), (0x24, decodeMajor24), (0x25, decodeMajor25), (0x26, decodeMajor26),
   (0x27, decodeMajor27), (0x28, decodeMajor28), (0x29, decodeMajor29), (0x2A, decodeMajor2A), (0x2B, decodeMajor2B), (0x2C, decodeMajor2C),
   (0x2D, decodeMajor2D), (0x2E, decodeMajor2E), (0x2F, decodeMajor2F), (0x30, decodeMajor30), (0x31, decodeMajor31), (0x34, decodeMajor34),
   (0x35, decodeMajor35), (0x36, decodeMajor36), (0x38, decodeMajor38), (0x41, decodeMajor41), (0x44, decodeMajor44), (0x45, decodeMajor45),
   (0x46, decodeMajor46), (0x47, decodeMajor47), (0x68, decodeMajor68), (0x69, decodeMajor69), (0x6A, decodeMajor6A), (0x74, decodeMajor74),
   (0x7D, decodeMajor7D)]

/-- The majors with an immediate or an offset (R255, R265/12). -/
noncomputable def immediateDecoders : List (Nat × FieldDecoder) :=
  [(0x02, decodeMajor02), (0x03, decodeMajor03), (0x04, decodeMajor04), (0x05, decodeMajor05), (0x06, decodeMajor06), (0x07, decodeMajor07),
   (0x08, decodeMajor08), (0x09, decodeMajor09), (0x0A, decodeMajor0A), (0x0B, decodeMajor0B), (0x11, decodeMajor11), (0x12, decodeMajor12),
   (0x13, decodeMajor13), (0x14, decodeMajor14), (0x15, decodeMajor15), (0x16, decodeMajor16), (0x18, decodeMajor18), (0x19, decodeMajor19),
   (0x1A, decodeMajor1A), (0x1C, decodeMajor1C), (0x1D, decodeMajor1D), (0x71, decodeMajor71), (0x72, decodeMajor72), (0x73, decodeMajor73),
   (0x7C, decodeMajor7C)]

/-- The majors with packed codes of R256 and R264/12. -/
noncomputable def codeDecoders : List (Nat × FieldDecoder) :=
  [(0x40, decodeMajor40), (0x50, decodeMajor50), (0x51, decodeMajor51), (0x52, decodeMajor52), (0x53, decodeMajor53), (0x54, decodeMajor54),
   (0x55, decodeMajor55), (0x56, decodeMajor56), (0x57, decodeMajor57), (0x58, decodeMajor58), (0x59, decodeMajor59), (0x5A, decodeMajor5A),
   (0x5B, decodeMajor5B), (0x5C, decodeMajor5C), (0x5D, decodeMajor5D), (0x5E, decodeMajor5E), (0x60, decodeMajor60), (0x61, decodeMajor61),
   (0x62, decodeMajor62), (0x63, decodeMajor63), (0x64, decodeMajor64), (0x65, decodeMajor65), (0x6B, decodeMajor6B)]

/-- The majors in which a function code and subfields together fix the instruction (R262, R263, R265/12). -/
noncomputable def subfieldDecoders : List (Nat × FieldDecoder) :=
  [(0x32, decodeMajor32), (0x33, decodeMajor33), (0x42, decodeMajor42), (0x43, decodeMajor43), (0x5F, decodeMajor5F), (0x78, decodeMajor78),
   (0x79, decodeMajor79), (0x7A, decodeMajor7A), (0x7E, decodeMajor7E)]

/-- Every major of R261/12 that is not reserved, with its decoder. -/
noncomputable def majorDecoders : List (Nat × FieldDecoder) :=
  functionDecoders ++ immediateDecoders ++ codeDecoders ++ subfieldDecoders ++ [(0x17, decodeMajor17), (0x70, decodeMajor70)]

/-- The decoder of a word's fields is the one listed at its major. -/
theorem exists_majorDecoder (h : decodeFields m d a b f = .ok i) : ∃ D, majorDecoders.lookup m = some D ∧ D d a b f = .ok i := by
  unfold decodeFields at h
  split at h
  case h_97 => cases h -- a reserved major
  all_goals exact ⟨_, rfl, h⟩

/-! ### Each decoder is faithful -/

/-- The code fixes the constructor, whose other operands are the fields; a field that no operand takes must be 0. -/
theorem functionDecoders_faithful : ∀ D ∈ functionDecoders, Faithful D := by
  simp only [functionDecoders, List.forall_mem_cons, List.not_mem_nil, false_imp_iff, implies_true, and_true]
  and_intros
  all_goals
    intro d a b f i _ _ _ h
    simp only [decodeMajor00, decodeMajor01, decodeMajor10, decodeMajor1B, decodeMajor1E, decodeMajor20, decodeMajor21, decodeMajor22,
      decodeMajor23, decodeMajor24, decodeMajor25, decodeMajor26, decodeMajor27, decodeMajor28, decodeMajor29, decodeMajor2A, decodeMajor2B,
      decodeMajor2C, decodeMajor2D, decodeMajor2E, decodeMajor2F, decodeMajor30, decodeMajor31, decodeMajor34, decodeMajor35, decodeMajor36,
      decodeMajor38, decodeMajor41, decodeMajor44, decodeMajor45, decodeMajor46, decodeMajor47, decodeMajor68, decodeMajor69, decodeMajor6A,
      decodeMajor74, decodeMajor7D] at h
    split at h
  all_goals
    revert h
    simp only [need_eq_ok, Except.ok.injEq, reduceCtorEq, Bool.and_eq_true, beq_iff_eq, and_imp, false_imp_iff]
  all_goals
    intros
    subst_vars
    rfl

/-- The immediate is the number that its fields make, so dividing it again gives the fields. -/
theorem immediateDecoders_faithful : ∀ D ∈ immediateDecoders, Faithful D := by
  simp only [immediateDecoders, List.forall_mem_cons, List.not_mem_nil, false_imp_iff, implies_true, and_true]
  and_intros
  all_goals
    intro d a b f i ha hb hf
    simp only [decodeMajor02, decodeMajor03, decodeMajor04, decodeMajor05, decodeMajor06, decodeMajor07, decodeMajor08, decodeMajor09,
      decodeMajor0A, decodeMajor0B, decodeMajor11, decodeMajor12, decodeMajor13, decodeMajor14, decodeMajor15, decodeMajor16, decodeMajor18,
      decodeMajor19, decodeMajor1A, decodeMajor1C, decodeMajor1D, decodeMajor71, decodeMajor72, decodeMajor73, decodeMajor7C, need_eq_ok,
      Except.ok.injEq, Bool.and_eq_true, beq_iff_eq, decide_eq_true_eq, and_imp]
    intros
    subst i
    refine fields_eq rfl ?_
    simp only [BitVec.toNat_ofNat, true_and]
    omega

/-- A code that was read is the code of what it stands for, so packing it again gives the field. -/
theorem codeDecoders_faithful : ∀ D ∈ codeDecoders, Faithful D := by
  simp only [codeDecoders, List.forall_mem_cons, List.not_mem_nil, false_imp_iff, implies_true, and_true]
  and_intros
  all_goals
    intro d a b f i ha hb hf
    have hx := Idx.code_ofCode b
    simp only [decodeMajor40, decodeMajor50, decodeMajor51, decodeMajor52, decodeMajor53, decodeMajor54, decodeMajor55, decodeMajor56,
      decodeMajor57, decodeMajor58, decodeMajor59, decodeMajor5A, decodeMajor5B, decodeMajor5C, decodeMajor5D, decodeMajor5E, decodeMajor60,
      decodeMajor61, decodeMajor62, decodeMajor63, decodeMajor64, decodeMajor65, decodeMajor6B, code_eq_ok, need_eq_ok, Except.ok.injEq,
      Width.ofCode?_eq_some, Scope.ofCode?_eq_some, Ordering.ofCode?_eq_some, Rounding.ofCode?_eq_some, ElemType.ofCode?_eq_some,
      AtomOp.ofCode?_eq_some, Bool.and_eq_true, beq_iff_eq, and_imp, forall_exists_index]
    intros
    subst i
    exact fields_eq rfl (by omega)

/-- The function code fixes the constructor; its subfields are quotient and remainder of a field. -/
theorem subfieldDecoders_faithful : ∀ D ∈ subfieldDecoders, Faithful D := by
  simp only [subfieldDecoders, List.forall_mem_cons, List.not_mem_nil, false_imp_iff, implies_true, and_true]
  and_intros
  all_goals
    intro d a b f i ha hb hf h
    have hx := Idx.code_ofCode b
    simp only [decodeMajor32, decodeMajor33, decodeMajor42, decodeMajor43, decodeMajor5F, decodeMajor78, decodeMajor79, decodeMajor7A,
      decodeMajor7E] at h
    split at h
  all_goals
    revert h
    simp only [need_eq_ok, Except.ok.injEq, reduceCtorEq, Bool.and_eq_true, beq_iff_eq, decide_eq_true_eq, and_imp, false_imp_iff]
  all_goals
    intros
    subst i
    exact fields_eq rfl (by omega)

/-- `loop`: bit 17 of the immediate says whose the count is, bits [16:15] the level (R265/12). -/
theorem decodeMajor17_faithful : Faithful (0x17, decodeMajor17) := by
  intro d a b f i ha hb hf h
  obtain ⟨hzero, rfl⟩ := need_eq_ok.1 h
  simp only [Bool.and_eq_true, beq_iff_eq, decide_eq_true_eq] at hzero
  refine fields_eq rfl ?_
  rw [Bool.cond_decide]
  split <;> omega

/-- Synchronisation: b tells the two forms of `bar` apart, and holds two subfields of a `cwait` (R262/12). -/
theorem decodeMajor70_faithful : Faithful (0x70, decodeMajor70) := by
  intro d a b f i ha hb hf h
  simp only [decodeMajor70] at h
  split at h
  case h_1 =>
    split at h
    all_goals
      obtain ⟨hz, rfl⟩ := need_eq_ok.1 h
      simp only [Bool.and_eq_true, beq_iff_eq] at hz
      exact fields_eq rfl (by omega)
  all_goals
    revert h
    simp only [need_eq_ok, Except.ok.injEq, reduceCtorEq, Bool.and_eq_true, beq_iff_eq, and_imp, false_imp_iff]
  all_goals
    intros
    subst i
    exact fields_eq rfl (by omega)

theorem majorDecoders_faithful {D : Nat × FieldDecoder} (h : D ∈ majorDecoders) : Faithful D := by
  simp only [majorDecoders, List.mem_append, List.mem_cons, List.not_mem_nil, or_false] at h
  rcases h with (((h | h) | h) | h) | rfl | rfl
  · exact functionDecoders_faithful D h
  · exact immediateDecoders_faithful D h
  · exact codeDecoders_faithful D h
  · exact subfieldDecoders_faithful D h
  · exact decodeMajor17_faithful
  · exact decodeMajor70_faithful

/-! ### The statement -/

theorem fields_of_decodeFields (ha : a < 128) (hb : b < 128) (hf : f < 16) (h : decodeFields m d a b f = .ok i) :
    i.fields = some (m, d, a, b, f) := by
  obtain ⟨D, hlookup, hD⟩ := exists_majorDecoder h
  obtain ⟨before, after, hlist, -⟩ := List.lookup_eq_some_iff.1 hlookup
  have hmem : (m, D) ∈ majorDecoders := hlist ▸ List.mem_append_right before List.mem_cons_self
  exact majorDecoders_faithful hmem d a b f i ha hb hf hD

/-- A word is packed from its five fields (R251/12). -/
theorem packFields_toNat (w : Word) :
    packFields (w.toNat / 33554432 % 128, w.toNat / 262144 % 128, w.toNat / 2048 % 128, w.toNat / 16 % 128, w.toNat % 16) = w := by
  refine BitVec.eq_of_toNat_eq ?_
  simp only [packFields, BitVec.toNat_ofNat]
  omega

theorem decode_eq_ok {w : Word} (h : decode w = .ok i) :
    decodeChecked (w.toNat / 33554432 % 128) (w.toNat / 262144 % 128) (w.toNat / 2048 % 128) (w.toNat / 16 % 128) (w.toNat % 16) = .ok i := by
  unfold decode decodeNat at h
  split at h
  · cases h
  · exact h

/-- Settles O58: what the decoder gives passed its check, and has the fields of the word, which are all of the word. -/
theorem decodeThenEncode : Obligations.DecodeThenEncode := by
  unfold Obligations.DecodeThenEncode
  intro w i h
  obtain ⟨hdecode, hw⟩ := decodeChecked_eq_ok.1 (decode_eq_ok h)
  have hfields := fields_of_decodeFields (Nat.mod_lt _ (by decide)) (Nat.mod_lt _ (by decide)) (Nat.mod_lt _ (by decide)) hdecode
  exact ⟨hw, encode_eq_some.2 ⟨_, hfields, packFields_toNat w⟩⟩

end Sys2Proof
end

section
/-! SUPPORT. Words written out from the encoding tables, and the instructions that do nothing but trap (R253, R261/12, R281/13, R375/18).
Settles O20 and O56. -/

namespace Sys2Proof.Machine

/-- Settles O20: the meaning of each is its sheaf-wide trap, whoever issues it. -/
theorem trappingInstructions : Obligations.TrappingInstructions := by
  unfold Obligations.TrappingInstructions
  intro s i h n w _
  exact ⟨rfl, rfl, rfl⟩

/-- Settles O56: each word is decoded by computation. -/
theorem decodeWords : Obligations.DecodeWords := by
  unfold Obligations.DecodeWords
  and_intros <;> rfl

end Sys2Proof.Machine
end

section
/-! SUPPORT. Floating-point forms with no enabled flag raised: each is a shared completion that stays quiet (R198/09, R257/12, R288, R290 to
R292, R295 to R299/14). Settles O6, O8, O9 and O12. -/

namespace Sys2Proof.Machine

variable {s : State} {i : Issue} {h : Sheaf}

theorem fun64_eq (hi : s.Issuing i h) (op : FUn) (d a : Nat) :
    s.fun64 op d a = s.fp64 d fun l => fun1 .f64 op h.mode h.ftz (h.vget64 l a).toNat := by
  unfold State.fun64; rw [me_of hi]

/-- Settles O6: a binary or fused form is one floating-point completion, on registers or on pairs. -/
theorem floatBinary : Obligations.FloatBinary := by
  unfold Obligations.FloatBinary
  refine ⟨fun s i h d a b hi p hp q hq hr => ?registers, fun s i h d a b hi p hp q hq hr => ?pairs⟩
  case registers =>
    have hexec : exec p.1 s = .next (s.fbin p.2.2.1 p.2.2.2 false d a b) ∧ exec p.2.1 s = .next (s.fbin p.2.2.1 p.2.2.2 true d a b) := by
      fin_cases hp <;> exact ⟨rfl, rfl⟩
    rw [fbin_eq hi, fbin_eq hi] at hexec
    rcases List.mem_pair.mp hq with rfl | rfl
    · exact (fp32_done hi d _).quiet hexec.1 hr
    · exact (fp32_done hi d _).quiet hexec.2 hr
  case pairs =>
    have hexec : exec p.1 s = .next (s.fbin64 p.2.2 false d a b) ∧ exec p.2.1 s = .next (s.fbin64 p.2.2 true d a b) := by
      fin_cases hp <;> exact ⟨rfl, rfl⟩
    rw [fbin64_eq hi, fbin64_eq hi] at hexec
    rcases List.mem_pair.mp hq with rfl | rfl
    · exact (fp64_done hi d _).quiet hexec.1 hr
    · exact (fp64_done hi d _).quiet hexec.2 hr

/-- Settles O8: a unary form is one floating-point completion, on registers or on pairs. -/
theorem floatUnary : Obligations.FloatUnary := by
  unfold Obligations.FloatUnary
  refine fun s i h d a hi => ⟨fun p hp hr => ?registers, fun p hp hr => ?pairs⟩
  case registers =>
    have hexec : exec p.1 s = .next (s.fun32 p.2.1 p.2.2 d a) := by fin_cases hp <;> rfl
    rw [fun32_eq hi] at hexec
    exact (fp32_done hi d _).quiet hexec hr
  case pairs =>
    have hexec : exec p.1 s = .next (s.fun64 p.2 d a) := by fin_cases hp <;> rfl
    rw [fun64_eq hi] at hexec
    exact (fp64_done hi d _).quiet hexec hr

/-- Settles O9: a transcendental is a pending result of its active lanes. -/
theorem transcendentals : Obligations.Transcendentals := by
  unfold Obligations.Transcendentals
  intro s i h d a n hi p hp q hq R r hr
  have hexec : exec q.1 s = .next (s.transOp p.2.2 d n q.2) := by
    have hboth : exec p.1 s = .next (s.transOp p.2.2 d n fun l => s.me.vget l a) ∧
        exec p.2.1 s = .next (s.transOp p.2.2 d n fun _ => (s.src a).setWidth 32) := by fin_cases hp <;> exact ⟨rfl, rfl⟩
    rw [me_of hi, src_of hi] at hboth
    rcases List.mem_pair.mp hq with rfl | rfl
    · exact hboth.1
    · exact hboth.2
  obtain ⟨h', hc, hp⟩ := pendFp_spec hi _ n _ hr
  exact ⟨_, h', hexec.trans (congrArg _ (transOp_eq hi p.2.2 d n q.2 rfl)), hc, hp⟩

/-- Settles O12: `cvt` by the width of its destination type, the block format by its lanes' results. -/
theorem conversions : Obligations.Conversions := by
  unfold Obligations.Conversions
  refine ⟨fun s i h d a x y m hi hr => ?conversion, fun s i h d a b hi => ⟨fun hr => ?packing, fun p hp hr => ?block⟩⟩
  case conversion =>
    have hexec := cvt_eq hi d a x y m _ rfl
    cases hy : wideElem y
    case true =>
      simp only [hy, if_true] at hexec ⊢
      exact (pair_done hi d _ _).quiet hexec hr
    case false =>
      simp only [hy, if_false, Bool.false_eq_true] at hexec ⊢
      exact (vector_done hi d _ _).quiet hexec hr
  case packing => exact (vwrite_done hi d _ _).quiet (pkE2m1_eq hi d a b) hr
  case block =>
    rcases List.mem_pair.mp hp with rfl | rfl
    · exact (fp32_done hi d _).quiet (upkE2m1_eq hi d a b) hr
    · exact (fp32_done hi d _).quiet (scaccF32_eq hi d a b) hr

end Sys2Proof.Machine
end

section
/-! SUPPORT. Words that the decoder refuses: no well-formed instruction has their fields (R251, R253, R254, R262/12). Settles O2, O3, O4 and O11. -/

namespace Sys2Proof

/-- A word whose fields give no well-formed instruction is refused. -/
theorem exists_decode_error {w : Word}
    (h : ∀ ins, decodeFields (w.extractLsb' 25 7).toNat (w.extractLsb' 18 7).toNat (w.extractLsb' 11 7).toNat (w.extractLsb' 4 7).toNat
      (w.extractLsb' 0 4).toNat = .ok ins → ins.wellFormed ≠ true) : ∃ e, decode w = .error e := by
  cases hd : decode w with
  | error e => exact ⟨e, rfl⟩
  | ok ins =>
    obtain ⟨hfields, hw⟩ := decodeChecked_eq_ok.1 (decode_eq_ok hd)
    refine absurd hw (h ins ?_)
    simpa only [BitVec.extractLsb'_toNat, Nat.shiftRight_eq_div_pow, Nat.reducePow, Nat.div_one] using hfields

/-- An operand that is a pair starts at an even register. -/
theorem pair_even_of_wellFormed {ins : Instr} {n : Nat} {r w : Bool} (hn : ⟨.v64, n, r, w⟩ ∈ ins.operands) (hw : ins.wellFormed = true) :
    n % 2 = 0 := by
  have hok := List.all_eq_true.1 ((Bool.and_eq_true _ _).mp hw).1 _ hn
  simpa using ((Bool.and_eq_true _ _).mp hok).2

theorem extractLsb'_odd_of_getLsbD {w : Word} {k : Nat} (hk : w.getLsbD k = true) : (w.extractLsb' k 7).toNat % 2 = 1 := by
  rw [BitVec.extractLsb'_toNat, Nat.shiftRight_eq_div_pow, Nat.mod_mod_of_dvd _ (by decide)]
  exact of_decide_eq_true ((Nat.testBit_eq_decide_div_mod_eq ..).symm.trans hk)


variable {d a b f : Nat} {ins : Instr}

theorem division_code_lt (h : decodeMajor2C d a b f = .ok ins ∨ decodeMajor2D d a b f = .ok ins) : f < 8 := by
  rcases h with h | h
  · unfold decodeMajor2C at h
    split at h
    case h_9 => cases h
    all_goals omega
  · unfold decodeMajor2D at h
    split at h
    case h_9 => cases h
    all_goals omega

theorem laneArithmetic64_vv_operands (h : decodeMajor22 d a b f = .ok ins) :
    ins.operands = [⟨.v64, d, false, true⟩, ⟨.v64, a, true, false⟩, ⟨.v64, b, true, false⟩] := by
  unfold decodeMajor22 at h
  split at h
  all_goals
    cases h
  all_goals rfl

theorem laneArithmetic64_vs_operands (h : decodeMajor23 d a b f = .ok ins) :
    ins.operands = [⟨.v64, d, false, true⟩, ⟨.v64, a, true, false⟩, ⟨.sSrc, b, true, false⟩] := by
  unfold decodeMajor23 at h
  split at h
  all_goals
    cases h
  all_goals rfl

theorem unary_fields (h : decodeMajor36 d a b f = .ok ins) : f ≠ 7 ∧ f ≠ 15 ∧ b = 0 := by
  unfold decodeMajor36 at h
  split at h
  case h_15 => cases h
  all_goals exact ⟨by decide, by decide, by simpa using (need_eq_ok.1 h).1⟩

theorem predicate_fields (h : decodeMajor47 d a b f = .ok ins) : f < 8 ∧ (3 ≤ f → b = 0) ∧ (6 ≤ f → a = 0) := by
  unfold decodeMajor47 at h
  split at h
  case h_1 | h_2 | h_3 => omega
  case h_4 | h_5 | h_6 =>
    have hb : b = 0 := by simpa using (need_eq_ok.1 h).1
    omega
  case h_7 | h_8 =>
    have hab : a = 0 ∧ b = 0 := by simpa using (need_eq_ok.1 h).1
    omega
  case h_9 => cases h

end Sys2Proof
end

section
/-! SUPPORT. Integer arithmetic of scalars and lanes (R269, R271 to R273/13, R285 to R287, R292 to R294/14). Settles O2, O3, O4, O5, O10 and O11. -/

namespace Sys2Proof.Machine

/-! ### The operations, in the words of the rules -/

section
variable {w : Nat} (x y : BitVec w)

theorem minS_eq : minS x y = if x.toInt < y.toInt then x else y := by simp only [minS, BitVec.slt_iff_toInt_lt]
theorem maxS_eq : maxS x y = if x.toInt < y.toInt then y else x := by simp only [maxS, BitVec.slt_iff_toInt_lt]
theorem minU_eq : minU x y = if x.toNat < y.toNat then x else y := by simp only [minU, BitVec.ult_iff_toNat_lt]
theorem maxU_eq : maxU x y = if x.toNat < y.toNat then y else x := by simp only [maxU, BitVec.ult_iff_toNat_lt]
theorem absV_eq : absV x = if x.toInt < 0 then -x else x := by simp only [absV, BitVec.msb_eq_toInt, decide_eq_true_eq]

theorem mulhS_eq : mulhS x y = BitVec.ofInt w (x.toInt * y.toInt / 2 ^ w) := by rw [mulhS, Nat.cast_pow, Nat.cast_ofNat]

theorem addSat_eq : addSat x y = BitVec.ofInt w (max (-2 ^ (w - 1)) (min (2 ^ (w - 1) - 1) (x.toInt + y.toInt))) := by
  simp only [addSat, Nat.cast_pow, Nat.cast_ofNat]

/-! ### Bit counts and reversal (R268/13, R287/14) -/

theorem popc_toNat : (popc x).toNat = ((List.range w).filter fun k => x.getLsbD k).length := by
  have hlen : ((List.range w).filter fun k => x.getLsbD k).length ≤ w := (List.length_filter_le ..).trans_eq List.length_range
  rw [popc, List.countP_eq_length_filter, BitVec.toNat_ofNat, Nat.mod_eq_of_lt (hlen.trans_lt Nat.lt_two_pow_self)]

/-- The bits of a word counted from one end, the k-th at `place k`, begin with exactly n zeros. -/
def ZerosAt (place : Nat → Nat) (n : Nat) : Prop :=
  n ≤ w ∧ (∀ k, k < n → x.getLsbD (place k) = false) ∧ (n < w → x.getLsbD (place n) = true)

variable {x} in
theorem zerosAt_unique {place : Nat → Nat} {n m : Nat} (hn : ZerosAt x place n) (hm : ZerosAt x place m) : n = m := by
  obtain ⟨hnw, hnzeros, hnone⟩ := hn
  obtain ⟨hmw, hmzeros, hmone⟩ := hm
  rcases Nat.lt_trichotomy n m with h | h | h
  · exact absurd (hmzeros n h) (by simp [hnone (h.trans_le hmw)])
  · exact h
  · exact absurd (hnzeros m h) (by simp [hmone (h.trans_le hnw)])

theorem ctzV_zerosAt : ZerosAt x id (ctzV x).toNat := by
  have hle : ((List.range w).find? fun k => x.getLsbD k).getD w ≤ w := by
    cases hf : (List.range w).find? fun k => x.getLsbD k with
    | none => exact Nat.le_refl w
    | some k => exact Nat.le_of_lt (List.mem_range.1 (List.mem_of_find?_eq_some hf))
  rw [ctzV, BitVec.toNat_ofNat, Nat.mod_eq_of_lt (hle.trans_lt Nat.lt_two_pow_self)]
  refine ⟨hle, ?_⟩
  cases hf : (List.range w).find? fun k => x.getLsbD k with
  | none =>
    refine ⟨fun k hk => ?_, fun h => absurd h (Nat.lt_irrefl w)⟩
    simpa using List.find?_eq_none.1 hf k (List.mem_range.2 hk)
  | some n =>
    obtain ⟨hn, -, hbelow⟩ := List.find?_range_eq_some.1 hf
    exact ⟨fun k hk => by simpa using hbelow k hk, fun _ => hn⟩

theorem clzV_zerosAt : ZerosAt x (fun k => w - 1 - k) (clzV x).toNat := by
  by_cases h0 : x = 0
  · have hval : (clzV x).toNat = w := by rw [clzV, if_pos h0, BitVec.toNat_ofNat, Nat.mod_eq_of_lt Nat.lt_two_pow_self]
    rw [hval, h0]
    exact ⟨Nat.le_refl w, fun k _ => by simp, fun h => absurd h (Nat.lt_irrefl w)⟩
  · have hx : x.toNat ≠ 0 := fun h => h0 (BitVec.eq_of_toNat_eq (by simpa using h))
    have htop : x.toNat.log2 < w := (Nat.log2_lt hx).2 x.isLt
    have hval : (clzV x).toNat = w - 1 - x.toNat.log2 := by
      rw [clzV, if_neg h0, BitVec.toNat_ofNat, Nat.mod_eq_of_lt ((show _ ≤ w by omega).trans_lt Nat.lt_two_pow_self)]
    rw [hval]
    refine ⟨by omega, fun k hk => Nat.testBit_lt_two_pow ?_, fun _ => ?_⟩
    · exact (Nat.log2_lt hx).1 (show x.toNat.log2 < w - 1 - k by omega)
    · have hplace : w - 1 - (w - 1 - x.toNat.log2) = x.toNat.log2 := by omega
      simp only [hplace]
      exact Nat.testBit_log2 hx

theorem ctzV_iff (n : Nat) :
    (ctzV x).toNat = n ↔ n ≤ w ∧ (∀ k, k < n → x.getLsbD k = false) ∧ (n < w → x.getLsbD n = true) :=
  ⟨fun h => h ▸ ctzV_zerosAt x, zerosAt_unique (ctzV_zerosAt x)⟩

theorem clzV_iff (n : Nat) : (clzV x).toNat = n ↔
    n ≤ w ∧ (∀ k, w - n ≤ k → k < w → x.getLsbD k = false) ∧ (n < w → x.getLsbD (w - 1 - n) = true) := by
  refine ⟨fun h => ?_, fun ⟨hle, hzeros, hone⟩ => zerosAt_unique (clzV_zerosAt x) ⟨hle, fun k hk => ?_, hone⟩⟩
  · obtain ⟨hle, hzeros, hone⟩ := h ▸ clzV_zerosAt x
    refine ⟨hle, fun k hk hkw => ?_, hone⟩
    have hbit : x.getLsbD (w - 1 - (w - 1 - k)) = false := hzeros (w - 1 - k) (by omega)
    rwa [show w - 1 - (w - 1 - k) = k by omega] at hbit
  · exact hzeros (w - 1 - k) (by omega) (by omega)

/-- Bits taken in one after another, each below the ones before. -/
theorem foldl_bits (n : Nat) : let y := (List.range n).foldl (fun y k => 2 * y + (if x.getLsbD k then 1 else 0)) 0
    y < 2 ^ n ∧ ∀ k, k < n → y.testBit k = x.getLsbD (n - 1 - k) := by
  induction n with
  | zero => exact ⟨by simp, fun k hk => absurd hk (Nat.not_lt_zero k)⟩
  | succ n ih =>
    obtain ⟨hlt, hbits⟩ := ih
    rw [List.range_succ, List.foldl_append, List.foldl_cons, List.foldl_nil]
    generalize (List.range n).foldl (fun y k => 2 * y + (if x.getLsbD k then 1 else 0)) 0 = y at hlt hbits
    refine ⟨by rw [Nat.pow_succ]; split <;> omega, fun k hk => ?_⟩
    cases k with
    | zero => cases hb : x.getLsbD n <;> simp [Nat.testBit_zero, hb]
    | succ k =>
      rw [Nat.testBit_succ, show (2 * y + if x.getLsbD n then 1 else 0) / 2 = y by split <;> omega, hbits k (by omega)]
      congr 1
      omega

theorem brevV_getLsbD {k : Nat} (hk : k < w) : (brevV x).getLsbD k = x.getLsbD (w - 1 - k) := by
  rw [brevV, BitVec.getLsbD_ofNat, (foldl_bits x w).2 k hk]
  simp [hk]

end

/-! ### The shared operations -/

variable {s : State} {i : Issue} {h : Sheaf}

section
variable (hi : s.Issuing i h)
include hi

theorem vec32_eq (vs : Bool) (d a b : Nat) (f : Word → Word → Word) :
    s.vec32 vs d a b f = (s.vwrite d fun l => f (h.vget l a) (s.opB h vs l b)).retire := by
  unfold State.vec32; rw [me_of hi]

theorem vec64_eq (vs : Bool) (d a b : Nat) (f : Dword → Dword → Dword) :
    s.vec64 vs d a b f = (s.vwrite64 d fun l => f (h.vget64 l a) (s.opB64 h vs l b)).retire := by
  unfold State.vec64; rw [me_of hi]

theorem vun32_eq (d a : Nat) (f : Word → Word) : s.vun32 d a f = (s.vwrite d fun l => f (h.vget l a)).retire := by
  unfold State.vun32; rw [me_of hi]

theorem vun64_eq (d a : Nat) (f : Dword → Dword) : s.vun64 d a f = (s.vwrite64 d fun l => f (h.vget64 l a)).retire := by
  unfold State.vun64; rw [me_of hi]

theorem vcmp32_eq (vs : Bool) (d a b : Nat) (f : Word → Word → Bool) :
    s.vcmp32 vs d a b f = (s.pwrite d fun l => f (h.vget l a) (s.opB h vs l b)).retire := by
  unfold State.vcmp32; rw [me_of hi]

theorem vcmp64_eq (vs : Bool) (d a b : Nat) (f : Dword → Dword → Bool) :
    s.vcmp64 vs d a b f = (s.pwrite d fun l => f (h.vget64 l a) (s.opB64 h vs l b)).retire := by
  unfold State.vcmp64; rw [me_of hi]

theorem exec_writesVector {ins : Instr} {d : Nat} {f : Nat → Word} (hx : exec ins s = .next (s.vwrite d f).retire) :
    ∃ t h', exec ins s = .next t ∧ Completed i s t h h' ∧ WritesVector i d f {} h h' :=
  (vwrite_spec hi d f).elim fun h' hd => ⟨_, h', hx, hd⟩

theorem exec_writesPair {ins : Instr} {d : Nat} {f : Nat → Dword} (hx : exec ins s = .next (s.vwrite64 d f).retire) :
    ∃ t h', exec ins s = .next t ∧ Completed i s t h h' ∧ WritesPair i d f {} h h' :=
  (vwrite64_spec hi d f).elim fun h' hd => ⟨_, h', hx, hd⟩

theorem exec_writesPred {ins : Instr} {d : Nat} {f : Nat → Bool} (hx : exec ins s = .next (s.pwrite d f).retire) :
    ∃ t h', exec ins s = .next t ∧ Completed i s t h h' ∧ WritesPred i d f {} h h' :=
  (pwrite_spec hi d f).elim fun h' hd => ⟨_, h', hx, hd⟩

end

/-- Settles O2: a division writes the rule's quotient or remainder, and sets DZ. -/
theorem divisions : Obligations.Divisions := by
  unfold Obligations.Divisions
  refine ⟨fun s i h d a b hi p hp => ?scalar, fun s i h d a b hi => ⟨fun p hp => ?lanes, fun p hp => ?pairs⟩, fun w hw => ?refused⟩
  case scalar =>
    have hexec : ∃ f, exec p.1 s = .next (s.scalarDiv d a b f) ∧ f (s.src a) (s.src b) = p.2 := by
      simp only [← src_of hi] at hp
      fin_cases hp <;> exact ⟨_, rfl, rfl⟩
    obtain ⟨f, hx, hf⟩ := hexec
    obtain ⟨h', hd⟩ := scalarDiv_spec hi d a b f
    rw [hf, src_of hi] at hd
    exact ⟨_, h', hx, hd⟩
  case lanes =>
    have hexec : exec p.1 s = .next (s.vdiv32 false d a b p.2.2) ∧ exec p.2.1 s = .next (s.vdiv32 true d a b p.2.2) := by
      fin_cases hp <;> exact ⟨rfl, rfl⟩
    exact ⟨(vdiv32_spec hi false d a b p.2.2).elim fun h' hd => ⟨_, h', hexec.1, hd⟩,
      (vdiv32_spec hi true d a b p.2.2).elim fun h' hd => ⟨_, h', hexec.2, hd⟩⟩
  case pairs =>
    have hexec : exec p.1 s = .next (s.vdiv64 false d a b p.2.2) ∧ exec p.2.1 s = .next (s.vdiv64 true d a b p.2.2) := by
      fin_cases hp <;> exact ⟨rfl, rfl⟩
    exact ⟨(vdiv64_spec hi false d a b p.2.2).elim fun h' hd => ⟨_, h', hexec.1, hd⟩,
      (vdiv64_spec hi true d a b p.2.2).elim fun h' hd => ⟨_, h', hexec.2, hd⟩⟩
  case refused =>
    refine exists_decode_error fun ins hins => ?_
    obtain ⟨hmajor, hcode⟩ := hw
    rcases hmajor with hm | hm
    · rw [hm] at hins
      exact absurd (division_code_lt (.inl hins)) (by omega)
    · rw [hm] at hins
      exact absurd (division_code_lt (.inr hins)) (by omega)

/-- Settles O3: each operation, in the words of its rule, is written lane by lane; a pair that starts at an odd register is refused. -/
theorem laneArithmetic : Obligations.LaneArithmetic := by
  unfold Obligations.LaneArithmetic
  refine ⟨fun s i h d a b hi p hp => ?lanes, fun s i h d a b hi p hp => ?pairs, fun w hw => ?refused⟩
  case lanes =>
    have hexec : ∃ f, exec p.1 s = .next (s.vec32 false d a b f) ∧ exec p.2.1 s = .next (s.vec32 true d a b f) ∧ ∀ x y, f x y = p.2.2 x y := by
      fin_cases hp <;> refine ⟨_, rfl, rfl, fun x y => ?_⟩
      all_goals simp only [minS_eq, maxS_eq, minU_eq, maxU_eq, mulhS_eq, mulhU, shlV, shrU, shrS, addSat_eq, Nat.reduceSub]
    obtain ⟨f, hvv, hvs, hf⟩ := hexec
    rw [vec32_eq hi] at hvv hvs
    simp only [hf] at hvv hvs
    exact ⟨exec_writesVector hi hvv, exec_writesVector hi hvs⟩
  case pairs =>
    have hexec : ∃ f, exec p.1 s = .next (s.vec64 false d a b f) ∧ exec p.2.1 s = .next (s.vec64 true d a b f) ∧ ∀ x y, f x y = p.2.2 x y := by
      fin_cases hp <;> refine ⟨_, rfl, rfl, fun x y => ?_⟩
      all_goals simp only [minS_eq, maxS_eq, minU_eq, maxU_eq, mulhS_eq, mulhU, shlV, shrU, shrS, addSat_eq, Nat.reduceSub]
    obtain ⟨f, hvv, hvs, hf⟩ := hexec
    rw [vec64_eq hi] at hvv hvs
    simp only [hf] at hvv hvs
    exact ⟨exec_writesPair hi hvv, exec_writesPair hi hvs⟩
  case refused =>
    refine exists_decode_error fun ins hins hwf => ?_
    rcases hw with ⟨hm, hodd⟩ | ⟨hm, hodd⟩
    · rw [hm] at hins
      have hops := laneArithmetic64_vv_operands hins
      have hd := pair_even_of_wellFormed (hops ▸ List.mem_cons_self) hwf
      have ha := pair_even_of_wellFormed (hops ▸ List.mem_cons_of_mem _ List.mem_cons_self) hwf
      have hb := pair_even_of_wellFormed (hops ▸ List.mem_cons_of_mem _ (List.mem_cons_of_mem _ List.mem_cons_self)) hwf
      rcases hodd with hodd | hodd | hodd <;> have hone := extractLsb'_odd_of_getLsbD hodd <;> omega
    · rw [hm] at hins
      have hops := laneArithmetic64_vs_operands hins
      have hd := pair_even_of_wellFormed (hops ▸ List.mem_cons_self) hwf
      have ha := pair_even_of_wellFormed (hops ▸ List.mem_cons_of_mem _ List.mem_cons_self) hwf
      rcases hodd with hodd | hodd <;> have hone := extractLsb'_odd_of_getLsbD hodd <;> omega

/-- Settles O4: each unary operation is written lane by lane; what the counts and the reversal give, by the bits of the word. -/
theorem laneUnary : Obligations.LaneUnary := by
  unfold Obligations.LaneUnary
  refine ⟨fun s i h d a hi => ⟨fun p hp => ?lanes, fun p hp => ?pairs⟩,
    fun w x _ => ⟨popc_toNat x, clzV_iff x, ctzV_iff x, fun k hk => brevV_getLsbD x hk⟩, fun w hw => ?refused⟩
  case lanes =>
    have hexec : ∃ f, exec p.1 s = .next (s.vun32 d a f) ∧ ∀ x, f x = p.2 x := by
      fin_cases hp <;> refine ⟨_, rfl, fun x => ?_⟩
      all_goals simp only [absV_eq]
    obtain ⟨f, hx, hf⟩ := hexec
    rw [vun32_eq hi] at hx
    simp only [hf] at hx
    exact exec_writesVector hi hx
  case pairs =>
    have hexec : ∃ f, exec p.1 s = .next (s.vun64 d a f) ∧ ∀ x, f x = p.2 x := by
      fin_cases hp <;> refine ⟨_, rfl, fun x => ?_⟩
      all_goals simp only [absV_eq]
    obtain ⟨f, hx, hf⟩ := hexec
    rw [vun64_eq hi] at hx
    simp only [hf] at hx
    exact exec_writesPair hi hx
  case refused =>
    refine exists_decode_error fun ins hins => ?_
    obtain ⟨hm, hbad⟩ := hw
    rw [hm] at hins
    obtain ⟨h7, h15, hb⟩ := unary_fields hins
    rcases hbad with hf | hf | hf
    · exact absurd (congrArg BitVec.toNat hf) h7
    · exact absurd (congrArg BitVec.toNat hf) h15
    · exact absurd (BitVec.eq_of_toNat_eq hb) hf

/-- Settles O5: a write of the active lanes; `vput` writes its one lane where that is active. -/
theorem vectorMoves : Obligations.VectorMoves := by
  unfold Obligations.VectorMoves
  intro s i h d a b c hi k
  refine ⟨fun p hp => exec_writesVector hi ?vector, fun p hp => exec_writesPair hi ?pair, ?vput⟩
  case vector =>
    rw [← me_of hi] at hp
    fin_cases hp <;> rfl
  case pair =>
    rw [← me_of hi] at hp
    fin_cases hp <;> rfl
  case vput =>
    have hexec : exec (.vput d a b) s =
        .next (if i.lanes.getLsbD k then (s.modMe fun g => g.vset k d ((s.readS h k a).setWidth 32)).retire else s.retire) := by
      show execVput d a b s = _
      unfold execVput
      rw [src_of hi, active_of hi, me_of hi]
    have hk : k < 64 := Nat.mod_lt _ (by decide)
    by_cases hactive : i.lanes.getLsbD k = true
    · rw [if_pos hactive] at hexec
      obtain ⟨h', hc, he⟩ := modMe_retire hi (fun g => g.vset k d ((s.readS h k a).setWidth 32)) (fun _ => rfl) rfl rfl
      refine ⟨_, h', hexec, hc, fun l r hl => ?_, congrArg (fun g : Sheaf => ({ g with v := h.v } : Sheaf)) he⟩
      have hv : h'.virt l r = (h.vset k d ((s.readS h k a).setWidth 32)).virt l r := by
        unfold Sheaf.virt
        rw [(congrArg Sheaf.v he :)]
      rw [hv, virt_vset _ _ _ _ _ _ hk hl]
      refine if_congr ⟨fun ⟨hlk, hr⟩ => ⟨hlk, hlk ▸ hactive, hr⟩, fun ⟨hlk, _, hr⟩ => ⟨hlk, hr⟩⟩ rfl rfl
    · rw [if_neg hactive] at hexec
      obtain ⟨h', hc, he⟩ := retire_onlyLanes hi
      refine ⟨_, h', hexec, hc, fun l r hl => ?_, congrArg (fun g : Sheaf => ({ g with v := h.v } : Sheaf)) he⟩
      rw [if_neg fun ⟨hlk, hl, _⟩ => hactive (hlk ▸ hl)]
      unfold Sheaf.virt
      rw [(congrArg Sheaf.v he :)]

/-- Settles O10: a comparison is a write of the active lanes of a predicate, a float one with its IV. -/
theorem comparisons : Obligations.Comparisons := by
  unfold Obligations.Comparisons
  refine ⟨fun s i h d a b hi => ⟨fun p hp => ?lanes, fun p hp => ?pairs⟩, fun s i h d a b hi => ⟨fun p hp q hq hr => ?floats, fun p hp q hq hr => ?floatPairs⟩⟩
  case lanes =>
    have hexec : ∃ f, exec p.1 s = .next (s.vcmp32 false d a b f) ∧ exec p.2.1 s = .next (s.vcmp32 true d a b f) ∧ ∀ x y, f x y = p.2.2 x y := by
      fin_cases hp <;> exact ⟨_, rfl, rfl, fun x y => rfl⟩
    obtain ⟨f, hvv, hvs, hf⟩ := hexec
    rw [vcmp32_eq hi] at hvv hvs
    simp only [hf] at hvv hvs
    exact ⟨exec_writesPred hi hvv, exec_writesPred hi hvs⟩
  case pairs =>
    have hexec : ∃ f, exec p.1 s = .next (s.vcmp64 false d a b f) ∧ exec p.2.1 s = .next (s.vcmp64 true d a b f) ∧ ∀ x y, f x y = p.2.2 x y := by
      fin_cases hp <;> exact ⟨_, rfl, rfl, fun x y => rfl⟩
    obtain ⟨f, hvv, hvs, hf⟩ := hexec
    rw [vcmp64_eq hi] at hvv hvs
    simp only [hf] at hvv hvs
    exact ⟨exec_writesPred hi hvv, exec_writesPred hi hvs⟩
  case floats =>
    have hexec : exec p.1 s = .next (s.fcmp32 p.2.2.1 p.2.2.2 false d a b) ∧ exec p.2.1 s = .next (s.fcmp32 p.2.2.1 p.2.2.2 true d a b) := by
      fin_cases hp <;> exact ⟨rfl, rfl⟩
    rw [fcmp32_eq hi, fcmp32_eq hi] at hexec
    rcases List.mem_pair.mp hq with rfl | rfl
    · exact (fcmpP_done hi d _).quiet hexec.1 hr
    · exact (fcmpP_done hi d _).quiet hexec.2 hr
  case floatPairs =>
    have hexec : exec p.1 s = .next (s.fcmp64 p.2.2 false d a b) ∧ exec p.2.1 s = .next (s.fcmp64 p.2.2 true d a b) := by
      fin_cases hp <;> exact ⟨rfl, rfl⟩
    rw [fcmp64_eq hi, fcmp64_eq hi] at hexec
    rcases List.mem_pair.mp hq with rfl | rfl
    · exact (fcmpP_done hi d _).quiet hexec.1 hr
    · exact (fcmpP_done hi d _).quiet hexec.2 hr

/-- Settles O11: a select is a write of the active lanes, a predicate instruction one of a predicate's bits, `stop` one of a scalar. -/
theorem selectsAndPredicates : Obligations.SelectsAndPredicates := by
  unfold Obligations.SelectsAndPredicates
  refine ⟨fun s i h d a b m hi => ⟨fun p hp => exec_writesVector hi ?lanes, fun p hp => exec_writesPair hi ?pairs,
    fun p hp => exec_writesPred hi ?predicates, ?stop⟩, fun w hw => ?refused⟩
  case lanes =>
    rw [← me_of hi] at hp ⊢
    fin_cases hp <;> rfl
  case pairs =>
    rw [← me_of hi] at hp ⊢
    fin_cases hp <;> rfl
  case predicates =>
    rw [← me_of hi] at hp
    fin_cases hp <;> rfl
  case stop =>
    have hexec : exec (.stop d a) s = .next (s.scalarOp d (h.pget a)) := by rw [← me_of hi]; rfl
    exact (scalarOp_spec hi d (h.pget a)).elim fun h' hd => ⟨_, h', hexec, hd⟩
  case refused =>
    refine exists_decode_error fun ins hins => ?_
    obtain ⟨hm, hbad⟩ := hw
    rw [hm] at hins
    obtain ⟨hf, hb, ha⟩ := predicate_fields hins
    rcases hbad with h8 | ⟨h3, hb'⟩ | ⟨h6, ha'⟩
    · exact absurd hf (by omega)
    · exact absurd (BitVec.eq_of_toNat_eq (hb h3)) hb'
    · exact absurd (BitVec.eq_of_toNat_eq (ha h6)) ha'

end Sys2Proof.Machine
end

section
/-! SUPPORT. `vget` of an inactive lane whose register a load has still to bring makes a free choice (R273/13, log 4). Refutes O1. -/

namespace Sys2Proof.Machine

variable {s : State} {i : Issue} {h : Sheaf}

/-- The value read is the free choice's, and the choice is counted. -/
theorem exec_vget_coming (hi : s.Issuing i h) {d a b : Nat} {x : Word}
    (hidle : i.lanes.getLsbD ((s.readS h (lowestLane i.lanes) b).toNat % 64) = false)
    (hx : h.coming ((s.readS h (lowestLane i.lanes) b).toNat % 64) (h.wb + a) = some x) :
    ∃ y, exec (.vget d a b) s = .next (s.flip.2.scalarOp d y) := by
  show ∃ y, execVget d a b s = _
  unfold execVget
  simp only [active_of hi, me_of hi, src_of hi, hidle, hx]
  exact ⟨_, rfl⟩

/-! ### A state in which an inactive lane's register has a value coming -/

/-- A load of lane 1 brings 5 to its register 0. -/
def bringingSheaf : Sheaf := ({ tSheaf with pend := [{ id := 3, pc := 0x1000, lanes := 2, regs := [0], vals := [(1, 0, 5)] }] } : Sheaf).sset 1 1

theorem bringingSheaf_coming : bringingSheaf.coming 1 0 = some 5 := by decide +kernel

/-- Lane 0 alone issues. -/
theorem bringingState_issuing : (tBy tOne bringingSheaf).Issuing tOne bringingSheaf := tBy_issuing _ _ rfl

/-- Scalar 1 selects lane 1. -/
theorem bringingState_selects : ((tBy tOne bringingSheaf).readS bringingSheaf (lowestLane tOne.lanes) 1).toNat % 64 = 1 := by decide +kernel

/-- Refutes O1: it says of `vget` that nothing outside the sheaf differs. That of lane 1 in `tBy tOne bringingSheaf`, inactive and with a load's
value coming to the register that is read, makes a free choice between the two values, which is counted in `choices`. -/
theorem not_scalarArithmetic : ¬ Obligations.ScalarArithmetic := by
  unfold Obligations.ScalarArithmetic
  intro ⟨_, _, hall⟩
  obtain ⟨t, h', hexec, ⟨-, hsame, -⟩, -⟩ := hall _ _ _ 0 0 1 0 0 0 bringingState_issuing _ (List.getLast_mem (List.cons_ne_nil _ _))
  obtain ⟨y, hvget⟩ := exec_vget_coming bringingState_issuing (d := 0) (a := 0) (b := 1) (by rw [bringingState_selects]; decide)
    (by rw [bringingState_selects]; exact bringingSheaf_coming)
  obtain ⟨g, hdone, -⟩ := scalarOp_spec (s := (tBy tOne bringingSheaf).flip.2) (issuing_of_eq bringingState_issuing rfl rfl) 0 y
  have ht : t = (tBy tOne bringingSheaf).flip.2.scalarOp 0 y := Host.Outcome.next.inj (hexec.symm.trans hvget)
  have hchoices : (tBy tOne bringingSheaf).flip.2.choices = (tBy tOne bringingSheaf).choices :=
    (sameBut_choices hdone.2.1).symm.trans (ht ▸ sameBut_choices hsame)
  exact absurd hchoices (by decide)

end Sys2Proof.Machine
end

section
/-! SUPPORT. `xlinv` drops by the whole translation that a cached entry is a piece of (R123/05, R380/18). Refutes O25. -/

namespace Sys2Proof.Machine

/-- A supervisor's `xlinv` of a range of virtual addresses, with nothing of the context in flight. -/
theorem exec_xlinv_drops {s : State} {i : Issue} {h : Sheaf} (hi : s.Issuing i h) {a : Nat} (hsuper : s.supervisor h.ctx)
    (hctx : (h.sget a).toNat < 64) (hlen : (h.sget (a + 2)).toNat ≠ 0) (htop : (h.sget (a + 1)).toNat + (h.sget (a + 2)).toNat ≤ 2 ^ 56)
    (hflight : s.inFlight (h.sget a).toNat = false) :
    exec (.xlinv 1 a) s =
      .next (s.dropTlb (h.sget a).toNat (some (false, (h.sget (a + 1)).toNat, (h.sget (a + 2)).toNat))).retire := by
  have hfits : ¬ (64 ≤ (h.sget a).toNat ∨ (1 ≠ 0 ∧ ((h.sget (a + 2)).toNat = 0 ∨
      2 ^ 56 < (h.sget (a + 1)).toNat + (h.sget (a + 2)).toNat))) := by omega
  show execXlinv 1 a s = _
  unfold execXlinv
  simp only [me_of hi, hsuper, not_true_eq_false, if_false, if_true, hfits, hflight, Bool.false_eq_true, one_ne_zero]
  rfl

/-- The first page of a translation of 2 MiB, cached as one piece of it. -/
def pieceTlb : Tlb := { ctx := 0, va := 0, gpa := 0, hpa := 0, size := 4096, r := true, w := true, x := true, span := 0x200000 }

/-- Scalars 0 to 2 name context 0 and 4096 bytes from 0x3000. -/
def invalidatingSheaf : Sheaf := ((tSheaf.sset 0 0).sset 1 0x3000).sset 2 0x1000

/-- Context 0 is the supervisor's, and core 0 caches the piece. -/
def pieceCached : State :=
  { tBy tOne invalidatingSheaf with sysCtx := some 0, cores := [(0, { tCore with tlb := [pieceTlb] })] }

theorem pieceCached_issuing : pieceCached.Issuing tOne invalidatingSheaf := issuing_of_eq (tBy_issuing tOne invalidatingSheaf rfl) rfl rfl

/-- The state after `xlinv`, before it retires: the piece is dropped. -/
theorem pieceCached_dropTlb : ((pieceCached.dropTlb 0 (some (false, 0x3000, 0x1000))).core 0).tlb = [] := by decide +kernel

/-- Refutes O25: it says that `xlinv` keeps every entry whose own bytes lie outside the range. The device judges the entry by the whole
translation, and drops the piece of `pieceCached`, whose page does not meet the range while its translation of 2 MiB does. -/
theorem not_supervisorInstructions : ¬ Obligations.SupervisorInstructions := by
  unfold Obligations.SupervisorInstructions
  intro hall
  obtain ⟨-, hsuper⟩ := hall _ _ _ 1 0 0 0 pieceCached_issuing
  obtain ⟨-, -, hdrop, -⟩ := hsuper (by decide)
  obtain ⟨t, h', hexec, -, -, -, -, -, hcores, -⟩ := hdrop (by decide) (by decide) (by decide)
  have ht : t = (pieceCached.dropTlb 0 (some (false, 0x3000, 0x1000))).retire :=
    Host.Outcome.next.inj (hexec.symm.trans (exec_xlinv_drops pieceCached_issuing (by decide) (by decide) (by decide) (by decide) (by decide)))
  obtain ⟨-, hkept⟩ := hcores (by decide) 0
  have hmem := (hkept pieceTlb (by decide)).mpr (by decide)
  have hempty : (t.core 0).tlb = [] := by
    rw [ht]
    exact pieceCached_dropTlb
  exact absurd (hempty ▸ hmem) List.not_mem_nil

end Sys2Proof.Machine
end

section
/-! SUPPORT. `call`, `ret` and `loop`, each one change of the active lanes; a trap whose lanes have one cause and one address (R227/11, R277 to
R279/13). Settles O18. -/

namespace Sys2Proof.Machine

variable {s : State} {i : Issue} {h : Sheaf}

/-! ### Lanes that trap with one cause -/

theorem foldl_uniform_cause (c : Cause) (xs : List LaneFault) (f : LaneFault) (hf : f.cause = c) (hxs : ∀ g ∈ xs, g.cause = c) :
    (xs.foldl (fun b g => if causeRank g.cause < causeRank b.cause then g else b) f).cause = c := by
  induction xs generalizing f with
  | nil => exact hf
  | cons g xs ih =>
    have hg := hxs g List.mem_cons_self
    rw [List.foldl_cons, hf, hg, if_neg (Nat.lt_irrefl _)]
    exact ih f hf fun k hk => hxs k (List.mem_cons_of_mem _ hk)

theorem foldl_lowest_mem (xs : List LaneFault) (f : LaneFault) :
    xs.foldl (fun b g => if g.lane < b.lane then g else b) f ∈ f :: xs := by
  induction xs generalizing f with
  | nil => exact List.mem_cons_self
  | cons g xs ih =>
    rw [List.foldl_cons]
    split
    · exact List.mem_cons_of_mem _ (ih g)
    · rcases List.mem_cons.mp (ih f) with h | h
      · rw [h]; exact List.mem_cons_self
      · exact List.mem_cons_of_mem _ (List.mem_cons_of_mem _ h)

/-- One cause in every lane wins for all of them; the address is a lane's. -/
theorem winning_uniform_cause {c : Cause} {fs : List LaneFault} (hne : fs ≠ []) (hc : ∀ f ∈ fs, f.cause = c) :
    ∃ low ∈ fs, winning fs = some (c, maskOf (fs.map LaneFault.lane), low.addr) := by
  obtain ⟨f, fs, rfl⟩ := List.exists_cons_of_ne_nil hne
  have hbest := foldl_uniform_cause c fs f (hc f List.mem_cons_self) fun g hg => hc g (List.mem_cons_of_mem _ hg)
  have hall : ((f :: fs).filter fun g => g.cause == c) = f :: fs := List.filter_eq_self.mpr fun g hg => by simp [hc g hg]
  refine ⟨(f :: fs).foldl (fun b g => if g.lane < b.lane then g else b) f, ?_, ?_⟩
  · rcases List.mem_cons.mp (foldl_lowest_mem (f :: fs) f) with h | h
    · rw [h]; exact List.mem_cons_self
    · exact h
  · unfold winning
    simp only [hbest, hall, List.headD_cons]

/-- Lanes that all fail for one reason at one address trap together. -/
theorem trapLanes_uniform (hi : s.Issuing i h) (c : Cause) (a : Dword) {ls : List Nat} (hne : ls ≠ []) :
    s.trapLanes (ls.map fun l => ⟨l, c, a⟩) = some (s.takeTrap i.sheaf c 0 a (maskOf ls) i.pc none) := by
  obtain ⟨low, hlow, hw⟩ := winning_uniform_cause (c := c) (fs := ls.map fun l => ⟨l, c, a⟩) (by simpa using hne) (by simp)
  obtain ⟨l, -, rfl⟩ := List.mem_map.mp hlow
  unfold State.trapLanes
  rw [hi.1, hw, List.map_map]
  simp [Function.comp_def]

/-! ### The three instructions -/

theorem exec_call (hi : s.Issuing i h) (c : Nat) (o : BitVec 18) :
    exec (.call c o) s = if inSpace (branchTarget i.pc o) then
      .next ((s.vwrite64 c fun _ => i.pc.setWidth 64 + 4).branch o fun _ => true) else .next (s.trapAll .space 0 0) := by
  show execCall c o s = _
  unfold execCall
  rw [issuePc_of hi]

/-- A call that stays inside the address space: the pair is written, then the lanes jump. -/
theorem exec_call_inside (hi : s.Issuing i h) (c : Nat) (o : BitVec 18) (hin : inSpace (branchTarget i.pc o) = true) :
    ∃ t h', exec (.call c o) s = .next t ∧ t.sheaf? i.sheaf = some h' ∧ SameBut i.sheaf s t ∧
      VectorIs i c 2 (fun _ j => if j = 0 then (i.pc.setWidth 64 + 4 : Dword).extractLsb' 0 32
        else (i.pc.setWidth 64 + 4 : Dword).extractLsb' 32 32) h h' ∧
      OnlyLanes { h with v := h'.v } h' ∧ LanesGo i (fun _ ln => ln.jump i.pc (BitVec.ofInt 56 (branchTarget i.pc o)) i.solo) h h' := by
  have hid : ∀ a : Sheaf, ((lanesOf i.lanes).foldl (fun h l => h.vset64 l c (i.pc.setWidth 64 + 4)) a).id = a.id :=
    fun a => (congrArg Sheaf.id (foldl_vset64_frame c (fun _ => i.pc.setWidth 64 + 4) (lanesOf i.lanes) a a.v) :)
  have hframe := foldl_vset64_frame c (fun _ => i.pc.setWidth 64 + 4) (lanesOf i.lanes) h
  have hwrite : s.vwrite64 c (fun _ => i.pc.setWidth 64 + 4) =
      s.modMe fun a => (lanesOf i.lanes).foldl (fun h l => h.vset64 l c (i.pc.setWidth 64 + 4)) a := by
    unfold State.vwrite64; rw [active_of hi]
  have hpair := issuing_modMe hi _ hid
  obtain ⟨h', hsheaf, hsame, honly, hgo⟩ := branch_spec hpair o (fun _ => true) hin
  have hlanes := (congrArg Sheaf.lanes (hframe h.v) :)
  have hv : h'.v = _ := (congrArg Sheaf.v honly :)
  refine ⟨_, h', by rw [exec_call hi, if_pos hin, hwrite], hsheaf, sameBut_trans (sameBut_modMe hi _ hid) hsame,
    pairIs_of (fun _ => i.pc.setWidth 64 + 4) hv, ?_, ?_⟩
  · have hrest := (congrArg (fun a : Sheaf => ({ a with v := h'.v, lanes := h.lanes, watchSkip := h.watchSkip } : Sheaf)) honly).trans
      (congrArg (fun a : Sheaf => ({ a with lanes := h.lanes, watchSkip := h.watchSkip } : Sheaf)) (hframe h'.v))
    exact hrest
  · unfold LanesGo Sheaf.lane at hgo ⊢
    rw [hlanes] at hgo
    exact hgo

theorem exec_ret (hi : s.Issuing i h) (c : Nat) :
    exec (.ret c) s = (match s.trapLanes (((lanesOf i.lanes).filter fun l => !((h.vget64 l c).extractLsb' 56 8 == 0)).map fun l => ⟨l, .space, 0⟩) with
      | some s => .next s
      | none => .next (s.modMe fun a =>
        { (lanesOf i.lanes).foldl (fun a l => a.modLane l fun ln => { ln with pc := (h.vget64 l c).setWidth 56 &&& ~~~3 }) a with
          watchSkip := a.skipsLeft i.lanes i.pc })) := by
  show execRet c s = _
  unfold execRet
  rw [me_of hi, active_of hi, issuePc_of hi] <;> rfl

/-- Settles O18: each of the three is one change of the active lanes, `call` after the write of its pair. -/
theorem callsReturnsLoops : Obligations.CallsReturnsLoops := by
  unfold Obligations.CallsReturnsLoops
  refine fun s i h c k n v o hi => ⟨fun hin => ?call, fun hout => ?callOutside, fun hbad => ?ret, fun hbad => ?retSpace, ?loop⟩
  case call => exact exec_call_inside hi c o ((inSpace_iff _).mpr hin)
  case callOutside =>
    have hspace : ¬ inSpace (branchTarget i.pc o) = true := fun hin => hout ((inSpace_iff _).mp hin)
    rw [exec_call hi, if_neg hspace]
  case ret =>
    obtain ⟨h', hgo⟩ := lanesGo_spec hi fun l ln => { ln with pc := (h.vget64 l c).setWidth 56 &&& ~~~3 }
    exact ⟨_, h', by rw [exec_ret hi, hbad, List.map_nil, trapLanes_nil], hgo⟩
  case retSpace => rw [exec_ret hi, trapLanes_uniform hi _ _ hbad]
  case loop =>
    obtain ⟨h', hgo⟩ := lanesGo_spec hi fun l ln =>
      if (if v then h.vget l c else (s.readS h l c).setWidth 32) = 0 then
        { ln with loops := modAt (fun r : LoopReg => { r with count := 0 }) ln.loops k, pc := i.pc + 4 + BitVec.ofNat 56 (4 * (n + 1)) }
      else ({ ln with loops := modAt (fun _ => ⟨if v then h.vget l c else (s.readS h l c).setWidth 32, i.pc + 4,
        i.pc + BitVec.ofNat 56 (4 * (n + 1))⟩) ln.loops k } : Lane).pass i.pc i.solo
    refine ⟨_, h', ?_, hgo⟩
    show execLoop c v k n s = _
    unfold execLoop
    rw [me_of hi, active_of hi, issuePc_of hi, solo_of hi]

end Sys2Proof.Machine
end

section
/-! SUPPORT. `nop`, `yield` and `exit`: what a passed turn and an ended greedy run leave as they were, and how a sheaf's last lanes end it (R40/02,
R45/02, R281, R282/13). Settles O19. -/

namespace Sys2Proof.Machine

variable {s u w : State} {i : Issue} {h g : Sheaf}

/-! ### `yield` -/

/-- The lanes of an issue are yielded, and leave the favoured set. -/
def Sheaf.yieldLanes (m : Mask) (h : Sheaf) : Sheaf :=
  { h with yielded := h.yielded ||| m, favoured := h.favoured &&& ~~~m, favouredOld := h.favouredOld.map fun k => k &&& ~~~m }

/-- The pipe of an issue of the whole sheaf ends its greedy run. -/
def State.endGreedy (s : State) (i : Issue) : State :=
  if i.solo then s else s.modCore i.core fun c => { c with pipes := modAt (fun p : Pipe => { p with last := none }) c.pipes i.pipe }

/-- A passed turn and an ended greedy run change cores alone. -/
theorem yieldTurn_cores (s : State) (h : Sheaf) (C : Cells Core) : ({ s.yieldTurn h with cores := C } : State) = { s with cores := C } := by
  unfold State.yieldTurn
  split
  · rfl
  · split
    · rw [nextTurn_eq]; rfl
    · rfl

theorem endGreedy_cores (s : State) (i : Issue) (C : Cells Core) : ({ s.endGreedy i with cores := C } : State) = { s with cores := C } := by
  unfold State.endGreedy
  split <;> rfl

theorem exec_yield (hi : s.Issuing i h) (hu : u = s.retire.yieldTurn h) (hg : u.Issuing i g) :
    exec .yield s = .next ((if g.prog then u.modMe (Sheaf.yieldLanes i.lanes) else u).endGreedy i) := by
  subst hu
  show execYield s = _
  simp only [execYield, me_of hi, me_of hg, active_of hg]
  cases g.prog
  · simp only [Bool.false_eq_true, if_false, hg.1]
    rfl
  · have hcur := (issuing_modMe hg (Sheaf.yieldLanes i.lanes) fun _ => rfl).1
    simp only [if_true]
    split
    next j hj =>
      obtain rfl : i = j := Option.some.inj (hcur.symm.trans hj)
      rfl
    next hnone => exact absurd (hcur.symm.trans hnone) (Option.some_ne_none _)

/-- The sheaf of a `yield`, once its lanes have moved past it. -/
theorem exec_yield_spec (hi : s.Issuing i h) : ∃ t g, exec .yield s = .next t ∧
    t.sheaf? i.sheaf = some (if h.prog then g.yieldLanes i.lanes else g) ∧ Moved i h g ∧ OnlyLanes h g ∧
    (∀ k, k ≠ i.sheaf → t.sheaf? k = s.sheaf? k) ∧ ({ t with sheaves := s.sheaves, cores := s.cores } : State) = s := by
  obtain ⟨g, ⟨hsheaf, hsame, hmoved, -⟩, honly⟩ := retire_onlyLanes hi
  have hturn := yieldTurn_cores s.retire h
  have hg : (s.retire.yieldTurn h).Issuing i g := issuing_of_eq ⟨(retire_cur s).trans hi.1, hsheaf⟩
    (congrArg State.cur (hturn []) :) (congrArg State.sheaves (hturn []) :)
  have hprog : g.prog = h.prog := (congrArg Sheaf.prog honly :)
  refine ⟨_, g, exec_yield hi rfl hg, ?_, hmoved, honly, ?_⟩
  · have hsheaves : ((if g.prog then (s.retire.yieldTurn h).modMe (Sheaf.yieldLanes i.lanes) else s.retire.yieldTurn h).endGreedy i).sheaves =
        (if g.prog then (s.retire.yieldTurn h).modMe (Sheaf.yieldLanes i.lanes) else s.retire.yieldTurn h).sheaves :=
      (congrArg State.sheaves (endGreedy_cores _ i []) :)
    unfold State.sheaf?
    rw [hsheaves, hprog]
    split
    · exact (issuing_modMe hg (Sheaf.yieldLanes i.lanes) fun _ => rfl).2
    · exact hg.2
  · have hyield : SameBut i.sheaf (s.retire.yieldTurn h)
        (if g.prog then (s.retire.yieldTurn h).modMe (Sheaf.yieldLanes i.lanes) else s.retire.yieldTurn h) := by
      split
      · exact sameBut_modMe hg _ fun _ => rfl
      · exact sameBut_refl _ _
    have hend := endGreedy_cores (if g.prog then (s.retire.yieldTurn h).modMe (Sheaf.yieldLanes i.lanes) else s.retire.yieldTurn h) i
    generalize (if g.prog then (s.retire.yieldTurn h).modMe (Sheaf.yieldLanes i.lanes) else s.retire.yieldTurn h) = w at hyield hend ⊢
    constructor
    · intro k hk
      have hback : (w.endGreedy i).sheaf? k = w.sheaf? k := (congrArg (fun u : State => u.sheaf? k) (hend []) :)
      have hfront : (s.retire.yieldTurn h).sheaf? k = s.retire.sheaf? k := (congrArg (fun u : State => u.sheaf? k) (hturn []) :)
      rw [hback, hyield.2 k hk, hfront, hsame.2 k hk]
    · calc ({ w.endGreedy i with sheaves := s.sheaves, cores := s.cores } : State)
          = { w with sheaves := s.sheaves, cores := s.cores } := (congrArg (fun u : State => { u with sheaves := s.sheaves }) (hend s.cores) :)
        _ = { s.retire.yieldTurn h with sheaves := s.sheaves, cores := s.cores } :=
            (congrArg (fun u : State => ({ u with sheaves := s.sheaves, cores := s.cores } : State)) hyield.1 :)
        _ = { s.retire with sheaves := s.sheaves, cores := s.cores } := (congrArg (fun u : State => { u with sheaves := s.sheaves }) (hturn s.cores) :)
        _ = s := (congrArg (fun u : State => ({ u with sheaves := s.sheaves, cores := s.cores } : State)) hsame.1 :)

/-! ### `exit` -/

/-- The lanes of an issue exit: they keep their PCs, for a handler too, and no lookahead window stays open. -/
def Sheaf.exitActive (m : Mask) (h : Sheaf) : Sheaf :=
  { h with
    exited := h.exited ||| m
    favoured := h.favoured &&& ~~~m
    yielded := h.yielded &&& ~~~m
    lanes := h.lanes.mapIdx fun l (ln : Lane) => if m.getLsbD l then { ln with held := ln.pc, outer := ln.pc } else ln
    pend := h.pend.map fun p : Pending => { p with windows := [] } }

theorem exitActive_lanesGo (h : Sheaf) : LanesGo i (fun _ ln => { ln with held := ln.pc, outer := ln.pc }) h (h.exitActive i.lanes) := by
  refine ⟨List.length_mapIdx, fun l hl => ?_⟩
  have hbound : (i.lanes.getLsbD l && decide (l < 64)) = i.lanes.getLsbD l := by
    by_cases h64 : l < 64
    · simp [h64]
    · simp [BitVec.getLsbD_of_ge _ _ (Nat.le_of_not_lt h64)]
  unfold Sheaf.lane Sheaf.exitActive
  rw [hbound]
  simp [List.getD_eq_getElem?_getD, hl]

theorem live_eq_zero_iff (m : Mask) : ~~~m = 0 ↔ m = BitVec.allOnes 64 := by
  constructor
  · intro hz
    rw [← BitVec.not_not (b := m), hz]
    rfl
  · rintro rfl
    rfl

theorem exitLanes_eq (hi : s.Issuing i h) :
    s.exitLanes = if h.exited ||| i.lanes = BitVec.allOnes 64 then (s.modMe (Sheaf.exitActive i.lanes)).endIfDone i.sheaf
      else s.modMe (Sheaf.exitActive i.lanes) := by
  have hexit := issuing_modMe hi (Sheaf.exitActive i.lanes) fun _ => rfl
  unfold State.exitLanes
  rw [active_of hi]
  simp only
  split
  next j hj =>
    obtain rfl : i = j := Option.some.inj (hexit.1.symm.trans hj)
    exact if_congr ((congrArg (fun x : Sheaf => x.live = 0) (me_of hexit)).to_iff.trans (live_eq_zero_iff _)) rfl rfl
  next hnone => exact absurd (hexit.1.symm.trans hnone) (Option.some_ne_none _)

/-- Outside a trap handler and with nothing pending, `exit` ends its lanes, and the sheaf once none is left. -/
theorem exec_exit (hi : s.Issuing i h) (htl : h.tl = 0) (hpend : h.pend = []) :
    exec .exit s = .next (if h.exited ||| i.lanes = BitVec.allOnes 64 then (s.modMe (Sheaf.exitActive i.lanes)).endIfDone i.sheaf
      else s.modMe (Sheaf.exitActive i.lanes)) := by
  show execExit s = _
  unfold execExit
  rw [me_of hi, drain?_of_nothing hi hpend, if_neg (by simp [htl]), ← exitLanes_eq hi]

/-- A sheaf that ends stands as ended, every lane exited. -/
theorem endSheaf_sheaf (s : State) (k : Nat) (hk : s.sheaf? k = some h) (hall : h.exited = BitVec.allOnes 64) :
    ∃ h', (s.endSheaf k).sheaf? k = some h' ∧ h'.place = .ended ∧ h'.exited = BitVec.allOnes 64 := by
  unfold State.endSheaf
  rw [hk]
  by_cases hended : h.place = .ended
  · exact ⟨h, by simp only [hended, if_true]; exact hk, hended, hall⟩
  · refine ⟨{ h with place := .ended, slice := [], waits := [], pend := [], exited := BitVec.allOnes 64 }, ?_, rfl, rfl⟩
    simp only [hended, if_false]
    rw [State.sheaf?, State.modLaunch_sheaves, foldl_keep (fun (s : State) n => s.modTeam n fun x => x.settle h.number) State.sheaves fun _ _ => rfl, State.modRes_sheaves]
    have hmod := sheaf?_modSheaf s k k
      (fun h => { h with place := .ended, slice := [], waits := [], pend := [], exited := BitVec.allOnes 64 }) fun _ => rfl
    rw [if_pos rfl, hk] at hmod
    exact hmod

theorem endIfDone_ends (s : State) (k : Nat) (hk : s.sheaf? k = some h) (hall : h.exited = BitVec.allOnes 64) (hch : h.children = [])
    (hjobs : s.jobsOf k = []) (hin : h.inlineChild = false) :
    ∃ h', (s.endIfDone k).sheaf? k = some h' ∧ h'.place = .ended ∧ h'.exited = BitVec.allOnes 64 := by
  have hlive : h.live = 0 := by unfold Sheaf.live; rw [hall]; rfl
  unfold State.endIfDone
  rw [hk]
  simp only [hlive, hch, hjobs, hin, List.isEmpty_nil, and_self, if_true]
  exact endSheaf_sheaf s k hk hall

/-- Settles O19: `nop` only retires, `yield` marks its lanes as its turn passes, and `exit` ends its lanes, the sheaf with the last of them. -/
theorem nopYieldExit : Obligations.NopYieldExit := by
  unfold Obligations.NopYieldExit
  refine fun s i h hi => ⟨?nop, ?yield, fun htl => ?handler, fun htl hpend hsome => ?some, fun htl hpend hall hch hjobs hin => ?last⟩
  case nop =>
    obtain ⟨h', hdone⟩ := retire_onlyLanes hi
    exact ⟨_, h', rfl, hdone⟩
  case yield =>
    obtain ⟨t, g, hexec, hsheaf, hmoved, honly, hothers, hrest⟩ := exec_yield_spec hi
    have hy : g.yielded = h.yielded := (congrArg Sheaf.yielded honly :)
    have hf : g.favoured = h.favoured := (congrArg Sheaf.favoured honly :)
    have ho : g.favouredOld = h.favouredOld := (congrArg Sheaf.favouredOld honly :)
    have hframe := congrArg (fun a : Sheaf => ({ a with yielded := h.yielded, favoured := h.favoured, favouredOld := h.favouredOld } : Sheaf)) honly
    cases hp : h.prog
    · rw [hp] at hsheaf
      exact ⟨t, g, hexec, hsheaf, hmoved, hy, hf, ho, hframe, hothers, hrest⟩
    · rw [hp] at hsheaf
      exact ⟨t, g.yieldLanes i.lanes, hexec, hsheaf, hmoved, congrArg (· ||| i.lanes) hy, congrArg (· &&& ~~~i.lanes) hf,
        congrArg (Option.map fun m => m &&& ~~~i.lanes) ho, hframe, hothers, hrest⟩
  case handler =>
    show execExit s = _
    unfold execExit
    rw [me_of hi, if_pos htl]
  case some =>
    refine ⟨_, h.exitActive i.lanes, by rw [exec_exit hi htl hpend, if_neg hsome],
      (issuing_modMe hi (Sheaf.exitActive i.lanes) fun _ => rfl).2, sameBut_modMe hi _ fun _ => rfl, rfl, exitActive_lanesGo h, ?_⟩
    unfold Sheaf.exitActive
    rw [hpend, List.map_nil, ← hpend]
  case last =>
    have hexit := issuing_modMe hi (Sheaf.exitActive i.lanes) fun _ => rfl
    have hjobs' : (s.modMe (Sheaf.exitActive i.lanes)).jobsOf i.sheaf = [] := by rw [modMe_of hi]; exact hjobs
    obtain ⟨h', hend⟩ := endIfDone_ends _ i.sheaf hexit.2 hall hch hjobs' hin
    exact ⟨_, h', by rw [exec_exit hi htl hpend, if_pos hall], hend⟩

end Sys2Proof.Machine
end

section
/-! SUPPORT. Shuffles and votes: once the participants are there and no source is pending, the issue of all arrived lanes writes and retires; until
then the arrivals are noted (R300 to R302/14). Settles O15. -/

namespace Sys2Proof.Machine

variable {s u : State} {i : Issue} {h g : Sheaf} {m : Nat} {srcs : List Nat}

/-! ### Lanes that have arrived -/

theorem getLsbD_foldl_waits (ws : List Wait) (k : Mask) (l : Nat) :
    (ws.foldl (fun k w => k ||| w.lanes) k).getLsbD l = (k.getLsbD l || ws.any fun w => w.lanes.getLsbD l) := by
  induction ws generalizing k with
  | nil => simp
  | cons w ws ih => rw [List.foldl_cons, ih, BitVec.getLsbD_or, List.any_cons, Bool.or_assoc]

theorem getLsbD_waitMask (ws : List Wait) (l : Nat) : (waitMask ws).getLsbD l = ws.any fun w => w.lanes.getLsbD l := by
  simp [waitMask, getLsbD_foldl_waits]

/-- Every arrival at a collective is one at the issue's instruction. -/
theorem arrivals_pc (hi : s.Issuing i h) (m : Nat) : ∀ w ∈ s.arrivals i m, w.pc = i.pc := by
  have hhere : ∀ w ∈ h.collectivesAt i.pc, w.pc = i.pc := by
    intro w hw
    have := (List.mem_filter.mp hw).2
    simp only [Bool.and_eq_true, beq_iff_eq] at this
    exact this.1
  unfold State.arrivals
  rw [me_of hi]
  intro w hw
  simp only at hw
  split at hw
  · exact hhere w hw
  · rcases List.mem_append.mp hw with hw | hw
    · exact hhere w hw
    · rw [List.mem_singleton.mp hw]
      cases hc : h.collectivesAt i.pc with
      | nil => rfl
      | cons x xs => exact hhere x (hc ▸ List.mem_cons_self)

/-- The lanes of the issue that come to its instruction with it. -/
def Sheaf.newAt (h : Sheaf) (i : Issue) : Mask := i.lanes &&& ~~~waitMask (h.collectivesAt i.pc)

/-- No handler has been entered since an arrival, or has changed the PC of a lane that waits. -/
def State.Undisturbed (s : State) (i : Issue) (h : Sheaf) (m : Nat) : Prop :=
  (∀ w ∈ s.arrivals i m, w.lanes &&& ~~~h.newAt i = 0 ∨ h.tl ≤ w.tl) ∧
    ∀ l, l < 64 → (waitMask (s.arrivals i m) &&& ~~~h.newAt i).getLsbD l → (h.lane l).pc = i.pc

/-- Waiting lanes that stand at the instruction, in no handler entered since, retire with the issue. -/
theorem retireWaited_eq_retire (hu : u.Issuing i g) {ws : List Wait}
    (hws : ∀ w ∈ ws, w.lanes = 0 ∨ g.tl ≤ w.tl ∧ ∀ l ∈ lanesOf w.lanes, (g.lane l).pc = w.pc) : u.retireWaited ws = u.retire := by
  unfold State.retireWaited
  rw [me_of hu]
  refine if_pos ?_
  rw [List.all_eq_true]
  intro w hw
  obtain ⟨hmem, hne⟩ := List.mem_filter.mp hw
  rcases hws w hmem with hz | ⟨htl, hpc⟩
  · simp [hz] at hne
  · rw [Bool.and_eq_true, List.all_eq_true]
    exact ⟨decide_eq_true htl, fun l hl => beq_iff_eq.mpr (hpc l hl)⟩

/-! ### Completion -/

/-- The issue of every lane that has arrived. -/
def State.joinedIssue (s : State) (i : Issue) (m : Nat) : Issue := { i with lanes := waitMask (s.arrivals i m) }

/-- The sheaf without the waits of its collective. -/
def Sheaf.withoutCollective (h : Sheaf) (i : Issue) : Sheaf :=
  { h with waits := h.waits.filter fun x => !((h.collectivesAt i.pc).contains x) }

/-- The state in which all arrived lanes issue together. -/
def State.joined (s : State) (i : Issue) (h : Sheaf) (m : Nat) : State :=
  { s.modSheaf i.sheaf fun g => { g with waits := (h.withoutCollective i).waits } with cur := some (s.joinedIssue i m) }

theorem joined_issuing (hi : s.Issuing i h) (m : Nat) : (s.joined i h m).Issuing (s.joinedIssue i m) (h.withoutCollective i) :=
  collect_issuing hi _ _

/-- What completes for the lanes together has completed for the state in which they arrived. -/
theorem completed_of_joined {t : State} {h' : Sheaf} (hdone : Completed (s.joinedIssue i m) (s.joined i h m) t (h.withoutCollective i) h') :
    Completed (s.joinedIssue i m) { s with cur := some (s.joinedIssue i m) } t h h' := by
  obtain ⟨hsheaf, hsame, hmoved, hskip⟩ := hdone
  have hjoined : SameBut i.sheaf { s with cur := some (s.joinedIssue i m) } (s.joined i h m) :=
    sameBut_modSheaf { s with cur := some (s.joinedIssue i m) } i.sheaf (fun g => { g with waits := (h.withoutCollective i).waits }) fun _ => rfl
  exact ⟨hsheaf, sameBut_trans hjoined hsame, hmoved, hskip⟩

/-- A collective whose lanes are all undisturbed writes, and then retires the issue of all of them. -/
theorem collect_retire (hi : s.Issuing i h) (hthere : s.Undisturbed i h m) (act : Mask → (Nat → Nat) → State → State)
    (hleft : h.collectiveLeft (s.arrivals i m) = 0) (hsource : h.sourcePending (s.arrivals i m) srcs = none)
    (hu : (act (collectiveMembers (s.arrivals i m)) (baseOf (s.arrivals i m)) (s.joined i h m)).Issuing (s.joinedIssue i m) g)
    (htl : g.tl = h.tl) (hlanes : g.lanes = h.lanes) :
    s.collect m srcs act = (act (collectiveMembers (s.arrivals i m)) (baseOf (s.arrivals i m)) (s.joined i h m)).retire := by
  rw [collect_done hi m srcs act hleft hsource]
  refine retireWaited_eq_retire hu fun w hw => ?_
  obtain ⟨x, hx, rfl⟩ := List.mem_map.mp hw
  refine (hthere.1 x hx).imp_right fun h' => ⟨by rw [htl]; exact h', fun l hl => ?_⟩
  obtain ⟨h64, hbit⟩ := (mem_lanesOf _ _).mp hl
  rw [BitVec.getLsbD_and, Bool.and_eq_true] at hbit
  have hwait : (waitMask (s.arrivals i m) &&& ~~~h.newAt i).getLsbD l = true := by
    rw [BitVec.getLsbD_and, getLsbD_waitMask, Bool.and_eq_true]
    exact ⟨List.any_eq_true.mpr ⟨x, hx, hbit.1⟩, hbit.2⟩
  have hpc := hthere.2 l h64 hwait
  unfold Sheaf.lane at hpc ⊢
  rw [hlanes]
  exact hpc.trans (arrivals_pc hi m x hx).symm

/-! ### What the lanes write -/

/-- A register of the active lanes, each through its own window base. -/
def Sheaf.writeAt (m : Mask) (base : Nat → Nat) (d : Nat) (f : Nat → Word) (h : Sheaf) : Sheaf :=
  (lanesOf m).foldl (fun h l => h.setVirt l (base l + d) (f l)) h

theorem writeAt_frame (k : Mask) (base : Nat → Nat) (d : Nat) (f : Nat → Word) (h : Sheaf) (V : Cells Word) :
    ({ h.writeAt k base d f with v := V } : Sheaf) = { h with v := V } := by
  unfold Sheaf.writeAt
  exact foldl_keep (fun h l => h.setVirt l (base l + d) (f l)) (fun h : Sheaf => ({ h with v := V } : Sheaf)) (fun _ _ => rfl) _ h

theorem virt_writeAt (k : Mask) (base : Nat → Nat) (d : Nat) (f : Nat → Word) (h : Sheaf) (l r : Nat) (hl : l < 64) :
    (h.writeAt k base d f).virt l r = if k.getLsbD l ∧ r = base l + d then f l else h.virt l r := by
  have hstep : ∀ (h' : Sheaf) x, h'.wb = h.wb → x < 64 → ∀ l r, l < 64 →
      (h'.setVirt x (base x + d) (f x)).virt l r = if l = x then (if r = base l + d then f l else h'.virt l r) else h'.virt l r := by
    intro h' x _ hx l r hl
    rw [virt_setVirt _ _ _ _ _ _ hx hl]
    by_cases hlx : l = x
    · subst hlx; simp
    · simp [hlx]
  rw [Sheaf.writeAt, virt_foldl (fun h l => h.setVirt l (base l + d) (f l)) (fun l r x => if r = base l + d then f l else x) h.wb
    (fun _ _ => rfl) hstep _ (fun x hx => ((mem_lanesOf _ _).mp hx).1) (nodup_lanesOf _) h rfl l r hl]
  simp only [mem_lanesOf, hl, true_and, ite_and]

theorem vwriteAt_eq (hu : u.Issuing i g) (base : Nat → Nat) (d : Nat) (f : Nat → Word) :
    u.vwriteAt base d f = u.modMe (Sheaf.writeAt i.lanes base d f) := by
  unfold State.vwriteAt
  rw [active_of hu]
  rfl

theorem vwriteAt_issuing (hu : u.Issuing i g) (base : Nat → Nat) (d : Nat) (f : Nat → Word) :
    (u.vwriteAt base d f).Issuing i (g.writeAt i.lanes base d f) := by
  rw [vwriteAt_eq hu]
  exact issuing_modMe hu _ fun x => (congrArg Sheaf.id (writeAt_frame _ base d f x x.v) :)

theorem vwriteAt_spec (hu : u.Issuing i g) (base : Nat → Nat) (d : Nat) (f : Nat → Word) :
    ∃ h', Completed i u (u.vwriteAt base d f).retire g h' ∧
      (∀ l r, l < 64 → h'.virt l r = if i.lanes.getLsbD l ∧ r = base l + d then f l else g.virt l r) ∧
      ({ h' with v := g.v, lanes := g.lanes, watchSkip := g.watchSkip } : Sheaf) = g := by
  have hframe := writeAt_frame i.lanes base d f g g.v
  obtain ⟨h', hdone, hafter⟩ := modMe_retire hu (Sheaf.writeAt i.lanes base d f) (fun x => (congrArg Sheaf.id (writeAt_frame _ base d f x x.v) :))
    (congrArg Sheaf.lanes hframe :) (congrArg Sheaf.watchSkip hframe :)
  refine ⟨h', (vwriteAt_eq hu base d f) ▸ hdone, fun l r hl => ?_,
    (congrArg (fun x : Sheaf => ({ x with v := g.v } : Sheaf)) hafter).trans hframe⟩
  have hv : h'.virt l r = (g.writeAt i.lanes base d f).virt l r := (congrArg (fun x : Sheaf => x.virt l r) hafter :)
  rw [hv, virt_writeAt _ _ _ _ _ _ _ hl]

/-- A shuffle writes what each reader reads, through the window of its arrival. -/
theorem shuffle_completed (hi : s.Issuing i h) (hthere : s.Undisturbed i h m) (d a : Nat) (j : State → (Nat → Nat) → Nat → Option Nat)
    (hleft : h.collectiveLeft (s.arrivals i m) = 0) (hsource : h.sourcePending (s.arrivals i m) srcs = none) :
    ∃ h', Completed (s.joinedIssue i m) { s with cur := some (s.joinedIssue i m) } (s.shuffle m d a srcs j) h h' ∧
      (∀ l r, l < 64 → h'.virt l r = if (s.joinedIssue i m).lanes.getLsbD l ∧ r = baseOf (s.arrivals i m) l + d then
        h.shflRead (collectiveMembers (s.arrivals i m)) (baseOf (s.arrivals i m)) d a l
          (j (s.joined i h m) (baseOf (s.arrivals i m)) l) else h.virt l r) ∧
      ({ h' with v := h.v, lanes := h.lanes, watchSkip := h.watchSkip } : Sheaf) = h.withoutCollective i := by
  have hjoined := joined_issuing hi m
  obtain ⟨h', hdone, hvirt, hrest⟩ := vwriteAt_spec hjoined (baseOf (s.arrivals i m)) d fun l => (s.joined i h m).me.shflRead
    (collectiveMembers (s.arrivals i m)) (baseOf (s.arrivals i m)) d a l (j (s.joined i h m) (baseOf (s.arrivals i m)) l)
  have hframe := writeAt_frame (s.joinedIssue i m).lanes (baseOf (s.arrivals i m)) d (fun l => (s.joined i h m).me.shflRead
    (collectiveMembers (s.arrivals i m)) (baseOf (s.arrivals i m)) d a l (j (s.joined i h m) (baseOf (s.arrivals i m)) l))
    (h.withoutCollective i) h.v
  have hcollect := collect_retire hi hthere (fun mem base t => t.vwriteAt base d fun l => t.me.shflRead mem base d a l (j t base l))
    hleft hsource (vwriteAt_issuing hjoined _ d _) (congrArg Sheaf.tl hframe :) (congrArg Sheaf.lanes hframe :)
  rw [me_of hjoined] at hvirt
  exact ⟨h', by rw [State.shuffle, hcollect]; exact completed_of_joined hdone, hvirt, hrest⟩

theorem pwrite_issuing (hu : u.Issuing i g) (d : Nat) (f : Nat → Bool) :
    (u.pwrite d f).Issuing i ((lanesOf i.lanes).foldl (fun h l => h.psetBit d l (f l)) g) := by
  unfold State.pwrite
  rw [active_of hu]
  exact issuing_modMe hu (fun h => (lanesOf i.lanes).foldl (fun h l => h.psetBit d l (f l)) h)
    fun x => (congrArg Sheaf.id (foldl_psetBit_frame d f (lanesOf i.lanes) x x.p) :)

/-- A vote writes one value in every lane that has arrived. -/
theorem vote_completed (hi : s.Issuing i h) (hthere : s.Undisturbed i h m) (d a : Nat) (f : List Word → Bool)
    (hleft : h.collectiveLeft (s.arrivals i m) = 0) (hsource : h.sourcePending (s.arrivals i m) [a] = none) :
    ∃ h', Completed (s.joinedIssue i m) { s with cur := some (s.joinedIssue i m) } (s.vote m d a f) h h' ∧
      WritesPred (s.joinedIssue i m) d
        (fun _ => f (h.voteVals (collectiveMembers (s.arrivals i m)) (baseOf (s.arrivals i m)) a)) {} (h.withoutCollective i) h' := by
  have hjoined := joined_issuing hi m
  obtain ⟨h', hdone, hwrites⟩ := pwrite_spec hjoined d fun _ =>
    f ((s.joined i h m).me.voteVals (collectiveMembers (s.arrivals i m)) (baseOf (s.arrivals i m)) a)
  have hframe := foldl_psetBit_frame d (fun _ => f ((s.joined i h m).me.voteVals (collectiveMembers (s.arrivals i m)) (baseOf (s.arrivals i m)) a))
    (lanesOf (s.joinedIssue i m).lanes) (h.withoutCollective i) h.p
  have hcollect := collect_retire hi hthere (fun mem base t => t.pwrite d fun _ => f (t.me.voteVals mem base a)) hleft hsource
    (pwrite_issuing hjoined d _) (congrArg Sheaf.tl hframe :) (congrArg Sheaf.lanes hframe :)
  rw [me_of hjoined] at hwrites
  exact ⟨h', by rw [State.vote, hcollect]; exact completed_of_joined hdone, hwrites⟩

/-- A collective that writes one scalar. -/
theorem scalarCollective_completed (hi : s.Issuing i h) (hthere : s.Undisturbed i h m) (d : Nat)
    (x : Mask → (Nat → Nat) → Sheaf → Dword)
    (hleft : h.collectiveLeft (s.arrivals i m) = 0) (hsource : h.sourcePending (s.arrivals i m) srcs = none) :
    ∃ h', Completed (s.joinedIssue i m) { s with cur := some (s.joinedIssue i m) } (s.collect m srcs fun mem base t => t.swrite d (x mem base t.me))
        h h' ∧
      WritesScalar d (x (collectiveMembers (s.arrivals i m)) (baseOf (s.arrivals i m)) (h.withoutCollective i)) (h.withoutCollective i) h' := by
  have hjoined := joined_issuing hi m
  obtain ⟨h', hdone, hwrites⟩ := scalarOp_spec hjoined d
    (x (collectiveMembers (s.arrivals i m)) (baseOf (s.arrivals i m)) (s.joined i h m).me)
  have hcollect := collect_retire hi hthere (fun mem base t => t.swrite d (x mem base t.me)) hleft hsource
    (issuing_modMe hjoined (fun h => h.sset d _) fun _ => rfl) rfl rfl
  rw [me_of hjoined] at hwrites
  exact ⟨h', by rw [hcollect]; exact completed_of_joined hdone, hwrites⟩

/-! ### The instructions -/

theorem allEq_eq (xs : List Word) : allEq xs = xs.all fun x => x == xs.headD 0 := by
  cases xs with
  | nil => rfl
  | cons x xs => simp [allEq]

/-- A source that is pending: the lanes wait for it, or its fault is taken, or is waited for (R235/11, R259/12). -/
theorem collect_source (hi : s.Issuing i h) (act : Mask → (Nat → Nat) → State → State) (hleft : h.collectiveLeft (s.arrivals i m) = 0)
    {q : Pending} (hsource : h.sourcePending (s.arrivals i m) srcs = some q) : s.collect m srcs act = s.sourceWait i (s.arrivals i m) q := by
  unfold State.collect
  simp only [hi.1, me_of hi, if_pos hleft, hsource]

/-- What a reader takes from lane j: the participant's source, or its own destination's prior value. -/
theorem shflRead_lane (mem : Mask) (base : Nat → Nat) (d a l j : Nat) :
    h.shflRead mem base d a l (some j) =
      if j < 64 ∧ mem.getLsbD j ∧ ¬ h.exited.getLsbD j then h.virt j (base j + a) else h.virt l (base l + d) := by
  have hlive : (mem &&& h.live).getLsbD j = true ↔ j < 64 ∧ mem.getLsbD j = true ∧ ¬ h.exited.getLsbD j = true := by
    simp [Sheaf.live, and_left_comm]
  simp only [Sheaf.shflRead, hlive]

theorem readS_joined (hi : s.Issuing i h) (m l n : Nat) : (s.joined i h m).readS (s.joined i h m).me l n = s.readS h l n := by
  rw [me_of (joined_issuing hi m)]
  rfl

/-- Every shuffle and vote is a collective. -/
theorem exec_collective (s : State) (d a b m : Nat) :
    ∀ p ∈ ([(.shflIdx d a b m, [a, b]), (.shflUp d a b m, [a]), (.shflDown d a b m, [a]), (.shflXor d a b m, [a]), (.voteAny d a m, [a]),
      (.voteAll d a m, [a]), (.voteEq d a m, [a]), (.voteBallot d a m, [a])] : List (Instr × List Nat)),
      ∃ act, exec p.1 s = .next (s.collect m p.2 act) := by
  intro p hp
  fin_cases hp <;> exact ⟨_, rfl⟩

/-- Settles O15: undisturbed lanes whose sources are there issue together; until then only arrivals change, or a source's fault is answered. -/
theorem collectives : Obligations.Collectives := by
  unfold Obligations.Collectives
  refine fun s i h d a b m hi => ⟨fun hthere p hp hdone => ?shuffles, fun hthere p hp hdone => ?votes, fun hthere hdone => ?ballot,
    fun p hp => ⟨fun hleft => ?waits, fun q hleft hsource => ⟨fun hdata => ?data, fun hfault hhard => ?fault, fun hfault hmappable => ?mappable⟩⟩⟩
  case shuffles =>
    have hexec : ∃ j, exec p.1 s = .next (s.shuffle m d a p.2.1 j) ∧ ∀ l, h.shflRead (collectiveMembers (s.arrivals i m))
        (baseOf (s.arrivals i m)) d a l (j (s.joined i h m) (baseOf (s.arrivals i m)) l) = p.2.2 l := by
      fin_cases hp
      · exact ⟨_, rfl, fun l => by rw [shflRead_lane, me_of (joined_issuing hi m)]; rfl⟩
      · refine ⟨_, rfl, fun l => ?_⟩
        simp only [readS_joined hi]
        split
        · exact shflRead_lane _ _ _ _ _ _
        · rfl
      · refine ⟨_, rfl, fun l => ?_⟩
        simp only [readS_joined hi]
        split
        · exact shflRead_lane _ _ _ _ _ _
        · rfl
      · exact ⟨_, rfl, fun l => by rw [readS_joined hi]; exact shflRead_lane _ _ _ _ _ _⟩
    obtain ⟨j, hnext, hread⟩ := hexec
    obtain ⟨h', hcompleted, hvirt, hrest⟩ := shuffle_completed hi hthere d a j hdone.1 hdone.2
    exact ⟨_, h', hnext, hcompleted, fun l r hl => by rw [hvirt l r hl, hread l]; rfl, hrest⟩
  case votes =>
    have hexec : ∃ f, exec p.1 s = .next (s.vote m d a f) ∧
        f (h.voteVals (collectiveMembers (s.arrivals i m)) (baseOf (s.arrivals i m)) a) = p.2 := by
      fin_cases hp
      · exact ⟨_, rfl, rfl⟩
      · exact ⟨_, rfl, rfl⟩
      · exact ⟨_, rfl, allEq_eq _⟩
    obtain ⟨f, hnext, hvalue⟩ := hexec
    obtain ⟨h', hcompleted, hwrites⟩ := vote_completed hi hthere d a f hdone.1 hdone.2
    rw [hvalue] at hwrites
    exact ⟨_, h', hnext, hcompleted, hwrites⟩
  case ballot =>
    obtain ⟨h', hcompleted, hwrites⟩ := scalarCollective_completed hi hthere d
      (fun mem base h => maskOf ((lanesOf mem).filter fun j => !(h.voteVal base a j == 0))) hdone.1 hdone.2
    refine ⟨_, h', rfl, hcompleted, ?_⟩
    have hvote : ∀ base j, (!((h.withoutCollective i).voteVal base a j == 0)) = (!h.exited.getLsbD j && !(h.virt j (base j + a) == 0)) := by
      intro base j
      unfold Sheaf.voteVal
      show (!((if h.exited.getLsbD j then 0 else h.virt j (base j + a)) == 0)) = _
      cases h.exited.getLsbD j <;> simp
    simp only [hvote] at hwrites
    exact hwrites
  case waits =>
    obtain ⟨act, hexec⟩ := exec_collective s d a b m p hp
    rw [hexec, collect_wait hi m p.2 act hleft]
  case data =>
    obtain ⟨act, hexec⟩ := exec_collective s d a b m p hp
    rw [hexec, collect_source hi act hleft hsource, State.sourceWait, hdata, if_neg Bool.false_ne_true, modMe_of hi]
  case fault =>
    obtain ⟨act, hexec⟩ := exec_collective s d a b m p hp
    have hany : (q.faults.any fun f => !f.mappable) = true := by simpa using hhard
    rw [hexec, collect_source hi act hleft hsource, State.sourceWait, hfault, hany, if_pos rfl, if_pos rfl, modMe_of hi]
  case mappable =>
    obtain ⟨act, hexec⟩ := exec_collective s d a b m p hp
    have hany : (q.faults.any fun f => !f.mappable) = false := by simpa using hmappable
    have hheld := issuing_modMe hi (fun x => { x with waits := (x.waits.filter fun w => !((s.arrivals i m).contains w)) ++ s.arrivals i m }) fun _ => rfl
    rw [hexec, collect_source hi act hleft hsource, State.sourceWait, hfault, hany]
    simp only [if_true, Bool.false_eq_true, if_false]
    rw [modMe_of hheld, modMe_of hi]
    exact congrArg Host.Outcome.next (modSheaf_modSheaf s i.sheaf _ _ fun _ => rfl)

end Sys2Proof.Machine
end

section
/-! SUPPORT. Joins, waits at barriers and gates, expectations and releases: an acquire clears the core's L1 and the issue retires (R130/05, R177/08,
R325 to R329, R334/16). Settles O36 and O39. -/

namespace Sys2Proof.Machine

variable {s u : State} {i : Issue} {h g : Sheaf}

/-! ### A change of the machine outside the sheaf, and then the issue retired -/

/-- An acquire clears a core's L1; the issue, whose sheaf has become `g`, retires. -/
theorem l1Clear_retire (hu : u.Issuing i g) (hsame : SameBut i.sheaf s u) (hl : g.lanes = h.lanes) (hw : g.watchSkip = h.watchSkip) (c : Nat) :
    ∃ h', Completed i { s with cores := (u.l1Clear c).retire.cores } (u.l1Clear c).retire h h' ∧
      ({ h' with lanes := h.lanes, watchSkip := h.watchSkip } : Sheaf) = g ∧ ((u.l1Clear c).retire.core c).noGlLines ∧
      ∀ n, n ≠ c → (u.l1Clear c).retire.core n = s.core n := by
  have hclear : (u.l1Clear c).Issuing i g := issuing_of_eq hu rfl rfl
  obtain ⟨h', hdone, hafter⟩ := retire_completed hclear (sameBut_setCores hsame (u.l1Clear c).cores) hl hw
  have hcores : (u.l1Clear c).retire.cores = (u.l1Clear c).cores :=
    (congrArg State.cores hdone.2.1.1 :)
  have hcore : ∀ n, (u.l1Clear c).retire.core n = (u.l1Clear c).core n := fun n => by unfold State.core; rw [hcores]
  refine ⟨h', by rw [hcores]; exact hdone, hafter, by rw [hcore]; exact l1Clear_noGlLines u c, fun n hn => ?_⟩
  rw [hcore, State.l1Clear, core_modCore, if_neg hn]
  unfold State.core
  rw [sameBut_cores hsame]

/-- The lanes that pass an acquire leave no other trace in their sheaf. -/
theorem l1Clear_retire_onlyLanes (hi : s.Issuing i h) (c : Nat) :
    ∃ h', Completed i { s with cores := (s.l1Clear c).retire.cores } (s.l1Clear c).retire h h' ∧ OnlyLanes h h' ∧
      ((s.l1Clear c).retire.core c).noGlLines := by
  obtain ⟨h', hdone, honly, hclear, -⟩ := l1Clear_retire hi (sameBut_refl _ _) rfl rfl c
  exact ⟨h', hdone, honly, hclear⟩

theorem sameBut_teams {k : Nat} (hs : SameBut k s u) : u.teams = s.teams := (congrArg State.teams hs.1 :)

theorem sameBut_launches {k : Nat} (hs : SameBut k s u) : u.launches = s.launches := (congrArg State.launches hs.1 :)

/-! ### `join` (R334/16) -/

theorem exec_join (hi : s.Issuing i h) (hp : h.pend = []) (d a : Nat) {x : Dword} (hx : x = s.readS h (lowestLane i.lanes) a) :
    exec (.join d a) s =
      if h.tl ≠ 0 then .next (s.trapAll .illop 0 0)
      else if x.extractLsb' 16 2 = 2 then .next ((s.swrite d 1).l1Clear h.core).retire
      else match h.childOfHandle x with
        | none => .next (s.trapAll .space 0 0)
        | some c => .next (s.waitMe (.join c.rev none d)) := by
  show execJoin d a s = _
  unfold execJoin
  rw [drain?_of_nothing hi hp, src_of hi, me_of hi, ← hx] <;> rfl

theorem childOfHandle_none {x : Dword} (hx : ∀ c ∈ h.children, ¬ (c.rev = x.toNat % 65536 ∧ c.seq = x.extractLsb' 32 16)) :
    h.childOfHandle x = none := by
  refine List.find?_eq_none.mpr fun c hc => ?_
  simpa using hx c hc

theorem childOfHandle_some {x : Dword} (hx : ∃ c ∈ h.children, c.rev = x.toNat % 65536 ∧ c.seq = x.extractLsb' 32 16) :
    ∃ c, h.childOfHandle x = some c ∧ c.rev = x.toNat % 65536 := by
  obtain ⟨c, hc⟩ := Option.isSome_iff_exists.mp ((List.find?_isSome
    (p := fun c : Child => c.rev == x.toNat % 65536 && c.seq == x.extractLsb' 32 16)).mpr (by simpa using hx))
  have hfound := List.find?_some hc
  simp only [Bool.and_eq_true, beq_iff_eq] at hfound
  exact ⟨c, hc, hfound.1⟩

/-- Settles O39: by what `join` asks in turn, the trap level, the refusal and the child. -/
theorem joins : Obligations.Joins := by
  unfold Obligations.Joins
  refine fun s i h d a hi hp => ⟨fun htl => ?handler, fun htl href => ?refused, fun htl href hnone => ?unknown, fun htl href hsome => ?child⟩
  case handler => rw [exec_join hi hp d a rfl, if_pos htl]
  case refused =>
    have hset := issuing_modMe hi (fun h => h.sset d 1) fun _ => rfl
    have hsame := sameBut_modMe hi (fun h => h.sset d 1) fun _ => rfl
    obtain ⟨h', hdone, hafter, hclear, hothers⟩ := l1Clear_retire hset hsame (h := h) rfl rfl h.core
    exact ⟨_, h', by rw [exec_join hi hp d a rfl, if_neg (not_not.mpr htl), if_pos href]; rfl, hdone, writesScalar_of hafter, hclear, hothers⟩
  case unknown =>
    rw [exec_join hi hp d a rfl, if_neg (not_not.mpr htl), if_neg href, childOfHandle_none hnone]
  case child =>
    obtain ⟨c, hc, hrev⟩ := childOfHandle_some hsome
    rw [exec_join hi hp d a rfl, if_neg (not_not.mpr htl), if_neg href, hc]
    simp only [hrev, waitMe_modSheaf hi]

/-! ### `bar.wait` (R327/16) -/

theorem exec_barWait (hi : s.Issuing i h) (d a : Nat) {x : Dword} (hx : x = s.readS h (lowestLane i.lanes) a) :
    exec (.barWait d a) s =
      if h.tl ≠ 0 then .next (s.trapAll .illop 0 0)
      else match s.teamIn h d with
        | none => .next (s.trapAll .space 0 0)
        | some tm =>
          if tm.ended then .next (s.trapAll .space 0 0)
          else if tm.completed (x.setWidth 32) then .next (s.acquireTeam h.core tm).retire
          else .next (s.waitMe (.generation tm.id (x.setWidth 32))) := by
  show execBarWait d a s = _
  unfold execBarWait
  rw [src_of hi, me_of hi, ← hx] <;> rfl

theorem completed_iff (tm : Team) (g : BitVec 32) : tm.completed g = true ↔ 1 ≤ (tm.gen - g).toNat ∧ (tm.gen - g).toNat < 2 ^ 31 := by
  simp [Team.completed]

/-- An acquire at a team's scope, and then the issue retired. -/
theorem acquireTeam_retire (hi : s.Issuing i h) (tm : Team) :
    ∃ h', Completed i { s with cores := (s.acquireTeam h.core tm).retire.cores } (s.acquireTeam h.core tm).retire h h' ∧ OnlyLanes h h' ∧
      (1 ≤ tm.scope ∨ 3 ≤ tm.doneReach → ((s.acquireTeam h.core tm).retire.core h.core).noGlLines) := by
  unfold State.acquireTeam
  by_cases hwide : 1 ≤ tm.scope ∨ 3 ≤ tm.doneReach
  · obtain ⟨h', hdone, honly, hclear⟩ := l1Clear_retire_onlyLanes hi h.core
    rw [if_pos hwide]
    exact ⟨h', hdone, honly, fun _ => hclear⟩
  · obtain ⟨h', hdone, honly⟩ := retire_onlyLanes hi
    rw [if_neg hwide]
    exact ⟨h', by rw [sameBut_cores hdone.2.1]; exact hdone, honly, fun hw => absurd hw hwide⟩

/-! ### `bexp` (R177/08, R326/16) -/

theorem exec_bexp (hi : s.Issuing i h) (d a : Nat) {x : Dword} (hx : x = s.readS h (lowestLane i.lanes) a) :
    exec (.bexp d a) s = match s.teamIn h d with
      | none => .next (s.trapAll .space 0 0)
      | some tm =>
        if tm.ended ∨ x.toNat = 0 ∨ 2 ^ 31 ≤ x.toNat ∨ (2 ^ 31 : Nat) ≤ s.pendNow tm + x.toNat then .next (s.trapAll .space 0 0)
        else .next (s.modTeam tm.id fun tm => { tm with pend := tm.pend + x.toNat, expected := tm.expected + x.toNat, evt := true }).retire := by
  show execBexp d a s = _
  unfold execBexp
  rw [src_of hi, me_of hi, ← hx] <;> rfl

theorem teamIn_team? {d : Nat} {tm : Team} (ht : s.teamIn h d = some tm) : s.team? tm.id = some tm := by
  unfold State.teamIn at ht
  split at ht
  · rw [team?_id ht]; exact ht
  · cases ht

/-- A change of one team, and then the issue retired. -/
theorem modTeam_retire (hi : s.Issuing i h) {tm : Team} (ht : s.team? tm.id = some tm) (f : Team → Team) (hf : ∀ x, (f x).id = x.id) :
    ∃ h', Completed i { s with teams := (s.modTeam tm.id f).retire.teams } (s.modTeam tm.id f).retire h h' ∧ OnlyLanes h h' ∧
      (s.modTeam tm.id f).retire.team? tm.id = some (f tm) ∧ ∀ k, k ≠ tm.id → (s.modTeam tm.id f).retire.team? k = s.team? k := by
  have hu : (s.modTeam tm.id f).Issuing i h := issuing_of_eq hi rfl rfl
  obtain ⟨h', hdone, honly⟩ := retire_onlyLanes hu
  have hteams := sameBut_teams hdone.2.1
  refine ⟨h', by rw [hteams]; exact hdone, honly, ?_, fun k hk => ?_⟩
  · rw [team?_congr hteams, team?_modTeam s tm.id f fun x hx => (hf x).trans hx, ht, Option.map_some]
  · rw [team?_congr hteams, team?_modTeam_other s f hf hk]

/-! ### `gate` and `release` (R63/02, R329/16) -/

theorem exec_gate (hi : s.Issuing i h) :
    exec .gate s = if ¬ (s.launchOf h).dependent then .next s.retire
      else if (s.launchOf h).gateOpen then .next (s.l1Clear h.core).retire else .next (s.waitMe .gate) := by
  show execGate s = _
  unfold execGate
  rw [me_of hi]

theorem launch?_modLaunch_other (s : State) {k n : Nat} (f : Launch → Launch) (hf : ∀ x, (f x).id = x.id) (hn : n ≠ k) :
    (s.modLaunch k f).launch? n = s.launch? n := by
  have hfound : (s.modLaunch k f).launch? n = (s.launch? n).map fun x => if x.id = k then f x else x :=
    find?_map_keep _ _ (fun x => by by_cases hx : x.id = k <;> simp [hx, hf]) s.launches
  rw [hfound]
  cases hl : s.launch? n with
  | none => rfl
  | some l => rw [Option.map_some, if_neg (by rw [launch?_id hl]; exact hn)]

/-- Settles O36: each of the four by what it asks in turn; what passes retires, after its acquire, its expectation or its count. -/
theorem barrierWaitsAndGates : Obligations.BarrierWaitsAndGates := by
  unfold Obligations.BarrierWaitsAndGates
  refine fun s i h d a hi => ⟨fun htl => ?handler, fun htl hteam => ?noTeam, fun tm ht hended htl => ⟨fun hdone => ?passed, fun hdone => ?waits⟩,
    fun tm ht => ⟨fun hok => ?expects, fun hok => ?refused⟩, fun hnone => ?noExpect,
    ⟨fun hdep => ?free, fun hdep hopen => ?opened, fun hdep hopen => ?gated⟩, fun hw => ?release, fun t hw => ?releaseWaits⟩
  case handler => rw [exec_barWait hi d a rfl, if_pos htl]
  case noTeam =>
    rw [exec_barWait hi d a rfl, if_neg (not_not.mpr htl)]
    rcases hteam with hnone | ⟨tm, hsome, hended⟩
    · rw [hnone]
    · rw [hsome]
      simp only [hended, if_true]
  case passed =>
    obtain ⟨h', hcompleted, honly, hclear⟩ := acquireTeam_retire hi tm
    refine ⟨_, h', ?_, hcompleted, honly, hclear⟩
    rw [exec_barWait hi d a rfl, if_neg (not_not.mpr htl), ht]
    simp only [hended, Bool.false_eq_true, if_false, (completed_iff tm _).mpr hdone, if_true]
  case waits =>
    rw [exec_barWait hi d a rfl, if_neg (not_not.mpr htl), ht]
    simp only [hended, Bool.false_eq_true, if_false, (completed_iff tm _).not.mpr hdone, waitMe_modSheaf hi]
  case expects =>
    obtain ⟨hended, hlow, hhigh, hpend⟩ := hok
    obtain ⟨h', hcompleted, honly, hthis, hothers⟩ := modTeam_retire hi (teamIn_team? ht)
      (fun tm => { tm with pend := tm.pend + (s.readS h (lowestLane i.lanes) a).toNat
                           expected := tm.expected + (s.readS h (lowestLane i.lanes) a).toNat, evt := true }) fun _ => rfl
    refine ⟨_, h', ?_, hcompleted, honly, hthis, hothers⟩
    rw [exec_bexp hi d a rfl, ht]
    refine if_neg ?_
    rintro (he | hzero | hbig | hover)
    · exact absurd (hended.symm.trans he) Bool.false_ne_true
    · omega
    · omega
    · omega
  case refused =>
    rw [exec_bexp hi d a rfl, ht]
    refine if_pos ?_
    by_contra hnot
    simp only [not_or, Bool.not_eq_true] at hnot
    obtain ⟨hended, hlow, hhigh, hpend⟩ := hnot
    exact hok ⟨hended, by omega, by omega, by omega⟩
  case noExpect => rw [exec_bexp hi d a rfl, hnone]
  case free =>
    obtain ⟨h', hcompleted, honly⟩ := retire_onlyLanes hi
    exact ⟨_, h', by rw [exec_gate hi, hdep]; rfl, hcompleted, honly⟩
  case opened =>
    obtain ⟨h', hcompleted, honly, hclear⟩ := l1Clear_retire_onlyLanes hi h.core
    exact ⟨_, h', by rw [exec_gate hi, hdep, hopen]; rfl, hcompleted, honly, hclear⟩
  case gated =>
    rw [exec_gate hi, hdep, hopen, waitMe_modSheaf hi]
    rfl
  case release =>
    have hu : (s.modLaunch h.launch fun l => { l with releases := l.releases + 1 }).Issuing i h := issuing_of_eq hi rfl rfl
    obtain ⟨h', hcompleted, honly⟩ := retire_onlyLanes hu
    have hlaunches := sameBut_launches hcompleted.2.1
    refine ⟨_, h', ?_, by rw [hlaunches]; exact hcompleted, honly, fun l hl => ?_, fun k hk => ?_⟩
    · show execRelease s = _
      unfold execRelease
      rw [hw, me_of hi]
    · rw [launch?_congr hlaunches, launch?_modLaunch s h.launch (fun l => { l with releases := l.releases + 1 }) fun _ hx => hx, hl, Option.map_some]
    · rw [launch?_congr hlaunches, launch?_modLaunch_other s (fun l => { l with releases := l.releases + 1 }) (fun _ => rfl) hk]
  case releaseWaits =>
    show execRelease s = _
    unfold execRelease
    rw [hw]

end Sys2Proof.Machine
end

section
/-! SUPPORT. Posts to the matrix unit: the checks, the wait for earlier accesses, and one command at the FIFO's end, or a wait while it is full
(R144/06, R345, R346, R348/17). Settles O43. -/

namespace Sys2Proof.Machine

variable {s u : State} {i : Issue} {h : Sheaf}

/-- The checks of a post fill in the scratch that the command reads and writes, and nothing else of it. -/
theorem matCheck_command (s : State) (h : Sheaf) (c : MatCmd) : ({ (s.matCheck h c).2 with src := c.src, dst := c.dst } : MatCmd) = c := by
  rcases c with ⟨_, _, _, op⟩
  cases op <;> rfl

theorem matCheck_addrOf (s : State) (h : Sheaf) (c : MatCmd) : (s.matCheck h c).2.addrOf = c.addrOf :=
  (congrArg MatCmd.addrOf (matCheck_command s h c) :)

/-- The command that a post makes of its operands. -/
def State.postedCmd (s : State) (h : Sheaf) (op : MatOp) (q tk a : Nat) : MatCmd :=
  { id := s.nextId, ctx := h.ctx, launch := h.launch, op := op, set := q, token := tk
    s0 := h.sget a, s1 := h.sget (a + 1), s2 := h.sget (a + 2), s3 := h.sget (a + 3)
    satTeams := h.slots.filterMap id, posted := s.now }

theorem matPost_eq (hi : s.Issuing i h) (op : MatOp) (q tk a : Nat) {c : MatCmd} (hc : c = s.postedCmd h op q tk a) :
    s.matPost op q tk a =
      if (s.matCheck h c).1.align then s.trapAll .align 0 c.addrOf
      else if (s.matCheck h c).1.space then s.trapAll .space 0 0
      else match s.orderWait? true true with
        | some t => t
        | none =>
          if (s.core h.core).fifo.length < 64 then
            (({ s with nextId := s.nextId + 1 } : State).modCore h.core fun x => { x with fifo := x.fifo ++ [(s.matCheck h c).2] }).retire
          else ({ s with nextId := s.nextId + 1 } : State).waitMe (.fifo (s.matCheck h c).2) := by
  subst hc
  rw [← matCheck_addrOf s h]
  unfold State.matPost
  rw [me_of hi]
  rfl

/-- One command is added to a core's FIFO, and the issue retires. -/
theorem enqueue_retire (hu : u.Issuing i h) (core : Nat) (c : MatCmd) :
    ∃ t h', t = (u.modCore core fun x => { x with fifo := x.fifo ++ [c] }).retire ∧ Completed i { u with cores := t.cores } t h h' ∧
      OnlyLanes h h' ∧ (t.core core).fifo = (u.core core).fifo ++ [c] ∧
      ({ t.core core with fifo := (u.core core).fifo } : Core) = u.core core ∧ ∀ n, n ≠ core → t.core n = u.core n := by
  have hadded : (u.modCore core fun x => { x with fifo := x.fifo ++ [c] }).Issuing i h := issuing_of_eq hu rfl rfl
  obtain ⟨h', hdone, honly⟩ := retire_onlyLanes hadded
  have hcores := sameBut_cores hdone.2.1
  have hcore : ∀ n, (u.modCore core fun x => { x with fifo := x.fifo ++ [c] }).retire.core n =
      if n = core then { u.core core with fifo := (u.core core).fifo ++ [c] } else u.core n := fun n => by
    rw [← core_modCore u core n fun x => { x with fifo := x.fifo ++ [c] }]
    unfold State.core
    rw [hcores]
  have hthis := (hcore core).trans (if_pos rfl)
  exact ⟨_, h', rfl, by rw [hcores]; exact hdone, honly, by rw [hthis], by rw [hthis], fun n hn => (hcore n).trans (if_neg hn)⟩

/-- A wait of the issuing lanes is added to the sheaf, and nothing else differs. -/
theorem waitMe_spec (hu : u.Issuing i h) (k : WaitKind) :
    (u.waitMe k).sheaf? i.sheaf = some { h with waits := h.waits ++ [⟨i.lanes, i.pc, k, u.now, i.solo, h.wb, h.tl⟩] } ∧
      SameBut i.sheaf u (u.waitMe k) := by
  have hwait := issuing_modMe hu (fun h => { h with waits := h.waits ++ [⟨u.active, u.issuePc, k, u.now, u.solo, h.wb, h.tl⟩] }) fun _ => rfl
  rw [← active_of hu, ← issuePc_of hu, ← solo_of hu]
  exact ⟨hwait.2, sameBut_modMe hu _ fun _ => rfl⟩

/-- Settles O43: every post is one shared operation, which traps, waits, or adds its command. -/
theorem matrixPosts : Obligations.MatrixPosts := by
  unfold Obligations.MatrixPosts
  intro s i h q tk a n hi p hp
  have hexec : exec p.1 s = .next (s.matPost p.2.1 q tk p.2.2) := by fin_cases hp <;> rfl
  rw [matPost_eq hi p.2.1 q tk p.2.2 rfl] at hexec
  have hnext : ({ s with nextId := s.nextId + 1 } : State).Issuing i h := issuing_of_eq hi rfl rfl
  refine ⟨fun halign => ?align, fun halign hspace => ?space, fun t halign hspace hw => ?order, fun halign hspace hw hroom => ?posted,
    fun halign hspace hw hfull => ?full⟩
  case align => exact hexec.trans (congrArg Host.Outcome.next (if_pos halign))
  all_goals
    have hpass : ¬ (s.matCheck h (s.postedCmd h p.2.1 q tk p.2.2)).1.align = true := fun hyes => Bool.false_ne_true (halign.symm.trans hyes)
    rw [if_neg hpass] at hexec
  case space => exact hexec.trans (congrArg Host.Outcome.next (if_pos hspace))
  all_goals
    have hlegal : ¬ (s.matCheck h (s.postedCmd h p.2.1 q tk p.2.2)).1.space = true := fun hyes => Bool.false_ne_true (hspace.symm.trans hyes)
    rw [if_neg hlegal, hw] at hexec
  case order => exact hexec
  case posted =>
    obtain ⟨t, h', ht, hdone, honly, hfifo, hrest, hothers⟩ := enqueue_retire hnext h.core (s.matCheck h (s.postedCmd h p.2.1 q tk p.2.2)).2
    exact ⟨t, h', _, by rw [hexec, ht]; exact congrArg Host.Outcome.next (if_pos hroom), hdone, honly,
      matCheck_command s h (s.postedCmd h p.2.1 q tk p.2.2), hfifo, hrest, hothers⟩
  case full =>
    obtain ⟨hsheaf, hsame⟩ := waitMe_spec hnext (.fifo (s.matCheck h (s.postedCmd h p.2.1 q tk p.2.2)).2)
    exact ⟨_, _, _, hexec.trans (congrArg Host.Outcome.next (if_neg (Nat.not_lt.mpr hfull))), hsheaf, rfl, rfl, rfl, hsame⟩

end Sys2Proof.Machine
end

section
/-! SUPPORT. Engine posts: the card is read through the caches, checked in order, and enters its queue, or its lanes wait (R147/06, R319/15,
R365/18). Settles O42. -/

namespace Sys2Proof.Machine

variable {s u : State} {i : Issue} {h : Sheaf}

theorem onlyCaches_readCard (s : State) (core ctx rev va : Nat) : OnlyCaches s (s.readCard core ctx rev va).2 := by
  have hlow := onlyCaches_readVirtual s core ctx rev va 128 .load
  unfold State.readCard
  generalize s.readVirtual core ctx rev va 128 .load = low at hlow
  obtain ⟨r, u⟩ := low
  cases r with
  | error c => exact hlow
  | ok a =>
    have hhigh := onlyCaches_readVirtual u core ctx rev (va + 128) 128 .load
    simp only
    generalize u.readVirtual core ctx rev (va + 128) 128 .load = high at hhigh
    obtain ⟨r, w⟩ := high
    cases r with
    | error c => exact onlyCaches_trans hlow hhigh
    | ok b => exact onlyCaches_trans hlow hhigh

theorem onlyCaches_jobs (ho : OnlyCaches s u) : u.jobs = s.jobs := (congrArg State.jobs ho.1 :)

theorem onlyCaches_nextId (ho : OnlyCaches s u) : u.nextId = s.nextId := (congrArg State.nextId ho.1 :)

theorem onlyCaches_now (ho : OnlyCaches s u) : u.now = s.now := (congrArg State.now ho.1 :)

theorem onlyCaches_queueRoom (ho : OnlyCaches s u) (field engine ctx : Nat) : u.queueRoom field engine ctx = s.queueRoom field engine ctx := by
  unfold State.queueRoom
  rw [onlyCaches_jobs ho]

/-- What a post does with a card that it has read. -/
def State.postCard (u : State) (h : Sheaf) (tm : Team) (engine : Nat) (A : Dword) (card : List Byte) : State :=
  if tm.producer ≠ h.number ∨ h.task then u.trapAll .copyiss 0 0
  else if ¬ (cardEngine card == engine && cardOk card h.slots) then u.trapAll .space 0 0
  else if cardIntoAcc card then u.trapAll .perm 0 0
  else if u.queueRoom (fieldOfCore h.core) engine h.ctx then (u.enqueue (postJob h engine tm.id A card)).retire
  else u.waitMe (.equeue (postJob h engine tm.id A card))

theorem post_eq (hi : s.Issuing i h) (engine d a : Nat) {A : Dword} (hA : A = s.readS h (lowestLane i.lanes) a) :
    s.post engine d a = match s.orderWait? true true with
      | some t => t
      | none =>
        match s.teamIn h d with
        | none => s.trapAll .space 0 0
        | some tm =>
          if A.toNat % 128 ≠ 0 then s.trapAll .align 0 A
          else if 2 ^ 56 ≤ A.toNat then s.trapAll .space 0 A
          else match s.readCard h.core h.ctx h.rev A.toNat with
            | (.error c, u) => (if c = .uncorr then u.laneUncorr h .gl A else u).trapAll c 0 A
            | (.ok card, u) => u.postCard h tm engine A card := by
  unfold State.post
  rw [me_of hi, src_of hi, ← hA]
  rfl

/-- A job enters its queue, and the issue retires. -/
theorem enqueueJob_retire (hu : u.Issuing i h) (j : Job) :
    ∃ h', Completed i { u with nextId := u.nextId + 1, jobs := u.jobs ++ [{ j with id := u.nextId }] } (u.enqueue j).retire h h' ∧
      OnlyLanes h h' :=
  retire_onlyLanes (issuing_of_eq hu rfl rfl)

/-- Settles O42: each check of a post in its order, and then the queue. -/
theorem enginePosts : Obligations.EnginePosts := by
  unfold Obligations.EnginePosts
  refine fun s i h d a n hi => ⟨fun ins hins t hw => ?order, fun hw p hp => ?posts⟩
  case order =>
    have hexec : ∃ e, exec ins s = .next (s.post e d a) := by fin_cases hins <;> exact ⟨_, rfl⟩
    obtain ⟨e, hexec⟩ := hexec
    rw [hexec, post_eq hi e d a rfl, hw]
  case posts =>
    have hexec : exec p.1 s = .next (s.post p.2 d a) := by fin_cases hp <;> rfl
    rw [post_eq hi p.2 d a rfl, hw] at hexec
    generalize s.readS h (lowestLane i.lanes) a = A at hexec ⊢
    refine ⟨fun hnone => by rw [hexec, hnone], fun tm ht => ?_⟩
    simp only [ht] at hexec
    refine ⟨fun halign => ?align, fun halign hspace => ?space, fun halign hspace c u hread hc => ?access,
      fun halign hspace card u hread => ?card⟩
    case align => rw [hexec, if_pos halign]
    case space => rw [hexec, if_neg (not_not.mpr halign), if_pos hspace]
    case access =>
      rw [hexec, if_neg (not_not.mpr halign), if_neg (Nat.not_le.mpr hspace), hread]
      simp only [if_neg hc]
    case card =>
      have hcaches : OnlyCaches s u := by
        have hread' := onlyCaches_readCard s h.core h.ctx h.rev A.toNat
        rwa [hread] at hread'
      have hu := onlyCaches_issuing hcaches hi
      rw [if_neg (not_not.mpr halign), if_neg (Nat.not_le.mpr hspace), hread] at hexec
      simp only [State.postCard, onlyCaches_queueRoom hcaches] at hexec
      have hjob : postJob h p.2 tm.id A card = { postJob h p.2 tm.id A card with poster := some i.sheaf } := by
        rw [← sheaf?_id hi.2]
        rfl
      refine ⟨fun hproducer => ?copyiss, fun hproducer htask hbad => ?badCard, fun hproducer htask hgood hacc => ?perm,
        fun hproducer htask hgood hacc => ⟨fun hroom => ?queued, fun hroom => ?waits⟩⟩
      case copyiss => rw [hexec, if_pos hproducer]
      all_goals
        have howner : ¬ (tm.producer ≠ h.number ∨ h.task = true) := by simp [hproducer, htask]
        rw [if_neg howner] at hexec
      case badCard => rw [hexec, hbad]; rfl
      all_goals
        rw [Bool.not_eq_false] at hgood
        rw [hgood, if_neg (by simp)] at hexec
      case perm => rw [hexec, if_pos hacc]
      all_goals rw [hacc, if_neg Bool.false_ne_true, hroom] at hexec
      case queued =>
        obtain ⟨h', hdone, honly⟩ := enqueueJob_retire hu (postJob h p.2 tm.id A card)
        rw [onlyCaches_nextId hcaches, onlyCaches_jobs hcaches] at hdone
        rw [hjob] at hexec hdone
        exact ⟨_, h', hexec.trans (congrArg Host.Outcome.next (if_pos rfl)), hdone, honly, hcaches⟩
      case waits =>
        obtain ⟨hsheaf, hsame⟩ := waitMe_spec hu (.equeue (postJob h p.2 tm.id A card))
        have hjobs : (u.waitMe (.equeue (postJob h p.2 tm.id A card))).jobs = s.jobs :=
          (congrArg State.jobs hsame.1 :).trans (onlyCaches_jobs hcaches)
        rw [onlyCaches_now hcaches] at hsheaf
        rw [hjob] at hexec hsheaf hjobs
        exact ⟨_, _, hexec.trans (congrArg Host.Outcome.next (if_neg Bool.false_ne_true)), hsheaf, rfl, hjobs⟩

end Sys2Proof.Machine
end

section
/-! SUPPORT. The revision region table: a write of virtual memory keeps the tables and everything that is neither memory nor a cache (R161/07,
R333, R339/16). Settles O40. -/

namespace Sys2Proof.Machine

variable {s u : State} {i : Issue} {h : Sheaf}

/-! ### What a write of virtual memory leaves -/

/-- The machine but for caches and what a write of global memory changes. -/
def State.butStored (s : State) : State := { s.butGlobal with cores := [], fields := [], choices := 0 }

theorem butStored_of_butGlobal (hs : u.butGlobal = s.butGlobal) : u.butStored = s.butStored :=
  (congrArg (fun x : State => ({ x with cores := [], fields := [], choices := 0 } : State)) hs :)

theorem butStored_of_onlyCaches (hs : OnlyCaches s u) : u.butStored = s.butStored := (congrArg State.butStored hs.1 :)

theorem butStored_issuing (hs : u.butStored = s.butStored) (hi : s.Issuing i h) : u.Issuing i h :=
  issuing_of_eq hi (congrArg State.cur hs :) (congrArg State.sheaves hs :)

theorem butStored_teams (hs : u.butStored = s.butStored) : u.teams = s.teams := (congrArg State.teams hs :)

theorem butStored_launches (hs : u.butStored = s.butStored) : u.launches = s.launches := (congrArg State.launches hs :)

theorem writeVirtual_butStored (s : State) (core ctx rev va : Nat) (bs : List Byte) :
    (s.writeVirtual core ctx rev va bs).2.butStored = s.butStored := by
  have hx := onlyCaches_xlate s core ctx .store (va % 2 ^ 56)
  unfold State.writeVirtual
  generalize s.xlate core ctx .store (va % 2 ^ 56) = x at hx
  obtain ⟨r, u⟩ := x
  cases r with
  | error c => exact butStored_of_onlyCaches hx
  | ok hpa =>
    simp only
    split
    · exact butStored_of_onlyCaches hx
    · exact (butStored_of_butGlobal (glWrite_butGlobal u ctx rev va hpa bs false)).trans (butStored_of_onlyCaches hx)

/-- The tables of regions: every other context whole, and the regions of this one. -/
def KeepsRegions (ctx : Nat) (s u : State) : Prop := (u.ctx ctx).regions = (s.ctx ctx).regions ∧ ∀ j, j ≠ ctx → u.ctx j = s.ctx j

theorem keepsRegions_trans {ctx : Nat} {t : State} (h1 : KeepsRegions ctx s t) (h2 : KeepsRegions ctx t u) : KeepsRegions ctx s u :=
  ⟨h2.1.trans h1.1, fun j hj => (h2.2 j hj).trans (h1.2 j hj)⟩

theorem keepsRegions_of_ctxs (ctx : Nat) (hs : u.ctxs = s.ctxs) : KeepsRegions ctx s u := by
  unfold KeepsRegions State.ctx
  rw [hs]
  exact ⟨rfl, fun _ _ => rfl⟩

theorem keepsRegions_modCtx (s : State) (ctx : Nat) (f : Context → Context) (hf : ∀ c, (f c).regions = c.regions) :
    KeepsRegions ctx s (s.modCtx ctx f) :=
  ⟨by rw [ctx_modCtx, if_pos rfl, hf], fun j hj => by rw [ctx_modCtx, if_neg hj]⟩

theorem putGuest_ctxs (bs : List Byte) (s : State) (ctx gpa : Nat) : (s.putGuest ctx gpa bs).ctxs = s.ctxs := by
  induction bs generalizing s gpa with
  | nil => rfl
  | cons b bs ih =>
    unfold State.putGuest
    rw [ih]
    split <;> rfl

theorem homeWrite_ctxs (s : State) (hpa : Nat) (bs : List Byte) (sys : Bool) : (s.homeWrite hpa bs sys).ctxs = s.ctxs := by
  unfold State.homeWrite
  simp only
  split
  · rfl
  · split <;> rfl

theorem retain_keepsRegions (s : State) (ctx id vline hline : Nat) (data : List Byte) :
    KeepsRegions ctx s (s.retain ctx id vline hline data) := by
  unfold State.retain
  simp only
  split
  · exact keepsRegions_trans (keepsRegions_of_ctxs ctx (putGuest_ctxs _ _ _ _)) (keepsRegions_modCtx _ ctx _ fun _ => rfl)
  · exact keepsRegions_modCtx _ ctx _ fun _ => rfl

theorem retainFor_keepsRegions (s : State) (ctx rev vline hline : Nat) : KeepsRegions ctx s (s.retainFor ctx rev vline hline) :=
  ⟨foldl_keep _ (fun u : State => (u.ctx ctx).regions) (fun _ _ => (retain_keepsRegions _ _ _ _ _ _).1) _ s,
    fun j hj => foldl_keep _ (fun u : State => u.ctx j) (fun _ _ => (retain_keepsRegions _ _ _ _ _ _).2 j hj) _ s⟩

theorem glWrite_keepsRegions (s : State) (ctx rev va hpa : Nat) (bs : List Byte) (sys : Bool) :
    KeepsRegions ctx s (s.glWrite ctx rev va hpa bs sys) := by
  unfold State.glWrite
  split
  · exact keepsRegions_of_ctxs ctx (homeWrite_ctxs s hpa bs sys)
  · have hretained := retainFor_keepsRegions s ctx rev (lineOf va) (lineOf hpa)
    simp only
    split
    · exact keepsRegions_trans hretained (keepsRegions_of_ctxs ctx (homeWrite_ctxs _ hpa bs sys))
    · exact keepsRegions_trans hretained (keepsRegions_modCtx _ ctx _ fun _ => rfl)

theorem writeVirtual_keepsRegions (s : State) (core ctx rev va : Nat) (bs : List Byte) :
    KeepsRegions ctx s (s.writeVirtual core ctx rev va bs).2 := by
  have hx := onlyCaches_xlate s core ctx .store (va % 2 ^ 56)
  unfold State.writeVirtual
  generalize s.xlate core ctx .store (va % 2 ^ 56) = x at hx
  obtain ⟨r, u⟩ := x
  have hctxs : KeepsRegions ctx s u := keepsRegions_of_ctxs ctx (congrArg State.ctxs hx.1 :)
  cases r with
  | error c => exact hctxs
  | ok hpa =>
    simp only
    split
    · exact hctxs
    · exact keepsRegions_trans hctxs (glWrite_keepsRegions u ctx rev va hpa bs false)

/-! ### `rgnr` and `rgnw` -/

theorem exec_rgnr (hi : s.Issuing i h) (d a b : Nat) {A B : Dword} (hA : A = s.readS h (lowestLane i.lanes) a)
    (hB : B = s.readS h (lowestLane i.lanes) b) :
    exec (.rgnr d a b) s = if 63 < A.toNat ∨ 3 < B.toNat then .next (s.trapAll .space 0 0)
      else .next (s.scalarOp d ((cget 0 (s.ctx h.ctx).regions A.toNat).extractLsb' (64 * B.toNat) 64)) := by
  show execRgnr d a b s = _
  unfold execRgnr
  rw [src_of hi, src_of hi, me_of hi, ← hA, ← hB]
  rfl

/-- A context without revisions but the root reads its table again. -/
def State.tableRead (u : State) (ctx : Nat) : State := if (u.ctx ctx).revs = [] then u.readRegions ctx else u

/-- The state in which `rgnw` has set an entry, in the table's memory too where there is one. -/
def State.setRegion (u : State) (core ctx n : Nat) (e : BitVec 256) (bs : List Byte) : State :=
  if (u.ctx ctx).regionTable = 0 then u.modCtx ctx fun c => { c with regions := cset 0 c.regions n e }
  else ((u.modCtx ctx fun c => { c with regions := cset 0 c.regions n e }).writeVirtual core ctx 0
    ((u.ctx ctx).regionTable.toNat + 32 * n) bs).2

theorem exec_rgnw (hi : s.Issuing i h) (a b : Nat) {A B : Dword} (hA : A = s.readS h (lowestLane i.lanes) a)
    (hB : B = s.readS h (lowestLane i.lanes) b) (hw : s.orderWait? true true = none) :
    exec (.rgnw a b) s =
      if B.toNat % 32 ≠ 0 then .next (s.trapAll .align 0 B)
      else if 63 < A.toNat then .next (s.trapAll .space 0 0)
      else if 2 ^ 56 ≤ B.toNat then .next (s.trapAll .space 0 B)
      else match s.readVirtual h.core h.ctx h.rev B.toNat 32 .load with
        | (.error c, u) => .next ((if c = .uncorr then u.laneUncorr h .gl B else u).trapAll c 0 B)
        | (.ok bs, u) =>
          if ¬ ((u.tableRead h.ctx).ctx h.ctx).regionOk A.toNat (BitVec.ofNat 256 (natOfBytes bs)) ∨ ((u.tableRead h.ctx).ctx h.ctx).revs ≠ [] then
            .next ((u.tableRead h.ctx).trapAll .region 0 0)
          else .next ((u.tableRead h.ctx).setRegion h.core h.ctx A.toNat (BitVec.ofNat 256 (natOfBytes bs)) bs).retire := by
  show execRgnw a b s = _
  unfold execRgnw
  rw [hw, src_of hi, src_of hi, me_of hi, ← hA, ← hB]
  simp only [State.tableRead, State.setRegion, List.isEmpty_iff]
  rfl

theorem tableRead_butStored (u : State) (ctx : Nat) : (u.tableRead ctx).butStored = u.butStored := by
  unfold State.tableRead
  split <;> rfl

theorem tableRead_ctx (u : State) (ctx : Nat) : ((u.tableRead ctx).ctx ctx).revs = (u.ctx ctx).revs ∧
    ∀ j, j ≠ ctx → (u.tableRead ctx).ctx j = u.ctx j := by
  unfold State.tableRead State.readRegions
  split
  · exact ⟨by rw [ctx_modCtx, if_pos rfl], fun j hj => by rw [ctx_modCtx, if_neg hj]⟩
  · exact ⟨rfl, fun _ _ => rfl⟩

theorem setRegion_butStored (u : State) (core ctx n : Nat) (e : BitVec 256) (bs : List Byte) :
    (u.setRegion core ctx n e bs).butStored = u.butStored := by
  unfold State.setRegion
  split
  · rfl
  · exact (writeVirtual_butStored _ _ _ _ _ _).trans rfl

/-- One entry is the new one; the other entries, and the other contexts, are as they were. -/
theorem setRegion_regions (u : State) (core ctx n : Nat) (e : BitVec 256) (bs : List Byte) :
    (∀ k, cget 0 ((u.setRegion core ctx n e bs).ctx ctx).regions k = if k = n then e else cget 0 (u.ctx ctx).regions k) ∧
    ∀ j, j ≠ ctx → (u.setRegion core ctx n e bs).ctx j = u.ctx j := by
  have hset : ∀ k, cget 0 ((u.modCtx ctx fun c => { c with regions := cset 0 c.regions n e }).ctx ctx).regions k =
      if k = n then e else cget 0 (u.ctx ctx).regions k := fun k => by
    rw [ctx_modCtx, if_pos rfl]
    exact cget_cset _ _ _ _
  have hothers : ∀ j, j ≠ ctx → (u.modCtx ctx fun c => { c with regions := cset 0 c.regions n e }).ctx j = u.ctx j := fun j hj => by
    rw [ctx_modCtx, if_neg hj]
  unfold State.setRegion
  split
  · exact ⟨hset, hothers⟩
  · have hkeep := writeVirtual_keepsRegions (u.modCtx ctx fun c => { c with regions := cset 0 c.regions n e }) core ctx 0
      ((u.ctx ctx).regionTable.toNat + 32 * n) bs
    exact ⟨fun k => by rw [hkeep.1]; exact hset k, fun j hj => (hkeep.2 j hj).trans (hothers j hj)⟩

/-- Settles O40: `rgnr` is a scalar result, and `rgnw` its checks in order, then the entry set. -/
theorem regionTable : Obligations.RegionTable := by
  unfold Obligations.RegionTable
  refine fun s i h d a b hi => ⟨fun ha hb => ?read, fun hbad => ?readBad, fun t hw => ?order, fun hw => ⟨fun halign => ?align,
    fun halign hspace => ?space, fun halign hspace hfit bs u hread => ⟨fun hok hrevs => ?set, fun hbad => ?region⟩⟩⟩
  case read =>
    obtain ⟨h', hdone⟩ := scalarOp_spec hi d
      ((cget 0 (s.ctx h.ctx).regions (s.readS h (lowestLane i.lanes) a).toNat).extractLsb' (64 * (s.readS h (lowestLane i.lanes) b).toNat) 64)
    exact ⟨_, h', by rw [exec_rgnr hi d a b rfl rfl, if_neg (by omega)], hdone⟩
  case readBad => rw [exec_rgnr hi d a b rfl rfl, if_pos hbad]
  case order =>
    show execRgnw a b s = _
    unfold execRgnw
    rw [hw]
  case align => rw [exec_rgnw hi a b rfl rfl hw, if_pos halign]
  case space => rw [exec_rgnw hi a b rfl rfl hw, if_neg (not_not.mpr halign), if_pos hspace]
  all_goals
    have hcaches : OnlyCaches s u := by
      have hread' := onlyCaches_readVirtual s h.core h.ctx h.rev (s.readS h (lowestLane i.lanes) b).toNat 32 .load
      rwa [hread] at hread'
    have hctxs : u.ctxs = s.ctxs := (congrArg State.ctxs hcaches.1 :)
    have hctx : ∀ j, u.ctx j = s.ctx j := fun j => by unfold State.ctx; rw [hctxs]
    have htable : (if (s.ctx h.ctx).revs = [] then u.readRegions h.ctx else u) = u.tableRead h.ctx := by rw [State.tableRead, hctx]
    have hrevs' : ((u.tableRead h.ctx).ctx h.ctx).revs = (s.ctx h.ctx).revs := by rw [(tableRead_ctx u h.ctx).1, hctx]
    have hexec := exec_rgnw hi a b rfl rfl hw
    rw [if_neg (not_not.mpr halign), if_neg (Nat.not_lt.mpr hspace), if_neg (Nat.not_le.mpr hfit), hread] at hexec
    simp only [htable] at *
  case set =>
    have hgood : ¬ (¬ ((u.tableRead h.ctx).ctx h.ctx).regionOk (s.readS h (lowestLane i.lanes) a).toNat (BitVec.ofNat 256 (natOfBytes bs)) = true ∨
        ((u.tableRead h.ctx).ctx h.ctx).revs ≠ []) := by simp [hok, hrevs', hrevs]
    rw [if_neg hgood] at hexec
    have hstored := (setRegion_butStored (u.tableRead h.ctx) h.core h.ctx (s.readS h (lowestLane i.lanes) a).toNat
      (BitVec.ofNat 256 (natOfBytes bs)) bs).trans ((tableRead_butStored u h.ctx).trans (butStored_of_onlyCaches hcaches))
    obtain ⟨hregions, hothers⟩ := setRegion_regions (u.tableRead h.ctx) h.core h.ctx (s.readS h (lowestLane i.lanes) a).toNat
      (BitVec.ofNat 256 (natOfBytes bs)) bs
    obtain ⟨h', ⟨hsheaf, hsame, hmoved, -⟩, honly⟩ := retire_onlyLanes (butStored_issuing hstored hi)
    have hctxs' := sameBut_ctxs hsame
    refine ⟨_, h', hexec, hsheaf, hmoved, honly, fun n => ?_, ?_, (sameBut_teams hsame).trans (butStored_teams hstored),
      (sameBut_launches hsame).trans (butStored_launches hstored), fun j hj => ?_⟩
    · rw [← hregions n]
      unfold State.ctx
      rw [hctxs']
    · rw [sameBut_mem hsame, State.setRegion]
      split <;> rfl
    · rw [← hctx j, ← (tableRead_ctx u h.ctx).2 j hj, ← hothers j hj]
      unfold State.ctx
      rw [hctxs']
  case region =>
    rw [hexec]
    refine if_pos (hbad.imp (fun hno => by simp [hno]) fun hrevs => by rw [hrevs']; exact hrevs)

end Sys2Proof.Machine
end

section
/-! SUPPORT. Stores: the checks keep the issue, what fails or waits writes nothing, and what the writes of the lanes leave as it was (R116/05,
R207, R208, R210/10, R307, R309/15). Settles O28 and O29. -/

namespace Sys2Proof.Machine

variable {s u : State} {i : Issue} {h g : Sheaf}

/-! ### What keeps the issue and every sheaf -/

/-- What the issue in progress is, and the sheaves. -/
def State.issueView (s : State) : Option Issue × List Sheaf := (s.cur, s.sheaves)

theorem issuing_of_issueView (hv : u.issueView = s.issueView) (hi : s.Issuing i h) : u.Issuing i h :=
  issuing_of_eq hi (congrArg Prod.fst hv :) (congrArg Prod.snd hv :)

theorem issueView_of_onlyCaches (ho : OnlyCaches s u) : u.issueView = s.issueView := (congrArg State.issueView ho.1 :)

theorem report_issueView (s : State) (ctx cause byte3 addr : Nat) (detail : List Byte) :
    (s.report ctx cause byte3 addr detail).issueView = s.issueView := by
  unfold State.report
  simp only
  split
  · split <;> rfl
  · rfl

theorem laneUncorr_issueView (s : State) (h : Sheaf) (space : Space) (a : Dword) : (s.laneUncorr h space a).issueView = s.issueView := by
  unfold State.laneUncorr
  cases space with
  | gl =>
    have hx := onlyCaches_xlate s h.core h.ctx .load a.toNat
    simp only
    generalize s.xlate h.core h.ctx .load a.toNat = x at hx
    obtain ⟨r, u⟩ := x
    cases r with
    | ok hpa => exact (report_issueView _ _ _ _ _ _).trans (issueView_of_onlyCaches hx)
    | error c => exact (report_issueView _ _ _ _ _ _).trans (issueView_of_onlyCaches hx)
  | ln => exact report_issueView _ _ _ _ _ _
  | sp => exact report_issueView _ _ _ _ _ _
  | cl => exact report_issueView _ _ _ _ _ _
  | bn => exact report_issueView _ _ _ _ _ _
  | ac => exact report_issueView _ _ _ _ _ _

theorem checkLanes_issueView (s : State) (k : AccKind) (space : Space) (size : Nat) (A : Nat → Dword) (ls : List Nat) :
    (s.checkLanes k space size A ls).2.issueView = s.issueView := by
  induction ls generalizing s with
  | nil => rfl
  | cons l ls ih =>
    have hr := onlyCaches_resolve s s.me k space (A l) size l
    unfold State.checkLanes
    simp only
    generalize s.resolve s.me k space (A l) size l = r at hr
    obtain ⟨r, u⟩ := r
    cases r with
    | error c =>
      simp only
      rw [ih, ← issueView_of_onlyCaches hr]
      split
      · exact laneUncorr_issueView u s.me space (A l)
      · rfl
    | ok x => exact (ih u).trans (issueView_of_onlyCaches hr)

theorem checkLanes_issuing (hi : s.Issuing i h) (k : AccKind) (space : Space) (size : Nat) (A : Nat → Dword) (ls : List Nat) :
    (s.checkLanes k space size A ls).2.Issuing i h := issuing_of_issueView (checkLanes_issueView s k space size A ls) hi

theorem peerWriteBack_issueView (s : State) (line : Nat) : (s.peerWriteBack line).issueView = s.issueView := by
  unfold State.peerWriteBack
  split <;> rfl

theorem writeBackPeer_issueView (s : State) (line : Nat) : (s.writeBackPeer line).issueView = s.issueView := by
  have hreports : ∀ (lost : Bool) (ctxs : List Nat),
      (if lost then ctxs.foldl (fun (s : State) c => s.reportUncorr c line 255 0) s else s).issueView = s.issueView := by
    intro lost ctxs
    split
    · exact foldl_keep (fun (s : State) c => s.reportUncorr c line 255 0) State.issueView (fun _ _ => report_issueView _ _ _ _ _ _) _ s
    · rfl
  unfold State.writeBackPeer
  split
  · exact hreports _ _
  · exact peerWriteBack_issueView s line

/-- A release leaves the issue, and its sheaf but for the peer lines written back. -/
theorem releaseAt_issuing (hi : s.Issuing i h) (reach : Nat) : ∃ p, (s.releaseAt reach).Issuing i { h with peerDirty := p } := by
  unfold State.releaseAt
  split
  · have hback : (s.me.peerDirty.foldl (fun s l => s.writeBackPeer l) s).Issuing i h :=
      issuing_of_issueView (foldl_keep _ State.issueView writeBackPeer_issueView _ s) hi
    exact ⟨_, issuing_modMe hback (fun h => { h with peerDirty := [] }) fun _ => rfl⟩
  · exact ⟨_, hi⟩

/-! ### What writing an access's place leaves -/

/-- The machine but for what the writes of a store change, and caches. -/
def State.butWritten (s : State) : State :=
  { s with sheaves := [], teams := [], mem := [], ctxs := [], cores := [], fields := [], l2peer := [], choices := 0 }

theorem butWritten_of_onlyCaches (ho : OnlyCaches s u) : u.butWritten = s.butWritten := (congrArg State.butWritten ho.1 :)

theorem butWritten_of_butGlobal (hs : u.butGlobal = s.butGlobal) : u.butWritten = s.butWritten := (congrArg State.butWritten hs :)

theorem issueView_of_butGlobal (hs : u.butGlobal = s.butGlobal) : u.issueView = s.issueView := (congrArg State.issueView hs :)

theorem storeThrough_issueView (s : State) (core ctx rev va hpa : Nat) (bs : List Byte) (sys : Bool) :
    (s.storeThrough core ctx rev va hpa bs sys).issueView = s.issueView :=
  issueView_of_butGlobal (s := s) (u := s.glWrite ctx rev va hpa bs sys) (glWrite_butGlobal s ctx rev va hpa bs sys)

theorem storeThrough_butWritten (s : State) (core ctx rev va hpa : Nat) (bs : List Byte) (sys : Bool) :
    (s.storeThrough core ctx rev va hpa bs sys).butWritten = s.butWritten :=
  butWritten_of_butGlobal (s := s) (u := s.glWrite ctx rev va hpa bs sys) (glWrite_butGlobal s ctx rev va hpa bs sys)

theorem writeTarget_butWritten (s : State) (h : Sheaf) (t : Target) (bs : List Byte) (sys : Bool) :
    (s.writeTarget h t bs sys).butWritten = s.butWritten := by
  unfold State.writeTarget
  match t with
  | .slice _ _ => rfl
  | .team _ _ => rfl
  | .acc _ => rfl
  | .host none hpa => exact butWritten_of_butGlobal (homeWrite_butGlobal s hpa bs false)
  | .host (some va) hpa =>
    simp only
    split
    · exact storeThrough_butWritten s h.core h.ctx h.rev va hpa bs sys
    · exact storeThrough_butWritten s h.core h.ctx h.rev va hpa bs sys

/-- Only the slices and the dirty peer lines of the issuing sheaf change. -/
theorem writeTarget_issuing (hu : u.Issuing i g) (t : Target) (bs : List Byte) (sys : Bool) :
    ∃ g', (u.writeTarget g t bs sys).Issuing i g' ∧ ({ g' with slice := g.slice, peerDirty := g.peerDirty } : Sheaf) = g := by
  unfold State.writeTarget
  rw [sheaf?_id hu.2]
  match t with
  | .slice l off =>
    have hmod := issuing_modMe hu (fun h => { h with slice := h.slice.write (l * 1024 + off) bs }) fun _ => rfl
    rw [modMe_of hu] at hmod
    exact ⟨_, hmod, rfl⟩
  | .team _ _ => exact ⟨g, issuing_of_eq hu rfl rfl, rfl⟩
  | .acc _ => exact ⟨g, hu, rfl⟩
  | .host none hpa => exact ⟨g, issuing_of_issueView (issueView_of_butGlobal (homeWrite_butGlobal u hpa bs false)) hu, rfl⟩
  | .host (some va) hpa =>
    have hthrough := issuing_of_issueView (storeThrough_issueView u g.core g.ctx g.rev va hpa bs sys) hu
    simp only
    split
    · have hmod := issuing_modMe hthrough (fun h => { h with peerDirty := lineOf hpa :: h.peerDirty }) fun _ => rfl
      rw [modMe_of hthrough] at hmod
      exact ⟨_, hmod, rfl⟩
    · exact ⟨g, hthrough, rfl⟩

theorem writeLanes_butWritten (s : State) (data : Nat → List Byte) (sys : Bool) (ts : List (Nat × Target)) :
    (s.writeLanes data sys ts).butWritten = s.butWritten := by
  induction ts generalizing s with
  | nil => rfl
  | cons x ts ih =>
    unfold State.writeLanes
    exact (ih _).trans (writeTarget_butWritten s s.me x.2 (data x.1) sys)

theorem writeLanes_issuing (hu : u.Issuing i g) (data : Nat → List Byte) (sys : Bool) (ts : List (Nat × Target)) :
    ∃ g', (u.writeLanes data sys ts).Issuing i g' ∧ ({ g' with slice := g.slice, peerDirty := g.peerDirty } : Sheaf) = g := by
  induction ts generalizing u g with
  | nil => exact ⟨g, hu, rfl⟩
  | cons x ts ih =>
    unfold State.writeLanes
    rw [me_of hu]
    obtain ⟨g1, h1, e1⟩ := writeTarget_issuing hu x.2 (data x.1) sys
    obtain ⟨g2, h2, e2⟩ := ih h1
    exact ⟨g2, h2, (congrArg (fun x : Sheaf => ({ x with slice := g.slice, peerDirty := g.peerDirty } : Sheaf)) e2).trans e1⟩

/-- The writes of a store, and then the issue retired: of the sheaf, only slices and dirty peer lines change beside the lanes. -/
theorem writeLanes_retire (hu : u.Issuing i g) (hg : ({ g with slice := h.slice, peerDirty := h.peerDirty } : Sheaf) = h)
    (data : Nat → List Byte) (sys : Bool) (ts : List (Nat × Target)) :
    ∃ h', (u.writeLanes data sys ts).retire.sheaf? i.sheaf = some h' ∧ Moved i h h' ∧
      ({ h' with slice := h.slice, peerDirty := h.peerDirty, lanes := h.lanes, watchSkip := h.watchSkip } : Sheaf) = h ∧
      (u.writeLanes data sys ts).retire.butWritten = u.butWritten := by
  obtain ⟨g', hwritten, hg'⟩ := writeLanes_issuing hu data sys ts
  have hsheaf : ({ g' with slice := h.slice, peerDirty := h.peerDirty } : Sheaf) = h :=
    (congrArg (fun x : Sheaf => ({ x with slice := h.slice, peerDirty := h.peerDirty } : Sheaf)) hg').trans hg
  obtain ⟨h', ⟨hthere, hsame, hmoved, -⟩, hafter⟩ := retire_completed hwritten (sameBut_refl _ _) (congrArg Sheaf.lanes hsheaf :)
    (congrArg Sheaf.watchSkip hsheaf :)
  refine ⟨h', hthere, hmoved, ?_, ?_⟩
  · exact (congrArg (fun x : Sheaf => ({ x with slice := h.slice, peerDirty := h.peerDirty } : Sheaf)) hafter).trans hsheaf
  · exact (congrArg State.butWritten hsame.1 :).trans (writeLanes_butWritten u data sys ts)

/-! ### A store -/

theorem localWait_of_waits (hu : u.Issuing i h) {space : Space} {size : Nat} {A : Nat → Dword} {ts : List (Nat × Target)} {retains : Bool}
    (hw : (u.meetsRemote h.id ts size || retains) = true) : u.localWait? space size A ts retains = some u.stallMe := by
  unfold State.localWait?
  rw [me_of hu, if_pos hw]

theorem localWait_of_free (hu : u.Issuing i h) {space : Space} {size : Nat} {A : Nat → Dword} {ts : List (Nat × Target)} {retains : Bool}
    (hw : (u.meetsRemote h.id ts size || retains) = false) :
    u.localWait? space size A ts retains = (u.behindLoad space size A (ts.map fun x => x.1)).map u.dependOnFault := by
  unfold State.localWait?
  rw [me_of hu, hw, if_neg Bool.false_ne_true]

theorem trapLanes_of_cur (hc : u.cur = some i) {fs : List LaneFault} (hf : fs ≠ []) :
    ∃ cause lanes a, winning fs = some (cause, lanes, a) ∧ u.trapLanes fs = some (u.takeTrap i.sheaf cause 0 a lanes i.pc none) := by
  obtain ⟨f, fs, rfl⟩ := List.exists_cons_of_ne_nil hf
  exact ⟨_, _, _, rfl, by unfold State.trapLanes; rw [hc]; rfl⟩

/-- Is an ordered store a release? -/
def releases (ordered : Option (Scope × Sys2Proof.Ordering)) : Bool :=
  match ordered with
  | some (_, .rel) => true
  | _ => false

section
variable {space : Space} {w : Width} {A : Nat → Dword} {ordered : Option (Scope × Sys2Proof.Ordering)} {c : Checked × State}

theorem storeOp_order {t : State} (hw : s.orderWait? true (releases ordered) = some t) (d : Nat) : s.storeOp space w d A ordered = t := by
  unfold State.storeOp
  change (match s.orderWait? true (releases ordered) with | some t => t | none => _) = t
  rw [hw]

variable (hi : s.Issuing i h) (ho : s.orderWait? true (releases ordered) = none)
  (hc : c = s.checkLanes .store space w.bytes A (lanesOf i.lanes))
include hi ho hc

/-- Once nothing holds it back, a store is its checks and what follows from them. -/
theorem storeOp_eq (d : Nat) : s.storeOp space w d A ordered =
    match c.2.trapLanes (c.1.bad ++ c.2.watchLanes .store space w.bytes A) with
    | some t => t
    | none =>
      match c.2.localWait? space w.bytes A c.1.ok (c.2.storeWaits h c.1.ok) with
      | some t => t
      | none => ((if releases ordered then c.2.releaseAt (s.reachOf h ordered) else c.2).writeLanes (fun l => h.storeBytes w l d)
          (s.reachOf h ordered == 6) c.1.ok).retire := by
  subst hc
  unfold State.storeOp
  rw [me_of hi, active_of hi]
  change (match s.orderWait? true (releases ordered) with | some t => t | none => _) = _
  rw [ho]
  rfl

/-- A lane that fails, or is watched: the store traps, and writes nothing. -/
theorem storeOp_traps (d : Nat) (hbad : c.1.bad ++ c.2.watchLanes .store space w.bytes A ≠ []) :
    ∃ cause lanes a, winning (c.1.bad ++ c.2.watchLanes .store space w.bytes A) = some (cause, lanes, a) ∧
      s.storeOp space w d A ordered = c.2.takeTrap i.sheaf cause 0 a lanes i.pc none := by
  have hchecked : c.2.Issuing i h := hc ▸ checkLanes_issuing hi .store space w.bytes A _
  obtain ⟨cause, lanes, a, hwin, htrap⟩ := trapLanes_of_cur hchecked.1 hbad
  exact ⟨cause, lanes, a, hwin, by rw [storeOp_eq hi ho hc, htrap]⟩

variable (hbad : c.1.bad ++ c.2.watchLanes .store space w.bytes A = [])
include hbad

omit hi ho in
theorem checked_onlyCaches : OnlyCaches s c.2 := by
  have hnone : c.1.bad = [] := (List.append_eq_nil_iff.mp hbad).1
  subst hc
  exact onlyCaches_checkLanes s .store space w.bytes A (lanesOf i.lanes) fun f hf => by rw [hnone] at hf; cases hf

/-- A store that meets a remote store of its lane, or lacks an overflow page, waits. -/
theorem storeOp_waits (d : Nat) (hw : (c.2.meetsRemote h.id c.1.ok w.bytes || c.2.storeWaits h c.1.ok) = true) :
    s.storeOp space w d A ordered = c.2.stallMe := by
  have hchecked := onlyCaches_issuing (checked_onlyCaches hc hbad) hi
  rw [storeOp_eq hi ho hc, hbad, trapLanes_nil, localWait_of_waits hchecked hw]

variable (hw : (c.2.meetsRemote h.id c.1.ok w.bytes || c.2.storeWaits h c.1.ok) = false)
include hw

/-- A store that meets what a faulted load has still to read waits for that load. -/
theorem storeOp_behind (d : Nat) {q : Pending} (hq : c.2.behindLoad space w.bytes A (c.1.ok.map fun y => y.1) = some q) :
    s.storeOp space w d A ordered = c.2.dependOnFault q := by
  have hchecked := onlyCaches_issuing (checked_onlyCaches hc hbad) hi
  rw [storeOp_eq hi ho hc, hbad, trapLanes_nil, localWait_of_free hchecked hw, hq, Option.map_some]

/-- Else every lane writes, after the release of an ordered one. -/
theorem storeOp_writes (d : Nat) (hq : c.2.behindLoad space w.bytes A (c.1.ok.map fun y => y.1) = none) :
    s.storeOp space w d A ordered = ((if releases ordered then c.2.releaseAt (s.reachOf h ordered) else c.2).writeLanes
      (fun l => h.storeBytes w l d) (s.reachOf h ordered == 6) c.1.ok).retire := by
  have hchecked := onlyCaches_issuing (checked_onlyCaches hc hbad) hi
  rw [storeOp_eq hi ho hc, hbad, trapLanes_nil, localWait_of_free hchecked hw, hq, Option.map_none]

end

/-! ### A store to accumulator memory (R126/05, R305/15) -/

/-- Aligned addresses in range: every lane fails with PERM, and nothing changes. -/
theorem checkLanes_acc {w : Width} {A : Nat → Dword} {ls : List Nat} (hl : ∀ l ∈ ls, (A l).toNat % w.bytes = 0 ∧ (A l).toNat < 2 ^ 18) :
    s.checkLanes .store .ac w.bytes A ls = (⟨[], ls.map fun l => ⟨l, .perm, A l⟩⟩, s) := by
  induction ls with
  | nil => rfl
  | cons l ls ih =>
    obtain ⟨halign, hfit⟩ := hl l List.mem_cons_self
    have hresolve : s.resolve s.me .store .ac (A l) w.bytes l = (.error .perm, s) := by
      unfold State.resolve
      simp only [halign, ne_eq, not_true_eq_false, if_false, Nat.not_le.mpr hfit]
    unfold State.checkLanes
    simp only [hresolve, reduceCtorEq, if_false, ih fun k hk => hl k (List.mem_cons_of_mem _ hk), List.map_cons]

theorem watchLanes_acc (s : State) (k : AccKind) (size : Nat) (A : Nat → Dword) : s.watchLanes k .ac size A = [] := by
  have hnone : ∀ l, s.watched s.me k .ac (A l) size l = false := by
    intro l
    simp [State.watched, Watch.hits, spaceCode]
  unfold State.watchLanes
  simp [hnone]

/-- In ascending order the first lane is the lowest. -/
theorem foldl_lowest_sorted (f : LaneFault) (fs : List LaneFault) (hs : ∀ g ∈ fs, ¬ g.lane < f.lane) :
    fs.foldl (fun b g => if g.lane < b.lane then g else b) f = f := by
  induction fs with
  | nil => rfl
  | cons g fs ih =>
    rw [List.foldl_cons, if_neg (hs g List.mem_cons_self)]
    exact ih fun k hk => hs k (List.mem_cons_of_mem _ hk)

/-- Lanes that all fail for one reason trap together, with the lowest one's address. -/
theorem winning_uniform_ascending (c : Cause) (A : Nat → Dword) {l : Nat} {ls : List Nat} (hs : (l :: ls).Pairwise (· < ·)) :
    winning ((l :: ls).map fun l => ⟨l, c, A l⟩) = some (c, maskOf (l :: ls), A l) := by
  have hlow : ∀ k ∈ l :: ls, ¬ k < l := by
    intro k hk
    rcases List.mem_cons.mp hk with rfl | hk
    · exact lt_irrefl _
    · exact not_lt.mpr (Nat.le_of_lt (List.rel_of_pairwise_cons hs hk))
  have hbest := foldl_uniform_cause c (ls.map fun l => (⟨l, c, A l⟩ : LaneFault)) ⟨l, c, A l⟩ rfl (by simp)
  have hall : (((l :: ls).map fun l => (⟨l, c, A l⟩ : LaneFault)).filter fun g => g.cause == c) = (l :: ls).map fun l => ⟨l, c, A l⟩ :=
    List.filter_eq_self.mpr (by simp)
  have hfirst := foldl_lowest_sorted ⟨l, c, A l⟩ ((l :: ls).map fun l => ⟨l, c, A l⟩) (by simpa using hlow)
  unfold winning
  rw [List.map_cons] at hall hfirst ⊢
  simp only [hbest, hall, List.headD_cons, hfirst]
  rw [← List.map_cons (f := fun l => (⟨l, c, A l⟩ : LaneFault)), List.map_map]
  simp [Function.comp_def]

theorem lanesOf_ascending (m : Mask) : (lanesOf m).Pairwise (· < ·) := List.Pairwise.filter _ List.pairwise_lt_range

theorem maskOf_lanesOf (m : Mask) : maskOf (lanesOf m) = m := by
  apply BitVec.eq_of_getLsbD_eq
  intro k hk
  rw [getLsbD_maskOf _ _ hk]
  simp [mem_lanesOf, hk]

/-! ### The instructions -/

/-- A lane's effective address, of its sheaf. -/
def Sheaf.ea (h : Sheaf) (b : Nat) (x : Idx) (size l : Nat) : Dword :=
  h.sget b + (match x with | .vec k => (h.vget l k).setWidth 64 | .imm k => BitVec.ofNat 64 (k * size))

theorem ea_of (hi : s.Issuing i h) (b : Nat) (x : Idx) (size : Nat) : s.ea b x size = h.ea b x size := by
  funext l
  cases x with
  | vec k => exact ea_vec hi b k size l
  | imm k => exact ea_imm hi b k size l

theorem state_of_butWritten {t : State} (ht : t.butWritten = s.butWritten) :
    ({ t with sheaves := s.sheaves, teams := s.teams, mem := s.mem, ctxs := s.ctxs, cores := s.cores, fields := s.fields
              l2peer := s.l2peer, choices := s.choices } : State) = s :=
  (congrArg (fun x : State => ({ x with sheaves := s.sheaves, teams := s.teams, mem := s.mem, ctxs := s.ctxs, cores := s.cores
                                        fields := s.fields, l2peer := s.l2peer, choices := s.choices } : State)) ht :)

/-- Settles O28: a store is its checks, its waits and its writes; accumulator memory refuses every lane. -/
theorem stores : Obligations.Stores := by
  unfold Obligations.Stores
  refine ⟨fun s i h d b n w x hi p hp => ?plain, fun s i h d b n w x hi ho hsome hfit => ?acc⟩
  case plain =>
    have hexec : exec p.1 s = .next (s.storeOp p.2 w d (h.ea b x w.bytes) none) := by
      rw [← ea_of hi]
      fin_cases hp <;> rfl
    refine ⟨fun t ho => ?order, fun ho => ⟨fun q hbad hw hq => ?behind, fun hbad hw hq => ?writes, fun hbad hw => ?waits, fun hbad => ?traps⟩⟩
    case order => exact hexec.trans (congrArg Host.Outcome.next (storeOp_order (ordered := none) ho d))
    case behind => exact hexec.trans (congrArg Host.Outcome.next (storeOp_behind (ordered := none) hi ho rfl hbad hw d hq))
    case waits => exact hexec.trans (congrArg Host.Outcome.next (storeOp_waits (ordered := none) hi ho rfl hbad d hw))
    case traps =>
      obtain ⟨cause, lanes, a, hwin, htrap⟩ := storeOp_traps (ordered := none) hi ho rfl d hbad
      exact ⟨cause, lanes, a, hwin, hexec.trans (congrArg Host.Outcome.next htrap)⟩
    case writes =>
      have hcaches := checked_onlyCaches rfl hbad
      obtain ⟨h', hsheaf, hmoved, hrest, hstate⟩ := writeLanes_retire (onlyCaches_issuing hcaches hi) (h := h) rfl
        (fun l => h.storeBytes w l d) false (s.checkLanes .store p.2 w.bytes (h.ea b x w.bytes) (lanesOf i.lanes)).1.ok
      exact ⟨_, h', hexec.trans (congrArg Host.Outcome.next (storeOp_writes (ordered := none) hi ho rfl hbad hw d hq)), rfl, hcaches, hsheaf, hmoved, hrest,
        state_of_butWritten (hstate.trans (butWritten_of_onlyCaches hcaches))⟩
  case acc =>
    have hexec : exec (.stAc d w b x n) s = .next (s.storeOp .ac w d (h.ea b x w.bytes) none) := by
      rw [← ea_of hi]
      rfl
    have hchecks := checkLanes_acc (s := s) (w := w) (A := h.ea b x w.bytes) (ls := lanesOf i.lanes) fun l hl =>
      hfit l ((mem_lanesOf _ _).mp hl).1 ((mem_lanesOf _ _).mp hl).2
    obtain ⟨l, ls, hls⟩ : ∃ l ls, lanesOf i.lanes = l :: ls := by
      refine List.exists_cons_of_ne_nil fun hnil => hsome ?_
      rw [← maskOf_lanesOf i.lanes, hnil]
      rfl
    have hwin := winning_uniform_ascending .perm (h.ea b x w.bytes) (hls ▸ lanesOf_ascending i.lanes)
    rw [← hls, maskOf_lanesOf] at hwin
    have hlow : lowestLane i.lanes = l := by rw [lowestLane, hls]; rfl
    rw [hexec, storeOp_eq (ordered := none) hi ho hchecks.symm]
    simp only [watchLanes_acc, List.append_nil, State.trapLanes, hi.1, hwin, hlow]
    rfl

theorem releases_ordered (sc : Scope) (o : Sys2Proof.Ordering) : releases (some (sc, o)) = (o == .rel) := by cases o <;> rfl

/-- Settles O29: an ordered store is a plain one after its release. -/
theorem orderedStores : Obligations.OrderedStores := by
  unfold Obligations.OrderedStores
  intro s i h d a n w sc o hi A reach c bad waits behind
  have hexec : exec (.stGlOrdered d a sc o w n) s = .next (s.storeOp .gl w d A (some (sc, o))) := by
    show Host.Outcome.next (s.storeOp .gl w d (fun ln => s.me.vget64 ln a) (some (sc, o))) = _
    rw [me_of hi]
  rw [← releases_ordered sc o]
  refine ⟨fun t ho => ?order, fun ho => ⟨fun q hbad hw hq => ?behind, fun hbad hw hq => ?writes, fun hbad hw => ?waits, fun hbad => ?traps⟩⟩
  case order => exact hexec.trans (congrArg Host.Outcome.next (storeOp_order ho d))
  case behind => exact hexec.trans (congrArg Host.Outcome.next (storeOp_behind hi ho rfl hbad hw d hq))
  case waits => exact hexec.trans (congrArg Host.Outcome.next (storeOp_waits hi ho rfl hbad d hw))
  case traps =>
    obtain ⟨cause, lanes, x, hwin, htrap⟩ := storeOp_traps hi ho rfl d hbad
    exact ⟨cause, lanes, x, hwin, hexec.trans (congrArg Host.Outcome.next htrap)⟩
  case writes =>
    have hchecked := onlyCaches_issuing (checked_onlyCaches rfl hbad) hi
    have hreleased : ∃ g, (if o = .rel then c.2.releaseAt reach else c.2).Issuing i g ∧
        ({ g with slice := h.slice, peerDirty := h.peerDirty } : Sheaf) = h := by
      split
      · obtain ⟨p, hp⟩ := releaseAt_issuing hchecked reach
        exact ⟨_, hp, rfl⟩
      · exact ⟨h, hchecked, rfl⟩
    obtain ⟨g, hg, hframe⟩ := hreleased
    obtain ⟨h', hsheaf, hmoved, hrest, -⟩ := writeLanes_retire hg hframe (fun l => h.storeBytes w l d) (reach == 6) c.1.ok
    refine ⟨_, h', hexec.trans (congrArg Host.Outcome.next (storeOp_writes hi ho rfl hbad hw d hq)), ?_, ?_, hmoved, hrest⟩
    · simp only [releases_ordered, beq_iff_eq]
      rfl
    · simp only [releases_ordered, beq_iff_eq]
      exact hsheaf

end Sys2Proof.Machine
end

section
/-! SUPPORT. Loads: what holds one back, its pending destination, and the acquire of an ordered one (R130/05, R207, R210/10, R235/11, R306,
R309/15). Settles O26. -/

namespace Sys2Proof.Machine

variable {s u : State} {i : Issue} {h g : Sheaf}

/-! ### The checks of a load -/

theorem loadChecks_issuing (hi : s.Issuing i h) (space : Space) (size : Nat) (A : Nat → Dword) : (s.loadChecks space size A).2.Issuing i h := by
  unfold State.loadChecks
  split
  · exact hi
  · exact checkLanes_issuing hi .load space size A _

theorem onlyCaches_loadChecks (s : State) (space : Space) (size : Nat) (A : Nat → Dword)
    (hbad : ∀ f ∈ (s.loadChecks space size A).1.bad, f.cause ≠ .uncorr) : OnlyCaches s (s.loadChecks space size A).2 := by
  unfold State.loadChecks at hbad ⊢
  split
  · exact onlyCaches_refl s
  next hnone =>
    rw [hnone] at hbad
    exact onlyCaches_checkLanes s .load space size A (lanesOf s.active) hbad

/-! ### The acquire of a load -/

/-- The acquire of an ordered load, where it is one. -/
def State.acquired (u : State) (ordered : Option (Scope × Sys2Proof.Ordering)) (reach : Nat) : State :=
  match ordered with
  | some (_, .acq) => u.acquireAt reach
  | _ => u

/-- The machine but for cores: an acquire changes nothing else. -/
theorem acquired_cores (u : State) (ordered : Option (Scope × Sys2Proof.Ordering)) (reach : Nat) (C : Cells Core) :
    ({ u.acquired ordered reach with cores := C } : State) = { u with cores := C } := by
  unfold State.acquired State.acquireAt
  split
  · split <;> rfl
  · rfl

theorem acquired_issuing (hu : u.Issuing i h) (ordered : Option (Scope × Sys2Proof.Ordering)) (reach : Nat) :
    (u.acquired ordered reach).Issuing i h :=
  issuing_of_eq hu (congrArg State.cur (acquired_cores u ordered reach []) :) (congrArg State.sheaves (acquired_cores u ordered reach []) :)

theorem acquired_noGlLines (hu : u.Issuing i h) (sc : Scope) {reach : Nat} (hreach : 3 ≤ reach) :
    ((u.acquired (some (sc, .acq)) reach).core h.core).noGlLines := by
  show ((u.acquireAt reach).core h.core).noGlLines
  rw [State.acquireAt, if_pos hreach, me_of hu]
  exact l1Clear_noGlLines u h.core

/-! ### A load -/

/-- The destination that a load leaves pending, once its lanes have read. -/
def State.readPending (u : State) (i : Issue) (h : Sheaf) (space : Space) (w : Width) (d n : Nat) (A : Nat → Dword)
    (ordered : Option (Scope × Sys2Proof.Ordering)) (c : Checked) (vals : List (Nat × Nat × Word)) (id : Nat) : Pending :=
  { id := id, pc := i.pc, vals := vals, regs := (List.range (widthRegs w)).map fun k => h.wb + d + k, lanes := i.lanes, faults := c.bad
    again := some ⟨.illop, space, w, ordered, h.wb + d, c.bad.map fun f => ⟨f.lane, A f.lane⟩, i.pc⟩
    windows := windowsOf (lanesOf i.lanes) n, since := u.now, nearby := u.landsSoon h space w.bytes c }

theorem loadOp_order {space : Space} {t : State} (ho : s.orderWait? true false = some t) (w : Width) (d n : Nat) (A : Nat → Dword)
    (ordered : Option (Scope × Sys2Proof.Ordering)) : s.loadOp space w d n A ordered = t := by
  unfold State.loadOp
  rw [ho]

section
variable {space : Space} {w : Width} {A : Nat → Dword} {ordered : Option (Scope × Sys2Proof.Ordering)} {c : Checked × State}
  (hi : s.Issuing i h) (ho : s.orderWait? true false = none)
include hi ho

/-- A watched lane: the load traps before it reads. -/
theorem loadOp_watched (d n : Nat) (hwatch : s.watchLanes .load space w.bytes A ≠ []) :
    ∃ cause lanes a, winning (s.watchLanes .load space w.bytes A) = some (cause, lanes, a) ∧
      s.loadOp space w d n A ordered = s.takeTrap i.sheaf cause 0 a lanes i.pc none := by
  obtain ⟨cause, lanes, a, hwin, htrap⟩ := trapLanes_of_cur hi.1 hwatch
  refine ⟨cause, lanes, a, hwin, ?_⟩
  unfold State.loadOp
  rw [ho, htrap]

variable (hwatch : s.watchLanes .load space w.bytes A = []) (hc : c = s.loadChecks space w.bytes A)
include hwatch hc

/-- Once nothing holds it back, a load is its checks and what follows from them. -/
theorem loadOp_eq (d n : Nat) {v : List (Nat × Nat × Word) × State}
    (hv : v = c.2.readLanes w.bytes (h.wb + d) ⟨decide (3 ≤ s.reachOf h ordered), s.reachOf h ordered == 6⟩ c.1.ok) (hu : v.2.Issuing i h) :
    s.loadOp space w d n A ordered = match c.2.localWait? space w.bytes A c.1.ok false with
      | some t => t
      | none => ((v.2.acquired ordered (s.reachOf h ordered)).addPending
          ((v.2.acquired ordered (s.reachOf h ordered)).readPending i h space w d n A ordered c.1 v.1)).retire := by
  have hacquired := acquired_issuing hu ordered (s.reachOf h ordered)
  rw [funext fun id => show (v.2.acquired ordered (s.reachOf h ordered)).readPending i h space w d n A ordered c.1 v.1 id =
    { id := id, pc := (v.2.acquired ordered (s.reachOf h ordered)).issuePc, vals := v.1
      regs := (List.range (widthRegs w)).map fun k => h.wb + d + k, lanes := (v.2.acquired ordered (s.reachOf h ordered)).active, faults := c.1.bad
      again := some ⟨.illop, space, w, ordered, h.wb + d, c.1.bad.map fun f => ⟨f.lane, A f.lane⟩,
        (v.2.acquired ordered (s.reachOf h ordered)).issuePc⟩
      windows := windowsOf (lanesOf (v.2.acquired ordered (s.reachOf h ordered)).active) n
      since := (v.2.acquired ordered (s.reachOf h ordered)).now
      nearby := (v.2.acquired ordered (s.reachOf h ordered)).landsSoon h space w.bytes c.1 } by
        rw [active_of hacquired, issuePc_of hacquired]; rfl]
  subst hv hc
  unfold State.loadOp
  rw [ho, hwatch, trapLanes_nil, me_of hi]
  rfl

/-- A load that meets a remote store of its lane waits. -/
theorem loadOp_waits (d n : Nat) (hw : c.2.meetsRemote h.id c.1.ok w.bytes = true) : s.loadOp space w d n A ordered = c.2.stallMe := by
  have hchecked : c.2.Issuing i h := hc ▸ loadChecks_issuing hi space w.bytes A
  rw [loadOp_eq hi ho hwatch hc d n rfl (onlyCaches_issuing (onlyCaches_readLanes _ _ _ _ _) hchecked),
    localWait_of_waits hchecked (by rw [hw]; rfl)]

variable (hw : c.2.meetsRemote h.id c.1.ok w.bytes = false)
include hw

/-- A load that meets what a faulted load has still to read waits for that load. -/
theorem loadOp_behind (d n : Nat) {q : Pending} (hq : c.2.behindLoad space w.bytes A (c.1.ok.map fun y => y.1) = some q) :
    s.loadOp space w d n A ordered = c.2.dependOnFault q := by
  have hchecked : c.2.Issuing i h := hc ▸ loadChecks_issuing hi space w.bytes A
  rw [loadOp_eq hi ho hwatch hc d n rfl (onlyCaches_issuing (onlyCaches_readLanes _ _ _ _ _) hchecked),
    localWait_of_free hchecked (by rw [hw]; rfl), hq, Option.map_some]

/-- Else its data is pending, after the acquire of an ordered one. -/
theorem loadOp_reads (d n : Nat) (hq : c.2.behindLoad space w.bytes A (c.1.ok.map fun y => y.1) = none) {v : List (Nat × Nat × Word) × State}
    (hv : v = c.2.readLanes w.bytes (h.wb + d) ⟨decide (3 ≤ s.reachOf h ordered), s.reachOf h ordered == 6⟩ c.1.ok) :
    s.loadOp space w d n A ordered = ((v.2.acquired ordered (s.reachOf h ordered)).addPending
      ((v.2.acquired ordered (s.reachOf h ordered)).readPending i h space w d n A ordered c.1 v.1)).retire := by
  have hchecked : c.2.Issuing i h := hc ▸ loadChecks_issuing hi space w.bytes A
  have hread : v.2.Issuing i h := hv ▸ onlyCaches_issuing (onlyCaches_readLanes _ _ _ _ _) hchecked
  rw [loadOp_eq hi ho hwatch hc d n hv hread, localWait_of_free hchecked (by rw [hw]; rfl), hq, Option.map_none]

end

/-- Whether a load lands soon is no matter of caches. -/
theorem onlyCaches_landsSoon (ho : OnlyCaches s u) (h : Sheaf) (space : Space) (size : Nat) (c : Checked) :
    u.landsSoon h space size c = s.landsSoon h space size c := by
  have hcur : u.cur = s.cur := (congrArg State.cur ho.1 :)
  have hteams : u.teams = s.teams := (congrArg State.teams ho.1 :)
  have hresident : u.wordResident h = s.wordResident h := by
    funext x
    unfold State.wordResident State.team?
    rw [hteams]
  unfold State.landsSoon
  rw [hcur, hresident]

/-- A pending destination added after an acquire, and the issue retired. -/
theorem acquired_addPending_retire (hcaches : OnlyCaches s u) (hu : u.Issuing i h) (sc : Scope) (o : Sys2Proof.Ordering) (reach : Nat)
    (p : Nat → Pending) {t : State} (ht : t = ((u.acquired (some (sc, o)) reach).addPending p).retire) :
    ∃ h', t.sheaf? i.sheaf = some h' ∧ Moved i h h' ∧ AddsPending (p s.nextId) {} h h' ∧
      (o = .acq → 3 ≤ reach → (t.core h.core).noGlLines) ∧
      ({ t with sheaves := s.sheaves, cores := s.cores, fields := s.fields, l2peer := s.l2peer, choices := s.choices
                nextId := s.nextId } : State) = s := by
  have hcores := acquired_cores u (some (sc, o)) reach
  have hkept : (u.acquired (some (sc, o)) reach).nextId = u.nextId := (congrArg State.nextId (hcores []) :)
  have hnext : (u.acquired (some (sc, o)) reach).nextId = s.nextId := hkept.trans (onlyCaches_nextId hcaches)
  obtain ⟨h', ⟨hsheaf, hsame, hmoved, -⟩, hadds⟩ := addPending_retire (acquired_issuing hu (some (sc, o)) reach) p
  rw [← ht] at hsheaf hsame
  rw [hnext] at hadds
  refine ⟨h', hsheaf, hmoved, hadds, fun ho hreach => ?_, ?_⟩
  · have hcore : t.core h.core = (u.acquired (some (sc, o)) reach).core h.core := by
      unfold State.core
      rw [sameBut_cores hsame]
    subst ho
    rw [hcore]
    exact acquired_noGlLines hu sc hreach
  · calc ({ t with sheaves := s.sheaves, cores := s.cores, fields := s.fields, l2peer := s.l2peer, choices := s.choices
                   nextId := s.nextId } : State)
        = { u.acquired (some (sc, o)) reach with sheaves := s.sheaves, cores := s.cores, fields := s.fields, l2peer := s.l2peer
                                                 choices := s.choices, nextId := s.nextId } :=
          (congrArg (fun x : State => ({ x with sheaves := s.sheaves, cores := s.cores, fields := s.fields, l2peer := s.l2peer
                                                choices := s.choices, nextId := s.nextId } : State)) hsame.1 :)
      _ = { u with sheaves := s.sheaves, cores := s.cores, fields := s.fields, l2peer := s.l2peer, choices := s.choices, nextId := s.nextId } :=
          (congrArg (fun x : State => ({ x with sheaves := s.sheaves, fields := s.fields, l2peer := s.l2peer
                                                choices := s.choices, nextId := s.nextId } : State)) (hcores s.cores) :)
      _ = s := (congrArg (fun x : State => ({ x with sheaves := s.sheaves, nextId := s.nextId } : State)) hcaches.1 :)

/-- Settles O26: a load is its checks, its waits, and one pending destination. -/
theorem loads : Obligations.Loads := by
  unfold Obligations.Loads
  refine ⟨fun s i h d b n w x hi p hp => ?plain, fun s i h d a n w sc o hi => ?ordered⟩
  case plain =>
    have hexec : exec p.1 s = .next (s.loadOp p.2 w d n (h.ea b x w.bytes) none) := by
      rw [← ea_of hi]
      fin_cases hp <;> rfl
    refine ⟨fun t ho => ?order, fun ho => ⟨fun hwatch => ?watched, fun hwatch hw => ?waits, fun q hwatch hw hq => ?behind,
      fun hwatch hbad hw hq => ?reads⟩⟩
    case order => exact hexec.trans (congrArg Host.Outcome.next (loadOp_order ho w d n _ _))
    case watched =>
      obtain ⟨cause, lanes, a, hwin, htrap⟩ := loadOp_watched (ordered := none) hi ho d n hwatch
      exact ⟨cause, lanes, a, hwin, hexec.trans (congrArg Host.Outcome.next htrap)⟩
    case waits => exact hexec.trans (congrArg Host.Outcome.next (loadOp_waits (ordered := none) hi ho hwatch rfl d n hw))
    case behind => exact hexec.trans (congrArg Host.Outcome.next (loadOp_behind (ordered := none) hi ho hwatch rfl hw d n hq))
    case reads =>
      have hchecks := onlyCaches_loadChecks s p.2 w.bytes (h.ea b x w.bytes) hbad
      have hread := onlyCaches_readLanes (s.loadChecks p.2 w.bytes (h.ea b x w.bytes)).2 w.bytes (h.wb + d) {}
        (s.loadChecks p.2 w.bytes (h.ea b x w.bytes)).1.ok
      have hcaches := onlyCaches_trans hchecks hread
      have hload := loadOp_reads (ordered := none) hi ho hwatch rfl hw d n hq rfl
      obtain ⟨h', hdone, hadds⟩ := addPending_retire (onlyCaches_issuing hcaches hi)
        (((s.loadChecks p.2 w.bytes (h.ea b x w.bytes)).2.readLanes w.bytes (h.wb + d) {}
          (s.loadChecks p.2 w.bytes (h.ea b x w.bytes)).1.ok).2.readPending i h p.2 w d n (h.ea b x w.bytes) none
          (s.loadChecks p.2 w.bytes (h.ea b x w.bytes)).1 ((s.loadChecks p.2 w.bytes (h.ea b x w.bytes)).2.readLanes w.bytes (h.wb + d) {}
            (s.loadChecks p.2 w.bytes (h.ea b x w.bytes)).1.ok).1)
      rw [onlyCaches_nextId hcaches] at hdone hadds
      exact ⟨_, h', _, hexec.trans (congrArg Host.Outcome.next hload), hdone, hcaches, hadds, rfl, rfl, rfl, rfl, rfl, rfl, rfl,
        onlyCaches_landsSoon hread h p.2 w.bytes _⟩
  case ordered =>
    have hexec : exec (.ldGlOrdered d a sc o w n) s = .next (s.loadOp .gl w d n (fun l => h.vget64 l a) (some (sc, o))) := by
      show Host.Outcome.next (s.loadOp .gl w d n (fun ln => s.me.vget64 ln a) (some (sc, o))) = _
      rw [me_of hi]
    refine ⟨fun t ho => ?orders, fun ho hwatch hbad hw hq => ?reads⟩
    case orders => exact hexec.trans (congrArg Host.Outcome.next (loadOp_order ho w d n _ _))
    case reads =>
      have hcaches := onlyCaches_trans (onlyCaches_loadChecks s .gl w.bytes (fun l => h.vget64 l a) hbad)
        (onlyCaches_readLanes (s.loadChecks .gl w.bytes (fun l => h.vget64 l a)).2 w.bytes (h.wb + d)
          ⟨decide (3 ≤ s.reach h sc none), s.reach h sc none == 6⟩ (s.loadChecks .gl w.bytes (fun l => h.vget64 l a)).1.ok)
      have hload := loadOp_reads (ordered := some (sc, o)) hi ho hwatch rfl hw d n hq rfl
      obtain ⟨h', hsheaf, hmoved, hadds, hclear, hframe⟩ := acquired_addPending_retire hcaches (onlyCaches_issuing hcaches hi) sc o
        (s.reach h sc none) _ rfl
      exact ⟨_, h', _, hexec.trans (congrArg Host.Outcome.next hload), hsheaf, hmoved, hadds, rfl, rfl, rfl, rfl, hclear, hframe⟩

end Sys2Proof.Machine
end

section
/-! SUPPORT. Prefetches, cache control, fences and `icinv`: what each changes beside caches, and what of the sheaf stays (R130/05, R311, R312, R316,
R318/15). Settles O32. -/

namespace Sys2Proof.Machine

variable {s u : State} {i : Issue} {h g : Sheaf}

/-! ### Prefetches (R311/15) -/

theorem onlyCaches_prefetchLanes (s : State) (size : Nat) (A : Nat → Dword) (ls : List Nat) : OnlyCaches s (s.prefetchLanes size A ls) := by
  induction ls generalizing s with
  | nil => exact onlyCaches_refl s
  | cons l ls ih =>
    have hr := onlyCaches_resolve s s.me .load .gl (A l) size l
    unfold State.prefetchLanes
    generalize s.resolve s.me .load .gl (A l) size l = r at hr
    split
    next va hpa u => exact onlyCaches_trans hr (onlyCaches_trans (onlyCaches_l1Read u u.me.core u.me.ctx u.me.rev va hpa 1) (ih _))
    next u _ => exact onlyCaches_trans hr (ih _)

/-! ### Cache control (R312/15) -/

/-- The machine but for memory and caches. -/
def State.butCached (s : State) : State := { s with cores := [], fields := [], mem := [], l2peer := [], choices := 0 }

theorem butCached_of_onlyCaches (ho : OnlyCaches s u) : u.butCached = s.butCached := (congrArg State.butCached ho.1 :)

theorem butCached_issuing (hs : u.butCached = s.butCached) (hi : s.Issuing i h) : u.Issuing i h :=
  issuing_of_eq hi (congrArg State.cur hs :) (congrArg State.sheaves hs :)

theorem peerWriteBack_butCached (s : State) (line : Nat) : (s.peerWriteBack line).butCached = s.butCached := by
  unfold State.peerWriteBack
  split <;> rfl

theorem cctlLine_butCached (s : State) (op : Cctl) (core line : Nat) : (s.cctlLine op core line).butCached = s.butCached := by
  cases op with
  | wb => exact peerWriteBack_butCached s line
  | inv => rfl
  | wbinv => exact peerWriteBack_butCached s line

/-- The line of one lane that passed its checks. -/
def State.cctlLane (s : State) (op : Cctl) (x : Nat × Target) : State :=
  match x.2 with
  | .host (some _) hpa => s.cctlLine op s.me.core (lineOf hpa)
  | _ => s

theorem cctlLane_butCached (s : State) (op : Cctl) (x : Nat × Target) : (s.cctlLane op x).butCached = s.butCached := by
  unfold State.cctlLane
  split
  · exact cctlLine_butCached s op _ _
  · rfl

theorem cctlOp_order {op : Cctl} {A : Nat → Dword} {t : State} (ho : s.orderWait? true false = some t) : s.cctlOp op A = t := by
  unfold State.cctlOp
  rw [ho]

section
variable {op : Cctl} {A : Nat → Dword} {c : Checked × State} (hi : s.Issuing i h) (ho : s.orderWait? true false = none)
  (hc : c = s.checkLanes .load .gl 1 A (lanesOf i.lanes))
include hi ho hc

/-- Once nothing holds it back, a cache operation is its checks and what follows from them. -/
theorem cctlOp_eq : s.cctlOp op A =
    match c.2.trapLanes (c.1.bad ++ c.2.watchLanes .load .gl 1 A) with
    | some t => t
    | none =>
      match c.2.localWait? .gl 128 (fun l => A l &&& ~~~127) (c.1.ok.map fun x => (x.1, x.2.line)) false with
      | some t => t
      | none => (c.1.ok.foldl (fun s x => s.cctlLane op x) c.2).retire := by
  subst hc
  unfold State.cctlOp
  rw [active_of hi, ho]
  rfl

theorem cctlOp_traps (hbad : c.1.bad ++ c.2.watchLanes .load .gl 1 A ≠ []) :
    ∃ cause lanes a, winning (c.1.bad ++ c.2.watchLanes .load .gl 1 A) = some (cause, lanes, a) ∧
      s.cctlOp op A = c.2.takeTrap i.sheaf cause 0 a lanes i.pc none := by
  have hchecked : c.2.Issuing i h := hc ▸ checkLanes_issuing hi .load .gl 1 A _
  obtain ⟨cause, lanes, a, hwin, htrap⟩ := trapLanes_of_cur hchecked.1 hbad
  exact ⟨cause, lanes, a, hwin, by rw [cctlOp_eq hi ho hc, htrap]⟩

variable (hbad : c.1.bad ++ c.2.watchLanes .load .gl 1 A = [])
include hbad

theorem cctlOp_waits (hw : c.2.meetsRemote h.id (c.1.ok.map fun x => (x.1, x.2.line)) 128 = true) : s.cctlOp op A = c.2.stallMe := by
  have hchecked : c.2.Issuing i h := hc ▸ checkLanes_issuing hi .load .gl 1 A _
  rw [cctlOp_eq hi ho hc, hbad, trapLanes_nil, localWait_of_waits hchecked (by rw [hw]; rfl)]

variable (hw : c.2.meetsRemote h.id (c.1.ok.map fun x => (x.1, x.2.line)) 128 = false)
include hw

theorem cctlOp_behind {q : Pending} (hq : c.2.behindLoad .gl 128 (fun l => A l &&& ~~~127) (c.1.ok.map fun y => y.1) = some q) :
    s.cctlOp op A = c.2.dependOnFault q := by
  have hchecked : c.2.Issuing i h := hc ▸ checkLanes_issuing hi .load .gl 1 A _
  rw [cctlOp_eq hi ho hc, hbad, trapLanes_nil, localWait_of_free hchecked (by rw [hw]; rfl), List.map_map]
  exact congrArg (fun o : Option Pending => match o.map c.2.dependOnFault with
    | some t => t
    | none => (c.1.ok.foldl (fun (s : State) x => s.cctlLane op x) c.2).retire) hq

theorem cctlOp_acts (hq : c.2.behindLoad .gl 128 (fun l => A l &&& ~~~127) (c.1.ok.map fun y => y.1) = none) :
    s.cctlOp op A = (c.1.ok.foldl (fun s x => s.cctlLane op x) c.2).retire := by
  have hchecked : c.2.Issuing i h := hc ▸ checkLanes_issuing hi .load .gl 1 A _
  rw [cctlOp_eq hi ho hc, hbad, trapLanes_nil, localWait_of_free hchecked (by rw [hw]; rfl), List.map_map]
  exact congrArg (fun o : Option Pending => match o.map c.2.dependOnFault with
    | some t => t
    | none => (c.1.ok.foldl (fun (s : State) x => s.cctlLane op x) c.2).retire) hq

end

/-- A state that differs in memory and caches alone retires the issue. -/
theorem butCached_retire (hi : s.Issuing i h) (hs : u.butCached = s.butCached) :
    ∃ h', u.retire.sheaf? i.sheaf = some h' ∧ Moved i h h' ∧ OnlyLanes h h' ∧
      ({ u.retire with sheaves := s.sheaves, cores := s.cores, fields := s.fields, mem := s.mem, l2peer := s.l2peer
                       choices := s.choices } : State) = s := by
  obtain ⟨h', ⟨hsheaf, hsame, hmoved, -⟩, honly⟩ := retire_onlyLanes (butCached_issuing hs hi)
  have hstate : ({ u.retire with sheaves := s.sheaves } : State).butCached = ({ s with sheaves := s.sheaves } : State).butCached :=
    (congrArg (fun x : State => ({ x with sheaves := s.sheaves } : State).butCached) hsame.1 :).trans
      (congrArg (fun x : State => ({ x with sheaves := s.sheaves } : State)) hs :)
  exact ⟨h', hsheaf, hmoved, honly, (congrArg (fun x : State => ({ x with cores := s.cores, fields := s.fields, mem := s.mem
                                                                          l2peer := s.l2peer, choices := s.choices } : State)) hstate :)⟩

/-! ### Fences (R316/15) -/

/-- The machine but for memory and the copies of peer lines. -/
def State.butPeers (s : State) : State := { s with mem := [], l2peer := [] }

theorem writeBackPeer_butPeers {line : Nat} (hup : s.peersDown.contains (moduleOf line) = false) : (s.writeBackPeer line).butPeers = s.butPeers := by
  unfold State.writeBackPeer State.peerWriteBack
  rw [hup, if_neg Bool.false_ne_true]
  split <;> rfl

/-- Lines of modules that are up are written back, and nothing else changes. -/
theorem writeBackPeers_butPeers (ls : List Nat) (s : State) (hup : ∀ y ∈ ls, s.peersDown.contains (moduleOf y) = false) :
    (ls.foldl (fun s l => s.writeBackPeer l) s).butPeers = s.butPeers := by
  induction ls generalizing s with
  | nil => rfl
  | cons y ls ih =>
    have hfirst := writeBackPeer_butPeers (hup y List.mem_cons_self)
    have hdown : (s.writeBackPeer y).peersDown = s.peersDown := (congrArg State.peersDown hfirst :)
    rw [List.foldl_cons, ih _ fun z hz => by rw [hdown]; exact hup z (List.mem_cons_of_mem _ hz)]
    exact hfirst

/-- A release with no line to write back to a module that is down. -/
theorem releaseAt_butPeers (hi : s.Issuing i h) (reach : Nat) (hup : reach = 6 → ∀ y ∈ h.peerDirty, s.peersDown.contains (moduleOf y) = false) :
    ({ s.releaseAt reach with sheaves := [] } : State).butPeers = ({ s with sheaves := [] } : State).butPeers := by
  unfold State.releaseAt
  split
  next hsys =>
    have hback := writeBackPeers_butPeers h.peerDirty s (hup hsys)
    have hissue : (h.peerDirty.foldl (fun s l => s.writeBackPeer l) s).cur = some i := ((congrArg State.cur hback :) : _ = s.cur).trans hi.1
    rw [me_of hi]
    unfold State.modMe
    rw [hissue]
    exact (congrArg (fun x : State => ({ x with sheaves := [] } : State)) hback :)
  · rfl

/-- What a fence that is not `.sc` does before its lanes move on. -/
def State.fenceActs (s : State) (o : Sys2Proof.Ordering) (reach : Nat) : State :=
  if o = .rel then (if o = .acq then s else s.releaseAt reach) else (if o = .acq then s else s.releaseAt reach).acquireAt reach

theorem exec_fence_order {sc : Scope} {o : Sys2Proof.Ordering} {t : State} (ho : s.orderWait? (!(o == .sc)) true = some t) :
    exec (.fence sc o) s = .next t := by
  show execFence sc o s = _
  unfold execFence
  simp only [ho]

theorem exec_fence (hi : s.Issuing i h) {sc : Scope} {o : Sys2Proof.Ordering} (hne : o ≠ .sc) (ho : s.orderWait? true true = none) :
    exec (.fence sc o) s = .next (s.fenceActs o (s.reach h sc none)).retire := by
  have ho' : s.orderWait? (!(o == .sc)) true = none := by
    rw [show (!(o == .sc)) = true by simp [hne]]
    exact ho
  show execFence sc o s = _
  unfold execFence
  rw [me_of hi]
  simp only [ho', if_neg hne]
  unfold State.fenceActs
  split <;> rfl

/-- The requests of a fence in the sequencer. -/
def State.fenceRequests (s : State) (i : Issue) (h : Sheaf) (sc : Scope) : List SeqReq :=
  (lanesOf i.lanes).map fun l =>
    { core := h.core, sheaf := h.id, lane := l, rev := h.rev, wide := decide (3 ≤ s.reach h sc none), sys := s.reach h sc none == 6 }

theorem exec_fence_sc (hi : s.Issuing i h) {sc : Scope} (ho : s.orderWait? false true = none) :
    exec (.fence sc .sc) s = .next ({ s with seqQ := s.seqQ ++ s.fenceRequests i h sc } : State).retire := by
  show execFence sc .sc s = _
  unfold execFence
  rw [me_of hi, active_of hi]
  simp only [beq_self_eq_true, Bool.not_true, ho, if_true]
  rfl

theorem acquireAt_cores (u : State) (reach : Nat) (C : Cells Core) : ({ u.acquireAt reach with cores := C } : State) = { u with cores := C } := by
  unfold State.acquireAt
  split <;> rfl

theorem acquireAt_issuing (hu : u.Issuing i g) (reach : Nat) : (u.acquireAt reach).Issuing i g :=
  issuing_of_eq hu (congrArg State.cur (acquireAt_cores u reach []) :) (congrArg State.sheaves (acquireAt_cores u reach []) :)

theorem acquireAt_noGlLines (hu : u.Issuing i g) {reach : Nat} (hreach : 3 ≤ reach) : ((u.acquireAt reach).core g.core).noGlLines := by
  rw [State.acquireAt, if_pos hreach, me_of hu]
  exact l1Clear_noGlLines u g.core

/-- The release of a fence, if it is one. -/
theorem fenceRelease_issuing (hi : s.Issuing i h) (o : Sys2Proof.Ordering) (reach : Nat) :
    ∃ p, (if o = .acq then s else s.releaseAt reach).Issuing i { h with peerDirty := p } := by
  split
  · exact ⟨_, hi⟩
  · exact releaseAt_issuing hi reach

theorem fenceActs_issuing (hi : s.Issuing i h) (o : Sys2Proof.Ordering) (reach : Nat) :
    ∃ p, (s.fenceActs o reach).Issuing i { h with peerDirty := p } ∧
      (o ≠ .rel → 3 ≤ reach → ((s.fenceActs o reach).core h.core).noGlLines) := by
  obtain ⟨p, hreleased⟩ := fenceRelease_issuing hi o reach
  unfold State.fenceActs
  split
  next hrel => exact ⟨p, hreleased, fun hne => absurd hrel hne⟩
  · exact ⟨p, acquireAt_issuing hreleased reach, fun _ hreach => acquireAt_noGlLines hreleased hreach⟩

/-- The machine but for what a fence may change while no module it writes to is down. -/
def State.butFenced (s : State) : State := { s with sheaves := [], cores := [], mem := [], l2peer := [] }

theorem fenceActs_butFenced (hi : s.Issuing i h) (o : Sys2Proof.Ordering) (reach : Nat)
    (hup : reach = 6 → o ≠ .acq → ∀ y ∈ h.peerDirty, s.peersDown.contains (moduleOf y) = false) :
    (s.fenceActs o reach).butFenced = s.butFenced := by
  have hreleased : (if o = .acq then s else s.releaseAt reach).butFenced = s.butFenced := by
    split
    · rfl
    next hne => exact (congrArg (fun x : State => ({ x with cores := [] } : State)) (releaseAt_butPeers hi reach fun hsys => hup hsys hne) :)
  unfold State.fenceActs
  split
  · exact hreleased
  · exact ((congrArg State.butFenced (acquireAt_cores _ reach []) :) : _ = (if o = .acq then s else s.releaseAt reach).butFenced).trans hreleased

/-! ### `icinv` (R318/15) -/

/-- A sheaf on a core whose instruction caches are emptied: its loop buffer and the words of its windows go. -/
def Sheaf.emptied (cs : List Nat) (h : Sheaf) : Sheaf :=
  if cs.contains h.core then { h with loopBuf := [], lanes := h.lanes.map fun ln : Lane => { ln with winWords := [] } } else h

theorem exec_icinv_order {sc : Scope} {t : State} (ho : s.orderWait? true true = some t) : exec (.icinv sc) s = .next t := by
  show execIcinv sc s = _
  unfold execIcinv
  rw [ho]

theorem exec_icinv (hi : s.Issuing i h) {sc : Scope} (ho : s.orderWait? true true = none) :
    exec (.icinv sc) s = .next (s.icinvOn (s.icinvCores h sc)).retire := by
  show execIcinv sc s = _
  unfold execIcinv
  rw [ho, me_of hi]

/-- The instruction caches of some cores are emptied. -/
def State.emptyIcaches (s : State) (cs : List Nat) : State := cs.foldl (fun s c => s.modCore c fun k => { k with icache := [] }) s

theorem emptyIcaches_cores (s : State) (cs : List Nat) (C : Cells Core) : ({ s.emptyIcaches cs with cores := C } : State) = { s with cores := C } := by
  unfold State.emptyIcaches
  exact foldl_keep (fun (s : State) c => s.modCore c fun k => { k with icache := [] }) (fun u : State => ({ u with cores := C } : State))
    (fun _ _ => rfl) cs s

theorem emptyIcaches_icache (cs : List Nat) (s : State) (c : Nat) (hc : c ∈ cs ∨ (s.core c).icache = []) :
    ((s.emptyIcaches cs).core c).icache = [] := by
  induction cs generalizing s with
  | nil => exact hc.resolve_left List.not_mem_nil
  | cons k cs ih =>
    refine ih (s.modCore k fun k => { k with icache := [] }) ?_
    rw [core_modCore]
    by_cases hk : c = k
    · exact .inr (by rw [if_pos hk])
    · rw [if_neg hk]
      exact hc.imp_left fun hmem => (List.mem_cons.mp hmem).resolve_left hk

theorem icinvOn_issuing (hi : s.Issuing i h) (cs : List Nat) : (s.icinvOn cs).Issuing i (h.emptied cs) := by
  have hcur : (s.icinvOn cs).cur = s.cur := (congrArg State.cur (emptyIcaches_cores s cs []) :)
  have hsheaves : (s.icinvOn cs).sheaves = s.sheaves.map (Sheaf.emptied cs) :=
    congrArg (List.map (Sheaf.emptied cs)) (congrArg State.sheaves (emptyIcaches_cores s cs []) :)
  refine ⟨hcur.trans hi.1, ?_⟩
  have hid : ∀ x : Sheaf, (x.emptied cs).id = x.id := fun x => by
    unfold Sheaf.emptied
    split <;> rfl
  have hfound := find?_map_keep (Sheaf.emptied cs) (fun x => x.id == i.sheaf) (fun x => by rw [hid]) s.sheaves
  unfold State.sheaf?
  rw [hsheaves, hfound]
  exact congrArg (Option.map (Sheaf.emptied cs)) hi.2

/-! ### The words of a lane's window, as it moves on -/

theorem loopLevel_winWords (ln : Lane) (w : Vaddr) (k : Nat) : (ln.loopLevel w k).1.winWords = ln.winWords := by
  unfold Lane.loopLevel
  simp only
  split <;> rfl

theorem loopEnds_winWords (ln : Lane) (w : Vaddr) : (ln.loopEnds w).1.winWords = ln.winWords := by
  have hinner := loopLevel_winWords ln w 2
  unfold Lane.loopEnds
  generalize ln.loopLevel w 2 = inner at hinner
  obtain ⟨a, _ | _⟩ := inner
  · have hmiddle := loopLevel_winWords a w 1
    simp only
    generalize a.loopLevel w 1 = middle at hmiddle
    obtain ⟨b, _ | _⟩ := middle
    · exact (loopLevel_winWords b w 0).trans (hmiddle.trans hinner)
    · exact hmiddle.trans hinner
  · exact hinner

theorem pass_winWords {ln : Lane} (hn : ln.winWords = []) (w : Vaddr) (solo : Bool) : (ln.pass w solo).winWords = [] := by
  have hends := (loopEnds_winWords ln w).trans hn
  unfold Lane.pass
  generalize ln.loopEnds w = ends at hends
  obtain ⟨a, _ | t⟩ := ends
  · exact hends
  · simp only
    split
    · exact hends
    · unfold Lane.setWindow
      split
      · exact hends
      · rfl

/-- Lanes without window words that move past an instruction have none. -/
theorem moved_winWords {h' : Sheaf} (hm : Moved i g h') (hg : ∀ ln ∈ g.lanes, ln.winWords = []) : ∀ ln ∈ h'.lanes, ln.winWords = [] := by
  intro ln hln
  obtain ⟨l, hl, rfl⟩ := List.mem_iff_getElem.mp hln
  have hlen : l < g.lanes.length := hm.1 ▸ hl
  have hlane : h'.lanes[l] = h'.lane l := by simp [Sheaf.lane, hl]
  have hold : (g.lane l).winWords = [] := hg _ (by simp [Sheaf.lane, hlen])
  rw [hlane, hm.2 l hlen]
  split
  · exact pass_winWords hold _ _
  · exact hold

/-- Settles O32: each of the four by what it changes before its lanes move on. -/
theorem cacheAndFenceInstructions : Obligations.CacheAndFenceInstructions := by
  unfold Obligations.CacheAndFenceInstructions
  refine fun s i h b n w x sc o hi => ⟨?prefetch, fun ins hins => ?cctl, fun t ho => exec_fence_order ho, fun hne ho => ?fence, fun ho => ?fenceSc,
    fun t ho => exec_icinv_order ho, fun ho => ?icinv⟩
  case prefetch =>
    have hcaches := onlyCaches_prefetchLanes s w.bytes (s.ea b x w.bytes) (lanesOf s.active)
    obtain ⟨h', hdone, honly⟩ := retire_onlyLanes (onlyCaches_issuing hcaches hi)
    exact ⟨_, h', _, rfl, hcaches, hdone, honly⟩
  case cctl =>
    have hexec : ∃ op, exec ins s = .next (s.cctlOp op (s.ea b x 1)) := by fin_cases hins <;> exact ⟨_, rfl⟩
    obtain ⟨op, hexec⟩ := hexec
    refine ⟨fun t ho => ?order, fun ho => ⟨fun q hbad hw hq => ?behind, fun hbad hw hq => ?acts, fun hbad hw => ?waits, fun hbad => ?traps⟩⟩
    case order => exact hexec.trans (congrArg Host.Outcome.next (cctlOp_order ho))
    case behind => exact hexec.trans (congrArg Host.Outcome.next (cctlOp_behind hi ho rfl hbad hw hq))
    case waits => exact hexec.trans (congrArg Host.Outcome.next (cctlOp_waits hi ho rfl hbad hw))
    case traps =>
      obtain ⟨cause, lanes, a, hwin, htrap⟩ := cctlOp_traps hi ho rfl hbad
      exact ⟨cause, lanes, a, hwin, hexec.trans (congrArg Host.Outcome.next htrap)⟩
    case acts =>
      have hchecks := onlyCaches_checkLanes s .load .gl 1 (s.ea b x 1) (lanesOf i.lanes) fun f hf => by
        rw [(List.append_eq_nil_iff.mp hbad).1] at hf
        cases hf
      have hstate := (foldl_keep (fun (s : State) x => s.cctlLane op x) State.butCached (fun _ _ => cctlLane_butCached _ _ _)
        (s.checkLanes .load .gl 1 (s.ea b x 1) (lanesOf i.lanes)).1.ok (s.checkLanes .load .gl 1 (s.ea b x 1) (lanesOf i.lanes)).2).trans
          (butCached_of_onlyCaches hchecks)
      obtain ⟨h', hretired⟩ := butCached_retire hi hstate
      exact ⟨_, h', hexec.trans (congrArg Host.Outcome.next (cctlOp_acts hi ho rfl hbad hw hq)), hretired⟩
  case fence =>
    obtain ⟨p, hacts, hclear⟩ := fenceActs_issuing hi o (s.reach h sc none)
    obtain ⟨h', ⟨hsheaf, hsame, hmoved, -⟩, honly⟩ := retire_onlyLanes hacts
    have hdirty : h'.peerDirty = p := (congrArg Sheaf.peerDirty honly :)
    refine ⟨_, h', exec_fence hi hne ho, hsheaf, hmoved, by rw [hdirty]; exact honly, fun hrel hreach => ?_, fun hup => ?_⟩
    · have hcore : (s.fenceActs o (s.reach h sc none)).retire.core h.core = (s.fenceActs o (s.reach h sc none)).core h.core := by
        unfold State.core
        rw [sameBut_cores hsame]
      rw [hcore]
      exact hclear hrel hreach
    · have hstate := ((congrArg State.butFenced hsame.1 :) : _ = (s.fenceActs o (s.reach h sc none)).butFenced).trans
        (fenceActs_butFenced hi o (s.reach h sc none) hup)
      exact (congrArg (fun x : State => ({ x with sheaves := s.sheaves, cores := s.cores, mem := s.mem, l2peer := s.l2peer } : State)) hstate :)
  case fenceSc =>
    have hqueued : ({ s with seqQ := s.seqQ ++ s.fenceRequests i h sc } : State).Issuing i h := issuing_of_eq hi rfl rfl
    obtain ⟨h', hdone, honly⟩ := retire_onlyLanes hqueued
    have hqueue : ({ s with seqQ := s.seqQ ++ s.fenceRequests i h sc } : State).retire.seqQ = s.seqQ ++ s.fenceRequests i h sc :=
      (congrArg State.seqQ hdone.2.1.1 :)
    refine ⟨_, h', exec_fence_sc hi ho, by rw [hqueue]; exact hdone, honly, ?_⟩
    rw [hqueue, List.map_append, State.fenceRequests, List.map_map]
    rfl
  case icinv =>
    have hemptied := icinvOn_issuing hi (s.icinvCores h sc)
    have hkept := emptyIcaches_cores s (s.icinvCores h sc) s.cores
    obtain ⟨h', ⟨hsheaf, hsame, hmoved, -⟩, honly⟩ := retire_onlyLanes hemptied
    have hregisters : (h.emptied (s.icinvCores h sc)).s = h.s ∧ (h.emptied (s.icinvCores h sc)).v = h.v ∧
        (h.emptied (s.icinvCores h sc)).p = h.p := by
      unfold Sheaf.emptied
      split <;> exact ⟨rfl, rfl, rfl⟩
    refine ⟨_, h', exec_icinv hi ho, hsheaf, hmoved, honly, fun c hc => ?_, fun hcore => ⟨?_, ?_⟩, (congrArg Sheaf.s honly :).trans hregisters.1,
      (congrArg Sheaf.v honly :).trans hregisters.2.1, (congrArg Sheaf.p honly :).trans hregisters.2.2, ?_⟩
    · have hicache := emptyIcaches_icache (s.icinvCores h sc) s c (.inl hc)
      have hcore : (s.icinvOn (s.icinvCores h sc)).retire.core c = (s.emptyIcaches (s.icinvCores h sc)).core c := by
        unfold State.core
        rw [sameBut_cores hsame]
        rfl
      rw [hcore]
      exact hicache
    · have hloop : h'.loopBuf = (h.emptied (s.icinvCores h sc)).loopBuf := (congrArg Sheaf.loopBuf honly :)
      rw [hloop, Sheaf.emptied, if_pos hcore]
    · refine moved_winWords hmoved fun ln hln => ?_
      rw [Sheaf.emptied, if_pos hcore] at hln
      obtain ⟨_, -, rfl⟩ := List.mem_map.mp hln
      rfl
    · calc ({ (s.icinvOn (s.icinvCores h sc)).retire with sheaves := s.sheaves, cores := s.cores } : State)
          = { s.icinvOn (s.icinvCores h sc) with sheaves := s.sheaves, cores := s.cores } :=
            (congrArg (fun x : State => ({ x with sheaves := s.sheaves, cores := s.cores } : State)) hsame.1 :)
        _ = s := (congrArg (fun x : State => ({ x with sheaves := s.sheaves } : State)) hkept :)

end Sys2Proof.Machine
end

section
/-! SUPPORT. Atomics: the value written, what the lanes' operations leave, the pending result, and the requests of an `.sc` one (R204/09, R217/10,
R313 to R315/15). Settles O31. -/

namespace Sys2Proof.Machine

variable {s u v : State} {i : Issue} {h g : Sheaf}

/-! ### The lanes' operations -/

theorem atomAt_butWritten (s : State) (h : Sheaf) (o : AtomOp) (t : Target) (x cmp : Dword) : (s.atomAt h o t x cmp).2.butWritten = s.butWritten := by
  have hread := butWritten_of_onlyCaches (onlyCaches_readTarget s h t (atomSize o) ⟨true, false⟩)
  unfold State.atomAt
  generalize s.readTarget h t (atomSize o) ⟨true, false⟩ = r at hread
  simp only
  split
  · exact hread
  · exact (writeTarget_butWritten r.2 h t _ false).trans hread

theorem atomAt_issuing (hu : u.Issuing i g) (o : AtomOp) (t : Target) (x cmp : Dword) :
    ∃ g', (u.atomAt g o t x cmp).2.Issuing i g' ∧ ({ g' with slice := g.slice, peerDirty := g.peerDirty } : Sheaf) = g := by
  have hread := onlyCaches_issuing (onlyCaches_readTarget u g t (atomSize o) ⟨true, false⟩) hu
  unfold State.atomAt
  generalize u.readTarget g t (atomSize o) ⟨true, false⟩ = r at hread
  simp only
  split
  · exact ⟨g, hread, rfl⟩
  · exact writeTarget_issuing hread t _ false

theorem atomLanes_butWritten (o : AtomOp) (d : Nat) (ts : List (Nat × Target)) (s : State) : (s.atomLanes o d ts).2.butWritten = s.butWritten := by
  induction ts generalizing s with
  | nil => rfl
  | cons x ts ih =>
    unfold State.atomLanes
    exact (ih _).trans (atomAt_butWritten s s.me o x.2 _ _)

theorem atomLanes_issuing (hu : u.Issuing i g) (o : AtomOp) (d : Nat) (ts : List (Nat × Target)) :
    ∃ g', (u.atomLanes o d ts).2.Issuing i g' ∧ ({ g' with slice := g.slice, peerDirty := g.peerDirty } : Sheaf) = g := by
  induction ts generalizing u g with
  | nil => exact ⟨g, hu, rfl⟩
  | cons x ts ih =>
    unfold State.atomLanes
    rw [me_of hu]
    obtain ⟨g1, h1, e1⟩ := atomAt_issuing hu o x.2 (g.atomArgs o d x.1).1 (g.atomArgs o d x.1).2
    obtain ⟨g2, h2, e2⟩ := ih h1
    exact ⟨g2, h2, (congrArg (fun x : Sheaf => ({ x with slice := g.slice, peerDirty := g.peerDirty } : Sheaf)) e2).trans e1⟩

/-! ### What a release leaves of the sequencer and the teams -/

/-- The sequencer's queue, and the teams. -/
def State.orderView (s : State) : List SeqReq × List Team := (s.seqQ, s.teams)

theorem report_orderView (s : State) (ctx cause byte3 addr : Nat) (detail : List Byte) :
    (s.report ctx cause byte3 addr detail).orderView = s.orderView := by
  unfold State.report
  simp only
  split
  · split <;> rfl
  · rfl

theorem writeBackPeer_orderView (s : State) (line : Nat) : (s.writeBackPeer line).orderView = s.orderView := by
  have hreports : ∀ (lost : Bool) (ctxs : List Nat),
      (if lost then ctxs.foldl (fun (s : State) c => s.reportUncorr c line 255 0) s else s).orderView = s.orderView := by
    intro lost ctxs
    split
    · exact foldl_keep (fun (s : State) c => s.reportUncorr c line 255 0) State.orderView (fun _ _ => report_orderView _ _ _ _ _ _) _ s
    · rfl
  unfold State.writeBackPeer
  split
  · exact hreports _ _
  · unfold State.peerWriteBack
    split <;> rfl

theorem releaseAt_orderView (s : State) (reach : Nat) : (s.releaseAt reach).orderView = s.orderView := by
  unfold State.releaseAt
  split
  · refine Eq.trans ?_ (foldl_keep (fun (s : State) l => s.writeBackPeer l) State.orderView writeBackPeer_orderView s.me.peerDirty s)
    unfold State.modMe
    split <;> rfl
  · rfl

/-! ### A pending result -/

theorem moved_of_lanes {h' : Sheaf} (hl : g.lanes = h.lanes) (hm : Moved i g h') : Moved i h h' := by
  unfold Moved Sheaf.lane at hm ⊢
  rw [← hl]
  exact hm

/-- A pending destination added to a sheaf whose slices and dirty peer lines have changed, and the issue retired. -/
theorem addPending_retire_written (hv : v.Issuing i g) (hg : ({ g with slice := h.slice, peerDirty := h.peerDirty } : Sheaf) = h)
    (p : Nat → Pending) :
    ∃ h', (v.addPending p).retire.sheaf? i.sheaf = some h' ∧ Moved i h h' ∧ h'.pend = h.pend ++ [p v.nextId] ∧
      ({ h' with pend := h.pend, slice := h.slice, peerDirty := h.peerDirty, lanes := h.lanes, watchSkip := h.watchSkip } : Sheaf) = h ∧
      SameBut i.sheaf { v with nextId := v.nextId + 1 } (v.addPending p).retire := by
  obtain ⟨h', ⟨hsheaf, hsame, hmoved, -⟩, hpend, hflags, hraised, hrest⟩ := addPending_retire hv p
  rw [flags_or_empty] at hflags hraised
  rw [← hflags, ← hraised] at hrest
  have hlanes : g.lanes = h.lanes := (congrArg Sheaf.lanes hg :)
  have hold : g.pend = h.pend := (congrArg Sheaf.pend hg :)
  refine ⟨h', hsheaf, moved_of_lanes hlanes hmoved, hold ▸ hpend, ?_, hsame⟩
  exact (congrArg (fun x : Sheaf => ({ x with pend := h.pend, slice := h.slice, peerDirty := h.peerDirty, lanes := h.lanes
                                              watchSkip := h.watchSkip } : Sheaf)) hrest).trans
    (congrArg (fun x : Sheaf => ({ x with pend := h.pend, lanes := h.lanes, watchSkip := h.watchSkip } : Sheaf)) hg)

theorem addPending_setSeqQ (hv : v.Issuing i g) (p : Nat → Pending) (q : List SeqReq) :
    ({ v.addPending p with seqQ := q } : State) = ({ v with seqQ := q } : State).addPending p := by
  have hfresh : ({ v with nextId := v.nextId + 1 } : State).Issuing i g := issuing_of_eq hv rfl rfl
  have hboth : ({ v with seqQ := q, nextId := v.nextId + 1 } : State).Issuing i g := issuing_of_eq hv rfl rfl
  unfold State.addPending State.fresh
  simp only
  rw [modMe_of hfresh, modMe_of hboth]
  rfl

/-! ### The instruction -/

/-- Does an atomic release? -/
def atomReleases (r : Sys2Proof.Ordering) : Bool := r == .rel || r == .ar || r == .sc

theorem atomReleases_iff (r : Sys2Proof.Ordering) : atomReleases r = true ↔ r = .rel ∨ r = .ar ∨ r = .sc := by
  simp [atomReleases, or_assoc]

/-- The pending result of an atomic. -/
def State.atomPending (u : State) (h : Sheaf) (o : AtomOp) (d n : Nat) (vals : List (Nat × Nat × Word)) (tickets id : Nat) : Pending :=
  { id := id, pc := u.issuePc, vals := vals, regs := atomRegs o (h.wb + d), lanes := u.active, windows := windowsOf (lanesOf u.active) n
    since := u.now, tickets := tickets }

/-- The requests of an `.sc` atomic, one for each lane. -/
def atomRequests (h : Sheaf) (o : AtomOp) (d reach pend : Nat) (ok : List (Nat × Target)) : List SeqReq :=
  ok.map fun x =>
    { core := h.core, sheaf := h.id, lane := x.1, pend := some pend, op := some o, target := some x.2
      operand := (h.atomArgs o d x.1).1, compare := (h.atomArgs o d x.1).2, dreg := h.wb + d, rev := h.rev
      wide := decide (3 ≤ reach) }

/-- An `.sc` atomic enters the sequencer's queue. -/
def State.atomQueued (u : State) (h : Sheaf) (o : AtomOp) (d n reach : Nat) (ok : List (Nat × Target)) : State :=
  { u.addPending (u.atomPending h o d n [] ok.length) with
    seqQ := (u.addPending (u.atomPending h o d n [] ok.length)).seqQ ++ atomRequests h o d reach u.nextId ok }

/-- The acquire of an atomic, where it is one. -/
def State.atomAcquired (u : State) (r : Sys2Proof.Ordering) (reach : Nat) : State := if r = .acq ∨ r = .ar then u.acquireAt reach else u

/-- Another atomic is performed, and acquires. -/
def State.atomPerformed (u : State) (h : Sheaf) (o : AtomOp) (d n reach : Nat) (r : Sys2Proof.Ordering) (ok : List (Nat × Target)) : State :=
  ((u.atomLanes o d ok).2.atomAcquired r reach).addPending
    (((u.atomLanes o d ok).2.atomAcquired r reach).atomPending h o d n (u.atomLanes o d ok).1 0)

theorem atomAcquired_cores (u : State) (r : Sys2Proof.Ordering) (reach : Nat) (C : Cells Core) :
    ({ u.atomAcquired r reach with cores := C } : State) = { u with cores := C } := by
  unfold State.atomAcquired
  split
  · exact acquireAt_cores u reach C
  · rfl

theorem atomOp_order {space : Space} {d slot n : Nat} {o : AtomOp} {sc : Scope} {r : Sys2Proof.Ordering} {t : State}
    (ho : s.orderWait? (!(r == .sc)) (atomReleases r) = some t) : s.atomOp space d slot o sc r n = t := by
  unfold State.atomOp
  change (match s.orderWait? (!(r == .sc)) (atomReleases r) with | some t => t | none => _) = t
  rw [ho]

section
variable {space : Space} {d slot n : Nat} {o : AtomOp} {sc : Scope} {r : Sys2Proof.Ordering} {A : Nat → Dword} {c : Checked × State}
  (hi : s.Issuing i h) (ho : s.orderWait? (!(r == .sc)) (atomReleases r) = none) (hA : A = fun l => h.vget64 l (d + 2))
  (hc : c = s.checkLanes .atomic space (atomSize o) A (lanesOf i.lanes))
include hi ho hA hc

/-- Once nothing holds it back, an atomic is its checks and what follows from them. -/
theorem atomOp_eq : s.atomOp space d slot o sc r n =
    if sc = .team ∧ (c.2.teamIn h slot).isNone ∧ (c.1.bad.filter fun f => decide (causeRank f.cause < causeRank .space)).isEmpty then
      c.2.trapAll .space 0 0
    else match c.2.trapLanes (c.1.bad ++ c.2.watchLanes .atomic space (atomSize o) A) with
      | some t => t
      | none =>
        match c.2.localWait? space (atomSize o) A c.1.ok (c.2.storeWaits h c.1.ok) with
        | some t => t
        | none =>
          if r = .sc then ((if atomReleases r then c.2.releaseAt (s.reach h sc (some slot)) else c.2).atomQueued h o d n
            (s.reach h sc (some slot)) c.1.ok).retire
          else ((if atomReleases r then c.2.releaseAt (s.reach h sc (some slot)) else c.2).atomPerformed h o d n
            (s.reach h sc (some slot)) r c.1.ok).retire := by
  subst hA hc
  unfold State.atomOp
  rw [me_of hi, active_of hi]
  change (match s.orderWait? (!(r == .sc)) (atomReleases r) with | some t => t | none => _) = _
  rw [ho]
  rfl

omit hi ho hA hc in
theorem noTeam_iff : (sc = .team ∧ (c.2.teamIn h slot).isNone ∧ (c.1.bad.filter fun f => decide (causeRank f.cause < causeRank .space)).isEmpty) ↔
    (sc = .team ∧ c.2.teamIn h slot = none ∧ ∀ f ∈ c.1.bad, causeRank .space ≤ causeRank f.cause) := by
  simp only [Option.isNone_iff_eq_none, List.isEmpty_iff, List.filter_eq_nil_iff, decide_eq_true_eq, Nat.not_lt]

/-- An empty slot of a `.team` scope, with no cause above SPACE. -/
theorem atomOp_noTeam (hteam : sc = .team ∧ c.2.teamIn h slot = none ∧ ∀ f ∈ c.1.bad, causeRank .space ≤ causeRank f.cause) :
    s.atomOp space d slot o sc r n = c.2.trapAll .space 0 0 := by
  rw [atomOp_eq hi ho hA hc, if_pos (noTeam_iff.mpr hteam)]

variable (hteam : ¬ (sc = .team ∧ c.2.teamIn h slot = none ∧ ∀ f ∈ c.1.bad, causeRank .space ≤ causeRank f.cause))
include hteam

theorem atomOp_traps (hbad : c.1.bad ++ c.2.watchLanes .atomic space (atomSize o) A ≠ []) :
    ∃ cause lanes a, winning (c.1.bad ++ c.2.watchLanes .atomic space (atomSize o) A) = some (cause, lanes, a) ∧
      s.atomOp space d slot o sc r n = c.2.takeTrap i.sheaf cause 0 a lanes i.pc none := by
  have hchecked : c.2.Issuing i h := hc ▸ checkLanes_issuing hi .atomic space (atomSize o) A _
  obtain ⟨cause, lanes, a, hwin, htrap⟩ := trapLanes_of_cur hchecked.1 hbad
  exact ⟨cause, lanes, a, hwin, by rw [atomOp_eq hi ho hA hc, if_neg (noTeam_iff.not.mpr hteam), htrap]⟩

variable (hbad : c.1.bad ++ c.2.watchLanes .atomic space (atomSize o) A = [])
include hbad

theorem atomOp_waits (hw : (c.2.meetsRemote h.id c.1.ok (atomSize o) || c.2.storeWaits h c.1.ok) = true) :
    s.atomOp space d slot o sc r n = c.2.stallMe := by
  have hchecked : c.2.Issuing i h := hc ▸ checkLanes_issuing hi .atomic space (atomSize o) A _
  rw [atomOp_eq hi ho hA hc, if_neg (noTeam_iff.not.mpr hteam), hbad, trapLanes_nil, localWait_of_waits hchecked hw]

variable (hw : (c.2.meetsRemote h.id c.1.ok (atomSize o) || c.2.storeWaits h c.1.ok) = false)
include hw

theorem atomOp_behind {q : Pending} (hq : c.2.behindLoad space (atomSize o) A (c.1.ok.map fun y => y.1) = some q) :
    s.atomOp space d slot o sc r n = c.2.dependOnFault q := by
  have hchecked : c.2.Issuing i h := hc ▸ checkLanes_issuing hi .atomic space (atomSize o) A _
  rw [atomOp_eq hi ho hA hc, if_neg (noTeam_iff.not.mpr hteam), hbad, trapLanes_nil, localWait_of_free hchecked hw, hq, Option.map_some]

theorem atomOp_acts (hq : c.2.behindLoad space (atomSize o) A (c.1.ok.map fun y => y.1) = none) :
    s.atomOp space d slot o sc r n =
      if r = .sc then ((if atomReleases r then c.2.releaseAt (s.reach h sc (some slot)) else c.2).atomQueued h o d n
        (s.reach h sc (some slot)) c.1.ok).retire
      else ((if atomReleases r then c.2.releaseAt (s.reach h sc (some slot)) else c.2).atomPerformed h o d n
        (s.reach h sc (some slot)) r c.1.ok).retire := by
  have hchecked : c.2.Issuing i h := hc ▸ checkLanes_issuing hi .atomic space (atomSize o) A _
  rw [atomOp_eq hi ho hA hc, if_neg (noTeam_iff.not.mpr hteam), hbad, trapLanes_nil, localWait_of_free hchecked hw, hq, Option.map_none]

end

/-! ### What an atomic leaves -/

section
variable (hu : u.Issuing i g) (hg : ({ g with slice := h.slice, peerDirty := h.peerDirty } : Sheaf) = h) (o : AtomOp) (d n reach : Nat)
  (ok : List (Nat × Target))
include hu hg

/-- An atomic that is performed: its old values are pending. -/
theorem atomPerformed_retire (r : Sys2Proof.Ordering) : ∃ h' q, (u.atomPerformed h o d n reach r ok).retire.sheaf? i.sheaf = some h' ∧
    Moved i h h' ∧ h'.pend = h.pend ++ [q] ∧
    (q.regs = atomRegs o (h.wb + d) ∧ q.lanes = i.lanes ∧ q.windows = windowsOf (lanesOf i.lanes) n) ∧
    ({ h' with pend := h.pend, slice := h.slice, peerDirty := h.peerDirty, lanes := h.lanes, watchSkip := h.watchSkip } : Sheaf) = h ∧
    q.vals = (u.atomLanes o d ok).1 ∧ q.tickets = 0 ∧ (u.atomPerformed h o d n reach r ok).retire.mem = (u.atomLanes o d ok).2.mem ∧
    (u.atomPerformed h o d n reach r ok).retire.teams = (u.atomLanes o d ok).2.teams ∧
    (u.atomPerformed h o d n reach r ok).retire.seqQ = u.seqQ := by
  obtain ⟨g', hdone, hg'⟩ := atomLanes_issuing hu o d ok
  have hcores := atomAcquired_cores (u.atomLanes o d ok).2 r reach []
  have hacquired : ((u.atomLanes o d ok).2.atomAcquired r reach).Issuing i g' :=
    issuing_of_eq hdone (congrArg State.cur hcores :) (congrArg State.sheaves hcores :)
  have hsheaf : ({ g' with slice := h.slice, peerDirty := h.peerDirty } : Sheaf) = h :=
    (congrArg (fun x : Sheaf => ({ x with slice := h.slice, peerDirty := h.peerDirty } : Sheaf)) hg').trans hg
  obtain ⟨h', hthere, hmoved, hpend, hrest, hsame⟩ := addPending_retire_written hacquired hsheaf
    (((u.atomLanes o d ok).2.atomAcquired r reach).atomPending h o d n (u.atomLanes o d ok).1 0)
  have hmem : ((u.atomLanes o d ok).2.atomAcquired r reach).mem = (u.atomLanes o d ok).2.mem := (congrArg State.mem hcores :)
  have hteams : ((u.atomLanes o d ok).2.atomAcquired r reach).teams = (u.atomLanes o d ok).2.teams := (congrArg State.teams hcores :)
  have hqueue : ((u.atomLanes o d ok).2.atomAcquired r reach).seqQ = (u.atomLanes o d ok).2.seqQ := (congrArg State.seqQ hcores :)
  have hlanes : (u.atomLanes o d ok).2.seqQ = u.seqQ := (congrArg State.seqQ (atomLanes_butWritten o d ok u) :)
  refine ⟨h', _, hthere, hmoved, hpend, ⟨rfl, active_of hacquired, ?_⟩, hrest, rfl, rfl, (sameBut_mem hsame).trans hmem,
    (sameBut_teams hsame).trans hteams, ?_⟩
  · show windowsOf (lanesOf ((u.atomLanes o d ok).2.atomAcquired r reach).active) n = _
    rw [active_of hacquired]
  · exact (congrArg State.seqQ hsame.1 :).trans (hqueue.trans hlanes)

/-- An `.sc` atomic: its result stays pending until the sequencer has performed its requests. -/
theorem atomQueued_retire : ∃ h' q, (u.atomQueued h o d n reach ok).retire.sheaf? i.sheaf = some h' ∧ Moved i h h' ∧ h'.pend = h.pend ++ [q] ∧
    (q.regs = atomRegs o (h.wb + d) ∧ q.lanes = i.lanes ∧ q.windows = windowsOf (lanesOf i.lanes) n) ∧
    ({ h' with pend := h.pend, slice := h.slice, peerDirty := h.peerDirty, lanes := h.lanes, watchSkip := h.watchSkip } : Sheaf) = h ∧
    q.vals = [] ∧ q.tickets = ok.length ∧ (u.atomQueued h o d n reach ok).retire.mem = u.mem ∧
    (u.atomQueued h o d n reach ok).retire.teams = u.teams ∧
    (u.atomQueued h o d n reach ok).retire.seqQ = u.seqQ ++ atomRequests h o d reach u.nextId ok := by
  have hkept : (u.addPending (u.atomPending h o d n [] ok.length)).seqQ = u.seqQ := by
    have hfresh : ({ u with nextId := u.nextId + 1 } : State).Issuing i g := issuing_of_eq hu rfl rfl
    unfold State.addPending State.fresh
    simp only
    rw [modMe_of hfresh]
    rfl
  have hqueued : u.atomQueued h o d n reach ok = ({ u with seqQ := u.seqQ ++ atomRequests h o d reach u.nextId ok } : State).addPending
      (u.atomPending h o d n [] ok.length) := by
    rw [State.atomQueued, hkept, addPending_setSeqQ hu]
  have hentered : ({ u with seqQ := u.seqQ ++ atomRequests h o d reach u.nextId ok } : State).Issuing i g := issuing_of_eq hu rfl rfl
  obtain ⟨h', hthere, hmoved, hpend, hrest, hsame⟩ := addPending_retire_written hentered hg (u.atomPending h o d n [] ok.length)
  rw [hqueued]
  refine ⟨h', _, hthere, hmoved, hpend, ⟨rfl, active_of hu, ?_⟩, hrest, rfl, rfl, (sameBut_mem hsame :), (sameBut_teams hsame :),
    (congrArg State.seqQ hsame.1 :)⟩
  show windowsOf (lanesOf u.active) n = _
  rw [active_of hu]

end

/-- The release of an atomic, if it is one: the issue stays, and the sequencer's queue and the teams. -/
theorem atomRelease_spec (hu : u.Issuing i h) (r : Sys2Proof.Ordering) (reach : Nat) :
    (∃ g, (if atomReleases r then u.releaseAt reach else u).Issuing i g ∧ ({ g with slice := h.slice, peerDirty := h.peerDirty } : Sheaf) = h) ∧
      (if atomReleases r then u.releaseAt reach else u).orderView = u.orderView := by
  split
  · obtain ⟨p, hp⟩ := releaseAt_issuing hu reach
    exact ⟨⟨_, hp, rfl⟩, releaseAt_orderView u reach⟩
  · exact ⟨⟨h, hu, rfl⟩, rfl⟩

/-- The value written, in the words of R314/15. -/
theorem atomNew_values (old x : Dword) : ∀ p ∈ ([(.addI32, (old.setWidth 32 + x.setWidth 32 : Word).setWidth 64), (.addI64, old + x),
    (.faddF16, atomFadd .f16 old x), (.faddBf16, atomFadd .bf16 old x), (.faddF32, atomFadd .f32 old x), (.faddF64, atomFadd .f64 old x),
    (.minI32, low32 minS old x), (.minN32, low32 minU old x), (.minI64, minS old x), (.minN64, minU old x),
    (.maxI32, low32 maxS old x), (.maxN32, low32 maxU old x), (.maxI64, maxS old x), (.maxN64, maxU old x),
    (.andB32, low32 (fun a b => a &&& b) old x), (.andB64, old &&& x), (.orB32, low32 (fun a b => a ||| b) old x), (.orB64, old ||| x),
    (.xorB32, low32 (fun a b => a ^^^ b) old x), (.xorB64, old ^^^ x),
    (.exchB32, x), (.exchB64, x), (.casB32, x), (.casB64, x)] : List (AtomOp × Dword)), atomNew p.1 old x = p.2 := by
  intro p hp
  fin_cases hp <;> rfl

/-- Settles O31: the values by the table of the operations, an atomic by its checks, its waits, and what it leaves pending. -/
theorem atomics : Obligations.Atomics := by
  unfold Obligations.Atomics
  refine ⟨fun old x => ?values, fun s i h d slot n o sc r hi p hp => ?instruction⟩
  case values =>
    have hvalues := atomNew_values old x
    simp only [low32, minS_eq, minU_eq, maxS_eq, maxU_eq] at hvalues
    exact hvalues
  case instruction =>
    have hexec : exec p.1 s = .next (s.atomOp p.2 d slot o sc r n) := by fin_cases hp <;> rfl
    refine ⟨fun t ho => ?order, fun ho => ⟨fun hteam => ?noTeam, fun q hteam hbad hw hq => ?behind, fun hteam hbad hw hq => ?acts,
      fun hteam hbad hw => ?waits, fun hteam hbad => ?traps⟩⟩
    case order => exact hexec.trans (congrArg Host.Outcome.next (atomOp_order ho))
    case noTeam => exact hexec.trans (congrArg Host.Outcome.next (atomOp_noTeam hi ho rfl rfl hteam))
    case behind => exact hexec.trans (congrArg Host.Outcome.next (atomOp_behind hi ho rfl rfl hteam hbad hw hq))
    case waits => exact hexec.trans (congrArg Host.Outcome.next (atomOp_waits hi ho rfl rfl hteam hbad hw))
    case traps =>
      obtain ⟨cause, lanes, a, hwin, htrap⟩ := atomOp_traps hi ho rfl rfl hteam hbad
      exact ⟨cause, lanes, a, hwin, hexec.trans (congrArg Host.Outcome.next htrap)⟩
    case acts =>
      have hcaches := onlyCaches_checkLanes s .atomic p.2 (atomSize o) (fun l => h.vget64 l (d + 2)) (lanesOf i.lanes) fun f hf => by
        rw [(List.append_eq_nil_iff.mp hbad).1] at hf
        cases hf
      obtain ⟨⟨g, hu, hg⟩, hview⟩ := atomRelease_spec (onlyCaches_issuing hcaches hi) r (s.reach h sc (some slot))
      have hacts := atomOp_acts (n := n) hi ho rfl rfl hteam hbad hw hq
      simp only [atomReleases_iff] at hu hview hacts
      have horder := hview.trans (congrArg State.orderView hcaches.1 :)
      by_cases hsc : r = .sc
      · obtain ⟨h', q, hthere, hmoved, hpend, ⟨hregs, hlanes, hwindows⟩, hrest, hvals, htickets, hmem, hteams, hqueue⟩ :=
          atomQueued_retire hu hg o d n (s.reach h sc (some slot))
            (s.checkLanes .atomic p.2 (atomSize o) (fun l => h.vget64 l (d + 2)) (lanesOf i.lanes)).1.ok
        refine ⟨_, h', q, hexec.trans (congrArg Host.Outcome.next (hacts.trans (if_pos hsc))), hthere, hmoved, hpend, hregs, hlanes, hwindows, hrest,
          fun hne => absurd hsc hne, fun _ => ⟨hvals, htickets, hmem, hteams.trans (congrArg Prod.snd horder :), ?_⟩⟩
        rw [hqueue, List.map_append, atomRequests, List.map_map]
        exact congrArg (fun q : List SeqReq => q.map (fun e => (e.sheaf, e.lane, e.op, e.target, e.operand)) ++ _) (congrArg Prod.fst horder :)
      · obtain ⟨h', q, hthere, hmoved, hpend, ⟨hregs, hlanes, hwindows⟩, hrest, hvals, htickets, hmem, hteams, hqueue⟩ :=
          atomPerformed_retire hu hg o d n (s.reach h sc (some slot))
            (s.checkLanes .atomic p.2 (atomSize o) (fun l => h.vget64 l (d + 2)) (lanesOf i.lanes)).1.ok r
        exact ⟨_, h', q, hexec.trans (congrArg Host.Outcome.next (hacts.trans (if_neg hsc))), hthere, hmoved, hpend, hregs, hlanes, hwindows, hrest,
          fun _ => ⟨hvals, htickets, hmem, hteams, hqueue.trans (congrArg Prod.fst horder :)⟩, fun hr => absurd hr hsc⟩

end Sys2Proof.Machine
end

section
/-! SUPPORT. A `phase` whose carry table entry lies behind a page table entry that crosses a line (R52/02, R112/04, R174/07, R328/16). Refutes O34. -/

namespace Sys2Proof.Machine

/-- Page table entries and data of a context whose first-stage root lies 124 bytes into a peer line, so that its first entry takes four
bytes of that line and four of the next. That entry names the table at 4 GiB; its first four bytes alone name the table at 0, which has
no mapping. The first stage maps virtual 0 to the barn, where the carry table's entry keeps vector register 0 and scalar 0. -/
def tornMemory : Memory :=
  let firstStage := [(0, 0x100001001), (0x1000, 0x14000003D), (peerBase + 124, 0x100000001)]
  let secondStage := [(0x100000, 0x101001), (0x101000, 0x102001), (0x102008, 0x800000000003D), (0x102020, 0x3D), (0x102028, 0x40000000003D)]
  let carryTable := [(barnAlias, 1), (barnAlias + 16, 1)]
  (firstStage ++ secondStage ++ carryTable).foldl (fun (m : Memory) (x : Nat × Nat) => m.write x.1 (bytesOfNat 8 x.2)) []

/-- All lanes have gathered at a `phase`. -/
def tornWait : Wait := ⟨BitVec.allOnes 64, 0x1000, .gather 2 0 0 0, 0, false, 0, 0⟩

/-- A sheaf with 5 in scalar 0. -/
def tornSheaf : Sheaf := { tSheaf with s := [(0, 5)], waits := [tornWait] }

/-- It issues the `phase` in the next cycle, with its vector register 0 spilled to a backing slot in the peer line of the page table. -/
def tornState : State :=
  { tBy tIssue tornSheaf with
    cycle := 1, mem := tornMemory
    cores := [(0, { res := [{ ctx := 0, cold := [(1, 0)] }] })]
    ctxs := [(0, { root1 := 2 ^ 30 + 124, root2 := 0x100000, backing := [2 ^ 30] })] }

/-- A scalar of a sheaf once an instruction has executed. -/
def scalarAfter (o : Out) (k n : Nat) : Option Dword :=
  match o with
  | .next t => (t.sheaf? k).map fun (h : Sheaf) => h.sget n
  | _ => none

/-- The issuing state names scalar 0 as one that the carry set keeps. -/
theorem tornState_keeps_scalar : (carryScalar (tornState.carryEntry (tornState.launchOf tornSheaf) 0)).testBit 0 = true := by decide +kernel

/-- Drawing the spilled register brings the peer line into the L2, which then serves the entry that crosses its end by four bytes: the carry
table has no mapping any more, and the phase record keeps no scalar. -/
theorem tornState_loses_scalar : scalarAfter (exec (.phase 0 0) tornState) 1 0 = some 0 := by decide +kernel

theorem tornState_gathered : tornSheaf.gatherAt tIssue.pc = some tornWait := by decide +kernel

theorem tornState_team : tornState.teamIn tornSheaf 0 = some tTeam := by decide +kernel

theorem tornSheaf_pcs : ∀ l, l < 64 → tornWait.lanes.getLsbD l → (tornSheaf.lane l).pc = tIssue.pc := by decide +kernel

/-- Refutes O34: the carry set of a `phase` is read before the spilled registers are drawn and once more after that, and drawing them may
bring a peer line into the L2 that changes what a page table entry across two lines reads as. R174/07 puts each root at a multiple of
4 KiB, so no entry crosses a line; the statement does not ask for that. -/
theorem not_barrierArrivals : ¬ Obligations.BarrierArrivals := by
  unfold Obligations.BarrierArrivals
  intro hall
  obtain ⟨-, harrive⟩ := hall tornState tIssue tornSheaf 0 0 0 (tBy_issuing tIssue tornSheaf rfl) (by decide)
  obtain ⟨-, hlevel0⟩ := harrive tornWait tTeam tornState_gathered (by decide) (by decide) (by decide) rfl
    (fun r hr => absurd hr List.not_mem_nil) (fun r hr => absurd hr List.not_mem_nil)
  obtain ⟨-, -, hphase⟩ := hlevel0 tornSheaf_pcs rfl (by decide +kernel) (by decide +kernel)
  obtain ⟨t, h', g, hexec, hthere, -, -, -, -, -, -, -, -, -, hscalars, -⟩ := hphase tornState_team
  have hkept : h'.sget 0 = 5 := (hscalars 0).trans (if_pos tornState_keeps_scalar)
  have hlost : some (h'.sget 0) = some 0 := by
    rw [← tornState_loses_scalar, hexec, scalarAfter, show t.sheaf? 1 = some h' from hthere, Option.map_some]
  rw [hkept] at hlost
  exact absurd hlost (by decide)

end Sys2Proof.Machine
end
